-- ==== Sys2Proof/Word.lean ====
section
/-! DEFINITION. The word types of the Ilnavik N4 (R4, R42, R60, R124). -/

namespace Sys2Proof

/-- One byte of memory or of a lane's register space. -/
abbrev Byte := BitVec 8

/-- A 32-bit word of the v-view or an instruction word of the scalar stream. -/
abbrev W32 := BitVec 32

/-- A scalar register, a queue entry or an address. -/
abbrev W64 := BitVec 64

/-- One bit for each of the at most 1,024 lane slots of a role (R123). -/
abbrev Mask := BitVec 1024

end Sys2Proof
end

