-- ==== Sys2Proof/Config.lean ====
section
/-! DEFINITION. What the manual leaves open or to the implementation: constants without a body, so
that nothing can evaluate them and every statement about them holds whatever they are. -/

namespace Sys2Proof

/-- FREE VALUE (log 2): an unspecified byte (R96, R157, R237, R267), by the state's counter `free` and
a key that tells the bytes of one step apart. -/
opaque Config.freeByte (counter key : Nat) : Byte

/-- FREE VALUE (log 2): which of two allowed outcomes is taken (R157: own value or returned value). -/
opaque Config.freeBit (counter key : Nat) : Bool

/-- FREE VALUE (log 12): the HBM refresh cost of a partition for one interval, in pJ (R382). -/
opaque Config.refreshFare (part counter : Nat) : Nat

/-- FREE VALUE (log 67): the exponent of the scale derived from an AMAX field that software stored as an Inf, a NaN
or a negative number, from its kind, its sign and the margin (R33). -/
opaque Config.amaxExp (finite neg : Bool) (margin : Int) : Int

/-- FREE VALUE (log 8): the firmware measurement that an attestation report binds (R394). -/
opaque Config.firmwareMeasurement : BitVec 256

/-- FREE VALUE (log 12): the static power of one core for one interval, in pJ (R382). -/
opaque Config.staticFare (core counter : Nat) : Nat

/-- FREE VALUE (log 12): what a partition's overhead account takes for one interval, in pJ (R382). -/
opaque Config.overheadFare (part counter : Nat) : Nat

/-- FREE VALUE (log 28): the word that a read of MIGRATE gives for each status of the latest request, which R331 names and
does not number (R381). -/
opaque Config.migStatusWord (status : Nat) : BitVec 64

/-- FREE VALUE (log 26): the number that tells FAILED in the record of a killed team, which R340's table does not list
(R386). -/
opaque Config.failedCode : BitVec 16

/-- FREE VALUE (log 8): the secret seed of the device's security root (R393). -/
opaque Config.xmssSeed : BitVec 256

/-- FREE VALUE (log 8): the key of its randomizers. -/
opaque Config.xmssPrf : BitVec 256

/-- FREE VALUE (log 8): its public seed. -/
opaque Config.xmssPubSeed : BitVec 256

/-- FREE VALUE (log 8): the root of the public key under which firmware images and device identities are signed (R393). -/
opaque Config.vendorRoot : BitVec 256

/-- FREE VALUE (log 8): the seed of that public key. -/
opaque Config.vendorSeed : BitVec 256

/-- FREE VALUE (log 8): what the device identity says of the device (R393). -/
opaque Config.deviceName : BitVec 256

/-- FREE VALUE (log 8): the signature of the device identity, as the part was made. -/
opaque Config.identitySignature : Nat

end Sys2Proof
end

