-- ==== Sys2Proof/Machine/NMap.lean ====
section
/-! DEFINITION. Finite maps by a natural key, as plain lists. `get` answers a default for a key that
is not listed. `set` keeps the canonical form (keys strictly rising, no entry equal to the default)
and is used for memory and registers; `put` stores whatever it is given and is used for records. -/

namespace Sys2Proof

/-- A finite map: key and value pairs. -/
abbrev NMap (α : Type) := List (Nat × α)

/-- The value at a key, or the default. -/
def NMap.get {α : Type} (d : α) : NMap α → Nat → α
  | [], _ => d
  | (k', v) :: t, k => if k = k' then v else NMap.get d t k

/-- The value at a key, if listed. -/
def NMap.get? {α : Type} : NMap α → Nat → Option α
  | [], _ => none
  | (k', v) :: t, k => if k = k' then some v else NMap.get? t k

/-- Is the key listed? -/
def NMap.has {α : Type} (m : NMap α) (k : Nat) : Bool := (m.get? k).isSome

/-- The map without a key. -/
def NMap.erase {α : Type} : NMap α → Nat → NMap α
  | [], _ => []
  | (k', v) :: t, k => if k = k' then NMap.erase t k else (k', v) :: NMap.erase t k

/-- A pair put before the first larger key. -/
def NMap.ins {α : Type} : NMap α → Nat → α → NMap α
  | [], k, v => [(k, v)]
  | (k', v') :: t, k, v => if k < k' then (k, v) :: (k', v') :: t else (k', v') :: NMap.ins t k v

/-- Store a value, listed even when it is a default. -/
def NMap.put {α : Type} (m : NMap α) (k : Nat) (v : α) : NMap α := NMap.ins (NMap.erase m k) k v

/-- Store a value; storing the default removes the entry. -/
def NMap.set {α : Type} [DecidableEq α] (d : α) (m : NMap α) (k : Nat) (v : α) : NMap α :=
  if v = d then NMap.erase m k else NMap.ins (NMap.erase m k) k v

/-- Change the value at a key. -/
def NMap.upd {α : Type} (d : α) (m : NMap α) (k : Nat) (f : α → α) : NMap α :=
  NMap.put m k (f (NMap.get d m k))

/-- Canonical form: keys strictly rising above a bound, no entry equal to the default. -/
def NMap.wfFrom {α : Type} [DecidableEq α] (d : α) : Option Nat → NMap α → Bool
  | _, [] => true
  | b, (k, v) :: t =>
    (match b with | none => true | some lo => decide (lo < k)) && decide (v ≠ d) && NMap.wfFrom d (some k) t

/-- Canonical form of a whole map. -/
def NMap.wf {α : Type} [DecidableEq α] (d : α) (m : NMap α) : Bool := NMap.wfFrom d none m

/-- The listed keys. -/
def NMap.keys {α : Type} (m : NMap α) : List Nat := m.map Prod.fst

/-- Keep the entries whose key and value satisfy a test. -/
def NMap.keep {α : Type} (p : Nat → α → Bool) (m : NMap α) : NMap α := m.filter fun e => p e.1 e.2

end Sys2Proof
end

