-- ==== Sys2Proof/Machine/Bits.lean ====
section
/-! DEFINITION. Bit fields, byte order, sign extension and the bit operations that several
instructions share (R4, R104, R175). -/

namespace Sys2Proof.Machine
open Sys2Proof

/-- The field of `len` bits of `w` that starts at bit `lo` (R4). -/
def fieldOf (w lo len : Nat) : Nat := w / 2 ^ lo % 2 ^ len

/-- Bit `i` of a number. -/
def bitOf (w i : Nat) : Bool := w / 2 ^ i % 2 == 1

/-- A bit as a number. -/
def b2n (b : Bool) : Nat := if b then 1 else 0

/-- The `n` low bytes of a number, least significant first (R4). -/
def leBytes : Nat → Nat → List Byte
  | 0, _ => []
  | n + 1, v => BitVec.ofNat 8 v :: leBytes n (v / 256)

/-- The number that bytes give, least significant first (R4). -/
def leNat : List Byte → Nat
  | [] => 0
  | b :: t => b.toNat + 256 * leNat t

/-- Sign extension of the low `n` bits of a number to 64 bits. -/
def sext64 (n v : Nat) : W64 := (BitVec.ofNat n v).signExtend 64

/-- `[lo, lo+1, …]`, `n` numbers. -/
def rangeFrom : Nat → Nat → List Nat
  | _, 0 => []
  | lo, n + 1 => lo :: rangeFrom (lo + 1) n

/-- Carry-less product of the low `n` bits of `b` with `a` (R104). -/
def clmulNat (a b : Nat) : Nat → Nat
  | 0 => 0
  | n + 1 => (if bitOf b n then a * 2 ^ n else 0) ^^^ clmulNat a b n

/-- Number of one bits among the low `n`. -/
def popcNat (a : Nat) : Nat → Nat
  | 0 => 0
  | n + 1 => b2n (bitOf a n) + popcNat a n

/-- Leading zero bits of an `n`-bit number; `n` when it is zero (R100, R175). -/
def clzNat (a : Nat) : Nat → Nat
  | 0 => 0
  | n + 1 => if bitOf a n then 0 else 1 + clzNat a n

/-- Trailing zero bits among `n` bits from bit `i` on (R175). -/
def ctzFrom (a : Nat) : Nat → Nat → Nat
  | _, 0 => 0
  | i, n + 1 => if bitOf a i then 0 else 1 + ctzFrom a (i + 1) n

/-- Trailing zero bits of an `n`-bit number; `n` when it is zero. -/
def ctzNat (a n : Nat) : Nat := ctzFrom a 0 n

/-- The bits reversed: bit `j` of `n` moves to bit `n - 1 - j`, where `i` bits are left (R100, R175). -/
def brevNat (a n : Nat) : Nat → Nat
  | 0 => 0
  | i + 1 => b2n (bitOf a i) * 2 ^ (n - 1 - i) + brevNat a n i

/-- A number below `2^n` read as two's complement. -/
def toSigned (n v : Nat) : Int := if bitOf v (n - 1) then (v : Int) - 2 ^ n else v

/-- An integer wrapped to `n` bits (R101). -/
def wrapInt (n : Nat) (t : Int) : Nat := (t % 2 ^ n).toNat

/-- Division rounded up. -/
def ceilDiv (a b : Nat) : Nat := (a + b - 1) / b

/-- First element of a list with its index, that satisfies a test. -/
def findIdxFrom {α : Type} (p : α → Bool) : Nat → List α → Option (Nat × α)
  | _, [] => none
  | i, a :: t => if p a then some (i, a) else findIdxFrom p (i + 1) t

end Sys2Proof.Machine
end

