-- ==== Sys2Proof/Syntax.lean ====
section
/-! DEFINITION. The syntax: every row of the table of operations and events is one constructor of
`Instr`. Words of the scalar and lane streams are decoded syntax (R62 to R78), engine commands are
decoded queue words (R265, R268, R351, R401, R402), events carry the ids of what they act on. -/

namespace Sys2Proof

/-- A scalar register field (R63): `s0`–`s47`, or a queue register `q0`–`q15`. -/
inductive SReg where
  | s (n : Fin 48)
  | q (n : Fin 16)
  deriving DecidableEq, Repr

/-- Width and signedness of a scalar load (R70). -/
inductive LdWidth where
  | n8 | i8 | n16 | i16 | n32 | i32 | b64
  deriving DecidableEq, Repr

/-- Width of a scalar store (R70: stores use only codes 0, 2, 4 and 6). -/
inductive StWidth where
  | n8 | n16 | n32 | b64
  deriving DecidableEq, Repr

/-- The hold field of a lane word (R54). -/
inductive Hold where
  | none | a | b | c
  deriving DecidableEq, Repr

/-- Special operand values (R74, R151). -/
inductive Special where
  | lid | grp | role | team | core | clus | die
  deriving DecidableEq, Repr

/-- A 14-bit operand code (R74). `v 0` is also the code 0x0000 of an unused field. -/
inductive Opnd where
  | v (n : BitVec 8)
  | w (view : BitVec 3) (n : BitVec 9)
  | snap (n : BitVec 4)
  | latch (n : Fin 3)
  | spec (sp : Special)
  | imm (i : BitVec 12)
  deriving DecidableEq, Repr

/-- The shared control fields of a lane word (R73). -/
structure LaneCtl where
  sw : Bool
  hold : Hold
  k : BitVec 4
  kn : Bool
  deriving DecidableEq, Repr

/-- Integer operand type IT (R99). -/
inductive ITy where
  | i32 | n32 | i64 | n64
  deriving DecidableEq, Repr

/-- Conditions of VCMP (R99). -/
inductive ICond where
  | eq | ne | lt | le | gt | ge
  deriving DecidableEq, Repr

/-- Conditions of VFCMP (R105). -/
inductive FCond where
  | eq | ne | lt | le | gt | ge | ord | uno
  deriving DecidableEq, Repr

/-- Floating-point operand type FT (R105). -/
inductive FTy where
  | f32 | f16x2 | bf16x2
  deriving DecidableEq, Repr

/-- Rounding modes (R16). -/
inductive Rnd where
  | rne | rtz | rup | rdn | stoch
  deriving DecidableEq, Repr

/-- FT, RND and SAT of a rounding form (R105). -/
structure FMode where
  ft : FTy
  rnd : Rnd
  sat : Bool
  deriving DecidableEq, Repr

/-- Assigned element formats (R23). -/
inductive Fmt where
  | e2m1 | e4m3 | e5m2 | bf16 | f16 | f32 | i8 | n8 | i32 | n32 | i64 | n64 | b32
  deriving DecidableEq, Repr

/-- The field of VBFEXT and VBFINS (R103). -/
inductive BfSel where
  | const (pos lenM1 : BitVec 6)
  | var (b : Opnd)
  deriving DecidableEq, Repr

/-- VVOTE modes (R140). -/
inductive VoteMode where
  | ballot | any | all | count | pre | first
  deriving DecidableEq, Repr

/-- VSHFL modes (R141). -/
inductive ShflMode where
  | idx | up | down | xor
  deriving DecidableEq, Repr

/-- VTOS modes (R142). -/
inductive TosMode where
  | first | or | add | count
  deriving DecidableEq, Repr

/-- VATOM operations (R138). -/
inductive AOp where
  | add | and | or | xor | min | max | minn | maxn | swap | cas | fadd
  deriving DecidableEq, Repr

/-- Access width of a lane memory word, 8 to 128 bits (R76). -/
inductive MWidth where
  | b8 | b16 | b32 | b64 | b128
  deriving DecidableEq, Repr

/-- Full/empty qualifiers (R76, R136). -/
inductive FE where
  | ignore | waitFull | waitClear | setFull
  deriving DecidableEq, Repr

/-- The memory fields of an LM word (R76). `addr` of `imm 0` stands for no register part. -/
structure LMem where
  width : MWidth
  scratch : Bool
  fe : FE
  addr : Opnd
  sbase : BitVec 4
  off : BitVec 24
  deriving DecidableEq, Repr

/-- The fields that VMMA and VMMAS use (R77, R239). -/
structure LxMul where
  sw : Bool
  fsa : BitVec 3
  fsb : BitVec 3
  accview : BitVec 3
  aview : BitVec 3
  bsel : BitVec 4
  ssel : BitVec 4
  kcnt : BitVec 8
  msel : BitVec 3
  gang : Bool
  order : Bool
  sparse : BitVec 2
  z : Bool
  wf : Bool
  deriving DecidableEq, Repr

/-- DRED's reductions (R358). -/
inductive RedOp where
  | add | fadd | maxn | fmax
  deriving DecidableEq, Repr

/-- An address space of a command operand (R265). -/
inductive Space where
  | glob | scr | host
  deriving DecidableEq, Repr

/-- The fields every copy command has (R265): tag, EV, and the WT token address and value. -/
structure CmdTail where
  tag : BitVec 16
  ev : Bool
  wt : Option (W64 × W64)
  deriving DecidableEq, Repr

/-- Shape, strides and base addresses of CP, CPCV, RDST (R267). FILL has no source. -/
structure Shape where
  src : W64
  dst : W64
  e0 : Nat
  e1 : Nat
  e2 : Nat
  s1 : W32
  s2 : W32
  d1 : W32
  d2 : W32
  deriving DecidableEq, Repr

/-- The signal step (R271). -/
inductive Signal where
  | none
  | token (addr val : W64)
  | barrier (addr : W64)
  deriving DecidableEq, Repr

structure CpCmd where
  dsp : Space
  ssp : Space
  esz : Nat
  swz : Bool
  shape : Shape
  tail : CmdTail
  deriving DecidableEq, Repr

structure FillCmd where
  dsp : Space
  esz : Nat
  swz : Bool
  shape : Shape
  value : W64
  tail : CmdTail
  deriving DecidableEq, Repr

structure GathCmd where
  dsp : Space
  ssp : Space
  isp : Space
  esz : Nat
  src : W64
  dst : W64
  idx : W64
  count : Nat
  rb : Nat
  sp : W32
  dp : W32
  tail : CmdTail
  deriving DecidableEq, Repr

structure CpcvCmd where
  dsp : Space
  ssp : Space
  sf : Fmt
  fs : BitVec 3
  swz : Bool
  wb : Bool
  shape : Shape
  sca : W64
  tail : CmdTail
  deriving DecidableEq, Repr

structure RdstCmd where
  ssp : Space
  sf : Fmt
  fs : BitVec 3
  wb : Bool
  shape : Shape
  sig : Signal
  tail : CmdTail
  deriving DecidableEq, Repr

structure SigCmd where
  sig : Signal
  tail : CmdTail
  deriving DecidableEq, Repr

/-- A depot task (R351). -/
structure TaskCmd where
  ilen : Nat
  lanes : Nat
  code : W64
  row0 : W64
  rstride : W64
  nrows : Nat
  seed : W32
  args : List W64
  wt : Option (W64 × W64)
  ct : Option (W64 × W64)
  ev : Bool
  tag : BitVec 16
  deriving DecidableEq, Repr

/-- Fields common to RWR, RRD, RSIG (R401, R402). -/
structure RemTail where
  ord : Bool
  peer : Nat
  tmo : Nat
  wt : Option (W64 × W64)
  ct : Option (W64 × W64)
  ev : Bool
  tag : BitVec 16
  deriving DecidableEq, Repr

structure RwrCmd where
  lscr : Bool
  laddr : W64
  raddr : W64
  len : Nat
  mtag : W32
  tail : RemTail
  deriving DecidableEq, Repr

structure RrdCmd where
  lscr : Bool
  laddr : W64
  raddr : W64
  len : Nat
  tail : RemTail
  deriving DecidableEq, Repr

structure RsigCmd where
  raddr : W64
  value : W64
  mtag : W32
  tail : RemTail
  deriving DecidableEq, Repr

structure PostCmd where
  mtag : W32
  count : Nat
  caddr : W64
  tail : RemTail
  deriving DecidableEq, Repr

/-- What arrives from another package (R404 to R406, R409): part of a remote write, of a remote
read request, or a signal. -/
inductive Inbound where
  | write (addr : W64) (data : List Byte) (mtag : W32)
  | read (addr : W64) (len : Nat)
  | signal (addr val : W64) (mtag : W32)
  deriving DecidableEq, Repr

/-- What comes in of a message (R399, R400): the message of a command, the number of the segment among the `count` segments of
that, and what it brings. -/
structure InPart where
  msg : Nat
  seg : Nat
  count : Nat
  body : Inbound
  deriving DecidableEq, Repr

/-- Privileged window registers whose write has no behaviour of its own (R381, R400). -/
inductive WinReg where
  | segV (vf : Nat) (n : Fin 8)
  | segI (vf : Nat) (n : Fin 8)
  | wbtBase (vf : Nat)
  | wbtCnt (vf : Nat)
  | vfPerf (vf : Nat)
  | hostWinBase (vf : Nat) (n : Fin 4)
  | hostWinSize (vf : Nat) (n : Fin 4)
  | peer (vf : Nat) (n : Fin 64)
  | dieMap (part : Nat) (region : BitVec 16)
  | errCnt (die : Fin 4)
  | regErr (core : Nat)
  deriving DecidableEq, Repr

/-- The fault ring registers (R381). -/
inductive RingReg where
  | base | size | tail | head
  deriving DecidableEq, Repr

/-- What a scrub of one HBM line finds (R335). -/
inductive ScrubResult where
  | clean | corrected | uncorrectable
  deriving DecidableEq, Repr

/-- The instruction set: one constructor for each row of the table. -/
inductive Instr where
  -- scalar integer group (R66, R175)
  | add (d a b : SReg) | sub (d a b : SReg) | mul (d a b : SReg) | mulh (d a b : SReg)
  | mulhn (d a b : SReg) | div (d a b : SReg) | divn (d a b : SReg) | rem (d a b : SReg)
  | remn (d a b : SReg) | and (d a b : SReg) | or (d a b : SReg) | xor (d a b : SReg)
  | andn (d a b : SReg) | shl (d a b : SReg) | shr (d a b : SReg) | sra (d a b : SReg)
  | rot (d a b : SReg) | min (d a b : SReg) | max (d a b : SReg) | minn (d a b : SReg)
  | maxn (d a b : SReg) | clz (d a : SReg) | ctz (d a : SReg) | popc (d a : SReg)
  | brev (d a : SReg) | clmul (d a b : SReg) | clmulh (d a b : SReg) | sel (d a b : SReg)
  | seq (d a b : SReg) | sne (d a b : SReg) | slt (d a b : SReg) | sltn (d a b : SReg)
  -- control and system group (R67)
  | jr (a : SReg) | ret | fence (scope : Fin 7) | qfence (mask : BitVec 6) (scope : Fin 7)
  | barav (a : SReg) | barwt (a : SReg) | waita (d a b : SReg) | yield | exit | vdrain
  | view (i : Fin 8) (a : SReg) | gang (a : SReg) | mset (g : Fin 32) (a : SReg)
  | txcommit (a b : SReg) | txabort | launch (d a : SReg) | perf (a b : SReg)
  | clnr (a b : SReg) | invr (a b : SReg) | cliv (a b : SReg) | tret | nop | brk | relay
  | wbsync (a : SReg)
  -- atomics (R68, R182)
  | atomAdd (d a b : SReg) (sc : Fin 8) | atomAnd (d a b : SReg) (sc : Fin 8)
  | atomOr (d a b : SReg) (sc : Fin 8) | atomXor (d a b : SReg) (sc : Fin 8)
  | atomMin (d a b : SReg) (sc : Fin 8) | atomMax (d a b : SReg) (sc : Fin 8)
  | atomMinn (d a b : SReg) (sc : Fin 8) | atomMaxn (d a b : SReg) (sc : Fin 8)
  | atomSwap (d a b : SReg) (sc : Fin 8) | atomCas (d a b : SReg) (sc : Fin 8)
  | atomBfim (d a b : SReg) (sc : Fin 8) | atomFfcs (d a b : SReg) (sc : Fin 8)
  | atomPlset (d a b : SReg) (sc : Fin 8)
  -- immediates (R69, R177, R178)
  | addi (d a : SReg) (i : BitVec 13) | andi (d a : SReg) (i : BitVec 13)
  | ori (d a : SReg) (i : BitVec 13) | xori (d a : SReg) (i : BitVec 13)
  | shli (d a : SReg) (i : BitVec 6) | shri (d a : SReg) (i : BitVec 6)
  | srai (d a : SReg) (i : BitVec 6)
  | bfext (d a : SReg) (lenM1 pos : BitVec 6) | bfins (d a : SReg) (lenM1 pos : BitVec 6)
  -- memory (R181)
  | ld (d a : SReg) (w : LdWidth) (off : BitVec 10) | st (d a : SReg) (w : StWidth) (off : BitVec 10)
  | sld (d a : SReg) (w : LdWidth) (off : BitVec 10) | sst (d a : SReg) (w : StWidth) (off : BitVec 10)
  | trap (code : BitVec 13) | sysrd (d : SReg) (num : BitVec 13) | syswr (a : SReg) (num : BitVec 13)
  -- branches and constants (R179, R180, R192)
  | beq (d a : SReg) (i : BitVec 13) | bne (d a : SReg) (i : BitVec 13)
  | blt (d a : SReg) (i : BitVec 13) | bge (d a : SReg) (i : BitVec 13)
  | bltn (d a : SReg) (i : BitVec 13) | bgen (d a : SReg) (i : BitVec 13)
  | li (d : SReg) (i : BitVec 19) | jmp (i : BitVec 19) | call (i : BitVec 19)
  | vrun (lenM1 : BitVec 6) (idx : BitVec 19)
  | lih (d : SReg) (i : W32) | lix (d : SReg) (i : W32)
  -- lane integer (R100)
  | vadd (c : LaneCtl) (t : ITy) (sat : Bool) (d a b : Opnd)
  | vsub (c : LaneCtl) (t : ITy) (sat : Bool) (d a b : Opnd)
  | vmul (c : LaneCtl) (t : ITy) (d a b : Opnd) | vmulh (c : LaneCtl) (t : ITy) (d a b : Opnd)
  | vmad (c : LaneCtl) (t : ITy) (d a b x : Opnd)
  | vmin (c : LaneCtl) (t : ITy) (d a b : Opnd) | vmax (c : LaneCtl) (t : ITy) (d a b : Opnd)
  | vabs (c : LaneCtl) (w64 : Bool) (sat : Bool) (d a : Opnd)
  | vand (c : LaneCtl) (w64 : Bool) (d a b : Opnd) | vor (c : LaneCtl) (w64 : Bool) (d a b : Opnd)
  | vxor (c : LaneCtl) (w64 : Bool) (d a b : Opnd) | vandn (c : LaneCtl) (w64 : Bool) (d a b : Opnd)
  | vshl (c : LaneCtl) (w64 : Bool) (d a b : Opnd) | vshr (c : LaneCtl) (w64 : Bool) (d a b : Opnd)
  | vsra (c : LaneCtl) (w64 : Bool) (d a b : Opnd) | vrot (c : LaneCtl) (w64 : Bool) (d a b : Opnd)
  | vpopc (c : LaneCtl) (w64 : Bool) (d a : Opnd) | vclz (c : LaneCtl) (w64 : Bool) (d a : Opnd)
  | vbrev (c : LaneCtl) (w64 : Bool) (d a : Opnd)
  | vbfext (c : LaneCtl) (t : ITy) (f : BfSel) (d a : Opnd)
  | vbfins (c : LaneCtl) (w64 : Bool) (f : BfSel) (d a x : Opnd)
  | vclmul (c : LaneCtl) (w64 : Bool) (high : Bool) (d a b : Opnd)
  | vsel (c : LaneCtl) (w64 : Bool) (ks : BitVec 4) (d a b : Opnd)
  | vcmp (c : LaneCtl) (t : ITy) (cond : ICond) (kd : BitVec 4) (a b : Opnd)
  | vaddImm (c : LaneCtl) (t : ITy) (sat : Bool) (d a : Opnd) (i : W32)
  | vsubImm (c : LaneCtl) (t : ITy) (sat : Bool) (d a : Opnd) (i : W32)
  | vmulImm (c : LaneCtl) (t : ITy) (d a : Opnd) (i : W32)
  | vminImm (c : LaneCtl) (t : ITy) (d a : Opnd) (i : W32)
  | vmaxImm (c : LaneCtl) (t : ITy) (d a : Opnd) (i : W32)
  | vandImm (c : LaneCtl) (w64 : Bool) (d a : Opnd) (i : W32)
  | vorImm (c : LaneCtl) (w64 : Bool) (d a : Opnd) (i : W32)
  | vxorImm (c : LaneCtl) (w64 : Bool) (d a : Opnd) (i : W32)
  | vandnImm (c : LaneCtl) (w64 : Bool) (d a : Opnd) (i : W32)
  | vcmpImm (c : LaneCtl) (t : ITy) (cond : ICond) (kd : BitVec 4) (a : Opnd) (i : W32)
  -- lane floating point (R107)
  | vfadd (c : LaneCtl) (m : FMode) (d a b : Opnd) | vfsub (c : LaneCtl) (m : FMode) (d a b : Opnd)
  | vfmul (c : LaneCtl) (m : FMode) (d a b : Opnd)
  | vfma (c : LaneCtl) (m : FMode) (na nc : Bool) (d a b x : Opnd)
  | vfmin (c : LaneCtl) (t : FTy) (d a b : Opnd) | vfmax (c : LaneCtl) (t : FTy) (d a b : Opnd)
  | vfcmp (c : LaneCtl) (cond : FCond) (kd : BitVec 4) (a b : Opnd)
  | vfrcp (c : LaneCtl) (m : FMode) (d a : Opnd) | vfrsq (c : LaneCtl) (m : FMode) (d a : Opnd)
  | vfsqrt (c : LaneCtl) (m : FMode) (d a : Opnd) | vfexp2 (c : LaneCtl) (m : FMode) (d a : Opnd)
  | vflog2 (c : LaneCtl) (m : FMode) (d a : Opnd) | vftanh (c : LaneCtl) (m : FMode) (d a : Opnd)
  | vfclass (c : LaneCtl) (t : FTy) (d a : Opnd)
  | vfaddImm (c : LaneCtl) (m : FMode) (d a : Opnd) (i : W32)
  | vfsubImm (c : LaneCtl) (m : FMode) (d a : Opnd) (i : W32)
  | vfmulImm (c : LaneCtl) (m : FMode) (d a : Opnd) (i : W32)
  | vfminImm (c : LaneCtl) (t : FTy) (d a : Opnd) (i : W32)
  | vfmaxImm (c : LaneCtl) (t : FTy) (d a : Opnd) (i : W32)
  | vfcmpImm (c : LaneCtl) (cond : FCond) (kd : BitVec 4) (a : Opnd) (i : W32)
  -- conversion and quantisation (R111 to R122)
  | vcvt (c : LaneCtl) (sf df : Fmt) (rnd : Rnd) (sat : Bool) (esel : BitVec 3) (d a : Opnd)
  | vqnt (c : LaneCtl) (fs : BitVec 3) (dsel : BitVec 3) (d a b : Opnd)
  | vdqnt (c : LaneCtl) (fs : BitVec 3) (esel : BitVec 3) (d a b : Opnd)
  | vpack (c : LaneCtl) (df : Fmt) (rnd : Rnd) (sat : Bool) (pos : BitVec 2) (d a b : Opnd)
  | vunpk (c : LaneCtl) (sf : Fmt) (pos : BitVec 2) (d a : Opnd)
  | vwbupd (c : LaneCtl) (t : FTy) (a b : Opnd)
  -- masks, predicates, votes, regrouping (R127 to R145)
  | vif (sw : Bool) (kc : BitVec 4) (kcn : Bool) | velse (sw : Bool) | vendif (sw : Bool)
  | vkand (c : LaneCtl) (kd ka kb : BitVec 4) | vkor (c : LaneCtl) (kd ka kb : BitVec 4)
  | vkxor (c : LaneCtl) (kd ka kb : BitVec 4) | vknot (c : LaneCtl) (kd ka : BitVec 4)
  | vkmov (c : LaneCtl) (toReg : Bool) (k : BitVec 4) (x : Opnd)
  | vvote (c : LaneCtl) (m : VoteMode) (role : Bool) (ka : BitVec 4) (d : Opnd)
  | vshfl (c : LaneCtl) (m : ShflMode) (w64 : Bool) (d a b x : Opnd)
  | vregroup (c : LaneCtl) (wid pushn : Bool) (d : Opnd)
  | vtos (c : LaneCtl) (m : TosMode) (a : Opnd)
  -- lane memory (R130 to R139)
  | vld (c : LaneCtl) (m : LMem) (sx : Bool) (data : Opnd)
  | vst (c : LaneCtl) (m : LMem) (wb : Option (BitVec 3)) (data : Opnd)
  | vlds (c : LaneCtl) (m : LMem) (sx : Bool) (data : Opnd)
  | vsts (c : LaneCtl) (m : LMem) (wb : Option (BitVec 3)) (data : Opnd)
  | vatom (c : LaneCtl) (m : LMem) (op : AOp) (red : Bool) (scope : Fin 7) (data : Opnd)
  | vpref (c : LaneCtl) (m : LMem) (l2 : Bool)
  -- matrix engine (R239 to R242)
  | vmma (x : LxMul) | vmmas (x : LxMul) | vaccz (sw : Bool) (accview : BitVec 3)
  | vaccrd (sw : Bool) (accview aview fsa : BitVec 3) (clr wb coff : Bool)
  | vaccsc (sw : Bool) (accview : BitVec 3) (bsel : BitVec 4) (add : Bool)
  -- moves (R146)
  | vmov (c : LaneCtl) (w64 : Bool) (d a : Opnd) | vmovi (c : LaneCtl) (ext : Fin 3) (d : Opnd) (i : W32)
  | vnop (sw : Bool)
  -- depot words (R357, R358)
  | dldr (c : LaneCtl) (m : LMem) (sx : Bool) (data : Opnd)
  | dstr (c : LaneCtl) (m : LMem) (wb : Option (BitVec 3)) (data : Opnd)
  | dwat (c : LaneCtl) (a b : Opnd) | dtok (c : LaneCtl) (a b : Opnd)
  | dred (c : LaneCtl) (op : RedOp) (a b : Opnd) | dend (c : LaneCtl)
  -- events of roles and cores
  | streamWake (rk : Nat) (lane : Bool) | roleFinish (rk : Nat)
  | classLResultReturn (rk : Nat) (idx : Nat) | starvationIssue (core dp : Nat) (lane : Bool)
  | yieldExpire (rk : Nat) | leaseExpire (tk : Nat) | transitionDone (cluster : Nat) | allowReplenish (cluster : Nat)
  | nearThresholdEnter (core : Nat) (upper : Bool)
  | lxAccept (rk : Nat) | lxStart (core : Nat) | lxResultWrite (core : Nat)
  | pagerServiceDone (tk vpn : Nat) | swapOut (tk : Nat) | cyclicwait (tk : Nat)
  | waitaTimeout (rk : Nat) | commitProbe (tk : Nat) | commitPoint (tk : Nat) | graceExpire (tk : Nat)
  -- copy engine (R264 to R272)
  | cp (x : CpCmd) | cpcv (x : CpcvCmd) | rdst (x : RdstCmd) | fill (x : FillCmd) | gath (x : GathCmd)
  | sig (x : SigCmd) | copyWtRelease (rk q : Nat) | copyComplete (rk q : Nat)
  | cpcvRescaleTrap (rk : Nat)
  -- depots (R351 to R354)
  | task (x : TaskCmd) | taskWtRelease (rk : Nat) | depotRowStart (rk : Nat) | taskComplete (rk : Nat)
  -- scale-out (R401 to R409)
  | rwr (x : RwrCmd) | rrd (x : RrdCmd) | rsig (x : RsigCmd) | post (x : PostCmd)
  | inboundSegment (dst src : Nat) (ord : Bool) (x : InPart) | retransmit (rk seg : Nat)
  | inboundStallTimeout (vf idx : Nat) | scaleoutComplete (rk status : Nat) (data : List Byte)
  | timeout (rk : Nat) | peerdown (rk : Nat)
  -- waybills (R346, R347)
  | waybillMerge (die vf idx : Nat) | waybillAgeExpiry (die vf idx : Nat)
  -- distributor (R373 to R387)
  | launchMessage (vf : Nat) (addr : W64) | launchReady (lid : Nat) | depTokenRetry (lid : Nat)
  | teamDispatch (tk core : Nat) (dps : List Nat) | teamRetire (tk : Nat) | launchComplete (lid : Nat)
  | failed (lid : Nat) | stageComplete (lid : Nat)
  -- fares (R382 to R384)
  | farePost (core : Nat) | sharedFarePost | fareadd (vf : Nat) (amount : W64)
  -- privileged windows (R381)
  | preemptGrace (vf : Nat) | preemptResume (vf : Nat) | preemptKillAll (vf : Nat) | preemptAbort (vf : Nat)
  | answerRetry (vf recid : Nat) | answerKill (vf recid : Nat) | postclr (vf : Nat) (handle : W64)
  | lostclr (part : Nat) (pa : W64) | migrate (part : Nat) (ia dst : W64)
  | migrateLineStep (die idx : Nat) | migrateCancel (die idx : Nat) | migrateResume (die idx : Nat)
  | migrateReverse (die idx : Nat) | translationInvalidate (part : Nat) (ia : W64)
  | pwrcfgWrite (cluster : Nat) (val : W64) | accept (val : BitVec 128)
  | faultRingRegWrite (vf : Nat) (reg : RingReg) (val : W64) | registerWrite (reg : WinReg) (val : W64)
  | attestationRequest (vf : Nat) (nonce : BitVec 256)
  -- gang launches (R411 to R414)
  | gangLaunchMessage (vf : Nat) (addr : W64) | arm (vf gang rank nchip : Nat) (addr : W64)
  | armok (gang rank code : Nat) (grid : Nat × Nat × Nat) | go (gang : Nat) | goack (gang rank : Nat)
  | goWindowExpire (gang : Nat) | fenceKill (gang : Nat)
  -- package, power and memory stacks (R294 to R303, R335, R360)
  | packageReset | thermUpdate | hbmTempSample (die stack : Nat) (temp : Byte)
  | refreshPeriodSwitch (die stack : Nat) | refreshStart (die stack pch : Nat) | refreshEnd (die stack pch : Nat)
  | scrub (die : Nat) (pa : W64) (r : ScrubResult) | linkFlitError (link : Nat)
  | illegal | portDown (port : Fin 8) (down : Bool)
  deriving DecidableEq, Repr

end Sys2Proof
end

