-- ==== Sys2Proof/Machine/Numeric.lean ====
section
/-! DEFINITION. Number formats, exact values, rounding and scales (R9 to R41). An exact value is a
sign, a numerator and a denominator; rounding is `roundTo` (R17, R18). -/

namespace Sys2Proof.Machine
open Sys2Proof

/-- The floating-point formats of R9 that hold values (`e8m0` is a scale format). -/
inductive FF where
  | e2m1 | e4m3 | e5m2 | bf16 | f16 | f32 | f22
  deriving DecidableEq, Repr

/-- Fraction bits (R9). -/
def FF.fbits : FF → Nat
  | .e2m1 => 1 | .e4m3 => 3 | .e5m2 => 2 | .bf16 => 7 | .f16 => 10 | .f32 => 23 | .f22 => 13

/-- Exponent bits (R9). -/
def FF.ebits : FF → Nat
  | .e2m1 => 2 | .e4m3 => 4 | .e5m2 => 5 | .bf16 => 8 | .f16 => 5 | .f32 => 8 | .f22 => 8

/-- Exponent bias (R9). -/
def FF.bias : FF → Nat
  | .e2m1 => 1 | .e4m3 => 7 | .e5m2 => 15 | .bf16 => 127 | .f16 => 15 | .f32 => 127 | .f22 => 127

/-- Width in bits (R9). -/
def FF.width (f : FF) : Nat := 1 + f.ebits + f.fbits

/-- The encoding, without its sign, of the largest finite value (R9, R10). -/
def FF.maxCode : FF → Nat
  | .e2m1 => 0x7 | .e4m3 => 0x7E | .e5m2 => 0x7B | .bf16 => 0x7F7F | .f16 => 0x7BFF
  | .f32 => 0x7F7FFFFF | .f22 => 0x1FDFFF

/-- The encoding, without its sign, of the canonical NaN (R10); `e2m1` has none and gives +0 (R14). -/
def FF.nanCode : FF → Nat
  | .e2m1 => 0 | .e4m3 => 0x7F | .e5m2 => 0x7F | .bf16 => 0x7FC0 | .f16 => 0x7E00
  | .f32 => 0x7FC00000 | .f22 => 0x1FF000

/-- The encoding, without its sign, of Inf; formats without one use their largest finite value. -/
def FF.infCode : FF → Nat
  | .e2m1 => 0x7 | .e4m3 => 0x7E | .e5m2 => 0x7C | .bf16 => 0x7F80 | .f16 => 0x7C00
  | .f32 => 0x7F800000 | .f22 => 0x1FE000

/-- The floating-point format of a format code, if it is one (R23). -/
def fmtFF : Fmt → Option FF
  | .e2m1 => some .e2m1 | .e4m3 => some .e4m3 | .e5m2 => some .e5m2 | .bf16 => some .bf16
  | .f16 => some .f16 | .f32 => some .f32
  | .i8 => none | .n8 => none | .i32 => none | .n32 => none | .i64 => none | .n64 => none | .b32 => none

/-- Width in bits of an element format (R9, R12). -/
def fmtWidth : Fmt → Nat
  | .e2m1 => 4 | .e4m3 => 8 | .e5m2 => 8 | .bf16 => 16 | .f16 => 16 | .f32 => 32
  | .i8 => 8 | .n8 => 8 | .i32 => 32 | .n32 => 32 | .i64 => 64 | .n64 => 64 | .b32 => 32

/-- Format codes (R23); reserved codes name no format. -/
def fmtOfCode : Nat → Option Fmt
  | 1 => some .e2m1 | 2 => some .e4m3 | 3 => some .e5m2 | 4 => some .bf16 | 5 => some .f16
  | 6 => some .f32 | 7 => some .i8 | 8 => some .n8 | 9 => some .i32 | 10 => some .n32
  | 11 => some .i64 | 12 => some .n64 | 13 => some .b32 | _ => none

/-- The code of a format (R23). -/
def fmtCode : Fmt → Nat
  | .e2m1 => 1 | .e4m3 => 2 | .e5m2 => 3 | .bf16 => 4 | .f16 => 5 | .f32 => 6 | .i8 => 7
  | .n8 => 8 | .i32 => 9 | .n32 => 10 | .i64 => 11 | .n64 => 12 | .b32 => 13

/-- Rounding mode codes (R16). -/
def rndOfCode : Nat → Option Rnd
  | 0 => some .rne | 1 => some .rtz | 2 => some .rup | 3 => some .rdn | 4 => some .stoch | _ => none

/-- The code of a rounding mode (R16). -/
def rndCode : Rnd → Nat
  | .rne => 0 | .rtz => 1 | .rup => 2 | .rdn => 3 | .stoch => 4

/-- An exact value: NaN with a sign, ±Inf, or ± num / den (R17). -/
inductive XVal where
  | nan (neg : Bool)
  | inf (neg : Bool)
  | fin (neg : Bool) (num den : Nat)
  deriving DecidableEq, Repr

/-- The sign of an exact value. -/
def XVal.neg : XVal → Bool
  | .nan s => s | .inf s => s | .fin s _ _ => s

/-- Is it a NaN? -/
def XVal.isNan : XVal → Bool
  | .nan _ => true | _ => false

/-- Is it ±Inf? -/
def XVal.isInf : XVal → Bool
  | .inf _ => true | _ => false

/-- Is it a zero of either sign? -/
def XVal.isZero : XVal → Bool
  | .fin _ 0 _ => true | _ => false

/-- Is it finite? -/
def XVal.isFin : XVal → Bool
  | .fin _ _ _ => true | _ => false

/-- +1.0. -/
def XVal.one : XVal := .fin false 1 1

/-- The value with its sign flipped; a NaN keeps its sign (R108). -/
def XVal.flip : XVal → XVal
  | .nan s => .nan s | .inf s => .inf (!s) | .fin s n d => .fin (!s) n d

/-- The value's magnitude. -/
def XVal.abs : XVal → XVal
  | .nan s => .nan s | .inf _ => .inf false | .fin _ n d => .fin false n d

/-- 2^e as numerator and denominator. -/
def pow2 (e : Int) : Nat × Nat :=
  if e ≥ 0 then (2 ^ e.toNat, 1) else (1, 2 ^ (-e).toNat)

/-- `±k × 2^e`. -/
def XVal.ofScaled (s : Bool) (k : Nat) (e : Int) : XVal :=
  .fin s (k * (pow2 e).1) (pow2 e).2

/-- An integer as an exact value. -/
def XVal.ofInt (i : Int) : XVal := .fin (decide (i < 0)) i.natAbs 1

/-- The exact value of an encoding (R9, R10). -/
def decodeF (f : FF) (bits : Nat) : XVal :=
  let s := bitOf bits (f.width - 1)
  let mag := bits % 2 ^ (f.width - 1)
  let ex := mag / 2 ^ f.fbits
  let fr := mag % 2 ^ f.fbits
  match f with
  | .e2m1 => if ex = 0 then .ofScaled s fr (-1) else .ofScaled s (2 + fr) ((ex : Int) - 2)
  | .e4m3 =>
    if mag = 0x7F then .nan s
    else if ex = 0 then .ofScaled s fr (-9) else .ofScaled s (8 + fr) ((ex : Int) - 10)
  | _ =>
    if ex = 2 ^ f.ebits - 1 then (if fr = 0 then .inf s else .nan s)
    else if ex = 0 then
      (if f = .f22 then .fin s 0 1 else .ofScaled s fr (1 - (f.bias : Int) - f.fbits))
    else .ofScaled s (2 ^ f.fbits + fr) ((ex : Int) - f.bias - f.fbits)

/-- An encoding with its sign bit. -/
def signed (f : FF) (s : Bool) (mag : Nat) : Nat := b2n s * 2 ^ (f.width - 1) + mag

/-- `nan_result` of R14: the canonical NaN with a sign; +0 for `e2m1`. -/
def nanResult (f : FF) (s : Bool) : Nat :=
  match f with
  | .e2m1 => 0
  | _ => signed f s f.nanCode

/-- `overflow_result` of R18, by the target and the mode as its table gives it, for a finite value and for an Inf. -/
def overflowResult (f : FF) (s : Bool) (m : Rnd) (sat : Bool) : Nat :=
  if sat then signed f s f.maxCode
  else match f with
    | .e2m1 => signed f s f.maxCode
    | .f22 => signed f s f.maxCode
    | .e4m3 => signed f s f.nanCode
    | _ =>
      match m with
      | .rne => signed f s f.infCode
      | .stoch => signed f s f.infCode
      | .rtz => signed f s f.maxCode
      | .rup => if s then signed f s f.maxCode else signed f s f.infCode
      | .rdn => if s then signed f s f.infCode else signed f s f.maxCode

/-- floor(log2(num / den)) for positive arguments. -/
def floorLog2 (num den : Nat) : Int :=
  let l : Int := (num.log2 : Int) - den.log2
  if num * (pow2 (-l)).1 ≥ den * (pow2 (-l)).2 then l else l - 1

/-- The result of a rounding: the encoding, and whether it is a saturation event of R18. -/
structure Rounded where
  bits : Nat
  event : Bool
  deriving DecidableEq, Repr

/-- `round_to` of R17; `u` is the 24-bit draw of STOCH. -/
def roundTo (x : XVal) (f : FF) (m : Rnd) (sat : Bool) (u : Nat) : Rounded :=
  match x with
  | .nan s => ⟨nanResult f s, false⟩
  | .inf s =>
    let r := overflowResult f s m sat
    ⟨r, decide (r = signed f s f.maxCode)⟩
  | .fin s num den =>
    if num = 0 then ⟨signed f s 0, false⟩
    else
      let e := Max.max (floorLog2 num den) (1 - (f.bias : Int))
      let q := pow2 (e - f.fbits)
      let top := num * q.2
      let bot := den * q.1
      let k := top / bot
      let rem := top % bot
      let up : Bool :=
        if rem = 0 then false
        else match m with
          | .rne => decide (2 * rem > bot) || (decide (2 * rem = bot) && decide (k % 2 = 1))
          | .rtz => false
          | .rup => !s
          | .rdn => s
          | .stoch => decide (rem * 2 ^ 24 / bot + u ≥ 2 ^ 24)
      let k2 := k + b2n up
      let code : Nat :=
        if k2 < 2 ^ f.fbits then k2 else ((e + f.bias).toNat - 1) * 2 ^ f.fbits + k2
      if code > f.maxCode then ⟨overflowResult f s m sat, true⟩
      else if f = .f22 ∧ k2 < 2 ^ f.fbits then ⟨signed f s 0, false⟩
      else ⟨signed f s code, false⟩

/-- The first NaN's sign among operands, in order (R14). -/
def firstNan : List XVal → Option Bool
  | [] => none
  | .nan s :: _ => some s
  | _ :: t => firstNan t

/-- The exact sum; an exact zero from opposite signs is −0 only under RDN (R108). -/
def xadd (rdn : Bool) (x y : XVal) : XVal :=
  match firstNan [x, y] with
  | some s => .nan s
  | none =>
    match x, y with
    | .inf s, .inf t => if s = t then .inf s else .nan false
    | .inf s, _ => .inf s
    | _, .inf t => .inf t
    | .fin s n d, .fin t n' d' =>
      let p := n * d'
      let q := n' * d
      if s = t then .fin s (p + q) (d * d')
      else if p > q then .fin s (p - q) (d * d')
      else if q > p then .fin t (q - p) (d * d')
      else .fin rdn 0 1
    | .nan s, _ => .nan s
    | _, .nan s => .nan s

/-- The exact product (R14, R108). -/
def xmul (x y : XVal) : XVal :=
  match firstNan [x, y] with
  | some s => .nan s
  | none =>
    let s := x.neg != y.neg
    match x, y with
    | .fin _ n d, .fin _ n' d' => .fin s (n * n') (d * d')
    | a, b => if a.isZero || b.isZero then .nan false else .inf s

/-- The exact quotient (R117): 0/0 and Inf/Inf are NaN, a finite value over zero is Inf. -/
def xdiv (x y : XVal) : XVal :=
  match firstNan [x, y] with
  | some s => .nan s
  | none =>
    let s := x.neg != y.neg
    match x, y with
    | .inf _, .inf _ => .nan false
    | .inf _, _ => .inf s
    | _, .inf _ => .fin s 0 1
    | .fin _ n d, .fin _ n' d' =>
      if n' = 0 then (if n = 0 then .nan false else .inf s) else .fin s (n * d') (d * n')
    | .nan t, _ => .nan t
    | _, .nan t => .nan t

/-- Compare magnitudes and signs of two non-NaN values: is x < y, −0 and +0 equal (R109)? -/
def xlt (x y : XVal) : Bool :=
  match x, y with
  | .nan _, _ => false
  | _, .nan _ => false
  | .inf s, .inf t => s && !t
  | .inf s, _ => s
  | _, .inf t => !t
  | .fin s n d, .fin t n' d' =>
    let a : Int := if s then -(n * d' : Nat) else (n * d' : Nat)
    let b : Int := if t then -(n' * d : Nat) else (n' * d : Nat)
    decide (a < b)

/-- Equality of values: −0 equals +0, a NaN equals nothing (R109). -/
def xeq (x y : XVal) : Bool := !x.isNan && !y.isNan && !xlt x y && !xlt y x

/-- Integer square root of `x`, by the bits of the root from bit `i - 1` down. -/
def isqrtFrom (x : Nat) : Nat → Nat → Nat
  | 0, r => r
  | i + 1, r => if (r + 2 ^ i) * (r + 2 ^ i) ≤ x then isqrtFrom x i (r + 2 ^ i) else isqrtFrom x i r

/-- floor(√x). -/
def isqrt (x : Nat) : Nat := isqrtFrom x (x.log2 / 2 + 1) 0

/-- Fraction bits of the working precision of the transcendental forms (log 15). -/
def workBits : Nat := 240

/-- √(num/den): exact when it is rational, otherwise the middle of an interval of width 2^−160 in
relative terms around it (log 15). -/
def sqrtRat (num den : Nat) : XVal :=
  let r := isqrt (num * den)
  if r * r = num * den then .fin false r den
  else
    let p := workBits
    let r := isqrt (num * den * 2 ^ (2 * p))
    .fin false (2 * r + 1) (2 * den * 2 ^ p)

/-- Sum of `y^k / k!`-terms in fixed point with `p` fraction bits; `t` is the term of index `k`. -/
def expTerms (p y : Nat) : Nat → Nat → Nat → Nat
  | 0, _, _ => 0
  | n + 1, k, t => t + expTerms p y n (k + 1) (t * y / 2 ^ p / (k + 1))

/-- exp(y) in fixed point for 0 ≤ y < 1. -/
def expFix (p y : Nat) : Nat := expTerms p y 90 0 (2 ^ p)

/-- Sum of `z^(2k+1)/(2k+1)` in fixed point; `t` is `z^(2k+1)`. -/
def atanhTerms (p zz : Nat) : Nat → Nat → Nat → Nat
  | 0, _, _ => 0
  | n + 1, k, t => t / (2 * k + 1) + atanhTerms p zz n (k + 1) (t * zz / 2 ^ p)

/-- ln(num/den) in fixed point, for 1 ≤ num/den ≤ 2. -/
def lnFix (p num den : Nat) : Nat :=
  let z := (num - den) * 2 ^ p / (num + den)
  2 * atanhTerms p (z * z / 2 ^ p) 110 0 z

/-- ln 2 in fixed point. -/
def ln2Fix (p : Nat) : Nat := lnFix p 2 1

/-- 2^x for a finite x (R107, R108). -/
def xexp2 (x : XVal) : XVal :=
  match x with
  | .nan s => .nan s
  | .inf s => if s then .fin false 0 1 else .inf false
  | .fin s num den =>
    let fl : Int := if s then -(ceilDiv num den : Nat) else (num / den : Nat)
    if fl > 400 then .ofScaled false 1 400
    else if fl < -400 then .ofScaled false 1 (-400)
    else
      let fr := if s then ceilDiv num den * den - num else num % den   -- f = fr / den
      if fr = 0 then .ofScaled false 1 fl
      else
        let p := workBits
        .ofScaled false (expFix p (fr * ln2Fix p / den)) (fl - p)

/-- log2 x for a positive finite x (R107, R108). -/
def log2Pos (num den : Nat) : XVal :=
  let e := floorLog2 num den
  let n := num * (pow2 (-e)).1
  let d := den * (pow2 (-e)).2
  if n = d then .ofInt e
  else
    let p := workBits
    xadd false (.ofInt e) (.fin false (lnFix p n d) (ln2Fix p))

/-- tanh x for a finite x (R107, R108). -/
def xtanh (x : XVal) : XVal :=
  match x with
  | .nan s => .nan s
  | .inf s => .fin s 1 1
  | .fin s num den =>
    if num = 0 then .fin s 0 1
    else if num ≥ 64 * den then .fin s (2 ^ 180 - 1) (2 ^ 180)
    else if num * 2 ^ 20 < den then
      -- x (315 − 105 x² + 42 x⁴ − 17 x⁶) / 315
      let n2 := num * num
      let d2 := den * den
      .fin s (num * (315 * d2 * d2 * d2 + 42 * n2 * n2 * d2 - 105 * n2 * d2 * d2 - 17 * n2 * n2 * n2))
        (den * (315 * d2 * d2 * d2))
    else
      let p := workBits
      let l := ln2Fix p
      let y := 2 * num * 2 ^ p / den
      let n := y / l
      let t := expFix p (y - n * l) * 2 ^ n
      .fin s (t - 2 ^ p) (t + 2 ^ p)

/-- The transcendental forms and their special inputs (R108). -/
def xrcp (x : XVal) : XVal :=
  match x with
  | .fin s 0 _ => .inf s
  | _ => xdiv .one x

/-- √x (R108). -/
def xsqrt (x : XVal) : XVal :=
  match x with
  | .nan s => .nan s
  | .inf s => if s then .nan false else .inf false
  | .fin s 0 _ => .fin s 0 1
  | .fin s n d => if s then .nan false else sqrtRat n d

/-- 1/√x (R108). -/
def xrsq (x : XVal) : XVal :=
  match x with
  | .nan s => .nan s
  | .inf s => if s then .nan false else .fin false 0 1
  | .fin s 0 _ => .inf s
  | .fin s n d => if s then .nan false else sqrtRat d n

/-- log2 x (R108). -/
def xlog2 (x : XVal) : XVal :=
  match x with
  | .nan s => .nan s
  | .inf s => if s then .nan false else .inf false
  | .fin _ 0 _ => .inf true
  | .fin s n d => if s then .nan false else log2Pos n d

/-- The value rounded to an integer (R21), not yet limited to a range. -/
def roundInt (x : XVal) (m : Rnd) : Int :=
  match x with
  | .fin s n d =>
    let k := n / d
    let r := n % d
    let up : Bool :=
      if r = 0 then false
      else match m with
        | .rne => decide (2 * r > d) || (decide (2 * r = d) && decide (k % 2 = 1))
        | .rtz => false
        | .rup => !s
        | .rdn => s
        | .stoch => false
    let v : Int := (k + b2n up : Nat)
    if s then -v else v
  | _ => 0

/-- The range of an integer format (R12). -/
def intRange : Fmt → Int × Int
  | .i8 => (-2 ^ 7, 2 ^ 7 - 1) | .n8 => (0, 2 ^ 8 - 1)
  | .i32 => (-2 ^ 31, 2 ^ 31 - 1) | .n32 => (0, 2 ^ 32 - 1)
  | .i64 => (-2 ^ 63, 2 ^ 63 - 1) | .n64 => (0, 2 ^ 64 - 1)
  | _ => (0, 2 ^ 32 - 1)

/-- An integer limited to a format's range (R21). -/
def clampInt (f : Fmt) (t : Int) : Int := Min.min (Max.max t (intRange f).1) (intRange f).2

/-- Floating point to integer (R21): Inf saturates, NaN gives 0. -/
def floatToInt (x : XVal) (f : Fmt) (m : Rnd) : Int :=
  match x with
  | .nan _ => 0
  | .inf s => if s then (intRange f).1 else (intRange f).2
  | .fin s n d => clampInt f (roundInt (.fin s n d) m)

/-- The signed or unsigned value of an integer element (R12). -/
def intElem (f : Fmt) (bits : Nat) : Int :=
  match f with
  | .i8 => toSigned 8 bits | .i32 => toSigned 32 bits | .i64 => toSigned 64 bits
  | _ => bits

/-- One step of the stochastic generator (R19). -/
def nextRandom (x : W32) : W32 :=
  let x := x ^^^ (x <<< 13)
  let x := x ^^^ (x >>> 17)
  x ^^^ (x <<< 5)

/-- The 24-bit draw that `round_to` takes from a new generator state (R17). -/
def drawOf (x : W32) : Nat := x.toNat / 256

/-- A rounding that draws from a generator when the mode is STOCH: result and new state (R17, R20). -/
def roundDraw (g : W32) (x : XVal) (f : FF) (m : Rnd) (sat : Bool) : Rounded × W32 :=
  match m with
  | .stoch => (roundTo x f m sat (drawOf (nextRandom g)), nextRandom g)
  | _ => (roundTo x f m sat 0, g)

/-- A seed with zero replaced by one (R19, R269, R355). -/
def seedOf (x : W32) : W32 := if x = 0 then 1 else x

/-- The value of an encoding rounded exactly from a value: what `round_to` wrote, read back. -/
def reRound (x : XVal) (f : FF) : XVal := decodeF f (roundTo x f .rne false 0).bits

/-- The exact value of the largest finite encoding. -/
def FF.maxVal (f : FF) : XVal := decodeF f f.maxCode

/-- The least integer `E` with `num/den ≤ 2^E`. -/
def ceilLog2 (num den : Nat) : Int :=
  let e := floorLog2 num den
  if num * (pow2 (-e)).1 = den * (pow2 (-e)).2 then e else e + 1

/-- R33: the exponent of the scale derived from an amax value, or none when the amax is zero. For an AMAX that is an
Inf, a NaN or negative, as only software can store it, R33 gives no E: DESIGN CHOICE (log 67), a free exponent in the
range of R33. -/
def scaleExp (amax : XVal) (f : FF) (margin : Int) : Option Int :=
  match amax with
  | .fin _ n d =>
    if n = 0 then none
    else if amax.neg then some (Min.min (Max.max (Config.amaxExp true true margin) (-126)) 127)
    else match f.maxVal with
      | .fin _ mn md => some (Min.min (Max.max (ceilLog2 (n * md) (d * mn) + margin) (-126)) 127)
      | _ => some 0
  | x => some (Min.min (Max.max (Config.amaxExp false x.neg margin) (-126)) 127)

/-- R33: the scale. -/
def scaleOf (amax : XVal) (f : FF) (margin : Int) : XVal :=
  match scaleExp amax f margin with
  | none => .one
  | some e => .ofScaled false 1 e

/-- The largest magnitude among the finite values of a list, 0 when there is none (R27, R241). -/
def amaxOf (vs : List XVal) : XVal :=
  vs.foldl (fun m v => if v.isFin && xlt m v.abs then v.abs else m) (.fin false 0 1)

/-- emax of the element formats that take block scales (R27). -/
def FF.emax : FF → Int
  | .e2m1 => 2 | .e4m3 => 8 | .e5m2 => 15 | _ => 0

/-- R27: the exponent X of a 1×32 block and its `e8m0` code. -/
def mxScale (blk : List XVal) (f : FF) : Int × Nat :=
  let special := blk.any fun v => !v.isFin
  match amaxOf blk with
  | .fin _ n d =>
    if n = 0 then (if special then (0, 0xFF) else (-127, 0x00))
    else
      let x := Min.min (Max.max (floorLog2 n d - f.emax) (-127)) 127
      (x, if special then 0xFF else (x + 127).toNat)
  | _ => (0, 0xFF)

/-- The exact value of an `e8m0` scale (R9): 0xFF is NaN. -/
def e8m0Val (code : Nat) : XVal :=
  if code = 0xFF then .nan false else .ofScaled false 1 ((code : Int) - 127)

end Sys2Proof.Machine
end

