-- ==== Sys2Proof/WellFormed.lean ====
section
/-! DEFINITION. Which words of the scalar and lane streams are instructions: the checks of R64 to
R77, R97, R99, R105, R106, R112, R120, R121, R127 to R146, R357 and R358 that the types of `Syntax`
do not already make. Events and engine commands have no words here. -/

namespace Sys2Proof

/-- A snapshot selector names `s1` to `s15` (R74: selector 0x00 is ILLEGAL). -/
def Opnd.wf : Opnd → Bool
  | .snap n => decide (n ≠ 0)
  | _ => true

/-- A destination is a register or a view block (R74). -/
def Opnd.isDst : Opnd → Bool
  | .v _ => true
  | .w _ _ => true
  | _ => false

/-- `k = 0` with `kn = 1` raises ILLEGAL (R73). -/
def LaneCtl.wf (c : LaneCtl) : Bool := !(decide (c.k = 0) && c.kn)

/-- Which sources an instruction reads, for the hold rule (R56, R97). -/
structure Reads where
  a : Bool
  b : Bool
  c : Bool
  deriving DecidableEq, Repr

/-- The hold field names a source that is read (R56, R97). -/
def Hold.okFor (h : Hold) (r : Reads) : Bool :=
  match h with
  | .none => true
  | .a => r.a
  | .b => r.b
  | .c => r.c

/-- Does a variable bit field read operand b (R103)? -/
def BfSel.readsB : BfSel → Bool
  | .const _ _ => false
  | .var _ => true

/-- A constant bit field ends inside the word (R103). -/
def BfSel.wf (w : Nat) : BfSel → Bool
  | .const p l => decide (p.toNat + l.toNat + 1 ≤ w)
  | .var b => b.wf

/-- The width of an operand type (R99). -/
def ITy.width : ITy → Nat
  | .i32 => 32 | .n32 => 32 | .i64 => 64 | .n64 => 64

/-- STOCH needs the `bf16` pair (R106). -/
def FMode.wf (m : FMode) : Bool :=
  match m.rnd with
  | .stoch => decide (m.ft = .bf16x2)
  | _ => true

/-- Is a format one of the integers (R12)? -/
def Fmt.isInt : Fmt → Bool
  | .i8 => true | .n8 => true | .i32 => true | .n32 => true | .i64 => true | .n64 => true | _ => false

/-- Targets of stochastic rounding (R16). -/
def Fmt.stochOk : Fmt → Bool
  | .e2m1 => true | .e4m3 => true | .e5m2 => true | .bf16 => true | _ => false

/-- Elements of a format in a 32-bit source word, one for 32 and 64 bits (R112). -/
def Fmt.perWord : Fmt → Nat
  | .e2m1 => 8 | .e4m3 => 4 | .e5m2 => 4 | .i8 => 4 | .n8 => 4 | .bf16 => 2 | .f16 => 2 | _ => 1

/-- Is a format 64 bits wide? -/
def Fmt.is64 : Fmt → Bool
  | .i64 => true | .n64 => true | _ => false

/-- The formats VPACK and VUNPK accept (R120, R121). -/
def Fmt.packOk : Fmt → Bool
  | .e2m1 => true | .e4m3 => true | .e5m2 => true | .bf16 => true | .f16 => true | .i8 => true
  | .n8 => true | _ => false

/-- POS of VPACK and VUNPK is in range (R120). -/
def Fmt.posOk (f : Fmt) (pos : BitVec 2) : Bool := decide (2 * pos.toNat + 2 ≤ f.perWord)

/-- The checks of an LM word (R76, R130, R131): address and data operands, hold a or b only. -/
def LMem.wf (m : LMem) : Bool := m.addr.wf && !(m.scratch == false && m.fe != .ignore)

/-- The address operand of VLDS and VSTS is a snapshot or an immediate (R132). -/
def LMem.strideOk (m : LMem) : Bool :=
  match m.addr with
  | .snap _ => true
  | .imm _ => true
  | _ => false

/-- The hold of an LM word is none, a or b (R56). -/
def Hold.lmOk : Hold → Bool
  | .c => false
  | _ => true

/-- The checks common to a lane word: predicate, hold, operands. -/
def laneOk (c : LaneCtl) (r : Reads) (dst : List Opnd) (srcs : List Opnd) : Bool :=
  c.wf && c.hold.okFor r && dst.all Opnd.isDst && srcs.all Opnd.wf

/-- Well-formedness of a stream word. VMOVI reads no source, so every hold of it is ILLEGAL, also hold = b: R56 lets a hold
capture a source that is an immediate, and does not say whether the word behind an LI form is its source b (DESIGN CHOICE,
log 70). -/
def Instr.wf : Instr → Bool
  | .qfence m _ => decide (m ≠ 0)
  | .atomCas d _ _ _ => decide (d ≠ .s 0)
  | .atomBfim d _ _ _ => decide (d ≠ .s 0)
  | .atomPlset d _ _ _ => decide (d ≠ .s 0)
  | .bfext _ _ l p => decide (p.toNat + l.toNat + 1 ≤ 64)
  | .bfins _ _ l p => decide (p.toNat + l.toNat + 1 ≤ 64)
  | .lih d _ => (match d with | .s _ => true | .q _ => false)
  | .lix d _ => (match d with | .s _ => true | .q _ => false)
  | .vadd c _ _ d a b => laneOk c ⟨true, true, false⟩ [d] [a, b]
  | .vsub c _ _ d a b => laneOk c ⟨true, true, false⟩ [d] [a, b]
  | .vmul c _ d a b => laneOk c ⟨true, true, false⟩ [d] [a, b]
  | .vmulh c _ d a b => laneOk c ⟨true, true, false⟩ [d] [a, b]
  | .vmad c _ d a b x => laneOk c ⟨true, true, true⟩ [d] [a, b, x]
  | .vmin c _ d a b => laneOk c ⟨true, true, false⟩ [d] [a, b]
  | .vmax c _ d a b => laneOk c ⟨true, true, false⟩ [d] [a, b]
  | .vabs c _ _ d a => laneOk c ⟨true, false, false⟩ [d] [a]
  | .vand c _ d a b => laneOk c ⟨true, true, false⟩ [d] [a, b]
  | .vor c _ d a b => laneOk c ⟨true, true, false⟩ [d] [a, b]
  | .vxor c _ d a b => laneOk c ⟨true, true, false⟩ [d] [a, b]
  | .vandn c _ d a b => laneOk c ⟨true, true, false⟩ [d] [a, b]
  | .vshl c _ d a b => laneOk c ⟨true, true, false⟩ [d] [a, b]
  | .vshr c _ d a b => laneOk c ⟨true, true, false⟩ [d] [a, b]
  | .vsra c _ d a b => laneOk c ⟨true, true, false⟩ [d] [a, b]
  | .vrot c _ d a b => laneOk c ⟨true, true, false⟩ [d] [a, b]
  | .vpopc c _ d a => laneOk c ⟨true, false, false⟩ [d] [a]
  | .vclz c _ d a => laneOk c ⟨true, false, false⟩ [d] [a]
  | .vbrev c _ d a => laneOk c ⟨true, false, false⟩ [d] [a]
  | .vbfext c t f d a => laneOk c ⟨true, f.readsB, false⟩ [d] [a] && f.wf t.width
  | .vbfins c w f d a x => laneOk c ⟨true, f.readsB, true⟩ [d] [a, x] && f.wf (if w then 64 else 32)
  | .vclmul c _ _ d a b => laneOk c ⟨true, true, false⟩ [d] [a, b]
  | .vsel c _ _ d a b => laneOk c ⟨true, true, false⟩ [d] [a, b]
  | .vcmp c _ _ kd a b => laneOk c ⟨true, true, false⟩ [] [a, b] && decide (kd ≠ 0)
  | .vaddImm c _ _ d a _ => laneOk c ⟨true, true, false⟩ [d] [a]
  | .vsubImm c _ _ d a _ => laneOk c ⟨true, true, false⟩ [d] [a]
  | .vmulImm c _ d a _ => laneOk c ⟨true, true, false⟩ [d] [a]
  | .vminImm c _ d a _ => laneOk c ⟨true, true, false⟩ [d] [a]
  | .vmaxImm c _ d a _ => laneOk c ⟨true, true, false⟩ [d] [a]
  | .vandImm c _ d a _ => laneOk c ⟨true, true, false⟩ [d] [a]
  | .vorImm c _ d a _ => laneOk c ⟨true, true, false⟩ [d] [a]
  | .vxorImm c _ d a _ => laneOk c ⟨true, true, false⟩ [d] [a]
  | .vandnImm c _ d a _ => laneOk c ⟨true, true, false⟩ [d] [a]
  | .vcmpImm c _ _ kd a _ => laneOk c ⟨true, true, false⟩ [] [a] && decide (kd ≠ 0)
  | .vfadd c m d a b => laneOk c ⟨true, true, false⟩ [d] [a, b] && m.wf
  | .vfsub c m d a b => laneOk c ⟨true, true, false⟩ [d] [a, b] && m.wf
  | .vfmul c m d a b => laneOk c ⟨true, true, false⟩ [d] [a, b] && m.wf
  | .vfma c m _ _ d a b x => laneOk c ⟨true, true, true⟩ [d] [a, b, x] && m.wf
  | .vfmin c _ d a b => laneOk c ⟨true, true, false⟩ [d] [a, b]
  | .vfmax c _ d a b => laneOk c ⟨true, true, false⟩ [d] [a, b]
  | .vfcmp c _ kd a b => laneOk c ⟨true, true, false⟩ [] [a, b] && decide (kd ≠ 0)
  | .vfrcp c m d a => laneOk c ⟨true, false, false⟩ [d] [a] && m.wf
  | .vfrsq c m d a => laneOk c ⟨true, false, false⟩ [d] [a] && m.wf
  | .vfsqrt c m d a => laneOk c ⟨true, false, false⟩ [d] [a] && m.wf
  | .vfexp2 c m d a => laneOk c ⟨true, false, false⟩ [d] [a] && m.wf
  | .vflog2 c m d a => laneOk c ⟨true, false, false⟩ [d] [a] && m.wf
  | .vftanh c m d a => laneOk c ⟨true, false, false⟩ [d] [a] && m.wf
  | .vfclass c _ d a => laneOk c ⟨true, false, false⟩ [d] [a]
  | .vfaddImm c m d a _ => laneOk c ⟨true, true, false⟩ [d] [a] && m.wf
  | .vfsubImm c m d a _ => laneOk c ⟨true, true, false⟩ [d] [a] && m.wf
  | .vfmulImm c m d a _ => laneOk c ⟨true, true, false⟩ [d] [a] && m.wf
  | .vfminImm c _ d a _ => laneOk c ⟨true, true, false⟩ [d] [a]
  | .vfmaxImm c _ d a _ => laneOk c ⟨true, true, false⟩ [d] [a]
  | .vfcmpImm c _ kd a _ => laneOk c ⟨true, true, false⟩ [] [a] && decide (kd ≠ 0)
  | .vcvt c sf df rnd sat e d a =>
    laneOk c ⟨true, false, false⟩ [d] [a] && decide (sf ≠ .b32) && decide (df ≠ .b32)
      && !(decide (rnd = .stoch) && !df.stochOk) && !(sf.isInt && df.isInt && decide (rnd ≠ .rne))
      && !(sat && df.isInt) && decide (e.toNat < sf.perWord)
  | .vqnt c _ _ d a b => laneOk c ⟨true, true, false⟩ [d] [a, b]
  | .vdqnt c _ _ d a b => laneOk c ⟨true, true, false⟩ [d] [a, b]
  | .vpack c df rnd sat pos d a b =>
    laneOk c ⟨true, true, false⟩ [d] [a, b] && df.packOk && !(decide (rnd = .stoch) && !df.stochOk)
      && !(sat && df.isInt) && df.posOk pos
  | .vunpk c sf pos d a => laneOk c ⟨true, false, false⟩ [d] [a] && sf.packOk && sf.posOk pos
  | .vwbupd c _ a b => laneOk c ⟨true, true, false⟩ [] [a, b]
  | .vkand c kd _ _ => laneOk c ⟨false, false, false⟩ [] [] && decide (kd ≠ 0)
  | .vkor c kd _ _ => laneOk c ⟨false, false, false⟩ [] [] && decide (kd ≠ 0)
  | .vkxor c kd _ _ => laneOk c ⟨false, false, false⟩ [] [] && decide (kd ≠ 0)
  | .vknot c kd _ => laneOk c ⟨false, false, false⟩ [] [] && decide (kd ≠ 0)
  | .vkmov c toReg k x =>
    if toReg then laneOk c ⟨false, false, false⟩ [x] []
    else laneOk c ⟨false, false, false⟩ [] [x] && decide (k ≠ 0)
  | .vvote c m role _ d => laneOk c ⟨false, false, false⟩ [d] [] && !(decide (m = .ballot) && role)
  | .vshfl c _ _ d a b x => laneOk c ⟨true, true, true⟩ [d] [a, b, x]
  | .vregroup c wid _ d =>
    laneOk c ⟨false, false, false⟩ [d] [] && (wid || decide (d = .v 0))
  | .vtos c _ a => laneOk c ⟨true, false, false⟩ [] [a]
  | .vld c m sx data =>
    laneOk c ⟨true, false, false⟩ [data] [] && m.wf && decide (m.fe ≠ .setFull)
      && !(sx && decide (m.width ≠ .b8) && decide (m.width ≠ .b16))
  | .vst c m _ data =>
    laneOk c ⟨true, true, false⟩ [] [data] && m.wf && decide (m.fe ≠ .waitFull)
      && decide (m.fe ≠ .waitClear)
  | .vlds c m sx data =>
    laneOk c ⟨true, false, false⟩ [data] [] && m.wf && m.strideOk && decide (m.fe ≠ .setFull)
      && !(sx && decide (m.width ≠ .b8) && decide (m.width ≠ .b16))
  | .vsts c m _ data =>
    laneOk c ⟨true, true, false⟩ [] [data] && m.wf && m.strideOk && decide (m.fe ≠ .waitFull)
      && decide (m.fe ≠ .waitClear)
  | .vatom c m op red scope data =>
    laneOk c ⟨true, true, false⟩ (if red then [] else [data]) [data] && m.wf && decide (m.fe = .ignore)
      && (decide (m.width = .b32) || decide (m.width = .b64)) && !(decide (op = .fadd) && decide (m.width ≠ .b32))
      && !(red && (decide (op = .swap) || decide (op = .cas)))
      && !(m.scratch && decide (scope.val > 1))
      && !(decide (op = .cas) && (match data with
          | .v n => decide (m.width = .b64) && decide (n.toNat % 4 ≠ 0)
          | _ => true))
  | .vpref c m l2 =>
    laneOk c ⟨false, false, false⟩ [] [] && m.wf && decide (m.fe = .ignore) && !(m.scratch && l2)
  | .vmma x =>
    decide (x.bsel ≠ 0) && decide (x.ssel = 0) && decide (x.sparse = 0) && decide (x.msel.toNat ≤ 5)
  | .vmmas x =>
    decide (x.bsel ≠ 0) && decide (x.ssel ≠ 0) && decide (x.sparse ≠ 0) && decide (x.msel.toNat ≤ 5)
  | .vaccsc _ _ bsel _ => decide (bsel ≠ 0)
  | .vmov c _ d a => laneOk c ⟨true, false, false⟩ [d] [a]
  | .vmovi c _ d _ => laneOk c ⟨false, false, false⟩ [d] []
  | .dldr c m sx data =>
    laneOk c ⟨false, false, false⟩ [data] [] && m.wf && decide (m.fe = .ignore) && !m.scratch
      && !(sx && decide (m.width ≠ .b8) && decide (m.width ≠ .b16))
  | .dstr c m _ data =>
    laneOk c ⟨false, false, false⟩ [] [data] && m.wf && decide (m.fe = .ignore) && !m.scratch
  | .dwat c a b => laneOk c ⟨false, false, false⟩ [] [a, b]
  | .dtok c a b => laneOk c ⟨false, false, false⟩ [] [a, b]
  | .dred c _ a b => laneOk c ⟨false, false, false⟩ [] [a, b]
  | .dend c => laneOk c ⟨false, false, false⟩ [] []
  | _ => true

/-- Is the row a word of the scalar stream? -/
def Instr.isScalarWord : Instr → Bool
  | .add .. | .sub .. | .mul .. | .mulh .. | .mulhn .. | .div .. | .divn .. | .rem .. | .remn ..
  | .and .. | .or .. | .xor .. | .andn .. | .shl .. | .shr .. | .sra .. | .rot .. | .min .. | .max ..
  | .minn .. | .maxn .. | .clz .. | .ctz .. | .popc .. | .brev .. | .clmul .. | .clmulh .. | .sel ..
  | .seq .. | .sne .. | .slt .. | .sltn .. | .jr .. | .ret | .fence .. | .qfence .. | .barav ..
  | .barwt .. | .waita .. | .yield | .exit | .vdrain | .view .. | .gang .. | .mset .. | .txcommit ..
  | .txabort | .launch .. | .perf .. | .clnr .. | .invr .. | .cliv .. | .tret | .nop | .brk | .relay
  | .wbsync .. | .atomAdd .. | .atomAnd .. | .atomOr .. | .atomXor .. | .atomMin .. | .atomMax ..
  | .atomMinn .. | .atomMaxn .. | .atomSwap .. | .atomCas .. | .atomBfim .. | .atomFfcs ..
  | .atomPlset .. | .addi .. | .andi .. | .ori .. | .xori .. | .shli .. | .shri .. | .srai ..
  | .bfext .. | .bfins .. | .ld .. | .st .. | .sld .. | .sst .. | .trap .. | .sysrd .. | .syswr ..
  | .beq .. | .bne .. | .blt .. | .bge .. | .bltn .. | .bgen .. | .li .. | .jmp .. | .call ..
  | .vrun .. | .lih .. | .lix .. => true
  | _ => false

end Sys2Proof
end

