-- ==== Sys2Proof/Decode.lean ====
section
/-! DEFINITION. Decoding of scalar words (R62 to R71), lane words (R72 to R78), depot words (R357,
R358) and engine commands (R265, R268, R351, R401, R402), and after it the encoders. A word is a
natural number; a field is `w / 2 ^ lo % 2 ^ len`. What the raw decoders build still has to pass
`wordLegal`, so that `none` stands for ILLEGAL (R61) or CMDFAULT (R81). -/

namespace Sys2Proof
open Sys2Proof.Machine

/-- The checks of a decoded stream word: those of `Instr.wf`. -/
def wordLegal (i : Instr) : Bool := i.wf

/-- A decoding that is refused when its check fails. -/
def whenB {α : Type} (b : Bool) (x : Option α) : Option α := if b then x else none

/-! ## Scalar words -/

/-- A register field (R63): codes 0 to 47 are `s0` to `s47`, codes 48 to 63 `q0` to `q15`. -/
def sregOf (n : Nat) : SReg :=
  if h : n < 48 then .s ⟨n, h⟩ else .q (Fin.ofNat 16 (n - 48))

/-- The code of a register field (R63). -/
def sregCode : SReg → Nat
  | .s n => n.val
  | .q n => 48 + n.val

/-- Load widths (R70). -/
def ldWidthOf : Nat → Option LdWidth
  | 0 => some .n8 | 1 => some .i8 | 2 => some .n16 | 3 => some .i16 | 4 => some .n32
  | 5 => some .i32 | 6 => some .b64 | _ => none

/-- The code of a load width (R70). -/
def ldWidthCode : LdWidth → Nat
  | .n8 => 0 | .i8 => 1 | .n16 => 2 | .i16 => 3 | .n32 => 4 | .i32 => 5 | .b64 => 6

/-- Store widths (R70). -/
def stWidthOf : Nat → Option StWidth
  | 0 => some .n8 | 2 => some .n16 | 4 => some .n32 | 6 => some .b64 | _ => none

/-- The code of a store width (R70). -/
def stWidthCode : StWidth → Nat
  | .n8 => 0 | .n16 => 2 | .n32 => 4 | .b64 => 6

/-- An SA word (R62). -/
def packSA (op d a b fn : Nat) : Nat := op * 2 ^ 25 + d * 2 ^ 19 + a * 2 ^ 13 + b * 2 ^ 7 + fn

/-- An SB word (R62). -/
def packSB (op d a imm : Nat) : Nat := op * 2 ^ 25 + d * 2 ^ 19 + a * 2 ^ 13 + imm

/-- An SC word (R62). -/
def packSC (op d imm : Nat) : Nat := op * 2 ^ 25 + d * 2 ^ 19 + imm

/-- Op 0x00: the integer group by fn (R66). -/
def decInteger (fn d a b : Nat) : Option Instr :=
  let rd := sregOf d
  let ra := sregOf a
  let rb := sregOf b
  match fn with
  | 0x01 => some (.add rd ra rb) | 0x02 => some (.sub rd ra rb) | 0x03 => some (.mul rd ra rb)
  | 0x04 => some (.mulh rd ra rb) | 0x05 => some (.mulhn rd ra rb) | 0x06 => some (.div rd ra rb)
  | 0x07 => some (.divn rd ra rb) | 0x08 => some (.rem rd ra rb) | 0x09 => some (.remn rd ra rb)
  | 0x0A => some (.and rd ra rb) | 0x0B => some (.or rd ra rb) | 0x0C => some (.xor rd ra rb)
  | 0x0D => some (.andn rd ra rb) | 0x0E => some (.shl rd ra rb) | 0x0F => some (.shr rd ra rb)
  | 0x10 => some (.sra rd ra rb) | 0x11 => some (.rot rd ra rb) | 0x12 => some (.min rd ra rb)
  | 0x13 => some (.max rd ra rb) | 0x14 => some (.minn rd ra rb) | 0x15 => some (.maxn rd ra rb)
  | 0x16 => whenB (b == 0) (some (.clz rd ra)) | 0x17 => whenB (b == 0) (some (.ctz rd ra))
  | 0x18 => whenB (b == 0) (some (.popc rd ra)) | 0x19 => whenB (b == 0) (some (.brev rd ra))
  | 0x1A => some (.clmul rd ra rb) | 0x1B => some (.clmulh rd ra rb) | 0x1C => some (.sel rd ra rb)
  | 0x1D => some (.seq rd ra rb) | 0x1E => some (.sne rd ra rb) | 0x1F => some (.slt rd ra rb)
  | 0x20 => some (.sltn rd ra rb)
  | _ => none

/-- Op 0x01: the control and system group by fn (R67). -/
def decControl (fn d a b : Nat) : Option Instr :=
  let rd := sregOf d
  let ra := sregOf a
  let rb := sregOf b
  let z (x : Nat) := x == 0
  match fn with
  | 0x00 => whenB (z d && z b) (some (.jr ra))
  | 0x01 => whenB (z d && z a && z b) (some .ret)
  | 0x02 => whenB (z a && z b && decide (d < 7)) (some (.fence (Fin.ofNat 7 d)))
  | 0x03 => whenB (z b && decide (a < 7)) (some (.qfence (BitVec.ofNat 6 d) (Fin.ofNat 7 a)))
  | 0x04 => whenB (z d && z b) (some (.barav ra))
  | 0x05 => whenB (z d && z b) (some (.barwt ra))
  | 0x06 => some (.waita rd ra rb)
  | 0x07 => whenB (z d && z a && z b) (some .yield)
  | 0x08 => whenB (z d && z a && z b) (some .exit)
  | 0x09 => whenB (z d && z a && z b) (some .vdrain)
  | 0x0A => whenB (z b && decide (d < 8)) (some (.view (Fin.ofNat 8 d) ra))
  | 0x0B => whenB (z d && z b) (some (.gang ra))
  | 0x0C => whenB (z b && decide (d < 32)) (some (.mset (Fin.ofNat 32 d) ra))
  | 0x0D => whenB (z d) (some (.txcommit ra rb))
  | 0x0E => whenB (z d && z a && z b) (some .txabort)
  | 0x0F => whenB (z b) (some (.launch rd ra))
  | 0x10 => whenB (z d) (some (.perf ra rb))
  | 0x11 => whenB (z d) (some (.clnr ra rb))
  | 0x12 => whenB (z d) (some (.invr ra rb))
  | 0x13 => whenB (z d) (some (.cliv ra rb))
  | 0x14 => whenB (z d && z a && z b) (some .tret)
  | 0x15 => whenB (z d && z a && z b) (some .nop)
  | 0x16 => whenB (z d && z a && z b) (some .brk)
  | 0x17 => whenB (z d && z a && z b) (some .relay)
  | 0x18 => whenB (z d && z b) (some (.wbsync ra))
  | _ => none

/-- Op 0x02: ATOM by fn[6:3] and the scope code fn[2:0] (R68). -/
def decAtom (fn d a b : Nat) : Option Instr :=
  let rd := sregOf d
  let ra := sregOf a
  let rb := sregOf b
  let sc : Fin 8 := Fin.ofNat 8 (fn % 8)
  match fn / 8 with
  | 0 => some (.atomAdd rd ra rb sc) | 1 => some (.atomAnd rd ra rb sc)
  | 2 => some (.atomOr rd ra rb sc) | 3 => some (.atomXor rd ra rb sc)
  | 4 => some (.atomMin rd ra rb sc) | 5 => some (.atomMax rd ra rb sc)
  | 6 => some (.atomMinn rd ra rb sc) | 7 => some (.atomMaxn rd ra rb sc)
  | 8 => some (.atomSwap rd ra rb sc) | 9 => some (.atomCas rd ra rb sc)
  | 10 => some (.atomBfim rd ra rb sc) | 11 => some (.atomFfcs rd ra rb sc)
  | 12 => some (.atomPlset rd ra rb sc)
  | _ => none

/-- The SB forms (R65, R69). -/
def decSB (op d a imm : Nat) : Option Instr :=
  let rd := sregOf d
  let ra := sregOf a
  let i13 := BitVec.ofNat 13 imm
  let i6 := BitVec.ofNat 6 imm
  let o10 := BitVec.ofNat 10 (imm % 1024)
  match op with
  | 0x08 => some (.addi rd ra i13) | 0x09 => some (.andi rd ra i13)
  | 0x0A => some (.ori rd ra i13) | 0x0B => some (.xori rd ra i13)
  | 0x0C => whenB (decide (imm < 64)) (some (.shli rd ra i6))
  | 0x0D => whenB (decide (imm < 64)) (some (.shri rd ra i6))
  | 0x0E => whenB (decide (imm < 64)) (some (.srai rd ra i6))
  | 0x0F => whenB (decide (imm < 4096))
      (some (.bfext rd ra (BitVec.ofNat 6 (imm / 64)) (BitVec.ofNat 6 (imm % 64))))
  | 0x10 => whenB (decide (imm < 4096))
      (some (.bfins rd ra (BitVec.ofNat 6 (imm / 64)) (BitVec.ofNat 6 (imm % 64))))
  | 0x11 => (ldWidthOf (imm / 1024)).map fun w => .ld rd ra w o10
  | 0x12 => (stWidthOf (imm / 1024)).map fun w => .st rd ra w o10
  | 0x13 => (ldWidthOf (imm / 1024)).map fun w => .sld rd ra w o10
  | 0x14 => (stWidthOf (imm / 1024)).map fun w => .sst rd ra w o10
  | 0x15 => whenB (d == 0 && a == 0) (some (.trap i13))
  | 0x16 => whenB (a == 0) (some (.sysrd rd i13))
  | 0x17 => whenB (d == 0) (some (.syswr ra i13))
  | 0x18 => some (.beq rd ra i13) | 0x19 => some (.bne rd ra i13)
  | 0x1A => some (.blt rd ra i13) | 0x1B => some (.bge rd ra i13)
  | 0x1C => some (.bltn rd ra i13) | 0x1D => some (.bgen rd ra i13)
  | _ => none

/-- The SC forms and the SL prefix (R65, R71); `next` is the word behind a prefix. -/
def decSC (op d imm next : Nat) : Option Instr :=
  match op with
  | 0x20 => some (.li (sregOf d) (BitVec.ofNat 19 imm))
  | 0x21 => whenB (d == 0) (some (.jmp (BitVec.ofNat 19 imm)))
  | 0x22 => whenB (d == 0) (some (.call (BitVec.ofNat 19 imm)))
  | 0x23 => some (.vrun (BitVec.ofNat 6 d) (BitVec.ofNat 19 imm))
  | 0x7F =>
    if imm = 0 then some (.lih (sregOf d) (BitVec.ofNat 32 next))
    else if imm = 4096 then some (.lix (sregOf d) (BitVec.ofNat 32 next))
    else none
  | _ => none

/-- A scalar word by its op (R65), before `wordLegal`. -/
def decScalarRaw (w next : Nat) : Option Instr :=
  let op := w / 2 ^ 25 % 2 ^ 7
  let d := w / 2 ^ 19 % 2 ^ 6
  let a := w / 2 ^ 13 % 2 ^ 6
  let b := w / 2 ^ 7 % 2 ^ 6
  let fn := w % 2 ^ 7
  if op = 0 then decInteger fn d a b
  else if op = 1 then decControl fn d a b
  else if op = 2 then decAtom fn d a b
  else if op < 0x20 then decSB op d a (w % 2 ^ 13)
  else decSC op d (w % 2 ^ 19) next

/-- Decode a scalar word; `next` is the word that follows it (R61, R71). -/
def decodeScalar (w next : Nat) : Option Instr :=
  (decScalarRaw w next).filter wordLegal

/-! ## Operands and control fields of lane words -/

/-- The 14-bit operand code (R74). -/
def opndOf (n : Nat) : Option Opnd :=
  let lo := n % 2 ^ 12
  match n / 2 ^ 12 with
  | 0 => whenB (decide (lo < 256)) (some (.v (BitVec.ofNat 8 lo)))
  | 1 => some (.w (BitVec.ofNat 3 (lo / 512)) (BitVec.ofNat 9 (lo % 512)))
  | 2 =>
    if lo < 0x10 then whenB (lo != 0) (some (.snap (BitVec.ofNat 4 lo)))
    else match lo with
      | 0x10 => some (.latch 0) | 0x11 => some (.latch 1) | 0x12 => some (.latch 2)
      | 0x20 => some (.spec .lid) | 0x21 => some (.spec .grp) | 0x22 => some (.spec .role)
      | 0x23 => some (.spec .team) | 0x24 => some (.spec .core) | 0x25 => some (.spec .clus)
      | 0x26 => some (.spec .die)
      | _ => none
  | 3 => some (.imm (BitVec.ofNat 12 lo))
  | _ => none

/-- The code of an operand (R74). -/
def opndCode : Opnd → Nat
  | .v n => n.toNat
  | .w v n => 2 ^ 12 + v.toNat * 512 + n.toNat
  | .snap n => 2 * 2 ^ 12 + n.toNat
  | .latch n => 2 * 2 ^ 12 + 0x10 + n.val
  | .spec .lid => 2 * 2 ^ 12 + 0x20 | .spec .grp => 2 * 2 ^ 12 + 0x21
  | .spec .role => 2 * 2 ^ 12 + 0x22 | .spec .team => 2 * 2 ^ 12 + 0x23
  | .spec .core => 2 * 2 ^ 12 + 0x24 | .spec .clus => 2 * 2 ^ 12 + 0x25
  | .spec .die => 2 * 2 ^ 12 + 0x26
  | .imm i => 3 * 2 ^ 12 + i.toNat

/-- The hold field (R54). -/
def holdOf : Nat → Hold
  | 1 => .a | 2 => .b | 3 => .c | _ => .none

/-- The code of a hold (R54). -/
def holdCode : Hold → Nat
  | .none => 0 | .a => 1 | .b => 2 | .c => 3

/-- The control fields (R73). -/
def ctlOf (sw hold k kn : Nat) : LaneCtl :=
  ⟨sw == 1, holdOf hold, BitVec.ofNat 4 k, kn == 1⟩

/-- The fields of an LA word (R72). -/
structure LaF where
  op : Nat
  sw : Nat
  hold : Nat
  k : Nat
  kn : Nat
  fs : Nat
  dst : Nat
  a : Nat
  b : Nat
  c : Nat
  mod : Nat
  deriving DecidableEq, Repr

/-- The fields of an LI word (R72). -/
structure LiF where
  op : Nat
  sw : Nat
  hold : Nat
  k : Nat
  kn : Nat
  fs : Nat
  dst : Nat
  a : Nat
  imm : Nat
  mod : Nat
  deriving DecidableEq, Repr

/-- The fields of an LM word (R72). -/
structure LmF where
  op : Nat
  sw : Nat
  hold : Nat
  k : Nat
  kn : Nat
  fs : Nat
  data : Nat
  addr : Nat
  sbase : Nat
  off : Nat
  width : Nat
  space : Nat
  fe : Nat
  scope : Nat
  wb : Nat
  mod : Nat
  deriving DecidableEq, Repr

/-- The fields of an LX word (R77). -/
structure LxF where
  op : Nat
  sw : Nat
  hold : Nat
  k : Nat
  kn : Nat
  fsa : Nat
  fsb : Nat
  accview : Nat
  aview : Nat
  bsel : Nat
  ssel : Nat
  kcnt : Nat
  msel : Nat
  gang : Nat
  order : Nat
  sparse : Nat
  resv : Nat
  mod : Nat
  deriving DecidableEq, Repr

/-- Read an LA word (R72). -/
def laOf (w : Nat) : LaF :=
  ⟨w / 2 ^ 86 % 2 ^ 10, w / 2 ^ 85 % 2, w / 2 ^ 83 % 4, w / 2 ^ 79 % 16, w / 2 ^ 78 % 2,
    w / 2 ^ 75 % 8, w / 2 ^ 61 % 2 ^ 14, w / 2 ^ 47 % 2 ^ 14, w / 2 ^ 33 % 2 ^ 14,
    w / 2 ^ 19 % 2 ^ 14, w % 2 ^ 19⟩

/-- Write an LA word (R72). -/
def laWord (f : LaF) : Nat :=
  f.op * 2 ^ 86 + f.sw * 2 ^ 85 + f.hold * 2 ^ 83 + f.k * 2 ^ 79 + f.kn * 2 ^ 78 + f.fs * 2 ^ 75
    + f.dst * 2 ^ 61 + f.a * 2 ^ 47 + f.b * 2 ^ 33 + f.c * 2 ^ 19 + f.mod

/-- Read an LI word (R72). -/
def liOf (w : Nat) : LiF :=
  ⟨w / 2 ^ 86 % 2 ^ 10, w / 2 ^ 85 % 2, w / 2 ^ 83 % 4, w / 2 ^ 79 % 16, w / 2 ^ 78 % 2,
    w / 2 ^ 75 % 8, w / 2 ^ 61 % 2 ^ 14, w / 2 ^ 47 % 2 ^ 14, w / 2 ^ 15 % 2 ^ 32, w % 2 ^ 15⟩

/-- Write an LI word (R72). -/
def liWord (f : LiF) : Nat :=
  f.op * 2 ^ 86 + f.sw * 2 ^ 85 + f.hold * 2 ^ 83 + f.k * 2 ^ 79 + f.kn * 2 ^ 78 + f.fs * 2 ^ 75
    + f.dst * 2 ^ 61 + f.a * 2 ^ 47 + f.imm * 2 ^ 15 + f.mod

/-- Read an LM word (R72). -/
def lmOf (w : Nat) : LmF :=
  ⟨w / 2 ^ 86 % 2 ^ 10, w / 2 ^ 85 % 2, w / 2 ^ 83 % 4, w / 2 ^ 79 % 16, w / 2 ^ 78 % 2,
    w / 2 ^ 75 % 8, w / 2 ^ 61 % 2 ^ 14, w / 2 ^ 47 % 2 ^ 14, w / 2 ^ 43 % 16, w / 2 ^ 19 % 2 ^ 24,
    w / 2 ^ 16 % 8, w / 2 ^ 14 % 4, w / 2 ^ 12 % 4, w / 2 ^ 9 % 8, w / 2 ^ 8 % 2, w % 2 ^ 8⟩

/-- Write an LM word (R72). -/
def lmWord (f : LmF) : Nat :=
  f.op * 2 ^ 86 + f.sw * 2 ^ 85 + f.hold * 2 ^ 83 + f.k * 2 ^ 79 + f.kn * 2 ^ 78 + f.fs * 2 ^ 75
    + f.data * 2 ^ 61 + f.addr * 2 ^ 47 + f.sbase * 2 ^ 43 + f.off * 2 ^ 19 + f.width * 2 ^ 16
    + f.space * 2 ^ 14 + f.fe * 2 ^ 12 + f.scope * 2 ^ 9 + f.wb * 2 ^ 8 + f.mod

/-- Read an LX word (R77). -/
def lxOf (w : Nat) : LxF :=
  ⟨w / 2 ^ 86 % 2 ^ 10, w / 2 ^ 85 % 2, w / 2 ^ 83 % 4, w / 2 ^ 79 % 16, w / 2 ^ 78 % 2,
    w / 2 ^ 75 % 8, w / 2 ^ 72 % 8, w / 2 ^ 69 % 8, w / 2 ^ 66 % 8, w / 2 ^ 62 % 16, w / 2 ^ 58 % 16,
    w / 2 ^ 50 % 2 ^ 8, w / 2 ^ 47 % 8, w / 2 ^ 46 % 2, w / 2 ^ 45 % 2, w / 2 ^ 43 % 4,
    w / 2 ^ 19 % 2 ^ 24, w % 2 ^ 19⟩

/-- Write an LX word (R77). -/
def lxWord (f : LxF) : Nat :=
  f.op * 2 ^ 86 + f.sw * 2 ^ 85 + f.hold * 2 ^ 83 + f.k * 2 ^ 79 + f.kn * 2 ^ 78 + f.fsa * 2 ^ 75
    + f.fsb * 2 ^ 72 + f.accview * 2 ^ 69 + f.aview * 2 ^ 66 + f.bsel * 2 ^ 62 + f.ssel * 2 ^ 58
    + f.kcnt * 2 ^ 50 + f.msel * 2 ^ 47 + f.gang * 2 ^ 46 + f.order * 2 ^ 45 + f.sparse * 2 ^ 43
    + f.resv * 2 ^ 19 + f.mod

/-! ## Modifier fields -/

/-- IT (R99). -/
def itOf : Nat → Option ITy
  | 0 => some .i32 | 1 => some .n32 | 2 => some .i64 | 3 => some .n64 | _ => none

/-- The code of IT (R99). -/
def itCode : ITy → Nat
  | .i32 => 0 | .n32 => 1 | .i64 => 2 | .n64 => 3

/-- IT of a form that accepts only 0 and 2 (R100): is it 64 bits wide? -/
def it02Of : Nat → Option Bool
  | 0 => some false | 2 => some true | _ => none

/-- The code of such an IT. -/
def it02Code (w64 : Bool) : Nat := 2 * b2n w64

/-- COND of VCMP (R99). -/
def icondOf : Nat → Option ICond
  | 0 => some .eq | 1 => some .ne | 2 => some .lt | 3 => some .le | 4 => some .gt | 5 => some .ge
  | _ => none

/-- The code of COND (R99). -/
def icondCode : ICond → Nat
  | .eq => 0 | .ne => 1 | .lt => 2 | .le => 3 | .gt => 4 | .ge => 5

/-- COND of VFCMP (R105). -/
def fcondOf : Nat → Option FCond
  | 0 => some .eq | 1 => some .ne | 2 => some .lt | 3 => some .le | 4 => some .gt | 5 => some .ge
  | 6 => some .ord | 7 => some .uno | _ => none

/-- The code of COND (R105). -/
def fcondCode : FCond → Nat
  | .eq => 0 | .ne => 1 | .lt => 2 | .le => 3 | .gt => 4 | .ge => 5 | .ord => 6 | .uno => 7

/-- FT (R105). -/
def ftOf : Nat → Option FTy
  | 0 => some .f32 | 1 => some .f16x2 | 2 => some .bf16x2 | _ => none

/-- The code of FT (R105). -/
def ftCode : FTy → Nat
  | .f32 => 0 | .f16x2 => 1 | .bf16x2 => 2

/-- FT, RND and SAT of mod[5:0] (R105). -/
def fmodeOf (m : Nat) : Option FMode :=
  match ftOf (m % 4), rndOfCode (m / 4 % 8) with
  | some t, some r => some ⟨t, r, m / 32 % 2 == 1⟩
  | _, _ => none

/-- The code of FT, RND and SAT (R105). -/
def fmodeCode (m : FMode) : Nat := ftCode m.ft + 4 * rndCode m.rnd + 32 * b2n m.sat

/-- Lane access widths (R76). -/
def mwidthOf : Nat → Option MWidth
  | 0 => some .b8 | 1 => some .b16 | 2 => some .b32 | 3 => some .b64 | 4 => some .b128 | _ => none

/-- The code of a lane access width (R76). -/
def mwidthCode : MWidth → Nat
  | .b8 => 0 | .b16 => 1 | .b32 => 2 | .b64 => 3 | .b128 => 4

/-- The fe codes (R76). -/
def feOf : Nat → FE
  | 1 => .waitFull | 2 => .waitClear | 3 => .setFull | _ => .ignore

/-- The code of a full/empty qualifier (R76). -/
def feCode : FE → Nat
  | .ignore => 0 | .waitFull => 1 | .waitClear => 2 | .setFull => 3

/-- AOP (R138). -/
def aopOf : Nat → Option AOp
  | 0 => some .add | 1 => some .and | 2 => some .or | 3 => some .xor | 4 => some .min | 5 => some .max
  | 6 => some .minn | 7 => some .maxn | 8 => some .swap | 9 => some .cas | 10 => some .fadd | _ => none

/-- The code of AOP (R138). -/
def aopCode : AOp → Nat
  | .add => 0 | .and => 1 | .or => 2 | .xor => 3 | .min => 4 | .max => 5 | .minn => 6 | .maxn => 7
  | .swap => 8 | .cas => 9 | .fadd => 10

/-- MODE of VVOTE (R140). -/
def voteOf : Nat → Option VoteMode
  | 0 => some .ballot | 1 => some .any | 2 => some .all | 3 => some .count | 4 => some .pre
  | 5 => some .first | _ => none

/-- The code of MODE of VVOTE (R140). -/
def voteCode : VoteMode → Nat
  | .ballot => 0 | .any => 1 | .all => 2 | .count => 3 | .pre => 4 | .first => 5

/-- MODE of VSHFL (R141). -/
def shflOf : Nat → ShflMode
  | 1 => .up | 2 => .down | 3 => .xor | _ => .idx

/-- The code of MODE of VSHFL (R141). -/
def shflCode : ShflMode → Nat
  | .idx => 0 | .up => 1 | .down => 2 | .xor => 3

/-- MODE of VTOS (R142). -/
def tosOf : Nat → TosMode
  | 1 => .or | 2 => .add | 3 => .count | _ => .first

/-- The code of MODE of VTOS (R142). -/
def tosCode : TosMode → Nat
  | .first => 0 | .or => 1 | .add => 2 | .count => 3

/-- ROP of DRED (R358). -/
def redOf : Nat → RedOp
  | 1 => .fadd | 2 => .maxn | 3 => .fmax | _ => .add

/-- The code of ROP (R358). -/
def redCode : RedOp → Nat
  | .add => 0 | .fadd => 1 | .maxn => 2 | .fmax => 3

/-! ## Operand shapes of LA words -/

/-- The control fields of an LA word. -/
def LaF.ctl (f : LaF) : LaneCtl := ctlOf f.sw f.hold f.k f.kn

/-- dst and a; b, c and fs unused. -/
def laDA (f : LaF) (g : LaneCtl → Opnd → Opnd → Instr) : Option Instr :=
  match f.b, f.c, f.fs, opndOf f.dst, opndOf f.a with
  | 0, 0, 0, some d, some a => some (g f.ctl d a)
  | _, _, _, _, _ => none

/-- dst, a and b; c and fs unused. -/
def laDAB (f : LaF) (g : LaneCtl → Opnd → Opnd → Opnd → Instr) : Option Instr :=
  match f.c, f.fs, opndOf f.dst, opndOf f.a, opndOf f.b with
  | 0, 0, some d, some a, some b => some (g f.ctl d a b)
  | _, _, _, _, _ => none

/-- dst, a, b and c; fs unused. -/
def laDABC (f : LaF) (g : LaneCtl → Opnd → Opnd → Opnd → Opnd → Instr) : Option Instr :=
  match f.fs, opndOf f.dst, opndOf f.a, opndOf f.b, opndOf f.c with
  | 0, some d, some a, some b, some c => some (g f.ctl d a b c)
  | _, _, _, _, _ => none

/-- a and b; dst, c and fs unused. -/
def laAB (f : LaF) (g : LaneCtl → Opnd → Opnd → Instr) : Option Instr :=
  match f.dst, f.c, f.fs, opndOf f.a, opndOf f.b with
  | 0, 0, 0, some a, some b => some (g f.ctl a b)
  | _, _, _, _, _ => none

/-- dst only. -/
def laD (f : LaF) (g : LaneCtl → Opnd → Instr) : Option Instr :=
  match f.a, f.b, f.c, f.fs, opndOf f.dst with
  | 0, 0, 0, 0, some d => some (g f.ctl d)
  | _, _, _, _, _ => none

/-- a only. -/
def laA (f : LaF) (g : LaneCtl → Opnd → Instr) : Option Instr :=
  match f.dst, f.b, f.c, f.fs, opndOf f.a with
  | 0, 0, 0, 0, some a => some (g f.ctl a)
  | _, _, _, _, _ => none

/-- No operand. -/
def laNone (f : LaF) (g : LaneCtl → Instr) : Option Instr :=
  match f.dst, f.a, f.b, f.c, f.fs with
  | 0, 0, 0, 0, 0 => some (g f.ctl)
  | _, _, _, _, _ => none

/-- No operand and no control but sw (R127, R146). -/
def laBare (f : LaF) (g : Bool → Instr) : Option Instr :=
  match f.hold, f.k, f.kn with
  | 0, 0, 0 => laNone f fun c => g c.sw
  | _, _, _ => none

/-! ## Lane words by group -/

/-- IT of a whole mod. -/
def modIt (m : Nat) : Option ITy := whenB (decide (m < 8)) (itOf m)

/-- IT and SAT. -/
def modItSat (m : Nat) : Option (ITy × Bool) :=
  whenB (decide (m < 16)) ((itOf (m % 8)).map fun t => (t, m / 8 == 1))

/-- The position and length fields of VBFEXT and VBFINS, and operand b (R103). -/
def bfSelOf (f : LaF) : Option BfSel :=
  let pos := f.mod / 32 % 64
  let len := f.mod / 2048 % 64
  if f.mod / 16 % 2 = 1 then
    whenB (pos == 0 && len == 0) ((opndOf f.b).map .var)
  else whenB (f.b == 0) (some (.const (BitVec.ofNat 6 pos) (BitVec.ofNat 6 len)))

/-- Ops 0x001 to 0x018 (R99, R100). -/
def decLaneInt (f : LaF) : Option Instr :=
  let m := f.mod
  match f.op with
  | 0x001 => (modItSat m).bind fun t => laDAB f fun c d a b => .vadd c t.1 t.2 d a b
  | 0x002 => (modItSat m).bind fun t => laDAB f fun c d a b => .vsub c t.1 t.2 d a b
  | 0x003 => (modIt m).bind fun t => laDAB f fun c d a b => .vmul c t d a b
  | 0x004 => (modIt m).bind fun t => laDAB f fun c d a b => .vmulh c t d a b
  | 0x005 => (modIt m).bind fun t => laDABC f fun c d a b x => .vmad c t d a b x
  | 0x006 => (modIt m).bind fun t => laDAB f fun c d a b => .vmin c t d a b
  | 0x007 => (modIt m).bind fun t => laDAB f fun c d a b => .vmax c t d a b
  | 0x008 => whenB (decide (m < 16))
      ((it02Of (m % 8)).bind fun w => laDA f fun c d a => .vabs c w (m / 8 == 1) d a)
  | 0x009 => (it02Of m).bind fun w => laDAB f fun c d a b => .vand c w d a b
  | 0x00A => (it02Of m).bind fun w => laDAB f fun c d a b => .vor c w d a b
  | 0x00B => (it02Of m).bind fun w => laDAB f fun c d a b => .vxor c w d a b
  | 0x00C => (it02Of m).bind fun w => laDAB f fun c d a b => .vandn c w d a b
  | 0x00D => (it02Of m).bind fun w => laDAB f fun c d a b => .vshl c w d a b
  | 0x00E => (it02Of m).bind fun w => laDAB f fun c d a b => .vshr c w d a b
  | 0x00F => (it02Of m).bind fun w => laDAB f fun c d a b => .vsra c w d a b
  | 0x010 => (it02Of m).bind fun w => laDAB f fun c d a b => .vrot c w d a b
  | 0x011 => (it02Of m).bind fun w => laDA f fun c d a => .vpopc c w d a
  | 0x012 => (it02Of m).bind fun w => laDA f fun c d a => .vclz c w d a
  | 0x013 => (it02Of m).bind fun w => laDA f fun c d a => .vbrev c w d a
  | 0x014 => whenB (m / 8 % 2 == 0 && decide (m < 2 ^ 17))
      ((itOf (m % 8)).bind fun t => (bfSelOf f).bind fun s =>
        laDA { f with b := 0 } fun c d a => .vbfext c t s d a)
  | 0x015 => whenB (m / 8 % 2 == 0 && decide (m < 2 ^ 17))
      ((it02Of (m % 8)).bind fun w => (bfSelOf f).bind fun s =>
        laDABC { f with b := 0 } fun c d a _ x => .vbfins c w s d a x)
  | 0x016 => whenB (m / 8 % 2 == 0 && decide (m < 32))
      ((it02Of (m % 8)).bind fun w => laDAB f fun c d a b => .vclmul c w (m / 16 == 1) d a b)
  | 0x017 => whenB (m / 8 % 256 == 0 && decide (m < 2 ^ 15))
      ((it02Of (m % 8)).bind fun w =>
        laDAB f fun c d a b => .vsel c w (BitVec.ofNat 4 (m / 2048)) d a b)
  | 0x018 => whenB (m / 8 % 16 == 0 && decide (m < 2 ^ 15))
      ((itOf (m % 8)).bind fun t => (icondOf (m / 128 % 16)).bind fun q =>
        laAB f fun c a b => .vcmp c t q (BitVec.ofNat 4 (m / 2048)) a b)
  | _ => none

/-- FT, RND and SAT with every other bit zero. -/
def modF (m : Nat) : Option FMode := whenB (decide (m < 64)) (fmodeOf m)

/-- FT with every other bit zero (R106). -/
def modFt (m : Nat) : Option FTy := whenB (decide (m < 4)) (ftOf m)

/-- COND and KD of VFCMP, with FT, RND and SAT zero (R105, R106). -/
def modFcmp (m : Nat) : Option (FCond × BitVec 4) :=
  whenB (m % 128 == 0 && decide (m < 2 ^ 15))
    ((fcondOf (m / 128 % 16)).map fun q => (q, BitVec.ofNat 4 (m / 2048)))

/-- Ops 0x020 to 0x02D (R105 to R107). -/
def decLaneFloat (f : LaF) : Option Instr :=
  let m := f.mod
  match f.op with
  | 0x020 => (modF m).bind fun t => laDAB f fun c d a b => .vfadd c t d a b
  | 0x021 => (modF m).bind fun t => laDAB f fun c d a b => .vfsub c t d a b
  | 0x022 => (modF m).bind fun t => laDAB f fun c d a b => .vfmul c t d a b
  | 0x023 => whenB (m / 64 % 512 == 0 && decide (m < 2 ^ 17))
      ((fmodeOf (m % 64)).bind fun t => laDABC f fun c d a b x =>
        .vfma c t (m / 2 ^ 15 % 2 == 1) (m / 2 ^ 16 % 2 == 1) d a b x)
  | 0x024 => (modFt m).bind fun t => laDAB f fun c d a b => .vfmin c t d a b
  | 0x025 => (modFt m).bind fun t => laDAB f fun c d a b => .vfmax c t d a b
  | 0x026 => (modFcmp m).bind fun q => laAB f fun c a b => .vfcmp c q.1 q.2 a b
  | 0x027 => (modF m).bind fun t => laDA f fun c d a => .vfrcp c t d a
  | 0x028 => (modF m).bind fun t => laDA f fun c d a => .vfrsq c t d a
  | 0x029 => (modF m).bind fun t => laDA f fun c d a => .vfsqrt c t d a
  | 0x02A => (modF m).bind fun t => laDA f fun c d a => .vfexp2 c t d a
  | 0x02B => (modF m).bind fun t => laDA f fun c d a => .vflog2 c t d a
  | 0x02C => (modF m).bind fun t => laDA f fun c d a => .vftanh c t d a
  | 0x02D => (modFt m).bind fun t => laDA f fun c d a => .vfclass c t d a
  | _ => none

/-- Ops 0x040 to 0x045 (R112 to R122). -/
def decLaneConv (f : LaF) : Option Instr :=
  let m := f.mod
  let fs := BitVec.ofNat 3 f.fs
  match f.op with
  | 0x040 => whenB (decide (m < 2 ^ 15))
      ((fmtOfCode (m % 16)).bind fun sf => (fmtOfCode (m / 16 % 16)).bind fun df =>
        (rndOfCode (m / 256 % 8)).bind fun r => laDA f fun c d a =>
          .vcvt c sf df r (m / 2048 % 2 == 1) (BitVec.ofNat 3 (m / 4096)) d a)
  | 0x041 => whenB (decide (m < 8)) (laDAB { f with fs := 0 } fun c d a b =>
      .vqnt c fs (BitVec.ofNat 3 m) d a b)
  | 0x042 => whenB (decide (m < 8)) (laDAB { f with fs := 0 } fun c d a b =>
      .vdqnt c fs (BitVec.ofNat 3 m) d a b)
  | 0x043 => whenB (decide (m < 2 ^ 10))
      ((fmtOfCode (m % 16)).bind fun df => (rndOfCode (m / 16 % 8)).bind fun r =>
        laDAB f fun c d a b =>
          .vpack c df r (m / 128 % 2 == 1) (BitVec.ofNat 2 (m / 256)) d a b)
  | 0x044 => whenB (decide (m < 64))
      ((fmtOfCode (m % 16)).bind fun sf => laDA f fun c d a =>
        .vunpk c sf (BitVec.ofNat 2 (m / 16)) d a)
  | 0x045 => (modFt m).bind fun t => laAB f fun c a b => .vwbupd c t a b
  | _ => none

/-- Ops 0x060 to 0x06B (R127 to R143). -/
def decLaneMask (f : LaF) : Option Instr :=
  let m := f.mod
  let k0 := BitVec.ofNat 4 (m % 16)
  let k1 := BitVec.ofNat 4 (m / 16 % 16)
  let k2 := BitVec.ofNat 4 (m / 256 % 16)
  match f.op with
  | 0x060 => whenB (decide (m < 32)) (laBare f fun sw => .vif sw k0 (m / 16 == 1))
  | 0x061 => whenB (m == 0) (laBare f .velse)
  | 0x062 => whenB (m == 0) (laBare f .vendif)
  | 0x063 => whenB (decide (m < 2 ^ 12)) (laNone f fun c => .vkand c k0 k1 k2)
  | 0x064 => whenB (decide (m < 2 ^ 12)) (laNone f fun c => .vkor c k0 k1 k2)
  | 0x065 => whenB (decide (m < 2 ^ 12)) (laNone f fun c => .vkxor c k0 k1 k2)
  | 0x066 => whenB (decide (m < 2 ^ 8)) (laNone f fun c => .vknot c k0 k1)
  | 0x067 =>
    if m < 16 then laA f fun c a => .vkmov c false k0 a
    else whenB (m % 16 == 0 && m / 256 == 16) (laD f fun c d => .vkmov c true k1 d)
  | 0x068 => whenB (decide (m < 2 ^ 8))
      ((voteOf (m % 8)).bind fun v => laD f fun c d => .vvote c v (m / 8 % 2 == 1) k1 d)
  | 0x069 => whenB (decide (m < 8))
      (laDABC f fun c d a b x => .vshfl c (shflOf (m % 4)) (m / 4 == 1) d a b x)
  | 0x06A => whenB (decide (m < 4))
      (laD f fun c d => .vregroup c (m % 2 == 1) (m / 2 == 1) d)
  | 0x06B => whenB (decide (m < 4)) (laA f fun c a => .vtos c (tosOf m) a)
  | _ => none

/-- The memory fields of an LM word. -/
def lmemOf (f : LmF) : Option LMem :=
  match mwidthOf f.width, f.space, opndOf f.addr with
  | some w, 0, some a => some ⟨w, false, feOf f.fe, a, BitVec.ofNat 4 f.sbase, BitVec.ofNat 24 f.off⟩
  | some w, 1, some a => some ⟨w, true, feOf f.fe, a, BitVec.ofNat 4 f.sbase, BitVec.ofNat 24 f.off⟩
  | _, _, _ => none

/-- The control fields of an LM word. -/
def LmF.ctl (f : LmF) : LaneCtl := ctlOf f.sw f.hold f.k f.kn

/-- A load (R130). -/
def lmLoad (f : LmF) (g : LaneCtl → LMem → Bool → Opnd → Instr) : Option Instr :=
  match f.fs, f.scope, f.wb, lmemOf f, opndOf f.data with
  | 0, 0, 0, some m, some d => whenB (decide (f.mod < 2)) (some (g f.ctl m (f.mod == 1) d))
  | _, _, _, _, _ => none

/-- A store (R130, R73: fs is the waybill slot when wb is set). -/
def lmStore (f : LmF) (g : LaneCtl → LMem → Option (BitVec 3) → Opnd → Instr) : Option Instr :=
  match f.scope, f.mod, lmemOf f, opndOf f.data with
  | 0, 0, some m, some d =>
    if f.wb = 1 then some (g f.ctl m (some (BitVec.ofNat 3 f.fs)) d)
    else whenB (f.fs == 0) (some (g f.ctl m none d))
  | _, _, _, _ => none

/-- Ops 0x080 to 0x085 and 0x0E0, 0x0E1 (R130, R138, R139, R357). -/
def decLaneMem (f : LmF) : Option Instr :=
  match f.op with
  | 0x080 => lmLoad f .vld
  | 0x081 => lmStore f .vst
  | 0x082 => lmLoad f .vlds
  | 0x083 => lmStore f .vsts
  | 0x084 =>
    match f.fs, f.wb, lmemOf f, opndOf f.data, aopOf (f.mod % 16) with
    | 0, 0, some m, some d, some op =>
      whenB (decide (f.mod < 32) && decide (f.scope < 7))
        (some (.vatom f.ctl m op (f.mod / 16 == 1) (Fin.ofNat 7 f.scope) d))
    | _, _, _, _, _ => none
  | 0x085 =>
    match f.fs, f.wb, f.scope, f.data, lmemOf f with
    | 0, 0, 0, 0, some m => whenB (decide (f.mod < 2)) (some (.vpref f.ctl m (f.mod == 1)))
    | _, _, _, _, _ => none
  | 0x0E0 => lmLoad f .dldr
  | 0x0E1 => lmStore f .dstr
  | _ => none

/-- Ops 0x0A0 to 0x0A4 (R77, R239 to R242). -/
def decLaneMatrix (f : LxF) : Option Instr :=
  let x : LxMul :=
    ⟨f.sw == 1, BitVec.ofNat 3 f.fsa, BitVec.ofNat 3 f.fsb, BitVec.ofNat 3 f.accview,
      BitVec.ofNat 3 f.aview, BitVec.ofNat 4 f.bsel, BitVec.ofNat 4 f.ssel, BitVec.ofNat 8 f.kcnt,
      BitVec.ofNat 3 f.msel, f.gang == 1, f.order == 1, BitVec.ofNat 2 f.sparse, f.mod / 2 == 1,
      f.mod % 2 == 1⟩
  let bare := f.hold == 0 && f.k == 0 && f.kn == 0 && f.resv == 0
  let noMul := f.fsb == 0 && f.ssel == 0 && f.kcnt == 0 && f.msel == 0 && f.gang == 0
    && f.order == 0 && f.sparse == 0
  whenB bare (match f.op with
    | 0x0A0 => whenB (decide (f.mod < 4)) (some (.vmma x))
    | 0x0A1 => whenB (decide (f.mod < 4)) (some (.vmmas x))
    | 0x0A2 => whenB (noMul && f.fsa == 0 && f.aview == 0 && f.bsel == 0 && f.mod == 0)
        (some (.vaccz x.sw x.accview))
    | 0x0A3 => whenB (noMul && f.bsel == 0 && decide (f.mod < 8))
        (some (.vaccrd x.sw x.accview x.aview x.fsa (f.mod / 4 == 1) (f.mod / 2 % 2 == 1) (f.mod % 2 == 1)))
    | 0x0A4 => whenB (noMul && f.fsa == 0 && f.aview == 0 && decide (f.mod < 2))
        (some (.vaccsc x.sw x.accview x.bsel (f.mod == 1)))
    | _ => none)

/-- Ops 0x0C0, 0x0C2 and 0x0E2 to 0x0E5 (R146, R358). -/
def decLaneMove (f : LaF) : Option Instr :=
  match f.op with
  | 0x0C0 => whenB (decide (f.mod < 2)) (laDA f fun c d a => .vmov c (f.mod == 1) d a)
  | 0x0C2 => whenB (f.mod == 0) (laBare f .vnop)
  | 0x0E2 => whenB (f.mod == 0) (laAB f .dwat)
  | 0x0E3 => whenB (f.mod == 0) (laAB f .dtok)
  | 0x0E4 => whenB (decide (f.mod < 4)) (laAB f fun c a b => .dred c (redOf f.mod) a b)
  | 0x0E5 => whenB (f.mod == 0) (laNone f .dend)
  | _ => none

/-- dst, a and the immediate. -/
def liDA (f : LiF) (g : LaneCtl → Opnd → Opnd → W32 → Instr) : Option Instr :=
  match f.fs, opndOf f.dst, opndOf f.a with
  | 0, some d, some a => some (g (ctlOf f.sw f.hold f.k f.kn) d a (BitVec.ofNat 32 f.imm))
  | _, _, _ => none

/-- a and the immediate. -/
def liA (f : LiF) (g : LaneCtl → Opnd → W32 → Instr) : Option Instr :=
  match f.fs, f.dst, opndOf f.a with
  | 0, 0, some a => some (g (ctlOf f.sw f.hold f.k f.kn) a (BitVec.ofNat 32 f.imm))
  | _, _, _ => none

/-- The LI forms (R78, R146). -/
def decLaneImm (f : LiF) : Option Instr :=
  let m := f.mod
  match f.op with
  | 0x101 => (modItSat m).bind fun t => liDA f fun c d a i => .vaddImm c t.1 t.2 d a i
  | 0x102 => (modItSat m).bind fun t => liDA f fun c d a i => .vsubImm c t.1 t.2 d a i
  | 0x103 => (modIt m).bind fun t => liDA f fun c d a i => .vmulImm c t d a i
  | 0x106 => (modIt m).bind fun t => liDA f fun c d a i => .vminImm c t d a i
  | 0x107 => (modIt m).bind fun t => liDA f fun c d a i => .vmaxImm c t d a i
  | 0x109 => (it02Of m).bind fun w => liDA f fun c d a i => .vandImm c w d a i
  | 0x10A => (it02Of m).bind fun w => liDA f fun c d a i => .vorImm c w d a i
  | 0x10B => (it02Of m).bind fun w => liDA f fun c d a i => .vxorImm c w d a i
  | 0x10C => (it02Of m).bind fun w => liDA f fun c d a i => .vandnImm c w d a i
  | 0x118 => whenB (m / 8 % 16 == 0)
      ((itOf (m % 8)).bind fun t => (icondOf (m / 128 % 16)).bind fun q =>
        liA f fun c a i => .vcmpImm c t q (BitVec.ofNat 4 (m / 2048)) a i)
  | 0x120 => (modF m).bind fun t => liDA f fun c d a i => .vfaddImm c t d a i
  | 0x121 => (modF m).bind fun t => liDA f fun c d a i => .vfsubImm c t d a i
  | 0x122 => (modF m).bind fun t => liDA f fun c d a i => .vfmulImm c t d a i
  | 0x124 => (modFt m).bind fun t => liDA f fun c d a i => .vfminImm c t d a i
  | 0x125 => (modFt m).bind fun t => liDA f fun c d a i => .vfmaxImm c t d a i
  | 0x126 => (modFcmp m).bind fun q => liA f fun c a i => .vfcmpImm c q.1 q.2 a i
  | 0x0C1 => whenB (f.a == 0 && f.fs == 0 && decide (m < 3))
      ((opndOf f.dst).map fun d =>
        .vmovi (ctlOf f.sw f.hold f.k f.kn) (Fin.ofNat 3 m) d (BitVec.ofNat 32 f.imm))
  | _ => none

/-- A lane word by its op (R78), before `wordLegal`. -/
def decLaneRaw (w : Nat) : Option Instr :=
  let op := w / 2 ^ 86 % 2 ^ 10
  if op < 0x020 then decLaneInt (laOf w)
  else if op < 0x040 then decLaneFloat (laOf w)
  else if op < 0x060 then decLaneConv (laOf w)
  else if op < 0x080 then decLaneMask (laOf w)
  else if op < 0x0A0 then decLaneMem (lmOf w)
  else if op < 0x0C0 then decLaneMatrix (lxOf w)
  else if op = 0x0C1 then decLaneImm (liOf w)
  else if op < 0x0E0 then decLaneMove (laOf w)
  else if op < 0x0E2 then decLaneMem (lmOf w)
  else if op < 0x100 then decLaneMove (laOf w)
  else decLaneImm (liOf w)

/-- Decode a lane word (R61). -/
def decodeLane (w : Nat) : Option Instr :=
  (decLaneRaw w).filter wordLegal

/-- The host's entry: a row of at most 64 bits is a scalar word with the word behind it, a wider one
a lane word. -/
def decodeTableWord (nbits w : Nat) : Option Instr :=
  if nbits ≤ 64 then decodeScalar (w % 2 ^ 32) (w / 2 ^ 32 % 2 ^ 32) else decodeLane (w % 2 ^ 96)

/-! ## Engine commands -/

/-- A space code of DSP, SSP or ISP (R265). -/
def spaceOf : Nat → Option Space
  | 0 => some .glob | 1 => some .scr | 2 => some .host | _ => none

/-- The code of a space (R265). -/
def spaceCode : Space → Nat
  | .glob => 0 | .scr => 1 | .host => 2

/-- Word `i` of a command. -/
def wordAt (ws : List W64) (i : Nat) : W64 := ws.getD i 0

/-- A field of the header. -/
def hdr (ws : List W64) (lo len : Nat) : Nat := fieldOf (wordAt ws 0).toNat lo len

/-- The number of words of a copy command (R264, R268). How many words of the queue a header with an unassigned CMD takes, no
rule says: here it takes its own word alone (DESIGN CHOICE, log 70). -/
def copyLen (h : W64) : Nat :=
  let n := h.toNat
  let base := match fieldOf n 60 4 with
    | 1 => 6 | 2 => 7 | 3 => 8 | 4 => 5 | 5 => 6 | 6 => 3 | _ => 0
  if base = 0 then 1 else base + 2 * fieldOf n 43 1

/-- The extents and strides of a shape word and two stride words (R267). -/
def shapeOf (src dst shp ss ds : W64) : Option Shape :=
  let n := shp.toNat
  whenB (fieldOf n 60 4 == 0)
    (some ⟨src, dst, fieldOf n 0 20 + 1, fieldOf n 20 20 + 1, fieldOf n 40 20 + 1,
      BitVec.ofNat 32 ss.toNat, BitVec.ofNat 32 (ss.toNat / 2 ^ 32),
      BitVec.ofNat 32 ds.toNat, BitVec.ofNat 32 (ds.toNat / 2 ^ 32)⟩)

/-- TAG, EV and the WT words, which end the command (R265, R272). -/
def tailOf (ws : List W64) (n : Nat) : CmdTail :=
  ⟨BitVec.ofNat 16 (hdr ws 0 16), hdr ws 42 1 == 1,
    if hdr ws 43 1 = 1 then some (wordAt ws n, wordAt ws (n + 1)) else none⟩

/-- The signal step of SIGK with its two words (R271). -/
def signalOf (k : Nat) (a v : W64) : Option Signal :=
  match k with
  | 0 => whenB (a == 0 && v == 0) (some .none)
  | 1 => some (.token a v)
  | 2 => whenB (v == 0) (some (.barrier a))
  | _ => none

/-- The source formats of CPCV and RDST (R265). For another SF no rule names a status: it gives CMDFAULT (DESIGN CHOICE,
log 70). -/
def srcFmtOf (n : Nat) : Option Fmt :=
  match fmtOfCode n with
  | some .f32 => some .f32 | some .bf16 => some .bf16 | some .f16 => some .f16 | _ => none

/-- Global or scratch only (R268). -/
def nearSpaceOf (n : Nat) : Option Space :=
  match n with
  | 0 => some .glob | 1 => some .scr | _ => none

/-- Decode the words of a copy command (R265 to R271); `none` is CMDFAULT. SWZ in the header of an RDST or a GATH is a field
that the command does not use, CMDFAULT by R265: R267, which gives MISALIGN to SWZ without a scratch destination, does not say
to which commands it speaks (DESIGN CHOICE, log 70). -/
def decodeCopy (ws : List W64) : Option Instr :=
  let esz := hdr ws 49 3
  let sigk := hdr ws 40 2
  let fs := BitVec.ofNat 3 (hdr ws 46 3)
  let swz := hdr ws 45 1 == 1
  let wb := hdr ws 44 1 == 1
  let z (lo len : Nat) := hdr ws lo len == 0
  whenB (z 16 22) (match hdr ws 60 4 with
    | 1 =>
      match spaceOf (hdr ws 58 2), spaceOf (hdr ws 56 2),
          shapeOf (wordAt ws 1) (wordAt ws 2) (wordAt ws 3) (wordAt ws 4) (wordAt ws 5) with
      | some ds, some ss, some sh =>
        whenB (decide (esz < 5) && z 52 4 && z 46 3 && z 44 1 && z 40 2 && z 38 2)
          (some (.cp ⟨ds, ss, 2 ^ esz, swz, sh, tailOf ws 6⟩))
      | _, _, _ => none
    | 2 =>
      match nearSpaceOf (hdr ws 58 2), nearSpaceOf (hdr ws 56 2), srcFmtOf (hdr ws 52 4),
          shapeOf (wordAt ws 1) (wordAt ws 2) (wordAt ws 3) (wordAt ws 4) (wordAt ws 5) with
      | some ds, some ss, some sf, some sh =>
        whenB (z 49 3 && z 40 2 && z 38 2)
          (some (.cpcv ⟨ds, ss, sf, fs, swz, wb, sh, wordAt ws 6, tailOf ws 7⟩))
      | _, _, _, _ => none
    | 3 =>
      match nearSpaceOf (hdr ws 56 2), srcFmtOf (hdr ws 52 4),
          shapeOf (wordAt ws 1) (wordAt ws 2) (wordAt ws 3) (wordAt ws 4) (wordAt ws 5),
          signalOf sigk (wordAt ws 6) (wordAt ws 7) with
      | some ss, some sf, some sh, some sg =>
        whenB (z 58 2 && z 49 3 && z 45 1 && z 38 2)
          (some (.rdst ⟨ss, sf, fs, wb, sh, sg, tailOf ws 8⟩))
      | _, _, _, _ => none
    | 4 =>
      match nearSpaceOf (hdr ws 58 2), shapeOf 0 (wordAt ws 1) (wordAt ws 2) 0 (wordAt ws 3) with
      | some ds, some sh =>
        whenB (decide (esz < 5) && z 56 2 && z 52 4 && z 46 3 && z 44 1 && z 40 2 && z 38 2)
          (some (.fill ⟨ds, 2 ^ esz, swz, sh, wordAt ws 4, tailOf ws 5⟩))
      | _, _ => none
    | 5 =>
      match spaceOf (hdr ws 58 2), spaceOf (hdr ws 56 2), nearSpaceOf (hdr ws 38 2) with
      | some ds, some ss, some ix =>
        let count := fieldOf (wordAt ws 4).toNat 0 32
        let rb := fieldOf (wordAt ws 4).toNat 32 32
        whenB (decide (esz < 5) && z 52 4 && z 46 3 && z 45 1 && z 44 1 && z 40 2
            && decide (1 ≤ count) && decide (count ≤ 2 ^ 20) && decide (1 ≤ rb)
            && decide (rb ≤ 2 ^ 20) && rb % 2 ^ esz == 0)
          (some (.gath ⟨ds, ss, ix, 2 ^ esz, wordAt ws 1, wordAt ws 2, wordAt ws 3, count, rb,
            BitVec.ofNat 32 (wordAt ws 5).toNat, BitVec.ofNat 32 ((wordAt ws 5).toNat / 2 ^ 32),
            tailOf ws 6⟩))
      | _, _, _ => none
    | 6 =>
      match signalOf sigk (wordAt ws 1) (wordAt ws 2) with
      | some sg =>
        whenB (z 58 2 && z 56 2 && z 52 4 && z 49 3 && z 46 3 && z 45 1 && z 44 1 && z 38 2
            && !(sigk == 0 && hdr ws 42 1 == 0))
          (some (.sig ⟨sg, tailOf ws 3⟩))
      | none => none
    | _ => none)

/-- The number of words of a depot task (R351). -/
def taskLen (h : W64) : Nat :=
  if fieldOf h.toNat 60 4 = 1 then 9 + 2 * fieldOf h.toNat 45 1 + 2 * fieldOf h.toNat 44 1 else 1

/-- Two extra words when a flag is set. -/
def pairAt (set : Bool) (ws : List W64) (n : Nat) : Option (W64 × W64) :=
  if set then some (wordAt ws n, wordAt ws (n + 1)) else none

/-- A token address of an extra pair is a multiple of 8. -/
def pairAligned : Option (W64 × W64) → Bool
  | none => true
  | some (a, _) => a.toNat % 8 == 0

/-- Decode the words of a depot task (R351); `none` is CMDFAULT. -/
def decodeTask (ws : List W64) : Option Instr :=
  let wt := pairAt (hdr ws 45 1 == 1) ws 9
  let ct := pairAt (hdr ws 44 1 == 1) ws (9 + 2 * hdr ws 45 1)
  let nrows := fieldOf (wordAt ws 4).toNat 0 32
  whenB (hdr ws 60 4 == 1 && hdr ws 16 27 == 0 && nrows != 0 && (wordAt ws 1).toNat % 4 == 0
      && pairAligned wt && pairAligned ct)
    (some (.task ⟨hdr ws 52 8 + 1, hdr ws 46 6 + 1, wordAt ws 1, wordAt ws 2, wordAt ws 3, nrows,
      BitVec.ofNat 32 ((wordAt ws 4).toNat / 2 ^ 32),
      [wordAt ws 5, wordAt ws 6, wordAt ws 7, wordAt ws 8], wt, ct, hdr ws 43 1 == 1,
      BitVec.ofNat 16 (hdr ws 0 16)⟩))

/-- The number of words of a scale-out command (R401, R402). -/
def remoteLen (h : W64) : Nat :=
  let n := h.toNat
  let base := match fieldOf n 60 4 with
    | 1 => 4 | 2 => 4 | 3 => 3 | 4 => 4 | _ => 0
  if base = 0 then 1 else base + 2 * fieldOf n 56 1 + 2 * fieldOf n 55 1

/-- The fields every scale-out command has; `n` words come before WT and CT. -/
def remTailOf (ws : List W64) (n : Nat) : RemTail :=
  ⟨hdr ws 57 1 == 1, hdr ws 48 6, hdr ws 40 8, pairAt (hdr ws 56 1 == 1) ws n,
    pairAt (hdr ws 55 1 == 1) ws (n + 2 * hdr ws 56 1), hdr ws 54 1 == 1,
    BitVec.ofNat 16 (hdr ws 0 16)⟩

/-- Decode the words of a scale-out command (R401, R402); `none` is CMDFAULT. -/
def decodeRemote (ws : List W64) : Option Instr :=
  let w3 := (wordAt ws 3).toNat
  let len := fieldOf w3 0 32
  let lsp := hdr ws 58 2
  whenB (hdr ws 16 24 == 0) (match hdr ws 60 4 with
    | 1 => whenB (decide (lsp < 2) && decide (1 ≤ len) && decide (len ≤ 2 ^ 30))
        (some (.rwr ⟨lsp == 1, wordAt ws 1, wordAt ws 2, len, BitVec.ofNat 32 (w3 / 2 ^ 32),
          remTailOf ws 4⟩))
    | 2 => whenB (decide (lsp < 2) && decide (1 ≤ len) && decide (len ≤ 2 ^ 30) && w3 / 2 ^ 32 == 0)
        (some (.rrd ⟨lsp == 1, wordAt ws 1, wordAt ws 2, len, remTailOf ws 4⟩))
    | 3 =>
      let w1 := (wordAt ws 1).toNat
      whenB (lsp == 0 && hdr ws 57 1 == 0 && hdr ws 48 6 == 0 && hdr ws 40 8 == 0
          && fieldOf w1 0 32 != 0 && fieldOf w1 32 32 != 0 && (wordAt ws 2).toNat % 64 == 0
          && decide ((wordAt ws 2).toNat < 2 ^ 56))
        (some (.post ⟨BitVec.ofNat 32 w1, fieldOf w1 32 32, wordAt ws 2, remTailOf ws 3⟩))
    | 4 => whenB (lsp == 0 && w3 / 2 ^ 32 == 0)
        (some (.rsig ⟨wordAt ws 1, wordAt ws 2, BitVec.ofNat 32 w3, remTailOf ws 4⟩))
    | _ => none)

/-- The number of words of a command pushed to engine queue `q` (q0 to q3 copy, q4 scale-out, q5
depots). -/
def cmdLen (q : Nat) (h : W64) : Nat :=
  if q < 4 then copyLen h else if q = 4 then remoteLen h else taskLen h

/-- Decode a command of engine queue `q`. -/
def decodeCmd (q : Nat) (ws : List W64) : Option Instr :=
  if q < 4 then decodeCopy ws else if q = 4 then decodeRemote ws else decodeTask ws


/-! ## The encoders -/

/-- An SA word of register fields. -/
def encSA (op fn : Nat) (d a b : SReg) : Nat := packSA op (sregCode d) (sregCode a) (sregCode b) fn

/-- An ATOM word (R68). -/
def encAtom (op : Nat) (d a b : SReg) (sc : Fin 8) : Nat := encSA 2 (op * 8 + sc.val) d a b

/-- An SB word with a register, a register and an immediate. -/
def encSB (op : Nat) (d a : SReg) (imm : Nat) : Nat := packSB op (sregCode d) (sregCode a) imm

/-- A prefix word and its immediate word, first word low (R71). -/
def encSL (xop : Nat) (d : SReg) (i : W32) : Nat :=
  0x7F * 2 ^ 25 + sregCode d * 2 ^ 19 + xop * 2 ^ 12 + i.toNat * 2 ^ 32

/-- An LA word. -/
def encLA (op : Nat) (c : LaneCtl) (fs d a b x m : Nat) : Nat :=
  laWord ⟨op, b2n c.sw, holdCode c.hold, c.k.toNat, b2n c.kn, fs, d, a, b, x, m⟩

/-- An LA word with dst and a. -/
def encDA (op : Nat) (c : LaneCtl) (d a : Opnd) (m : Nat) : Nat :=
  encLA op c 0 (opndCode d) (opndCode a) 0 0 m

/-- An LA word with dst, a and b. -/
def encDAB (op : Nat) (c : LaneCtl) (d a b : Opnd) (m : Nat) : Nat :=
  encLA op c 0 (opndCode d) (opndCode a) (opndCode b) 0 m

/-- An LA word with dst, a, b and c. -/
def encDABC (op : Nat) (c : LaneCtl) (d a b x : Opnd) (m : Nat) : Nat :=
  encLA op c 0 (opndCode d) (opndCode a) (opndCode b) (opndCode x) m

/-- An LA word with a and b. -/
def encAB (op : Nat) (c : LaneCtl) (a b : Opnd) (m : Nat) : Nat :=
  encLA op c 0 0 (opndCode a) (opndCode b) 0 m

/-- An LI word. -/
def encLI (op : Nat) (c : LaneCtl) (d a : Nat) (i : W32) (m : Nat) : Nat :=
  liWord ⟨op, b2n c.sw, holdCode c.hold, c.k.toNat, b2n c.kn, 0, d, a, i.toNat, m⟩

/-- An LI word with dst and a. -/
def encLIDA (op : Nat) (c : LaneCtl) (d a : Opnd) (i : W32) (m : Nat) : Nat :=
  encLI op c (opndCode d) (opndCode a) i m

/-- An LM word. -/
def encLM (op : Nat) (c : LaneCtl) (fs data : Nat) (x : LMem) (scope wb m : Nat) : Nat :=
  lmWord ⟨op, b2n c.sw, holdCode c.hold, c.k.toNat, b2n c.kn, fs, data, opndCode x.addr,
    x.sbase.toNat, x.off.toNat, mwidthCode x.width, b2n x.scratch, feCode x.fe, scope, wb, m⟩

/-- A load word. -/
def encLoad (op : Nat) (c : LaneCtl) (x : LMem) (sx : Bool) (d : Opnd) : Nat :=
  encLM op c 0 (opndCode d) x 0 0 (b2n sx)

/-- A store word. -/
def encStore (op : Nat) (c : LaneCtl) (x : LMem) (wb : Option (BitVec 3)) (d : Opnd) : Nat :=
  match wb with
  | none => encLM op c 0 (opndCode d) x 0 0 0
  | some f => encLM op c f.toNat (opndCode d) x 0 1 0

/-- A VMMA or VMMAS word. -/
def encMul (op : Nat) (x : LxMul) : Nat :=
  lxWord ⟨op, b2n x.sw, 0, 0, 0, x.fsa.toNat, x.fsb.toNat, x.accview.toNat, x.aview.toNat,
    x.bsel.toNat, x.ssel.toNat, x.kcnt.toNat, x.msel.toNat, b2n x.gang, b2n x.order,
    x.sparse.toNat, 0, 2 * b2n x.z + b2n x.wf⟩

/-- IT and SAT of mod (R99). -/
def encItSat (t : ITy) (sat : Bool) : Nat := itCode t + 8 * b2n sat

/-- The field bits of VBFEXT and VBFINS (R99). -/
def encBf : BfSel → Nat
  | .const p l => p.toNat * 32 + l.toNat * 2048
  | .var _ => 16

/-- Operand b of VBFEXT and VBFINS. -/
def encBfB : BfSel → Nat
  | .const _ _ => 0
  | .var b => opndCode b

/-- The plain control fields of a word that carries only sw. -/
def bareCtl (sw : Bool) : LaneCtl := ⟨sw, .none, 0, false⟩

/-- The word of a stream instruction, little-endian bit 0 first; a pair has its first word low.
Events and engine commands have no word and give 0. -/
def encode : Instr → Nat
  | .add d a b => encSA 0 0x01 d a b | .sub d a b => encSA 0 0x02 d a b
  | .mul d a b => encSA 0 0x03 d a b | .mulh d a b => encSA 0 0x04 d a b
  | .mulhn d a b => encSA 0 0x05 d a b | .div d a b => encSA 0 0x06 d a b
  | .divn d a b => encSA 0 0x07 d a b | .rem d a b => encSA 0 0x08 d a b
  | .remn d a b => encSA 0 0x09 d a b | .and d a b => encSA 0 0x0A d a b
  | .or d a b => encSA 0 0x0B d a b | .xor d a b => encSA 0 0x0C d a b
  | .andn d a b => encSA 0 0x0D d a b | .shl d a b => encSA 0 0x0E d a b
  | .shr d a b => encSA 0 0x0F d a b | .sra d a b => encSA 0 0x10 d a b
  | .rot d a b => encSA 0 0x11 d a b | .min d a b => encSA 0 0x12 d a b
  | .max d a b => encSA 0 0x13 d a b | .minn d a b => encSA 0 0x14 d a b
  | .maxn d a b => encSA 0 0x15 d a b
  | .clz d a => encSA 0 0x16 d a (.s 0) | .ctz d a => encSA 0 0x17 d a (.s 0)
  | .popc d a => encSA 0 0x18 d a (.s 0) | .brev d a => encSA 0 0x19 d a (.s 0)
  | .clmul d a b => encSA 0 0x1A d a b | .clmulh d a b => encSA 0 0x1B d a b
  | .sel d a b => encSA 0 0x1C d a b | .seq d a b => encSA 0 0x1D d a b
  | .sne d a b => encSA 0 0x1E d a b | .slt d a b => encSA 0 0x1F d a b
  | .sltn d a b => encSA 0 0x20 d a b
  | .jr a => encSA 1 0x00 (.s 0) a (.s 0) | .ret => packSA 1 0 0 0 0x01
  | .fence sc => packSA 1 sc.val 0 0 0x02 | .qfence m sc => packSA 1 m.toNat sc.val 0 0x03
  | .barav a => encSA 1 0x04 (.s 0) a (.s 0) | .barwt a => encSA 1 0x05 (.s 0) a (.s 0)
  | .waita d a b => encSA 1 0x06 d a b | .yield => packSA 1 0 0 0 0x07
  | .exit => packSA 1 0 0 0 0x08 | .vdrain => packSA 1 0 0 0 0x09
  | .view i a => packSA 1 i.val (sregCode a) 0 0x0A | .gang a => encSA 1 0x0B (.s 0) a (.s 0)
  | .mset g a => packSA 1 g.val (sregCode a) 0 0x0C
  | .txcommit a b => encSA 1 0x0D (.s 0) a b | .txabort => packSA 1 0 0 0 0x0E
  | .launch d a => encSA 1 0x0F d a (.s 0) | .perf a b => encSA 1 0x10 (.s 0) a b
  | .clnr a b => encSA 1 0x11 (.s 0) a b | .invr a b => encSA 1 0x12 (.s 0) a b
  | .cliv a b => encSA 1 0x13 (.s 0) a b | .tret => packSA 1 0 0 0 0x14
  | .nop => packSA 1 0 0 0 0x15 | .brk => packSA 1 0 0 0 0x16 | .relay => packSA 1 0 0 0 0x17
  | .wbsync a => encSA 1 0x18 (.s 0) a (.s 0)
  | .atomAdd d a b c => encAtom 0 d a b c | .atomAnd d a b c => encAtom 1 d a b c
  | .atomOr d a b c => encAtom 2 d a b c | .atomXor d a b c => encAtom 3 d a b c
  | .atomMin d a b c => encAtom 4 d a b c | .atomMax d a b c => encAtom 5 d a b c
  | .atomMinn d a b c => encAtom 6 d a b c | .atomMaxn d a b c => encAtom 7 d a b c
  | .atomSwap d a b c => encAtom 8 d a b c | .atomCas d a b c => encAtom 9 d a b c
  | .atomBfim d a b c => encAtom 10 d a b c | .atomFfcs d a b c => encAtom 11 d a b c
  | .atomPlset d a b c => encAtom 12 d a b c
  | .addi d a i => encSB 0x08 d a i.toNat | .andi d a i => encSB 0x09 d a i.toNat
  | .ori d a i => encSB 0x0A d a i.toNat | .xori d a i => encSB 0x0B d a i.toNat
  | .shli d a i => encSB 0x0C d a i.toNat | .shri d a i => encSB 0x0D d a i.toNat
  | .srai d a i => encSB 0x0E d a i.toNat
  | .bfext d a l p => encSB 0x0F d a (l.toNat * 64 + p.toNat)
  | .bfins d a l p => encSB 0x10 d a (l.toNat * 64 + p.toNat)
  | .ld d a w o => encSB 0x11 d a (ldWidthCode w * 1024 + o.toNat)
  | .st d a w o => encSB 0x12 d a (stWidthCode w * 1024 + o.toNat)
  | .sld d a w o => encSB 0x13 d a (ldWidthCode w * 1024 + o.toNat)
  | .sst d a w o => encSB 0x14 d a (stWidthCode w * 1024 + o.toNat)
  | .trap c => packSB 0x15 0 0 c.toNat
  | .sysrd d n => packSB 0x16 (sregCode d) 0 n.toNat
  | .syswr a n => packSB 0x17 0 (sregCode a) n.toNat
  | .beq d a i => encSB 0x18 d a i.toNat | .bne d a i => encSB 0x19 d a i.toNat
  | .blt d a i => encSB 0x1A d a i.toNat | .bge d a i => encSB 0x1B d a i.toNat
  | .bltn d a i => encSB 0x1C d a i.toNat | .bgen d a i => encSB 0x1D d a i.toNat
  | .li d i => packSC 0x20 (sregCode d) i.toNat
  | .jmp i => packSC 0x21 0 i.toNat | .call i => packSC 0x22 0 i.toNat
  | .vrun l i => packSC 0x23 l.toNat i.toNat
  | .lih d i => encSL 0 d i | .lix d i => encSL 1 d i
  | .vadd c t s d a b => encDAB 0x001 c d a b (encItSat t s)
  | .vsub c t s d a b => encDAB 0x002 c d a b (encItSat t s)
  | .vmul c t d a b => encDAB 0x003 c d a b (itCode t)
  | .vmulh c t d a b => encDAB 0x004 c d a b (itCode t)
  | .vmad c t d a b x => encDABC 0x005 c d a b x (itCode t)
  | .vmin c t d a b => encDAB 0x006 c d a b (itCode t)
  | .vmax c t d a b => encDAB 0x007 c d a b (itCode t)
  | .vabs c w s d a => encDA 0x008 c d a (it02Code w + 8 * b2n s)
  | .vand c w d a b => encDAB 0x009 c d a b (it02Code w)
  | .vor c w d a b => encDAB 0x00A c d a b (it02Code w)
  | .vxor c w d a b => encDAB 0x00B c d a b (it02Code w)
  | .vandn c w d a b => encDAB 0x00C c d a b (it02Code w)
  | .vshl c w d a b => encDAB 0x00D c d a b (it02Code w)
  | .vshr c w d a b => encDAB 0x00E c d a b (it02Code w)
  | .vsra c w d a b => encDAB 0x00F c d a b (it02Code w)
  | .vrot c w d a b => encDAB 0x010 c d a b (it02Code w)
  | .vpopc c w d a => encDA 0x011 c d a (it02Code w)
  | .vclz c w d a => encDA 0x012 c d a (it02Code w)
  | .vbrev c w d a => encDA 0x013 c d a (it02Code w)
  | .vbfext c t f d a => encLA 0x014 c 0 (opndCode d) (opndCode a) (encBfB f) 0 (itCode t + encBf f)
  | .vbfins c w f d a x =>
    encLA 0x015 c 0 (opndCode d) (opndCode a) (encBfB f) (opndCode x) (it02Code w + encBf f)
  | .vclmul c w h d a b => encDAB 0x016 c d a b (it02Code w + 16 * b2n h)
  | .vsel c w ks d a b => encDAB 0x017 c d a b (it02Code w + 2048 * ks.toNat)
  | .vcmp c t q kd a b => encAB 0x018 c a b (itCode t + 128 * icondCode q + 2048 * kd.toNat)
  | .vaddImm c t s d a i => encLIDA 0x101 c d a i (encItSat t s)
  | .vsubImm c t s d a i => encLIDA 0x102 c d a i (encItSat t s)
  | .vmulImm c t d a i => encLIDA 0x103 c d a i (itCode t)
  | .vminImm c t d a i => encLIDA 0x106 c d a i (itCode t)
  | .vmaxImm c t d a i => encLIDA 0x107 c d a i (itCode t)
  | .vandImm c w d a i => encLIDA 0x109 c d a i (it02Code w)
  | .vorImm c w d a i => encLIDA 0x10A c d a i (it02Code w)
  | .vxorImm c w d a i => encLIDA 0x10B c d a i (it02Code w)
  | .vandnImm c w d a i => encLIDA 0x10C c d a i (it02Code w)
  | .vcmpImm c t q kd a i =>
    encLI 0x118 c 0 (opndCode a) i (itCode t + 128 * icondCode q + 2048 * kd.toNat)
  | .vfadd c m d a b => encDAB 0x020 c d a b (fmodeCode m)
  | .vfsub c m d a b => encDAB 0x021 c d a b (fmodeCode m)
  | .vfmul c m d a b => encDAB 0x022 c d a b (fmodeCode m)
  | .vfma c m na nc d a b x =>
    encDABC 0x023 c d a b x (fmodeCode m + 2 ^ 15 * b2n na + 2 ^ 16 * b2n nc)
  | .vfmin c t d a b => encDAB 0x024 c d a b (ftCode t)
  | .vfmax c t d a b => encDAB 0x025 c d a b (ftCode t)
  | .vfcmp c q kd a b => encAB 0x026 c a b (128 * fcondCode q + 2048 * kd.toNat)
  | .vfrcp c m d a => encDA 0x027 c d a (fmodeCode m)
  | .vfrsq c m d a => encDA 0x028 c d a (fmodeCode m)
  | .vfsqrt c m d a => encDA 0x029 c d a (fmodeCode m)
  | .vfexp2 c m d a => encDA 0x02A c d a (fmodeCode m)
  | .vflog2 c m d a => encDA 0x02B c d a (fmodeCode m)
  | .vftanh c m d a => encDA 0x02C c d a (fmodeCode m)
  | .vfclass c t d a => encDA 0x02D c d a (ftCode t)
  | .vfaddImm c m d a i => encLIDA 0x120 c d a i (fmodeCode m)
  | .vfsubImm c m d a i => encLIDA 0x121 c d a i (fmodeCode m)
  | .vfmulImm c m d a i => encLIDA 0x122 c d a i (fmodeCode m)
  | .vfminImm c t d a i => encLIDA 0x124 c d a i (ftCode t)
  | .vfmaxImm c t d a i => encLIDA 0x125 c d a i (ftCode t)
  | .vfcmpImm c q kd a i => encLI 0x126 c 0 (opndCode a) i (128 * fcondCode q + 2048 * kd.toNat)
  | .vcvt c sf df r s e d a =>
    encDA 0x040 c d a (fmtCode sf + 16 * fmtCode df + 256 * rndCode r + 2048 * b2n s + 4096 * e.toNat)
  | .vqnt c fs ds d a b => encLA 0x041 c fs.toNat (opndCode d) (opndCode a) (opndCode b) 0 ds.toNat
  | .vdqnt c fs es d a b => encLA 0x042 c fs.toNat (opndCode d) (opndCode a) (opndCode b) 0 es.toNat
  | .vpack c df r s p d a b =>
    encDAB 0x043 c d a b (fmtCode df + 16 * rndCode r + 128 * b2n s + 256 * p.toNat)
  | .vunpk c sf p d a => encDA 0x044 c d a (fmtCode sf + 16 * p.toNat)
  | .vwbupd c t a b => encAB 0x045 c a b (ftCode t)
  | .vif sw kc kcn => encLA 0x060 (bareCtl sw) 0 0 0 0 0 (kc.toNat + 16 * b2n kcn)
  | .velse sw => encLA 0x061 (bareCtl sw) 0 0 0 0 0 0
  | .vendif sw => encLA 0x062 (bareCtl sw) 0 0 0 0 0 0
  | .vkand c kd ka kb => encLA 0x063 c 0 0 0 0 0 (kd.toNat + 16 * ka.toNat + 256 * kb.toNat)
  | .vkor c kd ka kb => encLA 0x064 c 0 0 0 0 0 (kd.toNat + 16 * ka.toNat + 256 * kb.toNat)
  | .vkxor c kd ka kb => encLA 0x065 c 0 0 0 0 0 (kd.toNat + 16 * ka.toNat + 256 * kb.toNat)
  | .vknot c kd ka => encLA 0x066 c 0 0 0 0 0 (kd.toNat + 16 * ka.toNat)
  | .vkmov c toReg k x =>
    if toReg then encLA 0x067 c 0 (opndCode x) 0 0 0 (16 * k.toNat + 4096)
    else encLA 0x067 c 0 0 (opndCode x) 0 0 k.toNat
  | .vvote c m r ka d => encLA 0x068 c 0 (opndCode d) 0 0 0 (voteCode m + 8 * b2n r + 16 * ka.toNat)
  | .vshfl c m w d a b x => encDABC 0x069 c d a b x (shflCode m + 4 * b2n w)
  | .vregroup c w p d => encLA 0x06A c 0 (opndCode d) 0 0 0 (b2n w + 2 * b2n p)
  | .vtos c m a => encLA 0x06B c 0 0 (opndCode a) 0 0 (tosCode m)
  | .vld c m sx d => encLoad 0x080 c m sx d
  | .vst c m wb d => encStore 0x081 c m wb d
  | .vlds c m sx d => encLoad 0x082 c m sx d
  | .vsts c m wb d => encStore 0x083 c m wb d
  | .vatom c m op red sc d => encLM 0x084 c 0 (opndCode d) m sc.val 0 (aopCode op + 16 * b2n red)
  | .vpref c m l2 => encLM 0x085 c 0 0 m 0 0 (b2n l2)
  | .vmma x => encMul 0x0A0 x
  | .vmmas x => encMul 0x0A1 x
  | .vaccz sw av => lxWord ⟨0x0A2, b2n sw, 0, 0, 0, 0, 0, av.toNat, 0, 0, 0, 0, 0, 0, 0, 0, 0, 0⟩
  | .vaccrd sw av tv fs clr wb coff =>
    lxWord ⟨0x0A3, b2n sw, 0, 0, 0, fs.toNat, 0, av.toNat, tv.toNat, 0, 0, 0, 0, 0, 0, 0, 0,
      4 * b2n clr + 2 * b2n wb + b2n coff⟩
  | .vaccsc sw av bs add =>
    lxWord ⟨0x0A4, b2n sw, 0, 0, 0, 0, 0, av.toNat, 0, bs.toNat, 0, 0, 0, 0, 0, 0, 0, b2n add⟩
  | .vmov c w d a => encDA 0x0C0 c d a (b2n w)
  | .vmovi c e d i => encLI 0x0C1 c (opndCode d) 0 i e.val
  | .vnop sw => encLA 0x0C2 (bareCtl sw) 0 0 0 0 0 0
  | .dldr c m sx d => encLoad 0x0E0 c m sx d
  | .dstr c m wb d => encStore 0x0E1 c m wb d
  | .dwat c a b => encAB 0x0E2 c a b 0
  | .dtok c a b => encAB 0x0E3 c a b 0
  | .dred c op a b => encAB 0x0E4 c a b (redCode op)
  | .dend c => encLA 0x0E5 c 0 0 0 0 0 0
  | _ => 0

/-- The bytes a stream word takes in memory (R60): 4, 8 for a pair, 12 for a lane word. -/
def wordBytes (i : Instr) : Nat :=
  match i with
  | .lih _ _ => 8
  | .lix _ _ => 8
  | _ => if i.isScalarWord then 4 else 12

/-- The stream word in memory order (R60). -/
def encodeBytes (i : Instr) : List Byte := leBytes (wordBytes i) (encode i)

end Sys2Proof
end

