-- ==== Sys2Proof/Machine/State.lean ====
section
/-! DEFINITION. The state of an Ilnavik N4 package as plain data, the reasons a step can stop, and the
state after package reset. Records live in finite maps by the model's keys (log 3): a core is
`(die * 8 + cluster) * 15 + n`, a cluster `die * 8 + c`, a team `LID * 2^60 + T`, a role
`8 * team + index`. -/

namespace Sys2Proof.Machine
open Sys2Proof

/-- Why a step has no next state. -/
inductive Fault where
  /-- Raised by a meaning when it is executed for an agent of another kind than the one it belongs
  to (a lane word for a scalar stream, a command outside its queue). Safe: no stream of the machine
  fetches such a word, and the model stops. -/
  | wrongAgent
  deriving DecidableEq, Repr

/-- Why an instruction is refused. -/
inductive Refusal where
  /-- Raised by `exec` for a row of the table that has no meaning yet. Safe: the model stops. -/
  | notModelled (mnemonic : String)
  deriving DecidableEq, Repr

/-- The agent whose word or command `exec` executes (log 1). -/
inductive Agent where
  | none
  | scalar (rk : Nat)
  | lane (rk : Nat)
  | row (key : Nat)
  | engine (rk q : Nat)
  deriving DecidableEq, Repr

/-- A soft error that shows itself outside the register words (R335); `fixed` if the code corrects it. -/
inductive SoftErr where
  /-- An entry of a role's operand latch (R54, R337). -/
  | latch (rk entry : Nat)
  /-- An instruction in a role's operand log, by its place among the words in flight (R219, R337). -/
  | log (rk idx : Nat)
  /-- Eight bytes of a team's scratch in a vault frame, by their number (R210). -/
  | vault (tk word : Nat) (fixed : Bool)
  /-- An entry of a team's write log in a vault frame (R215). -/
  | writeLog (tk idx : Nat) (fixed : Bool)
  /-- A line of a cluster's L1 or L2, tag or data (R336). -/
  | cache (cluster line : Nat) (fixed : Bool)
  /-- The HBM line of a physical address, at a consumer's read (R336). -/
  | hbm (pa : Nat) (fixed : Bool)
  deriving DecidableEq, Repr

/-- A cache that holds a line of global memory (R286): the L1 of a core, or the L2 of a cluster. -/
inductive CacheAt where
  | l1 (core : Nat)
  | l2 (cluster : Nat)
  deriving DecidableEq, Repr

/-- Whose transfer waits for a refresh (R360, R367): a stream of a role, a queue's engine, a depot row, or a cache that
writes a line back. -/
inductive Waiter where
  | scalar (rk : Nat)
  | lane (rk : Nat)
  | queue (rk q : Nat)
  | row (key : Nat)
  | line (line : Nat)
  deriving DecidableEq, Repr

/-- What happens next: timing's and the outside world's choice, as plain data (log 1). -/
inductive Move where
  /-- A slot of a datapath offers an issue boundary (R160). -/
  | boundary (core dp : Nat) (lane : Bool)
  /-- An event of the table happens. -/
  | event (i : Instr)
  /-- The engine behind queue `q` of a role starts the command at the head (R264). -/
  | engine (rk q : Nat)
  /-- A depot runs the next word of a row (R352). -/
  | row (key : Nat)
  /-- One ref tick passes (R2). -/
  | tick
  /-- One clk of a core passes (R198). -/
  | clk (core : Nat)
  /-- A cache writes a dirty line back (R322). -/
  | evict (line : Nat)
  /-- A translation cache takes up the page of an address (R311). -/
  | fill (part ia : Nat)
  /-- A translation cache drops the page of an address (R311). -/
  | drop (part ia : Nat)
  /-- A soft error spoils a register word of a role, which has a duplicate or has none (R57, R335). -/
  | flip (rk word : Nat) (dup : Bool)
  /-- A soft error shows itself elsewhere (R335). -/
  | soft (e : SoftErr)
  /-- The fence of a gang that another package coordinates: the ranks fenced off, their peers, and whether the launch
  goes on (R414). -/
  | fence (gang : Nat) (ranks peers : List Nat) (goes : Bool)
  /-- From now on at most `n` accesses of one instruction, command or commit are performed in one step, so that other
  accesses can come between them; none: no bound (R135, R258, R314, R317, R323). -/
  | pace (n : Option Nat)
  /-- The words in flight of a role perform, as far as they can (R135). -/
  | perform (rk : Nat)
  /-- The engine of a core reads a granule of the scratch that its `idx`-th accepted word uses (R237). -/
  | lxRead (core idx granule : Nat)
  /-- The matrix engine of a core performs a step of its word (R232, R294). -/
  | lxStep (core : Nat)
  /-- The host acknowledges a write of the command of a role's queue (R391). -/
  | hostAck (rk q : Nat)
  /-- A cache takes up a line as a clean copy, or drops it (R286). It changes no value. -/
  | cacheLine (c : CacheAt) (line : Nat) (held : Bool)
  /-- A range register of a busy context takes another of its old and new values, for the accesses from here on (R307):
  SEGnI or SEGnV. -/
  | segFlip (vf : Nat) (isI : Bool) (n : Nat) (val : W64)
  /-- The steward writes an entry of the table of fabric end points (R400). -/
  | fepEntry (n addr : Nat)
  /-- The fabric end point that a VF owns (R400). -/
  | fepOwner (vf : Nat) (addr : Option Nat)
  /-- From here on a port reaches the peer of a VF, or does not (R403). -/
  | reach (vf peer : Nat) (port : Fin 8) (ok : Bool)
  /-- The peer asks a command to send a segment again (R406, R409). -/
  | resendAsked (id seg : Nat)
  /-- The sender closes the delivery context of a message (R403). -/
  | closeContext (vf src msg : Nat)
  /-- A chip of a gang says that its teams have arrived at a stage, or with none that it has dispatched its share
  (R414, R415). -/
  | peerShare (gang : Nat) (own : Bool) (rank : Nat) (stage : Option Nat)
  /-- A core's test calibration and its voltage and temperature correction, in thousandths (R382). -/
  | fareFactor (core factor : Nat)
  /-- The distributor chooses the dies that a launch occupies, and the teams that it migrates to a die it adds (R380). -/
  | dieSet (lid : Nat) (dies teams : List Nat)
  /-- The security root is handed a firmware image with its signature at bring-up (R393, R394). -/
  | firmware (image signature : List Byte)
  /-- The die's steward hands a cluster its sensor level (R303). -/
  | sensor (cluster level : Nat)
  deriving DecidableEq, Repr

/-- An entry of the operand latch (R54): values by lane slot, for how many more words it is live (R55), and the lane
slots whose value is marked bad; `spoilt` if the entry's own parity is bad (R335). -/
structure Latch where
  vals : NMap W64
  left : Nat
  bad : List Nat
  spoilt : Bool
  deriving DecidableEq, Repr

/-- An issued class L result that has not returned (R96, R155): register bytes by register key, and
the keys other words have written since (R157). `ready` once it is computed or its access performed;
`id` names the access (0 for none), `logged` says that it still has an entry of the operand log (R220). -/
structure Pend where
  id : Nat
  ready : Bool
  logged : Bool
  dest : NMap Byte
  mixed : List Nat
  deriving DecidableEq, Repr

/-- Register bytes of a group that an LX word reads or writes: `rows` runs of `len` bytes, `stride`
apart, from byte `base` in its lanes of a parity (0 all, 1 even, 2 odd). -/
structure Rect where
  group : Nat
  parity : Nat
  base : Nat
  len : Nat
  stride : Nat
  rows : Nat
  deriving DecidableEq, Repr

/-- An LX word of a role from its issue to the role's next marker: the A bytes it reads, the bytes
it writes, whether the role has written A (R237), whether the result is outstanding, and the
destination bytes other words have written meanwhile (R157). While the word stands in the hold its `id` is 0. -/
structure Watch where
  id : Nat
  reads : List Rect
  dst : List Rect
  hit : Bool
  pending : Bool
  mixed : List Nat
  deriving DecidableEq, Repr

/-- Lane registers, predicates, masks, mask stack, generator and latch (R42, R54, R123 to R128, R19).
Register bytes are keyed by `1024 * lane + byte`. `bad` lists the register words, by the key of their first byte
divided by 4, that have bad parity, and whether a duplicate exists (R57). `back` are the results that have returned since
the last marker, whose bytes stay unspecified until the next one (R96). A role has one, a depot row has one
(R355). -/
structure Lanes where
  groups : Nat
  budget : Nat
  regs : NMap Byte
  bad : NMap Bool
  preds : List Mask
  base : Mask
  e : Mask
  stack : List (Mask × Mask)
  rng : W32
  latches : List (Option Latch)
  pend : List Pend
  back : List Pend
  watch : List Watch
  deriving DecidableEq, Repr

/-- A translated access: partition, IA, and the physical address of each byte. -/
structure Xlat where
  part : Nat
  ia : Nat
  pas : List Nat
  dual : Bool
  migrating : Bool
  deriving DecidableEq, Repr

/-- A queued VRUN block (R153) with what its words see: snapshot, views, gang register, and the MSETs
executed since the block before it (R126, R163, R193). `no` numbers its first word among the lane words of the role
in program order (R154). -/
structure Block where
  first : Nat
  len : Nat
  snap : List W64
  views : List W64
  gang : Nat
  msets : List (Nat × W32)
  no : Nat
  deriving DecidableEq, Repr

/-- One access of a lane of a lane memory word: slot, effective address, store data, and which bytes of the lane's
access it makes: `len` from `off` (R135). `at_` is its translation, once the word has begun to perform: an access has
one (R307, R312). -/
structure LaneAcc where
  lane : Nat
  ea : Nat
  data : Nat
  off : Nat
  len : Nat
  at_ : Option Xlat
  deriving DecidableEq, Repr

/-- A lane memory word in flight: waiting in the operand log for a fault to be served (R219), on
full/empty bits (R136), or behind such a word (R135, R158). `todo` are the lanes that have not
performed, `pid` its outstanding result, `dst` the first destination byte, `pc` its lane word, `no` its number in program
order (R154); `begun` once accesses of it that all have translated have been performed (R134, R222); `spoilt` if the log
entry's parity is bad (R335). -/
structure LogEntry where
  word : Instr
  todo : List LaneAcc
  pid : Nat
  dst : Nat
  pc : Nat
  logged : Bool
  recid : Option Nat
  spoilt : Bool
  no : Nat
  begun : Bool
  deriving DecidableEq, Repr

/-- Why a stream is parked (R159). `page` names the fault record whose answer the stream waits for (R416), or
none when it waits for the pager. `results` is a lane word that waits until no result is outstanding and no earlier
word is in flight, and is no marker (R61, R144). -/
inductive Park where
  | none
  | popQ (q : Nat)
  | pushQ (q : Nat)
  | barwt (ea : Nat)
  | waita
  | vrunFull
  | drain
  | exit
  | order
  | commit
  | relay
  | wbsync
  | fence
  | page (recid : Option Nat)
  | marker
  | lxHold
  | rendezvous
  | oplog
  | results
  deriving DecidableEq, Repr

/-- The WAITA in progress: line, whether a write was ordered after the arming point, whether the role
resumed, ticks left of the timeout (R190). -/
structure Waita where
  line : Nat
  written : Bool
  resumed : Bool
  left : Option Nat
  expired : Bool
  deriving DecidableEq, Repr

/-- What a user trap sets aside (R199): the lane block queue, whether the lane stream was parked at a marker, and how far
the interrupted scalar instruction, at `pc`, is (R173, R190). `seq` is the number of the handler's first lane word. -/
structure Aside where
  blocks : List Block
  lanePc : Nat
  msets : List (Nat × W32)
  marker : Bool
  seq : Nat
  pc : W64
  popped : Option (List W64)
  waita : Option Waita
  deriving DecidableEq, Repr

/-- A queued word of an engine queue: a command word with the seed its push drew (R269), or a queue
fence entry (R188). The lane words of the role with the numbers `lo` to `hi - 1` precede the push in program order and
had not all been performed at it (R184, R317). -/
inductive QEntry where
  | word (w : W64) (seed : W32) (lo hi : Nat)
  | fence (id : Nat) (mask : Nat) (scope : Nat)
  deriving DecidableEq, Repr

/-- How far a command has got (R264, R317): whether it has begun, the values of its element reads by their numbers (of
GATH's indices first, which `idx` then holds), the number of a read that has met a lost line (the reads from it on are not
made), the writes it has made and the destination elements they come to, whether a write has met a lost line, its waybill scale as an `f32` encoding, its generator, the grains it holds (R328), the lost lines it covers whole and holds (R336),
and the entries of the write log that it has reserved (R249). -/
structure Prog where
  begun : Bool
  idx : Option (List Nat)
  vals : NMap (List Byte)
  upTo : Option Nat
  wrote : Nat
  count : Nat
  lost : Bool
  scale : Nat
  rng : W32
  holds : List Nat
  lines : List Nat
  reserved : Nat
  deriving DecidableEq, Repr

/-- A command that has not begun. -/
def Prog.fresh : Prog := ⟨false, none, [], none, 0, 0, false, 0x3F800000, 0, [], [], 0⟩

/-- The command an engine is performing: its words decoded, its seed, whether it waits for its token,
the fault record it waits on (R311), and once performed its status and DONE (R266, R353, R403). A scale-out
command keeps the ref tick at which it was sent, its payload, the peer's reply (R403, R404), its message number, and the
segments that the peer has asked for again, each with the ref tick (R406, R409). `acks` counts its host writes that the host
has not acknowledged (R391), and `fare` what it has cost so far, in 1/16 pJ (R396). -/
structure Cmd where
  instr : Option Instr
  tag : Nat
  ev : Bool
  seed : W32
  waiting : Bool
  stall : Option Nat
  result : Option (Nat × Nat)
  sent : Option Nat
  payload : List Byte
  reply : Option (Nat × List Byte)
  msg : Nat
  resend : List (Nat × Nat)
  prog : Prog
  acks : Nat
  fare : Nat
  deriving DecidableEq, Repr

/-- One engine queue of a role (R183): words pushed, the command in progress, completions not popped,
and whether a failure has stopped it (R81, R266). -/
structure EngQ where
  todo : List QEntry
  run : Option Cmd
  done : List W64
  stopped : Bool
  deriving DecidableEq, Repr

/-- An LX word as issued (R231): the role, its views and snapshot, its gang members, for a gang word whether they have
joined (R233), and its place `pc` among the lane words (R339). -/
structure LxWord where
  rk : Nat
  word : Instr
  snap : List W64
  views : List W64
  members : List Nat
  joined : Bool
  pc : Nat
  deriving DecidableEq, Repr

/-- A joint LX word in the engine: its members' words in ascending role index, the waybill scales read
at its acceptance as `f32` encodings, the scratch bytes it has read before its start (R237), the generator state its
draws start from, and once it has run the bytes to be written for each member, what the monitors observed (its inner
saturations, the place of its first range trip, the places of its cancellations), its saturation events and its waybill
updates. `left` is what its steps have still to take from the power allowance (R294). -/
structure LxJob where
  id : Nat
  lxs : List LxWord
  scaleA : Nat
  scaleB : Nat
  early : NMap Byte
  rng : W32
  results : List (Nat × List (Nat × Byte))
  inner : Nat
  range : Option Nat
  cans : List Nat
  sat : Nat
  updates : List Nat
  left : Nat
  deriving DecidableEq, Repr

/-- A role (R148, R152). Its queue `q6` (R183) is empty between steps: LAUNCH pushes to it and takes the answer in one
step (R195). `part` are the bytes of its unaligned scalar access that have been performed, and `partAt` its translation (R135, R307, R312). `laneSeq` counts the lane words that VRUNs have queued
(R154). `gangSeen` counts its gang words by member set (R164), `parkTicks` the ref ticks, up to 1,000, for which it has
been parked on memory (R302), `atoms` the lines of its atomics since its last FENCE of scope `.die` or wider (R187, R316),
`issuedNo` is one above the number of the latest lane word that has issued, which is charged once (R382, R396). -/
structure Role where
  dp : Nat
  pc : W64
  sregs : NMap W64
  lanes : Lanes
  views : List W64
  blocks : List Block
  lanePc : Nat
  laneSeq : Nat
  msets : List (Nat × W32)
  engs : NMap EngQ
  q6 : List W64
  q15 : List W64
  trapPc : W64
  trapCause : W64
  trapLpc : W64
  aside : Option Aside
  arrivals : List (Nat × Bool)
  flight : List LogEntry
  popped : Option (List W64)
  part : List Byte
  partAt : Option Xlat
  hold : Option LxWord
  lxOut : Nat
  gangSeen : NMap Nat
  spark : Park
  lpark : Park
  waita : Option Waita
  armed : NMap Bool
  atoms : List Nat
  stage : Nat
  relayed : Bool
  yieldS : Nat
  yieldL : Nat
  readyS : Nat
  readyL : Nat
  txArr : Option (Option (W64 × W64))
  finished : Bool
  stopped : Option Nat
  rescale : Bool
  parkTicks : Nat
  issuedNo : Nat
  deriving DecidableEq, Repr

/-- Kinds of write-log entry (R251). -/
inductive LogKind where
  | store
  | atomic (op : Nat)
  | command (q : Nat) (seed : W32)
  | waybill (fmt : Nat)
  deriving DecidableEq, Repr

/-- One entry of the write log (R251). -/
structure WEntry where
  addr : Nat
  kind : LogKind
  size : Nat
  role : Nat
  wbidx : Nat
  data : Nat
  deriving DecidableEq, Repr

/-- Where a team stands (R165 to R170, R257, R258). `pinned` is a team at its commit point before the
drain. -/
inductive TeamPhase where
  | running
  | probing
  | probeFault (recid : Nat)
  | pinned
  | preempted
  | swappedOut
  | queued
  | retired
  | killed
  deriving DecidableEq, Repr

/-- One scratch page of a team as the pager sees it (R204, R207). Location never changes a value
(R209). `orph` is ORPH (R216); `idx` is the entry's place in the core's table (log 66). `used` says that an access of
the lateral page has found a free local frame (R217). -/
structure SPage where
  touched : Bool
  present : Bool
  kind : Nat
  busy : Bool
  acc : Bool
  used : Bool
  dirty : Bool
  ver : Nat
  frameCore : Nat
  frame : Nat
  orph : Bool
  idx : Nat
  deriving DecidableEq, Repr

/-- A pending GRACE request (R253): ref ticks left of the window, the cause an abort records, and whether
only a swap-out asked (R167). -/
structure Grace where
  left : Nat
  cause : Nat
  swap : Bool
  deriving DecidableEq, Repr

/-- Who asked for a page (R210, R341): a role's scalar stream, its lane stream, or one of its queues. -/
inductive Asker where
  | scalar (rk : Nat)
  | lane (rk : Nat)
  | queue (rk q : Nat)
  deriving DecidableEq, Repr

/-- A scratch page fault in service (R206, R207): the ref tick of the fault, the record that the pager waits on
(R210, R416), and the faulting party; a hint has none (R139). -/
structure Service where
  start : Nat
  wait : Option Nat
  who : Option Asker
  deriving DecidableEq, Repr

/-- A team (R147 to R149, R162, R201, R243 to R263). `halted` is the fault record that stops the whole team
(R251, R258); `suspend` is a pre-emption that waits for the results of accepted LX words (R165). `vbad` are the
8-byte words of scratch, and `logBad` the entries of the write log, whose data is uncorrectable (R210, R335). `pins` are
the ranges that the commit probe has pinned, with their translations, and `doomed` says that system software has killed
the team behind its commit point, which lets the commit complete first (R258). `entered` is the age that a swapped-out team
has taken at its re-entry into the distributor (R341). -/
structure Team where
  lid : Nat
  t : Nat
  coord : Nat × Nat × Nat
  core : Nat
  slot : Nat
  nroles : Nat
  age : Nat
  phase : TeamPhase
  scratch : NMap Byte
  full : NMap Bool
  pages : NMap SPage
  swid : Option Nat
  gang : Nat
  chans : NMap (List W64)
  rung : Nat
  start : Nat
  probe : Bool
  clamped : Bool
  copyEntry : Nat
  txOpen : Bool
  committed : Bool
  topTrip : Bool
  satCnt : Nat
  canCnt : Nat
  replays : Nat
  lastCause : Nat
  log : List WEntry
  reserved : Nat
  grace : Option Grace
  lease : Option (Nat × Nat)
  service : NMap Service
  cyclic : Nat
  cyclicRec : Bool
  fare : Nat
  halted : Option Nat
  suspend : Option TeamPhase
  vbad : List Nat
  logBad : List Nat
  pins : List ((Nat × Nat) × Xlat)
  doomed : Bool
  entered : Option Nat
  deriving DecidableEq, Repr

/-- Where a launch stands (R373 to R380). A `merged` launch has made its end-of-launch waybill merge and
waits for its completion token (R378). -/
inductive LaunchPhase where
  | waiting
  | ready
  | running
  | merged
  | complete
  | failed
  deriving DecidableEq, Repr

/-- A package's share of a gang launch (R411 to R414): the gang, the package's rank, the number of packages,
whether GO has come, the ranks fenced off, the ranks that take part, whether it is known which those are, whether the teams
of fenced packages are taken over, the T from which the next of those is looked for, and how many have been dispatched. Of
the other chips it keeps the stages that each has arrived at, and which have dispatched their own shares; `toldStage` and
`toldSpread` say what this chip has told them of itself (R414, R415). -/
structure GangShare where
  gang : Nat
  rank : Nat
  nchip : Nat
  started : Bool
  fenced : List Nat
  parts : List Nat
  decided : Bool
  takeover : Bool
  from_ : Nat
  sent : Nat
  stages : NMap Nat
  spread : List Nat
  toldStage : Nat
  toldSpread : Bool
  deriving DecidableEq, Repr

/-- A launch (R371): the bytes of its record as accepted, its VF and what the distributor keeps. `waitRec` is
the record that its completion-token add waits on, `dropped` that the add was given up (R378), and `dies` the dies that the
launch occupies, once they have been chosen (R380). -/
structure Launch where
  record : NMap Byte
  header : NMap Byte
  vf : Nat
  phase : LaunchPhase
  next : Nat
  retired : Nat
  killed : Nat
  requeue : List Nat
  stage : Nat
  waitRec : Option Nat
  dropped : Bool
  dies : List Nat
  share : Option GangShare
  deriving DecidableEq, Repr

/-- A fault record not yet settled (R339, R381): its bytes, whether it is in the ring, what it
stopped, and the inbound segment that it is about, by sender, message and number (R409). -/
structure FaultRec where
  recid : Nat
  bytes : NMap Byte
  written : Bool
  team : Option Nat
  role : Option Nat
  code : Nat
  answered : Bool
  inb : Option (Nat × Nat × Nat)
  deriving DecidableEq, Repr

/-- The range registers of a context while writes to them have found the context busy (R307): their new values, and the
older ones of each, SEGnI or SEGnV, that an access may still use. -/
structure SegAlt where
  segV : NMap W64
  segI : NMap W64
  olds : List ((Bool × Nat) × W64)
  deriving DecidableEq, Repr

/-- A post of the scale-out engine (R406). -/
structure PostRec where
  handle : W64
  rk : Nat
  mtag : W32
  need : Nat
  got : Nat
  caddr : W64
  ev : Bool
  deriving DecidableEq, Repr

/-- An inbound segment (R399, R400): its sender's fabric end point, the message of a command that it belongs to and its number
among the `count` segments of that, whether it is delivered by ROD, and what it brings. -/
structure InSeg where
  src : Nat
  msg : Nat
  seg : Nat
  count : Nat
  ord : Bool
  body : Inbound
  deriving DecidableEq, Repr

/-- What comes in of it. -/
def InSeg.part (x : InSeg) : InPart := ⟨x.msg, x.seg, x.count, x.body⟩

/-- An inbound segment that has come and is not over (R404, R408, R409): the record it waits on, and the ref ticks left; how many
of its accesses have been made, and what they have read; the grains and the lost lines it holds (R328, R336). `gone` is one that
has been discarded and is to be sent again, in whose place later ROD segments of its sender go on waiting. -/
structure InStall where
  seg : InSeg
  recid : Option Nat
  left : Nat
  gone : Bool
  made : Nat
  got : List Byte
  holds : List Nat
  lines : List Nat
  deriving DecidableEq, Repr

/-- A message of which segments have come in (R403, R406): its sender, its number, the segments performed, whether its
arrival has taken place, and whether its sender has closed its delivery context. -/
structure InMsg where
  src : Nat
  msg : Nat
  done : List Nat
  arrived : Bool
  closed : Bool
  deriving DecidableEq, Repr

/-- A virtual function (context): the registers of R300, R304, R342, R381, R383, R391, R400. `fep` is the fabric end point
that it owns, and `unreached` tells of a peer and a port since which ref tick the port has not reached the peer (R403). -/
structure Vf where
  part : Nat
  segV : NMap W64
  segI : NMap W64
  segAlt : Option SegAlt
  wbtBase : W64
  wbtCnt : W64
  vfPerf : W64
  fareBal : W64
  fareTot : W64
  fareRep : W64
  fareSh : W64
  exhausted : Bool
  ovfCnt : W64
  frBase : W64
  frSize : W64
  frHead : W64
  frTail : W64
  recs : List FaultRec
  hostBase : NMap W64
  hostSize : NMap W64
  withheld : Bool
  peers : NMap W64
  fep : Option Nat
  unreached : NMap (Option Nat)
  posts : List PostRec
  unexpected : List W32
  fenced : List Nat
  stalls : List InStall
  inMsgs : List InMsg
  report : List Byte
  deriving DecidableEq, Repr

/-- The answer to the partition's latest MIGRATE request (R331). -/
inductive MigAnswer where
  | idle
  | accepted
  | refused
  deriving DecidableEq, Repr

/-- The number of a status, for the word that a read of MIGRATE gives. -/
def MigAnswer.num : MigAnswer → Nat
  | .idle => 0
  | .accepted => 1
  | .refused => 2

/-- A partition: die map (R309), MIGRATE status (R331) and the overhead account in pJ (R382). -/
structure Part where
  dieMap : NMap W64
  migStatus : MigAnswer
  overhead : Nat
  deriving DecidableEq, Repr

/-- A cluster (R289, R294 to R303). `withheld` lists the ref ticks of the last 1,000 in which it withheld an
issue, newest first. -/
structure Cluster where
  allow : Int
  pwrCfg : W64
  replc : Nat
  cls : Nat
  target : Option Nat
  level : Nat
  sensor : Nat
  withheld : List Nat
  predictor : NMap Nat
  capCore : Nat
  deriving DecidableEq, Repr

/-- A core (R53, R59, R198, R203, R208, R216, R231, R303, R382). `stay` counts the ref ticks of the running 1 ms interval in
which a context had a team on the core, `fareFactor` is its calibration and correction in thousandths. -/
structure Core where
  clkCnt : W64
  mchk : Nat
  repaired : Nat
  sweep : Nat
  slots : NMap Nat
  swids : List Nat
  engQ : List LxJob
  lxDone : List LxJob
  nta : Bool
  ntb : Bool
  meter : NMap Nat
  meterRep : NMap Nat
  stay : NMap Nat
  fareFactor : Nat
  grant : NMap Nat
  deriving DecidableEq, Repr

/-- A migration in progress (R331, R332, R334). -/
structure Migration where
  part : Nat
  ia : W64
  src : W64
  dst : W64
  cursor : Nat
  stopped : Bool
  reversing : Bool
  deriving DecidableEq, Repr

/-- A delta record of a waybill on a die (R345, R346). `ups` are the updates in it, each with the team that made it, which
may have to be discarded with the team (R344). -/
structure Delta where
  vf : Nat
  idx : Nat
  amax : W32
  count : Nat
  bins : NMap Nat
  infSeen : Bool
  nanSeen : Bool
  updates : Nat
  age : Nat
  ups : List (Nat × Nat)
  deriving DecidableEq, Repr

/-- An HBM stack (R335, R350, R360, R361). `refreshing` gives the ref tick at which the refresh of a pseudo-channel began,
`delayed` are the transfers that wait for a refresh, each with its line;
`sampled` is the ref tick of the latest reading. -/
structure Stack where
  temp : Nat
  maxt : Nat
  hot : Bool
  rstall : Nat
  period : Nat
  pendingPeriod : Option Nat
  refreshing : NMap (Option Nat)
  delayed : List (Waiter × Nat)
  sampled : Option Nat
  depCap : Nat
  deriving DecidableEq, Repr

/-- An entry of a die's translation cache (R311): a page of a partition. -/
structure CachedPage where
  part : Nat
  base : Nat
  size : Nat
  pa : Nat
  write : Bool
  deriving DecidableEq, Repr

/-- A die (R261, R325, R331, R336, R338, R345). `lost` are the lines of the lost-line table, `untracked` the
lost lines that found it full (R336), and `lostL2` those that a cache lost (R340). `held` are deltas whose merge waits for the answer to a fault record (R344). -/
structure Die where
  ladder : NMap Nat
  deltas : List Delta
  lost : List Nat
  untracked : List Nat
  lostL2 : List Nat
  errCnt : W64
  migs : NMap Migration
  held : List (Nat × Delta)
  tlb : List CachedPage
  deriving DecidableEq, Repr

/-- Who holds a line dirty (R325, R329): the core whose L1 holds it, and the context of the team that stored. -/
structure Holder where
  core : Nat
  vf : Nat
  deriving DecidableEq, Repr

/-- A dirty line: its 64 bytes, and who holds it (R322, R325). -/
structure DirtyLine where
  data : BitVec 512
  holder : Holder
  deriving DecidableEq, Repr

/-- A depot task started from a `q5` command (R351 to R354): the next row, rows passed over because
their depot is full (R352), rows ended, the first failing status, the pages its rows have translated
(R333). -/
structure DTask where
  rk : Nat
  cmd : TaskCmd
  next : Nat
  skipped : List Nat
  ended : Nat
  status : Nat
  pages : List Nat
  deriving DecidableEq, Repr

/-- A row of a depot task (R352, R355): its depot unit `8 * (3 * die + stack) + u`, and the fault record
that stalls it (R354). A row whose anchor met the fault has no depot yet. `part` is what its memory word has performed: the
lanes read with their values, or the lines written (R323, R357). -/
structure DRow where
  task : Nat
  r : Nat
  depot : Option Nat
  pc : Nat
  stall : Option Nat
  part : List (Nat × Nat)
  lanes : Lanes
  deriving DecidableEq, Repr

/-- Where a gang launch stands at its coordinator (R411 to R414). -/
inductive GangPhase where
  | arming
  | going
  | running
  | refused
  | failed
  deriving DecidableEq, Repr

/-- A gang launch at the coordinator chip (R411 to R414): the descriptor's fields, the peers of its chips, their
answers to ARM (code and extents), their GOACKs, the ref ticks left of the go window. -/
structure Gang where
  vf : Nat
  nchip : Nat
  minchip : Nat
  gowin : Nat
  peers : List Nat
  answers : NMap (Nat × Nat × Nat × Nat)
  acks : List Nat
  window : Option Nat
  phase : GangPhase
  deriving DecidableEq, Repr

/-- A command that a post has fired (R407): the posting VF and role, the post and its block, and the command, which is none
while the block has not been read. -/
structure Fired where
  vf : Nat
  rk : Nat
  handle : W64
  caddr : W64
  cmd : Cmd
  deriving DecidableEq, Repr

/-- What a gang message says (R413 to R415): `stage` that the sender's teams have all arrived at a stage, `spread` that it
has dispatched its own share. -/
inductive GangMsg where
  | arm (addr : W64)
  | armok (code : Nat) (grid : Nat × Nat × Nat)
  | release
  | go
  | goack
  | fence (ranks : List Nat) (goes : Bool)
  | kill
  | stage (n : Nat)
  | spread
  deriving DecidableEq, Repr

/-- What the package has sent out through its ports, in order (log 20). -/
inductive OutMsg where
  /-- A completion or refusal of a launch message on the Rhogil port (R389). -/
  | launchAnswer (vf lid status : Nat)
  /-- A launch has completed or failed (R380, R389). -/
  | launchDone (vf lid : Nat) (failed : Bool)
  /-- A segment or request of a command to another package (R399, R404, R405): the end point it goes to, the JobID, and the
  message and segment numbers. -/
  | segment (fep job msg seg : Nat) (cmd : Instr) (data : List Byte)
  /-- An answer to an inbound segment (R405, R407). -/
  | inboundAnswer (vf src msg seg status : Nat) (data : List Byte)
  /-- A request to send a segment again (R406, R409). -/
  | resend (vf src msg seg : Nat)
  /-- The delivery context of a message is closed (R403). -/
  | close (fep msg : Nat)
  /-- A message of a gang launch to or from the chip of a rank (R413, R414). -/
  | gang (gang rank : Nat) (msg : GangMsg)
  /-- The coordinator's answer: a gang launch has failed, with the ranks that acknowledged (R414). -/
  | gangFailed (vf gang : Nat) (acks : List Nat)
  /-- Bytes that a command writes to host memory, at a host address (R391). -/
  | host (vf addr : Nat) (data : List Byte)
  /-- A record has been written into a VF's fault ring (R388). -/
  | ringNotice (vf : Nat)
  /-- A report to system software that is no fault record: kind and subject (R335, R336, R389). -/
  | report (kind subject : Nat)
  deriving DecidableEq, Repr

/-- The whole package. `firmware` says that the firmware image has been verified (R394), `thermAt` is the ref tick of the
steward's latest LEVEL (R303). `ports` gives the ref tick since which a port has been down (R399), `feps` the table of fabric
end points (R400), `cached` the lines of which a cache holds a clean copy (R286). `pace` is the model's own (log 68): the most accesses of one instruction, command or commit that
are performed in one step. -/
structure State where
  cur : Agent
  agenda : List Move
  pace : Option Nat
  free : Nat
  outbox : List OutMsg
  refTick : W64
  offer : BitVec 128
  accept : BitVec 128
  acceptLocked : Bool
  firmware : Bool
  thermAt : Nat
  nextLid : Nat
  nextRec : Nat
  nextAge : Nat
  nextFence : Nat
  nextPost : Nat
  launches : NMap Launch
  teams : NMap Team
  roles : NMap Role
  vfs : NMap Vf
  parts : NMap Part
  clusters : NMap Cluster
  cores : NMap Core
  dies : NMap Die
  hbmStacks : NMap Stack
  hbm : NMap Byte
  dirty : NMap DirtyLine
  homeHist : NMap (List (Nat × Nat))
  pchOwner : NMap Nat
  clusterOwner : NMap Nat
  ports : NMap (Option Nat)
  feps : NMap Nat
  cached : List (CacheAt × Nat)
  links : NMap Nat
  linkDown : NMap Bool
  xmssIndex : Nat
  tasks : NMap DTask
  rows : NMap DRow
  gangs : NMap Gang
  fired : NMap Fired
  deriving DecidableEq, Repr

/-! ## Defaults of the record maps, and the state after package reset -/

/-- Lane state of no lanes. -/
def Lanes.empty : Lanes :=
  { groups := 0, budget := 0, regs := [], bad := [], preds := List.replicate 15 0, base := 0, e := 0,
    stack := [], rng := 1, latches := [none, none, none], pend := [], back := [], watch := [] }

/-- A role that has not been dispatched. -/
def Role.empty : Role :=
  { dp := 0, pc := 0, sregs := [], lanes := Lanes.empty, views := List.replicate 8 0, blocks := [],
    lanePc := 0, laneSeq := 0, msets := [], engs := [], q6 := [], q15 := [], trapPc := 0, trapCause := 0,
    trapLpc := 0, aside := none, arrivals := [], flight := [], popped := none, part := [], partAt := none, hold := none,
    lxOut := 0, gangSeen := [], spark := .none, lpark := .none, waita := none, armed := [],
    atoms := [], stage := 0, relayed := false, yieldS := 0, yieldL := 0, readyS := 0, readyL := 0, txArr := none,
    finished := false, stopped := none, rescale := false, parkTicks := 0, issuedNo := 0 }

/-- A team that has not been dispatched. -/
def Team.empty : Team :=
  { lid := 0, t := 0, coord := (0, 0, 0), core := 0, slot := 0, nroles := 0, age := 0,
    phase := .queued, scratch := [], full := [], pages := [], swid := none, gang := 0, chans := [],
    rung := 0, start := 0, probe := false, clamped := false, copyEntry := 0, txOpen := false,
    committed := false, topTrip := false, satCnt := 0, canCnt := 0, replays := 0, lastCause := 0,
    log := [], reserved := 0, grace := none, lease := none, service := [], cyclic := 0,
    cyclicRec := false, fare := 0, halted := none, suspend := none, vbad := [], logBad := [], pins := [],
    doomed := false, entered := none }

/-- A launch that has not been accepted. -/
def Launch.empty : Launch :=
  { record := [], header := [], vf := 0, phase := .waiting, next := 0, retired := 0, killed := 0,
    requeue := [], stage := 0, waitRec := none, dropped := false, dies := [], share := none }

/-- An engine queue of a fresh role (R183). -/
def EngQ.empty : EngQ := { todo := [], run := none, done := [], stopped := false }

/-- A VF after reset: VFPERF as R300 gives it, every other register 0 (log 5 for the registers without
a reset value). -/
def Vf.reset : Vf :=
  { part := 0, segV := [], segI := [], segAlt := none, wbtBase := 0, wbtCnt := 0, vfPerf := 0xC, fareBal := 0,
    fareTot := 0, fareRep := 0, fareSh := 0, exhausted := false, ovfCnt := 0, frBase := 0,
    frSize := 0, frHead := 0, frTail := 0, recs := [], hostBase := [], hostSize := [],
    withheld := false, peers := [], fep := none, unreached := [], posts := [], unexpected := [], fenced := [],
    stalls := [], inMsgs := [], report := [] }

/-- A partition after reset. -/
def Part.reset : Part := { dieMap := [], migStatus := .idle, overhead := 0 }

/-- A cluster after reset (R294, R296, R303; CAPCORE by log 4, the sensor level by log 5). -/
def Cluster.reset : Cluster :=
  { allow := 0x10000, pwrCfg := 0x0204000100000140, replc := 436, cls := 2, target := none, level := 7, sensor := 7,
    withheld := [], predictor := [], capCore := 0x3FFF }

/-- A core after reset (R59, R198; every scratch table entry 0). -/
def Core.reset : Core :=
  { clkCnt := 0, mchk := 0, repaired := 0, sweep := 0, slots := [], swids := [], engQ := [],
    lxDone := [], nta := false, ntb := false, meter := [], meterRep := [], stay := [], fareFactor := 1000, grant := [] }

/-- A die after reset (R261, R336, R338, R345). -/
def Die.reset : Die :=
  { ladder := [], deltas := [], lost := [], untracked := [], lostL2 := [], errCnt := 0, migs := [], held := [], tlb := [] }

/-- An HBM stack after reset (R361; DEPCAP by log 4). -/
def Stack.reset : Stack :=
  { temp := 0, maxt := 0, hot := false, rstall := 0, period := 3900, pendingPeriod := none,
    refreshing := [], delayed := [], sampled := none, depCap := 0xFF }

/-- A depot task and a depot row that do not run. -/
def DTask.empty : DTask :=
  { rk := 0, cmd := ⟨0, 0, 0, 0, 0, 0, 0, [], none, none, false, 0⟩, next := 0, skipped := [], ended := 0,
    status := 0, pages := [] }

/-- See `DTask.empty`. -/
def DRow.empty : DRow := { task := 0, r := 0, depot := none, pc := 0, stall := none, part := [], lanes := Lanes.empty }

/-- A gang launch that has not begun. -/
def Gang.empty : Gang :=
  { vf := 0, nchip := 0, minchip := 0, gowin := 0, peers := [], answers := [], acks := [], window := none,
    phase := .arming }

/-- A command in progress that is none. -/
def Cmd.empty : Cmd :=
  { instr := none, tag := 0, ev := false, seed := 0, waiting := false, stall := none, result := none,
    sent := none, payload := [], reply := none, msg := 0, resend := [], prog := .fresh, acks := 0, fare := 0 }

/-- A fired command that is none. -/
def Fired.empty : Fired := { vf := 0, rk := 0, handle := 0, caddr := 0, cmd := Cmd.empty }

/-- The package right after reset. Nothing is launched; maps list only what differs from the
resets above. -/
def State.reset : State :=
  { cur := .none, agenda := [], pace := none, free := 0, outbox := [], refTick := 0, offer := 0x7FF, accept := 0,
    acceptLocked := false, firmware := false, thermAt := 0, nextLid := 1, nextRec := 0, nextAge := 0, nextFence := 0, nextPost := 1,
    launches := [], teams := [], roles := [], vfs := [], parts := [], clusters := [], cores := [],
    dies := [], hbmStacks := [], hbm := [], dirty := [], homeHist := [], pchOwner := [],
    clusterOwner := [], ports := [], feps := [], cached := [], links := [], linkDown := [], xmssIndex := 0, tasks := [],
    rows := [], gangs := [], fired := [] }

end Sys2Proof.Machine
end

