-- ==== Sys2Proof/Machine/Access.lean ====
section
/-! DEFINITION. Reading and writing the records of the state, the keys of roles, teams, cores and
clusters (log 3), and the fields of launch records and kernel headers (R89, R90, R371). -/

namespace Sys2Proof.Machine
open Sys2Proof

/-! ## Keys -/

/-- The team of a role. -/
def teamOf (rk : Nat) : Nat := rk / 8

/-- The index of a role in its team. -/
def roleIdx (rk : Nat) : Nat := rk % 8

/-- The role with index `j` of a team. -/
def roleKey (tk j : Nat) : Nat := tk * 8 + j

/-- The launch of a team. -/
def lidOf (tk : Nat) : Nat := tk / 2 ^ 60

/-- The team with linear index `t` of a launch. -/
def teamKey (lid t : Nat) : Nat := lid * 2 ^ 60 + t

/-- The cluster of a core. -/
def clusterOf (core : Nat) : Nat := core / 15

/-- The die of a cluster. -/
def dieOfCluster (c : Nat) : Nat := c / 8

/-- The die of a core. -/
def dieOf (core : Nat) : Nat := core / 120

/-! ## Records -/

/-- A role's record. -/
def State.role (s : State) (rk : Nat) : Role := s.roles.get Role.empty rk

/-- Store a role's record. -/
def State.setRole (s : State) (rk : Nat) (r : Role) : State := { s with roles := s.roles.put rk r }

/-- Change a role's record. -/
def State.updRole (s : State) (rk : Nat) (f : Role → Role) : State := s.setRole rk (f (s.role rk))

/-- A team's record. -/
def State.team (s : State) (tk : Nat) : Team := s.teams.get Team.empty tk

/-- Store a team's record. -/
def State.setTeam (s : State) (tk : Nat) (t : Team) : State := { s with teams := s.teams.put tk t }

/-- Change a team's record. -/
def State.updTeam (s : State) (tk : Nat) (f : Team → Team) : State := s.setTeam tk (f (s.team tk))

/-- A launch. -/
def State.launch (s : State) (lid : Nat) : Launch := s.launches.get Launch.empty lid

/-- Change a launch. -/
def State.updLaunch (s : State) (lid : Nat) (f : Launch → Launch) : State :=
  { s with launches := s.launches.put lid (f (s.launch lid)) }

/-- A VF. -/
def State.vf (s : State) (vf : Nat) : Vf := s.vfs.get Vf.reset vf

/-- Change a VF. -/
def State.updVf (s : State) (vf : Nat) (f : Vf → Vf) : State :=
  { s with vfs := s.vfs.put vf (f (s.vf vf)) }

/-- A partition. -/
def State.part (s : State) (p : Nat) : Part := s.parts.get Part.reset p

/-- Change a partition. -/
def State.updPart (s : State) (p : Nat) (f : Part → Part) : State :=
  { s with parts := s.parts.put p (f (s.part p)) }

/-- A cluster. -/
def State.cluster (s : State) (c : Nat) : Cluster := s.clusters.get Cluster.reset c

/-- Change a cluster. -/
def State.updCluster (s : State) (c : Nat) (f : Cluster → Cluster) : State :=
  { s with clusters := s.clusters.put c (f (s.cluster c)) }

/-- A core. -/
def State.core (s : State) (c : Nat) : Core := s.cores.get Core.reset c

/-- Change a core. -/
def State.updCore (s : State) (c : Nat) (f : Core → Core) : State :=
  { s with cores := s.cores.put c (f (s.core c)) }

/-- A die. -/
def State.die (s : State) (d : Nat) : Die := s.dies.get Die.reset d

/-- Change a die. -/
def State.updDie (s : State) (d : Nat) (f : Die → Die) : State :=
  { s with dies := s.dies.put d (f (s.die d)) }

/-- An HBM stack; the key is `3 * die + stack`. -/
def State.stk (s : State) (k : Nat) : Stack := s.hbmStacks.get Stack.reset k

/-- Change an HBM stack. -/
def State.updStk (s : State) (k : Nat) (f : Stack → Stack) : State :=
  { s with hbmStacks := s.hbmStacks.put k (f (s.stk k)) }

/-- A depot task. -/
def State.task (s : State) (k : Nat) : DTask := s.tasks.get DTask.empty k

/-- A depot row. -/
def State.row (s : State) (k : Nat) : DRow := s.rows.get DRow.empty k

/-- Is the role dispatched? -/
def State.hasRole (s : State) (rk : Nat) : Bool := s.roles.has rk

/-! ## Launch records and kernel headers -/

/-- `n` bytes of a byte map from `off` on, as a number (R4). -/
def fieldAt (m : NMap Byte) (off n : Nat) : Nat := leNat ((rangeFrom off n).map (m.get 0))

/-- A field of a launch record (R371). -/
def Launch.fld (l : Launch) (off n : Nat) : Nat := fieldAt l.record off n

/-- A field of a kernel header (R89). -/
def Launch.hdr (l : Launch) (off n : Nat) : Nat := fieldAt l.header off n

/-- The kernel header address (R371). -/
def Launch.khdr (l : Launch) : Nat := l.fld 0 8

/-- The lane code base (R60, R371). -/
def Launch.laneCode (l : Launch) : Nat := l.fld 8 8

/-- The grid (R147). -/
def Launch.gridX (l : Launch) : Nat := l.fld 16 4

/-- See `gridX`. -/
def Launch.gridY (l : Launch) : Nat := l.fld 20 4

/-- See `gridX`. -/
def Launch.gridZ (l : Launch) : Nat := l.fld 24 4

/-- The number of teams of the grid. -/
def Launch.teamsN (l : Launch) : Nat := l.gridX * l.gridY * l.gridZ

/-- The number of packages that share the grid, and this package's rank (R411). -/
def Launch.chips (l : Launch) : Nat × Nat :=
  match l.share with
  | none => (1, 0)
  | some g => (g.nchip, g.rank)

/-- The number of teams of this package's share (R411). -/
def Launch.ownTeams (l : Launch) : Nat :=
  let c := l.chips
  if c.2 < l.teamsN then (l.teamsN - 1 - c.2) / c.1 + 1 else 0

/-- The participant that a fenced package's team is assigned to (R414). -/
def GangShare.heir (g : GangShare) (t : Nat) : Option Nat :=
  g.parts[(t / g.nchip) % Nat.max 1 g.parts.length]?

/-- A team of a fenced package that this package takes over (R414). -/
def GangShare.takes (g : GangShare) (t : Nat) : Bool :=
  g.takeover && g.fenced.contains (t % g.nchip) && g.heir t == some g.rank

/-- Numbers below `n` that are `r` modulo `p`. -/
def countMod (n p r : Nat) : Nat := if r < n then (n - 1 - r) / p + 1 else 0

/-- The number of teams that this package takes over (R414). -/
def Launch.takenTeams (l : Launch) : Nat :=
  match l.share with
  | none => 0
  | some g =>
    let p := g.nchip * Nat.max 1 g.parts.length
    (((List.range p).filter g.takes).map (countMod l.teamsN p)).sum

/-- The number of teams that this package runs. -/
def Launch.shareN (l : Launch) : Nat := l.ownTeams + l.takenTeams

/-- Teams that this package has still to dispatch for the first time. -/
def Launch.undispatched (l : Launch) : Nat :=
  (l.ownTeams - l.next) + (l.takenTeams - ((l.share.map GangShare.sent).getD 0))

/-- The next team to dispatch for the first time: of the own share in ascending T, then of the teams taken over
(R376, R411, R414). -/
def Launch.nextT (l : Launch) : Option Nat :=
  if l.next < l.ownTeams then some (l.chips.2 + l.chips.1 * l.next)
  else match l.share with
    | none => none
    | some g =>
      if l.takenTeams ≤ g.sent then none
      else (rangeFrom g.from_ (g.nchip * Nat.max 1 g.parts.length)).find? g.takes

/-- A bit of LFLAGS: 0 TX, 1 CORESIDENT, 2 RESTART, 3 STAGED (R371). -/
def Launch.flag (l : Launch) (b : Nat) : Bool := bitOf (l.fld 28 2) b

/-- The priority level (R160). -/
def Launch.prio (l : Launch) : Nat := fieldOf (l.fld 30 1) 0 3

/-- The ladder key (R261). -/
def Launch.lkey (l : Launch) : Nat := l.fld 32 4

/-- The grace window in ref ticks (R243). -/
def Launch.graceTicks (l : Launch) : Nat := if l.fld 36 4 = 0 then 20000 else l.fld 36 4

/-- A format slot (R22). -/
def Launch.fslot (l : Launch) (n : Nat) : W64 := BitVec.ofNat 64 (l.fld (48 + 8 * n) 8)

/-- The monitor configuration of a rung (R245). -/
def Launch.mon (l : Launch) (rung : Nat) : W64 := BitVec.ofNat 64 (l.fld (112 + 8 * rung) 8)

/-- The number of roles (R89). -/
def Launch.nroles (l : Launch) : Nat := l.hdr 3 1

/-- Scratch pages (R89). -/
def Launch.scrPages (l : Launch) : Nat := l.hdr 4 2

/-- Header FLAGS (R89). -/
def Launch.hflags (l : Launch) : Nat := l.hdr 7 1

/-- TRAPENTRY (R89). -/
def Launch.trapEntry (l : Launch) : Nat := l.hdr 8 4

/-- LANEBASE (R89). -/
def Launch.laneBase (l : Launch) : Nat := l.hdr 12 4

/-- A ROLE entry (R90). -/
def Launch.roleEntry (l : Launch) (j : Nat) : Nat := l.hdr (16 + 4 * j) 4

/-- Groups of a role (R90). -/
def Launch.groups (l : Launch) (j : Nat) : Nat := fieldOf (l.roleEntry j) 16 5 + 1

/-- Register bytes per lane of a role (R42, R90). -/
def Launch.budget (l : Launch) (j : Nat) : Nat := 16 * (fieldOf (l.roleEntry j) 21 6 + 1)

/-- A CHAN byte for `q8` to `q13` (R89). -/
def Launch.chan (l : Launch) (q : Nat) : Nat := l.hdr (48 + (q - 8)) 1

/-- Is channel `q` used, by which source and which destination (R89)? -/
def Launch.chanUsed (l : Launch) (q : Nat) : Bool := bitOf (l.chan q) 7

/-- The source role of a channel. -/
def Launch.chanSrc (l : Launch) (q : Nat) : Nat := fieldOf (l.chan q) 0 3

/-- The destination role of a channel. -/
def Launch.chanDst (l : Launch) (q : Nat) : Nat := fieldOf (l.chan q) 3 3

/-- SCODE and LCODE (R89). -/
def Launch.scode (l : Launch) : Nat := l.hdr 56 4

/-- See `scode`. -/
def Launch.lcode (l : Launch) : Nat := l.hdr 60 4

/-- The effective ladder (R92). -/
def Launch.floorRung (l : Launch) : Nat := Nat.max (fieldOf l.hflags 2 2) (fieldOf (l.fld 31 1) 0 2)

/-- See `floorRung`. -/
def Launch.topRung (l : Launch) : Nat := Nat.min (fieldOf l.hflags 4 2) (fieldOf (l.fld 31 1) 2 2)

/-- A size rounded up to whole 4 KiB pages (R372). -/
def up4k (n : Nat) : Nat := (n + 4095) / 4096 * 4096

/-- The bytes of all lanes of a team (R372). -/
def Launch.laneBytes (l : Launch) : Nat :=
  (List.range l.nroles).foldl (fun n j => n + 32 * l.groups j * l.budget j) 0

/-- The parts of a context area: save area, scratch backing, write set, queue overflow (R372). -/
def Launch.saveSize (l : Launch) : Nat := up4k (65536 + l.laneBytes)

/-- See `saveSize`. -/
def Launch.backSize (l : Launch) : Nat := up4k (l.scrPages * 4160)

/-- See `saveSize`. -/
def Launch.wsSize (l : Launch) : Nat := l.fld 236 2 * 4096

/-- See `saveSize`. -/
def Launch.queueSize (l : Launch) : Nat := 65536 * (7 + 8 * l.nroles)

/-- The context area of a team (R372). -/
def Launch.ctxAt (l : Launch) (t : Nat) : Nat := l.fld 224 8 + t * l.fld 232 4

/-- SCRBACK: the scratch backing area of a team (R202, R372). -/
def Launch.backAt (l : Launch) (t : Nat) : Nat := l.ctxAt t + l.saveSize

/-- The write-set region of a team (R215, R372). -/
def Launch.wsAt (l : Launch) (t : Nat) : Nat := l.backAt t + l.backSize

/-- The launch of a role. -/
def State.launchOf (s : State) (rk : Nat) : Launch := s.launch (lidOf (teamOf rk))

/-- The VF of a role. -/
def State.vfOf (s : State) (rk : Nat) : Nat := (s.launchOf rk).vf

/-- The core of a role. -/
def State.coreOf (s : State) (rk : Nat) : Nat := (s.team (teamOf rk)).core

/-- The keys of a team's roles. -/
def State.rolesOf (s : State) (tk : Nat) : List Nat :=
  (List.range (s.team tk).nroles).map (roleKey tk)

/-- Is the team in an open transaction (R243)? -/
def State.inTx (s : State) (tk : Nat) : Bool := (s.team tk).txOpen

/-- Is the team resident on a core? -/
def Team.resident (t : Team) : Bool :=
  match t.phase with
  | .running => true | .probing => true | .probeFault _ => true | .pinned => true
  | _ => false

/-- A format slot of R22, by its fields. -/
structure Slot where
  efmt : Fmt
  sfmt : Nat
  geom : Nat
  src : Bool
  rnd : Rnd
  sat : Bool
  margin : Int
  wbidx : Nat
  deriving DecidableEq, Repr

end Sys2Proof.Machine
end

