-- ==== Sys2Proof/Machine/Class.lean ====
section
/-! DEFINITION. PWRCFG's fields (R296), the power allowance's replenishment (R294), and the performance
class that a cluster adopts (R297, R298, R301). -/

namespace Sys2Proof.Machine
open Sys2Proof

/-- CAP, RESV, REPL and DEFCLS of PWRCFG (R296). -/
def pwrCap (w : W64) : Int := fieldOf w.toNat 16 24

/-- RESV. -/
def pwrResv (w : W64) : Nat := fieldOf w.toNat 40 16

/-- REPL. -/
def pwrRepl (w : W64) : Nat := fieldOf w.toNat 0 16

/-- DEFCLS. -/
def pwrDefcls (w : W64) : Nat := fieldOf w.toNat 56 2

/-- The divisor of R294: the clk of a class in tenths of GHz (R297). -/
def classClk (cls : Nat) : Nat := match cls with | 0 => 30 | 1 => 26 | 2 => 22 | _ => 16

/-- REPLC (R294). -/
def replcOf (w : W64) (cls : Nat) : Nat := pwrRepl w * 30 / classClk cls

/-- The teams resident on a cluster. -/
def State.teamsOn (s : State) (c : Nat) : List (Nat × Team) :=
  s.teams.filter fun e => e.2.resident && clusterOf e.2.core == c

/-- A transition of a core's cluster is under way (R301). -/
def State.relocking (s : State) (core : Nat) : Bool := (s.cluster (clusterOf core)).target.isSome

/-- A transfer of a party waits for a refresh (R360). -/
def State.delays (s : State) (w : Waiter) : Bool := s.hbmStacks.any fun e => e.2.delayed.any fun d => d.1 == w

/-- The lowest class among the unexpired leases of the cluster's resident teams, or DEFCLS (R298). -/
def State.adopted (s : State) (c : Nat) : Nat :=
  let ls := (s.teamsOn c).filterMap fun e => (e.2.lease.filter fun l => decide (0 < l.2)).map Prod.fst
  match ls with
  | [] => pwrDefcls (s.cluster c).pwrCfg
  | h :: t => t.foldl Nat.min h

/-- The fastest class that THERM.LEVEL allows (R298). -/
def levelCap (level : Nat) : Nat := if 4 ≤ level then 0 else if level = 3 then 1 else if level = 2 then 2 else 3

/-- The class the cluster should run at (R298). -/
def State.wantedClass (s : State) (c : Nat) : Nat :=
  Nat.max (s.adopted c) (levelCap (s.cluster c).level)

/-- Start a transition when the wanted class differs; a change wanted during a transition is looked at
when it completes (R301). -/
def State.adopt (s : State) (c : Nat) : State :=
  let k := s.cluster c
  if k.target.isSome || s.wantedClass c = k.cls then s
  else s.updCluster c fun k => { k with target := some (s.wantedClass c) }

end Sys2Proof.Machine
end

