-- ==== Sys2Proof/Machine/Memory.lean ====
section
/-! DEFINITION. Global memory: range registers (R304 to R306), the memory-side walk (R309 to R311,
R332, R359), home bytes and dirty lines (R322, R325, R326), lost lines (R336), wake-up of monitored
waits (R190, R293), and the write log's view (R250). The memory order is the order of the steps
(R313, R327). -/

namespace Sys2Proof.Machine
open Sys2Proof

/-- What an unlisted byte of HBM reads as (log 6). -/
def hbmDefault : Byte := 0

/-- Canonical form of home memory. -/
def Memory.wf (m : NMap Byte) : Bool := NMap.wf hbmDefault m

/-- The home value of a physical byte (R322). -/
def State.homeByte (s : State) (pa : Nat) : Byte := s.hbm.get hbmDefault pa

/-- Write the home value of a physical byte. -/
def State.setHome (s : State) (pa : Nat) (b : Byte) : State :=
  { s with hbm := s.hbm.set hbmDefault pa b }

/-! ## Legality and range registers -/

/-- A global access of `n` bytes is legal (R133). -/
def legalGlobal (va n : Nat) : Bool := decide (va + n ≤ 2 ^ 56)

/-- What the range registers make of an access (R306). -/
inductive SegRes where
  | ia (a : Nat)
  | remote
  | address
  deriving DecidableEq, Repr

/-- A segment behaves as if valid (R305). -/
def segValid (v i : Nat) : Bool :=
  let sz := fieldOf v 10 6
  bitOf v 0 && decide (16 ≤ sz) && decide (sz ≤ 48) && decide (fieldOf v 2 2 < 2)
    && fieldOf v 16 40 * 2 ^ 16 % 2 ^ sz == 0
    && (fieldOf v 2 2 == 1 || fieldOf i 16 36 * 2 ^ 16 % 2 ^ sz == 0)

/-- Does segment `(v, i)` match the address (R306)? -/
def segMatch (v i va : Nat) : Bool :=
  segValid v i && va / 2 ^ fieldOf v 10 6 == fieldOf v 16 40 * 2 ^ 16 / 2 ^ fieldOf v 10 6

/-- The walk over the segments from number `8 - n` on (R306). -/
def toIaFrom (f : Vf) (va n : Nat) : Nat → SegRes
  | 0 => .address
  | k + 1 =>
    let j := 8 - (k + 1)
    let v := (f.segV.get 0 j).toNat
    let i := (f.segI.get 0 j).toNat
    if segMatch v i va then
      if (va + n - 1) / 2 ^ fieldOf v 10 6 ≠ va / 2 ^ fieldOf v 10 6 then .address
      else if fieldOf v 2 2 = 1 then .remote
      else .ia (fieldOf i 16 36 * 2 ^ 16 + (va - fieldOf v 16 40 * 2 ^ 16))
    else toIaFrom f va n k

/-- `to_ia` of R306, after the legality check of R133. -/
def State.toIa (s : State) (vf va n : Nat) : SegRes :=
  if legalGlobal va n then toIaFrom (s.vf vf) va n 8 else .address

/-! ## The memory-side walk -/

/-- A page found by a walk: physical base, size, and the migration in progress on it. -/
structure PageT where
  iaBase : Nat
  pa : Nat
  size : Nat
  leafAt : Nat
  mig : Option Migration
  deriving DecidableEq, Repr

/-- The end of a walk (R311): sub-causes 1 NOMAP, 2 ABSENT, 3 WRITE, 4 BADPTE (R340); or a lost line of a table, which no
consumer is handed as if it were good (R335, R336). -/
inductive WalkRes where
  | page (p : PageT)
  | fault (sub : Nat)
  | lost (pa : Nat)
  deriving DecidableEq, Repr

/-- A 64-bit word of home memory. -/
def State.homeWord (s : State) (pa : Nat) : Nat := leNat ((rangeFrom pa 8).map s.homeByte)

/-- The pseudo-channel number `64 * (3 * die + stack) + pch` of a physical address (R359). -/
def pchOf (pa : Nat) : Nat := 192 * fieldOf pa 38 2 + 64 * fieldOf pa 36 2 + fieldOf pa 30 6

/-- A physical address exists and is the partition's (R311, R359). -/
def State.paOwned (s : State) (part pa : Nat) : Bool :=
  decide (pa < 2 ^ 40) && decide (fieldOf pa 36 2 < 3) && s.pchOwner.get 0 (pchOf pa) == part

/-- The migration of a page, if any (R331). -/
def State.migOf (s : State) (part iaBase : Nat) : Option Migration :=
  (([0, 1, 2, 3].flatMap fun d => (s.die d).migs).find? fun e =>
    e.2.part == part && e.2.ia.toNat == iaBase).map Prod.snd

/-- A leaf entry at a level whose pages have `size` bytes (R310, R311). A leaf that is BADPTE and not writable gives a write
BADPTE: R311 does not order its findings (DESIGN CHOICE, log 70). -/
def State.leafOf (s : State) (part ia e at_ size : Nat) (write : Bool) : WalkRes :=
  let pa := fieldOf e 8 44 * 2 ^ 8
  if pa % size ≠ 0 then .fault 4
  else if !s.paOwned part pa then .fault 4
  else if write && !bitOf e 2 then .fault 3
  else
    let base := ia / size * size
    .page ⟨base, pa, size, at_, if bitOf e 3 then s.migOf part base else none⟩

/-- An entry has reserved bits set (R310). -/
def pteReserved (e : Nat) : Bool := fieldOf e 52 12 != 0 || fieldOf e 4 4 != 0

/-- The physical line of an address is lost (R336). -/
def State.lostPa (s : State) (pa : Nat) : Bool :=
  let d := s.die (fieldOf pa 38 2)
  d.lost.contains (pa / 64) || d.untracked.contains (pa / 64)

/-- Read a table entry on a walk (R310, R311, R336): a table outside the partition's pseudo-channels is BADPTE too. An entry with
V = 0 and reserved bits set gives ABSENT: R311 does not order its findings (DESIGN CHOICE, log 70). -/
def State.withEntry (s : State) (part at_ : Nat) (k : Nat → WalkRes) : WalkRes :=
  if !s.paOwned part at_ then .fault 4
  else if s.lostPa at_ then .lost at_
  else
    let e := s.homeWord at_
    if !bitOf e 0 then .fault 2 else if pteReserved e then .fault 4 else k e

/-- The table walk of one address (R309 to R311). -/
def State.tableWalk (s : State) (part ia : Nat) (write : Bool) : WalkRes :=
  let dm := ((s.part part).dieMap.get 0 (fieldOf ia 36 16)).toNat
  if !bitOf dm 0 then .fault 1
  else
    let a1 := fieldOf dm 11 41 * 2 ^ 11 + 8 * fieldOf ia 28 8
    s.withEntry part a1 fun e1 =>
      if bitOf e1 1 then s.leafOf part ia e1 a1 (2 ^ 28) write
      else
        let a2 := fieldOf e1 8 44 * 2 ^ 8 + 8 * fieldOf ia 21 7
        s.withEntry part a2 fun e2 =>
          if bitOf e2 1 then s.leafOf part ia e2 a2 (2 ^ 21) write
          else
            let a3 := fieldOf e2 8 44 * 2 ^ 8 + 8 * fieldOf ia 16 5
            s.withEntry part a3 fun e3 => if bitOf e3 1 then s.leafOf part ia e3 a3 (2 ^ 16) write else .fault 4

/-- The die that owns a region (R309, R324). -/
def State.regionDie (s : State) (part ia : Nat) : Nat :=
  fieldOf ((s.part part).dieMap.get 0 (fieldOf ia 36 16)).toNat 1 2

/-- The cached page of an address (R311). -/
def State.cachedPage (s : State) (part ia : Nat) : Option CachedPage :=
  (s.die (s.regionDie part ia)).tlb.find? fun c => c.part == part && ia / c.size * c.size == c.base

/-- The memory-side walk of one address: the owning die's translation cache, or the table (R311). A page that
a migration moves is served by its record (R332). -/
def State.walk (s : State) (part ia : Nat) (write : Bool) : WalkRes :=
  match s.cachedPage part ia with
  | none => s.tableWalk part ia write
  | some c => if write && !c.write then .fault 3 else .page ⟨c.base, c.pa, c.size, 0, s.migOf part c.base⟩

/-- The cache takes up the page that a table walk finds now, in place of its oldest entry when it is full
(R311). -/
def State.fillTlb (s : State) (part ia : Nat) : State :=
  match s.cachedPage part ia, s.tableWalk part ia false with
  | none, .page p =>
    let w := match s.tableWalk part ia true with | .page _ => true | _ => false
    s.updDie (s.regionDie part ia) fun d =>
      { d with tlb := (⟨part, p.iaBase, p.size, p.pa, w⟩ :: d.tlb).take 8192 }
  | _, _ => s

/-- The cached pages that cover an address go, on every die (R312). -/
def State.dropTlb (s : State) (part ia : Nat) : State :=
  { s with dies := s.dies.map fun e =>
      (e.1, { e.2 with tlb := e.2.tlb.filter fun c => !(c.part == part && ia / c.size * c.size == c.base) }) }

/-- The physical byte that serves an IA byte of a page: the destination for lines below the cursor
of a migration (R332). -/
def PageT.paOf (p : PageT) (ia : Nat) : Nat :=
  let off := ia - p.iaBase
  match p.mig with
  | none => p.pa + off
  | some m => if off / 64 < m.cursor then m.dst.toNat + off else m.src.toNat + off

/-- What an access comes to (R133, R306, R311, R336). -/
inductive AccRes where
  | ok (x : Xlat)
  | address
  | remote
  | page (sub ia : Nat)
  | mcheck (pa : Nat)
  deriving DecidableEq, Repr

/-- The sub-cause of the machine check at a lost line (R340): 3 if a cache lost it, 4 otherwise. -/
def State.lostSub (s : State) (pa : Nat) : Nat := if (s.die (fieldOf pa 38 2)).lostL2.contains (pa / 64) then 3 else 4

/-- Pages of an IA range: walk the first byte, and the last when it lies in another 64 KiB page. -/
def State.walkRange (s : State) (part ia n : Nat) (write : Bool) : WalkRes × WalkRes :=
  let w := s.walk part ia write
  if ia / 2 ^ 16 = (ia + n - 1) / 2 ^ 16 then (w, w) else (w, s.walk part (ia + n - 1) write)

/-- A page's migration has fallen back (R334). -/
def PageT.isDual (p : PageT) : Bool :=
  match p.mig with
  | some m => m.stopped
  | none => false

/-- Translate an IA range of at most 64 KiB (R311). -/
def State.translateIa (s : State) (part ia n : Nat) (write : Bool) : AccRes :=
  match s.walkRange part ia n write with
  | (.fault f, _) => .page f ia
  | (.lost pa, _) => .mcheck pa
  | (_, .fault f) => .page f (ia + n - 1)
  | (_, .lost pa) => .mcheck pa
  | (.page p, .page p') =>
    .ok ⟨part, ia,
      (rangeFrom ia n).map fun a => if a / 2 ^ 16 = ia / 2 ^ 16 then p.paOf a else p'.paOf a,
      p.isDual || p'.isDual, p.mig.isSome || p'.mig.isSome⟩

/-- An access of a context at a virtual address: legality, range registers, walk, lost lines
(R133, R306, R311, R336). -/
def State.xlat (s : State) (vf va n : Nat) (write : Bool) : AccRes :=
  match s.toIa vf va n with
  | .address => .address
  | .remote => .remote
  | .ia ia =>
    match s.translateIa (s.vf vf).part ia n write with
    | .ok x =>
      match x.pas.find? s.lostPa with
      | some pa => .mcheck pa
      | none => .ok x
    | r => r

/-! ## Lines: dirty copies and home values -/

/-- The key of a global line: its partition and its IA line (R286: caches name lines by IA). -/
def lineKey (part ia : Nat) : Nat := part * 2 ^ 46 + ia / 64

/-- The key of a line's grain (R324). -/
def grainKey (line : Nat) : Nat := line / 8

/-- Byte `i` of 64 bytes. -/
def lineByte (d : BitVec 512) (i : Nat) : Byte := d.extractLsb' (8 * i) 8

/-- 64 bytes with byte `i` replaced. -/
def lineSet (d : BitVec 512) (i : Nat) (b : Byte) : BitVec 512 :=
  (d &&& ~~~(BitVec.ofNat 512 255 <<< (8 * i))) ||| (b.zeroExtend 512 <<< (8 * i))

/-- What a load of a byte sees: the dirty copy, or the home value (R313, R322). -/
def State.loadByte (s : State) (part ia pa : Nat) : Byte :=
  match s.dirty.get? (lineKey part ia) with
  | some d => lineByte d.data (ia % 64)
  | none => s.homeByte pa

/-- The bytes a translated load returns. -/
def State.loadX (s : State) (x : Xlat) : List Byte :=
  (rangeFrom x.ia x.pas.length).zipWith (fun ia pa => s.loadByte x.part ia pa) x.pas

/-- The home values of a translated range (R322). -/
def State.homeX (s : State) (x : Xlat) : List Byte := x.pas.map s.homeByte

/-- Write back a dirty line: its 64 bytes replace the home's (R322). Lines that no longer translate
keep the home as it is. -/
def State.writeBack (s : State) (line : Nat) : State :=
  match s.dirty.get? line with
  | none => s
  | some d =>
    let s1 := { s with dirty := s.dirty.erase line }
    match s.translateIa (line / 2 ^ 46) (line % 2 ^ 46 * 64) 64 false with
    | .ok x =>
      (x.pas.zipIdx).foldl (fun t e => t.setHome e.1 (lineByte d.data e.2)) s1
    | _ => s1

/-- Discard a dirty line (R197). -/
def State.dropDirty (s : State) (line : Nat) : State := { s with dirty := s.dirty.erase line }

/-- The dirty lines of a grain. -/
def State.dirtyOf (s : State) (grain : Nat) : List Nat :=
  s.dirty.keys.filter fun l => grainKey l == grain

/-- Recall a grain: its dirty lines are written back (R326). -/
def State.recallGrain (s : State) (grain : Nat) : State := (s.dirtyOf grain).foldl State.writeBack s

/-- The cluster whose cache holds a line dirty (R322). -/
def Holder.cluster (h : Holder) : Nat := clusterOf h.core

/-- Who holds a grain writable with a dirty line (R325). -/
def State.grainHolder (s : State) (grain : Nat) : Option Holder :=
  ((s.dirty.find? fun e => grainKey e.1 == grain)).map fun e => e.2.holder

/-- The cluster that holds a grain writable with a dirty line (R325). -/
def State.grainOwner (s : State) (grain : Nat) : Option Nat := (s.grainHolder grain).map Holder.cluster

/-- Who stores when a role does (R325, R329). -/
def State.holder (s : State) (rk : Nat) : Holder := ⟨s.coreOf rk, s.vfOf rk⟩

/-- The waits of a role change: the one in progress, and one that a user trap has set aside (R190, R199). -/
def Role.onWaits (r : Role) (f : Waita → Waita) : Role :=
  { r with waita := r.waita.map f, aside := r.aside.map fun a => { a with waita := a.waita.map f } }

/-- A write to a line is ordered after the arming point of a wait on it (R190). -/
def Waita.saw (line : Nat) (w : Waita) : Waita := if w.line = line then { w with written := true } else w

/-- Wake the monitored waits of one role on a line (R190, R293). -/
def Role.sawWrite (r : Role) (line : Nat) : Role :=
  { r.onWaits (Waita.saw line) with
    armed := r.armed.map fun e => if e.1 = line then (e.1, true) else e }

/-- A write to a line is ordered: every role's monitored wait on it sees it (R190, R293). -/
def State.noteWrite (s : State) (line : Nat) : State :=
  { s with roles := s.roles.map fun e => (e.1, e.2.sawWrite line) }

/-- The lines that a cluster's L2 holds: 24 MiB of 64 bytes (R286). -/
def l2Lines : Nat := 393216

/-- A cluster's L2 whose lines are all dirty writes one back before it takes another (R286): the first in the order of
their keys (DESIGN CHOICE, log 72); Move.evict can write any other back before. -/
def State.l2Room (s : State) (cluster : Nat) : State :=
  if s.dirty.length < l2Lines then s
  else match s.dirty.filter fun e => e.2.holder.cluster == cluster with
    | e :: t => if l2Lines ≤ (e :: t).length then s.writeBack e.1 else s
    | [] => s

/-- Write a byte of a line in a cluster's cache: the line becomes, or stays, dirty there (R322, R326). -/
def State.dirtyByte (s : State) (h : Holder) (part ia : Nat) (b : Byte) : State :=
  let k := lineKey part ia
  let s0 := match s.grainOwner (grainKey k) with
    | some c => if c = h.cluster then s else s.recallGrain (grainKey k)
    | none => s
  let s1 := if s0.dirty.has k then s0 else s0.l2Room h.cluster
  let cur : BitVec 512 := match s1.dirty.get? k with
    | some d => d.data
    | none =>
      match s1.translateIa part (ia / 64 * 64) 64 false with
      | .ok x => BitVec.ofNat 512 (leNat (x.pas.map s1.homeByte))
      | _ => 0
  { s1 with dirty := s1.dirty.put k ⟨lineSet cur (ia % 64) b, h⟩ }

/-- The lines of an IA range. -/
def linesOf (part ia n : Nat) : List Nat :=
  rangeFrom (lineKey part ia) (if n = 0 then 0 else (ia + n - 1) / 64 - ia / 64 + 1)

/-- An ordinary store of a translated range by a core of a cluster (R313, R326). -/
def State.storeX (s : State) (h : Holder) (x : Xlat) (bs : List Byte) : State :=
  let s1 := ((rangeFrom x.ia x.pas.length).zip bs).foldl
    (fun t e => t.dirtyByte h x.part e.1 e.2) s
  (linesOf x.part x.ia x.pas.length).foldl State.noteWrite s1

/-- A command or an inbound segment holds a grain of the range: a store there waits for its writes (R328). -/
def State.bulkHeld (s : State) (x : Xlat) : Bool :=
  let gs := (linesOf x.part x.ia x.pas.length).map grainKey
  (s.roles.any fun r => r.2.engs.any fun e => e.2.run.any fun c => c.prog.holds.any gs.contains)
    || (s.fired.any fun f => f.2.cmd.prog.holds.any gs.contains)
    || s.vfs.any fun v => v.2.stalls.any fun e => e.holds.any gs.contains

/-- A write performed at the home: the grains are recalled and the home values change
(R322, R326). -/
def State.homeWriteX (s : State) (x : Xlat) (bs : List Byte) : State :=
  let ls := linesOf x.part x.ia x.pas.length
  let s1 := (ls.map grainKey).dedup.foldl State.recallGrain s
  let s2 := (x.pas.zip bs).foldl (fun t e => t.setHome e.1 e.2) s1
  ls.foldl State.noteWrite s2

/-- A depot write: the home values change; a line held dirty stays dirty, and nothing is woken on it
(R190, R322). -/
def State.depotWriteX (s : State) (x : Xlat) (bs : List Byte) : State :=
  let ls := linesOf x.part x.ia x.pas.length
  let s1 := (x.pas.zip bs).foldl (fun t e => t.setHome e.1 e.2) s
  (ls.filter fun l => !s.dirty.has l).foldl State.noteWrite s1

/-! ## Scratch -/

/-- The scratch size of a role's team in bytes (R133, R201). -/
def State.scratchSize (s : State) (tk : Nat) : Nat := (s.launch (lidOf tk)).scrPages * 4096

/-- A scratch access is legal (R133). -/
def State.legalScratch (s : State) (tk ea n : Nat) : Bool := decide (ea + n ≤ s.scratchSize tk)

/-- A page record that is not listed: untouched and absent (R201). -/
def SPage.fresh : SPage :=
  { touched := false, present := false, kind := 0, busy := false, acc := false, used := false, dirty := false,
    ver := 0, frameCore := 0, frame := 0, orph := false, idx := 0 }

/-- The page has an entry that an access of the team matches, and the pager is not moving it (R203, R204, R206). -/
def SPage.reach (p : SPage) : Bool := p.present && !p.busy && !p.orph

/-- A page of a team. -/
def Team.page (t : Team) (vpn : Nat) : SPage := t.pages.get SPage.fresh vpn

/-- The pages an access touches. -/
def pagesOf (ea n : Nat) : List Nat :=
  rangeFrom (ea / 4096) (if n = 0 then 0 else (ea + n - 1) / 4096 - ea / 4096 + 1)

/-- Page records from this key on are those of the write set: the log's page `n` has the key `wsFirst + n`
(R215). Scratch pages have the keys 0 to 8,191 (R204). -/
def wsFirst : Nat := 8192

/-- Where a page's data and metadata lie in the backing area, and a page of the write set in the write-set region
(R202, R215, R372): address and length. -/
def Launch.backing (l : Launch) (t vpn : Nat) : List (Nat × Nat) :=
  if wsFirst ≤ vpn then [(l.wsAt t + 4096 * (vpn - wsFirst), 4096)]
  else [(l.backAt t + 4096 * vpn, 4096), (l.backAt t + 4096 * l.scrPages + 64 * vpn, 64)]

/-- What the pager's access to a page's backing meets (R210). -/
inductive BackRes where
  | ok (xs : List Xlat)
  | noArea (va : Nat)
  | page (va ia : Nat)
  | lost (va pa : Nat)
  deriving DecidableEq, Repr

/-- The backing can be addressed; lost data in it is met only where it is used (R336). -/
def BackRes.passes : BackRes → Bool
  | .ok _ => true
  | .lost _ _ => true
  | _ => false

/-- Translate a page's backing (R202, R210). -/
def State.backX (s : State) (vf : Nat) (write : Bool) : List (Nat × Nat) → BackRes
  | [] => .ok []
  | (va, n) :: t =>
    match s.xlat vf va n write with
    | .page _ ia => .page va ia
    | .mcheck pa => .lost va pa
    | .ok x =>
      (match s.backX vf write t with
       | .ok xs => .ok (x :: xs)
       | r => r)
    | _ => .noArea va

/-- The part of a page's backing that has not been provided: illegal, without a segment, or in another package
(R210). -/
def State.backGap (s : State) (vf : Nat) (ps : List (Nat × Nat)) : Option Nat :=
  (ps.find? fun p => match s.toIa vf p.1 p.2 with | .ia _ => false | _ => true).map Prod.fst

/-- The backing of a team's page (R210). -/
def State.backOf (s : State) (tk vpn : Nat) (write : Bool) : BackRes :=
  let l := s.launch (lidOf tk)
  let ps := l.backing (s.team tk).t vpn
  match s.backGap l.vf ps with
  | some va => .noArea va
  | none => s.backX l.vf write ps

/-- Accesses can be made to the page (R205, R206); those of a KIND 2 page go through its backing lines, which must
translate (R210). -/
def State.reaches (s : State) (tk vpn : Nat) : Bool :=
  let p := (s.team tk).page vpn
  p.reach && (p.kind != 2 || (s.backOf tk vpn true).passes)

/-- The first page of an access that takes a scratch page fault; `local` asks for a local frame
(R206). -/
def State.scratchFault (s : State) (tk ea n : Nat) (needLocal : Bool) : Option Nat :=
  (pagesOf ea n).find? fun v => !s.reaches tk v || (needLocal && ((s.team tk).page v).kind != 0)

/-- The page joins the faults that the pager serves, for the party that met it (R206, R207): one service serves all. A
page with an entry is in motion from then on, and a hint's service takes the first real fault as its own. -/
def Team.startService (t : Team) (vpn now : Nat) (who : Option Asker) : Team :=
  match t.service.get? vpn with
  | some v => if v.who.isSome then t else { t with service := t.service.put vpn { v with who := who } }
  | none =>
    let p := t.page vpn
    { t with service := t.service.put vpn ⟨now, none, who⟩,
             pages := if p.reach then t.pages.put vpn { p with busy := true } else t.pages }

/-- See `Team.startService`. -/
def State.startService (s : State) (tk vpn : Nat) (who : Option Asker) : State :=
  s.updTeam tk fun t => t.startService vpn s.refTick.toNat who

/-- Begin the service of scratch pages (R206, R207). -/
def State.startServices (s : State) (tk : Nat) (vs : List Nat) (who : Option Asker) : State :=
  vs.foldl (fun t v => t.startService tk v who) s

/-- The page is held in L2: its bytes and its full/empty bits are those of its backing lines (R205). -/
def Team.viaL2 (t : Team) (vpn : Nat) : Bool := (t.page vpn).present && decide ((t.page vpn).kind = 2)

/-- The address of a byte of scratch in the backing area (R202). -/
def State.backByteAt (s : State) (tk a : Nat) : Nat := (s.launch (lidOf tk)).backAt (s.team tk).t + a

/-- The address of a page's metadata (R202). -/
def State.metaAt (s : State) (tk vpn : Nat) : Nat :=
  let l := s.launch (lidOf tk)
  l.backAt (s.team tk).t + 4096 * l.scrPages + 64 * vpn

/-- One byte of a team's backing area as cached global data; `old` where it does not translate. -/
def State.backByte (s : State) (tk va : Nat) (old : Byte) : Byte :=
  match s.xlat (s.launch (lidOf tk)).vf va 1 false with
  | .ok x => (s.loadX x).headD 0
  | _ => old

/-- Scratch bytes: of a vault frame, or of the backing lines of a KIND 2 page (R205). -/
def State.scratchLoad (s : State) (tk ea n : Nat) : List Byte :=
  let t := s.team tk
  (rangeFrom ea n).map fun a =>
    if t.viaL2 (a / 4096) then s.backByte tk (s.backByteAt tk a) (t.scratch.get 0 a) else t.scratch.get 0 a

/-- An access of scratch meets uncorrectable data (R210, R335): a read of any of it, or a write of part of a word. -/
def Team.meetsBad (t : Team) (ea n : Nat) (write : Bool) : Bool :=
  t.vbad.any fun w => decide (8 * w < ea + n) && decide (ea < 8 * w + 8)
    && !(write && decide (ea ≤ 8 * w) && decide (8 * w + 8 ≤ ea + n))

/-- The part of an access that lies in one page: its first byte and its length. -/
def partOn (ea n vpn : Nat) : Nat × Nat :=
  let lo := Nat.max ea (4096 * vpn)
  (lo, Nat.min (ea + n) (4096 * vpn + 4096) - lo)

/-- The lost physical line that an access of the backing area meets (R336). -/
def State.lostAt (s : State) (tk va n : Nat) (write : Bool) : Option Nat :=
  match s.xlat (s.launch (lidOf tk)).vf va n write with
  | .mcheck pa => some pa
  | _ => none

/-- The first lost line that an access of KIND 2 pages meets in their backing: of their data, and for an access that tests
or sets full/empty bits of their metadata (R205, R210, R336): its physical address. -/
def State.backLost (s : State) (tk ea n : Nat) (write fe : Bool) : Option Nat :=
  (pagesOf ea n).findSome? fun v =>
    if (s.team tk).viaL2 v then
      match s.lostAt tk (s.backByteAt tk (partOn ea n v).1) (partOn ea n v).2 write with
      | some pa => some pa
      | none => if fe then s.lostAt tk (s.metaAt tk v) 64 false else none
    else none

/-- An access of scratch meets uncorrectable data, in the page or in the backing of a KIND 2 page (R205, R210,
R335). -/
def State.vaultBadFe (s : State) (tk ea n : Nat) (write fe : Bool) : Bool :=
  (s.team tk).meetsBad ea n write || (s.backLost tk ea n write fe).isSome

/-- Sub-cause and address of such data (R337, R340). -/
def State.badAtFe (s : State) (tk ea n : Nat) (write fe : Bool) : Nat × Nat :=
  if (s.team tk).meetsBad ea n write then (2, 0)
  else match s.backLost tk ea n write fe with
    | some pa => (s.lostSub pa, pa)
    | none => (2, 0)

/-- See `vaultBadFe`: of an access without full/empty bits. -/
def State.vaultBad (s : State) (tk ea n : Nat) (write : Bool) : Bool := s.vaultBadFe tk ea n write false

/-- See `badAtFe`. -/
def State.badAt (s : State) (tk ea n : Nat) (write : Bool) : Nat × Nat := s.badAtFe tk ea n write false

/-- Frames of a core's vault that pages occupy (R204). -/
def State.framesUsed (s : State) (core : Nat) : List Nat :=
  s.teams.flatMap fun e =>
    (e.2.pages.filter fun p => p.2.present && decide (p.2.kind ≤ 1) && p.2.frameCore == core).map fun p => p.2.frame

/-- The lowest free frame of a core's vault (R208). -/
def State.freeFrame (s : State) (core : Nat) : Option Nat :=
  let used := s.framesUsed core
  (List.range (Nat.min 2048 (used.length + 1))).find? fun n => !used.contains n

/-- A page is accessed (R204); `room` says that a local frame is free (R217). -/
def SPage.access (p : SPage) (room : Bool) : SPage :=
  { p with acc := true, used := p.used || (room && p.kind == 1) }

/-- A page is written at an address: DIRTY, and in a transaction the VER bit of the sub-page
(R204, R213). -/
def SPage.write (p : SPage) (tx room : Bool) (ea : Nat) : SPage :=
  { p.access room with
    dirty := true, ver := if tx then p.ver ||| 2 ^ (ea % 4096 / 1024) else p.ver }

/-- Mark the pages of a read. -/
def Team.notePages (t : Team) (ea n : Nat) (room : Bool) : Team :=
  { t with pages := (pagesOf ea n).foldl (fun m v => m.put v ((t.page v).access room)) t.pages }

/-- A local frame is free for a team's lateral pages (R217). -/
def State.localRoom (s : State) (tk : Nat) : Bool :=
  (s.team tk).pages.any (fun e => e.2.kind == 1) && (s.freeFrame (s.team tk).core).isSome

/-- Mark the pages of a team's read. -/
def State.noteScratch (s : State) (tk ea n : Nat) : State := s.updTeam tk fun t => t.notePages ea n (s.localRoom tk)

/-- Write scratch bytes (R135, R213). A word that is written whole holds good data (R335). -/
def Team.storeScratch (t : Team) (ea : Nat) (bs : List Byte) (room : Bool) : Team :=
  let w := ((rangeFrom ea bs.length).zip bs)
  { t with
    scratch := w.foldl (fun m e => m.set 0 e.1 e.2) t.scratch
    pages := w.foldl (fun m e =>
      m.put (e.1 / 4096) ((m.get SPage.fresh (e.1 / 4096)).write t.txOpen room e.1)) t.pages
    vbad := t.vbad.filter fun v => !(decide (ea ≤ 8 * v) && decide (8 * v + 8 ≤ ea + bs.length)) }

/-- Who stores when a team's scratch accesses write the backing lines of a KIND 2 page (R205, R325). -/
def State.teamHolder (s : State) (tk : Nat) : Holder := ⟨(s.team tk).core, (s.launch (lidOf tk)).vf⟩

/-- Write bytes of a KIND 2 page to its backing lines (R205). -/
def State.storeBack (s : State) (tk ea : Nat) (bs : List Byte) : State :=
  (pagesOf ea bs.length).foldl (fun u v =>
    let p := partOn ea bs.length v
    if (s.team tk).viaL2 v then
      match u.xlat (u.launch (lidOf tk)).vf (u.backByteAt tk p.1) p.2 true with
      | .ok x => u.storeX (u.teamHolder tk) x ((bs.drop (p.1 - ea)).take p.2)
      | _ => u
    else u) s

/-- Write scratch bytes of a team, those of a KIND 2 page in its backing lines (R205). -/
def State.scratchStore (s : State) (tk ea : Nat) (bs : List Byte) : State :=
  (s.updTeam tk fun t => t.storeScratch ea bs (s.localRoom tk)).storeBack tk ea bs

/-- The 16-byte granules an access touches (R136). -/
def granulesOf (ea n : Nat) : List Nat :=
  rangeFrom (ea / 16) (if n = 0 then 0 else (ea + n - 1) / 16 - ea / 16 + 1)

/-- The full/empty bit of a granule: of the page, or in the backing metadata of a KIND 2 page (R202, R205, R211). -/
def State.fullAt (s : State) (tk g : Nat) : Bool :=
  let t := s.team tk
  let old := t.full.get false g
  if t.viaL2 (g / 256) then
    bitOf (s.backByte tk (s.metaAt tk (g / 256) + g % 256 / 8) (BitVec.ofNat 8 (b2n old * 2 ^ (g % 8)))).toNat (g % 8)
  else old

/-- Are all touched granules full (R136)? -/
def State.allFull (s : State) (tk ea n : Nat) : Bool := (granulesOf ea n).all (s.fullAt tk)

/-- Set or clear the touched granules (R136, R211). -/
def Team.setFull (t : Team) (ea n : Nat) (v : Bool) : Team :=
  { t with full := (granulesOf ea n).foldl (fun m g => m.set false g v) t.full }

/-- Set or clear one granule's bit in the backing metadata of a KIND 2 page (R202, R205): a write at the home, so that no
dirty copy of the metadata stands in the pager's way (R329). -/
def State.backFull (s : State) (tk g : Nat) (v : Bool) : State :=
  if (s.team tk).viaL2 (g / 256) then
    match s.xlat (s.launch (lidOf tk)).vf (s.metaAt tk (g / 256) + g % 256 / 8) 1 true with
    | .ok x =>
      let b := leNat (s.loadX x)
      s.homeWriteX x [BitVec.ofNat 8 (b - b2n (bitOf b (g % 8)) * 2 ^ (g % 8) + b2n v * 2 ^ (g % 8))]
    | _ => s
  else s

/-- Set or clear the touched granules of a team (R136, R205, R211). -/
def State.setFull (s : State) (tk ea n : Nat) (v : Bool) : State :=
  (granulesOf ea n).foldl (fun u g => u.backFull tk g v) (s.updTeam tk fun t => t.setFull ea n v)

/-! ## The transaction's own stores -/

/-- The value of the team's latest logged store or atomic's address range to a byte (R250). Reduction
atomics hold no value until the drain and are not seen. -/
def logByte (log : List WEntry) (va : Nat) : Option Byte :=
  match log.reverse.find? fun e => e.kind == .store && decide (e.addr ≤ va) && decide (va < e.addr + e.size) with
  | some e => some (BitVec.ofNat 8 (e.data / 2 ^ (8 * (va - e.addr))))
  | none => none

/-- An entry of the write log stands in a page that has been pushed out, on a lost line of the write-set region (R215,
R286, R336). -/
def State.wsLost (s : State) (tk i : Nat) : Bool :=
  let p := (s.team tk).page (wsFirst + i / 128)
  !(p.present && p.kind != 2) && p.touched
    && (s.lostAt tk ((s.launch (lidOf tk)).wsAt (s.team tk).t + 32 * i) 32 false).isSome

/-- A load takes bytes from an entry of the write log whose data is uncorrectable (R210, R250, R335). -/
def State.logSpoilt (s : State) (tk va n : Nat) : Bool :=
  let t := s.team tk
  t.txOpen && (rangeFrom va n).any fun a =>
    match t.log.zipIdx.reverse.find? fun e => e.1.kind == .store && decide (e.1.addr ≤ a) && decide (a < e.1.addr + e.1.size) with
    | some e => t.logBad.contains e.2 || s.wsLost tk e.2
    | none => false

/-- Global bytes as a role of the team loads them (R250). -/
def State.roleLoad (s : State) (tk va : Nat) (x : Xlat) : List Byte :=
  let log := (s.team tk).log
  if (s.team tk).txOpen then
    (s.loadX x).zipIdx.map fun e => (logByte log (va + e.2)).getD e.1
  else s.loadX x

/-- The write-log capacity in entries (R251, R371). -/
def State.logCap (s : State) (tk : Nat) : Nat := (s.launch (lidOf tk)).fld 236 2 * 128

/-- Is there room for `n` more entries (R251)? -/
def State.logRoom (s : State) (tk n : Nat) : Bool :=
  decide ((s.team tk).log.length + (s.team tk).reserved + n ≤ s.logCap tk)

/-- The pages of the write set that entries `i` to `i + n - 1` of the log stand in (R251). -/
def wsPagesOf (i n : Nat) : List Nat :=
  (rangeFrom (i / 128) (if n = 0 then 0 else (i + n - 1) / 128 - i / 128 + 1)).map fun k => wsFirst + k

/-- The team with more entries in its write log: their pages are written (R204, R215, R251). -/
def Team.logged (t : Team) (es : List WEntry) : Team :=
  { t with log := t.log ++ es,
           pages := (wsPagesOf t.log.length es.length).foldl (fun m v =>
             m.put v { t.page v with acc := true, dirty := true }) t.pages }

/-- The first page of the write set that `n` more entries need and that cannot be accessed (R206, R215). -/
def State.wsLack (s : State) (tk n : Nat) : Option Nat :=
  if s.inTx tk then (wsPagesOf (s.team tk).log.length n).find? fun v => !s.reaches tk v else none

/-- Append to the write log. -/
def State.logAdd (s : State) (tk : Nat) (es : List WEntry) : State := s.updTeam tk fun t => t.logged es

/-- The role loads from a line: the arming point of a later WAITA (R190). -/
def Role.arm (r : Role) (lines : List Nat) : Role :=
  { r with armed := lines.foldl (fun m l => m.put l false) r.armed }

end Sys2Proof.Machine
end

