-- ==== Sys2Proof/Machine/Fetch.lean ====
section
/-! DEFINITION. Fetching instruction bytes (R60, R94, R180, R192) and what the words still to come mean
for program order (R154, R221). Code is read through the pushing role's context as a load reads it
(log 16). -/

namespace Sys2Proof.Machine
open Sys2Proof

/-- What a fetch gives. -/
inductive Fetched where
  | word (w : Nat)
  | address
  | remote
  | page (sub ia : Nat)
  | mcheck (pa : Nat)
  deriving DecidableEq, Repr

/-- Read `n` bytes of code at a virtual address of a context. -/
def State.fetchAt (s : State) (vf va n : Nat) : Fetched :=
  match s.xlat vf va n false with
  | .ok x => .word (leNat (s.loadX x))
  | .address => .address
  | .remote => .remote
  | .page sub ia => .page sub ia
  | .mcheck pa => .mcheck pa

/-- The address lies in the kernel's scalar code (R180). -/
def Launch.inCode (l : Launch) (a : Nat) : Bool :=
  decide (l.khdr + 64 ≤ a) && decide (a < l.khdr + 64 + 4 * l.scode)

/-- Fetch the scalar word at an address of the role's kernel (R60, R180). -/
def State.fetchScalar (s : State) (rk a : Nat) : Fetched :=
  if (s.launchOf rk).inCode a then s.fetchAt (s.vfOf rk) a 4 else .address

/-- The address of lane word `n` of the kernel (R60, R94). -/
def Launch.laneAt (l : Launch) (n : Nat) : Nat := l.laneCode + 12 * (l.laneBase + n)

/-- Fetch lane word `n` (R192: at or beyond LCODE it is ADDRESS). -/
def State.fetchLane (s : State) (rk n : Nat) : Fetched :=
  let l := s.launchOf rk
  if n < l.lcode then s.fetchAt (s.vfOf rk) (l.laneAt n) 12 else .address

/-- The lane words not yet issued: the rest of the first block and every block behind it. -/
def Role.wordsLeft (r : Role) : List Nat :=
  match r.blocks with
  | [] => []
  | b :: t => rangeFrom (b.first + r.lanePc) (b.len - r.lanePc) ++ t.flatMap fun b => rangeFrom b.first b.len

/-- Does a lane word satisfy a test? One that cannot be fetched yet may, so it counts (R154). -/
def State.laneMay (s : State) (rk n : Nat) (p : Instr → Bool) : Bool :=
  match s.fetchLane rk n with
  | .word w => (match decodeLane w with | some i => p i | none => false)
  | _ => true

/-- May a lane word to come satisfy a test? -/
def State.laneAhead (s : State) (rk : Nat) (p : Instr → Bool) : Bool :=
  (s.role rk).wordsLeft.any fun n => s.laneMay rk n p

/-- The words of queued blocks from word `pc` of the first on, each with its number in program order (R154). -/
def numberedWords (bs : List Block) (pc : Nat) : List (Nat × Nat) :=
  (bs.flatMap fun b => (List.range b.len).map fun i => (b.no + i, b.first + i)).drop pc

/-- The entries of the lane block queue in use: the last word of a block frees its entry as it issues, also when it then
waits in the hold (R153, R230, R231). -/
def Role.entries (r : Role) : Nat :=
  r.blocks.length - b2n (r.hold.isSome && match r.blocks with | b :: _ => decide (b.len ≤ r.lanePc + 1) | [] => false)

/-- Does a lane word make ordinary accesses (R313)? -/
def touchesMem : Instr → Bool
  | .vld .. => true
  | .vst .. => true
  | .vlds .. => true
  | .vsts .. => true
  | .vatom .. => true
  | _ => false

/-- Does a lane word write memory? -/
def writesMem : Instr → Bool
  | .vst .. => true
  | .vsts .. => true
  | .vatom .. => true
  | _ => false

/-- Does a lane word store to scratch? -/
def storesScratch : Instr → Bool
  | .vst _ m _ _ => m.scratch
  | .vsts _ m _ _ => m.scratch
  | .vatom _ m _ _ _ _ => m.scratch
  | _ => false

/-- The multiplication fields of an LX word. -/
def lxMulOf : Instr → Option LxMul
  | .vmma m => some m
  | .vmmas m => some m
  | _ => none

/-- Is the word a gang word (R233)? -/
def lxGang (i : Instr) : Bool := match lxMulOf i with | some m => m.gang | none => false

/-- Does a lane word update waybills? -/
def updatesWaybill : Instr → Bool
  | .vst _ _ wb _ => wb.isSome
  | .vsts _ _ wb _ => wb.isSome
  | .vwbupd .. => true
  | .vaccrd _ _ _ _ _ wb _ => wb
  | _ => false

/-- May a lane word draw from the role's generator (R20, R241)? -/
def mayDraw : Instr → Bool
  | .vfadd _ m .. => m.rnd == .stoch | .vfsub _ m .. => m.rnd == .stoch
  | .vfmul _ m .. => m.rnd == .stoch | .vfma _ m .. => m.rnd == .stoch
  | .vfrcp _ m .. => m.rnd == .stoch | .vfrsq _ m .. => m.rnd == .stoch
  | .vfsqrt _ m .. => m.rnd == .stoch | .vfexp2 _ m .. => m.rnd == .stoch
  | .vflog2 _ m .. => m.rnd == .stoch | .vftanh _ m .. => m.rnd == .stoch
  | .vfaddImm _ m .. => m.rnd == .stoch | .vfsubImm _ m .. => m.rnd == .stoch
  | .vfmulImm _ m .. => m.rnd == .stoch
  | .vcvt _ _ _ r .. => r == .stoch | .vpack _ _ r .. => r == .stoch
  | .vqnt .. => true | .vaccrd .. => true
  | _ => false

/-- The feature that a word needs beside the base (R392). -/
def needsBit : Instr → Option Nat
  | .txcommit .. => some 1 | .txabort => some 1
  | .vmmas _ => some 3
  | .vwbupd .. => some 6 | .wbsync _ => some 6
  | .vst _ _ (some _) _ => some 6 | .vsts _ _ (some _) _ => some 6 | .dstr _ _ (some _) _ => some 6
  | .relay => some 8
  | .vqnt .. => none | .vaccrd .. => none
  | i => if mayDraw i then some 7 else none

/-- Every feature that a word needs has been accepted (R80, R392). -/
def State.featureOk (s : State) (i : Instr) : Bool :=
  s.accept.getLsbD 0 && (match needsBit i with | some b => s.accept.getLsbD b | none => true)

/-- A scalar access has to wait for lane accesses of either space that program order puts before it (R135, R154, R314),
the operand log among them (R221). -/
def State.orderWait (s : State) (rk : Nat) : Bool :=
  !(s.role rk).flight.isEmpty || s.laneAhead rk touchesMem

/-- Waybill updates that the lane stream has issued have not been made yet: of words in flight, of a word in the hold, of
LX words whose results are outstanding. -/
def Role.updatesPending (r : Role) : Bool :=
  (r.flight.any fun e => updatesWaybill e.word) || r.lxOut != 0 || r.hold.any fun w => updatesWaybill w.word

/-- A lane word whose number is among some that precede a push (R184, R317, R348) has not been performed: of the words in
flight, or of those to come, the blocks that a trap has set aside included. -/
def State.spanWaits (s : State) (rk lo hi : Nat) : Bool :=
  let r := s.role rk
  let old := match r.aside with | some a => numberedWords a.blocks a.lanePc | none => []
  let inSpan (n : Nat) : Bool := decide (lo ≤ n) && decide (n < hi)
  (r.flight.any fun e => inSpan e.no)
    || (numberedWords r.blocks r.lanePc ++ old).any fun e =>
        inSpan e.1 && s.laneMay rk e.2 fun i => touchesMem i || updatesWaybill i

/-- Updates of the role that program order puts before this point have not been made. -/
def State.updatesAhead (s : State) (rk : Nat) : Bool :=
  s.laneAhead rk updatesWaybill || (s.role rk).updatesPending

/-- A use of the generator has to wait for lane words that draw before it (R154). -/
def State.drawWait (s : State) (rk : Nat) : Bool := s.laneAhead rk mayDraw

/-- Every block has issued and nothing is outstanding (R155, R169, R192). -/
def Role.drained (r : Role) : Bool :=
  r.blocks.isEmpty && r.lanes.pend.isEmpty && r.flight.isEmpty && r.lxOut == 0 && r.hold.isNone

end Sys2Proof.Machine
end

