-- ==== Sys2Proof/Machine/Ops.lean ====
section
/-! DEFINITION. The shared operations: fault records and the stopping of a role (R339 to R341, R381),
abort of a transaction (R252 to R255), user traps and the return from them (R199), queue registers
(R63, R81, R183 to R185), and the frame of a scalar instruction (R172 to R174). -/

namespace Sys2Proof.Machine
open Sys2Proof

/-- The outcome type of a meaning. -/
abbrev Res := Host.Outcome State Fault Refusal

/-! ## Fault records -/

/-- The fault codes (R340). -/
inductive Code where
  | illegal | address | misalign | opformat | remote | page | scratch | mcheck | txillegal | txcap
  | txprobe | barrier | chanend | cyclicwait | brk | brkpt | grain | utrap | migstop | lostfull
  | postfault | failed
  deriving DecidableEq, Repr

/-- The number of a fault code (R340, R407). -/
def codeNum : Code → Nat
  | .illegal => 0x01 | .address => 0x02 | .misalign => 0x03 | .opformat => 0x04 | .remote => 0x05
  | .page => 0x06 | .scratch => 0x07 | .mcheck => 0x08 | .txillegal => 0x09 | .txcap => 0x0A
  | .txprobe => 0x0B | .barrier => 0x0C | .chanend => 0x0D | .cyclicwait => 0x0E | .brk => 0x0F
  | .brkpt => 0x10 | .grain => 0x11 | .utrap => 0x12 | .migstop => 0x13 | .lostfull => 0x14
  | .postfault => 0x15 | .failed => Config.failedCode.toNat

/-- The TEAM field of a record: a team, all ones (R378), or a value that the spec does not state (log 2). -/
inductive RecTeam where
  | of (tk : Nat)
  | ones
  | open_
  deriving DecidableEq, Repr

/-- The value of the field. -/
def RecTeam.val (t : RecTeam) (free : Nat) : Nat :=
  match t with
  | .of tk => tk % 2 ^ 60
  | .ones => 2 ^ 64 - 1
  | .open_ => leNat ((rangeFrom 0 8).map (Config.freeByte free))

/-- The team of a record, if it has one. -/
def RecTeam.team? : RecTeam → Option Nat
  | .of tk => some tk
  | _ => none

/-- What a fault record says (R339). -/
structure RecInfo where
  code : Code
  sub : Nat
  flags : Nat
  team : RecTeam
  role : Nat
  queue : Nat
  pc : Nat
  va : Nat
  pa : Nat
  lanes : Nat
  deriving DecidableEq, Repr

/-- The 192 bytes of a fault record (R339). -/
def recBytes (i : RecInfo) (recid vf time free : Nat) : List Byte :=
  leBytes 2 (codeNum i.code) ++ leBytes 1 i.sub ++ leBytes 1 i.flags ++ leBytes 4 recid
    ++ leBytes 8 (i.team.val free) ++ leBytes 1 i.role ++ leBytes 1 i.queue ++ leBytes 2 vf
    ++ leBytes 4 i.pc ++ leBytes 8 i.va ++ leBytes 8 i.pa ++ leBytes 8 time ++ leBytes 16 0
    ++ leBytes 128 i.lanes

/-- A list of bytes as a byte map. -/
def byteMap (bs : List Byte) : NMap Byte :=
  (bs.zipIdx).foldl (fun m e => m.set 0 e.2 e.1) []

/-- The ring has no room (R381), a ring of no records included. -/
def Vf.ringFull (v : Vf) : Bool :=
  v.frSize == 0 || (v.frHead.toNat + 1) % v.frSize.toNat == v.frTail.toNat % v.frSize.toNat

/-- Write one record into the ring, when there is room and the write can be made, and give notice of it (R339, R381,
R388). -/
def State.ringWrite (s : State) (vf : Nat) (r : FaultRec) : Option State :=
  let v := s.vf vf
  if v.ringFull then none
  else match s.xlat vf ((v.frBase.toNat + 192 * v.frHead.toNat) % 2 ^ 64) 192 true with
    | .ok x =>
      let s1 := (s.homeWriteX x ((rangeFrom 0 192).map (r.bytes.get 0))).updVf vf fun w =>
        { w with frHead := BitVec.ofNat 64 ((w.frHead.toNat + 1) % w.frSize.toNat) }
      some { s1 with outbox := s1.outbox ++ [.ringNotice vf] }
    | _ => none

/-- Write the held records in the order they were raised, as far as it goes (R381). -/
def State.flushFrom (s : State) (vf : Nat) : List FaultRec → State
  | [] => s
  | r :: t =>
    if r.written then s.flushFrom vf t
    else match s.ringWrite vf r with
      | none => s
      | some s1 =>
        (s1.updVf vf fun v =>
          { v with recs := v.recs.map fun q => if q.recid = r.recid then { q with written := true } else q }).flushFrom vf t

/-- Write what can be written of the VF's held records. -/
def State.flushRecs (s : State) (vf : Nat) : State := s.flushFrom vf (s.vf vf).recs

/-- A record stands in the list. -/
def State.pushRec (s : State) (vf : Nat) (r : FaultRec) : State := s.updVf vf fun v => { v with recs := v.recs ++ [r] }

/-- A new record is written into the ring; behind one that is held, or with no room, it is held too (R381). -/
def State.putRec (s : State) (vf : Nat) (r : FaultRec) : State :=
  if (s.vf vf).recs.any fun q => !q.written then s.pushRec vf r
  else match s.ringWrite vf r with
    | some s1 => s1.pushRec vf { r with written := true }
    | none => s.pushRec vf r

/-- Raise a fault record: it gets the next RECID and is written into the ring or held
(R339, R381). `stops` is the role it stops. -/
def State.addRec (s : State) (vf : Nat) (i : RecInfo) (stops : Option Nat) : State :=
  let id := s.nextRec % 2 ^ 32
  let r : FaultRec :=
    ⟨id, byteMap (recBytes i id vf s.refTick.toNat s.free), false, i.team.team?, stops, codeNum i.code, false, none⟩
  { s with nextRec := s.nextRec + 1, free := s.free + 1 }.putRec vf r

/-- The index of the lane word a role is at (R60, R153). -/
def Role.laneIndex (r : Role) : Nat :=
  match r.blocks with
  | b :: _ => b.first + r.lanePc
  | [] => 0

/-- The number of the lane word a role is at in its program order (R154). -/
def Role.laneNo (r : Role) : Nat :=
  match r.blocks with
  | b :: _ => b.no + r.lanePc
  | [] => r.laneSeq

/-- FLAGS of a record (R339). -/
def recFlags (lane engine tx logged : Bool) : Nat :=
  b2n lane + 2 * b2n engine + 4 * b2n tx + 8 * b2n logged

/-- What a record of a role's stream says (R339). -/
def State.roleInfo (s : State) (rk : Nat) (lane : Bool) (c : Code) (sub va pa lanes : Nat)
    (logged : Bool) : RecInfo :=
  let r := s.role rk
  { code := c, sub := sub, flags := recFlags lane false (s.inTx (teamOf rk)) logged,
    team := .of (teamOf rk), role := roleIdx rk, queue := 0xFF,
    pc := if lane then r.laneIndex else r.pc.toNat + 2 ^ 64 - (s.launchOf rk).khdr,
    va := va, pa := pa, lanes := lanes }

/-- Codes that stop the whole team (R251, R258). -/
def Code.stopsTeam : Code → Bool
  | .txcap => true
  | .txprobe => true
  | _ => false

/-- Raise a fault of a role's stream. Every fault but PAGE stops the role until it is answered
(R340, R341); TXCAP and TXPROBE stop the team (R251, R258). -/
def State.raise (s : State) (rk : Nat) (lane : Bool) (c : Code) (sub va pa lanes : Nat) : State :=
  let id := s.nextRec % 2 ^ 32
  let s1 := s.addRec (s.vfOf rk) (s.roleInfo rk lane c sub va pa lanes false) (some rk)
  if c = .page then s1
  else
    let s2 := s1.updRole rk fun r => { r with stopped := some id }
    if c.stopsTeam then s2.updTeam (teamOf rk) fun t => { t with halted := some id } else s2

/-- A fault of the scalar stream without an address. -/
def State.raiseS (s : State) (rk : Nat) (c : Code) (va : Nat) : State := s.raise rk false c 0 va 0 0

/-- A fault of the lane stream without an address. -/
def State.raiseL (s : State) (rk : Nat) (c : Code) : State := s.raise rk true c 0 0 0 0

/-! ## Abort -/

/-- Words of the engine that belong to other teams. -/
def Core.without (c : Core) (tk : Nat) : Core :=
  { c with engQ := c.engQ.filter fun j => j.lxs.all fun x => teamOf x.rk != tk,
           lxDone := c.lxDone.filter fun j => j.lxs.all fun x => teamOf x.rk != tk }

/-- Take a team off its core: its roles, its slot and its words in the engine go (R170, R254). -/
def State.evictTeam (s : State) (tk : Nat) : State :=
  let s1 := { s with roles := s.roles.keep fun k _ => teamOf k != tk,
                     tasks := s.tasks.keep fun _ d => teamOf d.rk != tk,
                     rows := s.rows.keep fun _ w => teamOf (s.task w.task).rk != tk }
  s1.updCore (s.team tk).core fun c =>
    { c.without tk with slots := c.slots.keep fun _ k => k != tk }

/-- A team whose transaction can be aborted: open, and before its commit point (R252, R258). -/
def Team.abortable (t : Team) : Bool := t.txOpen && t.phase != .pinned

/-- What a team keeps across an abort (R254, R255). -/
def Team.aborted (t : Team) (cause : Nat) : Team :=
  { t with phase := .queued, scratch := [], full := [], pages := [], gang := 0, chans := [], log := [],
           reserved := 0, txOpen := false, satCnt := 0, canCnt := 0, grace := none,
           lease := none, service := [], cyclic := 0, cyclicRec := false, halted := none, suspend := none,
           vbad := [], logBad := [], pins := [], doomed := false, replays := t.replays + 1, lastCause := cause,
           fare := 0, rung := if cause = 1 ∨ cause = 2 then t.rung + 1 else t.rung }

/-- A request to pre-empt a team in GRACE mode (R252, R253): a team in an open transaction keeps running for the
grace window, one behind its commit point until the drain is complete; another one is pre-empted by R165. A further request does not restart the window. -/
def Team.request (t : Team) (cause ticks : Nat) (ph : TeamPhase) (swap : Bool) : Team :=
  if !t.resident then t
  else if t.txOpen || t.phase == .pinned then
    { t with grace := match t.grace with
        | some g => some { g with swap := g.swap && swap }
        | none => some ⟨ticks, cause, swap⟩ }
  else if t.suspend.isSome then t
  else { t with suspend := some ph }

/-- Request the pre-emption of every resident team of a VF in GRACE mode (R253, R384). -/
def State.requestVf (s : State) (vf cause : Nat) : State :=
  { s with teams := s.teams.map fun e =>
      let l := s.launch (lidOf e.1)
      if l.vf = vf then (e.1, e.2.request cause l.graceTicks .preempted false) else e }

/-- Charge a cost to a context at a core (R382): the nominal figure, in 1/16 pJ, with the core's calibration and correction. -/
def State.charge (s : State) (core vf nominal : Nat) : State :=
  s.updCore core fun c => { c with meter := c.meter.put vf (c.meter.get 0 vf + nominal * c.fareFactor / 1000) }

/-- Charge a cost to a team (R254, R382). -/
def State.chargeTeam (s : State) (tk nominal : Nat) : State :=
  let core := (s.team tk).core
  (s.charge core (s.launch (lidOf tk)).vf nominal).updTeam tk fun t =>
    { t with fare := t.fare + nominal * (s.core core).fareFactor / 1000 }

/-- An L1 holds a line: a clean copy of it, or the line dirty (R286). -/
def State.inL1 (s : State) (core line : Nat) : Bool :=
  s.cached.contains (.l1 core, line) || (match s.dirty.get? line with | some d => d.holder.core == core | none => false)

/-- A cluster's L2 holds a line (R286). -/
def State.inL2 (s : State) (cluster line : Nat) : Bool :=
  s.cached.contains (.l2 cluster, line) || (match s.dirty.get? line with | some d => d.holder.cluster == cluster | none => false)

/-- The nominal cost in 1/16 pJ of an access of `n` global bytes by a party at a core (R382): in an L1 (not an engine's), in the
cluster's L2, or in HBM with a packet for each line that the access before it has not touched. An atomic or a token add at
the `home` reads and writes there (log 12). -/
def State.globCost (s : State) (core : Nat) (l1 home : Bool) (part ia n : Nat) (prev : List Nat) : Nat :=
  let ls := linesOf part ia n
  let packets := (ls.filter fun l => !prev.contains l).length
  if home then 256 * n + 800 * packets
  else if l1 && ls.all (s.inL1 core) then 8 * n
  else if ls.all (s.inL2 (clusterOf core)) then 32 * n
  else 128 * n + 800 * packets

/-- The nominal cost of an access of `n` bytes of a team's scratch (R382): in a local frame, in a lateral one, or in the
backing lines of a KIND 2 page (R205). -/
def State.scrCost (s : State) (tk a n : Nat) : Nat :=
  match ((s.team tk).page (a / 4096)).kind with
  | 0 => 16 * n
  | 1 => 48 * n
  | _ =>
    let vf := (s.launch (lidOf tk)).vf
    match s.toIa vf (s.backByteAt tk a) n with
    | .ia ia => s.globCost (s.team tk).core false false (s.vf vf).part ia n []
    | _ => 128 * n

/-- The lines of a role's global access. -/
def State.accLines (s : State) (rk a n : Nat) : List Nat :=
  match s.toIa (s.vfOf rk) a n with
  | .ia ia => linesOf (s.vf (s.vfOf rk)).part ia n
  | _ => []

/-- The nominal cost of a role's access of scratch or of global memory; `prev` are the lines of its access before it. -/
def State.byteCost (s : State) (rk : Nat) (l1 home scratch : Bool) (a n : Nat) (prev : List Nat) : Nat :=
  if scratch then s.scrCost (teamOf rk) a n
  else match s.toIa (s.vfOf rk) a n with
    | .ia ia => s.globCost (s.coreOf rk) l1 home (s.vf (s.vfOf rk)).part ia n prev
    | _ => 0

/-- The nominal cost of accesses one after another. -/
def State.seqCost (s : State) (rk : Nat) (l1 home scratch : Bool) : List (Nat × Nat) → List Nat → Nat
  | [], _ => 0
  | a :: t, prev =>
    s.byteCost rk l1 home scratch a.1 a.2 prev + s.seqCost rk l1 home scratch t (s.accLines rk a.1 a.2)

/-- A cache of a core or of its cluster holds a line (R286). -/
def State.heldNear (s : State) (core line : Nat) : Bool := s.inL1 core line || s.inL2 (clusterOf core) line

/-- A command, or an inbound segment, holds a lost line that it writes whole: every other access to it waits (R336). -/
def State.lineHeld (s : State) (line : Nat) : Bool :=
  (s.roles.any fun r => r.2.engs.any fun e => e.2.run.any fun c => c.prog.lines.contains line)
    || (s.fired.any fun f => f.2.cmd.prog.lines.contains line)
    || s.vfs.any fun v => v.2.stalls.any fun e => e.lines.contains line

/-- A command holds one of some physical lines (R336). -/
def State.anyHeld (s : State) (lines : List Nat) : Bool := lines.any s.lineHeld

/-- The 64-byte transfers at the stacks, by physical line, of a translated access at a core: a line that a cache of its serves
makes none (R367, R370). -/
def State.transfers (s : State) (core : Nat) (x : Xlat) : List Nat :=
  (((rangeFrom x.ia x.pas.length).zip x.pas).filterMap fun e =>
    if s.heldNear core (lineKey x.part e.1) && !s.lineHeld (e.2 / 64) then none else some (e.2 / 64)).dedup

/-- The transfers of a role's access, of global memory or of a KIND 2 page of scratch (R205). -/
def State.accTransfers (s : State) (rk : Nat) (scratch : Bool) (a n : Nat) (write : Bool) : List Nat :=
  let at_ (va : Nat) : List Nat :=
    match s.xlat (s.vfOf rk) va n write with
    | .ok x => s.transfers (s.coreOf rk) x
    | _ => []
  if !scratch then at_ a
  else if (s.team (teamOf rk)).viaL2 (a / 4096) then at_ (s.backByteAt (teamOf rk) a) else []

/-- The pseudo-channel of an address is in a refresh (R360). -/
def State.inRefresh (s : State) (pa : Nat) : Bool :=
  decide (fieldOf pa 36 2 < 3) && match (s.stk (pchOf pa / 64)).refreshing.get none (pchOf pa % 64) with
    | some t => decide (s.refTick.toNat < t + 350)
    | none => false

/-- A transfer of a party, by its physical line, finds its pseudo-channel in a refresh: it waits for the end, and counts once
in RSTALL (R360, R361, R367). -/
def State.stallLine (s : State) (w : Waiter) (line : Nat) : State :=
  let n := pchOf (64 * line) / 64
  if !s.inRefresh (64 * line) || (s.stk n).delayed.contains (w, 64 * line) then s
  else s.updStk n fun k => { k with rstall := (k.rstall + 1) % 2 ^ 32, delayed := k.delayed ++ [(w, 64 * line)] }

/-- The transfers that a party is about to make: those that have to wait are counted, each by itself. -/
def State.stallAll (s : State) (w : Waiter) (lines : List Nat) : State := lines.foldl (fun u l => u.stallLine w l) s

/-- What the commands in progress of a team have cost so far, which is charged now since they do not complete (R254, R382). -/
def State.settleCmds (s : State) (tk : Nat) : State :=
  let n := ((s.roles.filter fun e => teamOf e.1 == tk).flatMap fun e => e.2.engs.map fun q => (q.2.run.map Cmd.fare).getD 0).sum
  if n = 0 then s else s.chargeTeam tk n

/-- A core's meter posts its charges for a context (R383): whole pJ leave the balance, and the rest stays in
the meter. A posting that leaves BAL at or below zero exhausts the quota (R384). -/
def State.postMeter (s : State) (core vf : Nat) : State :=
  let c := s.core core
  if !c.meter.has vf then s
  else
    let n := c.meter.get 0 vf
    let r := c.meterRep.get 0 vf
    let s1 := s.updCore core fun c =>
      { c with meter := c.meter.put vf (n % 16), meterRep := c.meterRep.put vf (r % 16) }
    let s2 := s1.updVf vf fun v =>
      { v with fareBal := v.fareBal - BitVec.ofNat 64 (n / 16), fareTot := v.fareTot + BitVec.ofNat 64 (n / 16)
               fareRep := v.fareRep + BitVec.ofNat 64 (r / 16) }
    if (s2.vf vf).fareBal.toInt ≤ 0 && !(s2.vf vf).exhausted then
      (s2.updVf vf fun v => { v with exhausted := true }).requestVf vf 6
    else s2

/-- Abort a team (R254): causes of R247. Fares of the dispatch count as replay fares and are posted (R383);
the lease goes (R299). -/
def State.abortTeam (s0 : State) (tk cause : Nat) : State :=
  let s := s0.settleCmds tk
  let t := s.team tk
  let vf := (s.launch (lidOf tk)).vf
  let s1 := (s.evictTeam tk).updTeam tk fun t => t.aborted cause
  let s2 := s1.updCore t.core fun c =>
    { c with meterRep := c.meterRep.put vf (c.meterRep.get 0 vf + t.fare) }
  let s3 := s2.updLaunch (lidOf tk) fun l => { l with requeue := l.requeue ++ [t.t] }
  (s3.postMeter t.core vf).adopt (clusterOf t.core)

/-- A machine check on a role (R337): an open transaction before its commit point aborts and replays, and the record is
still written; otherwise the role is stopped. `lanes` are the lanes it concerns (R339). -/
def State.machineCheck (s : State) (rk : Nat) (lane : Bool) (sub va pa lanes : Nat) : State :=
  if (s.team (teamOf rk)).abortable then
    (s.addRec (s.vfOf rk) (s.roleInfo rk lane .mcheck sub va pa lanes false) none).abortTeam (teamOf rk) 4
  else s.raise rk lane .mcheck sub va pa lanes

/-- A machine check on several roles of a team at the words they are at: a transaction aborts once, and each writes its
record (R238, R337). -/
def State.machineChecks (s : State) (rks : List Nat) (sub va pa lanes : Nat) : State :=
  match rks with
  | [] => s
  | rk :: _ =>
    if (s.team (teamOf rk)).abortable then
      (rks.foldl (fun t k => t.addRec (t.vfOf k) (t.roleInfo k true .mcheck sub va pa lanes false) none) s).abortTeam
        (teamOf rk) 4
    else rks.foldl (fun t k => t.raise k true .mcheck sub va pa lanes) s

/-- What a record of a word in flight says: the PC is its own (R134, R339). -/
def State.headInfo (s : State) (rk : Nat) (e : LogEntry) (c : Code) (sub va pa lanes : Nat) : RecInfo :=
  { s.roleInfo rk true c sub va pa lanes e.logged with pc := e.pc }

/-- A fault of the first word in flight of a role, which waits for the answer (R134, R222). -/
def State.headFault (s : State) (rk : Nat) (e : LogEntry) (c : Code) (sub va pa lanes : Nat) : State :=
  let id := s.nextRec % 2 ^ 32
  (s.addRec (s.vfOf rk) (s.headInfo rk e c sub va pa lanes) (some rk)).updRole rk fun r =>
    { r with stopped := some id, flight := { e with recid := some id } :: r.flight.tail }

/-- A machine check at the first word in flight (R134, R337, R339). -/
def State.headCheck (s : State) (rk : Nat) (e : LogEntry) (sub va pa lanes : Nat) : State :=
  if (s.team (teamOf rk)).abortable then
    (s.addRec (s.vfOf rk) (s.headInfo rk e .mcheck sub va pa lanes) none).abortTeam (teamOf rk) 4
  else s.headFault rk e .mcheck sub va pa lanes

/-! ## User traps -/

/-- A register byte key. -/
def rkey (lane b : Nat) : Nat := 1024 * lane + b

/-- Does an area hold a byte of a lane? -/
def Rect.has (x : Rect) (lane b : Nat) : Bool :=
  lane / 32 == x.group && (x.parity == 0 || lane % 2 + 1 == x.parity)
    && (List.range x.rows).any fun r => decide (x.base + r * x.stride ≤ b) && decide (b < x.base + r * x.stride + x.len)

/-- What a write of one byte means for an LX word's watch (R157, R237). -/
def Watch.note (w : Watch) (lane b : Nat) : Watch :=
  { w with
    hit := w.hit || w.reads.any fun x => x.has lane b
    mixed := if w.pending && w.dst.any fun x => x.has lane b then rkey lane b :: w.mixed else w.mixed }

/-- Bad words that a result does not write whole (R58). -/
def Pend.spoilt (p : Pend) (bad : NMap Bool) : NMap Bool :=
  bad.filter fun e => !((rangeFrom (4 * e.1) 4).all p.dest.has)

/-- What a write of one byte means for a class L result before its marker (R157). -/
def Pend.note (p : Pend) (k : Nat) : Pend := if p.dest.has k then { p with mixed := k :: p.mixed } else p

/-- The bytes a returning result writes: those that no other word has written since; which value the others keep is
settled at the marker (R157). -/
def Pend.fresh (p : Pend) : NMap Byte := p.dest.filter fun e => !p.mixed.contains e.1

/-- A result returns (R96, R157): its bytes are written, and stay unspecified until the next marker. A byte that is also
another result's counts as written by both, and a byte of an LX word's A or result is noted there (R237). -/
def Lanes.deliver (l : Lanes) (p : Pend) : Lanes :=
  { l with
    regs := p.fresh.foldl (fun m e => m.set 0 e.1 e.2) l.regs
    bad := p.spoilt l.bad
    pend := l.pend.map fun q => p.dest.foldl (fun q e => q.note e.1) q
    back := (l.back.map fun q => p.dest.foldl (fun q e => q.note e.1) q) ++ [p]
    watch := p.dest.foldl (fun ws e => ws.map fun w => w.note (e.1 / 1024) (e.1 % 1024)) l.watch }

/-- Every outstanding class L result that is ready returns (R155). -/
def Lanes.deliverAll (l : Lanes) : Lanes :=
  (l.pend.filter Pend.ready).foldl Lanes.deliver { l with pend := l.pend.filter fun p => !p.ready }

/-- ACTIVE of TRAPCAUSE (R199). -/
def Role.trapActive (r : Role) : Bool := bitOf r.trapCause.toNat 31

/-- A 64-bit free value (log 2). -/
def freeWord (free key : Nat) : W64 :=
  BitVec.ofNat 64 (leNat ((rangeFrom (8 * key) 8).map (Config.freeByte free)))

/-- The lane resume word of a trap: the word the lane stream is at; with no block queued there is no
such word, and the value is free (log 2). -/
def Role.resumeWord (r : Role) (free : Nat) : W64 :=
  match r.blocks with
  | [] => freeWord free 0
  | _ => BitVec.ofNat 64 r.laneIndex

/-- TRAPCAUSE on entry (R199). -/
def trapCauseWord (cause code : Nat) (lane : Bool) : W64 :=
  BitVec.ofNat 64 (2 ^ 31 + code * 2 ^ 16 + b2n lane * 16 + cause)

/-- The address of TRAPENTRY (R89, R90). -/
def Launch.trapAddr (l : Launch) : W64 := BitVec.ofNat 64 (l.khdr + 64 + 4 * l.trapEntry)

/-- May the trap enter the handler (R91, R199)? Causes 1 and 2 also need RESCALE or TOPTRAP of the
header. -/
def Launch.trapOpen (l : Launch) (cause : Nat) : Bool :=
  l.trapEntry != 0xFFFFFFFF && (cause != 1 || bitOf l.hflags 1) && (cause != 2 || bitOf l.hflags 0)

/-- The role as the handler starts (R199). -/
def Role.trapped (r : Role) (entry resume : W64) (cause code : Nat) (lane : Bool) (free : Nat) : Role :=
  { r with
    trapPc := resume, trapLpc := r.resumeWord free, trapCause := trapCauseWord cause code lane
    aside := some ⟨r.blocks, r.lanePc, r.msets, r.lpark == .marker, r.laneSeq, r.pc, r.popped, r.waita⟩, blocks := []
    lanePc := 0, msets := [], lanes := r.lanes.deliverAll, pc := entry, popped := none, waita := none, spark := .none
    lpark := .none }

/-- Entries of the write log that an LX word in an open transaction reserves (R241). -/
def State.lxReserve (s : State) (w : LxWord) : Nat :=
  match w.word with
  | .vaccrd _ _ _ _ _ true _ => if s.inTx (teamOf w.rk) then 2048 else 0
  | _ => 0

/-- The roles that perform a word together, ascending. -/
def LxWord.team (w : LxWord) : List Nat :=
  if lxGang w.word then w.members.map (roleKey (teamOf w.rk)) else [w.rk]

/-- The word of a role that stands at a rendezvous of the same member set. -/
def State.heldWord (s : State) (rk : Nat) (members : List Nat) : Option LxWord :=
  match (s.role rk).hold with
  | some w => if lxGang w.word && w.members == members then some w else none
  | none => none

/-- The number of a member set. -/
def LxWord.setKey (w : LxWord) : Nat := w.members.foldl (fun n j => n + 2 ^ j) 0

/-- A role's word has joined, or a join is undone: its gang words of the set are counted (R164). -/
def Role.join (r : Role) (on : Bool) : Role :=
  match r.hold with
  | none => r
  | some w =>
    let n := r.gangSeen.get 0 w.setKey
    let p : Park := if on then .lxHold else .rendezvous
    { r with
      hold := some { w with joined := on }, gangSeen := r.gangSeen.set 0 w.setKey (if on then n + 1 else n - 1)
      lpark := match r.lpark with | .page id => .page id | _ => p }

/-- A joined word that one of its members leaves is no longer joined: the others wait at the rendezvous again (R164,
R165). -/
def State.unjoin (s : State) (w : LxWord) : State :=
  if w.joined then (w.team.filter fun k => (s.heldWord k w.members).isSome).foldl (fun t k => t.updRole k fun r => r.join false) s
  else s

/-- The word in the hold is no longer watched: it counts as not issued (R165, R237). -/
def Lanes.unissue (l : Lanes) : Lanes := { l with watch := l.watch.filter fun w => w.id != 0 }

/-- A word in the hold goes back to the lane stream: it counts as not issued (R165). -/
def State.unhold (s : State) (rk : Nat) : State :=
  match (s.role rk).hold with
  | none => s
  | some w =>
    ((s.unjoin w).updTeam (teamOf rk) fun t => { t with reserved := t.reserved - s.lxReserve w }).updRole rk fun r =>
      { r with hold := none, lpark := .none, lanes := r.lanes.unissue }

/-- Take a user trap (R199): CAUSE, CODE and LANE, and the scalar address to resume at. With no
handler, or inside one, it is an unhandled user trap: a UTRAP record, and the role stops. -/
def State.userTrap (s : State) (rk : Nat) (cause code : Nat) (lane : Bool) (resume : W64) : State :=
  let l := s.launchOf rk
  if l.trapOpen cause && !(s.role rk).trapActive then
    { (s.unhold rk).updRole rk (fun r => r.trapped l.trapAddr resume cause code lane s.free) with free := s.free + 1 }
  else (s.raise rk lane .utrap cause 0 0 0).updRole rk fun r => { r with pc := resume }

/-! ## Queue registers -/

/-- Entries a queue instance holds: 16 and 8,192 in its overflow area (R183, R185). -/
def queueCap : Nat := 16 + 8192

/-- An engine queue of a role. -/
def Role.eng (r : Role) (q : Nat) : EngQ := r.engs.get EngQ.empty q

/-- Change an engine queue. -/
def Role.updEng (r : Role) (q : Nat) (f : EngQ → EngQ) : Role :=
  { r with engs := r.engs.put q (f (r.eng q)) }

/-- A channel or `q14` of a team. -/
def Team.chan (t : Team) (q : Nat) : List W64 := t.chans.get [] q

/-- The use of a queue register as an operand is ILLEGAL (R183); a push to `q4` or `q5` needs its feature (R392). -/
def State.queueIllegal (s : State) (rk q : Nat) (push : Bool) : Bool :=
  let l := s.launchOf rk
  if push && ((q == 4 && !s.accept.getLsbD 5) || (q == 5 && !s.accept.getLsbD 4)) then true
  else if q = 6 ∨ q = 7 then true
  else if 8 ≤ q ∧ q ≤ 13 then
    !(l.chanUsed q) || roleIdx rk != (if push then l.chanSrc q else l.chanDst q)
  else q == 15 && push

/-- What a pop sees: the entries in order. -/
def State.queueOf (s : State) (rk q : Nat) : List W64 :=
  if q ≤ 5 then ((s.role rk).eng q).done
  else if q = 15 then (s.role rk).q15
  else (s.team (teamOf rk)).chan q

/-- STATUS of a completion word (R266). -/
def complStatus (w : W64) : Nat := fieldOf w.toNat 40 8

/-- Take the head of a queue; the pop of a failing completion lets the queue go on (R81, R266). -/
def State.popHead (s : State) (rk q : Nat) : State :=
  if q ≤ 5 then
    s.updRole rk fun r => r.updEng q fun e =>
      { e with
        done := e.done.tail
        stopped := match e.done with
          | w :: _ => if complStatus w = 0 ∨ complStatus w = 2 then e.stopped else false
          | [] => e.stopped }
  else if q = 15 then s.updRole rk fun r => { r with q15 := r.q15.tail }
  else s.updTeam (teamOf rk) fun t => { t with chans := t.chans.put q (t.chan q).tail }

/-- The command words of a queue that the write log holds (R251). -/
def loggedWords (log : List WEntry) (idx q : Nat) : List W64 :=
  log.filterMap fun e =>
    match e.kind with
    | .command q' _ => if q' = q ∧ e.role = idx then some (BitVec.ofNat 64 e.data) else none
    | _ => none

/-- Why a pop cannot be made now. -/
inductive PopBlock where
  | wait
  | chanEnd
  | txIllegal
  deriving DecidableEq, Repr

/-- What an empty queue means for a pop: CHANEND when the channel's source has finished (R169),
TXILLEGAL when it would wait for a logged command (R249), else a park (R185). -/
def State.popBlock (s : State) (rk q : Nat) : PopBlock :=
  let tk := teamOf rk
  if 8 ≤ q ∧ q ≤ 13 then
    (if (s.role (roleKey tk ((s.launchOf rk).chanSrc q))).finished then .chanEnd else .wait)
  else if q ≤ 5 then
    let e := (s.role rk).eng q
    if s.inTx tk && e.todo.isEmpty && e.run.isNone && !(loggedWords (s.team tk).log (roleIdx rk) q).isEmpty
    then .txIllegal else .wait
  else .wait

/-- The entries a push to a queue has to find room behind: commands pushed for `q0` to `q5`, entries
for the others. -/
def State.queueLoad (s : State) (rk q : Nat) : Nat :=
  if q ≤ 5 then ((s.role rk).eng q).todo.length
  else if q = 15 then (s.role rk).q15.length
  else ((s.team (teamOf rk)).chan q).length

/-- The start of a queue instance's overflow area (R185, R372). -/
def State.overflowAt (s : State) (rk q : Nat) : Nat :=
  let l := s.launchOf rk
  l.ctxAt (s.team (teamOf rk)).t + l.saveSize + l.backSize + l.wsSize + 65536 * (if 8 ≤ q ∧ q ≤ 14 then q - 8
    else if q = 15 then 14 + 8 * roleIdx rk else 7 + 8 * roleIdx rk + q)

/-- Why a push cannot be made now (R185): the overflow area is full, or its page does not translate. -/
inductive PushBlock where
  | room
  | full
  | page (sub va ia : Nat)
  deriving DecidableEq, Repr

/-- Can a push be made (R185)? -/
def State.pushBlock (s : State) (rk q : Nat) : PushBlock :=
  let n := s.queueLoad rk q
  if n < 16 then .room
  else if queueCap ≤ n then .full
  else
    let va := s.overflowAt rk q + 8 * (n - 16)
    match s.xlat (s.vfOf rk) va 8 true with
    | .page sub ia => .page sub va ia
    | _ => .room

/-- Words that a list of command words still lacks to be whole commands; 0 when the next word is a
header (R264). `fuel` bounds the number of commands. -/
def missingWords (q : Nat) : Nat → List W64 → Nat
  | 0, _ => 0
  | _, [] => 0
  | f + 1, h :: t =>
    let n := cmdLen q h
    if (h :: t).length < n then n - (h :: t).length else missingWords q f ((h :: t).drop n)

/-- The command words among queue entries. -/
def entryWords (es : List QEntry) : List W64 :=
  es.filterMap fun e => match e with | .word w _ _ _ => some w | .fence _ _ _ => none

/-- The first `n` words among queue entries, and the entries left; fence entries between the words of a
command stand behind it. -/
def takeWords : Nat → List QEntry → List W64 × List QEntry
  | 0, es => ([], es)
  | _, [] => ([], [])
  | n + 1, .word w _ _ _ :: t => (w :: (takeWords n t).1, (takeWords n t).2)
  | n + 1, e :: t => ((takeWords (n + 1) t).1, e :: (takeWords (n + 1) t).2)

/-- Is the next word pushed to `q` a header? -/
def EngQ.atHeader (e : EngQ) (q : Nat) : Bool :=
  let ws := entryWords e.todo
  missingWords q (ws.length + 1) ws == 0

/-- Does the header draw a seed: a CPCV or RDST whose slot rounds stochastically (R269, R270)? -/
def Launch.drawsSeed (l : Launch) (q : Nat) (h : W64) : Bool :=
  let c := fieldOf h.toNat 60 4
  decide (q < 4) && (c == 2 || c == 3) && fieldOf (l.fslot (fieldOf h.toNat 46 3)).toNat 9 3 == 4

/-- Is a command with this header performed at once in an open transaction (R249)? -/
def atOnce (q : Nat) (h : W64) : Bool :=
  let n := h.toNat
  let c := fieldOf n 60 4
  decide (q < 4) &&
    (if c = 6 then fieldOf n 40 2 != 1
     else if c = 3 then false
     else if c = 1 ∨ c = 2 ∨ c = 4 ∨ c = 5 then fieldOf n 58 2 == 1
     else true)

/-- A completion word (R266, R353, R403). -/
def complWord (tag status done : Nat) : W64 :=
  BitVec.ofNat 64 (tag * 2 ^ 48 + status * 2 ^ 40 + done % 2 ^ 40)

/-- The whole commands at the head of queue entries, each with its words; fence entries are passed over, and go with the
commands at a discard. R81 speaks of commands only: what becomes of fence entries in a stopped queue is the model's choice
(DESIGN CHOICE, log 74). -/
def wholeCmds (q : Nat) : Nat → List QEntry → List (List W64) × List QEntry
  | 0, es => ([], es)
  | _, [] => ([], [])
  | f + 1, .fence _ _ _ :: t => wholeCmds q f t
  | f + 1, .word h sd lo hi :: t =>
    let es := QEntry.word h sd lo hi :: t
    let n := cmdLen q h
    let p := takeWords n es
    if p.1.length < n then ([], es)
    else
      let r := wholeCmds q f p.2
      (p.1 :: r.1, r.2)

/-- EV of a header pushed to `q` (R265, R351, R401). -/
def evBit (q : Nat) (h : W64) : Bool := bitOf h.toNat (if q < 4 then 42 else if q = 4 then 54 else 43)

/-- The device writes `n` bytes of a context area, whose format no rule gives: they become free values (R372, log 13). -/
def State.scribble (s : State) (vf va n : Nat) : State :=
  let f := (List.range (ceilDiv n 64)).foldl (fun t i =>
    match t.xlat vf (va + 64 * i) 64 true with
    | .ok x => t.homeWriteX x ((rangeFrom (64 * i) 64).map (Config.freeByte s.free))
    | _ => t) s
  { f with free := s.free + 1 }

/-- A push that enters an overflow area is counted (R381), and the device writes that area (R185). -/
def State.noteOverflow (s : State) (rk q : Nat) : State :=
  if s.queueLoad rk q < 16 then s
  else (s.scribble (s.vfOf rk) (s.overflowAt rk q) 65536).updVf (s.vfOf rk) fun v => { v with ovfCnt := v.ovfCnt + 1 }

/-- Append entries to `q14` of a role's team, each a push (R271, R381). -/
def State.addEvents (s : State) (rk : Nat) (ws : List W64) : State :=
  ws.foldl (fun u w => (u.noteOverflow rk 14).updTeam (teamOf rk) fun t => { t with chans := t.chans.put 14 (t.chan 14 ++ [w]) }) s

/-- The completion word of a discarded command. -/
def discardWord (ws : List W64) : W64 := complWord (fieldOf (wordAt ws 0).toNat 0 16) 2 0

/-- The queue is stopped: every whole command in it returns DISCARDED, in push order, with its copy for
`q14` (R81, R271). Words of a command that is not whole yet stay: R81 does not say what becomes of a command whose first
words come while the queue is stopped and whose last words come after it goes on; the model performs it (DESIGN CHOICE,
log 74). -/
def State.discardQ (s : State) (rk q : Nat) : State :=
  let e := (s.role rk).eng q
  let r := wholeCmds q (e.todo.length + 1) e.todo
  (s.updRole rk fun x => x.updEng q fun e =>
    { e with todo := r.2, done := e.done ++ r.1.map discardWord }).addEvents rk
      ((r.1.filter fun ws => evBit q (wordAt ws 0)).map discardWord)

/-- A failing completion stops the queue (R81, R266). -/
def State.failQ (s : State) (rk q : Nat) (w : W64) : State :=
  (s.updRole rk fun x => x.updEng q fun e =>
    { e with run := none, done := e.done ++ [w], stopped := true }).discardQ rk q

/-- The lane words that precede a push of the role in program order and may not have been performed, by their numbers: a
handler's push comes before the blocks that its trap set aside (R154, R199). -/
def Role.span (r : Role) : Nat × Nat := ((r.aside.map Aside.seq).getD 0, r.laneSeq)

/-- Push one word to an engine queue of a role, outside the write log, behind some of the role's lane words. -/
def State.pushEng (s : State) (rk q : Nat) (w : W64) (seed : W32) (sp : Nat × Nat) : State :=
  let s1 := s.updRole rk fun r => r.updEng q fun e => { e with todo := e.todo ++ [QEntry.word w seed sp.1 sp.2] }
  if ((s1.role rk).eng q).stopped then s1.discardQ rk q else s1

/-- The seed a push draws, and the role's generator after it (R269). -/
def State.seedDraw (s : State) (rk q : Nat) (header : Bool) (w : W64) : W32 × State :=
  if header && (s.launchOf rk).drawsSeed q w then
    let g := nextRandom (s.role rk).lanes.rng
    (seedOf g, s.updRole rk fun r => { r with lanes := { r.lanes with rng := g } })
  else (0, s)

/-- Does the write log take this push (R249)? -/
def State.logsPush (s : State) (rk q : Nat) (w : W64) : Bool :=
  let tk := teamOf rk
  let lw := loggedWords (s.team tk).log (roleIdx rk) q
  s.inTx tk && decide (q ≤ 5) &&
    (missingWords q (lw.length + 1) lw != 0 || (((s.role rk).eng q).atHeader q && !atOnce q w))

/-- Is the pushed word a header, in the log or in the queue? -/
def State.pushHeader (s : State) (rk q : Nat) (logged : Bool) : Bool :=
  let lw := loggedWords (s.team (teamOf rk)).log (roleIdx rk) q
  if logged then missingWords q (lw.length + 1) lw == 0 else ((s.role rk).eng q).atHeader q

/-- Push an entry to a queue register (R63, R183, R249); room has been checked. -/
def State.pushQ (s : State) (rk q : Nat) (w : W64) : State :=
  let lg := decide (q ≤ 5) && s.logsPush rk q w
  let s0 := if lg then s else s.noteOverflow rk q
  if q ≤ 5 then
    let (seed, s1) := s0.seedDraw rk q (s.pushHeader rk q lg) w
    if lg then
      s1.logAdd (teamOf rk) [⟨q, .command q seed, 8, roleIdx rk, 0, w.toNat⟩]
    else s1.pushEng rk q w seed (s.role rk).span
  else if q = 15 then s0.updRole rk fun r => { r with q15 := r.q15 ++ [w] }
  else s0.updTeam (teamOf rk) fun t => { t with chans := t.chans.put q (t.chan q ++ [w]) }

/-! ## The frame of a scalar instruction -/

/-- The value of a scalar register; `s0` reads zero (R63). -/
def Role.sreg (r : Role) (n : Nat) : W64 := if n = 0 then 0 else r.sregs.get 0 n

/-- Write a scalar register; a write to `s0` is discarded (R63). -/
def Role.setSreg (r : Role) (n : Nat) (v : W64) : Role :=
  if n = 0 then r else { r with sregs := r.sregs.set 0 n v }

/-- Reading the sources failed. -/
inductive ReadRes where
  | vals (vs : List W64) (popped : List W64) (s : State)
  | blocked (q : Nat) (b : PopBlock)
  deriving DecidableEq, Repr

/-- Read source fields in order; each queue field pops (R63). `kept` are the values that a replayed
instruction has already popped (R173). -/
def State.readFields (s : State) (rk : Nat) (kept : Option (List W64)) : List SReg → ReadRes
  | [] => .vals [] [] s
  | .s n :: t =>
    match s.readFields rk kept t with
    | .vals vs ps s1 => .vals ((s.role rk).sreg n.val :: vs) ps s1
    | b => b
  | .q q :: t =>
    match kept with
    | some (v :: ks) =>
      match s.readFields rk (some ks) t with
      | .vals vs ps s1 => .vals (v :: vs) (v :: ps) s1
      | b => b
    | _ =>
      match s.queueOf rk q.val with
      | [] => .blocked q.val (s.popBlock rk q.val)
      | v :: _ =>
        match (s.popHead rk q.val).readFields rk kept t with
        | .vals vs ps s1 => .vals (v :: vs) (v :: ps) s1
        | b => b

/-- Does a field name a queue register whose use is ILLEGAL (R183)? -/
def State.fieldIllegal (s : State) (rk : Nat) (push : Bool) : SReg → Bool
  | .s _ => false
  | .q q => s.queueIllegal rk q.val push

/-- The scalar stream parks on this instruction (R159). -/
def State.parkS (s : State) (rk : Nat) (p : Park) : State := s.updRole rk fun r => { r with spark := p }

/-- Write a destination field: a register, or one entry pushed (R63). -/
def State.writeField (s : State) (rk : Nat) (d : SReg) (v : W64) : State :=
  match d with
  | .s n => s.updRole rk fun r => r.setSreg n.val v
  | .q q => s.pushQ rk q.val v

/-- The instruction is complete: the PC goes on by `n` bytes. -/
def State.advance (s : State) (rk n : Nat) : State :=
  s.updRole rk fun r => { r with pc := r.pc + BitVec.ofNat 64 n, popped := none, part := [], partAt := none, spark := .none }

/-- The instruction is complete and control goes elsewhere. -/
def State.jumpTo (s : State) (rk : Nat) (pc : W64) : State :=
  s.updRole rk fun r => { r with pc := pc, popped := none, spark := .none }

/-- Keep the popped values until the instruction completes (R173). -/
def State.keepPopped (s : State) (rk : Nat) (ps : List W64) : State :=
  if ps.isEmpty then s else s.updRole rk fun r => { r with popped := some ps }

/-- Can the destination be pushed to, if it is a queue register (R185)? -/
def State.dstBlock (s : State) (rk : Nat) : Option SReg → PushBlock
  | some (.q q) => s.pushBlock rk q.val
  | _ => .room

/-- Is the use of one of the fields as an operand ILLEGAL (R61, R183)? -/
def State.opIllegal (s : State) (rk : Nat) (srcs : List SReg) (dst : Option SReg) : Bool :=
  srcs.any (s.fieldIllegal rk false) || dst.toList.any (s.fieldIllegal rk true)

/-- The frame of a scalar instruction: the queue checks of R183, room for the push (R185), the source
fields read in order (R63), and then its effect. -/
def scalarOp (s : State) (srcs : List SReg) (dst : Option SReg)
    (k : Nat → List W64 → State → Res) : Res :=
  match s.cur with
  | .scalar rk =>
    if s.opIllegal rk srcs dst then .next (s.raiseS rk .illegal 0)
    else match s.readFields rk (s.role rk).popped srcs with
      | .blocked _ .chanEnd => .next (s.raiseS rk .chanend 0)
      | .blocked _ .txIllegal => .next (s.raiseS rk .txillegal 0)
      | .blocked q .wait => .next (s.parkS rk (.popQ q))
      | .vals vs ps s1 =>
        match s1.dstBlock rk dst with
        | .full => .next (s.parkS rk (.pushQ (match dst with | some (.q q) => q.val | _ => 0)))
        | .page sub va ia =>
          .next (((s1.keepPopped rk ps).raise rk false .page sub va ia 0).parkS rk (.page (some (s.nextRec % 2 ^ 32))))
        | .room => k rk vs (s1.keepPopped rk ps)
  | _ => .fault .wrongAgent

/-- The result is a command word for the write log, which has no room for it (R251). -/
def State.logLacks (s : State) (rk : Nat) (d : SReg) (v : W64) : Bool :=
  match d with
  | .q q => decide (q.val ≤ 5) && s.logsPush rk q.val v && !s.logRoom (teamOf rk) 1
  | .s _ => false

/-- The page of the write set that a command word for the write log still lacks (R215). -/
def State.pushLack (s : State) (rk : Nat) (d : SReg) (v : W64) : Option Nat :=
  match d with
  | .q q => if q.val ≤ 5 && s.logsPush rk q.val v then s.wsLack (teamOf rk) 1 else none
  | .s _ => none

/-- The scalar stream waits for a page that the pager serves (R173, R206). -/
def State.parkPage (s : State) (rk vpn : Nat) : State :=
  (s.startService (teamOf rk) vpn (some (.scalar rk))).parkS rk (.page none)

/-- The result is a command word that depends on lane words before it (R154): one that draws a seed waits for those that
draw (R269), and one for the write log, which is in program order, for those that make accesses (R251). -/
def State.pushWaits (s : State) (rk : Nat) (d : SReg) (v : W64) : Bool :=
  match d with
  | .q q =>
    let lg := decide (q.val ≤ 5) && s.logsPush rk q.val v
    (lg && s.orderWait rk)
      || (s.pushHeader rk q.val lg && (s.launchOf rk).drawsSeed q.val v && s.drawWait rk)
  | .s _ => false

/-- Nothing keeps the result from its destination: it waits for no lane word (R154), and the write log has room and the
pages for it (R215, R251). -/
def State.takes (s : State) (rk : Nat) (d : SReg) (v : W64) : Bool :=
  !s.pushWaits rk d v && !s.logLacks rk d v && (s.pushLack rk d v).isNone

/-- The result goes to the destination, and the stream goes on; a word that the write log lacks room for is TXCAP
(R251), and one that needs a page of the write set waits for it (R215). -/
def State.finish (s : State) (rk : Nat) (d : SReg) (v : W64) : State :=
  if s.pushWaits rk d v then s.parkS rk .order
  else if s.logLacks rk d v then s.raiseS rk .txcap 0
  else match s.pushLack rk d v with
  | some p => s.parkPage rk p
  | none => (s.writeField rk d v).advance rk 4

/-- Source `i` of a list of values. -/
def src (vs : List W64) (i : Nat) : W64 := vs.getD i 0

/-- A two-source register instruction (R175). -/
def alu2 (s : State) (d a b : SReg) (f : W64 → W64 → W64) : Res :=
  scalarOp s [a, b] (some d) fun rk vs s => .next (s.finish rk d (f (src vs 0) (src vs 1)))

/-- A one-source register instruction (R175, R177). -/
def alu1 (s : State) (d a : SReg) (f : W64 → W64) : Res :=
  scalarOp s [a] (some d) fun rk vs s => .next (s.finish rk d (f (src vs 0)))

/-- ILLEGAL on the scalar stream at issue. -/
def illegalS (s : State) (rk : Nat) : Res := .next (s.raiseS rk .illegal 0)

/-- TXILLEGAL on the scalar stream. -/
def txIllegalS (s : State) (rk : Nat) : Res := .next (s.raiseS rk .txillegal 0)

end Sys2Proof.Machine
end

