-- ==== Sys2Proof/Machine/Operands.lean ====
section
/-! DEFINITION. Every operand form of a lane word: registers and views of the lane register space
(R42 to R50), the operand latch (R54 to R56), snapshots, special values and immediates (R74, R98,
R151), active lanes and issued passes (R124, R125), and the writing of results (R45, R157). -/

namespace Sys2Proof.Machine
open Sys2Proof

/-! ## Views -/

/-- Fields of a view register (R46). -/
def viewKind (v : W64) : Nat := fieldOf v.toNat 62 2

/-- PLACE. -/
def viewPlace (v : W64) : Nat := fieldOf v.toNat 60 2

/-- EFMT, if it is an assigned code. -/
def viewFmt (v : W64) : Option Fmt := fmtOfCode (fieldOf v.toNat 56 4)

/-- The width in bits of a view's elements; 0 for an unassigned code. -/
def viewBits (v : W64) : Nat := match viewFmt v with | some f => fmtWidth f | none => 0

/-- GRP. -/
def viewGrp (v : W64) : Nat := fieldOf v.toNat 51 5

/-- BASE. -/
def viewBase (v : W64) : Nat := fieldOf v.toNat 41 10

/-- ROWS and COLS (R46). -/
def viewRows (v : W64) : Nat := fieldOf v.toNat 36 5 + 1

/-- See `viewRows`. -/
def viewCols (v : W64) : Nat := fieldOf v.toNat 26 10 + 1

/-- STRIDE. -/
def viewStride (v : W64) : Nat := fieldOf v.toNat 16 10

/-- Bytes of a lane that the view occupies (R47). -/
def viewFoot (v : W64) : Nat :=
  match viewKind v with
  | 1 => (viewRows v - 1) * viewStride v + viewCols v * viewBits v / 8
  | 2 => viewCols v / 2 * viewBits v / 8
  | _ => 15 * viewStride v + 16

/-- A tile's element formats (R47). -/
def tileFmt : Option Fmt → Bool
  | some .e2m1 => true | some .e4m3 => true | some .e5m2 => true | some .bf16 => true
  | some .f16 => true
  | _ => false

/-- The validity of a view value for a role of `groups` groups and `b` bytes per lane (R47). -/
def viewValid (v : W64) (groups b : Nat) : Bool :=
  let row := viewCols v * viewBits v / 8
  let common := viewBase v % 4 == 0 && viewStride v % 4 == 0 && (viewFmt v).isSome
    && v.toNat % 2 ^ 16 == 0 && decide (viewBase v + viewFoot v ≤ b)
  common && (match viewKind v, viewPlace v with
    | 1, 0 => viewGrp v == 0 && viewCols v * viewBits v % 32 == 0
        && (viewRows v == 1 || decide (row ≤ viewStride v))
    | 2, 1 => tileFmt (viewFmt v) && viewRows v == 16 && viewCols v % 32 == 0
        && decide (viewCols v ≤ 256) && viewStride v == 0 && decide (viewGrp v < groups)
    | 3, 2 => viewFmt v == some .f32 && viewRows v == 16 && viewCols v == 128
        && decide (16 ≤ viewStride v) && decide (viewGrp v < groups)
    | _, _ => false)

/-- Blocks per row of a view (R49). -/
def viewBpr (v : W64) : Nat :=
  match viewPlace v with
  | 0 => viewCols v * viewBits v / 32
  | 1 => viewCols v / 2 * viewBits v / 32
  | _ => 4

/-- Element blocks of a view (R49). -/
def viewBlocks (v : W64) : Nat :=
  match viewPlace v with
  | 0 => viewRows v * viewBpr v
  | 1 => viewBpr v
  | _ => 64

/-- The first byte of block `n` (R49). -/
def viewByte (v : W64) (n : Nat) : Nat :=
  match viewPlace v with
  | 1 => viewBase v + 4 * n
  | _ => viewBase v + n / viewBpr v * viewStride v + n % viewBpr v * 4

/-- Blocks `n` to `n + k - 1` exist and lie in one row (R49, R50, R131). -/
def viewHas (v : W64) (n k : Nat) : Bool :=
  viewKind v != 0 && decide (n + k ≤ viewBlocks v) && n / viewBpr v == (n + k - 1) / viewBpr v

/-! ## The context of a lane word -/

/-- What a lane word reads besides the lanes: snapshot, views and special values (R46, R74, R151,
R153), whether it runs in a depot row (R355), and the counter of free values. -/
structure LaneCx where
  snap : List W64
  views : List W64
  role : Nat
  team : Nat
  core : Nat
  clus : Nat
  die : Nat
  row : Bool
  free : Nat
  deriving DecidableEq, Repr

/-- Is the byte unspecified: part of a result that is outstanding, or has returned since the last marker (R96, R157,
R237)? -/
def Lanes.unspec (l : Lanes) (lane b : Nat) : Bool :=
  (l.pend.any fun p => p.dest.has (rkey lane b)) || (l.back.any fun p => p.dest.has (rkey lane b))
    || l.watch.any fun w => w.dst.any fun x => x.has lane b

/-- A register byte. -/
def Lanes.byte (l : Lanes) (free lane b : Nat) : Byte :=
  if l.unspec lane b then Config.freeByte free (rkey lane b) else l.regs.get 0 (rkey lane b)

/-- `n` register bytes as a number (R44). -/
def Lanes.bytes (l : Lanes) (free lane b n : Nat) : Nat :=
  leNat ((rangeFrom b n).map (l.byte free lane))

/-- Write one register byte; inside a result of before the marker it is remembered for the marker (R157). -/
def Lanes.putByte (l : Lanes) (lane b : Nat) (v : Byte) : Lanes :=
  let k := rkey lane b
  { l with
    regs := l.regs.set 0 k v
    pend := l.pend.map fun p => p.note k
    back := l.back.map fun p => p.note k
    watch := l.watch.map fun w => w.note lane b }

/-- The keys of an area. -/
def Rect.keys (x : Rect) : List Nat :=
  (rangeFrom (32 * x.group) 32).flatMap fun lane =>
    if x.parity = 0 ∨ lane % 2 + 1 = x.parity then
      (List.range x.rows).flatMap fun r => (rangeFrom (x.base + r * x.stride) x.len).map (rkey lane)
    else []

/-- Bytes that another word has written too keep the one value or the other (R157); `i` tells the results apart. -/
def Pend.settle (p : Pend) (free i : Nat) (m : NMap Byte) : NMap Byte :=
  p.dest.foldl (fun m e =>
    if p.mixed.contains e.1 && Config.freeBit free (2 ^ 20 * i + e.1) then m.set 0 e.1 e.2 else m) m

/-- The role passes a marker: every byte of a result keeps a value, by R157 where another word has written it, and a free
one where R237 leaves it unspecified. -/
def Lanes.passMarker (l : Lanes) (free : Nat) : Lanes :=
  { l with
    regs := (l.watch.filter Watch.hit).foldl (fun m w =>
      (w.dst.flatMap Rect.keys).foldl (fun m k => m.set 0 k (Config.freeByte free k)) m)
      (l.back.zipIdx.foldl (fun m e => e.1.settle free e.2 m) l.regs)
    back := []
    watch := l.watch.filter Watch.pending }

/-- The register words that `n` bytes from byte `b` of a lane lie in (R57). -/
def wordsAt (lane b n : Nat) : List Nat :=
  rangeFrom (256 * lane + b / 4) (if n = 0 then 0 else (b + n - 1) / 4 - b / 4 + 1)

/-- Words that are written whole get good parity (R57, R58). -/
def Lanes.goodWords (l : Lanes) (ws : List Nat) : Lanes :=
  { l with bad := l.bad.filter fun e => !ws.contains e.1 }

/-- Write `n` register bytes (R45). -/
def Lanes.put (l : Lanes) (lane b n v : Nat) : Lanes :=
  let m := ((rangeFrom b n).zip (leBytes n v)).foldl (fun l e => l.putByte lane e.1 e.2) l
  if n % 4 = 0 then m.goodWords (wordsAt lane b n) else m

/-- Predicate `k` of a role as a mask; `k0` reads all ones (R73, R124). -/
def Lanes.pred (l : Lanes) (k : Nat) : Mask := if k = 0 then BitVec.allOnes 1024 else l.preds.getD (k - 1) 0

/-- Predicate `k` replaced; writes to `k0` are ignored (R124). -/
def Lanes.setPred (l : Lanes) (k : Nat) (m : Mask) : Lanes :=
  if k = 0 then l else { l with preds := l.preds.set (k - 1) m }

/-- The lane slots of the role (R123). -/
def Lanes.slots (l : Lanes) : Mask := BitVec.allOnes 1024 >>> (1024 - 32 * l.groups)

/-- The predicate mask of a word (R73). -/
def Lanes.predMask (l : Lanes) (c : LaneCtl) : Mask :=
  if c.kn then ~~~l.pred c.k.toNat else l.pred c.k.toNat

/-- The active lanes of a word (R125). -/
def Lanes.active (l : Lanes) (c : LaneCtl) : Mask := l.base &&& l.e &&& l.predMask c &&& l.slots

/-- The pass of a group is issued (R125). -/
def Lanes.issued (l : Lanes) (g : Nat) : Bool := (l.base &&& l.e).extractLsb' (32 * g) 32 != 0

/-- The groups whose passes are issued, ascending (R125, R154). -/
def Lanes.passes (l : Lanes) : List Nat := (List.range l.groups).filter l.issued

/-- The lanes of a mask among the role's slots, ascending. -/
def Lanes.list (l : Lanes) (m : Mask) : List Nat :=
  (List.range (32 * l.groups)).filter fun i => m.getLsbD i

/-- A mask of the lanes that satisfy a test. -/
def maskOf (ls : List Nat) : Mask := BitVec.ofNat 1024 (ls.foldl (fun n i => n + 2 ^ i) 0)

/-! ## Operands -/

/-- How wide an operand is, and how a 32-bit immediate becomes 64 bits wide (R98). -/
inductive OpW where
  | w32
  | s64
  | n64
  deriving DecidableEq, Repr

/-- Bytes of an operand. -/
def OpW.bytes : OpW → Nat
  | .w32 => 4 | .s64 => 8 | .n64 => 8

/-- The operand width of an integer type (R98, R99). -/
def ityW : ITy → OpW
  | .i32 => .w32 | .n32 => .w32 | .i64 => .s64 | .n64 => .n64

/-- The operand width of a form whose IT is 0 or 2 (R98), and of the 64-bit moves and shuffles, which have no IT: an
immediate there is sign-extended (DESIGN CHOICE, log 35). -/
def bitsW (w64 : Bool) : OpW := if w64 then .s64 else .w32

/-- The first register byte an operand names, when it names bytes of the lane (R44, R49). -/
def opStart (o : Opnd) (cx : LaneCx) : Option Nat :=
  match o with
  | .v n => some (4 * n.toNat)
  | .w v n => some (viewByte (cx.views.getD v.toNat 0) n.toNat)
  | _ => none

/-- An operand of `n` bytes names no absent resource (R44, R50, R56, R131). Registers of 8 bytes are
even, of 16 bytes a multiple of 4. -/
def opPresent (o : Opnd) (cx : LaneCx) (l : Lanes) (n : Nat) : Bool :=
  match o with
  | .v r => decide (4 * r.toNat + Nat.max n 4 ≤ l.budget) && r.toNat % (Nat.max n 4 / 4) == 0
  | .w v b => viewHas (cx.views.getD v.toNat 0) b.toNat (Nat.max n 4 / 4)
  | .latch i => (l.latches.getD i.val none).isSome
  | _ => true

/-- A 32-bit immediate at an operand width (R98). -/
def extImm (w : OpW) (i : W32) : Nat :=
  match w with
  | .w32 => i.toNat
  | .s64 => (i.signExtend 64).toNat
  | .n64 => i.toNat

/-- The value of an operand in a lane (R74, R98, R151). -/
def opVal (o : Opnd) (cx : LaneCx) (l : Lanes) (w : OpW) (lane : Nat) : Nat :=
  let cut (n : Nat) := n % 2 ^ (8 * w.bytes)
  match o with
  | .v r => l.bytes cx.free lane (4 * r.toNat) w.bytes
  | .w v b => l.bytes cx.free lane (viewByte (cx.views.getD v.toNat 0) b.toNat) w.bytes
  | .snap n => cut (cx.snap.getD n.toNat 0).toNat
  | .latch i =>
    match l.latches.getD i.val none with
    | some e => cut (e.vals.get 0 lane).toNat
    | none => 0
  | .spec .lid => lane
  | .spec .grp => if cx.row then 0 else lane / 32
  | .spec .role => cx.role
  | .spec .team => cx.team
  | .spec .core => cx.core
  | .spec .clus => cx.clus
  | .spec .die => cx.die
  | .imm i => extImm w (i.signExtend 32)

/-- Write the destination operand in a lane (R45). -/
def opWrite (o : Opnd) (cx : LaneCx) (l : Lanes) (lane n v : Nat) : Lanes :=
  match opStart o cx with
  | some b => l.put lane b n v
  | none => l

/-! ## The operand latch -/

/-- The lowest free latch entry (R54). -/
def Lanes.freeLatch (l : Lanes) : Option Nat :=
  (findIdxFrom (fun e => e.isNone) 0 l.latches).map Prod.fst

/-- One word goes by (R55). -/
def ageLatch : Option Latch → Option Latch
  | none => none
  | some e => if e.left ≤ 1 then none else some { e with left := e.left - 1 }

/-- Latch entries after a word; a switch marker frees them all (R55, R156). -/
def Lanes.endWord (l : Lanes) (sw : Bool) : Lanes :=
  { l with latches := if sw then [none, none, none] else l.latches.map ageLatch }

/-! ## Format slots -/

/-- A format slot by its fields (R22); a slot of an accepted launch is valid (R24). -/
def slotOf (w : W64) : Slot :=
  let n := w.toNat
  { efmt := (fmtOfCode (fieldOf n 0 4)).getD .f32
    sfmt := fieldOf n 4 2
    geom := fieldOf n 6 2
    src := bitOf n 8
    rnd := (rndOfCode (fieldOf n 9 3)).getD .rne
    sat := bitOf n 12
    margin := toSigned 8 (fieldOf n 16 8)
    wbidx := fieldOf n 32 32 }

/-- A slot is valid (R24). -/
def slotValid (w : W64) : Bool :=
  let n := w.toNat
  match fmtOfCode (fieldOf n 0 4), rndOfCode (fieldOf n 9 3) with
  | some e, some r =>
    let s := slotOf w
    decide (s.sfmt < 3) && fieldOf n 24 8 == 0 && fieldOf n 13 3 == 0
      && (s.sfmt == 0) == (s.geom == 0 && !s.src)
      && (s.geom != 1 || (decide (e = .e2m1 ∨ e = .e4m3 ∨ e = .e5m2) && s.sfmt == 1))
      && (decide (s.geom < 2) || (decide (e = .e4m3 ∨ e = .e5m2) && s.sfmt == 2 && !s.src))
      && (!s.src || (s.geom == 0 && s.sfmt == 2 && (fmtFF e).isSome))
      && ((fmtFF e).isSome || s.sfmt == 0)
      && (decide (r ≠ .stoch) || e.stochOk)
      && decide (-16 ≤ s.margin) && decide (s.margin ≤ 15)
      && (s.src || s.wbidx == 0)
  | _, _ => false

end Sys2Proof.Machine
end

