-- ==== Sys2Proof/Machine/ScalarMem.lean ====
section
/-! DEFINITION. The scalar accesses LD, ST, SLD, SST (R181) and ATOM (R68, R182, R288 to R291). -/

namespace Sys2Proof.Machine
open Sys2Proof

/-- Bytes of a load width (R70). -/
def ldBytes : LdWidth → Nat
  | .n8 => 1 | .i8 => 1 | .n16 => 2 | .i16 => 2 | .n32 => 4 | .i32 => 4 | .b64 => 8

/-- A loaded value extended by the width's signedness (R70). -/
def ldExtend (w : LdWidth) (v : Nat) : W64 :=
  match w with
  | .i8 => sext64 8 v | .i16 => sext64 16 v | .i32 => sext64 32 v
  | _ => BitVec.ofNat 64 v

/-- Bytes of a store width (R70). -/
def stBytes : StWidth → Nat
  | .n8 => 1 | .n16 => 2 | .n32 => 4 | .b64 => 8

/-- The effective address of a scalar access (R181). -/
def scalarEa (base : W64) (off : BitVec 10) : Nat := (base + off.signExtend 64).toNat

/-- A global access of a scalar instruction that cannot be performed: its fault, and a park for a page
fault (R173, R181). -/
def State.accFaultS (s : State) (rk va : Nat) : AccRes → State
  | .address => s.raiseS rk .address va
  | .remote => s.raiseS rk .remote va
  | .page sub ia => (s.raise rk false .page sub va ia 0).parkS rk (.page (some (s.nextRec % 2 ^ 32)))
  | .mcheck pa => s.machineCheck rk false (s.lostSub pa) va pa 0
  | .ok _ => s

/-- What a scratch access of a scalar instruction comes to before it is performed (R133, R181, R182,
R206, R210); `none` when it can be performed. -/
def State.scratchCheckS (s : State) (rk ea n align : Nat) (write : Bool) : Option State :=
  let tk := teamOf rk
  if !(s.role rk).part.isEmpty then none
  else if !s.legalScratch tk ea n then some (s.raiseS rk .address ea)
  else if ea % align ≠ 0 then some (s.raiseS rk .misalign ea)
  else match s.scratchFault tk ea n false with
    | some v => some (s.parkPage rk v)
    | none =>
      if s.vaultBad tk ea n write then
        some (s.machineCheck rk false (s.badAt tk ea n write).1 ea (s.badAt tk ea n write).2 0)
      else none

/-! ## Unaligned accesses, byte by byte (R135, R314) -/

/-- The bytes of an unaligned access that are performed now, when the pace stops it before its last byte (log 68). -/
def State.cut (s : State) (rk ea n : Nat) : Option Nat :=
  match s.pace with
  | none => none
  | some k => if ea % n = 0 ∨ n ≤ (s.role rk).part.length + k then none else some k

/-- The access is not performed in one step: the pace stops it, or a part of it has been performed. -/
def State.byBytes (s : State) (rk ea n : Nat) : Bool := (s.cut rk ea n).isSome || !(s.role rk).part.isEmpty

/-- Some bytes of the access have been performed, with its translation if it is a global one; the stream comes back to
it. -/
def State.partDone (s : State) (rk : Nat) (x : Option Xlat) (bs : List Byte) : State :=
  s.updRole rk fun r => { r with part := r.part ++ bs, partAt := x, spark := .order }

/-- The translation of a scalar access: made once, with its first bytes (R307, R312). -/
def State.accXlat (s : State) (rk va n : Nat) (write : Bool) : AccRes :=
  match (s.role rk).partAt with
  | some x => (match x.pas.find? s.lostPa with | some pa => .mcheck pa | none => .ok x)
  | none => s.xlat (s.vfOf rk) va n write

/-- Bytes `j` to `j + n - 1` of an access. -/
def Xlat.sub (x : Xlat) (j n : Nat) : Xlat := { x with ia := x.ia + j, pas := (x.pas.drop j).take n }

/-- A load of which a part has been performed: the bytes of now join it, and the last of them complete it. -/
def State.loadPart (s : State) (rk ea n : Nat) (x : Option Xlat) (d : SReg) (bs : List Byte) (f : Nat → W64) : State :=
  let old := (s.role rk).part
  match s.cut rk ea n with
  | some k => s.partDone rk x ((bs.drop old.length).take k)
  | none => s.finish rk d (f (leNat (old ++ bs.drop old.length)))

/-- A store of which a part has been performed: `put` writes some bytes at an offset. -/
def State.storePart (s : State) (rk ea : Nat) (x : Option Xlat) (bs : List Byte) (put : State → Nat → List Byte → State) : State :=
  let j := (s.role rk).part.length
  match s.cut rk ea bs.length with
  | some k => (put s j ((bs.drop j).take k)).partDone rk x ((bs.drop j).take k)
  | none => (put s j (bs.drop j)).advance rk 4

/-- LD (R181). -/
def execLd (d a : SReg) (w : LdWidth) (off : BitVec 10) (s : State) : Res :=
  scalarOp s [a] (some d) fun rk vs s =>
    let ea := scalarEa (src vs 0) off
    let n := ldBytes w
    if s.orderWait rk then .next (s.parkS rk .order)
    else match s.accXlat rk ea n false with
      | .ok x =>
        let v := ldExtend w (leNat (s.roleLoad (teamOf rk) ea x))
        if s.logSpoilt (teamOf rk) ea n then .next (s.machineCheck rk false 2 ea 0 0)
        else
          let s1 := s.updRole rk fun r => r.arm (linesOf x.part x.ia n)
          if s.byBytes rk ea n then .next (s1.loadPart rk ea n (some x) d (s.roleLoad (teamOf rk) ea x) (ldExtend w))
          else .next (s1.finish rk d v)
      | e => .next (s.accFaultS rk ea e)

/-- A store by a role: performed, or logged in an open transaction (R249, R417). -/
def State.globalStore (s : State) (rk va : Nat) (bs : List Byte) : AccRes × State :=
  let tk := teamOf rk
  if s.inTx tk then
    match s.toIa (s.vfOf rk) va bs.length with
    | .address => (.address, s)
    | .remote => (.remote, s)
    | .ia ia => (.ok ⟨0, ia, [], false, false⟩,
        s.logAdd tk [⟨va, .store, bs.length, roleIdx rk, 0, leNat bs⟩])
  else match s.xlat (s.vfOf rk) va bs.length true with
    | .ok x => (.ok x, s.storeX (s.holder rk) x bs)
    | e => (e, s)

/-- ST (R181, R249): sd is the data, read last. -/
def execSt (d a : SReg) (w : StWidth) (off : BitVec 10) (s : State) : Res :=
  scalarOp s [a, d] none fun rk vs s =>
    let ea := scalarEa (src vs 0) off
    let bs := leBytes (stBytes w) (src vs 1).toNat
    if s.orderWait rk then .next (s.parkS rk .order)
    else if !s.inTx (teamOf rk) && s.byBytes rk ea (stBytes w) then
      match s.accXlat rk ea (stBytes w) true with
      | .ok x =>
        if s.bulkHeld x then .next (s.parkS rk .order)
        else .next (s.storePart rk ea (some x) bs fun t j cs => t.storeX (s.holder rk) (x.sub j cs.length) cs)
      | e => .next (s.accFaultS rk ea e)
    else
      match s.globalStore rk ea bs with
      | (.ok x, s1) =>
        if s.bulkHeld x then .next (s.parkS rk .order)
        else if s.inTx (teamOf rk) && !s.logRoom (teamOf rk) 1 then .next (s.raiseS rk .txcap ea)
        else match s.wsLack (teamOf rk) 1 with
          | some p => .next (s.parkPage rk p)
          | none => .next (s1.advance rk 4)
      | (e, _) => .next (s.accFaultS rk ea e)

/-- SLD (R181). -/
def execSld (d a : SReg) (w : LdWidth) (off : BitVec 10) (s : State) : Res :=
  scalarOp s [a] (some d) fun rk vs s =>
    let ea := scalarEa (src vs 0) off
    let n := ldBytes w
    if s.orderWait rk then .next (s.parkS rk .order)
    else match s.scratchCheckS rk ea n 1 false with
      | some s1 => .next s1
      | none =>
        let v := ldExtend w (leNat (s.scratchLoad (teamOf rk) ea n))
        let s1 := s.noteScratch (teamOf rk) ea n
        if s.byBytes rk ea n then .next (s1.loadPart rk ea n none d (s.scratchLoad (teamOf rk) ea n) (ldExtend w))
        else .next (s1.finish rk d v)

/-- SST (R181). -/
def execSst (d a : SReg) (w : StWidth) (off : BitVec 10) (s : State) : Res :=
  scalarOp s [a, d] none fun rk vs s =>
    let ea := scalarEa (src vs 0) off
    let n := stBytes w
    if s.orderWait rk then .next (s.parkS rk .order)
    else match s.scratchCheckS rk ea n 1 true with
      | some s1 => .next s1
      | none =>
        let bs := leBytes n (src vs 1).toNat
        if s.byBytes rk ea n then
          .next (s.storePart rk ea none bs fun t j cs => t.scratchStore (teamOf rk) (ea + j) cs)
        else .next ((s.scratchStore (teamOf rk) ea bs).advance rk 4)

/-! ## Atomics -/

/-- The operations of ATOM by their codes (R68); VATOM uses 0 to 9 with the same meaning (R138). For a
word of `n` bits: the new value and the result, from the old value, the data and the prior sd (R182). -/
def atomFn (op n old d prior : Nat) : Nat × Nat :=
  match op with
  | 0 => ((old + d) % 2 ^ n, old)
  | 1 => (old &&& d, old)
  | 2 => (old ||| d, old)
  | 3 => (old ^^^ d, old)
  | 4 => (if toSigned n old ≤ toSigned n d then old else d, old)
  | 5 => (if toSigned n old ≤ toSigned n d then d else old, old)
  | 6 => (Nat.min old d, old)
  | 7 => (Nat.max old d, old)
  | 8 => (d, old)
  | 9 => (if old = prior then d else old, old)
  | 10 => ((old &&& (2 ^ n - 1 - prior)) ||| (d &&& prior), old)
  | 11 =>
    let c := d &&& (2 ^ n - 1 - old)
    if c = 0 then (old, 64) else (old ||| 2 ^ ctzNat c n, ctzNat c n)
  | 12 =>
    let j := d % 64
    (if !bitOf old j && decide (popcNat old n < prior) then old ||| 2 ^ j else old, old)
  | _ => (old, old)

/-- Where an atomic is performed (R288, R289): at the home when the scope allows it and the counter
predicts contention. -/
def State.atHome (s : State) (cluster scope ia : Nat) : Bool :=
  decide (4 ≤ scope) &&
    decide (2 ≤ (s.cluster cluster).predictor.get 0 ((ia / 64 ^^^ ia / 2 ^ 16) % 1024))

/-- The home slice of a byte, die included (R324). -/
def State.sliceOf (s : State) (part ia : Nat) : Nat :=
  s.regionDie part ia * 32 + (fieldOf ia 9 5 ^^^ fieldOf ia 14 5 ^^^ fieldOf ia 19 5)

/-- The source of a home atomic that no cluster sends. -/
def noCluster : Nat := 32

/-- An operation at the home joins those of its slice (R289): the rule counts the home's previous 16 operations and does not
say which operations they are; here they are the atomics performed at the home, those of engines included (DESIGN CHOICE,
log 73). -/
def State.noteHome (s : State) (cluster part ia : Nat) : State :=
  let sl := s.sliceOf part ia
  { s with homeHist := s.homeHist.put sl (((lineKey part ia, cluster) :: s.homeHist.get [] sl).take 16) }

/-- The contention predictor's counting (R289): up when an atomic in the L2 had to wait for another
cluster's lease, down when one at the home found no atomic of another cluster on its line among the
home's previous 16 operations. -/
def State.predict (s : State) (cluster part ia : Nat) (home : Bool) : State :=
  let k := (ia / 64 ^^^ ia / 2 ^ 16) % 1024
  let n := (s.cluster cluster).predictor.get 0 k
  let line := lineKey part ia
  let hist := s.homeHist.get [] (s.sliceOf part ia)
  let n' :=
    if home then (if hist.any fun e => e.1 == line && e.2 != cluster && e.2 != noCluster then n else n - 1)
    else match s.grainOwner (grainKey line) with
      | some c => if c = cluster then n else Nat.min 3 (n + 1)
      | none => n
  let s1 := s.updCluster cluster fun c => { c with predictor := c.predictor.set 0 k n' }
  if home then s1.noteHome cluster part ia else s1

/-- A global atomic write-back of a translated word, in a cache or at the home (R288). -/
def State.atomWrite (s : State) (h : Holder) (scope : Nat) (x : Xlat) (bs : List Byte) : State :=
  let home := s.atHome h.cluster scope x.ia
  let s1 := if 4 ≤ scope then s.predict h.cluster x.part x.ia home else s
  if home then s1.homeWriteX x bs else s1.storeX h x bs

/-- The lines of a role's atomic, for its next wide FENCE (R187). -/
def State.noteAtom (s : State) (rk : Nat) (x : Xlat) : State :=
  s.updRole rk fun r =>
    { r with atoms := (linesOf x.part x.ia x.pas.length).foldl (fun m l => if m.contains l then m else l :: m) r.atoms }

/-- ATOM of operation `op` (R182). -/
def atomOp (s : State) (op : Nat) (d a b : SReg) (sc : Fin 8) : Res :=
  let prior := op == 9 || op == 10 || op == 12
  let red := d == .s 0
  match s.cur with
  | .scalar rk0 =>
    if prior && red then illegalS s rk0
    else if sc.val ≠ 7 && s.inTx (teamOf rk0) && !red
        && !s.opIllegal rk0 (if prior then [a, b, d] else [a, b]) (some d) then txIllegalS s rk0
    else
      scalarOp s (if prior then [a, b, d] else [a, b]) (some d) fun rk vs s =>
        let ea := (src vs 0).toNat
        let data := (src vs 1).toNat
        let tk := teamOf rk
        if s.orderWait rk then .next (s.parkS rk .order)
        else if sc.val = 7 then
          match s.scratchCheckS rk ea 8 8 false with
          | some s1 => .next s1
          | none =>
            let old := leNat (s.scratchLoad tk ea 8)
            let r := atomFn op 64 old data (src vs 2).toNat
            .next ((if s.takes rk d (BitVec.ofNat 64 r.2) then s.scratchStore tk ea (leBytes 8 r.1) else s).finish rk d
              (BitVec.ofNat 64 r.2))
        else
          match s.toIa (s.vfOf rk) ea 8 with
          | .address => .next (s.raiseS rk .address ea)
          | .remote => .next (s.raiseS rk .remote ea)
          | .ia _ =>
            if ea % 8 ≠ 0 then .next (s.raiseS rk .misalign ea)
            else if s.inTx tk then
              if !s.logRoom tk 1 then .next (s.raiseS rk .txcap ea)
              else match s.wsLack tk 1 with
                | some p => .next (s.parkPage rk p)
                | none => .next ((s.logAdd tk [⟨ea, .atomic op, 8, roleIdx rk, 0, data⟩]).advance rk 4)
            else match s.xlat (s.vfOf rk) ea 8 true with
              | .ok x =>
                if s.bulkHeld x then .next (s.parkS rk .order) else
                let old := leNat (s.loadX x)
                let r := atomFn op 64 old data (src vs 2).toNat
                .next ((if s.takes rk d (BitVec.ofNat 64 r.2) then
                  (s.atomWrite (s.holder rk) sc.val x (leBytes 8 r.1)).noteAtom rk x else s).finish rk d (BitVec.ofNat 64 r.2))
              | e => .next (s.accFaultS rk ea e)
  | _ => .fault .wrongAgent

/-- ATOM add (R182). -/
def execAtomAdd (d a b : SReg) (sc : Fin 8) (s : State) : Res := atomOp s 0 d a b sc

/-- ATOM and (R182). -/
def execAtomAnd (d a b : SReg) (sc : Fin 8) (s : State) : Res := atomOp s 1 d a b sc

/-- ATOM or (R182). -/
def execAtomOr (d a b : SReg) (sc : Fin 8) (s : State) : Res := atomOp s 2 d a b sc

/-- ATOM xor (R182). -/
def execAtomXor (d a b : SReg) (sc : Fin 8) (s : State) : Res := atomOp s 3 d a b sc

/-- ATOM min (R182). -/
def execAtomMin (d a b : SReg) (sc : Fin 8) (s : State) : Res := atomOp s 4 d a b sc

/-- ATOM max (R182). -/
def execAtomMax (d a b : SReg) (sc : Fin 8) (s : State) : Res := atomOp s 5 d a b sc

/-- ATOM minn (R182). -/
def execAtomMinn (d a b : SReg) (sc : Fin 8) (s : State) : Res := atomOp s 6 d a b sc

/-- ATOM maxn (R182). -/
def execAtomMaxn (d a b : SReg) (sc : Fin 8) (s : State) : Res := atomOp s 7 d a b sc

/-- ATOM swap (R182). -/
def execAtomSwap (d a b : SReg) (sc : Fin 8) (s : State) : Res := atomOp s 8 d a b sc

/-- ATOM cas (R182). -/
def execAtomCas (d a b : SReg) (sc : Fin 8) (s : State) : Res := atomOp s 9 d a b sc

/-- ATOM bfim (R182, R291). -/
def execAtomBfim (d a b : SReg) (sc : Fin 8) (s : State) : Res := atomOp s 10 d a b sc

/-- ATOM ffcs (R182, R291). -/
def execAtomFfcs (d a b : SReg) (sc : Fin 8) (s : State) : Res := atomOp s 11 d a b sc

/-- ATOM plset (R182, R291). -/
def execAtomPlset (d a b : SReg) (sc : Fin 8) (s : State) : Res := atomOp s 12 d a b sc

end Sys2Proof.Machine
end

