-- ==== Sys2Proof/Machine/ScalarCtl.lean ====
section
/-! DEFINITION. Control and system instructions of the scalar stream: fences and barriers (R187 to
R189), monitored waits (R190), lane control (R191 to R193), commit and abort (R257, R260), cache
maintenance (R197), traps and the remaining forms (R199, R200). -/

namespace Sys2Proof.Machine
open Sys2Proof

/-- Run a scalar instruction without operands. -/
def scalar0 (s : State) (k : Nat → Res) : Res :=
  match s.cur with
  | .scalar rk => k rk
  | _ => .fault .wrongAgent

/-! ## Fences -/

/-- The role's atomics reach the parties of a scope (R187): from `.die` on these are the depots, which read the home
(R316, R322), so a line that still holds an atomic dirty is written back. -/
def State.reach (s : State) (rk scope : Nat) : State :=
  if scope < 4 then s
  else ((s.role rk).atoms.foldl State.writeBack s).updRole rk fun r => { r with atoms := [] }

/-- FENCE (R187): parks until the role's earlier accesses are performed and its waybill updates are made; its atomics
reach the scope. -/
def execFence (scope : Fin 7) (s : State) : Res :=
  scalar0 s fun rk =>
    if (s.role rk).flight.isEmpty && !(s.role rk).updatesPending
        && !s.laneAhead rk (fun i => touchesMem i || updatesWaybill i) then
      .next ((s.reach rk scope.val).advance rk 4)
    else .next (s.parkS rk .fence)

/-- The queues a mask names (R188). -/
def maskQueues (m : BitVec 6) : List Nat := (List.range 6).filter fun j => m.getLsbD j

/-- QFENCE (R188): one fence entry into each named queue, a push that needs the queue's feature (R392). -/
def execQfence (mask : BitVec 6) (scope : Fin 7) (s : State) : Res :=
  scalar0 s fun rk =>
    if mask = 0 ∨ ((maskQueues mask).any fun q => s.queueIllegal rk q true) = true then illegalS s rk
    else match (maskQueues mask).find? fun q => s.pushBlock rk q != .room with
      | some q =>
        match s.pushBlock rk q with
        | .page sub va ia => .next ((s.raise rk false .page sub va ia 0).parkS rk (.page (some (s.nextRec % 2 ^ 32))))
        | _ => .next (s.parkS rk (.pushQ q))
      | none =>
        let id := s.nextFence
        let add (t : State) (q : Nat) : State := (t.noteOverflow rk q).updRole rk fun r =>
          r.updEng q fun e => { e with todo := e.todo ++ [.fence id mask.toNat scope.val] }
        .next (((maskQueues mask).foldl add { s with nextFence := id + 1 }).advance rk 4)

/-! ## Barriers -/

/-- Fields of a barrier object (R189). -/
def barCount (w : Nat) : Nat := fieldOf w 0 16

/-- EXPECT. -/
def barExpect (w : Nat) : Nat := fieldOf w 16 16

/-- PHASE. -/
def barPhase (w : Nat) : Bool := bitOf w 32

/-- The object's own conditions hold (R189). -/
def barOk (w : Nat) : Bool :=
  barExpect w != 0 && decide (barCount w < barExpect w) && fieldOf w 33 31 == 0

/-- The object after one arrival (R189). -/
def barStep (w : Nat) : Nat :=
  if barCount w + 1 = barExpect w then
    b2n (!barPhase w) * 2 ^ 32 + barExpect w * 2 ^ 16
  else b2n (barPhase w) * 2 ^ 32 + barExpect w * 2 ^ 16 + (barCount w + 1)

/-- An arrival record: the most recent first, four addresses (R189). -/
def Role.recordArrival (r : Role) (ea : Nat) (phase : Bool) : Role :=
  { r with arrivals := ((ea, phase) :: r.arrivals.filter fun e => e.1 != ea).take 4 }

/-- BARAV (R189). -/
def execBarav (a : SReg) (s : State) : Res :=
  scalarOp s [a] none fun rk vs s =>
    let ea := (src vs 0).toNat
    let tk := teamOf rk
    if s.orderWait rk then .next (s.parkS rk .order)
    else match s.scratchCheckS rk ea 8 8 false with
      | some s1 => .next s1
      | none =>
        let w := leNat (s.scratchLoad tk ea 8)
        if barOk w then
          .next (((s.scratchStore tk ea (leBytes 8 (barStep w))).updRole rk fun r =>
            r.recordArrival ea (barPhase w)).advance rk 4)
        else .next (s.raiseS rk .barrier ea)

/-- The arrival record of an address (R189). -/
def Role.arrival (r : Role) (ea : Nat) : Option Bool :=
  (r.arrivals.find? fun e => e.1 == ea).map Prod.snd

/-- BARWT (R189). -/
def execBarwt (a : SReg) (s : State) : Res :=
  scalarOp s [a] none fun rk vs s =>
    let ea := (src vs 0).toNat
    let tk := teamOf rk
    if s.orderWait rk then .next (s.parkS rk .order)
    else match s.scratchCheckS rk ea 8 8 false with
      | some s1 => .next s1
      | none =>
        match (s.role rk).arrival ea with
        | none => .next (s.raiseS rk .barrier ea)
        | some p =>
          if barPhase (leNat (s.scratchLoad tk ea 8)) ≠ p then
            .next ((s.noteScratch tk ea 8).advance rk 4)
          else .next (s.parkS rk (.barwt ea))

/-! ## Monitored wait -/

/-- The REASON a WAITA completes with, if it does (R190): the lowest code of those that hold. -/
def Waita.reason (w : Waita) : Option W64 :=
  if w.written then some 1 else if w.expired then some 2 else if w.resumed then some 3 else none

/-- The wait a WAITA begins (R190): armed at the most recent load of the line, if there was one. Loads are LD and the
lanes of VLD and VLDS; an atomic that returns the old value is no load here (DESIGN CHOICE, log 70: R190 says load). -/
def Role.newWaita (r : Role) (line timeout : Nat) : Waita :=
  { line := line, written := (r.armed.get? line).getD false, resumed := false,
    left := if timeout = 0 then none else some timeout, expired := false }

/-- Continue or begin a wait. -/
def State.waitStep (s : State) (rk : Nat) (d : SReg) (w : Waita) : State :=
  match w.reason with
  | some v =>
    if s.takes rk d v then (s.updRole rk fun r => { r with waita := none }).finish rk d v else s.finish rk d v
  | none => s.updRole rk fun r => { r with waita := some w, spark := .waita }

/-- WAITA (R190, R292, R293). -/
def execWaita (d a b : SReg) (s : State) : Res :=
  scalarOp s [a, b] (some d) fun rk vs s =>
    match (s.role rk).waita with
    | some w => .next (s.waitStep rk d w)
    | none =>
      let va := (src vs 0).toNat
      if s.orderWait rk then .next (s.parkS rk .order)
      else match s.toIa (s.vfOf rk) va 1 with
        | .address => .next (s.raiseS rk .address va)
        | .remote => .next (s.raiseS rk .remote va)
        | .ia ia =>
          let line := lineKey (s.vf (s.vfOf rk)).part ia
          .next (s.waitStep rk d ((s.role rk).newWaita line (src vs 1).toNat))

/-! ## Streams -/

/-- YIELD (R191): 16 issue boundaries of each slot without a claim, after that of the YIELD itself. -/
def execYield (s : State) : Res :=
  scalar0 s fun rk =>
    .next ((s.updRole rk fun r => { r with yieldS := 17, yieldL := 17 }).advance rk 4)

/-- EXIT (R169): parks until the drain is complete; ROLE_FINISH then finishes the role. -/
def execExit (s : State) : Res :=
  scalar0 s fun rk =>
    if s.inTx (teamOf rk) then txIllegalS s rk else .next (s.parkS rk .exit)

/-- VDRAIN (R192). -/
def execVdrain (s : State) : Res :=
  scalar0 s fun rk =>
    if (s.role rk).drained then .next (s.advance rk 4) else .next (s.parkS rk .drain)

/-- VIEW (R46, R47, R193): blocks queued from now on see the new value. -/
def execView (i : Fin 8) (a : SReg) (s : State) : Res :=
  scalarOp s [a] none fun rk vs s =>
    let v := src vs 0
    let l := (s.role rk).lanes
    if viewValid v l.groups l.budget then
      .next ((s.updRole rk fun r => { r with views := r.views.set i.val v }).advance rk 4)
    else illegalS s rk

/-- Members of a gang value, ascending (R162). -/
def membersOf (m : Nat) : List Nat := (List.range 8).filter fun j => bitOf m j

/-- A gang value is legal (R162). -/
def gangValid (v : W64) (nroles : Nat) : Bool :=
  let n := (membersOf v.toNat).length
  decide (v.toNat < 256) && (membersOf v.toNat).all (fun j => decide (j < nroles))
    && (v == 0 || (decide (2 ≤ n) && decide (n ≤ 6)))

/-- GANG (R162, R193). -/
def execGang (a : SReg) (s : State) : Res :=
  scalarOp s [a] none fun rk vs s =>
    let v := src vs 0
    if gangValid v (s.team (teamOf rk)).nroles then
      .next ((s.updTeam (teamOf rk) fun t => { t with gang := v.toNat }).advance rk 4)
    else illegalS s rk

/-- Mask word `g` replaced (R124, R193). -/
def setMaskWord (m : Mask) (g : Nat) (w : W32) : Mask :=
  (m &&& ~~~((BitVec.allOnes 32).zeroExtend 1024 <<< (32 * g))) ||| (w.zeroExtend 1024 <<< (32 * g))

/-- MSET (R126, R193): at its place among the VRUN blocks. With no block queued that place has come;
otherwise it goes before the next block. -/
def execMset (g : Fin 32) (a : SReg) (s : State) : Res :=
  scalar0 s fun rk0 =>
    if (s.role rk0).lanes.groups ≤ g.val then illegalS s rk0
    else scalarOp s [a] none fun rk vs s =>
      let w := BitVec.ofNat 32 (src vs 0).toNat
      .next ((s.updRole rk fun r =>
        if r.blocks.isEmpty then
          { r with lanes := { r.lanes with base := setMaskWord r.lanes.base g.val w } }
        else { r with msets := r.msets ++ [(g.val, w)] }).advance rk 4)

/-- The snapshot of a VRUN: `s1` to `s15`, entry 0 zero (R153). -/
def Role.snapshot (r : Role) : List W64 := (List.range 16).map r.sreg

/-- The block a VRUN appends (R153, R163, R192, R193). -/
def Role.newBlock (r : Role) (gang first len : Nat) : Block :=
  { first := first, len := len, snap := r.snapshot, views := r.views, gang := gang, msets := r.msets,
    no := r.laneSeq }

/-- The operand latch is free (R55). -/
def Lanes.freeLatches (l : Lanes) : Lanes := { l with latches := [none, none, none] }

/-- VRUN (R153, R192). A block that no other is queued before starts at once, with a free operand latch (R55). -/
def execVrun (lenM1 : BitVec 6) (idx : BitVec 19) (s : State) : Res :=
  scalar0 s fun rk =>
    if 8 ≤ (s.role rk).entries then .next (s.parkS rk .vrunFull)
    else
      let gang := (s.team (teamOf rk)).gang
      .next ((s.updRole rk fun r =>
        { r with blocks := r.blocks ++ [r.newBlock gang idx.toNat (lenM1.toNat + 1)], msets := []
                 laneSeq := r.laneSeq + lenM1.toNat + 1
                 lanes := if r.blocks.isEmpty then r.lanes.freeLatches else r.lanes }).advance rk 4)

/-! ## Commit and abort -/

/-- Every role of the team has arrived at its TXCOMMIT (R258). -/
def State.allArrived (s : State) (tk : Nat) : Bool :=
  (s.rolesOf tk).all fun rk => (s.role rk).txArr.isSome

/-- Record a role's arrival at its TXCOMMIT; the last one starts the commit probe (R257, R258). -/
def State.commitArrive (s : State) (rk : Nat) (tok : Option (W64 × W64)) : State :=
  let s1 := s.updRole rk fun r => { r with txArr := some tok, spark := .commit }
  if s1.allArrived (teamOf rk) then s1.updTeam (teamOf rk) fun t => { t with phase := .probing } else s1

/-- The checks of a commit token's address, ADDRESS before REMOTE before MISALIGN (R257). -/
def State.tokenFault (s : State) (vf va : Nat) : Option Code :=
  match s.toIa vf va 8 with
  | .address => some .address
  | .remote => some .remote
  | .ia _ => if va % 8 ≠ 0 then some .misalign else none

/-- TXCOMMIT (R257). -/
def execTxcommit (a b : SReg) (s : State) : Res :=
  scalar0 s fun rk0 =>
    if !s.inTx (teamOf rk0) && !s.opIllegal rk0 [a, b] none then txIllegalS s rk0
    else scalarOp s [a, b] none fun rk vs s =>
      let va := (src vs 0).toNat
      match if a = .s 0 then none else s.tokenFault (s.vfOf rk) va with
      | some c => .next (s.raiseS rk c va)
      | none =>
        if !(s.role rk).drained then .next (s.parkS rk .drain)
        else .next (s.commitArrive rk (if a = .s 0 then none else some (src vs 0, src vs 1)))

/-- TXABORT (R260). -/
def execTxabort (s : State) : Res :=
  scalar0 s fun rk =>
    if s.inTx (teamOf rk) then .next (s.abortTeam (teamOf rk) 3) else txIllegalS s rk

/-! ## Cache maintenance -/

/-- The virtual line addresses that segment `j` gives an IA line. -/
def segLine (f : Vf) (ia j : Nat) : Option Nat :=
  let v := (f.segV.get 0 j).toNat
  let i := (f.segI.get 0 j).toNat
  let ib := fieldOf i 16 36 * 2 ^ 16
  if segValid v i && fieldOf v 2 2 == 0 && decide (ib ≤ ia) && decide (ia < ib + 2 ^ fieldOf v 10 6)
  then some (fieldOf v 16 40 * 2 ^ 16 + (ia - ib)) else none

/-- Does a dirty line hold a byte of the range `[va, va + n)` of a context (R197)? A page without a translation is
skipped. -/
def State.lineInRange (s : State) (vf line va n : Nat) : Bool :=
  let f := s.vf vf
  let ia := line % 2 ^ 46 * 64
  let mapped : Bool := match s.translateIa f.part ia 64 false with | .page _ _ => false | _ => true
  decide (n ≠ 0) && line / 2 ^ 46 == f.part && mapped &&
    (List.range 8).any fun j =>
      match segLine f ia j with
      | some w => s.toIa vf w 64 == .ia ia && decide (w < va + n) && decide (va < w + 64)
      | none => false

/-- The dirty lines of a range. -/
def State.dirtyIn (s : State) (vf va n : Nat) : List Nat :=
  s.dirty.keys.filter fun l => s.lineInRange vf l va n

/-- Discarding a dirty line changes one of its bytes (R197). -/
def State.invChanges (s : State) (line : Nat) : Bool :=
  match s.dirty.get? line, s.translateIa (line / 2 ^ 46) (line % 2 ^ 46 * 64) 64 false with
  | some d, .ok x => (x.pas.zipIdx).any fun e => s.homeByte e.1 != lineByte d.data e.2
  | _, _ => false

/-- INVR of one line: its bytes take their home values, and a change wakes the line's waits
(R197, R293). -/
def State.invLine (s : State) (line : Nat) : State :=
  if s.invChanges line then (s.dropDirty line).noteWrite line else s.dropDirty line

/-- A cache maintenance instruction (R197): checks of the range, then an operation on each dirty
line of it. An INVR of length zero at an address that is no multiple of 512 is MISALIGN: R197 says both that it does
nothing and that sa must be a multiple (DESIGN CHOICE, log 70). -/
def maintOp (s : State) (a b : SReg) (align : Nat) (f : State → Nat → State) : Res :=
  scalarOp s [a, b] none fun rk vs s =>
    let va := (src vs 0).toNat
    let n := (src vs 1).toNat
    if n ≠ 0 && !legalGlobal va n then .next (s.raiseS rk .address va)
    else if va % align ≠ 0 || n % align ≠ 0 then .next (s.raiseS rk .misalign va)
    else if s.orderWait rk then .next (s.parkS rk .order)
    else .next (((s.dirtyIn (s.vfOf rk) va n).foldl f s).advance rk 4)

/-- CLNR (R197): dirty copies are written back. -/
def execClnr (a b : SReg) (s : State) : Res := maintOp s a b 1 State.writeBack

/-- INVR (R197): dirty copies are discarded; TXILLEGAL in a transaction. -/
def execInvr (a b : SReg) (s : State) : Res :=
  scalar0 s fun rk =>
    if s.inTx (teamOf rk) && !s.opIllegal rk [a, b] none then txIllegalS s rk else maintOp s a b 512 State.invLine

/-- CLIV (R197): written back, then discarded. A written-back line keeps no copy here. -/
def execCliv (a b : SReg) (s : State) : Res := maintOp s a b 1 State.writeBack

/-! ## Traps and the remaining forms -/

/-- TRAP (R199): TRAPPC is the instruction after it. The results of accepted LX words return first
(R165). -/
def execTrap (code : BitVec 13) (s : State) : Res :=
  scalar0 s fun rk =>
    if (s.role rk).lxOut ≠ 0 then .next (s.parkS rk .lxHold)
    else .next (s.userTrap rk 0 code.toNat false ((s.role rk).pc + 4))

/-- The return from a user trap (R199): a marker at which the lane stream was parked is passed, since TRET has drained
(R156), and the interrupted instruction goes on from where it was, if TRAPPC still names it (R173, R190). A TRAPPC that
software has set to no multiple of 4 stands as it is: the spec names no check here, and the fetch there is what any fetch
is (DESIGN CHOICE, log 69). -/
def Role.trapReturn (r : Role) (free : Nat) : Role :=
  let a := r.aside.getD ⟨[], 0, [], false, 0, 0, none, none⟩
  let same := a.pc == r.trapPc
  { r with
    blocks := a.blocks, lanePc := a.lanePc, msets := a.msets, aside := none
    lanes := if a.marker then r.lanes.passMarker free else r.lanes
    trapCause := r.trapCause &&& ~~~(BitVec.ofNat 64 (2 ^ 31)), pc := r.trapPc
    popped := if same then a.popped else none, waita := if same then a.waita else none, spark := .none }

/-- TRET (R199). -/
def execTret (s : State) : Res :=
  scalar0 s fun rk =>
    let r := s.role rk
    if !r.trapActive then illegalS s rk
    else if !r.drained then .next (s.parkS rk .drain)
    else .next { s.updRole rk (fun r => r.trapReturn s.free) with free := s.free + 1 }

/-- NOP (R200). -/
def execNop (s : State) : Res := scalar0 s fun rk => .next (s.advance rk 4)

/-- BRK (R200): a report, resumed at the next instruction, when debugging is enabled, which it is for every VF once
feature 10 is accepted (R392; log 30); otherwise the fault BREAK. -/
def execBrk (s : State) : Res :=
  scalar0 s fun rk =>
    if s.accept.getLsbD 10 then
      .next ((s.raiseS rk .brkpt 0).updRole rk fun r => { r with pc := r.pc + 4 })
    else .next (s.raiseS rk .brk 0)

/-- RELAY (R200, R379): parks until the drain, as VDRAIN does, then arrives and parks until STAGE_COMPLETE. Without
stages it continues at once. -/
def execRelay (s : State) : Res :=
  scalar0 s fun rk =>
    let r := s.role rk
    if s.inTx (teamOf rk) then txIllegalS s rk
    else if !(s.launchOf rk).flag 3 then
      .next ((s.updRole rk fun r => { r with stage := r.stage + 1 }).advance rk 4)
    else if !r.drained then .next (s.parkS rk .relay)
    else if r.stage < (s.launchOf rk).stage then
      .next ((s.updRole rk fun r => { r with stage := r.stage + 1 }).advance rk 4)
    else .next (s.updRole rk fun r => { r with relayed := true, spark := .relay })

end Sys2Proof.Machine
end

