-- ==== Sys2Proof/Machine/Power.lean ====
section
/-! DEFINITION. PERF and its leases (R196, R298, R300), the events of the power allowance and of
transitions (R294, R296, R301), near-threshold mode (R302), THERM (R303, R362), with their events. -/

namespace Sys2Proof.Machine
open Sys2Proof

/-- CMIN and CMAX of VFPERF; CMIN above CMAX counts as CMAX (R300). -/
def vfRange (w : W64) : Nat × Nat :=
  let cmax := fieldOf w.toNat 2 2
  (Nat.min (fieldOf w.toNat 0 2) cmax, cmax)

/-- Count one saturated request in OUTRNG (R298, R300). -/
def bumpOutrng (w : W64) : W64 :=
  BitVec.ofNat 64 (w.toNat % 2 ^ 48 + Nat.min 0xFFFF (w.toNat / 2 ^ 48 + 1) * 2 ^ 48)

/-- PERF (R196, R298): the lease in ref ticks, none for zero; a request outside the range is counted in either case. -/
def execPerf (a b : SReg) (s : State) : Res :=
  scalarOp s [a, b] none fun rk vs s =>
    let tk := teamOf rk
    let cls := (src vs 0).toNat
    let us := (src vs 1).toNat
    let c := clusterOf (s.coreOf rk)
    let vf := s.vfOf rk
    let r := vfRange (s.vf vf).vfPerf
    let got := Nat.max r.1 (Nat.min r.2 (Nat.min cls 3))
    let s1 := if got != cls then s.updVf vf fun v => { v with vfPerf := bumpOutrng v.vfPerf } else s
    let lease := if us = 0 then none else some (got, Nat.min us 1000000 * 1000)
    .next (((s1.updTeam tk fun t => { t with lease := lease }).adopt c).advance rk 4)

/-! ## THERM -/

/-- The cap of a stack on its die's clusters (R362): 7 for none. -/
def stackCap (k : Stack) : Nat :=
  if 95 ≤ k.temp then 1 else if k.hot then 3 else if 75 < k.temp then 4 else 7

/-- LEVEL of a cluster (R303, R362). -/
def State.levelOf (s : State) (c : Nat) : Nat :=
  let d := dieOfCluster c
  [0, 1, 2].foldl (fun n j => Nat.min n (stackCap (s.stk (3 * d + j)))) (s.cluster c).sensor

/-- WHLD (R303): the share, in 1/256, of the last 1,000 ref ticks, rounded down and at most 255 (log 24). -/
def State.whld (s : State) (k : Cluster) : Nat :=
  Nat.min 255 ((k.withheld.filter fun t => decide (s.refTick.toNat < t + 1000)).length * 256 / 1000)

/-- The roles bound to one of a core's two islands (R302). -/
def State.islandRoles (s : State) (core : Nat) (upper : Bool) : List (Nat × Role) :=
  s.roles.filter fun e =>
    (s.team (teamOf e.1)).resident && (s.team (teamOf e.1)).core == core
      && decide (2 ≤ e.2.dp) == upper

/-- An island is in near-threshold mode: it has entered it, or has no resident role (R302). -/
def State.islandNear (s : State) (core : Nat) (upper : Bool) : Bool :=
  (if upper then (s.core core).ntb else (s.core core).nta) || (s.islandRoles core upper).isEmpty

/-- The system register THERM as a core reads it (R303). -/
def State.therm (s : State) (core : Nat) : W64 :=
  let k := s.cluster (clusterOf core)
  BitVec.ofNat 64 (s.whld k * 2 ^ 8 + b2n (s.islandNear core true) * 2 ^ 7 + b2n (s.islandNear core false) * 2 ^ 6
    + k.cls * 2 ^ 4 + k.level)

/-- The steward computes a new LEVEL for every cluster; the class follows (R298, R303). -/
def State.newLevels (s : State) : State :=
  (List.range 32).foldl (fun s c => (s.updCluster c fun k => { k with level := s.levelOf c }).adopt c) s

/-- A new LEVEL is due (R303): 10,000 ref ticks after the one before. The first one is the last step of package reset. -/
def State.thermDue (s : State) : Bool :=
  let now := s.refTick.toNat
  decide (s.thermAt < now) && (now - s.thermAt) % 10000 == 0

/-- THERM_UPDATE (R303). -/
def execThermUpdate (s : State) : Res :=
  .next (if s.thermDue then { s.newLevels with thermAt := s.refTick.toNat } else s)

/-! ## Events of the power machinery -/

/-- TRANSITION_DONE (R294, R301): the new class holds, REPLC takes its new value, and a change wanted
meanwhile begins. -/
def execTransitionDone (cluster : Nat) (s : State) : Res :=
  match (s.cluster cluster).target with
  | none => .next s
  | some c =>
    .next ((s.updCluster cluster fun k =>
      { k with cls := c, target := none, replc := replcOf k.pwrCfg c }).adopt cluster)

/-- ALLOW_REPLENISH (R294): one clk of replenishment, limited to CAP. -/
def execAllowReplenish (cluster : Nat) (s : State) : Res :=
  .next (s.updCluster cluster fun k =>
    { k with allow := Min.min (k.allow + k.replc) (pwrCap k.pwrCfg) })

/-- PWRCFG_WRITE (R294, R296): reserved bits are ignored; ALLOW above the new CAP is cut to it; REPLC
follows REPL; a change of DEFCLS is adopted (R298). -/
def execPwrcfgWrite (cluster : Nat) (val : W64) (s : State) : Res :=
  let w := val &&& BitVec.ofNat 64 0x03FFFFFFFFFFFFFF
  .next ((s.updCluster cluster fun k =>
    { k with pwrCfg := w, allow := Min.min k.allow (pwrCap w), replc := replcOf w k.cls }).adopt cluster)

/-- A role is parked on memory (R159, R302): it is parked, each stream on something or with nothing to issue, and one of
them on a marker without LX results, a word in the operand log, full/empty bits, a scratch page, or WAITA. -/
def Role.parkedOnMemory (r : Role) : Bool :=
  let lane := (r.lpark == .marker && r.lxOut == 0) || (!r.flight.isEmpty && (r.lpark != .none || r.blocks.isEmpty))
  let scal := r.spark == .page none || r.spark == .waita
  (r.lpark != .none || r.blocks.isEmpty) && (r.spark != .none || r.finished) && (lane || scal)

/-- A role is parked on memory, or its LX word in the hold waits for a page of scratch (R206, R302). -/
def State.onMemory (s : State) (rk : Nat) (r : Role) : Bool :=
  r.parkedOnMemory || (r.lpark == .lxHold && (r.spark != .none || r.finished)
    && (s.team (teamOf rk)).service.any fun e => e.2.who == some (.lane rk))

/-- More than 90% of an island's resident roles have been parked on memory for 1,000 ref ticks (R302). -/
def State.nearDue (s : State) (core : Nat) (upper : Bool) : Bool :=
  let rs := s.islandRoles core upper
  let n := (rs.filter fun e => s.onMemory e.1 e.2 && decide (1000 ≤ e.2.parkTicks)).length
  decide (9 * rs.length < 10 * n)

/-- NEAR_THRESHOLD_ENTER (R302): the island enters. -/
def execNearThresholdEnter (core : Nat) (upper : Bool) (s : State) : Res :=
  if s.nearDue core upper then
    .next (s.updCore core fun c => if upper then { c with ntb := true } else { c with nta := true })
  else .next s

/-- An island leaves near-threshold mode when a role of it becomes ready, and the role's time on memory begins
anew (R302). -/
def State.leaveNear (s : State) (rk : Nat) : State :=
  let dp := (s.role rk).dp
  if s.hasRole rk then
    (s.updRole rk fun r => { r with parkTicks := 0 }).updCore (s.coreOf rk) fun c =>
      if 2 ≤ dp then { c with ntb := false } else { c with nta := false }
  else s

end Sys2Proof.Machine
end

