-- ==== Sys2Proof/Machine/System.lean ====
section
/-! DEFINITION. SYSRD and SYSWR with every system register (R198, R361, R379). -/

namespace Sys2Proof.Machine
open Sys2Proof

/-- TXSTAT (R247). -/
def State.txstat (s : State) (tk : Nat) : W64 :=
  let t := s.team tk
  let tx := (s.launch (lidOf tk)).flag 0
  BitVec.ofNat 64
    (Nat.min t.satCnt 0xFFFF * 2 ^ 48 + Nat.min t.canCnt 0xFFFF * 2 ^ 32
      + Nat.min t.replays 255 * 2 ^ 24 + t.lastCause * 2 ^ 12 + b2n t.committed * 2 ^ 11
      + b2n t.topTrip * 2 ^ 10 + b2n tx * 2 ^ 9 + b2n (t.probe && t.replays == 0) * 2 ^ 8
      + (if tx then t.rung else 0))

/-- MONCFG (R245): zero unless the team is in an open transaction. -/
def State.moncfg (s : State) (tk : Nat) : W64 :=
  if s.inTx tk then (s.launch (lidOf tk)).mon (s.team tk).rung &&& BitVec.ofNat 64 0xFFFFFFF80FFF0000
  else 0

/-- ROLEINFO (R198). -/
def State.roleinfo (s : State) (rk : Nat) : W64 :=
  let l := s.launchOf rk
  BitVec.ofNat 64 (roleIdx rk + (l.groups (roleIdx rk) - 1) * 8 + l.nroles * 2 ^ 8)

/-- HBMST (R361). -/
def State.hbmst (s : State) (core n : Nat) : W64 :=
  let k := s.stk (3 * dieOf core + n)
  BitVec.ofNat 64 (k.rstall % 2 ^ 32 * 2 ^ 32 + k.maxt * 2 ^ 16 + b2n k.hot * 2 ^ 8 + k.temp)

/-- The value of a system register for a role; `none` for an unassigned number (R198, R361, R379). -/
def State.sysreg (s : State) (rk num : Nat) : Option W64 :=
  let tk := teamOf rk
  let t := s.team tk
  let l := s.launchOf rk
  let core := t.core
  let n (x : Nat) : Option W64 := some (BitVec.ofNat 64 x)
  if 0x020 ≤ num ∧ num ≤ 0x027 then some (l.fslot (num - 0x020))
  else match num with
    | 0x000 => some (s.core core).clkCnt
    | 0x001 => some s.refTick
    | 0x010 => n t.coord.1
    | 0x011 => n t.coord.2.1
    | 0x012 => n t.coord.2.2
    | 0x013 => n l.gridX
    | 0x014 => n l.gridY
    | 0x015 => n l.gridZ
    | 0x016 => some (s.roleinfo rk)
    | 0x018 => n (lidOf tk)
    | 0x019 => n ((s.role rk).stage % 2 ^ 32)
    | 0x030 => n (s.role rk).lanes.rng.toNat
    | 0x040 => some (s.role rk).trapPc
    | 0x041 => some (s.role rk).trapCause
    | 0x042 => some (s.role rk).trapLpc
    | 0x050 => some (s.txstat tk)
    | 0x051 => some (s.moncfg tk)
    | 0x060 => some (s.therm core)
    | 0x061 => some (s.hbmst core 0)
    | 0x062 => some (s.hbmst core 1)
    | 0x063 => some (s.hbmst core 2)
    | 0x070 => n ((s.core core).mchk * 2 ^ 32 + (s.core core).repaired)
    | _ => none

/-- SYSRD (R198): an unassigned number is ILLEGAL. -/
def execSysrd (d : SReg) (num : BitVec 13) (s : State) : Res :=
  match s.cur with
  | .scalar rk0 =>
    match s.sysreg rk0 num.toNat with
    | none => illegalS s rk0
    | some _ =>
      scalarOp s [] (some d) fun rk _ s =>
        if num = 0x030 && s.drawWait rk then .next (s.parkS rk .order)
        else .next (s.finish rk d ((s.sysreg rk num.toNat).getD 0))
  | _ => .fault .wrongAgent

/-- Write a system register that programs may write; others ignore the write (R19, R198). -/
def Role.setSysreg (r : Role) (num : Nat) (v : W64) : Role :=
  match num with
  | 0x030 => { r with lanes := { r.lanes with rng := seedOf (BitVec.ofNat 32 v.toNat) } }
  | 0x040 => { r with trapPc := v }
  | _ => r

/-- SYSWR (R198): an unassigned number is ILLEGAL; a register that is RO to programs ignores it. -/
def execSyswr (a : SReg) (num : BitVec 13) (s : State) : Res :=
  match s.cur with
  | .scalar rk0 =>
    match s.sysreg rk0 num.toNat with
    | none => illegalS s rk0
    | some _ =>
      scalarOp s [a] none fun rk vs s =>
        if num = 0x030 && s.drawWait rk then .next (s.parkS rk .order)
        else .next ((s.updRole rk fun r => r.setSysreg num.toNat (src vs 0)).advance rk 4)
  | _ => .fault .wrongAgent

end Sys2Proof.Machine
end

