-- ==== Sys2Proof/Machine/Flags.lean ====
section
/-! DEFINITION. Every condition and every count a word computes beside its result: the conditions of
VCMP and VFCMP (R102, R109), classes of VFCLASS (R110), the range and cancellation monitors and what a
trip does (R111, R246, R248). -/

namespace Sys2Proof.Machine
open Sys2Proof

/-- A VCMP condition on two values (R99, R102). -/
def icondHolds (q : ICond) (x y : Int) : Bool :=
  match q with
  | .eq => x == y | .ne => x != y | .lt => decide (x < y) | .le => decide (x ≤ y)
  | .gt => decide (y < x) | .ge => decide (y ≤ x)

/-- A VFCMP condition on two values; −0 equals +0, and a NaN operand makes all but ne and uno false
(R109). -/
def fcondHolds (q : FCond) (x y : XVal) : Bool :=
  let un := x.isNan || y.isNan
  match q with
  | .eq => xeq x y | .ne => !xeq x y | .lt => xlt x y | .le => xlt x y || xeq x y
  | .gt => xlt y x | .ge => xlt y x || xeq x y | .ord => !un | .uno => un

/-- VFMIN and VFMAX order −0 below +0 (R109). -/
def fltOrder (x y : XVal) : Bool := xlt x y || (xeq x y && x.neg && !y.neg)

/-- VFMIN (`mx = false`) and VFMAX of two encodings (R109). -/
def fminmax (f : FF) (mx : Bool) (a b : Nat) : Nat :=
  let x := decodeF f a
  let y := decodeF f b
  if x.isNan && y.isNan then nanResult f x.neg
  else if x.isNan then b
  else if y.isNan then a
  else if fltOrder x y then (if mx then b else a)
  else (if mx then a else b)

/-- The one-hot class of an encoding (R110). -/
def fclassOf (f : FF) (bits : Nat) : Nat :=
  let mag := bits % 2 ^ (f.width - 1)
  match decodeF f bits with
  | .nan _ => 2 ^ 8
  | .inf s => if s then 2 ^ 0 else 2 ^ 7
  | .fin s n _ =>
    if n = 0 then (if s then 2 ^ 3 else 2 ^ 4)
    else if mag / 2 ^ f.fbits = 0 then (if s then 2 ^ 2 else 2 ^ 5)
    else (if s then 2 ^ 1 else 2 ^ 6)

/-! ## Monitors -/

/-- T, SLIM, CBITS and NLIM of MONCFG (R245). -/
def monT (w : W64) : Nat := fieldOf w.toNat 56 8

/-- SLIM. -/
def monSlim (w : W64) : Nat := fieldOf w.toNat 40 16

/-- CBITS. -/
def monCbits (w : W64) : Nat := fieldOf w.toNat 35 5

/-- NLIM. -/
def monNlim (w : W64) : Nat := fieldOf w.toNat 16 12

/-- A trip (R248): below the top rung the team aborts, at the top rung TOPTRIP is set; after commit, and
in a non-transactional team, nothing happens. -/
def State.trip (s : State) (tk cause : Nat) : State :=
  let t := s.team tk
  if !t.abortable then s
  else if t.rung < (s.launch (lidOf tk)).topRung then s.abortTeam tk cause
  else s.updTeam tk fun t => { t with topTrip := true }

/-- Saturation events of a word or command (R246). -/
def State.satEvents (s : State) (tk n : Nat) : State :=
  if n = 0 then s
  else
    let s1 := s.updTeam tk fun t => { t with satCnt := Nat.min 0xFFFF (t.satCnt + n) }
    if monSlim (s.moncfg tk) < (s1.team tk).satCnt then s1.trip tk 1 else s1

/-- What a matrix instruction's observations amount to (R236, R246): inner saturations, the place of the first inner
result that trips the range monitor under the exponent limit `limit`, the places of its cancellations. `place` is where
the engine is: it counts steps, passes and rows, in the order in which they are performed (R232, R233). -/
structure Observed where
  limit : Nat
  place : Nat
  sat : Nat
  range : Option Nat
  cans : List Nat
  deriving DecidableEq, Repr

/-- Nothing observed yet. -/
def Observed.start (limit : Nat) : Observed := ⟨limit, 0, 0, none, []⟩

/-- The earlier of two places. -/
def firstPlace (a : Option Nat) (b : Nat) : Option Nat := some (match a with | some n => Nat.min n b | none => b)

/-- One inner result with its exponent field and whether it saturates (R246): the range monitor trips on a saturation,
and on an exponent of at least the limit, unless that is 0. -/
def Observed.inner (o : Observed) (exp : Nat) (sat : Bool) : Observed :=
  { o with
    sat := o.sat + b2n sat
    range := if sat || (o.limit != 0 && decide (o.limit ≤ exp)) then firstPlace o.range o.place else o.range }

/-- One cancellation. -/
def Observed.cancel (o : Observed) : Observed := { o with cans := o.cans ++ [o.place] }

/-- The place at which the cancellation count passes its limit (R246). -/
def canTrip (limit before : Nat) (cans : List Nat) : Option Nat :=
  ((cans.mergeSort fun a b => decide (a ≤ b)).drop (limit - before)).head?

/-- The cause of the first trip, if any: 1 range, 2 cancellation (R246, R247). In one step, pass and row a promotion
comes after the inner results. -/
def firstTrip (range can : Option Nat) : Option Nat :=
  match range, can with
  | some r, some c => some (if c < r then 2 else 1)
  | some _, none => some 1
  | none, some _ => some 2
  | none, none => none

/-- A matrix instruction's events, counted in order (R246): saturations, exponents, cancellations. -/
def State.matrixEvents (s : State) (tk sat : Nat) (range : Option Nat) (cans : List Nat) : State :=
  let t := s.team tk
  let s1 := s.updTeam tk fun t =>
    { t with satCnt := Nat.min 0xFFFF (t.satCnt + sat),
             canCnt := Nat.min 0xFFFF (t.canCnt + (if s.inTx tk then cans.length else 0)) }
  if s.inTx tk then
    match firstTrip range (canTrip (monNlim (s.moncfg tk)) t.canCnt cans) with
    | some cause => s1.trip tk cause
    | none => s1
  else s1

end Sys2Proof.Machine
end

