-- ==== Sys2Proof/Machine/LaneOps.lean ====
section
/-! DEFINITION. The frame of a lane word (R54 to R56, R95 to R98, R125, R156), shared by the lane
stream of a role and the rows of a depot task (R355). -/

namespace Sys2Proof.Machine
open Sys2Proof

/-! ## Where a lane word runs -/

/-- The block a role's lane stream is in. -/
def Role.block (r : Role) : Block := r.blocks.headD ⟨0, 0, [], [], 0, [], 0⟩

/-- What a lane word of a role reads besides its lanes (R46, R151, R153). -/
def State.roleCx (s : State) (rk : Nat) : LaneCx :=
  let b := (s.role rk).block
  let core := s.coreOf rk
  { snap := b.snap, views := b.views, role := roleIdx rk, team := teamOf rk % 2 ^ 32,
    core := core % 15, clus := clusterOf core % 8, die := dieOf core % 4, row := false, free := s.free }

/-- The anchor of a row (R352). -/
def DTask.anchor (t : DTask) (r : Nat) : W64 := t.cmd.row0 + BitVec.ofNat 64 r * t.cmd.rstride

/-- What a word of a depot row reads besides its lanes (R355). -/
def State.rowCx (s : State) (key : Nat) : LaneCx :=
  let w := s.row key
  let t := s.task w.task
  { snap := [0, t.anchor w.r, BitVec.ofNat 64 w.r] ++ t.cmd.args, views := [], role := 0,
    team := w.r % 2 ^ 32, core := w.depot.getD 0 % 8, clus := w.depot.getD 0 / 8 % 3, die := w.depot.getD 0 / 24 % 4, row := true,
    free := s.free }

/-- The context and the lanes of the current lane word; none for another agent. -/
def State.laneNow (s : State) : Option (LaneCx × Lanes) :=
  match s.cur with
  | .lane rk => some (s.roleCx rk, (s.role rk).lanes)
  | .row key => some (s.rowCx key, (s.row key).lanes)
  | _ => none

/-! ## The end of a lane word -/

/-- Apply MSETs to the mask (R124, R126). -/
def Lanes.applyMsets (l : Lanes) (ms : List (Nat × W32)) : Lanes :=
  { l with base := ms.foldl (fun m e => setMaskWord m e.1 e.2) l.base }

/-- Results a marker waits for (R155, R156). -/
def Role.outstanding (r : Role) : Bool := !r.lanes.pend.isEmpty || !r.flight.isEmpty || r.lxOut != 0

/-- The lane stream goes on to its next word: at the end of a block the entry is freed, the latch
entries are free (R55), and the MSETs that stand before the next block take effect (R126). -/
def Role.nextWord (r : Role) : Role :=
  match r.blocks with
  | [] => r
  | b :: t =>
    if r.lanePc + 1 < b.len then { r with lanePc := r.lanePc + 1 }
    else
      let l := { r.lanes with latches := [none, none, none] }
      match t with
      | [] => { r with blocks := [], lanePc := 0, lanes := l.applyMsets r.msets, msets := [] }
      | b2 :: _ => { r with blocks := t, lanePc := 0, lanes := l.applyMsets b2.msets }

/-- The lane stream passes a marker, or parks at it while results are outstanding (R156). -/
def Role.atMarker (r : Role) (free : Nat) : Role :=
  if r.outstanding then { r with lpark := .marker }
  else { r with lpark := .none, lanes := r.lanes.passMarker free }

/-- The end of a lane word of a role: the latch entries age (R55), the stream goes on, and a switch
marker acts (R156). -/
def Role.laneDone (r : Role) (sw : Bool) (l : Lanes) (free : Nat) : Role :=
  let r1 := { r with lanes := l.endWord sw, lpark := .none }.nextWord
  if sw then r1.atMarker free else r1

/-- Store a row's record. -/
def State.setRow (s : State) (key : Nat) (w : DRow) : State := { s with rows := s.rows.put key w }

/-- Change a depot task. -/
def State.updTask (s : State) (key : Nat) (f : DTask → DTask) : State :=
  { s with tasks := s.tasks.put key (f (s.task key)) }

/-- A row ends; a status other than OK is the task's when it is the first (R354). -/
def State.rowEnd (s : State) (key status : Nat) : State :=
  let w := s.row key
  { s.updTask w.task (fun t =>
      if status = 0 then { t with ended := t.ended + 1 }
      else if t.status = 0 then { t with status := status } else t) with rows := s.rows.erase key }

/-- The current lane word is complete, with the lanes it leaves. -/
def State.laneDone (s : State) (sw : Bool) (l : Lanes) : State :=
  let s1 := { s with free := s.free + 1 }
  match s.cur with
  | .lane rk => s1.updRole rk fun r => r.laneDone sw l s.free
  | .row key => s1.setRow key { s.row key with pc := (s.row key).pc + 1, part := [], lanes := l }
  | _ => s

/-- A precise fault of the lane stream: it is raised once every earlier word of the stream has completed; until then the
word waits, and is then tried again (R61). -/
def State.precise (s : State) (rk : Nat) (f : State) : State :=
  if (s.role rk).outstanding then s.updRole rk fun r => { r with lpark := .results } else f

/-- A fault of the current lane word without an address: a record of the role, or the end of the row
with its task's status (R61, R354). -/
def State.laneFault (s : State) (c : Code) : State :=
  match s.cur with
  | .lane rk => s.precise rk (s.raiseL rk c)
  | .row key => s.rowEnd key (match c with | .opformat => 5 | _ => 10)
  | _ => s

/-- Saturation events of the current word feed the team's monitor; a row feeds none
(R111, R355). -/
def State.laneSat (s : State) (n : Nat) : State :=
  match s.cur with
  | .lane rk => s.satEvents (teamOf rk) n
  | _ => s

/-! ## Sources -/

/-- A source of an arithmetic word: not read, an operand, or the 32-bit immediate of an LI word
(R78, R98). -/
inductive Source where
  | none
  | op (o : Opnd) (w : OpW)
  | imm (i : W32) (w : OpW)
  deriving DecidableEq, Repr

/-- The source names no absent resource. -/
def Source.present (x : Source) (cx : LaneCx) (l : Lanes) : Bool :=
  match x with
  | .op o w => opPresent o cx l w.bytes
  | _ => true

/-- The value of a source in a lane (R98). -/
def Source.val (x : Source) (cx : LaneCx) (l : Lanes) (lane : Nat) : Nat :=
  match x with
  | .none => 0
  | .op o w => opVal o cx l w lane
  | .imm i w => extImm w i

/-- The register words of an operand of `n` bytes in a lane. -/
def opWords (o : Opnd) (cx : LaneCx) (n lane : Nat) : List Nat :=
  match opStart o cx with
  | some b => wordsAt lane b n
  | none => []

/-- The register words that a source reads in a lane. -/
def Source.words (x : Source) (cx : LaneCx) (lane : Nat) : List Nat :=
  match x with
  | .op o w => opWords o cx w.bytes lane
  | _ => []

/-- The source is a latch entry whose value for a lane is marked bad (R54). -/
def Source.badLatch (x : Source) (l : Lanes) (lane : Nat) : Bool :=
  match x with
  | .op (.latch i) _ => (match l.latches.getD i.val Option.none with
    | Option.some e => e.bad.contains lane
    | Option.none => false)
  | _ => false

/-- The source is a latch entry whose own parity is bad (R335). -/
def Source.spoilt (x : Source) (l : Lanes) : Bool :=
  match x with
  | .op (.latch i) _ => (match l.latches.getD i.val Option.none with
    | Option.some e => e.spoilt
    | Option.none => false)
  | _ => false

/-- The sources of a word. -/
structure Sources where
  a : Source
  b : Source
  x : Source
  deriving DecidableEq, Repr

/-- The held source (R54). -/
def Sources.held (s : Sources) (h : Hold) : Source :=
  match h with
  | .none => .none | .a => s.a | .b => s.b | .c => s.x

/-- May the hold be made: it names a source that is read, and an entry is free (R56, R97)? -/
def holdOk (h : Hold) (srcs : Sources) (l : Lanes) : Bool :=
  h == .none || (srcs.held h != .none && l.freeLatch.isSome)

/-- A hold copies the source in every lane of the issued passes into the lowest free entry; lanes of
skipped passes receive zero (R54), and a value marked bad stays marked. `old` are the lanes the word reads, `l` the lanes it leaves. -/
def Lanes.hold (l old : Lanes) (cx : LaneCx) (h : Hold) (srcs : Sources) : Lanes :=
  match h, old.freeLatch with
  | .none, _ => l
  | _, none => l
  | _, some i =>
    let vals := old.passes.flatMap fun g =>
      (rangeFrom (32 * g) 32).map fun n => (n, (srcs.held h).val cx old n)
    let bad := (vals.map Prod.fst).filter fun n =>
      (srcs.held h).badLatch old n || ((srcs.held h).words cx n).any fun w => old.bad.get? w == some false
    let e : Latch := ⟨vals.foldl (fun m e => m.set 0 e.1 (BitVec.ofNat 64 e.2)) [], 3, bad, false⟩
    { l with latches := l.latches.set i (some e) }

/-! ## The frame -/

/-- What a lane word leaves: the lanes, and its saturation events (R111). -/
structure LaneOut where
  lanes : Lanes
  sat : Nat
  deriving DecidableEq, Repr

/-- The word names no absent resource, and its hold can be made (R44, R50, R56, R97). -/
def wordPresent (cx : LaneCx) (l : Lanes) (h : Hold) (srcs : Sources) (dsts : List (Opnd × Nat)) : Bool :=
  srcs.a.present cx l && srcs.b.present cx l && srcs.x.present cx l
    && dsts.all (fun e => opPresent e.1 cx l e.2) && holdOk h srcs l

/-! ## Parity -/

/-- The register words that a word reads in a lane: sources first, then `extra` operands that it reads (store data, the
read half of a sub-word write; R58). -/
def laneReadsIn (cx : LaneCx) (srcs : Sources) (extra : List (Opnd × Nat)) (i : Nat) : List Nat :=
  ([srcs.a, srcs.b, srcs.x].flatMap fun x => x.words cx i) ++ extra.flatMap fun e => opWords e.1 cx e.2 i

/-- The register words that a word reads in its active lanes. -/
def laneReads (cx : LaneCx) (l : Lanes) (c : LaneCtl) (srcs : Sources) (extra : List (Opnd × Nat)) : List Nat :=
  (l.list (l.active c)).flatMap (laneReadsIn cx srcs extra)

/-- The words a hold reads in the lanes of the issued passes (R54). -/
def heldReads (cx : LaneCx) (l : Lanes) (c : LaneCtl) (srcs : Sources) : List Nat :=
  if c.hold = .none then []
  else l.passes.flatMap fun g => (rangeFrom (32 * g) 32).flatMap fun n => (srcs.held c.hold).words cx n

/-- The active lanes in which the word reads bad data that has no duplicate (R54, R58). -/
def badLanes (cx : LaneCx) (l : Lanes) (c : LaneCtl) (srcs : Sources) (extra : List (Opnd × Nat)) : List Nat :=
  (l.list (l.active c)).filter fun i =>
    ((laneReadsIn cx srcs extra i).any fun w => l.bad.get? w == some false)
      || [srcs.a, srcs.b, srcs.x].any fun x => x.badLatch l i

/-- The word reads bad data that has no duplicate (R54, R58). -/
def parityFails (cx : LaneCx) (l : Lanes) (c : LaneCtl) (srcs : Sources) (extra : List (Opnd × Nat)) : Bool :=
  !(badLanes cx l c srcs extra).isEmpty

/-- Words of a role on a core are rewritten from their duplicates, and counted, whatever becomes of the role (R58,
R59). -/
def State.repair (s : State) (core rk : Nat) (ws : List Nat) : State :=
  let s1 := s.updCore core fun c => { c with repaired := Nat.min (c.repaired + ws.length) 0xFFFFFFFF }
  if s.hasRole rk then s1.updRole rk fun r => { r with lanes := r.lanes.goodWords ws } else s1

/-- The lanes of a record as a number (R339). -/
def laneBits (ls : List Nat) : Nat := ls.foldl (fun n i => n + 2 ^ i) 0

/-- A machine check raised by register parity in some lanes (R58, R59, R337). -/
def State.parityCheck (s : State) (rk : Nat) (lanes : List Nat) : State :=
  (s.updCore (s.coreOf rk) fun c => { c with mchk := Nat.min (c.mchk + 1) 0xFFFF }).machineCheck rk true 1 0 0
    (laneBits lanes)

/-- No register word, latched value or latch entry is marked bad. -/
def Lanes.clean (l : Lanes) : Bool :=
  l.bad.isEmpty && l.latches.all fun e => match e with | some x => x.bad.isEmpty && !x.spoilt | none => true

/-- Run a word whose reads may meet bad parity, in a register word (R58) or in the operand latch (R335, R337). Only
roles have bad words. -/
def withParity (s : State) (cx : LaneCx) (l : Lanes) (c : LaneCtl) (srcs : Sources) (extra : List (Opnd × Nat))
    (r : Res) : Res :=
  match s.cur with
  | .lane rk =>
    if l.clean then r
    else if [srcs.a, srcs.b, srcs.x].any fun x => x.spoilt l then .next (s.precise rk (s.machineCheck rk true 5 0 0 (laneBits (l.list (l.active c)))))
    else if parityFails cx l c srcs extra then .next (s.precise rk (s.parityCheck rk (badLanes cx l c srcs extra)))
    else
      let ws := (laneReads cx l c srcs extra ++ heldReads cx l c srcs).dedup.filter fun w => l.bad.get? w == some true
      (match r with | .next t => .next (if ws.isEmpty then t else t.repair (s.coreOf rk) rk ws) | x => x)
  | _ => r

/-- The frame of a lane word: its agent, the resources it names, its hold, the parity of what it reads; then what it
does. -/
def laneFrameR (s : State) (c : LaneCtl) (srcs : Sources) (dsts extra : List (Opnd × Nat))
    (k : LaneCx → Lanes → Res) : Res :=
  match s.laneNow with
  | none => .fault .wrongAgent
  | some (cx, l) =>
    if wordPresent cx l c.hold srcs dsts then
      withParity s cx l c srcs (extra ++ dsts.filter fun e => decide (e.2 < 4)) (k cx l)
    else .next (s.laneFault .illegal)

/-- The frame of a word that reads its sources only. -/
def laneFrame (s : State) (c : LaneCtl) (srcs : Sources) (dsts : List (Opnd × Nat))
    (k : LaneCx → Lanes → Res) : Res :=
  laneFrameR s c srcs dsts [] k

/-- The stall clk of a pass that reads some register words: bank reads beyond one for each bank (R52, R53). -/
def stallClks (ws : List Nat) : Nat := ws.length - ((ws.map fun w => w % 4).dedup).length

/-- The register words that the sources of a pass read, by their numbers. -/
def Sources.reads (x : Sources) (cx : LaneCx) : List Nat := x.a.words cx 0 ++ x.b.words cx 0 ++ x.x.words cx 0

/-- The stall clk of a role's issued passes are charged (R53, R382). -/
def State.chargeStall (s : State) (l : Lanes) (ws : List Nat) : State :=
  match s.cur with
  | .lane rk =>
    let n := l.passes.length * stallClks ws
    if n = 0 then s else s.chargeTeam (teamOf rk) (160 * n)
  | _ => s

/-- The word is complete: its stall clk, its hold, the lanes it leaves, its saturation events (R53, R54, R111). `l` are the
lanes it read, `ws` the register words that a pass of it reads. -/
def State.laneEnd (s : State) (c : LaneCtl) (cx : LaneCx) (l : Lanes) (srcs : Sources) (ws : List Nat) (o : LaneOut) : State :=
  ((s.chargeStall l ws).laneDone c.sw (o.lanes.hold l cx c.hold srcs)).laneSat o.sat

/-- See `State.laneEnd`. -/
def State.laneFinish (s : State) (c : LaneCtl) (cx : LaneCx) (l : Lanes) (srcs : Sources) (o : LaneOut) : State :=
  s.laneEnd c cx l srcs (srcs.reads cx) o

/-- A word that only reads and writes lanes. -/
def laneWordOp (s : State) (c : LaneCtl) (srcs : Sources) (dsts : List (Opnd × Nat))
    (f : LaneCx → Lanes → LaneOut) : Res :=
  laneFrame s c srcs dsts fun cx l => .next (s.laneFinish c cx l srcs (f cx l))

/-- Each active lane's destination gets a value of `n` bytes (R45, R95). -/
def Lanes.mapTo (l : Lanes) (cx : LaneCx) (ls : List Nat) (d : Opnd) (n : Nat) (f : Nat → Nat) : Lanes :=
  ls.foldl (fun m i => opWrite d cx m i n (f i)) l

/-- Each listed lane's bit of a predicate gets a value; the others keep theirs (R95). -/
def Lanes.mapPred (l : Lanes) (ls : List Nat) (kd : Nat) (f : Nat → Bool) : Lanes :=
  l.setPred kd ((l.pred kd &&& ~~~maskOf ls) ||| maskOf (ls.filter f))

/-- The active lanes of a word, ascending (R125). -/
def Lanes.actives (l : Lanes) (c : LaneCtl) : List Nat := l.list (l.active c)

/-- A class S word of up to three sources that writes one destination of `n` bytes in each active
lane. -/
def laneMap (s : State) (c : LaneCtl) (srcs : Sources) (d : Opnd) (n : Nat)
    (f : Nat → Nat → Nat → Nat) : Res :=
  laneWordOp s c srcs [(d, n)] fun cx l =>
    ⟨l.mapTo cx (l.actives c) d n fun i => f (srcs.a.val cx l i) (srcs.b.val cx l i) (srcs.x.val cx l i), 0⟩

/-- A class S word that writes one predicate bit in each active lane (R95). -/
def laneTest (s : State) (c : LaneCtl) (srcs : Sources) (kd : BitVec 4) (f : Nat → Nat → Bool) : Res :=
  laneWordOp s c srcs [] fun cx l =>
    ⟨l.mapPred (l.actives c) kd.toNat fun i => f (srcs.a.val cx l i) (srcs.b.val cx l i), 0⟩

/-- A result that has issued and has not returned: class L (R96, R155). -/
def Lanes.pendTo (l : Lanes) (d : NMap Byte) : Lanes := { l with pend := l.pend ++ [⟨0, true, false, d, []⟩] }

/-- The bytes of a destination as a result map. -/
def resultBytes (d : Opnd) (cx : LaneCx) (n : Nat) (vals : List (Nat × Nat)) : NMap Byte :=
  match opStart d cx with
  | none => []
  | some b => vals.foldl (fun m e =>
      ((rangeFrom b n).zip (leBytes n e.2)).foldl (fun m q => m.put (rkey e.1 q.1) q.2) m) []

/-- The result of a word is written at once in a row (R355), and outstanding in a role (R96). -/
def State.classL (s : State) (l : Lanes) (cx : LaneCx) (d : Opnd) (n : Nat) (vals : List (Nat × Nat)) : Lanes :=
  match s.cur with
  | .lane _ => if vals.isEmpty then l else l.pendTo (resultBytes d cx n vals)
  | _ => vals.foldl (fun m e => opWrite d cx m e.1 n e.2) l

end Sys2Proof.Machine
end

