-- ==== Sys2Proof/Machine/LaneInt.lean ====
section
/-! DEFINITION. The integer forms of the lane stream (R99 to R104) and the moves (R146). -/

namespace Sys2Proof.Machine
open Sys2Proof

/-- `ival` of R101. -/
def ival (t : ITy) (v : Nat) : Int :=
  match t with
  | .i32 => toSigned 32 v | .n32 => v | .i64 => toSigned 64 v | .n64 => v

/-- The limits of an integer type (R101). -/
def ityRange : ITy → Int × Int
  | .i32 => (-2 ^ 31, 2 ^ 31 - 1) | .n32 => (0, 2 ^ 32 - 1)
  | .i64 => (-2 ^ 63, 2 ^ 63 - 1) | .n64 => (0, 2 ^ 64 - 1)

/-- Fit an exact integer to a type: clamp under SAT, wrap otherwise (R101). -/
def fitInt (t : ITy) (sat : Bool) (v : Int) : Nat :=
  if sat then wrapInt t.width (Min.min (Max.max v (ityRange t).1) (ityRange t).2) else wrapInt t.width v

/-- The sources `a`, `b` at a width. -/
def srcAB (w : OpW) (a b : Opnd) : Sources := ⟨.op a w, .op b w, .none⟩

/-- The source `a` at a width. -/
def srcA (w : OpW) (a : Opnd) : Sources := ⟨.op a w, .none, .none⟩

/-- The sources `a` and the immediate of an LI word. -/
def srcAI (w : OpW) (a : Opnd) (i : W32) : Sources := ⟨.op a w, .imm i w, .none⟩

/-- An arithmetic form of R101 on its sources. -/
def arith (s : State) (c : LaneCtl) (t : ITy) (sat : Bool) (d : Opnd) (srcs : Sources)
    (f : Int → Int → Int → Int) : Res :=
  laneMap s c srcs d (ityW t).bytes fun x y z => fitInt t sat (f (ival t x) (ival t y) (ival t z))

/-- The operand width in bits of a form whose IT is 0 or 2 (R99). -/
def bitsN (w64 : Bool) : Nat := if w64 then 64 else 32

/-- A bitwise form of R100 on its sources. -/
def bitwise (s : State) (c : LaneCtl) (w64 : Bool) (d : Opnd) (srcs : Sources) (f : Nat → Nat → Nat) : Res :=
  laneMap s c srcs d (bitsW w64).bytes fun x y _ => f x y

/-- `a and not b` on `n` bits. -/
def andNot (n x y : Nat) : Nat := x &&& (2 ^ n - 1 - y % 2 ^ n)

/-- Shift right with sign fill on `n` bits (R100). -/
def sraNat (n x k : Nat) : Nat := wrapInt n (toSigned n x / 2 ^ k)

/-- Rotate left on `n` bits (R100). -/
def rotNat (n x k : Nat) : Nat := (x * 2 ^ k) % 2 ^ n + x / 2 ^ (n - k)

/-- Position and length of a bit field (R103). -/
def fieldPos (f : BfSel) (bval : Nat) : Nat × Nat :=
  match f with
  | .const p l => (p.toNat, l.toNat + 1)
  | .var _ => (fieldOf bval 0 6, fieldOf bval 8 6 + 1)

/-- The bits of the field inside the word (R103). -/
def fieldBits (w p len : Nat) : Nat := if w ≤ p then 0 else Nat.min len (w - p)

/-- VBFEXT of R103. -/
def bfextNat (w : Nat) (signed : Bool) (p len x : Nat) : Nat :=
  let n := fieldBits w p len
  let f := x / 2 ^ p % 2 ^ n
  if signed && decide (0 < n) && bitOf f (n - 1) then f + (2 ^ w - 2 ^ n) else f

/-- VBFINS of R103: `x` supplies the field, `z` the rest. -/
def bfinsNat (w p len x z : Nat) : Nat :=
  let mk := (2 ^ fieldBits w p len - 1) * 2 ^ p
  (z &&& (2 ^ w - 1 - mk % 2 ^ w)) ||| ((x * 2 ^ p) % 2 ^ w &&& mk)

/-- Operand b of a bit-field form (R103). -/
def bfSource (f : BfSel) (w : OpW) : Source :=
  match f with
  | .const _ _ => .none
  | .var b => .op b w

/-- Is an integer type signed (R99)? -/
def itySigned : ITy → Bool
  | .i32 => true | .n32 => false | .i64 => true | .n64 => false

/-- VADD (R100, R101). -/
def execVadd (c : LaneCtl) (t : ITy) (sat : Bool) (d a b : Opnd) (s : State) : Res :=
  arith s c t sat d (srcAB (ityW t) a b) fun x y _ => x + y

/-- VSUB (R100, R101). -/
def execVsub (c : LaneCtl) (t : ITy) (sat : Bool) (d a b : Opnd) (s : State) : Res :=
  arith s c t sat d (srcAB (ityW t) a b) fun x y _ => x - y

/-- VMUL (R100, R101). -/
def execVmul (c : LaneCtl) (t : ITy) (d a b : Opnd) (s : State) : Res :=
  arith s c t false d (srcAB (ityW t) a b) fun x y _ => x * y

/-- VMULH (R100, R101): the division rounds down. -/
def execVmulh (c : LaneCtl) (t : ITy) (d a b : Opnd) (s : State) : Res :=
  arith s c t false d (srcAB (ityW t) a b) fun x y _ => x * y / 2 ^ t.width

/-- VMAD (R100, R101). -/
def execVmad (c : LaneCtl) (t : ITy) (d a b x : Opnd) (s : State) : Res :=
  arith s c t false d ⟨.op a (ityW t), .op b (ityW t), .op x (ityW t)⟩ fun x y z => x * y + z

/-- VMIN (R100, R101). -/
def execVmin (c : LaneCtl) (t : ITy) (d a b : Opnd) (s : State) : Res :=
  arith s c t false d (srcAB (ityW t) a b) fun x y _ => Min.min x y

/-- VMAX (R100, R101). -/
def execVmax (c : LaneCtl) (t : ITy) (d a b : Opnd) (s : State) : Res :=
  arith s c t false d (srcAB (ityW t) a b) fun x y _ => Max.max x y

/-- VABS (R100, R101). -/
def execVabs (c : LaneCtl) (w64 sat : Bool) (d a : Opnd) (s : State) : Res :=
  let t : ITy := if w64 then .i64 else .i32
  arith s c t sat d (srcA (ityW t) a) fun x _ _ => (x.natAbs : Int)

/-- VAND (R100, R101). -/
def execVand (c : LaneCtl) (w64 : Bool) (d a b : Opnd) (s : State) : Res :=
  bitwise s c w64 d (srcAB (bitsW w64) a b) fun x y => x &&& y

/-- VOR (R100, R101). -/
def execVor (c : LaneCtl) (w64 : Bool) (d a b : Opnd) (s : State) : Res :=
  bitwise s c w64 d (srcAB (bitsW w64) a b) fun x y => x ||| y

/-- VXOR (R100, R101). -/
def execVxor (c : LaneCtl) (w64 : Bool) (d a b : Opnd) (s : State) : Res :=
  bitwise s c w64 d (srcAB (bitsW w64) a b) fun x y => x ^^^ y

/-- VANDN (R100, R101). -/
def execVandn (c : LaneCtl) (w64 : Bool) (d a b : Opnd) (s : State) : Res :=
  bitwise s c w64 d (srcAB (bitsW w64) a b) fun x y => andNot (bitsN w64) x y

/-- VSHL (R100, R101). -/
def execVshl (c : LaneCtl) (w64 : Bool) (d a b : Opnd) (s : State) : Res :=
  bitwise s c w64 d (srcAB (bitsW w64) a b) fun x y => x * 2 ^ (y % bitsN w64) % 2 ^ bitsN w64

/-- VSHR (R100, R101). -/
def execVshr (c : LaneCtl) (w64 : Bool) (d a b : Opnd) (s : State) : Res :=
  bitwise s c w64 d (srcAB (bitsW w64) a b) fun x y => x / 2 ^ (y % bitsN w64)

/-- VSRA (R100, R101). -/
def execVsra (c : LaneCtl) (w64 : Bool) (d a b : Opnd) (s : State) : Res :=
  bitwise s c w64 d (srcAB (bitsW w64) a b) fun x y => sraNat (bitsN w64) x (y % bitsN w64)

/-- VROT (R100, R101). -/
def execVrot (c : LaneCtl) (w64 : Bool) (d a b : Opnd) (s : State) : Res :=
  bitwise s c w64 d (srcAB (bitsW w64) a b) fun x y => rotNat (bitsN w64) x (y % bitsN w64)

/-- VPOPC (R100, R101). -/
def execVpopc (c : LaneCtl) (w64 : Bool) (d a : Opnd) (s : State) : Res :=
  bitwise s c w64 d (srcA (bitsW w64) a) fun x _ => popcNat x (bitsN w64)

/-- VCLZ (R100, R101). -/
def execVclz (c : LaneCtl) (w64 : Bool) (d a : Opnd) (s : State) : Res :=
  bitwise s c w64 d (srcA (bitsW w64) a) fun x _ => clzNat x (bitsN w64)

/-- VBREV (R100, R101). -/
def execVbrev (c : LaneCtl) (w64 : Bool) (d a : Opnd) (s : State) : Res :=
  bitwise s c w64 d (srcA (bitsW w64) a) fun x _ => brevNat x (bitsN w64) (bitsN w64)

/-- VBFEXT (R103). -/
def execVbfext (c : LaneCtl) (t : ITy) (f : BfSel) (d a : Opnd) (s : State) : Res :=
  laneMap s c ⟨.op a (ityW t), bfSource f (ityW t), .none⟩ d (ityW t).bytes fun x y _ =>
    bfextNat t.width (itySigned t) (fieldPos f y).1 (fieldPos f y).2 x

/-- VBFINS (R103). -/
def execVbfins (c : LaneCtl) (w64 : Bool) (f : BfSel) (d a x : Opnd) (s : State) : Res :=
  laneMap s c ⟨.op a (bitsW w64), bfSource f (bitsW w64), .op x (bitsW w64)⟩ d (bitsW w64).bytes fun x y z =>
    bfinsNat (bitsN w64) (fieldPos f y).1 (fieldPos f y).2 x z

/-- VCLMUL (R104). -/
def execVclmul (c : LaneCtl) (w64 high : Bool) (d a b : Opnd) (s : State) : Res :=
  bitwise s c w64 d (srcAB (bitsW w64) a b) fun x y =>
    let p := clmulNat x y (bitsN w64)
    if high then p / 2 ^ bitsN w64 else p % 2 ^ bitsN w64

/-- VSEL (R102). -/
def execVsel (c : LaneCtl) (w64 : Bool) (ks : BitVec 4) (d a b : Opnd) (s : State) : Res :=
  let srcs := srcAB (bitsW w64) a b
  laneWordOp s c srcs [(d, (bitsW w64).bytes)] fun cx l =>
    ⟨l.mapTo cx (l.actives c) d (bitsW w64).bytes fun i =>
      if (l.pred ks.toNat).getLsbD i then srcs.a.val cx l i else srcs.b.val cx l i, 0⟩

/-- VCMP (R102). -/
def execVcmp (c : LaneCtl) (t : ITy) (cond : ICond) (kd : BitVec 4) (a b : Opnd) (s : State) : Res :=
  laneTest s c (srcAB (ityW t) a b) kd fun x y => icondHolds cond (ival t x) (ival t y)

/-- The immediate form of VADD (R78, R98, R101). -/
def execVaddImm (c : LaneCtl) (t : ITy) (sat : Bool) (d a : Opnd) (i : W32) (s : State) : Res :=
  arith s c t sat d (srcAI (ityW t) a i) fun x y _ => x + y

/-- The immediate form of VSUB (R78, R98, R101). -/
def execVsubImm (c : LaneCtl) (t : ITy) (sat : Bool) (d a : Opnd) (i : W32) (s : State) : Res :=
  arith s c t sat d (srcAI (ityW t) a i) fun x y _ => x - y

/-- The immediate form of VMUL (R78, R98, R101). -/
def execVmulImm (c : LaneCtl) (t : ITy) (d a : Opnd) (i : W32) (s : State) : Res :=
  arith s c t false d (srcAI (ityW t) a i) fun x y _ => x * y

/-- The immediate form of VMIN (R78, R98, R101). -/
def execVminImm (c : LaneCtl) (t : ITy) (d a : Opnd) (i : W32) (s : State) : Res :=
  arith s c t false d (srcAI (ityW t) a i) fun x y _ => Min.min x y

/-- The immediate form of VMAX (R78, R98, R101). -/
def execVmaxImm (c : LaneCtl) (t : ITy) (d a : Opnd) (i : W32) (s : State) : Res :=
  arith s c t false d (srcAI (ityW t) a i) fun x y _ => Max.max x y

/-- The immediate form of VAND (R78, R98, R101). -/
def execVandImm (c : LaneCtl) (w64 : Bool) (d a : Opnd) (i : W32) (s : State) : Res :=
  bitwise s c w64 d (srcAI (bitsW w64) a i) fun x y => x &&& y

/-- The immediate form of VOR (R78, R98, R101). -/
def execVorImm (c : LaneCtl) (w64 : Bool) (d a : Opnd) (i : W32) (s : State) : Res :=
  bitwise s c w64 d (srcAI (bitsW w64) a i) fun x y => x ||| y

/-- The immediate form of VXOR (R78, R98, R101). -/
def execVxorImm (c : LaneCtl) (w64 : Bool) (d a : Opnd) (i : W32) (s : State) : Res :=
  bitwise s c w64 d (srcAI (bitsW w64) a i) fun x y => x ^^^ y

/-- The immediate form of VANDN (R78, R98, R101). -/
def execVandnImm (c : LaneCtl) (w64 : Bool) (d a : Opnd) (i : W32) (s : State) : Res :=
  bitwise s c w64 d (srcAI (bitsW w64) a i) fun x y => andNot (bitsN w64) x y

/-- The immediate form of VCMP (R78, R98, R102). -/
def execVcmpImm (c : LaneCtl) (t : ITy) (cond : ICond) (kd : BitVec 4) (a : Opnd) (i : W32) (s : State) : Res :=
  laneTest s c (srcAI (ityW t) a i) kd fun x y => icondHolds cond (ival t x) (ival t y)

/-! ## Moves -/

/-- VMOV (R146). -/
def execVmov (c : LaneCtl) (w64 : Bool) (d a : Opnd) (s : State) : Res :=
  laneMap s c (srcA (bitsW w64) a) d (bitsW w64).bytes fun x _ _ => x

/-- VMOVI (R146). -/
def execVmovi (c : LaneCtl) (ext : Fin 3) (d : Opnd) (i : W32) (s : State) : Res :=
  let w : OpW := match ext.val with | 0 => .w32 | 1 => .s64 | _ => .n64
  laneMap s c ⟨.none, .none, .none⟩ d w.bytes fun _ _ _ => extImm w i

/-- VNOP (R146). -/
def execVnop (sw : Bool) (s : State) : Res :=
  match s.laneNow with
  | none => .fault .wrongAgent
  | some (_, l) => .next (s.laneDone sw l)

end Sys2Proof.Machine
end

