-- ==== Sys2Proof/Machine/LaneFloat.lean ====
section
/-! DEFINITION. The floating-point forms of the lane stream (R105 to R110). -/

namespace Sys2Proof.Machine
open Sys2Proof

/-- The element format of FT (R105). -/
def ftFF : FTy → FF
  | .f32 => .f32 | .f16x2 => .f16 | .bf16x2 => .bf16

/-- The elements of a 32-bit word, element 0 first (R106). -/
def ftElems (t : FTy) (v : Nat) : List Nat :=
  match t with
  | .f32 => [v % 2 ^ 32]
  | _ => [v % 2 ^ 16, v / 2 ^ 16 % 2 ^ 16]

/-- A word from its elements. -/
def ftPack (t : FTy) (es : List Nat) : Nat :=
  match t with
  | .f32 => es.getD 0 0
  | _ => es.getD 0 0 + 2 ^ 16 * es.getD 1 0

/-- What a lane or a row of lanes has computed so far: values by lane, the generator, saturation
events. -/
structure Drawn where
  vals : List (Nat × Nat)
  rng : W32
  sat : Nat
  deriving DecidableEq, Repr

/-- Compute a value for each listed lane in order, passing the generator on (R20). -/
def drawAll (f : Nat → W32 → Nat × W32 × Nat) : List Nat → W32 → Drawn
  | [], g => ⟨[], g, 0⟩
  | i :: t, g =>
    let r := f i g
    let d := drawAll f t r.2.1
    ⟨(i, r.1) :: d.vals, d.rng, r.2.2 + d.sat⟩

/-- Round the exact values of one lane in element order (R17, R20). -/
def roundElems (f : FF) (m : Rnd) (sat : Bool) : List XVal → W32 → List Nat × W32
  | [], g => ([], g)
  | x :: t, g =>
    let r := roundDraw g x f m sat
    let q := roundElems f m sat t r.2
    (r.1.bits :: q.1, q.2)

/-- Write each lane's value to the destination, as class S or class L. -/
def State.writeVals (s : State) (l : Lanes) (cx : LaneCx) (late : Bool) (d : Opnd) (n : Nat)
    (vals : List (Nat × Nat)) : Lanes :=
  if late then s.classL l cx d n vals else vals.foldl (fun m e => opWrite d cx m e.1 n e.2) l

/-- A rounding form (R108): the exact value of each element, rounded. -/
def floatOp (s : State) (c : LaneCtl) (m : FMode) (late : Bool) (d : Opnd) (srcs : Sources)
    (f : XVal → XVal → XVal → XVal) : Res :=
  laneWordOp s c srcs [(d, 4)] fun cx l =>
    let val (x : Source) (i : Nat) : List XVal := (ftElems m.ft (x.val cx l i)).map (decodeF (ftFF m.ft))
    let r := drawAll (fun i g =>
      let vs := List.zipWith (fun xy z => f xy.1 xy.2 z) ((val srcs.a i).zip (val srcs.b i)) (val srcs.x i)
      let q := roundElems (ftFF m.ft) m.rnd m.sat vs g
      (ftPack m.ft q.1, q.2, 0)) (l.actives c) l.rng
    ⟨{ s.writeVals l cx late d 4 r.vals with rng := r.rng }, 0⟩

/-- A form that maps elements to elements without rounding (R109, R110). -/
def elemOp (s : State) (c : LaneCtl) (t : FTy) (d : Opnd) (srcs : Sources) (f : FF → Nat → Nat → Nat) : Res :=
  laneMap s c srcs d 4 fun x y _ => ftPack t (List.zipWith (f (ftFF t)) (ftElems t x) (ftElems t y))

/-- The exact value of VFMA (R108). -/
def xfma (rdn na nc : Bool) (x y z : XVal) : XVal :=
  match firstNan [x, y, z] with
  | some s => .nan s
  | none =>
    let p := xmul x y
    xadd rdn (if na then p.flip else p) (if nc then z.flip else z)

/-- VFADD (R107, R108). -/
def execVfadd (c : LaneCtl) (m : FMode) (d a b : Opnd) (s : State) : Res :=
  floatOp s c m false d (srcAB .w32 a b) fun x y _ => xadd (m.rnd == .rdn) x y

/-- VFSUB (R107, R108). -/
def execVfsub (c : LaneCtl) (m : FMode) (d a b : Opnd) (s : State) : Res :=
  floatOp s c m false d (srcAB .w32 a b) fun x y _ => xadd (m.rnd == .rdn) x y.flip

/-- VFMUL (R107, R108). -/
def execVfmul (c : LaneCtl) (m : FMode) (d a b : Opnd) (s : State) : Res :=
  floatOp s c m false d (srcAB .w32 a b) fun x y _ => xmul x y

/-- VFMA (R107, R108). -/
def execVfma (c : LaneCtl) (m : FMode) (na nc : Bool) (d a b x : Opnd) (s : State) : Res :=
  floatOp s c m false d ⟨.op a .w32, .op b .w32, .op x .w32⟩ (xfma (m.rnd == .rdn) na nc)

/-- VFMIN (R109). -/
def execVfmin (c : LaneCtl) (t : FTy) (d a b : Opnd) (s : State) : Res :=
  elemOp s c t d (srcAB .w32 a b) fun f x y => fminmax f false x y

/-- VFMAX (R109). -/
def execVfmax (c : LaneCtl) (t : FTy) (d a b : Opnd) (s : State) : Res :=
  elemOp s c t d (srcAB .w32 a b) fun f x y => fminmax f true x y

/-- VFCMP (R109). -/
def execVfcmp (c : LaneCtl) (cond : FCond) (kd : BitVec 4) (a b : Opnd) (s : State) : Res :=
  laneTest s c (srcAB .w32 a b) kd fun x y => fcondHolds cond (decodeF .f32 x) (decodeF .f32 y)

/-- VFRCP (R107, R108), class L. -/
def execVfrcp (c : LaneCtl) (m : FMode) (d a : Opnd) (s : State) : Res :=
  floatOp s c m true d (srcA .w32 a) fun x _ _ => xrcp x

/-- VFRSQ (R107, R108), class L. -/
def execVfrsq (c : LaneCtl) (m : FMode) (d a : Opnd) (s : State) : Res :=
  floatOp s c m true d (srcA .w32 a) fun x _ _ => xrsq x

/-- VFSQRT (R107, R108), class L. -/
def execVfsqrt (c : LaneCtl) (m : FMode) (d a : Opnd) (s : State) : Res :=
  floatOp s c m true d (srcA .w32 a) fun x _ _ => xsqrt x

/-- VFEXP2 (R107, R108), class L. -/
def execVfexp2 (c : LaneCtl) (m : FMode) (d a : Opnd) (s : State) : Res :=
  floatOp s c m true d (srcA .w32 a) fun x _ _ => xexp2 x

/-- VFLOG2 (R107, R108), class L. -/
def execVflog2 (c : LaneCtl) (m : FMode) (d a : Opnd) (s : State) : Res :=
  floatOp s c m true d (srcA .w32 a) fun x _ _ => xlog2 x

/-- VFTANH (R107, R108), class L. -/
def execVftanh (c : LaneCtl) (m : FMode) (d a : Opnd) (s : State) : Res :=
  floatOp s c m true d (srcA .w32 a) fun x _ _ => xtanh x

/-- VFCLASS (R110). -/
def execVfclass (c : LaneCtl) (t : FTy) (d a : Opnd) (s : State) : Res :=
  elemOp s c t d (srcA .w32 a) fun f x _ => fclassOf f x

/-- The immediate form of VFADD (R78, R108). -/
def execVfaddImm (c : LaneCtl) (m : FMode) (d a : Opnd) (i : W32) (s : State) : Res :=
  floatOp s c m false d (srcAI .w32 a i) fun x y _ => xadd (m.rnd == .rdn) x y

/-- The immediate form of VFSUB (R78, R108). -/
def execVfsubImm (c : LaneCtl) (m : FMode) (d a : Opnd) (i : W32) (s : State) : Res :=
  floatOp s c m false d (srcAI .w32 a i) fun x y _ => xadd (m.rnd == .rdn) x y.flip

/-- The immediate form of VFMUL (R78, R108). -/
def execVfmulImm (c : LaneCtl) (m : FMode) (d a : Opnd) (i : W32) (s : State) : Res :=
  floatOp s c m false d (srcAI .w32 a i) fun x y _ => xmul x y

/-- The immediate form of VFMIN (R78, R109). -/
def execVfminImm (c : LaneCtl) (t : FTy) (d a : Opnd) (i : W32) (s : State) : Res :=
  elemOp s c t d (srcAI .w32 a i) fun f x y => fminmax f false x y

/-- The immediate form of VFMAX (R78, R109). -/
def execVfmaxImm (c : LaneCtl) (t : FTy) (d a : Opnd) (i : W32) (s : State) : Res :=
  elemOp s c t d (srcAI .w32 a i) fun f x y => fminmax f true x y

/-- The immediate form of VFCMP (R78, R109). -/
def execVfcmpImm (c : LaneCtl) (cond : FCond) (kd : BitVec 4) (a : Opnd) (i : W32) (s : State) : Res :=
  laneTest s c (srcAI .w32 a i) kd fun x y => fcondHolds cond (decodeF .f32 x) (decodeF .f32 y)

end Sys2Proof.Machine
end

