-- ==== Sys2Proof/Machine/Waybill.lean ====
section
/-! DEFINITION. Waybills: records (R29, R30, R342, R343), updates and per-die deltas (R31, R32, R345),
merges (R346, R347), waybill reads (R348) and WBSYNC (R200, R349). -/

namespace Sys2Proof.Machine
open Sys2Proof

/-! ## Records -/

/-- The virtual address of record `idx` of a context (R342). -/
def Vf.wbVa (f : Vf) (idx : Nat) : Nat := fieldOf f.wbtBase.toNat 12 44 * 2 ^ 12 + 128 * idx

/-- `n` bytes of a record from `off` on. -/
def recField (bs : List Byte) (off n : Nat) : Nat := leNat ((bs.drop off).take n)

/-- STATE.VALID (R30). -/
def recValid (bs : List Byte) : Bool := bitOf (recField bs 16 8) 32

/-- What a look at a record finds. -/
inductive WbRes where
  | record (x : Xlat) (bs : List Byte)
  | unregistered
  | page (sub va ia : Nat)
  | mcheck (sub va pa : Nat)
  deriving DecidableEq, Repr

/-- Read a record of a context (R343); a table that does not translate holds no record (log 17). -/
def State.wbRecord (s : State) (vf idx : Nat) : WbRes :=
  let f := s.vf vf
  if fieldOf f.wbtCnt.toNat 0 24 ≤ idx then .unregistered
  else match s.xlat vf (f.wbVa idx) 128 false with
    | .ok x => if recValid (s.loadX x) then .record x (s.loadX x) else .unregistered
    | .page sub ia => .page sub (f.wbVa idx) ia
    | .mcheck pa => .mcheck (s.lostSub pa) (f.wbVa idx) pa
    | _ => .unregistered

/-! ## Merges -/

/-- The `f32` scale of R347 for an AMAX encoding. -/
def mergeScale (amax : Nat) : Nat :=
  match decodeF .f32 amax with
  | .fin _ n d =>
    if n = 0 then 0x3F800000
    else (Min.min (Max.max (ceilLog2 n d) (-126)) 127 + 127).toNat * 2 ^ 23
  | _ => 0x3F800000

/-- Sums clipped at a limit. -/
def clipAdd (lim a b : Nat) : Nat := Nat.min (a + b) lim

/-- The bins of a record after a merge. -/
def mergeBins (bs : List Byte) (d : Delta) : List Nat :=
  (List.range 32).map fun b => clipAdd 0xFFFFFF (recField bs (24 + 3 * b) 3) (d.bins.get 0 b)

/-- A sum of the merge was clipped (R347). -/
def mergeClips (bs : List Byte) (d : Delta) : Bool :=
  decide (2 ^ 64 ≤ recField bs 8 8 + d.count) ||
    (List.range 32).any fun b => decide (0xFFFFFF < recField bs (24 + 3 * b) 3 + d.bins.get 0 b)

/-- The record after a merge (R347). -/
def mergedRecord (bs : List Byte) (d : Delta) : List Byte :=
  let amax := Nat.max (recField bs 0 4) d.amax.toNat
  let st := recField bs 16 8
  let flags := b2n (bitOf st 35 || mergeClips bs d) * 8 + b2n (bitOf st 34 || d.infSeen) * 4
    + b2n (bitOf st 33 || d.nanSeen) * 2 + 1
  leBytes 4 amax ++ leBytes 4 (mergeScale amax) ++ leBytes 8 (clipAdd (2 ^ 64 - 1) (recField bs 8 8) d.count)
    ++ leBytes 4 (st + 1) ++ leBytes 4 flags ++ (mergeBins bs d).flatMap (leBytes 3) ++ leBytes 8 0

/-- A record that a waybill access of no particular role writes (R344). -/
def wbPageInfo (sub va ia : Nat) : RecInfo :=
  { code := .page, sub := sub, flags := 2, team := .open_, role := 0xFF, queue := 0xFF, pc := 0, va := va,
    pa := ia, lanes := 0 }

/-- A merge waits for the answer to a record of its own (R344, R416). -/
def State.holdMerge (s : State) (die : Nat) (by_ : Option Nat) (d : Delta) (i : RecInfo) : State :=
  let id := s.nextRec % 2 ^ 32
  (s.addRec d.vf { i with team := match by_ with | some tk => .of tk | none => i.team } none).updDie die fun k =>
    { k with held := k.held ++ [(id, d)] }

/-- Merge a delta into its home record (R347). A merge that takes a page fault waits for the answer (R344), and so does one
that meets a lost line, which it does not write (R336, log 75). `by_` is the team whose WBSYNC it is, if any. -/
def State.mergeDelta (s : State) (die : Nat) (by_ : Option Nat) (d : Delta) : State :=
  let va := (s.vf d.vf).wbVa d.idx
  match s.xlat d.vf va 128 true with
  | .ok x => if recValid (s.loadX x) then s.homeWriteX x (mergedRecord (s.loadX x) d) else s
  | .page sub ia => s.holdMerge die by_ d (wbPageInfo sub va ia)
  | .mcheck pa => s.holdMerge die by_ d { wbPageInfo (s.lostSub pa) va pa with code := .mcheck }
  | _ => s

/-- Does a delta belong to a pair of context and index? -/
def Delta.isFor (d : Delta) (vf idx : Nat) : Bool := d.vf == vf && d.idx == idx

/-- Merge the deltas of a die that satisfy a test (R346), for a team's WBSYNC or for none. -/
def State.mergeAs (s : State) (by_ : Option Nat) (die : Nat) (p : Delta → Bool) : State :=
  let ds := (s.die die).deltas.filter p
  ds.foldl (fun t d => t.mergeDelta die by_ d)
    (s.updDie die fun k => { k with deltas := k.deltas.filter fun d => !p d })

/-- Merge the deltas of a die that satisfy a test (R346). -/
def State.mergeWhere (s : State) (die : Nat) (p : Delta → Bool) : State := s.mergeAs none die p

/-- Merge every delta of a context on every die (R346). -/
def State.mergeAll (s : State) (vf : Nat) : State :=
  [0, 1, 2, 3].foldl (fun t die => t.mergeWhere die fun d => d.vf == vf) s

/-- No merge of a context on a die waits for an answer. -/
def State.noneHeldOn (s : State) (die vf : Nat) : Bool := (s.die die).held.all fun e => e.2.vf != vf

/-- No merge of a context waits for an answer. -/
def State.noneHeld (s : State) (vf : Nat) : Bool := [0, 1, 2, 3].all fun die => s.noneHeldOn die vf

/-- A held merge is made again (R344, R416). -/
def State.retryMerges (s : State) (recid : Nat) (by_ : Option Nat) : State :=
  [0, 1, 2, 3].foldl (fun t die =>
    let es := (t.die die).held.filter fun e => e.1 == recid
    es.foldl (fun u e => u.mergeDelta die by_ e.2)
      (t.updDie die fun k => { k with held := k.held.filter fun e => e.1 != recid })) s

/-- A held merge is given up: its updates are discarded (R344). -/
def State.dropMerges (s : State) (recid : Nat) : State :=
  [0, 1, 2, 3].foldl (fun t die =>
    t.updDie die fun k => { k with held := k.held.filter fun e => e.1 != recid }) s

/-! ## Updates -/

/-- The bin of an `f32` encoding (R31). -/
def wbBin (bits : Nat) : Nat := fieldOf bits 23 8 / 8

/-- A delta with nothing in it. -/
def Delta.fresh (vf idx age : Nat) : Delta :=
  { vf := vf, idx := idx, amax := 0, count := 0, bins := [], infSeen := false, nanSeen := false,
    updates := 0, age := age, ups := [] }

/-- One update of a delta by an `f32` value of a team (R31, R345). -/
def Delta.add (d : Delta) (tk bits : Nat) : Delta :=
  let v := decodeF .f32 bits
  let b := wbBin bits
  { d with
    count := d.count + 1
    bins := d.bins.set 0 b (Nat.min 0xFFFF (d.bins.get 0 b + 1))
    amax := if v.isFin then BitVec.ofNat 32 (Nat.max d.amax.toNat (bits % 2 ^ 31)) else d.amax
    infSeen := d.infSeen || v.isInf
    nanSeen := d.nanSeen || v.isNan
    updates := d.updates + 1
    ups := d.ups ++ [(tk, bits)] }

/-- A delta without a team's updates (R344). -/
def Delta.without (d : Delta) (tk : Nat) : Delta :=
  (d.ups.filter fun e => e.1 != tk).foldl (fun m e => m.add e.1 e.2) (Delta.fresh d.vf d.idx d.age)

/-- A team's unmerged updates are discarded, on every die (R344). -/
def State.dropUpdates (s : State) (tk : Nat) : State :=
  [0, 1, 2, 3].foldl (fun t die => t.updDie die fun k =>
    { k with
      deltas := (k.deltas.map fun d => d.without tk).filter fun d => d.updates != 0
      held := (k.held.map fun e => (e.1, e.2.without tk)).filter fun e => e.2.updates != 0 }) s

/-- The delta of a pair on a die, if it has one. -/
def State.deltaOf (s : State) (die vf idx : Nat) : Option Delta :=
  (s.die die).deltas.find? fun d => d.isFor vf idx

/-- Make room in a die's table for a new delta (R346). -/
def State.deltaRoom (s : State) (die : Nat) : State :=
  match (s.die die).deltas with
  | d :: _ => if 4096 ≤ (s.die die).deltas.length then s.mergeWhere die fun e => e == d else s
  | [] => s

/-- The update goes to the delta, which becomes the most recently updated one. -/
def State.deltaPut (s : State) (die : Nat) (d : Delta) : State :=
  s.updDie die fun k => { k with deltas := k.deltas.filter (fun e => !e.isFor d.vf d.idx) ++ [d] }

/-- One waybill update by an `f32` value of a team on a die, with the merges it triggers (R31, R345, R346). -/
def State.wbUpdate (s : State) (tk die vf idx bits : Nat) : State :=
  let full : Bool := match s.deltaOf die vf idx with
    | some d => decide (0xFFFF ≤ d.bins.get 0 (wbBin bits))
    | none => false
  let s1 := if full then s.mergeWhere die fun d => d.isFor vf idx else s
  let (d, s2) := match s1.deltaOf die vf idx with
    | some d => (d, s1)
    | none => (Delta.fresh vf idx s1.refTick.toNat, s1.deltaRoom die)
  let d1 := d.add tk bits
  let s3 := s2.deltaPut die d1
  if 4096 ≤ d1.updates then s3.mergeWhere die fun d => d.isFor vf idx else s3

/-- An element widened exactly to `f32` (R32). -/
def widenBits (f : FF) (bits : Nat) : Nat := (roundTo (decodeF f bits) .f32 .rne false 0).bits

/-- A waybill update by a role: logged in an open transaction, applied to the die's delta otherwise
(R122, R249, R345). -/
def State.wbFeed (s : State) (rk idx : Nat) (f : Fmt) (bits : Nat) : State :=
  if s.inTx (teamOf rk) then
    s.logAdd (teamOf rk) [⟨0, .waybill (fmtCode f), (fmtWidth f + 7) / 8, roleIdx rk, idx, bits⟩]
  else s.wbUpdate (teamOf rk) (dieOf (s.coreOf rk)) (s.vfOf rk) idx (widenBits ((fmtFF f).getD .f32) bits)

/-! ## Reads -/

/-- The AMAX a waybill read on a die returns: of the home record and of the die's delta, one whose
merge is in flight included (R348). -/
def State.wbAmax (s : State) (die vf idx : Nat) (bs : List Byte) : XVal :=
  let ds := (s.die die).deltas ++ (s.die die).held.map Prod.snd
  let d := (ds.filter fun e => e.isFor vf idx).foldl (fun n e => Nat.max n e.amax.toNat) 0
  decodeF .f32 (Nat.max (recField bs 0 4) d)

/-- A waybill access of a role that takes a page fault: its stream waits for the answer (R344). -/
def State.wbPage (s : State) (rk : Nat) (lane : Bool) (sub va ia : Nat) : State :=
  let p : Park := .page (some (s.nextRec % 2 ^ 32))
  (s.addRec (s.vfOf rk) { wbPageInfo sub va ia with team := .of (teamOf rk) } (some rk)).updRole rk fun r =>
    if lane then { r with lpark := p } else { r with spark := p }

/-! ## WBSYNC -/

/-- WBSYNC (R200, R346, R349): the die's delta merges; the stream parks while the merge waits, and makes no other one of the
pair meanwhile (R416). -/
def execWbsync (a : SReg) (s : State) : Res :=
  scalarOp s [a] none fun rk vs s =>
    let vf := s.vfOf rk
    let idx := (src vs 0).toNat
    let die := dieOf (s.coreOf rk)
    if s.updatesAhead rk then .next (s.parkS rk .wbsync)
    else match s.wbRecord vf idx with
      | .unregistered => .next (s.raiseS rk .opformat 0)
      | .page sub va ia => .next (s.wbPage rk false sub va ia)
      | .mcheck sub va pa => .next (s.machineCheck rk false sub va pa 0)
      | .record _ _ =>
        let waits := (s.die die).held.any fun e => e.2.isFor vf idx
        let s1 := if waits then s else s.mergeAs (some (teamOf rk)) die fun d => d.isFor vf idx
        if (s1.die die).held.any fun e => e.2.isFor vf idx then .next (s1.parkS rk .wbsync)
        else .next (s1.advance rk 4)

/-- WAYBILL_MERGE (R346): the die's delta of a pair merges. -/
def execWaybillMerge (die vf idx : Nat) (s : State) : Res :=
  .next (s.mergeWhere die fun d => d.isFor vf idx)

/-- WAYBILL_AGE_EXPIRY (R346): a delta whose oldest unmerged update is 32,768 ref ticks old merges. -/
def execWaybillAgeExpiry (die vf idx : Nat) (s : State) : Res :=
  .next (s.mergeWhere die fun d => d.isFor vf idx && decide (d.age + 32768 ≤ s.refTick.toNat))

end Sys2Proof.Machine
end

