-- ==== Sys2Proof/Machine/LaneConv.lean ====
section
/-! DEFINITION. Conversion and quantisation in the lane stream: VCVT (R112, R113), VQNT and VDQNT
(R114 to R119), VPACK and VUNPK (R120, R121), VWBUPD (R122). -/

namespace Sys2Proof.Machine
open Sys2Proof

/-! ## Elements of a word -/

/-- Element `i` of width `w` bits in a word (R113). -/
def wordElem (w i v : Nat) : Nat := v / 2 ^ (w * i) % 2 ^ w

/-- The bytes that writing element `i` of width `w` changes in the word at byte `b` of a lane, with
their new contents (R45). A 4-bit element shares its byte with its neighbour. -/
def elemBytes (l : Lanes) (free lane b w i v : Nat) : List (Nat × Byte) :=
  if w = 4 then
    let at_ := b + i / 2
    let old := (l.byte free lane at_).toNat
    let new := if i % 2 = 0 then old / 16 * 16 + v % 16 else old % 16 + v % 16 * 16
    [(at_, BitVec.ofNat 8 new)]
  else (rangeFrom (b + w / 8 * i) (w / 8)).zip (leBytes (w / 8) v)

/-- Write bytes of a lane. -/
def Lanes.putBytes (l : Lanes) (lane : Nat) (es : List (Nat × Byte)) : Lanes :=
  es.foldl (fun m e => m.putByte lane e.1 e.2) l

/-- Does a target feed the range monitor (R111)? -/
def fmtFeeds : Fmt → Bool
  | .e2m1 => true | .e4m3 => true | .e5m2 => true | _ => false

/-- Widening order of R13. -/
def fmtRank : Fmt → Nat
  | .e2m1 => 0 | .e4m3 => 1 | .e5m2 => 1 | .f16 => 2 | .bf16 => 2 | _ => 3

/-! ## VCVT -/

/-- The exact value of an element in a format (R9, R12). -/
def fmtVal (f : Fmt) (bits : Nat) : XVal :=
  match fmtFF f with
  | some ff => decodeF ff bits
  | none => .ofInt (intElem f bits)

/-- A floating-point result: exact when it widens, rounded otherwise; either way one draw under STOCH
(R13, R17, R113). -/
def convFloat (sf df : Fmt) (ff : FF) (rnd : Rnd) (sat : Bool) (x : XVal) (g : W32) : Rounded × W32 :=
  let r := roundDraw g x ff rnd sat
  if !sf.isInt && decide (fmtRank sf < fmtRank df) then (roundTo x ff .rne false 0, r.2) else r

/-- VCVT of one element: the word written, the generator, events (R111, R113). -/
def vcvtElem (sf df : Fmt) (rnd : Rnd) (sat : Bool) (bits : Nat) (g : W32) : Nat × W32 × Nat :=
  match fmtFF df with
  | some ff =>
    let r := convFloat sf df ff rnd sat (fmtVal sf bits) g
    (r.1.bits, r.2, b2n (r.1.event && fmtFeeds df))
  | none =>
    let t := if sf.isInt then clampInt df (intElem sf bits) else floatToInt (fmtVal sf bits) df rnd
    (wrapInt (if df.is64 then 64 else 32) t, g, 0)

/-- VCVT (R112, R113). It has no IT: an immediate reaches the 64 bits of an `i64` or `n64` source sign-extended
(DESIGN CHOICE, log 35). -/
def execVcvt (c : LaneCtl) (sf df : Fmt) (rnd : Rnd) (sat : Bool) (esel : BitVec 3) (d a : Opnd) (s : State) : Res :=
  let n := if df.is64 then 8 else 4
  let srcs := srcA (bitsW sf.is64) a
  laneWordOp s c srcs [(d, n)] fun cx l =>
    let r := drawAll (fun i g =>
      vcvtElem sf df rnd sat (wordElem (fmtWidth sf) esel.toNat (srcs.a.val cx l i)) g) (l.actives c) l.rng
    ⟨{ s.writeVals l cx false d n r.vals with rng := r.rng }, r.sat⟩

/-! ## VQNT and VDQNT -/

/-- The scale of a word as its slot gives it (R114). -/
inductive ScaleRes where
  | scale (v : XVal)
  | opformat
  | page (sub va ia : Nat)
  | mcheck (sub va pa : Nat)
  deriving DecidableEq, Repr

/-- The scale of a GEOM 0 slot: 1.0, or derived from the waybill (R33, R114, R116). -/
def State.slotScale (s : State) (rk : Nat) (sl : Slot) (ff : FF) : ScaleRes :=
  if !sl.src then .scale .one
  else
    let vf := s.vfOf rk
    match s.wbRecord vf sl.wbidx with
    | .unregistered => .opformat
    | .page sub va ia => .page sub va ia
    | .mcheck sub va pa => .mcheck sub va pa
    | .record _ bs => .scale (scaleOf (s.wbAmax (dieOf (s.coreOf rk)) vf sl.wbidx bs) ff sl.margin)

/-- The element formats of VQNT, VDQNT and CPCV (R115, R269). -/
def quantFF (f : Fmt) : Option FF := if f = .f32 then none else fmtFF f

/-- Operand b by the slot (R114, R119): a source under GEOM 2 and 3, and for VDQNT under GEOM 1. -/
def quantB (geom : Nat) (dequant : Bool) (b : Opnd) : Source :=
  if 2 ≤ geom ∨ (geom = 1 ∧ dequant) then .op b .w32 else .none

/-- The scale that a word's passes use (R116): with no pass issued nothing is read, and a record that cannot be read is no
fault of the word. -/
def ScaleRes.forPasses (x : ScaleRes) (l : Lanes) : ScaleRes :=
  match x with
  | .page _ _ _ => if l.passes.isEmpty then .scale .one else x
  | .mcheck _ _ _ => if l.passes.isEmpty then .scale .one else x
  | _ => x

/-- A word that reads or updates waybills waits for the updates that its role's earlier words have still to make (R116,
R122, R154, R348). -/
def State.waitUpdates (s : State) (rk : Nat) : State := s.updRole rk fun r => { r with lpark := .order }

/-- The frame of VQNT and VDQNT: the checks of R115 at issue, and the scale of a GEOM 0 slot. Where the slot asks for
b = 0x0000, any other b is OPFORMAT, also one that names an absent register or an unset view: R44 and R115 both apply, and
b is no operand of such a word (DESIGN CHOICE, log 70). -/
def quantFrame (s : State) (c : LaneCtl) (fs sel : BitVec 3) (dequant : Bool) (d a b : Opnd)
    (k : Nat → Slot → FF → XVal → Sources → LaneCx → Lanes → Res) : Res :=
  match s.cur with
  | .lane rk =>
    let sl := slotOf ((s.launchOf rk).fslot fs.toNat)
    let srcs : Sources := ⟨.op a .w32, quantB sl.geom dequant b, .none⟩
    let b2 : List (Opnd × Nat) := if sl.geom = 1 ∧ !dequant ∧ b.isDst then [(b, 4)] else []
    let part : List (Opnd × Nat) := if dequant then [] else if fmtWidth sl.efmt < 32 then (d, 4) :: b2 else b2
    laneFrameR s c srcs ((d, 4) :: b2) part fun cx l =>
      match quantFF sl.efmt with
      | none => .next (s.laneFault .opformat)
      | some ff =>
        if sl.efmt.perWord ≤ sel.toNat || (sl.geom == 0 && b != .v 0)
            || (sl.geom == 1 && !dequant && !b.isDst) then .next (s.laneFault .opformat)
        else if sl.src && (s.role rk).updatesPending then .next (s.waitUpdates rk)
        else match (s.slotScale rk sl ff).forPasses l with
          | .opformat => .next (s.laneFault .opformat)
          | .page sub va ia => .next (s.wbPage rk true sub va ia)
          | .mcheck sub va pa => .next (s.precise rk (s.machineCheck rk true sub va pa (laneBits (l.list (l.active c)))))
          | .scale v => k rk sl ff v srcs cx l
  | .row _ => .next (s.laneFault .illegal)
  | _ => .fault .wrongAgent

/-- One quantised element (R117): its encoding, whether it overflows with SAT clear, its event. -/
structure Quant where
  bits : Nat
  over_ : Bool
  event : Bool
  deriving DecidableEq, Repr

/-- Quantise one value by a scale (R34, R117). -/
def quantOne (ff : FF) (rnd : Rnd) (sat : Bool) (x scale : XVal) (g : W32) : Quant × W32 :=
  let q := xdiv x scale
  let r := roundDraw g q ff rnd sat
  let ovf : Bool := match q with
    | .inf _ => true
    | .fin _ _ _ => r.1.event
    | .nan _ => false
  (⟨r.1.bits, ovf && !sat, r.1.event⟩, r.2)

/-- The block of a group: the scale exponent and its code (R27, R117). -/
def groupBlock (srcs : Sources) (cx : LaneCx) (l : Lanes) (c : LaneCtl) (ff : FF) (g : Nat) : Int × Nat :=
  mxScale (((l.actives c).filter fun i => i / 32 == g).map fun i => decodeF .f32 (srcs.a.val cx l i)) ff

/-- All quantised elements of a word in lane order (R117). -/
def quantAll (sl : Slot) (ff : FF) (f : Nat → XVal × XVal) : List Nat → W32 → List (Nat × Quant) × W32
  | [], g => ([], g)
  | i :: t, g =>
    let r := quantOne ff sl.rnd (sl.sat || sl.geom == 1) (f i).1 (f i).2 g
    let q := quantAll sl ff f t r.2
    ((i, r.1) :: q.1, q.2)

/-- Write the elements, as class S or class L. -/
def writeElems (l : Lanes) (cx : LaneCx) (late : Bool) (d : Opnd) (w i : Nat)
    (vals : List (Nat × Nat)) : Lanes :=
  match opStart d cx with
  | none => l
  | some b =>
    if late then
      l.pendTo (vals.foldl (fun m e =>
        (elemBytes l cx.free e.1 b w i e.2).foldl (fun m q => m.put (rkey e.1 q.1) q.2) m) [])
    else vals.foldl (fun m e => m.putBytes e.1 (elemBytes m cx.free e.1 b w i e.2)) l

/-- VQNT (R114 to R118). A RESCALE trap is taken at the boundaries of R165: once the results of accepted LX words have
returned and no scalar access is half performed. -/
def execVqnt (c : LaneCtl) (fs dsel : BitVec 3) (d a b : Opnd) (s : State) : Res :=
  quantFrame s c fs dsel false d a b fun rk sl ff scale srcs cx l =>
    let sc (i : Nat) : XVal :=
      if sl.geom = 0 then scale
      else if sl.geom = 1 then .ofScaled false 1 (groupBlock srcs cx l c ff (i / 32)).1
      else decodeF .f32 (srcs.b.val cx l i)
    let r := quantAll sl ff (fun i => (decodeF .f32 (srcs.a.val cx l i), sc i)) (l.actives c) l.rng
    if r.1.any fun e => e.2.over_ then
      (if (s.role rk).lxOut ≠ 0 || !(s.role rk).part.isEmpty then .next (s.updRole rk fun r => { r with lpark := .order })
       else .next (s.userTrap rk 1 0 true (s.role rk).pc))
    else
      let w := fmtWidth sl.efmt
      let l1 := writeElems l cx sl.src d w dsel.toNat (r.1.map fun e => (e.1, e.2.bits))
      let l2 := if sl.geom = 1 then
          writeElems l1 cx false b 8 (w * dsel.toNat / 8)
            (r.1.map fun e => (e.1, (groupBlock srcs cx l c ff (e.1 / 32)).2))
        else l1
      let ev := if fmtFeeds sl.efmt then (r.1.filter fun e => e.2.event).length else 0
      .next (s.laneFinish c cx l srcs ⟨{ l2 with rng := r.2 }, ev⟩)

/-- VDQNT (R119). -/
def execVdqnt (c : LaneCtl) (fs esel : BitVec 3) (d a b : Opnd) (s : State) : Res :=
  quantFrame s c fs esel true d a b fun _ sl ff scale srcs cx l =>
    let w := fmtWidth sl.efmt
    let sc (i : Nat) : XVal :=
      if sl.geom = 0 then scale
      else if sl.geom = 1 then e8m0Val (wordElem 8 (w * esel.toNat / 8) (srcs.b.val cx l i))
      else decodeF .f32 (srcs.b.val cx l i)
    let vals := (l.actives c).map fun i =>
      (i, (roundTo (xmul (decodeF ff (wordElem w esel.toNat (srcs.a.val cx l i))) (sc i)) .f32 .rne false 0).bits)
    .next (s.laneFinish c cx l srcs ⟨s.writeVals l cx sl.src d 4 vals, 0⟩)

/-! ## VPACK and VUNPK -/

/-- One conversion of VPACK: encoding, generator, event (R120). -/
def packOne (df : Fmt) (rnd : Rnd) (sat : Bool) (x : XVal) (g : W32) : Nat × W32 × Nat :=
  match fmtFF df with
  | some ff =>
    let r := roundDraw g x ff rnd sat
    (r.1.bits, r.2, b2n (r.1.event && fmtFeeds df))
  | none => (wrapInt 8 (floatToInt x df rnd), g, 0)

/-- VPACK (R120): elements `2 POS` and `2 POS + 1` of the destination word. -/
def execVpack (c : LaneCtl) (df : Fmt) (rnd : Rnd) (sat : Bool) (pos : BitVec 2) (d a b : Opnd) (s : State) : Res :=
  let srcs := srcAB .w32 a b
  laneFrameR s c srcs [(d, 4)] (if fmtWidth df < 16 then [(d, 4)] else []) fun cx l => .next <| s.laneFinish c cx l srcs <|
    let w := fmtWidth df
    let r := drawAll (fun i g =>
      let p := packOne df rnd sat (decodeF .f32 (srcs.a.val cx l i)) g
      let q := packOne df rnd sat (decodeF .f32 (srcs.b.val cx l i)) p.2.1
      (p.1 + 2 ^ w * q.1, q.2.1, p.2.2 + q.2.2)) (l.actives c) l.rng
    ⟨{ writeElems l cx false d (2 * w) pos.toNat r.vals with rng := r.rng }, r.sat⟩

/-- The `f32` encoding of an element (R12, R13). -/
def widenElem (sf : Fmt) (bits : Nat) : Nat := (roundTo (fmtVal sf bits) .f32 .rne false 0).bits

/-- VUNPK (R121). -/
def execVunpk (c : LaneCtl) (sf : Fmt) (pos : BitVec 2) (d a : Opnd) (s : State) : Res :=
  laneMap s c (srcA .w32 a) d 8 fun x _ _ =>
    let w := fmtWidth sf
    widenElem sf (wordElem w (2 * pos.toNat) x) + 2 ^ 32 * widenElem sf (wordElem w (2 * pos.toNat + 1) x)

/-! ## VWBUPD -/

/-- What checking several records comes to. -/
inductive WbCheck where
  | ok
  | opformat
  | page (sub va ia : Nat)
  | mcheck (sub va pa : Nat)
  deriving DecidableEq, Repr

/-- Every named record is registered (R122). -/
def State.wbCheckAll (s : State) (vf : Nat) : List Nat → WbCheck
  | [] => .ok
  | i :: t =>
    match s.wbRecord vf i with
    | .record _ _ => s.wbCheckAll vf t
    | .unregistered => .opformat
    | .page sub va ia => .page sub va ia
    | .mcheck sub va pa => .mcheck sub va pa

/-- The format of FT's elements. -/
def ftFmt : FTy → Fmt
  | .f32 => .f32 | .f16x2 => .f16 | .bf16x2 => .bf16

/-- Several updates by a role in order. -/
def State.wbFeedAll (s : State) (rk : Nat) (f : Fmt) (us : List (Nat × Nat)) : State :=
  us.foldl (fun t u => t.wbFeed rk u.1 f u.2) s

/-- VWBUPD (R122). -/
def execVwbupd (c : LaneCtl) (t : FTy) (a b : Opnd) (s : State) : Res :=
  let srcs := srcAB .w32 a b
  match s.cur with
  | .lane rk =>
    laneFrame s c srcs [] fun cx l =>
      let us := (l.actives c).flatMap fun i =>
        (ftElems t (srcs.a.val cx l i)).map fun e => (srcs.b.val cx l i, e)
      if (s.role rk).updatesPending then .next (s.waitUpdates rk)
      else match s.wbCheckAll (s.vfOf rk) (us.map Prod.fst) with
      | .opformat => .next (s.laneFault .opformat)
      | .page sub va ia => .next (s.wbPage rk true sub va ia)
      | .mcheck sub va pa => .next (s.precise rk (s.machineCheck rk true sub va pa (laneBits (l.list (l.active c)))))
      | .ok =>
        if s.inTx (teamOf rk) && !s.logRoom (teamOf rk) us.length then .next (s.laneFault .txcap)
        else match s.wsLack (teamOf rk) us.length with
        | some p => .next ((s.startService (teamOf rk) p (some (.lane rk))).waitUpdates rk)
        | none => .next ((s.wbFeedAll rk (ftFmt t) us).laneFinish c cx l srcs ⟨l, 0⟩)
  | .row _ => .next (s.laneFault .illegal)
  | _ => .fault .wrongAgent

end Sys2Proof.Machine
end

