-- ==== Sys2Proof/Machine/LaneMem.lean ====
section
/-! DEFINITION. Lane memory words: addresses and legality (R76, R131 to R133), translation and the
operand log (R134, R158, R219 to R222), performing (R135, R136), waybill-tagged stores (R137), VATOM
(R138), VPREF (R139). -/

namespace Sys2Proof.Machine
open Sys2Proof

/-! ## Fields -/

/-- Bytes of an access width (R76). -/
def mwBytes : MWidth → Nat
  | .b8 => 1 | .b16 => 2 | .b32 => 4 | .b64 => 8 | .b128 => 16

/-- Register bytes of a data operand (R131). -/
def dataBytes (w : MWidth) : Nat := Nat.max (mwBytes w) 4

/-- The effective address of a lane (R76, R132). In global space the addr operand is 64 bits wide, and LM has no IT that
says how an immediate reaches that width: it is sign-extended (DESIGN CHOICE, log 35). -/
def memEa (m : LMem) (strided : Bool) (cx : LaneCx) (l : Lanes) (lane : Nat) : Nat :=
  let base := if m.sbase = 0 then 0 else (cx.snap.getD m.sbase.toNat 0).toNat
  let off := (m.off.signExtend 64).toNat
  let part :=
    if strided then lane * (sext64 32 (opVal m.addr cx l .w32 lane)).toNat
    else opVal m.addr cx l (if m.scratch then .w32 else .s64) lane
  (base + off + part) % 2 ^ 64

/-- The codes of ATOM's operations for VATOM's (R138); `fadd` has no code there. -/
def aopCode : AOp → Nat
  | .add => 0 | .and => 1 | .or => 2 | .xor => 3 | .min => 4 | .max => 5 | .minn => 6 | .maxn => 7
  | .swap => 8 | .cas => 9 | .fadd => 10

/-- The new value of a VATOM (R138): `d` the operand, `cmp` the compare value of cas. -/
def aopNew (op : AOp) (n old d cmp : Nat) : Nat :=
  match op with
  | .fadd => (roundTo (xadd false (decodeF .f32 old) (decodeF .f32 d)) .f32 .rne false 0).bits
  | _ => (atomFn (aopCode op) n old d cmp).1

/-- What kind of access a lane memory word makes. -/
inductive AccKind where
  | load (sx : Bool)
  | store (wb : Option (BitVec 3))
  | atomic (op : AOp) (red : Bool) (scope : Nat)
  deriving DecidableEq, Repr

/-- The fields of a lane memory word that its performing needs. -/
structure MemWord where
  m : LMem
  kind : AccKind
  strided : Bool
  deriving DecidableEq, Repr

/-- A lane memory word by its fields. -/
def memWord : Instr → Option MemWord
  | .vld _ m sx _ => some ⟨m, .load sx, false⟩
  | .vst _ m wb _ => some ⟨m, .store wb, false⟩
  | .vlds _ m sx _ => some ⟨m, .load sx, true⟩
  | .vsts _ m wb _ => some ⟨m, .store wb, true⟩
  | .vatom _ m op red sc _ => some ⟨m, .atomic op red sc.val, false⟩
  | _ => none

/-- Does the word write memory? -/
def AccKind.writes : AccKind → Bool
  | .load _ => false
  | _ => true

/-- Does the word return a value? -/
def AccKind.returns : AccKind → Bool
  | .load _ => true
  | .store _ => false
  | .atomic _ red _ => !red

/-- A global access that an open transaction logs (R249). -/
def State.logsAccess (s : State) (rk : Nat) (w : MemWord) : Bool :=
  s.inTx (teamOf rk) && !w.m.scratch && w.kind.writes

/-! ## Performing -/

/-- A loaded value extended to the data word (R131). -/
def extendLoad (sx : Bool) (n v : Nat) : Nat :=
  if sx && decide (n < 4) then (sext64 (8 * n) v).toNat % 2 ^ 32 else v

/-- The result bytes of one lane join the outstanding result. -/
def Lanes.fillPend (l : Lanes) (pid lane dst n v : Nat) : Lanes :=
  { l with pend := l.pend.map fun p =>
      if p.id = pid then
        { p with dest := ((rangeFrom dst n).zip (leBytes n v)).foldl (fun m e => m.put (rkey lane e.1) e.2) p.dest }
      else p }

/-- Fill one lane's result of a role. -/
def State.fillPend (s : State) (rk pid lane dst n v : Nat) : State :=
  s.updRole rk fun r => { r with lanes := r.lanes.fillPend pid lane dst n v }

/-- The packed elements of stored bytes (R137): `w` bits each, `n` bytes. -/
def storedElems (w n data : Nat) : List Nat := (List.range (8 * n / w)).map fun i => wordElem w i data

/-- The waybill updates of one lane's stored bytes (R137). -/
def State.storeUpdates (s : State) (rk : Nat) (wb : Option (BitVec 3)) (n data : Nat) : State :=
  match wb with
  | none => s
  | some fs =>
    let sl := slotOf ((s.launchOf rk).fslot fs.toNat)
    s.wbFeedAll rk sl.efmt ((storedElems (fmtWidth sl.efmt) n data).map fun e => (sl.wbidx, e))

/-- A loaded value joins the outstanding result; the last bytes of a lane's access also extend it (R131). -/
def State.fillLoad (s : State) (rk : Nat) (w : MemWord) (e : LogEntry) (a : LaneAcc) (sx : Bool) (v : Nat) : State :=
  if a.off + a.len = mwBytes w.m.width then
    s.fillPend rk e.pid a.lane (e.dst + a.off) (dataBytes w.m.width - a.off) (extendLoad sx a.len v)
  else s.fillPend rk e.pid a.lane (e.dst + a.off) a.len v

/-- The waybill updates of a lane's store are made with its first bytes (R137). -/
def State.accUpdates (s : State) (rk : Nat) (w : MemWord) (wb : Option (BitVec 3)) (a : LaneAcc) : State :=
  if a.off = 0 then s.storeUpdates rk wb (mwBytes w.m.width) a.data else s

/-- One access of a lane in scratch (R135, R136). -/
def State.laneScratch (s : State) (rk : Nat) (w : MemWord) (e : LogEntry) (a : LaneAcc) : State :=
  let n := a.len
  let tk := teamOf rk
  let old := leNat (s.scratchLoad tk a.ea n)
  match w.kind with
  | .load sx =>
    let s0 := s.noteScratch tk a.ea n
    let s1 := if w.m.fe = .waitClear then s0.setFull tk a.ea n false else s0
    s1.fillLoad rk w e a sx old
  | .store wb =>
    let s1 := s.scratchStore tk a.ea (leBytes n a.data)
    let s2 := if w.m.fe = .setFull then s1.setFull tk a.ea n true else s1
    s2.accUpdates rk w wb a
  | .atomic op red _ =>
    let v := aopNew op (8 * n) old (if op = .cas then a.data / 2 ^ (8 * n) else a.data) (a.data % 2 ^ (8 * n))
    let s1 := s.scratchStore tk a.ea (leBytes n v)
    if red then s1 else s1.fillPend rk e.pid a.lane e.dst n old

/-- One access of a lane in global space that translates (R135, R138, R250). -/
def State.laneGlobal (s : State) (rk : Nat) (w : MemWord) (e : LogEntry) (a : LaneAcc) (x : Xlat) : State :=
  let n := a.len
  let cl := s.holder rk
  match w.kind with
  | .load sx =>
    let v := leNat (s.roleLoad (teamOf rk) a.ea x)
    (s.updRole rk fun r => r.arm (linesOf x.part x.ia n)).fillLoad rk w e a sx v
  | .store wb => (s.storeX cl x (leBytes n a.data)).accUpdates rk w wb a
  | .atomic op red sc =>
    let old := leNat (s.loadX x)
    let v := aopNew op (8 * n) old (if op = .cas then a.data / 2 ^ (8 * n) else a.data) (a.data % 2 ^ (8 * n))
    let s1 := (s.atomWrite cl sc x (leBytes n v)).noteAtom rk x
    if red then s1 else s1.fillPend rk e.pid a.lane e.dst n old

/-- One lane of a logged global write (R249, R251). -/
def State.laneLogged (s : State) (rk : Nat) (w : MemWord) (a : LaneAcc) : State :=
  let n := mwBytes w.m.width
  match w.kind with
  | .store wb =>
    (s.logAdd (teamOf rk) [⟨a.ea, .store, n, roleIdx rk, 0, a.data % 2 ^ (8 * n)⟩]).storeUpdates rk wb n a.data
  | .atomic op _ _ =>
    s.logAdd (teamOf rk) [⟨a.ea, .atomic (aopCode op), n, roleIdx rk, 0, a.data % 2 ^ (8 * n)⟩]
  | .load _ => s

/-- The address of the lane's access that an access is part of. -/
def LaneAcc.base (a : LaneAcc) : Nat := a.ea - a.off

/-- A lane that has to wait for full granules: all that the lane's bytes touch (R136). -/
def State.laneWaits (s : State) (rk : Nat) (w : MemWord) (a : LaneAcc) : Bool :=
  w.m.scratch && (w.m.fe == .waitFull || w.m.fe == .waitClear)
    && !s.allFull (teamOf rk) a.base (mwBytes w.m.width)

/-- The translation of a lane's access: made once, before the word performs (R134, R307, R312). -/
def State.laneXlat (s : State) (rk : Nat) (w : MemWord) (a : LaneAcc) : AccRes :=
  match a.at_ with
  | some x => (match x.pas.find? s.lostPa with | some pa => .mcheck pa | none => .ok x)
  | none => s.xlat (s.vfOf rk) a.ea a.len w.kind.writes

/-- Write-log entries one active lane makes (R137, R251). -/
def State.laneEntries (s : State) (rk : Nat) (w : MemWord) : Nat :=
  let up : Nat := match w.kind with
    | .store (some fs) =>
      8 * mwBytes w.m.width / fmtWidth (slotOf ((s.launchOf rk).fslot fs.toNat)).efmt
    | _ => 0
  if s.inTx (teamOf rk) then (if w.m.scratch then 0 else b2n w.kind.writes) + up else 0

/-- The entries that a lane's access makes in the write log are no longer reserved (R251). -/
def State.unreserve (s : State) (rk : Nat) (w : MemWord) (a : LaneAcc) : State :=
  let n := if a.off = 0 then s.laneEntries rk w else 0
  if n = 0 then s else s.updTeam (teamOf rk) fun t => { t with reserved := t.reserved - n }

/-- Perform one access. -/
def State.laneAccess (s : State) (rk : Nat) (w : MemWord) (e : LogEntry) (a : LaneAcc) : State :=
  if w.m.scratch then s.laneScratch rk w e a
  else if s.logsAccess rk w then s.laneLogged rk w a
  else match s.laneXlat rk w a with
    | .ok x => s.laneGlobal rk w e a x
    | _ => s

/-- The accesses that a lane's access is performed in (R135): an unaligned one goes byte by byte, 16 bytes in two halves;
a full/empty step that clears or sets bits (R136) and an entry of the write log (R251) are one. -/
def State.pieces (s : State) (rk : Nat) (w : MemWord) (a : LaneAcc) : List LaneAcc :=
  let n := mwBytes w.m.width
  let part (k m : Nat) : LaneAcc := ⟨a.lane, a.ea + k, a.data / 2 ^ (8 * k), k, m, none⟩
  if (w.m.fe ≠ .ignore ∧ w.m.fe ≠ .waitFull) ∨ s.logsAccess rk w then [a]
  else if a.ea % n ≠ 0 then (List.range n).map fun k => part k 1
  else if n = 16 then [part 0 8, part 8 8]
  else [a]

/-- A lane's store or atomic that waits for a copy command's writes to its grain (R328). -/
def State.laneHeld (s : State) (rk : Nat) (w : MemWord) (a : LaneAcc) : Bool :=
  w.kind.writes && !w.m.scratch && !s.logsAccess rk w &&
    match s.laneXlat rk w a with
    | .ok x => s.bulkHeld x
    | _ => false

/-- Perform accesses in order; those left wait on full/empty bits or for a command's writes (R135, R136, R328). -/
def performLanes (rk : Nat) (w : MemWord) (e : LogEntry) : List LaneAcc → State → State × List LaneAcc
  | [], s => (s, [])
  | a :: t, s => if s.laneWaits rk w a || s.laneHeld rk w a then (s, a :: t) else performLanes rk w e t ((s.laneAccess rk w e a).unreserve rk w a)

/-- Translation of every access that is left (R134); `bad` is an address that the range registers no longer allow (R307). -/
inductive Trans where
  | ok
  | bad (c : Code) (va : Nat) (lanes : List Nat)
  | page (sub va ia : Nat) (lanes : List Nat)
  | scratch (vpns : List Nat)
  | mcheck (sub va pa : Nat) (lanes : List Nat)
  deriving DecidableEq, Repr

/-- The lanes of accesses, each once. -/
def accLanes (as : List LaneAcc) : List Nat := (as.map LaneAcc.lane).dedup

/-- ADDRESS or REMOTE of one access, if the range registers have changed since its issue (R307). -/
def State.laneBad (s : State) (rk : Nat) (w : MemWord) (a : LaneAcc) : Option Code :=
  match s.laneXlat rk w a with
  | .address => some .address
  | .remote => some .remote
  | _ => none

/-- A page fault of one access, if it has one. -/
def State.lanePage (s : State) (rk : Nat) (w : MemWord) (a : LaneAcc) : Option (Nat × Nat) :=
  match s.laneXlat rk w a with
  | .page sub ia => some (sub, ia)
  | _ => none

/-- The machine check of one access, if any (R210, R335, R336): sub-cause and physical address of a lost line, or of
uncorrectable data in scratch or in the write log. -/
def State.laneLost (s : State) (rk : Nat) (w : MemWord) (a : LaneAcc) : Option (Nat × Nat) :=
  let n := a.len
  let whole := match w.kind with | .store _ => true | _ => false
  let fe := w.m.fe != .ignore
  if w.m.scratch then
    (if s.vaultBadFe (teamOf rk) a.ea n whole fe then some (s.badAtFe (teamOf rk) a.ea n whole fe) else none)
  else match s.laneXlat rk w a with
    | .mcheck pa => some (s.lostSub pa, pa)
    | _ => if !w.kind.writes && s.logSpoilt (teamOf rk) a.ea n then some (2, 0) else none

/-- The first machine check of some lanes. -/
def State.lanesLost (s : State) (rk : Nat) (w : MemWord) (as : List LaneAcc) : Trans :=
  match as.find? fun a => (s.laneLost rk w a).isSome with
  | some a =>
    let c := (s.laneLost rk w a).getD (0, 0)
    .mcheck c.1 a.base c.2 (accLanes (as.filter fun b => (s.laneLost rk w b).isSome))
  | none => .ok

/-- The scratch pages that the lanes lack (R206). -/
def State.lackedPages (s : State) (rk : Nat) (as : List LaneAcc) : List Nat :=
  (as.flatMap fun a => (pagesOf a.ea a.len).filter fun v => !s.reaches (teamOf rk) v).dedup

/-- The pages that the lanes lack: of scratch (R206), and the first one of the write set (R215). -/
def State.laneLacks (s : State) (rk : Nat) (w : MemWord) (as : List LaneAcc) : List Nat :=
  (if w.m.scratch then s.lackedPages rk as else []) ++ (s.wsLack (teamOf rk) (as.length * s.laneEntries rk w)).toList

/-- The accesses that are left but for those of a lane that has begun its own (R134). -/
def unbegun : List LaneAcc → List LaneAcc
  | [] => []
  | a :: t => if a.off = 0 then a :: t else t.filter fun b => b.lane != a.lane

/-- Translate the lanes that are left (R134, R206, R210, R215, R311, R336). -/
def State.transAll (s : State) (rk : Nat) (w : MemWord) (as : List LaneAcc) : Trans :=
  let vs := s.laneLacks rk w (unbegun as)
  if !vs.isEmpty then .scratch vs
  else if w.m.scratch then s.lanesLost rk w as
  else if s.logsAccess rk w then .ok
  else match as.find? fun a => (s.laneBad rk w a).isSome with
    | some a =>
      let c := (s.laneBad rk w a).getD .address
      .bad c a.base (accLanes (as.filter fun b => s.laneBad rk w b == some c))
    | none =>
      match as.find? fun a => (s.lanePage rk w a).isSome with
      | some a =>
        let f := (s.lanePage rk w a).getD (0, 0)
        .page f.1 a.base f.2 (accLanes (as.filter fun b => (s.lanePage rk w b).isSome))
      | none => s.lanesLost rk w as

/-- The PAGE record of a lane memory word (R339, R341). -/
def State.pageRecord (s : State) (rk : Nat) (e : LogEntry) (sub va ia : Nat) (lanes : List Nat) : State :=
  let i := s.roleInfo rk true .page sub va ia (laneBits lanes) true
  s.addRec (s.vfOf rk) { i with pc := e.pc } (some rk)

/-- The result of a performed word is complete; its log entry, if it has one, stays until the result is written
(R220). -/
def Lanes.readyPend (l : Lanes) (pid : Nat) (logged : Bool) : Lanes :=
  { l with pend := l.pend.map fun p => if p.id = pid then { p with ready := true, logged := logged } else p }

/-- Store the head of a role's words in flight, or drop it. -/
def State.setHead (s : State) (rk : Nat) (e : Option LogEntry) : State :=
  s.updRole rk fun r => { r with flight := e.toList ++ r.flight.tail }

/-- The bytes that accesses of lanes have moved are charged (R382); one that the write log takes moves its bytes to the vault. -/
def State.chargeLanes (s : State) (rk : Nat) (w : MemWord) (as : List LaneAcc) : State :=
  let home : Bool := match w.kind with | .atomic _ _ _ => true | _ => false
  let n := if s.logsAccess rk w then (as.map fun a => 16 * a.len).sum
    else s.seqCost rk true home w.m.scratch (as.map fun a => (a.ea, a.len)) []
  if n = 0 then s else s.chargeTeam (teamOf rk) n

/-- What stands in the way of a word in flight: of one that has begun to perform only a lost line, since all of its
accesses have translated (R134, R222). -/
def State.headTrans (s : State) (rk : Nat) (w : MemWord) (e : LogEntry) : Trans :=
  if e.begun then s.lanesLost rk w e.todo else s.transAll rk w e.todo

/-- The word cannot perform, and raises a fault. -/
def State.headFaults (s : State) (rk : Nat) (w : MemWord) (e : LogEntry) : Bool :=
  (e.logged && e.spoilt) || match s.headTrans rk w e with
    | .ok => false
    | .scratch _ => false
    | _ => true

/-- A word begins to perform: its global accesses keep the translations they have (R134, R307, R312). A word that waits on
full/empty bits may lose its pages again. -/
def State.beginHead (s : State) (rk : Nat) (w : MemWord) (e : LogEntry) : LogEntry :=
  if e.begun || w.m.fe != .ignore || s.logsAccess rk w then e
  else { e with
    begun := true
    todo := if w.m.scratch then e.todo else e.todo.map fun a =>
      { a with at_ := match s.laneXlat rk w a with | .ok x => some x | _ => none } }

/-- Entries of the operand log that a role uses: of words in flight, and of results not yet written (R220). -/
def Role.logged (r : Role) : Nat :=
  (r.flight.filter fun e => e.logged).length + (r.lanes.pend.filter fun p => p.logged).length

/-- A role's log, or its core's, is full (R220). -/
def State.logFull (s : State) (rk : Nat) : Bool :=
  let all : List Nat := (s.roles.filter fun e => (s.team (teamOf e.1)).resident && s.coreOf e.1 == s.coreOf rk).map
    fun e => e.2.logged
  decide (8 ≤ (s.role rk).logged) || decide (64 ≤ all.sum)

/-- The first word in flight of a role that is not in the operand log, once the one before it is. -/
def joinFirst : List LogEntry → Option (List LogEntry)
  | a :: b :: t =>
    if a.logged && !b.logged then some (a :: { b with logged := true } :: t) else (joinFirst (b :: t)).map (a :: ·)
  | _ => none

/-- Words in flight behind a logged one join the operand log, as long as it has an entry (R158, R220). -/
def joinLog (rk : Nat) : Nat → State → State
  | 0, s => s
  | n + 1, s =>
    match joinFirst (s.role rk).flight with
    | some es => if s.logFull rk then s else joinLog rk n (s.updRole rk fun r => { r with flight := es })
    | none => s

/-- The first word in flight stands in the operand log, and those behind it join it (R158, R219, R220). -/
def State.logHead (s : State) (rk : Nat) (e : LogEntry) : State :=
  joinLog rk (s.role rk).flight.length (s.setHead rk (some e))

/-- Try to perform the first word in flight of a role, as many accesses as the pace lets it; does it leave the flight
(R134, R221)? A logged one whose entry has bad parity cannot (R337). A fault waits for the end of a transition (R301), and
one that needs an entry of the operand log waits for it (R220). -/
def State.performHead (s : State) (rk : Nat) (w : MemWord) (e : LogEntry) : State × Bool :=
  if s.relocking (s.coreOf rk) && s.headFaults rk w e then (s, false)
  else if e.logged && e.spoilt then (s.headCheck rk e 5 0 0 (laneBits (accLanes e.todo)), false)
  else match s.headTrans rk w e with
  | .scratch vs =>
    if !e.logged && s.logFull rk then (s, false)
    else ((s.startServices (teamOf rk) vs (some (.lane rk))).logHead rk { e with logged := true }, false)
  | .page sub va ia lanes =>
    let id := s.nextRec % 2 ^ 32
    if !e.logged && s.logFull rk then (s, false)
    else ((s.pageRecord rk e sub va ia lanes).logHead rk { e with logged := true, recid := some id }, false)
  | .bad c va lanes => (s.headFault rk e c 0 va 0 (laneBits lanes), false)
  | .mcheck sub va pa lanes => (s.headCheck rk e sub va pa (laneBits lanes), false)
  | .ok =>
    let b := s.beginHead rk w e
    let k := s.pace.getD b.todo.length
    let now := b.todo.take k
    let p := performLanes rk w b now s
    let left := p.2 ++ b.todo.drop k
    let s1 := p.1.chargeLanes rk w (now.take (now.length - p.2.length))
    if left.isEmpty then
      let s2 := (s1.setHead rk none).updRole rk fun r => { r with lanes := r.lanes.readyPend e.pid e.logged }
      (joinLog rk (s2.role rk).flight.length s2, true)
    else (s1.setHead rk (some { b with todo := left }), false)

/-- The transfers at the stacks of the accesses that a word in flight makes next (R317, R367). -/
def State.headTransfers (s : State) (rk : Nat) (w : MemWord) (e : LogEntry) : List Nat :=
  if s.logsAccess rk w then []
  else (e.todo.take (s.pace.getD e.todo.length)).flatMap fun a =>
    s.accTransfers rk w.m.scratch a.ea a.len (match w.kind with | .load _ => false | _ => true)

/-- Perform the words in flight of a role in program order, as far as it goes (R135, R158, R221). Behind a
word that waits for an answer, for a refresh or for a command's hold on a line, and while the team is away, every word waits
(R165, R222, R336, R360, R416); the
words before one that has stopped the role complete (R61). -/
def kickFrom (rk : Nat) : Nat → State → State
  | 0, s => s
  | n + 1, s =>
    let r := s.role rk
    match r.flight with
    | [] => s
    | e :: _ =>
      if e.recid.isSome || !(s.team (teamOf rk)).resident || s.delays (.lane rk) then s
      else match memWord e.word with
        | none => kickFrom rk n (s.setHead rk none)
        | some w =>
          let ls := s.headTransfers rk w e
          let s1 := s.stallAll (.lane rk) ls
          if s1.delays (.lane rk) || s1.anyHeld ls then s1
          else
            let q := s1.performHead rk w e
            if q.2 then kickFrom rk n q.1 else q.1

/-- See `kickFrom`. -/
def State.kick (s : State) (rk : Nat) : State :=
  if s.hasRole rk then kickFrom rk (s.role rk).flight.length s else s

/-! ## Issue -/

/-- What an address check finds for one lane (R133, R138, R306): 0 fine, 1 ADDRESS, 2 REMOTE,
3 MISALIGN. -/
def State.laneClass (s : State) (rk : Nat) (w : MemWord) (ea : Nat) : Nat :=
  let n := mwBytes w.m.width
  let al : Bool := match w.kind with | .atomic _ _ _ => ea % n == 0 | _ => true
  if w.m.scratch then (if !s.legalScratch (teamOf rk) ea n then 1 else if al then 0 else 3)
  else match s.toIa (s.vfOf rk) ea n with
    | .address => 1
    | .remote => 2
    | .ia _ => if al then 0 else 3

/-- The fault of a class. -/
def classCode (k : Nat) : Code := if k = 1 then .address else if k = 2 then .remote else .misalign

/-- The first class in the order of precedence that some lane is in: R133 puts ADDRESS before MISALIGN; ADDRESS before
REMOTE, and REMOTE before MISALIGN, the order of R257 for a commit token, is a DESIGN CHOICE here, and so is that the
record names the lanes of that class alone (log 70). -/
def worstClass (ks : List Nat) : Nat :=
  if ks.contains 1 then 1 else if ks.contains 2 then 2 else if ks.contains 3 then 3 else 0

/-- The waybill checks of a tagged store (R137). -/
def State.wbStoreCheck (s : State) (rk : Nat) (w : MemWord) : WbCheck :=
  match w.kind with
  | .store (some fs) =>
    let sl := slotOf ((s.launchOf rk).fslot fs.toNat)
    if !sl.src || (fmtFF sl.efmt).isNone || decide (8 * mwBytes w.m.width < fmtWidth sl.efmt) then .opformat
    else s.wbCheckAll (s.vfOf rk) [sl.wbidx]
  | _ => .ok

/-- A returning global atomic in an open transaction (R138). -/
def State.txForbids (s : State) (rk : Nat) (w : MemWord) : Bool :=
  match w.kind with
  | .atomic _ red _ => s.inTx (teamOf rk) && !w.m.scratch && !red
  | _ => false

/-- The lanes of a word as accesses: address and store data (R130, R132, R138). -/
def laneAccs (w : MemWord) (data : Opnd) (c : LaneCtl) (cx : LaneCx) (l : Lanes) : List LaneAcc :=
  let n := mwBytes w.m.width
  (l.actives c).map fun i =>
    let b := (opStart data cx).getD 0
    let v := match w.kind with
      | .load _ => 0
      | .store _ => l.bytes cx.free i b n
      | .atomic op _ _ => l.bytes cx.free i b (if op = .cas then 2 * n else n)
    ⟨i, memEa w.m w.strided cx l i, v, 0, n, none⟩

/-- A marked word that has left nothing outstanding does not park (R156). -/
def Role.settle (r : Role) (free : Nat) : Role := if r.lpark = .marker then r.atMarker free else r

/-- The data operand as the word reads it. -/
def dataReads (w : MemWord) (data : Opnd) : List (Opnd × Nat) :=
  match w.kind with
  | .load _ => []
  | .store _ => [(data, mwBytes w.m.width)]
  | .atomic op _ _ => [(data, if op = .cas then 2 * mwBytes w.m.width else mwBytes w.m.width)]

/-- The word issues: its result becomes outstanding, it joins the words in flight, the stream goes on,
and it performs if it can (R96, R135, R155). -/
def State.issueMem (s : State) (rk : Nat) (i : Instr) (w : MemWord) (data : Opnd) (c : LaneCtl)
    (cx : LaneCx) (l : Lanes) (srcs : Sources) (as : List LaneAcc) : State :=
  let pid := s.free + 1
  let dst := (opStart data cx).getD 0
  let n := match w.kind with | .load _ => dataBytes w.m.width | _ => mwBytes w.m.width
  let p : Pend := ⟨pid, false, false, resultBytes data cx n (as.map fun a => (a.lane, 0)), []⟩
  let l1 := if w.kind.returns && !as.isEmpty then { l with pend := l.pend ++ [p] } else l
  let r0 := s.role rk
  let e : LogEntry := ⟨i, as.flatMap (s.pieces rk w), pid, dst, r0.laneIndex, r0.flight.any LogEntry.logged, none, false,
    r0.laneNo, false⟩
  let s1 := (s.updRole rk fun r => { r with flight := r.flight ++ [e] }).updTeam (teamOf rk) fun t =>
    { t with reserved := t.reserved + as.length * s.laneEntries rk w }
  let ws := srcs.a.words cx 0 ++ (dataReads w data).flatMap fun r => opWords r.1 cx r.2 0
  let s2 := (s1.laneEnd c cx l srcs ws ⟨l1, 0⟩).kick rk
  if s2.hasRole rk then s2.updRole rk (fun r => r.settle s.free) else s2

/-- The data operand names lane bytes (R131), for cas two registers (R138). -/
def dataOk (w : MemWord) (data : Opnd) (cx : LaneCx) (l : Lanes) : Bool :=
  let n := mwBytes w.m.width
  match w.kind with
  | .atomic .cas _ _ =>
    (match data with
     | .v r => opPresent data cx l n && decide (4 * r.toNat + 2 * n ≤ l.budget)
        && (n == 4 || r.toNat % 4 == 0)
     | _ => false)
  | .load _ => data.isDst && opPresent data cx l (dataBytes w.m.width)
  | _ => data.isDst && opPresent data cx l (dataBytes w.m.width)

/-- The sources of a lane memory word, for holds: address and data (R56). A latch entry has one value of at most 64 bits
for each lane, and R54 does not say what a hold of wider data captures: of 128-bit data, and of the pair of registers of
a cas, it is the low 64 bits, or the first register (DESIGN CHOICE, log 71). -/
def memSources (w : MemWord) (data : Opnd) : Sources :=
  let dw : OpW := if mwBytes w.m.width ≤ 4 then .w32 else .n64
  let b : Source := match w.kind with
    | .load _ => .none
    | _ => .op data dw
  ⟨.op w.m.addr (if w.m.scratch || w.strided then .w32 else .s64), b, .none⟩

/-- Raise the address fault of a word (R133). -/
def State.laneAddrFault (s : State) (rk : Nat) (w : MemWord) (as : List LaneAcc) (k : Nat) : State :=
  let bad := as.filter fun a => s.laneClass rk w a.ea == k
  let va := (bad.map LaneAcc.ea).headD 0
  s.precise rk (s.raise rk true (classCode k) 0 va 0 (laneBits (bad.map LaneAcc.lane)))

/-- The checks of a lane memory word once its resources are present, and its issue (R133, R137, R138,
R220, R251, R336). TXILLEGAL of a returning atomic in an open transaction comes before ADDRESS and MISALIGN: R138 and R249
do not order them (DESIGN CHOICE, log 70). -/
def State.memIssue (s : State) (rk : Nat) (i : Instr) (w : MemWord) (data : Opnd) (c : LaneCtl)
    (cx : LaneCx) (l : Lanes) : Res :=
  let as := laneAccs w data c cx l
  match s.wbStoreCheck rk w with
  | .opformat => .next (s.laneFault .opformat)
  | .page sub va ia => .next (s.wbPage rk true sub va ia)
  | .mcheck sub va pa => .next (s.precise rk (s.machineCheck rk true sub va pa (laneBits (l.list (l.active c)))))
  | .ok =>
    if s.txForbids rk w then .next (s.laneFault .txillegal)
    else
      let k := worstClass (as.map fun a => s.laneClass rk w a.ea)
      if k ≠ 0 then .next (s.laneAddrFault rk w as k)
      else if !s.logRoom (teamOf rk) (as.length * s.laneEntries rk w) && s.inTx (teamOf rk)
          && as.length * s.laneEntries rk w != 0 then .next (s.laneFault .txcap)
      else match (s.role rk).flight, s.transAll rk w as with
        | [], .mcheck sub va pa lanes => .next (s.precise rk (s.machineCheck rk true sub va pa (laneBits lanes)))
        | _, _ => .next (s.issueMem rk i w data c cx l (memSources w data) as)

/-- The frame of a lane memory word of a role: a data operand that it cannot have is found with the other absent
resources, before anything is read (R61, R131). -/
def memOp (s : State) (i : Instr) (w : MemWord) (c : LaneCtl) (data : Opnd) : Res :=
  match s.cur with
  | .lane rk =>
    if s.logFull rk then .next (s.updRole rk fun r => { r with lpark := .oplog })
    else if s.laneNow.any fun e => dataOk w data e.1 e.2 then
      laneFrameR s c (memSources w data) [] (dataReads w data) fun cx l => s.memIssue rk i w data c cx l
    else .next (s.laneFault .illegal)
  | .row _ => .next (s.laneFault .illegal)
  | _ => .fault .wrongAgent

/-- VLD (R130, R131, R135). -/
def execVld (c : LaneCtl) (m : LMem) (sx : Bool) (data : Opnd) (s : State) : Res :=
  memOp s (.vld c m sx data) ⟨m, .load sx, false⟩ c data

/-- VST (R130, R131, R135, R137). -/
def execVst (c : LaneCtl) (m : LMem) (wb : Option (BitVec 3)) (data : Opnd) (s : State) : Res :=
  memOp s (.vst c m wb data) ⟨m, .store wb, false⟩ c data

/-- VLDS (R132). -/
def execVlds (c : LaneCtl) (m : LMem) (sx : Bool) (data : Opnd) (s : State) : Res :=
  memOp s (.vlds c m sx data) ⟨m, .load sx, true⟩ c data

/-- VSTS (R132, R137). -/
def execVsts (c : LaneCtl) (m : LMem) (wb : Option (BitVec 3)) (data : Opnd) (s : State) : Res :=
  memOp s (.vsts c m wb data) ⟨m, .store wb, true⟩ c data

/-- VATOM (R138). -/
def execVatom (c : LaneCtl) (m : LMem) (op : AOp) (red : Bool) (scope : Fin 7) (data : Opnd) (s : State) : Res :=
  memOp s (.vatom c m op red scope data) ⟨m, .atomic op red scope.val, false⟩ c data

/-- The scratch pages that a VPREF asks the pager for: legal, absent, untouched by a service (R139). -/
def State.prefPages (s : State) (tk : Nat) (n : Nat) (eas : List Nat) : List Nat :=
  ((eas.filter fun ea => s.legalScratch tk ea n).flatMap fun ea =>
    (pagesOf ea n).filter fun v => !((s.team tk).page v).present).dedup

/-- A line that a VPREF of global addresses brings into an L1, or into the L2 (R139): its bytes are charged, unless it is there
already (R382). A line on which a store is dirty is there. -/
def State.prefLine (s : State) (rk : Nat) (l2 : Bool) (line : Nat) : State :=
  let core := s.coreOf rk
  let at_ : CacheAt := if l2 then .l2 (clusterOf core) else .l1 core
  let there := if l2 then s.inL2 (clusterOf core) line else s.inL1 core line
  if there then s
  else
    let n := s.globCost core false false (line / 2 ^ 46) (line % 2 ^ 46 * 64) 64 []
    { s.chargeTeam (teamOf rk) n with cached := (at_, line) :: s.cached }

/-- The lines of the global addresses of a VPREF that translate (R139). -/
def State.prefLines (s : State) (rk n : Nat) (eas : List Nat) : List Nat :=
  (eas.flatMap fun ea =>
    match s.xlat (s.vfOf rk) ea n false with
    | .ok x => linesOf x.part x.ia n
    | _ => []).dedup

/-- VPREF (R139): a hint. In scratch it asks the pager to map absent pages; global lines come into a cache, and the bytes
that this moves are charged; it never faults. -/
def execVpref (c : LaneCtl) (m : LMem) (l2 : Bool) (s : State) : Res :=
  let srcs : Sources := ⟨.op m.addr (if m.scratch then .w32 else .s64), .none, .none⟩
  match s.cur with
  | .lane rk =>
    laneFrame s c srcs [] fun cx l =>
      let eas := (l.actives c).map fun i => memEa m false cx l i
      let s1 := if m.scratch then
          s.startServices (teamOf rk) (s.prefPages (teamOf rk) (mwBytes m.width) eas) none
        else (s.prefLines rk (mwBytes m.width) eas).foldl (fun u l => u.prefLine rk l2 l) s
      .next (s1.laneFinish c cx l srcs ⟨l, 0⟩)
  | .row _ => .next (s.laneFault .illegal)
  | _ => .fault .wrongAgent

end Sys2Proof.Machine
end

