-- ==== Sys2Proof/Machine/Matrix.lean ====
section
/-! DEFINITION. The matrix engine: operands (R225 to R229), checks at issue (R230), hold, rendezvous,
acceptance and the engine queue (R164, R231 to R233), sparsity (R234), arithmetic and monitors (R28,
R35 to R40, R235, R236), VMMA, VMMAS, VACCZ, VACCRD and VACCSC (R239 to R242). The words of a core
run one after another; a word starts when the one before it has been written (log 19). -/

namespace Sys2Proof.Machine
open Sys2Proof

/-! ## Geometry of a multiplication -/

/-- The class of an element format (R224). -/
def lxClass : Fmt → Option Nat
  | .e2m1 => some 0 | .e4m3 => some 1 | .e5m2 => some 1 | .bf16 => some 2 | .f16 => some 2
  | .f32 => some 3 | _ => none

/-- The form (R224). -/
def lxForm (a b : Fmt) : Option Nat :=
  match lxClass a, lxClass b with
  | some 3, some 2 => some 3
  | some 2, some 3 => some 3
  | some p, some q => if p = q then some p else none
  | _, _ => none

/-- N, the K elements of a step (R37, R224). -/
def formN (form : Nat) : Nat := match form with | 0 => 128 | 1 => 64 | _ => 32

/-- The inner format (R35). -/
def formInner (form : Nat) : FF := if form ≤ 1 then .f22 else .f32

/-- The sizes of a VMMA or VMMAS (R223 to R228, R234). -/
structure LxGeo where
  form : Nat
  k : Nat
  steps : Nat
  bitsA : Nat
  bitsB : Nat
  ce : Nat
  nc : Nat
  chunk : Nat
  scaleLenA : Nat
  pitch : Nat
  dataB : Nat
  scaleLenB : Nat
  x : Nat
  y : Nat
  bitmap : Nat
  meta_ : Nat
  deriving DecidableEq, Repr

/-- K (R77). -/
def lxK (m : LxMul) : Nat := 32 * (m.kcnt.toNat + 1)

/-- Chunk length Ce of a tile view under a slot format (R225). -/
def chunkCols (fa : Fmt) (v : W64) : Nat := if fa = .f32 then viewCols v / 2 else viewCols v

/-- Rounded up to a multiple of 64. -/
def up64 (n : Nat) : Nat := (n + 63) / 64 * 64

/-- The geometry of a word from its fields, its slots, its A view and its snapshot. -/
def lxGeo (m : LxMul) (sa sb : Slot) (av : W64) (snap : List W64) : LxGeo :=
  let form := (lxForm sa.efmt sb.efmt).getD 0
  let k := lxK m
  let ce := chunkCols sa.efmt av
  let half := bitOf m.sparse.toNat 0
  let kst := if half then k / 2 else k
  let bitsB := fmtWidth sb.efmt
  let steps := ceilDiv k (formN form)
  let bm := if bitOf m.sparse.toNat 1 then 16 * steps else 0
  { form := form, k := k, steps := steps, bitsA := fmtWidth sa.efmt, bitsB := bitsB, ce := ce,
    nc := k / ce, chunk := viewCols av / 2 * viewBits av / 8
    scaleLenA := if sa.geom = 1 then k / 32 else if sa.geom = 2 then 4 * ceilDiv k 128 else 0
    pitch := if m.order then kst * bitsB / 8 else 128 * bitsB / 8
    dataB := kst * 128 * bitsB / 8
    scaleLenB := if sb.geom = 1 then k / 32 * 128 else if sb.geom = 3 then 4 * ceilDiv k 128 else 0
    x := (snap.getD m.bsel.toNat 0).toNat % 2 ^ 32
    y := if m.ssel = 0 then 0 else (snap.getD m.ssel.toNat 0).toNat % 2 ^ 32
    bitmap := bm
    meta_ := if half then up64 bm + k / 4 * 64 else bm }

/-- Bytes of A chunks and scale area in a lane. -/
def LxGeo.lenA (g : LxGeo) : Nat := g.nc * g.chunk + g.scaleLenA

/-- The scratch ranges of a word: B with its scales, and the metadata (R228, R234). -/
def LxGeo.ranges (g : LxGeo) : List (Nat × Nat) := [(g.x, g.dataB + g.scaleLenB), (g.y, g.meta_)]

/-! ## Words and checks -/

/-- View `i` of an LX word. -/
def LxWord.view (w : LxWord) (i : BitVec 3) : W64 := w.views.getD i.toNat 0

/-- A slot of a role's launch. -/
def State.slot (s : State) (rk : Nat) (n : BitVec 3) : Slot := slotOf ((s.launchOf rk).fslot n.toNat)

/-- The geometry of a role's word. -/
def State.geoOf (s : State) (w : LxWord) (m : LxMul) : LxGeo :=
  lxGeo m (s.slot w.rk m.fsa) (s.slot w.rk m.fsb) (w.view m.aview) w.snap

/-- The first check that fails, if any: a fault, or a page fault of a waybill look-up. -/
inductive LxFault where
  | code (c : Code)
  | page (sub va ia : Nat)
  | mcheck (sub va pa : Nat)
  deriving DecidableEq, Repr

/-- The first failing check of a list. -/
def firstFault : List (Bool × Code) → Option LxFault
  | [] => none
  | (ok, c) :: t => if ok then firstFault t else some (.code c)

/-- An accumulator view (R229). -/
def isAcc (v : W64) : Bool := viewKind v == 3

/-- A tile view of a group that the role has (R225). -/
def isTile (v : W64) (groups : Nat) : Bool := viewKind v == 2 && decide (viewGrp v < groups)

/-- The gang check (R163, R233). -/
def gangOk (m : LxMul) (members : List Nat) (idx : Nat) : Bool :=
  if m.gang then members.contains idx && m.msel.toNat + 1 == members.length else m.msel == 0

/-- Slot formats, form, GEOM per side and pitch (R224 to R228). -/
def formatsOk (m : LxMul) (sa sb : Slot) (av : W64) (g : LxGeo) : Bool :=
  (lxForm sa.efmt sb.efmt).isSome
    && viewFmt av == some (if sa.efmt = .f32 then .bf16 else sa.efmt)
    && sa.geom != 3 && sb.geom != 2 && (!m.order || g.pitch % 64 == 0)

/-- The accumulator's bytes overlap A's (R229). -/
def overlapsA (av cv : W64) (g : LxGeo) : Bool :=
  viewGrp av == viewGrp cv && (List.range 16).any fun r =>
    let c := viewBase cv + r * viewStride cv
    decide (c < viewBase av + g.lenA) && decide (viewBase av < c + 16)

/-- A waybill check of an LX word (R230). -/
def State.lxWaybill (s : State) (rk : Nat) (need : Bool) (idx : Nat) : Option LxFault :=
  if !need then none
  else match s.wbRecord (s.vfOf rk) idx with
    | .record _ _ => none
    | .unregistered => some (.code .opformat)
    | .page sub va ia => some (.page sub va ia)
    | .mcheck sub va pa => some (.mcheck sub va pa)

/-- A scratch range lies in the team's scratch (R228). -/
def State.rangeOk (s : State) (tk : Nat) (r : Nat × Nat) : Bool :=
  r.2 == 0 || decide (r.1 + r.2 ≤ s.scratchSize tk)

/-- The checks of R230 for VMMA and VMMAS, in order. -/
def State.checkMul (s : State) (w : LxWord) (m : LxMul) : Option LxFault :=
  let l := (s.role w.rk).lanes
  let av := w.view m.aview
  let cv := w.view m.accview
  let sa := s.slot w.rk m.fsa
  let sb := s.slot w.rk m.fsb
  let g := s.geoOf w m
  (firstFault [(lxForm sa.efmt sb.efmt != some 0 || s.accept.getLsbD 2, .illegal),
      (isTile av l.groups && isAcc cv, .illegal), (gangOk m w.members (roleIdx w.rk), .illegal),
      (formatsOk m sa sb av g, .opformat)]).or <|
    (s.lxWaybill w.rk sa.src sa.wbidx).or <|
    (s.lxWaybill w.rk sb.src sb.wbidx).or <|
    firstFault [(g.k % g.ce == 0 && decide (viewBase av + g.lenA ≤ l.budget) && !overlapsA av cv g, .illegal),
      (g.ranges.all (s.rangeOk (teamOf w.rk)), .address),
      (g.x % 64 == 0 && (m.sparse == 0 || g.y % 64 == 0), .misalign)]

/-- F of a destination tile of VACCRD (R241). -/
def tileF (v : W64) : Nat := viewCols v / 2 * viewBits v / 8

/-- Scale bytes of VACCRD end here (R241). -/
def accrdScaleEnd (sl : Slot) (v : W64) (coff : Bool) : Nat :=
  let c1 := 128 * b2n coff + 127
  if sl.geom = 1 then viewBase v + tileF v + c1 / 32 + 1
  else if sl.geom = 2 then viewBase v + tileF v + 4 * (c1 / 128) + 4
  else 0

/-- The checks of R230 and R241 for VACCRD. -/
def State.checkRd (s : State) (w : LxWord) (accview aview fsa : BitVec 3) (wb coff : Bool) : Option LxFault :=
  let l := (s.role w.rk).lanes
  let cv := w.view accview
  let dv := w.view aview
  let sl := s.slot w.rk fsa
  let tile := isTile dv l.groups
  let room := !s.inTx (teamOf w.rk) || !wb || s.logRoom (teamOf w.rk) 2048
  (firstFault [
      (isAcc cv && (if tile then decide (128 * (b2n coff + 1) ≤ viewCols dv) else isAcc dv && !coff), .illegal),
      ((if tile then viewFmt dv == some sl.efmt else sl.efmt == .f32 && sl.geom == 0 && !sl.src)
        && sl.geom != 3 && !(wb && !sl.src), .opformat)]).or <|
    (s.lxWaybill w.rk (sl.src || wb) sl.wbidx).or <|
    firstFault [(decide (accrdScaleEnd sl dv coff ≤ l.budget), .illegal), (room, .txcap)]

/-- The checks of an LX word at issue (R230). -/
def State.lxCheck (s : State) (w : LxWord) : Option LxFault :=
  match w.word with
  | .vmma m => s.checkMul w m
  | .vmmas m => s.checkMul w m
  | .vaccz _ v => firstFault [(isAcc (w.view v), .illegal)]
  | .vaccrd _ v d fs _ wb coff => s.checkRd w v d fs wb coff
  | .vaccsc _ v _ _ => firstFault [(isAcc (w.view v), .illegal)]
  | _ => some (.code .illegal)

/-! ## Issue, rendezvous and acceptance -/

/-- What must agree between the members of a gang word (R233). -/
def lxShared (m : LxMul) : LxMul := { m with sw := false, accview := 0, aview := 0 }

/-- Two gang words agree (R233). -/
def lxAgree (a b : LxWord) : Bool :=
  match a.word, b.word with
  | .vmma m, .vmma n =>
    lxShared m == lxShared n && a.snap.getD m.bsel.toNat 0 == b.snap.getD m.bsel.toNat 0
  | .vmmas m, .vmmas n =>
    lxShared m == lxShared n && a.snap.getD m.bsel.toNat 0 == b.snap.getD m.bsel.toNat 0
      && a.snap.getD m.ssel.toNat 0 == b.snap.getD m.ssel.toNat 0
  | _, _ => false

/-- The area of an accumulator view (R48). -/
def accRect (v : W64) : Rect := ⟨viewGrp v, 0, viewBase v, 16, viewStride v, 16⟩

/-- The areas VACCRD writes (R241). -/
def accrdRects (sl : Slot) (cv dv : W64) (clr coff : Bool) : List Rect :=
  let half := viewCols dv / 2
  let c0 := 128 * b2n coff
  let by_ (n : Nat) := n * viewBits dv / 8
  let lo1 := Nat.max c0 half
  let grp := viewGrp dv
  let data : List Rect := if isAcc dv then [accRect dv]
    else [⟨grp, 1, viewBase dv + by_ c0, by_ (Nat.min half (c0 + 128) - c0), 0, 1⟩,
          ⟨grp, 2, viewBase dv + by_ (lo1 - half), by_ (c0 + 128 - lo1), 0, 1⟩]
  let scale : List Rect := match sl.geom with
    | 1 => [⟨grp, 1, viewBase dv + tileF dv + c0 / 32, 4, 0, 1⟩]
    | 2 => [⟨grp, 1, viewBase dv + tileF dv + 4 * (c0 / 128), 4, 0, 1⟩]
    | _ => []
  data ++ scale ++ (if clr then [accRect cv] else [])

/-- The watch of a word of one member (R157, R237). -/
def State.lxWatch (s : State) (id : Nat) (w : LxWord) : Watch :=
  let mk (rd dst : List Rect) : Watch := ⟨id, rd, dst, false, true, []⟩
  match w.word with
  | .vaccz _ v => mk [] [accRect (w.view v)]
  | .vaccsc _ v _ _ => mk [] [accRect (w.view v)]
  | .vaccrd _ v d fs clr _ coff => mk [] (accrdRects (s.slot w.rk fs) (w.view v) (w.view d) clr coff)
  | i =>
    match lxMulOf i with
    | some m =>
      let av := w.view m.aview
      let g := s.geoOf w m
      mk [⟨viewGrp av, 0, viewBase av, g.nc * g.chunk, 0, 1⟩,
          ⟨viewGrp av, 1, viewBase av + g.nc * g.chunk, g.scaleLenA, 0, 1⟩] [accRect (w.view m.accview)]
    | none => mk [] []

/-- A role's lane stream waits with its word in the hold. -/
def State.parkL (s : State) (rk : Nat) (p : Park) : State := s.updRole rk fun r => { r with lpark := p }

/-- The members have all arrived: they join if their words agree, and each raises ILLEGAL if not
(R233). -/
def State.join (s : State) (w : LxWord) : State :=
  let ws := w.team.filterMap fun k => s.heldWord k w.members
  if ws.length ≠ w.members.length then s.parkL w.rk .rendezvous
  else if ws.all (lxAgree w) then
    ws.foldl (fun t v => t.updRole v.rk fun r => r.join true) s
  else
    ws.foldl (fun t v => (t.updRole v.rk fun r =>
      { r with hold := none, lpark := .none, lanes := r.lanes.unissue }).raiseL v.rk .illegal) s

/-- An LX word issues (R230, R231): it enters the hold, or raises the first fault. A word that is in
the hold already stays there. -/
def lxIssue (s : State) (i : Instr) : Res :=
  match s.cur with
  | .lane rk =>
    let r := s.role rk
    match r.hold with
    | some w => .next (s.parkL rk (if lxGang w.word && !w.joined then .rendezvous else .lxHold))
    | none =>
      let b := r.block
      let w : LxWord := ⟨rk, i, b.snap, b.views, membersOf b.gang, false, r.laneIndex⟩
      match s.lxCheck w with
      | some (.code c) => .next (s.laneFault c)
      | some (.page sub va ia) => .next (s.wbPage rk true sub va ia)
      | some (.mcheck sub va pa) => .next (s.precise rk (s.machineCheck rk true sub va pa 0))
      | none =>
        let x := s.lxWatch 0 w
        let s1 := (s.updRole rk fun r =>
          { r with hold := some w, lpark := .lxHold, lanes := { r.lanes with watch := r.lanes.watch ++ [x] } }).updTeam (teamOf rk) fun t =>
          { t with reserved := t.reserved + s.lxReserve w }
        .next (if lxGang i then s1.join w else s1)
  | .row _ => .next (s.laneFault .illegal)
  | _ => .fault .wrongAgent

/-- VMMA (R239). -/
def execVmma (x : LxMul) (s : State) : Res := lxIssue s (.vmma x)

/-- VMMAS (R234, R239). -/
def execVmmas (x : LxMul) (s : State) : Res := lxIssue s (.vmmas x)

/-- VACCZ (R240). -/
def execVaccz (sw : Bool) (accview : BitVec 3) (s : State) : Res := lxIssue s (.vaccz sw accview)

/-- VACCRD (R241). -/
def execVaccrd (sw : Bool) (accview aview fsa : BitVec 3) (clr wb coff : Bool) (s : State) : Res :=
  lxIssue s (.vaccrd sw accview aview fsa clr wb coff)

/-- VACCSC (R242). -/
def execVaccsc (sw : Bool) (accview : BitVec 3) (bsel : BitVec 4) (add : Bool) (s : State) : Res :=
  lxIssue s (.vaccsc sw accview bsel add)

/-- The scratch ranges an LX word pins (R231). -/
def State.lxRanges (s : State) (w : LxWord) : List (Nat × Nat) :=
  match lxMulOf w.word with
  | some m => (s.geoOf w m).ranges.filter fun r => r.2 != 0
  | none => []

/-- Pages of the ranges that are not valid, local and at rest (R206, R231). -/
def State.lxMissing (s : State) (w : LxWord) : List Nat :=
  ((s.lxRanges w).flatMap fun r => (pagesOf r.1 r.2).filter fun v =>
    !s.reaches (teamOf w.rk) v || ((s.team (teamOf w.rk)).page v).kind != 0).dedup

/-- With WF, every granule is full (R231). -/
def State.lxFull (s : State) (w : LxWord) : Bool :=
  match lxMulOf w.word with
  | some m => !m.wf || (s.lxRanges w).all fun r => s.allFull (teamOf w.rk) r.1 r.2
  | none => true

/-- The slots of an LX word whose waybill scales it reads (R226, R228, R241). -/
def State.lxSlots (s : State) (w : LxWord) : List Slot :=
  (match w.word with
   | .vaccrd _ _ _ fs _ _ _ => [s.slot w.rk fs]
   | i => match lxMulOf i with | some m => [s.slot w.rk m.fsa, s.slot w.rk m.fsb] | none => []).filter Slot.src

/-- The first waybill read of a joint word that cannot be made: the member, and what it meets (R336, R344). -/
def State.lxUnread (s : State) (ws : List LxWord) : Option (Nat × LxFault) :=
  ws.findSome? fun w => (s.lxSlots w).findSome? fun sl =>
    match s.wbRecord (s.vfOf w.rk) sl.wbidx with
    | .page sub va ia => some (w.rk, .page sub va ia)
    | .mcheck sub va pa => some (w.rk, .mcheck sub va pa)
    | _ => none

/-- The waybill scale of a slot at acceptance, as an `f32` encoding (R226, R228, R241); 1.0 without SRC. A record that
software has deregistered under the word, which R343 forbids, gives a free value (log 17). -/
def State.lxScale (s : State) (rk : Nat) (sl : Slot) : Nat :=
  match sl.src, fmtFF sl.efmt with
  | true, some ff =>
    (match s.slotScale rk sl ff with
     | .scale v => (roundTo v .f32 .rne false 0).bits
     | _ => (freeWord s.free 0).toNat % 2 ^ 32)
  | _, _ => 0x3F800000

/-- The switch marker of a word. -/
def lxSw : Instr → Bool
  | .vmma m => m.sw | .vmmas m => m.sw | .vaccz sw _ => sw | .vaccrd sw _ _ _ _ _ _ => sw
  | .vaccsc sw _ _ _ => sw | _ => false

/-- `n` draws of the generator. -/
def skipDraws : Nat → W32 → W32
  | 0, g => g
  | n + 1, g => skipDraws n (nextRandom g)

/-- Does the word draw: a VACCRD whose slot rounds stochastically (R241)? -/
def State.lxDraws (s : State) (w : LxWord) : Bool :=
  match w.word with
  | .vaccrd _ _ _ fs _ _ _ => (s.slot w.rk fs).rnd == .stoch
  | _ => false

/-- One member leaves the hold: its result is outstanding, its lane stream goes on (R155, R231). -/
def State.leaveHold (s : State) (id : Nat) (w : LxWord) : State :=
  let draws := s.lxDraws w
  (s.leaveNear w.rk).updRole w.rk fun r =>
    let l := { r.lanes with watch := r.lanes.watch.map (fun x => if x.id = 0 then { x with id := id } else x),
                            rng := if draws then skipDraws 2048 r.lanes.rng else r.lanes.rng }
    { r with hold := none, lxOut := r.lxOut + 1 }.laneDone (lxSw w.word) l s.free

/-- The slots whose waybill scales a word reads at acceptance. -/
def State.lxScales (s : State) (w : LxWord) : Nat × Nat :=
  match w.word with
  | .vmma m => (s.lxScale w.rk (s.slot w.rk m.fsa), s.lxScale w.rk (s.slot w.rk m.fsb))
  | .vmmas m => (s.lxScale w.rk (s.slot w.rk m.fsa), s.lxScale w.rk (s.slot w.rk m.fsb))
  | .vaccrd _ _ _ fs _ _ _ => (s.lxScale w.rk (s.slot w.rk fs), 0x3F800000)
  | _ => (0x3F800000, 0x3F800000)

/-- A joint word enters the engine queue (R231). -/
def State.acceptLx (s : State) (ws : List LxWord) : State :=
  match ws with
  | [] => s
  | w :: _ =>
    let id := s.free + 1
    let sc := s.lxScales w
    let j : LxJob :=
      { id := id, lxs := ws, scaleA := sc.1, scaleB := sc.2, rng := (s.role w.rk).lanes.rng,
        early := [], results := [], inner := 0, range := none, cans := [], sat := 0, updates := [], left := 0 }
    let s1 := ws.foldl (fun t v => t.leaveHold id v) { s with free := s.free + 1 }
    s1.updCore (s.coreOf w.rk) fun c => { c with engQ := c.engQ ++ [j] }

/-- The register words of a member that the engine reads (R58, R238): A with its scales, and C, which a multiplication
with Z does not read (R239). -/
def State.lxWords (s : State) (w : LxWord) : List Nat :=
  let x := s.lxWatch 0 w
  let c : List Rect := match w.word with
    | .vaccz _ _ => []
    | .vaccrd _ v _ _ _ _ _ => [accRect (w.view v)]
    | i => match lxMulOf i with | some m => if m.z then [] else x.dst | none => x.dst
  (((x.reads ++ c).flatMap Rect.keys).map fun k => k / 4).dedup

/-- The words of a held word's rendezvous, in ascending role index. -/
def State.jointWords (s : State) (w : LxWord) : List LxWord :=
  if lxGang w.word then w.team.filterMap fun k => s.heldWord k w.members else [w]

/-- A member's word can be performed as far as its role goes: it stands in the hold, its gang has joined, and its role
waits for nothing else (R231, R233). -/
def State.lxStands (s : State) (w : LxWord) : Bool :=
  let r := s.role w.rk
  r.lpark == .lxHold && r.stopped.isNone && (w.joined || !lxGang w.word)

/-- Writes of a member that its word must see have not been made: stores to scratch that precede it (R237), and, where it
reads a waybill scale, updates of its own role (R348). -/
def State.lxBehind (s : State) (w : LxWord) : Bool :=
  let r := s.role w.rk
  let c := s.core (s.coreOf w.rk)
  (r.flight.any fun e => storesScratch e.word) || (!(s.lxSlots w).isEmpty &&
    ((r.flight.any fun e => updatesWaybill e.word) || (c.engQ ++ c.lxDone).any fun j => j.lxs.any fun v =>
      v.rk == w.rk && updatesWaybill v.word))

/-- The rendezvous is complete, and every write that the words must see has been made (R231, R233, R237). -/
def State.lxReady (s : State) (w : LxWord) : Bool :=
  let ws := s.jointWords w
  ws.length == w.team.length && ws.all fun v => s.lxStands v && !s.lxBehind v

/-- The waybill reads of a joint word at its acceptance: one that takes a page fault waits for the answer (R344), one of a
lost line is a machine check on every member (R238, R336). -/
def State.acceptRead (s : State) (ws : List LxWord) : State :=
  match s.lxUnread ws with
  | some (k, .page sub va ia) => s.wbPage k true sub va ia
  | some (_, .mcheck sub va pa) => (ws.foldl (fun t w => t.unhold w.rk) s).machineChecks (ws.map LxWord.rk) sub va pa 0
  | _ => s.acceptLx ws

/-- LX_ACCEPT (R231): the word in a role's hold enters the engine queue when its rendezvous is complete,
its pages are local, its granules are full under WF, and the queue has room. Missing pages are
faults that the pager serves. During a transition nothing is accepted (R301). -/
def execLxAccept (rk : Nat) (s : State) : Res :=
  match (s.role rk).hold with
  | none => .next s
  | some w =>
    if !s.lxReady w || s.relocking (s.coreOf rk) then .next s
    else
      let miss := s.lxMissing w
      if !miss.isEmpty then .next (s.startServices (teamOf rk) miss (some (.lane rk)))
      else if !s.lxFull w || decide (4 ≤ (s.core (s.coreOf rk)).engQ.length) then .next s
      else .next (s.acceptRead (s.jointWords w))

/-- The engine reads a granule of the scratch of its `idx`-th accepted word before the word starts (R237); it reads each
byte once. -/
def State.lxRead (s : State) (core idx granule : Nat) : State :=
  match (s.core core).engQ[idx]? with
  | none => s
  | some j =>
    let w := j.lxs.headD ⟨0, .vaccz false 0, [], [], [], false, 0⟩
    let used := (s.lxRanges w).any fun r => decide (r.1 < 16 * granule + 16) && decide (16 * granule < r.1 + r.2)
    if used && !j.early.has (16 * granule) && !(s.team (teamOf w.rk)).meetsBad (16 * granule) 16 false then
      let bs := (rangeFrom (16 * granule) 16).zip (s.scratchLoad (teamOf w.rk) (16 * granule) 16)
      let j1 := { j with early := bs.foldl (fun m e => m.put e.1 e.2) j.early }
      s.updCore core fun c => { c with engQ := c.engQ.set idx j1 }
    else s

/-! ## Reading operands -/

/-- A register byte as the engine reads it: results of words before it have been written; a byte of a
lane result that is outstanding, or has returned since the last marker, or of an unspecified accumulator, is free (R96,
R157, R237). -/
def Lanes.engByte (l : Lanes) (free lane b : Nat) : Byte :=
  if (l.pend.any fun p => p.dest.has (rkey lane b)) || (l.back.any fun p => p.ready && p.dest.has (rkey lane b)) || l.watch.any fun w => w.hit && !w.pending && w.dst.any fun x => x.has lane b
  then Config.freeByte free (rkey lane b) else l.regs.get 0 (rkey lane b)

/-- `n` bytes as the engine reads them. -/
def Lanes.engBytes (l : Lanes) (free lane b n : Nat) : Nat :=
  leNat ((rangeFrom b n).map (l.engByte free lane))

/-- An element of `bits` bits at element offset `e` from byte `b` in a lane (R11). -/
def Lanes.engElem (l : Lanes) (free lane b bits e : Nat) : Nat :=
  if bits = 4 then wordElem 4 (e % 2) (l.engByte free lane (b + e / 2)).toNat
  else l.engBytes free lane (b + e * (bits / 8)) (bits / 8)

/-- A[r][k] of a member's block with its block scale folded in (R28, R225, R226). -/
def elemA (l : Lanes) (free : Nat) (sa : Slot) (av : W64) (g : LxGeo) (r k : Nat) : XVal :=
  let c := k % g.ce
  let lane := 32 * viewGrp av + 2 * r + c / (g.ce / 2)
  let v := decodeF ((fmtFF sa.efmt).getD .f32)
    (l.engElem free lane (viewBase av + k / g.ce * g.chunk) g.bitsA (c % (g.ce / 2)))
  if sa.geom = 1 then
    xmul v (e8m0Val (l.engByte free (32 * viewGrp av + 2 * r) (viewBase av + g.nc * g.chunk + k / 32)).toNat)
  else v

/-- The scale `sa(r, k)` (R226). -/
def scaleA (l : Lanes) (free : Nat) (sa : Slot) (av : W64) (g : LxGeo) (wsA r k : Nat) : XVal :=
  if sa.geom = 2 then
    decodeF .f32 (l.engBytes free (32 * viewGrp av + 2 * r) (viewBase av + g.nc * g.chunk + 4 * (k / 128)) 4)
  else decodeF .f32 wsA

/-- The swizzle of R227. -/
def swz (i b : Nat) : Nat := b ^^^ (i % 4 * 16)

/-- A byte of a team's scratch as an accepted word reads it (R237). -/
def LxJob.sb (j : LxJob) (t : Team) (a : Nat) : Byte := (j.early.get? a).getD (t.scratch.get 0 a)

/-- The stored row of B that holds `B[k][n]`, none for an empty 2:4 position (R234). -/
def storedRow (rd : Nat → Byte) (m : LxMul) (g : LxGeo) (k n : Nat) : Option Nat :=
  if bitOf m.sparse.toNat 0 then
    let grp := k / 4
    let nib := wordElem 4 (n % 2) (rd (g.y + up64 g.bitmap + grp * 64 + n / 2)).toNat
    let i0 := nib % 4
    let i1 := nib / 4
    if k % 4 = i0 then some (2 * grp) else if i0 < i1 ∧ k % 4 = i1 then some (2 * grp + 1) else none
  else some k

/-- The column vector of step `s` is live (R234). -/
def liveColumn (rd : Nat → Byte) (m : LxMul) (g : LxGeo) (step n : Nat) : Bool :=
  !bitOf m.sparse.toNat 1 || bitOf (rd (g.y + 16 * step + n / 8)).toNat (n % 8)

/-- B[k][n] with its block scale folded in; none where the product is +0 (R227, R228, R234). -/
def elemB (rd : Nat → Byte) (m : LxMul) (sb : Slot) (g : LxGeo) (k n : Nat) : Option XVal :=
  if !liveColumn rd m g (k / formN g.form) n then none
  else match storedRow rd m g k n with
    | none => none
    | some ks =>
      let i := if m.order then n else ks
      let e := if m.order then ks else n
      let at_ := g.x + i * g.pitch + swz i (e * g.bitsB / 8)
      let raw := if g.bitsB = 4 then wordElem 4 (e % 2) (rd at_).toNat
        else leNat ((rangeFrom at_ (g.bitsB / 8)).map rd)
      let v := decodeF ((fmtFF sb.efmt).getD .f32) raw
      some (if sb.geom = 1 then xmul v (e8m0Val (rd (g.x + g.dataB + k / 32 * 128 + n)).toNat) else v)

/-- Eight bytes of B's data are fetched: some element of a live vector lies in them (R234). `a` is their address. -/
def wordLive (rd : Nat → Byte) (m : LxMul) (g : LxGeo) (a : Nat) : Bool :=
  let off := a - g.x
  let i := off / g.pitch
  let first := swz i (off % g.pitch) * 8 / g.bitsB
  let kst := if bitOf m.sparse.toNat 0 then g.k / 2 else g.k
  (rangeFrom first (64 / g.bitsB)).any fun e =>
    let n := if m.order then i else e
    let ks := if m.order then e else i
    let k := if bitOf m.sparse.toNat 0 then ks / 2 * 4 else ks
    decide (n < 128) && decide (ks < kst) && liveColumn rd m g (k / formN g.form) n

/-- The engine meets uncorrectable data in what it fetches of B, its scales and its metadata (R234, R238, R335); bytes that
it has read early were good. -/
def State.lxBadB (s : State) (j : LxJob) : Bool :=
  match j.lxs with
  | [] => false
  | w :: _ =>
    match lxMulOf w.word with
    | none => false
    | some m =>
      let g := s.geoOf w m
      let t := s.team (teamOf w.rk)
      t.vbad.any fun v =>
        let a := 8 * v
        let in_ (lo n : Nat) : Bool := decide (lo < a + 8) && decide (a < lo + n)
        !j.early.has (a / 16 * 16) && (in_ g.y g.meta_ || in_ (g.x + g.dataB) g.scaleLenB
          || (in_ g.x g.dataB && wordLive (j.sb t) m g a))

/-- The scale `sb(k)` (R228). -/
def scaleB (rd : Nat → Byte) (sb : Slot) (g : LxGeo) (wsB k : Nat) : XVal :=
  if sb.geom = 3 then decodeF .f32 (leNat ((rangeFrom (g.x + g.dataB + 4 * (k / 128)) 4).map rd))
  else decodeF .f32 wsB

/-! ## Arithmetic -/

/-- One inner result joins the observations (R236): its exponent field if `node`, a saturation. -/
def Observed.note (o : Observed) (f : FF) (node : Bool) (r : Rounded) : Observed :=
  o.inner (if node then fieldOf r.bits f.fbits f.ebits else 0) r.event

/-- The engine is at a place. -/
def Observed.at_ (o : Observed) (p : Nat) : Observed := { o with place := p }

/-- A product rounded to the inner format; +0 where B has no element (R39). An Inf operand gives an Inf product (R36): it is a
sum that `f22` limits (R18). -/
def product (f : FF) (a : XVal) (b : Option XVal) (o : Observed) : Nat × Observed :=
  match b with
  | none => (0, o)
  | some v =>
    let r : Rounded := match xmul a v with
      | .inf s => ⟨signed f s f.infCode, false⟩
      | x => roundTo x f .rne false 0
    (r.bits, o.note f false r)

/-- An inner addition (R35, R37). -/
def innerAdd (f : FF) (x y : Nat) (o : Observed) : Nat × Observed :=
  let r := roundTo (xadd false (decodeF f x) (decodeF f y)) f .rne false 0
  (r.bits, o.note f true r)

/-- One level of the tree (R37). -/
def treeLevel (f : FF) : List Nat → Observed → List Nat × Observed
  | a :: b :: t, o =>
    let r := innerAdd f a b o
    let q := treeLevel f t r.2
    (r.1 :: q.1, q.2)
  | l, o => (l, o)

/-- The pairwise tree over `2^n` values (R37). -/
def treeSum (f : FF) : Nat → List Nat → Observed → Nat × Observed
  | 0, l, o => (l.headD 0, o)
  | n + 1, l, o =>
    let q := treeLevel f l o
    treeSum f n q.1 q.2

/-- The products of a step, in order (R36). -/
def products (f : FF) : List (XVal × Option XVal) → Observed → List Nat × Observed
  | [], o => ([], o)
  | (a, b) :: t, o =>
    let p := product f a b o
    let q := products f t p.2
    (p.1 :: q.1, q.2)

/-- `k_step` of R37 on one partial. -/
def kStep (form partial_ : Nat) (ps : List (XVal × Option XVal)) (o : Observed) : Nat × Observed :=
  let f := formInner form
  let p := products f ps o
  let t := treeSum f (formN form).log2 p.1 p.2
  innerAdd f partial_ t.1 t.2

/-- hi and lo of R40. -/
def splitHi (x : XVal) : XVal := decodeF .bf16 (roundTo x .bf16 .rne false 0).bits

/-- See `splitHi`. -/
def splitLo (x : XVal) : XVal := decodeF .bf16 (roundTo (xadd false x (splitHi x).flip) .bf16 .rne false 0).bits

/-- The partials of an element: one, or the three of R40. -/
structure Partials where
  hh : Nat
  hl : Nat
  lh : Nat
  deriving DecidableEq, Repr

/-- One step on the partials (R37, R40); `rows` is the number of rows that one pass takes (R233). -/
def stepAll (form rows : Nat) (p : Partials) (ps : List (XVal × Option XVal)) (o : Observed) : Partials × Observed :=
  if form = 3 then
    let a := kStep form p.hh (ps.map fun e => (splitHi e.1, e.2.map splitHi)) o
    let b := kStep form p.hl (ps.map fun e => (splitHi e.1, e.2.map splitLo)) (a.2.at_ (o.place + rows))
    let c := kStep form p.lh (ps.map fun e => (splitLo e.1, e.2.map splitHi)) (b.2.at_ (o.place + 2 * rows))
    (⟨a.1, b.1, c.1⟩, c.2)
  else
    let a := kStep form p.hh ps o
    (⟨a.1, 0, 0⟩, a.2)

/-- The inner partial that is promoted (R38, R40). -/
def partialVal (form : Nat) (p : Partials) : XVal :=
  if form = 3 then
    reRound (xadd false (decodeF .f32 p.hh) (reRound (xadd false (decodeF .f32 p.hl) (decodeF .f32 p.lh)) .f32)) .f32
  else decodeF (formInner form) p.hh

/-- floor(log2 |x|) of a non-zero finite value. -/
def xlog (x : XVal) : Int := match x with | .fin _ n d => floorLog2 n d | _ => 0

/-- A promotion is a cancellation (R246). -/
def cancels (cbits : Nat) (acc q r : XVal) : Bool :=
  let ops := [acc, q].filter fun v => !v.isZero
  cbits != 0 && !ops.isEmpty && acc.isFin && q.isFin && r.isFin &&
    (r.isZero || decide (xlog r < ops.foldl (fun m v => Max.max m (xlog v)) (xlog (ops.headD .one)) - cbits))

/-- A promotion (R28, R38). -/
def promote (cbits acc : Nat) (p sa sb : XVal) (o : Observed) : Nat × Observed :=
  let q := xmul (xmul p sa) sb
  let a := decodeF .f32 acc
  let r := (roundTo (xadd false a q) .f32 .rne false 0).bits
  (r, if cancels cbits a q (decodeF .f32 r) then o.cancel else o)

/-- The steps of one element from step `i` on (R235); `pair k` gives the factors of product `k`; the element is in row
`row` of `rows` (R233). -/
def elemSteps (g : LxGeo) (cbits rows row : Nat) (pair : Nat → XVal × Option XVal) (sa sb : Nat → XVal) :
    Nat → Nat → Nat → Partials → Observed → Nat × Observed
  | 0, _, acc, _, o => (acc, o)
  | n + 1, i, acc, p, o =>
    let nn := formN g.form
    let ks := rangeFrom (i * nn) nn
    let q := stepAll g.form rows p (ks.map fun k => if k < g.k then pair k else (.fin false 0 1, none))
      (o.at_ (3 * rows * i + row))
    if (i + 1) * nn % 128 = 0 ∨ n = 0 then
      let a := promote cbits acc (partialVal g.form q.1) (sa (i * nn)) (sb (i * nn)) q.2
      elemSteps g cbits rows row pair sa sb n (i + 1) a.1 ⟨0, 0, 0⟩ a.2
    else elemSteps g cbits rows row pair sa sb n (i + 1) acc q.1 q.2

/-- Lane and first byte of accumulator element `(r, n)` (R48). -/
def accAt (v : W64) (r n : Nat) : Nat × Nat :=
  (32 * viewGrp v + n / 4, viewBase v + r * viewStride v + n % 4 * 4)

/-- The current value of an accumulator element. -/
def accVal (l : Lanes) (free : Nat) (v : W64) (r n : Nat) : Nat :=
  l.engBytes free (accAt v r n).1 (accAt v r n).2 4

/-- The bytes of an accumulator element. -/
def accBytes (v : W64) (r n bits : Nat) : List (Nat × Byte) :=
  ((rangeFrom (accAt v r n).2 4).zip (leBytes 4 bits)).map fun e => (rkey (accAt v r n).1 e.1, e.2)

/-- All elements of a tile, row by row. -/
def tileElems : List (Nat × Nat) := (List.range 16).flatMap fun r => (List.range 128).map fun n => (r, n)

/-- What an LX word leaves: bytes for each member, and the observations. -/
structure LxOut where
  results : List (Nat × List (Nat × Byte))
  obs : Observed
  sat : Nat
  updates : List Nat
  deriving DecidableEq, Repr

/-- One member's C of a multiplication (R235); `idx` is its place among the members. -/
def State.mulMember (s : State) (j : LxJob) (m : LxMul) (w : LxWord) (idx : Nat) (o : Observed) :
    List (Nat × Byte) × Observed :=
  let l := (s.role w.rk).lanes
  let rd := j.sb (s.team (teamOf w.rk))
  let sa := s.slot w.rk m.fsa
  let sb := s.slot w.rk m.fsb
  let av := w.view m.aview
  let cv := w.view m.accview
  let g := s.geoOf w m
  let cb := monCbits (s.moncfg (teamOf w.rk))
  let rows := (List.range 16).map fun r => (List.range g.k).map fun k => elemA l s.free sa av g r k
  (List.range 128).foldl (fun st n =>
    let col := (List.range g.k).map fun k => elemB rd m sb g k n
    (rows.zipIdx).foldl (fun st e =>
      let c0 := if m.z then 0 else accVal l s.free cv e.2 n
      let q := elemSteps g cb (16 * j.lxs.length) (16 * idx + e.2) (fun k => (e.1.getD k .one, col.getD k none))
        (scaleA l s.free sa av g j.scaleA e.2) (scaleB rd sb g j.scaleB) g.steps 0 c0 ⟨0, 0, 0⟩ st.2
      (st.1 ++ accBytes cv e.2 n q.1, q.2)) st) ([], o)

/-- A multiplication: every member in turn (R233, R235). -/
def State.mulJob (s : State) (j : LxJob) : LxOut :=
  let limit := monT (s.moncfg (teamOf (j.lxs.headD ⟨0, .vaccz false 0, [], [], [], false, 0⟩).rk))
  let r := j.lxs.zipIdx.foldl (fun (st : List (Nat × List (Nat × Byte)) × Observed) e =>
    match lxMulOf e.1.word with
    | some m =>
      let q := s.mulMember j m e.1 e.2 st.2
      (st.1 ++ [(e.1.rk, q.1)], q.2)
    | none => st) ([], .start limit)
  ⟨r.1, r.2, 0, []⟩

/-! ## VACCRD -/

/-- The scale of a run of columns (R241): the divisor, and the scale bytes written. -/
def runScale (sl : Slot) (ff : FF) (ws : XVal) (vals : List XVal) : XVal × List Byte :=
  if sl.geom = 1 then
    let b := mxScale vals ff
    (.ofScaled false 1 b.1, [BitVec.ofNat 8 b.2])
  else if sl.geom = 2 then
    let v := scaleOf (amaxOf vals) ff sl.margin
    (v, leBytes 4 (roundTo v .f32 .rne false 0).bits)
  else (ws, [])

/-- The run of columns that element `n` belongs to. -/
def runLen (sl : Slot) : Nat := if sl.geom = 1 then 32 else 128

/-- Convert a row of values in order: encodings, generator, events (R27, R241). -/
def convRow (sl : Slot) (ff : FF) (sc : Nat → XVal) : List (XVal × Nat) → W32 → List Nat × W32 × Nat
  | [], g => ([], g, 0)
  | (x, n) :: t, g =>
    let r := roundDraw g (xdiv x (sc n)) ff sl.rnd (sl.sat || sl.geom == 1)
    let q := convRow sl ff sc t r.2
    (r.1.bits :: q.1, q.2.1, b2n r.1.event + q.2.2)

/-- The bytes of a destination row (R11, R48, R241). -/
def rowBytes (dv : W64) (coff : Bool) (r : Nat) (es : List Nat) : List (Nat × Byte) :=
  if isAcc dv then (es.zipIdx).flatMap fun e => accBytes dv r e.2 e.1
  else
    let half := viewCols dv / 2
    let lane (c : Nat) := 32 * viewGrp dv + 2 * r + c / half
    let bits := viewBits dv
    (es.zipIdx).flatMap fun e =>
      let c := 128 * b2n coff + e.2
      let at_ := viewBase dv + c % half * bits / 8
      if bits = 4 then
        (if e.2 % 2 = 0 then [(rkey (lane c) at_, BitVec.ofNat 8 (e.1 + 16 * es.getD (e.2 + 1) 0))] else [])
      else ((rangeFrom at_ (bits / 8)).zip (leBytes (bits / 8) e.1)).map fun q => (rkey (lane c) q.1, q.2)

/-- The scale bytes of a row (R241). -/
def rowScaleBytes (sl : Slot) (dv : W64) (coff : Bool) (r : Nat) (bs : List (List Byte)) : List (Nat × Byte) :=
  let c0 := 128 * b2n coff
  let step := if sl.geom = 1 then 1 else 4
  let first := viewBase dv + tileF dv + step * (c0 / runLen sl)
  if sl.geom = 1 ∨ sl.geom = 2 then
    (bs.flatten.zipIdx).map fun e => (rkey (32 * viewGrp dv + 2 * r) (first + e.2), e.1)
  else []

/-- The effect of a VACCRD (R241). -/
def State.accrdJob (s : State) (j : LxJob) (w : LxWord) (accview aview fsa : BitVec 3) (clr wb coff : Bool) : LxOut :=
  let l := (s.role w.rk).lanes
  let cv := w.view accview
  let dv := w.view aview
  let sl := s.slot w.rk fsa
  let ff := (fmtFF sl.efmt).getD .f32
  let ws := decodeF .f32 j.scaleA
  let row (r : Nat) := (List.range 128).map fun n => accVal l s.free cv r n
  let r := (List.range 16).foldl (fun (st : List (Nat × Byte) × W32 × Nat) r =>
    let vals := (row r).map (decodeF .f32)
    let runs := (List.range (128 / runLen sl)).map fun i =>
      runScale sl ff ws ((vals.drop (i * runLen sl)).take (runLen sl))
    let q := convRow sl ff (fun n => ((runs.map Prod.fst).getD (n / runLen sl) .one)) vals.zipIdx st.2.1
    (st.1 ++ rowBytes dv coff r q.1 ++ rowScaleBytes sl dv coff r (runs.map Prod.snd), q.2.1, st.2.2 + q.2.2))
    (([], j.rng, 0) : List (Nat × Byte) × W32 × Nat)
  let zeros := if clr then tileElems.flatMap fun e => accBytes cv e.1 e.2 0 else []
  ⟨[(w.rk, r.1 ++ zeros)], .start 0, if fmtFeeds sl.efmt then r.2.2 else 0,
    if wb then (List.range 16).flatMap row else []⟩

/-- The effect of VACCSC and VACCZ on every element (R240, R242). -/
def State.accMap (s : State) (w : LxWord) (v : BitVec 3) (f : XVal → XVal) : LxOut :=
  let l := (s.role w.rk).lanes
  let cv := w.view v
  ⟨[(w.rk, tileElems.flatMap fun e =>
      accBytes cv e.1 e.2 (roundTo (f (decodeF .f32 (accVal l s.free cv e.1 e.2))) .f32 .rne false 0).bits)],
    .start 0, 0, []⟩

/-- What a joint word computes (R235, R240 to R242). -/
def State.lxCompute (s : State) (j : LxJob) : LxOut :=
  match j.lxs with
  | [] => ⟨[], .start 0, 0, []⟩
  | w :: _ =>
    match w.word with
    | .vaccz _ v => s.accMap w v fun _ => .fin false 0 1
    | .vaccsc _ v b add =>
      let sc := decodeF .f32 ((w.snap.getD b.toNat 0).toNat % 2 ^ 32)
      s.accMap w v fun x => if add then xadd false x sc else xmul x sc
    | .vaccrd _ v d fs clr wb coff => s.accrdJob j w v d fs clr wb coff
    | _ => s.mulJob j

/-! ## The engine's events -/

/-- Steps of a multiplication whose column vectors are all dead (R232, R234). -/
def State.deadSteps (s : State) (w : LxWord) (m : LxMul) : Nat :=
  let g := s.geoOf w m
  if bitOf m.sparse.toNat 1 then
    ((List.range g.steps).filter fun i => (s.scratchLoad (teamOf w.rk) (g.y + 16 * i) 16).all fun b => b == 0).length
  else 0

/-- The occupancy of a word in clk (R232). -/
def State.occupancy (s : State) (j : LxJob) (w : LxWord) : Nat :=
  match w.word with
  | .vaccz _ _ => 8
  | i =>
    match lxMulOf i with
    | some m =>
      let g := s.geoOf w m
      (g.steps - s.deadSteps w m) * (16 * j.lxs.length) * (if g.form = 3 then 3 else 1)
        / (if bitOf m.sparse.toNat 0 then 2 else 1)
    | none => 16

/-- The nominal cost of a word's occupancy, in 1/16 pJ (R382). -/
def State.lxNominal (s : State) (j : LxJob) (w : LxWord) : Nat :=
  let rate : Nat := match lxMulOf w.word with
    | some m => (match (s.geoOf w m).form with | 0 => 1100 | 1 => 1000 | _ => 900)
    | none => 300
  16 * rate * s.occupancy j w

/-- The engine's work is charged to the team (R382). -/
def State.lxCharge (s : State) (j : LxJob) : State :=
  match j.lxs with
  | [] => s
  | w :: _ =>
    s.chargeTeam (teamOf w.rk) (s.lxNominal j w)

/-- The engines of a cluster may start work: ALLOW is not negative, and no transition is under way
(R294, R301). -/
def State.engineMay (s : State) (cluster : Nat) : Bool :=
  decide (0 ≤ (s.cluster cluster).allow) && (s.cluster cluster).target.isNone

/-- The engine's reads of scratch count as accesses of its pages (R204). -/
def State.lxNotes (s : State) (j : LxJob) : State :=
  match j.lxs with
  | [] => s
  | w :: _ =>
    let rs := s.lxRanges w
    rs.foldl (fun t r => t.noteScratch (teamOf w.rk) r.1 r.2) s

/-- Register words of a member that the engine reads and that are bad: with a duplicate, or without one (R58). -/
def State.lxBadWords (s : State) (w : LxWord) (dup : Bool) : List Nat :=
  let bad := (s.role w.rk).lanes.bad
  if bad.isEmpty then [] else (s.lxWords w).filter fun k => bad.get? k == some dup

/-- What a machine check of a member at its word says (R238, R339). -/
def State.lxInfo (s : State) (w : LxWord) (sub : Nat) : RecInfo :=
  { s.roleInfo w.rk true .mcheck sub 0 0
      (if sub = 1 then laneBits ((s.lxBadWords w false).map fun k => k / 256).dedup else 0) false with pc := w.pc }

/-- A machine check on every member at an accepted word (R238, R337): a transactional team aborts; otherwise each member
stops, and the word stays in the engine queue. -/
def State.lxChecks (s : State) (ws : List LxWord) (sub : Nat) : State :=
  match ws with
  | [] => s
  | w0 :: _ =>
    let tk := teamOf w0.rk
    if (s.team tk).abortable then
      (ws.foldl (fun t w => t.addRec (t.vfOf w.rk) (s.lxInfo w sub) none) s).abortTeam tk 4
    else ws.foldl (fun t w =>
      let id := t.nextRec % 2 ^ 32
      (t.addRec (t.vfOf w.rk) (s.lxInfo w sub) (some w.rk)).updRole w.rk fun r => { r with stopped := some id }) s

/-- The engine's reads of a word may meet uncorrectable data or bad parity: with duplicates the words are repaired, without
one it is a machine check on every member (R58, R238). None: the word goes on. -/
def State.lxFails (s : State) (j : LxJob) : Option State :=
  if s.lxBadB j then some (s.lxChecks j.lxs 2)
  else if j.lxs.any fun w => !(s.lxBadWords w false).isEmpty then
    let s1 := j.lxs.foldl (fun t w => t.updCore (t.coreOf w.rk) fun c => { c with mchk := Nat.min (c.mchk + 1) 0xFFFF }) s
    some (s1.lxChecks j.lxs 1)
  else none

/-- The repairs of a word's reads (R58). -/
def State.lxRepair (s : State) (j : LxJob) : State :=
  j.lxs.foldl (fun t w =>
    let ws := s.lxBadWords w true
    if ws.isEmpty then t else t.repair (t.coreOf w.rk) w.rk ws) s

/-- The first word of the engine queue whose members no fault record has stopped, and its place (R232, R238). -/
def State.lxNext (s : State) (core : Nat) : Option (LxJob × Nat) :=
  findIdxFrom (fun j => j.lxs.all fun w => (s.role w.rk).stopped.isNone) 0 (s.core core).engQ |>.bind fun e =>
    (s.core core).engQ[e.1]?.map fun j => (j, e.1)

/-- LX_START (R232, R294): the first word of the engine queue starts when the engine is idle. It reads A, B and C now, so
bad data in them is found now (R58, R229, R238). -/
def execLxStart (core : Nat) (s : State) : Res :=
  if !s.engineMay (clusterOf core) || !(s.core core).lxDone.isEmpty then .next s
  else match s.lxNext core with
  | none => .next s
  | some (j, i) =>
    match s.lxFails j with
    | some s1 => .next { s1 with free := s1.free + 1 }
    | none =>
      let s := (s.lxRepair j).lxCharge j
      let o := s.lxCompute j
      let j1 := { j with results := o.results, inner := o.obs.sat, range := o.obs.range, cans := o.obs.cans,
                         sat := o.sat, updates := o.updates, left := (j.lxs.head?.map (s.lxNominal j)).getD 0 }
      .next { (s.lxNotes j).updCore core (fun c => { c with engQ := c.engQ.eraseIdx i, lxDone := [j1] }) with
        free := s.free + 1 }

/-- The nominal cost of one step of a word (R232, R294); of a word without steps all of it. -/
def State.lxStepCost (s : State) (j : LxJob) (w : LxWord) : Nat :=
  match lxMulOf w.word with
  | some m => s.lxNominal j w / Nat.max 1 ((s.geoOf w m).steps - s.deadSteps w m)
  | none => s.lxNominal j w

/-- The word that the engine performs takes `n` from the power allowance, if so much is left of its estimate (R294). -/
def State.lxTake (s : State) (core : Nat) (n : LxJob → Nat) : State :=
  match (s.core core).lxDone with
  | j :: t =>
    let k := Nat.min (n j) j.left
    (s.updCore core fun c => { c with lxDone := { j with left := j.left - k } :: t }).updCluster (clusterOf core) fun c =>
      { c with allow := c.allow - k }
  | [] => s

/-- The engine performs a step of its word (R294). -/
def State.lxStep (s : State) (core : Nat) : State :=
  s.lxTake core fun j => (j.lxs.head?.map (s.lxStepCost j)).getD 0

/-- Later bytes of the engine stand for an earlier word's that R237 left unspecified, where they cover them all. -/
def Watch.covered (w : Watch) (by_ : List Rect) : Watch := if w.dst.all by_.contains then { w with hit := false } else w

/-- A member's bytes are written and its outstanding result returns (R157, R232, R237). -/
def Role.lxReturn (r : Role) (id free : Nat) (bs : List (Nat × Byte)) : Role :=
  let own := r.lanes.watch.filter fun w => w.id == id
  let mixed := own.flatMap Watch.mixed
  let regs := bs.foldl (fun m e =>
    if mixed.contains e.1 && Config.freeBit free e.1 then m else m.set 0 e.1 e.2) r.lanes.regs
  { r with
    lxOut := r.lxOut - 1
    lanes := { r.lanes with
      regs := regs, bad := r.lanes.bad.filter (fun e => !(bs.any fun b => b.1 == 4 * e.1))
      pend := r.lanes.pend.map fun p => bs.foldl (fun p e => p.note e.1) p
      back := r.lanes.back.map fun p => bs.foldl (fun p e => p.note e.1) p
      watch := r.lanes.watch.map fun w =>
        if w.id = id then { w with pending := false } else if w.pending then w else w.covered (own.flatMap Watch.dst) } }

/-- The events of a word, counted before its results are written (R236, R246). -/
def State.lxEvents (s : State) (j : LxJob) : State :=
  match j.lxs with
  | [] => s
  | w :: _ =>
    match lxMulOf w.word with
    | some _ => s.matrixEvents (teamOf w.rk) j.inner j.range j.cans
    | none => s.satEvents (teamOf w.rk) j.sat

/-- The waybill updates of a VACCRD (R241). -/
def State.lxUpdates (s : State) (j : LxJob) : State :=
  match j.lxs with
  | w :: _ =>
    (match w.word with
     | .vaccrd _ _ _ fs _ true _ =>
       let s1 := s.updTeam (teamOf w.rk) fun t => { t with reserved := t.reserved - s.lxReserve w }
       s1.wbFeedAll w.rk .f32 (j.updates.map fun u => ((s.slot w.rk fs).wbidx, u))
     | _ => s)
  | [] => s

/-- The page of the write set that a VACCRD's updates lack (R215, R241, R251). -/
def State.lxWsLack (s : State) (j : LxJob) : Option (Nat × Nat) :=
  match j.lxs with
  | w :: _ => if s.lxReserve w = 0 then none else (s.wsLack (teamOf w.rk) j.updates.length).map fun p => (w.rk, p)
  | [] => none

/-- LX_RESULT_WRITE (R232): the events are counted, and a word that does not trip its team writes its
results. The engine stops during a transition (R301). -/
def execLxResultWrite (core : Nat) (s : State) : Res :=
  if s.relocking core then .next s
  else match (s.core core).lxDone with
  | [] => .next s
  | j :: t =>
    match s.lxWsLack j with
    | some p => .next (s.startService (teamOf p.1) p.2 (some (.lane p.1)))
    | none =>
    let s1 := ((s.lxTake core LxJob.left).updCore core fun c => { c with lxDone := t }).lxEvents j
    if j.lxs.all fun w => s1.hasRole w.rk then
      .next { (j.results.foldl (fun u e => u.updRole e.1 fun r => r.lxReturn j.id s.free e.2) (s1.lxUpdates j)) with
        free := s.free + 1 }
    else .next s1

end Sys2Proof.Machine
end

