-- ==== Sys2Proof/Machine/Engine.lean ====
section
/-! DEFINITION. What the copy, scale-out and depot engines share: the accesses of a command
(R267, R311, R328, R336, R391), tokens (R272, R320, R352), queue fences (R188), the start of a command
and its completion word (R81, R264, R266, R271). -/

namespace Sys2Proof.Machine
open Sys2Proof

/-! ## The command in progress -/

/-- An engine queue of a role. -/
def State.engQ (s : State) (rk q : Nat) : EngQ := (s.role rk).eng q

/-- The first number that names a role; a command that a post has fired is named by a smaller one, the number of its firing
(R407, log 3, log 27). -/
def firstRole : Nat := 2 ^ 63

/-- The command in progress of a role's queue, or of a firing. -/
def State.cmdOf (s : State) (id q : Nat) : Option Cmd :=
  if id < firstRole then (s.fired.get? id).map Fired.cmd else (s.engQ id q).run

/-- The role whose accesses a command makes: of a firing, the role that posted (R407). -/
def State.actor (s : State) (id : Nat) : Nat := if id < firstRole then (s.fired.get Fired.empty id).rk else id

/-- Its context. -/
def State.cmdVf (s : State) (id : Nat) : Nat := if id < firstRole then (s.fired.get Fired.empty id).vf else s.vfOf id

/-- Change the command in progress. -/
def State.updCmd (s : State) (id q : Nat) (f : Cmd → Cmd) : State :=
  if id < firstRole then
    { s with fired := s.fired.map fun e => if e.1 = id then (e.1, { e.2 with cmd := f e.2.cmd }) else e }
  else s.updRole id fun r => r.updEng q fun e => { e with run := e.run.map f }

/-- How far the command in progress has got. -/
def State.prog (s : State) (id q : Nat) : Prog := ((s.cmdOf id q).map Cmd.prog).getD .fresh

/-- Change how far the command in progress has got. -/
def State.updProg (s : State) (id q : Nat) (f : Prog → Prog) : State :=
  s.updCmd id q fun c => { c with prog := f c.prog }

/-- A command that has ended holds nothing any more: no grain, no line, no entries of the write log (R249, R328, R336). -/
def Prog.released (g : Prog) : Prog := { g with holds := [], lines := [], reserved := 0 }

/-- The entries of the write log that a role's command has reserved are free again (R249). -/
def State.freeEntries (s : State) (rk q : Nat) : State :=
  let n := (s.prog rk q).reserved
  if n = 0 then s else s.updTeam (teamOf rk) fun t => { t with reserved := t.reserved - n }

/-- What a command has cost is charged as it completes (R382, R396): a firing's to the context that posted it (R410); where the
team has gone, by the meter that stands for no core (log 27). -/
def State.chargeCmd (s : State) (id : Nat) (c : Cmd) : State :=
  let rk := s.actor id
  if c.fare = 0 then s
  else if s.hasRole rk then s.chargeTeam (teamOf rk) c.fare else s.charge 480 (s.cmdVf id) c.fare

/-- The command has been performed, or has failed: its status and DONE (R266); it holds nothing any more. A firing's completion
word is discarded (R407). -/
def State.cmdEnd (s : State) (id q status done : Nat) : State :=
  if id < firstRole then
    let s1 := s.chargeCmd id ((s.cmdOf id q).getD Cmd.empty)
    { s1 with fired := s1.fired.erase id, free := s1.free + 1 }
  else
    { (s.freeEntries id q).updCmd id q (fun c => { c with result := some (status, done), prog := c.prog.released }) with
      free := s.free + 1 }

/-- The frame of a command: it runs as the command in progress of its queue. A command that has been
performed, or waits for the answer to a fault record, does nothing. -/
def engineOp (s : State) (k : Nat → Nat → Cmd → Res) : Res :=
  match s.cur with
  | .engine rk q =>
    match s.cmdOf rk q with
    | none => .fault .wrongAgent
    | some c => if c.result.isSome || c.stall.isSome then .next s else k rk q c
  | _ => .fault .wrongAgent

/-- What the PAGE record of a command says (R339). -/
def State.cmdInfo (s : State) (id q sub va ia : Nat) : RecInfo :=
  if id < firstRole then
    { code := .page, sub := sub, flags := 2, team := .open_, role := 0xFF, queue := 4, pc := 0, va := va, pa := ia,
      lanes := 0 }
  else
    { code := .page, sub := sub, flags := recFlags false true (s.inTx (teamOf id)) false,
      team := .of (teamOf id), role := roleIdx id, queue := q, pc := 0, va := va, pa := ia, lanes := 0 }

/-- A command meets a page fault: a PAGE record, and the queue stalls until the answer (R311, R404). -/
def State.cmdPage (s : State) (id q sub va ia : Nat) : State :=
  let rid := s.nextRec % 2 ^ 32
  (s.addRec (s.cmdVf id) (s.cmdInfo id q sub va ia) (if id < firstRole then none else some id)).updCmd id q fun c =>
    { c with stall := some rid }

/-! ## Accesses of a command -/

/-- One access of a command. -/
structure Acc where
  sp : Space
  addr : Nat
  n : Nat
  write : Bool
  deriving DecidableEq, Repr

/-- The host window of a host-space address, and the offset in it (R391). -/
def hostOff (a : Nat) : Nat × Nat := (fieldOf a 48 2, a % 2 ^ 48)

/-- Every byte of a host-space access is legal (R391). -/
def State.hostLegal (s : State) (vf a n : Nat) : Bool :=
  decide (a < 2 ^ 50) &&
    decide ((hostOff a).2 + n ≤ Nat.min (2 ^ 48) ((s.vf vf).hostSize.get 0 (hostOff a).1).toNat)

/-- The host address of a host-space address (R391). -/
def State.hostAddr (s : State) (vf a : Nat) : Nat :=
  ((s.vf vf).hostBase.get 0 (hostOff a).1).toNat + (hostOff a).2

/-- An access is legal in its space (R133, R267, R391); a global one names a segment of this package. -/
def State.accLegal (s : State) (rk : Nat) (a : Acc) : Bool :=
  match a.sp with
  | .glob =>
    match s.toIa (s.vfOf rk) a.addr a.n with
    | .ia _ => true
    | _ => false
  | .scr => s.legalScratch (teamOf rk) a.addr a.n
  | .host => s.hostLegal (s.vfOf rk) a.addr a.n

/-- Why an access cannot be made now. -/
inductive Lack where
  | none
  | page (sub va ia : Nat)
  | scratch (vpn : Nat)
  deriving DecidableEq, Repr

/-- What an access lacks (R206, R311). -/
def State.accLack (s : State) (rk : Nat) (a : Acc) : Lack :=
  match a.sp with
  | .glob =>
    match s.xlat (s.vfOf rk) a.addr a.n a.write with
    | .page sub ia => .page sub a.addr ia
    | _ => .none
  | .scr =>
    match s.scratchFault (teamOf rk) a.addr a.n false with
    | some v => .scratch v
    | none => .none
  | .host => .none

/-- What the first access that cannot be made lacks. -/
def State.firstLack (s : State) (rk : Nat) : List Acc → Lack
  | [] => .none
  | a :: t =>
    match s.accLack rk a with
    | .none => s.firstLack rk t
    | l => l

/-- A command waits for what an access lacks: a record of its own, or the pager (R206, R311). -/
def State.cmdLack (s : State) (id q : Nat) : Lack → State
  | .none => s
  | .page sub va ia => s.cmdPage id q sub va ia
  | .scratch v => s.startService (teamOf (s.actor id)) v (some (.queue (s.actor id) q))

/-- Translate an access whatever lines are lost (R336). -/
def State.xlatAny (s : State) (vf va n : Nat) (write : Bool) : Option Xlat :=
  match s.toIa vf va n with
  | .ia ia =>
    match s.translateIa (s.vf vf).part ia n write with
    | .ok x => some x
    | _ => none
  | _ => none

/-- The bytes an access reads; none at a lost line (R336) or at uncorrectable data (R335). Host memory is outside the package: its bytes
are free values (R315, log 2). -/
def State.accRead (s : State) (rk : Nat) (a : Acc) : Option (List Byte) :=
  match a.sp with
  | .glob =>
    match s.xlat (s.vfOf rk) a.addr a.n false with
    | .ok x => some (s.loadX x)
    | _ => none
  | .scr => if s.vaultBad (teamOf rk) a.addr a.n false then none else some (s.scratchLoad (teamOf rk) a.addr a.n)
  | .host => some ((rangeFrom a.addr a.n).map (Config.freeByte s.free))

/-- Where an access lies: space, first byte, length. Global bytes are named by their IA. -/
def State.accLoc (s : State) (rk : Nat) (a : Acc) : Nat × Nat × Nat :=
  match a.sp with
  | .glob =>
    match s.toIa (s.vfOf rk) a.addr a.n with
    | .ia ia => (0, ia, a.n)
    | _ => (3, a.addr, 0)
  | .scr => (1, a.addr, a.n)
  | .host => (2, s.hostAddr (s.vfOf rk) a.addr, a.n)

/-- A place before others, as one with the first of them where that follows it. -/
def joinLoc (l : Nat × Nat × Nat) : List (Nat × Nat × Nat) → List (Nat × Nat × Nat)
  | [] => [l]
  | x :: t => if l.1 = x.1 ∧ l.2.1 + l.2.2 = x.2.1 then (l.1, l.2.1, l.2.2 + x.2.2) :: t else l :: x :: t

/-- Where accesses lie; those that follow one another are one place. -/
def State.accLocs (s : State) (rk : Nat) (as : List Acc) : List (Nat × Nat × Nat) := (as.map (s.accLoc rk)).foldr joinLoc []

/-- A byte lies in a place. -/
def inLoc (sp p : Nat) (l : Nat × Nat × Nat) : Bool := l.1 == sp && decide (l.2.1 ≤ p) && decide (p < l.2.1 + l.2.2)

/-- Destination bytes that overlap source bytes of the same command are unspecified (R267). -/
def freeOverlap (srcs : List (Nat × Nat × Nat)) (free sp p : Nat) : List Byte → List Byte
  | [] => []
  | b :: t =>
    (if srcs.any (inLoc sp p) then Config.freeByte free p else b) :: freeOverlap srcs free sp (p + 1) t

/-! ## Grains and lost lines -/

/-- A byte lies in one of some ranges. -/
def inRanges (rs : List (Nat × Nat)) (p : Nat) : Bool := rs.any fun r => decide (r.1 ≤ p) && decide (p < r.1 + r.2)

/-- The grains that writes cover only in part, of all that they touch (R328). -/
def partGrains (part : Nat) (ws : List (Nat × Nat)) : List Nat :=
  ((ws.flatMap fun r => linesOf part r.1 r.2).map grainKey).dedup.filter fun g =>
    !(rangeFrom (g % 2 ^ 43 * 512) 512).all (inRanges ws)

/-- The IA ranges of global accesses. -/
def State.accIas (s : State) (rk : Nat) (as : List Acc) : List (Nat × Nat) :=
  (s.accLocs rk as).filterMap fun l =>
    match l with
    | (0, ia, n) => some (ia, n)
    | _ => none

/-- Writes of a command cover part of a grain that a cache holds dirty (R328). -/
def State.grainBad (s : State) (part : Nat) (ws : List (Nat × Nat)) : Bool :=
  (s.dirty.keys.map grainKey).dedup.any fun g =>
    let base := g % 2 ^ 43 * 512
    g / 2 ^ 43 == part && (ws.any fun r => decide (r.1 < base + 512) && decide (base < r.1 + r.2))
      && !(rangeFrom base 512).all (inRanges ws)

/-- The physical bytes that global accesses cover. -/
def State.accPas (s : State) (vf : Nat) (as : List Acc) : List Nat :=
  as.flatMap fun a =>
    match a.sp with
    | .glob => ((s.xlatAny vf a.addr a.n true).map Xlat.pas).getD []
    | _ => []

/-- The lost physical lines that some bytes cover whole (R336). -/
def State.coveredLost (s : State) (pas : List Nat) : List Nat :=
  ((pas.filter s.lostPa).map fun p => p / 64).dedup.filter fun l =>
    (rangeFrom (64 * l) 64).all fun p => pas.contains p

/-- Clear the entries of lost lines (R336). -/
def State.clearLost (s : State) (ls : List Nat) : State :=
  ls.foldl (fun t l => t.updDie (fieldOf (64 * l) 38 2) fun d =>
    { d with lost := d.lost.filter (fun k => k != l), lostL2 := d.lostL2.filter (fun k => k != l), untracked := d.untracked.filter fun k => k != l }) s

/-! ## Writes of a command -/

/-- One write of a command, and how many destination elements it counts for. -/
structure CopyW where
  sp : Space
  addr : Nat
  bytes : List Byte
  count : Nat
  deriving DecidableEq, Repr

/-- The access of a write. -/
def CopyW.acc (w : CopyW) : Acc := ⟨w.sp, w.addr, w.bytes.length, true⟩

/-- Perform one write of a command; none when it meets a lost line that the accesses `cover` of the command do not cover, or uncorrectable
data in a word of scratch that it writes in part (R211, R322, R335, R336, R391). -/
def State.copyWrite (s : State) (rk : Nat) (cover : List Acc) (srcs : List (Nat × Nat × Nat)) (w : CopyW) :
    Option State :=
  let l := s.accLoc rk w.acc
  let bs := freeOverlap srcs s.free l.1 l.2.1 w.bytes
  match w.sp with
  | .scr =>
    if s.vaultBadFe (teamOf rk) w.addr bs.length true true then none
    else some ((s.scratchStore (teamOf rk) w.addr bs).setFull (teamOf rk) w.addr bs.length true)
  | .host => some { s with outbox := s.outbox ++ [.host (s.vfOf rk) l.2.1 bs] }
  | .glob =>
    match s.xlatAny (s.vfOf rk) w.addr bs.length true with
    | none => none
    | some x =>
      let lost := ((x.pas.filter s.lostPa).map fun p => p / 64).dedup
      if lost.isEmpty || lost.all (s.coveredLost (s.accPas (s.vfOf rk) cover)).contains then some ((s.clearLost lost).homeWriteX x bs) else none

/-- The lost lines that a write of a command covers, with the rest of its command, as it makes its first write to them: the
home holds them for it from here on (R336). -/
def State.lostUnder (s : State) (rk : Nat) (w : CopyW) : List Nat :=
  match w.sp with
  | .glob =>
    match s.xlatAny (s.vfOf rk) w.addr w.bytes.length true with
    | some x => ((x.pas.filter s.lostPa).map fun p => p / 64).dedup
    | none => []
  | _ => []

/-- What of some grains and lines a command has still to write (R328, R336). -/
def State.stillHeld (s : State) (rk : Nat) (ws : List CopyW) (g : Prog) : Prog :=
  if g.holds.isEmpty && g.lines.isEmpty then g
  else
    let as := ws.map CopyW.acc
    let gs := (s.accIas rk as).flatMap fun r => (linesOf (s.vf (s.vfOf rk)).part r.1 r.2).map grainKey
    let ls := (s.accPas (s.vfOf rk) as).map fun p => p / 64
    { g with holds := g.holds.filter gs.contains, lines := g.lines.filter ls.contains }

/-- The lines of an engine's global access. -/
def State.lines (s : State) (rk : Nat) (a : Acc) : List Nat :=
  match a.sp with
  | .glob => s.accLines rk a.addr a.n
  | _ => []

/-- The nominal cost of an access of an engine, in 1/16 pJ (R382): `prev` is the access before it in its command, `home` says
that it is an atomic at the home. -/
def State.moveCost (s : State) (rk : Nat) (home : Bool) (prev : Option Acc) (a : Acc) : Nat :=
  match a.sp with
  | .scr => s.byteCost rk false false true a.addr a.n []
  | .glob => s.byteCost rk false home false a.addr a.n ((prev.map (s.lines rk)).getD [])
  | .host => 0

/-- What an engine's access costs counts to the command, which is charged when it completes (R382, R396); a copy engine's leaves
the power allowance (R294). -/
def State.chargeMove (s : State) (id q : Nat) (home : Bool) (prev : Option Acc) (a : Acc) : State :=
  let rk := s.actor id
  let n := s.moveCost rk home prev a
  let s1 := s.updCmd id q fun c => { c with fare := c.fare + n }
  if q < 4 then s1.updCluster (clusterOf (s.coreOf rk)) fun k => { k with allow := k.allow - n } else s1

/-- The transfers at the stacks that accesses of an engine make (R367). -/
def State.moveTransfers (s : State) (rk : Nat) (as : List Acc) : List Nat :=
  as.flatMap fun a =>
    match a.sp with
    | .glob => s.accTransfers rk false a.addr a.n a.write
    | .scr => s.accTransfers rk true a.addr a.n a.write
    | .host => []

/-- An access finds its line in a refresh, or held for another command (R336, R360). -/
def State.accWaits (s : State) (id q : Nat) (a : Acc) : Bool :=
  (s.moveTransfers (s.actor id) [a]).any fun l =>
    s.inRefresh (64 * l) || (s.lineHeld l && !(s.prog id q).lines.contains l)

/-- The pages of scratch sources are accessed (R204). -/
def State.noteReads (s : State) (rk : Nat) (as : List Acc) : State :=
  as.foldl (fun t a =>
    match a.sp with
    | .scr => t.noteScratch (teamOf rk) a.addr a.n
    | _ => t) s

/-! ## Tokens -/

/-- What a look at a token finds. -/
inductive Tok where
  | ready
  | wait
  | status (n : Nat)
  | page (sub ia : Nat)
  deriving DecidableEq, Repr

/-- Look at a token in a context (R272, R320, R352): ADDRESS (3), MISALIGN (4), MCHECK (7), a page fault, or
whether it has reached a value. -/
def State.tokenAt (s : State) (vf a v : Nat) : Tok :=
  match s.toIa vf a 8 with
  | .ia _ =>
    if a % 8 ≠ 0 then .status 4
    else match s.xlat vf a 8 false with
      | .ok x => if v ≤ leNat (s.loadX x) then .ready else .wait
      | .page sub ia => .page sub ia
      | .mcheck _ => .status 7
      | _ => .status 3
  | _ => .status 3

/-- Add to the token at a translated address, at its home, from a cluster or from none (R271, R289, R320, R358). -/
def State.tokenAdd (s : State) (src : Nat) (x : Xlat) (v : Nat) : State :=
  (s.homeWriteX x (leBytes 8 (leNat (s.loadX x) + v))).noteHome src x.part x.ia

/-- The wait of a command for its token (R272): it goes on once the token has reached the value. -/
def State.cmdWait (s : State) (rk q : Nat) (c : Cmd) (wt : Option (W64 × W64)) (k : State → Res) : Res :=
  match wt with
  | none => k s
  | some (a, v) =>
    if !c.waiting then k s
    else match s.tokenAt (s.vfOf rk) a.toNat v.toNat with
      | .ready => k (s.updCmd rk q fun c => { c with waiting := false })
      | .wait => .next s
      | .status n => .next (s.cmdEnd rk q n 0)
      | .page sub ia => .next (s.cmdPage rk q sub a.toNat ia)

/-- The token wait of a command, if it waits. -/
def waitOf : Instr → Option (W64 × W64)
  | .cp x => x.tail.wt | .cpcv x => x.tail.wt | .rdst x => x.tail.wt | .fill x => x.tail.wt
  | .gath x => x.tail.wt | .sig x => x.tail.wt | .task x => x.wt | .rwr x => x.tail.wt
  | .rrd x => x.tail.wt | .rsig x => x.tail.wt | .post x => x.tail.wt | _ => none

/-- A waiting command whose token has reached its value goes on (R272, R320). -/
def State.releaseWait (s : State) (rk q : Nat) : State :=
  match (s.engQ rk q).run with
  | some c =>
    match c.instr.bind waitOf with
    | some (a, v) =>
      if c.waiting && s.tokenAt (s.vfOf rk) a.toNat v.toNat = .ready then
        s.updCmd rk q fun c => { c with waiting := false }
      else s
    | none => s
  | none => s

/-! ## Starting a command -/

/-- What the first `n` words among queue entries follow: the lane words before their pushes (R184, R317). -/
def wordSpans (n : Nat) (es : List QEntry) : List (Nat × Nat) :=
  (es.filterMap fun e => match e with | .word _ _ lo hi => some (lo, hi) | .fence _ _ _ => none).take n

/-- The queue has the fence at its head with nothing running, or has passed it (R188). -/
def EngQ.atFence (e : EngQ) (id : Nat) : Bool :=
  match e.todo with
  | .fence i _ _ :: _ => i != id || e.run.isNone
  | es => !es.any fun x => match x with | .fence i _ _ => i == id | _ => false

/-- A fence behind the head still holds commands ahead of it. -/
def EngQ.behindFence (e : EngQ) (id : Nat) : Bool :=
  (e.todo.drop 1).any fun x => match x with | .fence i _ _ => i == id | _ => false

/-- Every queue that a fence names has completed the commands ahead of it (R188, R319). -/
def State.fenceOpen (s : State) (rk id mask : Nat) : Bool :=
  ((List.range 6).filter fun j => bitOf mask j).all fun j =>
    (s.engQ rk j).atFence id && !(s.engQ rk j).behindFence id

/-- Remove a fence from every queue of the role. -/
def Role.passFence (r : Role) (id : Nat) : Role :=
  (List.range 6).foldl (fun r j => r.updEng j fun e =>
    { e with todo := e.todo.filter fun x => match x with | .fence i _ _ => i != id | _ => true }) r

/-- The command that words decode to, ready to run; one that names no command has failed with CMDFAULT
(R81, R264). -/
def newCmd (q : Nat) (ws : List W64) (seed : W32) : Cmd :=
  let i := decodeCmd q ws
  { instr := i, tag := fieldOf (wordAt ws 0).toNat 0 16, ev := evBit q (wordAt ws 0), seed := seed,
    waiting := (i.bind waitOf).isSome, stall := none, sent := none, payload := [], reply := none, msg := 0, resend := [], fare := 0,
    result := (match i with | some _ => none | none => some (1, 0)), prog := .fresh, acks := 0 }

/-- A command with WB while waybills are not accepted (R392): like an instruction of that feature it is not assigned, so it has
failed with CMDFAULT (R6, R81; DESIGN CHOICE, log 70: R392 names ILLEGAL, which commands do not raise). -/
def Cmd.covered (c : Cmd) (waybills : Bool) : Cmd :=
  let wb := match c.instr with | some (.cpcv x) => x.wb | some (.rdst x) => x.wb | _ => false
  if wb && !waybills then { c with instr := none, waiting := false, result := some (1, 0) } else c

/-- The engine looks at the head of an idle queue: it passes an open fence (R188), or starts a command
once all its words are present (R264) and the lane words before their pushes have been performed (R184, R317). -/
def State.startCmd (s : State) (rk q : Nat) : State :=
  let e := s.engQ rk q
  match e.run, e.todo with
  | none, .fence id mask _ :: _ =>
    if s.fenceOpen rk id mask then s.updRole rk fun r => r.passFence id else s
  | none, .word h seed _ _ :: _ =>
    let n := cmdLen q h
    let p := takeWords n e.todo
    if p.1.length < n || (wordSpans n e.todo).any fun w => s.spanWaits rk w.1 w.2 then s
    else s.updRole rk fun r => r.updEng q fun e =>
      { e with todo := p.2, run := some ((newCmd q p.1 seed).covered (s.accept.getLsbD 6)) }
  | _, _ => s

/-! ## Completing a command -/

/-- The completion word of a performed command goes to its queue, with a copy to `q14` when EV is set; a
status other than 0 and 2 stops the queue (R81, R266, R271, R353, R403). -/
def State.postResult (s0 : State) (rk q : Nat) (c : Cmd) (status done : Nat) : State :=
  let s := s0.chargeCmd rk c
  let w := complWord c.tag status done
  let s1 := if status = 0 ∨ status = 2 then
      s.updRole rk fun r => r.updEng q fun e => { e with run := none, done := e.done ++ [w] }
    else s.failQ rk q w
  if c.ev then s1.addEvents rk [w] else s1

/-- The copy to `q14` has room, or is not made (R185, R271). -/
def State.eventRoom (s : State) (rk : Nat) (c : Cmd) : Bool := !c.ev || s.pushBlock rk 14 == .room

/-- The command in progress has been performed: it completes once the host has acknowledged its writes (R391) and its event
has room. -/
def State.completeCmd (s : State) (rk q : Nat) : State :=
  match (s.engQ rk q).run with
  | some c =>
    match c.result with
    | some (st, done) => if c.acks = 0 && s.eventRoom rk c then s.postResult rk q c st done else s
    | none => s
  | none => s

end Sys2Proof.Machine
end

