-- ==== Sys2Proof/Machine/Copy.lean ====
section
/-! DEFINITION. The tensor copy engine: CP, FILL, GATH, CPCV, RDST and SIG (R264 to R272, R328), with the
events of its commands. Each element access is an access of its own (R317); the pace says how many of them one step
performs (log 22, 68). -/

namespace Sys2Proof.Machine
open Sys2Proof

/-! ## Elements -/

/-- A base address with an index times a signed stride for each of two dimensions, and an offset
(R267). -/
def elemAddr (base : W64) (i2 : Nat) (st2 : W32) (i1 : Nat) (st1 : W32) (off : Nat) : Nat :=
  (base + BitVec.ofNat 64 i2 * st2.signExtend 64 + BitVec.ofNat 64 i1 * st1.signExtend 64
    + BitVec.ofNat 64 off).toNat

/-- An element's indices. -/
structure Ix where
  i2 : Nat
  i1 : Nat
  i0 : Nat
  deriving DecidableEq, Repr

/-- All elements in iteration order (R264). -/
def shapeIxs (h : Shape) : List Ix :=
  (List.range (h.e2 * h.e1 * h.e0)).map fun n => ⟨n / (h.e0 * h.e1), n / h.e0 % h.e1, n % h.e0⟩

/-- The address of a source element of `es` bytes (R267). -/
def srcAt (h : Shape) (es : Nat) (i : Ix) : Nat := elemAddr h.src i.i2 h.s2 i.i1 h.s1 (i.i0 * es)

/-- The address of a destination element of `w` bits (R267). -/
def dstAt (h : Shape) (sw : Bool) (w : Nat) (i : Ix) : Nat :=
  let off := i.i0 * w / 8
  elemAddr h.dst i.i2 h.d2 i.i1 h.d1 (if sw then swz i.i1 off else off)

/-- SWZ with a destination that does not take it (R267). -/
def swzBad (sw : Bool) (sp : Space) (h : Shape) : Bool :=
  sw && (sp != .scr || h.dst.toNat % 64 != 0 || h.d1.toNat % 64 != 0)

/-! ## The shared course of a command -/

/-- The accesses of a command: sources and destinations of its elements in iteration order, writes beside
them, and whether some element is misaligned. -/
structure Plan where
  reads : List Acc
  writes : List Acc
  extra : List Acc
  mis : Bool
  deriving DecidableEq, Repr

/-- Sources before destinations, element by element. -/
def Plan.order (p : Plan) : List Acc :=
  (p.reads.zip p.writes).flatMap (fun e => [e.1, e.2])
    ++ p.reads.drop p.writes.length ++ p.writes.drop p.reads.length ++ p.extra

/-- The first check of a command that fails, before it reads or writes anything (R266, R267, R328): ADDRESS, MISALIGN,
GRAIN. `bulk` is false for RDST and SIG, which never meet GRAIN. -/
def State.planFails (s : State) (rk : Nat) (p : Plan) (bulk : Bool) : Option Nat :=
  if !(p.order.all (s.accLegal rk)) then some 3
  else if p.mis then some 4
  else if bulk && s.grainBad (s.vf (s.vfOf rk)).part (s.accIas rk (p.writes ++ p.extra)) then some 8
  else none

/-- A command begins (R328): it holds the grains that it covers in part. -/
def State.beginCmd (s : State) (id q : Nat) (p : Plan) (bulk : Bool) (seed : W32) : State :=
  let rk := s.actor id
  let gs := if bulk then partGrains (s.vf (s.vfOf rk)).part (s.accIas rk (p.writes ++ p.extra)) else []
  s.updProg id q fun g => { g with begun := true, rng := seedOf seed, holds := gs }

/-- The accesses of a command (R317): its reads; the writes that the values of its first reads allow, in iteration
order, where the flag says that no more values will come; a status that the values may show before any write is made; and
whether it may write an element before it has read the next. `most` bounds its writes, and `home` says that they are atomics at
the home (R270). -/
structure Course where
  reads : List Acc
  writes : List (List Byte) → Bool → List CopyW
  fails : List (List Byte) → Option Nat
  eager : Bool
  most : Nat
  home : Bool

/-- The values of a command's first reads, up to the first that has not been made. -/
def Prog.got (g : Prog) : List (List Byte) :=
  ((g.vals.zipIdx).takeWhile fun e => e.1.1 == e.2).map fun e => e.1.2

/-- A command has met a lost line. -/
def Prog.bad (g : Prog) : Bool := g.lost || g.upTo.isSome

/-- A read of a command: its number, the access before it in iteration order, the access. -/
abbrev Read : Type := Nat × Option Acc × Acc

/-- The reads that a command has still to make: all up to the first that meets a lost line. Each precedes its element's write;
among themselves they have no order (R317). -/
def Course.todo (x : Course) (g : Prog) : List Read :=
  ((((none :: x.reads.map some).zip x.reads).zipIdx).map fun e => (e.2, e.1)).filter fun e =>
    decide (e.1 < g.upTo.getD x.reads.length) && !g.vals.has e.1

/-- The order in which a command makes the reads that are left: with a pace, any; without one it cannot be told. -/
def State.readOrder (s : State) (todo : List Read) : List Read :=
  if s.pace.isSome then
    (todo.filter fun e => Config.freeBit s.free (2 * e.1 + 1)) ++ todo.filter fun e => !Config.freeBit s.free (2 * e.1 + 1)
  else todo

/-- The writes that a command has still to make; the bytes of those whose values are not known yet are none of the
command's. -/
def Course.ahead (x : Course) (g : Prog) : List CopyW :=
  (if g.bad then x.writes g.got true else x.writes (x.reads.map fun a => List.replicate a.n 0) true).drop g.wrote

/-- What one access of a command leads to: the next one, a wait for a page, a wait for a refresh or for another command's
hold, or its end. -/
inductive Turn where
  | go (s : State)
  | stay (s : State)
  | wait (s : State)
  | done (s : State)

/-- A write of more than 8 bytes, or an unaligned one, is made as its aligned pieces of 8 bytes in ascending order
(R317). -/
def CopyW.pieces (w : CopyW) : List CopyW :=
  let n := w.bytes.length
  if n ≤ 8 ∧ w.addr % Nat.max n 1 = 0 then [w]
  else
    let first := w.addr / 8
    let cnt := (w.addr + n - 1) / 8 - first + 1
    (List.range cnt).map fun k =>
      let lo := Nat.max w.addr (8 * (first + k))
      let hi := Nat.min (w.addr + n) (8 * (first + k) + 8)
      ⟨w.sp, lo, (w.bytes.drop (lo - w.addr)).take (hi - lo), if k + 1 = cnt then w.count else 0⟩

/-- Does a write overlap an access? -/
def State.overlaps (s : State) (rk : Nat) (w : CopyW) (a : Acc) : Bool :=
  let x := s.accLoc rk w.acc
  let y := s.accLoc rk a
  x.1 == y.1 && decide (x.2.1 < y.2.1 + y.2.2) && decide (y.2.1 < x.2.1 + x.2.2)

/-- The next read of a command; one that meets a lost line ends the reads there (R266, R336). One whose line is in a refresh, or
held, waits (R336, R360). -/
def State.courseRead (s : State) (id q : Nat) (e : Read) : Turn :=
  let rk := s.actor id
  let a := e.2.2
  if s.accWaits id q a then .wait s
  else match s.accLack rk a with
  | .none =>
    (match s.accRead rk a with
     | some bs => .go (((s.noteReads rk [a]).chargeMove id q false e.2.1 a).updProg id q fun g => { g with vals := g.vals.put e.1 bs })
     | none => .go (s.updProg id q fun g => { g with upTo := some (Nat.min e.1 (g.upTo.getD e.1)) }))
  | l => .stay (s.cmdLack id q l)

/-- How a write of a command is made: the state after it, if it can be made. -/
abbrev Put : Type := State → Nat → CopyW → Option State

/-- The next write of a command, `prev` the one before it; a lost line ends it (R266, R336). The lost lines that it clears are
held for the command from here on. -/
def State.courseWrite (s : State) (id q : Nat) (home : Bool) (put : Put) (prev : Option CopyW) (w : CopyW) : Turn :=
  let rk := s.actor id
  if s.accWaits id q w.acc then .wait s
  else match s.accLack rk w.acc with
  | .none =>
    (match put s (s.prog id q).wrote w with
     | some s1 => .go ((s1.chargeMove id q home (prev.map CopyW.acc) w.acc).updProg id q fun g =>
         { g with wrote := g.wrote + 1, count := g.count + w.count, lines := g.lines ++ if home then [] else s.lostUnder rk w })
     | none => .done (s.updProg id q fun g => { g with lost := true }))
  | l => .stay (s.cmdLack id q l)

/-- Reads of a command, at most `n`, with no write between them: none are left, or the bound is met, or one has to wait; and
how much of the bound is left. -/
def courseReads (id q : Nat) : List Read → Nat → State → Turn × Nat
  | [], n, s => (.done s, n)
  | _ :: _, 0, s => (.go s, 0)
  | e :: t, n + 1, s =>
    if (s.prog id q).upTo.any fun u => decide (u ≤ e.1) then courseReads id q t (n + 1) s
    else match s.courseRead id q e with
    | .go s1 => courseReads id q t n s1
    | r => (r, n)

/-- Writes of a command, at most `n`. -/
def courseWrites (id q : Nat) (home : Bool) (put : Put) : List CopyW → Option CopyW → Nat → State → Turn
  | [], _, _, s => .done s
  | _ :: _, _, 0, s => .go s
  | w :: t, prev, n + 1, s =>
    match s.courseWrite id q home put prev w with
    | .go s1 => courseWrites id q home put t (some w) n s1
    | r => r

/-- The write before number `n` in a list. -/
def writeBefore (ws : List CopyW) (n : Nat) : Option CopyW := if n = 0 then none else ws[n - 1]?

/-- The next access of a command that may write as soon as it has read (R317): it is free to, unless it would write a byte
that it still has to read. -/
def State.courseStep (s : State) (id q : Nat) (x : Course) (put : Put) (todo : List Read) (e : Read) : Turn :=
  let g := s.prog id q
  let ws := x.writes g.got false
  match ws[g.wrote]? with
  | some w =>
    if Config.freeBit s.free (2 * (g.vals.length + g.wrote)) && !todo.any fun e => s.overlaps (s.actor id) w e.2.2 then
      s.courseWrite id q x.home put (writeBefore ws g.wrote) w
    else s.courseRead id q e
  | none => s.courseRead id q e

/-- Reads and writes of a command, at most `n`, until it has read everything. -/
def courseMix (id q : Nat) (x : Course) (put : Put) : Nat → State → Turn × Nat
  | 0, s => (.go s, 0)
  | n + 1, s =>
    let todo := x.todo (s.prog id q)
    match s.readOrder todo with
    | [] => (.done s, n + 1)
    | e :: _ =>
      match s.courseStep id q x put todo e with
      | .go s1 => courseMix id q x put n s1
      | r => (r, n)

/-- The accesses of a command, at most `n` (R317). With no bound on the pace every value is read before the first write. -/
def courseGo (id q : Nat) (x : Course) (put : Put) (n : Nat) (s : State) : Turn :=
  let r :=
    if x.eager && s.pace.isSome then courseMix id q x put n s
    else courseReads id q (s.readOrder (x.todo (s.prog id q))) n s
  match r with
  | (.done s1, m) =>
    let g1 := s1.prog id q
    let ws := x.writes g1.got true
    courseWrites id q x.home put (ws.drop g1.wrote) (writeBefore ws g1.wrote) m s1
  | (w, _) => w

/-- A status that the values show is found before the first write (R266, R269). -/
def State.courseFails (s : State) (id q : Nat) (x : Course) : Option Nat :=
  let g := s.prog id q
  if g.wrote = 0 && (g.lost || (x.todo g).isEmpty) then x.fails g.got else none

/-- The accesses that a command would make in this step, if none had to wait. -/
def State.courseBurst (s : State) (x : Course) (g : Prog) : List Acc :=
  let as := (s.readOrder (x.todo g)).map (fun e => e.2.2) ++ (x.ahead g).map CopyW.acc
  match s.pace with
  | none => as
  | some n => as.take n

/-- A command that has not ended keeps, of its holds, those on what it has still to write (R328, R336). -/
def State.coursePause (s : State) (id q : Nat) (x : Course) : State :=
  { s.updProg id q (s.stillHeld (s.actor id) (x.ahead (s.prog id q))) with free := s.free + 1 }

/-- The transfers that a command was about to make are counted, those of them that have to wait for a refresh (R360, R367). -/
def State.courseStall (s : State) (id q : Nat) (x : Course) : State :=
  s.stallAll (.queue id q) (s.moveTransfers (s.actor id) (s.courseBurst x (s.prog id q)))

/-- A command makes as many accesses as the pace lets it; then it waits, or ends by `fin`. -/
def State.runCourse (s : State) (id q : Nat) (x : Course) (put : Put) (fin : State → Res) : Res :=
  match courseGo id q { x with writes := fun vs e => if e && (x.fails vs).isSome then [] else x.writes vs e } put
      (s.pace.getD (x.reads.length + x.most + 1)) s with
  | .go s1 => .next (s1.coursePause id q x)
  | .stay s1 => .next (s1.coursePause id q x)
  | .wait s1 => .next ((s1.courseStall id q x).coursePause id q x)
  | .done s1 =>
    match s1.courseFails id q x with
    | some st => .next (s1.cmdEnd id q st 0)
    | none => fin s1

/-- A command from its checks to its end. -/
def State.runPlan (s : State) (rk q : Nat) (c : Cmd) (p : Plan) (bulk : Bool) (k : State → Res) : Res :=
  if (s.prog rk q).begun then k s
  else match s.planFails rk p bulk with
    | some st => .next (s.cmdEnd rk q st 0)
    | none => k (s.beginCmd rk q p bulk c.seed)

/-- The end of a copy: OK, or MCHECK when a source or a destination line is lost (R266, R336). -/
def State.copyEnd (s : State) (rk q : Nat) : State :=
  let g := s.prog rk q
  s.cmdEnd rk q (if g.bad then 7 else 0) g.count

/-- A host write waits for the host's acknowledgement (R391). -/
def CopyW.acks (w : CopyW) : Nat := match w.sp with | .host => 1 | _ => 0

/-- The writes of a copy: each is performed as it is, and one to host memory has to be acknowledged. `srcs` are the places
of the sources. -/
def copyPut (rk q : Nat) (p : Plan) (srcs : List (Nat × Nat × Nat)) (s : State) (_i : Nat) (w : CopyW) : Option State :=
  (s.copyWrite rk (p.writes ++ p.extra) srcs w).map
    fun s1 => s1.updCmd rk q fun c => { c with acks := c.acks + w.acks }

/-! ## CP, FILL and GATH -/

/-- The course of a copy of elements. -/
def copyCourse (p : Plan) : Course :=
  { reads := p.reads
    writes := fun vs _ => (p.writes.zip vs).flatMap fun e => CopyW.pieces ⟨e.1.sp, e.1.addr, e.2, 1⟩
    fails := fun _ => none, eager := true, most := 3 * p.writes.length, home := false }

/-- A copy of elements. -/
def State.copyElems (s : State) (rk q : Nat) (c : Cmd) (p : Plan) : Res :=
  s.runPlan rk q c p true fun s =>
    s.runCourse rk q (copyCourse p) (copyPut rk q p (s.accLocs rk p.reads)) fun s => .next (s.copyEnd rk q)

/-- The plan of a CP (R268). -/
def cpPlan (x : CpCmd) : Plan :=
  { reads := (shapeIxs x.shape).map fun i => ⟨x.ssp, srcAt x.shape x.esz i, x.esz, false⟩
    writes := (shapeIxs x.shape).map fun i => ⟨x.dsp, dstAt x.shape x.swz (8 * x.esz) i, x.esz, true⟩
    extra := [], mis := swzBad x.swz x.dsp x.shape }

/-- CP (R268). -/
def execCp (x : CpCmd) (s : State) : Res :=
  engineOp s fun rk q c => s.cmdWait rk q c x.tail.wt fun s => s.copyElems rk q c (cpPlan x)

/-- The plan of a FILL (R268). -/
def fillPlan (x : FillCmd) : Plan :=
  { reads := []
    writes := (shapeIxs x.shape).map fun i => ⟨x.dsp, dstAt x.shape x.swz (8 * x.esz) i, x.esz, true⟩
    extra := [], mis := swzBad x.swz x.dsp x.shape }

/-- The bytes of a FILL element (R268). VALUE has 8 bytes; the rest of an element of 16 is a free value
(log 23). -/
def fillBytes (x : FillCmd) (free : Nat) : List Byte :=
  leBytes (Nat.min x.esz 8) x.value.toNat ++ (rangeFrom 0 (x.esz - 8)).map (Config.freeByte free)

/-- The course of a FILL. -/
def fillCourse (x : FillCmd) (free : Nat) : Course :=
  { reads := [], writes := fun _ _ => (fillPlan x).writes.flatMap fun a => CopyW.pieces ⟨a.sp, a.addr, fillBytes x free, 1⟩
    fails := fun _ => none, eager := true, most := 3 * (fillPlan x).writes.length, home := false }

/-- FILL (R268). -/
def execFill (x : FillCmd) (s : State) : Res :=
  engineOp s fun rk q c => s.cmdWait rk q c x.tail.wt fun s =>
    s.runPlan rk q c (fillPlan x) true fun s =>
      s.runCourse rk q (fillCourse x s.free) (copyPut rk q (fillPlan x) []) fun s => .next (s.copyEnd rk q)

/-- The accesses of GATH's index array (R268). -/
def gathIdx (x : GathCmd) : List Acc :=
  (List.range x.count).map fun j => ⟨x.isp, (x.idx + BitVec.ofNat 64 (4 * j)).toNat, 4, false⟩

/-- Offsets of the elements of a row. -/
def gathOffs (x : GathCmd) : List Nat := (List.range (x.rb / x.esz)).map fun n => n * x.esz

/-- The plan of a GATH from its indices (R268). -/
def gathPlan (x : GathCmd) (idx : List Nat) : Plan :=
  let rows := idx.zipIdx
  { reads := rows.flatMap fun e => (gathOffs x).map fun o =>
      ⟨x.ssp, (x.src + BitVec.ofNat 64 e.1 * x.sp.signExtend 64 + BitVec.ofNat 64 o).toNat, x.esz, false⟩
    writes := rows.flatMap fun e => (gathOffs x).map fun o =>
      ⟨x.dsp, (x.dst + BitVec.ofNat 64 e.2 * x.dp.signExtend 64 + BitVec.ofNat 64 o).toNat, x.esz, true⟩
    extra := [], mis := false }

/-- GATH (R268): every index is read before a row is copied. -/
def execGath (x : GathCmd) (s : State) : Res :=
  engineOp s fun rk q c => s.cmdWait rk q c x.tail.wt fun s =>
    match (s.prog rk q).idx with
    | some idx => s.copyElems rk q c (gathPlan x idx)
    | none =>
      s.runPlan rk q c ⟨gathIdx x, [], [], false⟩ false fun s =>
        s.runCourse rk q (copyCourse ⟨gathIdx x, [], [], false⟩) (fun _ _ _ => none) fun s =>
          let g := s.prog rk q
          if g.bad then .next (s.cmdEnd rk q 7 0)
          else
            let idx := g.got.map leNat
            (s.updProg rk q fun _ => { Prog.fresh with idx := some idx }).copyElems rk q c (gathPlan x idx)

/-! ## CPCV -/

/-- The row number of an element (R269). -/
def cvRow (h : Shape) (i : Ix) : Nat := i.i1 + h.e1 * i.i2

/-- The number of an element's scale in the scale area (R269). -/
def cvGroup (geom : Nat) (h : Shape) (i : Ix) : Nat :=
  match geom with
  | 1 => cvRow h i * (h.e0 / 32) + i.i0 / 32
  | 2 => cvRow h i * ((h.e0 + 127) / 128) + i.i0 / 128
  | 3 => (i.i2 * (h.e1 / 128) + i.i1 / 128) * (h.e0 / 128) + i.i0 / 128
  | _ => 0

/-- The number of scales (R269). -/
def cvGroups (geom : Nat) (h : Shape) : Nat :=
  match geom with
  | 1 => h.e1 * h.e2 * (h.e0 / 32)
  | 2 => h.e1 * h.e2 * ((h.e0 + 127) / 128)
  | 3 => h.e2 * (h.e1 / 128) * (h.e0 / 128)
  | _ => 0

/-- Bytes of one scale (R269). -/
def cvScaleBytes (geom : Nat) : Nat := if geom = 1 then 1 else 4

/-- The extents fit the geometry and the format (R269). -/
def cvShapeOk (sl : Slot) (h : Shape) : Bool :=
  (sl.geom != 1 || h.e0 % 32 == 0) && (sl.geom != 3 || (h.e0 % 128 == 0 && h.e1 % 128 == 0))
    && (fmtWidth sl.efmt != 4 || h.e0 % 2 == 0)

/-- The plan of a CPCV (R269). -/
def cpcvPlan (x : CpcvCmd) (sl : Slot) : Plan :=
  let w := fmtWidth sl.efmt
  let es := fmtWidth x.sf / 8
  let n := cvScaleBytes sl.geom
  { reads := (shapeIxs x.shape).map fun i => ⟨x.ssp, srcAt x.shape es i, es, false⟩
    writes := (shapeIxs x.shape).map fun i => ⟨x.dsp, dstAt x.shape x.swz w i, (w + 7) / 8, true⟩
    extra := (List.range (cvGroups sl.geom x.shape)).map fun k =>
      ⟨x.dsp, (x.sca + BitVec.ofNat 64 (n * k)).toNat, n, true⟩
    mis := swzBad x.swz x.dsp x.shape }

/-- One scale: its value, its bytes in the scale area, and whether every element of its group could be
read. -/
structure CvScale where
  val : XVal
  code : Nat
  known : Bool
  deriving DecidableEq, Repr

/-- The scale of the values of a group (R27, R33, R269). -/
def cvScale (sl : Slot) (ff : FF) (vs : List XVal) : XVal × Nat :=
  if sl.geom = 1 then
    let m := mxScale vs ff
    (.ofScaled false 1 m.1, m.2)
  else
    let v := scaleOf (amaxOf vs) ff sl.margin
    (v, (roundTo v .f32 .rne false 0).bits)

/-- The scales of a command, by number (R269). -/
def cvScales (sl : Slot) (ff : FF) (h : Shape) (xs : List XVal) : List CvScale :=
  let es := (shapeIxs h).map (cvGroup sl.geom h)
  (List.range (cvGroups sl.geom h)).map fun k =>
    let r := cvScale sl ff (((es.zip xs).filter fun e => e.1 == k).map Prod.snd)
    ⟨r.1, r.2, (es.drop xs.length).all fun e => e != k⟩

/-- Quantise values by their scales in iteration order (R20, R269). -/
def quantList (ff : FF) (rnd : Rnd) (sat : Bool) : List (XVal × XVal) → W32 → List Quant
  | [], _ => []
  | e :: t, g =>
    let r := quantOne ff rnd sat e.1 e.2 g
    r.1 :: quantList ff rnd sat t r.2

/-- 4-bit elements pack in pairs (R11): address, byte, elements. `old` is the byte a lone element keeps its
other half of. -/
def packPairs (old : Nat → Nat) : List (Nat × Nat) → List (Nat × Nat × Nat)
  | (a, x) :: (_, y) :: t => (a, x % 16 + 16 * (y % 16), 2) :: packPairs old t
  | [(a, x)] => [(a, x % 16 + old a / 16 * 16, 1)]
  | [] => []

/-- The destination writes of quantised elements (R11, R269). -/
def cvWrites (w : Nat) (sp : Space) (old : Nat → Nat) (es : List (Nat × Nat)) : List CopyW :=
  if w = 4 then (packPairs old es).map fun e => ⟨sp, e.1, leBytes 1 e.2.1, e.2.2⟩
  else es.map fun e => ⟨sp, e.1, leBytes (w / 8) e.2, 1⟩

/-- An element whose scale could not be computed has unspecified contents (R336, log 2). -/
def cvBits (free w : Nat) (i : Nat) (known : Bool) (bits : Nat) : Nat :=
  if known then bits else leNat ((rangeFrom (8 * i) ((w + 7) / 8)).map (Config.freeByte free)) % 2 ^ w

/-- What the values read so far come to in a CPCV (R269): their scales by group, and the quantised elements with their
scales. -/
def cpcvQuants (x : CpcvCmd) (sl : Slot) (ff : FF) (scale : XVal) (seed : W32) (raw : List Nat) :
    List CvScale × List (Quant × CvScale) :=
  let xs := raw.map (fmtVal x.sf)
  let scs := cvScales sl ff x.shape xs
  let sc (i : Ix) : CvScale :=
    if sl.geom = 0 then ⟨scale, 0, true⟩ else scs.getD (cvGroup sl.geom x.shape i) ⟨.one, 0, true⟩
  let used := ((shapeIxs x.shape).take xs.length).map sc
  (scs, (quantList ff sl.rnd (sl.sat || sl.geom == 1) (xs.zip (used.map CvScale.val)) (seedOf seed)).zip used)

/-- The writes of a CPCV: its elements, then the scale area (R11, R269). -/
def State.cpcvWrites (s : State) (rk : Nat) (x : CpcvCmd) (sl : Slot) (q : List CvScale × List (Quant × CvScale)) :
    List CopyW :=
  let p := cpcvPlan x sl
  let w := fmtWidth sl.efmt
  let bits := q.2.zipIdx.map fun e => cvBits s.free w e.2 e.1.2.known e.1.1.bits
  let old (a : Nat) : Nat := leNat ((s.accRead rk ⟨x.dsp, a, 1, false⟩).getD [])
  let area := (p.extra.zip q.1).filterMap fun e =>
    if e.2.known then some (⟨x.dsp, e.1.addr, leBytes e.1.n e.2.code, 0⟩ : CopyW) else none
  (cvWrites w x.dsp old ((p.writes.map Acc.addr).zip bits) ++ area).flatMap CopyW.pieces

/-- The course of a CPCV: every source is read before anything is written, since RESCALE is found first (R266, R269). -/
def State.cpcvCourse (s : State) (rk : Nat) (x : CpcvCmd) (sl : Slot) (ff : FF) (scale : XVal) (seed : W32) : Course :=
  let p := cpcvPlan x sl
  { reads := p.reads
    writes := fun vs e => if e then s.cpcvWrites rk x sl (cpcvQuants x sl ff scale seed (vs.map leNat)) else []
    fails := fun vs => if (cpcvQuants x sl ff scale seed (vs.map leNat)).2.any fun e => e.1.over_ then some 6 else none
    eager := false, most := 3 * (p.writes.length + p.extra.length), home := false }

/-- The end of a CPCV: its waybill updates and its saturation events (R246, R269); entries of the write log need their pages
(R215). -/
def State.cpcvEnd (s : State) (rk q : Nat) (c : Cmd) (x : CpcvCmd) (sl : Slot) (ff : FF) (scale : XVal) : State :=
  let g := s.prog rk q
  let raw := g.got.map leNat
  match if x.wb then s.wsLack (teamOf rk) g.count else none with
  | some p => s.startService (teamOf rk) p (some (.queue rk q))
  | none =>
    let s1 := if x.wb then (raw.take g.count).foldl (fun t b => t.wbFeed rk sl.wbidx x.sf b) s else s
    (s1.copyEnd rk q).satEvents (teamOf rk)
      (((cpcvQuants x sl ff scale c.seed raw).2.filter fun e => e.1.event).length)

/-- The conversion of a CPCV that has begun (R269). -/
def State.cpcvRun (s : State) (rk q : Nat) (c : Cmd) (x : CpcvCmd) (sl : Slot) (ff : FF) (scale : XVal) : Res :=
  s.runCourse rk q (s.cpcvCourse rk x sl ff scale c.seed) (copyPut rk q (cpcvPlan x sl) (s.accLocs rk (cpcvPlan x sl).reads)) fun s =>
    .next (s.cpcvEnd rk q c x sl ff scale)

/-- A command that takes its scale from, or updates, a waybill finds the table page unmapped (R344). -/
def State.cmdWbPage (s : State) (rk q sub va ia : Nat) : State :=
  let id := s.nextRec % 2 ^ 32
  (s.addRec (s.vfOf rk) { wbPageInfo sub va ia with team := .of (teamOf rk) } (some rk)).updCmd rk q fun c =>
    { c with stall := some id }

/-- The waybill read of a slot with SRC = 1 is charged as the bytes it moves (R382). -/
def State.chargeSlot (s : State) (rk q : Nat) (sl : Slot) : State :=
  if sl.src then s.chargeMove rk q false none ⟨.glob, (s.vf (s.vfOf rk)).wbVa sl.wbidx, 128, false⟩ else s

/-- A command's waybill read waits for the updates that LX words of its role have still to make; those of other lane words
before its push have been made when it starts (R184, R348). -/
def State.lxOwes (s : State) (rk : Nat) : Bool :=
  (s.role rk).lxOut != 0 || (s.role rk).hold.any fun w => updatesWaybill w.word

/-- The role has a scalar issue boundary: its team runs, and the scalar stream is not parked and has no access half
performed; during a transition there is none (R159, R301). -/
def State.scalarBoundary (s : State) (rk : Nat) : Bool :=
  let t := s.team (teamOf rk)
  let r := s.role rk
  s.hasRole rk && t.phase == .running && t.suspend.isNone && t.halted.isNone && r.stopped.isNone && !r.finished
    && r.spark == .none && r.part.isEmpty && !s.relocking (s.coreOf rk)

/-- The entries of the write log that a CPCV with WB, performed at once in an open transaction, takes: one for each source
element (R249). -/
def State.cpcvEntries (s : State) (rk : Nat) (x : CpcvCmd) (sl : Slot) : Nat :=
  if x.wb && s.inTx (teamOf rk) then (cpcvPlan x sl).reads.length else 0

/-- A CPCV has passed its checks: it reserves its entries and keeps its scale (R249, R269). -/
def State.cpcvBegin (s : State) (rk q : Nat) (x : CpcvCmd) (sl : Slot) (scale : Nat) : State :=
  let n := s.cpcvEntries rk x sl
  let s1 := if n = 0 then s else s.updTeam (teamOf rk) fun t => { t with reserved := t.reserved + n }
  (s1.chargeSlot rk q sl).updProg rk q fun g => { g with scale := scale, reserved := n }

/-- The checks of a CPCV when it starts, in order, and its waybill scale (R265, R269, R344): the format it converts to, or
what it comes to instead. Where the write log lacks room for its entries it does not start, and the role raises TXCAP at its
next scalar issue boundary (R249). -/
def State.cpcvStart (s : State) (rk q : Nat) (c : Cmd) (x : CpcvCmd) (sl : Slot) (k : FF → XVal → State → Res) : Res :=
  if sl.geom == 0 && x.sca != 0 then .next (s.cmdEnd rk q 1 0)
  else match quantFF sl.efmt with
    | none => .next (s.cmdEnd rk q 5 0)
    | some ff =>
      if (s.prog rk q).begun then k ff (decodeF .f32 (s.prog rk q).scale) s
      else if (x.wb && !sl.src) || !cvShapeOk sl x.shape then .next (s.cmdEnd rk q 5 0)
      else if sl.src && s.lxOwes rk then .next s
      else match s.slotScale rk sl ff with
        | .opformat => .next (s.cmdEnd rk q 5 0)
        | .page sub va ia => .next (s.cmdWbPage rk q sub va ia)
        | .mcheck _ _ _ => .next (s.cmdEnd rk q 7 0)
        | .scale v =>
          if !s.logRoom (teamOf rk) (s.cpcvEntries rk x sl) && s.cpcvEntries rk x sl != 0 then
            .next (if s.scalarBoundary rk then s.raiseS rk .txcap 0 else s)
          else s.runPlan rk q c (cpcvPlan x sl) true fun s =>
            let b := (roundTo v .f32 .rne false 0).bits
            k ff (decodeF .f32 b) (s.cpcvBegin rk q x sl b)

/-- CPCV (R269). -/
def execCpcv (x : CpcvCmd) (s : State) : Res :=
  engineOp s fun rk q c => s.cmdWait rk q c x.tail.wt fun s =>
    let sl := slotOf ((s.launchOf rk).fslot x.fs.toNat)
    s.cpcvStart rk q c x sl fun ff v s => s.cpcvRun rk q c x sl ff v

/-! ## RDST and SIG -/

/-- The access of a signal step (R271). -/
def sigAcc : Signal → List Acc
  | .none => []
  | .token a _ => [⟨.glob, a.toNat, 8, true⟩]
  | .barrier a => [⟨.scr, a.toNat, 8, true⟩]

/-- The signal's address is not a multiple of 8 (R271). -/
def sigMis : Signal → Bool
  | .none => false
  | .token a _ => a.toNat % 8 != 0
  | .barrier a => a.toNat % 8 != 0

/-- A barrier signal whose object's own conditions fail (R189, R271). -/
def State.sigBad (s : State) (rk : Nat) : Signal → Bool
  | .barrier a => !s.vaultBad (teamOf rk) a.toNat 8 false && !barOk (leNat (s.scratchLoad (teamOf rk) a.toNat 8))
  | _ => false

/-- Perform the signal step (R271); none at a lost line or at uncorrectable data (R335, R336). -/
def State.signal (s : State) (rk : Nat) : Signal → Option State
  | .none => some s
  | .token a v =>
    match s.xlat (s.vfOf rk) a.toNat 8 true with
    | .ok x => some (s.tokenAdd (clusterOf (s.coreOf rk)) x v.toNat)
    | _ => none
  | .barrier a =>
    if s.vaultBad (teamOf rk) a.toNat 8 false then none
    else some (s.scratchStore (teamOf rk) a.toNat
      (leBytes 8 (barStep (leNat (s.scratchLoad (teamOf rk) a.toNat 8)))))

/-- The plan of an RDST (R270). -/
def rdstPlan (x : RdstCmd) (w : Nat) : Plan :=
  let es := fmtWidth x.sf / 8
  { reads := (shapeIxs x.shape).map fun i => ⟨x.ssp, srcAt x.shape es i, es, false⟩
    writes := (shapeIxs x.shape).map fun i => ⟨.glob, dstAt x.shape false w i, w / 8, true⟩
    extra := sigAcc x.sig
    mis := ((shapeIxs x.shape).any fun i => dstAt x.shape false w i % (w / 8) != 0) || sigMis x.sig }

/-- The element formats of RDST (R270). -/
def rdstFF : Fmt → Option FF
  | .f32 => some .f32 | .bf16 => some .bf16 | .f16 => some .f16 | _ => none

/-- The waybill that WB names is registered (R270). -/
def State.wbNamed (s : State) (rk : Nat) (wb : Bool) (sl : Slot) : WbCheck :=
  if !wb then .ok
  else if !sl.src then .opformat
  else s.wbCheckAll (s.vfOf rk) [sl.wbidx]

/-- The waybill update of an RDST element (R32): the source value where it converts, the stored value where it does
not. -/
def State.rdstFeed (s : State) (rk : Nat) (x : RdstCmd) (sl : Slot) (raw bits : Nat) : State :=
  if !x.wb then s
  else if x.sf = sl.efmt then s.wbFeed rk sl.wbidx sl.efmt bits
  else s.wbFeed rk sl.wbidx x.sf raw

/-- One RDST element, a reduction atomic at its home (R270, R289); none at a lost line. -/
def rdstPut (rk q : Nat) (x : RdstCmd) (ff : FF) (sl : Slot) (srcs : List (Nat × Nat × Nat)) (s : State) (i : Nat)
    (w : CopyW) : Option State :=
  match s.xlat (s.vfOf rk) w.addr w.bytes.length true with
  | .ok t =>
    let g := s.prog rk q
    let raw := leNat (g.vals.get [] i)
    let r := roundDraw g.rng (xadd (sl.rnd == .rdn) (decodeF ff (leNat (s.loadX t))) (fmtVal x.sf raw)) ff sl.rnd sl.sat
    let s1 := s.homeWriteX t (freeOverlap srcs s.free 0 t.ia (leBytes w.bytes.length r.1.bits))
    let s2 := (s1.noteHome (clusterOf (s.coreOf rk)) t.part t.ia).updProg rk q fun g => { g with rng := r.2 }
    some ((s2.rdstFeed rk x sl raw r.1.bits).satEvents (teamOf rk) (b2n r.1.event))
  | _ => none

/-- The course of an RDST. -/
def rdstCourse (p : Plan) : Course :=
  { reads := p.reads
    writes := fun vs _ => (p.writes.zip vs).map fun e => ⟨.glob, e.1.addr, leBytes e.1.n 0, 1⟩
    fails := fun _ => none, eager := true, most := p.writes.length, home := true }

/-- A command's signal step, and its end (R271). -/
def State.signalEnd (s : State) (rk q : Nat) (sig : Signal) : Res :=
  let g := s.prog rk q
  if g.bad then .next (s.cmdEnd rk q 7 g.count)
  else if (sigAcc sig).any (s.accWaits rk q) then .next (s.stallAll (.queue rk q) (s.moveTransfers rk (sigAcc sig)))
  else match s.firstLack rk (sigAcc sig) with
    | .none =>
      (match s.signal rk sig with
       | some s1 => .next (((sigAcc sig).foldl (fun u a => u.chargeMove rk q true none a) s1).cmdEnd rk q 0 g.count)
       | none => .next (s.cmdEnd rk q 7 g.count))
    | l => .next (s.cmdLack rk q l)

/-- The checks of an RDST when it starts (R270, R344). -/
def State.rdstStart (s : State) (rk q : Nat) (x : RdstCmd) (sl : Slot) (k : State → Res) : Res :=
  if (s.prog rk q).begun then k s
  else match s.wbNamed rk x.wb sl with
    | .opformat => .next (s.cmdEnd rk q 5 0)
    | .page sub va ia => .next (s.cmdWbPage rk q sub va ia)
    | .mcheck _ _ _ => .next (s.cmdEnd rk q 7 0)
    | .ok => k s

/-- RDST (R270). With a pace its signal is a step of its own, after the last element (R271, R317). -/
def execRdst (x : RdstCmd) (s : State) : Res :=
  engineOp s fun rk q c => s.cmdWait rk q c x.tail.wt fun s =>
    let sl := slotOf ((s.launchOf rk).fslot x.fs.toNat)
    match if sl.geom = 0 then rdstFF sl.efmt else none with
    | none => .next (s.cmdEnd rk q 5 0)
    | some ff =>
      s.rdstStart rk q x sl fun s =>
        let p := rdstPlan x (fmtWidth sl.efmt)
        if !(s.prog rk q).begun && (s.planFails rk p false).isNone && s.sigBad rk x.sig then .next (s.cmdEnd rk q 9 0)
        else s.runPlan rk q c p false fun s =>
          s.runCourse rk q (rdstCourse p) (rdstPut rk q x ff sl (s.accLocs rk p.reads)) fun s1 =>
            if s1.pace.isSome && (s1.prog rk q).wrote != (s.prog rk q).wrote then .next s1 else s1.signalEnd rk q x.sig

/-- SIG (R271). -/
def execSig (x : SigCmd) (s : State) : Res :=
  engineOp s fun rk q c => s.cmdWait rk q c x.tail.wt fun s =>
    let p : Plan := ⟨[], [], sigAcc x.sig, sigMis x.sig⟩
    if !(s.prog rk q).begun && (s.planFails rk p false).isNone && s.sigBad rk x.sig then .next (s.cmdEnd rk q 9 0)
    else s.runPlan rk q c p false fun s => s.signalEnd rk q x.sig

/-! ## What a command is about to do -/

/-- The pieces of a byte range that are single accesses: aligned ones of 8 bytes, and what is left at its ends (R317, R404). -/
def rangePieces (sp : Space) (a n : Nat) (write : Bool) : List Acc :=
  (rangeFrom (a / 8) (if n = 0 then 0 else (a + n - 1) / 8 - a / 8 + 1)).map fun b =>
    let lo := Nat.max a (8 * b)
    ⟨sp, lo, Nat.min (a + n) (8 * (b + 1)) - lo, write⟩

/-- The local space of a scale-out command (R401). -/
def locSpace (scr : Bool) : Space := if scr then .scr else .glob

/-- The reads of an RWR's local bytes (R404). -/
def rwrCourse (x : RwrCmd) : Course :=
  { reads := rangePieces (locSpace x.lscr) x.laddr.toNat x.len false, writes := fun _ _ => [], fails := fun _ => none
    eager := false, most := 0, home := false }

/-- The local writes of an RRD, of the bytes that it has got (R404). -/
def rrdCourse (x : RrdCmd) (bs : List Byte) : Course :=
  let as := rangePieces (locSpace x.lscr) x.laddr.toNat x.len true
  { reads := [], writes := fun _ _ => as.map fun a => ⟨a.sp, a.addr, (bs.drop (a.addr - x.laddr.toNat)).take a.n, 0⟩
    fails := fun _ => none, eager := false, most := as.length, home := false }

/-- The course of a command in progress, if it makes accesses of elements. -/
def State.cmdCourse (s : State) (id : Nat) (c : Cmd) : Option Course :=
  match c.instr with
  | some (.cp x) => some (copyCourse (cpPlan x))
  | some (.fill x) => some (fillCourse x 0)
  | some (.gath x) =>
    (match c.prog.idx with
     | some idx => some (copyCourse (gathPlan x idx))
     | none => some (copyCourse ⟨gathIdx x, [], [], false⟩))
  | some (.cpcv x) =>
    let sl := slotOf ((s.launchOf id).fslot x.fs.toNat)
    (match quantFF sl.efmt with
     | some ff => some (s.cpcvCourse id x sl ff (decodeF .f32 c.prog.scale) c.seed)
     | none => none)
  | some (.rdst x) => some (rdstCourse (rdstPlan x (fmtWidth (slotOf ((s.launchOf id).fslot x.fs.toNat)).efmt)))
  | some (.rwr x) => if c.sent.isNone then some (rwrCourse x) else none
  | some (.rrd x) => c.reply.map fun r => rrdCourse x r.2
  | _ => none

/-- The scratch pages that an engine is transferring to or from: those of the next read and of the next write of a command
that has begun and waits for nothing (R204, R208). -/
def State.cmdPins (s : State) (id q : Nat) : List Nat :=
  match s.cmdOf id q with
  | none => []
  | some c =>
    if !c.prog.begun || c.result.isSome || c.stall.isSome then []
    else match s.cmdCourse id c with
      | none => []
      | some x =>
        let rk := s.actor id
        let as := ((s.readOrder (x.todo c.prog)).take 1).map (fun e => e.2.2) ++ ((x.ahead c.prog).take 1).map CopyW.acc
        let sc := as.filter fun a => a.sp == .scr
        if sc.any fun a => s.accLack rk a != .none then [] else sc.flatMap fun a => pagesOf a.addr a.n

/-- The page is one that an engine of a role of the team is transferring to or from (R204). -/
def State.enginePins (s : State) (tk vpn : Nat) : Bool :=
  (s.roles.any fun e => teamOf e.1 == tk && (List.range 6).any fun q => (s.cmdPins e.1 q).contains vpn)
    || s.fired.any fun e => teamOf e.2.rk == tk && (s.cmdPins e.1 4).contains vpn

/-! ## Events -/

/-- COPY_WT_RELEASE (R272): the token has reached the awaited value, and the command goes on. -/
def execCopyWtRelease (rk q : Nat) (s : State) : Res := .next (s.releaseWait rk q)

/-- COPY_COMPLETE (R266, R269, R271): the completion word is produced; MCHECK aborts an open transaction
(R252), RESCALE arms the trap of the pushing role. -/
def execCopyComplete (rk q : Nat) (s : State) : Res :=
  if 4 ≤ q then .next s
  else match (s.engQ rk q).run.bind Cmd.result with
    | none => .next s
    | some (st, _) =>
      if st = 7 && (s.team (teamOf rk)).abortable then .next (s.abortTeam (teamOf rk) 4)
      else
        let s1 := s.completeCmd rk q
        if st = 6 && (s1.engQ rk q).run.isNone then
          .next (s1.updRole rk fun r => { r with rescale := true })
        else .next s1

/-- CPCV_RESCALE_TRAP (R269, R199): the trap at the role's next scalar issue boundary, once the results of
accepted LX words have returned (R165). -/
def execCpcvRescaleTrap (rk : Nat) (s : State) : Res :=
  let r := s.role rk
  if r.rescale && r.lxOut = 0 && s.scalarBoundary rk then
    .next ((s.updRole rk fun r => { r with rescale := false }).userTrap rk 1 0 false r.pc)
  else .next s

end Sys2Proof.Machine
end

