-- ==== Sys2Proof/Machine/Depot.lean ====
section
/-! DEFINITION. Depots: the words of a row (R355 to R358), tasks and their rows (R350 to R354). -/

namespace Sys2Proof.Machine
open Sys2Proof

/-! ## Legal words -/

/-- The marks, hold and operands, each with its bytes, of a word that may stand in depot code
(R356). -/
structure DepotForm where
  sw : Bool
  hold : Hold
  ops : List (Opnd × Nat)
  deriving DecidableEq, Repr

/-- A form whose operands have one width. -/
def depForm (c : LaneCtl) (n : Nat) (os : List Opnd) : Option DepotForm := some ⟨c.sw, c.hold, os.map fun o => (o, n)⟩

/-- Bytes of an integer type. -/
def ityN (t : ITy) : Nat := (ityW t).bytes

/-- Bytes of a form whose IT is 0 or 2. -/
def widN (w64 : Bool) : Nat := (bitsW w64).bytes

/-- The lane words that depots run beside their own (R356). -/
def depotArith : Instr → Option DepotForm
  | .vadd c t _ d a b => depForm c (ityN t) [d, a, b] | .vsub c t _ d a b => depForm c (ityN t) [d, a, b]
  | .vmul c t d a b => depForm c (ityN t) [d, a, b] | .vmulh c t d a b => depForm c (ityN t) [d, a, b]
  | .vmad c t d a b x => depForm c (ityN t) [d, a, b, x]
  | .vmin c t d a b => depForm c (ityN t) [d, a, b] | .vmax c t d a b => depForm c (ityN t) [d, a, b]
  | .vabs c w _ d a => depForm c (widN w) [d, a]
  | .vand c w d a b => depForm c (widN w) [d, a, b] | .vor c w d a b => depForm c (widN w) [d, a, b]
  | .vxor c w d a b => depForm c (widN w) [d, a, b] | .vandn c w d a b => depForm c (widN w) [d, a, b]
  | .vshl c w d a b => depForm c (widN w) [d, a, b] | .vshr c w d a b => depForm c (widN w) [d, a, b]
  | .vsra c w d a b => depForm c (widN w) [d, a, b]
  | .vsel c w _ d a b => depForm c (widN w) [d, a, b]
  | .vcmp c t _ _ a b => depForm c (ityN t) [a, b]
  | .vaddImm c t _ d a _ => depForm c (ityN t) [d, a] | .vsubImm c t _ d a _ => depForm c (ityN t) [d, a]
  | .vmulImm c t d a _ => depForm c (ityN t) [d, a] | .vminImm c t d a _ => depForm c (ityN t) [d, a]
  | .vmaxImm c t d a _ => depForm c (ityN t) [d, a]
  | .vandImm c w d a _ => depForm c (widN w) [d, a] | .vorImm c w d a _ => depForm c (widN w) [d, a]
  | .vxorImm c w d a _ => depForm c (widN w) [d, a] | .vandnImm c w d a _ => depForm c (widN w) [d, a]
  | .vcmpImm c t _ _ a _ => depForm c (ityN t) [a]
  | .vfadd c _ d a b => depForm c 4 [d, a, b] | .vfsub c _ d a b => depForm c 4 [d, a, b]
  | .vfmul c _ d a b => depForm c 4 [d, a, b] | .vfma c _ _ _ d a b x => depForm c 4 [d, a, b, x]
  | .vfmin c _ d a b => depForm c 4 [d, a, b] | .vfmax c _ d a b => depForm c 4 [d, a, b]
  | .vfcmp c _ _ a b => depForm c 4 [a, b]
  | .vfrcp c _ d a => depForm c 4 [d, a] | .vfrsq c _ d a => depForm c 4 [d, a]
  | .vfsqrt c _ d a => depForm c 4 [d, a]
  | .vfaddImm c _ d a _ => depForm c 4 [d, a] | .vfsubImm c _ d a _ => depForm c 4 [d, a]
  | .vfmulImm c _ d a _ => depForm c 4 [d, a] | .vfminImm c _ d a _ => depForm c 4 [d, a]
  | .vfmaxImm c _ d a _ => depForm c 4 [d, a] | .vfcmpImm c _ _ a _ => depForm c 4 [a]
  | .vcvt c sf df _ _ _ d a => some ⟨c.sw, c.hold, [(d, if df.is64 then 8 else 4), (a, if sf.is64 then 8 else 4)]⟩
  | .vpack c _ _ _ _ d a b => depForm c 4 [d, a, b]
  | .vunpk c _ _ d a => some ⟨c.sw, c.hold, [(d, 8), (a, 4)]⟩
  | .vif sw _ _ => some ⟨sw, .none, []⟩ | .velse sw => some ⟨sw, .none, []⟩ | .vendif sw => some ⟨sw, .none, []⟩
  | .vkand c _ _ _ => depForm c 4 [] | .vkor c _ _ _ => depForm c 4 [] | .vkxor c _ _ _ => depForm c 4 []
  | .vknot c _ _ => depForm c 4 [] | .vkmov c _ _ x => depForm c 4 [x]
  | .vmov c w d a => depForm c (widN w) [d, a]
  | .vmovi c ext d _ => depForm c (if ext.val = 0 then 4 else 8) [d]
  | .vnop sw => some ⟨sw, .none, []⟩
  | _ => none

/-- A snapshot operand (R358). -/
def isSnap : Opnd → Bool
  | .snap _ => true
  | _ => false

/-- The address operand of DLDR and DSTR (R357). -/
def depotAddrOk (m : LMem) : Bool :=
  !m.scratch && m.fe == .ignore &&
    (match m.addr with
     | .v r => r.toNat % 2 == 0
     | .snap _ => true
     | .imm i => i == 0
     | _ => false)

/-- Operand b of DWAT and DTOK (R358). -/
def depotCountOk : Opnd → Bool
  | .snap _ => true
  | .imm _ => true
  | _ => false

/-- The form of a word that may stand in depot code (R356 to R358). -/
def depotForm (i : Instr) : Option DepotForm :=
  match i with
  | .dldr c m _ d => if depotAddrOk m && d.isDst then some ⟨c.sw, c.hold, [(d, dataBytes m.width), (m.addr, 8)]⟩ else none
  | .dstr c m _ d => if depotAddrOk m && d.isDst then some ⟨c.sw, c.hold, [(d, dataBytes m.width), (m.addr, 8)]⟩ else none
  | .dwat c a b => if isSnap a && depotCountOk b then some ⟨c.sw, c.hold, []⟩ else none
  | .dtok c a b => if isSnap a && depotCountOk b then some ⟨c.sw, c.hold, []⟩ else none
  | .dred c _ a b => if isSnap a then some ⟨c.sw, c.hold, [(b, 4)]⟩ else none
  | .dend c => some ⟨c.sw, c.hold, []⟩
  | i => depotArith i

/-- A register space of 256 bytes (R355). -/
def rowLanes (lanes : Nat) (seed : W32) : Lanes :=
  { Lanes.empty with
    groups := 2, budget := 256, base := BitVec.ofNat 1024 (2 ^ lanes - 1), e := BitVec.allOnes 1024
    rng := seedOf seed }

/-- No view, latch entry or register beyond the space (R356). -/
def depotOpnd (o : Opnd) (n : Nat) : Bool :=
  match o with
  | .w _ _ => false
  | .latch _ => false
  | .v r => decide (4 * r.toNat + Nat.max n 4 ≤ 256) && r.toNat % (Nat.max n 4 / 4) == 0
  | _ => true

/-- The word is legal in depot code (R356). -/
def depotLegal (i : Instr) : Bool :=
  match depotForm i with
  | some f => !f.sw && f.hold == .none && f.ops.all fun e => depotOpnd e.1 e.2
  | none => false

/-! ## Accesses of a row -/

/-- A page by its partition and first IA byte (R333). -/
def State.pageKey (s : State) (part ia : Nat) : Nat :=
  match s.walk part ia false with
  | .page p => part * 2 ^ 52 + p.iaBase
  | _ => part * 2 ^ 52 + ia / 2 ^ 16 * 2 ^ 16

/-- What an access of a task comes to (R333, R334, R354). -/
inductive DAcc where
  | ok (x : Xlat)
  | status (n : Nat)
  | page (sub va ia : Nat)
  | wait
  deriving DecidableEq, Repr

/-- The pages of an IA range. -/
def State.pageKeys (s : State) (part ia n : Nat) : List Nat := [s.pageKey part ia, s.pageKey part (ia + n - 1)]

/-- An access of a task of a role (R306, R311, R333, R334, R336, R357). -/
def State.depotAcc (s : State) (t : DTask) (va n : Nat) (write : Bool) : DAcc :=
  match s.toIa (s.vfOf t.rk) va n with
  | .ia ia =>
    let part := (s.vf (s.vfOf t.rk)).part
    match s.translateIa part ia n write with
    | .ok x =>
      if x.dual then .page 5 va ia
      else if x.migrating && !(s.pageKeys part ia n).all t.pages.contains then .wait
      else if x.pas.any s.lostPa then .status 7
      else .ok x
    | .page sub a => .page sub va a
    | .mcheck _ => .status 7
    | _ => .status 3
  | _ => .status 3

/-- The task has translated the pages of an access (R333). -/
def State.notePages (s : State) (tk : Nat) (x : Xlat) : State :=
  s.updTask tk fun t => { t with pages := (s.pageKeys x.part x.ia x.pas.length ++ t.pages).dedup }

/-- The PAGE record of a task or row (R339, R353, R354). -/
def State.taskInfo (s : State) (rk sub va ia : Nat) : RecInfo := s.cmdInfo rk 5 sub va ia

/-- A row meets a page fault: only the row stalls (R354). -/
def State.rowPage (s : State) (key sub va ia : Nat) : State :=
  let id := s.nextRec % 2 ^ 32
  let rk := (s.task (s.row key).task).rk
  let s1 := s.addRec (s.vfOf rk) (s.taskInfo rk sub va ia) (some rk)
  s1.setRow key { s1.row key with stall := some id }

/-- The worst outcome of the lanes of a row word, or all of them translated: ADDRESS, MISALIGN, a page fault,
a migration to wait for, MCHECK (R354, R357). -/
def accOutcome (as : List DAcc) (mis : Bool) : DAcc :=
  if as.contains (.status 3) then .status 3
  else if mis then .status 4
  else match as.find? fun a => match a with | .page _ _ _ => true | _ => false with
    | some a => a
    | none =>
      if as.contains .wait then .wait
      else if as.contains (.status 7) then .status 7
      else as.headD (.status 0)

/-- The frame of a depot word: its row, and in a core's lane stream ILLEGAL (R79). A row that waits for an
answer does nothing. -/
def depotOp (s : State) (k : Nat → DTask → LaneCx → Lanes → Res) : Res :=
  match s.cur with
  | .row key =>
    if (s.row key).stall.isSome then .next s
    else k key (s.task (s.row key).task) (s.rowCx key) (s.row key).lanes
  | .lane _ => .next (s.laneFault .illegal)
  | _ => .fault .wrongAgent

/-- The outcome of a row word's accesses: the row ends, stalls or waits, or the word performs. -/
def rowOutcome (s : State) (key : Nat) (o : DAcc) (k : Unit → State) : State :=
  match o with
  | .status 0 => k ()
  | .status n => s.rowEnd key n
  | .page sub va ia => s.rowPage key sub va ia
  | .wait => s
  | .ok _ => k ()

/-! ## The depot instructions -/

/-- Lane accesses of DLDR and DSTR: lane, effective address, access. -/
def State.rowAccs (s : State) (t : DTask) (m : LMem) (c : LaneCtl) (cx : LaneCx) (l : Lanes) (write : Bool) :
    List (Nat × DAcc) :=
  (l.actives c).map fun i => (i, s.depotAcc t (memEa m false cx l i) (mwBytes m.width) write)

/-- A lane's address is not aligned to the width. -/
def rowMis (m : LMem) (c : LaneCtl) (cx : LaneCx) (l : Lanes) : Bool :=
  (l.actives c).any fun i => memEa m false cx l i % mwBytes m.width != 0

/-- The pages of translated accesses join the task's. -/
def State.noteAll (s : State) (tk : Nat) (as : List (Nat × DAcc)) : State :=
  as.foldl (fun t a => match a.2 with | .ok x => t.notePages tk x | _ => t) s

/-- The home value that a lane of DLDR reads (R357). -/
def State.rowRead (s : State) (m : LMem) (sx : Bool) (o : DAcc) : Nat :=
  match o with
  | .ok x => extendLoad sx (mwBytes m.width) (leNat (s.homeX x))
  | _ => 0

/-- The line of a lane's access. -/
def DAcc.line (o : DAcc) : Nat :=
  match o with
  | .ok x => lineKey x.part x.ia
  | _ => 0

/-- DLDR (R357): home values. Its lines are read in the order of the lanes, as many in one step as the pace lets it; the lanes
of one line read as one, since a line is taken whole (R365). -/
def execDldr (c : LaneCtl) (m : LMem) (sx : Bool) (data : Opnd) (s : State) : Res :=
  depotOp s fun key t cx l =>
    let as := s.rowAccs t m c cx l false
    .next (rowOutcome s key (accOutcome (as.map Prod.snd) (rowMis m c cx l)) fun _ =>
      let got := (s.row key).part
      let left := as.filter fun a => !(got.map Prod.fst).contains a.1
      let lines := (left.map fun a => a.2.line).dedup
      let now := left.filter fun a => (lines.take (s.pace.getD lines.length)).contains a.2.line
      let vals := got ++ now.map fun a => (a.1, s.rowRead m sx a.2)
      let s1 := s.noteAll (s.row key).task now
      if vals.length < as.length then s1.setRow key { s1.row key with part := vals }
      else s1.laneDone false (vals.foldl (fun l e => opWrite data cx l e.1 (dataBytes m.width) e.2) l))

/-- The waybill updates of one lane of DSTR with wb, on the depot's die (R137, R345, R357). -/
def State.rowUpdates (s : State) (key : Nat) (t : DTask) (wb : Option (BitVec 3)) (n data : Nat) : State :=
  match wb with
  | none => s
  | some fs =>
    let sl := slotOf ((s.launchOf t.rk).fslot fs.toNat)
    (storedElems (fmtWidth sl.efmt) n data).foldl (fun u e =>
      u.wbUpdate (teamOf t.rk) ((s.row key).depot.getD 0 / 24) (s.vfOf t.rk) sl.wbidx
        (widenBits ((fmtFF sl.efmt).getD .f32) e)) s

/-- Some of the lines that are left, in any order (R323). -/
def pickLines (free : Nat) : Nat → List Nat → List Nat
  | 0, _ => []
  | n + 1, ls =>
    match (ls.find? fun l => Config.freeBit free l).or ls.head? with
    | none => []
    | some l => l :: pickLines free n (ls.erase l)

/-- The lines that a DSTR writes now: all of them, or as many as the pace lets it (R323). -/
def State.linesNow (s : State) (left : List Nat) : List Nat :=
  match s.pace with
  | none => left
  | some n => pickLines s.free n left

/-- The waybill updates of a DSTR, in ascending lane order (R357). -/
def State.rowFeeds (s : State) (key : Nat) (t : DTask) (wb : Option (BitVec 3)) (n : Nat) (vs : List Nat) : State :=
  vs.foldl (fun u v => u.rowUpdates key t wb n v) s

/-- DSTR (R322, R323, R357): depot writes. The bytes of its lanes in one line are written as one; its lines may be
written in any order. -/
def execDstr (c : LaneCtl) (m : LMem) (wb : Option (BitVec 3)) (data : Opnd) (s : State) : Res :=
  depotOp s fun key t cx l =>
    let as := s.rowAccs t m c cx l true
    let n := mwBytes m.width
    let val (i : Nat) := l.bytes cx.free i ((opStart data cx).getD 0) n
    .next (rowOutcome s key (accOutcome (as.map Prod.snd) (rowMis m c cx l)) fun _ =>
      let done := (s.row key).part
      let left := ((as.map fun a => a.2.line).dedup).filter fun k => !(done.map Prod.fst).contains k
      let now := s.linesNow left
      let s1 := as.foldl (fun u a =>
        match a.2 with
        | .ok x => if now.contains a.2.line then u.depotWriteX x (leBytes n (val a.1)) else u
        | _ => u) (s.noteAll (s.row key).task as)
      if now.length < left.length then
        { s1.setRow key { s1.row key with part := done ++ now.map fun k => (k, 0) } with free := s1.free + 1 }
      else (s1.rowFeeds key t wb n (as.map fun a => val a.1)).laneDone false l)

/-- DWAT (R322, R358): with an active lane, the row waits until the token's home value has reached the value. -/
def execDwat (c : LaneCtl) (a b : Opnd) (s : State) : Res :=
  depotOp s fun key t cx l =>
    let va := opVal a cx l .n64 0
    if (l.actives c).isEmpty then .next (s.laneDone false l)
    else
      let o := s.depotAcc t va 8 false
      .next (rowOutcome s key (accOutcome [o] (va % 8 != 0)) fun _ =>
        match o with
        | .ok x =>
          if opVal b cx l .n64 0 ≤ leNat (s.homeX x) then (s.notePages (s.row key).task x).laneDone false l
          else s
        | _ => s)

/-- DTOK (R358): with an active lane, a release that adds to the token at its home. -/
def execDtok (c : LaneCtl) (a b : Opnd) (s : State) : Res :=
  depotOp s fun key t cx l =>
    let va := opVal a cx l .n64 0
    if (l.actives c).isEmpty then .next (s.laneDone false l)
    else
      let o := s.depotAcc t va 8 true
      .next (rowOutcome s key (accOutcome [o] (va % 8 != 0)) fun _ =>
        match o with
        | .ok x => ((s.notePages (s.row key).task x).tokenAdd noCluster x (opVal b cx l .n64 0)).laneDone false l
        | _ => s)

/-- One step of DRED's reductions, in the lanes and in memory (R109, R358). -/
def redStep (op : RedOp) (x y : Nat) : Nat :=
  match op with
  | .add => (x + y) % 2 ^ 32
  | .fadd => (roundTo (xadd false (decodeF .f32 x) (decodeF .f32 y)) .f32 .rne false 0).bits
  | .maxn => Nat.max x y
  | .fmax => fminmax .f32 true x y

/-- The reduction over the active lanes, starting from the first (R358). -/
def redLanes (op : RedOp) : List Nat → Nat
  | [] => 0
  | v :: t => t.foldl (redStep op) v

/-- DRED (R358): one reduction atomic at the home; with no active lane no access. -/
def execDred (c : LaneCtl) (op : RedOp) (a b : Opnd) (s : State) : Res :=
  depotOp s fun key t cx l =>
    let va := opVal a cx l .n64 0
    if (l.actives c).isEmpty then .next (s.laneDone false l)
    else
      let o := s.depotAcc t va 4 true
      .next (rowOutcome s key (accOutcome [o] (va % 4 != 0)) fun _ =>
        match o with
        | .ok x =>
          let v := redLanes op ((l.actives c).map fun i => opVal b cx l .w32 i)
          (((s.notePages (s.row key).task x).homeWriteX x
            (leBytes 4 (redStep op (leNat (s.loadX x)) v))).noteHome noCluster x.part x.ia).laneDone false l
        | _ => s)

/-- The physical lines that an access of a row transfers: a depot reads and writes its banks directly (R322, R367). -/
def DAcc.lines (o : DAcc) : List Nat :=
  match o with
  | .ok x => (x.pas.map fun p => p / 64).dedup
  | _ => []

/-- The transfers that a row's word makes next, the lines of a DLDR or a DSTR that it has done left out (R360, R367). -/
def State.rowTransfers (s : State) (key : Nat) (i : Instr) : List Nat :=
  let w := s.row key
  let t := s.task w.task
  let cx := s.rowCx key
  let l := w.lanes
  let one (a : Opnd) (n : Nat) (c : LaneCtl) (write : Bool) : List Nat :=
    if (l.actives c).isEmpty then [] else (s.depotAcc t (opVal a cx l .n64 0) n write).lines
  match i with
  | .dldr c m _ _ =>
    (((s.rowAccs t m c cx l false).filter fun a => !(w.part.map Prod.fst).contains a.1).flatMap fun a => a.2.lines).dedup
  | .dstr c m _ _ =>
    (((s.rowAccs t m c cx l true).filter fun a => !(w.part.map Prod.fst).contains a.2.line).flatMap fun a => a.2.lines).dedup
  | .dwat c a _ => one a 8 c false
  | .dtok c a _ => one a 8 c true
  | .dred c _ a _ => one a 4 c true
  | _ => []

/-- DEND (R358): the row ends normally. -/
def execDend (_c : LaneCtl) (s : State) : Res := depotOp s fun key _ _ _ => .next (s.rowEnd key 0)

/-! ## Tasks -/

/-- What the check of a task finds (R333, R353). -/
inductive TaskCheck where
  | ok
  | wait
  | status (n : Nat)
  | page (sub va ia : Nat)
  deriving DecidableEq, Repr

/-- The format slot and record of a DSTR with wb (R137, R353). -/
def State.dstrCheck (s : State) (rk : Nat) (i : Instr) : TaskCheck :=
  match i with
  | .dstr _ m (some fs) _ =>
    let sl := slotOf ((s.launchOf rk).fslot fs.toNat)
    if !sl.src || (fmtFF sl.efmt).isNone || decide (8 * mwBytes m.width < fmtWidth sl.efmt) then .status 5
    else match s.wbCheckAll (s.vfOf rk) [sl.wbidx] with
      | .ok => .ok
      | .opformat => .status 5
      | .page sub va ia => .page sub va ia
      | .mcheck _ _ _ => .status 7
  | _ => .ok

/-- The check of one code word (R333, R334, R353, R356): of the home value, which the rows fetch (R322, log 16). -/
def State.codeCheck (s : State) (t : DTask) (va : Nat) : TaskCheck :=
  match s.depotAcc t va 12 false with
  | .status n => .status n
  | .wait => .wait
  | .page sub va ia => .page sub va ia
  | .ok x =>
    match decodeLane (leNat (s.homeX x)) with
    | none => .status 10
    | some i => if depotLegal i && s.featureOk i then s.dstrCheck t.rk i else .status 10

/-- The check of a token's address and page (R333, R334, R353); a lost line is met when the token is read. -/
def State.tokenCheck (s : State) (t : DTask) (write : Bool) : Option (W64 × W64) → TaskCheck
  | none => .ok
  | some (a, _) =>
    match s.depotAcc t a.toNat 8 write with
    | .ok _ => .ok
    | .wait => .wait
    | .page sub va ia => .page sub va ia
    | .status n => if n = 7 then .ok else .status n

/-- The address of code word `n` of a task (R351). -/
def codeAt (x : TaskCmd) (n : Nat) : Nat := (x.code + BitVec.ofNat 64 (12 * n)).toNat

/-- The first of some checks that fails. -/
def firstCheck : List TaskCheck → TaskCheck
  | [] => .ok
  | .ok :: t => firstCheck t
  | c :: _ => c

/-- A task that has started no row. -/
def DTask.fresh (rk : Nat) (x : TaskCmd) : DTask := ⟨rk, x, 0, [], 0, 0, []⟩

/-- The check of a task before any row starts: its code words in order, then its tokens (R353). -/
def State.taskCheck (s : State) (rk : Nat) (x : TaskCmd) : TaskCheck :=
  let t := DTask.fresh rk x
  firstCheck ((List.range x.ilen).map (fun n => s.codeCheck t (codeAt x n))
    ++ [s.tokenCheck t false x.wt, s.tokenCheck t true x.ct])

/-- The pages that the check of a task has translated: of its code and its tokens (R333). -/
def State.taskPages (s : State) (rk : Nat) (x : TaskCmd) : List Nat :=
  let part := (s.vf (s.vfOf rk)).part
  let at_ (a n : Nat) : List Nat := match s.toIa (s.vfOf rk) a n with | .ia ia => s.pageKeys part ia n | _ => []
  (((List.range x.ilen).flatMap fun n => at_ (codeAt x n) 12)
    ++ (x.wt.toList ++ x.ct.toList).flatMap fun w => at_ w.1.toNat 8).dedup

/-- TASK (R351, R353): the checks; then the task may start rows, once its token has reached the value. -/
def execTask (x : TaskCmd) (s : State) : Res :=
  engineOp s fun rk q _ =>
    if s.tasks.has rk then .next s
    else match s.taskCheck rk x with
      | .status n => .next (s.cmdEnd rk q n 0)
      | .page sub va ia => .next (s.cmdPage rk q sub va ia)
      | .wait => .next s
      | .ok => .next { s with tasks := s.tasks.put rk { DTask.fresh rk x with pages := s.taskPages rk x } }

/-- The task of a role ends before its rows do. -/
def State.taskDrop (s : State) (rk status : Nat) : State :=
  { s.cmdEnd rk 5 status 0 with tasks := s.tasks.erase rk }

/-- The wait of a task for its input token (R333, R334, R336, R352, R353). -/
def State.taskWait (s : State) (rk : Nat) (a v : W64) : State :=
  match s.depotAcc (s.task rk) a.toNat 8 false with
  | .ok x => if v.toNat ≤ leNat (s.loadX x) then s.updCmd rk 5 fun c => { c with waiting := false } else s
  | .wait => s
  | .page sub va ia => s.cmdPage rk 5 sub va ia
  | .status n => s.taskDrop rk n

/-- TASK_WT_RELEASE (R352): the input token has reached the awaited value. -/
def execTaskWtRelease (rk : Nat) (s : State) : Res :=
  match (s.engQ rk 5).run, (s.task rk).cmd.wt with
  | some c, some (a, v) =>
    if s.tasks.has rk && c.waiting && c.stall.isNone && c.result.isNone then .next (s.taskWait rk a v) else .next s
  | _, _ => .next s

/-! ## Rows -/

/-- The task of a role may start rows: it is checked, its token is reached, and no row has failed. -/
def State.taskRuns (s : State) (rk : Nat) : Bool :=
  match (s.engQ rk 5).run with
  | some c => s.tasks.has rk && !c.waiting && c.stall.isNone && c.result.isNone && (s.task rk).status == 0
  | none => false

/-- The depot unit that serves a physical byte: the unit of its pseudo-channel, or the next present one of
the stack (R350, R359). -/
def State.depotOf (s : State) (pa : Nat) : Option Nat :=
  let k := 3 * fieldOf pa 38 2 + fieldOf pa 36 2
  let u := fieldOf pa 30 6 / 8
  ((List.range 8).find? fun j => bitOf (s.stk k).depCap ((u + j) % 8)).map fun j => 8 * k + (u + j) % 8

/-- A depot has room for another row (R352). -/
def State.depotRoom (s : State) (depot : Nat) : Bool :=
  decide ((s.rows.filter fun e => e.2.depot == some depot).length < 8)

/-- Where row `r` of a task runs (R352). -/
inductive Place where
  | depot (u : Nat) (x : Xlat)
  | status (n : Nat)
  | page (sub va ia : Nat)
  | wait
  deriving DecidableEq, Repr

/-- Find the depot of a row by its anchor (R306, R311, R350, R352). The anchor's byte is not read. -/
def State.placeOf (s : State) (t : DTask) (r : Nat) : Place :=
  let va := (t.anchor r).toNat
  match s.toIa (s.vfOf t.rk) va 1 with
  | .ia ia =>
    let part := (s.vf (s.vfOf t.rk)).part
    match s.translateIa part ia 1 false with
    | .ok x =>
      if x.dual then .page 5 va ia
      else if x.migrating && !(s.pageKeys part ia 1).all t.pages.contains then .wait
      else match s.depotOf (x.pas.headD 0) with
        | some u => .depot u x
        | none => .status 11
    | .page sub a => .page sub va a
    | .mcheck _ => .status 7
    | _ => .status 3
  | _ => .status 3

/-- The key of a row. -/
def rowKey (rk r : Nat) : Nat := rk * 2 ^ 32 + r

/-- The row record at its start (R355). -/
def newRow (t : DTask) (r : Nat) (depot stall : Option Nat) : DRow :=
  { task := t.rk, r := r, depot := depot, pc := 0, stall := stall, part := []
    lanes := rowLanes t.cmd.lanes (t.cmd.seed ^^^ BitVec.ofNat 32 r) }

/-- Start row `r`, taken off the rows that wait: it fails, stalls, starts, or is passed over because its depot
is full (R352, R354, R355). -/
def State.startRow (s : State) (rk r : Nat) (t : DTask) : State :=
  match s.placeOf t r with
  | .wait => s
  | .status n => s.updTask rk fun _ => { t with status := n }
  | .page sub va ia =>
    let id := s.nextRec % 2 ^ 32
    let s1 := s.addRec (s.vfOf rk) (s.taskInfo rk sub va ia) (some rk)
    (s1.updTask rk fun _ => t).setRow (rowKey rk r) (newRow t r none (some id))
  | .depot u x =>
    if s.depotRoom u then
      ((s.updTask rk fun _ => t).notePages rk x).setRow (rowKey rk r) (newRow t r (some u) none)
    else s.updTask rk fun _ => { t with skipped := t.skipped ++ [r] }

/-- The depot of a passed-over row has room now, or the row no longer needs it. -/
def State.canStart (s : State) (t : DTask) (r : Nat) : Bool :=
  match s.placeOf t r with
  | .depot u _ => s.depotRoom u
  | .wait => false
  | _ => true

/-- DEPOT_ROW_START (R352): the lowest row whose depot has room; rows start in ascending order on each
depot. -/
def execDepotRowStart (rk : Nat) (s : State) : Res :=
  let t := s.task rk
  if !s.taskRuns rk then .next s
  else match t.skipped.find? (s.canStart t) with
    | some r => .next (s.startRow rk r { t with skipped := t.skipped.filter fun k => k != r })
    | none =>
      if t.next < t.cmd.nrows then
        (if s.placeOf t t.next = .wait then .next s
         else .next (s.startRow rk t.next { t with next := t.next + 1 }))
      else .next s

/-- Every row of the task has ended, or no further row starts (R353, R354). -/
def State.taskOver (s : State) (rk : Nat) : Bool :=
  let t := s.task rk
  s.tasks.has rk && (s.rows.all fun e => e.2.task != rk)
    && (t.status != 0 || (t.next == t.cmd.nrows && t.skipped.isEmpty))

/-- The task has its result, and its record goes. -/
def State.taskResult (s : State) (rk status : Nat) : State :=
  { s.cmdEnd rk 5 status (s.task rk).ended with tasks := s.tasks.erase rk }

/-- The CT add of a task whose rows have all ended, and its result (R320, R353, R354). -/
def State.taskFinish (s : State) (rk : Nat) : State :=
  let t := s.task rk
  if t.status ≠ 0 then s.taskResult rk t.status
  else match t.cmd.ct with
    | none => s.taskResult rk 0
    | some (a, v) =>
      match s.depotAcc t a.toNat 8 true with
      | .ok x => (s.tokenAdd noCluster x v.toNat).taskResult rk 0
      | .page sub va ia => s.cmdPage rk 5 sub va ia
      | .wait => s
      | .status n => s.taskResult rk n

/-- TASK_COMPLETE (R353, R354): the CT add, then the completion word and its copy to `q14`. A task whose
checks failed completes at once. -/
def execTaskComplete (rk : Nat) (s : State) : Res :=
  match (s.engQ rk 5).run with
  | none => .next s
  | some c =>
    if c.result.isSome then .next (s.completeCmd rk 5)
    else if c.stall.isNone && s.taskOver rk then .next ((s.taskFinish rk).completeCmd rk 5)
    else .next s

end Sys2Proof.Machine
end

