-- ==== Sys2Proof/Machine/Frames.lean ====
section
/-! DEFINITION. The pager's table entries and frames, the write set's pages, and pushing a page out (R201 to R204,
R208, R215, R251, R329). The bytes of a page are the team's scratch bytes, or the entries of its write log, wherever
the page lies (R209). -/

namespace Sys2Proof.Machine
open Sys2Proof

/-! ## Entries and frames -/

/-- An entry of a scratch translation table (R203, R204): team, page, record. -/
abbrev Entry : Type := Nat × Nat × SPage

/-- An entry takes its place in a table (log 66). -/
def entryInsert (e : Entry) : List Entry → List Entry
  | [] => [e]
  | a :: t => if e.2.2.idx < a.2.2.idx then e :: a :: t else a :: entryInsert e t

/-- The entries of a core's scratch translation table in the order of their places (R203, R204, log 66). -/
def State.entriesOn (s : State) (core : Nat) : List Entry :=
  ((s.teams.filter fun e => e.2.core == core).flatMap fun e =>
    (e.2.pages.filter fun p => p.2.present).map fun p => (e.1, p.1, p.2)).foldr entryInsert []

/-- The lowest free place of a core's table (log 66). -/
def State.freeIdx (s : State) (core : Nat) : Nat :=
  let used := (s.entriesOn core).map fun e => e.2.2.idx
  ((List.range (used.length + 1)).find? fun n => !used.contains n).getD 0

/-- The page lies in a vault frame (R204). -/
def SPage.inVault (p : SPage) : Bool := p.present && decide (p.kind ≤ 1)

/-- A page is held under PIN: by the matrix engine (R204, R231), by a copy or scale-out engine that is transferring to or from
it (R204), or a page of the write set while the team's commit drains it (R215, R258). -/
def State.pinned (s : State) (core tk vpn : Nat) : Bool :=
  let c := s.core core
  (decide (wsFirst ≤ vpn) && (s.team tk).phase == .pinned) || s.enginePins tk vpn || (c.engQ ++ c.lxDone).any fun j => j.lxs.any fun w =>
    teamOf w.rk == tk && (s.lxRanges w).any fun r => (pagesOf r.1 r.2).contains vpn

/-- Change a team's page record. -/
def State.setPage (s : State) (tk vpn : Nat) (p : SPage) : State :=
  s.updTeam tk fun t => { t with pages := t.pages.put vpn p }

/-! ## The backing area -/

/-- The full/empty map of a page (R202). -/
def Team.feMap (t : Team) (vpn : Nat) : List Byte :=
  (List.range 32).map fun b =>
    BitVec.ofNat 8 ((List.range 8).foldl (fun n g => n + b2n (t.full.get false (256 * vpn + 8 * b + g)) * 2 ^ g) 0)

/-- A page's metadata (R202). -/
def Team.pageMeta (t : Team) (vpn : Nat) : List Byte :=
  t.feMap vpn ++ [BitVec.ofNat 8 (b2n (t.page vpn).touched + 2 * ((t.page vpn).ver % 16))] ++ List.replicate 31 0

/-- GRAIN of a pager's write, in the context of the team whose core held the lines (R329, R340). -/
def grainInfo (va ia : Nat) : RecInfo :=
  { code := .grain, sub := 0, flags := 2, team := .open_, role := 0xFF, queue := 0xFF, pc := 0, va := va,
    pa := ia, lanes := 0 }

/-- One write of the pager into the backing area: dirty lines of a grain that it covers in part are discarded
and GRAIN is reported (R329). -/
def State.backWrite (s : State) (x : Xlat) (va : Nat) (bs : List Byte) : State :=
  let g := grainKey (lineKey x.part x.ia)
  let whole := x.pas.length % 512 == 0 && x.ia % 512 == 0
  let s1 := if whole then s else (s.dirtyOf g).foldl State.dropDirty s
  let s2 := s1.homeWriteX x bs
  match s.grainHolder g with
  | some h => if whole then s2 else s2.addRec h.vf (grainInfo va x.ia) none
  | none => s2

/-- KIND, SUB and the upper eight bytes of DATA of a write-log entry (R251). -/
def WEntry.codes (e : WEntry) : Nat × Nat × Nat :=
  match e.kind with
  | .store => (0, 0, e.data / 2 ^ 64)
  | .atomic op => (1, op, e.data / 2 ^ 64)
  | .command _ seed => (2, 0, seed.toNat)
  | .waybill f => (3, f, e.data / 2 ^ 64)

/-- The 32 bytes of a write-log entry (R251). -/
def WEntry.bytes (e : WEntry) : List Byte :=
  let k := e.codes
  leBytes 8 e.addr ++ [BitVec.ofNat 8 k.1, BitVec.ofNat 8 e.size, BitVec.ofNat 8 k.2.1, BitVec.ofNat 8 e.role]
    ++ leBytes 4 e.wbidx ++ leBytes 8 e.data ++ leBytes 8 k.2.2

/-- The entries of the write log in a page of the write set; the rest of the page is zero (R207, R251). -/
def Team.wsBytes (t : Team) (vpn : Nat) : List Byte :=
  let bs := ((t.log.drop (128 * (vpn - wsFirst))).take 128).flatMap WEntry.bytes
  bs ++ List.replicate (4096 - bs.length) 0

/-- Write a page and its metadata to its backing (R208, R215); what the access meets otherwise. -/
def State.writeBacking (s : State) (tk vpn : Nat) : BackRes × State :=
  match s.backOf tk vpn true with
  | .ok [d, m] =>
    let t := s.team tk
    let l := s.launch (lidOf tk)
    let va := l.backAt t.t + 4096 * l.scrPages + 64 * vpn
    (.ok [], (s.backWrite d (l.backAt t.t + 4096 * vpn) (s.scratchLoad tk (4096 * vpn) 4096)).backWrite m va (t.pageMeta vpn))
  | .ok [d] =>
    let t := s.team tk
    (.ok [], s.backWrite d ((s.launch (lidOf tk)).wsAt t.t + 4096 * (vpn - wsFirst)) (t.wsBytes vpn))
  | r => (r, s)

/-- The bytes of a page and its metadata that the pager moves (R202, R215). -/
def moveBytes (vpn : Nat) : Nat := if wsFirst ≤ vpn then 4096 else 4160

/-- The cost in 1/16 pJ of a byte in a frame (R382): in the local vault, or over the lateral network. -/
def frameRate (kind : Nat) : Nat := if kind = 1 then 48 else 16

/-- The cost of the pager's accesses to a page's backing, in the L2 or in HBM, whichever holds the lines (R209, R382). -/
def State.backCost (s : State) (tk vpn : Nat) : Nat :=
  let l := s.launch (lidOf tk)
  ((l.backing (s.team tk).t vpn).map fun p =>
    match s.toIa l.vf p.1 p.2 with
    | .ia ia => s.globCost (s.team tk).core false false (s.vf l.vf).part ia p.2 []
    | _ => 0).sum

/-- Push a page out: data and metadata go to its backing, and its entry becomes KIND 2 (R208). The bytes moved are charged to
the team that owns it (R209). -/
def State.pushOut (s : State) (tk vpn : Nat) : BackRes × State :=
  match s.writeBacking tk vpn with
  | (.ok _, s1) =>
    let p := (s1.team tk).page vpn
    (.ok [], (s1.setPage tk vpn { p with kind := 2, dirty := false, frame := 0, frameCore := 0 }).chargeTeam tk
      (moveBytes vpn * frameRate p.kind + s.backCost tk vpn))
  | r => r

/-- An entry is dropped: its page is absent. A page in a frame goes to its backing first; the bytes of a KIND 2 page are there
(R204, R205, R208). -/
def State.dropPage (s : State) (tk vpn : Nat) : BackRes × State :=
  let absent (t : State) : State := t.setPage tk vpn { (t.team tk).page vpn with present := false, busy := false, orph := false }
  if ((s.team tk).page vpn).inVault then
    match s.pushOut tk vpn with
    | (.ok _, s1) => (.ok [], absent s1)
    | (r, _) => (r, absent s)
  else (.ok [], absent s)

/-- The bytes and the full/empty map of a page (R202, R207). -/
def Team.fillPage (t : Team) (vpn : Nat) (bs fe : List Byte) : Team :=
  { t with
    scratch := (bs.zipIdx).foldl (fun m e => m.set 0 (4096 * vpn + e.2) e.1) t.scratch
    full := (List.range 256).foldl (fun m g => m.set false (256 * vpn + g) (bitOf (fe.getD (g / 8) 0).toNat (g % 8))) t.full }

/-- A page that the pager has had before comes from its backing, data and metadata; its frame holds zeros with every granule
empty where the flag TOUCHED there is clear (R202, R207). The page gets what its backing holds: R202 leaves what it receives
unspecified once software has touched the backing area of a team (DESIGN CHOICE, log 76). -/
def State.fromBacking (s : State) (tk vpn : Nat) : State :=
  if wsFirst ≤ vpn then s
  else match s.backOf tk vpn false with
    | .ok [d, m] =>
      let md := s.loadX m
      s.updTeam tk fun t =>
        if bitOf (md.getD 32 0).toNat 0 then t.fillPage vpn (s.loadX d) md else t.fillPage vpn (List.replicate 4096 0) []
    | _ => s

end Sys2Proof.Machine
end

