-- ==== Sys2Proof/Machine/Preempt.lean ====
section
/-! DEFINITION. Pre-emption (R165, R166, R216, R253), the death of a team (R254, R256, R341), and the
requests of system software (R381). -/

namespace Sys2Proof.Machine
open Sys2Proof

/-! ## Leaving the core -/

/-- The lowest swap identifier that a core does not use (R216). -/
def Core.freeSwid (c : Core) : Nat :=
  ((List.range (c.swids.length + 1)).find? fun n => !c.swids.contains n).getD 0

/-- The team that holds a swap identifier on a core. -/
def State.swidTeam (s : State) (core id : Nat) : Option Nat :=
  (s.teams.find? fun e => e.2.core == core && e.2.swid == some id).map Prod.fst

/-- Set ORPH in each of a team's entries, or clear it (R216). -/
def Team.setOrph (t : Team) (v : Bool) : Team :=
  { t with pages := t.pages.map fun e => (e.1, { e.2 with orph := e.2.present && v }) }

/-- With every identifier in use, the entries of the team swapped out earliest are pushed out and dropped, and its
identifier is free (R216). Its pages fault in from their backing. -/
def State.reuseSwid (s : State) (core : Nat) : State :=
  match (s.core core).swids with
  | id :: t =>
    if (id :: t).length < 32768 then s
    else
      let s1 := s.updCore core fun c => { c with swids := t }
      match s1.swidTeam core id with
      | none => s1
      | some tk =>
        (((s1.team tk).pages.filter fun e => e.2.orph).foldl (fun u e => (u.dropPage tk e.1).2) s1).updTeam tk fun m =>
          { m with swid := none }
  | [] => s

/-- A team's entries are marked with a new swap identifier (R216). -/
def State.giveSwid (s : State) (tk : Nat) : State :=
  let core := (s.team tk).core
  let s1 := s.reuseSwid core
  let id := (s1.core core).freeSwid
  (s1.updCore core fun c => { c with swids := c.swids ++ [id] }).updTeam tk fun t => { t.setOrph true with swid := some id }

/-- A team's swap identifier on its core is free again (R216, R218). -/
def State.dropSwid (s : State) (tk : Nat) : State :=
  match (s.team tk).swid with
  | none => s
  | some id =>
    (s.updCore (s.team tk).core fun c => { c with swids := c.swids.filter fun n => n != id }).updTeam tk fun t =>
      { t with swid := none }

/-- A role at its boundaries: its words in flight have performed as far as they can, and what is left of them is in the
operand log; its outstanding results have returned; a word in the hold counts as not issued (R165). -/
def State.atBoundary (s : State) (rk : Nat) : State :=
  let s1 := { ({ s with pace := none }).kick rk with pace := s.pace }
  (s1.unhold rk).updRole rk fun r =>
    { r with lanes := r.lanes.deliverAll, flight := r.flight.map fun e => { e with logged := true } }

/-- The device writes a team's save area (R167, R372, log 13). -/
def State.saveTeam (s : State) (tk : Nat) : State :=
  let l := s.launch (lidOf tk)
  s.scribble l.vf (l.ctxAt (s.team tk).t) l.saveSize

/-- The role waits on a record: a stream, a word in flight, or one of its commands (R341, R416). -/
def Role.awaits (r : Role) (id : Nat) : Bool :=
  r.stopped == some id || r.spark == .page (some id) || r.lpark == .page (some id)
    || (r.flight.any fun e => e.recid == some id) || r.engs.any fun e => e.2.run.any fun c => c.stall == some id

/-- A team waits for the answer to a record: a role of it does, the team as a whole, its commit probe, the pager's service of
one of its pages, a row of its depot tasks, or a waybill merge of it (R341, R416). -/
def State.awaits (s : State) (tk : Nat) (r : FaultRec) : Bool :=
  let t := s.team tk
  let id := r.recid
  !r.answered && r.team == some tk &&
    ((s.roles.any fun e => teamOf e.1 == tk && e.2.awaits id) || t.halted == some id || t.phase == .probeFault id
      || (t.service.any fun e => e.2.wait == some id)
      || (s.rows.any fun e => teamOf (s.task e.2.task).rk == tk && e.2.stall == some id)
      || s.dies.any fun e => e.2.held.any fun h => h.1 == id)

/-- A swapped-out team's faults have all been served (R167, R341). -/
def State.served (s : State) (tk : Nat) : Bool :=
  (s.team tk).service.isEmpty && (s.vf (s.launch (lidOf tk)).vf).recs.all fun r => !s.awaits tk r

/-- A swapped-out team whose faults have been served re-enters the distributor, and takes its age (R341). -/
def State.reenter (s : State) (tk : Nat) : State :=
  let t := s.team tk
  if t.phase = .swappedOut && t.entered.isNone && s.served tk then
    { s.updTeam tk (fun t => { t with entered := some s.nextAge }) with nextAge := s.nextAge + 1 }
  else s

/-- The team leaves its core with its state kept (R165 to R167, R299, R383). -/
def State.suspendTeam (s : State) (tk : Nat) (ph : TeamPhase) : State :=
  let t := s.team tk
  let s1 := ((s.rolesOf tk).foldl State.atBoundary s).giveSwid tk
  let s2 := s1.updTeam tk fun t => { t with phase := ph, suspend := none, grace := none, entered := none }
  let s3 := (s2.saveTeam tk).updCore t.core fun c => { c with slots := c.slots.keep fun _ k => k != tk }
  (({ s3 with free := s3.free + 1 }.postMeter t.core (s.launch (lidOf tk)).vf).adopt (clusterOf t.core)).reenter tk

/-- The first word in flight of a role is not in the operand log and does not wait on full/empty bits: part of it has been
performed, or it waits for a refresh or for a command's hold (R165, R328, R336, R360). -/
def State.laneBusy (s : State) (rk : Nat) : Bool :=
  match (s.role rk).flight with
  | [] => false
  | e :: _ =>
    e.recid.isNone &&
      match memWord e.word with
      | none => false
      | some w => e.begun || s.delays (.lane rk) || s.anyHeld (s.headTransfers rk w e) || e.todo.head?.any (s.laneHeld rk w)

/-- A role's streams can come to their boundaries (R165): the results of its accepted LX words have returned, its scalar
instruction has not been performed in part, and its words in flight go to the operand log. -/
def State.roleQuiet (s : State) (rk : Nat) : Bool :=
  (s.role rk).lxOut == 0 && (s.role rk).part.isEmpty && !s.laneBusy rk

/-- Every role of the team is quiet (R165). -/
def State.lxQuiet (s : State) (tk : Nat) : Bool := (s.rolesOf tk).all s.roleQuiet

/-- A requested pre-emption takes place once the roles' outstanding results have returned (R165). -/
def State.settleTeam (s : State) (tk : Nat) : State :=
  match (s.team tk).suspend with
  | some ph => if (s.team tk).resident && s.lxQuiet tk then s.suspendTeam tk ph else s
  | none => s

/-- Every requested pre-emption that can take place does. -/
def State.settle (s : State) : State := s.teams.keys.foldl State.settleTeam s

/-! ## The end of a team -/

/-- What is left of a team that is discarded. -/
def Team.discarded (t : Team) : Team :=
  { t with phase := .killed, scratch := [], full := [], pages := [], chans := [], log := [], reserved := 0,
           txOpen := false, grace := none, lease := none, service := [], halted := none, suspend := none,
           swid := none, vbad := [], logBad := [], pins := [], doomed := false }

/-- A team is discarded and is not re-queued (R254, R256, R299, R341). The fares of an open transaction count
as replay fares. Behind its commit point the rest of the commit completes first (R258). -/
def State.killTeam (s0 : State) (tk : Nat) : State :=
  let t := s0.team tk
  if t.phase = .pinned then s0.updTeam tk fun t => { t with doomed := true } else
  let s := s0.settleCmds tk
  let vf := (s.launch (lidOf tk)).vf
  let s1 := ((s.evictTeam tk).dropSwid tk).updTeam tk Team.discarded
  let s2 := if t.txOpen then
      s1.updCore t.core fun c => { c with meterRep := c.meterRep.put vf (c.meterRep.get 0 vf + (s.team tk).fare) }
    else s1
  let s3 := s2.updLaunch (lidOf tk) fun l =>
    { l with killed := l.killed + 1, requeue := l.requeue.filter fun n => n != t.t }
  (s3.postMeter t.core vf).adopt (clusterOf t.core)

/-- A team that can still be killed. -/
def Team.live (t : Team) : Bool :=
  match t.phase with
  | .retired => false
  | .killed => false
  | _ => true

/-- The teams of a VF that satisfy a test. -/
def State.vfTeams (s : State) (vf : Nat) (p : Team → Bool) : List Nat :=
  (s.teams.filter fun e => (s.launch (lidOf e.1)).vf == vf && p e.2).map Prod.fst

/-- The launch still has teams to run. -/
def Launch.open_ (l : Launch) : Bool :=
  match l.phase with
  | .complete => false
  | .failed => false
  | .merged => false
  | _ => true

/-- Every team that was never dispatched is killed. -/
def Launch.dropUndispatched (l : Launch) : Launch :=
  { l with
    killed := l.killed + l.undispatched, next := l.ownTeams
    share := l.share.map fun g => { g with sent := l.takenTeams } }

/-- Every team of a VF's launches that was never dispatched is killed. -/
def State.killUndispatched (s : State) (vf : Nat) : State :=
  { s with launches := s.launches.map fun e =>
      if e.2.vf = vf && e.2.open_ then
        (e.1, e.2.dropUndispatched)
      else e }

/-! ## Requests -/

/-- PREEMPT 1 (R165, R253, R381): GRACE mode, and nothing of the VF is dispatched. -/
def execPreemptGrace (vf : Nat) (s : State) : Res :=
  .next ((s.updVf vf fun v => { v with withheld := true }).requestVf vf 5).settle

/-- PREEMPT 2 (R381): the VF's teams may be dispatched again. -/
def execPreemptResume (vf : Nat) (s : State) : Res :=
  .next (s.updVf vf fun v => { v with withheld := false })

/-- PREEMPT 3 (R381): every team of the VF is killed. -/
def execPreemptKillAll (vf : Nat) (s : State) : Res :=
  .next (((s.vfTeams vf Team.live).foldl State.killTeam s).killUndispatched vf)

/-- PREEMPT 4 (R253, R381): open transactions are aborted at once; other teams are pre-empted as in GRACE
mode. -/
def execPreemptAbort (vf : Nat) (s : State) : Res :=
  let s1 := s.updVf vf fun v => { v with withheld := true }
  let s2 := (s1.vfTeams vf Team.abortable).foldl (fun t k => t.abortTeam k 5) s1
  .next (s2.requestVf vf 5).settle

/-- GRACE_EXPIRE (R253): the window of a request has ended before the team reached its commit point. -/
def execGraceExpire (tk : Nat) (s : State) : Res :=
  let t := s.team tk
  match t.grace with
  | some g => if g.left = 0 && t.abortable then .next (s.abortTeam tk g.cause) else .next s
  | none => .next s

end Sys2Proof.Machine
end

