-- ==== Sys2Proof/Machine/Wake.lean ====
section
/-! DEFINITION. The events that end parks and return results: STREAM_WAKE (R156, R159), ROLE_FINISH (R169),
CLASS_L_RESULT_RETURN (R96, R157), YIELD_EXPIRE (R191), WAITA_TIMEOUT (R190). -/

namespace Sys2Proof.Machine
open Sys2Proof

/-- A role that may act: dispatched on a core, not stopped by a fault, nor its team (R340, R251). -/
def State.awake (s : State) (rk : Nat) : Bool :=
  let t := s.team (teamOf rk)
  s.hasRole rk && t.resident && t.halted.isNone && (s.role rk).stopped.isNone

/-- The wake condition of a parked scalar stream (R159). Streams parked on a fault, an EXIT, a TXCOMMIT or a
RELAY that has arrived are released by other events. Those that wait for program order or for a fence try again. -/
def State.scalarWakes (s : State) (rk : Nat) : Bool :=
  let r := s.role rk
  match r.spark with
  | .popQ q => !(s.queueOf rk q).isEmpty || s.popBlock rk q != .wait
  | .pushQ q => s.pushBlock rk q != .full
  | .barwt ea =>
    (match r.arrival ea with
     | some p => s.vaultBad (teamOf rk) ea 8 false || barPhase (leNat (s.scratchLoad (teamOf rk) ea 8)) != p
     | none => true)
  | .waita => (match r.waita with | some w => w.reason.isSome | none => true)
  | .vrunFull => decide (r.entries < 8)
  | .drain => r.drained
  | .relay => !r.relayed && r.drained
  | .lxHold => r.lxOut == 0
  | .order => true
  | .wbsync => true
  | .fence => true
  | _ => false

/-- A role with a stream that is ready takes its island out of near-threshold mode (R302). -/
def State.leaveIfReady (s : State) (rk : Nat) : State :=
  let r := s.role rk
  if s.awake rk && ((r.spark == .none && !r.finished) || (r.lpark == .none && !r.blocks.isEmpty)) then s.leaveNear rk else s

/-- Wake the scalar stream when its condition holds. -/
def State.wakeScalar (s : State) (rk : Nat) : State :=
  if s.scalarWakes rk then (s.updRole rk fun r => { r with spark := .none }).leaveNear rk else s

/-- The wake condition of a parked lane stream (R156, R159, R220). -/
def State.laneWakes (s : State) (rk : Nat) : Bool :=
  let r := s.role rk
  match r.lpark with
  | .marker => !r.outstanding
  | .results => !r.outstanding
  | .oplog => !s.logFull rk
  | .order => true
  | .pushQ q => s.pushBlock rk q != .full
  | _ => false

/-- Words in flight perform as far as they can; then the lane stream wakes when its condition holds: a marker is
passed (R156). -/
def State.wakeLane (s : State) (rk : Nat) : State :=
  let s1 := s.kick rk
  if s1.awake rk && s1.laneWakes rk then
    (s1.updRole rk fun r =>
      if r.lpark = .marker then { r.atMarker s1.free with lpark := .none } else { r with lpark := .none }).leaveNear rk
  else s1

/-- STREAM_WAKE (R159): the wake condition of a parked stream is met. -/
def execStreamWake (rk : Nat) (lane : Bool) (s : State) : Res :=
  if s.awake rk then .next (if lane then s.wakeLane rk else s.wakeScalar rk) else .next s

/-- ROLE_FINISH (R169): the drain of an EXIT is complete. -/
def execRoleFinish (rk : Nat) (s : State) : Res :=
  let r := s.role rk
  if s.awake rk && r.spark == .exit && r.drained && !r.finished then
    .next (s.updRole rk fun r => { r with finished := true })
  else .next s

/-- One outstanding result returns (R96, R157). -/
def Lanes.deliverAt (l : Lanes) (i : Nat) : Lanes :=
  match l.pend[i]? with
  | some p => if p.ready then { l with pend := l.pend.eraseIdx i }.deliver p else l
  | none => l

/-- CLASS_L_RESULT_RETURN (R96, R155, R157): a result that is ready is written. -/
def execClassLResultReturn (rk : Nat) (idx : Nat) (s : State) : Res :=
  if s.hasRole rk then
    .next (s.updRole rk fun r => { r with lanes := r.lanes.deliverAt idx })
  else .next s

/-- YIELD_EXPIRE (R191): the 16 issue boundaries have passed. -/
def execYieldExpire (rk : Nat) (s : State) : Res :=
  .next (s.updRole rk fun r =>
    { r with yieldS := if r.yieldS = 1 then 0 else r.yieldS, yieldL := if r.yieldL = 1 then 0 else r.yieldL })

/-- The timeout of a wait has passed (R190). -/
def Waita.expire (w : Waita) : Waita := if w.left = some 0 then { w with expired := true } else w

/-- WAITA_TIMEOUT (R190): the timeout of the wait has passed. -/
def execWaitaTimeout (rk : Nat) (s : State) : Res :=
  .next (s.updRole rk fun r => r.onWaits Waita.expire)

end Sys2Proof.Machine
end

