-- ==== Sys2Proof/Machine/Pager.lean ====
section
/-! DEFINITION. The scratch pager: taking frames and services (R206 to R210, R215 to R217), swap-out
(R167). -/

namespace Sys2Proof.Machine
open Sys2Proof

/-! ## Frames -/

/-- A frame for a page: KIND, core and number. -/
structure Frame where
  kind : Nat
  core : Nat
  num : Nat
  deriving DecidableEq, Repr

/-- What a search for a frame comes to. -/
inductive FrameRes where
  | frame (f : Frame) (s : State)
  | fault (b : BackRes)
  | wait
  deriving DecidableEq, Repr

/-- A free frame of another vault of the cluster (R208). -/
def State.lateralFrame (s : State) (core : Nat) : Option Frame :=
  let base := clusterOf core * 15
  ((rangeFrom base 15).filterMap fun c =>
    if c != core && bitOf (s.cluster (clusterOf core)).capCore (c - base) then
      (s.freeFrame c).map fun f => ⟨1, c, f⟩
    else none).head?

/-- Entries that the sweep may take: neither pinned nor busy (R208). -/
def State.sweepable (s : State) (core : Nat) (e : Entry) : Bool := !e.2.2.busy && !s.pinned core e.1 e.2.1

/-- Clear ACC of entries that the sweep passes (R208). -/
def State.clearAcc (s : State) (es : List Entry) : State :=
  es.foldl (fun t e => t.setPage e.1 e.2.1 { (t.team e.1).page e.2.1 with acc := false }) s

/-- The clock sweep (R208) over entries in order, those passed so far beside them: it skips those that may not move,
clears ACC of those that have it set, and takes the first with ACC clear that serves. -/
def sweepGo (may serves : Entry → Bool) : List Entry → List Entry → Option Entry × List Entry
  | [], p => (none, p)
  | e :: t, p =>
    if !may e then sweepGo may serves t p
    else if e.2.2.acc && !p.contains e then sweepGo may serves t (e :: p)
    else if serves e then (some e, p)
    else sweepGo may serves t p

/-- The sweep over a core's entries from the place where the last one ended (R208). Entries with ORPH are taken before
any of a resident team. -/
def State.sweepVictim (s : State) (core : Nat) (orphan serves : Entry → Bool) : Option (Entry × State) :=
  let es := s.entriesOn core
  match es.find? fun e => e.2.2.orph && s.sweepable core e && orphan e with
  | some e => some (e, s)
  | none =>
    let hand := (s.core core).sweep
    let rot := (es.filter fun e => decide (hand ≤ e.2.2.idx)) ++ es.filter fun e => decide (e.2.2.idx < hand)
    match sweepGo (s.sweepable core) serves (rot ++ rot) [] with
    | (some e, p) => some (e, (s.clearAcc p).updCore core fun c => { c with sweep := e.2.2.idx + 1 })
    | (none, _) => none

/-- The frame of an entry is local to the core. -/
def Entry.local_ (core : Nat) (e : Entry) : Bool := e.2.2.kind == 0 && e.2.2.frameCore == core

/-- Take a frame (R208): of an entry with ORPH also a lateral one, unless an LX word needs the page. -/
def State.takeFrame (s : State) (core : Nat) (needLocal : Bool) : FrameRes :=
  match s.freeFrame core with
  | some f => .frame ⟨0, core, f⟩ s
  | none =>
    match if needLocal then none else s.lateralFrame core with
    | some f => .frame f s
    | none =>
      match s.sweepVictim core (fun e => if needLocal then Entry.local_ core e else e.2.2.inVault) (Entry.local_ core) with
      | none => .wait
      | some (e, s1) =>
        match s1.pushOut e.1 e.2.1 with
        | (.ok _, s2) => .frame ⟨if e.2.2.frameCore = core then 0 else 1, e.2.2.frameCore, e.2.2.frame⟩ s2
        | (r, _) => .fault r

/-- With a full table, the sweep also chooses an entry to drop; its page becomes absent (R208). -/
def State.tableRoom (s : State) (core : Nat) : FrameRes :=
  if (s.entriesOn core).length < 4096 then .frame ⟨0, core, 0⟩ s
  else
    match s.sweepVictim core (fun _ => true) (fun _ => true) with
    | none => .wait
    | some (e, s1) =>
      match s1.dropPage e.1 e.2.1 with
      | (.ok _, s2) => .frame ⟨0, core, 0⟩ s2
      | (r, _) => .fault r

/-! ## Services -/

/-- The word at the head of a role's flight, if it lacks the page, and its lanes on the page (R339). -/
def State.flightOn (s : State) (rk vpn : Nat) : Option (LogEntry × List Nat) :=
  match (s.role rk).flight with
  | e :: _ =>
    (match memWord e.word with
     | some w =>
       if (s.laneLacks rk w e.todo).contains vpn then
         some (e, accLanes (e.todo.filter fun a => !w.m.scratch || decide (wsFirst ≤ vpn) || (pagesOf a.ea a.len).contains vpn))
       else none
     | none => none)
  | [] => none

/-- The word in a role's hold lacks the page as a local one (R206). -/
def State.holdLacks (s : State) (rk vpn : Nat) : Bool :=
  match (s.role rk).hold with
  | some w => (s.lxMissing w).contains vpn
  | none => false

/-- The SCRATCH record of the party that asked for a page (R210, R339, R340). -/
def State.scratchInfo (s : State) (a : Asker) (vpn sub va ia : Nat) : RecInfo :=
  match a with
  | .scalar rk => s.roleInfo rk false .scratch sub va ia 0 false
  | .lane rk =>
    (match s.flightOn rk vpn with
     | some (e, ls) => { s.roleInfo rk true .scratch sub va ia (laneBits ls) true with pc := e.pc }
     | none => s.roleInfo rk true .scratch sub va ia 0 false)
  | .queue rk q => { s.cmdInfo rk q sub va ia with code := .scratch }

/-- The role of an asker. -/
def Asker.role : Asker → Nat
  | .scalar rk => rk
  | .lane rk => rk
  | .queue rk _ => rk

/-- Does its fault stop the role (R210, R222)? An engine's element waits without stopping it. -/
def Asker.stops : Asker → Bool
  | .queue _ _ => false
  | _ => true

/-- The page is not in motion. -/
def Team.atRest (t : Team) (vpn : Nat) : Team :=
  if (t.page vpn).busy then { t with pages := t.pages.put vpn { t.page vpn with busy := false } } else t

/-- The page's service is over. -/
def Team.endService (t : Team) (vpn : Nat) : Team := { t.atRest vpn with service := t.service.erase vpn }

/-- A service that the pager cannot make (R210): a SCRATCH record stops the role whose instruction faulted, and the
service waits for its answer. The service of a hint just ends (R139). -/
def State.scratchFail (s : State) (tk vpn sub va ia : Nat) : State :=
  match ((s.team tk).service.get? vpn).bind Service.who with
  | none => s.updTeam tk fun t => t.endService vpn
  | some a =>
    let id := s.nextRec % 2 ^ 32
    let s1 := s.addRec (s.vfOf a.role) (s.scratchInfo a vpn sub va ia) (some a.role)
    let s2 := if a.stops then s1.updRole a.role fun r => { r with stopped := some id } else s1
    s2.updTeam tk fun t =>
      { t.atRest vpn with service := t.service.upd ⟨0, none, none⟩ vpn fun v => { v with wait := some id } }

/-- Scalar streams that waited for the pager try again (R159, R173); a role that is ready then leaves the near-threshold mode
(R302). -/
def State.unparkPage (s : State) (tk : Nat) : State :=
  (s.rolesOf tk).foldl (fun t rk =>
    if (t.role rk).spark = .page none then
      let t1 := t.updRole rk fun r => { r with spark := .none }
      t1.leaveIfReady rk
    else t) s

/-- The machine check of the party that asked for a page (R210, R238, R266, R335). -/
def State.askerCheck (s : State) (vpn sub va pa : Nat) : Asker → State
  | .scalar rk => s.machineCheck rk false sub va pa 0
  | .lane rk =>
    (match s.flightOn rk vpn, (s.role rk).hold with
     | some (e, ls), _ => s.headCheck rk e sub va pa (laneBits ls)
     | none, some w =>
       let ws := s.jointWords w
       (ws.foldl (fun t v => t.unhold v.rk) s).machineChecks (ws.map LxWord.rk) sub va pa 0
     | none, none => s.machineCheck rk true sub va pa 0)
  | .queue rk q => s.cmdEnd rk q 7 0

/-- A service ends at uncorrectable data: a machine check on the consumer, which for a command is its completion
(R210, R266, R335); a hint has none (R139). Streams that waited for the page try again. -/
def State.pageCheck (s : State) (tk vpn sub va pa : Nat) : State :=
  let s1 := match ((s.team tk).service.get? vpn).bind Service.who with
    | some a => s.askerCheck vpn sub va pa a
    | none => s
  (s1.updTeam tk fun t => t.endService vpn).unparkPage tk

/-- The page holds uncorrectable data (R210, R335). -/
def Team.pageBad (t : Team) (vpn : Nat) : Bool := t.meetsBad (4096 * vpn) 4096 false

/-- The pager's access meets what it cannot pass (R210); the fault waits for the end of a transition (R301). -/
def State.backFail (s : State) (tk vpn : Nat) (b : BackRes) : State :=
  if s.relocking (s.team tk).core then s else match b with
  | .noArea va => s.scratchFail tk vpn 1 va 0
  | .page va ia => s.scratchFail tk vpn 2 va ia
  | .lost va pa => s.pageCheck tk vpn (s.lostSub pa) va pa
  | .ok _ => s

/-- Roles that waited for the pager try again (R159, R173, R221). -/
def State.pageReady (s : State) (tk : Nat) : State :=
  (s.rolesOf tk).foldl (fun t rk => t.kick rk) (s.unparkPage tk)

/-- The page has its frame: the entry it had, or one at a free place of the table (R207, log 66); a page that lies in no frame
comes from its backing. -/
def State.pageIn (s0 : State) (tk vpn : Nat) (f : Frame) : State :=
  let p := (s0.team tk).page vpn
  let s := if p.touched && !p.inVault then s0.fromBacking tk vpn else s0
  s.setPage tk vpn { p with
    touched := true, present := true, kind := f.kind, busy := false, acc := true, used := false, frameCore := f.core, frame := f.num, orph := false,
    idx := if p.present then p.idx else s.freeIdx (s.team tk).core }

/-- What the pager's access to the backing of a page comes to (R207, R210): an untouched page reads nothing there, but
its area must be provided; a page in a frame needs none, and accesses of a KIND 2 page also write there (R205). -/
def State.backNeed (s : State) (tk vpn : Nat) : BackRes :=
  let p := (s.team tk).page vpn
  if p.touched && p.inVault then .ok []
  else match s.backOf tk vpn (p.present && decide (p.kind = 2)) with
    | .noArea va => .noArea va
    | r => if p.touched then r else .ok []

/-- A page takes a frame: its contents come from nothing, from its old frame, or from its backing (R207, R208). -/
def State.frameFor (s : State) (tk vpn : Nat) (needLocal : Bool) : FrameRes :=
  let core := (s.team tk).core
  match if ((s.team tk).page vpn).present then .frame ⟨0, core, 0⟩ s else s.tableRoom core with
  | .frame _ s1 => s1.takeFrame core needLocal
  | r => r

/-- What bringing a page into a frame costs (R209, R382): a zero fill is 4,096 bytes of the vault (R396). -/
def State.pageCost (s : State) (tk vpn kind : Nat) : Nat :=
  let p := (s.team tk).page vpn
  if !p.touched then 4096 * frameRate kind
  else moveBytes vpn * frameRate kind + if p.inVault then moveBytes vpn * frameRate p.kind else s.backCost tk vpn

/-- The transfers at the stacks that bringing a page in from its backing makes (R360, R367). -/
def State.pageTransfers (s : State) (tk vpn : Nat) : List Nat :=
  let p := (s.team tk).page vpn
  if !p.touched || p.inVault then []
  else match s.backOf tk vpn false with
    | .ok xs => xs.flatMap (s.transfers (s.team tk).core)
    | _ => []

/-- Serve a page that needs a frame (R207, R209). -/
def State.servePage (s : State) (tk vpn : Nat) (needLocal : Bool) : State :=
  match s.frameFor tk vpn needLocal with
  | .wait => s
  | .fault b => s.backFail tk vpn b
  | .frame f s2 =>
    (((s2.pageIn tk vpn f).updTeam tk fun t => t.endService vpn).chargeTeam tk (s2.pageCost tk vpn f.kind)).pageReady tk

/-- The page has an entry that serves: the service is over, and an entry of a team that is away matches its commands
again (R166, R216, log 66). -/
def State.pageThere (s : State) (tk vpn : Nat) : State :=
  (s.updTeam tk fun t =>
    let t1 := t.endService vpn
    { t1 with pages := t1.pages.put vpn { t1.page vpn with orph := false } }).pageReady tk

/-- A lateral page of which an access has found a free local frame, while it still is free (R217). -/
def State.promotes (s : State) (tk vpn : Nat) : Bool :=
  let p := (s.team tk).page vpn
  p.reach && p.kind == 1 && p.used && (s.team tk).resident && !s.pinned (s.team tk).core tk vpn
    && (s.freeFrame (s.team tk).core).isSome

/-- PAGER_SERVICE_DONE (R207): the page can be accessed; without a service, a lateral page moves to a local frame (R217).
For a team that is away, a fault of its commands is served as if it were there (R166); one of its roles is served once its
backing can be accessed, and the page comes in when the team is back (R167, R216). -/
def execPagerServiceDone (tk vpn : Nat) (s : State) : Res :=
  let t := s.team tk
  match t.service.get? vpn with
  | none => .next (if s.promotes tk vpn then s.servePage tk vpn true else s)
  | some sv =>
    if sv.wait.isSome then .next s
    else match s.backNeed tk vpn with
    | .ok _ =>
      let needLocal := (s.rolesOf tk).any fun rk => s.holdLacks rk vpn
      if !t.resident && (sv.who.map Asker.stops).getD true then .next ((s.updTeam tk fun t => t.endService vpn).reenter tk)
      else if (t.page vpn).present && !(needLocal && (t.page vpn).kind != 0) then .next (s.pageThere tk vpn)
      else if (t.page vpn).touched && t.pageBad vpn then
        .next (if s.relocking t.core then s else s.pageCheck tk vpn 2 (4096 * vpn) 0)
      else
        let ls := s.pageTransfers tk vpn
        if ls.any fun l => s.inRefresh (64 * l) || s.lineHeld l then .next (ls.foldl (fun u l => u.stallLine (.line l) l) s)
        else .next (s.servePage tk vpn needLocal)
    | r => .next (s.backFail tk vpn r)

/-! ## Swap-out -/

/-- The ref tick of a record. -/
def FaultRec.time (r : FaultRec) : Nat := fieldAt r.bytes 40 8

/-- The start of the oldest fault of a team that still awaits service (R167, R341). -/
def State.oldestFault (s : State) (tk : Nat) : Option Nat :=
  let recs := ((s.vf (s.launch (lidOf tk)).vf).recs.filter fun r =>
    s.awaits tk r && (r.code == codeNum .page || r.code == codeNum .scratch)).map FaultRec.time
  ((s.team tk).service.map (fun e => e.2.start) ++ recs).min?

/-- SWAP_OUT (R167, R216, R253): a fault of the team has been in service for 2,000 ref ticks. A team in an open
transaction gets a GRACE request. -/
def execSwapOut (tk : Nat) (s : State) : Res :=
  match s.oldestFault tk with
  | none => .next s
  | some t0 =>
    if t0 + 2000 ≤ s.refTick.toNat then
      .next ((s.updTeam tk fun t => t.request 5 (s.launch (lidOf tk)).graceTicks .swappedOut true).settleTeam tk)
    else .next s

end Sys2Proof.Machine
end

