-- ==== Sys2Proof/Machine/Commit.lean ====
section
/-! DEFINITION. The commit of a transaction (R258, R259) and the ladder history table (R261 to R263). -/

namespace Sys2Proof.Machine
open Sys2Proof

/-! ## The ladder history table -/

/-- An entry of the ladder history table (R261). -/
structure Ladder where
  valid : Bool
  pred : Nat
  conf : Nat
  tag : Nat
  deriving DecidableEq, Repr

/-- An entry from its bits: valid, PRED, CONF, TAG. -/
def ladderOf (n : Nat) : Ladder := ⟨bitOf n 0, fieldOf n 1 2, fieldOf n 3 2, fieldOf n 5 8⟩

/-- The bits of an entry. -/
def ladderBits (e : Ladder) : Nat := b2n e.valid + 2 * (e.pred % 4) + 8 * (e.conf % 4) + 32 * (e.tag % 256)

/-- The hash of R261. -/
def Launch.ladderHash (l : Launch) (t : Nat) : Nat :=
  (l.khdr % 2 ^ 32 / 64) ^^^ (t % 2 ^ 32 * 0x9E3779B1 % 2 ^ 32) ^^^ (l.lkey * 0x85EBCA6B % 2 ^ 32)

/-- The index of a team's entry. -/
def Launch.ladderIndex (l : Launch) (t : Nat) : Nat := fieldOf (l.ladderHash t) 0 12

/-- The tag of a team. -/
def Launch.ladderTag (l : Launch) (t : Nat) : Nat := fieldOf (l.ladderHash t) 12 8

/-- A start rung with PROBE and the clamped flag (R262). -/
structure RungStart where
  rung : Nat
  probe : Bool
  clamped : Bool
  deriving DecidableEq, Repr

/-- The start rung of a team's first dispatch (R262). -/
def Launch.startRung (l : Launch) (t : Nat) (e : Ladder) : RungStart :=
  let fl := l.floorRung
  let ce := l.topRung
  if l.lkey = 0 ∨ e.valid = false ∨ e.tag ≠ l.ladderTag t then ⟨fl, false, false⟩
  else if e.conf = 3 ∧ fl < e.pred ∧ e.pred ≤ ce then ⟨e.pred - 1, true, false⟩
  else
    let c := Nat.max fl (Nat.min ce e.pred)
    ⟨c, false, c != e.pred⟩

/-- The entry after a commit at rung `r` (R263): `copy` is the entry as read at the dispatch, `start` the rung
it gave. -/
def ladderNext (e copy : Ladder) (tag r start : Nat) (probe clamped : Bool) : Ladder :=
  if !e.valid || e.tag != tag then ⟨true, r, 0, tag⟩
  else if clamped then e
  else if probe && r == start then { e with pred := r, conf := 0 }
  else if probe && decide (start < r) then
    (if copy.pred < r then { e with pred := r, conf := 0 } else { e with pred := copy.pred, conf := copy.conf })
  else if e.pred < r then { e with pred := r, conf := 0 }
  else if r = e.pred then { e with conf := Nat.min (e.conf + 1) 3 }
  else e

/-- Update the history of the die where a team commits (R263). -/
def State.ladderUpdate (s : State) (tk : Nat) : State :=
  let t := s.team tk
  let l := s.launch (lidOf tk)
  if l.lkey = 0 then s
  else s.updDie (dieOf t.core) fun d =>
    let i := l.ladderIndex t.t
    let e := ladderNext (ladderOf (d.ladder.get 0 i)) (ladderOf t.copyEntry) (l.ladderTag t.t) t.rung t.start
      t.probe t.clamped
    { d with ladder := d.ladder.set 0 i (ladderBits e) }

/-! ## The probe -/

/-- The commit tokens of a team in ascending role index (R257, R258). -/
def State.commitTokens (s : State) (tk : Nat) : List (W64 × W64) :=
  (s.rolesOf tk).filterMap fun rk => (s.role rk).txArr.getD none

/-- The global ranges that the probe pins (R258): of the write log's stores, atomics and waybill updates, and of
the commit tokens. -/
def State.probeRanges (s : State) (tk : Nat) : List (Nat × Nat) :=
  let f := s.vf (s.launch (lidOf tk)).vf
  ((s.team tk).log.filterMap fun e =>
    match e.kind with
    | .store => some (e.addr, e.size)
    | .atomic _ => some (e.addr, e.size)
    | .waybill _ => some (f.wbVa e.wbidx, 128)
    | .command _ _ => none) ++ (s.commitTokens tk).map fun e => (e.1.toNat, 8)

/-- The first walk of the probe that faults: address, IA, sub-cause (R311). -/
def State.probeFault (s : State) (vf : Nat) : List (Nat × Nat) → Option (Nat × Nat × Nat)
  | [] => none
  | (va, n) :: t =>
    match s.xlat vf va n true with
    | .page sub ia => some (va, ia, sub)
    | _ => s.probeFault vf t

/-- A line of the write set that has been lost, if there is one: address, sub-cause and physical address (R336). Waybill
updates go to a delta, and write no line here. -/
def State.probeLost (s : State) (tk : Nat) : Option (Nat × Nat × Nat) :=
  let vf := (s.launch (lidOf tk)).vf
  let rs := ((s.team tk).log.filterMap fun e =>
    match e.kind with
    | .store => some (e.addr, e.size)
    | .atomic _ => some (e.addr, e.size)
    | _ => none) ++ (s.commitTokens tk).map fun e => (e.1.toNat, 8)
  rs.findSome? fun r =>
    match s.xlat vf r.1 r.2 true with
    | .mcheck pa => some (r.1, s.lostSub pa, pa)
    | _ => none

/-- The translations that the probe holds on to. -/
def State.pinAll (s : State) (vf : Nat) (rs : List (Nat × Nat)) : List ((Nat × Nat) × Xlat) :=
  rs.filterMap fun r => match s.xlat vf r.1 r.2 true with | .ok x => some (r, x) | _ => none

/-- The pages of the write set that hold the team's log (R215). -/
def State.logPages (s : State) (tk : Nat) : List Nat := wsPagesOf 0 (s.team tk).log.length

/-- A page of the write set that cannot be accessed: the pager brings it in, and the drain then reads it under PIN
(R206, R215). -/
def State.logLack (s : State) (tk : Nat) : Option Nat := (s.logPages tk).find? fun v => !s.reaches tk v

/-- Uncorrectable data in the write log, or a lost line of its pages in their backing or of what the drain would write:
address, sub-cause and physical address (R210, R335, R336). -/
def State.probeCheck (s : State) (tk : Nat) : Option (Nat × Nat × Nat) :=
  if !(s.team tk).logBad.isEmpty then some (0, 2, 0)
  else match (s.logPages tk).findSome? fun v =>
      if ((s.team tk).page v).kind = 2 then (match s.backOf tk v false with | .lost va pa => some (va, s.lostSub pa, pa) | _ => none)
      else none with
    | some c => some c
    | none => s.probeLost tk

/-- A walk of the probe that has faulted (R258, R311, R416): a PAGE record waits for its answer (NOMAP, ABSENT), or TXPROBE
stops the team (WRITE, BADPTE). -/
def State.probeStop (s : State) (tk va ia sub : Nat) : State :=
  let rk := roleKey tk 0
  if sub ≤ 2 then
    let id := s.nextRec % 2 ^ 32
    (s.addRec (s.vfOf rk) (s.roleInfo rk false .page sub va ia 0 false) none).updTeam tk fun t => { t with phase := .probeFault id }
  else s.raise rk false .txprobe sub va ia 0

/-- The commit probe over the log's pages (R258): every page that the drain writes is pinned, or the probe faults. A lost
line raises its machine check before the commit point, after which nothing may fault (DESIGN CHOICE, log 25). A fault waits
for the end of a transition (R301). -/
def State.probe (s : State) (tk : Nat) : State :=
  let rk := roleKey tk 0
  match s.probeFault (s.vfOf rk) (s.probeRanges tk), s.probeCheck tk with
  | none, none => s.updTeam tk fun t => { t with phase := .pinned, pins := s.pinAll (s.vfOf rk) (s.probeRanges tk) }
  | f, c =>
    if s.relocking (s.team tk).core then s
    else match c, f with
      | some (va, sub, pa), _ => s.machineCheck rk false sub va pa 0
      | none, some (va, ia, sub) => s.probeStop tk va ia sub
      | none, none => s

/-- COMMIT_PROBE (R215, R258): once the pages of the log are there, the probe runs. -/
def execCommitProbe (tk : Nat) (s : State) : Res :=
  let t := s.team tk
  if t.phase ≠ .probing ∨ t.halted.isSome then .next s
  else match s.logLack tk with
    | some v => .next (s.startService tk v (some (.scalar (roleKey tk 0))))
    | none => .next (s.probe tk)

/-! ## The drain -/

/-- The new value of a logged reduction atomic (R138, R182, R251). -/
def drainNew (op size old data : Nat) : Nat :=
  if op = 10 then aopNew .fadd (8 * size) old data 0 else (atomFn op (8 * size) old data 0).1

/-- The translation of a pinned range: that of now, or the pinned one when the page tables give none any more (R258). -/
def State.drainXlat (s : State) (tk va n : Nat) : AccRes :=
  match s.xlat (s.launch (lidOf tk)).vf va n true with
  | .ok x => .ok x
  | .mcheck pa => .mcheck pa
  | r => match (s.team tk).pins.find? fun e => e.1 == (va, n) with | some e => .ok e.2 | none => r

/-- A line that is lost after the probe (R336): what would be written there is lost, and a record says so. It stops nothing,
since a team behind its commit point does not fault (R258; DESIGN CHOICE, log 25). -/
def State.drainLost (s : State) (tk j va pa : Nat) : State :=
  let rk := roleKey tk j
  s.addRec (s.vfOf rk) (s.roleInfo rk false .mcheck (s.lostSub pa) va pa 0 false) none

/-- The bytes of a drained access are charged as they move (R382); `prev` are the lines of the one before it in this step. -/
def State.chargeDrain (s : State) (tk : Nat) (home : Bool) (x : Xlat) (prev : List Nat) : State :=
  s.chargeTeam tk (s.globCost (s.team tk).core true home x.part x.ia x.pas.length prev)

/-- Drain one entry of the write log (R258): stores as ordinary accesses, reduction atomics as atomics of scope `.sys`, which
count among their role's earlier atomics (R187, R316), commands as pushes (R381). -/
def State.drainEntry (s : State) (tk : Nat) (e : WEntry) (prev : List Nat) : State :=
  let vf := (s.launch (lidOf tk)).vf
  let core := (s.team tk).core
  let rk := roleKey tk e.role
  let put (home : Bool) (k : Xlat → State) : State :=
    match s.drainXlat tk e.addr e.size with
    | .ok x => (k x).chargeDrain tk home x prev
    | .mcheck pa => s.drainLost tk e.role e.addr pa
    | _ => s
  match e.kind with
  | .store => put false fun x => s.storeX ⟨core, vf⟩ x (leBytes e.size e.data)
  | .atomic op => put true fun x =>
      (s.atomWrite ⟨core, vf⟩ 6 x (leBytes e.size (drainNew op e.size (leNat (s.loadX x)) e.data))).noteAtom rk x
  | .command q seed => (s.noteOverflow rk q).pushEng rk q (BitVec.ofNat 64 e.data) seed (0, 0)
  | .waybill f =>
    s.wbUpdate tk (dieOf core) vf e.wbidx (widenBits (((fmtOfCode f).bind fmtFF).getD .f32) e.data)

/-- The range of a drained store or atomic. -/
def WEntry.range (e : WEntry) : Option (Nat × Nat) :=
  match e.kind with
  | .store => some (e.addr, e.size)
  | .atomic _ => some (e.addr, e.size)
  | _ => none

/-- The transfers at the stacks of a write of the commit. -/
def State.drainTransfers (s : State) (tk va n : Nat) : List Nat :=
  match s.drainXlat tk va n with
  | .ok x => s.transfers (s.team tk).core x
  | _ => []

/-- A write of the commit waits: for a command's hold on its grain or its line (R328, R336), or for a refresh (R360). A token's
add is made at the home, and waits for no hold on a grain. -/
def State.drainWaits (s : State) (tk va n : Nat) (store : Bool) : Bool :=
  let ls := s.drainTransfers tk va n
  (store && match s.drainXlat tk va n with | .ok x => s.bulkHeld x | _ => false) || s.anyHeld ls
    || ls.any fun l => s.inRefresh (64 * l)

/-- Drain entries of the log in its order, at most `n`, up to one that has to wait (R258); a wait for a refresh is
counted. -/
def drainSome (tk : Nat) : Nat → List Nat → State → State
  | 0, _, s => s
  | n + 1, prev, s =>
    match (s.team tk).log with
    | [] => s
    | e :: t =>
      match e.range with
      | none => drainSome tk n prev ((s.drainEntry tk e prev).updTeam tk fun m => { m with log := t })
      | some r =>
        if s.drainWaits tk r.1 r.2 true then s.stallAll (.scalar (roleKey tk e.role)) (s.drainTransfers tk r.1 r.2)
        else
          drainSome tk n (s.accLines (roleKey tk e.role) r.1 r.2)
            ((s.drainEntry tk e prev).updTeam tk fun m => { m with log := t })

/-- A role's commit token has been added. -/
def Role.tokenDone (r : Role) : Role := { r with txArr := r.txArr.map fun _ => none }

/-- Add the commit token of a role at its home (R258, R320). -/
def State.addToken (s : State) (rk : Nat) (a v : W64) : State :=
  let tk := teamOf rk
  let s1 := match s.drainXlat tk a.toNat 8 with
    | .ok x => (s.tokenAdd (clusterOf (s.team tk).core) x v.toNat).chargeDrain tk true x []
    | .mcheck pa => s.drainLost tk (roleIdx rk) a.toNat pa
    | _ => s
  s1.updRole rk Role.tokenDone

/-- Add the commit tokens in ascending role index, at most `n`, up to one that has to wait (R258). -/
def addTokens : Nat → List Nat → State → State
  | _, [], s => s
  | n, rk :: t, s =>
    match (s.role rk).txArr.getD none with
    | none => addTokens n t s
    | some (a, v) =>
      match n with
      | 0 => s
      | k + 1 =>
        if s.drainWaits (teamOf rk) a.toNat 8 false then
          s.stallAll (.scalar rk) (s.drainTransfers (teamOf rk) a.toNat 8)
        else addTokens k t (s.addToken rk a v)

/-- The team after the drain: VER is clear, the log's pages are released (R214, R215, R258). -/
def Team.drained (t : Team) : Team :=
  { t with logBad := [], reserved := 0,
           pages := (t.pages.keep fun v _ => decide (v < wsFirst)).map fun e => (e.1, { e.2 with ver := 0 }) }

/-- The commit is complete: the team runs on, with nothing pinned (R258). -/
def Team.committedNow (t : Team) : Team := { t with phase := .running, pins := [] }

/-- Entries that commands have reserved in the log count no more (R249). -/
def Role.unreserve (r : Role) : Role :=
  { r with engs := r.engs.map fun e =>
      (e.1, { e.2 with run := e.2.run.map fun c => { c with prog := { c.prog with reserved := 0 } } }) }

/-- A request that waited for the drain acts (R252, R253). One that only a swap-out made acts while the team's
fault is still in service (R167). -/
def State.graceActs (s : State) (tk : Nat) : State :=
  match (s.team tk).grace with
  | none => s
  | some g =>
    let s1 := s.updTeam tk fun t => { t with grace := none }
    if !g.swap then (s1.updTeam tk fun t => { t with suspend := some .preempted }).settleTeam tk
    else if (s.oldestFault tk).isSome then (s1.updTeam tk fun t => { t with suspend := some .swappedOut }).settleTeam tk
    else s1

/-- Every role continues after its TXCOMMIT (R258). -/
def State.rolesContinue (s : State) (tk : Nat) : State :=
  (s.rolesOf tk).foldl (fun t rk => (t.advance rk 4).updRole rk fun r => { r with txArr := none }) s

/-- TOPTRAP: role 0 takes its user trap (R259). -/
def State.topTrap (s : State) (tk : Nat) : State :=
  let rk := roleKey tk 0
  if (s.team tk).topTrip && bitOf (s.launchOf rk).hflags 0 then s.userTrap rk 2 0 false (s.role rk).pc else s

/-- A kill that waited for the commit acts (R258). -/
def State.doom (s : State) (tk : Nat) : State :=
  if (s.team tk).doomed && (s.team tk).live then s.killTeam tk else s

/-- The log has been drained: VER bits are cleared, and the ladder history is updated (R258, R263). -/
def State.drainDone (s : State) (tk : Nat) : State :=
  let s1 := (s.updTeam tk Team.drained).ladderUpdate tk
  (s1.rolesOf tk).foldl (fun u rk => u.updRole rk Role.unreserve) s1

/-- The end of a commit (R258, R259). -/
def State.commitEnd (s : State) (tk : Nat) : State :=
  ((((s.updTeam tk Team.committedNow).rolesContinue tk).topTrap tk).graceActs tk).doom tk

/-- COMMITTED is set, and the log is drained, as many entries as the pace lets it (R258). -/
def State.drainStep (s : State) (tk : Nat) : State :=
  let s1 := s.updTeam tk fun t => { t with committed := true, txOpen := false }
  let s2 := drainSome tk (s.pace.getD (s.team tk).log.length) [] s1
  if (s2.team tk).log.isEmpty then s2.drainDone tk else s2

/-- The commit tokens are added, as many as the pace lets it; then the commit ends (R258). -/
def State.tokenStep (s : State) (tk : Nat) : State :=
  let s1 := addTokens (s.pace.getD (s.rolesOf tk).length) (s.rolesOf tk) s
  if (s1.commitTokens tk).isEmpty then s1.commitEnd tk else s1

/-- COMMIT_POINT (R258): with every page pinned, the team commits. With a pace the drain and the adds of the tokens take
several steps: other parties may see the drain part-way through, and see all of it before the first add. A commit that ends in
a trap waits for the end of a transition (R301). -/
def execCommitPoint (tk : Nat) (s : State) : Res :=
  let t := s.team tk
  if t.phase ≠ .pinned || (t.topTrip && s.relocking t.core) then .next s
  else if t.committed && t.log.isEmpty then .next (s.tokenStep tk)
  else
    let s1 := s.drainStep tk
    .next (if s.pace.isNone && (s1.team tk).log.isEmpty then s1.tokenStep tk else s1)

end Sys2Proof.Machine
end

