-- ==== Sys2Proof/Machine/Accept.lean ====
section
/-! DEFINITION. Acceptance and refusal of launches (R24, R43, R92, R93, R195, R372 to R374, R389). -/

namespace Sys2Proof.Machine
open Sys2Proof

/-! ## Datapaths -/

/-- A datapath's load: roles bound and register bytes (R43, R149). -/
abbrev DpLoad := Nat × Nat

/-- A role of `n` bytes fits beside a load (R43, R149). -/
def dpFits (n : Nat) (d : DpLoad) : Bool := decide (d.1 < 4) && decide (d.2 + n ≤ 262144)

/-- Insert a load in a sorted list of loads. -/
def insLoad (d : DpLoad) : List DpLoad → List DpLoad
  | [] => [d]
  | e :: t => if d.2 < e.2 ∨ (d.2 = e.2 ∧ d.1 ≤ e.1) then d :: e :: t else e :: insLoad d t

/-- The loads of four datapaths after a role of `n` bytes is bound to one of them, in every way. -/
def bindOne (n : Nat) (ds : List DpLoad) : List (List DpLoad) :=
  (List.range ds.length).filterMap fun i =>
    let d := ds.getD i (0, 0)
    if dpFits n d then some (insLoad (d.1 + 1, d.2 + n) (ds.eraseIdx i)) else none

/-- Bind roles one after another, from any of some loads. -/
def bindAll (sizes : List Nat) (from_ : List (List DpLoad)) : List (List DpLoad) :=
  sizes.foldl (fun ls n => (ls.flatMap (bindOne n)).dedup) from_

/-- An empty core. -/
def emptyCore : List (List DpLoad) := [[(0, 0), (0, 0), (0, 0), (0, 0)]]

/-- Register bytes of each role (R43). -/
def Launch.roleSizes (l : Launch) : List Nat :=
  (List.range l.nroles).map fun j => 32 * l.groups j * l.budget j

/-- Teams that fit beside each other, up to `fuel`. -/
def fitCount (sizes : List Nat) : Nat → List (List DpLoad) → Nat
  | 0, _ => 0
  | n + 1, ls =>
    let next := bindAll sizes ls
    if next.isEmpty then 0 else fitCount sizes n next + 1

/-- Teams of a launch that one empty core holds: four roles per datapath, 16 team slots (R373, code 8). -/
def Launch.perCore (l : Launch) : Nat := fitCount l.roleSizes 16 emptyCore

/-! ## Partitions -/

/-- The clusters that a partition owns (R381). -/
def State.ownedClusters (s : State) (part : Nat) : List Nat :=
  (List.range 32).filter fun c => s.clusterOwner.get 0 c == part

/-- Dies on which a partition owns clusters (R373, code 7). -/
def State.ownedDies (s : State) (part : Nat) : List Nat := ((s.ownedClusters part).map dieOfCluster).dedup

/-- Present cores of a partition (R381). -/
def State.ownedCores (s : State) (part : Nat) : List Nat :=
  (s.ownedClusters part).flatMap fun c =>
    ((List.range 15).filter fun n => bitOf (s.cluster c).capCore n).map fun n => 15 * c + n

/-! ## The checks -/

/-- Read bytes for the distributor; none when they cannot be read (R373, code 1). -/
def State.distRead (s : State) (vf va n : Nat) : Option (List Byte) :=
  match s.xlat vf va n false with
  | .ok x => some (s.loadX x)
  | _ => none

/-- The token addresses of a record's used dependences and a non-zero DONETOK. -/
def Launch.tokens (l : Launch) : List Nat :=
  ((List.range (Nat.min 4 (l.fld 46 2))).map fun j => l.fld (144 + 16 * j) 8)
    ++ (if l.fld 208 8 = 0 then [] else [l.fld 208 8])

/-- A reserved field of the record or of a monitor configuration in it is set (R6, R245, R371). -/
def Launch.reservedSet (l : Launch) : Bool :=
  fieldOf (l.fld 28 2) 4 12 != 0 || fieldOf (l.fld 30 1) 3 5 != 0 || fieldOf (l.fld 31 1) 4 4 != 0
    || l.fld 238 2 != 0 || l.fld 248 8 != 0
    || (List.range 4).any fun n => fieldOf (l.fld (112 + 8 * n) 8) 28 7 != 0 || fieldOf (l.fld (112 + 8 * n) 8) 0 16 != 0

/-- An extent is out of range (R147). -/
def badExtent (n : Nat) : Bool := n == 0 || decide (2 ^ 20 < n)

/-- The field checks of code 1 (R373). -/
def State.badRecord (s : State) (vf : Nat) (l : Launch) : Bool :=
  l.reservedSet || badExtent l.gridX || badExtent l.gridY || badExtent l.gridZ
    || l.khdr % 64 != 0 || l.laneCode % 64 != 0 || l.fld 224 8 % 4096 != 0 || l.fld 232 4 % 4096 != 0
    || decide (4 < l.fld 46 2) || l.fld 224 8 == 0 || (l.fld 236 2 == 0) == l.flag 0
    || decide (l.fld 44 1 = 0) || decide (l.fld 45 1 < l.fld 44 1) || decide (4 < l.fld 45 1)
    || l.tokens.any fun a => a % 8 != 0 || (match s.toIa vf a 8 with | .ia _ => false | _ => true)

/-- The launch needs a feature that is not accepted (R374, R392, R411). -/
def State.needsFeature (s : State) (l : Launch) : Bool :=
  let need (b : Nat) (on : Bool) := on && !(s.accept.getLsbD b)
  need 0 true || need 1 (l.flag 0) || need 8 (l.flag 3) || need 9 l.share.isSome
    || (List.range 8).any fun n =>
        need 6 (bitOf (l.fslot n).toNat 8) || need 7 (fieldOf (l.fslot n).toNat 9 3 == 4)

/-- A ROLE entry is out of order (R90, R93). -/
def Launch.badRole (l : Launch) (j : Nat) : Bool :=
  if j < l.nroles then fieldOf (l.roleEntry j) 27 5 != 0 || decide (l.scode ≤ fieldOf (l.roleEntry j) 0 16)
  else l.roleEntry j != 0

/-- A channel byte is out of order (R89, R93). -/
def Launch.badChan (l : Launch) (q : Nat) : Bool :=
  bitOf (l.chan q) 6 || (l.chanUsed q &&
    (decide (l.nroles ≤ l.chanSrc q) || decide (l.nroles ≤ l.chanDst q) || l.chanSrc q == l.chanDst q))

/-- The header checks (R91, R93). -/
def Launch.badHeader (l : Launch) : Bool :=
  l.hdr 0 2 != 0x4B48 || l.hdr 2 1 != 1 || fieldOf l.hflags 6 2 != 0 || l.hdr 54 2 != 0
    || l.nroles == 0 || decide (8 < l.nroles) || (List.range 8).any l.badRole
    || decide (2048 < ((List.range l.nroles).map fun j => 32 * l.groups j).sum)
    || decide (8192 < l.scrPages) || [8, 9, 10, 11, 12, 13].any l.badChan
    || (l.trapEntry != 0xFFFFFFFF && decide (l.scode ≤ l.trapEntry))
    || ((bitOf l.hflags 0 || bitOf l.hflags 1) && l.trapEntry == 0xFFFFFFFF)

/-- The size of a context area (R372). -/
def Launch.ctxSize (l : Launch) : Nat := l.saveSize + l.backSize + l.wsSize + l.queueSize

/-- The grid cannot be resident at once in the empty partition (R171, R373, code 8). -/
def State.noResidency (s : State) (part : Nat) (l : Launch) : Bool :=
  l.flag 1 && decide (l.perCore * (s.ownedCores part).length < l.teamsN)

/-- Accepted launches of a VF that have not completed (R373, R378). -/
def State.openLaunches (s : State) (vf : Nat) : Nat :=
  (s.launches.filter fun e => e.2.vf == vf && e.2.phase != .complete && e.2.phase != .failed).length

/-- The first code that refuses a launch whose record and header have been read, in table order; the stride is
judged after code 6 (R373). A gang launch that sets neither TX nor RESTART is GANGKIND (R411). -/
def State.refusal (s : State) (vf : Nat) (l : Launch) (hdr : Bool) : Nat :=
  if s.badRecord vf l then 1
  else if s.needsFeature l then 2
  else if !hdr || l.badHeader then 3
  else if (bindAll l.roleSizes emptyCore).isEmpty then 4
  else if !((List.range 8).all fun n => slotValid (l.fslot n)) then 5
  else if l.topRung < l.floorRung then 6
  else if l.fld 232 4 < l.ctxSize then 1
  else if (s.ownedDies (s.vf vf).part).length < l.fld 44 1 then 7
  else if s.noResidency (s.vf vf).part l then 8
  else if 4096 ≤ s.openLaunches vf then 9
  else if l.share.isSome && !l.flag 0 && !l.flag 2 then 10
  else 0

/-- A launch handle (R195). -/
def handle (lid status : Nat) : W64 := BitVec.ofNat 64 (lid % 2 ^ 32 * 2 ^ 32 + status)

/-- Enqueue a launch record (R373): the handle, and the state with the launch accepted. A record that is not
256-byte aligned cannot be read. -/
def State.enqueue (s : State) (vf addr : Nat) (share : Option GangShare) : W64 × State :=
  match if addr % 256 = 0 then s.distRead vf addr 256 else none with
  | none => (handle 0 1, s)
  | some bs =>
    let l0 : Launch := { Launch.empty with record := byteMap bs, vf := vf, share := share }
    let h := s.distRead vf l0.khdr 64
    let l : Launch := { l0 with header := byteMap (h.getD []) }
    let code := s.refusal vf l h.isSome
    if code ≠ 0 then (handle 0 code, s)
    else (handle s.nextLid 0,
      { s with launches := s.launches.put s.nextLid l, nextLid := s.nextLid + 1 })

/-- LAUNCH (R184, R195): the record address goes through `q6` to the distributor, whose answer goes to sd. -/
def execLaunch (d a : SReg) (s : State) : Res :=
  scalar0 s fun rk0 =>
    if s.inTx (teamOf rk0) && !s.opIllegal rk0 [a] (some d) then .next (s.raiseS rk0 .txillegal 0)
    else scalarOp s [a] (some d) fun rk vs s =>
      let va := (src vs 0).toNat
      if va % 256 ≠ 0 || !legalGlobal va 256 then .next (s.raiseS rk .address va)
      else if s.orderWait rk then .next (s.parkS rk .order)
      else
        let r := s.enqueue (s.vfOf rk) va none
        .next ((if s.takes rk d r.1 then r.2 else s).finish rk d r.1)

/-- LAUNCH_MESSAGE (R373, R389): a launch message of the Rhogil port is answered with a handle. -/
def execLaunchMessage (vf : Nat) (addr : W64) (s : State) : Res :=
  let r := s.enqueue vf addr.toNat none
  .next { r.2 with outbox := r.2.outbox ++ [.launchAnswer vf (r.1.toNat / 2 ^ 32) (r.1.toNat % 2 ^ 16)] }

end Sys2Proof.Machine
end

