-- ==== Sys2Proof/Machine/Distributor.lean ====
section
/-! DEFINITION. The distributors: dependences (R375), dispatch, resumption and pre-emption for room (R152, R168,
R171, R216, R217, R262, R376, R377), retirement (R170, R218), completion (R378), stages (R379), recovery
and failure (R385 to R387), gang shares (R411 to R415). -/

namespace Sys2Proof.Machine
open Sys2Proof

/-! ## Dependences -/

/-- A dependence holds (R320, R375): one whose walk faults counts as not yet reached. -/
def State.depHolds (s : State) (l : Launch) (j : Nat) : Bool :=
  match s.distRead l.vf (l.fld (144 + 16 * j) 8) 8 with
  | some bs => decide (l.fld (152 + 16 * j) 8 ≤ leNat bs)
  | none => false

/-- Every used dependence holds. -/
def State.depsHold (s : State) (l : Launch) : Bool := (List.range (l.fld 46 2)).all (s.depHolds l)

/-- A waiting launch whose dependences hold becomes ready. -/
def State.tryReady (s : State) (lid : Nat) : State :=
  if (s.launch lid).phase = .waiting && s.depsHold (s.launch lid) then
    s.updLaunch lid fun l => { l with phase := .ready }
  else s

/-! ## Which teams wait -/

/-- The launch may receive teams: ready, its share of a gang started, its VF neither withheld nor exhausted
(R376, R381, R384, R413). -/
def State.launchActive (s : State) (l : Launch) : Bool :=
  (l.phase == .ready || l.phase == .running) && ((l.share.map GangShare.started).getD true)
    && !(s.vf l.vf).withheld && !(s.vf l.vf).exhausted

/-- Teams of a launch that wait to resume. -/
def State.resumable (s : State) (lid : Nat) : List Nat :=
  (s.teams.filter fun e =>
    lidOf e.1 == lid && (e.2.phase == .preempted || (e.2.phase == .swappedOut && s.served e.1))).map Prod.fst

/-- The teams of a launch that may be dispatched next: those to resume come before any that was never
dispatched (R376, R377). -/
def State.waitingTeams (s : State) (lid : Nat) : List Nat :=
  let l := s.launch lid
  let rs := s.resumable lid
  rs ++ l.requeue.map (teamKey lid) ++ (if rs.isEmpty then (l.nextT.map (teamKey lid)).toList else [])

/-- A CORESIDENT launch of which no team has been dispatched (R376). -/
def Launch.coPending (l : Launch) : Bool := l.flag 1 && l.next == 0 && l.phase == .ready

/-! ## Placement -/

/-- The loads of a core's datapaths (R43, R149). -/
def State.coreLoads (s : State) (core : Nat) : List DpLoad :=
  (List.range 4).map fun d =>
    let rs := s.roles.filter fun e =>
      (s.team (teamOf e.1)).resident && s.coreOf e.1 == core && e.2.dp == d
    (rs.length, (rs.map fun e => 32 * e.2.lanes.groups * e.2.lanes.budget).sum)

/-- Bind roles to datapaths, the first way there is. -/
def bindFirst : List Nat → List DpLoad → Option (List Nat)
  | [], _ => some []
  | n :: t, ds =>
    (List.range 4).findSome? fun i =>
      let d := ds.getD i (4, 0)
      if dpFits n d then (bindFirst t (ds.set i (d.1 + 1, d.2 + n))).map fun r => i :: r else none

/-- The given binding fits. -/
def bindingFits : List Nat → List Nat → List DpLoad → Bool
  | [], [], _ => true
  | n :: t, i :: u, ds =>
    let d := ds.getD i (4, 0)
    dpFits n d && bindingFits t u (ds.set i (d.1 + 1, d.2 + n))
  | _, _, _ => false

/-- Teams resident on a core (R203). -/
def State.slotsUsed (s : State) (core : Nat) : Nat := (s.core core).slots.length

/-- A core of the launch's partition with a free slot, on a die that the launch occupies, if these have been chosen (R203,
R376, R380). -/
def State.coreOpen (s : State) (lid core : Nat) : Bool :=
  let l := s.launch lid
  (s.ownedCores (s.vf l.vf).part).contains core && decide (s.slotsUsed core < 16)
    && (l.dies.isEmpty || l.dies.contains (dieOf core))

/-- The launch's next team can be placed somewhere. -/
def State.placeable (s : State) (lid : Nat) : Bool :=
  (s.ownedCores (s.vf (s.launch lid).vf).part).any fun c =>
    s.coreOpen lid c && (bindFirst (s.launch lid).roleSizes (s.coreLoads c)).isSome

/-- Another launch lets this one be served (R376): it has no team waiting, it has a higher level number, or within
the level it is later, or waits only for space; a CORESIDENT launch that waits for its dispatch goes first. -/
def State.yieldsTo (s : State) (lid : Nat) (e : Nat × Launch) : Bool :=
  let l := s.launch lid
  e.1 == lid || (s.vf e.2.vf).part != (s.vf l.vf).part || !s.launchActive e.2 || (s.waitingTeams e.1).isEmpty
    || decide (l.prio < e.2.prio)
    || (l.prio == e.2.prio && (decide (lid < e.1) || (!e.2.coPending && !s.placeable e.1)))

/-- The distributor may dispatch this team now (R376). -/
def State.mayDispatch (s : State) (tk : Nat) : Bool :=
  let lid := lidOf tk
  s.launchActive (s.launch lid) && (s.waitingTeams lid).contains tk && s.launches.all (s.yieldsTo lid)

/-! ## Starting and resuming -/

/-- The lowest free team slot of a core (R203). -/
def State.freeSlot (s : State) (core : Nat) : Nat :=
  ((List.range 16).find? fun n => !(s.core core).slots.has n).getD 0

/-- The coordinates of a team (R147). -/
def Launch.coordOf (l : Launch) (t : Nat) : Nat × Nat × Nat :=
  (t % l.gridX, t / l.gridX % l.gridY, t / (l.gridX * l.gridY))

/-- A role at role start (R19, R42, R94, R124, R152). -/
def Launch.newRole (l : Launch) (t j dp : Nat) : Role :=
  let lanes := { Lanes.empty with groups := l.groups j, budget := l.budget j }
  { Role.empty with
    dp := dp, pc := BitVec.ofNat 64 (l.khdr + 64 + 4 * fieldOf (l.roleEntry j) 0 16)
    lanes := { lanes with
      base := lanes.slots, e := BitVec.allOnes 1024
      rng := seedOf (BitVec.ofNat 32 (l.fld 40 4) ^^^ BitVec.ofNat 32 (t * 16 + j)) } }

/-- What the first dispatch of a team takes from the ladder history (R262). -/
def State.firstTeam (s : State) (lid t core : Nat) : Team :=
  let l := s.launch lid
  let e := (s.die (dieOf core)).ladder.get 0 (l.ladderIndex t)
  let r := l.startRung t (ladderOf e)
  let m := { Team.empty with lid := lid, t := t, coord := l.coordOf t, nroles := l.nroles }
  if l.flag 0 then { m with rung := r.rung, start := r.rung, probe := r.probe, clamped := r.clamped, copyEntry := e }
  else m

/-- The team as its dispatch begins (R162, R201, R243, R247). -/
def Team.begin (m : Team) (tx : Bool) (core slot age : Nat) : Team :=
  { m with core := core, slot := slot, age := age, phase := .running, txOpen := tx, committed := false,
           topTrip := false, satCnt := 0, canCnt := 0, fare := 0, gang := 0, scratch := [], full := [], pages := [],
           chans := [], log := [], reserved := 0, vbad := [], logBad := [] }

/-- The launch after a team of it has been dispatched for the first time, or again. -/
def Launch.dispatched (l : Launch) (t : Nat) : Launch :=
  let l1 := { l with phase := .running }
  if l.requeue.contains t then { l1 with requeue := l.requeue.filter fun n => n != t }
  else if l.next < l.ownTeams then { l1 with next := l.next + 1 }
  else { l1 with share := l.share.map fun g => { g with from_ := t + 1, sent := g.sent + 1 } }

/-- A role becomes ready on its core. -/
def State.rolesReady (s : State) (tk : Nat) : State := (s.rolesOf tk).foldl (fun t rk => (t.leaveIfReady rk).kick rk) s

/-- The duplicates of a role's register words that stay when other words are allocated beside them: as many as have room,
and which of them is the implementation's (R57). What room is left comes with them. -/
def Lanes.keepDups (l : Lanes) (free room : Nat) : Lanes × Nat :=
  let p : NMap Bool × Nat := l.bad.foldr (fun e p =>
    if e.2 && decide (4 ≤ p.2) && Config.freeBit free e.1 then ((e.1, true) :: p.1, p.2 - 4) else ((e.1, false) :: p.1, p.2))
    ([], room)
  ({ l with bad := p.1 }, p.2)

/-- The register bytes of a datapath that no resident role has allocated (R57). -/
def State.dpRoom (s : State) (core dp : Nat) : Nat := 262144 - ((s.coreLoads core).getD dp (0, 262144)).2

/-- The roles bound to a datapath. -/
def State.boundTo (s : State) (core dp : Nat) : List Nat :=
  (s.roles.filter fun e => e.2.dp == dp && (s.team (teamOf e.1)).resident && s.coreOf e.1 == core).map Prod.fst

/-- Roles have been bound to a datapath: duplicates in the bytes they took are dropped (R57). -/
def State.dropDups (s : State) (core dp : Nat) : State :=
  ((s.boundTo core dp).foldl (fun p rk =>
    let k := (p.1.role rk).lanes.keepDups (s.free + rk) p.2
    (p.1.updRole rk fun r => { r with lanes := k.1 }, k.2)) (s, s.dpRoom core dp)).1

/-- Roles have been bound to datapaths of a core. -/
def State.rebound (s : State) (core : Nat) (dps : List Nat) : State :=
  let u := dps.dedup.foldl (fun t dp => t.dropDups core dp) s
  { u with free := u.free + 1 }

/-- Every command that a role pushed has completed (R170). -/
def Role.queuesDone (r : Role) : Bool :=
  (List.range 6).all fun q =>
    let e := r.eng q
    e.run.isNone && (wholeCmds q (e.todo.length + 1) e.todo).1.isEmpty

/-- A context that R307 wants quiet: it has a resident team, or a command or depot task that is not complete. -/
def State.vfBusy (s : State) (vf : Nat) : Bool :=
  (s.teams.any fun e => e.2.resident && (s.launch (lidOf e.1)).vf == vf)
    || (s.roles.any fun e => s.vfOf e.1 == vf && !e.2.queuesDone) || s.fired.any fun e => e.2.vf == vf

/-- The range registers of a context that is quiet, or becomes busy, are the new ones (R307). -/
def Vf.settleSeg (v : Vf) : Vf :=
  match v.segAlt with
  | none => v
  | some a => { v with segV := a.segV, segI := a.segI, segAlt := none }

/-- A context is about to receive a team (R307). -/
def State.settleVf (s : State) (vf : Nat) : State := if s.vfBusy vf then s else s.updVf vf Vf.settleSeg

/-- A fresh dispatch of a team (R152, R201, R243, R255, R262). -/
def State.startTeam (s : State) (tk core : Nat) (dps : List Nat) : State :=
  let lid := lidOf tk
  let t := tk % 2 ^ 60
  let l := s.launch lid
  let slot := s.freeSlot core
  let m0 := if s.teams.has tk then s.team tk else s.firstTeam lid t core
  let m := m0.begin (l.flag 0) core slot s.nextAge
  let s1 := { s.setTeam tk m with nextAge := s.nextAge + 1 }
  let s2 := dps.zipIdx.foldl (fun u e => u.setRole (roleKey tk e.2) (l.newRole t e.2 e.1)) s1
  let s3 := (s2.updCore core fun c => { c with slots := c.slots.put slot tk }).updLaunch lid fun l => l.dispatched t
  ((s3.rebound core dps).adopt (clusterOf core)).rolesReady tk

/-- A page of a resumed team as the destination core sees it (R216, R217), at its place in that core's table. -/
def SPage.moved (p : SPage) (core idx : Nat) : SPage :=
  { p with kind := if p.kind ≤ 1 then (if p.frameCore = core then 0 else 1) else p.kind, idx := idx }

/-- The vault pages of a team are pushed out before it issues in another cluster (R217). A page whose backing
cannot be written becomes absent. -/
def State.pushAll (s : State) (tk : Nat) : State :=
  ((s.team tk).pages.filter fun e => e.2.inVault).foldl (fun u e =>
    match u.pushOut tk e.1 with
    | (.ok _, u1) => u1
    | _ => (u.dropPage tk e.1).2) s

/-- The entries of a team move to another core's table, at its free places (R203, R217); what does not fit is dropped
(R208). -/
def State.newEntries (s : State) (tk core : Nat) : State :=
  let used := ((s.entriesOn core).filter fun e => e.1 != tk).map fun e => e.2.2.idx
  let free := (List.range 4096).filter fun n => !used.contains n
  let vs := ((s.team tk).pages.filter fun e => e.2.present).map Prod.fst
  let s1 := (vs.drop free.length).foldl (fun u v => (u.dropPage tk v).2) s
  (vs.zip free).foldl (fun u e => u.setPage tk e.1 (((u.team tk).page e.1).moved core e.2)) s1

/-- The pages of a team follow it (R216, R217). What this costs is charged at the core where it resumes (R209, R382). -/
def State.movePages (s : State) (tk core : Nat) : State :=
  let from_ := (s.team tk).core
  let s0 := s.updTeam tk fun t => { t with core := core }
  let s1 := if from_ = core then s0
    else if clusterOf from_ = clusterOf core then s0.newEntries tk core
    else (s0.pushAll tk).newEntries tk core
  s1.updTeam tk fun t => t.setOrph false

/-- A resumed role: its WAITA completes on resumption (R165, R190). -/
def Role.resumed (r : Role) (dp : Nat) : Role :=
  { r.onWaits (fun w => { w with resumed := true }) with dp := dp, readyS := 0, readyL := 0 }

/-- A team resumes on a core (R166, R168, R216, R299). Its age is that of its re-entry, if it was swapped out (R341). -/
def State.resumeTeam (s : State) (tk core : Nat) (dps : List Nat) : State :=
  let s1 := (s.dropSwid tk).movePages tk core
  let slot := s1.freeSlot core
  let age := (s.team tk).entered.getD s1.nextAge
  let s2 := { s1.updTeam tk (fun m => { m with core := core, slot := slot, age := age, phase := .running, entered := none })
    with nextAge := s1.nextAge + 1 }
  let s3 := dps.zipIdx.foldl (fun u e => u.updRole (roleKey tk e.2) fun r => r.resumed e.1) s2
  (((s3.updCore core fun c => { c with slots := c.slots.put slot tk }).rebound core dps).adopt (clusterOf core)).rolesReady tk

/-- A team that resumes on another die: the deltas of its context on the old one are merged, and while one of them waits for
an answer the team does not issue (R346). -/
def State.resumeFrom (s : State) (tk core : Nat) (dps : List Nat) : State :=
  let old := dieOf (s.team tk).core
  let vf := (s.launch (lidOf tk)).vf
  if old = dieOf core then s.resumeTeam tk core dps
  else
    let s1 := s.mergeWhere old fun d => d.vf == vf
    if s1.noneHeldOn old vf then s1.resumeTeam tk core dps else s1

/-- Start or resume a team. -/
def State.dispatchTeam (s : State) (tk core : Nat) (dps : List Nat) : State :=
  let s0 := s.settleVf (s.launch (lidOf tk)).vf
  match (s.team tk).phase with
  | .preempted => s0.resumeFrom tk core dps
  | .swappedOut => s0.resumeFrom tk core dps
  | _ => s0.startTeam tk core dps

/-- A placement fits (R43, R149, R376). -/
def State.placeFits (s : State) (lid core : Nat) (dps : List Nat) : Bool :=
  s.coreOpen lid core && bindingFits (s.launch lid).roleSizes dps (s.coreLoads core)

/-! ## CORESIDENT -/

/-- The most teams, up to `fuel`, that can be bound to a core beside its loads, with their bindings. -/
def bindMany (sizes : List Nat) (ds : List DpLoad) : Nat → List Nat
  | 0 => []
  | n + 1 =>
    match bindFirst ((List.replicate (n + 1) sizes).flatten) ds with
    | some b => b
    | none => bindMany sizes ds n

/-- What a core can take of a launch: the core and the bindings of its roles. -/
def State.coreTakes (s : State) (lid core : Nat) : Nat × List Nat :=
  let l := s.launch lid
  (core, bindMany l.roleSizes (s.coreLoads core)
    (if s.coreOpen lid core then Nat.min (16 - s.slotsUsed core) (16 / Nat.max 1 l.nroles) else 0))

/-- Dies by the number of a launch's roles they can take, most first. -/
def insDie (e : Nat × Nat) : List (Nat × Nat) → List (Nat × Nat)
  | [] => [e]
  | f :: t => if f.2 < e.2 then e :: f :: t else f :: insDie e t

/-- The dies that a launch occupies from its first dispatch on, if the distributor has not chosen others (R376, R380): that of
the dispatch, and up to MAXDIE in all those of the partition's with the most room. -/
def State.firstDies (s : State) (lid die : Nat) : List Nat :=
  let l := s.launch lid
  let takes := (s.ownedCores (s.vf l.vf).part).map (s.coreTakes lid)
  let room (d : Nat) : Nat := ((takes.filter fun e => dieOf e.1 == d).map fun e => e.2.length).sum
  let more := ((((s.ownedDies (s.vf l.vf).part).filter fun d => d != die).map fun d => (d, room d)).foldl
    (fun o e => insDie e o) []).map Prod.fst
  die :: more.take (l.fld 45 1 - 1)

/-- The launch's dies are chosen. -/
def State.chooseDies (s : State) (lid die : Nat) : State :=
  if (s.launch lid).dies.isEmpty then
    let ds := s.firstDies lid die
    s.updLaunch lid fun l => { l with dies := ds }
  else s

/-- Dispatch a CORESIDENT launch's share, the rest of it beside the team just placed; none when they cannot all be
placed (R171, R376). -/
def State.dispatchRest (s : State) (lid : Nat) : Option State :=
  let l := s.launch lid
  let takes := (s.ownedCores (s.vf l.vf).part).map (s.coreTakes lid)
  let slots := takes.flatMap fun e =>
    (List.range (e.2.length / Nat.max 1 l.nroles)).map fun k => (e.1, (e.2.drop (k * l.nroles)).take l.nroles)
  if slots.length < l.undispatched then none
  else some ((slots.take l.undispatched).foldl (fun u e =>
    match (u.launch lid).nextT with
    | some t => u.startTeam (teamKey lid t) e.1 e.2
    | none => u) s)

/-- TEAM_DISPATCH (R152, R168, R171, R376): the placement is the implementation's choice among those that
fit. -/
def execTeamDispatch (tk core : Nat) (dps : List Nat) (s : State) : Res :=
  let lid := lidOf tk
  if !s.mayDispatch tk || !s.placeFits lid core dps then .next s
  else
    let s1 := (s.chooseDies lid (dieOf core)).dispatchTeam tk core dps
    if (s.launch lid).coPending then .next ((s1.dispatchRest lid).getD s) else .next s1

/-! ## Room for a higher level -/

/-- Resident teams of a lower level in the partition (R377). -/
def State.lowerTeams (s : State) (lid : Nat) : List (Nat × Team) :=
  let l := s.launch lid
  s.teams.filter fun e =>
    let m := s.launch (lidOf e.1)
    e.2.resident && (s.vf m.vf).part == (s.vf l.vf).part && decide (l.prio < m.prio)

/-- The team that R377 pre-empts first: the numerically highest level, then the youngest. -/
def State.firstVictim (s : State) : List (Nat × Team) → Option Nat
  | [] => none
  | e :: t =>
    match s.firstVictim t with
    | none => some e.1
    | some k =>
      let a := (s.launch (lidOf e.1)).prio
      let b := (s.launch (lidOf k)).prio
      if b < a ∨ (a = b ∧ (s.team k).age < e.2.age) then some e.1 else some k

/-- A pre-emption of a lower team is under way. -/
def Team.leaving (t : Team) : Bool := t.suspend.isSome || t.grace.isSome

/-- Make room for a ready launch (R377): one team at a time. -/
def State.makeRoom (s : State) (lid : Nat) : State :=
  let vs := s.lowerTeams lid
  if !s.launchActive (s.launch lid) || (s.waitingTeams lid).isEmpty || s.placeable lid || vs.any (fun e => e.2.leaving)
  then s
  else match s.firstVictim vs with
    | none => s
    | some k =>
      (s.updTeam k fun t => t.request 5 (s.launch (lidOf k)).graceTicks .preempted false).settleTeam k

/-- LAUNCH_READY (R375, R377): the dependences of an accepted launch hold, and room is made for it. -/
def execLaunchReady (lid : Nat) (s : State) : Res := .next ((s.tryReady lid).makeRoom lid)

/-- DEP_TOKEN_RETRY (R375): the tokens are read again. -/
def execDepTokenRetry (lid : Nat) (s : State) : Res := .next (s.tryReady lid)

/-! ## Retirement and completion -/

/-- A team can retire (R170). -/
def State.canRetire (s : State) (tk : Nat) : Bool :=
  let t := s.team tk
  t.live && t.phase != .queued && s.teams.has tk && !t.txOpen
    && (s.rolesOf tk).all fun rk => (s.role rk).finished && (s.role rk).queuesDone

/-- What is left of a retired team (R170, R218, R299). -/
def Team.retire (t : Team) : Team :=
  { t with phase := .retired, scratch := [], full := [], pages := [], vbad := [], logBad := [], chans := [], lease := none, service := [],
           grace := none, suspend := none }

/-- TEAM_RETIRE (R170, R218, R299, R383). The backing area keeps the bytes that it holds: R218 leaves its contents after the
retirement unspecified (DESIGN CHOICE, log 76). -/
def execTeamRetire (tk : Nat) (s : State) : Res :=
  if !s.canRetire tk then .next s
  else
    let core := (s.team tk).core
    let s1 := ((s.evictTeam tk).dropSwid tk).updTeam tk Team.retire
    let s2 := s1.updLaunch (lidOf tk) fun l => { l with retired := l.retired + 1 }
    .next ((s2.postMeter core (s.launch (lidOf tk)).vf).adopt (clusterOf core))

/-- It is known which teams of a gang this package runs (R414). -/
def Launch.settled (l : Launch) : Bool :=
  match l.share with
  | none => true
  | some g => g.decided && (g.fenced.isEmpty || g.takeover)

/-- Teams of the launch run, or have run; of a share without teams, it has started (R411). -/
def Launch.underWay (l : Launch) : Bool :=
  l.phase == .running || (l.phase == .ready && l.ownTeams == 0 && ((l.share.map GangShare.started).getD false))

/-- Every team that the package runs has retired (R378, R415). -/
def Launch.allRetired (l : Launch) : Bool :=
  l.settled && l.undispatched == 0 && l.requeue.isEmpty && l.retired == l.shareN

/-- The launch is complete, and its end is reported (R378, R389). -/
def State.finishLaunch (s : State) (lid : Nat) (bad : Bool) : State :=
  let l := s.launch lid
  { s.updLaunch lid (fun l => { l with phase := if bad then .failed else .complete })
    with outbox := s.outbox ++ [.launchDone l.vf lid bad] }

/-- The record of a completion-token add: PAGE, or MCHECK at a lost line (R336, R378). -/
def doneInfo (c : Code) (sub va pa : Nat) : RecInfo :=
  { code := c, sub := sub, flags := 2, team := .ones, role := 0xFF, queue := 0xFF, pc := 0, va := va,
    pa := pa, lanes := 0 }

/-- The add waits for the answer to its record (R378). -/
def State.doneFault (s : State) (lid : Nat) (i : RecInfo) : State :=
  let id := s.nextRec % 2 ^ 32
  (s.addRec (s.launch lid).vf i none).updLaunch lid fun l => { l with waitRec := some id }

/-- The bytes and the packet of an add of 8 bytes at a home, charged to a context at the meter that stands for no core (R382,
log 27). -/
def State.chargeAdd (s : State) (vf : Nat) : State := s.charge 480 vf 2848

/-- The DONETOK add, and the completion (R320, R378). At a lost line it waits for the answer to a machine check, as at a page
fault for its own (log 75). -/
def State.doneAdd (s : State) (lid : Nat) : State :=
  let l := s.launch lid
  let a := l.fld 208 8
  if a = 0 || l.dropped then s.finishLaunch lid false
  else match s.xlat l.vf a 8 true with
    | .ok x => ((s.tokenAdd noCluster x (l.fld 216 8)).chargeAdd l.vf).finishLaunch lid false
    | .page sub ia => s.doneFault lid (doneInfo .page sub a ia)
    | .mcheck pa => s.doneFault lid (doneInfo .mcheck (s.lostSub pa) a pa)
    | _ => s.finishLaunch lid false

/-! ## Messages between the chips of a gang -/

/-- Change a launch's share. -/
def State.updShare (s : State) (lid : Nat) (f : GangShare → GangShare) : State :=
  s.updLaunch lid fun l => { l with share := l.share.map f }

/-- Send a gang message. -/
def State.sendGang (s : State) (gang rank : Nat) (m : GangMsg) : State :=
  { s with outbox := s.outbox ++ [.gang gang rank m] }

/-- Send a gang message to some ranks. -/
def State.sendRanks (s : State) (gang : Nat) (ranks : List Nat) (m : GangMsg) : State :=
  ranks.foldl (fun t r => t.sendGang gang r m) s

/-- The other participants of a gang launch. -/
def GangShare.others (g : GangShare) : List Nat := g.parts.filter fun c => c != g.rank

/-- A chip that goes on without fenced ones tells the others once it has dispatched its own share (R414, log 27). -/
def State.tellSpread (s : State) (lid : Nat) (g : GangShare) : State :=
  if g.toldSpread then s
  else (s.sendRanks g.gang g.others .spread).updShare lid fun g => { g with toldSpread := true }

/-- In a launch without stages, the teams of fenced chips are taken over once every participant has dispatched its own share
(R414). -/
def State.spreadShare (s : State) (lid : Nat) : State :=
  let l := s.launch lid
  match l.share with
  | none => s
  | some g =>
    if !g.decided || !g.started || g.fenced.isEmpty || l.flag 3 || decide (l.next < l.ownTeams) then s
    else
      let s1 := s.tellSpread lid g
      if g.others.all g.spread.contains then s1.updShare lid fun g => { g with takeover := true } else s1

/-- A number of stages above every stage (R379): a chip whose teams have all retired has arrived at each of them. -/
def stagesAll : Nat := 2 ^ 32

/-- A chip tells the other participants of a staged launch up to which stage its teams have arrived; the messages are charged
to the launch's VF as a packet each (R382, R415, log 27). -/
def State.tellStage (s : State) (lid n : Nat) : State :=
  let l := s.launch lid
  match l.share with
  | none => s
  | some g =>
    if !g.decided || !l.flag 3 || decide (n ≤ g.toldStage) then s
    else
      ((s.sendRanks g.gang g.others (.stage (n - 1))).charge 480 l.vf (800 * g.others.length)).updShare lid fun g =>
        { g with toldStage := n }

/-- LAUNCH_COMPLETE (R346, R378, R415): every team has retired; the deltas of the context are merged once, and then the
completion token is added to. -/
def execLaunchComplete (lid : Nat) (s : State) : Res :=
  let s0 := s.spreadShare lid
  let l := s0.launch lid
  let s1 := if l.underWay && l.allRetired then
      ((s0.tellStage lid stagesAll).mergeAll l.vf).updLaunch lid fun l => { l with phase := .merged }
    else s0
  if (s1.launch lid).phase = .merged && l.waitRec.isNone && s1.noneHeld l.vf then .next (s1.doneAdd lid)
  else .next s1

/-! ## Stages -/

/-- A team has arrived at the stage (R200): each role has relayed or finished. A team that is gone has
arrived. -/
def State.arrived (s : State) (e : Nat × Team) : Bool :=
  !e.2.live || (s.rolesOf e.1).all fun rk => (s.role rk).relayed || (s.role rk).finished

/-- The teams of a launch that have been dispatched. -/
def State.launchTeams (s : State) (lid : Nat) : List (Nat × Team) := s.teams.filter fun e => lidOf e.1 == lid

/-- Every team of this package has arrived at the stage (R379, R415). -/
def State.stageHere (s : State) (lid : Nat) : Bool :=
  let l := s.launch lid
  l.flag 3 && l.underWay && l.undispatched == 0 && l.requeue.isEmpty && (s.launchTeams lid).all s.arrived

/-- Every team of the stage has arrived, on every participant (R379, R415). -/
def State.stageDone (s : State) (lid : Nat) : Bool :=
  let l := s.launch lid
  s.stageHere lid && match l.share with
    | some g => g.decided && g.others.all fun c => decide (l.stage < g.stages.get 0 c)
    | none => (s.launchTeams lid).any fun e => (s.rolesOf e.1).any fun rk => (s.role rk).relayed

/-- A role continues after its RELAY (R200, R379). -/
def State.passRelay (s : State) (rk : Nat) : State :=
  if (s.role rk).relayed then
    (s.advance rk 4).updRole rk fun r => { r with relayed := false, stage := r.stage + 1 }
  else s

/-- At a relay point the teams of fenced packages are taken over (R414). -/
def Launch.relayPoint (l : Launch) : Launch :=
  { l with stage := l.stage + 1,
           share := l.share.map fun g => { g with takeover := g.takeover || !g.fenced.isEmpty } }

/-- Dies that a launch may occupy (R376, R380): of its partition, between MINDIE and MAXDIE in number. -/
def State.diesOk (s : State) (lid : Nat) (dies : List Nat) : Bool :=
  let l := s.launch lid
  decide dies.Nodup && dies.all (fun d => (s.ownedDies (s.vf l.vf).part).contains d)
    && decide (l.fld 44 1 ≤ dies.length) && decide (dies.length ≤ l.fld 45 1)

/-- Teams that a change of the dies migrates (R168, R380): those on a die that is withdrawn, and, where a die is added, others
that the distributor names. -/
def State.diesMove (s : State) (lid : Nat) (dies teams : List Nat) : List Nat :=
  let added := dies.any fun d => !(s.launch lid).dies.contains d
  ((s.launchTeams lid).filter fun e =>
    e.2.resident && (!dies.contains (dieOf e.2.core) || (added && teams.contains e.1))).map Prod.fst

/-- The distributor chooses the dies of a launch (R380): before its first dispatch, or at a relay point, where teams are
pre-empted to resume on the dies that remain. -/
def State.setDies (s : State) (lid : Nat) (dies teams : List Nat) : State :=
  let l := s.launch lid
  let put := s.updLaunch lid fun l => { l with dies := dies }
  if !s.launches.has lid || !s.diesOk lid dies then s
  else if l.dies.isEmpty then put
  else if s.stageDone lid then
    (s.diesMove lid dies teams).foldl (fun u k =>
      (u.updTeam k fun t => t.request 5 l.graceTicks .preempted false).settleTeam k) put
  else s

/-- STAGE_COMPLETE (R346, R379, R380, R415): once this package's teams have arrived, the other participants of a gang are told;
once all have, the merges come first, and with none of them waiting every RELAY completes. -/
def execStageComplete (lid : Nat) (s : State) : Res :=
  let s0 := if s.stageHere lid then s.tellStage lid ((s.launch lid).stage + 1) else s
  if !s0.stageDone lid then .next s0
  else
    let vf := (s0.launch lid).vf
    let s1 := s0.mergeAll vf
    if !s1.noneHeld vf then .next s1
    else
      let rks := (s1.launchTeams lid).flatMap fun e => if e.2.live then s1.rolesOf e.1 else []
      .next ((rks.foldl State.passRelay s1).updLaunch lid Launch.relayPoint)

/-! ## Recovery and failure -/

/-- A role is stopped by a machine check that has no answer (R337, R385). -/
def State.checked (s : State) (rk : Nat) : Bool :=
  match (s.role rk).stopped with
  | some id => (s.vf (s.vfOf rk)).recs.any fun r => r.recid == id && r.code == codeNum .mcheck
  | none => false

/-- The die link of a die is down (R335, R385). -/
def State.linkLost (s : State) (die : Nat) : Bool := s.linkDown.get false die

/-- The teams of a launch that an unrecoverable fault affects (R385, R386; log 26). -/
def State.affected (s : State) (lid : Nat) : List Nat :=
  ((s.launchTeams lid).filter fun e =>
    e.2.live && ((e.2.resident && s.linkLost (dieOf e.2.core)) || (s.rolesOf e.1).any s.checked)).map Prod.fst

/-- What a discarded team of a RESTART launch keeps (R385). -/
def Team.restarted (t : Team) : Team := { t.discarded with phase := .queued, cyclic := 0, cyclicRec := false }

/-- A team of a RESTART launch is discarded and will be dispatched again from its entry (R385). -/
def State.restartTeam (s : State) (tk : Nat) : State :=
  let t := s.team tk
  let s1 := (((s.settleCmds tk).evictTeam tk).dropSwid tk).updTeam tk Team.restarted
  let s2 := s1.updLaunch (lidOf tk) fun l => { l with requeue := l.requeue ++ [t.t] }
  (s2.postMeter t.core (s.launch (lidOf tk)).vf).adopt (clusterOf t.core)

/-- A team is killed with the launch, and a record says so (R386). -/
def State.failTeam (s : State) (tk : Nat) : State :=
  let info : RecInfo := { (s.roleInfo (roleKey tk 0) false .failed 0 0 0 0 false) with role := 0xFF, pc := 0 }
  (s.addRec (s.launch (lidOf tk)).vf info none).killTeam tk

/-- Recovery of a launch that a fault affects (R385, R386): uncommitted transactions are aborted, teams of a RESTART
launch are discarded and dispatched again, and other affected teams are killed, each with its record. Teams that have
committed stand, and a team at its commit point commits. -/
def State.recover (s : State) (lid : Nat) : State :=
  let l := s.launch lid
  let aff := s.affected lid
  if aff.isEmpty then s
  else if l.flag 0 then
    ((s.launchTeams lid).filter fun e => e.2.resident && e.2.abortable).foldl (fun u e => u.abortTeam e.1 4) s
  else if l.flag 2 then
    ((s.launchTeams lid).filter fun e => e.2.live && e.2.phase != .queued).foldl (fun u e => u.restartTeam e.1) s
  else aff.foldl State.failTeam s

/-- A bit of the completion map (R387). -/
def State.mapBit (s : State) (lid t : Nat) : Bool :=
  let m := s.team (teamKey lid t)
  m.phase == .retired || (m.committed && (s.launch lid).flag 0)

/-- Write the completion map (R387): a part that cannot be written is skipped. -/
def State.writeResmap (s : State) (lid : Nat) : State :=
  let l := s.launch lid
  let a := l.fld 240 8
  if a = 0 then s
  else (List.range ((l.teamsN + 7) / 8)).foldl (fun u k =>
    let b := (List.range 8).foldl (fun n j => n + b2n (decide (8 * k + j < l.teamsN) && s.mapBit lid (8 * k + j)) * 2 ^ j) 0
    match u.xlat l.vf (a + k) 1 true with
    | .ok x => u.homeWriteX x [BitVec.ofNat 8 b]
    | _ => u) s

/-- No team of the launch is left, and some were killed (R386). -/
def Launch.spent (l : Launch) : Bool :=
  l.open_ && l.settled && l.undispatched == 0 && l.requeue.isEmpty && decide (0 < l.killed) && decide (l.shareN ≤ l.retired + l.killed)

/-- FAILED (R385 to R387): recovery from a fault that cannot be served; and a launch that has lost teams fails
once no team is left, with its completion map written first. -/
def execFailed (lid : Nat) (s : State) : Res :=
  let s1 := if (s.launch lid).open_ then s.recover lid else s
  if (s1.launch lid).spent then .next ((s1.writeResmap lid).finishLaunch lid true) else .next s1

end Sys2Proof.Machine
end

