-- ==== Sys2Proof/Machine/Fares.lean ====
section
/-! DEFINITION. Postings of fares, shared costs and quota refills (R382 to R384). -/

namespace Sys2Proof.Machine
open Sys2Proof

/-- FARE_POST (R383, R384): at every ref tick that is a multiple of 256 a core's meter posts to each context. -/
def execFarePost (core : Nat) (s : State) : Res :=
  if s.refTick.toNat % 256 ≠ 0 then .next s
  else .next (((s.core core).meter.keys.foldl (fun t vf => t.postMeter core vf) s).settle)

/-- The static cost of a core for an interval that falls to a context: in proportion to its resident ref ticks there
(R382). -/
def Core.staticShare (c : Core) (cost vf : Nat) : Nat := cost * c.stay.get 0 vf / Nat.max 1 (c.stay.map Prod.snd).sum

/-- An address lies in a segment of memory of this package (R304, R305). -/
def Vf.reachesIa (v : Vf) (ia : Nat) : Bool :=
  (List.range 8).any fun j =>
    let a := (v.segV.get 0 j).toNat
    let i := (v.segI.get 0 j).toNat
    segValid a i && fieldOf a 2 2 == 0 && ia / 2 ^ fieldOf a 10 6 == fieldOf i 16 36 * 2 ^ 16 / 2 ^ fieldOf a 10 6

/-- The page tables of a partition map an address. -/
def State.mapped (s : State) (part ia : Nat) : Bool := match s.tableWalk part ia false with | .page _ => true | _ => false

/-- The 64 KiB pages that a VF owns (R382): those of its segments that its partition's tables map (log 12). -/
def State.ownedPages (s : State) (vf : Nat) : Nat :=
  let v := s.vf vf
  ((s.part v.part).dieMap.keys.map fun r => ((rangeFrom (2 ^ 20 * r) (2 ^ 20)).filter fun k =>
    v.reachesIa (2 ^ 16 * k) && s.mapped v.part (2 ^ 16 * k)).length).sum

/-- The pages that the VFs of a partition own. -/
def State.pagesOwned (s : State) (part : Nat) : Nat :=
  ((s.vfs.filter fun e => e.2.part == part).map fun e => s.ownedPages e.1).sum

/-- The shared cost of one VF for a 1 ms interval: its part of the HBM refresh cost, in proportion to the pages it owns, and of
the static cost of the cores where it had teams (R382). -/
def State.sharedCost (s : State) (vf : Nat) : Nat :=
  let part := (s.vf vf).part
  Config.refreshFare part s.free * s.ownedPages vf / Nat.max 1 (s.pagesOwned part)
    + (s.cores.map fun e => e.2.staticShare (Config.staticFare e.1 s.free) vf).sum

/-- The shared cost of one VF for a 1 ms interval is posted (R382, R383). -/
def State.postShared (s : State) (vf : Nat) : State :=
  let n := BitVec.ofNat 64 (s.sharedCost vf)
  let s1 := s.updVf vf fun v =>
    { v with fareBal := v.fareBal - n, fareTot := v.fareTot + n, fareSh := v.fareSh + n }
  if (s1.vf vf).fareBal.toInt ≤ 0 && !(s1.vf vf).exhausted then
    (s1.updVf vf fun v => { v with exhausted := true }).requestVf vf 6
  else s1

/-- SHARED_FARE_POST (R382, R383): the end of a 1 ms interval. What no context caused, unowned idle time and scrubbing, goes to
the overhead accounts of the partitions. -/
def execSharedFarePost (s : State) : Res :=
  if s.refTick.toNat = 0 ∨ s.refTick.toNat % 1000000 ≠ 0 then .next s
  else
    let s1 := s.vfs.keys.foldl State.postShared s
    let s2 := s1.parts.keys.foldl (fun u k => u.updPart k fun p => { p with overhead := p.overhead + Config.overheadFare k s.free }) s1
    let s3 := s2.cores.keys.foldl (fun u k => u.updCore k fun c => { c with stay := [] }) s2
    .next { s3 with free := s3.free + 1 }.settle

/-- FAREADD (R383, R384, R395): the amount written, µJ times 10^6, which is pJ, is added to the balance; a positive balance ends
the exhaustion. -/
def execFareadd (vf : Nat) (amount : W64) (s : State) : Res :=
  let s1 := s.updVf vf fun v => { v with fareBal := v.fareBal + amount }
  .next (if 0 < (s1.vf vf).fareBal.toInt then s1.updVf vf fun v => { v with exhausted := false } else s1)

end Sys2Proof.Machine
end

