-- ==== Sys2Proof/Machine/ScaleOut.lean ====
section
/-! DEFINITION. The scale-out engine (R399 to R410): RWR, RRD, RSIG and POST, their replies, posts that fire, and inbound
segments. A command is named by its role, or by the number of the firing (log 27). -/

namespace Sys2Proof.Machine
open Sys2Proof

/-! ## Peers -/

/-- The end point of a peer: what its register says, in the table of fabric end points (R400). -/
def State.peerFep (s : State) (vf peer : Nat) : Nat := s.feps.get 0 (fieldOf ((s.vf vf).peers.get 0 peer).toNat 0 24)

/-- PEER names a valid peer with ports (R400, R403). -/
def peerOk (p : W64) : Bool := p.getLsbD 63 && fieldOf p.toNat 54 8 != 0

/-- Traffic with the peer is disabled by a fence (R414). -/
def State.peerFenced (s : State) (vf peer : Nat) : Bool := (s.vf vf).fenced.contains peer

/-- Something has lasted for 1,000,000 ref ticks. -/
def State.longSince (s : State) (t : Option Nat) : Bool :=
  match t with
  | some n => decide (n + 1000000 ≤ s.refTick.toNat)
  | none => false

/-- No allowed port has reached the peer for 1,000,000 ref ticks (R403): each of them is down, or does not reach it. -/
def State.peerLost (s : State) (vf peer : Nat) : Bool :=
  let ps := fieldOf ((s.vf vf).peers.get 0 peer).toNat 54 8
  ((List.range 8).filter (bitOf ps)).all fun n =>
    s.longSince (s.ports.get none n) || s.longSince ((s.vf vf).unreached.get none (8 * peer + n))

/-! ## The frame of a command -/

/-- The fields that every scale-out command has (R401). -/
def remTail : Instr → Option RemTail
  | .rwr x => some x.tail | .rrd x => some x.tail | .rsig x => some x.tail | .post x => some x.tail | _ => none

/-- The peer of a command. -/
def Cmd.peer (c : Cmd) : Nat := ((c.instr.bind remTail).map RemTail.peer).getD 0

/-- The command has its status and DONE; one that fails after it has been sent closes its delivery context first (R403). -/
def State.soEnd (s : State) (id status done : Nat) : State :=
  let c := (s.cmdOf id 4).getD Cmd.empty
  let s1 := if status = 0 || c.sent.isNone || s.peerFenced (s.cmdVf id) c.peer then s
    else { s with outbox := s.outbox ++ [.close (s.peerFep (s.cmdVf id) c.peer) c.msg] }
  s1.cmdEnd id 4 status done

/-- The frame of a scale-out command. -/
def soOp (s : State) (k : Nat → Cmd → Res) : Res :=
  engineOp s fun id q c => if q ≠ 4 then .fault .wrongAgent else k id c

/-- Charge payload bytes to the pushing or posting context (R410). -/
def State.soCharge (s : State) (id n : Nat) : State :=
  if n = 0 then s
  else if s.hasRole (s.actor id) then s.chargeTeam (teamOf (s.actor id)) (240 * n) else s.charge 480 (s.cmdVf id) (240 * n)

/-! ## Ranges -/

/-- The pieces of a byte range within 4,096-byte-aligned blocks: address and length (R399). -/
def blocksOf (a n : Nat) : List (Nat × Nat) :=
  (rangeFrom (a / 4096) (if n = 0 then 0 else (a + n - 1) / 4096 - a / 4096 + 1)).map fun b =>
    let lo := Nat.max a (4096 * b)
    (lo, Nat.min (a + n) (4096 * (b + 1)) - lo)

/-- A local range, by its pieces within 4,096-byte blocks. -/
def localAccs (scr write : Bool) (a n : Nat) : List Acc :=
  (blocksOf a n).map fun b => ⟨locSpace scr, b.1, b.2, write⟩

/-- Bytes of segment `k` of a payload that goes to a remote address (R399). -/
def segBytes (raddr : Nat) (bs : List Byte) (k : Nat) : List Byte :=
  match (blocksOf raddr bs.length)[k]? with
  | some b => (bs.drop (b.1 - raddr)).take b.2
  | none => []

/-! ## Sending -/

/-- A segment of a command as it leaves for the peer's end point (R399, R400). -/
def State.segOut (s : State) (id seg : Nat) (c : Cmd) (i : Instr) (bs : List Byte) : OutMsg :=
  .segment (s.peerFep (s.cmdVf id) c.peer) (fieldOf ((s.vf (s.cmdVf id)).peers.get 0 c.peer).toNat 24 24) c.msg seg i bs

/-- Send the `n` segments of a command (R399, R404, R405). Traffic to a fenced peer is not sent (R414). -/
def State.sendAll (s : State) (id n : Nat) (i : Instr) (raddr : Nat) (bs : List Byte) : State :=
  let s1 := { s.updCmd id 4 (fun c => { c with sent := some s.refTick.toNat, payload := bs, msg := s.nextPost }) with
    nextPost := s.nextPost + 1 }
  let c := (s1.cmdOf id 4).getD Cmd.empty
  if s.peerFenced (s.cmdVf id) c.peer then s1
  else { s1.soCharge id bs.length with
    outbox := s1.outbox ++ (List.range n).map fun k => s1.segOut id k c i (segBytes raddr bs k) }

/-- The token wait and the peer's checks of a command, before anything is read or sent (R272, R403). -/
def State.soStart (s : State) (id : Nat) (c : Cmd) (t : RemTail) (k : State → Res) : Res :=
  if c.prog.begun then k s
  else
    let go (s : State) : Res :=
      if peerOk ((s.vf (s.cmdVf id)).peers.get 0 t.peer) then k s else .next (s.soEnd id 16 0)
    match t.wt with
    | none => go s
    | some (a, v) =>
      if !c.waiting then go s
      else match s.tokenAt (s.cmdVf id) a.toNat v.toNat with
        | .ready => go (s.updCmd id 4 fun c => { c with waiting := false })
        | .wait => .next s
        | .status n => .next (s.soEnd id n 0)
        | .page sub ia => .next (s.cmdPage id 4 sub a.toNat ia)

/-! ## Replies -/

/-- The CT add of a command that has status 0, and its end (R320, R401, R403). -/
def State.soFinish (s : State) (id : Nat) (ct : Option (W64 × W64)) (done : Nat) : State :=
  match ct with
  | none => s.soEnd id 0 done
  | some (a, v) =>
    let t : Acc := ⟨.glob, a.toNat, 8, true⟩
    match s.toIa (s.cmdVf id) a.toNat 8 with
    | .ia _ =>
      if a.toNat % 8 ≠ 0 then s.soEnd id 4 0
      else if s.accWaits id 4 t then s.stallAll (.queue (s.actor id) 4) (s.moveTransfers (s.actor id) [t])
      else (match s.xlat (s.cmdVf id) a.toNat 8 true with
        | .ok x => ((s.tokenAdd noCluster x v.toNat).chargeMove id 4 true none t).soEnd id 0 done
        | .page sub ia => s.cmdPage id 4 sub a.toNat ia
        | .mcheck _ => s.soEnd id 7 0
        | _ => s.soEnd id 3 0)
    | _ => s.soEnd id 3 0

/-- The plan of an RRD's local writes. -/
def rrdPlan (x : RrdCmd) : Plan := ⟨[], localAccs x.lscr true x.laddr.toNat x.len, [], false⟩

/-- One local write of an RRD (R211, R336, R404). -/
def rrdPut (id : Nat) (x : RrdCmd) (s : State) (_i : Nat) (w : CopyW) : Option State :=
  s.copyWrite (s.actor id) (rrdPlan x).writes [] w

/-- The local writes of an RRD (R317, R328, R336, R404), as many as the pace lets it; then its end. -/
def State.rrdWrite (s : State) (id : Nat) (x : RrdCmd) (bs : List Byte) : Res :=
  let go (s : State) : Res :=
    s.runCourse id 4 (rrdCourse x bs) (rrdPut id x) fun s =>
      .next (if (s.prog id 4).bad then s.soEnd id 7 0 else s.soFinish id x.tail.ct x.len)
  if (s.prog id 4).begun then go s
  else match s.planFails (s.actor id) (rrdPlan x) true with
    | some st => .next (s.soEnd id st 0)
    | none => go (s.beginCmd id 4 (rrdPlan x) true 0)

/-- The peer's reply has come: a status other than 0 is the command's; then its local writes and its CT add
(R403). -/
def State.soReply (s : State) (id : Nat) (i : Instr) (status : Nat) (data : List Byte) : Res :=
  if status ≠ 0 then .next (s.soEnd id status 0)
  else match i with
    | .rwr x => .next (s.soFinish id x.tail.ct x.len)
    | .rrd x => s.rrdWrite id x data
    | .rsig x => .next (s.soFinish id x.tail.ct 0)
    | _ => .next s

/-- Start a command, wait for its reply, or go on once it has come. -/
def State.soRun (s : State) (id : Nat) (c : Cmd) (i : Instr) (start : State → Res) : Res :=
  match c.reply with
  | some (st, data) => s.soReply id i st data
  | none => if c.sent.isSome then .next s else start s

/-! ## The commands -/

/-- The local range of a command is legal, or it fails with ADDRESS before anything is sent (R133, R402). -/
def State.soBegin (s : State) (id : Nat) (as : List Acc) (k : State → Res) : Res :=
  if (s.prog id 4).begun then k s
  else if as.all (s.accLegal (s.actor id)) then k (s.updProg id 4 fun g => { g with begun := true })
  else .next (s.soEnd id 3 0)

/-- RWR (R317, R403, R404): the local bytes are read, as many accesses at a time as the pace lets it, and then sent. -/
def execRwr (x : RwrCmd) (s : State) : Res :=
  soOp s fun id c => s.soRun id c (.rwr x) fun s => s.soStart id c x.tail fun s =>
    s.soBegin id (localAccs x.lscr false x.laddr.toNat x.len) fun s =>
      s.runCourse id 4 (rwrCourse x) (fun _ _ _ => none) fun s =>
        let g := s.prog id 4
        if g.bad then .next (s.soEnd id 7 0)
        else .next (s.sendAll id (blocksOf x.raddr.toNat x.len).length (.rwr x) x.raddr.toNat g.got.flatten)

/-- RRD (R403, R404): the requests are sent; the local range is checked first. -/
def execRrd (x : RrdCmd) (s : State) : Res :=
  soOp s fun id c => s.soRun id c (.rrd x) fun s => s.soStart id c x.tail fun s =>
    s.soBegin id (localAccs x.lscr true x.laddr.toNat x.len) fun s =>
      .next (s.sendAll id (blocksOf x.raddr.toNat x.len).length (.rrd x) x.raddr.toNat [])

/-- RSIG (R402, R403, R405): sent once its address is a multiple of 8. -/
def execRsig (x : RsigCmd) (s : State) : Res :=
  soOp s fun id c => s.soRun id c (.rsig x) fun s =>
    if x.raddr.toNat % 8 ≠ 0 then .next (s.soEnd id 4 0)
    else s.soStart id c x.tail fun s => .next (s.sendAll id 1 (.rsig x) 0 [])

/-! ## Posts -/

/-- POSTFAULT (R407). -/
def postInfo (caddr : Nat) : RecInfo :=
  { code := .postfault, sub := 0, flags := 2, team := .ones, role := 0xFF, queue := 4, pc := 0, va := caddr,
    pa := 0, lanes := 0 }

/-- A token of a command gives no ADDRESS and no MISALIGN. -/
def State.tokenLegal (s : State) (vf : Nat) : Option (W64 × W64) → Bool
  | none => true
  | some (a, _) => a.toNat % 8 == 0 && (match s.toIa vf a.toNat 8 with | .ia _ => true | _ => false)

/-- A local range of a fired command gives no ADDRESS. -/
def State.rangeLegal (s : State) (vf rk : Nat) (as : List Acc) : Bool :=
  as.all fun c =>
    match c.sp with
    | .scr => s.hasRole rk && s.legalScratch (teamOf rk) c.addr c.n
    | _ => (match s.toIa vf c.addr c.n with | .ia _ => true | _ => false)

/-- A block that may fire (R407): an RWR, RRD or RSIG that would give no ADDRESS or MISALIGN, its tokens included. -/
def State.mayFire (s : State) (vf rk : Nat) (i : Instr) : Bool :=
  (match i with
   | .rwr x => s.rangeLegal vf rk (localAccs x.lscr false x.laddr.toNat x.len)
   | .rrd x => s.rangeLegal vf rk (localAccs x.lscr true x.laddr.toNat x.len)
   | .rsig x => x.raddr.toNat % 8 == 0
   | _ => false)
    && (match remTail i with | some t => s.tokenLegal vf t.wt && s.tokenLegal vf t.ct | none => false)

/-- What a firing of a post leaves of it in the list: it is freed after its last one (R406). -/
def PostRec.counted (p q : PostRec) : Option PostRec :=
  if q.handle = p.handle then (if q.got + 1 < q.need then some { q with got := q.got + 1 } else none) else some q

/-- A firing whose block faults (R407): it performs nothing, POSTFAULT is written, and the post is freed. -/
def State.postFault (s : State) (id : Nat) : State :=
  let f := s.fired.get Fired.empty id
  let s1 := (s.addRec f.vf (postInfo f.caddr.toNat) none).updVf f.vf fun v =>
    { v with posts := v.posts.filter fun q => q.handle != f.handle }
  { s1 with fired := s1.fired.erase id }

/-- The words of a firing's block are there: its command begins, or the firing faults (R407). -/
def State.fireBlock (s : State) (id : Nat) (ws : List W64) : State :=
  let f := s.fired.get Fired.empty id
  match decodeCmd 4 ws with
  | some i => if s.mayFire f.vf f.rk i then s.updCmd id 4 fun c => { c with instr := some i, waiting := (waitOf i).isSome } else s.postFault id
  | none => s.postFault id

/-- A firing reads its block, a header and its words, which lie in one line, in the posting context (R407). At a page fault it
stalls as an engine's access does (R311); a lost line ends it, since its completion word is discarded (log 27). -/
def State.readBlock (s : State) (id : Nat) : State :=
  let f := s.fired.get Fired.empty id
  let a := f.caddr.toNat
  let t (n : Nat) : Acc := ⟨.glob, a, n, false⟩
  if s.accWaits id 4 (t 8) then s.stallAll (.queue f.rk 4) (s.moveTransfers f.rk [t 8])
  else match s.xlat f.vf a 8 false with
    | .page sub ia => s.cmdPage id 4 sub a ia
    | .mcheck _ => s.cmdEnd id 4 7 0
    | .ok x =>
      let n := cmdLen 4 (BitVec.ofNat 64 (leNat (s.loadX x)))
      (match s.xlat f.vf a (8 * n) false with
       | .ok y =>
         let bs := s.loadX y
         (s.chargeMove id 4 false none (t (8 * n))).fireBlock id
           ((List.range n).map fun k => BitVec.ofNat 64 (leNat ((bs.drop (8 * k)).take 8)))
       | _ => s.postFault id)
    | _ => s.postFault id

/-- One firing of a post (R406, R407). -/
def State.fire (s : State) (vf : Nat) (p : PostRec) : State :=
  let id := s.nextPost
  let s0 := s.settleVf vf
  let s1 := { s0 with fired := s0.fired.put id ⟨vf, p.rk, p.handle, p.caddr, Cmd.empty⟩, nextPost := id + 1 }
  (s1.updVf vf fun v => { v with posts := v.posts.filterMap p.counted }).readBlock id

/-- An arrival fires the oldest post with its tag, or joins the unexpected list; none when that is full
(R406). -/
def State.arrive (s : State) (vf : Nat) (mtag : W32) : Option State :=
  match (s.vf vf).posts.find? fun p => p.mtag == mtag with
  | some p => some (s.fire vf p)
  | none =>
    if 1024 ≤ (s.vf vf).unexpected.length then none
    else some (s.updVf vf fun v => { v with unexpected := v.unexpected ++ [mtag] })

/-- The post is armed; the oldest unexpected arrival with its tag fires it at once (R406). -/
def State.consume (s : State) (vf : Nat) (p : PostRec) : State :=
  if (s.vf vf).unexpected.contains p.mtag then
    (s.updVf vf fun v => { v with unexpected := v.unexpected.erase p.mtag }).fire vf p
  else s

/-- A POST arms its entry; the command keeps the handle (R406). -/
def State.armPost (s : State) (rk : Nat) (x : PostCmd) : State :=
  let vf := s.vfOf rk
  let h := s.nextPost % 2 ^ 40
  let p : PostRec :=
    { handle := BitVec.ofNat 64 h, rk := rk, mtag := x.mtag, need := x.count, got := 0, caddr := x.caddr, ev := x.tail.ev }
  let s1 := { s.updVf vf (fun v => { v with posts := v.posts ++ [p] }) with nextPost := s.nextPost + 1 }
  (s1.updCmd rk 4 fun c => { c with msg := h, prog := { c.prog with begun := true } }).consume vf p

/-- POST (R403, R406): it completes at arming, with its handle. -/
def execPost (x : PostCmd) (s : State) : Res :=
  soOp s fun rk c =>
    if rk < firstRole then .fault .wrongAgent
    else s.cmdWait rk 4 c x.tail.wt fun s =>
      if c.prog.begun then .next (s.soFinish rk x.tail.ct c.msg)
      else if 4096 ≤ (s.vf (s.vfOf rk)).posts.length then .next (s.cmdEnd rk 4 17 0)
      else .next ((s.armPost rk x).soFinish rk x.tail.ct (s.nextPost % 2 ^ 40))

/-! ## Replies and timeouts -/

/-- A completed command's word is produced (R403). -/
def State.soComplete (s : State) (id : Nat) : State := if id < firstRole then s else s.completeCmd id 4

/-- SCALEOUT_COMPLETE (R403, R404, R414): the peer's reply arrives, with the bytes of a read; the command's local writes and
its CT add are made, and its completion word is produced. -/
def execScaleoutComplete (id status : Nat) (data : List Byte) (s : State) : Res :=
  match s.cmdOf id 4 with
  | none => .next s
  | some c =>
    if c.result.isSome then .next (s.soComplete id)
    else match c.instr with
      | none => .next s
      | some i =>
        if c.sent.isNone || c.reply.isSome || s.peerFenced (s.cmdVf id) c.peer then .next s
        else match ((s.soCharge id data.length).updCmd id 4 fun c =>
            { c with reply := some (status, data), prog := .fresh }).soReply id i status data with
          | .next t => .next (t.soComplete id)
          | r => r

/-- TIMEOUT (R401, R403): TMO has expired before the reply. -/
def execTimeout (id : Nat) (s : State) : Res :=
  match s.cmdOf id 4 with
  | none => .next s
  | some c =>
    match c.sent, (c.instr.bind remTail).map RemTail.tmo with
    | some t, some n =>
      if c.result.isNone && c.reply.isNone && n ≠ 0 && t + 65536 * n ≤ s.refTick.toNat then
        .next ((s.soEnd id 15 0).soComplete id)
      else .next s
    | _, _ => .next s

/-- PEERDOWN (R403): no allowed port has reached the peer for 1,000,000 ref ticks; a fenced one is not reached from the fence on
(R414). -/
def execPeerdown (id : Nat) (s : State) : Res :=
  match s.cmdOf id 4 with
  | none => .next s
  | some c =>
    let vf := s.cmdVf id
    if c.sent.isSome && c.result.isNone && c.reply.isNone
        && (s.peerLost vf c.peer || (s.peerFenced vf c.peer && s.longSince c.sent)) then
      .next ((s.soEnd id 16 0).soComplete id)
    else .next s

/-- The peer asks for a segment of a command again (R406, R409). -/
def State.resendAsked (s : State) (id seg : Nat) : State :=
  s.updCmd id 4 fun c =>
    if c.sent.isSome && c.reply.isNone && c.result.isNone then { c with resend := c.resend ++ [(seg, s.refTick.toNat)] } else c

/-- The payload bytes of a segment, which go out with it or come back for it (R410). -/
def segPayload (c : Cmd) (seg : Nat) : Nat :=
  match c.instr with
  | some (.rwr x) => (segBytes x.raddr.toNat c.payload seg).length
  | some (.rrd x) => ((blocksOf x.raddr.toNat x.len)[seg]?.map Prod.snd).getD 0
  | _ => 0

/-- RETRANSMIT (R406, R409, R410): a segment that was asked for again at least 10,000 ref ticks ago is sent again, and charged
again. -/
def execRetransmit (id seg : Nat) (s : State) : Res :=
  match s.cmdOf id 4 with
  | none => .next s
  | some c =>
    match c.instr, c.resend.find? fun e => e.1 == seg with
    | some i, some (k, t) =>
      if c.result.isSome || c.reply.isSome || s.peerFenced (s.cmdVf id) c.peer || decide (s.refTick.toNat < t + 10000) then .next s
      else
        let raddr := match i with | .rwr x => x.raddr.toNat | _ => 0
        let s1 := (s.updCmd id 4 fun c => { c with resend := c.resend.erase (k, t) }).soCharge id (segPayload c seg)
        .next { s1 with outbox := s1.outbox ++ [s.segOut id seg c i (segBytes raddr c.payload seg)] }
    | _, _ => .next s

/-! ## Inbound segments -/

/-- The VF that owns an end point (R400). -/
def State.fepVf (s : State) (dst : Nat) : Option Nat := (s.vfs.find? fun e => e.2.fep == some dst).map Prod.fst

/-- Traffic with a sender is disabled by a fence (R414). -/
def State.srcFenced (s : State) (vf src : Nat) : Bool := (s.vf vf).fenced.any fun p => s.peerFep vf p == src

/-- What is known of a message. -/
def Vf.inMsg (v : Vf) (src msg : Nat) : InMsg :=
  (v.inMsgs.find? fun m => m.src == src && m.msg == msg).getD ⟨src, msg, [], false, false⟩

/-- Change it. -/
def Vf.updMsg (v : Vf) (src msg : Nat) (f : InMsg → InMsg) : Vf :=
  { v with inMsgs := f (v.inMsg src msg) :: v.inMsgs.filter fun m => !(m.src == src && m.msg == msg) }

/-- The entry is that of a segment. -/
def InStall.of (e : InStall) (x : InSeg) : Bool := e.seg.src == x.src && e.seg.msg == x.msg && e.seg.seg == x.seg

/-- A segment that has just come. -/
def freshSeg (x : InSeg) : InStall := ⟨x, none, 0, false, 0, [], [], []⟩

/-- The entry of a segment, while it is not over. -/
def State.inEntry (s : State) (vf : Nat) (x : InSeg) : Option InStall := (s.vf vf).stalls.find? fun e => e.of x

/-- Change it. -/
def State.updIn (s : State) (vf : Nat) (x : InSeg) (f : InStall → InStall) : State :=
  s.updVf vf fun v => { v with stalls := v.stalls.map fun e => if e.of x then f e else e }

/-- The segment is over. -/
def State.dropIn (s : State) (vf : Nat) (x : InSeg) : State :=
  s.updVf vf fun v => { v with stalls := v.stalls.filter fun e => !e.of x }

/-- The segment is over, with an answer to its sender. -/
def State.inOver (s : State) (vf : Nat) (x : InSeg) (status : Nat) (data : List Byte) : State :=
  let s1 := s.dropIn vf x
  { s1 with outbox := s1.outbox ++ [.inboundAnswer vf x.src x.msg x.seg status data] }

/-- The sender is asked to send a segment again. -/
def State.askAgain (s : State) (vf : Nat) (x : InSeg) : State :=
  { s with outbox := s.outbox ++ [.resend vf x.src x.msg x.seg] }

/-- A ROD segment waits behind every earlier one of its sender that stalls or is not over, and behind a ROD one that is to be
sent again (R408, R409). -/
def Vf.inBlocked (v : Vf) (x : InSeg) : Bool :=
  x.ord && (v.stalls.takeWhile fun e => !e.of x).any fun e => e.seg.src == x.src && (e.seg.ord || !e.gone)

/-- The record of an inbound page fault or grain (R409). -/
def inInfo (c : Code) (sub va ia : Nat) : RecInfo :=
  { code := c, sub := sub, flags := 2, team := if c = .page then .ones else .open_, role := 0xFF, queue := 4,
    pc := 0, va := va, pa := ia, lanes := 0 }

/-- A record without an answer that an earlier attempt of the same segment wrote (R409, R416). -/
def State.inRecord (s : State) (vf : Nat) (x : InSeg) : Option Nat :=
  ((s.vf vf).recs.find? fun r => !r.answered && r.inb == some (x.src, x.msg, x.seg)).map FaultRec.recid

/-- A segment meets a page fault: it waits on its own record, or on a new one (R409, R416). -/
def State.inPage (s : State) (vf : Nat) (x : InSeg) (sub va ia : Nat) : State :=
  match s.inRecord vf x with
  | some id => s.updIn vf x fun e => { e with recid := some id, left := 50000 }
  | none =>
    let id := s.nextRec % 2 ^ 32
    let s1 := (s.addRec vf (inInfo .page sub va ia) none).updVf vf fun v =>
      { v with recs := v.recs.map fun r => if r.recid = id then { r with inb := some (x.src, x.msg, x.seg) } else r }
    s1.updIn vf x fun e => { e with recid := some id, left := 50000 }

/-- The address and length that a segment accesses; none for a signal without an add. -/
def inRange : Inbound → Option (Nat × Nat)
  | .write a bs _ => some (a.toNat, bs.length)
  | .read a n => some (a.toNat, n)
  | .signal a _ _ => if a = 0 then none else some (a.toNat, 8)

/-- Its accesses, each of at most 8 bytes (R317, R404). -/
def inAccs : Inbound → List Acc
  | .write a bs _ => rangePieces .glob a.toNat bs.length true
  | .read a n => rangePieces .glob a.toNat n false
  | .signal a _ _ => if a = 0 then [] else [⟨.glob, a.toNat, 8, true⟩]

/-- What an access of an inbound segment costs the target's context (R382, R410, log 12). -/
def inCost (b : Inbound) (first : Bool) (a : Acc) : Nat :=
  match b with
  | .signal _ _ _ => 2848
  | _ => 128 * a.n + if first || a.addr % 64 = 0 then 800 else 0

/-- An access of a segment has been made: the segment keeps, of its holds, those on what it has still to write (R328, R336). -/
def State.madeIn (s : State) (vf : Nat) (x : InSeg) (bs : List Byte) (lost : List Nat) : State :=
  let part := (s.vf vf).part
  s.updIn vf x fun e =>
    let rest := (inAccs x.body).drop (e.made + 1)
    let xs := rest.filterMap fun a => s.xlatAny vf a.addr a.n true
    let gs := xs.flatMap fun t => (linesOf part t.ia t.pas.length).map grainKey
    let ls := xs.flatMap fun t => t.pas.map fun p => p / 64
    { e with made := e.made + 1, got := e.got ++ bs, holds := e.holds.filter gs.contains,
             lines := (e.lines ++ lost).filter ls.contains }

/-- Make an access that has its translation: a write, which may clear a lost line that the segment covers whole; a read; the
add of a signal. A lost line otherwise refuses the segment with MCHECK (R336, R403). -/
def State.inMake (s : State) (vf : Nat) (x : InSeg) (a : Acc) (t : Xlat) : Turn :=
  let lost := ((t.pas.filter s.lostPa).map fun p => p / 64).dedup
  match x.body with
  | .write va bs _ =>
    let all := ((s.xlatAny vf va.toNat bs.length true).map Xlat.pas).getD []
    if !(lost.all (s.coveredLost all).contains) then .stay (s.inOver vf x 7 [])
    else .go (((s.clearLost lost).homeWriteX t ((bs.drop (a.addr - va.toNat)).take a.n)).madeIn vf x [] lost)
  | .read _ _ => if lost.isEmpty then .go (s.madeIn vf x (s.loadX t) []) else .stay (s.inOver vf x 7 [])
  | .signal _ v _ => if lost.isEmpty then .go ((s.tokenAdd noCluster t v.toNat).madeIn vf x [] []) else .stay (s.inOver vf x 7 [])

/-- One access of a segment (R360, R404, R409): refused, stalled at a page fault, waiting for a refresh or for another command's
hold, or made. -/
def State.inStep (s : State) (vf : Nat) (x : InSeg) (a : Acc) : Turn :=
  let e := (s.inEntry vf x).getD (freshSeg x)
  match s.toIa vf a.addr a.n with
  | .ia ia =>
    (match s.translateIa (s.vf vf).part ia a.n a.write with
     | .page sub pa => .stay (s.inPage vf x sub a.addr pa)
     | .mcheck _ => .stay (s.inOver vf x 7 [])
     | .ok t =>
       let ls := (t.pas.map fun p => p / 64).dedup
       if ls.any fun l => s.inRefresh (64 * l) || (s.lineHeld l && !e.lines.contains l) then
         .wait (ls.foldl (fun u l => u.stallLine (.line l) l) s)
       else (s.charge 480 vf (inCost x.body (e.made == 0) a)).inMake vf x a t
     | _ => .stay (s.inOver vf x 13 []))
  | _ => .stay (s.inOver vf x 13 [])

/-- Accesses of a segment in ascending order, at most `n`. -/
def inSteps (vf : Nat) (x : InSeg) : List Acc → Nat → State → Turn
  | [], _, s => .done s
  | _ :: _, 0, s => .go s
  | a :: t, n + 1, s =>
    match s.inStep vf x a with
    | .go s1 => inSteps vf x t n s1
    | r => r

/-- A segment has been performed; with the last one of its message comes the arrival, or, while the unexpected list is full, a
request to send that segment again (R406). -/
def State.inArrive (s : State) (vf : Nat) (x : InSeg) (mtag : W32) : State :=
  let s1 := s.updVf vf fun v => v.updMsg x.src x.msg fun m =>
    { m with done := if m.done.contains x.seg then m.done else m.done ++ [x.seg] }
  let m := (s1.vf vf).inMsg x.src x.msg
  if mtag = 0 || m.done.length < x.count || m.arrived then s1.inOver vf x 0 []
  else match s1.arrive vf mtag with
    | some s2 => (s2.updVf vf fun v => v.updMsg x.src x.msg fun m => { m with arrived := true }).inOver vf x 0 []
    | none => (s1.dropIn vf x).askAgain vf x

/-- Every access of a segment has been made: its effect on the message, and its answer (R404 to R406, R410). -/
def State.inFinish (s : State) (vf : Nat) (x : InSeg) : State :=
  match x.body with
  | .write _ _ mtag => s.inArrive vf x mtag
  | .signal _ _ mtag => s.inArrive vf x mtag
  | .read _ n => (s.charge 480 vf (240 * n)).inOver vf x 0 (((s.inEntry vf x).map InStall.got).getD [])

/-- A segment is refused before its first access (R133, R328, R409): REMADDR, or GRAIN with a record. -/
def State.inRefused (s : State) (vf : Nat) (x : InSeg) : Option State :=
  match inRange x.body with
  | none => none
  | some (va, n) =>
    match s.toIa vf va n, x.body with
    | .ia ia, .write _ _ _ =>
      if s.grainBad (s.vf vf).part [(ia, n)] then some ((s.addRec vf (inInfo .grain 0 va ia) none).inOver vf x 8 []) else none
    | .ia _, _ => none
    | _, _ => some (s.inOver vf x 13 [])

/-- The grains that a write segment covers in part are held for it (R328). -/
def State.holdGrains (s : State) (vf : Nat) (x : InSeg) : State :=
  match x.body with
  | .write va bs _ =>
    (match s.toIa vf va.toNat bs.length with
     | .ia ia => s.updIn vf x fun e => { e with holds := partGrains (s.vf vf).part [(ia, bs.length)] }
     | _ => s)
  | _ => s

/-- The segment has been performed before, and is no read: only its arrival may be left (R406). -/
def State.inDone (s : State) (vf : Nat) (x : InSeg) : Bool :=
  (match x.body with | .read _ _ => false | _ => true) && ((s.vf vf).inMsg x.src x.msg).done.contains x.seg

/-- Attempt a segment, as many accesses of it as the pace lets (R317, R404 to R409). -/
def State.inTry (s : State) (vf : Nat) (e : InStall) : State :=
  let x := e.seg
  if s.srcFenced vf x.src || (s.vf vf).inBlocked x then s
  else if s.inDone vf x then s.inFinish vf x
  else match if e.made = 0 then s.inRefused vf x else none with
    | some s1 => s1
    | none =>
      let s0 := if e.made = 0 then s.holdGrains vf x else s
      let as := (inAccs x.body).drop e.made
      match inSteps vf x as (s.pace.getD as.length) s0 with
      | .done s1 => s1.inFinish vf x
      | .go s1 => s1
      | .stay s1 => s1
      | .wait s1 => s1

/-- ROD segments that waited behind one that is over are attempted in order, until one is not over. -/
def State.inFollow (s : State) (vf src : Nat) : Nat → State
  | 0 => s
  | n + 1 =>
    match (s.vf vf).stalls.find? fun e =>
        e.seg.ord && e.seg.src == src && e.recid.isNone && !e.gone && !(s.vf vf).inBlocked e.seg with
    | none => s
    | some e =>
      let s1 := s.inTry vf e
      if (s1.inEntry vf e.seg).isSome then s1 else s1.inFollow vf src n

/-- Those of a sender that can go on do. -/
def State.inNext (s : State) (vf src : Nat) : State := s.inFollow vf src (s.vf vf).stalls.length

/-- Attempt a segment that is at hand, and those behind it once it is over. -/
def State.inRun (s : State) (vf : Nat) (x : InSeg) : State :=
  match s.inEntry vf x with
  | none => s
  | some e =>
    let s1 := s.inTry vf e
    if (s1.inEntry vf x).isSome then s1 else s1.inNext vf x.src

/-- The bytes of a write segment that comes in are charged to the target's context, each time it comes (R410). -/
def State.chargeIn (s : State) (vf : Nat) (b : Inbound) : State :=
  match b with
  | .write _ bs _ => s.charge 480 vf (240 * bs.length)
  | _ => s

/-- INBOUND_SEGMENT (R400, R409, R414): a segment or token add from a peer comes in, again after it was discarded, or goes on. -/
def execInboundSegment (dst src : Nat) (ord : Bool) (p : InPart) (s : State) : Res :=
  let x : InSeg := ⟨src, p.msg, p.seg, p.count, ord, p.body⟩
  match s.fepVf dst with
  | none => .next s
  | some vf =>
    if s.srcFenced vf x.src || ((s.vf vf).inMsg x.src x.msg).closed then .next s
    else match s.inEntry vf x with
      | none => .next (((s.chargeIn vf x.body).updVf vf fun v => { v with stalls := v.stalls ++ [freshSeg x] }).inRun vf x)
      | some e =>
        if e.gone then .next (((s.chargeIn vf x.body).updIn vf x fun e => { e with gone := false, recid := none }).inRun vf x)
        else if e.recid.isSome then .next s
        else .next (s.inRun vf x)

/-- The segments that wait on an answered record: attempted again, or refused (R409); one that has been discarded is attempted
when it comes again. -/
def State.inAnswered (s : State) (vf recid : Nat) (retry : Bool) : State :=
  ((s.vf vf).stalls.filter fun e => e.recid == some recid).foldl (fun t e =>
    if retry then
      let t1 := t.updIn vf e.seg fun e => { e with recid := none }
      if e.gone then t1 else t1.inRun vf e.seg
    else (t.inOver vf e.seg 14 []).inNext vf e.seg.src) s

/-- INBOUND_STALL_TIMEOUT (R409): after 50,000 ref ticks without RETRY the segment is discarded, and its sender is asked
to send it again. -/
def execInboundStallTimeout (vf idx : Nat) (s : State) : Res :=
  match (s.vf vf).stalls[idx]? with
  | some e =>
    if e.left = 0 && e.recid.isSome && !e.gone then
      .next (((s.updIn vf e.seg fun e => { e with gone := true, made := 0, got := [], holds := [], lines := [] }).askAgain vf e.seg).inNext
        vf e.seg.src)
    else .next s
  | none => .next s

/-- The sender closes the delivery context of a message: no segment of it is performed from here on (R403). -/
def State.closeContext (s : State) (vf src msg : Nat) : State :=
  (s.updVf vf fun v => { v.updMsg src msg (fun m => { m with closed := true }) with
    stalls := v.stalls.filter fun e => !(e.seg.src == src && e.seg.msg == msg) }).inNext vf src

/-- Traffic of a context with some peers is disabled, in both directions (R414). -/
def State.fencePeers (s : State) (vf : Nat) (peers : List Nat) : State :=
  let s1 := s.updVf vf fun v => { v with fenced := v.fenced ++ peers }
  s1.updVf vf fun v => { v with stalls := v.stalls.filter fun e => !s1.srcFenced vf e.seg.src }

end Sys2Proof.Machine
end

