-- ==== Sys2Proof/Machine/Answer.lean ====
section
/-! DEFINITION. The answers of system software to fault records (R341, R416): RETRY and KILL. -/

namespace Sys2Proof.Machine
open Sys2Proof

/-! ## The record -/

/-- The record that an answer names: written to the ring and not yet answered (R339, R341). -/
def State.recOf (s : State) (vf recid : Nat) : Option FaultRec :=
  (s.vf vf).recs.find? fun r => r.recid == recid && r.written && !r.answered

/-- Records that satisfy a test are answered; those that are also in the ring are settled. -/
def State.answer (s : State) (vf : Nat) (p : FaultRec → Bool) : State :=
  s.updVf vf fun v =>
    { v with recs := (v.recs.map fun r => if p r then { r with answered := true } else r).filter fun r =>
        !(r.written && r.answered) }

/-! ## RETRY -/

/-- A command that waits on a record goes on. -/
def Cmd.retry (c : Cmd) (id : Nat) : Cmd := if c.stall = some id then { c with stall := none } else c

/-- The park that an answer ends. -/
def Park.retry (p : Park) (id : Nat) : Park := if p = .page (some id) then .none else p

/-- A role's parties that wait on a record go on (R173, R221, R311). -/
def Role.retry (r : Role) (id : Nat) : Role :=
  { r with
    stopped := if r.stopped = some id then none else r.stopped
    spark := r.spark.retry id, lpark := r.lpark.retry id
    flight := r.flight.map fun e => if e.recid = some id then { e with recid := none } else e
    engs := r.engs.map fun e => (e.1, { e.2 with run := e.2.run.map fun c => c.retry id }) }

/-- A team's parties that wait on a record go on (R210, R251, R258). -/
def Team.retry (t : Team) (id : Nat) : Team :=
  { t with
    halted := if t.halted = some id then none else t.halted
    phase := if t.phase = .probeFault id then .probing else t.phase
    service := t.service.map fun e => if e.2.wait = some id then (e.1, { e.2 with wait := none }) else e }

/-- The wait of R186 is counted anew. -/
def Team.uncycle (t : Team) : Team := { t with cyclic := 0, cyclicRec := false }

/-- A row joins those that wait, in ascending order (R352). -/
def rowInsert (r : Nat) : List Nat → List Nat
  | [] => [r]
  | a :: t => if r < a then r :: a :: t else a :: rowInsert r t

/-- A depot row that waits on a record goes on; one whose anchor met the fault looks for its depot again
(R354). -/
def State.retryRow (s : State) (id : Nat) (e : Nat × DRow) : State :=
  if e.2.stall ≠ some id then s
  else if e.2.depot.isSome then { s with rows := s.rows.put e.1 { e.2 with stall := none } }
  else
    { s with
      rows := s.rows.erase e.1
      tasks := s.tasks.put e.2.task { s.task e.2.task with skipped := rowInsert e.2.r (s.task e.2.task).skipped } }

/-- Depot rows that wait on a record go on. -/
def State.retryRows (s : State) (id : Nat) : State := s.rows.foldl (fun t e => t.retryRow id e) s

/-- A launch's completion-token add is made again (R378). -/
def Launch.retry (l : Launch) (id : Nat) : Launch := if l.waitRec = some id then { l with waitRec := none } else l

/-- The words in flight of a team's roles perform as far as they can. -/
def State.kickTeam (s : State) (tk : Nat) : State := (s.rolesOf tk).foldl (fun t rk => (t.leaveIfReady rk).kick rk) s

/-- Everything that waits on a record goes on (R341, R416); a swapped-out team re-enters the distributor once none is left. -/
def State.retryAll (s : State) (vf : Nat) (r : FaultRec) : State :=
  let id := r.recid
  let s1 : State :=
    { s with
      roles := s.roles.map fun e => (e.1, e.2.retry id)
      teams := s.teams.map fun e => (e.1, e.2.retry id)
      launches := s.launches.map fun e => (e.1, e.2.retry id)
      fired := s.fired.map fun e => (e.1, { e.2 with cmd := e.2.cmd.retry id }) }
  let s2 := ((s1.retryRows id).retryMerges id r.team).inAnswered vf id true
  match r.team with
  | some tk =>
    ((if r.code = codeNum .cyclicwait then s2.updTeam tk Team.uncycle else s2).kickTeam tk).reenter tk
  | none => s2

/-- ANSWER_RETRY (R341, R416): the waiting party makes the faulting access again. -/
def execAnswerRetry (vf recid : Nat) (s : State) : Res :=
  match s.recOf vf recid with
  | none => .next s
  | some r => .next ((s.answer vf fun q => q.recid == recid).retryAll vf r)

/-! ## KILL -/

/-- A launch's completion-token add is given up (R378). -/
def Launch.giveUp (l : Launch) (id : Nat) : Launch :=
  if l.waitRec = some id then { l with waitRec := none, dropped := true } else l

/-- What waits on a record without a team is discarded (R344, R378, R409). -/
def State.giveUp (s : State) (vf id : Nat) : State :=
  let s1 : State := { s with launches := s.launches.map fun e => (e.1, e.2.giveUp id) }
  let s2 := (s.fired.filter fun e => e.2.cmd.stall == some id).foldl (fun t e => t.cmdEnd e.1 4 14 0) s1
  s2.inAnswered vf id false

/-- The merge that waits on a record: with its team's updates discarded it is made again; one of no team is given up
(R344). -/
def State.giveUpMerge (s : State) (id : Nat) (team : Option Nat) : State :=
  match team with
  | some tk => (s.dropUpdates tk).retryMerges id none
  | none => s.dropMerges id

/-- A team is killed, if it still lives; its records need no answer any more. -/
def State.killNamed (s : State) (vf tk : Nat) : State :=
  if s.teams.has tk && (s.team tk).live then
    (s.killTeam tk).answer vf fun q => q.team == some tk
  else s

/-- The task that waits on a record as a whole: on a code word, a token, or its CT add (R353). -/
def State.taskWaits (s : State) (id : Nat) : Option Nat :=
  (s.roles.find? fun e => match (e.2.eng 5).run with | some c => c.stall == some id | none => false).map Prod.fst

/-- KILL of the record of a task: it does nothing further, and completes with ADDRESS (R353, log 56). -/
def State.taskKill (s : State) (rk : Nat) : State :=
  let n := (s.task rk).ended
  { (s.cmdEnd rk 5 3 n).updCmd rk 5 (fun c => { c with stall := none }) with tasks := s.tasks.erase rk }

/-- The record is of a waybill access: a page fault, or a lost line (R344, log 75). -/
def FaultRec.byWaybill (r : FaultRec) : Bool :=
  (r.code == codeNum .page || r.code == codeNum .mcheck) && r.bytes.get 0 16 == 0xFF && r.bytes.get 0 17 == 0xFF

/-- ANSWER_KILL (R222, R254, R341): the team is discarded and is not re-queued. KILL of a waybill access discards the
unmerged updates too (R344); KILL of a task's record ends the task alone (R353). -/
def execAnswerKill (vf recid : Nat) (s : State) : Res :=
  match s.recOf vf recid with
  | none => .next s
  | some r =>
    let s1 := (s.answer vf fun q => q.recid == recid).giveUp vf recid
    match s.taskWaits recid with
    | some rk => .next (s1.taskKill rk)
    | none =>
      let s2 := match r.team with | some tk => s1.killNamed vf tk | none => s1
      .next (if r.byWaybill then s2.giveUpMerge recid r.team else s2)

end Sys2Proof.Machine
end

