-- ==== Sys2Proof/Machine/Gang.lean ====
section
/-! DEFINITION. Gang launches (R411 to R414): the coordinator's side and a chip's side. The coordinator is rank 0 of
its gang; a gang that another package coordinates is known here by the number its messages carry (log 27). -/

namespace Sys2Proof.Machine
open Sys2Proof

/-! ## The descriptor -/

/-- A gang descriptor (R411): the packages, the fewest, the go window, and for each chip its record and its PEER. -/
structure GangDesc where
  nchip : Nat
  minchip : Nat
  gowin : Nat
  chips : List (Nat × Nat)
  deriving DecidableEq, Repr

/-- The descriptor in a list of bytes; none when a field is out of range or a reserved byte is not zero. -/
def gangDescOf (bs : List Byte) : Option GangDesc :=
  let n := recField bs 0 2
  let m := recField bs 2 2
  let w := recField bs 4 4
  let es := (List.range n).map fun c => (recField bs (64 + 16 * c) 8, recField bs (72 + 16 * c) 1)
  if n < 2 ∨ 64 < n ∨ m = 0 ∨ n < m then none
  else if ((bs.drop 8).take 56).any (fun b => b != 0) then none
  else if (List.range n).any (fun c => recField bs (73 + 16 * c) 7 != 0) then none
  else some ⟨n, m, if w = 0 then 100000 else w, es⟩

/-- Read a gang descriptor in the coordinator's memory (R411). -/
def State.gangDesc (s : State) (vf addr : Nat) : Option GangDesc :=
  match s.distRead vf addr 64 with
  | none => none
  | some h => ((s.distRead vf addr (64 + 16 * Nat.min 64 (recField h 0 2))).bind gangDescOf)

/-! ## Shares -/

/-- A share as a chip arms it (R413). -/
def newShare (gang rank nchip : Nat) : GangShare :=
  { gang := gang, rank := rank, nchip := nchip, started := false, fenced := [], parts := List.range nchip,
    decided := false, takeover := false, from_ := 0, sent := 0, stages := [], spread := [], toldStage := 0, toldSpread := false }

/-- The launch that holds this package's share of a gang; `own` says whether this package coordinates it. -/
def State.shareOf (s : State) (gang : Nat) (own : Bool) : Option Nat :=
  (s.launches.find? fun e =>
    match e.2.share with
    | some g => g.gang == gang && (g.rank == 0) == own
    | none => false).map Prod.fst

/-- A gang launch at the coordinator. -/
def State.gang (s : State) (g : Nat) : Gang := s.gangs.get Gang.empty g

/-- Change it. -/
def State.updGang (s : State) (g : Nat) (f : Gang → Gang) : State := { s with gangs := s.gangs.put g (f (s.gang g)) }

/-- Check and hold a share (R373, R413): the code and the extents of the grid. -/
def State.armShare (s : State) (vf addr gang rank nchip : Nat) : (Nat × Nat × Nat × Nat) × State :=
  let r := s.enqueue vf addr (some (newShare gang rank nchip))
  let l := r.2.launch s.nextLid
  ((r.1.toNat % 2 ^ 16, l.gridX, l.gridY, l.gridZ), r.2)

/-! ## Arming -/

/-- The coordinator's answer to a gang launch message. -/
def State.gangAnswer (s : State) (vf lid status : Nat) : State :=
  { s with outbox := s.outbox ++ [.launchAnswer vf lid status] }

/-- GANG_LAUNCH_MESSAGE (R411, R413): the coordinator arms its own share and sends ARM to the others. -/
def execGangLaunchMessage (vf : Nat) (addr : W64) (s : State) : Res :=
  match s.gangDesc vf addr.toNat with
  | none => .next (s.gangAnswer vf 0 1)
  | some d =>
    let g := s.gangs.length
    let r := s.armShare vf (d.chips.headD (0, 0)).1 g 0 d.nchip
    let s1 := r.2.updGang g fun _ =>
      { Gang.empty with vf := vf, nchip := d.nchip, minchip := d.minchip, gowin := d.gowin,
                        peers := d.chips.map Prod.snd, answers := [(0, r.1)] }
    .next ((List.range d.nchip).tail.foldl (fun t c =>
      t.sendGang g c (.arm (BitVec.ofNat 64 (d.chips.getD c (0, 0)).1))) s1)

/-- ARM (R413): a chip checks its record, and answers. -/
def execArm (vf gang rank nchip : Nat) (addr : W64) (s : State) : Res :=
  let r := s.armShare vf addr.toNat gang rank nchip
  .next (r.2.sendGang gang rank (.armok r.1.1 r.1.2))

/-- The code that refuses a gang whose chips have all answered: of the lowest-ranked refusing chip, or BADREC when
the extents differ (R413). -/
def Gang.refusal (g : Gang) : Nat :=
  match g.answers.find? fun e => e.2.1 != 0 with
  | some e => e.2.1
  | none => if g.answers.all fun e => e.2.2 == (g.answers.get (0, 0, 0, 0) 0).2 then 0 else 1

/-- The gang is refused: the chips that armed release their launches (R413). -/
def State.refuseGang (s : State) (gang code : Nat) : State :=
  let g := s.gang gang
  let s1 := match s.shareOf gang true with
    | some lid => { s with launches := s.launches.erase lid }
    | none => s
  let armed := (g.answers.filter fun e => e.1 != 0 && e.2.1 == 0).map Prod.fst
  ((s1.updGang gang fun g => { g with phase := .refused }).sendRanks gang armed .release).gangAnswer g.vf 0 code

/-- This package's share starts (R413). -/
def State.startShare (s : State) (gang : Nat) (own : Bool) : State :=
  match s.shareOf gang own with
  | some lid => s.updShare lid fun g => { g with started := true }
  | none => s

/-- The coordinator sends GO (R413). -/
def State.goGang (s : State) (gang : Nat) : State :=
  let s1 := s.updGang gang fun g => { g with phase := .going, window := some g.gowin, acks := [0] }
  (s1.sendRanks gang (List.range (s.gang gang).nchip).tail .go).startShare gang true

/-- Every chip has answered. -/
def State.decideGang (s : State) (gang : Nat) : State :=
  if (s.gang gang).answers.length < (s.gang gang).nchip then s
  else if (s.gang gang).refusal ≠ 0 then s.refuseGang gang (s.gang gang).refusal
  else s.goGang gang

/-- ARMOK (R413): a chip's answer to ARM. -/
def execArmok (gang rank code : Nat) (grid : Nat × Nat × Nat) (s : State) : Res :=
  let g := s.gang gang
  if g.phase ≠ .arming ∨ g.nchip ≤ rank ∨ g.answers.has rank then .next s
  else .next ((s.updGang gang fun g => { g with answers := g.answers.put rank (code, grid) }).decideGang gang)

/-! ## Going -/

/-- GO (R413): a chip answers GOACK and dispatches its share. -/
def execGo (gang : Nat) (s : State) : Res :=
  match s.shareOf gang false with
  | none => .next s
  | some lid =>
    match (s.launch lid).share with
    | some g => if g.started then .next s else .next ((s.startShare gang false).sendGang gang g.rank .goack)
    | none => .next s

/-- The gang launch runs, and its message is answered with the handle. -/
def State.gangRuns (s : State) (gang : Nat) : State :=
  (s.updGang gang fun g => { g with phase := .running, window := none }).gangAnswer (s.gang gang).vf
    ((s.shareOf gang true).getD 0) 0

/-- It is known at this chip which chips take part (R414): it takes over the teams of the others once every participant has
dispatched its own share, and in a staged launch at the next relay point. -/
def State.shareDecided (s : State) (lid : Nat) (fenced parts : List Nat) : State :=
  (s.updShare lid fun h => { h with fenced := fenced, parts := parts, decided := true }).spreadShare lid

/-- Every chip has acknowledged: the launch runs with every chip (R413), and the others are told (log 27). -/
def State.gangComplete (s : State) (gang : Nat) : State :=
  let n := (s.gang gang).nchip
  let s1 := (s.gangRuns gang).sendRanks gang (List.range n).tail (.fence [] true)
  match s.shareOf gang true with
  | some lid => s1.shareDecided lid [] (List.range n)
  | none => s1

/-- GOACK (R413): one that comes after the go window counts no more (R414). -/
def execGoack (gang rank : Nat) (s : State) : Res :=
  let g := s.gang gang
  if g.phase ≠ .going ∨ g.window = some 0 ∨ g.nchip ≤ rank ∨ g.acks.contains rank then .next s
  else
    let s1 := s.updGang gang fun g => { g with acks := g.acks ++ [rank] }
    .next (if (s1.gang gang).acks.length = g.nchip then s1.gangComplete gang else s1)

/-! ## Fencing -/

/-- Ranks that have not acknowledged, and those that have, in ascending rank. -/
def Gang.silent (g : Gang) : List Nat := (List.range g.nchip).filter fun c => !g.acks.contains c

/-- See `silent`. -/
def Gang.present (g : Gang) : List Nat := (List.range g.nchip).filter fun c => g.acks.contains c

/-- Scale-out traffic of the gang's VF with the fenced chips is disabled, and they are sent KILL (R414). -/
def State.fenceGang (s : State) (gang : Nat) : State :=
  let g := s.gang gang
  let s1 := s.fencePeers g.vf (g.silent.map fun c => g.peers.getD c 0)
  (s1.sendRanks gang (g.present.filter fun c => c != 0) (.fence g.silent (decide (g.minchip ≤ g.present.length)))).sendRanks gang g.silent .kill

/-- A team of a gang that goes on without enough chips (R414): an uncommitted transactional team is discarded, a
team of a RESTART launch is pre-empted and held. -/
def State.haltTeam (s : State) (tk : Nat) : State :=
  let l := s.launch (lidOf tk)
  if !(s.team tk).live then s
  else if l.flag 0 && !(s.team tk).committed then s.killTeam tk
  else if l.flag 2 then (s.updTeam tk fun t => t.request 5 l.graceTicks .preempted false).settleTeam tk
  else s

/-- A share fails, too few chips being left (R387, R414). -/
def State.shareFails (s : State) (lid : Nat) : State :=
  let u := ((s.launchTeams lid).map Prod.fst).foldl State.haltTeam s
  ((u.updLaunch lid Launch.dropUndispatched).writeResmap lid).finishLaunch lid true

/-- The coordinator of a gang has fenced some ranks (R414): traffic of the launch's VF with their peers is disabled, and
this chip's share goes on without them, or fails. -/
def State.fenceShare (s : State) (gang : Nat) (ranks peers : List Nat) (goes : Bool) : State :=
  match s.shareOf gang false with
  | none => s
  | some lid =>
    let s1 := s.fencePeers (s.launch lid).vf peers
    match (s.launch lid).share with
    | none => s
    | some h =>
      if goes then s1.shareDecided lid ranks ((List.range h.nchip).filter fun c => !ranks.contains c)
      else s1.shareFails lid

/-- Too few chips have acknowledged (R387, R414). -/
def State.failGang (s : State) (gang : Nat) : State :=
  let g := s.gang gang
  let s1 := s.updGang gang fun g => { g with phase := .failed, window := none }
  let s2 := match s.shareOf gang true with
    | none => s1
    | some lid => s1.shareFails lid
  { s2 with outbox := s2.outbox ++ [.gangFailed g.vf gang g.present] }

/-- The participants go on without the fenced chips, whose teams they take over (R414): a staged launch does so at
the next relay point. -/
def State.carryOn (s : State) (gang : Nat) : State :=
  let g := s.gang gang
  let s1 := match s.shareOf gang true with
    | none => s
    | some lid => s.shareDecided lid g.silent g.present
  s1.gangRuns gang

/-- GO_WINDOW_EXPIRE (R414): the chips that have sent no GOACK are fenced. -/
def execGoWindowExpire (gang : Nat) (s : State) : Res :=
  let g := s.gang gang
  if g.phase ≠ .going ∨ g.window ≠ some 0 then .next s
  else
    let s1 := s.fenceGang gang
    .next (if g.minchip ≤ g.present.length then s1.carryOn gang else s1.failGang gang)

/-- Another chip of a gang says up to which stage its teams have arrived, or that it has dispatched its own share (R414,
R415). -/
def State.peerShare (s : State) (gang : Nat) (own : Bool) (rank : Nat) (stage : Option Nat) : State :=
  match s.shareOf gang own with
  | none => s
  | some lid =>
    match stage with
    | some n => s.updShare lid fun g => { g with stages := g.stages.put rank (Nat.max (g.stages.get 0 rank) (n + 1)) }
    | none => (s.updShare lid fun g => { g with spread := if g.spread.contains rank then g.spread else g.spread ++ [rank] }).spreadShare lid

/-- FENCE_KILL (R341, R414): a fenced chip discards its share. -/
def execFenceKill (gang : Nat) (s : State) : Res :=
  match s.shareOf gang false with
  | none => .next s
  | some lid =>
    let s1 := (((s.launchTeams lid).filter fun e => e.2.live).map Prod.fst).foldl State.killTeam s
    .next (s1.updLaunch lid fun l => { l.dropUndispatched with phase := .failed })

end Sys2Proof.Machine
end

