-- ==== Sys2Proof/Machine/Migrate.lean ====
section
/-! DEFINITION. Page migration (R331 to R334), translation invalidation (R312), lost lines and LOSTCLR (R336), the
patrol scrub and the die links (R335). -/

namespace Sys2Proof.Machine
open Sys2Proof

/-! ## Reports -/

/-- The VF whose ring takes a record of a partition that belongs to no context (log 28). -/
def State.partVf (s : State) (part : Nat) : Nat :=
  ((List.range 256).find? fun v => (s.vf v).part == part).getD 0

/-- A record without a team (R340): PA names the page or the line. -/
def partInfo (c : Code) (pa : Nat) : RecInfo :=
  { code := c, sub := 0, flags := 0, team := .open_, role := 0xFF, queue := 0xFF, pc := 0, va := 0, pa := pa,
    lanes := 0 }

/-- Report to a partition. -/
def State.reportPart (s : State) (part : Nat) (c : Code) (pa : Nat) : State :=
  s.addRec (s.partVf part) (partInfo c pa) none

/-- The die of a physical address. -/
def dieOfPa (pa : Nat) : Nat := fieldOf pa 38 2

/-- A lost line is one that a cache lost (R340). -/
def State.markL2 (s : State) (line : Nat) : State :=
  s.updDie (dieOfPa (64 * line)) fun d => { d with lostL2 := line :: d.lostL2 }

/-- A line of a die joins its lost lines, in the table or, when that is full, outside it. -/
def Die.lose (d : Die) (line : Nat) (full : Bool) : Die :=
  { d with lost := if full then d.lost else d.lost ++ [line], untracked := if full then d.untracked ++ [line] else d.untracked
           lostL2 := d.lostL2.filter fun k => k != line }

/-- A line is lost (R336): it enters its die's table, or LOSTFULL is reported. -/
def State.loseLine (s : State) (line : Nat) : State :=
  let die := dieOfPa (64 * line)
  if s.lostPa (64 * line) then s
  else if (s.die die).lost.length < 512 then s.updDie die fun d => d.lose line false
  else
    (s.updDie die fun d => d.lose line true).reportPart
      (s.pchOwner.get 0 (pchOf (64 * line))) .lostfull (64 * line)

/-! ## Migration -/

/-- A record of a migration. -/
def State.migAt (s : State) (die idx : Nat) : Option Migration := (s.die die).migs.get? idx

/-- Change it. -/
def State.setMig (s : State) (die idx : Nat) (m : Migration) : State :=
  s.updDie die fun d => { d with migs := d.migs.put idx m }

/-- The answer to a MIGRATE request. -/
def State.migAnswer (s : State) (part : Nat) (a : MigAnswer) : State :=
  s.updPart part fun p => { p with migStatus := a }

/-- Write 8 bytes of a page table entry. -/
def State.setEntry (s : State) (pa e : Nat) : State :=
  ((rangeFrom pa 8).zip (leBytes 8 e)).foldl (fun t x => t.setHome x.1 x.2) s

/-- MIGRATE (R331): the request names a leaf by an address it maps. -/
def execMigrate (part : Nat) (ia dst : W64) (s : State) : Res :=
  match s.tableWalk part ia.toNat false with
  | .fault _ => .next (s.migAnswer part .refused)
  | .lost _ => .next (s.migAnswer part .refused)
  | .page p =>
    let die := s.regionDie part ia.toNat
    let e := s.homeWord p.leafAt
    let free := (List.range 16).find? fun n => !(s.die die).migs.has n
    match free with
    | none => .next (s.migAnswer part .refused)
    | some idx =>
      if p.size = 2 ^ 28 || bitOf e 3 || dst.toNat % p.size != 0 || !s.paOwned part dst.toNat then
        .next (s.migAnswer part .refused)
      else
        let m : Migration := ⟨part, BitVec.ofNat 64 p.iaBase, BitVec.ofNat 64 p.pa, dst, 0, false, false⟩
        .next (((s.setEntry p.leafAt (e + 8)).setMig die idx m).migAnswer part .accepted)

/-- A migration falls back to a dual home (R334). -/
def State.fallBack (s : State) (die idx : Nat) (m : Migration) : State :=
  (s.setMig die idx { m with stopped := true }).reportPart m.part .migstop m.ia.toNat

/-- The size of the migrating page: the one its leaf maps. -/
def State.migLeaf (s : State) (m : Migration) : Option PageT :=
  match s.tableWalk m.part m.ia.toNat false with
  | .page p => some p
  | _ => none

/-- A running depot task has translated the page (R333). -/
def State.depotHolds (s : State) (m : Migration) : Bool :=
  s.tasks.any fun e => e.2.pages.contains (m.part * 2 ^ 52 + m.ia.toNat)

/-- The write of a line at its new place fails: the place is lost, or the die link of its die is down (R334, R336). -/
def State.migBlocked (s : State) (die : Nat) (pa : Nat) : Bool :=
  s.lostPa pa || (dieOfPa pa != die && s.linkDown.get false (dieOfPa pa))

/-- Move one line from one place to another: its grain is recalled, its bytes are copied, and its lost-line entry goes
with it (R332, R336). A lost line that no entry can follow arrives as unspecified data. -/
def State.moveLine (s : State) (m : Migration) (i src dst : Nat) : State :=
  let s1 := s.recallGrain (grainKey (lineKey m.part (m.ia.toNat + 64 * i)))
  let bs := (rangeFrom src 64).map s1.homeByte
  let put (t : State) (bs : List Byte) : State := ((rangeFrom dst 64).zip bs).foldl (fun u e => u.setHome e.1 e.2) t
  if (s.die (dieOfPa src)).lost.contains (src / 64) then
    let s2 := s1.updDie (dieOfPa src) fun d => { d with lost := d.lost.filter fun k => k != src / 64 }
    let full := 512 ≤ (s2.die (dieOfPa dst)).lost.length
    if full then
      { put s2 ((rangeFrom 0 64).map (Config.freeByte s.free)) with free := s.free + 1 }.reportPart m.part .lostfull src
    else
      let t := (put s2 bs).loseLine (dst / 64)
      if (s.die (dieOfPa src)).lostL2.contains (src / 64) then t.markL2 (dst / 64) else t
  else if s.lostPa src then { put s1 ((rangeFrom 0 64).map (Config.freeByte s.free)) with free := s.free + 1 }
  else put s1 bs

/-- The migration is over: the leaf names the page's place with MIG clear, translations of the page go, and so does the
record (R312, R332). -/
def State.migDone (s : State) (die idx : Nat) (m : Migration) (home : Nat) : State :=
  let s1 := match s.migLeaf m with
    | some p =>
      let e := s.homeWord p.leafAt
      s.setEntry p.leafAt (e - fieldOf e 3 1 * 8 - fieldOf e 8 44 * 256 + home)
    | none => s
  (s1.dropTlb m.part m.ia.toNat).updDie die fun d => { d with migs := d.migs.erase idx }

/-- The translations of accesses that have begun and are performed in pieces (R135): each has one to its end (R307, R312). -/
def State.begunXlats (s : State) : List Xlat :=
  s.roles.flatMap fun e => e.2.partAt.toList ++ e.2.flight.flatMap fun f => f.todo.filterMap LaneAcc.at_

/-- The line at a physical place is MOVING, and an access of it is under way: the step waits for it (R332). -/
def State.lineBusy (s : State) (pa : Nat) : Bool := s.begunXlats.any fun x => x.pas.any fun p => p / 64 == pa / 64

/-- MIGRATE_LINE_STEP (R332 to R334): one line moves, to the destination or, reversing, back to the source. -/
def execMigrateLineStep (die idx : Nat) (s : State) : Res :=
  match s.migAt die idx with
  | none => .next s
  | some m =>
    match s.migLeaf m with
    | none => .next (if m.stopped then s else s.fallBack die idx m)
    | some p =>
      let n := p.size / 64
      if m.stopped || (m.cursor == 0 && s.depotHolds m) then .next s
      else if m.reversing then
        (if m.cursor = 0 then .next (s.migDone die idx m m.src.toNat)
         else
           let i := m.cursor - 1
           if s.lineBusy (m.dst.toNat + 64 * i) then .next s
           else if s.migBlocked die (m.src.toNat + 64 * i) then .next (s.fallBack die idx m)
           else .next ((s.moveLine m i (m.dst.toNat + 64 * i) (m.src.toNat + 64 * i)).setMig die idx { m with cursor := i }))
      else if s.lineBusy (m.src.toNat + 64 * m.cursor) then .next s
      else if s.migBlocked die (m.dst.toNat + 64 * m.cursor) then .next (s.fallBack die idx m)
      else
        let m1 := { m with cursor := m.cursor + 1 }
        let s1 := s.moveLine m m.cursor (m.src.toNat + 64 * m.cursor) (m.dst.toNat + 64 * m.cursor)
        if m1.cursor < n then .next (s1.setMig die idx m1) else .next (s1.migDone die idx m1 m.dst.toNat)

/-- MIGRATE_CANCEL (R334). -/
def execMigrateCancel (die idx : Nat) (s : State) : Res :=
  match s.migAt die idx with
  | some m => if m.stopped then .next s else .next (s.fallBack die idx m)
  | none => .next s

/-- MIGRATE_RESUME (R334): a stopped migration continues from its cursor. -/
def execMigrateResume (die idx : Nat) (s : State) : Res :=
  match s.migAt die idx with
  | some m =>
    if m.stopped then .next (s.setMig die idx { m with stopped := false, reversing := false }) else .next s
  | none => .next s

/-- MIGRATE_REVERSE (R334): a stopped migration moves its NEW lines back. -/
def execMigrateReverse (die idx : Nat) (s : State) : Res :=
  match s.migAt die idx with
  | some m =>
    if m.stopped then .next (s.setMig die idx { m with stopped := false, reversing := true }) else .next s
  | none => .next s

/-- TRANSLATION_INVALIDATE (R312): it completes after the accesses that have begun with a translation of the 256 MiB around the
address, the most that an entry of a table covers; all others have been performed. -/
def execTranslationInvalidate (part : Nat) (ia : W64) (s : State) : Res :=
  if s.begunXlats.any fun x => x.part == part && x.ia / 2 ^ 28 == ia.toNat / 2 ^ 28 then .next s
  else .next (s.dropTlb part ia.toNat)

/-! ## Lost lines -/

/-- A line of a context's memory lies at a physical line. -/
def State.lineIsAt (s : State) (pline line : Nat) : Bool :=
  match s.translateIa (line / 2 ^ 46) (line % 2 ^ 46 * 64) 64 false with
  | .ok x => x.pas.contains (64 * pline)
  | _ => false

/-- The lines that some role watches (R190, R293). -/
def State.watchedLines (s : State) : List Nat :=
  (s.roles.flatMap fun e =>
    (e.2.waita.map Waita.line).toList ++ ((e.2.aside.bind Aside.waita).map Waita.line).toList ++ e.2.armed.keys).dedup

/-- LOSTCLR (R336): the line is zeroed by one home write, its entry goes, and every WAITA on it wakes. -/
def execLostclr (part : Nat) (pa : W64) (s : State) : Res :=
  let line := pa.toNat / 64
  let die := dieOfPa pa.toNat
  if !s.paOwned part pa.toNat || !(s.die die).lost.contains line then .next s
  else
    let s1 := s.updDie die fun d =>
      { d with lost := d.lost.filter (fun k => k != line), lostL2 := d.lostL2.filter fun k => k != line }
    let s2 := (rangeFrom (64 * line) 64).foldl (fun t a => t.setHome a 0) s1
    .next ((s.watchedLines.filter (s.lineIsAt line)).foldl State.noteWrite s2)

/-! ## Scrubbing and links -/

/-- Count one error in a saturating field of ERRCNT (R338). -/
def bumpErr (w : W64) (lo n : Nat) : W64 :=
  let k := w.toNat
  let f := fieldOf k lo n
  BitVec.ofNat 64 (if f + 1 < 2 ^ n then k + 2 ^ lo else k)

/-- SCRUB (R335, R336, R338): a corrected error is counted; an uncorrectable line is lost, with every dirty copy of it,
and reported. -/
def execScrub (die : Nat) (pa : W64) (r : ScrubResult) (s : State) : Res :=
  let line := pa.toNat / 64
  if 4 ≤ die ∨ dieOfPa pa.toNat ≠ die ∨ 2 ^ 40 ≤ pa.toNat ∨ fieldOf pa.toNat 36 2 = 3 then .next s
  else match r with
    | .clean => .next s
    | .corrected => .next (s.updDie die fun d => { d with errCnt := bumpErr d.errCnt 48 16 })
    | .uncorrectable =>
      if s.lostPa (64 * line) then .next s
      else
        let s1 := (s.dirty.keys.filter (s.lineIsAt line)).foldl State.dropDirty s
        let s2 := (s1.loseLine line).updDie die fun d => { d with errCnt := bumpErr d.errCnt 10 6 }
        .next { s2 with outbox := s2.outbox ++ [.report 0 (64 * line)] }

/-- Migrations to a die whose link is down fall back (R334). -/
def State.linkFalls (s : State) (link : Nat) : State :=
  [0, 1, 2, 3].foldl (fun t d =>
    ((t.die d).migs.filter fun e =>
      !e.2.stopped && d != link && dieOfPa (if e.2.reversing then e.2.src else e.2.dst).toNat == link).foldl
        (fun u e => u.fallBack d e.1 e.2) t) s

/-- LINK_FLIT_ERROR (R335): the flit is sent again; when the 16th retry has failed too, the link is down. Link n is the link
of die n. -/
def execLinkFlitError (link : Nat) (s : State) : Res :=
  if 4 ≤ link ∨ s.linkDown.get false link then .next s
  else
    let n := s.links.get 0 link + 1
    if n < 17 then .next { s with links := s.links.set 0 link n }
    else .next ({ s with links := s.links.erase link, linkDown := s.linkDown.set false link true }.linkFalls link)

end Sys2Proof.Machine
end

