-- ==== Sys2Proof/Machine/Errors.lean ====
section
/-! DEFINITION. Soft errors outside the register words (R335 to R338): of the operand latch and the operand log, of vault
frames and write-log pages, of cache lines and of HBM lines. -/

namespace Sys2Proof.Machine
open Sys2Proof

/-- Count an error of a die (R338). -/
def State.countErr (s : State) (die lo n : Nat) : State :=
  s.updDie die fun d => { d with errCnt := bumpErr d.errCnt lo n }

/-- Vault data of a page fails (R335): corrected and written back, or not. -/
def State.vaultErr (s : State) (tk vpn : Nat) (fixed : Bool) (spoil : Team → Team) : State :=
  let p := (s.team tk).page vpn
  if !s.teams.has tk || !p.inVault || p.busy || s.pinned (s.team tk).core tk vpn then s
  else if fixed then s.countErr (dieOf p.frameCore) 16 16
  else (s.countErr (dieOf p.frameCore) 0 5).updTeam tk spoil

/-- A dirty line is lost with the stores that made it dirty, and enters the table (R336). -/
def State.loseDirty (s : State) (line : Nat) : State :=
  let s1 := s.dropDirty line
  match s.translateIa (line / 2 ^ 46) (line % 2 ^ 46 * 64) 64 false with
  | .ok x =>
    let pa := x.pas.headD 0
    if s.lostPa pa then s1 else (s1.loseLine (pa / 64)).markL2 (pa / 64)
  | _ => s1

/-- The HBM finds a line uncorrectable (R336): its data is gone, with the stores of every dirty copy. -/
def State.loseHbm (s : State) (line : Nat) : State :=
  ((s.dirty.keys.filter (s.lineIsAt line)).foldl State.dropDirty s).loseLine line

/-- A soft error shows itself (R335): a corrected one is counted, and changes no value; every uncorrectable one is counted
too (R338). -/
def State.softErr (s : State) : SoftErr → State
  | .latch rk i =>
    if s.hasRole rk && ((s.role rk).lanes.latches.getD i none).isSome then
      (s.updRole rk fun r =>
        { r with lanes := { r.lanes with latches := r.lanes.latches.modify i fun e => e.map fun x => { x with spoilt := true } } }).countErr
          (dieOf (s.coreOf rk)) 0 5
    else s
  | .log rk i =>
    if s.hasRole rk && (((s.role rk).flight[i]?).map LogEntry.logged).getD false then
      (s.updRole rk fun r => { r with flight := r.flight.modify i fun e => { e with spoilt := true } }).countErr
        (dieOf (s.coreOf rk)) 0 5
    else s
  | .vault tk word fixed =>
    s.vaultErr tk (word / 512) fixed fun t => { t with vbad := if t.vbad.contains word then t.vbad else word :: t.vbad }
  | .writeLog tk i fixed =>
    if (s.team tk).log.length ≤ i then s
    else s.vaultErr tk (wsFirst + i / 128) fixed fun t =>
      { t with logBad := if t.logBad.contains i then t.logBad else i :: t.logBad }
  | .cache cluster line fixed =>
    let dirty := match s.dirty.get? line with | some d => d.holder.cluster == cluster | none => false
    if 32 ≤ cluster then s
    else if fixed || !dirty then s.countErr (dieOfCluster cluster) 32 16
    else (s.loseDirty line).countErr (dieOfCluster cluster) 5 5
  | .hbm pa fixed =>
    let line := pa / 64
    if 2 ^ 40 ≤ pa ∨ fieldOf pa 36 2 = 3 then s
    else if fixed then s.countErr (dieOfPa pa) 48 16
    else if s.lostPa (64 * line) then s
    else (s.loseHbm line).countErr (dieOfPa pa) 10 6

end Sys2Proof.Machine
end

