-- ==== Sys2Proof/Machine/Xmss.lean ====
section
/-! DEFINITION. The signatures of the security root (R393): XMSS with the parameter set XMSS-SHAKE256_20_256. The spec names
the set and the standards that define it; the functions here are those of the standards (PRESUMED, log 8): SHAKE256 of
FIPS 202, the hash functions and the address format of SP 800-208 and RFC 8391, WOTS+ with w = 16, and trees of height 20. -/

namespace Sys2Proof.Machine
open Sys2Proof

/-! ## SHAKE256 -/

/-- The lanes of the Keccak state, by `x + 5 y`. -/
abbrev Keccak : Type := List (BitVec 64)

/-- A lane. -/
def kLane (a : Keccak) (x y : Nat) : BitVec 64 := a.getD (x % 5 + 5 * (y % 5)) 0

/-- A state by its lanes. -/
def kOf (f : Nat → Nat → BitVec 64) : Keccak := (List.range 25).map fun i => f (i % 5) (i / 5)

/-- Theta. -/
def kTheta (a : Keccak) : Keccak :=
  let c := (List.range 5).map fun x => (List.range 5).foldl (fun v y => v ^^^ kLane a x y) 0
  kOf fun x y => kLane a x y ^^^ c.getD ((x + 4) % 5) 0 ^^^ (c.getD ((x + 1) % 5) 0).rotateLeft 1

/-- The rotations of rho, by `x + 5 y`. -/
def kRot : List Nat :=
  [0, 1, 62, 28, 27, 36, 44, 6, 55, 20, 3, 10, 43, 25, 39, 41, 45, 15, 21, 8, 18, 2, 61, 56, 14]

/-- Rho and pi. -/
def kRhoPi (a : Keccak) : Keccak :=
  kOf fun x y =>
    let u := (x + 3 * y) % 5
    (kLane a u x).rotateLeft (kRot.getD (u + 5 * x) 0)

/-- Chi. -/
def kChi (a : Keccak) : Keccak :=
  kOf fun x y => kLane a x y ^^^ (~~~ kLane a (x + 1) y &&& kLane a (x + 2) y)

/-- The round constants of iota. -/
def kIota : List (BitVec 64) :=
  [0x0000000000000001, 0x0000000000008082, 0x800000000000808A, 0x8000000080008000, 0x000000000000808B,
   0x0000000080000001, 0x8000000080008081, 0x8000000000008009, 0x000000000000008A, 0x0000000000000088,
   0x0000000080008009, 0x000000008000000A]
  ++ [0x000000008000808B, 0x800000000000008B, 0x8000000000008089, 0x8000000000008003, 0x8000000000008002,
   0x8000000000000080, 0x000000000000800A, 0x800000008000000A, 0x8000000080008081, 0x8000000000008080,
   0x0000000080000001, 0x8000000080008008]

/-- Keccak-f[1600]. -/
def keccakF (a : Keccak) : Keccak :=
  kIota.foldl (fun s rc =>
    match kChi (kRhoPi (kTheta s)) with
    | l :: t => (l ^^^ rc) :: t
    | [] => []) a

/-- The rate of SHAKE256 in bytes. -/
def shakeRate : Nat := 136

/-- A block of the rate is absorbed. -/
def kAbsorb (a : Keccak) (bs : List Byte) : Keccak :=
  keccakF (a.zipIdx.map fun e => e.1 ^^^ BitVec.ofNat 64 (leNat ((bs.drop (8 * e.2)).take 8)))

/-- The message with the suffix and the padding of SHAKE. -/
def shakePad (m : List Byte) : List Byte :=
  let n := shakeRate - m.length % shakeRate
  m ++ (if n = 1 then [0x9F] else [0x1F] ++ List.replicate (n - 2) 0 ++ [0x80])

/-- SHAKE256 with an output of at most one block. -/
def shake256 (m : List Byte) (n : Nat) : List Byte :=
  let p := shakePad m
  let a := (List.range (p.length / shakeRate)).foldl (fun s k => kAbsorb s ((p.drop (shakeRate * k)).take shakeRate))
    (List.replicate 25 0)
  (a.flatMap fun l => leBytes 8 l.toNat).take n

/-! ## The hash functions -/

/-- A number in `n` bytes, the most significant first. -/
def beBytes (n v : Nat) : List Byte := (leBytes n v).reverse

/-- The number in some bytes, the most significant first. -/
def beNat (bs : List Byte) : Nat := leNat bs.reverse

/-- A hash with the domain number of its use. -/
def xHash (domain : Nat) (m : List Byte) : List Byte := shake256 (beBytes 32 domain ++ m) 32

/-- A hash address: layer and tree are 0. -/
structure Adrs where
  kind : Nat
  a : Nat
  b : Nat
  c : Nat
  mask : Nat
  deriving DecidableEq, Repr

/-- Its 32 bytes. -/
def Adrs.bytes (x : Adrs) : List Byte :=
  beBytes 12 0 ++ beBytes 4 x.kind ++ beBytes 4 x.a ++ beBytes 4 x.b ++ beBytes 4 x.c ++ beBytes 4 x.mask

/-- The keyed pseudo-random function at an address. -/
def xPrf (key : List Byte) (x : Adrs) (mask : Nat) : List Byte := xHash 3 (key ++ ({ x with mask := mask } : Adrs).bytes)

/-- Bytes with a mask. -/
def xMask (a b : List Byte) : List Byte := a.zipWith (fun x y => x ^^^ y) b

/-- The hash of two nodes. -/
def randHash (seed l r : List Byte) (x : Adrs) : List Byte :=
  xHash 1 (xPrf seed x 0 ++ xMask l (xPrf seed x 1) ++ xMask r (xPrf seed x 2))

/-! ## WOTS+ -/

/-- `n` steps of a chain from step `i` on. -/
def wChain (seed : List Byte) (ots chain : Nat) : Nat → Nat → List Byte → List Byte
  | _, 0, v => v
  | i, n + 1, v =>
    let x : Adrs := ⟨0, ots, chain, i, 0⟩
    wChain seed ots chain (i + 1) n (xHash 0 (xPrf seed x 0 ++ xMask v (xPrf seed x 1)))

/-- The 67 digits of a message digest with their checksum. -/
def wDigits (m : List Byte) : List Nat :=
  let ds := m.flatMap fun b => [b.toNat / 16, b.toNat % 16]
  let c := (ds.map fun d => 15 - d).sum
  ds ++ [c / 256, c / 16 % 16, c % 16]

/-- Nodes of a level of the L-tree, joined in pairs. -/
def lLevel (seed : List Byte) (ots height : Nat) : Nat → List (List Byte) → List (List Byte)
  | i, l :: r :: t => randHash seed l r ⟨1, ots, height, i, 0⟩ :: lLevel seed ots height (i + 1) t
  | _, ns => ns

/-- The L-tree over a WOTS+ public key: 67 nodes come to one in seven levels. -/
def lTree (seed : List Byte) (ots : Nat) (pk : List (List Byte)) : List Byte :=
  ((List.range 7).foldl (fun ns h => lLevel seed ots h 0 ns) pk).headD []

/-! ## Trees, signatures, verification -/

/-- A key pair of the security root: the secret seed, the key of its randomizers, the public seed. -/
structure XmssKey where
  skSeed : List Byte
  skPrf : List Byte
  pubSeed : List Byte
  deriving DecidableEq, Repr

/-- A secret value of a WOTS+ key. -/
def XmssKey.secret (k : XmssKey) (ots chain : Nat) : List Byte :=
  xHash 4 (k.skSeed ++ k.pubSeed ++ (⟨0, ots, chain, 0, 0⟩ : Adrs).bytes)

/-- The leaf of a WOTS+ key. -/
def XmssKey.leaf (k : XmssKey) (ots : Nat) : List Byte :=
  lTree k.pubSeed ots ((List.range 67).map fun i => wChain k.pubSeed ots i 0 15 (k.secret ots i))

/-- The node of a height, by its number. -/
def XmssKey.node (k : XmssKey) : Nat → Nat → List Byte
  | 0, i => k.leaf i
  | h + 1, i => randHash k.pubSeed (k.node h (2 * i)) (k.node h (2 * i + 1)) ⟨2, 0, h, i, 0⟩

/-- A public key: the root of the tree and the public seed. -/
structure XmssPub where
  root : List Byte
  seed : List Byte
  deriving DecidableEq, Repr

/-- The public key of a key pair with a tree of height `h`. -/
def XmssKey.pub (k : XmssKey) (h : Nat) : XmssPub := ⟨k.node h 0, k.pubSeed⟩

/-- The digest that a signature signs. -/
def xDigest (r root : List Byte) (idx : Nat) (m : List Byte) : List Byte := xHash 2 (r ++ root ++ beBytes 32 idx ++ m)

/-- The signature of a message by a WOTS+ key of the tree: the key's number, the randomizer, the chains, the path. -/
def xmssSign (h : Nat) (k : XmssKey) (idx : Nat) (m : List Byte) : List Byte :=
  let r := xHash 3 (k.skPrf ++ beBytes 32 idx)
  let ds := wDigits (xDigest r (k.pub h).root idx m)
  beBytes 4 idx ++ r
    ++ (ds.zipIdx.flatMap fun e => wChain k.pubSeed idx e.2 0 e.1 (k.secret idx e.2))
    ++ (List.range h).flatMap fun j => k.node j ((idx / 2 ^ j) ^^^ 1)

/-- The 32-byte words of some bytes. -/
def words32 (n : Nat) (bs : List Byte) : List (List Byte) := (List.range n).map fun i => (bs.drop (32 * i)).take 32

/-- The root to which a leaf leads by a path. -/
def pathRoot (seed : List Byte) (idx : Nat) : Nat → List Byte → List (List Byte) → List Byte
  | _, v, [] => v
  | j, v, a :: t =>
    let x : Adrs := ⟨2, 0, j, idx / 2 ^ (j + 1), 0⟩
    pathRoot seed idx (j + 1) (if idx / 2 ^ j % 2 = 0 then randHash seed v a x else randHash seed a v x) t

/-- A signature of a message verifies under a public key. -/
def xmssVerify (h : Nat) (p : XmssPub) (m sig : List Byte) : Bool :=
  let idx := beNat (sig.take 4)
  let r := (sig.drop 4).take 32
  let ds := wDigits (xDigest r p.root idx m)
  let pk := (ds.zip (words32 67 (sig.drop 36))).zipIdx.map fun e => wChain p.seed idx e.2 e.1.1 (15 - e.1.1) e.1.2
  decide (sig.length = 2180 + 32 * h) && decide (idx < 2 ^ h)
    && pathRoot p.seed idx 0 (lTree p.seed idx pk) (words32 h (sig.drop 2180)) == p.root

/-! ## The device's keys -/

/-- The height of the trees. -/
def xmssHeight : Nat := 20

/-- Bytes of a 256-bit constant. -/
def bytes256 (v : BitVec 256) : List Byte := leBytes 32 v.toNat

/-- The key pair of the device's security root. -/
def deviceKey : XmssKey := ⟨bytes256 Config.xmssSeed, bytes256 Config.xmssPrf, bytes256 Config.xmssPubSeed⟩

/-- The public key of those who sign firmware images and device identities. -/
def vendorKey : XmssPub := ⟨bytes256 Config.vendorRoot, bytes256 Config.vendorSeed⟩

/-- The device identity with its signature, as the part was made: what it says of the device, and its public key (R393). -/
def deviceIdentity : List Byte :=
  let p := deviceKey.pub xmssHeight
  bytes256 Config.deviceName ++ p.root ++ p.seed ++ leBytes 2820 Config.identitySignature

/-- The signature of the device identity verifies. -/
def identitySigned : Bool :=
  xmssVerify xmssHeight vendorKey (deviceIdentity.take 96) (deviceIdentity.drop 96)

end Sys2Proof.Machine
end

