-- ==== Sys2Proof/Machine/Window.lean ====
section
/-! DEFINITION. The privileged windows (R59, R300, R304, R309, R338, R342, R381, R391, R400), the feature set (R392) and
attestation (R393, R394). -/

namespace Sys2Proof.Machine
open Sys2Proof

/-! ## Plain registers -/

/-- Keep the bits of a mask; reserved bits read zero. -/
def keepBits (mask : Nat) (w : W64) : W64 := w &&& BitVec.ofNat 64 mask

/-- The writable bits of SEGnV: VBASE, SZ, KIND, V (R304). -/
def segVMask : Nat := 0x00FFFFFFFFFFFC0D

/-- The writable bits of SEGnI: IBASE (R304). -/
def segIMask : Nat := 0x000FFFFFFFFF0000

/-- The writable bits of a die map entry: ROOT, DIE, V (R309). -/
def dieMapMask : Nat := 0x000FFFFFFFFFF807

/-- The writable bits of a peer register (R400). -/
def peerMask : Nat := 0xFFC0FFFFFFFFFFFF

/-- Clear the W1C fields, given by lowest bit and width, in which `v` has a bit set. -/
def clearFields (w v : W64) (fs : List (Nat × Nat)) : W64 :=
  BitVec.ofNat 64 (fs.foldl (fun n f => if fieldOf v.toNat f.1 f.2 = 0 then n else n - fieldOf n f.1 f.2 * 2 ^ f.1) w.toNat)

/-- The fields of ERRCNT (R338). -/
def errFields : List (Nat × Nat) := [(48, 16), (32, 16), (16, 16), (10, 6), (5, 5), (0, 5)]

/-- VFPERF after a write: CMIN and CMAX; OUTRNG is W1C (R300). -/
def vfPerfWrite (old v : W64) : W64 :=
  BitVec.ofNat 64 ((clearFields old v [(48, 16)]).toNat / 2 ^ 48 * 2 ^ 48 + fieldOf v.toNat 0 4)

/-- REGERR after a write: both fields are W1C (R59). -/
def Core.clearRegErr (c : Core) (v : W64) : Core :=
  { c with mchk := if fieldOf v.toNat 32 16 = 0 then c.mchk else 0,
           repaired := if fieldOf v.toNat 0 32 = 0 then c.repaired else 0 }

/-- A range register with another value: SEGnI or SEGnV. -/
def setRange (m : NMap W64 × NMap W64) (isI : Bool) (n : Nat) (val : W64) : NMap W64 × NMap W64 :=
  if isI then (m.1, m.2.set 0 n val) else (m.1.set 0 n val, m.2)

/-- The value of a range register. -/
def rangeOf (m : NMap W64 × NMap W64) (isI : Bool) (n : Nat) : W64 := if isI then m.2.get 0 n else m.1.get 0 n

/-- The newest values of the range registers. -/
def Vf.newSeg (v : Vf) : NMap W64 × NMap W64 :=
  match v.segAlt with
  | none => (v.segV, v.segI)
  | some a => (a.segV, a.segI)

/-- A range register of a context is written (R304, R307). In a busy context each access may from here on use the new value or
one that the register had before, since the context was last quiet (log 44). -/
def Vf.writeSeg (v : Vf) (busy isI : Bool) (n : Nat) (val : W64) : Vf :=
  let old := v.newSeg
  let new := setRange old isI n val
  if busy then
    { v with segAlt := some ⟨new.1, new.2, ((isI, n), rangeOf old isI n) :: (v.segAlt.map SegAlt.olds).getD []⟩ }
  else { v with segV := new.1, segI := new.2, segAlt := none }

/-- For the accesses from here on a range register of a busy context has its new value, or one of its old ones (R307). -/
def Vf.flipSeg (v : Vf) (isI : Bool) (n : Nat) (val : W64) : Vf :=
  match v.segAlt with
  | none => v
  | some a =>
    if rangeOf (a.segV, a.segI) isI n = val ∨ a.olds.contains ((isI, n), val) then
      let m := setRange (v.segV, v.segI) isI n val
      { v with segV := m.1, segI := m.2 }
    else v

/-- REGISTER_WRITE (R381): a register with no behaviour of its own. -/
def execRegisterWrite (reg : WinReg) (val : W64) (s : State) : Res :=
  match reg with
  | .segV vf n => .next (s.updVf vf fun v => v.writeSeg (s.vfBusy vf) false n.val (keepBits segVMask val))
  | .segI vf n => .next (s.updVf vf fun v => v.writeSeg (s.vfBusy vf) true n.val (keepBits segIMask val))
  | .wbtBase vf => .next (s.updVf vf fun v => { v with wbtBase := keepBits 0x00FFFFFFFFFFF000 val })
  | .wbtCnt vf => .next (s.updVf vf fun v => { v with wbtCnt := keepBits 0xFFFFFF val })
  | .vfPerf vf => .next (s.updVf vf fun v => { v with vfPerf := vfPerfWrite v.vfPerf val })
  | .hostWinBase vf n => .next (s.updVf vf fun v => { v with hostBase := v.hostBase.set 0 n.val val })
  | .hostWinSize vf n =>
    .next (s.updVf vf fun v => { v with hostSize := v.hostSize.set 0 n.val (keepBits 0xFFFFFFFFFFFFF000 val) })
  | .peer vf n => .next (s.updVf vf fun v => { v with peers := v.peers.set 0 n.val (keepBits peerMask val) })
  | .dieMap part region =>
    .next (s.updPart part fun p => { p with dieMap := p.dieMap.set 0 region.toNat (keepBits dieMapMask val) })
  | .errCnt die => .next (s.updDie die.val fun d => { d with errCnt := clearFields d.errCnt val errFields })
  | .regErr core => .next (s.updCore core fun c => c.clearRegErr val)

/-- A fault ring register after a write (R381). -/
def Vf.setRing (v : Vf) (reg : RingReg) (val : W64) : Vf :=
  match reg with
  | .base => { v with frBase := val }
  | .size => { v with frSize := val }
  | .tail => { v with frTail := val }
  | .head => { v with frHead := val }

/-- FAULT_RING_REG_WRITE (R381): after a write of FRBASE, FRSIZE or FRTAIL the held records are written as far as they
go. -/
def execFaultRingRegWrite (vf : Nat) (reg : RingReg) (val : W64) (s : State) : Res :=
  let s1 := s.updVf vf fun v => v.setRing reg val
  .next (if reg = .head then s1 else s1.flushRecs vf)

/-- POSTCLR (R400, R406): one post is freed, or every post of the VF. -/
def execPostclr (vf : Nat) (handle : W64) (s : State) : Res :=
  .next (s.updVf vf fun v =>
    { v with posts := if handle = BitVec.allOnes 64 then [] else v.posts.filter fun p => p.handle != handle })

/-! ## Bring-up -/

/-- The device's security root checks the signature of a firmware image at bring-up (R393, R394). -/
def State.loadFirmware (s : State) (image signature : List Byte) : State :=
  if s.acceptLocked then s else { s with firmware := xmssVerify xmssHeight vendorKey image signature }

/-- ACCEPT (R392): a subset of OFFER with bit 0, once; while no firmware has been verified the device remains at bring-up
(R394). -/
def execAccept (val : BitVec 128) (s : State) : Res :=
  if !s.firmware || s.acceptLocked || val &&& ~~~s.offer != 0 || !val.getLsbD 0 then .next s
  else .next { s with accept := val, acceptLocked := true }

/-! ## Reading -/

/-- PARTCFG (R381): the owned clusters. -/
def State.partcfg (s : State) (part : Nat) : Nat := (s.ownedClusters part).foldl (fun n c => n + 2 ^ c) 0

/-- A register of the windows with no behaviour of its own, as software reads it (R381). -/
def State.readReg (s : State) (reg : WinReg) : W64 :=
  match reg with
  | .segV vf n => (s.vf vf).newSeg.1.get 0 n.val
  | .segI vf n => (s.vf vf).newSeg.2.get 0 n.val
  | .wbtBase vf => (s.vf vf).wbtBase
  | .wbtCnt vf => (s.vf vf).wbtCnt
  | .vfPerf vf => (s.vf vf).vfPerf
  | .hostWinBase vf n => (s.vf vf).hostBase.get 0 n.val
  | .hostWinSize vf n => (s.vf vf).hostSize.get 0 n.val
  | .peer vf n => (s.vf vf).peers.get 0 n.val
  | .dieMap part region => (s.part part).dieMap.get 0 region.toNat
  | .errCnt die => (s.die die.val).errCnt
  | .regErr core => BitVec.ofNat 64 ((s.core core).mchk % 2 ^ 16 * 2 ^ 32 + (s.core core).repaired % 2 ^ 32)

/-- The other registers that software reads through a window (R381): of a VF FAREBAL, FARETOT, FAREREP, FARESH, OVFCNT,
FRBASE, FRSIZE, FRHEAD and FRTAIL; PARTCFG; PWRCFG; the status of a partition's latest MIGRATE request; an entry of a core's
scratch translation table; DEPCAP; CAPCORE; the halves of OFFER and ACCEPT; and the registers that are only written, FAREADD,
ANSWER, PREEMPT, POSTCLR and LOSTCLR (R6). -/
inductive ReadReg where
  | fareAdd (vf : Nat)
  | answer (vf : Nat)
  | preempt (vf : Nat)
  | postClr (vf : Nat)
  | lostClr (part : Nat)
  | migrate (part : Nat)
  | fareBal (vf : Nat)
  | fareTot (vf : Nat)
  | fareRep (vf : Nat)
  | fareSh (vf : Nat)
  | ovfCnt (vf : Nat)
  | frBase (vf : Nat)
  | frSize (vf : Nat)
  | frHead (vf : Nat)
  | frTail (vf : Nat)
  | partcfg (part : Nat)
  | pwrCfg (cluster : Nat)
  | scratchEntry (core n : Nat)
  | depCap (stack : Nat)
  | capCore (cluster : Nat)
  | offer (upper : Bool)
  | accept (upper : Bool)
  deriving DecidableEq, Repr

/-- The word of an entry of a scratch translation table (R204). -/
def State.entryWord (s : State) (core : Nat) (e : Entry) : W64 :=
  let t := s.team e.1
  let p := e.2.2
  let local_ (n : Nat) : Nat := if p.kind ≤ 1 then n else 0
  BitVec.ofNat 64 (2 ^ 63 + p.kind % 4 * 2 ^ 61 + b2n p.busy * 2 ^ 60 + b2n (s.pinned core e.1 e.2.1) * 2 ^ 59
    + b2n p.acc * 2 ^ 58 + b2n p.dirty * 2 ^ 57 + p.ver % 16 * 2 ^ 53 + b2n (decide (wsFirst ≤ e.2.1)) * 2 ^ 52
    + t.slot % 16 * 2 ^ 48 + e.2.1 % 8192 * 2 ^ 35 + (if p.kind = 1 then p.frameCore % 15 else 0) * 2 ^ 31
    + local_ (p.frame % 2048) * 2 ^ 20 + b2n p.orph * 2 ^ 19
    + (if p.orph then t.swid.getD 0 % 2 ^ 15 else 0) * 2 ^ 4)

/-- What software reads of such a register (R381). An entry of a scratch translation table that is not valid reads 0 (log 66).
The word for each MIGRATE status is a free value (log 28). -/
def State.readWindow (s : State) (reg : ReadReg) : W64 :=
  match reg with
  | .fareAdd _ => 0
  | .answer _ => 0
  | .preempt _ => 0
  | .postClr _ => 0
  | .lostClr _ => 0
  | .migrate part => Config.migStatusWord (s.part part).migStatus.num
  | .fareBal vf => (s.vf vf).fareBal
  | .fareTot vf => (s.vf vf).fareTot
  | .fareRep vf => (s.vf vf).fareRep
  | .fareSh vf => (s.vf vf).fareSh
  | .ovfCnt vf => (s.vf vf).ovfCnt
  | .frBase vf => (s.vf vf).frBase
  | .frSize vf => (s.vf vf).frSize
  | .frHead vf => (s.vf vf).frHead
  | .frTail vf => (s.vf vf).frTail
  | .partcfg part => BitVec.ofNat 64 (s.partcfg part)
  | .pwrCfg cluster => (s.cluster cluster).pwrCfg
  | .scratchEntry core n => (((s.entriesOn core).find? fun e => e.2.2.idx == n).map (s.entryWord core)).getD 0
  | .depCap stack => BitVec.ofNat 64 ((s.stk stack).depCap % 256)
  | .capCore cluster => BitVec.ofNat 64 ((s.cluster cluster).capCore % 2 ^ 15)
  | .offer upper => BitVec.ofNat 64 (s.offer.toNat / 2 ^ (if upper then 64 else 0))
  | .accept upper => BitVec.ofNat 64 (s.accept.toNat / 2 ^ (if upper then 64 else 0))

/-! ## Attestation -/

/-- The partition's pseudo-channel set, one bit each. -/
def State.pchSet (s : State) (part : Nat) : Nat :=
  ((List.range 768).filter fun n => s.pchOwner.get 0 n == part).foldl (fun m n => m + 2 ^ n) 0

/-- What a report binds (R394): measurement, PARTCFG, pseudo-channels, ACCEPT, nonce. -/
def State.reportBody (s : State) (part : Nat) (nonce : BitVec 256) : List Byte :=
  leBytes 32 Config.firmwareMeasurement.toNat ++ leBytes 8 (s.partcfg part) ++ leBytes 96 (s.pchSet part)
    ++ leBytes 16 s.accept.toNat ++ leBytes 32 nonce.toNat

/-- ATTESTATION_REQUEST (R393, R394): the key index is advanced before the signature is released; with every key used,
KEYSPENT is reported and nothing is signed. The report carries the signed device identity (DESIGN CHOICE, log 8). -/
def execAttestationRequest (vf : Nat) (nonce : BitVec 256) (s : State) : Res :=
  if 2 ^ 20 ≤ s.xmssIndex then .next { s with outbox := s.outbox ++ [.report 1 vf] }
  else
    let body := s.reportBody (s.vf vf).part nonce
    let sig := xmssSign xmssHeight deviceKey s.xmssIndex body
    .next { s.updVf vf (fun v => { v with report := body ++ deviceIdentity ++ sig }) with xmssIndex := s.xmssIndex + 1 }

end Sys2Proof.Machine
end

