-- ==== Sys2Proof/Machine/Package.lean ====
section
/-! DEFINITION. Package events: reset (R303), the HBM stacks (R360, R361), leases (R298), ports (R399), and the word
that names no instruction (R65). -/

namespace Sys2Proof.Machine
open Sys2Proof

/-- A cluster after package reset, on this part. -/
def Cluster.afterReset (k : Cluster) : Cluster := { Cluster.reset with capCore := k.capCore, sensor := k.sensor }

/-- A stack after package reset, on this part. -/
def Stack.afterReset (k : Stack) : Stack := { Stack.reset with depCap := k.depCap }

/-- A core after package reset, on this part. -/
def Core.afterReset (c : Core) : Core := { Core.reset with fareFactor := c.fareFactor }

/-- The package after reset (R294, R303, R393): what the part fixes stays, with its fuses, its owners, what it has sent,
what is to come, and the counter of free values. -/
def State.packageReset (s : State) : State :=
  { State.reset with
    agenda := s.agenda, free := s.free, outbox := s.outbox, offer := s.offer, xmssIndex := s.xmssIndex
    pchOwner := s.pchOwner, clusterOwner := s.clusterOwner
    clusters := s.clusters.map fun e => (e.1, e.2.afterReset)
    cores := s.cores.map fun e => (e.1, e.2.afterReset)
    hbmStacks := s.hbmStacks.map fun e => (e.1, e.2.afterReset) }

/-- PACKAGE_RESET (R303): state is cleared, and the first LEVEL is computed last; the next is due 10,000 ref ticks later. -/
def execPackageReset (s : State) : Res := .next s.packageReset.newLevels

/-- A stack exists. -/
def stackOk (die stack : Nat) : Bool := decide (die < 4) && decide (stack < 3)

/-- A stack after a reading (R360, R361). -/
def Stack.sample (k : Stack) (t : Nat) : Stack :=
  let hot := if k.hot then decide (82 < t) else decide (85 < t)
  { k with temp := t, maxt := Nat.max k.maxt t, hot := hot,
           pendingPeriod := if hot = k.hot then k.pendingPeriod else some (if hot then 1950 else 3900) }

/-- A reading is due (R360): 1,000 ref ticks after the one before; the spec does not say when the first one comes. -/
def Stack.sampleDue (k : Stack) (now : Nat) : Bool :=
  match k.sampled with
  | some t => decide (t < now) && (now - t) % 1000 == 0
  | none => true

/-- HBM_TEMP_SAMPLE (R360). -/
def execHbmTempSample (die stack : Nat) (temp : Byte) (s : State) : Res :=
  let now := s.refTick.toNat
  if stackOk die stack && (s.stk (3 * die + stack)).sampleDue now then
    .next (s.updStk (3 * die + stack) fun k => { k.sample temp.toNat with sampled := some now })
  else .next s

/-- At a ref tick that is a multiple of 3,900 a change of period takes effect (R360). -/
def Stack.switchPeriod (k : Stack) (now : Nat) : Stack :=
  if now % 3900 = 0 then { k with period := k.pendingPeriod.getD k.period, pendingPeriod := none } else k

/-- REFRESH_PERIOD_SWITCH (R360): at a ref tick that is a multiple of 3,900. -/
def execRefreshPeriodSwitch (die stack : Nat) (s : State) : Res :=
  if stackOk die stack then .next (s.updStk (3 * die + stack) fun k => k.switchPeriod s.refTick.toNat) else .next s

/-- A ref tick at which pseudo-channel `j` begins a refresh (R360). -/
def refreshTick (t j period : Nat) : Bool := ((t : Int) - 60 * j) % period == 0

/-- A refresh begins, if one is due now (R360). -/
def Stack.startRefresh (k : Stack) (now pch : Nat) : Stack :=
  if refreshTick now pch k.period then { k with refreshing := k.refreshing.set none pch (some now) } else k

/-- REFRESH_START (R360). -/
def execRefreshStart (die stack pch : Nat) (s : State) : Res :=
  if stackOk die stack && decide (pch < 64) then
    .next (s.updStk (3 * die + stack) fun k => k.startRefresh s.refTick.toNat pch)
  else .next s

/-- A refresh ends 350 ref ticks after it began, and the transfers that waited for it go on (R360). -/
def Stack.endRefresh (k : Stack) (now pch : Nat) : Stack :=
  match k.refreshing.get none pch with
  | some t =>
    if t + 350 ≤ now then
      { k with refreshing := k.refreshing.set none pch none, delayed := k.delayed.filter fun d => pchOf d.2 % 64 != pch }
    else k
  | none => k

/-- REFRESH_END (R360): 350 ref ticks later. -/
def execRefreshEnd (die stack pch : Nat) (s : State) : Res :=
  if stackOk die stack && decide (pch < 64) then
    .next (s.updStk (3 * die + stack) fun k => k.endRefresh s.refTick.toNat pch)
  else .next s

/-- What falls due at a stack at a ref tick: the period, then the ends and the beginnings of refreshes (R360). -/
def Stack.refresh (k : Stack) (now : Nat) : Stack :=
  (List.range 64).foldl (fun k j => (k.endRefresh now j).startRefresh now j) (k.switchPeriod now)

/-- What falls due at this ref tick at every stack of the package. -/
def State.refreshAll (s : State) : State :=
  (List.range 12).foldl (fun u n =>
    let k := (u.stk n).refresh u.refTick.toNat
    if k = u.stk n then u else u.updStk n fun _ => k) s

/-- LEASE_EXPIRE (R298): the lease's time is over, and the cluster adopts its class anew. -/
def execLeaseExpire (tk : Nat) (s : State) : Res :=
  match (s.team tk).lease with
  | some (_, 0) => .next ((s.updTeam tk fun t => { t with lease := none }).adopt (clusterOf (s.team tk).core))
  | _ => .next s

/-- PORT_DOWN (R399, R403): a port goes down, from this ref tick on, or comes back up. -/
def execPortDown (port : Fin 8) (down : Bool) (s : State) : Res := .next 
  { s with ports := s.ports.set none port.val (if down then some ((s.ports.get none port.val).getD s.refTick.toNat) else none) }

/-- ILLEGAL (R65): a word that names no instruction. -/
def execIllegal (s : State) : Res :=
  match s.cur with
  | .scalar rk => .next (s.raiseS rk .illegal 0)
  | .lane _ => .next (s.laneFault .illegal)
  | .row _ => .next (s.laneFault .illegal)
  | _ => .fault .wrongAgent

end Sys2Proof.Machine
end

