-- ==== Sys2Proof/Machine/Issue.lean ====
section
/-! DEFINITION. Issue: which role an issue boundary goes to (R159 to R161, R191, R294, R295, R301, R302), the fetch and
decode of its word (R60, R61, R80, R180, R192, R392), and what each kind of move does before and beside the word, event
or command that it runs (log 1). -/

namespace Sys2Proof.Machine
open Sys2Proof

/-- What a move comes to: a state, and what is to be executed in it. -/
structure Pick where
  state : State
  run : Option (Agent × Instr)
  deriving DecidableEq, Repr

/-! ## The next word of a stream -/

/-- What stands at a stream's PC. -/
inductive Peek where
  | instr (i : Instr)
  | fetch (va : Nat) (f : Fetched)
  deriving DecidableEq, Repr

/-- A decoded word, or a word that raises ILLEGAL: not assigned, or its feature not accepted (R61, R80). -/
def State.legalOr (s : State) (i : Option Instr) : Instr :=
  match i with
  | some i => if s.featureOk i then i else .illegal
  | none => .illegal

/-- The word at the scalar PC; a prefix needs the word behind it (R71, R180). -/
def State.peekScalar (s : State) (rk : Nat) : Peek :=
  let a := (s.role rk).pc.toNat
  match s.fetchScalar rk a with
  | .word w =>
    if w / 2 ^ 25 % 2 ^ 7 = 0x7F && (decodeScalar w 0).isSome then
      (match s.fetchScalar rk (a + 4) with
       | .word n => .instr (s.legalOr (decodeScalar w n))
       | f => .fetch (a + 4) f)
    else .instr (s.legalOr (decodeScalar w 0))
  | f => .fetch a f

/-- The word at the lane PC (R60, R192). -/
def State.peekLane (s : State) (rk : Nat) : Peek :=
  let n := (s.role rk).laneIndex
  match s.fetchLane rk n with
  | .word w => .instr (s.legalOr (decodeLane w))
  | f => .fetch ((s.launchOf rk).laneAt n) f

/-- The next word of a stream. -/
def State.peek (s : State) (rk : Nat) (lane : Bool) : Peek := if lane then s.peekLane rk else s.peekScalar rk

/-! ## Costs -/

/-- A floating-point or conversion word (R382). -/
def isFloatWord : Instr → Bool
  | .vfadd .. => true | .vfsub .. => true | .vfmul .. => true | .vfma .. => true | .vfmin .. => true
  | .vfmax .. => true | .vfcmp .. => true | .vfclass .. => true | .vfaddImm .. => true | .vfsubImm .. => true
  | .vfmulImm .. => true | .vfminImm .. => true | .vfmaxImm .. => true | .vfcmpImm .. => true | .vcvt .. => true
  | .vqnt .. => true | .vdqnt .. => true | .vpack .. => true | .vunpk .. => true | .vwbupd .. => true
  | _ => false

/-- A transcendental word (R382). -/
def isTranscendental : Instr → Bool
  | .vfrcp .. => true | .vfrsq .. => true | .vfsqrt .. => true | .vfexp2 .. => true | .vflog2 .. => true
  | .vftanh .. => true
  | _ => false

/-- A lane memory word. -/
def isMemWord : Instr → Bool
  | .vld .. => true | .vst .. => true | .vlds .. => true | .vsts .. => true | .vatom .. => true | .vpref .. => true
  | _ => false

/-- The estimate of a lane word's pass, in 1/16 pJ (R294, R382). -/
def laneEstimate (i : Instr) : Nat :=
  if isTranscendental i then 1920 else if isFloatWord i then 960 else if isMemWord i then 640 else 480

/-- The estimate of a word: a scalar instruction, or a pass. A word that cannot be fetched has none. -/
def Peek.estimate (p : Peek) (lane : Bool) : Nat :=
  match p with
  | .instr i => if lane then laneEstimate i else 64
  | .fetch _ _ => 0

/-- Groups whose mask word is not zero (R128). -/
def Lanes.maskGroups (l : Lanes) : Nat :=
  ((List.range l.groups).filter fun g => l.base.extractLsb' (32 * g) 32 != 0).length

/-- How many passes, or clk of occupancy, a lane word issues (R125, R128, R145, R146, R230). -/
def lanePasses (i : Instr) (l : Lanes) : Nat :=
  match i with
  | .vif .. => l.maskGroups | .velse _ => l.maskGroups | .vendif _ => l.maskGroups
  | .vnop _ => 1
  | .vregroup .. => 2 + l.groups * ((l.budget + 63) / 64)
  | .vmma _ => 1 | .vmmas _ => 1 | .vaccz .. => 1 | .vaccrd .. => 1 | .vaccsc .. => 1
  | _ => l.passes.length

/-- How many estimates a word costs. -/
def Peek.passes (p : Peek) (lane : Bool) (l : Lanes) : Nat :=
  match p with
  | .instr i => if lane then lanePasses i l else 1
  | .fetch _ _ => 0

/-! ## Who is ready -/

/-- The stream of a role is not parked and has a word to issue (R159, R160). A scalar stream that is about to take the
RESCALE trap issues none before it (R269), unless its instruction has been performed in part, which comes to its end, before a
pre-emption too (R165); and one whose transfer waits for a refresh issues none at all (R360). -/
def State.ready (s : State) (rk : Nat) (lane : Bool) : Bool :=
  let t := s.team (teamOf rk)
  let r := s.role rk
  s.awake rk && t.phase == .running
    && (if lane then t.suspend.isNone && r.lpark == .none && !r.blocks.isEmpty
        else r.spark == .none && !r.finished && ((t.suspend.isNone && !r.rescale) || !r.part.isEmpty) && !s.delays (.scalar rk))

/-- The YIELD of a role is in force at this slot (R191). -/
def Role.yields (r : Role) (lane : Bool) : Bool := decide (2 ≤ if lane then r.yieldL else r.yieldS)

/-- Boundaries at which the role has been ready without being issued (R161). -/
def Role.waited (r : Role) (lane : Bool) : Nat := if lane then r.readyL else r.readyS

/-- One role goes before another: starved roles first (R161), then priority, age and index (R160). -/
def State.before (s : State) (lane : Bool) (a b : Nat) : Bool :=
  let sa := decide (64 ≤ (s.role a).waited lane)
  let sb := decide (64 ≤ (s.role b).waited lane)
  let pa := (s.launchOf a).prio
  let pb := (s.launchOf b).prio
  let ga := (s.team (teamOf a)).age
  let gb := (s.team (teamOf b)).age
  if sa != sb then sa
  else if pa ≠ pb then decide (pa < pb)
  else if ga ≠ gb then decide (ga < gb)
  else decide (roleIdx a ≤ roleIdx b)

/-- Insert a role in an order. -/
def State.insRole (s : State) (lane : Bool) (a : Nat) : List Nat → List Nat
  | [] => [a]
  | b :: t => if s.before lane a b then a :: b :: t else b :: s.insRole lane a t

/-- Roles in the order in which a slot is offered to them. -/
def State.sorted (s : State) (lane : Bool) (rks : List Nat) : List Nat :=
  rks.foldl (fun o a => s.insRole lane a o) []

/-- The slot of a datapath: scalar and lane. -/
def slotKey (dp : Nat) (lane : Bool) : Nat := 2 * dp + b2n lane

/-- A role that STARVATION_ISSUE has chosen goes first (R161). -/
def State.granted (s : State) (core dp : Nat) (lane : Bool) (rks : List Nat) : List Nat :=
  match (s.core core).grant.get? (slotKey dp lane) with
  | some g => if rks.contains g then g :: rks.filter (fun k => k != g) else rks
  | none => rks

/-- The roles that a slot is offered to, in order: one that yields only when no other is ready (R191). Where every ready role
yields, each is another ready role to the others, and R191 by its words gives the slot to none: here it is offered to them all,
in their order (DESIGN CHOICE, log 70). -/
def State.offered (s : State) (core dp : Nat) (lane : Bool) : List Nat :=
  let rd := (s.boundTo core dp).filter fun rk => s.ready rk lane
  let main := rd.filter fun rk => !(s.role rk).yields lane
  s.granted core dp lane (s.sorted lane (if main.isEmpty then rd else main))

/-- The word of a role passes the test of the power allowance (R294). -/
def State.powerOk (s : State) (rk : Nat) (lane : Bool) : Bool :=
  let k := s.cluster (clusterOf (s.coreOf rk))
  let e := (s.peek rk lane).estimate lane
  decide (((e + (s.launchOf rk).prio * pwrResv k.pwrCfg : Nat) : Int) ≤ k.allow)

/-- STARVATION_ISSUE (R161): a role that has been ready for 64 boundaries is issued at the slot's next boundary. -/
def execStarvationIssue (core dp : Nat) (lane : Bool) (s : State) : Res :=
  match (s.offered core dp lane).find? fun rk => decide (64 ≤ (s.role rk).waited lane) with
  | some rk => .next (s.updCore core fun c => { c with grant := c.grant.put (slotKey dp lane) rk })
  | none => .next s

/-! ## A boundary -/

/-- What a boundary leaves of a role's counts: `chosen`, ready and withheld, ready, or not ready (R161); the boundaries of a
YIELD count as withheld (R191). -/
def Role.passBoundary (r : Role) (lane chosen ready held : Bool) : Role :=
  let n := if chosen || !ready then 0 else if held || r.yields lane then r.waited lane else r.waited lane + 1
  if lane then { r with readyL := n, yieldL := if 2 ≤ r.yieldL then r.yieldL - 1 else r.yieldL }
  else { r with readyS := n, yieldS := if 2 ≤ r.yieldS then r.yieldS - 1 else r.yieldS }

/-- The counts of every role of the datapath after a boundary. -/
def State.countBoundary (s : State) (core dp : Nat) (lane : Bool) (held offered : List Nat) (chosen : Option Nat) : State :=
  (s.boundTo core dp).foldl (fun t rk =>
    t.updRole rk fun r => r.passBoundary lane (chosen == some rk) (s.ready rk lane)
      (held.contains rk || !offered.contains rk)) s

/-- The cluster has withheld an issue at this ref tick (R303). -/
def Cluster.noteWithheld (k : Cluster) (now : Nat) : Cluster :=
  if k.withheld.head? = some now then k
  else { k with withheld := now :: k.withheld.filter fun t => decide (now < t + 1000) }

/-- A word that cannot be fetched: its fault (R133, R173, R180, R192, R336). -/
def State.fetchFault (s : State) (rk : Nat) (lane : Bool) (va : Nat) (f : Fetched) : State :=
  match f with
  | .word _ => s
  | .address => s.raise rk lane .address 0 va 0 0
  | .remote => s.raise rk lane .remote 0 va 0 0
  | .mcheck pa => s.machineCheck rk lane (s.lostSub pa) va pa 0
  | .page sub ia =>
    let p := Park.page (some (s.nextRec % 2 ^ 32))
    (s.raise rk lane .page sub va ia 0).updRole rk fun r => if lane then { r with lpark := p } else { r with spark := p }

/-- An access of a scalar instruction: at the home or not, in scratch or not, its address and length, and whether it
writes. -/
structure SMove where
  home : Bool
  scratch : Bool
  addr : Nat
  len : Nat
  write : Bool
  deriving DecidableEq, Repr

/-- The bytes that a scalar instruction moves (R181, R182, R189). -/
def State.scalarMove (s : State) (rk : Nat) (i : Instr) : Option SMove :=
  let val (a : SReg) : W64 := match a with | .s n => (s.role rk).sreg n.val | .q n => (s.queueOf rk n.val).headD 0
  let at_ (a : SReg) (off : BitVec 10) : Nat := scalarEa (val a) off
  let atom (a : SReg) (sc : Fin 8) : Option SMove := some ⟨sc.val != 7, sc.val == 7, (val a).toNat, 8, true⟩
  match i with
  | .ld _ a w off => some ⟨false, false, at_ a off, ldBytes w, false⟩
  | .st _ a w off => some ⟨false, false, at_ a off, stBytes w, true⟩
  | .sld _ a w off => some ⟨false, true, at_ a off, ldBytes w, false⟩
  | .sst _ a w off => some ⟨false, true, at_ a off, stBytes w, true⟩
  | .atomAdd _ a _ sc => atom a sc | .atomAnd _ a _ sc => atom a sc | .atomOr _ a _ sc => atom a sc
  | .atomXor _ a _ sc => atom a sc | .atomMin _ a _ sc => atom a sc | .atomMax _ a _ sc => atom a sc
  | .atomMinn _ a _ sc => atom a sc | .atomMaxn _ a _ sc => atom a sc | .atomSwap _ a _ sc => atom a sc
  | .atomCas _ a _ sc => atom a sc | .atomBfim _ a _ sc => atom a sc | .atomFfcs _ a _ sc => atom a sc
  | .atomPlset _ a _ sc => atom a sc
  | .barav a => some ⟨false, true, (val a).toNat, 8, true⟩
  | .barwt a => some ⟨false, true, (val a).toNat, 8, false⟩
  | _ => none

/-- The format slots that a word reads. -/
def readSlots : Instr → List (BitVec 3)
  | .vqnt _ fs _ _ _ _ => [fs]
  | .vdqnt _ fs _ _ _ _ => [fs]
  | .vmma x => [x.fsa, x.fsb]
  | .vmmas x => [x.fsa, x.fsb]
  | .vaccrd _ _ _ fs _ _ _ => [fs]
  | _ => []

/-- The write log takes the access (R249). -/
def State.moveLogged (s : State) (rk : Nat) (m : SMove) : Bool := m.write && !m.scratch && s.inTx (teamOf rk)

/-- The nominal cost of the bytes that a word moves: of a scalar access, and of the waybill reads of slots with SRC = 1 (R382).
The accesses of lanes are charged as they are performed. -/
def State.issueBytes (s : State) (rk : Nat) (i : Instr) : Nat :=
  let own := match s.scalarMove rk i with
    | some m => if s.moveLogged rk m then 16 * m.len else s.byteCost rk true m.home m.scratch m.addr m.len []
    | none => 0
  own + ((readSlots i).map fun fs =>
    let sl := slotOf ((s.launchOf rk).fslot fs.toNat)
    if sl.src then s.byteCost rk true false false ((s.vf (s.vfOf rk)).wbVa sl.wbidx) 128 [] else 0).sum

/-! ## What an issued word costs -/

/-- The scalar instruction has been performed: the stream goes on, or waits for what completes it (R169, R200, R258). -/
def State.scalarDone (after : State) (rk : Nat) : Bool :=
  let r := after.role rk
  !after.hasRole rk || (r.stopped.isNone && r.part.isEmpty &&
    match r.spark with
    | .none => true
    | .exit => true
    | .commit => true
    | .relay => r.relayed
    | _ => false)

/-- The lane word has issued: the stream is at another word, or waits for the other members of its gang (R164, R230). -/
def State.laneIssued (before after : State) (rk : Nat) : Bool :=
  let n := (before.role rk).laneNo
  !after.hasRole rk || (((after.role rk).laneNo != n || (after.role rk).lpark == .rendezvous || (after.role rk).hold.isSome)
    && (before.role rk).issuedNo != n + 1)

/-- A word of a role is charged to its team, and its estimate leaves the power allowance (R294, R382); a role that the word has
ended is charged at its core. -/
def State.chargeWord (after before : State) (rk n b : Nat) : State :=
  let core := before.coreOf rk
  if n + b = 0 then after
  else
    let s1 := if after.hasRole rk then after.chargeTeam (teamOf rk) (n + b) else after.charge core (before.vfOf rk) (n + b)
    s1.updCluster (clusterOf core) fun k => { k with allow := k.allow - n }

/-- The nominal cost of a row's word, and of the bytes that it moves from or to the HBM (R382). -/
def State.rowCost (s : State) (key : Nat) (i : Instr) : Nat :=
  let l := (s.row key).lanes
  640 + match i with
    | .dldr c m _ _ => 128 * mwBytes m.width * (l.actives c).length
    | .dstr c m _ _ => 128 * mwBytes m.width * (l.actives c).length
    | .dwat c _ _ => if (l.actives c).isEmpty then 0 else 128 * 8
    | .dtok c _ _ => if (l.actives c).isEmpty then 0 else 2848
    | .dred c _ _ _ => if (l.actives c).isEmpty then 0 else 1824
    | _ => 0

/-- What an agent's word costs, once it has been performed or has issued: a scalar instruction when it completes, a lane word
once at its issue, a row's word when the row goes on (R382, R396). `before` is the state in which it was executed. -/
def State.charged (after before : State) (a : Agent) (i : Instr) : State :=
  match a with
  | .scalar rk => if after.scalarDone rk then after.chargeWord before rk 64 (before.issueBytes rk i) else after
  | .lane rk =>
    if before.laneIssued after rk then
      let s1 := after.chargeWord before rk (laneEstimate i * lanePasses i (before.role rk).lanes) (before.issueBytes rk i)
      if after.hasRole rk then s1.updRole rk fun r => { r with issuedNo := (before.role rk).laneNo + 1 } else s1
    else after
  | .row key =>
    let rk := (before.task (before.row key).task).rk
    if after.rows.has key && (after.row key).pc == (before.row key).pc then after
    else if after.hasRole rk then after.chargeTeam (teamOf rk) (before.rowCost key i)
    else after.charge 480 (before.vfOf rk) (before.rowCost key i)
  | _ => after

/-! ## Waits of an access before it is made -/

/-- The transfers at the stacks that the fetch of a role's next word makes (R360). -/
def State.fetchLines (s : State) (rk : Nat) (lane : Bool) : List Nat :=
  if lane then s.accTransfers rk false ((s.launchOf rk).laneAt (s.role rk).laneIndex) 12 false
  else
    let a := (s.role rk).pc.toNat
    s.accTransfers rk false a 4 false ++ match s.fetchScalar rk a with
      | .word w => if w / 2 ^ 25 % 2 ^ 7 = 0x7F then s.accTransfers rk false (a + 4) 4 false else []
      | _ => []

/-- The transfers that a role's next word makes as it issues, its fetch included. -/
def State.issueLines (s : State) (rk : Nat) (lane : Bool) (i : Instr) : List Nat :=
  s.fetchLines rk lane ++ match if lane then none else s.scalarMove rk i with
    | some m => if s.orderWait rk || s.moveLogged rk m then [] else s.accTransfers rk m.scratch m.addr m.len m.write
    | none => []

/-- A transfer has to wait: its pseudo-channel is in a refresh, or a command holds its line (R336, R360). -/
def State.linesWait (s : State) (ls : List Nat) : Bool := (ls.any fun l => s.inRefresh (64 * l)) || s.anyHeld ls

/-- The chosen role's word runs, unless a transfer of it has to wait (R336, R360). -/
def State.issueRole (s : State) (rk : Nat) (lane : Bool) : Pick :=
  match s.peek rk lane with
  | .instr i =>
    let ls := s.issueLines rk lane i
    if s.linesWait ls then ⟨s.stallAll (if lane then .lane rk else .scalar rk) ls, none⟩
    else ⟨s, some (if lane then .lane rk else .scalar rk, i)⟩
  | .fetch va f => ⟨s.fetchFault rk lane va f, none⟩

/-- Does the chosen word take no clk at all, its passes all skipped (R53, R125)? It is not a boundary for the
others. -/
def State.isFree (s : State) (rk : Nat) (lane : Bool) : Bool :=
  match s.peek rk lane with
  | .instr i => lane && lanePasses i (s.role rk).lanes == 0
  | .fetch _ _ => false

/-- The state in which a boundary's word runs: what the boundary counts has been counted (R161, R191, R295, R303). -/
def State.counted (s : State) (core dp : Nat) (lane : Bool) (chosen : Option Nat) : State :=
  let os := s.offered core dp lane
  let held := os.filter fun rk => !s.powerOk rk lane
  let s1 := if held.isEmpty then s else s.updCluster (clusterOf core) fun k => k.noteWithheld s.refTick.toNat
  match chosen with
  | none => s1.countBoundary core dp lane held os none
  | some rk =>
    let s2 := s1.updCore core fun k => { k with grant := k.grant.erase (slotKey dp lane) }
    if s.isFree rk lane then s2 else s2.countBoundary core dp lane held os (some rk)

/-- An issue boundary (R160, R161, R191, R295): every role that fails the test is withheld, and the first that passes it
issues. There is none during a transition (R301), and none in near-threshold
mode (R302). -/
def State.boundary (s : State) (core dp : Nat) (lane : Bool) : Pick :=
  if (s.cluster (clusterOf core)).target.isSome || s.islandNear core (decide (2 ≤ dp)) then ⟨s, none⟩
  else match (s.offered core dp lane).find? fun rk => s.powerOk rk lane with
    | none => ⟨s.counted core dp lane none, none⟩
    | some rk => (s.counted core dp lane (some rk)).issueRole rk lane

/-! ## Engines and rows -/

/-- The command that an engine performs now. -/
def State.engineCmd (s : State) (rk q : Nat) : Option Instr :=
  match (s.engQ rk q).run with
  | some c => if c.result.isSome then none else c.instr
  | none => none

/-- An engine's turn: a fired command, which reads its block first, or the command of a role's queue, which starts first (R264,
R294, R407). The copy engine stops during a transition (R301), and while a transfer of the command waits for a refresh (R360). -/
def State.engineTurn (s : State) (rk q : Nat) : Pick :=
  if rk < firstRole then
    match s.fired.get? rk with
    | none => ⟨s, none⟩
    | some f =>
      if f.cmd.stall.isSome then ⟨s, none⟩
      else match f.cmd.instr with
        | some i => ⟨s, some (.engine rk q, i)⟩
        | none => ⟨s.readBlock rk, none⟩
  else if !s.hasRole rk || (decide (q < 4) && s.relocking (s.coreOf rk)) || s.delays (.queue rk q) then ⟨s, none⟩
  else
    let idle := (s.engQ rk q).run.isNone
    if idle && q < 4 && !s.engineMay (clusterOf (s.coreOf rk)) then ⟨s, none⟩
    else
      let s1 := s.startCmd rk q
      ⟨s1, (s1.engineCmd rk q).map fun i => (.engine rk q, i)⟩

/-- A depot runs the next word of a row, which it reads at the home as every access of a depot (R322); past its code it is an
overrun (R352 to R354). A word of which a transfer has to wait is not run yet (R336, R360). -/
def State.rowTurn (s : State) (key : Nat) : Pick :=
  let w := s.row key
  let t := s.task w.task
  if !s.rows.has key || w.stall.isSome || w.depot.isNone || s.delays (.row key) then ⟨s, none⟩
  else if t.cmd.ilen ≤ w.pc then ⟨s.rowEnd key 12, none⟩
  else
    match s.depotAcc t (codeAt t.cmd w.pc) 12 false with
    | .ok x =>
      (match decodeLane (leNat (s.homeX x)) with
       | some i =>
         if depotLegal i && s.featureOk i then
           let ls := (x.pas.map fun p => p / 64).dedup ++ s.rowTransfers key i
           if s.linesWait ls then ⟨s.stallAll (.row key) ls, none⟩ else ⟨s.notePages w.task x, some (.row key, i)⟩
         else ⟨s.rowEnd key 10, none⟩
       | none => ⟨s.rowEnd key 10, none⟩)
    | .status n => ⟨s.rowEnd key n, none⟩
    | .page sub va ia => ⟨s.rowPage key sub va ia, none⟩
    | .wait => ⟨s, none⟩

/-! ## CYCLICWAIT -/

/-- The scalar stream waits on a queue or a barrier (R186). -/
def Role.cycScalar (r : Role) : Bool :=
  match r.spark with
  | .popQ _ => true
  | .pushQ _ => true
  | .barwt _ => true
  | _ => false

/-- The first word in flight of a role waits for full granules: it has met no fault, and cannot perform (R136, R186). -/
def State.starves (s : State) (rk : Nat) : Bool :=
  match (s.role rk).flight with
  | e :: _ => e.recid.isNone && (({ s with pace := none }.kick rk).role rk).flight == (s.role rk).flight
  | [] => false

/-- The word in a role's hold waits for full granules (R186, R231). -/
def State.holdStarves (s : State) (rk : Nat) : Bool :=
  match (s.role rk).hold with
  | some w => (s.role rk).lpark == .lxHold && (s.lxMissing w).isEmpty && !s.lxFull w
  | none => false

/-- The lane stream waits on the rendezvous latch, a push, or a full/empty load (R186). -/
def State.cycLane (s : State) (rk : Nat) : Bool :=
  let r := s.role rk
  match r.lpark with
  | .rendezvous => true
  | .pushQ q => s.pushBlock rk q == .full
  | .lxHold => s.holdStarves rk
  | .none => r.blocks.isEmpty && s.starves rk
  | _ => s.starves rk

/-- An instruction whose wait R186 excludes. -/
def cycExcluded : Instr → Bool
  | .waita .. => true
  | .launch .. => true
  | .wbsync .. => true
  | .relay => true
  | .clnr .. => true
  | .invr .. => true
  | .cliv .. => true
  | _ => false

/-- The scalar stream waits for lane words before it: their accesses, their updates of waybills, or their draws (R154, R187,
R348). -/
def State.behindLane (s : State) (rk : Nat) : Bool := s.orderWait rk || s.updatesAhead rk || s.drawWait rk

/-- The scalar stream waits behind the lane stream. -/
def State.cycBehind (s : State) (rk : Nat) : Bool :=
  let r := s.role rk
  match r.spark with
  | .vrunFull => decide (8 ≤ r.entries)
  | .exit => !r.drained
  | .drain => !r.drained
  | .order => s.behindLane rk && (match s.peekScalar rk with | .instr i => !cycExcluded i | .fetch _ _ => false)
  | .fence => s.behindLane rk
  | _ => false

/-- A role that has finished, or is parked with no way out of its own (R159, R186). -/
def State.cycRole (s : State) (rk : Nat) : Bool :=
  let r := s.role rk
  let scal := r.cycScalar && !s.scalarWakes rk
  let idle := r.lpark == .none && r.blocks.isEmpty && r.flight.isEmpty
  r.finished || (r.stopped.isNone && ((s.cycLane rk && (scal || s.cycBehind rk)) || (idle && scal)))

/-- Each unfinished role of a team is parked with no way out, and no command of it is incomplete (R186). -/
def State.cyclicNow (s : State) (tk : Nat) : Bool :=
  let t := s.team tk
  t.resident && t.service.isEmpty && (s.rolesOf tk).any (fun rk => !(s.role rk).finished)
    && (s.rolesOf tk).all fun rk => s.cycRole rk && (s.role rk).queuesDone

/-- The CYCLICWAIT records of a team: one of the team, and one for each role (R186, R340). -/
def State.cyclicRecords (s : State) (tk : Nat) : State :=
  let vf := (s.launch (lidOf tk)).vf
  let info : RecInfo := { (s.roleInfo (roleKey tk 0) false .cyclicwait 0 0 0 0 false) with role := 0xFF, pc := 0 }
  (s.rolesOf tk).foldl (fun t rk =>
    let lane := !(t.role rk).cycScalar
    t.addRec vf (t.roleInfo rk lane .cyclicwait 0 0 0 0 false) (some rk)) (s.addRec vf info none)

/-- CYCLICWAIT (R186): the wait has lasted 2^20 ref ticks. The team stays parked. -/
def execCyclicwait (tk : Nat) (s : State) : Res :=
  let t := s.team tk
  if s.cyclicNow tk && decide (2 ^ 20 ≤ t.cyclic) && !t.cyclicRec then
    .next ((s.cyclicRecords tk).updTeam tk fun t => { t with cyclicRec := true })
  else .next s

/-! ## Time -/

/-- One ref tick less. -/
def downTick (n : Option Nat) : Option Nat := n.map fun k => k - 1

/-- A role after a ref tick, which it has been parked on memory or has not (R190, R302). -/
def Role.tick (r : Role) (onMemory : Bool) : Role :=
  { r.onWaits (fun w => { w with left := downTick w.left }) with
    parkTicks := if onMemory then Nat.min 1000 (r.parkTicks + 1) else 0 }

/-- A team after a ref tick: its grace window, its lease while it is resident, and how long its roles have waited for
each other (R186, R253, R298). -/
def Team.tick (t : Team) (cyc : Bool) : Team :=
  { t with
    grace := t.grace.map fun g => { g with left := g.left - 1 }
    lease := if t.resident then t.lease.map (fun l => (l.1, l.2 - 1)) else t.lease
    cyclic := if cyc then t.cyclic + 1 else 0
    cyclicRec := t.cyclicRec && cyc }

/-- A VF after a ref tick (R409). -/
def Vf.tick (v : Vf) : Vf := { v with stalls := v.stalls.map fun e => { e with left := e.left - 1 } }

/-- A gang after a ref tick (R414). -/
def Gang.tick (g : Gang) : Gang := { g with window := downTick g.window }

/-- The contexts that have a team on a core. -/
def State.residents (s : State) (core : Nat) : List Nat :=
  ((s.teams.filter fun e => e.2.resident && e.2.core == core).map fun e => (s.launch (lidOf e.1)).vf).dedup

/-- A core after a ref tick of some resident contexts (R382). -/
def Core.tick (c : Core) (vfs : List Nat) : Core :=
  { c with stay := vfs.foldl (fun m v => m.put v (m.get 0 v + 1)) c.stay }

/-- The counts of a ref tick (R2, R3). A flit and its retries lie within one (log 28). -/
def State.count (s : State) : State :=
  { s with
    refTick := s.refTick + 1
    roles := s.roles.map fun e => (e.1, e.2.tick (s.onMemory e.1 e.2))
    teams := s.teams.map fun e => (e.1, e.2.tick (s.cyclicNow e.1))
    vfs := s.vfs.map fun e => (e.1, e.2.tick)
    gangs := s.gangs.map fun e => (e.1, e.2.tick)
    cores := s.cores.map fun e => (e.1, e.2.tick (s.residents e.1))
    links := [] }

/-- One ref tick passes: what falls due at the stacks at the old one and at the new one takes place (R360). -/
def State.tick (s : State) : State := s.refreshAll.count.refreshAll

/-- A cache writes a dirty line back (R322); the write waits for a refresh (R360). -/
def State.evict (s : State) (line : Nat) : State :=
  match s.translateIa (line / 2 ^ 46) (line % 2 ^ 46 * 64) 64 false with
  | .ok x =>
    let ls := if s.dirty.has line then (x.pas.map fun p => p / 64).dedup else []
    if ls.any fun l => s.inRefresh (64 * l) then s.stallAll (.line line) ls else s.writeBack line
  | _ => s.writeBack line

/-- A cache takes up a line as a clean copy, or drops it (R286). -/
def State.cacheLine (s : State) (c : CacheAt) (line : Nat) (held : Bool) : State :=
  if held then { s with cached := if s.cached.contains (c, line) then s.cached else (c, line) :: s.cached }
  else { s with cached := s.cached.filter fun e => e != (c, line) }

/-- A port reaches the peer of a VF, or has not from this ref tick on (R403). -/
def State.reachPeer (s : State) (vf peer port : Nat) (ok : Bool) : State :=
  s.updVf vf fun v =>
    let k := 8 * peer + port
    { v with unreached := v.unreached.set none k (if ok then none else some ((v.unreached.get none k).getD s.refTick.toNat)) }

/-- One clk of a core (R198). -/
def State.clkTick (s : State) (core : Nat) : State := s.updCore core fun c => { c with clkCnt := c.clkCnt + 1 }

/-- A soft error in a register word of a role (R57, R58). -/
def Role.flip (r : Role) (word : Nat) (dup : Bool) : Role :=
  if word / 256 < 32 * r.lanes.groups ∧ word % 256 * 4 < r.lanes.budget then
    { r with lanes := { r.lanes with bad := r.lanes.bad.put word dup } }
  else r

/-- A soft error in a register word. It has a duplicate only where the datapath has bytes for one that no role has allocated
(R57). -/
def State.flip (s : State) (rk word : Nat) (dup : Bool) : State :=
  let core := s.coreOf rk
  let dp := (s.role rk).dp
  let dups := ((s.boundTo core dp).map fun k => ((s.role k).lanes.bad.filter fun e => e.2).length).sum
  if s.hasRole rk then s.updRole rk fun r => r.flip word (dup && decide (4 * (dups + 1) ≤ s.dpRoom core dp)) else s

/-- The host acknowledges a write of the command of a queue (R391). -/
def State.hostAck (s : State) (rk q : Nat) : State :=
  if s.hasRole rk && (s.engQ rk q).run.isSome then s.updCmd rk q fun c => { c with acks := c.acks - 1 } else s

/-- The registers of windows exist for 256 VFs, 32 partitions and 480 cores (R381). -/
def winRegOk : WinReg → Bool
  | .segV vf _ => decide (vf < 256)
  | .segI vf _ => decide (vf < 256)
  | .wbtBase vf => decide (vf < 256)
  | .wbtCnt vf => decide (vf < 256)
  | .vfPerf vf => decide (vf < 256)
  | .hostWinBase vf _ => decide (vf < 256)
  | .hostWinSize vf _ => decide (vf < 256)
  | .peer vf _ => decide (vf < 256)
  | .dieMap part _ => decide (part < 32)
  | .errCnt _ => true
  | .regErr core => decide (core < 480)

/-- What an event of the outside names exists: VFs, partitions, dies, clusters and cores (R1, R381). -/
def eventInRange : Instr → Bool
  | .registerWrite reg _ => winRegOk reg
  | .faultRingRegWrite vf _ _ => decide (vf < 256)
  | .launchMessage vf _ => decide (vf < 256)
  | .fareadd vf _ => decide (vf < 256)
  | .preemptGrace vf => decide (vf < 256)
  | .preemptResume vf => decide (vf < 256)
  | .preemptKillAll vf => decide (vf < 256)
  | .preemptAbort vf => decide (vf < 256)
  | .answerRetry vf _ => decide (vf < 256)
  | .answerKill vf _ => decide (vf < 256)
  | .postclr vf _ => decide (vf < 256)
  | .lostclr part _ => decide (part < 32)
  | .migrate part _ _ => decide (part < 32)
  | .translationInvalidate part _ => decide (part < 32)
  | .migrateLineStep die _ => decide (die < 4)
  | .migrateCancel die _ => decide (die < 4)
  | .migrateResume die _ => decide (die < 4)
  | .migrateReverse die _ => decide (die < 4)
  | .waybillMerge die vf _ => decide (die < 4) && decide (vf < 256)
  | .waybillAgeExpiry die vf _ => decide (die < 4) && decide (vf < 256)
  | .scrub die _ _ => decide (die < 4)
  | .pwrcfgWrite cluster _ => decide (cluster < 32)
  | .transitionDone cluster => decide (cluster < 32)
  | .allowReplenish cluster => decide (cluster < 32)
  | .nearThresholdEnter core _ => decide (core < 480)
  | .farePost core => decide (core < 480)
  | .lxStart core => decide (core < 480)
  | .lxResultWrite core => decide (core < 480)
  | .attestationRequest vf _ => decide (vf < 256)
  | .gangLaunchMessage vf _ => decide (vf < 256)
  | .arm vf _ _ _ _ => decide (vf < 256)
  | .inboundStallTimeout vf _ => decide (vf < 256)
  | _ => true

/-- What a move comes to. -/
def State.pick (s : State) : Move → Pick
  | .boundary core dp lane => s.boundary core dp lane
  | .event i => ⟨s, if eventInRange i then some (.none, i) else none⟩
  | .engine rk q => s.engineTurn rk q
  | .row key => s.rowTurn key
  | .tick => ⟨s.tick, none⟩
  | .clk core => ⟨s.clkTick core, none⟩
  | .evict line => ⟨s.evict line, none⟩
  | .fill part ia => ⟨s.fillTlb part ia, none⟩
  | .drop part ia => ⟨s.dropTlb part ia, none⟩
  | .sensor cluster level => ⟨s.updCluster cluster fun k => { k with sensor := Nat.min 7 level }, none⟩
  | .flip rk word dup => ⟨s.flip rk word dup, none⟩
  | .soft e => ⟨s.softErr e, none⟩
  | .fence gang ranks peers goes => ⟨s.fenceShare gang ranks peers goes, none⟩
  | .pace n => ⟨{ s with pace := n }, none⟩
  | .perform rk => ⟨s.kick rk, none⟩
  | .lxRead core idx granule => ⟨s.lxRead core idx granule, none⟩
  | .lxStep core => ⟨s.lxStep core, none⟩
  | .hostAck rk q => ⟨s.hostAck rk q, none⟩
  | .cacheLine c line held => ⟨s.cacheLine c line held, none⟩
  | .segFlip vf isI n val => ⟨s.updVf vf fun v => v.flipSeg isI n val, none⟩
  | .fepEntry n addr => ⟨{ s with feps := s.feps.set 0 n addr }, none⟩
  | .fepOwner vf addr => ⟨s.updVf vf fun v => { v with fep := addr }, none⟩
  | .reach vf peer port ok => ⟨s.reachPeer vf peer port.val ok, none⟩
  | .resendAsked id seg => ⟨s.resendAsked id seg, none⟩
  | .closeContext vf src msg => ⟨s.closeContext vf src msg, none⟩
  | .peerShare gang own rank stage => ⟨s.peerShare gang own rank stage, none⟩
  | .fareFactor core factor => ⟨s.updCore core fun c => { c with fareFactor := factor }, none⟩
  | .dieSet lid dies teams => ⟨s.setDies lid dies teams, none⟩
  | .firmware image signature => ⟨s.loadFirmware image signature, none⟩

/-! ## What comes next when nothing else is said -/

/-- The engine turns that are worth taking: commands in progress or queued, by role and queue. -/
def State.engineTurns (s : State) : List Move :=
  (s.roles.flatMap fun e =>
    ((List.range 6).filter fun q => (e.2.eng q).run.isSome || !(e.2.eng q).todo.isEmpty).map fun q => Move.engine e.1 q)
    ++ (s.fired.map fun e => Move.engine e.1 4)

/-- The issue boundaries of occupied datapaths. -/
def State.slotTurns (s : State) : List Move :=
  (s.roles.flatMap fun e =>
    let core := s.coreOf e.1
    [Move.boundary core e.2.dp false, Move.boundary core e.2.dp true]).dedup

/-- The next dispatch of a launch, on the first core that has room and with the first binding that fits (R376; the
choice is the implementation's). -/
def State.dispatchTurn (s : State) (lid : Nat) : Option Move :=
  let l := s.launch lid
  if !s.launchActive l then none
  else match s.waitingTeams lid with
    | [] => none
    | tk :: _ =>
      (s.ownedCores (s.vf l.vf).part).findSome? fun c =>
        if s.coreOpen lid c then (bindFirst l.roleSizes (s.coreLoads c)).map fun b => Move.event (.teamDispatch tk c b)
        else none

/-- The events of launches and teams that may be due. -/
def State.teamEvents (s : State) : List Move :=
  (s.launches.keys.flatMap fun l => [Move.event (.launchReady l), .event (.stageComplete l), .event (.launchComplete l),
      .event (.failed l)])
    ++ s.launches.keys.filterMap s.dispatchTurn
    ++ (s.teams.keys.flatMap fun t => [Move.event (.commitProbe t), .event (.commitPoint t), .event (.teamRetire t),
      .event (.graceExpire t), .event (.leaseExpire t), .event (.swapOut t), .event (.cyclicwait t)])
    ++ (s.teams.flatMap fun e => (e.2.service.keys ++ e.2.pages.keys.filter (s.promotes e.1)).map fun v => Move.event (.pagerServiceDone e.1 v))

/-- The events of roles that may be due. -/
def State.roleEvents (s : State) : List Move :=
  (s.roles.keys.flatMap fun r => [Move.event (.classLResultReturn r 0), .event (.lxAccept r),
      .event (.streamWake r false), .event (.streamWake r true), .event (.roleFinish r), .event (.waitaTimeout r),
      .event (.yieldExpire r), .event (.cpcvRescaleTrap r)])
    ++ (s.roles.keys.flatMap fun r =>
      ((List.range 4).flatMap fun q => [Move.event (.copyWtRelease r q), .event (.copyComplete r q)])
        ++ [.event (.taskWtRelease r), .event (.depotRowStart r), .event (.taskComplete r), .event (.timeout r),
          .event (.peerdown r)])

/-- The host writes that wait for their acknowledgement (R391). -/
def State.hostTurns (s : State) : List Move :=
  s.roles.flatMap fun e => ((List.range 6).filter fun q => match (e.2.eng q).run with
    | some c => decide (0 < c.acks)
    | none => false).map fun q => Move.hostAck e.1 q

/-- The events of commands that posts have fired, and of inbound segments, that may be due (R403, R409). -/
def State.fabricEvents (s : State) : List Move :=
  (s.fired.keys.flatMap fun n => [Move.event (.timeout n), .event (.peerdown n)])
    ++ s.vfs.flatMap fun v =>
      (v.2.stalls.filter fun e => e.recid.isNone && !e.gone).map (fun e =>
          Move.event (.inboundSegment (v.2.fep.getD 0) e.seg.src e.seg.ord e.seg.part))
        ++ (List.range v.2.stalls.length).map fun n => Move.event (.inboundStallTimeout v.1 n)

/-- The islands that enter near-threshold mode (R302). -/
def State.nearEvents (s : State) : List Move :=
  s.cores.keys.flatMap fun c => ([false, true].filter fun u =>
    !s.islandNear c u && s.nearDue c u).map fun u => Move.event (.nearThresholdEnter c u)

/-- The events of cores, clusters and dies that may be due, postings at their ref ticks (R303, R383). -/
def State.unitEvents (s : State) : List Move :=
  (s.cores.keys.flatMap fun c => [Move.event (.lxStart c), .event (.lxResultWrite c)])
    ++ (s.clusters.keys.flatMap fun c => [Move.event (.allowReplenish c), .event (.transitionDone c)])
    ++ (s.dies.flatMap fun e => e.2.deltas.map fun d => Move.event (.waybillAgeExpiry e.1 d.vf d.idx))
    ++ (if s.refTick.toNat % 256 = 0 then s.cores.keys.map fun c => Move.event (.farePost c) else [])
    ++ (if s.thermDue then [.event .thermUpdate] else [])
    ++ (if s.refTick.toNat % 1000000 = 0 then [.event .sharedFarePost] else [])

/-- The events that may be due. -/
def State.dueEvents (s : State) : List Move := s.teamEvents ++ s.roleEvents ++ s.fabricEvents ++ s.unitEvents ++ s.nearEvents

/-- What follows when no order has been given: every event that may be due, every engine, row and slot once, and a ref
tick (log 1). -/
def State.round (s : State) : List Move :=
  (if s.pace.isSome then [Move.pace none] else []) ++ s.dueEvents ++ s.hostTurns ++ s.engineTurns ++ (s.rows.keys.map Move.row) ++ s.slotTurns ++ [Move.tick]

end Sys2Proof.Machine
end

