-- ==== Sys2Proof/Machine/LaneMask.lean ====
section
/-! DEFINITION. The mask stack (R127, R128), predicate forms (R129), votes, shuffles and lane-to-scalar
values (R140 to R142), regrouping (R143 to R145). -/

namespace Sys2Proof.Machine
open Sys2Proof

/-! ## The mask stack -/

/-- The condition of VIF in every slot (R128). -/
def Lanes.cond (l : Lanes) (kc : BitVec 4) (kcn : Bool) : Mask :=
  if kcn then ~~~l.pred kc.toNat else l.pred kc.toNat

/-- VIF pushes a level (R128). -/
def Lanes.vif (l : Lanes) (kc : Mask) : Lanes := { l with stack := (l.e, kc) :: l.stack, e := l.e &&& kc }

/-- VELSE (R128). -/
def Lanes.velse (l : Lanes) : Lanes :=
  match l.stack with
  | (out, cnd) :: _ => { l with e := out &&& ~~~cnd }
  | [] => l

/-- VENDIF pops a level (R128). -/
def Lanes.vendif (l : Lanes) : Lanes :=
  match l.stack with
  | (out, _) :: t => { l with e := out, stack := t }
  | [] => l

/-- The frame of a mask-stack word: ILLEGAL at a depth that forbids it (R128). -/
def maskOp (s : State) (sw : Bool) (ok : Nat → Bool) (f : Lanes → Lanes) : Res :=
  match s.laneNow with
  | none => .fault .wrongAgent
  | some (_, l) => if ok l.stack.length then .next (s.laneDone sw (f l)) else .next (s.laneFault .illegal)

/-- VIF (R128): ILLEGAL at depth 16. -/
def execVif (sw : Bool) (kc : BitVec 4) (kcn : Bool) (s : State) : Res :=
  maskOp s sw (fun d => decide (d < 16)) fun l => l.vif (l.cond kc kcn)

/-- VELSE (R128): ILLEGAL at depth 0. -/
def execVelse (sw : Bool) (s : State) : Res := maskOp s sw (fun d => decide (0 < d)) Lanes.velse

/-- VENDIF (R128): ILLEGAL at depth 0. -/
def execVendif (sw : Bool) (s : State) : Res := maskOp s sw (fun d => decide (0 < d)) Lanes.vendif

/-! ## Predicates -/

/-- No sources. -/
def noSources : Sources := ⟨.none, .none, .none⟩

/-- A predicate from predicates, in the active lanes (R129). -/
def predOp (s : State) (c : LaneCtl) (kd : BitVec 4) (f : Lanes → Nat → Bool) : Res :=
  laneWordOp s c noSources [] fun _ l => ⟨l.mapPred (l.actives c) kd.toNat (f l), 0⟩

/-- VKAND (R129). -/
def execVkand (c : LaneCtl) (kd ka kb : BitVec 4) (s : State) : Res :=
  predOp s c kd fun l i => (l.pred ka.toNat).getLsbD i && (l.pred kb.toNat).getLsbD i

/-- VKOR (R129). -/
def execVkor (c : LaneCtl) (kd ka kb : BitVec 4) (s : State) : Res :=
  predOp s c kd fun l i => (l.pred ka.toNat).getLsbD i || (l.pred kb.toNat).getLsbD i

/-- VKXOR (R129). -/
def execVkxor (c : LaneCtl) (kd ka kb : BitVec 4) (s : State) : Res :=
  predOp s c kd fun l i => (l.pred ka.toNat).getLsbD i ^^ (l.pred kb.toNat).getLsbD i

/-- VKNOT (R129). -/
def execVknot (c : LaneCtl) (kd ka : BitVec 4) (s : State) : Res :=
  predOp s c kd fun l i => !(l.pred ka.toNat).getLsbD i

/-- VKMOV (R129): a predicate to a register, or a register to a predicate. -/
def execVkmov (c : LaneCtl) (toReg : Bool) (k : BitVec 4) (x : Opnd) (s : State) : Res :=
  if toReg then
    laneWordOp s c noSources [(x, 4)] fun cx l =>
      ⟨l.mapTo cx (l.actives c) x 4 fun i => b2n ((l.pred k.toNat).getLsbD i), 0⟩
  else laneTest s c (srcA .w32 x) k fun v _ => v != 0

/-! ## Votes and shuffles -/

/-- The result of a vote for a writing lane: `voters` of its scope in ascending lane order, and those
voting 1 (R140). -/
def voteVal (m : VoteMode) (lane : Nat) (voters ones : List Nat) : Nat :=
  match m with
  | .ballot => (ones.map fun i => 2 ^ (i % 32)).sum
  | .any => b2n (!ones.isEmpty)
  | .all => b2n (voters.length == ones.length)
  | .count => ones.length
  | .pre => (ones.filter fun i => decide (i < lane)).length
  | .first => ones.headD 0xFFFFFFFF

/-- VVOTE (R140): group scope is class S, role scope class L. -/
def execVvote (c : LaneCtl) (m : VoteMode) (role : Bool) (ka : BitVec 4) (d : Opnd) (s : State) : Res :=
  laneWordOp s c noSources [(d, 4)] fun cx l =>
    let voters (i : Nat) := (l.actives c).filter fun j => role || j / 32 == i / 32
    let vals := (l.actives c).map fun i =>
      (i, voteVal m i (voters i) ((voters i).filter fun j => (l.pred ka.toNat).getLsbD j))
    ⟨s.writeVals l cx role d 4 vals, 0⟩

/-- The source position of VSHFL, if it lies in the group (R141). -/
def shflPos (m : ShflMode) (p d : Nat) : Option Nat :=
  match m with
  | .idx => some (d % 32)
  | .up => if d % 64 ≤ p then some (p - d % 64) else none
  | .down => if p + d % 64 < 32 then some (p + d % 64) else none
  | .xor => some (p ^^^ (d % 32))

/-- VSHFL (R141): every source is read before any lane writes. -/
def execVshfl (c : LaneCtl) (m : ShflMode) (w64 : Bool) (d a b x : Opnd) (s : State) : Res :=
  let w := bitsW w64
  let srcs : Sources := ⟨.op a w, .op b .w32, .op x w⟩
  laneWordOp s c srcs [(d, w.bytes)] fun cx l =>
    ⟨l.mapTo cx (l.actives c) d w.bytes fun i =>
      match shflPos m (i % 32) (srcs.b.val cx l i) with
      | some j =>
        if (l.active c).getLsbD (i / 32 * 32 + j) then srcs.a.val cx l (i / 32 * 32 + j)
        else srcs.x.val cx l i
      | none => srcs.x.val cx l i, 0⟩

/-! ## Values for the scalar stream -/

/-- The entry VTOS pushes: `vs` are a's values in the active lanes in order (R142). -/
def tosVal (m : TosMode) (vs : List Nat) : W64 :=
  match m with
  | .first => BitVec.ofNat 64 (vs.headD 0)
  | .or => BitVec.ofNat 64 (vs.foldl (fun n v => n ||| v) 0)
  | .add => vs.foldl (fun n v => n + sext64 32 v) 0
  | .count => BitVec.ofNat 64 vs.length

/-- Push to `q15` by a lane word, then the rest of it; the lane stream parks as a scalar push does
while there is no room (R142, R185; log 18). -/
def State.lanePush (s : State) (rk : Nat) (v : W64) (k : State → Res) : Res :=
  match s.pushBlock rk 15 with
  | .full => .next (s.updRole rk fun r => { r with lpark := .pushQ 15 })
  | .page sub va ia => .next ((s.raise rk true .page sub va ia 0).updRole rk fun r => { r with lpark := .page (some (s.nextRec % 2 ^ 32)) })
  | _ => k (s.pushQ rk 15 v)

/-- VTOS (R142): one entry, even when every pass is skipped. -/
def execVtos (c : LaneCtl) (m : TosMode) (a : Opnd) (s : State) : Res :=
  let srcs := srcA .w32 a
  match s.cur with
  | .lane rk =>
    laneFrame s c srcs [] fun cx l =>
      let v := tosVal m ((l.actives c).map fun i => srcs.a.val cx l i)
      s.lanePush rk v fun s1 => .next (s1.laneFinish c cx l srcs ⟨l, 0⟩)
  | .row _ => .next (s.laneFault .illegal)
  | _ => .fault .wrongAgent

/-! ## Regrouping -/

/-- The new slot of every slot: live lanes first, in order (R144). -/
def newSlots (live : Mask) (n : Nat) : List Nat :=
  let lv := (List.range n).filter fun i => live.getLsbD i
  (List.range n).map fun i =>
    if live.getLsbD i then (lv.filter fun j => decide (j < i)).length
    else lv.length + (i - (lv.filter fun j => decide (j < i)).length)

/-- A mask whose bits move to new slots. -/
def permMask (ns : List Nat) (m : Mask) : Mask :=
  maskOf ((ns.zipIdx).filterMap fun e => if m.getLsbD e.2 then some e.1 else none)

/-- The key of a register byte after its lane has moved. -/
def movedKey (ns : List Nat) (k : Nat) : Nat := rkey (ns.getD (k / 1024) (k / 1024)) (k % 1024)

/-- A returned result whose bytes move with their lanes (R96, R144). -/
def Pend.moved (p : Pend) (ns : List Nat) : Pend :=
  { p with dest := p.dest.foldl (fun m e => m.put (movedKey ns e.1) e.2) [], mixed := p.mixed.map (movedKey ns) }

/-- The result of an LX word that has returned, byte by byte, as the registers hold it (R96, R237): not `ready`, which
tells it from a lane result, since the engine sees it without a marker (R232). -/
def Watch.result (w : Watch) (regs : NMap Byte) : Pend :=
  ⟨0, false, false, (w.dst.flatMap Rect.keys).foldl (fun m k => m.put k (regs.get 0 k)) [], []⟩

/-- The bytes that LX words of before VREGROUP have left unspecified take free values, and every returned result stays
unspecified until the next marker as its bytes move (R96, R144, R237). -/
def Lanes.unwatch (l : Lanes) (free : Nat) : Lanes :=
  let regs := (l.watch.filter Watch.hit).foldl (fun m w =>
    (w.dst.flatMap Rect.keys).foldl (fun m k => m.set 0 k (Config.freeByte free k)) m) l.regs
  { l with regs := regs, back := l.back ++ l.watch.map fun w => w.result regs, watch := [] }

/-- The lanes after VREGROUP (R144, R145). -/
def Lanes.regroup (l : Lanes) (live : Mask) : Lanes :=
  let n := 32 * l.groups
  let ns := newSlots live n
  let cnt := ((List.range n).filter fun i => live.getLsbD i).length
  { l with
    regs := l.regs.foldl (fun m e => m.set 0 (movedKey ns e.1) e.2) []
    back := l.back.map fun p => p.moved ns
    preds := l.preds.map (permMask ns)
    base := maskOf (List.range cnt)
    e := maskOf (List.range n)
    latches := [none, none, none] }

/-- Each lane's old slot written to the destination (R144). -/
def Lanes.writeOld (l : Lanes) (cx : LaneCx) (d : Opnd) (ns : List Nat) : Lanes :=
  (ns.zipIdx).foldl (fun m e => opWrite d cx m e.1 4 e.2) l

/-- The bytes of an operand in every slot no longer belong to a result of before VREGROUP: every result had returned when
they were written (R96, R157). -/
def Lanes.own (l : Lanes) (cx : LaneCx) (d : Opnd) : Lanes :=
  match opStart d cx with
  | none => l
  | some b => { l with back := l.back.map fun p =>
      { p with dest := p.dest.filter fun e => !(decide (b ≤ e.1 % 1024) && decide (e.1 % 1024 < b + 4)) } }

/-- VREGROUP (R58, R143 to R145): ILLEGAL with a mask stack; it waits until no result is outstanding. It reads every
word of its lanes. -/
def execVregroup (c : LaneCtl) (wid pushn : Bool) (d : Opnd) (s : State) : Res :=
  match s.cur with
  | .lane rk =>
    laneFrame s c noSources (if wid then [(d, 4)] else []) fun cx l =>
      if l.stack.length ≠ 0 then .next (s.laneFault .illegal)
      else if (s.role rk).outstanding then .next (s.updRole rk fun r => { r with lpark := .results })
      else if l.bad.any (fun e => !e.2) then
        .next (s.parityCheck rk ((l.bad.filter fun e => !e.2).map fun e => e.1 / 256).dedup)
      else
        let s := s.repair (s.coreOf rk) rk (l.bad.map Prod.fst)
        let l := { l with bad := [] }
        let live := l.active c
        let l1 := (l.unwatch s.free).regroup live
        let l2 := if wid then (l1.own cx d).writeOld cx d (newSlots live (32 * l.groups)) else l1
        let n := (l.actives c).length
        if pushn then s.lanePush rk (BitVec.ofNat 64 n) fun s1 => .next (s1.laneDone c.sw l2)
        else .next (s.laneDone c.sw l2)
  | .row _ => .next (s.laneFault .illegal)
  | _ => .fault .wrongAgent

end Sys2Proof.Machine
end

