-- ==== Sys2Proof/Machine/ScalarInt.lean ====
section
/-! DEFINITION. The scalar integer instructions: registers (R175, R176), immediates (R177, R178),
constants (R179), branches and calls (R180). -/

namespace Sys2Proof.Machine
open Sys2Proof

/-- High 64 bits of the signed product (R175). -/
def mulHigh (x y : W64) : W64 := BitVec.ofInt 64 (x.toInt * y.toInt / 2 ^ 64)

/-- High 64 bits of the unsigned product (R175). -/
def mulHighN (x y : W64) : W64 := BitVec.ofNat 64 (x.toNat * y.toNat / 2 ^ 64)

/-- DIV (R175, R176): truncated; a divisor of zero gives −1, −2^63 by −1 gives −2^63. -/
def divS (x y : W64) : W64 :=
  if y = 0 then BitVec.ofInt 64 (-1) else BitVec.ofInt 64 (Int.tdiv x.toInt y.toInt)

/-- DIVN (R175, R176): a divisor of zero gives 2^64 − 1. -/
def divN (x y : W64) : W64 :=
  if y = 0 then BitVec.ofInt 64 (-1) else BitVec.ofNat 64 (x.toNat / y.toNat)

/-- REM (R175, R176): a divisor of zero gives x. -/
def remS (x y : W64) : W64 :=
  if y = 0 then x else BitVec.ofInt 64 (Int.tmod x.toInt y.toInt)

/-- REMN (R175, R176). -/
def remN (x y : W64) : W64 := if y = 0 then x else BitVec.ofNat 64 (x.toNat % y.toNat)

/-- The shift count (R175). -/
def count6 (y : W64) : Nat := y.toNat % 64

/-- A condition as 0 or 1 (R175). -/
def boolW (b : Bool) : W64 := if b then 1 else 0

/-- Signed minimum and maximum (R175). -/
def minS (x y : W64) : W64 := if x.toInt ≤ y.toInt then x else y

/-- See `minS`. -/
def maxS (x y : W64) : W64 := if x.toInt ≤ y.toInt then y else x

/-- Unsigned minimum and maximum (R175). -/
def minN (x y : W64) : W64 := if x.toNat ≤ y.toNat then x else y

/-- See `minN`. -/
def maxN (x y : W64) : W64 := if x.toNat ≤ y.toNat then y else x

/-- ADD (R175). -/
def execAdd (d a b : SReg) (s : State) : Res := alu2 s d a b fun x y => x + y

/-- SUB (R175). -/
def execSub (d a b : SReg) (s : State) : Res := alu2 s d a b fun x y => x - y

/-- MUL (R175). -/
def execMul (d a b : SReg) (s : State) : Res := alu2 s d a b fun x y => x * y

/-- MULH (R175). -/
def execMulh (d a b : SReg) (s : State) : Res := alu2 s d a b fun x y => mulHigh x y

/-- MULHN (R175). -/
def execMulhn (d a b : SReg) (s : State) : Res := alu2 s d a b fun x y => mulHighN x y

/-- DIV (R175). -/
def execDiv (d a b : SReg) (s : State) : Res := alu2 s d a b fun x y => divS x y

/-- DIVN (R175). -/
def execDivn (d a b : SReg) (s : State) : Res := alu2 s d a b fun x y => divN x y

/-- REM (R175). -/
def execRem (d a b : SReg) (s : State) : Res := alu2 s d a b fun x y => remS x y

/-- REMN (R175). -/
def execRemn (d a b : SReg) (s : State) : Res := alu2 s d a b fun x y => remN x y

/-- AND (R175). -/
def execAnd (d a b : SReg) (s : State) : Res := alu2 s d a b fun x y => x &&& y

/-- OR (R175). -/
def execOr (d a b : SReg) (s : State) : Res := alu2 s d a b fun x y => x ||| y

/-- XOR (R175). -/
def execXor (d a b : SReg) (s : State) : Res := alu2 s d a b fun x y => x ^^^ y

/-- ANDN (R175). -/
def execAndn (d a b : SReg) (s : State) : Res := alu2 s d a b fun x y => x &&& ~~~y

/-- SHL (R175). -/
def execShl (d a b : SReg) (s : State) : Res := alu2 s d a b fun x y => x <<< count6 y

/-- SHR (R175). -/
def execShr (d a b : SReg) (s : State) : Res := alu2 s d a b fun x y => x >>> count6 y

/-- SRA (R175). -/
def execSra (d a b : SReg) (s : State) : Res := alu2 s d a b fun x y => x.sshiftRight (count6 y)

/-- ROT (R175). -/
def execRot (d a b : SReg) (s : State) : Res := alu2 s d a b fun x y => x.rotateLeft (count6 y)

/-- MIN (R175). -/
def execMin (d a b : SReg) (s : State) : Res := alu2 s d a b fun x y => minS x y

/-- MAX (R175). -/
def execMax (d a b : SReg) (s : State) : Res := alu2 s d a b fun x y => maxS x y

/-- MINN (R175). -/
def execMinn (d a b : SReg) (s : State) : Res := alu2 s d a b fun x y => minN x y

/-- MAXN (R175). -/
def execMaxn (d a b : SReg) (s : State) : Res := alu2 s d a b fun x y => maxN x y

/-- CLZ (R175). -/
def execClz (d a : SReg) (s : State) : Res := alu1 s d a fun x => BitVec.ofNat 64 (clzNat x.toNat 64)

/-- CTZ (R175). -/
def execCtz (d a : SReg) (s : State) : Res := alu1 s d a fun x => BitVec.ofNat 64 (ctzNat x.toNat 64)

/-- POPC (R175). -/
def execPopc (d a : SReg) (s : State) : Res := alu1 s d a fun x => BitVec.ofNat 64 (popcNat x.toNat 64)

/-- BREV (R175). -/
def execBrev (d a : SReg) (s : State) : Res := alu1 s d a fun x => BitVec.ofNat 64 (brevNat x.toNat 64 64)

/-- CLMUL (R175). -/
def execClmul (d a b : SReg) (s : State) : Res := alu2 s d a b fun x y => BitVec.ofNat 64 (clmulNat x.toNat y.toNat 64)

/-- CLMULH (R175). -/
def execClmulh (d a b : SReg) (s : State) : Res := alu2 s d a b fun x y => BitVec.ofNat 64 (clmulNat x.toNat y.toNat 64 / 2 ^ 64)

/-- SEL (R175): sd is read last, as the condition. -/
def execSel (d a b : SReg) (s : State) : Res :=
  scalarOp s [a, b, d] (some d) fun rk vs s =>
    .next (s.finish rk d (if src vs 2 ≠ 0 then src vs 0 else src vs 1))

/-- SEQ (R175). -/
def execSeq (d a b : SReg) (s : State) : Res := alu2 s d a b fun x y => boolW (x == y)

/-- SNE (R175). -/
def execSne (d a b : SReg) (s : State) : Res := alu2 s d a b fun x y => boolW (x != y)

/-- SLT (R175). -/
def execSlt (d a b : SReg) (s : State) : Res := alu2 s d a b fun x y => boolW (decide (x.toInt < y.toInt))

/-- SLTN (R175). -/
def execSltn (d a b : SReg) (s : State) : Res := alu2 s d a b fun x y => boolW (decide (x.toNat < y.toNat))

/-- ADDI (R177). -/
def execAddi (d a : SReg) (i : BitVec 13) (s : State) : Res := alu1 s d a fun x => x + i.signExtend 64

/-- ANDI (R177). -/
def execAndi (d a : SReg) (i : BitVec 13) (s : State) : Res := alu1 s d a fun x => x &&& i.zeroExtend 64

/-- ORI (R177). -/
def execOri (d a : SReg) (i : BitVec 13) (s : State) : Res := alu1 s d a fun x => x ||| i.zeroExtend 64

/-- XORI (R177). -/
def execXori (d a : SReg) (i : BitVec 13) (s : State) : Res := alu1 s d a fun x => x ^^^ i.zeroExtend 64

/-- SHLI (R177). -/
def execShli (d a : SReg) (i : BitVec 6) (s : State) : Res := alu1 s d a fun x => x <<< i.toNat

/-- SHRI (R177). -/
def execShri (d a : SReg) (i : BitVec 6) (s : State) : Res := alu1 s d a fun x => x >>> i.toNat

/-- SRAI (R177). -/
def execSrai (d a : SReg) (i : BitVec 6) (s : State) : Res := alu1 s d a fun x => x.sshiftRight i.toNat

/-- BFEXT (R178); a field that leaves the word is ILLEGAL. -/
def execBfext (d a : SReg) (l p : BitVec 6) (s : State) : Res :=
  match s.cur with
  | .scalar rk =>
    if 64 < p.toNat + l.toNat + 1 then illegalS s rk
    else alu1 s d a fun x => BitVec.ofNat 64 (fieldOf x.toNat p.toNat (l.toNat + 1))
  | _ => .fault .wrongAgent

/-- BFINS (R178); a field that leaves the word is ILLEGAL. -/
def execBfins (d a : SReg) (l p : BitVec 6) (s : State) : Res :=
  match s.cur with
  | .scalar rk =>
    if 64 < p.toNat + l.toNat + 1 then illegalS s rk
    else alu1 s d a fun x => BitVec.ofNat 64 (x.toNat % 2 ^ (l.toNat + 1) * 2 ^ p.toNat)
  | _ => .fault .wrongAgent

/-- LI (R179); to a queue register it pushes. -/
def execLi (d : SReg) (i : BitVec 19) (s : State) : Res :=
  scalarOp s [] (some d) fun rk _ s => .next (s.finish rk d (i.signExtend 64))

/-- LIX (R179): the pair is 8 bytes long; a queue register is ILLEGAL. -/
def execLix (d : SReg) (i : W32) (s : State) : Res :=
  match s.cur, d with
  | .scalar rk, .q _ => illegalS s rk
  | .scalar rk, .s _ => .next ((s.writeField rk d (i.signExtend 64)).advance rk 8)
  | _, _ => .fault .wrongAgent

/-- LIH (R179): the high half; the low half keeps its value. -/
def execLih (d : SReg) (i : W32) (s : State) : Res :=
  match s.cur, d with
  | .scalar rk, .q _ => illegalS s rk
  | .scalar rk, .s n =>
    .next ((s.writeField rk d (i ++ ((s.role rk).sreg n.val).extractLsb' 0 32)).advance rk 8)
  | _, _ => .fault .wrongAgent

/-- A branch target: the branch's address and a signed word offset (R69, R71). -/
def branchTo (pc : W64) (off : W64) : W64 := pc + off * 4

/-- A conditional branch: sa is the first operand, sd the second (R180). -/
def branchOp (s : State) (d a : SReg) (i : BitVec 13) (c : W64 → W64 → Bool) : Res :=
  scalarOp s [a, d] none fun rk vs s =>
    let pc := (s.role rk).pc
    .next (if c (src vs 0) (src vs 1) then s.jumpTo rk (branchTo pc (i.signExtend 64))
      else s.advance rk 4)

/-- BEQ (R180). -/
def execBeq (d a : SReg) (i : BitVec 13) (s : State) : Res := branchOp s d a i fun x y => x == y

/-- BNE (R180). -/
def execBne (d a : SReg) (i : BitVec 13) (s : State) : Res := branchOp s d a i fun x y => x != y

/-- BLT (R180). -/
def execBlt (d a : SReg) (i : BitVec 13) (s : State) : Res :=
  branchOp s d a i fun x y => decide (x.toInt < y.toInt)

/-- BGE (R180). -/
def execBge (d a : SReg) (i : BitVec 13) (s : State) : Res :=
  branchOp s d a i fun x y => decide (y.toInt ≤ x.toInt)

/-- BLTN (R180). -/
def execBltn (d a : SReg) (i : BitVec 13) (s : State) : Res :=
  branchOp s d a i fun x y => decide (x.toNat < y.toNat)

/-- BGEN (R180). -/
def execBgen (d a : SReg) (i : BitVec 13) (s : State) : Res :=
  branchOp s d a i fun x y => decide (y.toNat ≤ x.toNat)

/-- JMP (R180). -/
def execJmp (i : BitVec 19) (s : State) : Res :=
  match s.cur with
  | .scalar rk => .next (s.jumpTo rk (branchTo (s.role rk).pc (i.signExtend 64)))
  | _ => .fault .wrongAgent

/-- CALL (R180): `s47` receives the return address. -/
def execCall (i : BitVec 19) (s : State) : Res :=
  match s.cur with
  | .scalar rk =>
    let pc := (s.role rk).pc
    .next ((s.updRole rk fun r => r.setSreg 47 (pc + 4)).jumpTo rk (branchTo pc (i.signExtend 64)))
  | _ => .fault .wrongAgent

/-- A jump to a register value; a target that is no multiple of 4 raises MISALIGN and the PC stays
(R180). -/
def jumpReg (s : State) (rk : Nat) (t : W64) : State :=
  if t.toNat % 4 = 0 then s.jumpTo rk t else s.raiseS rk .misalign t.toNat

/-- JR (R180). -/
def execJr (a : SReg) (s : State) : Res :=
  scalarOp s [a] none fun rk vs s => .next (jumpReg s rk (src vs 0))

/-- RET (R180): jumps to `s47`. -/
def execRet (s : State) : Res :=
  match s.cur with
  | .scalar rk => .next (jumpReg s rk ((s.role rk).sreg 47))
  | _ => .fault .wrongAgent

end Sys2Proof.Machine
end

