-- ==== Sys2Proof/Machine/Dispatch.lean ====
section
/-! DEFINITION. The dispatch: one arm for each constructor of `Instr`, each one direct call of its
meaning. -/

namespace Sys2Proof.Machine
open Sys2Proof

def exec (i : Instr) (s : State) : Host.Outcome State Fault Refusal :=
  match i with
  | .add d a b => Sys2Proof.Machine.execAdd d a b s
  | .sub d a b => Sys2Proof.Machine.execSub d a b s
  | .mul d a b => Sys2Proof.Machine.execMul d a b s
  | .mulh d a b => Sys2Proof.Machine.execMulh d a b s
  | .mulhn d a b => Sys2Proof.Machine.execMulhn d a b s
  | .div d a b => Sys2Proof.Machine.execDiv d a b s
  | .divn d a b => Sys2Proof.Machine.execDivn d a b s
  | .rem d a b => Sys2Proof.Machine.execRem d a b s
  | .remn d a b => Sys2Proof.Machine.execRemn d a b s
  | .and d a b => Sys2Proof.Machine.execAnd d a b s
  | .or d a b => Sys2Proof.Machine.execOr d a b s
  | .xor d a b => Sys2Proof.Machine.execXor d a b s
  | .andn d a b => Sys2Proof.Machine.execAndn d a b s
  | .shl d a b => Sys2Proof.Machine.execShl d a b s
  | .shr d a b => Sys2Proof.Machine.execShr d a b s
  | .sra d a b => Sys2Proof.Machine.execSra d a b s
  | .rot d a b => Sys2Proof.Machine.execRot d a b s
  | .min d a b => Sys2Proof.Machine.execMin d a b s
  | .max d a b => Sys2Proof.Machine.execMax d a b s
  | .minn d a b => Sys2Proof.Machine.execMinn d a b s
  | .maxn d a b => Sys2Proof.Machine.execMaxn d a b s
  | .clz d a => Sys2Proof.Machine.execClz d a s
  | .ctz d a => Sys2Proof.Machine.execCtz d a s
  | .popc d a => Sys2Proof.Machine.execPopc d a s
  | .brev d a => Sys2Proof.Machine.execBrev d a s
  | .clmul d a b => Sys2Proof.Machine.execClmul d a b s
  | .clmulh d a b => Sys2Proof.Machine.execClmulh d a b s
  | .sel d a b => Sys2Proof.Machine.execSel d a b s
  | .seq d a b => Sys2Proof.Machine.execSeq d a b s
  | .sne d a b => Sys2Proof.Machine.execSne d a b s
  | .slt d a b => Sys2Proof.Machine.execSlt d a b s
  | .sltn d a b => Sys2Proof.Machine.execSltn d a b s
  | .jr a => Sys2Proof.Machine.execJr a s
  | .ret => Sys2Proof.Machine.execRet s
  | .fence scope => Sys2Proof.Machine.execFence scope s
  | .qfence mask scope => Sys2Proof.Machine.execQfence mask scope s
  | .barav a => Sys2Proof.Machine.execBarav a s
  | .barwt a => Sys2Proof.Machine.execBarwt a s
  | .waita d a b => Sys2Proof.Machine.execWaita d a b s
  | .yield => Sys2Proof.Machine.execYield s
  | .exit => Sys2Proof.Machine.execExit s
  | .vdrain => Sys2Proof.Machine.execVdrain s
  | .view im a => Sys2Proof.Machine.execView im a s
  | .gang a => Sys2Proof.Machine.execGang a s
  | .mset g a => Sys2Proof.Machine.execMset g a s
  | .txcommit a b => Sys2Proof.Machine.execTxcommit a b s
  | .txabort => Sys2Proof.Machine.execTxabort s
  | .launch d a => Sys2Proof.Machine.execLaunch d a s
  | .perf a b => Sys2Proof.Machine.execPerf a b s
  | .clnr a b => Sys2Proof.Machine.execClnr a b s
  | .invr a b => Sys2Proof.Machine.execInvr a b s
  | .cliv a b => Sys2Proof.Machine.execCliv a b s
  | .tret => Sys2Proof.Machine.execTret s
  | .nop => Sys2Proof.Machine.execNop s
  | .brk => Sys2Proof.Machine.execBrk s
  | .relay => Sys2Proof.Machine.execRelay s
  | .wbsync a => Sys2Proof.Machine.execWbsync a s
  | .atomAdd d a b sc => Sys2Proof.Machine.execAtomAdd d a b sc s
  | .atomAnd d a b sc => Sys2Proof.Machine.execAtomAnd d a b sc s
  | .atomOr d a b sc => Sys2Proof.Machine.execAtomOr d a b sc s
  | .atomXor d a b sc => Sys2Proof.Machine.execAtomXor d a b sc s
  | .atomMin d a b sc => Sys2Proof.Machine.execAtomMin d a b sc s
  | .atomMax d a b sc => Sys2Proof.Machine.execAtomMax d a b sc s
  | .atomMinn d a b sc => Sys2Proof.Machine.execAtomMinn d a b sc s
  | .atomMaxn d a b sc => Sys2Proof.Machine.execAtomMaxn d a b sc s
  | .atomSwap d a b sc => Sys2Proof.Machine.execAtomSwap d a b sc s
  | .atomCas d a b sc => Sys2Proof.Machine.execAtomCas d a b sc s
  | .atomBfim d a b sc => Sys2Proof.Machine.execAtomBfim d a b sc s
  | .atomFfcs d a b sc => Sys2Proof.Machine.execAtomFfcs d a b sc s
  | .atomPlset d a b sc => Sys2Proof.Machine.execAtomPlset d a b sc s
  | .addi d a im => Sys2Proof.Machine.execAddi d a im s
  | .andi d a im => Sys2Proof.Machine.execAndi d a im s
  | .ori d a im => Sys2Proof.Machine.execOri d a im s
  | .xori d a im => Sys2Proof.Machine.execXori d a im s
  | .shli d a im => Sys2Proof.Machine.execShli d a im s
  | .shri d a im => Sys2Proof.Machine.execShri d a im s
  | .srai d a im => Sys2Proof.Machine.execSrai d a im s
  | .bfext d a lenM1 pos => Sys2Proof.Machine.execBfext d a lenM1 pos s
  | .bfins d a lenM1 pos => Sys2Proof.Machine.execBfins d a lenM1 pos s
  | .ld d a w off => Sys2Proof.Machine.execLd d a w off s
  | .st d a w off => Sys2Proof.Machine.execSt d a w off s
  | .sld d a w off => Sys2Proof.Machine.execSld d a w off s
  | .sst d a w off => Sys2Proof.Machine.execSst d a w off s
  | .trap code => Sys2Proof.Machine.execTrap code s
  | .sysrd d num => Sys2Proof.Machine.execSysrd d num s
  | .syswr a num => Sys2Proof.Machine.execSyswr a num s
  | .beq d a im => Sys2Proof.Machine.execBeq d a im s
  | .bne d a im => Sys2Proof.Machine.execBne d a im s
  | .blt d a im => Sys2Proof.Machine.execBlt d a im s
  | .bge d a im => Sys2Proof.Machine.execBge d a im s
  | .bltn d a im => Sys2Proof.Machine.execBltn d a im s
  | .bgen d a im => Sys2Proof.Machine.execBgen d a im s
  | .li d im => Sys2Proof.Machine.execLi d im s
  | .jmp im => Sys2Proof.Machine.execJmp im s
  | .call im => Sys2Proof.Machine.execCall im s
  | .vrun lenM1 idx => Sys2Proof.Machine.execVrun lenM1 idx s
  | .lih d im => Sys2Proof.Machine.execLih d im s
  | .lix d im => Sys2Proof.Machine.execLix d im s
  | .vadd c t sat d a b => Sys2Proof.Machine.execVadd c t sat d a b s
  | .vsub c t sat d a b => Sys2Proof.Machine.execVsub c t sat d a b s
  | .vmul c t d a b => Sys2Proof.Machine.execVmul c t d a b s
  | .vmulh c t d a b => Sys2Proof.Machine.execVmulh c t d a b s
  | .vmad c t d a b x => Sys2Proof.Machine.execVmad c t d a b x s
  | .vmin c t d a b => Sys2Proof.Machine.execVmin c t d a b s
  | .vmax c t d a b => Sys2Proof.Machine.execVmax c t d a b s
  | .vabs c w64 sat d a => Sys2Proof.Machine.execVabs c w64 sat d a s
  | .vand c w64 d a b => Sys2Proof.Machine.execVand c w64 d a b s
  | .vor c w64 d a b => Sys2Proof.Machine.execVor c w64 d a b s
  | .vxor c w64 d a b => Sys2Proof.Machine.execVxor c w64 d a b s
  | .vandn c w64 d a b => Sys2Proof.Machine.execVandn c w64 d a b s
  | .vshl c w64 d a b => Sys2Proof.Machine.execVshl c w64 d a b s
  | .vshr c w64 d a b => Sys2Proof.Machine.execVshr c w64 d a b s
  | .vsra c w64 d a b => Sys2Proof.Machine.execVsra c w64 d a b s
  | .vrot c w64 d a b => Sys2Proof.Machine.execVrot c w64 d a b s
  | .vpopc c w64 d a => Sys2Proof.Machine.execVpopc c w64 d a s
  | .vclz c w64 d a => Sys2Proof.Machine.execVclz c w64 d a s
  | .vbrev c w64 d a => Sys2Proof.Machine.execVbrev c w64 d a s
  | .vbfext c t f d a => Sys2Proof.Machine.execVbfext c t f d a s
  | .vbfins c w64 f d a x => Sys2Proof.Machine.execVbfins c w64 f d a x s
  | .vclmul c w64 high d a b => Sys2Proof.Machine.execVclmul c w64 high d a b s
  | .vsel c w64 ks d a b => Sys2Proof.Machine.execVsel c w64 ks d a b s
  | .vcmp c t cond kd a b => Sys2Proof.Machine.execVcmp c t cond kd a b s
  | .vaddImm c t sat d a im => Sys2Proof.Machine.execVaddImm c t sat d a im s
  | .vsubImm c t sat d a im => Sys2Proof.Machine.execVsubImm c t sat d a im s
  | .vmulImm c t d a im => Sys2Proof.Machine.execVmulImm c t d a im s
  | .vminImm c t d a im => Sys2Proof.Machine.execVminImm c t d a im s
  | .vmaxImm c t d a im => Sys2Proof.Machine.execVmaxImm c t d a im s
  | .vandImm c w64 d a im => Sys2Proof.Machine.execVandImm c w64 d a im s
  | .vorImm c w64 d a im => Sys2Proof.Machine.execVorImm c w64 d a im s
  | .vxorImm c w64 d a im => Sys2Proof.Machine.execVxorImm c w64 d a im s
  | .vandnImm c w64 d a im => Sys2Proof.Machine.execVandnImm c w64 d a im s
  | .vcmpImm c t cond kd a im => Sys2Proof.Machine.execVcmpImm c t cond kd a im s
  | .vfadd c m d a b => Sys2Proof.Machine.execVfadd c m d a b s
  | .vfsub c m d a b => Sys2Proof.Machine.execVfsub c m d a b s
  | .vfmul c m d a b => Sys2Proof.Machine.execVfmul c m d a b s
  | .vfma c m na nc d a b x => Sys2Proof.Machine.execVfma c m na nc d a b x s
  | .vfmin c t d a b => Sys2Proof.Machine.execVfmin c t d a b s
  | .vfmax c t d a b => Sys2Proof.Machine.execVfmax c t d a b s
  | .vfcmp c cond kd a b => Sys2Proof.Machine.execVfcmp c cond kd a b s
  | .vfrcp c m d a => Sys2Proof.Machine.execVfrcp c m d a s
  | .vfrsq c m d a => Sys2Proof.Machine.execVfrsq c m d a s
  | .vfsqrt c m d a => Sys2Proof.Machine.execVfsqrt c m d a s
  | .vfexp2 c m d a => Sys2Proof.Machine.execVfexp2 c m d a s
  | .vflog2 c m d a => Sys2Proof.Machine.execVflog2 c m d a s
  | .vftanh c m d a => Sys2Proof.Machine.execVftanh c m d a s
  | .vfclass c t d a => Sys2Proof.Machine.execVfclass c t d a s
  | .vfaddImm c m d a im => Sys2Proof.Machine.execVfaddImm c m d a im s
  | .vfsubImm c m d a im => Sys2Proof.Machine.execVfsubImm c m d a im s
  | .vfmulImm c m d a im => Sys2Proof.Machine.execVfmulImm c m d a im s
  | .vfminImm c t d a im => Sys2Proof.Machine.execVfminImm c t d a im s
  | .vfmaxImm c t d a im => Sys2Proof.Machine.execVfmaxImm c t d a im s
  | .vfcmpImm c cond kd a im => Sys2Proof.Machine.execVfcmpImm c cond kd a im s
  | .vcvt c sf df rnd sat esel d a => Sys2Proof.Machine.execVcvt c sf df rnd sat esel d a s
  | .vqnt c fs dsel d a b => Sys2Proof.Machine.execVqnt c fs dsel d a b s
  | .vdqnt c fs esel d a b => Sys2Proof.Machine.execVdqnt c fs esel d a b s
  | .vpack c df rnd sat pos d a b => Sys2Proof.Machine.execVpack c df rnd sat pos d a b s
  | .vunpk c sf pos d a => Sys2Proof.Machine.execVunpk c sf pos d a s
  | .vwbupd c t a b => Sys2Proof.Machine.execVwbupd c t a b s
  | .vif sw kc kcn => Sys2Proof.Machine.execVif sw kc kcn s
  | .velse sw => Sys2Proof.Machine.execVelse sw s
  | .vendif sw => Sys2Proof.Machine.execVendif sw s
  | .vkand c kd ka kb => Sys2Proof.Machine.execVkand c kd ka kb s
  | .vkor c kd ka kb => Sys2Proof.Machine.execVkor c kd ka kb s
  | .vkxor c kd ka kb => Sys2Proof.Machine.execVkxor c kd ka kb s
  | .vknot c kd ka => Sys2Proof.Machine.execVknot c kd ka s
  | .vkmov c toReg k x => Sys2Proof.Machine.execVkmov c toReg k x s
  | .vvote c m role ka d => Sys2Proof.Machine.execVvote c m role ka d s
  | .vshfl c m w64 d a b x => Sys2Proof.Machine.execVshfl c m w64 d a b x s
  | .vregroup c wid pushn d => Sys2Proof.Machine.execVregroup c wid pushn d s
  | .vtos c m a => Sys2Proof.Machine.execVtos c m a s
  | .vld c m sx data => Sys2Proof.Machine.execVld c m sx data s
  | .vst c m wb data => Sys2Proof.Machine.execVst c m wb data s
  | .vlds c m sx data => Sys2Proof.Machine.execVlds c m sx data s
  | .vsts c m wb data => Sys2Proof.Machine.execVsts c m wb data s
  | .vatom c m op red scope data => Sys2Proof.Machine.execVatom c m op red scope data s
  | .vpref c m l2 => Sys2Proof.Machine.execVpref c m l2 s
  | .vmma x => Sys2Proof.Machine.execVmma x s
  | .vmmas x => Sys2Proof.Machine.execVmmas x s
  | .vaccz sw accview => Sys2Proof.Machine.execVaccz sw accview s
  | .vaccrd sw accview aview fsa clr wb coff => Sys2Proof.Machine.execVaccrd sw accview aview fsa clr wb coff s
  | .vaccsc sw accview bsel add => Sys2Proof.Machine.execVaccsc sw accview bsel add s
  | .vmov c w64 d a => Sys2Proof.Machine.execVmov c w64 d a s
  | .vmovi c ext d im => Sys2Proof.Machine.execVmovi c ext d im s
  | .vnop sw => Sys2Proof.Machine.execVnop sw s
  | .dldr c m sx data => Sys2Proof.Machine.execDldr c m sx data s
  | .dstr c m wb data => Sys2Proof.Machine.execDstr c m wb data s
  | .dwat c a b => Sys2Proof.Machine.execDwat c a b s
  | .dtok c a b => Sys2Proof.Machine.execDtok c a b s
  | .dred c op a b => Sys2Proof.Machine.execDred c op a b s
  | .dend c => Sys2Proof.Machine.execDend c s
  | .streamWake rk lane => Sys2Proof.Machine.execStreamWake rk lane s
  | .roleFinish rk => Sys2Proof.Machine.execRoleFinish rk s
  | .classLResultReturn rk idx => Sys2Proof.Machine.execClassLResultReturn rk idx s
  | .starvationIssue core dp lane => Sys2Proof.Machine.execStarvationIssue core dp lane s
  | .yieldExpire rk => Sys2Proof.Machine.execYieldExpire rk s
  | .leaseExpire tk => Sys2Proof.Machine.execLeaseExpire tk s
  | .transitionDone cluster => Sys2Proof.Machine.execTransitionDone cluster s
  | .allowReplenish cluster => Sys2Proof.Machine.execAllowReplenish cluster s
  | .lxAccept rk => Sys2Proof.Machine.execLxAccept rk s
  | .lxStart core => Sys2Proof.Machine.execLxStart core s
  | .lxResultWrite core => Sys2Proof.Machine.execLxResultWrite core s
  | .pagerServiceDone tk vpn => Sys2Proof.Machine.execPagerServiceDone tk vpn s
  | .swapOut tk => Sys2Proof.Machine.execSwapOut tk s
  | .cyclicwait tk => Sys2Proof.Machine.execCyclicwait tk s
  | .waitaTimeout rk => Sys2Proof.Machine.execWaitaTimeout rk s
  | .commitProbe tk => Sys2Proof.Machine.execCommitProbe tk s
  | .commitPoint tk => Sys2Proof.Machine.execCommitPoint tk s
  | .graceExpire tk => Sys2Proof.Machine.execGraceExpire tk s
  | .cp x => Sys2Proof.Machine.execCp x s
  | .cpcv x => Sys2Proof.Machine.execCpcv x s
  | .rdst x => Sys2Proof.Machine.execRdst x s
  | .fill x => Sys2Proof.Machine.execFill x s
  | .gath x => Sys2Proof.Machine.execGath x s
  | .sig x => Sys2Proof.Machine.execSig x s
  | .copyWtRelease rk q => Sys2Proof.Machine.execCopyWtRelease rk q s
  | .copyComplete rk q => Sys2Proof.Machine.execCopyComplete rk q s
  | .cpcvRescaleTrap rk => Sys2Proof.Machine.execCpcvRescaleTrap rk s
  | .task x => Sys2Proof.Machine.execTask x s
  | .taskWtRelease rk => Sys2Proof.Machine.execTaskWtRelease rk s
  | .depotRowStart rk => Sys2Proof.Machine.execDepotRowStart rk s
  | .taskComplete rk => Sys2Proof.Machine.execTaskComplete rk s
  | .rwr x => Sys2Proof.Machine.execRwr x s
  | .rrd x => Sys2Proof.Machine.execRrd x s
  | .rsig x => Sys2Proof.Machine.execRsig x s
  | .post x => Sys2Proof.Machine.execPost x s
  | .inboundSegment dst src ord x => Sys2Proof.Machine.execInboundSegment dst src ord x s
  | .retransmit rk seg => Sys2Proof.Machine.execRetransmit rk seg s
  | .inboundStallTimeout vf idx => Sys2Proof.Machine.execInboundStallTimeout vf idx s
  | .scaleoutComplete rk status data => Sys2Proof.Machine.execScaleoutComplete rk status data s
  | .timeout rk => Sys2Proof.Machine.execTimeout rk s
  | .peerdown rk => Sys2Proof.Machine.execPeerdown rk s
  | .waybillMerge die vf idx => Sys2Proof.Machine.execWaybillMerge die vf idx s
  | .waybillAgeExpiry die vf idx => Sys2Proof.Machine.execWaybillAgeExpiry die vf idx s
  | .launchMessage vf addr => Sys2Proof.Machine.execLaunchMessage vf addr s
  | .launchReady lid => Sys2Proof.Machine.execLaunchReady lid s
  | .depTokenRetry lid => Sys2Proof.Machine.execDepTokenRetry lid s
  | .teamDispatch tk core dps => Sys2Proof.Machine.execTeamDispatch tk core dps s
  | .teamRetire tk => Sys2Proof.Machine.execTeamRetire tk s
  | .launchComplete lid => Sys2Proof.Machine.execLaunchComplete lid s
  | .failed lid => Sys2Proof.Machine.execFailed lid s
  | .stageComplete lid => Sys2Proof.Machine.execStageComplete lid s
  | .farePost core => Sys2Proof.Machine.execFarePost core s
  | .sharedFarePost => Sys2Proof.Machine.execSharedFarePost s
  | .fareadd vf amount => Sys2Proof.Machine.execFareadd vf amount s
  | .preemptGrace vf => Sys2Proof.Machine.execPreemptGrace vf s
  | .preemptResume vf => Sys2Proof.Machine.execPreemptResume vf s
  | .preemptKillAll vf => Sys2Proof.Machine.execPreemptKillAll vf s
  | .preemptAbort vf => Sys2Proof.Machine.execPreemptAbort vf s
  | .answerRetry vf recid => Sys2Proof.Machine.execAnswerRetry vf recid s
  | .answerKill vf recid => Sys2Proof.Machine.execAnswerKill vf recid s
  | .postclr vf handle => Sys2Proof.Machine.execPostclr vf handle s
  | .lostclr part pa => Sys2Proof.Machine.execLostclr part pa s
  | .migrate part ia dst => Sys2Proof.Machine.execMigrate part ia dst s
  | .migrateLineStep die idx => Sys2Proof.Machine.execMigrateLineStep die idx s
  | .migrateCancel die idx => Sys2Proof.Machine.execMigrateCancel die idx s
  | .migrateResume die idx => Sys2Proof.Machine.execMigrateResume die idx s
  | .migrateReverse die idx => Sys2Proof.Machine.execMigrateReverse die idx s
  | .translationInvalidate part ia => Sys2Proof.Machine.execTranslationInvalidate part ia s
  | .pwrcfgWrite cluster val => Sys2Proof.Machine.execPwrcfgWrite cluster val s
  | .accept val => Sys2Proof.Machine.execAccept val s
  | .faultRingRegWrite vf reg val => Sys2Proof.Machine.execFaultRingRegWrite vf reg val s
  | .registerWrite reg val => Sys2Proof.Machine.execRegisterWrite reg val s
  | .attestationRequest vf nonce => Sys2Proof.Machine.execAttestationRequest vf nonce s
  | .gangLaunchMessage vf addr => Sys2Proof.Machine.execGangLaunchMessage vf addr s
  | .arm vf gang rank nchip addr => Sys2Proof.Machine.execArm vf gang rank nchip addr s
  | .armok gang rank code grid => Sys2Proof.Machine.execArmok gang rank code grid s
  | .go gang => Sys2Proof.Machine.execGo gang s
  | .goack gang rank => Sys2Proof.Machine.execGoack gang rank s
  | .goWindowExpire gang => Sys2Proof.Machine.execGoWindowExpire gang s
  | .fenceKill gang => Sys2Proof.Machine.execFenceKill gang s
  | .packageReset => Sys2Proof.Machine.execPackageReset s
  | .thermUpdate => Sys2Proof.Machine.execThermUpdate s
  | .hbmTempSample die stack temp => Sys2Proof.Machine.execHbmTempSample die stack temp s
  | .refreshPeriodSwitch die stack => Sys2Proof.Machine.execRefreshPeriodSwitch die stack s
  | .refreshStart die stack pch => Sys2Proof.Machine.execRefreshStart die stack pch s
  | .refreshEnd die stack pch => Sys2Proof.Machine.execRefreshEnd die stack pch s
  | .scrub die pa r => Sys2Proof.Machine.execScrub die pa r s
  | .linkFlitError link => Sys2Proof.Machine.execLinkFlitError link s
  | .nearThresholdEnter core upper => Sys2Proof.Machine.execNearThresholdEnter core upper s
  | .illegal => Sys2Proof.Machine.execIllegal s
  | .portDown port down => Sys2Proof.Machine.execPortDown port down s

end Sys2Proof.Machine
end

