-- ==== Sys2Proof/Machine/Step.lean ====
section
/-! DEFINITION. The step (log 1): the next move of the agenda, or of a round when the agenda is empty; what the move runs
is executed by `exec`; then every pre-emption that can take place does (R165). And `withFetchWord`, which sets a package
up so that the next step issues one given word (log 7). -/

namespace Sys2Proof.Machine
open Sys2Proof

/-- The end of a step: nothing is being executed, and requested pre-emptions take place. -/
def State.endStep (s : State) : State := { s with cur := .none }.settle

/-- The end of a step in an outcome. -/
def endRes : Res → Res
  | .next s => .next s.endStep
  | .fault f => .fault f
  | .refused r => .refused r

/-- An executed word is charged (R382). -/
def chargeRes (before : State) (a : Agent) (i : Instr) : Res → Res
  | .next s => .next (s.charged before a i)
  | .fault f => .fault f
  | .refused r => .refused r

/-- Execute what a move runs. -/
def Pick.exec (p : Pick) : Res :=
  match p.run with
  | none => endRes (.next p.state)
  | some (a, i) => endRes (chargeRes p.state a i (Sys2Proof.Machine.exec i { p.state with cur := a }))

/-- The moves to come. -/
def State.moves (s : State) : List Move := if s.agenda.isEmpty then s.round else s.agenda

/-- One step. -/
def step (s : State) : Host.Outcome State Fault Refusal :=
  match s.moves with
  | [] => .next s
  | m :: t => (({ s with agenda := t }).pick m).exec

/-! ## A package that fetches one given word next -/

/-- Put a field into a byte map. -/
def putField (m : NMap Byte) (off n v : Nat) : NMap Byte :=
  ((rangeFrom off n).zip (leBytes n v)).foldl (fun m e => m.set 0 e.1 e.2) m

/-- Put fields into a byte map: offset, length, value. -/
def fieldMap (fs : List (Nat × Nat × Nat)) : NMap Byte := fs.foldl (fun m f => putField m f.1 f.2.1 f.2.2) []

/-- The kernel header of the one-role program (R89, R90): one group, 64 register bytes, 16 words of each code. -/
def fetchHeader : NMap Byte :=
  fieldMap [(0, 2, 0x4B48), (2, 1, 1), (3, 1, 1), (4, 2, 1), (7, 1, 0x30), (8, 4, 0xFFFFFFFF), (16, 4, 3 * 2 ^ 21),
    (56, 4, 16), (60, 4, 16)]

/-- Its launch record (R371): header at 0x1000, lane code at 0x2000, one team. -/
def fetchRecord : NMap Byte :=
  fieldMap ([(0, 8, 0x1000), (8, 8, 0x2000), (16, 4, 1), (20, 4, 1), (24, 4, 1), (31, 1, 0x0C), (44, 1, 1), (45, 1, 1),
    (224, 8, 0x900000), (232, 4, 0x103000)] ++ (List.range 8).map fun n => (48 + 8 * n, 8, 6))

/-- Its launch, accepted and dispatched. -/
def fetchLaunch : Launch :=
  { Launch.empty with record := fetchRecord, header := fetchHeader, phase := .running, next := 1 }

/-- The one role of its one team. -/
def fetchRole (lane : Bool) : Role :=
  let r := fetchLaunch.newRole 0 0 0
  if lane then { r with blocks := [⟨0, 1, [], [], 0, [], 0⟩], laneSeq := 1 } else r

/-- The page that holds the code: 256 MiB at physical address 0x1000_0000, mapped by the first entry of the table at
physical address 0 (R310). -/
def codePage : Nat := 0x10000000

/-- The context: segment 0 maps virtual address 0 on to intermediate address 0 (R304). -/
def fetchVf (v : Vf) : Vf := { v with part := 0, segV := v.segV.set 0 0 0x7001, segI := v.segI.set 0 0 0 }

/-- The package with a word stored where the role of a fresh team fetches next, and that role's issue boundary as the
next move (log 7): `nbits` at most 64 is a scalar word, with the word behind it; a wider one a lane word. -/
def State.withFetchWord (s : State) (nbits w : Nat) : State :=
  let lane := decide (64 < nbits)
  let tk := teamKey 1 0
  let at_ := codePage + (if lane then 0x2000 else 0x1040)
  let s1 := ((rangeFrom at_ 12).zip (leBytes 12 w)).foldl (fun t e => t.setHome e.1 e.2)
    (s.setEntry 0 (codePage + 7))
  let s2 := ((s1.updVf 0 fetchVf).updPart 0 fun p => { p with dieMap := p.dieMap.set 0 0 1 }).updLaunch 1 fun _ => fetchLaunch
  let s3 := (s2.setTeam tk ({ Team.empty with lid := 1, nroles := 1 }.begin false 0 0 s.nextAge)).setRole (roleKey tk 0)
    (fetchRole lane)
  { s3.updCore 0 (fun c => { c with slots := c.slots.put 0 tk, nta := false }) with
    accept := s.offer, acceptLocked := true, firmware := true, nextLid := Nat.max 2 s.nextLid, nextAge := s.nextAge + 1
    agenda := .boundary 0 0 lane :: s.agenda }

end Sys2Proof.Machine
end

