-- ==== Sys2Proof/Safety.lean ====
section
/-! DEFINITION. The terms in which claims are stated: when an instruction of a stream can complete, what a byte of
memory reads as, and the standing conditions of the machine. -/

namespace Sys2Proof.Machine
open Sys2Proof

/-! ## Standing conditions -/

/-- Home memory is in canonical form. -/
def State.MemOk (s : State) : Prop := Memory.wf s.hbm = true

/-- No stream, row or engine is being executed: what holds between steps. -/
def State.Idle (s : State) : Prop := s.cur = .none

/-- Only offered features are accepted (R392). -/
def State.FeaturesOk (s : State) : Prop := s.accept &&& ~~~s.offer = 0

/-! ## The scalar stream -/

/-- The scalar stream of role `rk` executes a word with source fields `srcs` and destination `dst` that can complete:
no field names a queue register whose use is ILLEGAL, every source is readable, with values `vs`, and the destination
has room; `s1` is the state in which the sources have been read (R63, R173, R183, R185). -/
structure ScalarReady (s : State) (rk : Nat) (srcs : List SReg) (dst : Option SReg) (vs : List W64) (s1 : State) :
    Prop where
  cur : s.cur = .scalar rk
  srcsLegal : srcs.any (s.fieldIllegal rk false) = false
  dstLegal : dst.toList.any (s.fieldIllegal rk true) = false
  read : ∃ ps s2, s.readFields rk (s.role rk).popped srcs = .vals vs ps s2 ∧ s2.dstBlock rk dst = .room ∧
    s1 = s2.keepPopped rk ps

/-- Source fields read in order from state `s` (R63): the values `vs`, of these the popped ones `ps`, and the state after the
pops. A field of a queue takes the head that the pops before it have left. -/
inductive Pops (rk : Nat) : State → List SReg → List W64 → List W64 → State → Prop where
  | none (s : State) : Pops rk s [] [] [] s
  | reg (s u : State) (n : Fin 48) (t : List SReg) (vs ps : List W64) :
      Pops rk s t vs ps u → Pops rk s (.s n :: t) ((s.role rk).sreg n.val :: vs) ps u
  | pop (s u : State) (q : Fin 16) (t : List SReg) (v : W64) (vs ps : List W64) :
      (s.queueOf rk q.val).head? = some v → Pops rk (s.popHead rk q.val) t vs ps u →
      Pops rk s (.q q :: t) (v :: vs) (v :: ps) u

/-- Scalar words, each with its source fields in the order in which they are read, and its destination (R70, R175, R180,
R181, R189, R193). -/
def scalarForms (d a b : SReg) (i : BitVec 13) (l : LdWidth) (w : StWidth) (o : BitVec 10) :
    List (Instr × List SReg × Option SReg) :=
  let row (js : List Instr) (srcs : List SReg) (dst : Option SReg) : List (Instr × List SReg × Option SReg) :=
    js.map fun j => (j, srcs, dst)
  row [.add d a b, .sub d a b, .mul d a b, .mulh d a b, .mulhn d a b, .div d a b, .divn d a b, .rem d a b, .remn d a b,
    .and d a b, .or d a b, .xor d a b, .andn d a b, .shl d a b, .shr d a b, .sra d a b, .rot d a b, .min d a b,
    .max d a b, .minn d a b, .maxn d a b, .clmul d a b, .clmulh d a b, .seq d a b, .sne d a b, .slt d a b,
    .sltn d a b, .waita d a b] [a, b] (some d)
  ++ row [.clz d a, .ctz d a, .popc d a, .brev d a, .addi d a i, .andi d a i, .ori d a i, .xori d a i, .ld d a l o,
    .sld d a l o] [a] (some d)
  ++ row [.beq d a i, .bne d a i, .blt d a i, .bge d a i, .bltn d a i, .bgen d a i, .st d a w o, .sst d a w o] [a, d] none
  ++ row [.jr a, .barav a, .barwt a, .gang a, .view 0 a, .wbsync a] [a] none
  ++ row [.perf a b, .clnr a b, .cliv a b] [a, b] none ++ row [.sel d a b] [a, b, d] (some d)

/-- The carry-less product of two words, as a sum of shifted copies (R104). -/
def clProduct (x y : W64) : BitVec 128 :=
  (List.range 64).foldl (fun p i => if y.getLsbD i then p ^^^ (x.zeroExtend 128 <<< i) else p) 0

/-- The values that the registers of a list hold. -/
def regVals (s : State) (rk : Nat) (ns : List (Fin 48)) : List W64 := ns.map fun n => (s.role rk).sreg n.val

/-- Bytes and signedness of a load width (R70). -/
def ldShape : LdWidth → Nat × Bool
  | .n8 => (1, false) | .i8 => (1, true) | .n16 => (2, false) | .i16 => (2, true) | .n32 => (4, false)
  | .i32 => (4, true) | .b64 => (8, false)

/-- Bytes of a store width (R70). -/
def stSize : StWidth → Nat
  | .n8 => 1 | .n16 => 2 | .n32 => 4 | .b64 => 8

/-- A loaded number of `n` bytes extended to 64 bits (R70). -/
def extended (n : Nat) (signed : Bool) (v : Nat) : W64 :=
  if signed = true ∧ 2 ^ (8 * n - 1) ≤ v then BitVec.ofInt 64 ((v : Int) - 2 ^ (8 * n)) else BitVec.ofNat 64 v

/-- The effective address of a scalar access (R181). -/
def accessEa (base : W64) (off : BitVec 10) : Nat := (base + off.signExtend 64).toNat

/-- The translation with which a scalar access of a role is made (R135, R307, R312): that of its first bytes when some of it
has been performed, with none of its lines lost since (R336). -/
def AccessAt (s : State) (rk ea n : Nat) (write : Bool) (x : Xlat) : Prop :=
  ((s.role rk).partAt = none ∧ s.xlat (s.vfOf rk) ea n write = .ok x) ∨
    ((s.role rk).partAt = some x ∧ ∀ pa ∈ x.pas, s.lostPa pa = false)

/-- The forms of ATOM that need no prior value, each with its operation code (R68). -/
def reductionForms (a b : SReg) (sc : Fin 8) : List (Instr × Nat) :=
  [(.atomAdd (.s 0) a b sc, 0), (.atomAnd (.s 0) a b sc, 1), (.atomOr (.s 0) a b sc, 2), (.atomXor (.s 0) a b sc, 3),
   (.atomMin (.s 0) a b sc, 4), (.atomMax (.s 0) a b sc, 5), (.atomMinn (.s 0) a b sc, 6), (.atomMaxn (.s 0) a b sc, 7),
   (.atomSwap (.s 0) a b sc, 8), (.atomFfcs (.s 0) a b sc, 11)]

/-- Every form of ATOM, with its source fields, and whether it reads sd (R68, R182). -/
def atomForms (d a b : SReg) (sc : Fin 8) : List (Instr × List SReg × Bool) :=
  ([.atomAdd d a b sc, .atomAnd d a b sc, .atomOr d a b sc, .atomXor d a b sc, .atomMin d a b sc, .atomMax d a b sc,
    .atomMinn d a b sc, .atomMaxn d a b sc, .atomSwap d a b sc, .atomFfcs d a b sc].map fun i => (i, [a, b], false))
  ++ [.atomCas d a b sc, .atomBfim d a b sc, .atomPlset d a b sc].map fun i => (i, [a, b, d], true)

/-- What FFCS gives: the new word and the result (R182). -/
def ffcsOf (old y : W64) : W64 × W64 :=
  if y &&& ~~~old = 0 then (old, 64) else (old ||| ((1 : W64) <<< (y &&& ~~~old).ctz), (y &&& ~~~old).ctz)

/-- What PLSET makes of a word, with limit `p` (R182). -/
def plsetOf (old y p : W64) : W64 :=
  if old &&& ((1 : W64) <<< (y % 64)) = 0 ∧ old.cpop.ult p then old ||| ((1 : W64) <<< (y % 64)) else old

/-- The state but for its roles. -/
def State.butRoles (s : State) : State := { s with roles := [] }

/-- The state but for its roles and teams. -/
def State.butTeams (s : State) : State := { s with roles := [], teams := [] }

/-! ## Memory -/

/-- Byte `i` of a number. -/
def byteOf (n i : Nat) : Byte := BitVec.ofNat 8 (n / 2 ^ (8 * i))

/-- The byte of a line that an intermediate address names, in a partition: its key and its place (R286). -/
def cell (part ia : Nat) : Nat × Nat := (lineKey part ia, ia % 64)

/-- The cells of an access. -/
def cells (x : Xlat) : List (Nat × Nat) := (rangeFrom x.ia x.pas.length).map (cell x.part)

/-- No other cluster's cache holds a line of the grains of an access dirty (R325, R326). -/
def State.Uncontended (s : State) (cluster : Nat) (x : Xlat) : Prop :=
  ∀ e ∈ s.dirty, grainKey e.1 ∈ (linesOf x.part x.ia x.pas.length).map grainKey → e.2.holder.cluster = cluster

/-! ## The lane stream -/

/-- A lane word of a role or of a depot row can run: it names no absent resource, its hold can be made, and no register
word or latch entry is marked bad (R44, R50, R54, R56, R58, R97, R335); `cx` and `l` are what it reads. -/
structure LaneReady (s : State) (c : LaneCtl) (srcs : Sources) (dsts : List (Opnd × Nat)) (cx : LaneCx) (l : Lanes) :
    Prop where
  now : s.laneNow = some (cx, l)
  present : wordPresent cx l c.hold srcs dsts = true
  clean : l.clean = true

/-- The word writes, in each of its active lanes, the `n` bytes of its destination with a value of its sources there,
and then ends as every lane word does (R45, R95, R125). -/
def LaneWrites (s : State) (c : LaneCtl) (i : Instr) (srcs : Sources) (d : Opnd) (n : Nat) (f : Nat → Nat → Nat → Nat) :
    Prop :=
  ∀ cx l, LaneReady s c srcs [(d, n)] cx l →
    exec i s = .next (s.laneFinish c cx l srcs ⟨l.mapTo cx (l.actives c) d n fun j =>
      f (srcs.a.val cx l j) (srcs.b.val cx l j) (srcs.x.val cx l j), 0⟩)

/-- The word writes, in each of its active lanes, the bit of predicate `kd` with a test of its sources there (R95). -/
def LaneTests (s : State) (c : LaneCtl) (i : Instr) (srcs : Sources) (kd : BitVec 4) (f : Lanes → Nat → Nat → Nat → Bool) :
    Prop :=
  ∀ cx l, LaneReady s c srcs [] cx l →
    exec i s = .next (s.laneFinish c cx l srcs ⟨l.mapPred (l.actives c) kd.toNat fun j =>
      f l j (srcs.a.val cx l j) (srcs.b.val cx l j), 0⟩)

/-- The integer that `v` stands for in an operand type (R99, R101). -/
def intOf (t : ITy) (v : Nat) : Int := if itySigned t then (BitVec.ofNat t.width v).toInt else v

/-- The least and the greatest integer of an operand type (R101). -/
def intLo (t : ITy) : Int := if itySigned t then -2 ^ (t.width - 1) else 0

/-- See `intLo`. -/
def intHi (t : ITy) : Int := if itySigned t then 2 ^ (t.width - 1) - 1 else 2 ^ t.width - 1

/-- The word that an exact integer gives: clamped under SAT, wrapped otherwise (R101). -/
def intWord (t : ITy) (sat : Bool) (e : Int) : Nat :=
  (BitVec.ofInt t.width (if sat then (if e < intLo t then intLo t else if intHi t < e then intHi t else e) else e)).toNat

/-- The bit field of a form, cut at the top of the word: its place and length (R103). -/
def cutField (w : Nat) (f : BfSel) (y : Nat) : Nat × Nat :=
  match f with
  | .const p l => (p.toNat, Nat.min (l.toNat + 1) (w - p.toNat))
  | .var _ => (y % 64, Nat.min (y / 256 % 64 + 1) (w - y % 64))

/-- The carry-less product of two `w`-bit words (R104). -/
def clWide (w x y : Nat) : BitVec (w + w) :=
  (List.range w).foldl (fun p i => if (BitVec.ofNat w y).getLsbD i then p ^^^ ((BitVec.ofNat w x).zeroExtend (w + w) <<< i)
    else p) 0

/-- Each element of a word through a function of the elements of three words (R106). -/
def elementwise (t : FTy) (f : XVal → XVal → XVal → XVal) (m : Rnd) (sat : Bool) (x y z : Nat) : Nat :=
  let e (j v : Nat) : XVal := decodeF (ftFF t) (v / 2 ^ (16 * j) % 2 ^ (ftFF t).width)
  let r (j : Nat) : Nat := (roundTo (f (e j x) (e j y) (e j z)) (ftFF t) m sat 0).bits
  match t with
  | .f32 => r 0
  | _ => r 0 + 2 ^ 16 * r 1

/-- The two `bf16` elements of a word rounded stochastically: a draw for each, in order (R17, R19, R20). -/
def stochWord (f : XVal → XVal → XVal → XVal) (sat : Bool) (x y z : Nat) (g : W32) : Nat × W32 :=
  let e (j v : Nat) : XVal := decodeF .bf16 (v / 2 ^ (16 * j) % 2 ^ 16)
  let r (j : Nat) (u : W32) : Nat := (roundTo (f (e j x) (e j y) (e j z)) .bf16 .stoch sat (u.toNat / 256)).bits
  let g1 := nextRandom g
  let g2 := nextRandom g1
  (r 0 g1 + 2 ^ 16 * r 1 g2, g2)

/-- Lanes in ascending order, each with the generator that the lane before it left (R20). -/
def stochLanes (f : Nat → W32 → Nat × W32) : List Nat → W32 → List (Nat × Nat) × W32
  | [], g => ([], g)
  | i :: t, g => ((i, (f i g).1) :: (stochLanes f t (f i g).2).1, (stochLanes f t (f i g).2).2)

/-- The word is a rounding word under STOCH: it writes each active lane's two elements, with two draws a lane. -/
def LaneDraws (s : State) (c : LaneCtl) (i : Instr) (srcs : Sources) (late : Bool) (d : Opnd) (sat : Bool)
    (f : XVal → XVal → XVal → XVal) : Prop :=
  ∀ cx l, LaneReady s c srcs [(d, 4)] cx l →
    let r := stochLanes (fun j => stochWord f sat (srcs.a.val cx l j) (srcs.b.val cx l j) (srcs.x.val cx l j))
      (l.actives c) l.rng
    exec i s = .next (s.laneFinish c cx l srcs ⟨{ s.writeVals l cx late d 4 r.1 with rng := r.2 }, 0⟩)

/-- The scale of a quantising word in a lane by its slot's GEOM (R114, R117). -/
def quantScale (sl : Slot) (ff : FF) (sc : XVal) (srcs : Sources) (cx : LaneCx) (l : Lanes) (c : LaneCtl) (i : Nat) : XVal :=
  match sl.geom with
  | 0 => sc
  | 1 => .ofScaled false 1 (groupBlock srcs cx l c ff (i / 32)).1
  | _ => decodeF .f32 (srcs.b.val cx l i)

/-- Lane words of one result that read their sources alone, each with its sources and its destination words (R98, R100, R102,
R107, R112, R121, R129, R140, R141, R146). -/
def laneForms (c : LaneCtl) (t : ITy) (sat w64 hi role : Bool) (m : FMode) (ft : FTy) (q : ICond) (fc : FCond)
    (kd ka kb : BitVec 4) (e : Fin 3) (sf df : Fmt) (rnd : Rnd) (es : BitVec 3) (ps : BitVec 2) (vm : VoteMode)
    (sm : ShflMode) (d a b x : Opnd) (i : W32) : List (Instr × Sources × List (Opnd × Nat)) :=
  let w := ityW t
  let u := bitsW w64
  let none3 : Sources := ⟨.none, .none, .none⟩
  let one (w : OpW) : Sources := ⟨.op a w, .none, .none⟩
  let two (w : OpW) : Sources := ⟨.op a w, .op b w, .none⟩
  let imm (w : OpW) : Sources := ⟨.op a w, .imm i w, .none⟩
  let three (w : OpW) : Sources := ⟨.op a w, .op b w, .op x w⟩
  let into (srcs : Sources) (n : Nat) (js : List Instr) : List (Instr × Sources × List (Opnd × Nat)) :=
    js.map fun j => (j, srcs, [(d, n)])
  let test (srcs : Sources) (js : List Instr) : List (Instr × Sources × List (Opnd × Nat)) :=
    js.map fun j => (j, srcs, [])
  into (two w) w.bytes [.vadd c t sat d a b, .vsub c t sat d a b, .vmul c t d a b, .vmulh c t d a b, .vmin c t d a
      b, .vmax c t d a b]
  ++ into (imm w) w.bytes [.vaddImm c t sat d a i, .vsubImm c t sat d a i, .vmulImm c t d a i, .vminImm c t d a i,
      .vmaxImm c t d a i]
  ++ into (three w) w.bytes [.vmad c t d a b x]
  ++ into (two u) u.bytes [.vand c w64 d a b, .vor c w64 d a b, .vxor c w64 d a b, .vandn c w64 d a b, .vshl c w64 d
      a b, .vshr c w64 d a b, .vsra c w64 d a b, .vrot c w64 d a b, .vclmul c w64 hi d a b, .vsel c w64 ka d a b]
  ++ into (imm u) u.bytes [.vandImm c w64 d a i, .vorImm c w64 d a i, .vxorImm c w64 d a i, .vandnImm c w64 d a i]
  ++ into (one u) u.bytes [.vabs c w64 sat d a, .vpopc c w64 d a, .vclz c w64 d a, .vbrev c w64 d a, .vmov c w64 d a]
  ++ into none3 (match e.val with | 0 => 4 | _ => 8) [.vmovi c e d i]
  ++ test (two w) [.vcmp c t q kd a b]
  ++ test (imm w) [.vcmpImm c t q kd a i]
  ++ test (two .w32) [.vfcmp c fc kd a b]
  ++ test (imm .w32) [.vfcmpImm c fc kd a i]
  ++ test (one .w32) [.vkmov c false kd a]
  ++ test none3 [.vkand c kd ka kb, .vkor c kd ka kb, .vkxor c kd ka kb, .vknot c kd ka]
  ++ into (two .w32) 4 [.vfadd c m d a b, .vfsub c m d a b, .vfmul c m d a b, .vfmin c ft d a b, .vfmax c ft d a b]
  ++ into (imm .w32) 4 [.vfaddImm c m d a i, .vfsubImm c m d a i, .vfmulImm c m d a i, .vfminImm c ft d a i,
      .vfmaxImm c ft d a i]
  ++ into (three .w32) 4 [.vfma c m sat hi d a b x]
  ++ into (one .w32) 4 [.vfrcp c m d a, .vfrsq c m d a, .vfsqrt c m d a, .vfexp2 c m d a, .vflog2 c m d a, .vftanh c
      m d a, .vfclass c ft d a]
  ++ into (one (bitsW sf.is64)) (if df.is64 then 8 else 4) [.vcvt c sf df rnd sat es d a]
  ++ into (one .w32) 8 [.vunpk c sf ps d a]
  ++ into none3 4 [.vvote c vm role ka d]
  ++ into ⟨.op a u, .op b .w32, .op x u⟩ u.bytes [.vshfl c sm w64 d a b x]

/-- The lane memory words, each with its fields (R130, R132, R138). -/
def memForms (c : LaneCtl) (m : LMem) (sx red : Bool) (wb : Option (BitVec 3)) (op : AOp) (sc : Fin 7) (data : Opnd) :
    List (Instr × MemWord) :=
  [(.vld c m sx data, ⟨m, .load sx, false⟩), (.vst c m wb data, ⟨m, .store wb, false⟩),
   (.vlds c m sx data, ⟨m, .load sx, true⟩), (.vsts c m wb data, ⟨m, .store wb, true⟩),
   (.vatom c m op red sc data, ⟨m, .atomic op red sc.val, false⟩)]

/-- The translation with which a lane's access is made (R134, R307, R312): the one it took when its word began to perform,
with none of its lines lost since (R336). -/
def LaneAt (s : State) (rk : Nat) (w : MemWord) (a : LaneAcc) (x : Xlat) : Prop :=
  (a.at_ = none ∧ s.xlat (s.vfOf rk) a.ea a.len w.kind.writes = .ok x) ∨
    (a.at_ = some x ∧ ∀ pa ∈ x.pas, s.lostPa pa = false)

/-- The lane memory words of a role that can issue (R130 to R138, R220): `w` their fields, `cx` and `l` what they read. -/
structure MemReady (s : State) (rk : Nat) (w : MemWord) (c : LaneCtl) (data : Opnd) (cx : LaneCx) (l : Lanes) :
    Prop where
  cur : s.cur = .lane rk
  room : s.logFull rk = false
  ready : LaneReady s c (memSources w data) [] cx l
  operand : dataOk w data cx l = true
  tag : s.wbStoreCheck rk w = .ok
  tx : s.txForbids rk w = false
  legal : ∀ a ∈ laneAccs w data c cx l, s.laneClass rk w a.ea = 0
  log : s.inTx (teamOf rk) = false ∨
    s.logRoom (teamOf rk) ((laneAccs w data c cx l).length * s.laneEntries rk w) = true
  lost : (s.role rk).flight = [] → ∀ sub va pa ls, s.transAll rk w (laneAccs w data c cx l) ≠ .mcheck sub va pa ls

/-! ## Depot rows and engines -/

/-- A depot runs the word of row `key`: its task, what its operands read, its lanes (R352, R355). -/
structure RowReady (s : State) (key : Nat) (t : DTask) (cx : LaneCx) (l : Lanes) : Prop where
  cur : s.cur = .row key
  stall : (s.row key).stall = none
  task : t = s.task (s.row key).task
  cx : cx = s.rowCx key
  lanes : l = (s.row key).lanes

/-- Queue `q` of role `rk` performs command `c`, which waits for no token and no answer (R264, R272, R311). -/
structure EngineReady (s : State) (rk q : Nat) (c : Cmd) : Prop where
  role : firstRole ≤ rk
  cur : s.cur = .engine rk q
  run : (s.engQ rk q).run = some c
  result : c.result = none
  stall : c.stall = none
  token : c.waiting = false

/-- The accesses of a command are legal, aligned and mapped, and cover no part of a dirty grain
(R266, R267, R311, R328). -/
structure PlanReady (s : State) (rk : Nat) (p : Plan) (bulk : Bool) : Prop where
  legal : p.order.all (s.accLegal rk) = true
  aligned : p.mis = false
  lack : s.firstLack rk p.order = .none
  grain : bulk = true → s.grainBad (s.vf (s.vfOf rk)).part (s.accIas rk (p.writes ++ p.extra)) = false

/-- A command's reads made in order, each an access of its own (R264, R317); none where one cannot be made. -/
def readAll (id q : Nat) : List Read → State → Option State
  | [], s => some s
  | e :: t, s =>
    let a := e.2.2
    if s.accWaits id q a then none
    else match s.accLack (s.actor id) a, s.accRead (s.actor id) a with
    | .none, some bs =>
      readAll id q t (((s.noteReads (s.actor id) [a]).chargeMove id q false e.2.1 a).updProg id q fun g =>
        { g with vals := g.vals.put e.1 bs })
    | _, _ => none

/-- A command's writes made in order by `put`, each an access of its own, `prev` the one before them (R264, R317); none where
one cannot be made. `home` says that they are atomics at the home (R270). -/
def writeAll (id q : Nat) (home : Bool) (put : Put) : Option CopyW → List CopyW → State → Option State
  | _, [], s => some s
  | prev, w :: ws, s =>
    if s.accWaits id q w.acc then none
    else match s.accLack (s.actor id) w.acc, put s (s.prog id q).wrote w with
    | .none, some t =>
      writeAll id q home put (some w) ws ((t.chargeMove id q home (prev.map CopyW.acc) w.acc).updProg id q fun g =>
        { g with
          wrote := g.wrote + 1
          count := g.count + w.count
          lines := g.lines ++ if home then [] else s.lostUnder (s.actor id) w })
    | _, _ => none

/-- The reads of a course, each with its number and the one before it. -/
def Course.numbered (x : Course) : List Read :=
  (((none :: x.reads.map some).zip x.reads).zipIdx).map fun e => (e.2, e.1)

/-- A command of course `x` that makes all its accesses in one step from `s` comes to `u`: its reads, then its writes. -/
def CourseRuns (s : State) (id q : Nat) (x : Course) (put : Put) (u : State) : Prop :=
  ∃ t, readAll id q x.numbered s = some t ∧ x.fails (t.prog id q).got = none ∧
    (x.writes (t.prog id q).got true).length ≤ x.most ∧
    writeAll id q x.home put none (x.writes (t.prog id q).got true) t = some u

/-- The scale-out engine begins command `c` of name `id`, with a peer that it may send to (R272, R400, R403). -/
structure SoReady (s : State) (id : Nat) (c : Cmd) (t : RemTail) : Prop where
  cur : s.cur = .engine id 4
  cmd : s.cmdOf id 4 = some c
  result : c.result = none
  stall : c.stall = none
  reply : c.reply = none
  sent : c.sent = none
  token : c.waiting = false
  fresh : (s.prog id 4).begun = false
  peer : peerOk ((s.vf (s.cmdVf id)).peers.get 0 t.peer) = true

/-! ## The matrix engine -/

/-- The LX word of a role's lane stream, with what its block gives it (R126, R163, R231). -/
def State.lxWordOf (s : State) (rk : Nat) (i : Instr) : LxWord :=
  ⟨rk, i, (s.role rk).block.snap, (s.role rk).block.views, membersOf (s.role rk).block.gang, false, (s.role rk).laneIndex⟩

/-- The sum of two inner values (R35). -/
def innerSum (f : FF) (x y : Nat) : Nat := (roundTo (xadd false (decodeF f x) (decodeF f y)) f .rne false 0).bits

/-- One level of the tree of R37: neighbours are summed. -/
def pairLevel (f : FF) : List Nat → List Nat
  | a :: b :: t => innerSum f a b :: pairLevel f t
  | l => l

/-- The fixed pairwise tree of R37 over `2^n` products. -/
def pairSum (f : FF) : Nat → List Nat → Nat
  | 0, l => l.headD 0
  | n + 1, l => pairSum f n (pairLevel f l)

/-- A product in the inner format: +0 where B has no element (R36, R39). -/
def innerProduct (f : FF) (a : XVal) (b : Option XVal) : Nat :=
  match b with
  | none => 0
  | some v =>
    match xmul a v with
    | .inf s => signed f s f.infCode
    | x => (roundTo x f .rne false 0).bits

/-- `k_step` of R37. -/
def innerStep (form partial_ : Nat) (ps : List (XVal × Option XVal)) : Nat :=
  let f := formInner form
  innerSum f partial_ (pairSum f (formN form).log2 (ps.map fun e => innerProduct f e.1 e.2))

/-- A step on the partial of an element, or at form 3 on its three partials (R40). -/
def partialStep (form : Nat) (p : Partials) (ps : List (XVal × Option XVal)) : Partials :=
  if form = 3 then
    ⟨innerStep form p.hh (ps.map fun e => (splitHi e.1, e.2.map splitHi)),
     innerStep form p.hl (ps.map fun e => (splitHi e.1, e.2.map splitLo)),
     innerStep form p.lh (ps.map fun e => (splitLo e.1, e.2.map splitHi))⟩
  else ⟨innerStep form p.hh ps, 0, 0⟩

/-- The element that R235 computes, from step `i` with `n` steps left: `prod k` are the factors of product `k`, positions at
or beyond K enter as +0, and the partial is promoted after every 128 K and at the end (R28, R38). -/
def dotProduct (g : LxGeo) (prod : Nat → XVal × Option XVal) (sa sb : Nat → XVal) : Nat → Nat → Nat → Partials → Nat
  | 0, _, acc, _ => acc
  | n + 1, i, acc, p =>
    let nn := formN g.form
    let q := partialStep g.form p ((rangeFrom (i * nn) nn).map fun k => if k < g.k then prod k else (.fin false 0 1, none))
    if (i + 1) * nn % 128 = 0 ∨ n = 0 then
      let scaled := xmul (xmul (partialVal g.form q) (sa (i * nn))) (sb (i * nn))
      dotProduct g prod sa sb n (i + 1) (roundTo (xadd false (decodeF .f32 acc) scaled) .f32 .rne false 0).bits ⟨0, 0, 0⟩
    else dotProduct g prod sa sb n (i + 1) acc q

/-- C[r][n] of a member of a multiplication (R225 to R229, R234, R235), as its operands read when the word starts. -/
def State.lxElement (s : State) (j : LxJob) (m : LxMul) (w : LxWord) (r n : Nat) : Nat :=
  let l := (s.role w.rk).lanes
  let rd := j.sb (s.team (teamOf w.rk))
  let g := s.geoOf w m
  let sa := s.slot w.rk m.fsa
  let sb := s.slot w.rk m.fsb
  let av := w.view m.aview
  dotProduct g (fun k => (elemA l s.free sa av g r k, elemB rd m sb g k n)) (scaleA l s.free sa av g j.scaleA r)
    (scaleB rd sb g j.scaleB) g.steps 0 (if m.z then 0 else accVal l s.free (w.view m.accview) r n) ⟨0, 0, 0⟩

/-- The scale of a run of values of VACCRD (R27, R33, R241). -/
def rdScale (sl : Slot) (ff : FF) (ws : XVal) (run : List XVal) : XVal :=
  match sl.geom with
  | 1 => .ofScaled false 1 (mxScale run ff).1
  | 2 => scaleOf (amaxOf run) ff sl.margin
  | _ => ws

/-- The state once a role's LX word is in the hold (R231, R237, R241): what it reads and writes is watched from here on. -/
def State.held (s : State) (rk : Nat) (w : LxWord) : State :=
  (s.updRole rk fun r => { r with
    hold := some w
    lpark := .lxHold
    lanes := { r.lanes with watch := r.lanes.watch ++ [s.lxWatch 0 w] } }).updTeam (teamOf rk) fun t =>
      { t with reserved := t.reserved + s.lxReserve w }

end Sys2Proof.Machine

namespace Sys2Proof

/-! ## Words -/

/-- Is the row a word of the lane stream or of depot code? -/
def Instr.isLaneWord (i : Instr) : Bool := match i with
  | .vadd .. | .vsub .. | .vmul .. | .vmulh .. | .vmad .. | .vmin .. | .vmax .. | .vabs .. | .vand .. | .vor ..
  | .vxor .. | .vandn .. | .vshl .. | .vshr .. | .vsra .. | .vrot .. | .vpopc .. | .vclz .. | .vbrev ..
  | .vbfext .. | .vbfins .. | .vclmul .. | .vsel .. | .vcmp .. | .vaddImm .. | .vsubImm .. | .vmulImm ..
  | .vminImm .. | .vmaxImm .. | .vandImm .. | .vorImm .. | .vxorImm .. | .vandnImm .. | .vcmpImm .. | .vfadd ..
  | .vfsub .. | .vfmul .. | .vfma .. | .vfmin .. | .vfmax .. | .vfcmp .. | .vfrcp .. | .vfrsq .. | .vfsqrt ..
  | .vfexp2 .. | .vflog2 .. | .vftanh .. | .vfclass .. | .vfaddImm .. | .vfsubImm .. | .vfmulImm ..
  | .vfminImm .. | .vfmaxImm .. | .vfcmpImm .. | .vcvt .. | .vqnt .. | .vdqnt .. | .vpack .. | .vunpk ..
  | .vwbupd .. | .vif .. | .velse .. | .vendif .. | .vkand .. | .vkor .. | .vkxor .. | .vknot .. | .vkmov ..
  | .vvote .. | .vshfl .. | .vregroup .. | .vtos .. | .vld .. | .vst .. | .vlds .. | .vsts .. | .vatom ..
  | .vpref .. | .vmma .. | .vmmas .. | .vaccz .. | .vaccrd .. | .vaccsc .. | .vmov .. | .vmovi .. | .vnop ..
  | .dldr .. | .dstr .. | .dwat .. | .dtok .. | .dred .. | .dend .. => true
  | _ => false

end Sys2Proof
end

