-- ==== Sys2Proof/Certificates/Slice0/Obligations.lean ====
section
/-! DEFINITION. The statements about the model. Each docstring names the rules it rests on. -/

open Sys2Proof Sys2Proof.Machine

/-! ## The scalar stream -/

/-- R175, R176: the register instructions with two sources, for every operand form that is ready. -/
def Obligations.ScalarTwoSourceResults : Prop :=
  ∀ (s s1 : State) (rk : Nat) (d a b : SReg) (x y : W64), ScalarReady s rk [a, b] (some d) [x, y] s1 →
    let gives (i : Instr) (v : W64) : Prop := exec i s = .next (s1.finish rk d v)
    gives (.add d a b) (x + y) ∧ gives (.sub d a b) (x - y) ∧ gives (.mul d a b) (x * y) ∧
    gives (.mulh d a b) ((x.signExtend 128 * y.signExtend 128).extractLsb' 64 64) ∧
    gives (.mulhn d a b) ((x.zeroExtend 128 * y.zeroExtend 128).extractLsb' 64 64) ∧
    gives (.div d a b) (if y = 0 then BitVec.allOnes 64 else x.sdiv y) ∧
    gives (.divn d a b) (if y = 0 then BitVec.allOnes 64 else x / y) ∧
    gives (.rem d a b) (x.srem y) ∧ gives (.remn d a b) (x % y) ∧
    gives (.and d a b) (x &&& y) ∧ gives (.or d a b) (x ||| y) ∧ gives (.xor d a b) (x ^^^ y) ∧
    gives (.andn d a b) (x &&& ~~~y) ∧
    gives (.shl d a b) (x <<< (y % 64)) ∧ gives (.shr d a b) (x >>> (y % 64)) ∧
    gives (.sra d a b) (x.sshiftRight' (y % 64)) ∧
    gives (.rot d a b) ((x <<< (y % 64)) ||| (x >>> ((64 - y % 64) % 64))) ∧
    gives (.min d a b) (if y.slt x then y else x) ∧ gives (.max d a b) (if x.slt y then y else x) ∧
    gives (.minn d a b) (if y.ult x then y else x) ∧ gives (.maxn d a b) (if x.ult y then y else x) ∧
    gives (.clmul d a b) ((clProduct x y).extractLsb' 0 64) ∧
    gives (.clmulh d a b) ((clProduct x y).extractLsb' 64 64) ∧
    gives (.seq d a b) (if x = y then 1 else 0) ∧ gives (.sne d a b) (if x = y then 0 else 1) ∧
    gives (.slt d a b) (if x.slt y then 1 else 0) ∧ gives (.sltn d a b) (if x.ult y then 1 else 0)

/-- R175, R177, R178: the register instructions with one source and the immediate forms.
R175: SEL reads its destination last, as the condition.
R178, R179, R63: the constants; LIX and LIH take a register only, and LIH keeps the low half. -/
def Obligations.ScalarOneSourceResults : Prop :=
  (∀ (s s1 : State) (rk : Nat) (d a : SReg) (x : W64) (i : BitVec 13) (n l p : BitVec 6),
     ScalarReady s rk [a] (some d) [x] s1 →
     let gives (i : Instr) (v : W64) : Prop := exec i s = .next (s1.finish rk d v)
     gives (.clz d a) x.clz ∧ gives (.ctz d a) x.ctz ∧ gives (.popc d a) x.cpop ∧ gives (.brev d a) x.reverse ∧
     gives (.addi d a i) (x + i.signExtend 64) ∧ gives (.andi d a i) (x &&& i.zeroExtend 64) ∧
     gives (.ori d a i) (x ||| i.zeroExtend 64) ∧ gives (.xori d a i) (x ^^^ i.zeroExtend 64) ∧
     gives (.shli d a n) (x <<< n) ∧ gives (.shri d a n) (x >>> n) ∧ gives (.srai d a n) (x.sshiftRight' n) ∧
     (p.toNat + l.toNat + 1 ≤ 64 →
       gives (.bfext d a l p) ((x.extractLsb' p.toNat (l.toNat + 1)).zeroExtend 64) ∧
       gives (.bfins d a l p) ((x.extractLsb' 0 (l.toNat + 1)).zeroExtend 64 <<< p.toNat))) ∧
  (∀ (s s1 : State) (rk : Nat) (d a b : SReg) (x y c : W64), ScalarReady s rk [a, b, d] (some d) [x, y, c] s1 →
     exec (.sel d a b) s = .next (s1.finish rk d (if c = 0 then y else x))) ∧
  (∀ (s s1 : State) (rk : Nat) (d : SReg) (n : Fin 48) (i : BitVec 19) (w : W32),
     (ScalarReady s rk [] (some d) [] s1 → exec (.li d i) s = .next (s1.finish rk d (i.signExtend 64))) ∧
     (s.cur = .scalar rk →
       exec (.lix (.s n) w) s = .next ((s.updRole rk fun r => r.setSreg n.val (w.signExtend 64)).advance rk 8) ∧
       exec (.lih (.s n) w) s = .next ((s.updRole rk fun r =>
         r.setSreg n.val (w ++ (r.sreg n.val).extractLsb' 0 32)).advance rk 8) ∧
       ∀ q : Fin 16, exec (.lix (.q q) w) s = .next (s.raiseS rk .illegal 0) ∧
         exec (.lih (.q q) w) s = .next (s.raiseS rk .illegal 0)))

/-- R180: where branches, jumps and calls go.
R180: JR and RET go to a multiple of 4; any other target raises MISALIGN and the PC stays. -/
def Obligations.ControlTransfers : Prop :=
  (∀ (s s1 : State) (rk : Nat) (d a : SReg) (x y : W64) (i : BitVec 13) (j : BitVec 19),
     (ScalarReady s rk [a, d] none [x, y] s1 →
       let goes (w : Instr) (c : Bool) : Prop := exec w s =
         .next (if c then s1.jumpTo rk ((s1.role rk).pc + 4 * i.signExtend 64) else s1.advance rk 4)
       goes (.beq d a i) (x == y) ∧ goes (.bne d a i) (x != y) ∧ goes (.blt d a i) (x.slt y) ∧
       goes (.bge d a i) (y.sle x) ∧ goes (.bltn d a i) (x.ult y) ∧ goes (.bgen d a i) (y.ule x)) ∧
     (s.cur = .scalar rk →
       exec (.jmp j) s = .next (s.jumpTo rk ((s.role rk).pc + 4 * j.signExtend 64)) ∧
       exec (.call j) s = .next ((s.updRole rk fun r => r.setSreg 47 (r.pc + 4)).jumpTo rk
         ((s.role rk).pc + 4 * j.signExtend 64)))) ∧
  (∀ (s s1 : State) (rk : Nat) (a : SReg) (x : W64),
     (ScalarReady s rk [a] none [x] s1 →
       exec (.jr a) s = .next (if x % 4 = 0 then s1.jumpTo rk x else s1.raiseS rk .misalign x.toNat)) ∧
     (s.cur = .scalar rk →
       exec .ret s = .next (if (s.role rk).sreg 47 % 4 = 0 then s.jumpTo rk ((s.role rk).sreg 47)
         else s.raiseS rk .misalign ((s.role rk).sreg 47).toNat)))

/-- R63: fields that name registers are ready in every state; `s0` reads zero.
R63, R173, R174: reading the sources pops queues, and changes no register, no other role, no memory and nothing
else of the state.
R63, R174: a result in a register changes that register alone (`s0` never), the PC goes on by 4, and nothing else
of the machine changes, memory included. -/
def Obligations.RegisterFrames : Prop :=
  (∀ (s : State) (rk : Nat) (ns : List (Fin 48)) (d : Option (Fin 48)), s.cur = .scalar rk →
     ScalarReady s rk (ns.map SReg.s) (d.map SReg.s) (regVals s rk ns) s ∧ (s.role rk).sreg 0 = 0) ∧
  (∀ (s s1 : State) (rk : Nat) (srcs : List SReg) (dst : Option SReg) (vs : List W64),
     ScalarReady s rk srcs dst vs s1 →
     s1.butTeams = s.butTeams ∧ (∀ k, k ≠ rk → s1.role k = s.role k) ∧
     { s1.role rk with engs := (s.role rk).engs, q15 := (s.role rk).q15, popped := (s.role rk).popped } = s.role rk ∧
     (∀ k, k ≠ teamOf rk → s1.team k = s.team k) ∧
     { s1.team (teamOf rk) with chans := (s.team (teamOf rk)).chans } = s.team (teamOf rk)) ∧
  (∀ (s : State) (rk : Nat) (n : Fin 48) (v : W64),
     let t := s.finish rk (.s n) v
     (∀ m : Nat, (t.role rk).sreg m = if m = 0 then 0 else if m = n.val then v else (s.role rk).sreg m) ∧
     (t.role rk).pc = (s.role rk).pc + 4 ∧
     { t.role rk with sregs := [], pc := 0, popped := none, part := [], spark := .none } =
       { s.role rk with sregs := [], pc := 0, popped := none, part := [], spark := .none } ∧
     (∀ k, k ≠ rk → t.role k = s.role k) ∧ t.butRoles = s.butRoles)

/-- R63, R183, R184, R185: source fields that name queues pop in their order, each the oldest entry that is left, and the
word is ready with these values; a word that is replayed takes the values it has popped already (R173). A field that
cannot be used is ILLEGAL; an empty queue parks the stream, with nothing popped, is CHANEND when the channel's source has
finished (R169), and TXILLEGAL when only a logged command could fill it (R249).
R183: which uses of queue registers as operands are ILLEGAL.
R63, R183, R249: a push appends one entry behind the others; in an open transaction a command word goes to the
write log, and the queue keeps its entries. A push to one of the first 16 entries leaves memory; a later one has the
device write the queue's overflow area (R185).
R251: a command word for which the write log has no room is TXCAP.
R154: a command word that depends on lane words before it waits for them. -/
def Obligations.QueueRegisters : Prop :=
  (∀ (s u : State) (rk : Nat) (srcs : List SReg) (dst : Option SReg) (vs ps : List W64), s.cur = .scalar rk →
     s.opIllegal rk srcs dst = false →
     ((s.role rk).popped = none → Pops rk s srcs vs ps u → u.dstBlock rk dst = .room →
       ScalarReady s rk srcs dst vs (u.keepPopped rk ps)) ∧
     (∀ q v, srcs = [.q q] → (s.role rk).popped = some [v] → s.dstBlock rk dst = .room →
       ScalarReady s rk srcs dst [v] (s.keepPopped rk [v]))) ∧
  (∀ (s : State) (rk : Nat) (q : Fin 16) (v : W64) (t : List W64), s.queueOf rk q.val = v :: t →
     (s.popHead rk q.val).queueOf rk q.val = t) ∧
  (∀ (s u : State) (rk : Nat) (d a b : SReg) (i : BitVec 13) (l : LdWidth) (w : StWidth) (o : BitVec 10),
     s.cur = .scalar rk → (s.role rk).popped = none → ∀ f ∈ scalarForms d a b i l w o,
     (s.opIllegal rk f.2.1 f.2.2 = true → exec f.1 s = .next (s.raiseS rk .illegal 0)) ∧
     (∀ pre q post vs ps, s.opIllegal rk f.2.1 f.2.2 = false → f.2.1 = pre ++ .q q :: post → Pops rk s pre vs ps u →
       u.queueOf rk q.val = [] →
       (u.popBlock rk q.val = .wait → exec f.1 s = .next (s.parkS rk (.popQ q.val))) ∧
       (u.popBlock rk q.val = .chanEnd → exec f.1 s = .next (s.raiseS rk .chanend 0)) ∧
       (q.val ≤ 5 → u.inTx (teamOf rk) = true → ((u.role rk).eng q.val).todo = [] → ((u.role rk).eng q.val).run = none →
         loggedWords (u.team (teamOf rk)).log (roleIdx rk) q.val ≠ [] →
         exec f.1 s = .next (s.raiseS rk .txillegal 0)))) ∧
  (∀ (s : State) (rk : Nat),
     (∀ push, s.queueIllegal rk 6 push = true ∧ s.queueIllegal rk 7 push = true) ∧
     s.queueIllegal rk 15 true = true ∧ s.queueIllegal rk 15 false = false ∧ (∀ push, s.queueIllegal rk 14 push = false) ∧
     (∀ q, q ≤ 3 → ∀ push, s.queueIllegal rk q push = false) ∧
     (∀ q, 8 ≤ q → q ≤ 13 →
       (s.queueIllegal rk q true = false ↔ (s.launchOf rk).chanUsed q = true ∧ roleIdx rk = (s.launchOf rk).chanSrc q) ∧
       (s.queueIllegal rk q false = false ↔ (s.launchOf rk).chanUsed q = true ∧ roleIdx rk = (s.launchOf rk).chanDst q))) ∧
  (∀ (s : State) (rk : Nat) (q : Fin 16) (v : W64),
     (s.pushWaits rk (.q q) v = true → s.finish rk (.q q) v = s.parkS rk .order) ∧
     (s.pushWaits rk (.q q) v = false → s.logLacks rk (.q q) v = true →
       s.finish rk (.q q) v = s.raiseS rk .txcap 0)) ∧
  (∀ (s : State) (rk : Nat) (q : Fin 16) (v : W64), q.val ≠ 6 → q.val ≠ 7 → s.takes rk (.q q) v = true →
     let t := s.finish rk (.q q) v
     (t.role rk).pc = (s.role rk).pc + 4 ∧ (t.role rk).sregs = (s.role rk).sregs ∧
     (s.queueLoad rk q.val < 16 → t.hbm = s.hbm ∧ t.dirty = s.dirty) ∧
     (8 ≤ q.val → q.val ≤ 14 →
       (t.team (teamOf rk)).chan q.val = (s.team (teamOf rk)).chan q.val ++ [v]) ∧
     (q.val ≤ 5 → s.inTx (teamOf rk) = false → ((s.role rk).eng q.val).stopped = false →
       ∃ seed, ((t.role rk).eng q.val).todo =
         ((s.role rk).eng q.val).todo ++ [.word v seed (s.role rk).span.1 (s.role rk).span.2]) ∧
     (q.val ≤ 5 → s.logsPush rk q.val v = true →
       ((t.role rk).eng q.val).todo = ((s.role rk).eng q.val).todo ∧
       ∃ seed, (t.team (teamOf rk)).log =
         (s.team (teamOf rk)).log ++ [⟨q.val, .command q.val seed, 8, roleIdx rk, 0, v.toNat⟩]))

/-- R61, R339, R340, R341: a fault of a stream other than PAGE writes one record with the fields of R339, stops the
role until the record is answered, and leaves its PC and its registers. -/
def Obligations.FaultRecords : Prop :=
  ∀ (s : State) (rk : Nat) (lane : Bool) (c : Code) (sub va pa lanes : Nat), c ≠ .page →
    let t := s.raise rk lane c sub va pa lanes
    let id := s.nextRec % 2 ^ 32
    let r := s.role rk
    (t.role rk).stopped = some id ∧ (t.role rk).pc = r.pc ∧ (t.role rk).sregs = r.sregs ∧ (t.role rk).lanes = r.lanes ∧
    t.nextRec = s.nextRec + 1 ∧ ((c = .txcap ∨ c = .txprobe) → (t.team (teamOf rk)).halted = some id) ∧
    ∃ f ∈ (t.vf (s.vfOf rk)).recs, f.recid = id ∧ f.role = some rk ∧ f.answered = false ∧
      fieldAt f.bytes 0 2 = codeNum c ∧ fieldAt f.bytes 2 1 = sub % 2 ^ 8 ∧
      fieldAt f.bytes 3 1 = b2n lane + 4 * b2n (s.inTx (teamOf rk)) ∧ fieldAt f.bytes 4 4 = id ∧
      fieldAt f.bytes 8 8 = teamOf rk % 2 ^ 60 ∧ fieldAt f.bytes 16 1 = roleIdx rk ∧ fieldAt f.bytes 17 1 = 0xFF ∧
      fieldAt f.bytes 18 2 = s.vfOf rk % 2 ^ 16 ∧
      fieldAt f.bytes 20 4 = (if lane then r.laneIndex else r.pc.toNat + 2 ^ 64 - (s.launchOf rk).khdr) % 2 ^ 32 ∧
      fieldAt f.bytes 24 8 = va % 2 ^ 64 ∧ fieldAt f.bytes 32 8 = pa % 2 ^ 64 ∧
      fieldAt f.bytes 40 8 = s.refTick.toNat ∧ fieldAt f.bytes 48 16 = 0 ∧ fieldAt f.bytes 64 128 = lanes % 2 ^ 1024

/-- R70, R181: LD and SLD load the bytes at sa plus the signed offset and extend them into sd; LD is the arming point
of a later WAITA (R190), SLD marks its pages accessed (R204).
R181, R249: ST and SST store the low bytes of sd; in an open transaction ST makes a write-log entry.
R133, R173, R181, R341: a scalar access that cannot be performed: ADDRESS and REMOTE stop the role, a page fault
parks the scalar stream on its record, a scratch page fault parks it until the page has been brought, uncorrectable data
is a machine check (R335, R337).
R135: an unaligned access that is not made at once goes byte by byte, with the translation of its first bytes; how many
bytes of it one step performs is the model's pace (`byBytes`, `loadPart`, `storePart`: the model's choice, log 68).
R328: a store waits for a copy command that covers a part of its grain. -/
def Obligations.ScalarLoadsAndStores : Prop :=
  (∀ (s s1 : State) (rk : Nat) (d a : SReg) (w : LdWidth) (off : BitVec 10) (base : W64),
     ScalarReady s rk [a] (some d) [base] s1 →
     let ea := accessEa base off
     let n := (ldShape w).1
     let value (bs : List Byte) : W64 := extended n (ldShape w).2 (leNat bs)
     (∀ x, s1.orderWait rk = false → AccessAt s1 rk ea n false x →
       s1.logSpoilt (teamOf rk) ea n = false →
       let u := s1.updRole rk fun r => r.arm (linesOf x.part x.ia n)
       exec (.ld d a w off) s = .next (if s1.byBytes rk ea n = true then
         u.loadPart rk ea n (some x) d (s1.roleLoad (teamOf rk) ea x) (extended n (ldShape w).2)
         else u.finish rk d (value (s1.roleLoad (teamOf rk) ea x)))) ∧
     (s1.orderWait rk = false → s1.legalScratch (teamOf rk) ea n = true →
       s1.scratchFault (teamOf rk) ea n false = none → s1.vaultBad (teamOf rk) ea n false = false →
       let u := s1.noteScratch (teamOf rk) ea n
       exec (.sld d a w off) s = .next (if s1.byBytes rk ea n = true then
         u.loadPart rk ea n none d (s1.scratchLoad (teamOf rk) ea n) (extended n (ldShape w).2)
         else u.finish rk d (value (s1.scratchLoad (teamOf rk) ea n))))) ∧
  (∀ (s s1 : State) (rk : Nat) (d a : SReg) (w : StWidth) (off : BitVec 10) (base y : W64),
     ScalarReady s rk [a, d] none [base, y] s1 →
     let tk := teamOf rk
     let ea := accessEa base off
     let n := stSize w
     let bs := leBytes n y.toNat
     (s1.orderWait rk = false →
       (∀ x, s1.inTx tk = false → AccessAt s1 rk ea n true x →
         (s1.byBytes rk ea n = true → exec (.st d a w off) s = .next (if s1.bulkHeld x = true then s1.parkS rk .order
           else s1.storePart rk ea (some x) bs fun t j cs => t.storeX (s1.holder rk) (x.sub j cs.length) cs)) ∧
         (s1.byBytes rk ea n = false → (s1.role rk).partAt = none →
           exec (.st d a w off) s = .next (if s1.bulkHeld x = true then s1.parkS rk .order
             else (s1.storeX (s1.holder rk) x bs).advance rk 4))) ∧
       (∀ ia, s1.inTx tk = true → s1.toIa (s1.vfOf rk) ea n = .ia ia → s1.wsLack tk 1 = none →
         exec (.st d a w off) s = .next (if s1.logRoom tk 1 = true then
           (s1.logAdd tk [⟨ea, .store, n, roleIdx rk, 0, leNat bs⟩]).advance rk 4
           else s1.raiseS rk .txcap ea))) ∧
     (s1.orderWait rk = false → s1.legalScratch tk ea n = true →
       s1.scratchFault tk ea n false = none → s1.vaultBad tk ea n true = false →
       exec (.sst d a w off) s = .next (if s1.byBytes rk ea n = true then
           s1.storePart rk ea none bs fun t j cs => t.scratchStore tk (ea + j) cs
         else (s1.scratchStore tk ea bs).advance rk 4))) ∧
  (∀ (s s1 : State) (rk : Nat) (d a : SReg) (lw : LdWidth) (sw : StWidth) (off : BitVec 10) (base y : W64),
     let tk := teamOf rk
     let ea := accessEa base off
     let fails (i : Instr) (n : Nat) (write : Bool) : Prop :=
       (s1.xlat (s1.vfOf rk) ea n write = .address → exec i s = .next (s1.raiseS rk .address ea)) ∧
       (s1.xlat (s1.vfOf rk) ea n write = .remote → exec i s = .next (s1.raiseS rk .remote ea)) ∧
       (∀ sub ia, s1.xlat (s1.vfOf rk) ea n write = .page sub ia →
         exec i s = .next ((s1.raise rk false .page sub ea ia 0).parkS rk (.page (some (s1.nextRec % 2 ^ 32))))) ∧
       (∀ pa, s1.xlat (s1.vfOf rk) ea n write = .mcheck pa →
         exec i s = .next (s1.machineCheck rk false (s1.lostSub pa) ea pa 0))
     let failsScratch (i : Instr) (n : Nat) (write : Bool) : Prop :=
       (4096 * (s1.launchOf rk).scrPages < ea + n → exec i s = .next (s1.raiseS rk .address ea)) ∧
       (ea + n ≤ 4096 * (s1.launchOf rk).scrPages →
         (∀ v, s1.scratchFault tk ea n false = some v → exec i s = .next (s1.parkPage rk v)) ∧
         (s1.scratchFault tk ea n false = none → s1.vaultBad tk ea n write = true →
           exec i s = .next (s1.machineCheck rk false (s1.badAt tk ea n write).1 ea (s1.badAt tk ea n write).2 0)))
     (ScalarReady s rk [a] (some d) [base] s1 →
       (s1.orderWait rk = true → exec (.ld d a lw off) s = .next (s1.parkS rk .order) ∧
         exec (.sld d a lw off) s = .next (s1.parkS rk .order)) ∧
       (s1.orderWait rk = false → (s1.role rk).part = [] → (s1.role rk).partAt = none →
         fails (.ld d a lw off) (ldShape lw).1 false ∧ failsScratch (.sld d a lw off) (ldShape lw).1 false)) ∧
     (ScalarReady s rk [a, d] none [base, y] s1 →
       (s1.orderWait rk = true → exec (.st d a sw off) s = .next (s1.parkS rk .order) ∧
         exec (.sst d a sw off) s = .next (s1.parkS rk .order)) ∧
       (s1.orderWait rk = false → (s1.role rk).part = [] → (s1.role rk).partAt = none →
         (s1.inTx tk = false → fails (.st d a sw off) (stSize sw) true) ∧
         (s1.inTx tk = true →
           (s1.toIa (s1.vfOf rk) ea (stSize sw) = .address →
             exec (.st d a sw off) s = .next (s1.raiseS rk .address ea)) ∧
           (s1.toIa (s1.vfOf rk) ea (stSize sw) = .remote →
             exec (.st d a sw off) s = .next (s1.raiseS rk .remote ea))) ∧
         failsScratch (.sst d a sw off) (stSize sw) true)))

/-- What a global atomic of a role comes to, for each operation (R182, R288, R291): the read, the write of the new
word and the result.
The same in scratch space, scope code 7, which is performed at once in a transaction too (R182, R249).
R133, R182, R249, R251: where an atomic does not complete, for every operation. The three operations that read sd need
sd ≠ 0; in an open transaction a value-returning global atomic is TXILLEGAL and a reduction makes a write-log entry. An
atomic waits for the role's earlier lane accesses (R154) and for a copy command that covers a part of its grain (R328). -/
def Obligations.ScalarAtomics : Prop :=
  (∀ (s s1 : State) (rk : Nat) (d a b : SReg) (sc : Fin 8) (va y : W64) (x : Xlat), sc.val ≠ 7 →
     s.inTx (teamOf rk) = false → s1.inTx (teamOf rk) = false → s1.orderWait rk = false →
     va.toNat % 8 = 0 → s1.xlat (s1.vfOf rk) va.toNat 8 true = .ok x → s1.bulkHeld x = false →
     let old : W64 := BitVec.ofNat 64 (leNat (s1.loadX x))
     let gives (i : Instr) (new res : W64) : Prop := s1.takes rk d res = true → exec i s =
       .next (((s1.atomWrite (s1.holder rk) sc.val x (leBytes 8 new.toNat)).noteAtom rk x).finish rk d res)
     (ScalarReady s rk [a, b] (some d) [va, y] s1 →
       gives (.atomAdd d a b sc) (old + y) old ∧ gives (.atomAnd d a b sc) (old &&& y) old ∧
       gives (.atomOr d a b sc) (old ||| y) old ∧ gives (.atomXor d a b sc) (old ^^^ y) old ∧
       gives (.atomMin d a b sc) (if y.slt old then y else old) old ∧
       gives (.atomMax d a b sc) (if old.slt y then y else old) old ∧
       gives (.atomMinn d a b sc) (if y.ult old then y else old) old ∧
       gives (.atomMaxn d a b sc) (if old.ult y then y else old) old ∧
       gives (.atomSwap d a b sc) y old ∧ gives (.atomFfcs d a b sc) (ffcsOf old y).1 (ffcsOf old y).2) ∧
     (∀ p, d ≠ .s 0 → ScalarReady s rk [a, b, d] (some d) [va, y, p] s1 →
       gives (.atomCas d a b sc) (if old = p then y else old) old ∧
       gives (.atomBfim d a b sc) ((old &&& ~~~p) ||| (y &&& p)) old ∧
       gives (.atomPlset d a b sc) (plsetOf old y p) old)) ∧
  (∀ (s s1 : State) (rk : Nat) (d a b : SReg) (va y : W64),
     s1.orderWait rk = false → (s1.role rk).part = [] → s1.legalScratch (teamOf rk) va.toNat 8 = true →
     va.toNat % 8 = 0 →
     s1.scratchFault (teamOf rk) va.toNat 8 false = none → s1.vaultBad (teamOf rk) va.toNat 8 false = false →
     let old : W64 := BitVec.ofNat 64 (leNat (s1.scratchLoad (teamOf rk) va.toNat 8))
     let gives (i : Instr) (new res : W64) : Prop := s1.takes rk d res = true → exec i s =
       .next ((s1.scratchStore (teamOf rk) va.toNat (leBytes 8 new.toNat)).finish rk d res)
     (ScalarReady s rk [a, b] (some d) [va, y] s1 →
       gives (.atomAdd d a b 7) (old + y) old ∧ gives (.atomAnd d a b 7) (old &&& y) old ∧
       gives (.atomOr d a b 7) (old ||| y) old ∧ gives (.atomXor d a b 7) (old ^^^ y) old ∧
       gives (.atomMin d a b 7) (if y.slt old then y else old) old ∧
       gives (.atomMax d a b 7) (if old.slt y then y else old) old ∧
       gives (.atomMinn d a b 7) (if y.ult old then y else old) old ∧
       gives (.atomMaxn d a b 7) (if old.ult y then y else old) old ∧
       gives (.atomSwap d a b 7) y old ∧ gives (.atomFfcs d a b 7) (ffcsOf old y).1 (ffcsOf old y).2) ∧
     (∀ p, d ≠ .s 0 → ScalarReady s rk [a, b, d] (some d) [va, y, p] s1 →
       gives (.atomCas d a b 7) (if old = p then y else old) old ∧
       gives (.atomBfim d a b 7) ((old &&& ~~~p) ||| (y &&& p)) old ∧
       gives (.atomPlset d a b 7) (plsetOf old y p) old)) ∧
  (∀ (s s1 : State) (rk : Nat) (d a b : SReg) (sc : Fin 8) (va y p : W64),
     (s.cur = .scalar rk →
       exec (.atomCas (.s 0) a b sc) s = .next (s.raiseS rk .illegal 0) ∧
       exec (.atomBfim (.s 0) a b sc) s = .next (s.raiseS rk .illegal 0) ∧
       exec (.atomPlset (.s 0) a b sc) s = .next (s.raiseS rk .illegal 0)) ∧
     (∀ f ∈ atomForms d a b sc, s.cur = .scalar rk → sc.val ≠ 7 → s.inTx (teamOf rk) = true → d ≠ .s 0 →
       exec f.1 s = .next (s.raiseS rk (if s.opIllegal rk f.2.1 (some d) = true then .illegal
         else .txillegal) 0)) ∧
     (∀ f ∈ reductionForms a b sc, ∀ ia, sc.val ≠ 7 → ScalarReady s rk [a, b] (some (.s 0)) [va, y] s1 →
       s.inTx (teamOf rk) = true → s1.inTx (teamOf rk) = true →
       s1.orderWait rk = false → s1.toIa (s1.vfOf rk) va.toNat 8 = .ia ia → va.toNat % 8 = 0 →
       s1.wsLack (teamOf rk) 1 = none →
       exec f.1 s = .next (if s1.logRoom (teamOf rk) 1 = true then
         (s1.logAdd (teamOf rk) [⟨va.toNat, .atomic f.2, 8, roleIdx rk, 0, y.toNat⟩]).advance rk 4
         else s1.raiseS rk .txcap va.toNat)) ∧
     (∀ f ∈ atomForms d a b sc, (f.2.2 = true → d ≠ .s 0) →
       ScalarReady s rk f.2.1 (some d) (if f.2.2 then [va, y, p] else [va, y]) s1 →
       (sc.val ≠ 7 → s.inTx (teamOf rk) = false → s1.inTx (teamOf rk) = false →
         (s1.orderWait rk = true → exec f.1 s = .next (s1.parkS rk .order)) ∧
         (s1.orderWait rk = false →
           (s1.toIa (s1.vfOf rk) va.toNat 8 = .address → exec f.1 s = .next (s1.raiseS rk .address va.toNat)) ∧
           (s1.toIa (s1.vfOf rk) va.toNat 8 = .remote → exec f.1 s = .next (s1.raiseS rk .remote va.toNat)) ∧
           (∀ ia, s1.toIa (s1.vfOf rk) va.toNat 8 = .ia ia → va.toNat % 8 ≠ 0 →
             exec f.1 s = .next (s1.raiseS rk .misalign va.toNat)) ∧
           (∀ ia, s1.toIa (s1.vfOf rk) va.toNat 8 = .ia ia → va.toNat % 8 = 0 →
             (∀ sub pa, s1.xlat (s1.vfOf rk) va.toNat 8 true = .page sub pa → exec f.1 s =
               .next ((s1.raise rk false .page sub va.toNat pa 0).parkS rk (.page (some (s1.nextRec % 2 ^ 32))))) ∧
             (∀ pa, s1.xlat (s1.vfOf rk) va.toNat 8 true = .mcheck pa →
               exec f.1 s = .next (s1.machineCheck rk false (s1.lostSub pa) va.toNat pa 0)) ∧
             (∀ x, s1.xlat (s1.vfOf rk) va.toNat 8 true = .ok x → s1.bulkHeld x = true →
               exec f.1 s = .next (s1.parkS rk .order))))) ∧
       (sc.val = 7 → s1.orderWait rk = false → (s1.role rk).part = [] →
         (s1.legalScratch (teamOf rk) va.toNat 8 = false → exec f.1 s = .next (s1.raiseS rk .address va.toNat)) ∧
         (s1.legalScratch (teamOf rk) va.toNat 8 = true →
           (va.toNat % 8 ≠ 0 → exec f.1 s = .next (s1.raiseS rk .misalign va.toNat)) ∧
           (∀ v, va.toNat % 8 = 0 → s1.scratchFault (teamOf rk) va.toNat 8 false = some v →
             exec f.1 s = .next (s1.parkPage rk v))))))

/-! ## Memory -/

/-- R313, R322, R326: after an ordinary store by a cluster that alone holds lines of its grains, the bytes stored are
what the same access loads.
R313, R322, R326: such a store leaves home memory, and every byte that lies in no line it stores to; of the lines
it stores to it leaves every byte outside the store, as the line's translation reads it. -/
def Obligations.StoreEffect : Prop :=
  (∀ (s : State) (h : Holder) (x : Xlat) (bs : List Byte), bs.length = x.pas.length →
     x.ia + x.pas.length ≤ 2 ^ 52 → s.Uncontended h.cluster x → (s.storeX h x bs).loadX x = bs) ∧
  (∀ (s : State) (h : Holder) (x : Xlat) (bs : List Byte), bs.length = x.pas.length →
     x.ia + x.pas.length ≤ 2 ^ 52 → s.Uncontended h.cluster x →
     let t := s.storeX h x bs
     t.hbm = s.hbm ∧
     (∀ part ia pa, ia < 2 ^ 52 → lineKey part ia ∉ linesOf x.part x.ia x.pas.length →
       t.loadByte part ia pa = s.loadByte part ia pa) ∧
     (∀ ia pa l, ia < 2 ^ 52 → cell x.part ia ∉ cells x → s.translateIa x.part (ia / 64 * 64) 64 false = .ok l →
       l.pas.length = 64 → l.pas[ia % 64]? = some pa → t.loadByte x.part ia pa = s.loadByte x.part ia pa))

/-- R322, R326: a write performed at the home, of a range whose physical bytes differ, gives the home those bytes,
leaves no dirty copy in the range's grains, and leaves every other home byte that no recalled line writes.
R133, R135, R213: a scratch store writes its bytes, in the team's own scratch, and no others; in a page that is held in L2 it
stores to the page's backing lines (R205).
R313, R322, R326: every operation on global memory keeps the canonical form of home memory. -/
def Obligations.HomeAndScratchWrites : Prop :=
  (∀ (s : State) (x : Xlat) (bs : List Byte), bs.length = x.pas.length → x.pas.Nodup →
     (s.homeWriteX x bs).homeX x = bs ∧
     (∀ l ∈ linesOf x.part x.ia x.pas.length, (s.homeWriteX x bs).dirty.get? l = none) ∧
     ((∀ l ∈ linesOf x.part x.ia x.pas.length, s.dirtyOf (grainKey l) = []) →
       ∀ pa, pa ∉ x.pas → (s.homeWriteX x bs).homeByte pa = s.homeByte pa)) ∧
  (∀ (s : State) (tk ea : Nat) (bs : List Byte),
     let t := s.scratchStore tk ea bs
     (∀ a, a < ea ∨ ea + bs.length ≤ a → (t.team tk).scratch.get 0 a = (s.team tk).scratch.get 0 a) ∧
     (∀ k, k ≠ tk → t.team k = s.team k) ∧
     (∀ v ∈ pagesOf ea bs.length, ((t.team tk).page v).dirty = true ∧ ((t.team tk).page v).acc = true) ∧
     ((∀ v ∈ pagesOf ea bs.length, (s.team tk).viaL2 v = false) →
       t.scratchLoad tk ea bs.length = bs ∧ t.butTeams = s.butTeams ∧ t.roles = s.roles) ∧
     (∀ v x, pagesOf ea bs.length = [v] → (s.team tk).viaL2 v = true →
       s.xlat (s.launch (lidOf tk)).vf (s.backByteAt tk ea) bs.length true = .ok x →
       ∃ u : State, t = u.storeX (s.teamHolder tk) x bs ∧ u.butTeams = s.butTeams ∧ u.roles = s.roles)) ∧
  (∀ (s : State) (h : Holder) (line : Nat) (x : Xlat) (bs : List Byte), s.MemOk →
     (s.storeX h x bs).MemOk ∧ (s.homeWriteX x bs).MemOk ∧ (s.depotWriteX x bs).MemOk ∧
     (s.writeBack line).MemOk ∧ (s.invLine line).MemOk ∧ (s.recallGrain line).MemOk)

/-! ## Control and system words -/

/-- R187, R191, R192, R200, R169: NOP, YIELD, FENCE, VDRAIN and EXIT. A FENCE or VDRAIN that has nothing to wait for goes
on, a FENCE of a scope beyond the cluster having made the role's atomics visible at home (R316); otherwise it parks its
stream. EXIT parks until the role's drain, and is TXILLEGAL in an open transaction.
R188: QFENCE puts one fence entry behind the entries of each queue its mask names, and no entry into the others; a
mask of zero, or one that names a queue whose feature is not accepted (R392), is ILLEGAL, and a named queue that has no
room parks it. That in an open transaction too the fence entries go into the queues at once, past the write log, is the
model's reading (log 34). -/
def Obligations.PlainControlWords : Prop :=
  (∀ (s : State) (rk : Nat) (sc : Fin 7), s.cur = .scalar rk →
     exec .nop s = .next (s.advance rk 4) ∧
     (∃ t, exec .yield s = .next t ∧ (t.role rk).pc = (s.role rk).pc + 4 ∧ t.butRoles = s.butRoles ∧
       (t.role rk).yields false = true ∧ (t.role rk).yields true = true ∧ (t.role rk).sregs = (s.role rk).sregs) ∧
     ((s.role rk).flight = [] → (s.role rk).updatesPending = false →
       s.laneAhead rk (fun i => touchesMem i || updatesWaybill i) = false →
       exec (.fence sc) s = .next ((s.reach rk sc.val).advance rk 4) ∧ (sc.val < 4 → s.reach rk sc.val = s)) ∧
     ((s.role rk).flight ≠ [] ∨ (s.role rk).updatesPending = true ∨
       s.laneAhead rk (fun i => touchesMem i || updatesWaybill i) = true →
       exec (.fence sc) s = .next (s.parkS rk .fence)) ∧
     exec .vdrain s = .next (if (s.role rk).drained = true then s.advance rk 4 else s.parkS rk .drain) ∧
     exec .exit s = .next (if s.inTx (teamOf rk) = true then s.raiseS rk .txillegal 0 else s.parkS rk .exit)) ∧
  (∀ (s : State) (rk : Nat) (m : BitVec 6) (sc : Fin 7), s.cur = .scalar rk →
     (m = 0 ∨ (∃ q ∈ maskQueues m, s.queueIllegal rk q true = true) →
       exec (.qfence m sc) s = .next (s.raiseS rk .illegal 0)) ∧
     (m ≠ 0 → (∀ q ∈ maskQueues m, s.queueIllegal rk q true = false) →
       let puts : Prop := ∃ t, exec (.qfence m sc) s = .next t ∧ (t.role rk).pc = (s.role rk).pc + 4 ∧
         (t.role rk).sregs = (s.role rk).sregs ∧ (t.team (teamOf rk)).log = (s.team (teamOf rk)).log ∧
         ((∀ q ∈ maskQueues m, s.queueLoad rk q < 16) → t.hbm = s.hbm ∧ t.dirty = s.dirty) ∧
         ∀ q, q < 6 → ((t.role rk).eng q).todo =
           ((s.role rk).eng q).todo ++ (if m.getLsbD q = true then [.fence s.nextFence m.toNat sc.val] else [])
       (s.inTx (teamOf rk) = false → (∀ q ∈ maskQueues m, s.pushBlock rk q = .room) → puts) ∧
       (s.inTx (teamOf rk) = true → (∀ q ∈ maskQueues m, s.pushBlock rk q = .room) → puts) ∧
       (∀ q, (maskQueues m).find? (fun q => s.pushBlock rk q != .room) = some q →
         (s.pushBlock rk q = .full → exec (.qfence m sc) s = .next (s.parkS rk (.pushQ q))) ∧
         (∀ sub va ia, s.pushBlock rk q = .page sub va ia → exec (.qfence m sc) s =
           .next ((s.raise rk false .page sub va ia 0).parkS rk (.page (some (s.nextRec % 2 ^ 32))))))))

/-- R189: one arrival at a barrier object: PHASE, EXPECT and COUNT of the word, the record of the PHASE, the test of the
object's own conditions; BARWT goes on once the PHASE differs from the record, and has to have one.
R189: four arrival records, one for each address, the oldest replaced.
R190: WAITA completes at once when a write to the line has been ordered since the role's last load of it, and with
the lowest REASON that holds once it waits; otherwise the scalar stream parks. -/
def Obligations.BarriersAndWaits : Prop :=
  (∀ (s s1 : State) (rk : Nat) (a : SReg) (va : W64), ScalarReady s rk [a] none [va] s1 →
     s1.orderWait rk = false → s1.legalScratch (teamOf rk) va.toNat 8 = true → va.toNat % 8 = 0 →
     s1.scratchFault (teamOf rk) va.toNat 8 false = none → s1.vaultBad (teamOf rk) va.toNat 8 false = false →
     let w : W64 := BitVec.ofNat 64 (leNat (s1.scratchLoad (teamOf rk) va.toNat 8))
     let count := w.extractLsb' 0 16
     let expect := w.extractLsb' 16 16
     let phase := w.extractLsb' 32 1
     let put (v : W64) : State := s1.scratchStore (teamOf rk) va.toNat (leBytes 8 v.toNat)
     (expect ≠ 0 → count < expect → w.extractLsb' 33 31 = 0 →
       exec (.barav a) s = .next (((put (if count + 1 = expect
           then (0 : BitVec 31) ++ ~~~phase ++ expect ++ (0 : BitVec 16)
           else (0 : BitVec 31) ++ phase ++ expect ++ (count + 1))).updRole rk fun r =>
         r.recordArrival va.toNat (phase = 1)).advance rk 4)) ∧
     ((expect = 0 ∨ expect ≤ count ∨ w.extractLsb' 33 31 ≠ 0) →
       exec (.barav a) s = .next (s1.raiseS rk .barrier va.toNat)) ∧
     ((s1.role rk).arrival va.toNat = none → exec (.barwt a) s = .next (s1.raiseS rk .barrier va.toNat)) ∧
     (∀ p, (s1.role rk).arrival va.toNat = some p →
       exec (.barwt a) s = .next (if decide (phase = 1) = p then s1.parkS rk (.barwt va.toNat)
         else (s1.noteScratch (teamOf rk) va.toNat 8).advance rk 4))) ∧
  (∀ (r : Role) (ea : Nat) (p : Bool), let t := r.recordArrival ea p
     t.arrival ea = some p ∧ t.arrivals.length ≤ 4 ∧
     (r.arrivals.length ≤ 3 → ∀ e, e ≠ ea → t.arrival e = r.arrival e) ∧
     (∀ e, e ≠ ea → t.arrival e = r.arrival e ∨ t.arrival e = none)) ∧
  (∀ (s s1 : State) (rk : Nat) (d a b : SReg) (va y : W64) (ia : Nat),
     ScalarReady s rk [a, b] (some d) [va, y] s1 →
     ((s1.role rk).waita = none → s1.orderWait rk = false → s1.toIa (s1.vfOf rk) va.toNat 1 = .ia ia →
       let line := lineKey (s1.vf (s1.vfOf rk)).part ia
       ((s1.role rk).armed.get? line = some true → s1.takes rk d 1 = true →
         exec (.waita d a b) s = .next ((s1.updRole rk fun r => { r with waita := none }).finish rk d 1)) ∧
       ((s1.role rk).armed.get? line ≠ some true →
         let w : Waita := ⟨line, false, false, if y = 0 then none else some y.toNat, false⟩
         exec (.waita d a b) s = .next (s1.updRole rk fun r => { r with waita := some w, spark := .waita }))) ∧
     (∀ w, (s1.role rk).waita = some w →
       (w.written = true ∨ w.expired = true ∨ w.resumed = true →
         let v : W64 := if w.written then 1 else if w.expired then 2 else 3
         s1.takes rk d v = true →
         exec (.waita d a b) s = .next ((s1.updRole rk fun r => { r with waita := none }).finish rk d v)) ∧
       (w.written = false → w.expired = false → w.resumed = false →
         exec (.waita d a b) s = .next (s1.updRole rk fun r => { r with waita := some w, spark := .waita }))))

/-- R126, R153, R162, R192, R193: VIEW, GANG, MSET and VRUN. A view word that is not valid, a gang value that is not
legal, and a mask word that the role has not, are ILLEGAL; a ninth block parks, where a block whose last word has issued has
freed its entry (R153, R230). A block that no other is queued before
starts with a free operand latch (R55). -/
def Obligations.LaneControlWords : Prop :=
  ∀ (s s1 : State) (rk : Nat) (a : SReg) (i : Fin 8) (g : Fin 32) (v : W64) (n : BitVec 6) (x : BitVec 19),
    (ScalarReady s rk [a] none [v] s1 →
      exec (.view i a) s = .next (if viewValid v (s1.role rk).lanes.groups (s1.role rk).lanes.budget = true
        then (s1.updRole rk fun r => { r with views := r.views.set i.val v }).advance rk 4
        else s1.raiseS rk .illegal 0) ∧
      exec (.gang a) s = .next (if gangValid v (s1.team (teamOf rk)).nroles = true
        then (s1.updTeam (teamOf rk) fun t => { t with gang := v.toNat }).advance rk 4
        else s1.raiseS rk .illegal 0) ∧
      ((s.role rk).lanes.groups ≤ g.val → exec (.mset g a) s = .next (s.raiseS rk .illegal 0)) ∧
      (g.val < (s.role rk).lanes.groups → (s1.role rk).blocks ≠ [] →
        exec (.mset g a) s = .next ((s1.updRole rk fun r =>
          { r with msets := r.msets ++ [(g.val, v.setWidth 32)] }).advance rk 4)) ∧
      (g.val < (s.role rk).lanes.groups → (s1.role rk).blocks = [] →
        ∃ t, exec (.mset g a) s = .next t ∧ (t.role rk).pc = (s1.role rk).pc + 4 ∧
          (t.role rk).lanes.base.extractLsb' (32 * g.val) 32 = v.setWidth 32 ∧
          (∀ h, h < 32 → h ≠ g.val → (t.role rk).lanes.base.extractLsb' (32 * h) 32 =
            (s1.role rk).lanes.base.extractLsb' (32 * h) 32) ∧
          (t.role rk).lanes.regs = (s1.role rk).lanes.regs)) ∧
    (s.cur = .scalar rk →
      ((s.role rk).hold = none → 8 ≤ (s.role rk).blocks.length → exec (.vrun n x) s = .next (s.parkS rk .vrunFull)) ∧
      (8 < (s.role rk).blocks.length → exec (.vrun n x) s = .next (s.parkS rk .vrunFull)) ∧
      ((s.role rk).blocks.length < 8 ∨ ((s.role rk).blocks.length = 8 ∧ (s.role rk).hold.isSome = true ∧
          ∀ b ∈ (s.role rk).blocks.head?, b.len ≤ (s.role rk).lanePc + 1) →
        exec (.vrun n x) s = .next ((s.updRole rk fun r => { r with
        blocks := r.blocks ++ [⟨x.toNat, n.toNat + 1, (List.range 16).map r.sreg, r.views, (s.team (teamOf rk)).gang,
          r.msets, r.laneSeq⟩], msets := [], laneSeq := r.laneSeq + n.toNat + 1
        lanes := if r.blocks = [] then { r.lanes with latches := [none, none, none] } else r.lanes }).advance rk 4)))

/-- R257, R258, R260: TXCOMMIT outside an open transaction and TXABORT there are TXILLEGAL (a TXCOMMIT with an ILLEGAL
queue field is ILLEGAL, R183); a token that cannot be named
is ADDRESS, REMOTE or MISALIGN, in this order; else the role's arrival is recorded, and the last one starts the commit
probe; a role that has not drained parks first. TXABORT aborts the team with cause 3.
R254, R255: an abort takes the team's roles off the machine, throws its scratch and its log away, counts the
replay, records the cause, moves up the ladder after causes 1 and 2, and queues the team again. -/
def Obligations.TransactionWords : Prop :=
  (∀ (s s1 : State) (rk : Nat) (a b : SReg) (va y : W64),
     (s.cur = .scalar rk → s.inTx (teamOf rk) = false →
       exec (.txcommit a b) s = .next (s.raiseS rk (if s.opIllegal rk [a, b] none = true then .illegal
         else .txillegal) 0) ∧ exec .txabort s = .next (s.raiseS rk .txillegal 0)) ∧
     (s.cur = .scalar rk → s.inTx (teamOf rk) = true → exec .txabort s = .next (s.abortTeam (teamOf rk) 3)) ∧
     (s.inTx (teamOf rk) = true → ScalarReady s rk [a, b] none [va, y] s1 →
       (a ≠ .s 0 → s1.toIa (s1.vfOf rk) va.toNat 8 = .address →
         exec (.txcommit a b) s = .next (s1.raiseS rk .address va.toNat)) ∧
       (a ≠ .s 0 → s1.toIa (s1.vfOf rk) va.toNat 8 = .remote →
         exec (.txcommit a b) s = .next (s1.raiseS rk .remote va.toNat)) ∧
       (∀ ia, a ≠ .s 0 → s1.toIa (s1.vfOf rk) va.toNat 8 = .ia ia → va.toNat % 8 ≠ 0 →
         exec (.txcommit a b) s = .next (s1.raiseS rk .misalign va.toNat)) ∧
       (∀ ia, (a = .s 0 ∨ (s1.toIa (s1.vfOf rk) va.toNat 8 = .ia ia ∧ va.toNat % 8 = 0)) → (s1.role rk).drained = true →
         ∃ t, exec (.txcommit a b) s = .next t ∧
           (t.role rk).txArr = some (if a = .s 0 then none else some (va, y)) ∧ (t.role rk).spark = .commit ∧
           (t.role rk).pc = (s1.role rk).pc ∧ (∀ k, k ≠ rk → t.role k = s1.role k) ∧
           (t.team (teamOf rk)).phase =
             if t.allArrived (teamOf rk) = true then .probing else (s1.team (teamOf rk)).phase) ∧
       (∀ ia, (a = .s 0 ∨ (s1.toIa (s1.vfOf rk) va.toNat 8 = .ia ia ∧ va.toNat % 8 = 0)) → (s1.role rk).drained = false →
         exec (.txcommit a b) s = .next (s1.parkS rk .drain)))) ∧
  (∀ (s : State) (tk cause : Nat),
     let t := (s.abortTeam tk cause).team tk
     (∀ j, j < 8 → (s.abortTeam tk cause).hasRole (roleKey tk j) = false) ∧
     (∀ k, teamOf k ≠ tk → (s.abortTeam tk cause).role k = s.role k) ∧
     t.phase = .queued ∧ t.log = [] ∧ t.scratch = [] ∧ t.full = [] ∧ t.txOpen = false ∧
     t.replays = (s.team tk).replays + 1 ∧ t.lastCause = cause ∧
     t.rung = (if cause = 1 ∨ cause = 2 then (s.team tk).rung + 1 else (s.team tk).rung) ∧
     ((s.abortTeam tk cause).launch (lidOf tk)).requeue = (s.launch (lidOf tk)).requeue ++ [(s.team tk).t] ∧
     (s.abortTeam tk cause).hbm = s.hbm ∧ (s.abortTeam tk cause).dirty = s.dirty)

/-- R197: cache maintenance acts on the dirty lines of its range: CLNR and CLIV write them back, INVR discards them; an
illegal range is ADDRESS, an unaligned INVR is MISALIGN, INVR in a transaction is TXILLEGAL. -/
def Obligations.CacheMaintenance : Prop :=
  ∀ (s s1 : State) (rk : Nat) (a b : SReg) (va n : W64),
    (s.cur = .scalar rk → s.inTx (teamOf rk) = true → exec (.invr a b) s =
      .next (s.raiseS rk (if s.opIllegal rk [a, b] none = true then .illegal else .txillegal) 0)) ∧
    (ScalarReady s rk [a, b] none [va, n] s1 →
      let lines := s1.dirtyIn (s1.vfOf rk) va.toNat n.toNat
      (n ≠ 0 → 2 ^ 56 < va.toNat + n.toNat →
        exec (.clnr a b) s = .next (s1.raiseS rk .address va.toNat) ∧
        exec (.cliv a b) s = .next (s1.raiseS rk .address va.toNat) ∧
        (s.inTx (teamOf rk) = false → exec (.invr a b) s = .next (s1.raiseS rk .address va.toNat))) ∧
      (n ≠ 0 → va.toNat + n.toNat ≤ 2 ^ 56 → s.inTx (teamOf rk) = false →
        va.toNat % 512 ≠ 0 ∨ n.toNat % 512 ≠ 0 → exec (.invr a b) s = .next (s1.raiseS rk .misalign va.toNat)) ∧
      (n = 0 ∨ va.toNat + n.toNat ≤ 2 ^ 56 → s1.orderWait rk = false →
        exec (.clnr a b) s = .next ((lines.foldl State.writeBack s1).advance rk 4) ∧
        exec (.cliv a b) s = .next ((lines.foldl State.writeBack s1).advance rk 4) ∧
        (s.inTx (teamOf rk) = false → va.toNat % 512 = 0 → n.toNat % 512 = 0 →
          exec (.invr a b) s = .next ((lines.foldl State.invLine s1).advance rk 4))))

/-- R199: TRAP and TRET. A trap with a handler saves the address of the next instruction in TRAPPC, sets ACTIVE, CODE
and CAUSE of TRAPCAUSE, sets the block queue aside and goes to TRAPENTRY; without one, or inside one, the role stops
with a UTRAP record. TRET undoes it: the pops and the wait of the interrupted instruction come back to it (R173, R190), and
a marker at which the lane stream stood is passed (R156).
R200, R379: BRK stops the role, at the next instruction when debugging is enabled (log 30) and with BREAK otherwise;
RELAY goes on at once in a launch without stages, and arrives otherwise. -/
def Obligations.TrapsAndBreaks : Prop :=
  (∀ (s : State) (rk : Nat) (code : BitVec 13), s.cur = .scalar rk → (s.role rk).lxOut = 0 → (s.role rk).hold = none →
     let r := s.role rk
     ((s.launchOf rk).trapEntry ≠ 0xFFFFFFFF → r.trapActive = false →
       ∃ t, exec (.trap code) s = .next t ∧ (t.role rk).trapPc = r.pc + 4 ∧
         (t.role rk).trapCause = (1 : BitVec 33) ++ (0 : BitVec 2) ++ code ++ (0 : BitVec 16) ∧
         (t.role rk).pc = BitVec.ofNat 64 ((s.launchOf rk).khdr + 64 + 4 * (s.launchOf rk).trapEntry) ∧
         (t.role rk).blocks = [] ∧ (t.role rk).aside =
           some ⟨r.blocks, r.lanePc, r.msets, r.lpark == .marker, r.laneSeq, r.pc, r.popped, r.waita⟩ ∧
         (t.role rk).sregs = r.sregs ∧ (r.blocks ≠ [] → (t.role rk).trapLpc = BitVec.ofNat 64 r.laneIndex) ∧
         t.hbm = s.hbm ∧ t.dirty = s.dirty) ∧
     ((s.launchOf rk).trapEntry = 0xFFFFFFFF ∨ r.trapActive = true →
       exec (.trap code) s = .next ((s.raise rk false .utrap 0 0 0 0).updRole rk fun q => { q with pc := r.pc + 4 })) ∧
     (r.trapActive = false → exec .tret s = .next (s.raiseS rk .illegal 0)) ∧
     (∀ a, r.trapActive = true → r.drained = true → r.aside = some a →
       ∃ t, exec .tret s = .next t ∧ (t.role rk).pc = r.trapPc ∧ (t.role rk).blocks = a.blocks ∧
         (t.role rk).lanePc = a.lanePc ∧ (t.role rk).msets = a.msets ∧
         (t.role rk).popped = (if a.pc = r.trapPc then a.popped else none) ∧
         (t.role rk).waita = (if a.pc = r.trapPc then a.waita else none) ∧
         (t.role rk).lanes = (if a.marker = true then r.lanes.passMarker s.free else r.lanes) ∧
         (t.role rk).trapActive = false ∧ (t.role rk).sregs = r.sregs)) ∧
  (∀ (s : State) (rk : Nat), s.cur = .scalar rk →
     (s.accept.getLsbD 10 = false → exec .brk s = .next (s.raiseS rk .brk 0)) ∧
     (s.accept.getLsbD 10 = true →
       exec .brk s = .next ((s.raiseS rk .brkpt 0).updRole rk fun r => { r with pc := r.pc + 4 })) ∧
     (s.inTx (teamOf rk) = true → exec .relay s = .next (s.raiseS rk .txillegal 0)) ∧
     (s.inTx (teamOf rk) = false →
       ((s.launchOf rk).flag 3 = false → exec .relay s =
         .next ((s.updRole rk fun r => { r with stage := r.stage + 1 }).advance rk 4)) ∧
       ((s.launchOf rk).flag 3 = true → (s.role rk).drained = false → exec .relay s = .next (s.parkS rk .relay)) ∧
       ((s.launchOf rk).flag 3 = true → (s.role rk).drained = true → (s.launchOf rk).stage ≤ (s.role rk).stage →
         exec .relay s = .next (s.updRole rk fun r => { r with relayed := true, spark := .relay }))))

/-- R195, R373, R374: LAUNCH writes the distributor's handle into sd: of the new launch when the record is accepted, of no
launch and with the refusal code otherwise. That a record on a lost line is refused with code 1 is the model's reading
(log 50), and so is that the answer comes in the step of the LAUNCH (log 62).
R196, R298, R300: PERF sets a lease of the class asked for, in the VF's range, for at most a second, counts a class out of
range, and ends the lease for a time of zero.
R200, R346, R349: WBSYNC of a registered index merges the die's delta and goes on when no merge is held, without a
delta with nothing else changed in memory; while a merge of the pair is held it makes no other one (R416); an unregistered
index is OPFORMAT, and a record whose page does not translate parks the stream (R344). -/
def Obligations.LaunchPerfAndSync : Prop :=
  (∀ (s s1 : State) (rk : Nat) (d a b : SReg) (x y : W64),
     (s.cur = .scalar rk → s.inTx (teamOf rk) = true → exec (.launch d a) s =
       .next (s.raiseS rk (if s.opIllegal rk [a] (some d) = true then .illegal else .txillegal) 0)) ∧
     (s.inTx (teamOf rk) = false → ScalarReady s rk [a] (some d) [x] s1 →
       (x.toNat % 256 ≠ 0 ∨ 2 ^ 56 < x.toNat + 256 → exec (.launch d a) s = .next (s1.raiseS rk .address x.toNat)) ∧
       (x.toNat % 256 = 0 → x.toNat + 256 ≤ 2 ^ 56 → s1.orderWait rk = false →
         let vf := s1.vfOf rk
         (s1.takes rk d (s1.enqueue vf x.toNat none).1 = true → exec (.launch d a) s =
           .next ((s1.enqueue vf x.toNat none).2.finish rk d (s1.enqueue vf x.toNat none).1)) ∧
         (s1.distRead vf x.toNat 256 = none →
           exec (.launch d a) s = .next (s1.finish rk d (BitVec.ofNat 64 1))) ∧
         (∀ bs, s1.distRead vf x.toNat 256 = some bs →
           let l0 : Launch := { Launch.empty with record := byteMap bs, vf := vf, share := none }
           let l : Launch := { l0 with header := byteMap ((s1.distRead vf l0.khdr 64).getD []) }
           let code := s1.refusal vf l (s1.distRead vf l0.khdr 64).isSome
           (code ≠ 0 → exec (.launch d a) s = .next (s1.finish rk d (handle 0 code))) ∧
           (code = 0 → s1.takes rk d (handle s1.nextLid 0) = true → exec (.launch d a) s = .next ({ s1 with
             launches := s1.launches.put s1.nextLid l, nextLid := s1.nextLid + 1 }.finish rk d (handle s1.nextLid 0)))))) ∧
     (ScalarReady s rk [a, b] none [x, y] s1 →
       let w := (s1.vf (s1.vfOf rk)).vfPerf
       let cmax := w.extractLsb' 2 2
       let cmin := if cmax < w.extractLsb' 0 2 then cmax else w.extractLsb' 0 2
       let cls := Nat.max cmin.toNat (Nat.min cmax.toNat x.toNat)
       ∃ t, exec (.perf a b) s = .next t ∧ (t.role rk).pc = (s1.role rk).pc + 4 ∧ (t.role rk).sregs = (s1.role rk).sregs ∧
         t.hbm = s1.hbm ∧ t.dirty = s1.dirty ∧
         (t.team (teamOf rk)).lease = (if y = 0 then none else some (cls, Nat.min y.toNat 1000000 * 1000)) ∧
         (t.vf (s1.vfOf rk)).vfPerf = (if cls ≠ x.toNat then bumpOutrng w else w))) ∧
  (∀ (s s1 : State) (rk : Nat) (a : SReg) (v : W64), ScalarReady s rk [a] none [v] s1 → s1.updatesAhead rk = false →
     let vf := s1.vfOf rk
     let die := dieOf (s1.coreOf rk)
     let t := s1.mergeAs (some (teamOf rk)) die fun d => d.isFor vf v.toNat
     (s1.wbRecord vf v.toNat = .unregistered → exec (.wbsync a) s = .next (s1.raiseS rk .opformat 0)) ∧
     (∀ sub va ia, s1.wbRecord vf v.toNat = .page sub va ia → exec (.wbsync a) s = .next (s1.wbPage rk false sub va ia)) ∧
     (∀ x bs, s1.wbRecord vf v.toNat = .record x bs →
       (((s1.die die).held.any fun e => e.2.isFor vf v.toNat) = true →
         exec (.wbsync a) s = .next (s1.parkS rk .wbsync)) ∧
       (((s1.die die).held.any fun e => e.2.isFor vf v.toNat) = false → exec (.wbsync a) s =
         .next (if ((t.die die).held.any fun e => e.2.isFor vf v.toNat) = true then t.parkS rk .wbsync else t.advance rk 4)) ∧
       ((∀ d ∈ (s1.die die).deltas, d.isFor vf v.toNat = false) → (∀ e ∈ (s1.die die).held, e.2.isFor vf v.toNat = false) →
         ∃ u, exec (.wbsync a) s = .next u ∧ (u.role rk).pc = (s1.role rk).pc + 4 ∧ u.hbm = s1.hbm ∧ u.dirty = s1.dirty)))

/-- R198, R361, R379: what SYSRD reads, register by register, and which numbers are ILLEGAL.
R19, R198: SYSWR seeds the generator (a seed of zero counts as one) and writes TRAPPC; every other assigned register
ignores it; an unassigned number is ILLEGAL. -/
def Obligations.SystemRegisters : Prop :=
  (∀ (s : State) (rk : Nat) (d : SReg), ScalarReady s rk [] (some d) [] s →
     let tk := teamOf rk
     let l := s.launchOf rk
     let r := s.role rk
     let reads (num : BitVec 13) (v : W64) : Prop := exec (.sysrd d num) s = .next (s.finish rk d v)
     reads 0x000 (s.core (s.team tk).core).clkCnt ∧ reads 0x001 s.refTick ∧
     reads 0x010 (BitVec.ofNat 64 (s.team tk).coord.1) ∧ reads 0x011 (BitVec.ofNat 64 (s.team tk).coord.2.1) ∧
     reads 0x012 (BitVec.ofNat 64 (s.team tk).coord.2.2) ∧ reads 0x013 (BitVec.ofNat 64 l.gridX) ∧
     reads 0x014 (BitVec.ofNat 64 l.gridY) ∧ reads 0x015 (BitVec.ofNat 64 l.gridZ) ∧
     (l.nroles < 16 → reads 0x016 ((0 : BitVec 52) ++ BitVec.ofNat 4 l.nroles ++
       BitVec.ofNat 5 (l.groups (roleIdx rk) - 1) ++ BitVec.ofNat 3 (roleIdx rk))) ∧
     reads 0x018 (BitVec.ofNat 64 (lidOf tk)) ∧ reads 0x019 ((0 : W32) ++ BitVec.ofNat 32 r.stage) ∧
     (∀ n : Fin 8, reads (0x020 + BitVec.ofNat 13 n.val) (l.fslot n.val)) ∧
     (s.drawWait rk = false → reads 0x030 ((0 : W32) ++ r.lanes.rng)) ∧
     (s.drawWait rk = true → exec (.sysrd d 0x030) s = .next (s.parkS rk .order)) ∧
     reads 0x040 r.trapPc ∧ reads 0x041 r.trapCause ∧ reads 0x042 r.trapLpc ∧ reads 0x050 (s.txstat tk) ∧
     reads 0x051 (s.moncfg tk) ∧ reads 0x060 (s.therm (s.team tk).core) ∧ reads 0x061 (s.hbmst (s.team tk).core 0) ∧
     reads 0x062 (s.hbmst (s.team tk).core 1) ∧ reads 0x063 (s.hbmst (s.team tk).core 2) ∧
     reads 0x070 (BitVec.ofNat 64 ((s.core (s.team tk).core).mchk * 2 ^ 32 + (s.core (s.team tk).core).repaired)) ∧
     (∀ num : BitVec 13, num.toNat ∉ [0x000, 0x001, 0x010, 0x011, 0x012, 0x013, 0x014, 0x015, 0x016, 0x018, 0x019,
         0x020, 0x021, 0x022, 0x023, 0x024, 0x025, 0x026, 0x027, 0x030, 0x040, 0x041, 0x042, 0x050, 0x051, 0x060,
         0x061, 0x062, 0x063, 0x070] → exec (.sysrd d num) s = .next (s.raiseS rk .illegal 0))) ∧
  (∀ (s s1 : State) (rk : Nat) (a : SReg) (v : W64) (num : BitVec 13), ScalarReady s rk [a] none [v] s1 →
     let writes (n : BitVec 13) (f : Role → Role) : Prop := exec (.syswr a n) s = .next ((s1.updRole rk f).advance rk 4)
     (s1.drawWait rk = false → writes 0x030 fun r =>
       { r with lanes := { r.lanes with rng := if v.setWidth 32 = 0 then 1 else v.setWidth 32 } }) ∧
     (writes 0x040 fun r => { r with trapPc := v }) ∧
     (s.sysreg rk num.toNat = none → exec (.syswr a num) s = .next (s.raiseS rk .illegal 0)) ∧
     (s.sysreg rk num.toNat ≠ none → num ≠ 0x030 → num ≠ 0x040 → writes num fun r => r))

/-! ## The lane stream -/

/-- R99 to R101, R78, R98: the integer arithmetic words, register and immediate forms, computed exactly and fitted to
the operand type. -/
def Obligations.LaneArithmetic : Prop :=
  ∀ (s : State) (c : LaneCtl) (t : ITy) (sat w64 : Bool) (d a b x : Opnd) (i : W32),
    let w := ityW t
    let ab : Sources := ⟨.op a w, .op b w, .none⟩
    let ai : Sources := ⟨.op a w, .imm i w, .none⟩
    let z := intOf t
    let st : ITy := if w64 then .i64 else .i32
    let gives (j : Instr) (srcs : Sources) (f : Nat → Nat → Nat → Nat) : Prop := LaneWrites s c j srcs d w.bytes f
    gives (.vadd c t sat d a b) ab (fun p q _ => intWord t sat (z p + z q)) ∧
    gives (.vsub c t sat d a b) ab (fun p q _ => intWord t sat (z p - z q)) ∧
    gives (.vmul c t d a b) ab (fun p q _ => intWord t false (z p * z q)) ∧
    gives (.vmulh c t d a b) ab (fun p q _ => intWord t false ((z p * z q) / 2 ^ t.width)) ∧
    gives (.vmad c t d a b x) ⟨.op a w, .op b w, .op x w⟩ (fun p q r => intWord t false (z p * z q + z r)) ∧
    gives (.vmin c t d a b) ab (fun p q _ => if z p < z q then p else q) ∧
    gives (.vmax c t d a b) ab (fun p q _ => if z p < z q then q else p) ∧
    gives (.vaddImm c t sat d a i) ai (fun p q _ => intWord t sat (z p + z q)) ∧
    gives (.vsubImm c t sat d a i) ai (fun p q _ => intWord t sat (z p - z q)) ∧
    gives (.vmulImm c t d a i) ai (fun p q _ => intWord t false (z p * z q)) ∧
    gives (.vminImm c t d a i) ai (fun p q _ => if z p < z q then p else q) ∧
    gives (.vmaxImm c t d a i) ai (fun p q _ => if z p < z q then q else p) ∧
    LaneWrites s c (.vabs c w64 sat d a) ⟨.op a (ityW st), .none, .none⟩ d (ityW st).bytes
      (fun p _ _ => intWord st sat (if intOf st p < 0 then -intOf st p else intOf st p))

/-- R99, R100, R103, R104, R146: the bitwise words, shifts, counts, bit fields, carry-less products and moves, at 32 and at
64 bits. -/
def Obligations.LaneBitwise : Prop :=
  ∀ (s : State) (c : LaneCtl) (t : ITy) (w64 hi : Bool) (d a b x : Opnd) (i : W32) (f : BfSel) (e : Fin 3),
    let w := bitsW w64
    let n := 8 * w.bytes
    let ab : Sources := ⟨.op a w, .op b w, .none⟩
    let ai : Sources := ⟨.op a w, .imm i w, .none⟩
    let a0 : Sources := ⟨.op a w, .none, .none⟩
    let v (p : Nat) : BitVec n := BitVec.ofNat n p
    let gives (j : Instr) (srcs : Sources) (g : Nat → Nat → BitVec n) : Prop :=
      LaneWrites s c j srcs d w.bytes fun p q _ => (g p q).toNat
    let fb (w : OpW) : Source := match f with | .const _ _ => .none | .var b => .op b w
    let ext : OpW := match e.val with | 0 => .w32 | 1 => .s64 | _ => .n64
    gives (.vand c w64 d a b) ab (fun p q => v p &&& v q) ∧ gives (.vor c w64 d a b) ab (fun p q => v p ||| v q) ∧
    gives (.vxor c w64 d a b) ab (fun p q => v p ^^^ v q) ∧ gives (.vandn c w64 d a b) ab (fun p q => v p &&& ~~~v q) ∧
    gives (.vandImm c w64 d a i) ai (fun p q => v p &&& v q) ∧ gives (.vorImm c w64 d a i) ai (fun p q => v p ||| v q) ∧
    gives (.vxorImm c w64 d a i) ai (fun p q => v p ^^^ v q) ∧
    gives (.vandnImm c w64 d a i) ai (fun p q => v p &&& ~~~v q) ∧
    gives (.vshl c w64 d a b) ab (fun p q => v p <<< (q % n)) ∧ gives (.vshr c w64 d a b) ab (fun p q => v p >>> (q % n)) ∧
    gives (.vsra c w64 d a b) ab (fun p q => (v p).sshiftRight (q % n)) ∧
    gives (.vrot c w64 d a b) ab (fun p q => (v p).rotateLeft (q % n)) ∧
    gives (.vpopc c w64 d a) a0 (fun p _ => (v p).cpop) ∧ gives (.vclz c w64 d a) a0 (fun p _ => (v p).clz) ∧
    gives (.vbrev c w64 d a) a0 (fun p _ => (v p).reverse) ∧
    gives (.vclmul c w64 hi d a b) ab (fun p q => (clWide n p q).extractLsb' (if hi then n else 0) n) ∧
    LaneWrites s c (.vbfext c t f d a) ⟨.op a (ityW t), fb (ityW t), .none⟩ d (ityW t).bytes (fun p q _ =>
      let m := cutField t.width f q
      let field := (BitVec.ofNat t.width p).extractLsb' m.1 m.2
      (if itySigned t then field.signExtend t.width else field.zeroExtend t.width).toNat) ∧
    LaneWrites s c (.vbfins c w64 f d a x) ⟨.op a w, fb w, .op x w⟩ d w.bytes (fun p q r =>
      let m := cutField n f q
      let ones : BitVec n := (BitVec.allOnes m.2).zeroExtend n <<< m.1
      ((v r &&& ~~~ones) ||| ((v p <<< m.1) &&& ones)).toNat) ∧
    gives (.vmov c w64 d a) a0 (fun p _ => v p) ∧
    LaneWrites s c (.vmovi c e d i) ⟨.none, .none, .none⟩ d ext.bytes (fun _ _ _ => extImm ext i) ∧
    (∀ cx l, s.laneNow = some (cx, l) → exec (.vnop c.sw) s = .next (s.laneDone c.sw l))

/-- R102, R109, R129: the words that write predicate bits. -/
def Obligations.LanePredicates : Prop :=
  ∀ (s : State) (c : LaneCtl) (t : ITy) (q : ICond) (p : FCond) (kd ka kb : BitVec 4) (a b : Opnd) (i : W32),
    let none3 : Sources := ⟨.none, .none, .none⟩
    let w := ityW t
    let tests (j : Instr) (srcs : Sources) (f : Lanes → Nat → Nat → Nat → Bool) : Prop := LaneTests s c j srcs kd f
    let holds (x y : Int) : Bool := match q with
      | .eq => decide (x = y) | .ne => decide (x ≠ y) | .lt => decide (x < y) | .le => decide (x ≤ y)
      | .gt => decide (y < x) | .ge => decide (y ≤ x)
    let fholds (x y : Nat) : Bool := fcondHolds p (decodeF .f32 x) (decodeF .f32 y)
    tests (.vcmp c t q kd a b) ⟨.op a w, .op b w, .none⟩ (fun _ _ x y => holds (intOf t x) (intOf t y)) ∧
    tests (.vcmpImm c t q kd a i) ⟨.op a w, .imm i w, .none⟩ (fun _ _ x y => holds (intOf t x) (intOf t y)) ∧
    tests (.vfcmp c p kd a b) ⟨.op a .w32, .op b .w32, .none⟩ (fun _ _ x y => fholds x y) ∧
    tests (.vfcmpImm c p kd a i) ⟨.op a .w32, .imm i .w32, .none⟩ (fun _ _ x y => fholds x y) ∧
    tests (.vkand c kd ka kb) none3 (fun l j _ _ => (l.pred ka.toNat &&& l.pred kb.toNat).getLsbD j) ∧
    tests (.vkor c kd ka kb) none3 (fun l j _ _ => (l.pred ka.toNat ||| l.pred kb.toNat).getLsbD j) ∧
    tests (.vkxor c kd ka kb) none3 (fun l j _ _ => (l.pred ka.toNat ^^^ l.pred kb.toNat).getLsbD j) ∧
    tests (.vknot c kd ka) none3 (fun l j _ _ => !(l.pred ka.toNat).getLsbD j) ∧
    tests (.vkmov c false kd a) ⟨.op a .w32, .none, .none⟩ (fun _ _ x _ => decide (x ≠ 0)) ∧
    (∀ cx l, LaneReady s c none3 [(a, 4)] cx l → exec (.vkmov c true ka a) s =
      .next (s.laneFinish c cx l none3 ⟨l.mapTo cx (l.actives c) a 4 fun j =>
        if (l.pred ka.toNat).getLsbD j then 1 else 0, 0⟩)) ∧
    (∀ (w64 : Bool) (d : Opnd) (cx : LaneCx) (l : Lanes),
      let v := bitsW w64
      let srcs : Sources := ⟨.op a v, .op b v, .none⟩
      LaneReady s c srcs [(d, v.bytes)] cx l → exec (.vsel c w64 ka d a b) s =
        .next (s.laneFinish c cx l srcs ⟨l.mapTo cx (l.actives c) d v.bytes fun j =>
          if (l.pred ka.toNat).getLsbD j then srcs.a.val cx l j else srcs.b.val cx l j, 0⟩))

/-- R105 to R110, R78: the floating-point words. Rounding forms compute the exact value of each element and round it
once; the transcendental forms (class L) leave an outstanding result. The exact values of VFRSQ, VFSQRT, VFEXP2, VFLOG2 and
VFTANH are those of the model's fixed point with 240 fraction bits, its reading of R107 (log 15); the rest is the rules'. -/
def Obligations.LaneFloatingPoint : Prop :=
  ∀ (s : State) (rk : Nat) (c : LaneCtl) (m : FMode) (t : FTy) (na nc : Bool) (d a b x : Opnd) (i : W32) (cx : LaneCx)
    (l : Lanes), s.cur = .lane rk → m.rnd ≠ .stoch →
    let a0 : Sources := ⟨.op a .w32, .none, .none⟩
    let ab : Sources := ⟨.op a .w32, .op b .w32, .none⟩
    let ai : Sources := ⟨.op a .w32, .imm i .w32, .none⟩
    let down := decide (m.rnd = .rdn)
    let writes (j : Instr) (srcs : Sources) (f : XVal → XVal → XVal → XVal) : Prop :=
      LaneWrites s c j srcs d 4 (elementwise m.ft f m.rnd m.sat)
    let late (j : Instr) (f : XVal → XVal) : Prop := LaneReady s c a0 [(d, 4)] cx l →
      exec j s = .next (s.laneFinish c cx l a0 ⟨s.classL l cx d 4 ((l.actives c).map fun k =>
        (k, elementwise m.ft (fun u _ _ => f u) m.rnd m.sat (a0.a.val cx l k) 0 0)), 0⟩)
    writes (.vfadd c m d a b) ab (fun u v _ => xadd down u v) ∧
    writes (.vfsub c m d a b) ab (fun u v _ => xadd down u v.flip) ∧
    writes (.vfmul c m d a b) ab (fun u v _ => xmul u v) ∧
    writes (.vfma c m na nc d a b x) ⟨.op a .w32, .op b .w32, .op x .w32⟩ (xfma down na nc) ∧
    writes (.vfaddImm c m d a i) ai (fun u v _ => xadd down u v) ∧
    writes (.vfsubImm c m d a i) ai (fun u v _ => xadd down u v.flip) ∧
    writes (.vfmulImm c m d a i) ai (fun u v _ => xmul u v) ∧
    late (.vfrcp c m d a) xrcp ∧ late (.vfrsq c m d a) xrsq ∧ late (.vfsqrt c m d a) xsqrt ∧
    late (.vfexp2 c m d a) xexp2 ∧ late (.vflog2 c m d a) xlog2 ∧ late (.vftanh c m d a) xtanh ∧
    LaneWrites s c (.vfmin c t d a b) ab d 4 (fun p q _ => ftPack t (List.zipWith (fminmax (ftFF t) false) (ftElems t p) (ftElems t q))) ∧
    LaneWrites s c (.vfmax c t d a b) ab d 4 (fun p q _ => ftPack t (List.zipWith (fminmax (ftFF t) true) (ftElems t p) (ftElems t q))) ∧
    LaneWrites s c (.vfminImm c t d a i) ai d 4 (fun p q _ => ftPack t (List.zipWith (fminmax (ftFF t) false) (ftElems t p) (ftElems t q))) ∧
    LaneWrites s c (.vfmaxImm c t d a i) ai d 4 (fun p q _ => ftPack t (List.zipWith (fminmax (ftFF t) true) (ftElems t p) (ftElems t q))) ∧
    LaneWrites s c (.vfclass c t d a) a0 d 4 (fun p _ _ => ftPack t ((ftElems t p).map (fclassOf (ftFF t))))

/-- R16, R19, R20, R106: the rounding words under STOCH draw twice in each active lane, in ascending lane and element
order, and leave the generator after as many draws as elements were converted. What the transcendental forms round is
the model's fixed point with 240 fraction bits (log 15). -/
def Obligations.StochasticRounding : Prop :=
  ∀ (s : State) (c : LaneCtl) (m : FMode) (na nc : Bool) (d a b x : Opnd) (i : W32), m.rnd = .stoch → m.ft = .bf16x2 →
    let a0 : Sources := ⟨.op a .w32, .none, .none⟩
    let ab : Sources := ⟨.op a .w32, .op b .w32, .none⟩
    let ai : Sources := ⟨.op a .w32, .imm i .w32, .none⟩
    let draws (j : Instr) (srcs : Sources) (late : Bool) (f : XVal → XVal → XVal → XVal) : Prop :=
      LaneDraws s c j srcs late d m.sat f
    draws (.vfadd c m d a b) ab false (fun u v _ => xadd false u v) ∧
    draws (.vfsub c m d a b) ab false (fun u v _ => xadd false u v.flip) ∧
    draws (.vfmul c m d a b) ab false (fun u v _ => xmul u v) ∧
    draws (.vfma c m na nc d a b x) ⟨.op a .w32, .op b .w32, .op x .w32⟩ false (xfma false na nc) ∧
    draws (.vfaddImm c m d a i) ai false (fun u v _ => xadd false u v) ∧
    draws (.vfsubImm c m d a i) ai false (fun u v _ => xadd false u v.flip) ∧
    draws (.vfmulImm c m d a i) ai false (fun u v _ => xmul u v) ∧
    draws (.vfrcp c m d a) a0 true (fun u _ _ => xrcp u) ∧ draws (.vfrsq c m d a) a0 true (fun u _ _ => xrsq u) ∧
    draws (.vfsqrt c m d a) a0 true (fun u _ _ => xsqrt u) ∧ draws (.vfexp2 c m d a) a0 true (fun u _ _ => xexp2 u) ∧
    draws (.vflog2 c m d a) a0 true (fun u _ _ => xlog2 u) ∧ draws (.vftanh c m d a) a0 true (fun u _ _ => xtanh u) ∧
    (∀ (f : Nat → XVal → XVal → XVal → XVal) (ls : List Nat) (g : W32),
      (stochLanes (fun j => stochWord (f j) m.sat 0 0 0) ls g).2 = Nat.repeat nextRandom (2 * ls.length) g)

/-- R20, R111 to R113, R120, R121: VCVT, VPACK and VUNPK: the values written, and the saturation events counted; under
STOCH the generator goes on from element to element, one draw each, and an element's event is that of its own draw. -/
def Obligations.LaneConversions : Prop :=
  ∀ (s : State) (c : LaneCtl) (sf df : Fmt) (rnd : Rnd) (sat : Bool) (e : BitVec 3) (pos : BitVec 2) (d a b : Opnd)
    (cx : LaneCx) (l : Lanes),
    let w := fmtWidth sf
    let a32 : Sources := ⟨.op a .w32, .none, .none⟩
    let ab : Sources := ⟨.op a .w32, .op b .w32, .none⟩
    let as_ : Sources := ⟨.op a (bitsW sf.is64), .none, .none⟩
    let n := if df.is64 then 8 else 4
    let q (i : Nat) (g : W32) := vcvtElem sf df rnd sat (as_.a.val cx l i / 2 ^ (w * e.toNat) % 2 ^ w) g
    let p (src : Source) (i : Nat) (g : W32) := packOne df rnd sat (decodeF .f32 (src.val cx l i)) g
    (LaneReady s c as_ [(d, n)] cx l →
      (rnd ≠ .stoch → exec (.vcvt c sf df rnd sat e d a) s =
        .next (s.laneFinish c cx l as_ ⟨l.mapTo cx (l.actives c) d n fun i => (q i l.rng).1,
          ((l.actives c).map fun i => (q i l.rng).2.2).sum⟩)) ∧
      (rnd = .stoch → df.stochOk = true →
        let r := stochLanes (fun i g => ((q i g).1, nextRandom g)) (l.actives c) l.rng
        let ev := stochLanes (fun i g => ((q i g).2.2, nextRandom g)) (l.actives c) l.rng
        exec (.vcvt c sf df rnd sat e d a) s = .next (s.laneFinish c cx l as_
          ⟨{ r.1.foldl (fun m y => opWrite d cx m y.1 n y.2) l with rng := r.2 }, (ev.1.map Prod.snd).sum⟩))) ∧
    (LaneReady s c ab [(d, 4)] cx l →
      (rnd ≠ .stoch → exec (.vpack c df rnd sat pos d a b) s =
        .next (s.laneFinish c cx l ab ⟨writeElems l cx false d (2 * fmtWidth df) pos.toNat
          ((l.actives c).map fun i => (i, (p ab.a i l.rng).1 + 2 ^ fmtWidth df * (p ab.b i l.rng).1)),
          ((l.actives c).map fun i => (p ab.a i l.rng).2.2 + (p ab.b i l.rng).2.2).sum⟩)) ∧
      (rnd = .stoch → df.stochOk = true →
        let r := stochLanes (fun i g => ((p ab.a i g).1 + 2 ^ fmtWidth df * (p ab.b i (nextRandom g)).1,
          nextRandom (nextRandom g))) (l.actives c) l.rng
        let ev := stochLanes (fun i g => ((p ab.a i g).2.2 + (p ab.b i (nextRandom g)).2.2,
          nextRandom (nextRandom g))) (l.actives c) l.rng
        exec (.vpack c df rnd sat pos d a b) s = .next (s.laneFinish c cx l ab
          ⟨{ writeElems l cx false d (2 * fmtWidth df) pos.toNat r.1 with rng := r.2 }, (ev.1.map Prod.snd).sum⟩))) ∧
    LaneWrites s c (.vunpk c sf pos d a) a32 d 8 (fun x _ _ =>
      widenElem sf (x / 2 ^ (w * (2 * pos.toNat)) % 2 ^ w)
        + 2 ^ 32 * widenElem sf (x / 2 ^ (w * (2 * pos.toNat + 1)) % 2 ^ w))

/-- R20, R111, R114 to R119: VQNT and VDQNT with a slot of each GEOM; under STOCH a draw for each active lane; the
saturation events counted are those of the values written. A value of VQNT that overflows while SAT is clear takes the
RESCALE trap instead of writing (R118).
R31, R122, R348: VWBUPD makes an update of the named waybill for each element of each active lane, in order; in an
open transaction the updates are logged. An unregistered waybill is OPFORMAT, once every earlier word of the stream has
completed (R61). -/
def Obligations.LaneQuantisation : Prop :=
  (∀ (s : State) (rk : Nat) (c : LaneCtl) (fs sel : BitVec 3) (d a b : Opnd) (cx : LaneCx) (l : Lanes) (ff : FF) (sc : XVal),
     let sl := slotOf ((s.launchOf rk).fslot fs.toNat)
     let w := fmtWidth sl.efmt
     let b2 : List (Opnd × Nat) := if sl.geom = 1 ∧ b.isDst = true then [(b, 4)] else []
     s.cur = .lane rk → quantFF sl.efmt = some ff → sel.toNat < sl.efmt.perWord → (sl.geom = 0 → b = .v 0) →
     s.slotScale rk sl ff = .scale sc → (sl.src = true → (s.role rk).updatesPending = false) →
     (let srcs : Sources := ⟨.op a .w32, if 2 ≤ sl.geom then .op b .w32 else .none, .none⟩
      let r (i : Nat) := quantOne ff sl.rnd (sl.sat || sl.geom == 1) (decodeF .f32 (srcs.a.val cx l i))
        (quantScale sl ff sc srcs cx l c i) l.rng
      LaneReady s c srcs ((d, 4) :: b2) cx l → (sl.geom = 1 → b.isDst = true) → sl.rnd ≠ .stoch →
      ((∀ i ∈ l.actives c, (r i).1.over_ = false) → sl.geom ≠ 1 → exec (.vqnt c fs sel d a b) s =
        .next (s.laneFinish c cx l srcs ⟨writeElems l cx sl.src d w sel.toNat ((l.actives c).map fun i => (i, (r i).1.bits)),
          if fmtFeeds sl.efmt then ((l.actives c).filter fun i => (r i).1.event).length else 0⟩)) ∧
      ((∀ i ∈ l.actives c, (r i).1.over_ = false) → sl.geom = 1 → exec (.vqnt c fs sel d a b) s =
        .next (s.laneFinish c cx l srcs ⟨writeElems (writeElems l cx sl.src d w sel.toNat
            ((l.actives c).map fun i => (i, (r i).1.bits))) cx false b 8 (w * sel.toNat / 8)
            ((l.actives c).map fun i => (i, (groupBlock srcs cx l c ff (i / 32)).2)),
          if fmtFeeds sl.efmt then ((l.actives c).filter fun i => (r i).1.event).length else 0⟩)) ∧
      (∀ i ∈ l.actives c, (r i).1.over_ = true → (s.role rk).lxOut = 0 → (s.role rk).part = [] →
        exec (.vqnt c fs sel d a b) s = .next (s.userTrap rk 1 0 true (s.role rk).pc))) ∧
     (let srcs : Sources := ⟨.op a .w32, if 2 ≤ sl.geom then .op b .w32 else .none, .none⟩
      let o (i : Nat) (g : W32) : Quant := (quantOne ff .stoch (sl.sat || sl.geom == 1) (decodeF .f32 (srcs.a.val cx l i))
        (quantScale sl ff sc srcs cx l c i) g).1
      let each (f : Quant → Nat) := (stochLanes (fun i g => (f (o i g), nextRandom g)) (l.actives c) l.rng).1
      LaneReady s c srcs ((d, 4) :: b2) cx l → sl.rnd = .stoch → (sl.geom = 1 → b.isDst = true) →
      (∀ e ∈ each fun z => b2n z.over_, e.2 = 0) →
      let m := writeElems l cx sl.src d w sel.toNat (each Quant.bits)
      let m2 := if sl.geom = 1 then writeElems m cx false b 8 (w * sel.toNat / 8)
        ((l.actives c).map fun i => (i, (groupBlock srcs cx l c ff (i / 32)).2)) else m
      exec (.vqnt c fs sel d a b) s = .next (s.laneFinish c cx l srcs
        ⟨{ m2 with rng := Nat.repeat nextRandom (l.actives c).length l.rng },
          if fmtFeeds sl.efmt then ((each fun z => b2n z.event).map Prod.snd).sum else 0⟩)) ∧
     (let srcs : Sources := ⟨.op a .w32, if 1 ≤ sl.geom then .op b .w32 else .none, .none⟩
      let z (i : Nat) : XVal := match sl.geom with
        | 0 => sc
        | 1 => e8m0Val (srcs.b.val cx l i / 2 ^ (8 * (w * sel.toNat / 8)) % 2 ^ 8)
        | _ => decodeF .f32 (srcs.b.val cx l i)
      LaneReady s c srcs [(d, 4)] cx l → exec (.vdqnt c fs sel d a b) s =
        .next (s.laneFinish c cx l srcs ⟨s.writeVals l cx sl.src d 4 ((l.actives c).map fun i =>
          (i, (roundTo (xmul (decodeF ff (srcs.a.val cx l i / 2 ^ (w * sel.toNat) % 2 ^ w)) (z i)) .f32 .rne false 0).bits)), 0⟩))) ∧
  (∀ (s : State) (rk : Nat) (c : LaneCtl) (t : FTy) (a b : Opnd) (cx : LaneCx) (l : Lanes),
     let srcs : Sources := ⟨.op a .w32, .op b .w32, .none⟩
     let us := (l.actives c).flatMap fun i => (ftElems t (srcs.a.val cx l i)).map fun e => (srcs.b.val cx l i, e)
     let f : Fmt := match t with | .f32 => .f32 | .f16x2 => .f16 | .bf16x2 => .bf16
     s.cur = .lane rk → LaneReady s c srcs [] cx l → (s.role rk).updatesPending = false →
     (s.wbCheckAll (s.vfOf rk) (us.map Prod.fst) = .ok →
       (s.inTx (teamOf rk) = false ∨ (s.logRoom (teamOf rk) us.length = true ∧ s.wsLack (teamOf rk) us.length = none)) →
       exec (.vwbupd c t a b) s =
         .next ((us.foldl (fun u e => u.wbFeed rk e.1 f e.2) s).laneFinish c cx l srcs ⟨l, 0⟩)) ∧
     (s.wbCheckAll (s.vfOf rk) (us.map Prod.fst) = .opformat →
       exec (.vwbupd c t a b) s = .next (s.precise rk (s.raiseL rk .opformat))))

/-- R127, R128: the mask stack. VIF pushes E and the condition and narrows E, VELSE takes the other side, VENDIF pops; at
most 16 levels, and none to pop at depth 0.
R140 to R142, R144: votes, shuffles, values for the scalar stream and regrouping. -/
def Obligations.CrossLaneWords : Prop :=
  (∀ (s : State) (rk : Nat) (sw kcn : Bool) (kc : BitVec 4), s.cur = .lane rk →
     let l := (s.role rk).lanes
     let cond : Mask := if kcn then ~~~l.pred kc.toNat else l.pred kc.toNat
     (l.stack.length < 16 → exec (.vif sw kc kcn) s =
       .next (s.laneDone sw { l with stack := (l.e, cond) :: l.stack, e := l.e &&& cond })) ∧
     (16 ≤ l.stack.length → exec (.vif sw kc kcn) s = .next (s.precise rk (s.raiseL rk .illegal))) ∧
     (l.stack = [] → exec (.velse sw) s = .next (s.precise rk (s.raiseL rk .illegal)) ∧
       exec (.vendif sw) s = .next (s.precise rk (s.raiseL rk .illegal))) ∧
     (∀ out q t, l.stack = (out, q) :: t →
       exec (.velse sw) s = .next (s.laneDone sw { l with e := out &&& ~~~q }) ∧
       exec (.vendif sw) s = .next (s.laneDone sw { l with e := out, stack := t }))) ∧
  (∀ (s : State) (rk : Nat) (c : LaneCtl) (v : VoteMode) (role w64 wid : Bool) (ka : BitVec 4) (h : ShflMode) (m : TosMode)
     (d a b x : Opnd) (cx : LaneCx) (l : Lanes), s.cur = .lane rk →
     let none3 : Sources := ⟨.none, .none, .none⟩
     let w := bitsW w64
     let act := l.actives c
     let voters (i : Nat) := act.filter fun j => role || j / 32 == i / 32
     let ones (i : Nat) := (voters i).filter fun j => (l.pred ka.toNat).getLsbD j
     (LaneReady s c none3 [(d, 4)] cx l → exec (.vvote c v role ka d) s = .next (s.laneFinish c cx l none3
       ⟨s.writeVals l cx role d 4 (act.map fun i => (i, match v with
         | .ballot => ((ones i).map fun j => 2 ^ (j % 32)).sum
         | .any => if ones i = [] then 0 else 1
         | .all => if (voters i).all (fun j => (l.pred ka.toNat).getLsbD j) then 1 else 0
         | .count => (ones i).length
         | .pre => ((ones i).filter fun j => decide (j < i)).length
         | .first => (ones i).headD 0xFFFFFFFF)), 0⟩)) ∧
     (let srcs : Sources := ⟨.op a w, .op b .w32, .op x w⟩
      let pos (i y : Nat) : Option Nat := match h with
        | .idx => some (y % 32)
        | .up => if y % 64 ≤ i % 32 then some (i % 32 - y % 64) else none
        | .down => if i % 32 + y % 64 < 32 then some (i % 32 + y % 64) else none
        | .xor => some ((i % 32) ^^^ (y % 32))
      LaneReady s c srcs [(d, w.bytes)] cx l → exec (.vshfl c h w64 d a b x) s = .next (s.laneFinish c cx l srcs
        ⟨l.mapTo cx act d w.bytes fun i => match pos i (srcs.b.val cx l i) with
          | some j => if (l.active c).getLsbD (32 * (i / 32) + j) then srcs.a.val cx l (32 * (i / 32) + j)
              else srcs.x.val cx l i
          | none => srcs.x.val cx l i, 0⟩)) ∧
     (let srcs : Sources := ⟨.op a .w32, .none, .none⟩
      let vs := act.map fun i => srcs.a.val cx l i
      LaneReady s c srcs [] cx l → s.pushBlock rk 15 = .room → exec (.vtos c m a) s =
        .next ((s.pushQ rk 15 (match m with
          | .first => BitVec.ofNat 64 (vs.headD 0)
          | .or => BitVec.ofNat 64 (vs.foldl (fun n y => n ||| y) 0)
          | .add => BitVec.ofInt 64 (vs.map fun y => (BitVec.ofNat 32 y).toInt).sum
          | .count => BitVec.ofNat 64 vs.length)).laneFinish c cx l srcs ⟨l, 0⟩)) ∧
     (LaneReady s c none3 (if wid then [(d, 4)] else []) cx l → l.stack = [] → (s.role rk).outstanding = false →
       let r := (l.unwatch s.free).regroup (l.active c)
       let r2 := if wid then (r.own cx d).writeOld cx d (newSlots (l.active c) (32 * l.groups)) else r
       let t := s.repair (s.coreOf rk) rk []
       exec (.vregroup c wid false d) s = .next (t.laneDone c.sw r2) ∧
       (t.pushBlock rk 15 = .room → exec (.vregroup c wid true d) s =
         .next ((t.pushQ rk 15 (BitVec.ofNat 64 act.length)).laneDone c.sw r2))) ∧
     (LaneReady s c none3 (if wid then [(d, 4)] else []) cx l → l.stack ≠ [] → ∀ pushn,
       exec (.vregroup c wid pushn d) s = .next (s.precise rk (s.raiseL rk .illegal))))

/-- R144, R145: regrouping moves each lane's registers and predicates to its new slot: the live lanes first, in order. -/
def Obligations.RegroupMoves : Prop :=
  ∀ (l : Lanes) (live : Mask) (i b : Nat), l.groups ≤ 32 → i < 32 * l.groups → b < 1024 →
    NMap.wf (0 : Byte) l.regs = true →
    let ns := newSlots live (32 * l.groups)
    let j := ns.getD i 0
    let lv := (List.range (32 * l.groups)).filter fun k => live.getLsbD k
    j < 32 * l.groups ∧ (∀ k, k < 32 * l.groups → ns.getD k 0 = j → k = i) ∧
    (live.getLsbD i = true → j = (lv.filter fun k => decide (k < i)).length) ∧
    (live.getLsbD i = false → lv.length ≤ j) ∧
    (l.regroup live).regs.get 0 (rkey j b) = l.regs.get 0 (rkey i b) ∧
    (∀ k, ((l.regroup live).pred k).getLsbD j = (l.pred k).getLsbD i) ∧
    (l.regroup live).base = maskOf (List.range lv.length) ∧ (l.regroup live).e.getLsbD j = true

/-- R45, R95, R125, R157: what writing a destination does in every listed lane: its own bytes take the values, and every
other register byte, the masks, the predicates, the stack, the generator and the latch stay.
R54, R55, R153, R156: the end of a lane word of a role without saturation events: the stream goes on to the next word
of its block, at the end of the block frees it and the latch, and parks at a switch marker while results are
outstanding; the scalar side of the role, every other role, memory and everything else stays, but for the charge of the
stall clk of its passes (R53, R382).
R50, R56, R58, R61, R97, R335, R337: a lane word that names an absent resource or cannot make its hold is ILLEGAL and does
nothing; one that reads a word of bad parity without a duplicate, or an operand latch entry that has gone bad, takes a
machine check; the record is written once every earlier word of the stream has completed. In a row such a word ends
the row (R354, R355). -/
def Obligations.LaneWordFrame : Prop :=
  (∀ (l : Lanes) (cx : LaneCx) (ls : List Nat) (d : Opnd) (n b : Nat) (f : Nat → Nat), ls.Nodup →
     opStart d cx = some b → b + n ≤ 1024 →
     let m := l.mapTo cx ls d n f
     (∀ i ∈ ls, ∀ j, j < n → m.regs.get 0 (rkey i (b + j)) = byteOf (f i) j) ∧
     (∀ k, (∀ i ∈ ls, ∀ j, j < n → k ≠ rkey i (b + j)) → m.regs.get 0 k = l.regs.get 0 k) ∧
     m.preds = l.preds ∧ m.base = l.base ∧ m.e = l.e ∧ m.stack = l.stack ∧ m.rng = l.rng ∧ m.latches = l.latches ∧
     m.groups = l.groups ∧ m.budget = l.budget ∧ m.pend.length = l.pend.length) ∧
  (∀ (s : State) (rk : Nat) (c : LaneCtl) (cx : LaneCx) (l : Lanes) (srcs : Sources) (out : Lanes) (b : Block)
     (rest : List Block), s.cur = .lane rk → (s.role rk).blocks = b :: rest →
     let t := s.laneFinish c cx l srcs ⟨out, 0⟩
     let r := t.role rk
     let o := out.hold l cx c.hold srcs
     let paid := s.chargeStall l (srcs.reads cx)
     t.butRoles = { paid.butRoles with free := paid.free + 1 } ∧ paid.butTeams =
       { s.butTeams with free := paid.free, cores := paid.cores } ∧ (∀ k, k ≠ rk → t.role k = s.role k) ∧
     r.pc = (s.role rk).pc ∧ r.sregs = (s.role rk).sregs ∧ r.views = (s.role rk).views ∧ r.engs = (s.role rk).engs ∧
     r.flight = (s.role rk).flight ∧
     ((s.role rk).lanePc + 1 < b.len → r.lanePc = (s.role rk).lanePc + 1 ∧ r.blocks = b :: rest ∧
       (c.sw = false → r.lanes = { o with latches := o.latches.map ageLatch } ∧ r.lpark = .none)) ∧
     (b.len ≤ (s.role rk).lanePc + 1 → r.lanePc = 0 ∧ r.blocks = rest ∧ r.lanes.latches = [none, none, none]) ∧
     (c.sw = true → r.lanes.latches = [none, none, none] ∧
       (o.pend ≠ [] ∨ (s.role rk).flight ≠ [] ∨ (s.role rk).lxOut ≠ 0 → r.lpark = .marker) ∧
       (o.pend = [] → (s.role rk).flight = [] → (s.role rk).lxOut = 0 → r.lpark = .none))) ∧
  (∀ (s : State) (rk : Nat) (c : LaneCtl) (t : ITy) (sat w64 hi role : Bool) (m : FMode) (ft : FTy) (q : ICond)
     (fc : FCond) (kd ka kb : BitVec 4) (e : Fin 3) (sf df : Fmt) (rnd : Rnd) (es : BitVec 3) (ps : BitVec 2)
     (vm : VoteMode) (sm : ShflMode) (d a b x : Opnd) (n : W32) (cx : LaneCx) (l : Lanes), s.laneNow = some (cx, l) →
     ∀ f ∈ laneForms c t sat w64 hi role m ft q fc kd ka kb e sf df rnd es ps vm sm d a b x n,
     let srcs := f.2.1
     let spoilt := srcs.a.spoilt l || srcs.b.spoilt l || srcs.x.spoilt l
     (wordPresent cx l c.hold srcs f.2.2 = false →
       (s.cur = .lane rk → exec f.1 s = .next (s.precise rk (s.raiseL rk .illegal))) ∧
       (∀ key, s.cur = .row key → exec f.1 s = .next (s.rowEnd key 10))) ∧
     (s.cur = .lane rk → wordPresent cx l c.hold srcs f.2.2 = true → l.clean = false →
       (spoilt = true →
         exec f.1 s = .next (s.precise rk (s.machineCheck rk true 5 0 0 (laneBits (l.actives c))))) ∧
       (spoilt = false → parityFails cx l c srcs [] = true →
         exec f.1 s = .next (s.precise rk (s.parityCheck rk (badLanes cx l c srcs []))))))

/-! ## Lane memory and the matrix engine -/

/-- R96, R130 to R135, R139, R220: a lane memory word that can issue joins the words in flight with an access for each
active lane, and its stream goes on; VPREF asks the pager for absent scratch pages, or moves global lines into a cache,
and completes. A full operand log parks the stream.
R61, R131, R133, R137, R138, R251, R306: a data operand that the word cannot have is ILLEGAL, a waybill tag that its slot
does not allow OPFORMAT, a returning global atomic in an open transaction TXILLEGAL, an address that is not legal ADDRESS
or REMOTE, a misaligned atomic MISALIGN, and a word for which the write log has no room TXCAP. Which of them comes first
where no rule orders two, and that the record names the lanes of the reported class and the address of its first, is
the model's choice (logs 39 and 70). -/
def Obligations.LaneMemoryWords : Prop :=
  ∀ (s : State) (rk : Nat) (c : LaneCtl) (m : LMem) (data : Opnd) (sx red l2 : Bool) (wb : Option (BitVec 3))
    (op : AOp) (sc : Fin 7) (cx : LaneCx) (l : Lanes), s.cur = .lane rk →
    let tk := teamOf rk
    let pref : Sources := ⟨.op m.addr (if m.scratch then .w32 else .s64), .none, .none⟩
    let eas := (l.actives c).map fun i => memEa m false cx l i
    let n := mwBytes m.width
    (LaneReady s c pref [] cx l → exec (.vpref c m l2) s = .next
      ((if m.scratch then s.startServices tk (s.prefPages tk n eas) none
        else (s.prefLines rk n eas).foldl (fun u y => u.prefLine rk l2 y) s).laneFinish c cx l pref ⟨l, 0⟩)) ∧
    (∀ f ∈ memForms c m sx red wb op sc data,
      let w := f.2
      let as := laneAccs w data c cx l
      let count := as.length * s.laneEntries rk w
      let bad (k : Nat) : List LaneAcc := as.filter fun a => s.laneClass rk w a.ea == k
      let stops (k : Code) : Prop := exec f.1 s = .next (s.precise rk (s.raiseL rk k))
      let faults (k : Code) (bs : List LaneAcc) : Prop := exec f.1 s = .next (s.precise rk
        (s.raise rk true k 0 ((bs.map LaneAcc.ea).headD 0) 0 (laneBits (bs.map LaneAcc.lane))))
      (MemReady s rk w c data cx l → exec f.1 s = .next (s.issueMem rk f.1 w data c cx l (memSources w data) as)) ∧
      (s.logFull rk = true → exec f.1 s = .next (s.updRole rk fun r => { r with lpark := .oplog })) ∧
      (s.logFull rk = false → s.laneNow = some (cx, l) → dataOk w data cx l = false → stops .illegal) ∧
      (s.logFull rk = false → LaneReady s c (memSources w data) [] cx l → dataOk w data cx l = true →
        (s.wbStoreCheck rk w = .opformat → stops .opformat) ∧
        (s.wbStoreCheck rk w = .ok → s.txForbids rk w = true → stops .txillegal) ∧
        (s.wbStoreCheck rk w = .ok → s.txForbids rk w = false →
          (bad 1 ≠ [] → faults .address (bad 1)) ∧
          (bad 1 = [] → bad 2 ≠ [] → faults .remote (bad 2)) ∧
          (bad 1 = [] → bad 2 = [] → bad 3 ≠ [] → faults .misalign (bad 3)) ∧
          (bad 1 = [] → bad 2 = [] → bad 3 = [] → s.inTx tk = true → count ≠ 0 → s.logRoom tk count = false →
            stops .txcap))))

/-- R131, R135 to R138, R249, R250: lanes are performed in ascending order, each as the access of its word: a load fills
its lane's part of the outstanding result, a store writes its bytes and makes the updates of its waybill tag, an atomic
writes the result of its operation on the word in memory and, unless it is a reduction, returns the value found there; a
full/empty step waits for full granules and sets or clears them; in an open transaction a global store or reduction
makes a write-log entry. An unaligned access is made of its bytes in ascending order, one of 16 bytes of its halves; that
a full/empty step which writes bits and a logged access are one is rule R136 and the model's reading of R251 (log 68).
R328: a store waits for a copy command that covers a part of its grain.
R138, R182: the operations of VATOM on words of 32 and 64 bits, and the extension of a loaded value (R131). -/
def Obligations.LaneAccesses : Prop :=
  (∀ (s : State) (rk : Nat) (m : LMem) (st : Bool) (e : LogEntry) (a : LaneAcc),
     let n := mwBytes m.width
     let tk := teamOf rk
     let word (k : AccKind) : MemWord := ⟨m, k, st⟩
     let fill (sx : Bool) (v : Nat) (t : State) : State :=
       if a.off + a.len = n then
         t.fillPend rk e.pid a.lane (e.dst + a.off) (dataBytes m.width - a.off) (extendLoad sx a.len v)
       else t.fillPend rk e.pid a.lane (e.dst + a.off) a.len v
     let tags (wb : Option (BitVec 3)) (t : State) : State := match wb with
       | none => t
       | some fs =>
         let sl := slotOf ((t.launchOf rk).fslot fs.toNat)
         let u := fmtWidth sl.efmt
         (List.range (8 * n / u)).foldl (fun y i => y.wbFeed rk sl.wbidx sl.efmt (a.data / 2 ^ (u * i) % 2 ^ u)) t
     let tagged (wb : Option (BitVec 3)) (t : State) : State := if a.off = 0 then tags wb t else t
     let new (op : AOp) (old : Nat) : Nat := aopNew op (8 * a.len) old
       (if op = .cas then a.data / 2 ^ (8 * a.len) else a.data) (a.data % 2 ^ (8 * a.len))
     let back (red : Bool) (old : Nat) (t : State) : State :=
       if red then t else t.fillPend rk e.pid a.lane e.dst a.len old
     let waits := m.scratch = true ∧ (m.fe = .waitFull ∨ m.fe = .waitClear)
     (∀ k as, ¬waits → k.writes = false ∨ m.scratch = true →
       performLanes rk (word k) e as s =
         (as.foldl (fun t b => (t.laneAccess rk (word k) e b).unreserve rk (word k) b) s, [])) ∧
     (∀ k as, waits → performLanes rk (word k) e (a :: as) s =
       if (granulesOf (a.ea - a.off) n).all (s.fullAt tk) = true then
         performLanes rk (word k) e as ((s.laneAccess rk (word k) e a).unreserve rk (word k) a)
       else (s, a :: as)) ∧
     (∀ k as, m.scratch = false → performLanes rk (word k) e (a :: as) s =
       if s.laneHeld rk (word k) a = true then (s, a :: as)
       else performLanes rk (word k) e as ((s.laneAccess rk (word k) e a).unreserve rk (word k) a)) ∧
     (∀ k, a.off ≠ 0 ∨ s.inTx tk = false → s.unreserve rk (word k) a = s) ∧
     (∀ k, m.fe = .setFull ∨ m.fe = .waitClear ∨ s.logsAccess rk (word k) = true → s.pieces rk (word k) a = [a]) ∧
     (∀ k, m.fe = .ignore ∨ m.fe = .waitFull → s.logsAccess rk (word k) = false →
       (a.ea % n ≠ 0 → s.pieces rk (word k) a =
         (List.range n).map fun j => ⟨a.lane, a.ea + j, a.data / 2 ^ (8 * j), j, 1, none⟩) ∧
       (a.ea % n = 0 → n = 16 → s.pieces rk (word k) a =
         [⟨a.lane, a.ea, a.data, 0, 8, none⟩, ⟨a.lane, a.ea + 8, a.data / 2 ^ 64, 8, 8, none⟩]) ∧
       (a.ea % n = 0 → n ≠ 16 → s.pieces rk (word k) a = [a])) ∧
     (m.scratch = true →
       let old := leNat (s.scratchLoad tk a.ea a.len)
       (∀ sx, s.laneAccess rk (word (.load sx)) e a = fill sx old
         (if m.fe = .waitClear then (s.noteScratch tk a.ea a.len).setFull tk a.ea a.len false
          else s.noteScratch tk a.ea a.len)) ∧
       (∀ wb, s.laneAccess rk (word (.store wb)) e a = tagged wb
         (if m.fe = .setFull then (s.scratchStore tk a.ea (leBytes a.len a.data)).setFull tk a.ea a.len true
          else s.scratchStore tk a.ea (leBytes a.len a.data))) ∧
       (∀ op red sc, s.laneAccess rk (word (.atomic op red sc)) e a =
         back red old (s.scratchStore tk a.ea (leBytes a.len (new op old))))) ∧
     (m.scratch = false →
       (∀ sx x, LaneAt s rk (word (.load sx)) a x → s.laneAccess rk (word (.load sx)) e a =
         fill sx (leNat (s.roleLoad tk a.ea x)) (s.updRole rk fun r => r.arm (linesOf x.part x.ia a.len))) ∧
       (s.inTx tk = false →
         (∀ wb x, LaneAt s rk (word (.store wb)) a x → s.laneAccess rk (word (.store wb)) e a =
           tagged wb (s.storeX (s.holder rk) x (leBytes a.len a.data))) ∧
         (∀ op red sc x, LaneAt s rk (word (.atomic op red sc)) a x →
           s.laneAccess rk (word (.atomic op red sc)) e a = back red (leNat (s.loadX x))
             ((s.atomWrite (s.holder rk) sc x (leBytes a.len (new op (leNat (s.loadX x))))).noteAtom rk x))) ∧
       (s.inTx tk = true →
         (∀ wb, s.laneAccess rk (word (.store wb)) e a =
           tags wb (s.logAdd tk [⟨a.ea, .store, n, roleIdx rk, 0, a.data % 2 ^ (8 * n)⟩])) ∧
         (∀ op red sc, s.laneAccess rk (word (.atomic op red sc)) e a =
           s.logAdd tk [⟨a.ea, .atomic (Machine.aopCode op), n, roleIdx rk, 0, a.data % 2 ^ (8 * n)⟩])))) ∧
  ((∀ (n : Nat) (x y p : BitVec n), n = 32 ∨ n = 64 →
     let gives (op : AOp) (v : BitVec n) : Prop := aopNew op n x.toNat y.toNat p.toNat = v.toNat
     gives .add (x + y) ∧ gives .and (x &&& y) ∧ gives .or (x ||| y) ∧ gives .xor (x ^^^ y) ∧
     gives .min (if y.slt x then y else x) ∧ gives .max (if x.slt y then y else x) ∧
     gives .minn (if y.ult x then y else x) ∧ gives .maxn (if x.ult y then y else x) ∧ gives .swap y ∧
     gives .cas (if x = p then y else x)) ∧
   (∀ x y p, aopNew .fadd 32 x y p = innerSum .f32 x y) ∧
   (∀ n v, n = 1 ∨ n = 2 → v < 2 ^ (8 * n) →
     extendLoad true n v = (if v < 2 ^ (8 * n - 1) then v else v + 2 ^ 32 - 2 ^ (8 * n)) ∧ extendLoad false n v = v))

/-- R163, R164, R230, R231, R233, R237: an LX word whose checks pass enters its role's hold, and the scalar stream and the
registers stay; what it reads and writes is watched from then on; a gang word also waits for its members, and the last
arrival joins those whose words agree. The first check that fails is the word's fault, taken once every earlier word of
the stream has completed (R61). -/
def Obligations.MatrixWordsHeld : Prop :=
  ∀ (s : State) (rk : Nat) (x : LxMul) (sw clr wb coff ad : Bool) (v d fs : BitVec 3) (b : BitVec 4), s.cur = .lane rk →
    let enters (i : Instr) (gang : Bool) : Prop :=
      ((s.role rk).hold = none → s.lxCheck (s.lxWordOf rk i) = none →
        exec i s = .next (if gang then (s.held rk (s.lxWordOf rk i)).join (s.lxWordOf rk i)
          else s.held rk (s.lxWordOf rk i))) ∧
      (∀ f, (s.role rk).hold = none → s.lxCheck (s.lxWordOf rk i) = some (.code f) →
        exec i s = .next (s.precise rk (s.raiseL rk f))) ∧
      (∀ sub va ia, (s.role rk).hold = none → s.lxCheck (s.lxWordOf rk i) = some (.page sub va ia) →
        exec i s = .next (s.wbPage rk true sub va ia)) ∧
      (∀ sub va pa, (s.role rk).hold = none → s.lxCheck (s.lxWordOf rk i) = some (.mcheck sub va pa) →
        exec i s = .next (s.precise rk (s.machineCheck rk true sub va pa 0))) ∧
      (∀ w, (s.role rk).hold = some w → exec i s = .next (s.parkL rk (if lxGang w.word = true ∧ w.joined = false
        then .rendezvous else .lxHold)))
    enters (.vmma x) x.gang ∧ enters (.vmmas x) x.gang ∧ enters (.vaccz sw v) false ∧
    enters (.vaccrd sw v d fs clr wb coff) false ∧ enters (.vaccsc sw v b ad) false ∧
    (s.lxCheck (s.lxWordOf rk (.vaccz sw v)) = none ↔ isAcc ((s.lxWordOf rk (.vaccz sw v)).view v) = true) ∧
    (∀ i, ((s.held rk (s.lxWordOf rk i)).role rk).hold = some (s.lxWordOf rk i) ∧
      ((s.held rk (s.lxWordOf rk i)).role rk).lanes = { (s.role rk).lanes with
        watch := (s.role rk).lanes.watch ++ [s.lxWatch 0 (s.lxWordOf rk i)] } ∧
      ((s.held rk (s.lxWordOf rk i)).role rk).lanePc = (s.role rk).lanePc ∧
      (∀ k, k ≠ rk → (s.held rk (s.lxWordOf rk i)).role k = s.role k) ∧
      (s.held rk (s.lxWordOf rk i)).butTeams = s.butTeams) ∧
    (∀ w : LxWord, let ws := w.team.filterMap fun k => s.heldWord k w.members
      (ws.length ≠ w.members.length → s.join w = s.parkL w.rk .rendezvous) ∧
      (ws.length = w.members.length → ws.all (lxAgree w) = true →
        (s.join w).butRoles = s.butRoles ∧ ∀ k ∈ w.team, ∀ u, s.heldWord k w.members = some u → u.rk = k →
          ((s.join w).role k).hold = some { u with joined := true } ∧
          ((s.role k).lpark = .rendezvous ∨ (s.role k).lpark = .lxHold → ((s.join w).role k).lpark = .lxHold)))

/-- R206, R231, R232, R237, R294, R301: LX_ACCEPT waits until every member of the rendezvous stands in its hold and the
scratch stores before their words are made, asks the pager for the pages a word lacks, and puts a word that can run into
the engine queue: every member leaves the hold with one more result outstanding. LX_START takes the first word of the
queue that no record has stopped when the engine is idle and ALLOW is not negative; bad data that it fetches is a machine
check (R58, R238). LX_RESULT_WRITE counts the events of the word and gives each member, if all are still there, its bytes
and one result less outstanding.
R28, R35 to R40, R225 to R229, R233 to R235, R239: a multiplication leaves each element C[r][n] of each member the sum of
its scaled partials, promoted after every 128 K, each partial the steps' pairwise trees of rounded products. R227, R234:
where an element of B lies, and a dead vector. R20, R27, R33, R241: VACCRD writes each row divided by its scale and rounded
in the format of its slot, draw by draw under STOCH, its scale bytes, zeros to C with CLR, and feeds its waybill with WB.
R37, R48, R240, R242: VACCZ makes every element of its view +0, VACCSC adds to or scales each of them. What a word computes
depends on no core, cluster, die or time (R41). -/
def Obligations.MatrixEngineEvents : Prop :=
  (∀ (s : State) (rk core i : Nat) (w : LxWord) (j : LxJob),
     ((s.role rk).hold = none → exec (.lxAccept rk) s = .next s) ∧
     ((s.role rk).hold = some w → s.lxReady w = false ∨ s.relocking (s.coreOf rk) = true →
       exec (.lxAccept rk) s = .next s) ∧
     ((s.role rk).hold = some w → s.lxReady w = true → s.relocking (s.coreOf rk) = false →
       let ws := s.jointWords w
       (s.lxMissing w ≠ [] →
         exec (.lxAccept rk) s = .next (s.startServices (teamOf rk) (s.lxMissing w) (some (.lane rk)))) ∧
       (s.lxMissing w = [] → s.lxFull w = false ∨ 4 ≤ (s.core (s.coreOf rk)).engQ.length →
         exec (.lxAccept rk) s = .next s) ∧
       (s.lxMissing w = [] → s.lxFull w = true → (s.core (s.coreOf rk)).engQ.length < 4 →
         (s.lxUnread ws = none → exec (.lxAccept rk) s = .next (s.acceptLx ws)) ∧
         (∀ k sub va ia, s.lxUnread ws = some (k, .page sub va ia) →
           exec (.lxAccept rk) s = .next (s.wbPage k true sub va ia)) ∧
         (∀ k sub va pa, s.lxUnread ws = some (k, .mcheck sub va pa) → exec (.lxAccept rk) s =
           .next ((ws.foldl (fun t v => t.unhold v.rk) s).machineChecks (ws.map LxWord.rk) sub va pa 0)))) ∧
     (s.engineMay (clusterOf core) = false ∨ (s.core core).lxDone ≠ [] ∨ s.lxNext core = none →
       exec (.lxStart core) s = .next s) ∧
     (s.engineMay (clusterOf core) = true → (s.core core).lxDone = [] → s.lxNext core = some (j, i) →
       (s.lxBadB j = true →
         exec (.lxStart core) s = .next { s.lxChecks j.lxs 2 with free := (s.lxChecks j.lxs 2).free + 1 }) ∧
       (s.lxFails j = none →
         let u := (s.lxRepair j).lxCharge j
         ∃ t, exec (.lxStart core) s = .next t ∧ (t.core core).engQ = (s.core core).engQ.eraseIdx i ∧
           t.roles = u.roles ∧ t.hbm = s.hbm ∧ t.dirty = s.dirty ∧
           ∃ k, (t.core core).lxDone = [k] ∧ k.id = j.id ∧ k.lxs = j.lxs ∧ k.results = (u.lxCompute j).results ∧
             k.updates = (u.lxCompute j).updates ∧ k.sat = (u.lxCompute j).sat)) ∧
     ((s.core core).lxDone = [] ∨ s.relocking core = true → exec (.lxResultWrite core) s = .next s) ∧
     (∀ t, (s.core core).lxDone = j :: t → s.relocking core = false →
       (∀ p, s.lxWsLack j = some p →
         exec (.lxResultWrite core) s = .next (s.startService (teamOf p.1) p.2 (some (.lane p.1)))) ∧
       (s.lxWsLack j = none →
         let s1 := ((s.lxTake core LxJob.left).updCore core fun c => { c with lxDone := t }).lxEvents j
         (j.lxs.all (fun v => s1.hasRole v.rk) = true → exec (.lxResultWrite core) s =
           .next { (j.results.foldl (fun u e => u.updRole e.1 fun r => r.lxReturn j.id s.free e.2) (s1.lxUpdates j)) with
             free := s.free + 1 }) ∧
         (j.lxs.all (fun v => s1.hasRole v.rk) = false → exec (.lxResultWrite core) s = .next s1))) ∧
     (∀ (r : Role) (id free : Nat) (bs : List (Nat × Byte)), let t := r.lxReturn id free bs
       t.lxOut = r.lxOut - 1 ∧ t.pc = r.pc ∧ t.sregs = r.sregs ∧ t.blocks = r.blocks ∧
       ((r.lanes.watch.filter fun w => w.id == id).flatMap Watch.mixed = [] → (bs.map Prod.fst).Nodup →
         (∀ e ∈ bs, t.lanes.regs.get 0 e.1 = e.2) ∧
         ∀ k, k ∉ bs.map Prod.fst → t.lanes.regs.get 0 k = r.lanes.regs.get 0 k))) ∧
  ((∀ (s : State) (j : LxJob) (w : LxWord) (ws : List LxWord) (m : LxMul), j.lxs = w :: ws → lxMulOf w.word = some m →
     (s.lxCompute j).results = j.lxs.filterMap fun v => (lxMulOf v.word).map fun x =>
       (v.rk, (List.range 128).flatMap fun n => (List.range 16).flatMap fun r =>
         accBytes (v.view x.accview) r n (s.lxElement j x v r n))) ∧
   (∀ (rd : Nat → Byte) (m : LxMul) (sb : Slot) (g : LxGeo) (k n : Nat),
     (m.sparse = 0 → sb.geom ≠ 1 → g.bitsB ≠ 4 →
       let row := if m.order then n else k
       let col := if m.order then k else n
       let at_ := g.x + row * g.pitch + ((col * g.bitsB / 8) ^^^ (row % 4 * 16))
       elemB rd m sb g k n = some (decodeF ((fmtFF sb.efmt).getD .f32)
         (leNat ((rangeFrom at_ (g.bitsB / 8)).map rd)))) ∧
     (m.sparse.toNat / 2 % 2 = 1 → (rd (g.y + 16 * (k / formN g.form) + n / 8)).toNat / 2 ^ (n % 8) % 2 = 0 →
       elemB rd m sb g k n = none)) ∧
   (∀ (s : State) (j : LxJob) (w : LxWord) (sw clr wb coff : Bool) (v d fs : BitVec 3), j.lxs = [w] →
     w.word = .vaccrd sw v d fs clr wb coff →
     let sl := s.slot w.rk fs
     let ff := (fmtFF sl.efmt).getD .f32
     let old (r n : Nat) : Nat := accVal (s.role w.rk).lanes s.free (w.view v) r n
     let run (r i : Nat) : List XVal :=
       (((List.range 128).map fun n => decodeF .f32 (old r n)).drop (i * runLen sl)).take (runLen sl)
     let scale (r i : Nat) : XVal := rdScale sl ff (decodeF .f32 j.scaleA) (run r i)
     let bytes (r i : Nat) : List Byte := match sl.geom with
       | 1 => [BitVec.ofNat 8 (mxScale (run r i) ff).2]
       | 2 => leBytes 4 (roundTo (scale r i) .f32 .rne false 0).bits
       | _ => []
     let new (r n : Nat) : Rounded := roundTo (xdiv (decodeF .f32 (old r n)) (scale r (n / runLen sl))) ff sl.rnd
       (sl.sat || sl.geom == 1) (if sl.rnd = .stoch then (Nat.repeat nextRandom (128 * r + n + 1) j.rng).toNat / 256 else 0)
     let o := s.lxCompute j
     o.results = [(w.rk, ((List.range 16).flatMap fun r =>
         rowBytes (w.view d) coff r ((List.range 128).map fun n => (new r n).bits)
           ++ rowScaleBytes sl (w.view d) coff r ((List.range (128 / runLen sl)).map (bytes r)))
       ++ if clr then tileElems.flatMap (fun e => accBytes (w.view v) e.1 e.2 0) else [])] ∧
     o.updates = (if wb then tileElems.map fun e => old e.1 e.2 else []) ∧
     o.sat = if fmtFeeds sl.efmt then (tileElems.filter fun e => (new e.1 e.2).event).length else 0) ∧
   (∀ (s : State) (j : LxJob) (w : LxWord) (sw : Bool) (v : BitVec 3), j.lxs = [w] → w.word = .vaccz sw v →
     (s.lxCompute j).results = [(w.rk, tileElems.flatMap fun e => accBytes (w.view v) e.1 e.2 0)]) ∧
   (∀ (s : State) (j : LxJob) (w : LxWord) (sw ad : Bool) (v : BitVec 3) (b : BitVec 4), j.lxs = [w] →
     w.word = .vaccsc sw v b ad →
     let x (r n : Nat) : XVal := decodeF .f32 (accVal (s.role w.rk).lanes s.free (w.view v) r n)
     let y : XVal := decodeF .f32 ((w.snap.getD b.toNat 0).toNat % 2 ^ 32)
     (s.lxCompute j).results = [(w.rk, tileElems.flatMap fun e => accBytes (w.view v) e.1 e.2
       (roundTo (if ad then xadd false (x e.1 e.2) y else xmul (x e.1 e.2) y) .f32 .rne false 0).bits)]) ∧
   (∀ (s : State) (j : LxJob) (cores : NMap Core) (clusters : NMap Cluster) (dies : NMap Die) (tick : W64),
     ({ s with cores := cores, clusters := clusters, dies := dies, refTick := tick } : State).lxCompute j = s.lxCompute j) ∧
   (∀ (l : Lanes) (free lane b : Nat), l.pend = [] → l.back = [] → (∀ w ∈ l.watch, w.hit = false) →
     l.engByte free lane b = l.regs.get 0 (rkey lane b)) ∧
   (∀ (v : W64) (r n bits : Nat), r < 16 → n < 128 → accBytes v r n bits =
     [0, 1, 2, 3].map fun k => (rkey (32 * viewGrp v + n / 4) (viewBase v + r * viewStride v + 4 * (n % 4) + k),
       byteOf bits k)) ∧
   (∀ (f : FF) (n : Nat) (xs ys : List Nat), xs.length = 2 ^ n → ys.length = 2 ^ n →
     pairSum f (n + 1) (xs ++ ys) = innerSum f (pairSum f n xs) (pairSum f n ys)) ∧
   (∀ (f : FF) (n : Nat) (xs ys : List Nat) (o : Observed), xs.length = 2 ^ n → ys.length = 2 ^ n →
     (treeSum f (n + 1) (xs ++ ys) o).1 = (innerAdd f (treeSum f n xs o).1 (treeSum f n ys o).1 o).1))

/-! ## Depots -/

/-- R313, R322, R323, R357, R358, R365: the words of a row that runs, when their accesses can be made. DLDR reads home
values, the lanes of one line as one and the lines in the order of the lanes; DSTR makes depot writes (in one step where no
pace is set), and with wb the updates of its elements; DWAT goes on once its token has reached the value, DTOK and DRED are
made at the home, and with no active lane none of these four accesses memory; DEND ends the row. In a core's lane stream
they all are ILLEGAL (R79). How many lines one step reads is the model's pace (log 68).
R79: a depot word in the lane stream of a role is ILLEGAL. R109, R358: the steps of DRED.
R354: an address that is not legal ends the row with status 3, one that is not aligned with 4, a lost line with 7, and a word
of the mask stack at a depth that forbids it with 10; a page fault stalls the row alone.
R351 to R354: a task whose words and tokens pass their checks may start rows, one that fails a check has its status;
rows start in ascending order on a depot with room (that a row whose depot is full is passed over is the model's reading,
log 41), an anchor without a depot has status 11; the task completes, with the count of its rows and without the CT add
when a row has failed, once they have ended. -/
def Obligations.Depots : Prop :=
  (∀ (s : State) (key : Nat) (t : DTask) (cx : LaneCx) (l : Lanes) (c : LaneCtl) (m : LMem) (sx : Bool)
     (wb : Option (BitVec 3)) (op : RedOp) (d a b : Opnd), RowReady s key t cx l →
     let n := mwBytes m.width
     let tk := (s.row key).task
     let act := l.actives c
     let ea (i : Nat) : Nat := memEa m false cx l i
     let va := opVal a cx l .n64 0
     let num := opVal b cx l .n64 0
     let val (i : Nat) : Nat := l.bytes cx.free i ((opStart d cx).getD 0) n
     let feeds (u : State) (v : Nat) : State := match wb with
       | none => u
       | some fs =>
         let sl := slotOf ((u.launchOf t.rk).fslot fs.toNat)
         let w := fmtWidth sl.efmt
         (List.range (8 * n / w)).foldl (fun y i => y.wbUpdate (teamOf t.rk) ((u.row key).depot.getD 0 / 24)
           (u.vfOf t.rk) sl.wbidx (widenBits ((fmtFF sl.efmt).getD .f32) (v / 2 ^ (w * i) % 2 ^ w))) u
     (∀ xs : Nat → Xlat, (∀ i ∈ act, ea i % n = 0) →
       ((∀ i ∈ act, s.depotAcc t (ea i) n false = .ok (xs i)) →
         let got := (s.row key).part
         let left := act.filter fun i => !(got.map Prod.fst).contains i
         let lineOf (i : Nat) : Nat := lineKey (xs i).part (xs i).ia
         let lines := (left.map lineOf).dedup
         let now := left.filter fun i => (lines.take (s.pace.getD lines.length)).contains (lineOf i)
         let vals := got ++ now.map fun i => (i, extendLoad sx n (leNat (s.homeX (xs i))))
         let s1 := s.noteAll tk (now.map fun i => (i, .ok (xs i)))
         exec (.dldr c m sx d) s = .next (if vals.length < act.length then s1.setRow key { s1.row key with part := vals }
           else s1.laneDone false (vals.foldl (fun u e => opWrite d cx u e.1 (dataBytes m.width) e.2) l))) ∧
       ((∀ i ∈ act, s.depotAcc t (ea i) n true = .ok (xs i)) → s.pace = none → (s.row key).part = [] →
         exec (.dstr c m wb d) s = .next (((act.map val).foldl feeds (act.foldl (fun u i =>
           u.depotWriteX (xs i) (leBytes n (val i)))
           (s.noteAll tk (act.map fun i => (i, .ok (xs i)))))).laneDone false l))) ∧
     (∀ w ∈ [(Instr.dldr c m sx d, false), (Instr.dstr c m wb d, true)],
       let os := act.map fun i => s.depotAcc t (ea i) n w.2
       (DAcc.status 3 ∈ os → exec w.1 s = .next (s.rowEnd key 3)) ∧
       (DAcc.status 3 ∉ os → (∃ i ∈ act, ea i % n ≠ 0) → exec w.1 s = .next (s.rowEnd key 4)) ∧
       (DAcc.status 3 ∉ os → (∀ i ∈ act, ea i % n = 0) →
         (∀ sub v ia us, os = .page sub v ia :: us → exec w.1 s = .next (s.rowPage key sub v ia)) ∧
         ((∀ o ∈ os, (∀ sub v ia, o ≠ .page sub v ia) ∧ o ≠ .wait) → DAcc.status 7 ∈ os →
           exec w.1 s = .next (s.rowEnd key 7)))) ∧
     (∀ w ∈ [(Instr.dwat c a b, 8, false), (Instr.dtok c a b, 8, true), (Instr.dred c op a b, 4, true)], act ≠ [] →
       let o := s.depotAcc t va w.2.1 w.2.2
       (o = .status 3 → exec w.1 s = .next (s.rowEnd key 3)) ∧
       (o ≠ .status 3 → va % w.2.1 ≠ 0 → exec w.1 s = .next (s.rowEnd key 4)) ∧
       (va % w.2.1 = 0 → o = .status 7 → exec w.1 s = .next (s.rowEnd key 7)) ∧
       (∀ sub v ia, va % w.2.1 = 0 → o = .page sub v ia → exec w.1 s = .next (s.rowPage key sub v ia))) ∧
     (∀ (v k : Nat) (wr : Bool),
       ((∀ ia, s.toIa (s.vfOf t.rk) v k ≠ .ia ia) → s.depotAcc t v k wr = .status 3) ∧
       (∀ ia x, s.toIa (s.vfOf t.rk) v k = .ia ia →
         s.translateIa (s.vf (s.vfOf t.rk)).part ia k wr = .ok x → x.dual = false → x.migrating = false →
         s.depotAcc t v k wr = if x.pas.any s.lostPa = true then .status 7 else .ok x)) ∧
     (∀ (sw kcn : Bool) (kc : BitVec 4),
       (16 ≤ l.stack.length → exec (.vif sw kc kcn) s = .next (s.rowEnd key 10)) ∧
       (l.stack = [] → exec (.velse sw) s = .next (s.rowEnd key 10) ∧ exec (.vendif sw) s = .next (s.rowEnd key 10))) ∧
     (act = [] → exec (.dwat c a b) s = .next (s.laneDone false l) ∧ exec (.dtok c a b) s = .next (s.laneDone false l) ∧
       exec (.dred c op a b) s = .next (s.laneDone false l)) ∧
     (∀ x, act ≠ [] → va % 8 = 0 →
       (s.depotAcc t va 8 false = .ok x → exec (.dwat c a b) s =
         .next (if num ≤ leNat (s.homeX x) then (s.notePages tk x).laneDone false l else s)) ∧
       (s.depotAcc t va 8 true = .ok x → exec (.dtok c a b) s =
         .next (((s.notePages tk x).tokenAdd noCluster x num).laneDone false l))) ∧
     (∀ x, act ≠ [] → va % 4 = 0 → s.depotAcc t va 4 true = .ok x → exec (.dred c op a b) s =
       .next ((((s.notePages tk x).homeWriteX x (leBytes 4 (redStep op (leNat (s.loadX x))
         (redLanes op (act.map fun i => opVal b cx l .w32 i))))).noteHome noCluster x.part x.ia).laneDone false l)) ∧
     exec (.dend c) s = .next (s.rowEnd key 0)) ∧
  ((∀ (s : State) (rk : Nat) (c : LaneCtl) (m : LMem) (sx : Bool) (wb : Option (BitVec 3)) (op : RedOp) (d a b : Opnd),
     s.cur = .lane rk →
     let bad (i : Instr) : Prop := exec i s = .next (s.precise rk (s.raiseL rk .illegal))
     bad (.dldr c m sx d) ∧ bad (.dstr c m wb d) ∧ bad (.dwat c a b) ∧ bad (.dtok c a b) ∧ bad (.dred c op a b) ∧
     bad (.dend c)) ∧
   (∀ x y : BitVec 32, redStep .add x.toNat y.toNat = (x + y).toNat ∧
     redStep .maxn x.toNat y.toNat = (if x.ult y then y else x).toNat ∧
     redStep .fadd x.toNat y.toNat = innerSum .f32 x.toNat y.toNat ∧
     redStep .fmax x.toNat y.toNat = fminmax .f32 true x.toNat y.toNat) ∧
   (∀ op v vs, redLanes op (v :: vs) = vs.foldl (redStep op) v)) ∧
  (∀ (s : State) (rk q : Nat) (c : Cmd) (x : TaskCmd),
     (EngineReady s rk q c → s.tasks.has rk = false →
       (s.taskCheck rk x = .ok → exec (.task x) s = .next
         { s with tasks := s.tasks.put rk ⟨rk, x, 0, [], 0, 0, s.taskPages rk x⟩ }) ∧
       (∀ n, s.taskCheck rk x = .status n → exec (.task x) s = .next (s.cmdEnd rk q n 0))) ∧
     (s.taskRuns rk = false → exec (.depotRowStart rk) s = .next s) ∧
     (s.taskRuns rk = true → (s.task rk).skipped = [] → (s.task rk).next < (s.task rk).cmd.nrows →
       (∀ u y, s.placeOf (s.task rk) (s.task rk).next = .depot u y →
         (s.depotRoom u = true → ∃ t, exec (.depotRowStart rk) s = .next t ∧
           (t.task rk).next = (s.task rk).next + 1 ∧ (t.task rk).skipped = [] ∧
           t.rows.get? (rowKey rk (s.task rk).next) = some (newRow (s.task rk) (s.task rk).next (some u) none) ∧
           t.hbm = s.hbm ∧ t.roles = s.roles) ∧
         (s.depotRoom u = false → ∃ t, exec (.depotRowStart rk) s = .next t ∧ t.rows = s.rows ∧
           (t.task rk).skipped = [(s.task rk).next])) ∧
       (∀ n, s.placeOf (s.task rk) (s.task rk).next = .status n → ∃ t, exec (.depotRowStart rk) s = .next t ∧
         (t.task rk).status = n ∧ t.rows = s.rows ∧ t.hbm = s.hbm ∧ t.roles = s.roles) ∧
       (∀ ia y, s.toIa (s.vfOf (s.task rk).rk) ((s.task rk).anchor (s.task rk).next).toNat 1 = .ia ia →
         s.translateIa (s.vf (s.vfOf (s.task rk).rk)).part ia 1 false = .ok y → y.dual = false → y.migrating = false →
         s.depotOf (y.pas.headD 0) = none → s.placeOf (s.task rk) (s.task rk).next = .status 11)) ∧
     (firstRole ≤ rk → (s.engQ rk 5).run = some c → c.result = none → c.stall = none → c.ev = false → c.acks = 0 →
       s.taskOver rk = true →
       ((s.task rk).status = 0 → (s.task rk).cmd.ct = none →
         ∃ t, exec (.taskComplete rk) s = .next t ∧ t.tasks.has rk = false ∧ (t.engQ rk 5).run = none ∧
           (t.engQ rk 5).done = (s.engQ rk 5).done ++ [complWord c.tag 0 (s.task rk).ended] ∧ t.hbm = s.hbm) ∧
       (∀ n, (s.task rk).status = n → n ≠ 0 → n ≠ 2 → (s.engQ rk 5).todo = [] →
         ∃ t, exec (.taskComplete rk) s = .next t ∧ t.tasks.has rk = false ∧ (t.engQ rk 5).run = none ∧
           (t.engQ rk 5).stopped = true ∧
           (t.engQ rk 5).done = (s.engQ rk 5).done ++ [complWord c.tag n (s.task rk).ended] ∧ t.hbm = s.hbm)) ∧
     ((s.engQ rk 5).run = none → exec (.taskComplete rk) s = .next s))

/-! ## Events of roles, teams and cores -/

/-- R155, R156, R157, R159, R169, R190, R191: what ends a park. A stream of a role that may act wakes when its condition
holds; a finished drain finishes the role; a result that is ready is written, and its bytes take its values when no other
word has written them, unspecified until the next marker is passed (R96); YIELD and WAITA run out, also a WAITA that a
trap has set aside (R199). R153: an LX word that ends its block frees the block's entry when it is in the hold.
R161: of the roles a slot is offered to, the first that has been ready for 64 boundaries is granted the next one. -/
def Obligations.StreamEvents : Prop :=
  (∀ (s : State) (rk : Nat),
     let r := s.role rk
     (∀ lane, s.awake rk = false → exec (.streamWake rk lane) s = .next s) ∧
     (s.awake rk = true →
       exec (.streamWake rk false) s = .next (if s.scalarWakes rk = true
         then (s.updRole rk fun r => { r with spark := .none }).leaveNear rk else s) ∧
       (r.flight = [] → r.lpark = .marker → exec (.streamWake rk true) s = .next (if r.outstanding = true then s
         else (s.updRole rk fun r => { r.atMarker s.free with lpark := .none }).leaveNear rk)) ∧
       exec (.roleFinish rk) s = .next (if r.spark = .exit ∧ r.drained = true ∧ r.finished = false
         then s.updRole rk fun r => { r with finished := true } else s)) ∧
     (∀ q, r.spark = .popQ q → (s.scalarWakes rk = true ↔ s.queueOf rk q ≠ [] ∨ s.popBlock rk q ≠ .wait)) ∧
     (r.spark = .vrunFull → (s.scalarWakes rk = true ↔ r.entries < 8)) ∧
     (r.hold = none → r.entries = r.blocks.length) ∧
     (∀ w b bs, r.hold = some w → r.blocks = b :: bs → b.len ≤ r.lanePc + 1 → r.entries = bs.length) ∧
     (r.spark = .drain → (s.scalarWakes rk = true ↔ r.drained = true)) ∧
     (r.spark = .exit ∨ r.spark = .commit → s.scalarWakes rk = false) ∧
     (r.spark = .relay → (s.scalarWakes rk = true ↔ r.relayed = false ∧ r.drained = true)) ∧
     (∀ i p, s.hasRole rk = true → r.lanes.pend[i]? = some p → p.ready = true →
       ∃ t, exec (.classLResultReturn rk i) s = .next t ∧
         (t.role rk).lanes.pend.map Pend.id = (r.lanes.pend.eraseIdx i).map Pend.id ∧
         (t.role rk).lanes.back.getLast? = some p ∧
         (t.role rk).pc = r.pc ∧ (t.role rk).sregs = r.sregs ∧ (∀ k, k ≠ rk → t.role k = s.role k) ∧
         t.butRoles = s.butRoles ∧
         (p.mixed = [] → (p.dest.map Prod.fst).Nodup →
           (∀ e ∈ p.dest, (t.role rk).lanes.regs.get 0 e.1 = e.2) ∧
           ∀ k, k ∉ p.dest.map Prod.fst → (t.role rk).lanes.regs.get 0 k = r.lanes.regs.get 0 k)) ∧
     exec (.yieldExpire rk) s = .next (s.updRole rk fun r =>
       { r with yieldS := if r.yieldS = 1 then 0 else r.yieldS, yieldL := if r.yieldL = 1 then 0 else r.yieldL }) ∧
     (∀ w, r.waita = some w → w.left = some 0 → ∃ t, exec (.waitaTimeout rk) s = .next t ∧
       (t.role rk).waita = some { w with expired := true } ∧ t.butRoles = s.butRoles) ∧
     (∀ a w, r.aside = some a → a.waita = some w → w.left = some 0 → ∃ t, exec (.waitaTimeout rk) s = .next t ∧
       (t.role rk).aside = some { a with waita := some { w with expired := true } } ∧ t.butRoles = s.butRoles)) ∧
  (∀ (s : State) (core dp : Nat) (lane : Bool),
     ((∀ rk ∈ s.offered core dp lane, (s.role rk).waited lane < 64) →
       exec (.starvationIssue core dp lane) s = .next s) ∧
     (∀ rk us vs, s.offered core dp lane = us ++ rk :: vs → (∀ k ∈ us, (s.role k).waited lane < 64) →
       64 ≤ (s.role rk).waited lane → ∃ t, exec (.starvationIssue core dp lane) s = .next t ∧
         (t.core core).grant.get? (slotKey dp lane) = some rk ∧ t.roles = s.roles ∧ t.hbm = s.hbm))

/-- R206, R215, R252, R253, R258, R259: the probe waits for the write set's pages, then pins every page, or writes a PAGE
record for a page it lacks (sub 1 and 2) and stops the team with TXPROBE otherwise; with every page pinned the drain begins,
COMMITTED set and the transaction closed; when the log is empty VER bits are clear and the write set's pages released, and
the tokens are added in ascending role index; then the roles go on. A grace window that has ended aborts a team that has
not reached its commit point. Where a machine check of the probe stands, and that a line lost after it is written in a
record that stops nothing, is the model's choice (log 25), and so is where the drain stops under a pace (log 68).
R258, R316, R382: what the drain does with each entry of the write log; it waits for a command's hold (R328, R336) and for a
refresh (R360). -/
def Obligations.CommitEvents : Prop :=
  (∀ (s : State) (tk : Nat),
     let t := s.team tk
     let rk := roleKey tk 0
     let ranges := s.probeRanges tk
     (t.phase ≠ .probing → exec (.commitProbe tk) s = .next s) ∧
     (t.phase = .probing → t.halted = none → ∀ v, s.logLack tk = some v →
       exec (.commitProbe tk) s = .next (s.startService tk v (some (.scalar rk)))) ∧
     (t.phase = .probing → t.halted = none → s.logLack tk = none →
       (s.probeFault (s.vfOf rk) ranges = none → s.probeCheck tk = none →
         exec (.commitProbe tk) s = .next (s.updTeam tk fun t =>
           { t with phase := .pinned, pins := s.pinAll (s.vfOf rk) ranges })) ∧
       (∀ va sub pa, s.relocking t.core = false → s.probeCheck tk = some (va, sub, pa) →
         exec (.commitProbe tk) s = .next (s.machineCheck rk false sub va pa 0)) ∧
       (∀ va ia sub, s.relocking t.core = false → s.probeCheck tk = none →
         s.probeFault (s.vfOf rk) ranges = some (va, ia, sub) →
         (sub ≤ 2 → ∃ u, exec (.commitProbe tk) s = .next u ∧ (u.team tk).phase = .probeFault (s.nextRec % 2 ^ 32) ∧
           (u.team tk).log = t.log) ∧
         (2 < sub → exec (.commitProbe tk) s = .next (s.raise rk false .txprobe sub va ia 0)))) ∧
     (t.phase ≠ .pinned → exec (.commitPoint tk) s = .next s) ∧
     (t.phase = .pinned → t.topTrip = true → s.relocking t.core = true → exec (.commitPoint tk) s = .next s) ∧
     (t.phase = .pinned → t.topTrip = false ∨ s.relocking t.core = false →
       (t.committed = true → t.log = [] → exec (.commitPoint tk) s = .next (s.tokenStep tk)) ∧
       (t.committed = false ∨ t.log ≠ [] →
         let u := drainSome tk (s.pace.getD t.log.length) []
           (s.updTeam tk fun t => { t with committed := true, txOpen := false })
         ((u.team tk).log ≠ [] → exec (.commitPoint tk) s = .next u) ∧
         ((u.team tk).log = [] → exec (.commitPoint tk) s =
           .next (if s.pace = none then (u.drainDone tk).tokenStep tk else u.drainDone tk)))) ∧
     (let u := (s.drainDone tk).team tk
      u.reserved = 0 ∧ u.logBad = [] ∧ u.log = t.log ∧ u.scratch = t.scratch ∧
        ∀ v p, u.pages.get? v = some p → v < wsFirst ∧ p.ver = 0) ∧
     (let u := addTokens (s.pace.getD (s.rolesOf tk).length) (s.rolesOf tk) s
      s.tokenStep tk = if u.commitTokens tk = [] then u.commitEnd tk else u) ∧
     (t.grace = none → t.doomed = false → t.topTrip = false →
       let u := (s.commitEnd tk).team tk
       u.phase = .running ∧ u.pins = [] ∧ u.log = t.log ∧ u.committed = t.committed ∧ u.txOpen = t.txOpen ∧
         u.scratch = t.scratch) ∧
     (∀ g, t.grace = some g → exec (.graceExpire tk) s =
       .next (if g.left = 0 ∧ t.txOpen = true ∧ t.phase ≠ .pinned then s.abortTeam tk g.cause else s)) ∧
     (t.grace = none → exec (.graceExpire tk) s = .next s)) ∧
  (∀ (s : State) (tk n : Nat) (prev rks : List Nat) (rk : Nat),
     (∀ e es, (s.team tk).log = e :: es →
       let next (ls : List Nat) : State :=
         drainSome tk n ls ((s.drainEntry tk e prev).updTeam tk fun m => { m with log := es })
       (e.range = none → drainSome tk (n + 1) prev s = next prev) ∧
       (∀ va k, e.range = some (va, k) → drainSome tk (n + 1) prev s = if s.drainWaits tk va k true = true
         then s.stallAll (.scalar (roleKey tk e.role)) (s.drainTransfers tk va k)
         else next (s.accLines (roleKey tk e.role) va k))) ∧
     ((s.role rk).txArr.getD none = none → addTokens n (rk :: rks) s = addTokens n rks s) ∧
     (∀ a v, (s.role rk).txArr.getD none = some (a, v) → addTokens (n + 1) (rk :: rks) s =
       if s.drainWaits (teamOf rk) a.toNat 8 false = true
       then s.stallAll (.scalar rk) (s.drainTransfers (teamOf rk) a.toNat 8) else addTokens n rks (s.addToken rk a v)) ∧
     (∀ a v x, s.drainXlat (teamOf rk) a.toNat 8 = .ok x → s.addToken rk a v =
       (((s.tokenAdd (clusterOf (s.team (teamOf rk)).core) x v.toNat).chargeDrain (teamOf rk) true x []).updRole rk
         Role.tokenDone))) ∧
  (∀ (s : State) (tk : Nat) (e : WEntry) (prev : List Nat), let vf := (s.launch (lidOf tk)).vf
     let cl : Holder := ⟨(s.team tk).core, vf⟩
     let rk := roleKey tk e.role
     (∀ va k x, s.xlat vf va k true = .ok x → s.drainXlat tk va k = .ok x) ∧
     (∀ va k sub ia p, s.xlat vf va k true = .page sub ia →
       (s.team tk).pins.find? (fun y => y.1 == (va, k)) = some p → s.drainXlat tk va k = .ok p.2) ∧
     (∀ x, s.drainXlat tk e.addr e.size = .ok x →
       (e.kind = .store → s.drainEntry tk e prev =
         (s.storeX cl x (leBytes e.size e.data)).chargeDrain tk false x prev) ∧
       (∀ op, e.kind = .atomic op → s.drainEntry tk e prev =
         ((s.atomWrite cl 6 x (leBytes e.size (drainNew op e.size (leNat (s.loadX x)) e.data))).noteAtom rk x).chargeDrain
           tk true x prev)) ∧
     (∀ pa, s.drainXlat tk e.addr e.size = .mcheck pa → e.kind = .store ∨ (∃ op, e.kind = .atomic op) →
       s.drainEntry tk e prev = s.drainLost tk e.role e.addr pa) ∧
     (∀ f, e.kind = .waybill f → s.drainEntry tk e prev = s.wbUpdate tk (dieOf (s.team tk).core) vf e.wbidx
       (widenBits (((fmtOfCode f).bind fmtFF).getD .f32) e.data)) ∧
     (∀ q seed, e.kind = .command q seed → ((s.role rk).eng q).stopped = false →
       ((s.drainEntry tk e prev).engQ rk q).todo =
         (s.engQ rk q).todo ++ [.word (BitVec.ofNat 64 e.data) seed 0 0]))

/-- R167, R206 to R208, R216: the pager maps a page that nothing has touched, of scratch or of the write set (R215), on to
a free frame, and a team that is away keeps its page for its return; a page whose area has not been provided, or does not
translate, gives a SCRATCH record, and one that has a lost line a machine check (R210); after 2,000 ref ticks of service a team that can leaves its core. R186: a team whose
roles all wait for each other for 2^20 ref ticks gets its records. -/
def Obligations.PagerEvents : Prop :=
  ∀ (s : State) (tk vpn : Nat) (sv : Service),
    let t := s.team tk
    (t.service.get? vpn = none → s.promotes tk vpn = false → exec (.pagerServiceDone tk vpn) s = .next s) ∧
    (∀ n, t.service.get? vpn = some sv → sv.wait = some n → exec (.pagerServiceDone tk vpn) s = .next s) ∧
    (t.service.get? vpn = some sv → sv.wait = none →
      (∀ xs, s.backNeed tk vpn = .ok xs →
        (t.resident = false → (∀ rk q, sv.who ≠ some (.queue rk q)) → exec (.pagerServiceDone tk vpn) s =
          .next ((s.updTeam tk fun t => t.endService vpn).reenter tk)) ∧
        (∀ f, t.resident = true → (t.page vpn).present = false → (t.page vpn).touched = false →
          (s.entriesOn t.core).length < 4096 → s.freeFrame t.core = some f →
          exec (.pagerServiceDone tk vpn) s = .next ((((s.pageIn tk vpn ⟨0, t.core, f⟩).updTeam tk fun t =>
            t.endService vpn).chargeTeam tk (4096 * frameRate 0)).pageReady tk) ∧
          let p := ((s.pageIn tk vpn ⟨0, t.core, f⟩).team tk).page vpn
          p.present = true ∧ p.touched = true ∧ p.kind = 0 ∧ p.frameCore = t.core ∧ p.frame = f ∧ p.busy = false ∧
            p.orph = false)) ∧
      (∀ va, s.backNeed tk vpn = .noArea va → s.relocking t.core = false →
        exec (.pagerServiceDone tk vpn) s = .next (s.scratchFail tk vpn 1 va 0)) ∧
      (∀ va ia, s.backNeed tk vpn = .page va ia → s.relocking t.core = false →
        exec (.pagerServiceDone tk vpn) s = .next (s.scratchFail tk vpn 2 va ia)) ∧
      (∀ va pa, s.backNeed tk vpn = .lost va pa → s.relocking t.core = false →
        exec (.pagerServiceDone tk vpn) s = .next (s.pageCheck tk vpn (s.lostSub pa) va pa))) ∧
    (s.oldestFault tk = none → exec (.swapOut tk) s = .next s) ∧
    (∀ n, s.oldestFault tk = some n →
      (s.refTick.toNat < n + 2000 → exec (.swapOut tk) s = .next s) ∧
      (n + 2000 ≤ s.refTick.toNat → t.resident = true → t.txOpen = false → t.phase ≠ .pinned → t.suspend = none → s.lxQuiet tk = true →
        (∀ rk ∈ s.rolesOf tk, (s.role rk).flight = []) → (s.core t.core).swids.length < 32768 →
        ∃ u, exec (.swapOut tk) s = .next u ∧ (u.team tk).phase = .swappedOut ∧ (u.team tk).scratch = t.scratch)) ∧
    (s.cyclicNow tk = true → 2 ^ 20 ≤ t.cyclic → t.cyclicRec = false → exec (.cyclicwait tk) s =
      .next ((s.cyclicRecords tk).updTeam tk fun t => { t with cyclicRec := true })) ∧
    (s.cyclicNow tk = false → exec (.cyclicwait tk) s = .next s)

/-- R294, R296, R298, R301 to R303, R362: leases, transitions, the power allowance, what a step of the matrix engine takes from
it, LEVEL with the cap that each stack of the die sets by its latest reading, and near-threshold mode. -/
def Obligations.PowerEvents : Prop :=
  ∀ (s : State) (tk c core : Nat) (v : W64) (upper : Bool),
    (∀ k, (s.team tk).lease = some (k, 0) → exec (.leaseExpire tk) s =
      .next ((s.updTeam tk fun t => { t with lease := none }).adopt (clusterOf (s.team tk).core))) ∧
    ((s.team tk).lease = none → exec (.leaseExpire tk) s = .next s) ∧
    (∀ k, (s.cluster c).target = some k → exec (.transitionDone c) s = .next ((s.updCluster c fun q =>
      { q with cls := k, target := none, replc := replcOf q.pwrCfg k }).adopt c)) ∧
    ((s.cluster c).target = none → exec (.transitionDone c) s = .next s) ∧
    exec (.allowReplenish c) s = .next (s.updCluster c fun q =>
      { q with allow := Min.min (q.allow + q.replc) (pwrCap q.pwrCfg) }) ∧
    exec (.pwrcfgWrite c v) s = .next ((s.updCluster c fun q => let w := v &&& 0x03FFFFFFFFFFFFFF
      { q with pwrCfg := w, allow := Min.min q.allow (pwrCap w), replc := replcOf w q.cls }).adopt c) ∧
    (s.thermDue = true → ∃ t, exec .thermUpdate s = .next t ∧ (∀ j, j < 32 → (t.cluster j).level = s.levelOf j) ∧
      t.roles = s.roles ∧ t.teams = s.teams ∧ t.hbm = s.hbm ∧ t.thermAt = s.refTick.toNat) ∧
    (s.thermDue = false → exec .thermUpdate s = .next s) ∧
    (s.thermDue = true ↔ s.thermAt < s.refTick.toNat ∧ (s.refTick.toNat - s.thermAt) % 10000 = 0) ∧
    (let k (j : Nat) : Stack := s.stk (3 * dieOfCluster c + j)
     s.levelOf c ≤ (s.cluster c).sensor ∧
     (∀ j, j < 3 → (95 ≤ (k j).temp → s.levelOf c ≤ 1) ∧ ((k j).hot = true → s.levelOf c ≤ 3) ∧
       (76 ≤ (k j).temp → s.levelOf c ≤ 4)) ∧
     ((s.cluster c).sensor ≤ 7 → (∀ j, j < 3 → (k j).temp ≤ 75 ∧ (k j).hot = false) →
       s.levelOf c = (s.cluster c).sensor) ∧
     (1 ≤ (s.cluster c).sensor → 1 ≤ s.levelOf c) ∧
     (3 ≤ (s.cluster c).sensor → (∀ j, j < 3 → (k j).temp < 95) → 3 ≤ s.levelOf c) ∧
     (4 ≤ (s.cluster c).sensor → (∀ j, j < 3 → (k j).temp < 95 ∧ (k j).hot = false) → 4 ≤ s.levelOf c)) ∧
    (∀ j js, (s.core core).lxDone = j :: js →
      let n := Nat.min ((j.lxs.head?.map (s.lxStepCost j)).getD 0) j.left
      s.lxStep core = (s.updCore core fun k => { k with lxDone := { j with left := j.left - n } :: js }).updCluster
        (clusterOf core) fun q => { q with allow := q.allow - n }) ∧
    (let rs := s.islandRoles core upper
     let n := (rs.filter fun e => s.onMemory e.1 e.2 && decide (1000 ≤ e.2.parkTicks)).length
     (rs = [] → s.islandNear core upper = true) ∧
     exec (.nearThresholdEnter core upper) s = .next (if 9 * rs.length < 10 * n
       then s.updCore core fun k => if upper then { k with ntb := true } else { k with nta := true } else s))

/-! ## Engines -/

/-- R264 to R271, R328: what each command of the copy engine leaves when its accesses can be made: CP and GATH copy, FILL
writes its value, CPCV converts, RDST reduces and signals, SIG signals, each element access an access of its own (R317).
With no pace set a step makes them all; with a pace of one it makes one, and a read that meets a lost line ends the reads
there (R336) (log 22, log 68). The cases of the statement that
meet bytes no rule fixes name the free values (log 22, log 23).
R264, R267, R268: the elements of a CP in their order, dimension 0 fastest, at the addresses of R267. -/
def Obligations.CopyCommands : Prop :=
  (∀ (s : State) (rk q : Nat) (c : Cmd), EngineReady s rk q c → c.prog = .fresh → s.pace = none →
     (∀ (x : CpCmd) (u : State), let p := cpPlan x
       let t := s.beginCmd rk q p true c.seed
       PlanReady s rk p true → CourseRuns t rk q (copyCourse p) (copyPut rk q p (t.accLocs rk p.reads)) u →
       exec (.cp x) s = .next (u.copyEnd rk q)) ∧
     (∀ (x : FillCmd) (u : State), let p := fillPlan x
       PlanReady s rk p true → CourseRuns (s.beginCmd rk q p true c.seed) rk q (fillCourse x s.free) (copyPut rk q p []) u →
       exec (.fill x) s = .next (u.copyEnd rk q)) ∧
     (∀ (x : GathCmd) (t u : State), let p0 : Plan := ⟨gathIdx x, [], [], false⟩
       PlanReady s rk p0 false →
       CourseRuns (s.beginCmd rk q p0 false c.seed) rk q (copyCourse p0) (fun _ _ _ => none) t →
       let ix := (t.prog rk q).got.map leNat
       let p := gathPlan x ix
       let t1 := t.updProg rk q fun _ => { Prog.fresh with idx := some ix }
       PlanReady t1 rk p true →
       let t2 := t1.beginCmd rk q p true c.seed
       CourseRuns t2 rk q (copyCourse p) (copyPut rk q p (t2.accLocs rk p.reads)) u →
       exec (.gath x) s = .next (u.copyEnd rk q)) ∧
     (∀ (x : CpcvCmd) (ff : FF) (v : XVal) (u : State), let sl := slotOf ((s.launchOf rk).fslot x.fs.toNat)
       let p := cpcvPlan x sl
       let bits := (roundTo v .f32 .rne false 0).bits
       let t := (s.beginCmd rk q p true c.seed).cpcvBegin rk q x sl bits
       let k := t.cpcvCourse rk x sl ff (decodeF .f32 bits) c.seed
       (sl.geom = 0 → x.sca = 0) → quantFF sl.efmt = some ff → (x.wb = true → sl.src = true) →
       cvShapeOk sl x.shape = true → (sl.src = true → s.lxOwes rk = false) → s.slotScale rk sl ff = .scale v →
       PlanReady s rk p true →
       (s.cpcvEntries rk x sl = 0 ∨ s.logRoom (teamOf rk) (s.cpcvEntries rk x sl) = true) →
       (CourseRuns t rk q k (copyPut rk q p (t.accLocs rk p.reads)) u →
         exec (.cpcv x) s = .next (u.cpcvEnd rk q c x sl ff (decodeF .f32 bits))) ∧
       (readAll rk q k.numbered t = some u → k.fails (u.prog rk q).got = some 6 →
         exec (.cpcv x) s = .next (u.cmdEnd rk q 6 0))) ∧
     (∀ (x : RdstCmd) (ff : FF) (u w : State), let sl := slotOf ((s.launchOf rk).fslot x.fs.toNat)
       let p := rdstPlan x (fmtWidth sl.efmt)
       let t := s.beginCmd rk q p false c.seed
       sl.geom = 0 → rdstFF sl.efmt = some ff → s.wbNamed rk x.wb sl = .ok → PlanReady s rk p false →
       s.sigBad rk x.sig = false →
       CourseRuns t rk q (rdstCourse p) (rdstPut rk q x ff sl (t.accLocs rk p.reads)) u →
       (sigAcc x.sig).any (u.accWaits rk q) = false → u.firstLack rk (sigAcc x.sig) = .none →
       u.signal rk x.sig = some w →
       exec (.rdst x) s = .next (((sigAcc x.sig).foldl (fun y a => y.chargeMove rk q true none a) w).cmdEnd rk q 0
         (u.prog rk q).count)) ∧
     (∀ (x : SigCmd), let p : Plan := ⟨[], [], sigAcc x.sig, sigMis x.sig⟩
       let t := s.beginCmd rk q p false c.seed
       let paid (y : State) : State := (sigAcc x.sig).foldl (fun y a => y.chargeMove rk q true none a) y
       PlanReady s rk p false → (sigAcc x.sig).any (t.accWaits rk q) = false → t.firstLack rk (sigAcc x.sig) = .none →
       (x.sig = .none → exec (.sig x) s = .next (t.cmdEnd rk q 0 0)) ∧
       (∀ a v y, x.sig = .token a v → t.xlat (t.vfOf rk) a.toNat 8 true = .ok y →
         exec (.sig x) s = .next ((paid (t.tokenAdd (clusterOf (t.coreOf rk)) y v.toNat)).cmdEnd rk q 0 0)) ∧
       (∀ a, x.sig = .barrier a →
         let w := leNat (s.scratchLoad (teamOf rk) a.toNat 8)
         s.vaultBad (teamOf rk) a.toNat 8 false = false → t.vaultBad (teamOf rk) a.toNat 8 false = false →
         (barOk w = true → exec (.sig x) s =
           .next ((paid (t.scratchStore (teamOf rk) a.toNat (leBytes 8 (barStep w)))).cmdEnd rk q 0 0)) ∧
         (barOk w = false → exec (.sig x) s = .next (s.cmdEnd rk q 9 0))))) ∧
  (∀ (s : State) (rk q : Nat) (c : Cmd) (x : CpCmd) (e : Read) (es : List Read), EngineReady s rk q c →
     c.prog.begun = true → c.prog.bad = false → s.pace = some 1 →
     let k := copyCourse (cpPlan x)
     let a := e.2.2
     s.readOrder (k.todo c.prog) = e :: es → (k.writes c.prog.got false)[c.prog.wrote]? = none →
     s.accWaits rk q a = false → s.accLack rk a = .none →
     (∀ bs, s.accRead rk a = some bs →
       let t := ((s.noteReads rk [a]).chargeMove rk q false e.2.1 a).updProg rk q fun g =>
         { g with vals := g.vals.put e.1 bs }
       exec (.cp x) s = .next (t.coursePause rk q k)) ∧
     (s.accRead rk a = none →
       let t := s.updProg rk q fun g => { g with upTo := some (Nat.min e.1 (g.upTo.getD e.1)) }
       exec (.cp x) s = .next (t.coursePause rk q k))) ∧
  (∀ (x : CpCmd) (i0 i1 i2 : Nat), i0 < x.shape.e0 → i1 < x.shape.e1 → i2 < x.shape.e2 →
     let k := i0 + x.shape.e0 * (i1 + x.shape.e1 * i2)
     let src : W64 := x.shape.src + BitVec.ofNat 64 i2 * x.shape.s2.signExtend 64 +
       BitVec.ofNat 64 i1 * x.shape.s1.signExtend 64 + BitVec.ofNat 64 (i0 * x.esz)
     let off := if x.swz then (i0 * x.esz) ^^^ (i1 % 4 * 16) else i0 * x.esz
     let dst : W64 := x.shape.dst + BitVec.ofNat 64 i2 * x.shape.d2.signExtend 64 +
       BitVec.ofNat 64 i1 * x.shape.d1.signExtend 64 + BitVec.ofNat 64 off
     (cpPlan x).reads[k]? = some ⟨x.ssp, src.toNat, x.esz, false⟩ ∧
     (cpPlan x).writes[k]? = some ⟨x.dsp, dst.toNat, x.esz, true⟩)

/-- R265 to R267, R269 to R272, R311, R328, R344: where a command of the copy engine ends or stalls without its effect: its
format, its shape and its waybill first, then ADDRESS before MISALIGN before GRAIN, then the object of a barrier signal, all
found before it begins; and the page or scratch page that its first access lacks, or the refresh or hold that it meets
(R336, R360), found at that access. R249: a CPCV with WB that finds no room in the write log waits, and its role raises
TXCAP at its next scalar issue boundary. A command that has ended, or waits for an answer, does nothing, and one whose
token has not reached its value waits. The order of the checks where no rule fixes it is the model's (log 70).
R81, R266, R271, R272, R199, R391: a waiting command goes on once its token has reached its value; a performed one, once the
host has acknowledged its writes, puts its completion word, with tag, status and count, behind the others of its queue; a
failing status stops the queue, a lost line aborts a transaction that has not reached its commit point, and an overflow
arms the RESCALE trap of the role. -/
def Obligations.CopyFaultsAndEvents : Prop :=
  (∀ (s : State) (rk q : Nat) (c : Cmd) (xc : CpCmd) (xf : FillCmd) (xg : GathCmd) (xv : CpcvCmd) (xr : RdstCmd)
     (xs : SigCmd),
     let ends (i : Instr) (n : Nat) : Prop := exec i s = .next (s.cmdEnd rk q n 0)
     let checks (i : Instr) (p : Plan) (bulk : Bool) : Prop :=
       (p.order.all (s.accLegal rk) = false → ends i 3) ∧
       (p.order.all (s.accLegal rk) = true → p.mis = true → ends i 4) ∧
       (p.order.all (s.accLegal rk) = true → p.mis = false → bulk = true →
         s.grainBad (s.vf (s.vfOf rk)).part (s.accIas rk (p.writes ++ p.extra)) = true → ends i 8)
     let first (i : Instr) (k : Course) (t : State) : Prop := ∀ a as, k.reads = a :: as → s.pace = none →
       (t.accWaits rk q a = true → exec i s = .next ((t.courseStall rk q k).coursePause rk q k)) ∧
       (t.accWaits rk q a = false →
         (∀ sub va ia, t.accLack rk a = .page sub va ia →
           exec i s = .next ((t.cmdPage rk q sub va ia).coursePause rk q k)) ∧
         (∀ v, t.accLack rk a = .scratch v →
           exec i s = .next ((t.startService (teamOf rk) v (some (.queue rk q))).coursePause rk q k)))
     let p0 : Plan := ⟨gathIdx xg, [], [], false⟩
     let ps : Plan := ⟨[], [], sigAcc xs.sig, sigMis xs.sig⟩
     let sv := slotOf ((s.launchOf rk).fslot xv.fs.toNat)
     let sr := slotOf ((s.launchOf rk).fslot xr.fs.toNat)
     let pv := cpcvPlan xv sv
     let pr := rdstPlan xr (fmtWidth sr.efmt)
     let ok (p : Plan) (bulk : Bool) : Prop := p.order.all (s.accLegal rk) = true ∧ p.mis = false ∧
       (bulk = true → s.grainBad (s.vf (s.vfOf rk)).part (s.accIas rk (p.writes ++ p.extra)) = false)
     (∀ w ∈ [(Instr.cp xc, xc.tail.wt), (.fill xf, xf.tail.wt), (.gath xg, xg.tail.wt), (.cpcv xv, xv.tail.wt),
         (.rdst xr, xr.tail.wt), (.sig xs, xs.tail.wt)], firstRole ≤ rk → s.cur = .engine rk q →
       (s.engQ rk q).run = some c →
       (c.result ≠ none ∨ c.stall ≠ none → exec w.1 s = .next s) ∧
       (∀ a v, c.result = none → c.stall = none → c.waiting = true → w.2 = some (a, v) →
         (s.tokenAt (s.vfOf rk) a.toNat v.toNat = .wait → exec w.1 s = .next s) ∧
         (∀ n, s.tokenAt (s.vfOf rk) a.toNat v.toNat = .status n → ends w.1 n))) ∧
     (EngineReady s rk q c → c.prog = .fresh →
       checks (.cp xc) (cpPlan xc) true ∧ checks (.fill xf) (fillPlan xf) true ∧ checks (.gath xg) p0 false ∧
       checks (.sig xs) ps false ∧
       (ok ps false → s.sigBad rk xs.sig = true → ends (.sig xs) 9) ∧
       (ok (cpPlan xc) true → first (.cp xc) (copyCourse (cpPlan xc)) (s.beginCmd rk q (cpPlan xc) true c.seed)) ∧
       (ok p0 false → first (.gath xg) (copyCourse p0) (s.beginCmd rk q p0 false c.seed)) ∧
       (sv.geom = 0 → xv.sca ≠ 0 → ends (.cpcv xv) 1) ∧
       ((sv.geom = 0 → xv.sca = 0) →
         (quantFF sv.efmt = none → ends (.cpcv xv) 5) ∧
         (∀ ff, quantFF sv.efmt = some ff →
           ((xv.wb = true ∧ sv.src = false) ∨ cvShapeOk sv xv.shape = false → ends (.cpcv xv) 5) ∧
           ((xv.wb = true → sv.src = true) → cvShapeOk sv xv.shape = true →
             (sv.src = true → s.lxOwes rk = true → exec (.cpcv xv) s = .next s) ∧
             ((sv.src = true → s.lxOwes rk = false) →
               (s.slotScale rk sv ff = .opformat → ends (.cpcv xv) 5) ∧
               (∀ sub va ia, s.slotScale rk sv ff = .page sub va ia →
                 exec (.cpcv xv) s = .next (s.cmdWbPage rk q sub va ia)) ∧
               (∀ sub va pa, s.slotScale rk sv ff = .mcheck sub va pa → ends (.cpcv xv) 7) ∧
               (∀ v, s.slotScale rk sv ff = .scale v →
                 let n := s.cpcvEntries rk xv sv
                 (n ≠ 0 → s.logRoom (teamOf rk) n = false →
                   exec (.cpcv xv) s = .next (if s.scalarBoundary rk = true then s.raiseS rk .txcap 0 else s)) ∧
                 (n = 0 ∨ s.logRoom (teamOf rk) n = true →
                   checks (.cpcv xv) pv true ∧
                   (ok pv true → let bits := (roundTo v .f32 .rne false 0).bits
                     let t := (s.beginCmd rk q pv true c.seed).cpcvBegin rk q xv sv bits
                     first (.cpcv xv) (t.cpcvCourse rk xv sv ff (decodeF .f32 bits) c.seed) t))))))) ∧
       ((sr.geom ≠ 0 ∨ rdstFF sr.efmt = none) → ends (.rdst xr) 5) ∧
       (∀ ff, sr.geom = 0 → rdstFF sr.efmt = some ff →
         (s.wbNamed rk xr.wb sr = .opformat → ends (.rdst xr) 5) ∧
         (∀ sub va ia, s.wbNamed rk xr.wb sr = .page sub va ia →
           exec (.rdst xr) s = .next (s.cmdWbPage rk q sub va ia)) ∧
         (∀ sub va pa, s.wbNamed rk xr.wb sr = .mcheck sub va pa → ends (.rdst xr) 7) ∧
         (s.wbNamed rk xr.wb sr = .ok →
           checks (.rdst xr) pr false ∧
           (ok pr false → s.sigBad rk xr.sig = true → ends (.rdst xr) 9) ∧
           (ok pr false → s.sigBad rk xr.sig = false →
             first (.rdst xr) (rdstCourse pr) (s.beginCmd rk q pr false c.seed))))) ∧
     (∀ ix, EngineReady s rk q c → c.prog = { Prog.fresh with idx := some ix } →
       checks (.gath xg) (gathPlan xg ix) true ∧
       (ok (gathPlan xg ix) true → first (.gath xg) (copyCourse (gathPlan xg ix))
         (s.beginCmd rk q (gathPlan xg ix) true c.seed)))) ∧
  (∀ (s : State) (rk q : Nat) (c : Cmd), (s.engQ rk q).run = some c →
     (∀ a v, c.instr.bind waitOf = some (a, v) → c.waiting = true →
       let go := s.tokenAt (s.vfOf rk) a.toNat v.toNat = .ready
       (go → exec (.copyWtRelease rk q) s = .next (s.updCmd rk q fun c => { c with waiting := false })) ∧
       (¬ go → exec (.copyWtRelease rk q) s = .next s)) ∧
     (∀ a v x, q = 5 → s.tasks.has rk = true → (s.task rk).cmd.wt = some (a, v) → c.waiting = true → c.stall = none →
       c.result = none → s.depotAcc (s.task rk) a.toNat 8 false = .ok x →
       exec (.taskWtRelease rk) s = .next (if v.toNat ≤ leNat (s.loadX x)
         then s.updCmd rk q fun c => { c with waiting := false } else s)) ∧
     (q < 4 → c.result = none → exec (.copyComplete rk q) s = .next s) ∧
     (∀ st n, q < 4 → c.result = some (st, n) → (st = 7 → (s.team (teamOf rk)).abortable = false) → c.acks ≠ 0 →
       exec (.copyComplete rk q) s = .next s) ∧
     (∀ st n, q < 4 → c.result = some (st, n) → (st = 7 → (s.team (teamOf rk)).abortable = false) → c.ev = false →
       c.acks = 0 →
       ∃ t, exec (.copyComplete rk q) s = .next t ∧ (t.engQ rk q).run = none ∧ t.hbm = s.hbm ∧ t.dirty = s.dirty ∧
         (t.role rk).rescale = ((s.role rk).rescale || st == 6) ∧ (t.role rk).pc = (s.role rk).pc ∧
         (st = 0 ∨ st = 2 → (t.engQ rk q).done = (s.engQ rk q).done ++ [complWord c.tag st n] ∧
           (t.engQ rk q).stopped = (s.engQ rk q).stopped ∧ (t.engQ rk q).todo = (s.engQ rk q).todo) ∧
         (st ≠ 0 → st ≠ 2 → (t.engQ rk q).stopped = true ∧
           ∃ ws, (t.engQ rk q).done = (s.engQ rk q).done ++ complWord c.tag st n :: ws)) ∧
     (∀ n, q < 4 → c.result = some (7, n) → (s.team (teamOf rk)).abortable = true →
       exec (.copyComplete rk q) s = .next (s.abortTeam (teamOf rk) 4)) ∧
     (exec (.cpcvRescaleTrap rk) s = .next (if (s.role rk).rescale = true ∧ (s.role rk).lxOut = 0 ∧
         s.scalarBoundary rk = true
       then (s.updRole rk fun r => { r with rescale := false }).userTrap rk 1 0 false (s.role rk).pc else s)) ∧
     (∀ tag st n, tag < 2 ^ 16 → st < 2 ^ 8 → n < 2 ^ 40 →
       (complWord tag st n).toNat = tag * 2 ^ 48 + st * 2 ^ 40 + n))

/-- R399, R402 to R406, R410, R414: what the scale-out engine sends: an RWR reads its local bytes, each access one of its own
(R317), and sends them in segments; an RRD sends its requests, an RSIG its one message; a POST is armed and completes with
its handle. A peer that is not valid is PEERDOWN, and an address that is not legal ADDRESS or MISALIGN. That a message's
number is the next of those that also number posts is the model's choice (log 27). -/
def Obligations.ScaleOutCommands : Prop :=
  ∀ (s : State) (id : Nat) (c : Cmd),
    let rk := s.actor id
    let vf := s.cmdVf id
    (∀ x : RwrCmd, SoReady s id c x.tail →
      let as := localAccs x.lscr false x.laddr.toNat x.len
      (as.all (s.accLegal rk) = false → exec (.rwr x) s = .next (s.soEnd id 3 0)) ∧
      (∀ u, as.all (s.accLegal rk) = true → s.pace = none → c.prog = .fresh →
        CourseRuns (s.updProg id 4 fun g => { g with begun := true }) id 4 (rwrCourse x) (fun _ _ _ => none) u →
        exec (.rwr x) s = .next (u.sendAll id (blocksOf x.raddr.toNat x.len).length (.rwr x) x.raddr.toNat
          (u.prog id 4).got.flatten))) ∧
    (∀ x : RrdCmd, SoReady s id c x.tail →
      let as := localAccs x.lscr true x.laddr.toNat x.len
      (as.all (s.accLegal rk) = false → exec (.rrd x) s = .next (s.soEnd id 3 0)) ∧
      (as.all (s.accLegal rk) = true → exec (.rrd x) s =
        .next ((s.updProg id 4 fun g => { g with begun := true }).sendAll id (blocksOf x.raddr.toNat x.len).length (.rrd x)
          x.raddr.toNat []))) ∧
    (∀ x : RsigCmd, SoReady s id c x.tail → exec (.rsig x) s = .next (if x.raddr.toNat % 8 = 0
      then s.sendAll id 1 (.rsig x) 0 [] else s.soEnd id 4 0)) ∧
    (∀ (x : PostCmd), EngineReady s id 4 c → c.prog.begun = false →
      let v := s.vfOf id
      let h := BitVec.ofNat 64 (s.nextPost % 2 ^ 40)
      (4096 ≤ (s.vf v).posts.length → exec (.post x) s = .next (s.cmdEnd id 4 17 0)) ∧
      ((s.vf v).posts.length < 4096 → x.tail.ct = none → x.mtag ∉ (s.vf v).unexpected →
        ∃ t k, exec (.post x) s = .next t ∧ (t.vf v).posts = (s.vf v).posts ++ [⟨h, id, x.mtag, x.count, 0, x.caddr,
            x.tail.ev⟩] ∧ (t.engQ id 4).run = some k ∧ k.result = some (0, h.toNat) ∧ k.instr = c.instr ∧
          k.tag = c.tag ∧ k.ev = c.ev ∧ t.nextPost = s.nextPost + 1 ∧ t.hbm = s.hbm)) ∧
    (∀ w ∈ [(fun r : RwrCmd × RrdCmd × RsigCmd => (Instr.rwr r.1, r.1.tail)), (fun r => (Instr.rrd r.2.1, r.2.1.tail)),
        (fun r => (Instr.rsig r.2.2, r.2.2.tail))], ∀ r : RwrCmd × RrdCmd × RsigCmd, s.cur = .engine id 4 →
      s.cmdOf id 4 = some c → c.result = none → c.stall = none → c.reply = none → c.sent = none → c.waiting = false →
      c.prog.begun = false → r.2.2.raddr.toNat % 8 = 0 → peerOk ((s.vf vf).peers.get 0 (w r).2.peer) = false →
      exec (w r).1 s = .next (s.soEnd id 16 0)) ∧
    (∀ n i raddr bs, s.cmdOf id 4 = some c → s.peerFenced vf c.peer = false →
      (s.sendAll id n i raddr bs).outbox = s.outbox ++ (List.range n).map fun k =>
        .segment (s.peerFep vf c.peer) (fieldOf ((s.vf vf).peers.get 0 c.peer).toNat 24 24) s.nextPost k i
          (segBytes raddr bs k)) ∧
    (∀ n i raddr bs, s.cmdOf id 4 = some c → s.peerFenced vf c.peer = true →
      (s.sendAll id n i raddr bs).outbox = s.outbox)

/-- R317, R320, R403, R404, R406, R409, R410, R414: replies, time limits and retransmissions of commands that have been sent:
a reply of status 0 leads to the local writes of an RRD and to the CT add, any other is the command's; PEERDOWN comes when no
allowed port has reached the peer for 1,000,000 ref ticks; a segment that was asked for again goes out after 10,000; a
command that fails after it was sent closes its delivery context.
R336, R400, R404 to R409, R414: an inbound segment finds its context by its end point; one of a peer that is fenced, or of a
closed delivery context, is dropped; an ordered one waits behind an earlier one that stalls, and each is otherwise attempted
access by access; what is not mapped to this package's memory is answered with REMADDR; a page fault stalls the segment
alone, and after its time it is discarded, and asked for again; a full list of unexpected arrivals asks for it again too.
R407: a block that would give ADDRESS or MISALIGN faults and frees its post. That the meter numbered 480 is charged for
a party with no core, and that TMO counts from the ref tick of sending, is the model's choice (log 27). -/
def Obligations.ScaleOutReplies : Prop :=
  (∀ (s : State) (id seg t0 : Nat) (c : Cmd) (i : Instr) (r : RemTail), s.cmdOf id 4 = some c → c.instr = some i →
     remTail i = some r →
     let vf := s.cmdVf id
     let sentWhen : Prop := c.result = none ∧ c.sent = some t0 ∧ c.reply = none
     (c.result ≠ none → ∀ st bs, exec (.scaleoutComplete id st bs) s = .next (s.soComplete id)) ∧
     (c.result = none → c.sent = none ∨ c.reply ≠ none ∨ s.peerFenced vf c.peer = true →
       ∀ st bs, exec (.scaleoutComplete id st bs) s = .next s) ∧
     (sentWhen → s.peerFenced vf c.peer = false → ∀ st bs,
       let u := (s.soCharge id bs.length).updCmd id 4 fun c => { c with reply := some (st, bs), prog := .fresh }
       let ends (t : State) : Prop := exec (.scaleoutComplete id st bs) s = .next (t.soComplete id)
       (st ≠ 0 → ends (u.soEnd id st 0)) ∧
       (∀ x, st = 0 → i = .rwr x → ends (u.soFinish id x.tail.ct x.len)) ∧
       (∀ x, st = 0 → i = .rsig x → ends (u.soFinish id x.tail.ct 0)) ∧
       (∀ x, st = 0 → i = .rrd x →
         (∀ n, u.planFails (u.actor id) (rrdPlan x) true = some n → ends (u.soEnd id n 0)) ∧
         (∀ y, u.planFails (u.actor id) (rrdPlan x) true = none → s.pace = none →
           CourseRuns (u.beginCmd id 4 (rrdPlan x) true 0) id 4 (rrdCourse x bs) (rrdPut id x) y →
           ends (y.soFinish id x.tail.ct x.len)))) ∧
     (sentWhen → exec (.timeout id) s = .next (if r.tmo ≠ 0 ∧ t0 + 65536 * r.tmo ≤ s.refTick.toNat
       then (s.soEnd id 15 0).soComplete id else s)) ∧
     (sentWhen → exec (.peerdown id) s = .next (if s.peerLost vf c.peer = true ∨ (s.peerFenced vf c.peer = true ∧
       t0 + 1000000 ≤ s.refTick.toNat) then (s.soEnd id 16 0).soComplete id else s)) ∧
     (∀ k t, sentWhen → s.peerFenced vf c.peer = false → c.resend.find? (fun e => e.1 == seg) = some (k, t) →
       let raddr := match i with | .rwr x => x.raddr.toNat | _ => 0
       exec (.retransmit id seg) s = .next (if s.refTick.toNat < t + 10000 then s else
         { (s.updCmd id 4 fun c => { c with resend := c.resend.erase (k, t) }).soCharge id (segPayload c seg) with
           outbox := s.outbox ++ [.segment (s.peerFep vf c.peer) (fieldOf ((s.vf vf).peers.get 0 c.peer).toNat 24 24) c.msg
             seg i (segBytes raddr c.payload seg)] })) ∧
     (∀ st n, st ≠ 0 → c.sent = some t0 → s.peerFenced vf c.peer = false → s.soEnd id st n =
       ({ s with outbox := s.outbox ++ [.close (s.peerFep vf c.peer) c.msg] } : State).cmdEnd id 4 st n) ∧
     (∀ n, s.soEnd id 0 n = s.cmdEnd id 4 0 n)) ∧
  (∀ (s : State) (id vf peer n : Nat) (a v : W64) (ws : List W64),
     let tk : Acc := ⟨.glob, a.toNat, 8, true⟩
     s.soFinish id none n = s.soEnd id 0 n ∧
     (∀ ia, s.toIa (s.cmdVf id) a.toNat 8 = .ia ia →
       (a.toNat % 8 ≠ 0 → s.soFinish id (some (a, v)) n = s.soEnd id 4 0) ∧
       (a.toNat % 8 = 0 → s.accWaits id 4 tk = false →
         (∀ y, s.xlat (s.cmdVf id) a.toNat 8 true = .ok y → s.soFinish id (some (a, v)) n =
           ((s.tokenAdd noCluster y v.toNat).chargeMove id 4 true none tk).soEnd id 0 n) ∧
         (∀ sub ja, s.xlat (s.cmdVf id) a.toNat 8 true = .page sub ja →
           s.soFinish id (some (a, v)) n = s.cmdPage id 4 sub a.toNat ja) ∧
         (∀ pa, s.xlat (s.cmdVf id) a.toNat 8 true = .mcheck pa → s.soFinish id (some (a, v)) n = s.soEnd id 7 0))) ∧
     ((∀ ia, s.toIa (s.cmdVf id) a.toNat 8 ≠ .ia ia) → s.soFinish id (some (a, v)) n = s.soEnd id 3 0) ∧
     (s.peerLost vf peer = true ↔ ∀ k, k < 8 → fieldOf ((s.vf vf).peers.get 0 peer).toNat 54 8 / 2 ^ k % 2 = 1 →
       (∃ t, s.ports.get none k = some t ∧ t + 1000000 ≤ s.refTick.toNat) ∨
       ∃ t, (s.vf vf).unreached.get none (8 * peer + k) = some t ∧ t + 1000000 ≤ s.refTick.toNat) ∧
     (let f := s.fired.get Fired.empty id
      (decodeCmd 4 ws = none → s.fireBlock id ws = s.postFault id) ∧
      (∀ i, decodeCmd 4 ws = some i →
        (s.mayFire f.vf f.rk i = false → s.fireBlock id ws = s.postFault id) ∧
        (s.mayFire f.vf f.rk i = true → s.fireBlock id ws =
          s.updCmd id 4 fun c => { c with instr := some i, waiting := (waitOf i).isSome })) ∧
      (∀ i r e, remTail i = some r → r.wt = some e ∨ r.ct = some e → e.1.toNat % 8 ≠ 0 ∨
        (∀ ia, s.toIa f.vf e.1.toNat 8 ≠ .ia ia) → s.mayFire f.vf f.rk i = false))) ∧
  (∀ (s : State) (dst vf idx : Nat) (x : InSeg),
     (s.fepVf dst = none → exec (.inboundSegment dst x.src x.ord x.part) s = .next s) ∧
     (s.fepVf dst = some vf →
       (s.srcFenced vf x.src = true ∨ ((s.vf vf).inMsg x.src x.msg).closed = true →
         exec (.inboundSegment dst x.src x.ord x.part) s = .next s) ∧
       (s.srcFenced vf x.src = false → ((s.vf vf).inMsg x.src x.msg).closed = false →
         (s.inEntry vf x = none → exec (.inboundSegment dst x.src x.ord x.part) s =
           .next (((s.chargeIn vf x.body).updVf vf fun v => { v with stalls := v.stalls ++ [freshSeg x] }).inRun vf x)) ∧
         (∀ e, s.inEntry vf x = some e →
           (e.gone = true → exec (.inboundSegment dst x.src x.ord x.part) s = .next (((s.chargeIn vf x.body).updIn vf x fun e =>
             { e with gone := false, recid := none }).inRun vf x)) ∧
           (e.gone = false → e.recid ≠ none → exec (.inboundSegment dst x.src x.ord x.part) s = .next s) ∧
           (e.gone = false → e.recid = none → exec (.inboundSegment dst x.src x.ord x.part) s = .next (s.inRun vf x))))) ∧
     (∀ e, s.srcFenced vf e.seg.src = true ∨ (s.vf vf).inBlocked e.seg = true → s.inTry vf e = s) ∧
     (∀ e, s.srcFenced vf e.seg.src = false → (s.vf vf).inBlocked e.seg = false →
       (s.inDone vf e.seg = true → s.inTry vf e = s.inFinish vf e.seg) ∧
       (s.inDone vf e.seg = false → e.made = 0 → ∀ u, s.inRefused vf e.seg = some u → s.inTry vf e = u) ∧
       (s.inDone vf e.seg = false → e.made = 0 → s.inRefused vf e.seg = none → s.pace = none →
         ∀ u, inSteps vf e.seg (inAccs e.seg.body) (inAccs e.seg.body).length (s.holdGrains vf e.seg) = .done u →
         s.inTry vf e = u.inFinish vf e.seg)) ∧
     (∀ va n, inRange x.body = some (va, n) → (∀ ia, s.toIa vf va n ≠ .ia ia) →
       s.inRefused vf x = some (s.inOver vf x 13 [])) ∧
     (∀ a ia, s.toIa vf a.addr a.n = .ia ia →
       (∀ sub ja, s.translateIa (s.vf vf).part ia a.n a.write = .page sub ja →
         s.inStep vf x a = .stay (s.inPage vf x sub a.addr ja)) ∧
       (∀ y, s.translateIa (s.vf vf).part ia a.n a.write = .ok y →
         (∀ p ∈ y.pas, s.inRefresh (64 * (p / 64)) = false ∧ s.lineHeld (p / 64) = false ∧ s.lostPa p = false) →
         let u := s.charge 480 vf (inCost x.body (((s.inEntry vf x).getD (freshSeg x)).made == 0) a)
         (∀ va bs tag, x.body = .write va bs tag → s.inStep vf x a =
           .go ((u.homeWriteX y ((bs.drop (a.addr - va.toNat)).take a.n)).madeIn vf x [] [])) ∧
         (∀ va n, x.body = .read va n → s.inStep vf x a = .go (u.madeIn vf x (u.loadX y) [])) ∧
         (∀ va w tag, x.body = .signal va w tag →
           s.inStep vf x a = .go ((u.tokenAdd noCluster y w.toNat).madeIn vf x [] [])))) ∧
     (∀ mtag, let u := s.updVf vf fun v => v.updMsg x.src x.msg fun m =>
         { m with done := if m.done.contains x.seg then m.done else m.done ++ [x.seg] }
       let m := (u.vf vf).inMsg x.src x.msg
       (mtag = 0 ∨ m.done.length < x.count ∨ m.arrived = true → s.inArrive vf x mtag = u.inOver vf x 0 []) ∧
       (mtag ≠ 0 → x.count ≤ m.done.length → m.arrived = false →
         (u.arrive vf mtag = none → s.inArrive vf x mtag = (u.dropIn vf x).askAgain vf x) ∧
         (∀ y, u.arrive vf mtag = some y → s.inArrive vf x mtag = (y.updVf vf fun v =>
           v.updMsg x.src x.msg fun m => { m with arrived := true }).inOver vf x 0 [])) ∧
       ((∀ p ∈ (s.vf vf).posts, p.mtag ≠ mtag) →
         (1024 ≤ (s.vf vf).unexpected.length → s.arrive vf mtag = none) ∧
         ((s.vf vf).unexpected.length < 1024 → s.arrive vf mtag =
           some (s.updVf vf fun v => { v with unexpected := v.unexpected ++ [mtag] })))) ∧
     (∀ e, (s.vf vf).stalls[idx]? = some e →
       (e.left ≠ 0 ∨ e.recid = none ∨ e.gone = true → exec (.inboundStallTimeout vf idx) s = .next s) ∧
       (e.left = 0 → e.recid ≠ none → e.gone = false → exec (.inboundStallTimeout vf idx) s =
         .next (((s.updIn vf e.seg fun e =>
           { e with gone := true, made := 0, got := [], holds := [], lines := [] }).askAgain vf e.seg).inNext
             vf e.seg.src))))

/-! ## Waybills, launches and fares -/

/-- R346, R347: WAYBILL_MERGE and the age limit merge the deltas they name, one by one; a merge whose record is mapped and
valid is one home write of the record of R347, and the delta goes. -/
def Obligations.WaybillMerges : Prop :=
  ∀ (s : State) (die vf idx : Nat),
    exec (.waybillMerge die vf idx) s = .next (s.mergeWhere die fun d => d.vf == vf && d.idx == idx) ∧
    exec (.waybillAgeExpiry die vf idx) s = .next (s.mergeWhere die fun d =>
      d.isFor vf idx && decide (d.age + 32768 ≤ s.refTick.toNat)) ∧
    (∀ d x, let u := s.updDie die fun k => { k with deltas := k.deltas.filter fun e => !e.isFor vf idx }
      (s.die die).deltas.filter (fun e => e.isFor vf idx) = [d] →
      u.xlat vf ((u.vf vf).wbVa idx) 128 true = .ok x → recValid (u.loadX x) = true →
      exec (.waybillMerge die vf idx) s = .next (u.homeWriteX x (mergedRecord (u.loadX x) d))) ∧
    (∀ (bs : List Byte) (d : Delta), bs.length = 128 →
      let r := mergedRecord bs d
      r.length = 128 ∧ recField r 0 4 = Nat.max (recField bs 0 4) d.amax.toNat ∧
      recField r 8 8 = Nat.min (recField bs 8 8 + d.count) (2 ^ 64 - 1) ∧
      recField r 16 4 = (recField bs 16 8 + 1) % 2 ^ 32 ∧ recValid r = true ∧
      ∀ b, b < 32 → recField r (24 + 3 * b) 3 = Nat.min (recField bs (24 + 3 * b) 3 + d.bins.get 0 b) 0xFFFFFF)

/-- R195, R373 to R377, R389: a launch message is answered with the handle of its launch or with the code that refuses it;
a waiting launch becomes ready once its dependences hold. That a record at an address that is no multiple of 256, on a lost
line, or otherwise not readable has code 1, and that the answer comes in the same step, is the model's reading (logs 50
and 62). -/
def Obligations.LaunchAdmission : Prop :=
  ∀ (s : State) (vf lid : Nat) (a : W64),
    let r := s.enqueue vf a.toNat none
    exec (.launchMessage vf a) s = .next { r.2 with outbox := r.2.outbox ++
      [.launchAnswer vf (r.1.toNat / 2 ^ 32) (r.1.toNat % 2 ^ 16)] } ∧
    (a.toNat % 256 ≠ 0 ∨ s.distRead vf a.toNat 256 = none → r = (handle 0 1, s)) ∧
    (∀ bs, a.toNat % 256 = 0 → s.distRead vf a.toNat 256 = some bs →
      let l0 : Launch := { Launch.empty with record := byteMap bs, vf := vf }
      let h := s.distRead vf l0.khdr 64
      let l : Launch := { l0 with header := byteMap (h.getD []) }
      (s.refusal vf l h.isSome = 0 → r = (handle s.nextLid 0,
        { s with launches := s.launches.put s.nextLid l, nextLid := s.nextLid + 1 })) ∧
      (s.refusal vf l h.isSome ≠ 0 → r = (handle 0 (s.refusal vf l h.isSome), s))) ∧
    (let ready := if (s.launch lid).phase = .waiting ∧ s.depsHold (s.launch lid) = true
       then s.updLaunch lid fun l => { l with phase := .ready } else s
     exec (.depTokenRetry lid) s = .next ready ∧ exec (.launchReady lid) s = .next (ready.makeRoom lid)) ∧
    (s.lowerTeams lid = [] → s.makeRoom lid = s)

/-- R19, R42, R94, R124, R147, R152, R168, R203: a dispatch that the distributor may make puts the team on the core; at
its first dispatch every role starts at its entry, with registers of zero, all lanes live and its own seed.
R346, R380: a team that resumes on another die does not issue while a delta of the old one waits for its merge; the dies
of a launch that has teams change at a relay point alone. That a launch whose dies nothing has chosen takes those of
`chooseDies` at its first dispatch is the model's choice (log 55). -/
def Obligations.TeamDispatch : Prop :=
  ∀ (s : State) (tk core : Nat) (dps : List Nat),
    let lid := lidOf tk
    let l := s.launch lid
    (s.mayDispatch tk = false ∨ s.placeFits lid core dps = false →
      exec (.teamDispatch tk core dps) s = .next s) ∧
    (s.mayDispatch tk = true → s.placeFits lid core dps = true → l.coPending = false →
      exec (.teamDispatch tk core dps) s = .next ((s.chooseDies lid (dieOf core)).dispatchTeam tk core dps) ∧
      (s.teams.has tk = false → dps.length ≤ 8 → (∀ j, j < 8 → s.hasRole (roleKey tk j) = false) →
        ∃ t, exec (.teamDispatch tk core dps) s = .next t ∧ (t.team tk).phase = .running ∧
          (t.team tk).core = core ∧ (t.team tk).txOpen = l.flag 0 ∧ (t.team tk).scratch = [] ∧
          (t.team tk).nroles = l.nroles ∧ t.hbm = s.hbm ∧ t.dirty = s.dirty ∧
          ∀ j, j < dps.length → let r := t.role (roleKey tk j)
            r.pc = BitVec.ofNat 64 (l.khdr + 64 + 4 * fieldOf (l.roleEntry j) 0 16) ∧ r.sregs = [] ∧
            r.dp = dps.getD j 0 ∧ r.lanes.regs = [] ∧ r.lanes.base = r.lanes.slots ∧ r.blocks = [] ∧
            r.lanes.groups = l.groups j ∧ r.lanes.budget = l.budget j ∧ r.stopped = none ∧
            r.lanes.rng = seedOf (BitVec.ofNat 32 (l.fld 40 4) ^^^ BitVec.ofNat 32 ((tk % 2 ^ 60) * 16 + j)))) ∧
    ((s.team tk).phase = .preempted ∨ (s.team tk).phase = .swappedOut →
      let u := s.settleVf l.vf
      let m := u.mergeWhere (dieOf (s.team tk).core) fun d => d.vf == l.vf
      s.dispatchTeam tk core dps =
        if dieOf (s.team tk).core = dieOf core then u.resumeTeam tk core dps
        else if m.noneHeldOn (dieOf (s.team tk).core) l.vf = true then m.resumeTeam tk core dps else m) ∧
    (∀ dies teams, s.diesOk lid dies = true → s.launches.has lid = true →
      (l.dies = [] → s.setDies lid dies teams = s.updLaunch lid fun l => { l with dies := dies }) ∧
      (l.dies ≠ [] → s.stageDone lid = false → s.setDies lid dies teams = s))

/-- R170, R218, R378 to R380, R386, R389: a team retires once its roles have finished and their commands have completed; a
launch completes once every team has retired and its waybills are merged, a stage once every role has arrived, and a
launch that has lost teams fails, with a FAILED record for each team that it kills.
R336, R378, R415: the completion token is added to before the launch is complete; an add that meets a page fault or a lost
line waits for the answer to its record. In a gang launch the chips tell each other up to which stage their teams have
arrived, and a stage is complete once every participant's have.
R385, R386: recovery from a fault that affects teams of the launch aborts open transactions, restarts a RESTART launch, and
kills the affected teams of any other. Which teams are affected, and the record of a killed team with the free code
Config.failedCode, are the model's reading (log 26), the messages of stages its choice (log 27). -/
def Obligations.LaunchEnds : Prop :=
  ∀ (s : State) (tk lid : Nat),
    let l := s.launch lid
    (s.canRetire tk = false → exec (.teamRetire tk) s = .next s) ∧
    (s.canRetire tk = true → ∃ t, exec (.teamRetire tk) s = .next t ∧ (t.team tk).phase = .retired ∧
      (t.launch (lidOf tk)).retired = (s.launch (lidOf tk)).retired + 1 ∧
      (∀ j, j < 8 → t.hasRole (roleKey tk j) = false) ∧ t.hbm = s.hbm ∧ t.dirty = s.dirty) ∧
    (let s0 := s.spreadShare lid
     let k := s0.launch lid
     let s1 := ((s0.tellStage lid stagesAll).mergeAll k.vf).updLaunch lid fun l => { l with phase := .merged }
     (k.underWay = true → k.allRetired = true → k.waitRec = none → s1.noneHeld k.vf = true →
       exec (.launchComplete lid) s = .next (s1.doneAdd lid) ∧
       ((s1.launch lid).fld 208 8 = 0 → ∃ t, exec (.launchComplete lid) s = .next t ∧
         (t.launch lid).phase = .complete ∧ t.outbox = s1.outbox ++ [.launchDone (s1.launch lid).vf lid false])) ∧
     (k.underWay = false ∨ k.allRetired = false → k.phase ≠ .merged → exec (.launchComplete lid) s = .next s0)) ∧
    (l.phase = .running → l.underWay = true) ∧
    (l.fld 208 8 ≠ 0 → l.dropped = false →
      (∀ x, s.xlat l.vf (l.fld 208 8) 8 true = .ok x → s.doneAdd lid =
        ((s.tokenAdd noCluster x (l.fld 216 8)).chargeAdd l.vf).finishLaunch lid false) ∧
      (∀ sub ia, s.xlat l.vf (l.fld 208 8) 8 true = .page sub ia →
        ((s.doneAdd lid).launch lid).waitRec = some (s.nextRec % 2 ^ 32) ∧ ((s.doneAdd lid).launch lid).phase = l.phase ∧
        ∃ f ∈ ((s.doneAdd lid).vf l.vf).recs, fieldAt f.bytes 0 2 = codeNum .page ∧ f.recid = s.nextRec % 2 ^ 32) ∧
      (∀ pa, s.xlat l.vf (l.fld 208 8) 8 true = .mcheck pa →
        ((s.doneAdd lid).launch lid).waitRec = some (s.nextRec % 2 ^ 32) ∧
        ∃ f ∈ ((s.doneAdd lid).vf l.vf).recs, fieldAt f.bytes 0 2 = codeNum .mcheck ∧ f.recid = s.nextRec % 2 ^ 32)) ∧
    (let s0 := if s.stageHere lid = true then s.tellStage lid (l.stage + 1) else s
     (s0.stageDone lid = false → exec (.stageComplete lid) s = .next s0) ∧
     (s0.stageDone lid = true → (s0.mergeAll (s0.launch lid).vf).noneHeld (s0.launch lid).vf = true →
       ∃ t, exec (.stageComplete lid) s = .next t ∧
         (t.launch lid).stage = ((s0.mergeAll (s0.launch lid).vf).launch lid).stage + 1)) ∧
    (l.share = none → s.spreadShare lid = s ∧ ∀ n, s.tellStage lid n = s) ∧
    (∀ g, l.share = some g → s.stageDone lid = true →
      s.stageHere lid = true ∧ g.decided = true ∧ ∀ c ∈ g.parts, c ≠ g.rank → l.stage < g.stages.get 0 c) ∧
    (s.affected lid ≠ [] → l.open_ = true →
      let u := if l.flag 0 = true then
          ((s.launchTeams lid).filter fun e => e.2.resident && e.2.abortable).foldl (fun u e => u.abortTeam e.1 4) s
        else if l.flag 2 = true then
          ((s.launchTeams lid).filter fun e => e.2.live && e.2.phase != .queued).foldl (fun u e => u.restartTeam e.1) s
        else (s.affected lid).foldl State.failTeam s
      exec (.failed lid) s = .next (if (u.launch lid).spent = true then (u.writeResmap lid).finishLaunch lid true else u)) ∧
    (l.spent = true → s.affected lid = [] → exec (.failed lid) s = .next ((s.writeResmap lid).finishLaunch lid true)) ∧
    (l.spent = false → s.affected lid = [] → exec (.failed lid) s = .next s) ∧
    (∃ f ∈ ((s.failTeam tk).vf (s.launch (lidOf tk)).vf).recs, fieldAt f.bytes 0 2 = codeNum .failed ∧
      fieldAt f.bytes 8 8 = tk % 2 ^ 60 ∧ f.recid = s.nextRec % 2 ^ 32) ∧
    ((s.team tk).phase ≠ .pinned → ((s.failTeam tk).team tk).phase = .killed)

/-- R382 to R384, R395: charges and postings. A charge enters the meter of its core with the core's correction; a meter posts
its whole pJ, a shared cost is posted at the end of its interval, and FAREADD adds what is written; a positive balance ends
the exhaustion. R382: a VF's shared cost is its part of the refresh cost by the 64 KiB pages it owns, and of the static
cost of each core by its ref ticks there. That a meter keeps the sixteenths that are left, the counts of stays, and the
account of the overhead are the model's choice (log 12). -/
def Obligations.Fares : Prop :=
  ∀ (s : State) (core vf tk nominal : Nat) (u : W64),
    (let t := s.charge core vf nominal
     (t.core core).meter.get 0 vf = (s.core core).meter.get 0 vf + nominal * (s.core core).fareFactor / 1000 ∧
     (∀ k, k ≠ vf → (t.core core).meter.get 0 k = (s.core core).meter.get 0 k) ∧
     (∀ k, k ≠ core → t.core k = s.core k) ∧ t.roles = s.roles ∧ t.vfs = s.vfs ∧ t.hbm = s.hbm) ∧
    (let t := s.chargeTeam tk nominal
     let c := (s.team tk).core
     let v := (s.launch (lidOf tk)).vf
     (t.core c).meter.get 0 v = (s.core c).meter.get 0 v + nominal * (s.core c).fareFactor / 1000 ∧
     (t.team tk).fare = (s.team tk).fare + nominal * (s.core c).fareFactor / 1000) ∧
    (s.refTick.toNat % 256 ≠ 0 → exec (.farePost core) s = .next s) ∧
    (s.refTick.toNat % 256 = 0 → exec (.farePost core) s =
      .next (((s.core core).meter.keys.foldl (fun t v => t.postMeter core v) s).settle)) ∧
    ((s.core core).meter.has vf = true → let n := (s.core core).meter.get 0 vf
      let t := s.postMeter core vf
      (t.vf vf).fareBal = (s.vf vf).fareBal - BitVec.ofNat 64 (n / 16) ∧
      (t.vf vf).fareTot = (s.vf vf).fareTot + BitVec.ofNat 64 (n / 16) ∧
      (t.core core).meter.get 0 vf = n % 16 ∧
      (t.vf vf).exhausted = ((s.vf vf).exhausted || decide ((t.vf vf).fareBal.toInt ≤ 0))) ∧
    (s.refTick.toNat = 0 ∨ s.refTick.toNat % 1000000 ≠ 0 → exec .sharedFarePost s = .next s) ∧
    (s.refTick.toNat ≠ 0 → s.refTick.toNat % 1000000 = 0 → let t := s.vfs.keys.foldl State.postShared s
      let u := t.parts.keys.foldl (fun u k => u.updPart k fun p =>
        { p with overhead := p.overhead + Config.overheadFare k s.free }) t
      let w := u.cores.keys.foldl (fun u k => u.updCore k fun c => { c with stay := [] }) u
      exec .sharedFarePost s = .next { w with free := w.free + 1 }.settle) ∧
    (let part := (s.vf vf).part
     s.sharedCost vf = Config.refreshFare part s.free * s.ownedPages vf / Nat.max 1 (s.pagesOwned part) +
       (s.cores.map fun e => Config.staticFare e.1 s.free * e.2.stay.get 0 vf / Nat.max 1 (e.2.stay.map Prod.snd).sum).sum) ∧
    (let n := BitVec.ofNat 64 (s.sharedCost vf)
     let t := s.postShared vf
     (t.vf vf).fareBal = (s.vf vf).fareBal - n ∧ (t.vf vf).fareTot = (s.vf vf).fareTot + n ∧
     (t.vf vf).fareSh = (s.vf vf).fareSh + n ∧ t.roles = s.roles ∧ t.hbm = s.hbm) ∧
    (∃ t, exec (.fareadd vf u) s = .next t ∧ (t.vf vf).fareBal = (s.vf vf).fareBal + u ∧
      (t.vf vf).exhausted = ((s.vf vf).exhausted && decide ((t.vf vf).fareBal.toInt ≤ 0)) ∧
      (∀ k, k ≠ vf → t.vf k = s.vf k) ∧ t.roles = s.roles ∧ t.hbm = s.hbm)

/-! ## System software -/

/-- R165, R216, R253, R254, R381: the requests of PREEMPT. GRACE withholds the VF's teams and requests their
pre-emption: a team without an open transaction leaves its core once its roles are quiet: the results of their LX words have
returned, and no access of theirs has been performed in part or waits for a refresh or for a command. ABORT aborts open
transactions first, KILL kills every live team, one at its commit point once it has committed (R258), RESUME lifts the
withholding. -/
def Obligations.PreemptionRequests : Prop :=
  ∀ (s : State) (vf tk : Nat),
    exec (.preemptGrace vf) s = .next ((s.updVf vf fun v => { v with withheld := true }).requestVf vf 5).settle ∧
    exec (.preemptResume vf) s = .next (s.updVf vf fun v => { v with withheld := false }) ∧
    (∃ t, exec (.preemptKillAll vf) s = .next t ∧
      (s.teams.has tk = true → (s.team tk).live = true → (s.launch (lidOf tk)).vf = vf →
        ((s.team tk).phase ≠ .pinned →
          (t.team tk).phase = .killed ∧ (∀ j, j < 8 → t.hasRole (roleKey tk j) = false)) ∧
        ((s.team tk).phase = .pinned → (t.team tk).phase = .pinned ∧ (t.team tk).doomed = true))) ∧
    (let s1 := s.updVf vf fun v => { v with withheld := true }
     exec (.preemptAbort vf) s = .next (((s1.vfTeams vf Team.abortable).foldl (fun t k => t.abortTeam k 5) s1).requestVf
       vf 5).settle) ∧
    (∀ (t : Team) (cause n : Nat) (ph : TeamPhase) (sw : Bool),
      (t.resident = false → t.request cause n ph sw = t) ∧
      (t.resident = true → t.txOpen = false → t.phase ≠ .pinned → t.suspend = none →
        t.request cause n ph sw = { t with suspend := some ph }) ∧
      (t.resident = true → t.txOpen = true ∨ t.phase = .pinned → t.grace = none →
        t.request cause n ph sw = { t with grace := some ⟨n, cause, sw⟩ })) ∧
    ((s.team tk).suspend = some .preempted → (s.team tk).resident = true →
      (s.lxQuiet tk = true ↔ ∀ rk ∈ s.rolesOf tk,
        (s.role rk).lxOut = 0 ∧ (s.role rk).part = [] ∧ s.laneBusy rk = false) ∧
      (s.lxQuiet tk = false → s.settleTeam tk = s) ∧
      (s.lxQuiet tk = true → (∀ rk ∈ s.rolesOf tk, (s.role rk).flight = []) →
        ((s.settleTeam tk).team tk).phase = .preempted ∧
        ((s.settleTeam tk).team tk).scratch = (s.team tk).scratch ∧
        ∀ rk ∈ s.rolesOf tk, ((s.settleTeam tk).role rk).pc = (s.role rk).pc ∧
          ((s.settleTeam tk).role rk).sregs = (s.role rk).sregs))

/-- R254, R258, R341, R344, R353, R416: the answers. A record that is in the ring and not yet answered is answered once:
RETRY lets what waits on it go on, KILL discards its team, with its unmerged waybill updates where a waybill access wrote
the record; a task that waits on it ends alone. Anything else does nothing. That after KILL a merge is made again without
the team's updates (log 37), that a task's record ends the task and not the team (log 56), and that a record still held
cannot be answered (log 57) are the model's readings. -/
def Obligations.Answers : Prop :=
  ∀ (s : State) (vf id tk : Nat) (r : FaultRec),
    (s.recOf vf id = none → exec (.answerRetry vf id) s = .next s ∧ exec (.answerKill vf id) s = .next s) ∧
    (s.recOf vf id = some r →
      exec (.answerRetry vf id) s = .next ((s.answer vf fun q => q.recid == id).retryAll vf r) ∧
      (let u := (s.answer vf fun q => q.recid == id).giveUp vf id
       (∀ rk, s.taskWaits id = some rk → exec (.answerKill vf id) s = .next (u.taskKill rk)) ∧
       (s.taskWaits id = none → r.byWaybill = false →
         (r.team = none → exec (.answerKill vf id) s = .next u) ∧
         (r.team = some tk → exec (.answerKill vf id) s = .next (u.killNamed vf tk))) ∧
       (s.taskWaits id = none → r.byWaybill = true → r.team = some tk → exec (.answerKill vf id) s =
         .next (((u.killNamed vf tk).dropUpdates tk).retryMerges id none)) ∧
       (s.taskWaits id = none → r.byWaybill = true → r.team = none →
         exec (.answerKill vf id) s = .next (u.dropMerges id)))) ∧
    ((s.team tk).phase = .pinned → s.killTeam tk = s.updTeam tk fun t => { t with doomed := true }) ∧
    (let t := s.killTeam tk
     (s.team tk).phase ≠ .pinned → (t.team tk).phase = .killed ∧ (t.team tk).scratch = [] ∧ (t.team tk).log = [] ∧ (t.team tk).txOpen = false ∧
     (∀ j, j < 8 → t.hasRole (roleKey tk j) = false) ∧ (∀ k, teamOf k ≠ tk → t.role k = s.role k) ∧
     (t.launch (lidOf tk)).killed = (s.launch (lidOf tk)).killed + 1 ∧ t.hbm = s.hbm ∧ t.dirty = s.dirty) ∧
    (∀ q : Role, ((q.retry id).stopped = if q.stopped = some id then none else q.stopped) ∧
      (q.retry id).pc = q.pc ∧ (q.retry id).sregs = q.sregs)

/-- R59, R300, R304, R309, R338, R342, R381, R391, R400: writes of the privileged windows keep the writable bits of their
register and change nothing else of the machine.
R307: while a context is busy, each access may use the new value of a range register or one that it had before; software
reads the new one. That each register has its old values (log 44), and that a write keeps the bits of the fields and no
others, the low 12 bits of HOSTWIN SIZE among those it clears (log 45), are the model's readings.
R6, R312, R336, R381, R392 to R394, R400, R406: the windows that act. ACCEPT takes a subset of OFFER with its base feature,
once, on a device whose firmware has been verified; a ring write lets held records out; POSTCLR frees posts; a spent key
index signs nothing; LOSTCLR zeroes an owned lost line; a translation goes, once the accesses that have begun with it are over; registers that are only written read 0. The layout of an attestation report is the model's (log 8). -/
def Obligations.WindowWrites : Prop :=
  (∀ (s : State) (vf part core : Nat) (n : Fin 8) (k : Fin 4) (p : Fin 64) (g : BitVec 16) (v : W64),
     let writes (r : WinReg) (t : State) : Prop := exec (.registerWrite r v) s = .next t
     let vfw (r : WinReg) (f : Vf → Vf) : Prop := writes r (s.updVf vf f)
     let range (isI : Bool) (w : W64) (q : Vf) : Vf :=
       let o := q.newSeg
       let m := if isI then (o.1, o.2.set 0 n.val w) else (o.1.set 0 n.val w, o.2)
       let old := if isI then o.2.get 0 n.val else o.1.get 0 n.val
       if s.vfBusy vf = true
       then { q with segAlt := some ⟨m.1, m.2, ((isI, n.val), old) :: (q.segAlt.map SegAlt.olds).getD []⟩ }
       else { q with segV := m.1, segI := m.2, segAlt := none }
     vfw (.segV vf n) (range false (v &&& 0x00FFFFFFFFFFFC0D)) ∧
     vfw (.segI vf n) (range true (v &&& 0x000FFFFFFFFF0000)) ∧
     s.readReg (.segV vf n) = (s.vf vf).newSeg.1.get 0 n.val ∧ s.readReg (.segI vf n) = (s.vf vf).newSeg.2.get 0 n.val ∧
     (∀ q : Vf, (q.segAlt = none → q.newSeg = (q.segV, q.segI) ∧ ∀ i, q.flipSeg i n.val v = q) ∧
       ∀ a, q.segAlt = some a → q.newSeg = (a.segV, a.segI) ∧
         (a.segV.get 0 n.val = v ∨ ((false, n.val), v) ∈ a.olds →
           q.flipSeg false n.val v = { q with segV := q.segV.set 0 n.val v }) ∧
         (a.segI.get 0 n.val = v ∨ ((true, n.val), v) ∈ a.olds →
           q.flipSeg true n.val v = { q with segI := q.segI.set 0 n.val v }) ∧
         (a.segV.get 0 n.val ≠ v → ((false, n.val), v) ∉ a.olds → q.flipSeg false n.val v = q) ∧
         (a.segI.get 0 n.val ≠ v → ((true, n.val), v) ∉ a.olds → q.flipSeg true n.val v = q)) ∧
     vfw (.wbtBase vf) (fun q => { q with wbtBase := v &&& 0x00FFFFFFFFFFF000 }) ∧
     vfw (.wbtCnt vf) (fun q => { q with wbtCnt := v &&& 0xFFFFFF }) ∧
     vfw (.vfPerf vf) (fun q => { q with vfPerf :=
       (if v.extractLsb' 48 16 = 0 then q.vfPerf.extractLsb' 48 16 else 0) ++ (0 : BitVec 44) ++ v.extractLsb' 0 4 }) ∧
     vfw (.hostWinBase vf k) (fun q => { q with hostBase := q.hostBase.set 0 k.val v }) ∧
     vfw (.hostWinSize vf k) (fun q => { q with hostSize := q.hostSize.set 0 k.val (v &&& 0xFFFFFFFFFFFFF000) }) ∧
     vfw (.peer vf p) (fun q => { q with peers := q.peers.set 0 p.val (v &&& 0xFFC0FFFFFFFFFFFF) }) ∧
     writes (.dieMap part g) (s.updPart part fun q =>
       { q with dieMap := q.dieMap.set 0 g.toNat (v &&& 0x000FFFFFFFFFF807) }) ∧
     writes (.errCnt k) (s.updDie k.val fun d => { d with errCnt := clearFields d.errCnt v errFields }) ∧
     writes (.regErr core) (s.updCore core fun c => { c with
       mchk := if v.extractLsb' 32 16 = 0 then c.mchk else 0
       repaired := if v.extractLsb' 0 32 = 0 then c.repaired else 0 })) ∧
  (∀ (s : State) (vf part : Nat) (v : W64) (fs : BitVec 128) (nonce : BitVec 256),
     (s.firmware = false ∨ s.acceptLocked = true ∨ fs &&& ~~~s.offer ≠ 0 ∨ fs.getLsbD 0 = false →
       exec (.accept fs) s = .next s) ∧
     (s.firmware = true → s.acceptLocked = false → fs &&& ~~~s.offer = 0 → fs.getLsbD 0 = true →
       exec (.accept fs) s = .next { s with accept := fs, acceptLocked := true }) ∧
     exec (.faultRingRegWrite vf .base v) s = .next ((s.updVf vf fun q => { q with frBase := v }).flushRecs vf) ∧
     exec (.faultRingRegWrite vf .size v) s = .next ((s.updVf vf fun q => { q with frSize := v }).flushRecs vf) ∧
     exec (.faultRingRegWrite vf .tail v) s = .next ((s.updVf vf fun q => { q with frTail := v }).flushRecs vf) ∧
     exec (.faultRingRegWrite vf .head v) s = .next (s.updVf vf fun q => { q with frHead := v }) ∧
     s.readWindow (.fareAdd vf) = 0 ∧ s.readWindow (.answer vf) = 0 ∧ s.readWindow (.preempt vf) = 0 ∧
     s.readWindow (.postClr vf) = 0 ∧ s.readWindow (.lostClr part) = 0 ∧
     exec (.postclr vf v) s = .next (s.updVf vf fun q => { q with
       posts := if v = BitVec.allOnes 64 then [] else q.posts.filter fun e => e.handle != v }) ∧
     (2 ^ 20 ≤ s.xmssIndex → exec (.attestationRequest vf nonce) s =
       .next { s with outbox := s.outbox ++ [.report 1 vf] }) ∧
     (s.xmssIndex < 2 ^ 20 → ∃ t, exec (.attestationRequest vf nonce) s = .next t ∧ t.xmssIndex = s.xmssIndex + 1 ∧
       (t.vf vf).report = s.reportBody (s.vf vf).part nonce ++ deviceIdentity ++
         xmssSign xmssHeight deviceKey s.xmssIndex (s.reportBody (s.vf vf).part nonce) ∧
       (s.reportBody (s.vf vf).part nonce).length = 184 ∧
       t.hbm = s.hbm ∧ t.roles = s.roles) ∧
     (∀ (image sign : List Byte),
       (s.acceptLocked = true → s.loadFirmware image sign = s) ∧
       (s.acceptLocked = false → s.loadFirmware image sign =
         { s with firmware := xmssVerify xmssHeight vendorKey image sign })) ∧
     ((∃ x ∈ s.begunXlats, x.part = part ∧ x.ia / 2 ^ 28 = v.toNat / 2 ^ 28) →
       exec (.translationInvalidate part v) s = .next s) ∧
     ((∀ x ∈ s.begunXlats, x.part = part → x.ia / 2 ^ 28 ≠ v.toNat / 2 ^ 28) →
       exec (.translationInvalidate part v) s = .next (s.dropTlb part v.toNat)) ∧
     (s.paOwned part v.toNat = false ∨ v.toNat / 64 ∉ (s.die (dieOfPa v.toNat)).lost →
       exec (.lostclr part v) s = .next s) ∧
     (s.paOwned part v.toNat = true → v.toNat / 64 ∈ (s.die (dieOfPa v.toNat)).lost →
       ∃ t, exec (.lostclr part v) s = .next t ∧ v.toNat / 64 ∉ (t.die (dieOfPa v.toNat)).lost ∧
         (∀ i, i < 64 → t.homeByte (v.toNat / 64 * 64 + i) = 0) ∧
         (∀ a, a / 64 ≠ v.toNat / 64 → t.homeByte a = s.homeByte a) ∧ t.dirty = s.dirty))

/-- R331 to R334: migration. A request is accepted for a leaf below 256 MiB that is not migrating, with an aligned
destination of the partition, while a record is free, and sets MIG of the leaf; a line moves to its new place once the
accesses of it that have begun are over, and the last one ends the migration; a stopped migration is resumed or reversed. -/
def Obligations.PageMigration : Prop :=
  ∀ (s : State) (part die idx : Nat) (ia dst : W64) (p : PageT) (m : Migration),
    (∀ e pa, s.tableWalk part ia.toNat false = .fault e ∨ s.tableWalk part ia.toNat false = .lost pa →
      exec (.migrate part ia dst) s = .next (s.migAnswer part .refused)) ∧
    (s.tableWalk part ia.toNat false = .page p → idx < 16 →
      (List.range 16).find? (fun n => !(s.die (s.regionDie part ia.toNat)).migs.has n) = some idx →
      exec (.migrate part ia dst) s = .next (
        if p.size ≠ 2 ^ 28 ∧ bitOf (s.homeWord p.leafAt) 3 = false ∧ dst.toNat % p.size = 0 ∧
          s.paOwned part dst.toNat = true
        then ((s.setEntry p.leafAt (s.homeWord p.leafAt + 8)).setMig (s.regionDie part ia.toNat) idx
          ⟨part, BitVec.ofNat 64 p.iaBase, BitVec.ofNat 64 p.pa, dst, 0, false, false⟩).migAnswer part .accepted
        else s.migAnswer part .refused)) ∧
    (s.migAt die idx = none → exec (.migrateLineStep die idx) s = .next s ∧ exec (.migrateCancel die idx) s = .next s ∧
      exec (.migrateResume die idx) s = .next s ∧ exec (.migrateReverse die idx) s = .next s) ∧
    (s.migAt die idx = some m → m.stopped = false →
      exec (.migrateCancel die idx) s = .next (s.fallBack die idx m) ∧
      exec (.migrateResume die idx) s = .next s ∧ exec (.migrateReverse die idx) s = .next s ∧
      (s.migLeaf m = some p → m.reversing = false → s.lineBusy (m.src.toNat + 64 * m.cursor) = true →
        exec (.migrateLineStep die idx) s = .next s) ∧
      (s.migLeaf m = some p → m.reversing = false → s.lineBusy (m.src.toNat + 64 * m.cursor) = false → s.migBlocked die (m.dst.toNat + 64 * m.cursor) = false →
        (m.cursor = 0 → s.depotHolds m = false) →
        let s1 := s.moveLine m m.cursor (m.src.toNat + 64 * m.cursor) (m.dst.toNat + 64 * m.cursor)
        let m1 : Migration := { m with cursor := m.cursor + 1 }
        exec (.migrateLineStep die idx) s = .next (if m.cursor + 1 < p.size / 64 then s1.setMig die idx m1
          else s1.migDone die idx m1 m.dst.toNat))) ∧
    (s.migAt die idx = some m → m.stopped = true →
      exec (.migrateCancel die idx) s = .next s ∧ exec (.migrateLineStep die idx) s = .next s ∧
      exec (.migrateResume die idx) s = .next (s.setMig die idx { m with stopped := false, reversing := false }) ∧
      exec (.migrateReverse die idx) s = .next (s.setMig die idx { m with stopped := false, reversing := true })) ∧
    (∀ i src at_, s.lostPa src = false → (s.die (dieOfPa src)).lost.contains (src / 64) = false →
      ∀ k, k < 64 → (s.moveLine m i src at_).homeByte (at_ + k) =
        (s.recallGrain (grainKey (lineKey m.part (m.ia.toNat + 64 * i)))).homeByte (src + k))

/-- R387, R411 to R415: gang launches. The coordinator arms its share and sends ARM, a chip answers ARMOK with its code
and its grid; once every chip has answered the gang goes or is refused; GO starts a chip's share, the last GOACK makes the
gang run, one that comes after the window counts no more, and at the end of the window the silent chips are fenced; a chip
that hears of the fence has no more traffic with them and, if the launch goes on, takes their teams over with the others: a
launch without stages once every participant has dispatched its own share. The numbers of gangs, and the messages with
which the chips of a gang tell each other how far they are, are the model's (log 27). -/
def Obligations.GangEvents : Prop :=
  ∀ (s : State) (vf gang rank nchip code : Nat) (grid : Nat × Nat × Nat) (a : W64),
    let g := s.gang gang
    (s.gangDesc vf a.toNat = none → exec (.gangLaunchMessage vf a) s = .next (s.gangAnswer vf 0 1)) ∧
    (∀ d, s.gangDesc vf a.toNat = some d →
      let r := s.armShare vf (d.chips.headD (0, 0)).1 s.gangs.length 0 d.nchip
      ∃ t, exec (.gangLaunchMessage vf a) s = .next t ∧ t.launches = r.2.launches ∧
        (t.gang s.gangs.length).phase = .arming ∧ (t.gang s.gangs.length).answers = [(0, r.1)] ∧
        (t.gang s.gangs.length).nchip = d.nchip ∧ t.outbox = r.2.outbox ++ (List.range d.nchip).tail.map fun c =>
          .gang s.gangs.length c (.arm (BitVec.ofNat 64 (d.chips.getD c (0, 0)).1))) ∧
    (let r := s.armShare vf a.toNat gang rank nchip
     exec (.arm vf gang rank nchip a) s = .next (r.2.sendGang gang rank (.armok r.1.1 r.1.2))) ∧
    (g.phase ≠ .arming → exec (.armok gang rank code grid) s = .next s) ∧
    (g.phase = .arming → rank < g.nchip → g.answers.has rank = false →
      let s1 := s.updGang gang fun g => { g with answers := g.answers.put rank (code, grid) }
      let n := (s1.gang gang).answers.length
      (n < g.nchip → exec (.armok gang rank code grid) s = .next s1) ∧
      (g.nchip ≤ n → exec (.armok gang rank code grid) s = .next (if (s1.gang gang).refusal = 0 then s1.goGang gang
        else s1.refuseGang gang (s1.gang gang).refusal))) ∧
    (s.shareOf gang false = none → exec (.go gang) s = .next s ∧ exec (.fenceKill gang) s = .next s) ∧
    (∀ lid h, s.shareOf gang false = some lid → (s.launch lid).share = some h →
      (h.started = true → exec (.go gang) s = .next s) ∧
      (h.started = false → ∃ t, exec (.go gang) s = .next t ∧ (t.launch lid).share = some { h with started := true } ∧
        t.outbox = s.outbox ++ [.gang gang h.rank .goack] ∧ t.teams = s.teams ∧ t.hbm = s.hbm)) ∧
    (∀ lid, s.shareOf gang false = some lid → ∃ t, exec (.fenceKill gang) s = .next t ∧ (t.launch lid).phase = .failed) ∧
    (g.phase = .going → g.window ≠ some 0 → rank < g.nchip → rank ∉ g.acks → ∃ t, exec (.goack gang rank) s = .next t ∧
      (t.gang gang).acks = g.acks ++ [rank] ∧
      (t.gang gang).phase = if g.acks.length + 1 = g.nchip then .running else .going) ∧
    (g.phase ≠ .going ∨ g.window = some 0 → exec (.goack gang rank) s = .next s) ∧
    (g.phase ≠ .going ∨ g.window ≠ some 0 → exec (.goWindowExpire gang) s = .next s) ∧
    (g.phase = .going → g.window = some 0 → exec (.goWindowExpire gang) s = .next (if g.minchip ≤ g.present.length
      then (s.fenceGang gang).carryOn gang else (s.fenceGang gang).failGang gang)) ∧
    (∀ lid h ranks peers, s.shareOf gang false = some lid → (s.launch lid).share = some h →
      let l := s.launch lid
      let parts := (List.range h.nchip).filter fun c => !ranks.contains c
      let k : GangShare := { h with fenced := ranks, parts := parts, decided := true }
      let t := s.fenceShare gang ranks peers true
      (t.vf l.vf).fenced = (s.vf l.vf).fenced ++ peers ∧ t.teams = s.teams ∧
      (k.started = false ∨ ranks = [] ∨ l.flag 3 = true ∨ l.next < l.ownTeams → (t.launch lid).share = some k) ∧
      (k.started = true → ranks ≠ [] → l.flag 3 = false → l.ownTeams ≤ l.next →
        (t.launch lid).share = some { k with
          toldSpread := true, takeover := k.takeover || (parts.filter fun c => c != k.rank).all k.spread.contains } ∧
        (k.toldSpread = false → t.outbox = s.outbox ++ (parts.filter fun c => c != k.rank).map fun c => .gang h.gang c .spread))) ∧
    (∀ lid h n, s.shareOf gang false = some lid → (s.launch lid).share = some h →
      ∃ k, ((s.peerShare gang false rank (some n)).launch lid).share = some k ∧
        k.stages.get 0 rank = Nat.max (h.stages.get 0 rank) (n + 1) ∧ ∀ c, c ≠ rank → k.stages.get 0 c = h.stages.get 0 c)

/-! ## The package -/

/-- R303, R335, R336, R338, R360, R361, R393, R399: the events of the package. PACKAGE_RESET clears all that is running,
keeps the part's fuses and the index of the next signature, and computes the first LEVEL; stacks report their
temperature and refresh; a refresh lasts 350 ref ticks, and what is due at a ref tick takes place as it comes and goes; a
transfer that waits for a refresh counts once; a corrected error is counted and an uncorrectable line is lost; a link on
which a flit has failed with its 16 retries is down (log 28). That home memory reads 0 after PACKAGE_RESET is the model's
choice (log 6), and which fields it keeps and clears its reading (log 59).
R61, R65, R79, R354: a word that names no instruction is ILLEGAL in either stream, and ends a row. -/
def Obligations.PackageEvents : Prop :=
  (∀ (s : State) (die stack pch link : Nat) (temp : Byte) (port : Fin 8) (pa : W64),
     let j := 3 * die + stack
     let k := s.stk j
     let now := s.refTick.toNat
     (∃ t, exec .packageReset s = .next t ∧ t.launches = [] ∧ t.teams = [] ∧ t.roles = [] ∧ t.hbm = [] ∧ t.dirty = [] ∧
       t.vfs = [] ∧ t.dies = [] ∧ t.refTick = 0 ∧ t.accept = 0 ∧ t.acceptLocked = false ∧ t.offer = s.offer ∧
       t.xmssIndex = s.xmssIndex ∧ ∀ c, c < 32 → (t.cluster c).capCore = (s.cluster c).capCore) ∧
     (die < 4 → stack < 3 →
       (k.sampleDue s.refTick.toNat = true → exec (.hbmTempSample die stack temp) s =
         .next (s.updStk j fun k => { k.sample temp.toNat with sampled := some s.refTick.toNat })) ∧
       (k.sampleDue s.refTick.toNat = false → exec (.hbmTempSample die stack temp) s = .next s) ∧
       (∀ n, k.sampled = some n → n < s.refTick.toNat →
         (k.sampleDue s.refTick.toNat = true ↔ (s.refTick.toNat - n) % 1000 = 0)) ∧
       exec (.refreshPeriodSwitch die stack) s = .next (s.updStk j fun k => if now % 3900 = 0
         then { k with period := k.pendingPeriod.getD k.period, pendingPeriod := none } else k) ∧
       (pch < 64 → exec (.refreshStart die stack pch) s = .next (s.updStk j fun k =>
         if refreshTick now pch k.period = true then { k with refreshing := k.refreshing.set none pch (some now) } else k)) ∧
       (pch < 64 → exec (.refreshEnd die stack pch) s = .next (s.updStk j fun k => k.endRefresh now pch))) ∧
     (∀ t, k.refreshing.get none pch = some t →
       (now < t + 350 → k.endRefresh now pch = k) ∧
       (t + 350 ≤ now → let e := k.endRefresh now pch
         e.refreshing.get none pch = none ∧ e.temp = k.temp ∧ e.rstall = k.rstall ∧ e.period = k.period ∧
         (∀ w p, (w, p) ∈ e.delayed ↔ (w, p) ∈ k.delayed ∧ pchOf p % 64 ≠ pch))) ∧
     (k.refreshing.get none pch = none → k.endRefresh now pch = k) ∧
     (pch < 64 → (k.refresh now).refreshing.get none pch =
       if refreshTick now pch (k.switchPeriod now).period = true then some now
       else match k.refreshing.get none pch with
         | some t => if t + 350 ≤ now then none else some t
         | none => none) ∧
     (s.tick.refTick = s.refTick + 1 ∧ s.tick.hbm = s.hbm ∧ s.tick.dirty = s.dirty ∧
       (j < 12 → s.tick.stk j = (k.refresh now).refresh s.tick.refTick.toNat)) ∧
     (∀ w line, let n := pchOf (64 * line) / 64
       (s.inRefresh (64 * line) = true ↔ fieldOf (64 * line) 36 2 < 3 ∧
         ∃ t, (s.stk n).refreshing.get none (pchOf (64 * line) % 64) = some t ∧ now < t + 350) ∧
       (s.inRefresh (64 * line) = false → s.stallLine w line = s) ∧
       (s.inRefresh (64 * line) = true → (w, 64 * line) ∉ (s.stk n).delayed →
         let t := s.stallLine w line
         (t.stk n).rstall = ((s.stk n).rstall + 1) % 2 ^ 32 ∧ t.delays w = true ∧ t.stallLine w line = t ∧
         t.hbm = s.hbm ∧ t.roles = s.roles)) ∧
     (∀ n : Nat, (k.sample n).temp = n ∧ (k.sample n).maxt = Nat.max k.maxt n ∧
       (k.sample n).hot = decide ((if k.hot then 82 else 85) < n)) ∧
     (die < 4 → dieOfPa pa.toNat = die → pa.toNat < 2 ^ 40 → fieldOf pa.toNat 36 2 ≠ 3 →
       exec (.scrub die pa .clean) s = .next s ∧
       exec (.scrub die pa .corrected) s =
         .next (s.updDie die fun d => { d with errCnt := bumpErr d.errCnt 48 16 }) ∧
       (s.lostPa (64 * (pa.toNat / 64)) = false → (s.die die).lost.length < 512 → ∃ t,
         exec (.scrub die pa .uncorrectable) s = .next t ∧ pa.toNat / 64 ∈ (t.die die).lost ∧
         t.outbox = s.outbox ++ [.report 0 (64 * (pa.toNat / 64))] ∧ t.hbm = s.hbm)) ∧
     (link < 4 → s.linkDown.get false link = false → s.links.get 0 link + 1 < 17 →
       exec (.linkFlitError link) s = .next { s with links := s.links.set 0 link (s.links.get 0 link + 1) }) ∧
     (link < 4 → s.linkDown.get false link = false → 17 ≤ s.links.get 0 link + 1 →
       ∃ t, exec (.linkFlitError link) s = .next t ∧ t.linkDown.get false link = true) ∧
     (s.linkDown.get false link = true → exec (.linkFlitError link) s = .next s) ∧
     (let p : Option Nat := some ((s.ports.get none port.val).getD now)
      exec (.portDown port true) s = .next { s with ports := s.ports.set none port.val p }) ∧
     exec (.portDown port false) s = .next { s with ports := s.ports.set none port.val none }) ∧
  (∀ (s : State) (rk key : Nat),
     (s.cur = .scalar rk → exec .illegal s = .next (s.raise rk false .illegal 0 0 0 0)) ∧
     (s.cur = .lane rk → exec .illegal s = .next (s.raise rk true .illegal 0 0 0 0)) ∧
     (s.cur = .row key → exec .illegal s = .next (s.rowEnd key 10)))

/-- R210, R335 to R338: soft errors. A corrected one is counted in its field of ERRCNT and changes nothing else; an HBM
line found uncorrectable is lost. A scalar word that reads uncorrectable scratch data, a lane word that reads a spoilt latch
entry and a commit of a spoilt write log are machine checks (sub-causes 2, 5 and 2), and a spoilt instruction of the operand
log is one (sub-cause 5) and stays in the log; a store of a whole word leaves good data.
R58, R229, R238: the matrix engine finds bad parity, and uncorrectable data, as it starts a word: a machine check on every
member, with the lanes that have bad words. That errors are moves of the agenda, and where they are found, is the model's
choice (log 10). -/
def Obligations.SoftErrors : Prop :=
  (∀ (s : State) (tk word cluster line pa : Nat),
     let p := (s.team tk).page (word / 512)
     (s.teams.has tk = true → p.inVault = true → p.busy = false → s.pinned (s.team tk).core tk (word / 512) = false →
       s.softErr (.vault tk word true) = s.countErr (dieOf p.frameCore) 16 16 ∧
       (s.softErr (.vault tk word false)).vaultBad tk (8 * word) 8 false = true ∧
       ((s.softErr (.vault tk word false)).team tk).scratch = (s.team tk).scratch) ∧
     (cluster < 32 → s.softErr (.cache cluster line true) = s.countErr (dieOfCluster cluster) 32 16) ∧
     (pa < 2 ^ 40 → fieldOf pa 36 2 ≠ 3 →
       s.softErr (.hbm pa true) = s.countErr (dieOfPa pa) 48 16 ∧
       (s.lostPa (64 * (pa / 64)) = false → s.dirty = [] → (s.die (dieOfPa pa)).lost.length < 512 →
         pa / 64 ∈ ((s.softErr (.hbm pa false)).die (dieOfPa pa)).lost ∧ (s.softErr (.hbm pa false)).hbm = s.hbm))) ∧
  (∀ (s s1 : State) (rk : Nat) (d a b : SReg) (lw : LdWidth) (sw : StWidth) (off : BitVec 10) (base y p : W64),
     let tk := teamOf rk
     let checks (i : Instr) (ea n : Nat) (write : Bool) : Prop :=
       s1.orderWait rk = false → (s1.role rk).part = [] → s1.legalScratch tk ea n = true →
       s1.scratchFault tk ea n false = none → s1.vaultBad tk ea n write = true →
       exec i s = .next (s1.machineCheck rk false (s1.badAt tk ea n write).1 ea (s1.badAt tk ea n write).2 0)
     (ScalarReady s rk [a] (some d) [base] s1 → checks (.sld d a lw off) (accessEa base off) (ldShape lw).1 false) ∧
     (ScalarReady s rk [a, d] none [base, y] s1 → checks (.sst d a sw off) (accessEa base off) (stSize sw) true) ∧
     (base.toNat % 8 = 0 →
       (∀ f ∈ atomForms d a b 7, (f.2.2 = true → d ≠ .s 0) →
         ScalarReady s rk f.2.1 (some d) (if f.2.2 then [base, y, p] else [base, y]) s1 → checks f.1 base.toNat 8 false) ∧
       (ScalarReady s rk [a] none [base] s1 →
         checks (.barav a) base.toNat 8 false ∧ checks (.barwt a) base.toNat 8 false)) ∧
     (∀ ea n write, (s1.team tk).meetsBad ea n write = true →
       s1.vaultBad tk ea n write = true ∧ s1.badAt tk ea n write = (2, 0))) ∧
  (∀ (s : State) (tk word v : Nat), let t := s.scratchStore tk (8 * word) (leBytes 8 v)
     (t.team tk).meetsBad (8 * word) 8 false = false ∧
     ∀ k, k ≠ word → (t.team tk).meetsBad (8 * k) 8 false = (s.team tk).meetsBad (8 * k) 8 false) ∧
  (∀ (s : State) (rk : Nat) (c : LaneCtl) (t : ITy) (sat w64 hi role : Bool) (m : FMode) (ft : FTy) (q : ICond)
     (fc : FCond) (kd ka kb : BitVec 4) (e : Fin 3) (sf df : Fmt) (rnd : Rnd) (es : BitVec 3) (ps : BitVec 2)
     (vm : VoteMode) (sm : ShflMode) (d a b x : Opnd) (n : W32) (cx : LaneCx) (l : Lanes),
     s.cur = .lane rk → s.laneNow = some (cx, l) → l.clean = false →
     ∀ f ∈ laneForms c t sat w64 hi role m ft q fc kd ka kb e sf df rnd es ps vm sm d a b x n,
     wordPresent cx l c.hold f.2.1 f.2.2 = true →
     f.2.1.a.spoilt l = true ∨ f.2.1.b.spoilt l = true ∨ f.2.1.x.spoilt l = true →
     exec f.1 s = .next (if (s.role rk).outstanding = true then s.updRole rk fun r => { r with lpark := .results }
       else s.machineCheck rk true 5 0 0 (laneBits (l.actives c)))) ∧
  (∀ (s : State) (core i : Nat) (j : LxJob), s.engineMay (clusterOf core) = true → (s.core core).lxDone = [] →
     s.lxNext core = some (j, i) → s.lxBadB j = false → (∃ w ∈ j.lxs, s.lxBadWords w false ≠ []) →
     ∃ t, exec (.lxStart core) s = .next t ∧ (t.core core).engQ = (s.core core).engQ ∧ t.hbm = s.hbm ∧ t.dirty = s.dirty ∧
       ∀ w ∈ j.lxs, (s.team (teamOf w.rk)).abortable = false → (∀ v ∈ j.lxs, teamOf v.rk = teamOf w.rk) →
         (t.role w.rk).stopped ≠ none ∧ (t.role w.rk).lanes = (s.role w.rk).lanes ∧
         ∃ f ∈ (t.vf (s.vfOf w.rk)).recs, fieldAt f.bytes 0 2 = codeNum .mcheck) ∧
  (∀ (s : State) (rk tk : Nat) (w : MemWord) (e : LogEntry),
     (e.logged = true → e.spoilt = true → s.relocking (s.coreOf rk) = false →
       s.performHead rk w e = (s.headCheck rk e 5 0 0 (laneBits (accLanes e.todo)), false)) ∧
     ((s.team tk).phase = .probing → (s.team tk).halted = none → s.logLack tk = none → (s.team tk).logBad ≠ [] →
       s.relocking (s.team tk).core = false →
       exec (.commitProbe tk) s = .next (s.machineCheck (roleKey tk 0) false 2 0 0 0)))

/-! ## Steps, decoding, reset -/

/-- R60, R61, R71, R80, R160, R180, R192: what stands at a stream's PC: the word there decoded, with the word behind a
prefix, as long as its features are accepted, and ILLEGAL otherwise.
That a fetch by a role reads what a load of it reads, dirty lines included, is the model's reading (log 16); a depot reads
a row's code at the home (R322).
R160, R264, R294, R352: a step runs the decoded instruction. The word of the role that an issue boundary chooses is
executed in a state whose role still has its PC, its registers and its lanes, with memory as it was; so are the command
in progress of an engine and the next word of a row, and an event. Around `exec`, a step counts before it (log 1), and
charges what the word has cost (R382) and lets requested pre-emptions happen after it.
R336, R360: a word whose fetch or access has to wait for a refresh, or for a command that holds its line, is not run: the
transfers that wait are counted. -/
def Obligations.StepRunsWord : Prop :=
  (∀ (s : State) (rk w n : Nat) (i : Instr),
     let pc := (s.role rk).pc.toNat
     let li := (s.role rk).laneIndex
     let prefix_ : Prop := w / 2 ^ 25 % 2 ^ 7 = 0x7F ∧ decodeScalar w 0 ≠ none
     (s.fetchScalar rk pc = .word w → ¬prefix_ →
       (decodeScalar w 0 = some i → s.featureOk i = true → s.peek rk false = .instr i) ∧
       (decodeScalar w 0 = some i → s.featureOk i = false → s.peek rk false = .instr .illegal) ∧
       (decodeScalar w 0 = none → s.peek rk false = .instr .illegal)) ∧
     (s.fetchScalar rk pc = .word w → prefix_ → s.fetchScalar rk (pc + 4) = .word n → decodeScalar w n = some i →
       s.featureOk i = true → s.peek rk false = .instr i) ∧
     (s.fetchLane rk li = .word w →
       (decodeLane w = some i → s.featureOk i = true → s.peek rk true = .instr i) ∧
       (decodeLane w = none → s.peek rk true = .instr .illegal)) ∧
     (∀ x, (s.launchOf rk).inCode pc = true → s.xlat (s.vfOf rk) pc 4 false = .ok x →
       s.fetchScalar rk pc = .word (leNat (s.loadX x))) ∧
     (∀ x, li < (s.launchOf rk).lcode → s.xlat (s.vfOf rk) ((s.launchOf rk).laneAt li) 12 false = .ok x →
       s.fetchLane rk li = .word (leNat (s.loadX x)))) ∧
  (∀ (s : State) (rest : List Move) (core dp rk q key : Nat) (lane : Bool) (ks : List Nat) (i : Instr),
     let u : State := { s with agenda := rest }
     let same (v : State) : Prop := v.agenda = rest ∧ v.hbm = s.hbm ∧ v.dirty = s.dirty ∧ v.vfs = s.vfs ∧
       v.launches = s.launches ∧
       ∀ k, (v.role k).pc = (s.role k).pc ∧ (v.role k).sregs = (s.role k).sregs ∧ (v.role k).lanes = (s.role k).lanes ∧
         (v.role k).blocks = (s.role k).blocks ∧ (v.role k).lanePc = (s.role k).lanePc
     (eventInRange i = true → step { s with agenda := .event i :: rest } = endRes (exec i { u with cur := .none })) ∧
     (eventInRange i = false → step { s with agenda := .event i :: rest } = .next u.endStep) ∧
     ((u.cluster (clusterOf core)).target = none → u.islandNear core (decide (2 ≤ dp)) = false →
       u.offered core dp lane = rk :: ks → u.powerOk rk lane = true → u.peek rk lane = .instr i →
       let v := u.counted core dp lane (some rk)
       let a : Agent := if lane then .lane rk else .scalar rk
       same v ∧ v.peek rk lane = .instr i ∧
       (v.linesWait (v.issueLines rk lane i) = false → step { s with agenda := .boundary core dp lane :: rest } =
         endRes (chargeRes v a i (exec i { v with cur := a }))) ∧
       (v.linesWait (v.issueLines rk lane i) = true → step { s with agenda := .boundary core dp lane :: rest } =
         .next (v.stallAll (if lane then .lane rk else .scalar rk) (v.issueLines rk lane i)).endStep)) ∧
     (∀ c, firstRole ≤ rk → u.hasRole rk = true → (u.engQ rk q).run = some c → c.result = none → c.instr = some i →
       (q < 4 → u.relocking (u.coreOf rk) = false) → u.delays (.queue rk q) = false →
       step { s with agenda := .engine rk q :: rest } = endRes (exec i { u with cur := .engine rk q })) ∧
     (∀ x, u.rows.has key = true → (u.row key).stall = none → (u.row key).depot ≠ none → u.delays (.row key) = false →
       let t := u.task (u.row key).task
       (u.row key).pc < t.cmd.ilen → u.depotAcc t (codeAt t.cmd (u.row key).pc) 12 false = .ok x →
       decodeLane (leNat (u.homeX x)) = some i → depotLegal i = true → u.featureOk i = true →
       u.linesWait ((x.pas.map fun p => p / 64).dedup ++ u.rowTransfers key i) = false →
       ∃ v, same v ∧ step { s with agenda := .row key :: rest } =
         endRes (chargeRes v (.row key) i (exec i { v with cur := .row key }))) ∧
     (∀ (v w : State) (a : Agent), let t := w.charged v a i
       t.hbm = w.hbm ∧ t.dirty = w.dirty ∧ t.vfs = w.vfs ∧ t.launches = w.launches ∧ t.agenda = w.agenda ∧
       ∀ k, (t.role k).pc = (w.role k).pc ∧ (t.role k).sregs = (w.role k).sregs ∧ (t.role k).lanes = (w.role k).lanes ∧
         (t.role k).blocks = (w.role k).blocks ∧ (t.role k).lanePc = (w.role k).lanePc) ∧
     step { s with agenda := .tick :: rest } = .next u.tick.endStep ∧
     (∀ v : State, endRes (.next v) = .next ({ v with cur := .none }).settle))

/-- R62 to R78, R357: words written out from the encodings, and what they decode to. -/
def Obligations.DecodedWords : Prop :=
  let c : LaneCtl := ⟨false, .none, 0, false⟩
  decodeScalar 0x01C06001 0 = some (.add (.q 8) (.s 3) (.s 0)) ∧
  decodeScalar 0x02000008 0 = some .exit ∧
  decodeScalar 0x0428625B 0 = some (.atomFfcs (.s 5) (.s 3) (.s 4) 3) ∧
  decodeScalar 0x0308A003 0 = some (.qfence 0x21 5) ∧
  decodeScalar 0x3038DFFD 0 = some (.beq (.s 7) (.s 6) 0x1FFD) ∧
  decodeScalar 0x40180007 0 = some (.li (.s 3) 7) ∧
  decodeLane 0x104018014001000000000001 = some (.vqnt c 3 1 (.v 10) (.v 2) (.v 0)) ∧
  decodeLane 0x08C000008000C02000480000 = some (.vfma c ⟨.f32, .rne, false⟩ false false (.v 4) (.v 1) (.latch 0) (.v 9)) ∧
  decodeLane 0x080000006000800400000002 = some (.vfadd c ⟨.bf16x2, .rne, false⟩ (.v 3) (.v 1) (.v 2)) ∧
  decodeLane 0x20200000A003180002025000 =
    some (.vld ⟨true, .none, 0, false⟩ ⟨.b32, true, .waitFull, .v 6, 3, 64⟩ false (.v 5)) ∧
  decodeLane 0x380000002005080000020000 = some (.dldr c ⟨.b32, false, .ignore, .v 10, 1, 0⟩ false (.v 1))

/-- R294, R296, R300, R303, R360, R392: the state after reset: nothing is launched, no feature is accepted, and these
registers hold what the spec gives them. -/
def Obligations.ResetState : Prop :=
  let s := State.reset
  s.launches = [] ∧ s.teams = [] ∧ s.roles = [] ∧ s.accept = 0 ∧ s.acceptLocked = false ∧ s.dirty = [] ∧
  (∀ c, (s.cluster c).allow = 0x10000 ∧ (s.cluster c).pwrCfg = 0x0204000100000140 ∧ (s.cluster c).cls = 2 ∧
    (s.cluster c).target = none) ∧
  (∀ v, (s.vf v).vfPerf = 0xC) ∧ (∀ k, (s.stk k).period = 3900) ∧ (∀ d, (s.die d).errCnt = 0 ∧ (s.die d).lost = []) ∧
  s.MemOk ∧ s.Idle ∧ s.FeaturesOk

/-- R62 to R71: every well-formed scalar word survives encoding and decoding, with every operand. -/
def Obligations.ScalarRoundTrip : Prop :=
  ∀ i : Instr, i.wf = true → i.isScalarWord = true →
    decodeTableWord (8 * wordBytes i) (encode i) = some i ∧ encode i < 2 ^ (8 * wordBytes i)

/-- R72 to R78, R357, R358: every well-formed word of the lane stream and of depot code survives encoding and decoding,
with every operand. -/
def Obligations.LaneRoundTrip : Prop :=
  ∀ i : Instr, i.wf = true → i.isLaneWord = true → decodeTableWord 96 (encode i) = some i ∧ encode i < 2 ^ 96

/-! ## Invariants -/

/-- Every step keeps home memory in its canonical form. -/
def Obligations.MemoryFormKept : Prop :=
 ∀ s t : State, s.MemOk → step s = .next t → t.MemOk

/-- R392: every step keeps the accepted features among the offered ones.
Between steps nothing is being executed (log 1). -/
def Obligations.FeaturesKept : Prop :=
 (∀ s t : State, s.FeaturesOk → step s = .next t → t.FeaturesOk) ∧
 (∀ s t : State, s.Idle → step s = .next t → t.Idle)
end

