-- ==== Sys2Proof/Laws/Encoding.lean ====
section
/-! SUPPORT. The round trip of encoding and decoding: what a field of a packed word reads as, and one
rule for each layout of R62, R72 and R77, from which the lemma of each word follows. -/

namespace Sys2Proof
open Sys2Proof.Machine

/-- A well-formed stream word is what its code decodes to, and the code fits the bytes the word takes. -/
def RoundTrips (i : Instr) : Prop :=
  i.wf = true → decodeTableWord (8 * wordBytes i) (encode i) = some i ∧ encode i < 2 ^ (8 * wordBytes i)

/-! ## Scalar words -/

theorem sregCode_lt (r : SReg) : sregCode r < 64 := by cases r <;> simp [sregCode] <;> omega

@[simp] theorem sregOf_sregCode (r : SReg) : sregOf (sregCode r) = r := by
  cases r with
  | s n => simp [sregOf, sregCode]
  | q n =>
    simp [sregOf, sregCode, Fin.ofNat, Nat.mod_eq_of_lt n.isLt]

@[simp] theorem sregOf_zero : sregOf 0 = .s 0 := rfl

@[simp] theorem sregCode_s0 : sregCode (.s 0) = 0 := rfl

@[simp] theorem bitVec_ofNat_toNat {n : Nat} (x : BitVec n) : BitVec.ofNat n x.toNat = x := by simp

@[simp] theorem fin_ofNat_val {n : Nat} [NeZero n] (x : Fin n) : Fin.ofNat n x.val = x :=
  Fin.ext (Nat.mod_eq_of_lt x.isLt)

/-- What the three-register layouts decode by. -/
def decSA (op d a b fn : Nat) : Option Instr :=
  if op = 0 then decInteger fn d a b else if op = 1 then decControl fn d a b else decAtom fn d a b

theorem roundTrips_word {i : Instr} (hb : wordBytes i = 4) (hw : encode i < 2 ^ 32)
    (hr : decScalarRaw (encode i) 0 = some i) : RoundTrips i := by
  intro hwf
  rw [hb]
  refine ⟨?_, hw⟩
  have h0 : encode i / 2 ^ 32 % 2 ^ 32 = 0 := by omega
  have h1 : encode i % 2 ^ 32 = encode i := Nat.mod_eq_of_lt hw
  simp only [decodeTableWord, decodeScalar, h0, h1, hr]
  simp [wordLegal, hwf]

theorem roundTrips_SA {i : Instr} {op d a b fn : Nat} (hb : wordBytes i = 4) (he : encode i = packSA op d a b fn)
    (ho : op < 3) (hd : d < 64) (ha : a < 64) (hbb : b < 64) (hf : fn < 128) (hr : decSA op d a b fn = some i) :
    RoundTrips i := by
  have hw : packSA op d a b fn < 2 ^ 32 := by unfold packSA; omega
  refine roundTrips_word hb (he ▸ hw) ?_
  rw [he]
  have e1 : packSA op d a b fn / 2 ^ 25 % 2 ^ 7 = op := by unfold packSA; omega
  have e2 : packSA op d a b fn / 2 ^ 19 % 2 ^ 6 = d := by unfold packSA; omega
  have e3 : packSA op d a b fn / 2 ^ 13 % 2 ^ 6 = a := by unfold packSA; omega
  have e4 : packSA op d a b fn / 2 ^ 7 % 2 ^ 6 = b := by unfold packSA; omega
  have e5 : packSA op d a b fn % 2 ^ 7 = fn := by unfold packSA; omega
  unfold decScalarRaw
  simp only [e1, e2, e3, e4, e5]
  obtain rfl | rfl | rfl : op = 0 ∨ op = 1 ∨ op = 2 := by omega
  all_goals exact hr

theorem roundTrips_SB {i : Instr} {op d a m : Nat} (hb : wordBytes i = 4) (he : encode i = packSB op d a m)
    (ho : 8 ≤ op) (ho' : op < 32) (hd : d < 64) (ha : a < 64) (hm : m < 2 ^ 13) (hr : decSB op d a m = some i) :
    RoundTrips i := by
  have hw : packSB op d a m < 2 ^ 32 := by unfold packSB; omega
  refine roundTrips_word hb (he ▸ hw) ?_
  rw [he]
  have e1 : packSB op d a m / 2 ^ 25 % 2 ^ 7 = op := by unfold packSB; omega
  have e2 : packSB op d a m / 2 ^ 19 % 2 ^ 6 = d := by unfold packSB; omega
  have e3 : packSB op d a m / 2 ^ 13 % 2 ^ 6 = a := by unfold packSB; omega
  have e5 : packSB op d a m % 2 ^ 13 = m := by unfold packSB; omega
  unfold decScalarRaw
  simp only [e1, e2, e3, e5]
  rw [if_neg (by omega), if_neg (by omega), if_neg (by omega), if_pos (by omega)]
  exact hr

theorem roundTrips_SC {i : Instr} {op d m : Nat} (hb : wordBytes i = 4) (he : encode i = packSC op d m)
    (ho : 32 ≤ op) (ho' : op < 128) (hd : d < 64) (hm : m < 2 ^ 19) (hr : decSC op d m 0 = some i) :
    RoundTrips i := by
  have hw : packSC op d m < 2 ^ 32 := by unfold packSC; omega
  refine roundTrips_word hb (he ▸ hw) ?_
  rw [he]
  have e1 : packSC op d m / 2 ^ 25 % 2 ^ 7 = op := by unfold packSC; omega
  have e2 : packSC op d m / 2 ^ 19 % 2 ^ 6 = d := by unfold packSC; omega
  have e5 : packSC op d m % 2 ^ 19 = m := by unfold packSC; omega
  unfold decScalarRaw
  simp only [e1, e2, e5]
  rw [if_neg (by omega), if_neg (by omega), if_neg (by omega), if_neg (by omega)]
  exact hr

/-- A prefix pair (R71). -/
theorem roundTrips_SL {i : Instr} {x : Nat} {d : SReg} {w : W32} (hb : wordBytes i = 8) (he : encode i = encSL x d w)
    (hx : x < 128) (hr : decSC 0x7F (sregCode d) (x * 4096) w.toNat = some i) : RoundTrips i := by
  intro hwf
  have hd := sregCode_lt d
  have hi := w.isLt
  rw [hb, he]
  have hw : encSL x d w < 2 ^ (8 * 8) := by unfold encSL; omega
  refine ⟨?_, hw⟩
  have e0 : encSL x d w / 2 ^ 32 % 2 ^ 32 = w.toNat := by unfold encSL; omega
  have e1 : encSL x d w % 2 ^ 32 / 2 ^ 25 % 2 ^ 7 = 0x7F := by unfold encSL; omega
  have e2 : encSL x d w % 2 ^ 32 / 2 ^ 19 % 2 ^ 6 = sregCode d := by unfold encSL; omega
  have e3 : encSL x d w % 2 ^ 32 % 2 ^ 19 = x * 4096 := by unfold encSL; omega
  simp only [decodeTableWord, decodeScalar, decScalarRaw, e0, e1, e2, e3]
  simp [hr, wordLegal, hwf]

theorem roundTrips_integer {f : SReg → SReg → SReg → Instr} {fn : Nat} (hb : ∀ d a b, wordBytes (f d a b) = 4)
    (he : ∀ d a b, encode (f d a b) = encSA 0 fn d a b) (hf : fn < 128)
    (hr : ∀ d a b, decInteger fn d a b = some (f (sregOf d) (sregOf a) (sregOf b))) (d a b : SReg) :
    RoundTrips (f d a b) :=
  roundTrips_SA (hb d a b) (he d a b) (by omega) (sregCode_lt d) (sregCode_lt a) (sregCode_lt b) hf
    (by simp [decSA, hr])

theorem roundTrips_control {i : Instr} {d a b fn : Nat} (hb : wordBytes i = 4) (he : encode i = packSA 1 d a b fn)
    (hd : d < 64) (ha : a < 64) (hbb : b < 64) (hf : fn < 128) (hr : decControl fn d a b = some i) : RoundTrips i :=
  roundTrips_SA hb he (by omega) hd ha hbb hf hr

theorem roundTrips_atom {f : SReg → SReg → SReg → Fin 8 → Instr} {op : Nat} (hb : ∀ d a b c, wordBytes (f d a b c) = 4)
    (he : ∀ d a b c, encode (f d a b c) = encAtom op d a b c) (ho : op < 16)
    (hr : ∀ d a b fn, fn / 8 = op → decAtom fn d a b = some (f (sregOf d) (sregOf a) (sregOf b) (Fin.ofNat 8 (fn % 8))))
    (d a b : SReg) (c : Fin 8) : RoundTrips (f d a b c) := by
  have hc := c.isLt
  refine roundTrips_SA (op := 2) (hb d a b c) (he d a b c) (by omega) (sregCode_lt d) (sregCode_lt a) (sregCode_lt b)
    (by omega) ?_
  have h8 : (op * 8 + c.val) % 8 = c.val := by omega
  have : Fin.ofNat 8 ((op * 8 + c.val) % 8) = c := by rw [h8]; exact Fin.ext (Nat.mod_eq_of_lt hc)
  simp only [decSA]
  rw [if_neg (by decide), if_neg (by decide), hr _ _ _ _ (by omega)]
  rw [this]; simp

theorem roundTrips_SBi {f : SReg → SReg → BitVec 13 → Instr} {op : Nat} (hb : ∀ d a i, wordBytes (f d a i) = 4)
    (he : ∀ d a i, encode (f d a i) = encSB op d a i.toNat) (ho : 8 ≤ op) (ho' : op < 32)
    (hr : ∀ d a m, decSB op d a m = some (f (sregOf d) (sregOf a) (BitVec.ofNat 13 m))) (d a : SReg) (i : BitVec 13) :
    RoundTrips (f d a i) :=
  roundTrips_SB (hb d a i) (he d a i) ho ho' (sregCode_lt d) (sregCode_lt a) i.isLt (by simp [hr])

/-! ## Lane words -/

theorem b2n_lt (b : Bool) : b2n b < 2 := by cases b <;> decide

@[simp] theorem b2n_beq_one (b : Bool) : (b2n b == 1) = b := by cases b <;> rfl

theorem holdCode_lt (h : Hold) : holdCode h < 4 := by cases h <;> decide

@[simp] theorem ctlOf_codes (c : LaneCtl) : ctlOf (b2n c.sw) (holdCode c.hold) c.k.toNat (b2n c.kn) = c := by
  obtain ⟨sw, h, k, kn⟩ := c
  cases h <;> simp [ctlOf, holdCode, holdOf]

theorem opndCode_lt (o : Opnd) : opndCode o < 2 ^ 14 := by
  cases o with
  | v n => simp only [opndCode]; omega
  | w v n => simp only [opndCode]; omega
  | snap n => simp only [opndCode]; omega
  | latch n => simp only [opndCode]; omega
  | spec s => cases s <;> decide
  | imm i => simp only [opndCode]; omega

theorem opndOf_opndCode (o : Opnd) (h : o.wf = true) : opndOf (opndCode o) = some o := by
  cases o with
  | v n =>
    have h1 : n.toNat / 2 ^ 12 = 0 := by omega
    have h2 : n.toNat % 2 ^ 12 = n.toNat := by omega
    simp only [opndCode, opndOf, h1, h2]
    simp [whenB, n.isLt]
  | w v n =>
    have h1 : (2 ^ 12 + v.toNat * 512 + n.toNat) / 2 ^ 12 = 1 := by omega
    have h2 : (2 ^ 12 + v.toNat * 512 + n.toNat) % 2 ^ 12 / 512 = v.toNat := by omega
    have h3 : (2 ^ 12 + v.toNat * 512 + n.toNat) % 2 ^ 12 % 512 = n.toNat := by omega
    simp only [opndCode, opndOf, h1, h2, h3]
    simp
  | snap n =>
    have hn : n ≠ 0 := by simpa [Opnd.wf] using h
    have h0 : n.toNat ≠ 0 := fun e => hn (BitVec.eq_of_toNat_eq (by simpa using e))
    have h1 : (2 * 2 ^ 12 + n.toNat) / 2 ^ 12 = 2 := by omega
    have h2 : (2 * 2 ^ 12 + n.toNat) % 2 ^ 12 = n.toNat := by omega
    simp only [opndCode, opndOf, h1, h2]
    simp [whenB, h0, n.isLt]
  | latch n => revert n; decide
  | spec s => cases s <;> rfl
  | imm i =>
    have h1 : (3 * 2 ^ 12 + i.toNat) / 2 ^ 12 = 3 := by omega
    have h2 : (3 * 2 ^ 12 + i.toNat) % 2 ^ 12 = i.toNat := by omega
    simp only [opndCode, opndOf, h1, h2]
    simp

theorem Opnd.wf_of_isDst {o : Opnd} (h : o.isDst = true) : o.wf = true := by cases o <;> simp_all [Opnd.isDst, Opnd.wf]

theorem opndOf_zero : opndOf 0 = some (.v 0) := rfl

theorem laOf_laWord (f : LaF) (h0 : f.op < 2 ^ 10) (h1 : f.sw < 2) (h2 : f.hold < 4) (h3 : f.k < 16) (h4 : f.kn < 2)
    (h5 : f.fs < 8) (h6 : f.dst < 2 ^ 14) (h7 : f.a < 2 ^ 14) (h8 : f.b < 2 ^ 14) (h9 : f.c < 2 ^ 14)
    (h10 : f.mod < 2 ^ 19) : laOf (laWord f) = f ∧ laWord f / 2 ^ 86 % 2 ^ 10 = f.op ∧ laWord f < 2 ^ 96 := by
  refine ⟨?_, ?_, ?_⟩
  · obtain ⟨op, sw, hold, k, kn, fs, dst, a, b, c, m⟩ := f
    simp only [laOf, laWord, LaF.mk.injEq] at *
    refine ⟨?_, ?_, ?_, ?_, ?_, ?_, ?_, ?_, ?_, ?_, ?_⟩ <;> omega
  · unfold laWord; omega
  · unfold laWord; omega

theorem liOf_liWord (f : LiF) (h0 : f.op < 2 ^ 10) (h1 : f.sw < 2) (h2 : f.hold < 4) (h3 : f.k < 16) (h4 : f.kn < 2)
    (h5 : f.fs < 8) (h6 : f.dst < 2 ^ 14) (h7 : f.a < 2 ^ 14) (h8 : f.imm < 2 ^ 32) (h10 : f.mod < 2 ^ 15) :
    liOf (liWord f) = f ∧ liWord f / 2 ^ 86 % 2 ^ 10 = f.op ∧ liWord f < 2 ^ 96 := by
  refine ⟨?_, ?_, ?_⟩
  · obtain ⟨op, sw, hold, k, kn, fs, dst, a, i, m⟩ := f
    simp only [liOf, liWord, LiF.mk.injEq] at *
    refine ⟨?_, ?_, ?_, ?_, ?_, ?_, ?_, ?_, ?_, ?_⟩ <;> omega
  · unfold liWord; omega
  · unfold liWord; omega

theorem lmOf_lmWord (f : LmF) (h0 : f.op < 2 ^ 10) (h1 : f.sw < 2) (h2 : f.hold < 4) (h3 : f.k < 16) (h4 : f.kn < 2)
    (h5 : f.fs < 8) (h6 : f.data < 2 ^ 14) (h7 : f.addr < 2 ^ 14) (h8 : f.sbase < 16) (h9 : f.off < 2 ^ 24)
    (h10 : f.width < 8) (h11 : f.space < 4) (h12 : f.fe < 4) (h13 : f.scope < 8) (h14 : f.wb < 2) (h15 : f.mod < 2 ^ 8) :
    lmOf (lmWord f) = f ∧ lmWord f / 2 ^ 86 % 2 ^ 10 = f.op ∧ lmWord f < 2 ^ 96 := by
  refine ⟨?_, ?_, ?_⟩
  · obtain ⟨op, sw, hold, k, kn, fs, data, addr, sb, off, w, sp, fe, sc, wb, m⟩ := f
    simp only [lmOf, lmWord, LmF.mk.injEq] at *
    refine ⟨?_, ?_, ?_, ?_, ?_, ?_, ?_, ?_, ?_, ?_, ?_, ?_, ?_, ?_, ?_, ?_⟩ <;> omega
  · unfold lmWord; omega
  · unfold lmWord; omega

theorem lxOf_lxWord (f : LxF) (h0 : f.op < 2 ^ 10) (h1 : f.sw < 2) (h2 : f.hold < 4) (h3 : f.k < 16) (h4 : f.kn < 2)
    (h5 : f.fsa < 8) (h6 : f.fsb < 8) (h7 : f.accview < 8) (h8 : f.aview < 8) (h9 : f.bsel < 16) (h10 : f.ssel < 16)
    (h11 : f.kcnt < 2 ^ 8) (h12 : f.msel < 8) (h13 : f.gang < 2) (h14 : f.order < 2) (h15 : f.sparse < 4)
    (h16 : f.resv < 2 ^ 24) (h17 : f.mod < 2 ^ 19) :
    lxOf (lxWord f) = f ∧ lxWord f / 2 ^ 86 % 2 ^ 10 = f.op ∧ lxWord f < 2 ^ 96 := by
  refine ⟨?_, ?_, ?_⟩
  · obtain ⟨op, sw, hold, k, kn, fa, fb, av, ev, bs, ss, kc, ms, g, o, sp, r, m⟩ := f
    simp only [lxOf, lxWord, LxF.mk.injEq] at *
    refine ⟨?_, ?_, ?_, ?_, ?_, ?_, ?_, ?_, ?_, ?_, ?_, ?_, ?_, ?_, ?_, ?_, ?_, ?_⟩ <;> omega
  · unfold lxWord; omega
  · unfold lxWord; omega

theorem roundTrips_lane {i : Instr} (hb : wordBytes i = 12) (h : i.wf = true → encode i < 2 ^ 96 ∧
    decLaneRaw (encode i) = some i) : RoundTrips i := by
  intro hwf
  obtain ⟨hw, hr⟩ := h hwf
  rw [hb]
  refine ⟨?_, hw⟩
  have h1 : encode i % 2 ^ 96 = encode i := Nat.mod_eq_of_lt hw
  simp only [decodeTableWord, decodeLane, h1, hr]
  simp [wordLegal, hwf]

/-- How an LA word decodes by its op (R78). -/
def decLA (f : LaF) : Option Instr :=
  if f.op < 0x020 then decLaneInt f
  else if f.op < 0x040 then decLaneFloat f
  else if f.op < 0x060 then decLaneConv f
  else if f.op < 0x080 then decLaneMask f
  else decLaneMove f

/-- The ops that have the LA layout (R78). -/
def isLA (op : Nat) : Bool := decide (op < 0x80) || op == 0xC0 || op == 0xC2 || (decide (0xE2 ≤ op) && decide (op < 0x100))

theorem decLaneRaw_LA (f : LaF) (hop : isLA f.op = true) (hw : laOf (laWord f) = f)
    (ho : laWord f / 2 ^ 86 % 2 ^ 10 = f.op) : decLaneRaw (laWord f) = decLA f := by
  simp only [decLaneRaw, ho, hw, decLA]
  simp only [isLA, Bool.or_eq_true, Bool.and_eq_true, decide_eq_true_eq, beq_iff_eq] at hop
  repeat' split
  all_goals first | rfl | (exfalso; omega)

/-- The fields of a word of one of the `encLA` shapes. -/
def laEnc (op : Nat) (c : LaneCtl) (fs d a b x m : Nat) : LaF :=
  ⟨op, b2n c.sw, holdCode c.hold, c.k.toNat, b2n c.kn, fs, d, a, b, x, m⟩

@[simp] theorem laEnc_ctl (op : Nat) (c : LaneCtl) (fs d a b x m : Nat) : (laEnc op c fs d a b x m).ctl = c :=
  ctlOf_codes c

theorem roundTrips_LA {i : Instr} {op : Nat} {c : LaneCtl} {fs d a b x m : Nat} (hb : wordBytes i = 12)
    (he : encode i = encLA op c fs d a b x m) (hop : isLA op = true) (h5 : fs < 8) (h6 : d < 2 ^ 14) (h7 : a < 2 ^ 14)
    (h8 : b < 2 ^ 14) (h9 : x < 2 ^ 14) (h10 : m < 2 ^ 19)
    (hr : i.wf = true → decLA (laEnc op c fs d a b x m) = some i) : RoundTrips i := by
  have hlt : op < 2 ^ 10 := by
    simp only [isLA, Bool.or_eq_true, Bool.and_eq_true, decide_eq_true_eq, beq_iff_eq] at hop; omega
  obtain ⟨e1, e2, e3⟩ := laOf_laWord (laEnc op c fs d a b x m) hlt (b2n_lt _) (holdCode_lt _) c.k.isLt (b2n_lt _) h5 h6 h7
    h8 h9 h10
  refine roundTrips_lane hb fun hwf => ?_
  rw [he]
  exact ⟨e3, (decLaneRaw_LA _ hop e1 e2).trans (hr hwf)⟩

theorem laneOk_parts {c : LaneCtl} {r : Reads} {ds ss : List Opnd} (h : laneOk c r ds ss = true) :
    (∀ o ∈ ds, o.wf = true) ∧ ∀ o ∈ ss, o.wf = true := by
  simp only [laneOk, Bool.and_eq_true, List.all_eq_true] at h
  exact ⟨fun o ho => Opnd.wf_of_isDst (h.1.2 o ho), fun o ho => h.2 o ho⟩

theorem roundTrips_DA {i : Instr} {op m : Nat} {c : LaneCtl} {d a : Opnd} {g : LaneCtl → Opnd → Opnd → Instr} {r : Reads}
    (hb : wordBytes i = 12) (he : encode i = encDA op c d a m) (hop : isLA op = true) (hm : m < 2 ^ 19)
    (hwf : i.wf = true → laneOk c r [d] [a] = true) (hg : g c d a = i)
    (hr : i.wf = true → ∀ f : LaF, f.op = op → f.mod = m → decLA f = laDA f g) : RoundTrips i :=
  roundTrips_LA hb he hop (by decide) (opndCode_lt d) (opndCode_lt a) (by decide) (by decide) hm fun h => by
    obtain ⟨hd, ha⟩ := laneOk_parts (hwf h)
    rw [hr h _ rfl rfl, ← hg]
    simp only [laDA, laEnc_ctl]
    simp only [laEnc, opndOf_opndCode d (hd d (by simp)), opndOf_opndCode a (ha a (by simp))]

theorem roundTrips_DAB {i : Instr} {op m : Nat} {c : LaneCtl} {d a b : Opnd} {g : LaneCtl → Opnd → Opnd → Opnd → Instr}
    {r : Reads}
    (hb : wordBytes i = 12) (he : encode i = encDAB op c d a b m) (hop : isLA op = true) (hm : m < 2 ^ 19)
    (hwf : i.wf = true → laneOk c r [d] [a, b] = true) (hg : g c d a b = i)
    (hr : i.wf = true → ∀ f : LaF, f.op = op → f.mod = m → decLA f = laDAB f g) : RoundTrips i :=
  roundTrips_LA hb he hop (by decide) (opndCode_lt d) (opndCode_lt a) (opndCode_lt b) (by decide) hm fun h => by
    obtain ⟨hd, ha⟩ := laneOk_parts (hwf h)
    rw [hr h _ rfl rfl, ← hg]
    simp only [laDAB, laEnc_ctl]
    simp only [laEnc, opndOf_opndCode d (hd d (by simp)), opndOf_opndCode a (ha a (by simp)),
      opndOf_opndCode b (ha b (by simp))]

theorem roundTrips_DABC {i : Instr} {op m : Nat} {c : LaneCtl} {d a b x : Opnd}
    {g : LaneCtl → Opnd → Opnd → Opnd → Opnd → Instr} {r : Reads}
    (hb : wordBytes i = 12) (he : encode i = encDABC op c d a b x m) (hop : isLA op = true) (hm : m < 2 ^ 19)
    (hwf : i.wf = true → laneOk c r [d] [a, b, x] = true) (hg : g c d a b x = i)
    (hr : i.wf = true → ∀ f : LaF, f.op = op → f.mod = m → decLA f = laDABC f g) : RoundTrips i :=
  roundTrips_LA hb he hop (by decide) (opndCode_lt d) (opndCode_lt a) (opndCode_lt b) (opndCode_lt x) hm fun h => by
    obtain ⟨hd, ha⟩ := laneOk_parts (hwf h)
    rw [hr h _ rfl rfl, ← hg]
    simp only [laDABC, laEnc_ctl]
    simp only [laEnc, opndOf_opndCode d (hd d (by simp)), opndOf_opndCode a (ha a (by simp)),
      opndOf_opndCode b (ha b (by simp)), opndOf_opndCode x (ha x (by simp))]

theorem roundTrips_AB {i : Instr} {op m : Nat} {c : LaneCtl} {a b : Opnd} {g : LaneCtl → Opnd → Opnd → Instr} {r : Reads}
    (hb : wordBytes i = 12) (he : encode i = encAB op c a b m) (hop : isLA op = true) (hm : m < 2 ^ 19)
    (hwf : i.wf = true → laneOk c r [] [a, b] = true) (hg : g c a b = i)
    (hr : i.wf = true → ∀ f : LaF, f.op = op → f.mod = m → decLA f = laAB f g) : RoundTrips i :=
  roundTrips_LA hb he hop (by decide) (by decide) (opndCode_lt a) (opndCode_lt b) (by decide) hm fun h => by
    obtain ⟨-, ha⟩ := laneOk_parts (hwf h)
    rw [hr h _ rfl rfl, ← hg]
    simp only [laAB, laEnc_ctl]
    simp only [laEnc, opndOf_opndCode a (ha a (by simp)), opndOf_opndCode b (ha b (by simp))]

theorem roundTrips_D {i : Instr} {op m : Nat} {c : LaneCtl} {d : Opnd} {g : LaneCtl → Opnd → Instr} {r : Reads}
    (hb : wordBytes i = 12) (he : encode i = encLA op c 0 (opndCode d) 0 0 0 m) (hop : isLA op = true) (hm : m < 2 ^ 19)
    (hwf : i.wf = true → laneOk c r [d] [] = true) (hg : g c d = i)
    (hr : i.wf = true → ∀ f : LaF, f.op = op → f.mod = m → decLA f = laD f g) : RoundTrips i :=
  roundTrips_LA hb he hop (by decide) (opndCode_lt d) (by decide) (by decide) (by decide) hm fun h => by
    obtain ⟨hd, -⟩ := laneOk_parts (hwf h)
    rw [hr h _ rfl rfl, ← hg]
    simp only [laD, laEnc_ctl]
    simp only [laEnc, opndOf_opndCode d (hd d (by simp))]

theorem roundTrips_A {i : Instr} {op m : Nat} {c : LaneCtl} {a : Opnd} {g : LaneCtl → Opnd → Instr} {r : Reads}
    (hb : wordBytes i = 12) (he : encode i = encLA op c 0 0 (opndCode a) 0 0 m) (hop : isLA op = true) (hm : m < 2 ^ 19)
    (hwf : i.wf = true → laneOk c r [] [a] = true) (hg : g c a = i)
    (hr : i.wf = true → ∀ f : LaF, f.op = op → f.mod = m → decLA f = laA f g) : RoundTrips i :=
  roundTrips_LA hb he hop (by decide) (by decide) (opndCode_lt a) (by decide) (by decide) hm fun h => by
    obtain ⟨-, ha⟩ := laneOk_parts (hwf h)
    rw [hr h _ rfl rfl, ← hg]
    simp only [laA, laEnc_ctl]
    simp only [laEnc, opndOf_opndCode a (ha a (by simp))]

theorem roundTrips_none {i : Instr} {op m : Nat} {c : LaneCtl} {g : LaneCtl → Instr}
    (hb : wordBytes i = 12) (he : encode i = encLA op c 0 0 0 0 0 m) (hop : isLA op = true) (hm : m < 2 ^ 19)
    (hg : g c = i) (hr : i.wf = true → ∀ f : LaF, f.op = op → f.mod = m → decLA f = laNone f g) : RoundTrips i :=
  roundTrips_LA hb he hop (by decide) (by decide) (by decide) (by decide) (by decide) hm fun h => by
    rw [hr h _ rfl rfl, ← hg]
    simp only [laNone, laEnc_ctl]
    rfl

theorem roundTrips_bare {i : Instr} {op m : Nat} {sw : Bool} {g : Bool → Instr}
    (hb : wordBytes i = 12) (he : encode i = encLA op (bareCtl sw) 0 0 0 0 0 m) (hop : isLA op = true) (hm : m < 2 ^ 19)
    (hg : g sw = i) (hr : i.wf = true → ∀ f : LaF, f.op = op → f.mod = m → decLA f = laBare f g) : RoundTrips i :=
  roundTrips_LA hb he hop (by decide) (by decide) (by decide) (by decide) (by decide) hm fun h => by
    rw [hr h _ rfl rfl, ← hg]
    cases sw <;> rfl

theorem andL {a b : Bool} (h : (a && b) = true) : a = true := by cases a <;> simp_all

theorem andR {a b : Bool} (h : (a && b) = true) : b = true := by cases a <;> simp_all

/-! Modifiers. -/

@[simp] theorem modItSat_enc (t : ITy) (s : Bool) : modItSat (encItSat t s) = some (t, s) := by
  cases t <;> cases s <;> rfl

@[simp] theorem modIt_itCode (t : ITy) : modIt (itCode t) = some t := by cases t <;> rfl

@[simp] theorem it02Of_it02Code (w : Bool) : it02Of (it02Code w) = some w := by cases w <;> rfl

@[simp] theorem modF_fmodeCode (m : FMode) : modF (fmodeCode m) = some m := by
  obtain ⟨t, r, s⟩ := m
  cases t <;> cases r <;> cases s <;> rfl

@[simp] theorem modFt_ftCode (t : FTy) : modFt (ftCode t) = some t := by cases t <;> rfl

theorem encItSat_lt (t : ITy) (s : Bool) : encItSat t s < 16 := by cases t <;> cases s <;> decide

theorem itCode_lt (t : ITy) : itCode t < 4 := by cases t <;> decide

theorem it02Code_lt (w : Bool) : it02Code w < 4 := by cases w <;> decide

theorem fmodeCode_lt (m : FMode) : fmodeCode m < 64 := by
  obtain ⟨t, r, s⟩ := m
  cases t <;> cases r <;> cases s <;> decide

theorem ftCode_lt (t : FTy) : ftCode t < 4 := by cases t <;> decide

theorem fcondCode_lt (q : FCond) : fcondCode q < 8 := by cases q <;> decide

theorem icondCode_lt (q : ICond) : icondCode q < 8 := by cases q <;> decide

theorem fmtCode_lt (f : Fmt) : fmtCode f < 16 := by cases f <;> decide

theorem rndCode_lt (r : Rnd) : rndCode r < 8 := by cases r <;> decide

@[simp] theorem itOf_itCode (t : ITy) : itOf (itCode t) = some t := by cases t <;> rfl

@[simp] theorem fcondOf_fcondCode (q : FCond) : fcondOf (fcondCode q) = some q := by cases q <;> rfl

@[simp] theorem icondOf_icondCode (q : ICond) : icondOf (icondCode q) = some q := by cases q <;> rfl

@[simp] theorem fmtOfCode_fmtCode (f : Fmt) : fmtOfCode (fmtCode f) = some f := by cases f <;> rfl

@[simp] theorem rndOfCode_rndCode (r : Rnd) : rndOfCode (rndCode r) = some r := by cases r <;> rfl

@[simp] theorem modFcmp_enc (q : FCond) (k : BitVec 4) :
    modFcmp (128 * fcondCode q + 2048 * k.toNat) = some (q, k) := by
  have hq := fcondCode_lt q
  have h1 : (128 * fcondCode q + 2048 * k.toNat) % 128 = 0 := by omega
  have h2 : (128 * fcondCode q + 2048 * k.toNat) / 128 % 16 = fcondCode q := by omega
  have h3 : (128 * fcondCode q + 2048 * k.toNat) / 2048 = k.toNat := by omega
  have h4 : 128 * fcondCode q + 2048 * k.toNat < 2 ^ 15 := by omega
  unfold modFcmp
  rw [h1, h2, h3, fcondOf_fcondCode, bitVec_ofNat_toNat]
  simp only [whenB, h4]
  rfl

/-! Bit fields (R103). -/

theorem encBf_lt (f : BfSel) : encBf f < 2 ^ 17 - 8 := by cases f <;> simp only [encBf] <;> omega

theorem encBfB_lt (f : BfSel) : encBfB f < 2 ^ 14 := by
  cases f with
  | const p l => exact (by decide : 0 < 2 ^ 14)
  | var b => exact opndCode_lt b

theorem bfSelOf_enc {op : Nat} {c : LaneCtl} {d a x : Nat} (f : BfSel) (t : Nat) (ht : t < 4) {w : Nat}
    (h : f.wf w = true) :
    bfSelOf (laEnc op c 0 d a (encBfB f) x (t + encBf f)) = some f ∧ (t + encBf f) / 8 % 2 = 0 ∧
      t + encBf f < 2 ^ 17 ∧ (t + encBf f) % 8 = t := by
  have := encBf_lt f
  cases f with
  | const p l =>
    have h1 : (t + (p.toNat * 32 + l.toNat * 2048)) / 16 % 2 = 0 := by omega
    have h2 : (t + (p.toNat * 32 + l.toNat * 2048)) / 32 % 64 = p.toNat := by omega
    have h3 : (t + (p.toNat * 32 + l.toNat * 2048)) / 2048 % 64 = l.toNat := by omega
    refine ⟨?_, ?_, ?_, ?_⟩
    · simp only [bfSelOf, laEnc, encBf, encBfB, h1, h2, h3]
      simp [whenB]
    all_goals (simp only [encBf]; omega)
  | var b =>
    have h1 : (t + 16) / 16 % 2 = 1 := by omega
    have h2 : (t + 16) / 32 % 64 = 0 := by omega
    have h3 : (t + 16) / 2048 % 64 = 0 := by omega
    refine ⟨?_, ?_, ?_, ?_⟩
    · simp only [bfSelOf, laEnc, encBf, encBfB, h1, h2, h3, opndOf_opndCode b h]
      simp [whenB]
    all_goals (simp only [encBf]; omega)

/-! Immediate words. -/

theorem roundTrips_LI {i : Instr} {op : Nat} {c : LaneCtl} {d a m : Nat} {w : W32} (hb : wordBytes i = 12)
    (he : encode i = encLI op c d a w m) (hop : op = 0xC1 ∨ 0x100 ≤ op) (hlt : op < 2 ^ 10) (h6 : d < 2 ^ 14)
    (h7 : a < 2 ^ 14) (h10 : m < 2 ^ 15)
    (hr : i.wf = true →
      decLaneImm ⟨op, b2n c.sw, holdCode c.hold, c.k.toNat, b2n c.kn, 0, d, a, w.toNat, m⟩ = some i) :
    RoundTrips i := by
  obtain ⟨e1, e2, e3⟩ := liOf_liWord ⟨op, b2n c.sw, holdCode c.hold, c.k.toNat, b2n c.kn, 0, d, a, w.toNat, m⟩ hlt
    (b2n_lt _) (holdCode_lt _) c.k.isLt (b2n_lt _) (show 0 < 8 by decide) h6 h7 w.isLt h10
  refine roundTrips_lane hb fun hwf => ?_
  rw [he]
  refine ⟨e3, ?_⟩
  have e1' : liOf (encLI op c d a w m) = _ := e1
  have e2' : encLI op c d a w m / 2 ^ 86 % 2 ^ 10 = op := e2
  simp only [decLaneRaw, e1', e2']
  repeat' split
  all_goals first | exact hr hwf | (exfalso; omega)

theorem roundTrips_LIDA {i : Instr} {op m : Nat} {c : LaneCtl} {d a : Opnd} {w : W32}
    {g : LaneCtl → Opnd → Opnd → W32 → Instr} {r : Reads}
    (hb : wordBytes i = 12) (he : encode i = encLIDA op c d a w m) (hop : op = 0xC1 ∨ 0x100 ≤ op) (hlt : op < 2 ^ 10)
    (hm : m < 2 ^ 15) (hwf : i.wf = true → laneOk c r [d] [a] = true) (hg : g c d a w = i)
    (hr : i.wf = true → ∀ f : LiF, f.op = op → f.mod = m → decLaneImm f = liDA f g) : RoundTrips i :=
  roundTrips_LI hb he hop hlt (opndCode_lt d) (opndCode_lt a) hm fun h => by
    obtain ⟨hd, ha⟩ := laneOk_parts (hwf h)
    rw [hr h _ rfl rfl, ← hg]
    simp only [liDA, ctlOf_codes, opndOf_opndCode d (hd d (by simp)), opndOf_opndCode a (ha a (by simp))]
    simp

theorem roundTrips_LIA {i : Instr} {op m : Nat} {c : LaneCtl} {a : Opnd} {w : W32} {g : LaneCtl → Opnd → W32 → Instr}
    {r : Reads}
    (hb : wordBytes i = 12) (he : encode i = encLI op c 0 (opndCode a) w m) (hop : op = 0xC1 ∨ 0x100 ≤ op)
    (hlt : op < 2 ^ 10) (hm : m < 2 ^ 15) (hwf : i.wf = true → laneOk c r [] [a] = true) (hg : g c a w = i)
    (hr : i.wf = true → ∀ f : LiF, f.op = op → f.mod = m → decLaneImm f = liA f g) : RoundTrips i :=
  roundTrips_LI hb he hop hlt (by decide) (opndCode_lt a) hm fun h => by
    obtain ⟨-, ha⟩ := laneOk_parts (hwf h)
    rw [hr h _ rfl rfl, ← hg]
    simp only [liA, ctlOf_codes, opndOf_opndCode a (ha a (by simp))]
    simp

/-! Memory words. -/

theorem mwidthCode_lt (w : MWidth) : mwidthCode w < 8 := by cases w <;> decide

theorem feCode_lt (f : FE) : feCode f < 4 := by cases f <;> decide

@[simp] theorem feOf_feCode (f : FE) : feOf (feCode f) = f := by cases f <;> rfl

@[simp] theorem mwidthOf_mwidthCode (w : MWidth) : mwidthOf (mwidthCode w) = some w := by cases w <;> rfl

/-- The fields of a word that `encLM` writes. -/
def lmEnc (op : Nat) (c : LaneCtl) (fs data : Nat) (x : LMem) (scope wb m : Nat) : LmF :=
  ⟨op, b2n c.sw, holdCode c.hold, c.k.toNat, b2n c.kn, fs, data, opndCode x.addr, x.sbase.toNat, x.off.toNat,
    mwidthCode x.width, b2n x.scratch, feCode x.fe, scope, wb, m⟩

@[simp] theorem lmEnc_ctl (op : Nat) (c : LaneCtl) (fs data : Nat) (x : LMem) (scope wb m : Nat) :
    (lmEnc op c fs data x scope wb m).ctl = c := ctlOf_codes c

theorem lmemOf_lmEnc (op : Nat) (c : LaneCtl) (fs data : Nat) (x : LMem) (scope wb m : Nat) (h : x.wf = true) :
    lmemOf (lmEnc op c fs data x scope wb m) = some x := by
  obtain ⟨w, sc, fe, a, sb, off⟩ := x
  simp only [LMem.wf, Bool.and_eq_true] at h
  cases sc <;> simp [lmemOf, lmEnc, opndOf_opndCode a h.1, b2n]

theorem roundTrips_LM {i : Instr} {op : Nat} {c : LaneCtl} {fs data scope wb m : Nat} {x : LMem} (hb : wordBytes i = 12)
    (he : encode i = encLM op c fs data x scope wb m) (hop : (0x80 ≤ op ∧ op < 0xA0) ∨ op = 0xE0 ∨ op = 0xE1)
    (h5 : fs < 8) (h6 : data < 2 ^ 14) (h13 : scope < 8) (h14 : wb < 2) (h15 : m < 2 ^ 8)
    (hr : i.wf = true → decLaneMem (lmEnc op c fs data x scope wb m) = some i) : RoundTrips i := by
  obtain ⟨e1, e2, e3⟩ := lmOf_lmWord (lmEnc op c fs data x scope wb m) (show op < 2 ^ 10 by omega) (b2n_lt _)
    (holdCode_lt _) c.k.isLt (b2n_lt _) h5 h6 (opndCode_lt _) x.sbase.isLt x.off.isLt (mwidthCode_lt _)
    (Nat.lt_trans (b2n_lt _) (by decide)) (feCode_lt _) h13 h14 h15
  refine roundTrips_lane hb fun hwf => ?_
  rw [he]
  refine ⟨e3, ?_⟩
  have e1' : lmOf (encLM op c fs data x scope wb m) = _ := e1
  have e2' : encLM op c fs data x scope wb m / 2 ^ 86 % 2 ^ 10 = op := e2
  simp only [decLaneRaw, e1', e2']
  repeat' split
  all_goals first | exact hr hwf | (exfalso; omega)

theorem roundTrips_load {i : Instr} {op : Nat} {c : LaneCtl} {d : Opnd} {x : LMem} {sx : Bool}
    {g : LaneCtl → LMem → Bool → Opnd → Instr} {r : Reads}
    (hb : wordBytes i = 12) (he : encode i = encLoad op c x sx d)
    (hop : (0x80 ≤ op ∧ op < 0xA0) ∨ op = 0xE0 ∨ op = 0xE1)
    (hwf : i.wf = true → laneOk c r [d] [] = true ∧ x.wf = true) (hg : g c x sx d = i)
    (hr : ∀ f : LmF, f.op = op → decLaneMem f = lmLoad f g) : RoundTrips i :=
  roundTrips_LM hb he hop (by decide) (opndCode_lt d) (by decide) (by decide) (Nat.lt_trans (b2n_lt _) (by decide))
    fun h => by
      obtain ⟨hl, hx⟩ := hwf h
      obtain ⟨hd, -⟩ := laneOk_parts hl
      rw [hr _ rfl, ← hg]
      simp only [lmLoad, lmemOf_lmEnc _ _ _ _ _ _ _ _ hx, lmEnc_ctl]
      simp only [lmEnc, opndOf_opndCode d (hd d (by simp))]
      simp [whenB, show b2n sx < 2 from b2n_lt sx]

theorem roundTrips_store {i : Instr} {op : Nat} {c : LaneCtl} {d : Opnd} {x : LMem} {wb : Option (BitVec 3)}
    {g : LaneCtl → LMem → Option (BitVec 3) → Opnd → Instr} {r : Reads}
    (hb : wordBytes i = 12) (he : encode i = encStore op c x wb d)
    (hop : (0x80 ≤ op ∧ op < 0xA0) ∨ op = 0xE0 ∨ op = 0xE1)
    (hwf : i.wf = true → laneOk c r [] [d] = true ∧ x.wf = true) (hg : g c x wb d = i)
    (hr : ∀ f : LmF, f.op = op → decLaneMem f = lmStore f g) : RoundTrips i := by
  have key : ∀ fs w : Nat, fs < 8 → w < 2 → encode i = encLM op c fs (opndCode d) x 0 w 0 →
      (x.wf = true → d.wf = true → lmStore (lmEnc op c fs (opndCode d) x 0 w 0) g = some i) → RoundTrips i :=
    fun fs w hf hw h1 h2 => roundTrips_LM hb h1 hop hf (opndCode_lt d) (by decide) hw (by decide) fun h => by
      obtain ⟨hl, hx⟩ := hwf h
      obtain ⟨-, hd⟩ := laneOk_parts hl
      rw [hr _ rfl]
      exact h2 hx (hd d (by simp))
  cases wb with
  | none =>
    refine key 0 0 (by decide) (by decide) he fun hx hd => ?_
    rw [← hg]
    simp only [lmStore, lmemOf_lmEnc _ _ _ _ _ _ _ _ hx, lmEnc_ctl]
    simp only [lmEnc, opndOf_opndCode d hd]
    simp [whenB]
  | some f =>
    refine key f.toNat 1 f.isLt (by decide) he fun hx hd => ?_
    rw [← hg]
    simp only [lmStore, lmemOf_lmEnc _ _ _ _ _ _ _ _ hx, lmEnc_ctl]
    simp only [lmEnc, opndOf_opndCode d hd]
    simp

/-! Matrix words. -/

theorem roundTrips_LX {i : Instr} (f : LxF) (hb : wordBytes i = 12) (he : encode i = lxWord f)
    (h0 : 0xA0 ≤ f.op ∧ f.op < 0xC0) (h1 : f.sw < 2) (h2 : f.hold < 4) (h3 : f.k < 16) (h4 : f.kn < 2)
    (h5 : f.fsa < 8) (h6 : f.fsb < 8) (h7 : f.accview < 8) (h8 : f.aview < 8) (h9 : f.bsel < 16) (h10 : f.ssel < 16)
    (h11 : f.kcnt < 2 ^ 8) (h12 : f.msel < 8) (h13 : f.gang < 2) (h14 : f.order < 2) (h15 : f.sparse < 4)
    (h16 : f.resv < 2 ^ 24) (h17 : f.mod < 2 ^ 19) (hr : decLaneMatrix f = some i) : RoundTrips i := by
  obtain ⟨e1, e2, e3⟩ := lxOf_lxWord f (by omega) h1 h2 h3 h4 h5 h6 h7 h8 h9 h10 h11 h12 h13 h14 h15 h16 h17
  refine roundTrips_lane hb fun hwf => ?_
  rw [he]
  refine ⟨e3, ?_⟩
  simp only [decLaneRaw, e1, e2]
  repeat' split
  all_goals first | exact hr | (exfalso; omega)

/-- The fields of a multiply word (R77, R239). -/
def lxFields (f : LxF) : LxMul :=
  ⟨f.sw == 1, BitVec.ofNat 3 f.fsa, BitVec.ofNat 3 f.fsb, BitVec.ofNat 3 f.accview,
    BitVec.ofNat 3 f.aview, BitVec.ofNat 4 f.bsel, BitVec.ofNat 4 f.ssel, BitVec.ofNat 8 f.kcnt,
    BitVec.ofNat 3 f.msel, f.gang == 1, f.order == 1, BitVec.ofNat 2 f.sparse, f.mod / 2 == 1, f.mod % 2 == 1⟩

theorem roundTrips_mul {op : Nat} {x : LxMul} {g : LxMul → Instr} (hb : wordBytes (g x) = 12)
    (he : encode (g x) = encMul op x) (hop : 0xA0 ≤ op ∧ op < 0xC0)
    (hr : ∀ f : LxF, f.op = op → f.hold = 0 → f.k = 0 → f.kn = 0 → f.resv = 0 → f.mod < 4 →
      decLaneMatrix f = some (g (lxFields f))) : RoundTrips (g x) := by
  have hm : 2 * b2n x.z + b2n x.wf < 4 := by have := b2n_lt x.z; have := b2n_lt x.wf; omega
  have hz : (2 * b2n x.z + b2n x.wf) / 2 = b2n x.z := by have := b2n_lt x.wf; omega
  have hw : (2 * b2n x.z + b2n x.wf) % 2 = b2n x.wf := by have := b2n_lt x.wf; omega
  refine roundTrips_LX _ hb he hop (b2n_lt _) (show 0 < 4 by decide) (show 0 < 16 by decide) (show 0 < 2 by decide)
    x.fsa.isLt x.fsb.isLt x.accview.isLt x.aview.isLt x.bsel.isLt x.ssel.isLt x.kcnt.isLt x.msel.isLt (b2n_lt _) (b2n_lt _)
    x.sparse.isLt (show 0 < 2 ^ 24 by decide) (Nat.lt_trans hm (by decide)) ?_
  rw [hr _ rfl rfl rfl rfl rfl hm]
  simp only [lxFields, hz, hw, b2n_beq_one, bitVec_ofNat_toNat]

end Sys2Proof
end

