-- ==== Sys2Proof/Laws/NMap.lean ====
section
/-! SUPPORT. The laws of finite maps: reading after writing, and the canonical form. -/

namespace Sys2Proof

variable {α : Type}

@[simp] theorem NMap.get_nil (d : α) (k : Nat) : NMap.get d [] k = d := rfl

theorem NMap.get_erase_self (d : α) (m : NMap α) (k : Nat) : NMap.get d (NMap.erase m k) k = d := by
  induction m with
  | nil => rfl
  | cons e t ih =>
    obtain ⟨k', v⟩ := e
    by_cases h : k = k' <;> simp [NMap.erase, NMap.get, h, ih]
    simpa [h] using ih

theorem NMap.get_erase_ne (d : α) (m : NMap α) {k j : Nat} (h : j ≠ k) :
    NMap.get d (NMap.erase m k) j = NMap.get d m j := by
  induction m with
  | nil => rfl
  | cons e t ih =>
    obtain ⟨k', v⟩ := e
    by_cases hk : k = k'
    · have : j ≠ k' := by omega
      simp [NMap.erase, NMap.get, hk, this]
      simpa [hk] using ih
    · by_cases hj : j = k' <;> simp [NMap.erase, NMap.get, hk, hj, ih]

theorem NMap.get_ins_ne (d : α) (m : NMap α) {k j : Nat} (v : α) (h : j ≠ k) :
    NMap.get d (NMap.ins m k v) j = NMap.get d m j := by
  induction m with
  | nil => simp [NMap.ins, NMap.get, h]
  | cons e t ih =>
    obtain ⟨k', v'⟩ := e
    by_cases hk : k < k'
    · simp [NMap.ins, NMap.get, hk, h]
    · simp [NMap.ins, NMap.get, hk, ih]

/-- A key that is not listed. -/
theorem NMap.get_ins_self (d : α) (m : NMap α) (k : Nat) (v : α) (h : ∀ e ∈ m, e.1 ≠ k) :
    NMap.get d (NMap.ins m k v) k = v := by
  induction m with
  | nil => simp [NMap.ins, NMap.get]
  | cons e t ih =>
    obtain ⟨k', v'⟩ := e
    have hne : k ≠ k' := fun hk => h (k', v') (by simp) hk.symm
    by_cases hk : k < k'
    · simp [NMap.ins, NMap.get, hk]
    · simp [NMap.ins, NMap.get, hk, hne, ih fun e he => h e (by simp [he])]

theorem NMap.mem_erase {m : NMap α} {k : Nat} {e : Nat × α} (h : e ∈ NMap.erase m k) : e ∈ m ∧ e.1 ≠ k := by
  induction m with
  | nil => simp [NMap.erase] at h
  | cons a t ih =>
    obtain ⟨k', v⟩ := a
    by_cases hk : k = k'
    · simp only [NMap.erase, hk, if_true] at h
      have := ih (hk ▸ h)
      exact ⟨by simp [this.1], this.2⟩
    · simp only [NMap.erase, hk, if_false, List.mem_cons] at h
      rcases h with h | h
      · subst h; exact ⟨by simp, fun c => hk c.symm⟩
      · have := ih h
        exact ⟨by simp [this.1], this.2⟩

@[simp] theorem NMap.get_put_self (d : α) (m : NMap α) (k : Nat) (v : α) :
    NMap.get d (NMap.put m k v) k = v :=
  NMap.get_ins_self d _ k v fun _ he => (NMap.mem_erase he).2

theorem NMap.get_put_ne (d : α) (m : NMap α) {k j : Nat} (v : α) (h : j ≠ k) :
    NMap.get d (NMap.put m k v) j = NMap.get d m j := by
  rw [NMap.put, NMap.get_ins_ne d _ v h, NMap.get_erase_ne d m h]

@[simp] theorem NMap.get_set_self [DecidableEq α] (d : α) (m : NMap α) (k : Nat) (v : α) :
    NMap.get d (NMap.set d m k v) k = v := by
  by_cases h : v = d
  · simp [NMap.set, h, NMap.get_erase_self]
  · simp only [NMap.set, h, if_false]
    exact NMap.get_ins_self d _ k v fun _ he => (NMap.mem_erase he).2

theorem NMap.get_set_ne [DecidableEq α] (d : α) (m : NMap α) {k j : Nat} (v : α) (h : j ≠ k) :
    NMap.get d (NMap.set d m k v) j = NMap.get d m j := by
  by_cases hv : v = d
  · simp [NMap.set, hv, NMap.get_erase_ne _ _ h]
  · simp only [NMap.set, hv, if_false]
    rw [NMap.get_ins_ne d _ v h, NMap.get_erase_ne d m h]

/-- The optional read agrees with the read of a default. -/
theorem NMap.get_eq_getD (d : α) (m : NMap α) (k : Nat) : NMap.get d m k = (NMap.get? m k).getD d := by
  induction m with
  | nil => rfl
  | cons e t ih =>
    obtain ⟨k', v⟩ := e
    by_cases h : k = k' <;> simp [NMap.get, NMap.get?, h, ih]

theorem NMap.get?_ins_ne (m : NMap α) {k j : Nat} (v : α) (h : j ≠ k) :
    NMap.get? (NMap.ins m k v) j = NMap.get? m j := by
  induction m with
  | nil => simp [NMap.ins, NMap.get?, h]
  | cons e t ih =>
    obtain ⟨k', v'⟩ := e
    by_cases hk : k < k'
    · simp [NMap.ins, NMap.get?, hk, h]
    · simp [NMap.ins, NMap.get?, hk, ih]

theorem NMap.get?_erase_ne (m : NMap α) {k j : Nat} (h : j ≠ k) :
    NMap.get? (NMap.erase m k) j = NMap.get? m j := by
  induction m with
  | nil => rfl
  | cons e t ih =>
    obtain ⟨k', v⟩ := e
    by_cases hk : k = k'
    · have : j ≠ k' := by omega
      simp [NMap.erase, NMap.get?, hk, this]
      simpa [hk] using ih
    · by_cases hj : j = k' <;> simp [NMap.erase, NMap.get?, hk, hj, ih]

theorem NMap.get?_ins_self (m : NMap α) (k : Nat) (v : α) (h : ∀ e ∈ m, e.1 ≠ k) :
    NMap.get? (NMap.ins m k v) k = some v := by
  induction m with
  | nil => simp [NMap.ins, NMap.get?]
  | cons e t ih =>
    obtain ⟨k', v'⟩ := e
    have hne : k ≠ k' := fun hk => h (k', v') (by simp) hk.symm
    by_cases hk : k < k'
    · simp [NMap.ins, NMap.get?, hk]
    · simp [NMap.ins, NMap.get?, hk, hne, ih fun e he => h e (by simp [he])]

@[simp] theorem NMap.get?_put_self (m : NMap α) (k : Nat) (v : α) :
    NMap.get? (NMap.put m k v) k = some v :=
  NMap.get?_ins_self _ k v fun _ he => (NMap.mem_erase he).2

theorem NMap.get?_put_ne (m : NMap α) {k j : Nat} (v : α) (h : j ≠ k) :
    NMap.get? (NMap.put m k v) j = NMap.get? m j := by
  rw [NMap.put, NMap.get?_ins_ne _ v h, NMap.get?_erase_ne m h]

@[simp] theorem NMap.has_put_self (m : NMap α) (k : Nat) (v : α) : NMap.has (NMap.put m k v) k = true := by
  simp [NMap.has]

/-! ## Canonical form -/

section
variable [DecidableEq α]

/-- A bound below which no key lies. -/
def NMap.above (b : Option Nat) (k : Nat) : Prop :=
  match b with
  | none => True
  | some lo => lo < k

theorem NMap.wfFrom_cons {d : α} {b : Option Nat} {k : Nat} {v : α} {t : NMap α} :
    NMap.wfFrom d b ((k, v) :: t) = true ↔ NMap.above b k ∧ v ≠ d ∧ NMap.wfFrom d (some k) t = true := by
  cases b <;> simp [NMap.wfFrom, NMap.above, and_assoc]

theorem NMap.wfFrom_weaken {d : α} {b c : Option Nat} {m : NMap α} (h : NMap.wfFrom d b m = true)
    (hc : ∀ k, NMap.above b k → NMap.above c k) : NMap.wfFrom d c m = true := by
  cases m with
  | nil => rfl
  | cons e t =>
    obtain ⟨k, v⟩ := e
    rw [NMap.wfFrom_cons] at h ⊢
    exact ⟨hc k h.1, h.2⟩

theorem NMap.wfFrom_erase {d : α} {b : Option Nat} {m : NMap α} (k : Nat) (h : NMap.wfFrom d b m = true) :
    NMap.wfFrom d b (NMap.erase m k) = true := by
  induction m generalizing b with
  | nil => rfl
  | cons e t ih =>
    obtain ⟨k', v⟩ := e
    rw [NMap.wfFrom_cons] at h
    by_cases hk : k = k'
    · simp only [NMap.erase, hk, if_true]
      refine NMap.wfFrom_weaken (hk ▸ ih h.2.2) fun j hj => ?_
      cases b with
      | none => trivial
      | some lo =>
        have h1 : lo < k' := h.1
        have h2 : k' < j := hj
        exact Nat.lt_trans h1 h2
    · simp only [NMap.erase, hk, if_false]
      rw [NMap.wfFrom_cons]
      exact ⟨h.1, h.2.1, ih h.2.2⟩

theorem NMap.wfFrom_ins {d : α} {b : Option Nat} {m : NMap α} {k : Nat} {v : α} (hv : v ≠ d)
    (hk : NMap.above b k) (hn : ∀ e ∈ m, e.1 ≠ k) (h : NMap.wfFrom d b m = true) :
    NMap.wfFrom d b (NMap.ins m k v) = true := by
  induction m generalizing b with
  | nil => rw [NMap.ins, NMap.wfFrom_cons]; exact ⟨hk, hv, rfl⟩
  | cons e t ih =>
    obtain ⟨k', v'⟩ := e
    rw [NMap.wfFrom_cons] at h
    by_cases hl : k < k'
    · simp only [NMap.ins, hl, if_true]
      rw [NMap.wfFrom_cons, NMap.wfFrom_cons]
      exact ⟨hk, hv, hl, h.2⟩
    · simp only [NMap.ins, hl, if_false]
      rw [NMap.wfFrom_cons]
      have hne : k' ≠ k := hn (k', v') (by simp)
      have hlt : NMap.above (some k') k := show k' < k by omega
      exact ⟨h.1, h.2.1, ih hlt (fun e he => hn e (by simp [he])) h.2.2⟩

/-- Writing keeps the canonical form. -/
theorem NMap.wf_set {d : α} {m : NMap α} (k : Nat) (v : α) (h : NMap.wf d m = true) :
    NMap.wf d (NMap.set d m k v) = true := by
  by_cases hv : v = d
  · simp only [NMap.set, hv, if_true]
    exact NMap.wfFrom_erase k h
  · simp only [NMap.set, hv, if_false]
    exact NMap.wfFrom_ins hv trivial (fun _ he => (NMap.mem_erase he).2) (NMap.wfFrom_erase k h)

end

end Sys2Proof
end

