-- ==== Sys2Proof/Laws/State.lean ====
section
/-! SUPPORT. The fields of the state after each of the record updates of `Access` and after a write of home memory,
and reading a record after changing one. -/

namespace Sys2Proof.Machine
open Sys2Proof

/-! ## What an update leaves unchanged -/
section
variable (s : State) (rk : Nat) (r : Role)
@[simp] theorem State.setRole_cur : (s.setRole rk r).cur = s.cur := rfl
@[simp] theorem State.setRole_agenda : (s.setRole rk r).agenda = s.agenda := rfl
@[simp] theorem State.setRole_pace : (s.setRole rk r).pace = s.pace := rfl
@[simp] theorem State.setRole_free : (s.setRole rk r).free = s.free := rfl
@[simp] theorem State.setRole_outbox : (s.setRole rk r).outbox = s.outbox := rfl
@[simp] theorem State.setRole_refTick : (s.setRole rk r).refTick = s.refTick := rfl
@[simp] theorem State.setRole_offer : (s.setRole rk r).offer = s.offer := rfl
@[simp] theorem State.setRole_accept : (s.setRole rk r).accept = s.accept := rfl
@[simp] theorem State.setRole_acceptLocked : (s.setRole rk r).acceptLocked = s.acceptLocked := rfl
@[simp] theorem State.setRole_firmware : (s.setRole rk r).firmware = s.firmware := rfl
@[simp] theorem State.setRole_thermAt : (s.setRole rk r).thermAt = s.thermAt := rfl
@[simp] theorem State.setRole_nextLid : (s.setRole rk r).nextLid = s.nextLid := rfl
@[simp] theorem State.setRole_nextRec : (s.setRole rk r).nextRec = s.nextRec := rfl
@[simp] theorem State.setRole_nextAge : (s.setRole rk r).nextAge = s.nextAge := rfl
@[simp] theorem State.setRole_nextFence : (s.setRole rk r).nextFence = s.nextFence := rfl
@[simp] theorem State.setRole_nextPost : (s.setRole rk r).nextPost = s.nextPost := rfl
@[simp] theorem State.setRole_launches : (s.setRole rk r).launches = s.launches := rfl
@[simp] theorem State.setRole_teams : (s.setRole rk r).teams = s.teams := rfl
@[simp] theorem State.setRole_vfs : (s.setRole rk r).vfs = s.vfs := rfl
@[simp] theorem State.setRole_parts : (s.setRole rk r).parts = s.parts := rfl
@[simp] theorem State.setRole_clusters : (s.setRole rk r).clusters = s.clusters := rfl
@[simp] theorem State.setRole_cores : (s.setRole rk r).cores = s.cores := rfl
@[simp] theorem State.setRole_dies : (s.setRole rk r).dies = s.dies := rfl
@[simp] theorem State.setRole_hbmStacks : (s.setRole rk r).hbmStacks = s.hbmStacks := rfl
@[simp] theorem State.setRole_hbm : (s.setRole rk r).hbm = s.hbm := rfl
@[simp] theorem State.setRole_dirty : (s.setRole rk r).dirty = s.dirty := rfl
@[simp] theorem State.setRole_homeHist : (s.setRole rk r).homeHist = s.homeHist := rfl
@[simp] theorem State.setRole_pchOwner : (s.setRole rk r).pchOwner = s.pchOwner := rfl
@[simp] theorem State.setRole_clusterOwner : (s.setRole rk r).clusterOwner = s.clusterOwner := rfl
@[simp] theorem State.setRole_ports : (s.setRole rk r).ports = s.ports := rfl
@[simp] theorem State.setRole_feps : (s.setRole rk r).feps = s.feps := rfl
@[simp] theorem State.setRole_cached : (s.setRole rk r).cached = s.cached := rfl
@[simp] theorem State.setRole_links : (s.setRole rk r).links = s.links := rfl
@[simp] theorem State.setRole_linkDown : (s.setRole rk r).linkDown = s.linkDown := rfl
@[simp] theorem State.setRole_xmssIndex : (s.setRole rk r).xmssIndex = s.xmssIndex := rfl
@[simp] theorem State.setRole_tasks : (s.setRole rk r).tasks = s.tasks := rfl
@[simp] theorem State.setRole_rows : (s.setRole rk r).rows = s.rows := rfl
@[simp] theorem State.setRole_gangs : (s.setRole rk r).gangs = s.gangs := rfl
@[simp] theorem State.setRole_fired : (s.setRole rk r).fired = s.fired := rfl

end

section
variable (s : State) (rk : Nat) (f : Role → Role)
@[simp] theorem State.updRole_cur : (s.updRole rk f).cur = s.cur := rfl
@[simp] theorem State.updRole_agenda : (s.updRole rk f).agenda = s.agenda := rfl
@[simp] theorem State.updRole_pace : (s.updRole rk f).pace = s.pace := rfl
@[simp] theorem State.updRole_free : (s.updRole rk f).free = s.free := rfl
@[simp] theorem State.updRole_outbox : (s.updRole rk f).outbox = s.outbox := rfl
@[simp] theorem State.updRole_refTick : (s.updRole rk f).refTick = s.refTick := rfl
@[simp] theorem State.updRole_offer : (s.updRole rk f).offer = s.offer := rfl
@[simp] theorem State.updRole_accept : (s.updRole rk f).accept = s.accept := rfl
@[simp] theorem State.updRole_acceptLocked : (s.updRole rk f).acceptLocked = s.acceptLocked := rfl
@[simp] theorem State.updRole_firmware : (s.updRole rk f).firmware = s.firmware := rfl
@[simp] theorem State.updRole_thermAt : (s.updRole rk f).thermAt = s.thermAt := rfl
@[simp] theorem State.updRole_nextLid : (s.updRole rk f).nextLid = s.nextLid := rfl
@[simp] theorem State.updRole_nextRec : (s.updRole rk f).nextRec = s.nextRec := rfl
@[simp] theorem State.updRole_nextAge : (s.updRole rk f).nextAge = s.nextAge := rfl
@[simp] theorem State.updRole_nextFence : (s.updRole rk f).nextFence = s.nextFence := rfl
@[simp] theorem State.updRole_nextPost : (s.updRole rk f).nextPost = s.nextPost := rfl
@[simp] theorem State.updRole_launches : (s.updRole rk f).launches = s.launches := rfl
@[simp] theorem State.updRole_teams : (s.updRole rk f).teams = s.teams := rfl
@[simp] theorem State.updRole_vfs : (s.updRole rk f).vfs = s.vfs := rfl
@[simp] theorem State.updRole_parts : (s.updRole rk f).parts = s.parts := rfl
@[simp] theorem State.updRole_clusters : (s.updRole rk f).clusters = s.clusters := rfl
@[simp] theorem State.updRole_cores : (s.updRole rk f).cores = s.cores := rfl
@[simp] theorem State.updRole_dies : (s.updRole rk f).dies = s.dies := rfl
@[simp] theorem State.updRole_hbmStacks : (s.updRole rk f).hbmStacks = s.hbmStacks := rfl
@[simp] theorem State.updRole_hbm : (s.updRole rk f).hbm = s.hbm := rfl
@[simp] theorem State.updRole_dirty : (s.updRole rk f).dirty = s.dirty := rfl
@[simp] theorem State.updRole_homeHist : (s.updRole rk f).homeHist = s.homeHist := rfl
@[simp] theorem State.updRole_pchOwner : (s.updRole rk f).pchOwner = s.pchOwner := rfl
@[simp] theorem State.updRole_clusterOwner : (s.updRole rk f).clusterOwner = s.clusterOwner := rfl
@[simp] theorem State.updRole_ports : (s.updRole rk f).ports = s.ports := rfl
@[simp] theorem State.updRole_feps : (s.updRole rk f).feps = s.feps := rfl
@[simp] theorem State.updRole_cached : (s.updRole rk f).cached = s.cached := rfl
@[simp] theorem State.updRole_links : (s.updRole rk f).links = s.links := rfl
@[simp] theorem State.updRole_linkDown : (s.updRole rk f).linkDown = s.linkDown := rfl
@[simp] theorem State.updRole_xmssIndex : (s.updRole rk f).xmssIndex = s.xmssIndex := rfl
@[simp] theorem State.updRole_tasks : (s.updRole rk f).tasks = s.tasks := rfl
@[simp] theorem State.updRole_rows : (s.updRole rk f).rows = s.rows := rfl
@[simp] theorem State.updRole_gangs : (s.updRole rk f).gangs = s.gangs := rfl
@[simp] theorem State.updRole_fired : (s.updRole rk f).fired = s.fired := rfl

end

section
variable (s : State) (tk : Nat) (t : Team)
@[simp] theorem State.setTeam_cur : (s.setTeam tk t).cur = s.cur := rfl
@[simp] theorem State.setTeam_agenda : (s.setTeam tk t).agenda = s.agenda := rfl
@[simp] theorem State.setTeam_pace : (s.setTeam tk t).pace = s.pace := rfl
@[simp] theorem State.setTeam_free : (s.setTeam tk t).free = s.free := rfl
@[simp] theorem State.setTeam_outbox : (s.setTeam tk t).outbox = s.outbox := rfl
@[simp] theorem State.setTeam_refTick : (s.setTeam tk t).refTick = s.refTick := rfl
@[simp] theorem State.setTeam_offer : (s.setTeam tk t).offer = s.offer := rfl
@[simp] theorem State.setTeam_accept : (s.setTeam tk t).accept = s.accept := rfl
@[simp] theorem State.setTeam_acceptLocked : (s.setTeam tk t).acceptLocked = s.acceptLocked := rfl
@[simp] theorem State.setTeam_firmware : (s.setTeam tk t).firmware = s.firmware := rfl
@[simp] theorem State.setTeam_thermAt : (s.setTeam tk t).thermAt = s.thermAt := rfl
@[simp] theorem State.setTeam_nextLid : (s.setTeam tk t).nextLid = s.nextLid := rfl
@[simp] theorem State.setTeam_nextRec : (s.setTeam tk t).nextRec = s.nextRec := rfl
@[simp] theorem State.setTeam_nextAge : (s.setTeam tk t).nextAge = s.nextAge := rfl
@[simp] theorem State.setTeam_nextFence : (s.setTeam tk t).nextFence = s.nextFence := rfl
@[simp] theorem State.setTeam_nextPost : (s.setTeam tk t).nextPost = s.nextPost := rfl
@[simp] theorem State.setTeam_launches : (s.setTeam tk t).launches = s.launches := rfl
@[simp] theorem State.setTeam_roles : (s.setTeam tk t).roles = s.roles := rfl
@[simp] theorem State.setTeam_vfs : (s.setTeam tk t).vfs = s.vfs := rfl
@[simp] theorem State.setTeam_parts : (s.setTeam tk t).parts = s.parts := rfl
@[simp] theorem State.setTeam_clusters : (s.setTeam tk t).clusters = s.clusters := rfl
@[simp] theorem State.setTeam_cores : (s.setTeam tk t).cores = s.cores := rfl
@[simp] theorem State.setTeam_dies : (s.setTeam tk t).dies = s.dies := rfl
@[simp] theorem State.setTeam_hbmStacks : (s.setTeam tk t).hbmStacks = s.hbmStacks := rfl
@[simp] theorem State.setTeam_hbm : (s.setTeam tk t).hbm = s.hbm := rfl
@[simp] theorem State.setTeam_dirty : (s.setTeam tk t).dirty = s.dirty := rfl
@[simp] theorem State.setTeam_homeHist : (s.setTeam tk t).homeHist = s.homeHist := rfl
@[simp] theorem State.setTeam_pchOwner : (s.setTeam tk t).pchOwner = s.pchOwner := rfl
@[simp] theorem State.setTeam_clusterOwner : (s.setTeam tk t).clusterOwner = s.clusterOwner := rfl
@[simp] theorem State.setTeam_ports : (s.setTeam tk t).ports = s.ports := rfl
@[simp] theorem State.setTeam_feps : (s.setTeam tk t).feps = s.feps := rfl
@[simp] theorem State.setTeam_cached : (s.setTeam tk t).cached = s.cached := rfl
@[simp] theorem State.setTeam_links : (s.setTeam tk t).links = s.links := rfl
@[simp] theorem State.setTeam_linkDown : (s.setTeam tk t).linkDown = s.linkDown := rfl
@[simp] theorem State.setTeam_xmssIndex : (s.setTeam tk t).xmssIndex = s.xmssIndex := rfl
@[simp] theorem State.setTeam_tasks : (s.setTeam tk t).tasks = s.tasks := rfl
@[simp] theorem State.setTeam_rows : (s.setTeam tk t).rows = s.rows := rfl
@[simp] theorem State.setTeam_gangs : (s.setTeam tk t).gangs = s.gangs := rfl
@[simp] theorem State.setTeam_fired : (s.setTeam tk t).fired = s.fired := rfl

end

section
variable (s : State) (tk : Nat) (f : Team → Team)
@[simp] theorem State.updTeam_cur : (s.updTeam tk f).cur = s.cur := rfl
@[simp] theorem State.updTeam_agenda : (s.updTeam tk f).agenda = s.agenda := rfl
@[simp] theorem State.updTeam_pace : (s.updTeam tk f).pace = s.pace := rfl
@[simp] theorem State.updTeam_free : (s.updTeam tk f).free = s.free := rfl
@[simp] theorem State.updTeam_outbox : (s.updTeam tk f).outbox = s.outbox := rfl
@[simp] theorem State.updTeam_refTick : (s.updTeam tk f).refTick = s.refTick := rfl
@[simp] theorem State.updTeam_offer : (s.updTeam tk f).offer = s.offer := rfl
@[simp] theorem State.updTeam_accept : (s.updTeam tk f).accept = s.accept := rfl
@[simp] theorem State.updTeam_acceptLocked : (s.updTeam tk f).acceptLocked = s.acceptLocked := rfl
@[simp] theorem State.updTeam_firmware : (s.updTeam tk f).firmware = s.firmware := rfl
@[simp] theorem State.updTeam_thermAt : (s.updTeam tk f).thermAt = s.thermAt := rfl
@[simp] theorem State.updTeam_nextLid : (s.updTeam tk f).nextLid = s.nextLid := rfl
@[simp] theorem State.updTeam_nextRec : (s.updTeam tk f).nextRec = s.nextRec := rfl
@[simp] theorem State.updTeam_nextAge : (s.updTeam tk f).nextAge = s.nextAge := rfl
@[simp] theorem State.updTeam_nextFence : (s.updTeam tk f).nextFence = s.nextFence := rfl
@[simp] theorem State.updTeam_nextPost : (s.updTeam tk f).nextPost = s.nextPost := rfl
@[simp] theorem State.updTeam_launches : (s.updTeam tk f).launches = s.launches := rfl
@[simp] theorem State.updTeam_roles : (s.updTeam tk f).roles = s.roles := rfl
@[simp] theorem State.updTeam_vfs : (s.updTeam tk f).vfs = s.vfs := rfl
@[simp] theorem State.updTeam_parts : (s.updTeam tk f).parts = s.parts := rfl
@[simp] theorem State.updTeam_clusters : (s.updTeam tk f).clusters = s.clusters := rfl
@[simp] theorem State.updTeam_cores : (s.updTeam tk f).cores = s.cores := rfl
@[simp] theorem State.updTeam_dies : (s.updTeam tk f).dies = s.dies := rfl
@[simp] theorem State.updTeam_hbmStacks : (s.updTeam tk f).hbmStacks = s.hbmStacks := rfl
@[simp] theorem State.updTeam_hbm : (s.updTeam tk f).hbm = s.hbm := rfl
@[simp] theorem State.updTeam_dirty : (s.updTeam tk f).dirty = s.dirty := rfl
@[simp] theorem State.updTeam_homeHist : (s.updTeam tk f).homeHist = s.homeHist := rfl
@[simp] theorem State.updTeam_pchOwner : (s.updTeam tk f).pchOwner = s.pchOwner := rfl
@[simp] theorem State.updTeam_clusterOwner : (s.updTeam tk f).clusterOwner = s.clusterOwner := rfl
@[simp] theorem State.updTeam_ports : (s.updTeam tk f).ports = s.ports := rfl
@[simp] theorem State.updTeam_feps : (s.updTeam tk f).feps = s.feps := rfl
@[simp] theorem State.updTeam_cached : (s.updTeam tk f).cached = s.cached := rfl
@[simp] theorem State.updTeam_links : (s.updTeam tk f).links = s.links := rfl
@[simp] theorem State.updTeam_linkDown : (s.updTeam tk f).linkDown = s.linkDown := rfl
@[simp] theorem State.updTeam_xmssIndex : (s.updTeam tk f).xmssIndex = s.xmssIndex := rfl
@[simp] theorem State.updTeam_tasks : (s.updTeam tk f).tasks = s.tasks := rfl
@[simp] theorem State.updTeam_rows : (s.updTeam tk f).rows = s.rows := rfl
@[simp] theorem State.updTeam_gangs : (s.updTeam tk f).gangs = s.gangs := rfl
@[simp] theorem State.updTeam_fired : (s.updTeam tk f).fired = s.fired := rfl

end

section
variable (s : State) (l : Nat) (f : Launch → Launch)
@[simp] theorem State.updLaunch_cur : (s.updLaunch l f).cur = s.cur := rfl
@[simp] theorem State.updLaunch_agenda : (s.updLaunch l f).agenda = s.agenda := rfl
@[simp] theorem State.updLaunch_pace : (s.updLaunch l f).pace = s.pace := rfl
@[simp] theorem State.updLaunch_free : (s.updLaunch l f).free = s.free := rfl
@[simp] theorem State.updLaunch_outbox : (s.updLaunch l f).outbox = s.outbox := rfl
@[simp] theorem State.updLaunch_refTick : (s.updLaunch l f).refTick = s.refTick := rfl
@[simp] theorem State.updLaunch_offer : (s.updLaunch l f).offer = s.offer := rfl
@[simp] theorem State.updLaunch_accept : (s.updLaunch l f).accept = s.accept := rfl
@[simp] theorem State.updLaunch_acceptLocked : (s.updLaunch l f).acceptLocked = s.acceptLocked := rfl
@[simp] theorem State.updLaunch_firmware : (s.updLaunch l f).firmware = s.firmware := rfl
@[simp] theorem State.updLaunch_thermAt : (s.updLaunch l f).thermAt = s.thermAt := rfl
@[simp] theorem State.updLaunch_nextLid : (s.updLaunch l f).nextLid = s.nextLid := rfl
@[simp] theorem State.updLaunch_nextRec : (s.updLaunch l f).nextRec = s.nextRec := rfl
@[simp] theorem State.updLaunch_nextAge : (s.updLaunch l f).nextAge = s.nextAge := rfl
@[simp] theorem State.updLaunch_nextFence : (s.updLaunch l f).nextFence = s.nextFence := rfl
@[simp] theorem State.updLaunch_nextPost : (s.updLaunch l f).nextPost = s.nextPost := rfl
@[simp] theorem State.updLaunch_teams : (s.updLaunch l f).teams = s.teams := rfl
@[simp] theorem State.updLaunch_roles : (s.updLaunch l f).roles = s.roles := rfl
@[simp] theorem State.updLaunch_vfs : (s.updLaunch l f).vfs = s.vfs := rfl
@[simp] theorem State.updLaunch_parts : (s.updLaunch l f).parts = s.parts := rfl
@[simp] theorem State.updLaunch_clusters : (s.updLaunch l f).clusters = s.clusters := rfl
@[simp] theorem State.updLaunch_cores : (s.updLaunch l f).cores = s.cores := rfl
@[simp] theorem State.updLaunch_dies : (s.updLaunch l f).dies = s.dies := rfl
@[simp] theorem State.updLaunch_hbmStacks : (s.updLaunch l f).hbmStacks = s.hbmStacks := rfl
@[simp] theorem State.updLaunch_hbm : (s.updLaunch l f).hbm = s.hbm := rfl
@[simp] theorem State.updLaunch_dirty : (s.updLaunch l f).dirty = s.dirty := rfl
@[simp] theorem State.updLaunch_homeHist : (s.updLaunch l f).homeHist = s.homeHist := rfl
@[simp] theorem State.updLaunch_pchOwner : (s.updLaunch l f).pchOwner = s.pchOwner := rfl
@[simp] theorem State.updLaunch_clusterOwner : (s.updLaunch l f).clusterOwner = s.clusterOwner := rfl
@[simp] theorem State.updLaunch_ports : (s.updLaunch l f).ports = s.ports := rfl
@[simp] theorem State.updLaunch_feps : (s.updLaunch l f).feps = s.feps := rfl
@[simp] theorem State.updLaunch_cached : (s.updLaunch l f).cached = s.cached := rfl
@[simp] theorem State.updLaunch_links : (s.updLaunch l f).links = s.links := rfl
@[simp] theorem State.updLaunch_linkDown : (s.updLaunch l f).linkDown = s.linkDown := rfl
@[simp] theorem State.updLaunch_xmssIndex : (s.updLaunch l f).xmssIndex = s.xmssIndex := rfl
@[simp] theorem State.updLaunch_tasks : (s.updLaunch l f).tasks = s.tasks := rfl
@[simp] theorem State.updLaunch_rows : (s.updLaunch l f).rows = s.rows := rfl
@[simp] theorem State.updLaunch_gangs : (s.updLaunch l f).gangs = s.gangs := rfl
@[simp] theorem State.updLaunch_fired : (s.updLaunch l f).fired = s.fired := rfl

end

section
variable (s : State) (v : Nat) (f : Vf → Vf)
@[simp] theorem State.updVf_cur : (s.updVf v f).cur = s.cur := rfl
@[simp] theorem State.updVf_agenda : (s.updVf v f).agenda = s.agenda := rfl
@[simp] theorem State.updVf_pace : (s.updVf v f).pace = s.pace := rfl
@[simp] theorem State.updVf_free : (s.updVf v f).free = s.free := rfl
@[simp] theorem State.updVf_outbox : (s.updVf v f).outbox = s.outbox := rfl
@[simp] theorem State.updVf_refTick : (s.updVf v f).refTick = s.refTick := rfl
@[simp] theorem State.updVf_offer : (s.updVf v f).offer = s.offer := rfl
@[simp] theorem State.updVf_accept : (s.updVf v f).accept = s.accept := rfl
@[simp] theorem State.updVf_acceptLocked : (s.updVf v f).acceptLocked = s.acceptLocked := rfl
@[simp] theorem State.updVf_firmware : (s.updVf v f).firmware = s.firmware := rfl
@[simp] theorem State.updVf_thermAt : (s.updVf v f).thermAt = s.thermAt := rfl
@[simp] theorem State.updVf_nextLid : (s.updVf v f).nextLid = s.nextLid := rfl
@[simp] theorem State.updVf_nextRec : (s.updVf v f).nextRec = s.nextRec := rfl
@[simp] theorem State.updVf_nextAge : (s.updVf v f).nextAge = s.nextAge := rfl
@[simp] theorem State.updVf_nextFence : (s.updVf v f).nextFence = s.nextFence := rfl
@[simp] theorem State.updVf_nextPost : (s.updVf v f).nextPost = s.nextPost := rfl
@[simp] theorem State.updVf_launches : (s.updVf v f).launches = s.launches := rfl
@[simp] theorem State.updVf_teams : (s.updVf v f).teams = s.teams := rfl
@[simp] theorem State.updVf_roles : (s.updVf v f).roles = s.roles := rfl
@[simp] theorem State.updVf_parts : (s.updVf v f).parts = s.parts := rfl
@[simp] theorem State.updVf_clusters : (s.updVf v f).clusters = s.clusters := rfl
@[simp] theorem State.updVf_cores : (s.updVf v f).cores = s.cores := rfl
@[simp] theorem State.updVf_dies : (s.updVf v f).dies = s.dies := rfl
@[simp] theorem State.updVf_hbmStacks : (s.updVf v f).hbmStacks = s.hbmStacks := rfl
@[simp] theorem State.updVf_hbm : (s.updVf v f).hbm = s.hbm := rfl
@[simp] theorem State.updVf_dirty : (s.updVf v f).dirty = s.dirty := rfl
@[simp] theorem State.updVf_homeHist : (s.updVf v f).homeHist = s.homeHist := rfl
@[simp] theorem State.updVf_pchOwner : (s.updVf v f).pchOwner = s.pchOwner := rfl
@[simp] theorem State.updVf_clusterOwner : (s.updVf v f).clusterOwner = s.clusterOwner := rfl
@[simp] theorem State.updVf_ports : (s.updVf v f).ports = s.ports := rfl
@[simp] theorem State.updVf_feps : (s.updVf v f).feps = s.feps := rfl
@[simp] theorem State.updVf_cached : (s.updVf v f).cached = s.cached := rfl
@[simp] theorem State.updVf_links : (s.updVf v f).links = s.links := rfl
@[simp] theorem State.updVf_linkDown : (s.updVf v f).linkDown = s.linkDown := rfl
@[simp] theorem State.updVf_xmssIndex : (s.updVf v f).xmssIndex = s.xmssIndex := rfl
@[simp] theorem State.updVf_tasks : (s.updVf v f).tasks = s.tasks := rfl
@[simp] theorem State.updVf_rows : (s.updVf v f).rows = s.rows := rfl
@[simp] theorem State.updVf_gangs : (s.updVf v f).gangs = s.gangs := rfl
@[simp] theorem State.updVf_fired : (s.updVf v f).fired = s.fired := rfl

end

section
variable (s : State) (p : Nat) (f : Part → Part)
@[simp] theorem State.updPart_cur : (s.updPart p f).cur = s.cur := rfl
@[simp] theorem State.updPart_agenda : (s.updPart p f).agenda = s.agenda := rfl
@[simp] theorem State.updPart_pace : (s.updPart p f).pace = s.pace := rfl
@[simp] theorem State.updPart_free : (s.updPart p f).free = s.free := rfl
@[simp] theorem State.updPart_outbox : (s.updPart p f).outbox = s.outbox := rfl
@[simp] theorem State.updPart_refTick : (s.updPart p f).refTick = s.refTick := rfl
@[simp] theorem State.updPart_offer : (s.updPart p f).offer = s.offer := rfl
@[simp] theorem State.updPart_accept : (s.updPart p f).accept = s.accept := rfl
@[simp] theorem State.updPart_acceptLocked : (s.updPart p f).acceptLocked = s.acceptLocked := rfl
@[simp] theorem State.updPart_firmware : (s.updPart p f).firmware = s.firmware := rfl
@[simp] theorem State.updPart_thermAt : (s.updPart p f).thermAt = s.thermAt := rfl
@[simp] theorem State.updPart_nextLid : (s.updPart p f).nextLid = s.nextLid := rfl
@[simp] theorem State.updPart_nextRec : (s.updPart p f).nextRec = s.nextRec := rfl
@[simp] theorem State.updPart_nextAge : (s.updPart p f).nextAge = s.nextAge := rfl
@[simp] theorem State.updPart_nextFence : (s.updPart p f).nextFence = s.nextFence := rfl
@[simp] theorem State.updPart_nextPost : (s.updPart p f).nextPost = s.nextPost := rfl
@[simp] theorem State.updPart_launches : (s.updPart p f).launches = s.launches := rfl
@[simp] theorem State.updPart_teams : (s.updPart p f).teams = s.teams := rfl
@[simp] theorem State.updPart_roles : (s.updPart p f).roles = s.roles := rfl
@[simp] theorem State.updPart_vfs : (s.updPart p f).vfs = s.vfs := rfl
@[simp] theorem State.updPart_clusters : (s.updPart p f).clusters = s.clusters := rfl
@[simp] theorem State.updPart_cores : (s.updPart p f).cores = s.cores := rfl
@[simp] theorem State.updPart_dies : (s.updPart p f).dies = s.dies := rfl
@[simp] theorem State.updPart_hbmStacks : (s.updPart p f).hbmStacks = s.hbmStacks := rfl
@[simp] theorem State.updPart_hbm : (s.updPart p f).hbm = s.hbm := rfl
@[simp] theorem State.updPart_dirty : (s.updPart p f).dirty = s.dirty := rfl
@[simp] theorem State.updPart_homeHist : (s.updPart p f).homeHist = s.homeHist := rfl
@[simp] theorem State.updPart_pchOwner : (s.updPart p f).pchOwner = s.pchOwner := rfl
@[simp] theorem State.updPart_clusterOwner : (s.updPart p f).clusterOwner = s.clusterOwner := rfl
@[simp] theorem State.updPart_ports : (s.updPart p f).ports = s.ports := rfl
@[simp] theorem State.updPart_feps : (s.updPart p f).feps = s.feps := rfl
@[simp] theorem State.updPart_cached : (s.updPart p f).cached = s.cached := rfl
@[simp] theorem State.updPart_links : (s.updPart p f).links = s.links := rfl
@[simp] theorem State.updPart_linkDown : (s.updPart p f).linkDown = s.linkDown := rfl
@[simp] theorem State.updPart_xmssIndex : (s.updPart p f).xmssIndex = s.xmssIndex := rfl
@[simp] theorem State.updPart_tasks : (s.updPart p f).tasks = s.tasks := rfl
@[simp] theorem State.updPart_rows : (s.updPart p f).rows = s.rows := rfl
@[simp] theorem State.updPart_gangs : (s.updPart p f).gangs = s.gangs := rfl
@[simp] theorem State.updPart_fired : (s.updPart p f).fired = s.fired := rfl

end

section
variable (s : State) (c : Nat) (f : Cluster → Cluster)
@[simp] theorem State.updCluster_cur : (s.updCluster c f).cur = s.cur := rfl
@[simp] theorem State.updCluster_agenda : (s.updCluster c f).agenda = s.agenda := rfl
@[simp] theorem State.updCluster_pace : (s.updCluster c f).pace = s.pace := rfl
@[simp] theorem State.updCluster_free : (s.updCluster c f).free = s.free := rfl
@[simp] theorem State.updCluster_outbox : (s.updCluster c f).outbox = s.outbox := rfl
@[simp] theorem State.updCluster_refTick : (s.updCluster c f).refTick = s.refTick := rfl
@[simp] theorem State.updCluster_offer : (s.updCluster c f).offer = s.offer := rfl
@[simp] theorem State.updCluster_accept : (s.updCluster c f).accept = s.accept := rfl
@[simp] theorem State.updCluster_acceptLocked : (s.updCluster c f).acceptLocked = s.acceptLocked := rfl
@[simp] theorem State.updCluster_firmware : (s.updCluster c f).firmware = s.firmware := rfl
@[simp] theorem State.updCluster_thermAt : (s.updCluster c f).thermAt = s.thermAt := rfl
@[simp] theorem State.updCluster_nextLid : (s.updCluster c f).nextLid = s.nextLid := rfl
@[simp] theorem State.updCluster_nextRec : (s.updCluster c f).nextRec = s.nextRec := rfl
@[simp] theorem State.updCluster_nextAge : (s.updCluster c f).nextAge = s.nextAge := rfl
@[simp] theorem State.updCluster_nextFence : (s.updCluster c f).nextFence = s.nextFence := rfl
@[simp] theorem State.updCluster_nextPost : (s.updCluster c f).nextPost = s.nextPost := rfl
@[simp] theorem State.updCluster_launches : (s.updCluster c f).launches = s.launches := rfl
@[simp] theorem State.updCluster_teams : (s.updCluster c f).teams = s.teams := rfl
@[simp] theorem State.updCluster_roles : (s.updCluster c f).roles = s.roles := rfl
@[simp] theorem State.updCluster_vfs : (s.updCluster c f).vfs = s.vfs := rfl
@[simp] theorem State.updCluster_parts : (s.updCluster c f).parts = s.parts := rfl
@[simp] theorem State.updCluster_cores : (s.updCluster c f).cores = s.cores := rfl
@[simp] theorem State.updCluster_dies : (s.updCluster c f).dies = s.dies := rfl
@[simp] theorem State.updCluster_hbmStacks : (s.updCluster c f).hbmStacks = s.hbmStacks := rfl
@[simp] theorem State.updCluster_hbm : (s.updCluster c f).hbm = s.hbm := rfl
@[simp] theorem State.updCluster_dirty : (s.updCluster c f).dirty = s.dirty := rfl
@[simp] theorem State.updCluster_homeHist : (s.updCluster c f).homeHist = s.homeHist := rfl
@[simp] theorem State.updCluster_pchOwner : (s.updCluster c f).pchOwner = s.pchOwner := rfl
@[simp] theorem State.updCluster_clusterOwner : (s.updCluster c f).clusterOwner = s.clusterOwner := rfl
@[simp] theorem State.updCluster_ports : (s.updCluster c f).ports = s.ports := rfl
@[simp] theorem State.updCluster_feps : (s.updCluster c f).feps = s.feps := rfl
@[simp] theorem State.updCluster_cached : (s.updCluster c f).cached = s.cached := rfl
@[simp] theorem State.updCluster_links : (s.updCluster c f).links = s.links := rfl
@[simp] theorem State.updCluster_linkDown : (s.updCluster c f).linkDown = s.linkDown := rfl
@[simp] theorem State.updCluster_xmssIndex : (s.updCluster c f).xmssIndex = s.xmssIndex := rfl
@[simp] theorem State.updCluster_tasks : (s.updCluster c f).tasks = s.tasks := rfl
@[simp] theorem State.updCluster_rows : (s.updCluster c f).rows = s.rows := rfl
@[simp] theorem State.updCluster_gangs : (s.updCluster c f).gangs = s.gangs := rfl
@[simp] theorem State.updCluster_fired : (s.updCluster c f).fired = s.fired := rfl

end

section
variable (s : State) (c : Nat) (f : Core → Core)
@[simp] theorem State.updCore_cur : (s.updCore c f).cur = s.cur := rfl
@[simp] theorem State.updCore_agenda : (s.updCore c f).agenda = s.agenda := rfl
@[simp] theorem State.updCore_pace : (s.updCore c f).pace = s.pace := rfl
@[simp] theorem State.updCore_free : (s.updCore c f).free = s.free := rfl
@[simp] theorem State.updCore_outbox : (s.updCore c f).outbox = s.outbox := rfl
@[simp] theorem State.updCore_refTick : (s.updCore c f).refTick = s.refTick := rfl
@[simp] theorem State.updCore_offer : (s.updCore c f).offer = s.offer := rfl
@[simp] theorem State.updCore_accept : (s.updCore c f).accept = s.accept := rfl
@[simp] theorem State.updCore_acceptLocked : (s.updCore c f).acceptLocked = s.acceptLocked := rfl
@[simp] theorem State.updCore_firmware : (s.updCore c f).firmware = s.firmware := rfl
@[simp] theorem State.updCore_thermAt : (s.updCore c f).thermAt = s.thermAt := rfl
@[simp] theorem State.updCore_nextLid : (s.updCore c f).nextLid = s.nextLid := rfl
@[simp] theorem State.updCore_nextRec : (s.updCore c f).nextRec = s.nextRec := rfl
@[simp] theorem State.updCore_nextAge : (s.updCore c f).nextAge = s.nextAge := rfl
@[simp] theorem State.updCore_nextFence : (s.updCore c f).nextFence = s.nextFence := rfl
@[simp] theorem State.updCore_nextPost : (s.updCore c f).nextPost = s.nextPost := rfl
@[simp] theorem State.updCore_launches : (s.updCore c f).launches = s.launches := rfl
@[simp] theorem State.updCore_teams : (s.updCore c f).teams = s.teams := rfl
@[simp] theorem State.updCore_roles : (s.updCore c f).roles = s.roles := rfl
@[simp] theorem State.updCore_vfs : (s.updCore c f).vfs = s.vfs := rfl
@[simp] theorem State.updCore_parts : (s.updCore c f).parts = s.parts := rfl
@[simp] theorem State.updCore_clusters : (s.updCore c f).clusters = s.clusters := rfl
@[simp] theorem State.updCore_dies : (s.updCore c f).dies = s.dies := rfl
@[simp] theorem State.updCore_hbmStacks : (s.updCore c f).hbmStacks = s.hbmStacks := rfl
@[simp] theorem State.updCore_hbm : (s.updCore c f).hbm = s.hbm := rfl
@[simp] theorem State.updCore_dirty : (s.updCore c f).dirty = s.dirty := rfl
@[simp] theorem State.updCore_homeHist : (s.updCore c f).homeHist = s.homeHist := rfl
@[simp] theorem State.updCore_pchOwner : (s.updCore c f).pchOwner = s.pchOwner := rfl
@[simp] theorem State.updCore_clusterOwner : (s.updCore c f).clusterOwner = s.clusterOwner := rfl
@[simp] theorem State.updCore_ports : (s.updCore c f).ports = s.ports := rfl
@[simp] theorem State.updCore_feps : (s.updCore c f).feps = s.feps := rfl
@[simp] theorem State.updCore_cached : (s.updCore c f).cached = s.cached := rfl
@[simp] theorem State.updCore_links : (s.updCore c f).links = s.links := rfl
@[simp] theorem State.updCore_linkDown : (s.updCore c f).linkDown = s.linkDown := rfl
@[simp] theorem State.updCore_xmssIndex : (s.updCore c f).xmssIndex = s.xmssIndex := rfl
@[simp] theorem State.updCore_tasks : (s.updCore c f).tasks = s.tasks := rfl
@[simp] theorem State.updCore_rows : (s.updCore c f).rows = s.rows := rfl
@[simp] theorem State.updCore_gangs : (s.updCore c f).gangs = s.gangs := rfl
@[simp] theorem State.updCore_fired : (s.updCore c f).fired = s.fired := rfl

end

section
variable (s : State) (d : Nat) (f : Die → Die)
@[simp] theorem State.updDie_cur : (s.updDie d f).cur = s.cur := rfl
@[simp] theorem State.updDie_agenda : (s.updDie d f).agenda = s.agenda := rfl
@[simp] theorem State.updDie_pace : (s.updDie d f).pace = s.pace := rfl
@[simp] theorem State.updDie_free : (s.updDie d f).free = s.free := rfl
@[simp] theorem State.updDie_outbox : (s.updDie d f).outbox = s.outbox := rfl
@[simp] theorem State.updDie_refTick : (s.updDie d f).refTick = s.refTick := rfl
@[simp] theorem State.updDie_offer : (s.updDie d f).offer = s.offer := rfl
@[simp] theorem State.updDie_accept : (s.updDie d f).accept = s.accept := rfl
@[simp] theorem State.updDie_acceptLocked : (s.updDie d f).acceptLocked = s.acceptLocked := rfl
@[simp] theorem State.updDie_firmware : (s.updDie d f).firmware = s.firmware := rfl
@[simp] theorem State.updDie_thermAt : (s.updDie d f).thermAt = s.thermAt := rfl
@[simp] theorem State.updDie_nextLid : (s.updDie d f).nextLid = s.nextLid := rfl
@[simp] theorem State.updDie_nextRec : (s.updDie d f).nextRec = s.nextRec := rfl
@[simp] theorem State.updDie_nextAge : (s.updDie d f).nextAge = s.nextAge := rfl
@[simp] theorem State.updDie_nextFence : (s.updDie d f).nextFence = s.nextFence := rfl
@[simp] theorem State.updDie_nextPost : (s.updDie d f).nextPost = s.nextPost := rfl
@[simp] theorem State.updDie_launches : (s.updDie d f).launches = s.launches := rfl
@[simp] theorem State.updDie_teams : (s.updDie d f).teams = s.teams := rfl
@[simp] theorem State.updDie_roles : (s.updDie d f).roles = s.roles := rfl
@[simp] theorem State.updDie_vfs : (s.updDie d f).vfs = s.vfs := rfl
@[simp] theorem State.updDie_parts : (s.updDie d f).parts = s.parts := rfl
@[simp] theorem State.updDie_clusters : (s.updDie d f).clusters = s.clusters := rfl
@[simp] theorem State.updDie_cores : (s.updDie d f).cores = s.cores := rfl
@[simp] theorem State.updDie_hbmStacks : (s.updDie d f).hbmStacks = s.hbmStacks := rfl
@[simp] theorem State.updDie_hbm : (s.updDie d f).hbm = s.hbm := rfl
@[simp] theorem State.updDie_dirty : (s.updDie d f).dirty = s.dirty := rfl
@[simp] theorem State.updDie_homeHist : (s.updDie d f).homeHist = s.homeHist := rfl
@[simp] theorem State.updDie_pchOwner : (s.updDie d f).pchOwner = s.pchOwner := rfl
@[simp] theorem State.updDie_clusterOwner : (s.updDie d f).clusterOwner = s.clusterOwner := rfl
@[simp] theorem State.updDie_ports : (s.updDie d f).ports = s.ports := rfl
@[simp] theorem State.updDie_feps : (s.updDie d f).feps = s.feps := rfl
@[simp] theorem State.updDie_cached : (s.updDie d f).cached = s.cached := rfl
@[simp] theorem State.updDie_links : (s.updDie d f).links = s.links := rfl
@[simp] theorem State.updDie_linkDown : (s.updDie d f).linkDown = s.linkDown := rfl
@[simp] theorem State.updDie_xmssIndex : (s.updDie d f).xmssIndex = s.xmssIndex := rfl
@[simp] theorem State.updDie_tasks : (s.updDie d f).tasks = s.tasks := rfl
@[simp] theorem State.updDie_rows : (s.updDie d f).rows = s.rows := rfl
@[simp] theorem State.updDie_gangs : (s.updDie d f).gangs = s.gangs := rfl
@[simp] theorem State.updDie_fired : (s.updDie d f).fired = s.fired := rfl

end

section
variable (s : State) (k : Nat) (f : Stack → Stack)
@[simp] theorem State.updStk_cur : (s.updStk k f).cur = s.cur := rfl
@[simp] theorem State.updStk_agenda : (s.updStk k f).agenda = s.agenda := rfl
@[simp] theorem State.updStk_pace : (s.updStk k f).pace = s.pace := rfl
@[simp] theorem State.updStk_free : (s.updStk k f).free = s.free := rfl
@[simp] theorem State.updStk_outbox : (s.updStk k f).outbox = s.outbox := rfl
@[simp] theorem State.updStk_refTick : (s.updStk k f).refTick = s.refTick := rfl
@[simp] theorem State.updStk_offer : (s.updStk k f).offer = s.offer := rfl
@[simp] theorem State.updStk_accept : (s.updStk k f).accept = s.accept := rfl
@[simp] theorem State.updStk_acceptLocked : (s.updStk k f).acceptLocked = s.acceptLocked := rfl
@[simp] theorem State.updStk_firmware : (s.updStk k f).firmware = s.firmware := rfl
@[simp] theorem State.updStk_thermAt : (s.updStk k f).thermAt = s.thermAt := rfl
@[simp] theorem State.updStk_nextLid : (s.updStk k f).nextLid = s.nextLid := rfl
@[simp] theorem State.updStk_nextRec : (s.updStk k f).nextRec = s.nextRec := rfl
@[simp] theorem State.updStk_nextAge : (s.updStk k f).nextAge = s.nextAge := rfl
@[simp] theorem State.updStk_nextFence : (s.updStk k f).nextFence = s.nextFence := rfl
@[simp] theorem State.updStk_nextPost : (s.updStk k f).nextPost = s.nextPost := rfl
@[simp] theorem State.updStk_launches : (s.updStk k f).launches = s.launches := rfl
@[simp] theorem State.updStk_teams : (s.updStk k f).teams = s.teams := rfl
@[simp] theorem State.updStk_roles : (s.updStk k f).roles = s.roles := rfl
@[simp] theorem State.updStk_vfs : (s.updStk k f).vfs = s.vfs := rfl
@[simp] theorem State.updStk_parts : (s.updStk k f).parts = s.parts := rfl
@[simp] theorem State.updStk_clusters : (s.updStk k f).clusters = s.clusters := rfl
@[simp] theorem State.updStk_cores : (s.updStk k f).cores = s.cores := rfl
@[simp] theorem State.updStk_dies : (s.updStk k f).dies = s.dies := rfl
@[simp] theorem State.updStk_hbm : (s.updStk k f).hbm = s.hbm := rfl
@[simp] theorem State.updStk_dirty : (s.updStk k f).dirty = s.dirty := rfl
@[simp] theorem State.updStk_homeHist : (s.updStk k f).homeHist = s.homeHist := rfl
@[simp] theorem State.updStk_pchOwner : (s.updStk k f).pchOwner = s.pchOwner := rfl
@[simp] theorem State.updStk_clusterOwner : (s.updStk k f).clusterOwner = s.clusterOwner := rfl
@[simp] theorem State.updStk_ports : (s.updStk k f).ports = s.ports := rfl
@[simp] theorem State.updStk_feps : (s.updStk k f).feps = s.feps := rfl
@[simp] theorem State.updStk_cached : (s.updStk k f).cached = s.cached := rfl
@[simp] theorem State.updStk_links : (s.updStk k f).links = s.links := rfl
@[simp] theorem State.updStk_linkDown : (s.updStk k f).linkDown = s.linkDown := rfl
@[simp] theorem State.updStk_xmssIndex : (s.updStk k f).xmssIndex = s.xmssIndex := rfl
@[simp] theorem State.updStk_tasks : (s.updStk k f).tasks = s.tasks := rfl
@[simp] theorem State.updStk_rows : (s.updStk k f).rows = s.rows := rfl
@[simp] theorem State.updStk_gangs : (s.updStk k f).gangs = s.gangs := rfl
@[simp] theorem State.updStk_fired : (s.updStk k f).fired = s.fired := rfl

end

section
variable (s : State) (pa : Nat) (b : Byte)
@[simp] theorem State.setHome_cur : (s.setHome pa b).cur = s.cur := rfl
@[simp] theorem State.setHome_agenda : (s.setHome pa b).agenda = s.agenda := rfl
@[simp] theorem State.setHome_pace : (s.setHome pa b).pace = s.pace := rfl
@[simp] theorem State.setHome_free : (s.setHome pa b).free = s.free := rfl
@[simp] theorem State.setHome_outbox : (s.setHome pa b).outbox = s.outbox := rfl
@[simp] theorem State.setHome_refTick : (s.setHome pa b).refTick = s.refTick := rfl
@[simp] theorem State.setHome_offer : (s.setHome pa b).offer = s.offer := rfl
@[simp] theorem State.setHome_accept : (s.setHome pa b).accept = s.accept := rfl
@[simp] theorem State.setHome_acceptLocked : (s.setHome pa b).acceptLocked = s.acceptLocked := rfl
@[simp] theorem State.setHome_firmware : (s.setHome pa b).firmware = s.firmware := rfl
@[simp] theorem State.setHome_thermAt : (s.setHome pa b).thermAt = s.thermAt := rfl
@[simp] theorem State.setHome_nextLid : (s.setHome pa b).nextLid = s.nextLid := rfl
@[simp] theorem State.setHome_nextRec : (s.setHome pa b).nextRec = s.nextRec := rfl
@[simp] theorem State.setHome_nextAge : (s.setHome pa b).nextAge = s.nextAge := rfl
@[simp] theorem State.setHome_nextFence : (s.setHome pa b).nextFence = s.nextFence := rfl
@[simp] theorem State.setHome_nextPost : (s.setHome pa b).nextPost = s.nextPost := rfl
@[simp] theorem State.setHome_launches : (s.setHome pa b).launches = s.launches := rfl
@[simp] theorem State.setHome_teams : (s.setHome pa b).teams = s.teams := rfl
@[simp] theorem State.setHome_roles : (s.setHome pa b).roles = s.roles := rfl
@[simp] theorem State.setHome_vfs : (s.setHome pa b).vfs = s.vfs := rfl
@[simp] theorem State.setHome_parts : (s.setHome pa b).parts = s.parts := rfl
@[simp] theorem State.setHome_clusters : (s.setHome pa b).clusters = s.clusters := rfl
@[simp] theorem State.setHome_cores : (s.setHome pa b).cores = s.cores := rfl
@[simp] theorem State.setHome_dies : (s.setHome pa b).dies = s.dies := rfl
@[simp] theorem State.setHome_hbmStacks : (s.setHome pa b).hbmStacks = s.hbmStacks := rfl
@[simp] theorem State.setHome_dirty : (s.setHome pa b).dirty = s.dirty := rfl
@[simp] theorem State.setHome_homeHist : (s.setHome pa b).homeHist = s.homeHist := rfl
@[simp] theorem State.setHome_pchOwner : (s.setHome pa b).pchOwner = s.pchOwner := rfl
@[simp] theorem State.setHome_clusterOwner : (s.setHome pa b).clusterOwner = s.clusterOwner := rfl
@[simp] theorem State.setHome_ports : (s.setHome pa b).ports = s.ports := rfl
@[simp] theorem State.setHome_feps : (s.setHome pa b).feps = s.feps := rfl
@[simp] theorem State.setHome_cached : (s.setHome pa b).cached = s.cached := rfl
@[simp] theorem State.setHome_links : (s.setHome pa b).links = s.links := rfl
@[simp] theorem State.setHome_linkDown : (s.setHome pa b).linkDown = s.linkDown := rfl
@[simp] theorem State.setHome_xmssIndex : (s.setHome pa b).xmssIndex = s.xmssIndex := rfl
@[simp] theorem State.setHome_tasks : (s.setHome pa b).tasks = s.tasks := rfl
@[simp] theorem State.setHome_rows : (s.setHome pa b).rows = s.rows := rfl
@[simp] theorem State.setHome_gangs : (s.setHome pa b).gangs = s.gangs := rfl
@[simp] theorem State.setHome_fired : (s.setHome pa b).fired = s.fired := rfl

end

/-! ## Reading a record after changing one -/

@[simp] theorem State.role_updRole_self (s : State) (rk : Nat) (f : Role → Role) : (s.updRole rk f).role rk = f (s.role rk) :=
  NMap.get_put_self _ _ _ _

theorem State.role_updRole_ne (s : State) {rk j : Nat} (f : Role → Role) (h : j ≠ rk) : (s.updRole rk f).role j = s.role j :=
  NMap.get_put_ne _ _ _ h

@[simp] theorem State.role_setTeam (s : State) (tk : Nat) (t : Team) (j : Nat) : (s.setTeam tk t).role j = s.role j := rfl

@[simp] theorem State.role_updTeam (s : State) (tk : Nat) (f : Team → Team) (j : Nat) : (s.updTeam tk f).role j = s.role j := rfl

@[simp] theorem State.role_updLaunch (s : State) (l : Nat) (f : Launch → Launch) (j : Nat) : (s.updLaunch l f).role j = s.role j := rfl

@[simp] theorem State.role_updVf (s : State) (v : Nat) (f : Vf → Vf) (j : Nat) : (s.updVf v f).role j = s.role j := rfl

@[simp] theorem State.role_updPart (s : State) (p : Nat) (f : Part → Part) (j : Nat) : (s.updPart p f).role j = s.role j := rfl

@[simp] theorem State.role_updCluster (s : State) (c : Nat) (f : Cluster → Cluster) (j : Nat) : (s.updCluster c f).role j = s.role j := rfl

@[simp] theorem State.role_updCore (s : State) (c : Nat) (f : Core → Core) (j : Nat) : (s.updCore c f).role j = s.role j := rfl

@[simp] theorem State.role_updDie (s : State) (d : Nat) (f : Die → Die) (j : Nat) : (s.updDie d f).role j = s.role j := rfl

@[simp] theorem State.role_updStk (s : State) (k : Nat) (f : Stack → Stack) (j : Nat) : (s.updStk k f).role j = s.role j := rfl

@[simp] theorem State.role_setHome (s : State) (pa : Nat) (b : Byte) (j : Nat) : (s.setHome pa b).role j = s.role j := rfl

@[simp] theorem State.team_updTeam_self (s : State) (tk : Nat) (f : Team → Team) : (s.updTeam tk f).team tk = f (s.team tk) :=
  NMap.get_put_self _ _ _ _

theorem State.team_updTeam_ne (s : State) {tk j : Nat} (f : Team → Team) (h : j ≠ tk) : (s.updTeam tk f).team j = s.team j :=
  NMap.get_put_ne _ _ _ h

@[simp] theorem State.team_setRole (s : State) (rk : Nat) (r : Role) (j : Nat) : (s.setRole rk r).team j = s.team j := rfl

@[simp] theorem State.team_updRole (s : State) (rk : Nat) (f : Role → Role) (j : Nat) : (s.updRole rk f).team j = s.team j := rfl

@[simp] theorem State.team_updLaunch (s : State) (l : Nat) (f : Launch → Launch) (j : Nat) : (s.updLaunch l f).team j = s.team j := rfl

@[simp] theorem State.team_updVf (s : State) (v : Nat) (f : Vf → Vf) (j : Nat) : (s.updVf v f).team j = s.team j := rfl

@[simp] theorem State.team_updPart (s : State) (p : Nat) (f : Part → Part) (j : Nat) : (s.updPart p f).team j = s.team j := rfl

@[simp] theorem State.team_updCluster (s : State) (c : Nat) (f : Cluster → Cluster) (j : Nat) : (s.updCluster c f).team j = s.team j := rfl

@[simp] theorem State.team_updCore (s : State) (c : Nat) (f : Core → Core) (j : Nat) : (s.updCore c f).team j = s.team j := rfl

@[simp] theorem State.team_updDie (s : State) (d : Nat) (f : Die → Die) (j : Nat) : (s.updDie d f).team j = s.team j := rfl

@[simp] theorem State.team_updStk (s : State) (k : Nat) (f : Stack → Stack) (j : Nat) : (s.updStk k f).team j = s.team j := rfl

@[simp] theorem State.team_setHome (s : State) (pa : Nat) (b : Byte) (j : Nat) : (s.setHome pa b).team j = s.team j := rfl

@[simp] theorem State.launch_updLaunch_self (s : State) (l : Nat) (f : Launch → Launch) : (s.updLaunch l f).launch l = f (s.launch l) :=
  NMap.get_put_self _ _ _ _

theorem State.launch_updLaunch_ne (s : State) {l j : Nat} (f : Launch → Launch) (h : j ≠ l) : (s.updLaunch l f).launch j = s.launch j :=
  NMap.get_put_ne _ _ _ h

@[simp] theorem State.launch_setRole (s : State) (rk : Nat) (r : Role) (j : Nat) : (s.setRole rk r).launch j = s.launch j := rfl

@[simp] theorem State.launch_updRole (s : State) (rk : Nat) (f : Role → Role) (j : Nat) : (s.updRole rk f).launch j = s.launch j := rfl

@[simp] theorem State.launch_setTeam (s : State) (tk : Nat) (t : Team) (j : Nat) : (s.setTeam tk t).launch j = s.launch j := rfl

@[simp] theorem State.launch_updTeam (s : State) (tk : Nat) (f : Team → Team) (j : Nat) : (s.updTeam tk f).launch j = s.launch j := rfl

@[simp] theorem State.launch_updVf (s : State) (v : Nat) (f : Vf → Vf) (j : Nat) : (s.updVf v f).launch j = s.launch j := rfl

@[simp] theorem State.launch_updPart (s : State) (p : Nat) (f : Part → Part) (j : Nat) : (s.updPart p f).launch j = s.launch j := rfl

@[simp] theorem State.launch_updCluster (s : State) (c : Nat) (f : Cluster → Cluster) (j : Nat) : (s.updCluster c f).launch j = s.launch j := rfl

@[simp] theorem State.launch_updCore (s : State) (c : Nat) (f : Core → Core) (j : Nat) : (s.updCore c f).launch j = s.launch j := rfl

@[simp] theorem State.launch_updDie (s : State) (d : Nat) (f : Die → Die) (j : Nat) : (s.updDie d f).launch j = s.launch j := rfl

@[simp] theorem State.launch_updStk (s : State) (k : Nat) (f : Stack → Stack) (j : Nat) : (s.updStk k f).launch j = s.launch j := rfl

@[simp] theorem State.launch_setHome (s : State) (pa : Nat) (b : Byte) (j : Nat) : (s.setHome pa b).launch j = s.launch j := rfl

@[simp] theorem State.vf_updVf_self (s : State) (v : Nat) (f : Vf → Vf) : (s.updVf v f).vf v = f (s.vf v) :=
  NMap.get_put_self _ _ _ _

theorem State.vf_updVf_ne (s : State) {v j : Nat} (f : Vf → Vf) (h : j ≠ v) : (s.updVf v f).vf j = s.vf j :=
  NMap.get_put_ne _ _ _ h

@[simp] theorem State.vf_setRole (s : State) (rk : Nat) (r : Role) (j : Nat) : (s.setRole rk r).vf j = s.vf j := rfl

@[simp] theorem State.vf_updRole (s : State) (rk : Nat) (f : Role → Role) (j : Nat) : (s.updRole rk f).vf j = s.vf j := rfl

@[simp] theorem State.vf_setTeam (s : State) (tk : Nat) (t : Team) (j : Nat) : (s.setTeam tk t).vf j = s.vf j := rfl

@[simp] theorem State.vf_updTeam (s : State) (tk : Nat) (f : Team → Team) (j : Nat) : (s.updTeam tk f).vf j = s.vf j := rfl

@[simp] theorem State.vf_updLaunch (s : State) (l : Nat) (f : Launch → Launch) (j : Nat) : (s.updLaunch l f).vf j = s.vf j := rfl

@[simp] theorem State.vf_updPart (s : State) (p : Nat) (f : Part → Part) (j : Nat) : (s.updPart p f).vf j = s.vf j := rfl

@[simp] theorem State.vf_updCluster (s : State) (c : Nat) (f : Cluster → Cluster) (j : Nat) : (s.updCluster c f).vf j = s.vf j := rfl

@[simp] theorem State.vf_updCore (s : State) (c : Nat) (f : Core → Core) (j : Nat) : (s.updCore c f).vf j = s.vf j := rfl

@[simp] theorem State.vf_updDie (s : State) (d : Nat) (f : Die → Die) (j : Nat) : (s.updDie d f).vf j = s.vf j := rfl

@[simp] theorem State.vf_updStk (s : State) (k : Nat) (f : Stack → Stack) (j : Nat) : (s.updStk k f).vf j = s.vf j := rfl

@[simp] theorem State.vf_setHome (s : State) (pa : Nat) (b : Byte) (j : Nat) : (s.setHome pa b).vf j = s.vf j := rfl

@[simp] theorem State.part_updPart_self (s : State) (p : Nat) (f : Part → Part) : (s.updPart p f).part p = f (s.part p) :=
  NMap.get_put_self _ _ _ _

theorem State.part_updPart_ne (s : State) {p j : Nat} (f : Part → Part) (h : j ≠ p) : (s.updPart p f).part j = s.part j :=
  NMap.get_put_ne _ _ _ h

@[simp] theorem State.part_setRole (s : State) (rk : Nat) (r : Role) (j : Nat) : (s.setRole rk r).part j = s.part j := rfl

@[simp] theorem State.part_updRole (s : State) (rk : Nat) (f : Role → Role) (j : Nat) : (s.updRole rk f).part j = s.part j := rfl

@[simp] theorem State.part_setTeam (s : State) (tk : Nat) (t : Team) (j : Nat) : (s.setTeam tk t).part j = s.part j := rfl

@[simp] theorem State.part_updTeam (s : State) (tk : Nat) (f : Team → Team) (j : Nat) : (s.updTeam tk f).part j = s.part j := rfl

@[simp] theorem State.part_updLaunch (s : State) (l : Nat) (f : Launch → Launch) (j : Nat) : (s.updLaunch l f).part j = s.part j := rfl

@[simp] theorem State.part_updVf (s : State) (v : Nat) (f : Vf → Vf) (j : Nat) : (s.updVf v f).part j = s.part j := rfl

@[simp] theorem State.part_updCluster (s : State) (c : Nat) (f : Cluster → Cluster) (j : Nat) : (s.updCluster c f).part j = s.part j := rfl

@[simp] theorem State.part_updCore (s : State) (c : Nat) (f : Core → Core) (j : Nat) : (s.updCore c f).part j = s.part j := rfl

@[simp] theorem State.part_updDie (s : State) (d : Nat) (f : Die → Die) (j : Nat) : (s.updDie d f).part j = s.part j := rfl

@[simp] theorem State.part_updStk (s : State) (k : Nat) (f : Stack → Stack) (j : Nat) : (s.updStk k f).part j = s.part j := rfl

@[simp] theorem State.part_setHome (s : State) (pa : Nat) (b : Byte) (j : Nat) : (s.setHome pa b).part j = s.part j := rfl

@[simp] theorem State.cluster_updCluster_self (s : State) (c : Nat) (f : Cluster → Cluster) : (s.updCluster c f).cluster c = f (s.cluster c) :=
  NMap.get_put_self _ _ _ _

theorem State.cluster_updCluster_ne (s : State) {c j : Nat} (f : Cluster → Cluster) (h : j ≠ c) : (s.updCluster c f).cluster j = s.cluster j :=
  NMap.get_put_ne _ _ _ h

@[simp] theorem State.cluster_setRole (s : State) (rk : Nat) (r : Role) (j : Nat) : (s.setRole rk r).cluster j = s.cluster j := rfl

@[simp] theorem State.cluster_updRole (s : State) (rk : Nat) (f : Role → Role) (j : Nat) : (s.updRole rk f).cluster j = s.cluster j := rfl

@[simp] theorem State.cluster_setTeam (s : State) (tk : Nat) (t : Team) (j : Nat) : (s.setTeam tk t).cluster j = s.cluster j := rfl

@[simp] theorem State.cluster_updTeam (s : State) (tk : Nat) (f : Team → Team) (j : Nat) : (s.updTeam tk f).cluster j = s.cluster j := rfl

@[simp] theorem State.cluster_updLaunch (s : State) (l : Nat) (f : Launch → Launch) (j : Nat) : (s.updLaunch l f).cluster j = s.cluster j := rfl

@[simp] theorem State.cluster_updVf (s : State) (v : Nat) (f : Vf → Vf) (j : Nat) : (s.updVf v f).cluster j = s.cluster j := rfl

@[simp] theorem State.cluster_updPart (s : State) (p : Nat) (f : Part → Part) (j : Nat) : (s.updPart p f).cluster j = s.cluster j := rfl

@[simp] theorem State.cluster_updCore (s : State) (c : Nat) (f : Core → Core) (j : Nat) : (s.updCore c f).cluster j = s.cluster j := rfl

@[simp] theorem State.cluster_updDie (s : State) (d : Nat) (f : Die → Die) (j : Nat) : (s.updDie d f).cluster j = s.cluster j := rfl

@[simp] theorem State.cluster_updStk (s : State) (k : Nat) (f : Stack → Stack) (j : Nat) : (s.updStk k f).cluster j = s.cluster j := rfl

@[simp] theorem State.cluster_setHome (s : State) (pa : Nat) (b : Byte) (j : Nat) : (s.setHome pa b).cluster j = s.cluster j := rfl

@[simp] theorem State.core_updCore_self (s : State) (c : Nat) (f : Core → Core) : (s.updCore c f).core c = f (s.core c) :=
  NMap.get_put_self _ _ _ _

theorem State.core_updCore_ne (s : State) {c j : Nat} (f : Core → Core) (h : j ≠ c) : (s.updCore c f).core j = s.core j :=
  NMap.get_put_ne _ _ _ h

@[simp] theorem State.core_setRole (s : State) (rk : Nat) (r : Role) (j : Nat) : (s.setRole rk r).core j = s.core j := rfl

@[simp] theorem State.core_updRole (s : State) (rk : Nat) (f : Role → Role) (j : Nat) : (s.updRole rk f).core j = s.core j := rfl

@[simp] theorem State.core_setTeam (s : State) (tk : Nat) (t : Team) (j : Nat) : (s.setTeam tk t).core j = s.core j := rfl

@[simp] theorem State.core_updTeam (s : State) (tk : Nat) (f : Team → Team) (j : Nat) : (s.updTeam tk f).core j = s.core j := rfl

@[simp] theorem State.core_updLaunch (s : State) (l : Nat) (f : Launch → Launch) (j : Nat) : (s.updLaunch l f).core j = s.core j := rfl

@[simp] theorem State.core_updVf (s : State) (v : Nat) (f : Vf → Vf) (j : Nat) : (s.updVf v f).core j = s.core j := rfl

@[simp] theorem State.core_updPart (s : State) (p : Nat) (f : Part → Part) (j : Nat) : (s.updPart p f).core j = s.core j := rfl

@[simp] theorem State.core_updCluster (s : State) (c : Nat) (f : Cluster → Cluster) (j : Nat) : (s.updCluster c f).core j = s.core j := rfl

@[simp] theorem State.core_updDie (s : State) (d : Nat) (f : Die → Die) (j : Nat) : (s.updDie d f).core j = s.core j := rfl

@[simp] theorem State.core_updStk (s : State) (k : Nat) (f : Stack → Stack) (j : Nat) : (s.updStk k f).core j = s.core j := rfl

@[simp] theorem State.core_setHome (s : State) (pa : Nat) (b : Byte) (j : Nat) : (s.setHome pa b).core j = s.core j := rfl

@[simp] theorem State.die_updDie_self (s : State) (d : Nat) (f : Die → Die) : (s.updDie d f).die d = f (s.die d) :=
  NMap.get_put_self _ _ _ _

theorem State.die_updDie_ne (s : State) {d j : Nat} (f : Die → Die) (h : j ≠ d) : (s.updDie d f).die j = s.die j :=
  NMap.get_put_ne _ _ _ h

@[simp] theorem State.die_setRole (s : State) (rk : Nat) (r : Role) (j : Nat) : (s.setRole rk r).die j = s.die j := rfl

@[simp] theorem State.die_updRole (s : State) (rk : Nat) (f : Role → Role) (j : Nat) : (s.updRole rk f).die j = s.die j := rfl

@[simp] theorem State.die_setTeam (s : State) (tk : Nat) (t : Team) (j : Nat) : (s.setTeam tk t).die j = s.die j := rfl

@[simp] theorem State.die_updTeam (s : State) (tk : Nat) (f : Team → Team) (j : Nat) : (s.updTeam tk f).die j = s.die j := rfl

@[simp] theorem State.die_updLaunch (s : State) (l : Nat) (f : Launch → Launch) (j : Nat) : (s.updLaunch l f).die j = s.die j := rfl

@[simp] theorem State.die_updVf (s : State) (v : Nat) (f : Vf → Vf) (j : Nat) : (s.updVf v f).die j = s.die j := rfl

@[simp] theorem State.die_updPart (s : State) (p : Nat) (f : Part → Part) (j : Nat) : (s.updPart p f).die j = s.die j := rfl

@[simp] theorem State.die_updCluster (s : State) (c : Nat) (f : Cluster → Cluster) (j : Nat) : (s.updCluster c f).die j = s.die j := rfl

@[simp] theorem State.die_updCore (s : State) (c : Nat) (f : Core → Core) (j : Nat) : (s.updCore c f).die j = s.die j := rfl

@[simp] theorem State.die_updStk (s : State) (k : Nat) (f : Stack → Stack) (j : Nat) : (s.updStk k f).die j = s.die j := rfl

@[simp] theorem State.die_setHome (s : State) (pa : Nat) (b : Byte) (j : Nat) : (s.setHome pa b).die j = s.die j := rfl

@[simp] theorem State.stk_updStk_self (s : State) (k : Nat) (f : Stack → Stack) : (s.updStk k f).stk k = f (s.stk k) :=
  NMap.get_put_self _ _ _ _

theorem State.stk_updStk_ne (s : State) {k j : Nat} (f : Stack → Stack) (h : j ≠ k) : (s.updStk k f).stk j = s.stk j :=
  NMap.get_put_ne _ _ _ h

@[simp] theorem State.stk_setRole (s : State) (rk : Nat) (r : Role) (j : Nat) : (s.setRole rk r).stk j = s.stk j := rfl

@[simp] theorem State.stk_updRole (s : State) (rk : Nat) (f : Role → Role) (j : Nat) : (s.updRole rk f).stk j = s.stk j := rfl

@[simp] theorem State.stk_setTeam (s : State) (tk : Nat) (t : Team) (j : Nat) : (s.setTeam tk t).stk j = s.stk j := rfl

@[simp] theorem State.stk_updTeam (s : State) (tk : Nat) (f : Team → Team) (j : Nat) : (s.updTeam tk f).stk j = s.stk j := rfl

@[simp] theorem State.stk_updLaunch (s : State) (l : Nat) (f : Launch → Launch) (j : Nat) : (s.updLaunch l f).stk j = s.stk j := rfl

@[simp] theorem State.stk_updVf (s : State) (v : Nat) (f : Vf → Vf) (j : Nat) : (s.updVf v f).stk j = s.stk j := rfl

@[simp] theorem State.stk_updPart (s : State) (p : Nat) (f : Part → Part) (j : Nat) : (s.updPart p f).stk j = s.stk j := rfl

@[simp] theorem State.stk_updCluster (s : State) (c : Nat) (f : Cluster → Cluster) (j : Nat) : (s.updCluster c f).stk j = s.stk j := rfl

@[simp] theorem State.stk_updCore (s : State) (c : Nat) (f : Core → Core) (j : Nat) : (s.updCore c f).stk j = s.stk j := rfl

@[simp] theorem State.stk_updDie (s : State) (d : Nat) (f : Die → Die) (j : Nat) : (s.updDie d f).stk j = s.stk j := rfl

@[simp] theorem State.stk_setHome (s : State) (pa : Nat) (b : Byte) (j : Nat) : (s.setHome pa b).stk j = s.stk j := rfl

@[simp] theorem State.homeByte_setHome_self (s : State) (pa : Nat) (b : Byte) : (s.setHome pa b).homeByte pa = b :=
  NMap.get_set_self _ _ _ _

theorem State.homeByte_setHome_ne (s : State) {pa j : Nat} (b : Byte) (h : j ≠ pa) :
    (s.setHome pa b).homeByte j = s.homeByte j :=
  NMap.get_set_ne _ _ _ h

/-- Every write of home memory keeps the canonical form. -/
theorem State.wf_setHome (s : State) (pa : Nat) (b : Byte) (h : Memory.wf s.hbm = true) :
    Memory.wf (s.setHome pa b).hbm = true :=
  NMap.wf_set _ _ h

end Sys2Proof.Machine
end

