-- ==== Sys2Proof/Laws/Memory.lean ====
section
/-! SUPPORT. What an operation on global memory can change: home bytes, dirty lines, and what roles have seen written;
and it keeps the canonical form of home memory. -/

namespace Sys2Proof.Machine
open Sys2Proof

/-- `t` is `s` after writes of home bytes and dirty lines and the wake-ups that go with them. -/
def MemStep (s t : State) : Prop :=
  ∃ (h : NMap Byte) (d : NMap DirtyLine) (ls : List Nat),
    t = { s with hbm := h, dirty := d, roles := s.roles.map fun e => (e.1, ls.foldl Role.sawWrite e.2) } ∧
    (Memory.wf s.hbm = true → Memory.wf h = true)

theorem map_self (m : NMap Role) : (m.map fun e => (e.1, e.2)) = m := by
  induction m with
  | nil => rfl
  | cons e t ih => simp [ih]

theorem MemStep.refl (s : State) : MemStep s s :=
  ⟨s.hbm, s.dirty, [], by simp [map_self], id⟩

theorem MemStep.trans {s t u : State} (h : MemStep s t) (g : MemStep t u) : MemStep s u := by
  obtain ⟨h1, d1, l1, rfl, w1⟩ := h
  obtain ⟨h2, d2, l2, rfl, w2⟩ := g
  exact ⟨h2, d2, l1 ++ l2, by simp [List.map_map, Function.comp_def, List.foldl_append], fun w => w2 (w1 w)⟩

/-- A list of memory steps is one. -/
theorem MemStep.foldl {β : Type} {f : State → β → State} (hf : ∀ t x, MemStep t (f t x)) (l : List β) (s : State) :
    MemStep s (l.foldl f s) := by
  induction l generalizing s with
  | nil => exact MemStep.refl s
  | cons x t ih => exact (hf s x).trans (ih (f s x))

theorem memStep_dirty (s : State) (d : NMap DirtyLine) : MemStep s { s with dirty := d } :=
  ⟨s.hbm, d, [], by simp [map_self], id⟩

theorem memStep_setHome (s : State) (pa : Nat) (b : Byte) : MemStep s (s.setHome pa b) :=
  ⟨_, s.dirty, [], by simp [map_self]; rfl, fun w => NMap.wf_set pa b w⟩

theorem memStep_noteWrite (s : State) (line : Nat) : MemStep s (s.noteWrite line) :=
  ⟨s.hbm, s.dirty, [line], rfl, id⟩

theorem memStep_writeBack (s : State) (line : Nat) : MemStep s (s.writeBack line) := by
  unfold State.writeBack
  split
  · exact MemStep.refl s
  · dsimp only
    split
    · exact (memStep_dirty s _).trans (MemStep.foldl (fun t e => memStep_setHome t _ _) _ _)
    · exact memStep_dirty s _

theorem memStep_dropDirty (s : State) (line : Nat) : MemStep s (s.dropDirty line) := memStep_dirty s _

theorem memStep_recallGrain (s : State) (g : Nat) : MemStep s (s.recallGrain g) :=
  MemStep.foldl memStep_writeBack _ _

theorem memStep_l2Room (s : State) (cluster : Nat) : MemStep s (s.l2Room cluster) := by
  unfold State.l2Room
  split
  · exact MemStep.refl s
  · split
    · split
      · exact memStep_writeBack s _
      · exact MemStep.refl s
    · exact MemStep.refl s

theorem memStep_dirtyByte (s : State) (c : Holder) (part ia : Nat) (b : Byte) : MemStep s (s.dirtyByte c part ia b) := by
  have room (u : State) (k : Nat) : MemStep u (if u.dirty.has k then u else u.l2Room c.cluster) := by
    split
    · exact MemStep.refl u
    · exact memStep_l2Room u _
  unfold State.dirtyByte
  dsimp only
  refine MemStep.trans ?_ (memStep_dirty _ _)
  split
  · split
    · exact room s _
    · exact (memStep_recallGrain s _).trans (room _ _)
  · exact room s _

/-- A store by a core is a memory step. -/
theorem memStep_storeX (s : State) (c : Holder) (x : Xlat) (bs : List Byte) : MemStep s (s.storeX c x bs) := by
  unfold State.storeX
  exact (MemStep.foldl (fun t e => memStep_dirtyByte t _ _ _ _) _ _).trans (MemStep.foldl memStep_noteWrite _ _)

/-- A write at the home is a memory step. -/
theorem memStep_homeWriteX (s : State) (x : Xlat) (bs : List Byte) : MemStep s (s.homeWriteX x bs) := by
  unfold State.homeWriteX
  exact ((MemStep.foldl memStep_recallGrain _ _).trans (MemStep.foldl (fun t e => memStep_setHome t _ _) _ _)).trans
    (MemStep.foldl memStep_noteWrite _ _)

/-- A depot write is a memory step. -/
theorem memStep_depotWriteX (s : State) (x : Xlat) (bs : List Byte) : MemStep s (s.depotWriteX x bs) := by
  unfold State.depotWriteX
  exact (MemStep.foldl (fun t e => memStep_setHome t _ _) _ _).trans (MemStep.foldl memStep_noteWrite _ _)

theorem memStep_invLine (s : State) (line : Nat) : MemStep s (s.invLine line) := by
  unfold State.invLine
  split
  · exact (memStep_dropDirty s line).trans (memStep_noteWrite _ line)
  · exact memStep_dropDirty s line

/-! ## What a memory step leaves -/

/-- Role `q` but for its monitored waits, which are those of `r` (R190, R199, R293). -/
def Role.sameWaits (q r : Role) : Role := { q with waita := r.waita, aside := r.aside, armed := r.armed }

/-- Seeing writes changes a role's monitored waits alone. -/
theorem sawWrites_frame (ls : List Nat) (r : Role) : (ls.foldl Role.sawWrite r).sameWaits r = r := by
  induction ls generalizing r with
  | nil => rfl
  | cons l t ih =>
    have e : ∀ q : Role, q.sameWaits r = (q.sameWaits (r.sawWrite l)).sameWaits r := fun q => rfl
    rw [List.foldl_cons, e, ih (r.sawWrite l)]
    rfl

theorem sawWrites_empty (ls : List Nat) : ls.foldl Role.sawWrite Role.empty = Role.empty := by
  induction ls with
  | nil => rfl
  | cons l t ih => exact ih

theorem get_mapVals {α : Type} (d : α) (f : α → α) (hd : f d = d) (m : NMap α) (k : Nat) :
    NMap.get d (m.map fun e => (e.1, f e.2)) k = f (NMap.get d m k) := by
  induction m with
  | nil => exact hd.symm
  | cons e t ih =>
    obtain ⟨k', v⟩ := e
    by_cases h : k = k'
    · simp [NMap.get, h]
    · simpa [NMap.get, h] using ih

/-- A role after a memory step: only its monitored waits may have changed. -/
theorem MemStep.role {s t : State} (h : MemStep s t) (k : Nat) :
    (t.role k).sameWaits (s.role k) = s.role k := by
  obtain ⟨hb, d, ls, rfl, -⟩ := h
  have e : State.role { s with hbm := hb, dirty := d, roles := s.roles.map fun e => (e.1, ls.foldl Role.sawWrite e.2) } k
      = ls.foldl Role.sawWrite (s.role k) :=
    get_mapVals Role.empty (fun r => ls.foldl Role.sawWrite r) (sawWrites_empty ls) s.roles k
  rw [e]
  exact sawWrites_frame ls _

/-- Everything but roles, home bytes and dirty lines stays. -/
theorem MemStep.rest {s t : State} (h : MemStep s t) :
    { t with roles := s.roles, hbm := s.hbm, dirty := s.dirty } = s := by
  obtain ⟨hb, d, ls, rfl, -⟩ := h
  rfl

theorem MemStep.wf {s t : State} (h : MemStep s t) (w : s.MemOk) : t.MemOk := by
  obtain ⟨hb, d, ls, rfl, hw⟩ := h
  exact hw w

end Sys2Proof.Machine
end

