-- ==== Sys2Proof/Laws/Faults.lean ====
section
/-! SUPPORT. Fault records: the bytes of a record, and what raising one leaves (R339, R341, R381). -/

namespace Sys2Proof.Machine
open Sys2Proof

/-! ## The bytes of a record -/

theorem get?_foldl_set_ne (l : List (Byte × Nat)) (m : NMap Byte) (k : Nat) (h : ∀ e ∈ l, e.2 ≠ k) :
    (l.foldl (fun m e => m.set 0 e.2 e.1) m).get 0 k = m.get 0 k := by
  induction l generalizing m with
  | nil => rfl
  | cons e t ih =>
    rw [List.foldl_cons, ih _ fun x hx => h x (List.mem_cons_of_mem _ hx)]
    exact NMap.get_set_ne _ _ _ (h e (List.mem_cons_self ..)).symm

theorem byteMap_from (bs : List Byte) : ∀ (i : Nat) (m : NMap Byte) (k : Nat), i ≤ k →
    ((bs.zipIdx i).foldl (fun m e => m.set 0 e.2 e.1) m).get 0 k = if h : k - i < bs.length then bs[k - i] else m.get 0 k := by
  induction bs with
  | nil => intro i m k h; simp
  | cons b t ih =>
    intro i m k h
    simp only [List.zipIdx_cons, List.foldl_cons, List.length_cons]
    by_cases e : k = i
    · subst e
      rw [get?_foldl_set_ne]
      · simp
      · intro x hx
        have := List.le_snd_of_mem_zipIdx hx
        omega
    · rw [ih (i+1) _ k (by omega)]
      have h1 : k - i = (k - (i+1)) + 1 := by omega
      by_cases h2 : k - (i+1) < t.length
      · have : k - i < t.length + 1 := by omega
        simp [h2, h1]
      · have : ¬ k - i < t.length + 1 := by omega
        simp only [h2, this, dite_false]
        exact NMap.get_set_ne _ _ _ e

/-- Reading a byte of a byte map. -/
theorem byteMap_get (bs : List Byte) (k : Nat) : (byteMap bs).get 0 k = bs.getD k 0 := by
  unfold byteMap
  rw [byteMap_from bs 0 [] k (by omega)]
  by_cases h : k < bs.length <;> simp [h, List.getD_eq_getElem?_getD]

theorem leNat_leBytes (n v : Nat) : leNat (leBytes n v) = v % 2 ^ (8 * n) := by
  induction n generalizing v with
  | zero => simp [leBytes, leNat, Nat.mod_one]
  | succ n ih =>
    simp only [leBytes, leNat, ih, BitVec.toNat_ofNat]
    rw [show 8 * (n + 1) = 8 + 8 * n by ring, Nat.pow_add, Nat.mod_mul]

theorem leBytes_length (n v : Nat) : (leBytes n v).length = n := by
  induction n generalizing v with
  | zero => rfl
  | succ n ih => simp [leBytes, ih]

theorem map_getD_range (a m b : List Byte) : (rangeFrom a.length m.length).map ((a ++ m ++ b).getD · 0) = m := by
  have key : ∀ (l : List Byte) (n : Nat) (p : List Byte), p.length = n → ∀ b, (rangeFrom n l.length).map ((p ++ l ++ b).getD · 0) = l := by
    intro l
    induction l with
    | nil => intro n p hp b; rfl
    | cons x t ih =>
      intro n p hp b
      simp only [List.length_cons, rangeFrom, List.map_cons]
      have h1 := ih (n+1) (p ++ [x]) (by simp [hp]) b
      have h2 : p ++ [x] ++ t ++ b = p ++ (x :: t) ++ b := by simp
      rw [h2] at h1
      rw [h1]
      simp [List.getD_eq_getElem?_getD, ← hp]
  exact key m _ a rfl b

/-- A field of bytes written one behind the other. -/
theorem fieldAt_byteMap (a b : List Byte) (n v off : Nat) (h : a.length = off) :
    fieldAt (byteMap (a ++ leBytes n v ++ b)) off n = v % 2 ^ (8 * n) := by
  have m := map_getD_range a (leBytes n v) b
  rw [leBytes_length, h] at m
  have e := (List.map_congr_left (l := rangeFrom off n) fun k _ => byteMap_get (a ++ leBytes n v ++ b) k).trans m
  rw [fieldAt, e, leNat_leBytes]

/-- Bytes of fields written one behind the other, each by its length and value. -/
def fieldBytes (fs : List (Nat × Nat)) : List Byte := fs.flatMap fun f => leBytes f.1 f.2

theorem fieldAt_fieldBytes (p q : List (Nat × Nat)) (n v off : Nat) (h : (p.map Prod.fst).sum = off) :
    fieldAt (byteMap (fieldBytes (p ++ (n, v) :: q))) off n = v % 2 ^ (8 * n) := by
  have e : fieldBytes (p ++ (n, v) :: q) = fieldBytes p ++ leBytes n v ++ fieldBytes q := by
    simp [fieldBytes]
  rw [e]
  refine fieldAt_byteMap _ _ _ _ _ ?_
  rw [← h]
  clear h e
  induction p with
  | nil => rfl
  | cons a t ih => simp only [fieldBytes, List.flatMap_cons, List.length_append, leBytes_length, List.map_cons, List.sum_cons] at ih ⊢; rw [ih]

/-- A fault record as fields (R339). -/
theorem recBytes_fields (i : RecInfo) (recid vf time free : Nat) : recBytes i recid vf time free =
    fieldBytes [(2, codeNum i.code), (1, i.sub), (1, i.flags), (4, recid), (8, i.team.val free), (1, i.role), (1, i.queue),
      (2, vf), (4, i.pc), (8, i.va), (8, i.pa), (8, time), (16, 0), (128, i.lanes)] := by
  simp [recBytes, fieldBytes]

/-- The fields of a fault record, read back (R339). -/
theorem recBytes_read (i : RecInfo) (recid vf time free : Nat) :
    let m := byteMap (recBytes i recid vf time free)
    fieldAt m 0 2 = codeNum i.code % 2 ^ 16 ∧ fieldAt m 2 1 = i.sub % 2 ^ 8 ∧ fieldAt m 3 1 = i.flags % 2 ^ 8 ∧
    fieldAt m 4 4 = recid % 2 ^ 32 ∧ fieldAt m 8 8 = i.team.val free % 2 ^ 64 ∧ fieldAt m 16 1 = i.role % 2 ^ 8 ∧
    fieldAt m 17 1 = i.queue % 2 ^ 8 ∧ fieldAt m 18 2 = vf % 2 ^ 16 ∧ fieldAt m 20 4 = i.pc % 2 ^ 32 ∧
    fieldAt m 24 8 = i.va % 2 ^ 64 ∧ fieldAt m 32 8 = i.pa % 2 ^ 64 ∧ fieldAt m 40 8 = time % 2 ^ 64 ∧
    fieldAt m 48 16 = 0 ∧ fieldAt m 64 128 = i.lanes % 2 ^ 1024 := by
  intro m
  have e : m = byteMap (fieldBytes _) := congrArg byteMap (recBytes_fields i recid vf time free)
  rw [e]
  refine ⟨fieldAt_fieldBytes [] _ _ _ _ rfl, fieldAt_fieldBytes [_] _ _ _ _ rfl, fieldAt_fieldBytes [_, _] _ _ _ _ rfl,
    fieldAt_fieldBytes [_, _, _] _ _ _ _ rfl, fieldAt_fieldBytes [_, _, _, _] _ _ _ _ rfl,
    fieldAt_fieldBytes [_, _, _, _, _] _ _ _ _ rfl, fieldAt_fieldBytes [_, _, _, _, _, _] _ _ _ _ rfl,
    fieldAt_fieldBytes [_, _, _, _, _, _, _] _ _ _ _ rfl, fieldAt_fieldBytes [_, _, _, _, _, _, _, _] _ _ _ _ rfl,
    fieldAt_fieldBytes [_, _, _, _, _, _, _, _, _] _ _ _ _ rfl, fieldAt_fieldBytes [_, _, _, _, _, _, _, _, _, _] _ _ _ _ rfl,
    fieldAt_fieldBytes [_, _, _, _, _, _, _, _, _, _, _] _ _ _ _ rfl,
    (fieldAt_fieldBytes [_, _, _, _, _, _, _, _, _, _, _, _] _ _ _ _ rfl).trans (Nat.zero_mod _),
    fieldAt_fieldBytes [_, _, _, _, _, _, _, _, _, _, _, _, _] _ _ _ _ rfl⟩

/-! ## Raising a record -/

/-- What writing held records into the ring of a VF leaves: memory may be written, the ring and the marks of the
VF's records may change, and notices go out. -/
def RingStep (vf : Nat) (s t : State) : Prop :=
  ∃ (u : State) (v : NMap Vf) (o : List OutMsg), MemStep s u ∧ t = { u with vfs := v, outbox := o } ∧
    (∀ k, k ≠ vf → t.vf k = s.vf k) ∧ ∀ f ∈ (s.vf vf).recs, ∃ w, { f with written := w } ∈ (t.vf vf).recs

theorem MemStep.vfs {s t : State} (h : MemStep s t) : t.vfs = s.vfs := by
  obtain ⟨hb, d, ls, rfl, -⟩ := h
  rfl

theorem MemStep.vf {s t : State} (h : MemStep s t) (k : Nat) : t.vf k = s.vf k := congrArg (NMap.get Vf.reset · k) h.vfs

theorem MemStep.ring {s t : State} (vf : Nat) (h : MemStep s t) : RingStep vf s t :=
  ⟨t, t.vfs, t.outbox, h, rfl, fun k _ => h.vf k, fun f hf => ⟨f.written, by rw [h.vf]; exact hf⟩⟩

theorem RingStep.refl (vf : Nat) (s : State) : RingStep vf s s := (MemStep.refl s).ring vf

theorem RingStep.trans {vf : Nat} {s t u : State} (h : RingStep vf s t) (g : RingStep vf t u) : RingStep vf s u := by
  obtain ⟨a, v1, m1, ha, e1, o1, r1⟩ := h
  obtain ⟨b, v2, m2, hb, e2, o2, r2⟩ := g
  refine ⟨{ b with vfs := a.vfs, outbox := a.outbox }, v2, m2, ?_, e2, fun k hk => (o2 k hk).trans (o1 k hk), fun f hf => ?_⟩
  · refine ha.trans ?_
    obtain ⟨h2, d2, l2, rfl, w2⟩ := hb
    subst e1
    exact ⟨h2, d2, l2, rfl, w2⟩
  · obtain ⟨w, hw⟩ := r1 f hf
    obtain ⟨w', hw'⟩ := r2 _ hw
    exact ⟨w', hw'⟩

/-- A change of the VF alone that keeps its records. -/
theorem ringStep_updVf (vf : Nat) (s : State) (f : Vf → Vf)
    (h : ∀ r ∈ (s.vf vf).recs, ∃ w, { r with written := w } ∈ (f (s.vf vf)).recs) : RingStep vf s (s.updVf vf f) := by
  refine ⟨s, _, s.outbox, MemStep.refl s, rfl, fun k hk => State.vf_updVf_ne _ _ hk, fun r hr => ?_⟩
  rw [State.vf_updVf_self]
  exact h r hr

theorem RingStep.outbox {vf : Nat} {s t : State} (h : RingStep vf s t) (o : List OutMsg) :
    RingStep vf s { t with outbox := o } := by
  obtain ⟨u, v, m, hu, e, ho, hr⟩ := h
  exact ⟨u, v, o, hu, by rw [e], ho, hr⟩

theorem ringStep_ringWrite {vf : Nat} {s t : State} {r : FaultRec} (h : s.ringWrite vf r = some t) : RingStep vf s t := by
  unfold State.ringWrite at h
  dsimp only at h
  split at h
  · cases h
  · split at h
    · cases h
      exact ((MemStep.ring vf (memStep_homeWriteX s _ _)).trans
        (ringStep_updVf _ _ _ fun r hr => ⟨r.written, hr⟩)).outbox _
    · cases h

theorem ringStep_flushFrom (vf : Nat) (l : List FaultRec) (s : State) : RingStep vf s (s.flushFrom vf l) := by
  induction l generalizing s with
  | nil => exact RingStep.refl vf s
  | cons r t ih =>
    unfold State.flushFrom
    split
    · exact ih s
    · split
      · exact RingStep.refl vf s
      · rename_i s1 h
        refine ((ringStep_ringWrite h).trans (ringStep_updVf vf s1 _ fun q hq => ?_)).trans (ih _)
        refine ⟨if q.recid = r.recid then true else q.written, List.mem_map.2 ⟨q, hq, ?_⟩⟩
        split <;> rfl

/-- The record that `addRec` adds (R339). -/
def State.newRec (s : State) (vf : Nat) (i : RecInfo) (stops : Option Nat) : FaultRec :=
  ⟨s.nextRec % 2 ^ 32, byteMap (recBytes i (s.nextRec % 2 ^ 32) vf s.refTick.toNat s.free), false, i.team.team?, stops,
    codeNum i.code, false, none⟩

/-- The state in which a record is added. -/
def State.beforeRec (s : State) : State := { s with nextRec := s.nextRec + 1, free := s.free + 1 }

/-- A record joins the VF's, written or held, and the others keep their place (R381). -/
theorem putRec_step (s : State) (vf : Nat) (r : FaultRec) :
    RingStep vf s (s.putRec vf r) ∧ ∃ w, { r with written := w } ∈ ((s.putRec vf r).vf vf).recs := by
  have push (t : State) (q : FaultRec) : RingStep vf t (t.pushRec vf q) ∧ q ∈ ((t.pushRec vf q).vf vf).recs := by
    refine ⟨ringStep_updVf _ _ _ fun x hx => ⟨x.written, List.mem_append_left _ hx⟩, ?_⟩
    rw [State.pushRec, State.vf_updVf_self]
    exact List.mem_append_right _ (List.mem_singleton.2 rfl)
  unfold State.putRec
  split
  · exact ⟨(push s r).1, r.written, (push s r).2⟩
  · split
    · rename_i s1 h
      exact ⟨(ringStep_ringWrite h).trans (push s1 _).1, true, (push s1 _).2⟩
    · exact ⟨(push s r).1, r.written, (push s r).2⟩

/-- A record is added behind the others, and the ring takes it if it can. -/
theorem addRec_step (s : State) (vf : Nat) (i : RecInfo) (stops : Option Nat) :
    RingStep vf s.beforeRec (s.addRec vf i stops) := (putRec_step s.beforeRec vf _).1

/-- The new record stands among the VF's records. -/
theorem addRec_mem (s : State) (vf : Nat) (i : RecInfo) (stops : Option Nat) :
    ∃ w, { s.newRec vf i stops with written := w } ∈ ((s.addRec vf i stops).vf vf).recs :=
  (putRec_step s.beforeRec vf (s.newRec vf i stops)).2

/-- What adding a record leaves: the monitored waits of roles, home bytes, dirty lines, the VF, the outbox and the counters
may change. -/
theorem addRec_rest (s : State) (vf : Nat) (i : RecInfo) (stops : Option Nat) :
    ({ s.addRec vf i stops with roles := s.roles, hbm := s.hbm, dirty := s.dirty, vfs := s.vfs, outbox := s.outbox } : State) =
      { s with nextRec := s.nextRec + 1, free := s.free + 1 } := by
  obtain ⟨u, v, o, ⟨h, d, ls, rfl, -⟩, e, -, -⟩ := addRec_step s vf i stops
  rw [e]
  rfl

/-- Only a role's monitored waits may change when a record is added. -/
theorem addRec_role (s : State) (vf : Nat) (i : RecInfo) (stops : Option Nat) (k : Nat) :
    ((s.addRec vf i stops).role k).sameWaits (s.role k) = s.role k := by
  obtain ⟨u, v, o, hu, e, -, -⟩ := addRec_step s vf i stops
  have h := hu.role k
  rw [e]
  exact h

theorem addRec_team (s : State) (vf : Nat) (i : RecInfo) (stops : Option Nat) (k : Nat) :
    (s.addRec vf i stops).team k = s.team k := by
  have h := congrArg State.teams (addRec_rest s vf i stops)
  have e : (s.addRec vf i stops).teams = s.teams := h
  simp only [State.team, e]

end Sys2Proof.Machine
end

