-- ==== Sys2Proof/Laws/Lane.lean ====
section
/-! SUPPORT. What the frame of a lane word does when the word is ready, and the shapes of lane words built on it. -/

namespace Sys2Proof.Machine
open Sys2Proof

/-- With nothing marked bad the parity of what a word reads does not matter. -/
theorem withParity_clean {s : State} {cx : LaneCx} {l : Lanes} {c : LaneCtl} {srcs : Sources}
    {extra : List (Opnd × Nat)} {r : Res} (h : l.clean = true) : withParity s cx l c srcs extra r = r := by
  unfold withParity
  split
  · exact if_pos h
  · rfl

/-- A ready word runs its effect on the lanes it reads. -/
theorem laneFrameR_ready {s : State} {c : LaneCtl} {srcs : Sources} {dsts : List (Opnd × Nat)} {cx : LaneCx} {l : Lanes}
    (h : LaneReady s c srcs dsts cx l) (extra : List (Opnd × Nat)) (k : LaneCx → Lanes → Res) :
    laneFrameR s c srcs dsts extra k = k cx l := by
  obtain ⟨h1, h2, h3⟩ := h
  simp only [laneFrameR, h1, h2, if_true]
  exact withParity_clean h3

theorem laneFrame_ready {s : State} {c : LaneCtl} {srcs : Sources} {dsts : List (Opnd × Nat)} {cx : LaneCx} {l : Lanes}
    (h : LaneReady s c srcs dsts cx l) (k : LaneCx → Lanes → Res) : laneFrame s c srcs dsts k = k cx l :=
  laneFrameR_ready h [] k

theorem laneWordOp_ready {s : State} {c : LaneCtl} {srcs : Sources} {dsts : List (Opnd × Nat)} {cx : LaneCx} {l : Lanes}
    (h : LaneReady s c srcs dsts cx l) (f : LaneCx → Lanes → LaneOut) :
    laneWordOp s c srcs dsts f = .next (s.laneFinish c cx l srcs (f cx l)) :=
  laneFrame_ready h _

theorem laneMap_ready {s : State} {c : LaneCtl} {srcs : Sources} {d : Opnd} {n : Nat} {cx : LaneCx} {l : Lanes}
    (h : LaneReady s c srcs [(d, n)] cx l) (f : Nat → Nat → Nat → Nat) :
    laneMap s c srcs d n f = .next (s.laneFinish c cx l srcs ⟨l.mapTo cx (l.actives c) d n fun i =>
      f (srcs.a.val cx l i) (srcs.b.val cx l i) (srcs.x.val cx l i), 0⟩) :=
  laneWordOp_ready h _

theorem laneTest_ready {s : State} {c : LaneCtl} {srcs : Sources} {kd : BitVec 4} {cx : LaneCx} {l : Lanes}
    (h : LaneReady s c srcs [] cx l) (f : Nat → Nat → Bool) :
    laneTest s c srcs kd f = .next (s.laneFinish c cx l srcs ⟨l.mapPred (l.actives c) kd.toNat fun i =>
      f (srcs.a.val cx l i) (srcs.b.val cx l i), 0⟩) :=
  laneWordOp_ready h _

end Sys2Proof.Machine
end

