-- ==== Sys2Proof/Laws/PerInstr.lean ====
section
/-! SUPPORT. What holds of each instruction as syntax: the family `RoundTrip`. Events and engine commands have no word,
and the statement asks nothing of them. -/

namespace Sys2Proof.Laws.RoundTrip
open Sys2Proof Sys2Proof.Machine

set_option Elab.async false

/-- A well-formed word of a stream or of depot code survives encoding and decoding, and fits its bytes (R62 to R78). -/
def Statement (i : Instr) : Prop := (i.isScalarWord || i.isLaneWord) = true → RoundTrips i

theorem add (d : SReg) (a : SReg) (b : SReg) :
    Statement (.add d a b) :=
  fun _ => roundTrips_integer (fun _ _ _ => rfl) (fun _ _ _ => rfl) (by decide) (fun _ _ _ => rfl) d a b
theorem sub (d : SReg) (a : SReg) (b : SReg) :
    Statement (.sub d a b) :=
  fun _ => roundTrips_integer (fun _ _ _ => rfl) (fun _ _ _ => rfl) (by decide) (fun _ _ _ => rfl) d a b
theorem mul (d : SReg) (a : SReg) (b : SReg) :
    Statement (.mul d a b) :=
  fun _ => roundTrips_integer (fun _ _ _ => rfl) (fun _ _ _ => rfl) (by decide) (fun _ _ _ => rfl) d a b
theorem mulh (d : SReg) (a : SReg) (b : SReg) :
    Statement (.mulh d a b) :=
  fun _ => roundTrips_integer (fun _ _ _ => rfl) (fun _ _ _ => rfl) (by decide) (fun _ _ _ => rfl) d a b
theorem mulhn (d : SReg) (a : SReg) (b : SReg) :
    Statement (.mulhn d a b) :=
  fun _ => roundTrips_integer (fun _ _ _ => rfl) (fun _ _ _ => rfl) (by decide) (fun _ _ _ => rfl) d a b
theorem div (d : SReg) (a : SReg) (b : SReg) :
    Statement (.div d a b) :=
  fun _ => roundTrips_integer (fun _ _ _ => rfl) (fun _ _ _ => rfl) (by decide) (fun _ _ _ => rfl) d a b
theorem divn (d : SReg) (a : SReg) (b : SReg) :
    Statement (.divn d a b) :=
  fun _ => roundTrips_integer (fun _ _ _ => rfl) (fun _ _ _ => rfl) (by decide) (fun _ _ _ => rfl) d a b
theorem rem (d : SReg) (a : SReg) (b : SReg) :
    Statement (.rem d a b) :=
  fun _ => roundTrips_integer (fun _ _ _ => rfl) (fun _ _ _ => rfl) (by decide) (fun _ _ _ => rfl) d a b
theorem remn (d : SReg) (a : SReg) (b : SReg) :
    Statement (.remn d a b) :=
  fun _ => roundTrips_integer (fun _ _ _ => rfl) (fun _ _ _ => rfl) (by decide) (fun _ _ _ => rfl) d a b
theorem and (d : SReg) (a : SReg) (b : SReg) :
    Statement (.and d a b) :=
  fun _ => roundTrips_integer (fun _ _ _ => rfl) (fun _ _ _ => rfl) (by decide) (fun _ _ _ => rfl) d a b
theorem or (d : SReg) (a : SReg) (b : SReg) :
    Statement (.or d a b) :=
  fun _ => roundTrips_integer (fun _ _ _ => rfl) (fun _ _ _ => rfl) (by decide) (fun _ _ _ => rfl) d a b
theorem xor (d : SReg) (a : SReg) (b : SReg) :
    Statement (.xor d a b) :=
  fun _ => roundTrips_integer (fun _ _ _ => rfl) (fun _ _ _ => rfl) (by decide) (fun _ _ _ => rfl) d a b
theorem andn (d : SReg) (a : SReg) (b : SReg) :
    Statement (.andn d a b) :=
  fun _ => roundTrips_integer (fun _ _ _ => rfl) (fun _ _ _ => rfl) (by decide) (fun _ _ _ => rfl) d a b
theorem shl (d : SReg) (a : SReg) (b : SReg) :
    Statement (.shl d a b) :=
  fun _ => roundTrips_integer (fun _ _ _ => rfl) (fun _ _ _ => rfl) (by decide) (fun _ _ _ => rfl) d a b
theorem shr (d : SReg) (a : SReg) (b : SReg) :
    Statement (.shr d a b) :=
  fun _ => roundTrips_integer (fun _ _ _ => rfl) (fun _ _ _ => rfl) (by decide) (fun _ _ _ => rfl) d a b
theorem sra (d : SReg) (a : SReg) (b : SReg) :
    Statement (.sra d a b) :=
  fun _ => roundTrips_integer (fun _ _ _ => rfl) (fun _ _ _ => rfl) (by decide) (fun _ _ _ => rfl) d a b
theorem rot (d : SReg) (a : SReg) (b : SReg) :
    Statement (.rot d a b) :=
  fun _ => roundTrips_integer (fun _ _ _ => rfl) (fun _ _ _ => rfl) (by decide) (fun _ _ _ => rfl) d a b
theorem min (d : SReg) (a : SReg) (b : SReg) :
    Statement (.min d a b) :=
  fun _ => roundTrips_integer (fun _ _ _ => rfl) (fun _ _ _ => rfl) (by decide) (fun _ _ _ => rfl) d a b
theorem max (d : SReg) (a : SReg) (b : SReg) :
    Statement (.max d a b) :=
  fun _ => roundTrips_integer (fun _ _ _ => rfl) (fun _ _ _ => rfl) (by decide) (fun _ _ _ => rfl) d a b
theorem minn (d : SReg) (a : SReg) (b : SReg) :
    Statement (.minn d a b) :=
  fun _ => roundTrips_integer (fun _ _ _ => rfl) (fun _ _ _ => rfl) (by decide) (fun _ _ _ => rfl) d a b
theorem maxn (d : SReg) (a : SReg) (b : SReg) :
    Statement (.maxn d a b) :=
  fun _ => roundTrips_integer (fun _ _ _ => rfl) (fun _ _ _ => rfl) (by decide) (fun _ _ _ => rfl) d a b
theorem clz (d : SReg) (a : SReg) :
    Statement (.clz d a) :=
  fun _ => roundTrips_SA rfl rfl (by decide) (sregCode_lt d) (sregCode_lt a) (by decide) (by decide) (by simp [decSA, decInteger, whenB])
theorem ctz (d : SReg) (a : SReg) :
    Statement (.ctz d a) :=
  fun _ => roundTrips_SA rfl rfl (by decide) (sregCode_lt d) (sregCode_lt a) (by decide) (by decide) (by simp [decSA, decInteger, whenB])
theorem popc (d : SReg) (a : SReg) :
    Statement (.popc d a) :=
  fun _ => roundTrips_SA rfl rfl (by decide) (sregCode_lt d) (sregCode_lt a) (by decide) (by decide) (by simp [decSA, decInteger, whenB])
theorem brev (d : SReg) (a : SReg) :
    Statement (.brev d a) :=
  fun _ => roundTrips_SA rfl rfl (by decide) (sregCode_lt d) (sregCode_lt a) (by decide) (by decide) (by simp [decSA, decInteger, whenB])
theorem clmul (d : SReg) (a : SReg) (b : SReg) :
    Statement (.clmul d a b) :=
  fun _ => roundTrips_integer (fun _ _ _ => rfl) (fun _ _ _ => rfl) (by decide) (fun _ _ _ => rfl) d a b
theorem clmulh (d : SReg) (a : SReg) (b : SReg) :
    Statement (.clmulh d a b) :=
  fun _ => roundTrips_integer (fun _ _ _ => rfl) (fun _ _ _ => rfl) (by decide) (fun _ _ _ => rfl) d a b
theorem sel (d : SReg) (a : SReg) (b : SReg) :
    Statement (.sel d a b) :=
  fun _ => roundTrips_integer (fun _ _ _ => rfl) (fun _ _ _ => rfl) (by decide) (fun _ _ _ => rfl) d a b
theorem seq (d : SReg) (a : SReg) (b : SReg) :
    Statement (.seq d a b) :=
  fun _ => roundTrips_integer (fun _ _ _ => rfl) (fun _ _ _ => rfl) (by decide) (fun _ _ _ => rfl) d a b
theorem sne (d : SReg) (a : SReg) (b : SReg) :
    Statement (.sne d a b) :=
  fun _ => roundTrips_integer (fun _ _ _ => rfl) (fun _ _ _ => rfl) (by decide) (fun _ _ _ => rfl) d a b
theorem slt (d : SReg) (a : SReg) (b : SReg) :
    Statement (.slt d a b) :=
  fun _ => roundTrips_integer (fun _ _ _ => rfl) (fun _ _ _ => rfl) (by decide) (fun _ _ _ => rfl) d a b
theorem sltn (d : SReg) (a : SReg) (b : SReg) :
    Statement (.sltn d a b) :=
  fun _ => roundTrips_integer (fun _ _ _ => rfl) (fun _ _ _ => rfl) (by decide) (fun _ _ _ => rfl) d a b
theorem jr (a : SReg) :
    Statement (.jr a) :=
  fun _ => roundTrips_control rfl rfl (by decide) (sregCode_lt a) (by decide) (by decide) (by simp [decControl, whenB])
theorem ret :
    Statement (.ret) :=
  fun _ => roundTrips_control rfl rfl (by decide) (by decide) (by decide) (by decide) (by simp [decControl, whenB])
theorem fence (scope : Fin 7) :
    Statement (.fence scope) :=
  fun _ => roundTrips_control rfl rfl (by omega) (by decide) (by decide) (by decide) (by revert scope; decide)
theorem qfence (mask : BitVec 6) (scope : Fin 7) :
    Statement (.qfence mask scope) :=
  fun _ => roundTrips_control rfl rfl mask.isLt (by omega) (by decide) (by decide) (by simp [decControl, whenB])
theorem barav (a : SReg) :
    Statement (.barav a) :=
  fun _ => roundTrips_control rfl rfl (by decide) (sregCode_lt a) (by decide) (by decide) (by simp [decControl, whenB])
theorem barwt (a : SReg) :
    Statement (.barwt a) :=
  fun _ => roundTrips_control rfl rfl (by decide) (sregCode_lt a) (by decide) (by decide) (by simp [decControl, whenB])
theorem waita (d : SReg) (a : SReg) (b : SReg) :
    Statement (.waita d a b) :=
  fun _ => roundTrips_control rfl rfl (sregCode_lt d) (sregCode_lt a) (sregCode_lt b) (by decide) (by simp [decControl])
theorem yield :
    Statement (.yield) :=
  fun _ => roundTrips_control rfl rfl (by decide) (by decide) (by decide) (by decide) (by simp [decControl, whenB])
theorem exit :
    Statement (.exit) :=
  fun _ => roundTrips_control rfl rfl (by decide) (by decide) (by decide) (by decide) (by simp [decControl, whenB])
theorem vdrain :
    Statement (.vdrain) :=
  fun _ => roundTrips_control rfl rfl (by decide) (by decide) (by decide) (by decide) (by simp [decControl, whenB])
theorem view (i : Fin 8) (a : SReg) :
    Statement (.view i a) :=
  fun _ => roundTrips_control rfl rfl (by omega) (sregCode_lt a) (by decide) (by decide) (by simp [decControl, whenB])
theorem gang (a : SReg) :
    Statement (.gang a) :=
  fun _ => roundTrips_control rfl rfl (by decide) (sregCode_lt a) (by decide) (by decide) (by simp [decControl, whenB])
theorem mset (g : Fin 32) (a : SReg) :
    Statement (.mset g a) :=
  fun _ => roundTrips_control rfl rfl (by omega) (sregCode_lt a) (by decide) (by decide) (by simp [decControl, whenB])
theorem txcommit (a : SReg) (b : SReg) :
    Statement (.txcommit a b) :=
  fun _ => roundTrips_control rfl rfl (by decide) (sregCode_lt a) (sregCode_lt b) (by decide) (by simp [decControl, whenB])
theorem txabort :
    Statement (.txabort) :=
  fun _ => roundTrips_control rfl rfl (by decide) (by decide) (by decide) (by decide) (by simp [decControl, whenB])
theorem launch (d : SReg) (a : SReg) :
    Statement (.launch d a) :=
  fun _ => roundTrips_control rfl rfl (sregCode_lt d) (sregCode_lt a) (by decide) (by decide) (by simp [decControl, whenB])
theorem perf (a : SReg) (b : SReg) :
    Statement (.perf a b) :=
  fun _ => roundTrips_control rfl rfl (by decide) (sregCode_lt a) (sregCode_lt b) (by decide) (by simp [decControl, whenB])
theorem clnr (a : SReg) (b : SReg) :
    Statement (.clnr a b) :=
  fun _ => roundTrips_control rfl rfl (by decide) (sregCode_lt a) (sregCode_lt b) (by decide) (by simp [decControl, whenB])
theorem invr (a : SReg) (b : SReg) :
    Statement (.invr a b) :=
  fun _ => roundTrips_control rfl rfl (by decide) (sregCode_lt a) (sregCode_lt b) (by decide) (by simp [decControl, whenB])
theorem cliv (a : SReg) (b : SReg) :
    Statement (.cliv a b) :=
  fun _ => roundTrips_control rfl rfl (by decide) (sregCode_lt a) (sregCode_lt b) (by decide) (by simp [decControl, whenB])
theorem tret :
    Statement (.tret) :=
  fun _ => roundTrips_control rfl rfl (by decide) (by decide) (by decide) (by decide) (by simp [decControl, whenB])
theorem nop :
    Statement (.nop) :=
  fun _ => roundTrips_control rfl rfl (by decide) (by decide) (by decide) (by decide) (by simp [decControl, whenB])
theorem brk :
    Statement (.brk) :=
  fun _ => roundTrips_control rfl rfl (by decide) (by decide) (by decide) (by decide) (by simp [decControl, whenB])
theorem relay :
    Statement (.relay) :=
  fun _ => roundTrips_control rfl rfl (by decide) (by decide) (by decide) (by decide) (by simp [decControl, whenB])
theorem wbsync (a : SReg) :
    Statement (.wbsync a) :=
  fun _ => roundTrips_control rfl rfl (by decide) (sregCode_lt a) (by decide) (by decide) (by simp [decControl, whenB])
theorem atomAdd (d : SReg) (a : SReg) (b : SReg) (sc : Fin 8) :
    Statement (.atomAdd d a b sc) :=
  fun _ => roundTrips_atom (fun _ _ _ _ => rfl) (fun _ _ _ _ => rfl) (by decide) (fun _ _ _ _ h => by simp [decAtom, h]) d a b sc
theorem atomAnd (d : SReg) (a : SReg) (b : SReg) (sc : Fin 8) :
    Statement (.atomAnd d a b sc) :=
  fun _ => roundTrips_atom (fun _ _ _ _ => rfl) (fun _ _ _ _ => rfl) (by decide) (fun _ _ _ _ h => by simp [decAtom, h]) d a b sc
theorem atomOr (d : SReg) (a : SReg) (b : SReg) (sc : Fin 8) :
    Statement (.atomOr d a b sc) :=
  fun _ => roundTrips_atom (fun _ _ _ _ => rfl) (fun _ _ _ _ => rfl) (by decide) (fun _ _ _ _ h => by simp [decAtom, h]) d a b sc
theorem atomXor (d : SReg) (a : SReg) (b : SReg) (sc : Fin 8) :
    Statement (.atomXor d a b sc) :=
  fun _ => roundTrips_atom (fun _ _ _ _ => rfl) (fun _ _ _ _ => rfl) (by decide) (fun _ _ _ _ h => by simp [decAtom, h]) d a b sc
theorem atomMin (d : SReg) (a : SReg) (b : SReg) (sc : Fin 8) :
    Statement (.atomMin d a b sc) :=
  fun _ => roundTrips_atom (fun _ _ _ _ => rfl) (fun _ _ _ _ => rfl) (by decide) (fun _ _ _ _ h => by simp [decAtom, h]) d a b sc
theorem atomMax (d : SReg) (a : SReg) (b : SReg) (sc : Fin 8) :
    Statement (.atomMax d a b sc) :=
  fun _ => roundTrips_atom (fun _ _ _ _ => rfl) (fun _ _ _ _ => rfl) (by decide) (fun _ _ _ _ h => by simp [decAtom, h]) d a b sc
theorem atomMinn (d : SReg) (a : SReg) (b : SReg) (sc : Fin 8) :
    Statement (.atomMinn d a b sc) :=
  fun _ => roundTrips_atom (fun _ _ _ _ => rfl) (fun _ _ _ _ => rfl) (by decide) (fun _ _ _ _ h => by simp [decAtom, h]) d a b sc
theorem atomMaxn (d : SReg) (a : SReg) (b : SReg) (sc : Fin 8) :
    Statement (.atomMaxn d a b sc) :=
  fun _ => roundTrips_atom (fun _ _ _ _ => rfl) (fun _ _ _ _ => rfl) (by decide) (fun _ _ _ _ h => by simp [decAtom, h]) d a b sc
theorem atomSwap (d : SReg) (a : SReg) (b : SReg) (sc : Fin 8) :
    Statement (.atomSwap d a b sc) :=
  fun _ => roundTrips_atom (fun _ _ _ _ => rfl) (fun _ _ _ _ => rfl) (by decide) (fun _ _ _ _ h => by simp [decAtom, h]) d a b sc
theorem atomCas (d : SReg) (a : SReg) (b : SReg) (sc : Fin 8) :
    Statement (.atomCas d a b sc) :=
  fun _ => roundTrips_atom (fun _ _ _ _ => rfl) (fun _ _ _ _ => rfl) (by decide) (fun _ _ _ _ h => by simp [decAtom, h]) d a b sc
theorem atomBfim (d : SReg) (a : SReg) (b : SReg) (sc : Fin 8) :
    Statement (.atomBfim d a b sc) :=
  fun _ => roundTrips_atom (fun _ _ _ _ => rfl) (fun _ _ _ _ => rfl) (by decide) (fun _ _ _ _ h => by simp [decAtom, h]) d a b sc
theorem atomFfcs (d : SReg) (a : SReg) (b : SReg) (sc : Fin 8) :
    Statement (.atomFfcs d a b sc) :=
  fun _ => roundTrips_atom (fun _ _ _ _ => rfl) (fun _ _ _ _ => rfl) (by decide) (fun _ _ _ _ h => by simp [decAtom, h]) d a b sc
theorem atomPlset (d : SReg) (a : SReg) (b : SReg) (sc : Fin 8) :
    Statement (.atomPlset d a b sc) :=
  fun _ => roundTrips_atom (fun _ _ _ _ => rfl) (fun _ _ _ _ => rfl) (by decide) (fun _ _ _ _ h => by simp [decAtom, h]) d a b sc
theorem addi (d : SReg) (a : SReg) (i : BitVec 13) :
    Statement (.addi d a i) :=
  fun _ => roundTrips_SBi (fun _ _ _ => rfl) (fun _ _ _ => rfl) (by decide) (by decide) (fun _ _ _ => rfl) d a i
theorem andi (d : SReg) (a : SReg) (i : BitVec 13) :
    Statement (.andi d a i) :=
  fun _ => roundTrips_SBi (fun _ _ _ => rfl) (fun _ _ _ => rfl) (by decide) (by decide) (fun _ _ _ => rfl) d a i
theorem ori (d : SReg) (a : SReg) (i : BitVec 13) :
    Statement (.ori d a i) :=
  fun _ => roundTrips_SBi (fun _ _ _ => rfl) (fun _ _ _ => rfl) (by decide) (by decide) (fun _ _ _ => rfl) d a i
theorem xori (d : SReg) (a : SReg) (i : BitVec 13) :
    Statement (.xori d a i) :=
  fun _ => roundTrips_SBi (fun _ _ _ => rfl) (fun _ _ _ => rfl) (by decide) (by decide) (fun _ _ _ => rfl) d a i
theorem shli (d : SReg) (a : SReg) (i : BitVec 6) :
    Statement (.shli d a i) :=
  fun _ => roundTrips_SB rfl rfl (by decide) (by decide) (sregCode_lt d) (sregCode_lt a) (by omega) (by simp [decSB, whenB, i.isLt])
theorem shri (d : SReg) (a : SReg) (i : BitVec 6) :
    Statement (.shri d a i) :=
  fun _ => roundTrips_SB rfl rfl (by decide) (by decide) (sregCode_lt d) (sregCode_lt a) (by omega) (by simp [decSB, whenB, i.isLt])
theorem srai (d : SReg) (a : SReg) (i : BitVec 6) :
    Statement (.srai d a i) :=
  fun _ => roundTrips_SB rfl rfl (by decide) (by decide) (sregCode_lt d) (sregCode_lt a) (by omega) (by simp [decSB, whenB, i.isLt])
theorem bfext (d : SReg) (a : SReg) (lenM1 : BitVec 6) (pos : BitVec 6) :
    Statement (.bfext d a lenM1 pos) :=
  fun _ => roundTrips_SB rfl rfl (by decide) (by decide) (sregCode_lt d) (sregCode_lt a) (by omega) (by
    have h1 : (lenM1.toNat * 64 + pos.toNat) / 64 = lenM1.toNat := by omega
    have h2 : (lenM1.toNat * 64 + pos.toNat) % 64 = pos.toNat := by omega
    have h3 : lenM1.toNat * 64 + pos.toNat < 4096 := by omega
    simp only [decSB, whenB, h1, h2, h3]; simp)
theorem bfins (d : SReg) (a : SReg) (lenM1 : BitVec 6) (pos : BitVec 6) :
    Statement (.bfins d a lenM1 pos) :=
  fun _ => roundTrips_SB rfl rfl (by decide) (by decide) (sregCode_lt d) (sregCode_lt a) (by omega) (by
    have h1 : (lenM1.toNat * 64 + pos.toNat) / 64 = lenM1.toNat := by omega
    have h2 : (lenM1.toNat * 64 + pos.toNat) % 64 = pos.toNat := by omega
    have h3 : lenM1.toNat * 64 + pos.toNat < 4096 := by omega
    simp only [decSB, whenB, h1, h2, h3]; simp)
theorem ld (d : SReg) (a : SReg) (w : LdWidth) (off : BitVec 10) :
    Statement (.ld d a w off) :=
  fun _ => by
  have hw : ldWidthCode w < 7 := by cases w <;> decide
  have h1 : (ldWidthCode w * 1024 + off.toNat) / 1024 = ldWidthCode w := by omega
  have h2 : (ldWidthCode w * 1024 + off.toNat) % 1024 = off.toNat := by omega
  have h3 : ldWidthOf (ldWidthCode w) = some w := by cases w <;> rfl
  exact roundTrips_SB rfl rfl (by decide) (by decide) (sregCode_lt d) (sregCode_lt a) (by omega)
    (by simp only [decSB, h1, h2, h3]; simp)
theorem st (d : SReg) (a : SReg) (w : StWidth) (off : BitVec 10) :
    Statement (.st d a w off) :=
  fun _ => by
  have hw : stWidthCode w < 7 := by cases w <;> decide
  have h1 : (stWidthCode w * 1024 + off.toNat) / 1024 = stWidthCode w := by omega
  have h2 : (stWidthCode w * 1024 + off.toNat) % 1024 = off.toNat := by omega
  have h3 : stWidthOf (stWidthCode w) = some w := by cases w <;> rfl
  exact roundTrips_SB rfl rfl (by decide) (by decide) (sregCode_lt d) (sregCode_lt a) (by omega)
    (by simp only [decSB, h1, h2, h3]; simp)
theorem sld (d : SReg) (a : SReg) (w : LdWidth) (off : BitVec 10) :
    Statement (.sld d a w off) :=
  fun _ => by
  have hw : ldWidthCode w < 7 := by cases w <;> decide
  have h1 : (ldWidthCode w * 1024 + off.toNat) / 1024 = ldWidthCode w := by omega
  have h2 : (ldWidthCode w * 1024 + off.toNat) % 1024 = off.toNat := by omega
  have h3 : ldWidthOf (ldWidthCode w) = some w := by cases w <;> rfl
  exact roundTrips_SB rfl rfl (by decide) (by decide) (sregCode_lt d) (sregCode_lt a) (by omega)
    (by simp only [decSB, h1, h2, h3]; simp)
theorem sst (d : SReg) (a : SReg) (w : StWidth) (off : BitVec 10) :
    Statement (.sst d a w off) :=
  fun _ => by
  have hw : stWidthCode w < 7 := by cases w <;> decide
  have h1 : (stWidthCode w * 1024 + off.toNat) / 1024 = stWidthCode w := by omega
  have h2 : (stWidthCode w * 1024 + off.toNat) % 1024 = off.toNat := by omega
  have h3 : stWidthOf (stWidthCode w) = some w := by cases w <;> rfl
  exact roundTrips_SB rfl rfl (by decide) (by decide) (sregCode_lt d) (sregCode_lt a) (by omega)
    (by simp only [decSB, h1, h2, h3]; simp)
theorem trap (code : BitVec 13) :
    Statement (.trap code) :=
  fun _ => roundTrips_SB rfl rfl (by decide) (by decide) (by decide) (by decide) code.isLt (by simp [decSB, whenB])
theorem sysrd (d : SReg) (num : BitVec 13) :
    Statement (.sysrd d num) :=
  fun _ => roundTrips_SB rfl rfl (by decide) (by decide) (sregCode_lt d) (by decide) num.isLt (by simp [decSB, whenB])
theorem syswr (a : SReg) (num : BitVec 13) :
    Statement (.syswr a num) :=
  fun _ => roundTrips_SB rfl rfl (by decide) (by decide) (by decide) (sregCode_lt a) num.isLt (by simp [decSB, whenB])
theorem beq (d : SReg) (a : SReg) (i : BitVec 13) :
    Statement (.beq d a i) :=
  fun _ => roundTrips_SBi (fun _ _ _ => rfl) (fun _ _ _ => rfl) (by decide) (by decide) (fun _ _ _ => rfl) d a i
theorem bne (d : SReg) (a : SReg) (i : BitVec 13) :
    Statement (.bne d a i) :=
  fun _ => roundTrips_SBi (fun _ _ _ => rfl) (fun _ _ _ => rfl) (by decide) (by decide) (fun _ _ _ => rfl) d a i
theorem blt (d : SReg) (a : SReg) (i : BitVec 13) :
    Statement (.blt d a i) :=
  fun _ => roundTrips_SBi (fun _ _ _ => rfl) (fun _ _ _ => rfl) (by decide) (by decide) (fun _ _ _ => rfl) d a i
theorem bge (d : SReg) (a : SReg) (i : BitVec 13) :
    Statement (.bge d a i) :=
  fun _ => roundTrips_SBi (fun _ _ _ => rfl) (fun _ _ _ => rfl) (by decide) (by decide) (fun _ _ _ => rfl) d a i
theorem bltn (d : SReg) (a : SReg) (i : BitVec 13) :
    Statement (.bltn d a i) :=
  fun _ => roundTrips_SBi (fun _ _ _ => rfl) (fun _ _ _ => rfl) (by decide) (by decide) (fun _ _ _ => rfl) d a i
theorem bgen (d : SReg) (a : SReg) (i : BitVec 13) :
    Statement (.bgen d a i) :=
  fun _ => roundTrips_SBi (fun _ _ _ => rfl) (fun _ _ _ => rfl) (by decide) (by decide) (fun _ _ _ => rfl) d a i
theorem li (d : SReg) (i : BitVec 19) :
    Statement (.li d i) :=
  fun _ => roundTrips_SC rfl rfl (by decide) (by decide) (sregCode_lt d) i.isLt (by simp [decSC])
theorem jmp (i : BitVec 19) :
    Statement (.jmp i) :=
  fun _ => roundTrips_SC rfl rfl (by decide) (by decide) (by decide) i.isLt (by simp [decSC, whenB])
theorem call (i : BitVec 19) :
    Statement (.call i) :=
  fun _ => roundTrips_SC rfl rfl (by decide) (by decide) (by decide) i.isLt (by simp [decSC, whenB])
theorem vrun (lenM1 : BitVec 6) (idx : BitVec 19) :
    Statement (.vrun lenM1 idx) :=
  fun _ => roundTrips_SC rfl rfl (by decide) (by decide) lenM1.isLt idx.isLt (by simp [decSC])
theorem lih (d : SReg) (i : W32) :
    Statement (.lih d i) :=
  fun _ => roundTrips_SL rfl rfl (by decide) (by simp [decSC])
theorem lix (d : SReg) (i : W32) :
    Statement (.lix d i) :=
  fun _ => roundTrips_SL rfl rfl (by decide) (by simp [decSC])
theorem vadd (c : LaneCtl) (t : ITy) (sat : Bool) (d : Opnd) (a : Opnd) (b : Opnd) :
    Statement (.vadd c t sat d a b) :=
  fun _ => roundTrips_DAB (g := fun c d a b => .vadd c t sat d a b) rfl rfl (by decide) (Nat.lt_trans (encItSat_lt t sat) (by decide)) id rfl
  (fun _ f ho hm => by simp [decLA, decLaneInt, ho, hm])
theorem vsub (c : LaneCtl) (t : ITy) (sat : Bool) (d : Opnd) (a : Opnd) (b : Opnd) :
    Statement (.vsub c t sat d a b) :=
  fun _ => roundTrips_DAB (g := fun c d a b => .vsub c t sat d a b) rfl rfl (by decide) (Nat.lt_trans (encItSat_lt t sat) (by decide)) id rfl
  (fun _ f ho hm => by simp [decLA, decLaneInt, ho, hm])
theorem vmul (c : LaneCtl) (t : ITy) (d : Opnd) (a : Opnd) (b : Opnd) :
    Statement (.vmul c t d a b) :=
  fun _ => roundTrips_DAB (g := fun c d a b => .vmul c t d a b) rfl rfl (by decide) (Nat.lt_trans (itCode_lt t) (by decide)) id rfl
  (fun _ f ho hm => by simp [decLA, decLaneInt, ho, hm])
theorem vmulh (c : LaneCtl) (t : ITy) (d : Opnd) (a : Opnd) (b : Opnd) :
    Statement (.vmulh c t d a b) :=
  fun _ => roundTrips_DAB (g := fun c d a b => .vmulh c t d a b) rfl rfl (by decide) (Nat.lt_trans (itCode_lt t) (by decide)) id rfl
  (fun _ f ho hm => by simp [decLA, decLaneInt, ho, hm])
theorem vmad (c : LaneCtl) (t : ITy) (d : Opnd) (a : Opnd) (b : Opnd) (x : Opnd) :
    Statement (.vmad c t d a b x) :=
  fun _ => roundTrips_DABC (g := fun c d a b x => .vmad c t d a b x) rfl rfl (by decide) (Nat.lt_trans (itCode_lt t) (by decide)) id rfl
  (fun _ f ho hm => by simp [decLA, decLaneInt, ho, hm])
theorem vmin (c : LaneCtl) (t : ITy) (d : Opnd) (a : Opnd) (b : Opnd) :
    Statement (.vmin c t d a b) :=
  fun _ => roundTrips_DAB (g := fun c d a b => .vmin c t d a b) rfl rfl (by decide) (Nat.lt_trans (itCode_lt t) (by decide)) id rfl
  (fun _ f ho hm => by simp [decLA, decLaneInt, ho, hm])
theorem vmax (c : LaneCtl) (t : ITy) (d : Opnd) (a : Opnd) (b : Opnd) :
    Statement (.vmax c t d a b) :=
  fun _ => roundTrips_DAB (g := fun c d a b => .vmax c t d a b) rfl rfl (by decide) (Nat.lt_trans (itCode_lt t) (by decide)) id rfl
  (fun _ f ho hm => by simp [decLA, decLaneInt, ho, hm])
theorem vabs (c : LaneCtl) (w64 : Bool) (sat : Bool) (d : Opnd) (a : Opnd) :
    Statement (.vabs c w64 sat d a) :=
  fun _ => roundTrips_DA (g := fun c d a => .vabs c w64 sat d a) rfl rfl (by decide) (by cases w64 <;> cases sat <;> decide) id rfl
  (fun _ f ho hm => by cases w64 <;> cases sat <;> simp [decLA, decLaneInt, ho, hm, it02Code, b2n, whenB, it02Of])
theorem vand (c : LaneCtl) (w64 : Bool) (d : Opnd) (a : Opnd) (b : Opnd) :
    Statement (.vand c w64 d a b) :=
  fun _ => roundTrips_DAB (g := fun c d a b => .vand c w64 d a b) rfl rfl (by decide) (Nat.lt_trans (it02Code_lt w64) (by decide)) id rfl
  (fun _ f ho hm => by simp [decLA, decLaneInt, ho, hm])
theorem vor (c : LaneCtl) (w64 : Bool) (d : Opnd) (a : Opnd) (b : Opnd) :
    Statement (.vor c w64 d a b) :=
  fun _ => roundTrips_DAB (g := fun c d a b => .vor c w64 d a b) rfl rfl (by decide) (Nat.lt_trans (it02Code_lt w64) (by decide)) id rfl
  (fun _ f ho hm => by simp [decLA, decLaneInt, ho, hm])
theorem vxor (c : LaneCtl) (w64 : Bool) (d : Opnd) (a : Opnd) (b : Opnd) :
    Statement (.vxor c w64 d a b) :=
  fun _ => roundTrips_DAB (g := fun c d a b => .vxor c w64 d a b) rfl rfl (by decide) (Nat.lt_trans (it02Code_lt w64) (by decide)) id rfl
  (fun _ f ho hm => by simp [decLA, decLaneInt, ho, hm])
theorem vandn (c : LaneCtl) (w64 : Bool) (d : Opnd) (a : Opnd) (b : Opnd) :
    Statement (.vandn c w64 d a b) :=
  fun _ => roundTrips_DAB (g := fun c d a b => .vandn c w64 d a b) rfl rfl (by decide) (Nat.lt_trans (it02Code_lt w64) (by decide)) id rfl
  (fun _ f ho hm => by simp [decLA, decLaneInt, ho, hm])
theorem vshl (c : LaneCtl) (w64 : Bool) (d : Opnd) (a : Opnd) (b : Opnd) :
    Statement (.vshl c w64 d a b) :=
  fun _ => roundTrips_DAB (g := fun c d a b => .vshl c w64 d a b) rfl rfl (by decide) (Nat.lt_trans (it02Code_lt w64) (by decide)) id rfl
  (fun _ f ho hm => by simp [decLA, decLaneInt, ho, hm])
theorem vshr (c : LaneCtl) (w64 : Bool) (d : Opnd) (a : Opnd) (b : Opnd) :
    Statement (.vshr c w64 d a b) :=
  fun _ => roundTrips_DAB (g := fun c d a b => .vshr c w64 d a b) rfl rfl (by decide) (Nat.lt_trans (it02Code_lt w64) (by decide)) id rfl
  (fun _ f ho hm => by simp [decLA, decLaneInt, ho, hm])
theorem vsra (c : LaneCtl) (w64 : Bool) (d : Opnd) (a : Opnd) (b : Opnd) :
    Statement (.vsra c w64 d a b) :=
  fun _ => roundTrips_DAB (g := fun c d a b => .vsra c w64 d a b) rfl rfl (by decide) (Nat.lt_trans (it02Code_lt w64) (by decide)) id rfl
  (fun _ f ho hm => by simp [decLA, decLaneInt, ho, hm])
theorem vrot (c : LaneCtl) (w64 : Bool) (d : Opnd) (a : Opnd) (b : Opnd) :
    Statement (.vrot c w64 d a b) :=
  fun _ => roundTrips_DAB (g := fun c d a b => .vrot c w64 d a b) rfl rfl (by decide) (Nat.lt_trans (it02Code_lt w64) (by decide)) id rfl
  (fun _ f ho hm => by simp [decLA, decLaneInt, ho, hm])
theorem vpopc (c : LaneCtl) (w64 : Bool) (d : Opnd) (a : Opnd) :
    Statement (.vpopc c w64 d a) :=
  fun _ => roundTrips_DA (g := fun c d a => .vpopc c w64 d a) rfl rfl (by decide) (Nat.lt_trans (it02Code_lt w64) (by decide)) id rfl
  (fun _ f ho hm => by simp [decLA, decLaneInt, ho, hm])
theorem vclz (c : LaneCtl) (w64 : Bool) (d : Opnd) (a : Opnd) :
    Statement (.vclz c w64 d a) :=
  fun _ => roundTrips_DA (g := fun c d a => .vclz c w64 d a) rfl rfl (by decide) (Nat.lt_trans (it02Code_lt w64) (by decide)) id rfl
  (fun _ f ho hm => by simp [decLA, decLaneInt, ho, hm])
theorem vbrev (c : LaneCtl) (w64 : Bool) (d : Opnd) (a : Opnd) :
    Statement (.vbrev c w64 d a) :=
  fun _ => roundTrips_DA (g := fun c d a => .vbrev c w64 d a) rfl rfl (by decide) (Nat.lt_trans (it02Code_lt w64) (by decide)) id rfl
  (fun _ f ho hm => by simp [decLA, decLaneInt, ho, hm])
theorem vbfext (c : LaneCtl) (t : ITy) (f : BfSel) (d : Opnd) (a : Opnd) :
    Statement (.vbfext c t f d a) :=
  fun _ => by
  have hm : itCode t + encBf f < 2 ^ 19 := by
    have h1 := encBf_lt f
    have h2 := itCode_lt t
    omega
  refine roundTrips_LA rfl rfl (by decide) (by decide) (opndCode_lt d) (opndCode_lt a) (encBfB_lt f) (by decide) hm fun h => ?_
  have h : (laneOk c ⟨true, f.readsB, false⟩ [d] [a] && f.wf t.width) = true := h
  obtain ⟨hl, hf⟩ := (Bool.and_eq_true _ _).mp h
  obtain ⟨hd, ha⟩ := laneOk_parts hl
  obtain ⟨b1, b2, b3, b4⟩ := bfSelOf_enc (op := 0x014) (c := c) (d := opndCode d) (a := opndCode a) (x := 0) f (itCode t)
    (itCode_lt t) hf
  have e : decLA (laEnc 0x014 c 0 (opndCode d) (opndCode a) (encBfB f) 0 (itCode t + encBf f)) =
      whenB ((itCode t + encBf f) / 8 % 2 == 0 && decide (itCode t + encBf f < 2 ^ 17)) ((itOf ((itCode t + encBf f) % 8)).bind fun t' => (bfSelOf (laEnc 0x014 c 0 (opndCode d) (opndCode a) (encBfB f) 0 (itCode t + encBf f))).bind fun s =>
        laDA (laEnc 0x014 c 0 (opndCode d) (opndCode a) 0 0 (itCode t + encBf f)) fun c d a => .vbfext c t' s d a) := rfl
  rw [e, b1, b2, b4, decide_eq_true b3]
  simp [whenB, laDA, laDABC, LaF.ctl, laEnc, opndOf_zero, opndOf_opndCode d (hd d (by simp)),
    opndOf_opndCode a (ha a (by simp))]
theorem vbfins (c : LaneCtl) (w64 : Bool) (f : BfSel) (d : Opnd) (a : Opnd) (x : Opnd) :
    Statement (.vbfins c w64 f d a x) :=
  fun _ => by
  have hm : it02Code w64 + encBf f < 2 ^ 19 := by
    have h1 := encBf_lt f
    have h2 := it02Code_lt w64
    omega
  refine roundTrips_LA rfl rfl (by decide) (by decide) (opndCode_lt d) (opndCode_lt a) (encBfB_lt f) (opndCode_lt x) hm fun h => ?_
  have h : (laneOk c ⟨true, f.readsB, true⟩ [d] [a, x] && f.wf (if w64 then 64 else 32)) = true := h
  obtain ⟨hl, hf⟩ := (Bool.and_eq_true _ _).mp h
  obtain ⟨hd, ha⟩ := laneOk_parts hl
  obtain ⟨b1, b2, b3, b4⟩ := bfSelOf_enc (op := 0x015) (c := c) (d := opndCode d) (a := opndCode a) (x := (opndCode x)) f (it02Code w64)
    (it02Code_lt w64) hf
  have e : decLA (laEnc 0x015 c 0 (opndCode d) (opndCode a) (encBfB f) (opndCode x) (it02Code w64 + encBf f)) =
      whenB ((it02Code w64 + encBf f) / 8 % 2 == 0 && decide (it02Code w64 + encBf f < 2 ^ 17)) ((it02Of ((it02Code w64 + encBf f) % 8)).bind fun w => (bfSelOf (laEnc 0x015 c 0 (opndCode d) (opndCode a) (encBfB f) (opndCode x) (it02Code w64 + encBf f))).bind fun s =>
        laDABC (laEnc 0x015 c 0 (opndCode d) (opndCode a) 0 (opndCode x) (it02Code w64 + encBf f)) fun c d a _ x => .vbfins c w s d a x) := rfl
  rw [e, b1, b2, b4, decide_eq_true b3]
  simp [whenB, laDA, laDABC, LaF.ctl, laEnc, opndOf_zero, opndOf_opndCode d (hd d (by simp)),
    opndOf_opndCode a (ha a (by simp)), opndOf_opndCode x (ha x (by simp))]
theorem vclmul (c : LaneCtl) (w64 : Bool) (high : Bool) (d : Opnd) (a : Opnd) (b : Opnd) :
    Statement (.vclmul c w64 high d a b) :=
  fun _ => roundTrips_DAB (g := fun c d a b => .vclmul c w64 high d a b) rfl rfl (by decide) (by cases w64 <;> cases high <;> decide) id rfl
  (fun _ f ho hm => by cases w64 <;> cases high <;> simp [decLA, decLaneInt, ho, hm, it02Code, b2n, whenB, it02Of])
theorem vsel (c : LaneCtl) (w64 : Bool) (ks : BitVec 4) (d : Opnd) (a : Opnd) (b : Opnd) :
    Statement (.vsel c w64 ks d a b) :=
  fun _ => roundTrips_DAB (g := fun c d a b => .vsel c w64 ks d a b) rfl rfl (by decide) (by have := it02Code_lt w64; omega) id rfl
  (fun _ f ho hm => by
    have := it02Code_lt w64
    have h1 : (it02Code w64 + 2048 * ks.toNat) / 8 % 256 = 0 := by omega
    have h2 : (it02Code w64 + 2048 * ks.toNat) % 8 = it02Code w64 := by omega
    have h3 : (it02Code w64 + 2048 * ks.toNat) / 2048 = ks.toNat := by omega
    have h4 : (it02Code w64 + 2048 * ks.toNat) < 2 ^ 15 := by omega
    simp only [decLA, decLaneInt, ho, hm, h1, h2, h3, h4]
    simp [whenB])
theorem vcmp (c : LaneCtl) (t : ITy) (cond : ICond) (kd : BitVec 4) (a : Opnd) (b : Opnd) :
    Statement (.vcmp c t cond kd a b) :=
  fun _ => roundTrips_AB (g := fun c a b => .vcmp c t cond kd a b) rfl rfl (by decide) (by have := itCode_lt t; have := icondCode_lt cond; omega) (fun h => andL (h)) rfl
  (fun _ f ho hm => by
    have := itCode_lt t
    have := icondCode_lt cond
    have h1 : (itCode t + 128 * icondCode cond + 2048 * kd.toNat) / 8 % 16 = 0 := by omega
    have h2 : (itCode t + 128 * icondCode cond + 2048 * kd.toNat) % 8 = itCode t := by omega
    have h3 : (itCode t + 128 * icondCode cond + 2048 * kd.toNat) / 2048 = kd.toNat := by omega
    have h4 : (itCode t + 128 * icondCode cond + 2048 * kd.toNat) < 2 ^ 15 := by omega
    have h5 : (itCode t + 128 * icondCode cond + 2048 * kd.toNat) / 128 % 16 = icondCode cond := by omega
    simp only [decLA, decLaneInt, ho, hm, h1, h2, h3, h4, h5]
    simp [whenB])
theorem vaddImm (c : LaneCtl) (t : ITy) (sat : Bool) (d : Opnd) (a : Opnd) (i : W32) :
    Statement (.vaddImm c t sat d a i) :=
  fun _ => roundTrips_LIDA (g := fun c d a i => .vaddImm c t sat d a i) rfl rfl (by decide) (by decide) (Nat.lt_trans (encItSat_lt t sat) (by decide)) id rfl
  (fun _ f ho hm => by simp [decLaneImm, ho, hm])
theorem vsubImm (c : LaneCtl) (t : ITy) (sat : Bool) (d : Opnd) (a : Opnd) (i : W32) :
    Statement (.vsubImm c t sat d a i) :=
  fun _ => roundTrips_LIDA (g := fun c d a i => .vsubImm c t sat d a i) rfl rfl (by decide) (by decide) (Nat.lt_trans (encItSat_lt t sat) (by decide)) id rfl
  (fun _ f ho hm => by simp [decLaneImm, ho, hm])
theorem vmulImm (c : LaneCtl) (t : ITy) (d : Opnd) (a : Opnd) (i : W32) :
    Statement (.vmulImm c t d a i) :=
  fun _ => roundTrips_LIDA (g := fun c d a i => .vmulImm c t d a i) rfl rfl (by decide) (by decide) (Nat.lt_trans (itCode_lt t) (by decide)) id rfl
  (fun _ f ho hm => by simp [decLaneImm, ho, hm])
theorem vminImm (c : LaneCtl) (t : ITy) (d : Opnd) (a : Opnd) (i : W32) :
    Statement (.vminImm c t d a i) :=
  fun _ => roundTrips_LIDA (g := fun c d a i => .vminImm c t d a i) rfl rfl (by decide) (by decide) (Nat.lt_trans (itCode_lt t) (by decide)) id rfl
  (fun _ f ho hm => by simp [decLaneImm, ho, hm])
theorem vmaxImm (c : LaneCtl) (t : ITy) (d : Opnd) (a : Opnd) (i : W32) :
    Statement (.vmaxImm c t d a i) :=
  fun _ => roundTrips_LIDA (g := fun c d a i => .vmaxImm c t d a i) rfl rfl (by decide) (by decide) (Nat.lt_trans (itCode_lt t) (by decide)) id rfl
  (fun _ f ho hm => by simp [decLaneImm, ho, hm])
theorem vandImm (c : LaneCtl) (w64 : Bool) (d : Opnd) (a : Opnd) (i : W32) :
    Statement (.vandImm c w64 d a i) :=
  fun _ => roundTrips_LIDA (g := fun c d a i => .vandImm c w64 d a i) rfl rfl (by decide) (by decide) (Nat.lt_trans (it02Code_lt w64) (by decide)) id rfl
  (fun _ f ho hm => by simp [decLaneImm, ho, hm])
theorem vorImm (c : LaneCtl) (w64 : Bool) (d : Opnd) (a : Opnd) (i : W32) :
    Statement (.vorImm c w64 d a i) :=
  fun _ => roundTrips_LIDA (g := fun c d a i => .vorImm c w64 d a i) rfl rfl (by decide) (by decide) (Nat.lt_trans (it02Code_lt w64) (by decide)) id rfl
  (fun _ f ho hm => by simp [decLaneImm, ho, hm])
theorem vxorImm (c : LaneCtl) (w64 : Bool) (d : Opnd) (a : Opnd) (i : W32) :
    Statement (.vxorImm c w64 d a i) :=
  fun _ => roundTrips_LIDA (g := fun c d a i => .vxorImm c w64 d a i) rfl rfl (by decide) (by decide) (Nat.lt_trans (it02Code_lt w64) (by decide)) id rfl
  (fun _ f ho hm => by simp [decLaneImm, ho, hm])
theorem vandnImm (c : LaneCtl) (w64 : Bool) (d : Opnd) (a : Opnd) (i : W32) :
    Statement (.vandnImm c w64 d a i) :=
  fun _ => roundTrips_LIDA (g := fun c d a i => .vandnImm c w64 d a i) rfl rfl (by decide) (by decide) (Nat.lt_trans (it02Code_lt w64) (by decide)) id rfl
  (fun _ f ho hm => by simp [decLaneImm, ho, hm])
theorem vcmpImm (c : LaneCtl) (t : ITy) (cond : ICond) (kd : BitVec 4) (a : Opnd) (i : W32) :
    Statement (.vcmpImm c t cond kd a i) :=
  fun _ => by
  have hm : (itCode t + 128 * icondCode cond + 2048 * kd.toNat) < 2 ^ 15 := by have := itCode_lt t; have := icondCode_lt cond; omega
  exact roundTrips_LIA (g := fun c a i => .vcmpImm c t cond kd a i) rfl rfl (by decide) (by decide) hm (fun h => andL (h)) rfl
   (fun _ f ho hm => by
    have := itCode_lt t
    have := icondCode_lt cond
    have h1 : (itCode t + 128 * icondCode cond + 2048 * kd.toNat) / 8 % 16 = 0 := by omega
    have h2 : (itCode t + 128 * icondCode cond + 2048 * kd.toNat) % 8 = itCode t := by omega
    have h3 : (itCode t + 128 * icondCode cond + 2048 * kd.toNat) / 2048 = kd.toNat := by omega
    have h5 : (itCode t + 128 * icondCode cond + 2048 * kd.toNat) / 128 % 16 = icondCode cond := by omega
    simp only [decLaneImm, ho, hm, h1, h2, h3, h5]
    simp [whenB])
theorem vfadd (c : LaneCtl) (m : FMode) (d : Opnd) (a : Opnd) (b : Opnd) :
    Statement (.vfadd c m d a b) :=
  fun _ => roundTrips_DAB (g := fun c d a b => .vfadd c m d a b) rfl rfl (by decide) (Nat.lt_trans (fmodeCode_lt m) (by decide)) (fun h => andL (h)) rfl
  (fun _ f ho hm => by simp [decLA, decLaneFloat, ho, hm])
theorem vfsub (c : LaneCtl) (m : FMode) (d : Opnd) (a : Opnd) (b : Opnd) :
    Statement (.vfsub c m d a b) :=
  fun _ => roundTrips_DAB (g := fun c d a b => .vfsub c m d a b) rfl rfl (by decide) (Nat.lt_trans (fmodeCode_lt m) (by decide)) (fun h => andL (h)) rfl
  (fun _ f ho hm => by simp [decLA, decLaneFloat, ho, hm])
theorem vfmul (c : LaneCtl) (m : FMode) (d : Opnd) (a : Opnd) (b : Opnd) :
    Statement (.vfmul c m d a b) :=
  fun _ => roundTrips_DAB (g := fun c d a b => .vfmul c m d a b) rfl rfl (by decide) (Nat.lt_trans (fmodeCode_lt m) (by decide)) (fun h => andL (h)) rfl
  (fun _ f ho hm => by simp [decLA, decLaneFloat, ho, hm])
theorem vfma (c : LaneCtl) (m : FMode) (na : Bool) (nc : Bool) (d : Opnd) (a : Opnd) (b : Opnd) (x : Opnd) :
    Statement (.vfma c m na nc d a b x) :=
  fun _ => roundTrips_DABC (g := fun c d a b x => .vfma c m na nc d a b x) rfl rfl (by decide) (by have := fmodeCode_lt m; have := b2n_lt na; have := b2n_lt nc; omega) (fun h => andL (h)) rfl
  (fun _ f ho hm => by
    have := fmodeCode_lt m
    have := b2n_lt na
    have := b2n_lt nc
    have h6 : fmodeOf (fmodeCode m) = some m := by obtain ⟨t, r, s⟩ := m; cases t <;> cases r <;> cases s <;> rfl
    have h1 : (fmodeCode m + 2 ^ 15 * b2n na + 2 ^ 16 * b2n nc) / 64 % 512 = 0 := by omega
    have h2 : (fmodeCode m + 2 ^ 15 * b2n na + 2 ^ 16 * b2n nc) % 64 = fmodeCode m := by omega
    have h3 : (fmodeCode m + 2 ^ 15 * b2n na + 2 ^ 16 * b2n nc) / 2 ^ 15 % 2 = b2n na := by omega
    have h4 : (fmodeCode m + 2 ^ 15 * b2n na + 2 ^ 16 * b2n nc) / 2 ^ 16 % 2 = b2n nc := by omega
    have h5 : (fmodeCode m + 2 ^ 15 * b2n na + 2 ^ 16 * b2n nc) < 2 ^ 17 := by omega
    simp only [decLA, decLaneFloat, ho, hm, h1, h2, h3, h4, h5]
    simp [whenB, h6])
theorem vfmin (c : LaneCtl) (t : FTy) (d : Opnd) (a : Opnd) (b : Opnd) :
    Statement (.vfmin c t d a b) :=
  fun _ => roundTrips_DAB (g := fun c d a b => .vfmin c t d a b) rfl rfl (by decide) (Nat.lt_trans (ftCode_lt t) (by decide)) id rfl
  (fun _ f ho hm => by simp [decLA, decLaneFloat, ho, hm])
theorem vfmax (c : LaneCtl) (t : FTy) (d : Opnd) (a : Opnd) (b : Opnd) :
    Statement (.vfmax c t d a b) :=
  fun _ => roundTrips_DAB (g := fun c d a b => .vfmax c t d a b) rfl rfl (by decide) (Nat.lt_trans (ftCode_lt t) (by decide)) id rfl
  (fun _ f ho hm => by simp [decLA, decLaneFloat, ho, hm])
theorem vfcmp (c : LaneCtl) (cond : FCond) (kd : BitVec 4) (a : Opnd) (b : Opnd) :
    Statement (.vfcmp c cond kd a b) :=
  fun _ => roundTrips_AB (g := fun c a b => .vfcmp c cond kd a b) rfl rfl (by decide) (by have := fcondCode_lt cond; omega) (fun h => andL (h)) rfl
  (fun _ f ho hm => by simp [decLA, decLaneFloat, ho, hm])
theorem vfrcp (c : LaneCtl) (m : FMode) (d : Opnd) (a : Opnd) :
    Statement (.vfrcp c m d a) :=
  fun _ => roundTrips_DA (g := fun c d a => .vfrcp c m d a) rfl rfl (by decide) (Nat.lt_trans (fmodeCode_lt m) (by decide)) (fun h => andL (h)) rfl
  (fun _ f ho hm => by simp [decLA, decLaneFloat, ho, hm])
theorem vfrsq (c : LaneCtl) (m : FMode) (d : Opnd) (a : Opnd) :
    Statement (.vfrsq c m d a) :=
  fun _ => roundTrips_DA (g := fun c d a => .vfrsq c m d a) rfl rfl (by decide) (Nat.lt_trans (fmodeCode_lt m) (by decide)) (fun h => andL (h)) rfl
  (fun _ f ho hm => by simp [decLA, decLaneFloat, ho, hm])
theorem vfsqrt (c : LaneCtl) (m : FMode) (d : Opnd) (a : Opnd) :
    Statement (.vfsqrt c m d a) :=
  fun _ => roundTrips_DA (g := fun c d a => .vfsqrt c m d a) rfl rfl (by decide) (Nat.lt_trans (fmodeCode_lt m) (by decide)) (fun h => andL (h)) rfl
  (fun _ f ho hm => by simp [decLA, decLaneFloat, ho, hm])
theorem vfexp2 (c : LaneCtl) (m : FMode) (d : Opnd) (a : Opnd) :
    Statement (.vfexp2 c m d a) :=
  fun _ => roundTrips_DA (g := fun c d a => .vfexp2 c m d a) rfl rfl (by decide) (Nat.lt_trans (fmodeCode_lt m) (by decide)) (fun h => andL (h)) rfl
  (fun _ f ho hm => by simp [decLA, decLaneFloat, ho, hm])
theorem vflog2 (c : LaneCtl) (m : FMode) (d : Opnd) (a : Opnd) :
    Statement (.vflog2 c m d a) :=
  fun _ => roundTrips_DA (g := fun c d a => .vflog2 c m d a) rfl rfl (by decide) (Nat.lt_trans (fmodeCode_lt m) (by decide)) (fun h => andL (h)) rfl
  (fun _ f ho hm => by simp [decLA, decLaneFloat, ho, hm])
theorem vftanh (c : LaneCtl) (m : FMode) (d : Opnd) (a : Opnd) :
    Statement (.vftanh c m d a) :=
  fun _ => roundTrips_DA (g := fun c d a => .vftanh c m d a) rfl rfl (by decide) (Nat.lt_trans (fmodeCode_lt m) (by decide)) (fun h => andL (h)) rfl
  (fun _ f ho hm => by simp [decLA, decLaneFloat, ho, hm])
theorem vfclass (c : LaneCtl) (t : FTy) (d : Opnd) (a : Opnd) :
    Statement (.vfclass c t d a) :=
  fun _ => roundTrips_DA (g := fun c d a => .vfclass c t d a) rfl rfl (by decide) (Nat.lt_trans (ftCode_lt t) (by decide)) id rfl
  (fun _ f ho hm => by simp [decLA, decLaneFloat, ho, hm])
theorem vfaddImm (c : LaneCtl) (m : FMode) (d : Opnd) (a : Opnd) (i : W32) :
    Statement (.vfaddImm c m d a i) :=
  fun _ => roundTrips_LIDA (g := fun c d a i => .vfaddImm c m d a i) rfl rfl (by decide) (by decide) (Nat.lt_trans (fmodeCode_lt m) (by decide)) (fun h => andL (h)) rfl
  (fun _ f ho hm => by simp [decLaneImm, ho, hm])
theorem vfsubImm (c : LaneCtl) (m : FMode) (d : Opnd) (a : Opnd) (i : W32) :
    Statement (.vfsubImm c m d a i) :=
  fun _ => roundTrips_LIDA (g := fun c d a i => .vfsubImm c m d a i) rfl rfl (by decide) (by decide) (Nat.lt_trans (fmodeCode_lt m) (by decide)) (fun h => andL (h)) rfl
  (fun _ f ho hm => by simp [decLaneImm, ho, hm])
theorem vfmulImm (c : LaneCtl) (m : FMode) (d : Opnd) (a : Opnd) (i : W32) :
    Statement (.vfmulImm c m d a i) :=
  fun _ => roundTrips_LIDA (g := fun c d a i => .vfmulImm c m d a i) rfl rfl (by decide) (by decide) (Nat.lt_trans (fmodeCode_lt m) (by decide)) (fun h => andL (h)) rfl
  (fun _ f ho hm => by simp [decLaneImm, ho, hm])
theorem vfminImm (c : LaneCtl) (t : FTy) (d : Opnd) (a : Opnd) (i : W32) :
    Statement (.vfminImm c t d a i) :=
  fun _ => roundTrips_LIDA (g := fun c d a i => .vfminImm c t d a i) rfl rfl (by decide) (by decide) (Nat.lt_trans (ftCode_lt t) (by decide)) id rfl
  (fun _ f ho hm => by simp [decLaneImm, ho, hm])
theorem vfmaxImm (c : LaneCtl) (t : FTy) (d : Opnd) (a : Opnd) (i : W32) :
    Statement (.vfmaxImm c t d a i) :=
  fun _ => roundTrips_LIDA (g := fun c d a i => .vfmaxImm c t d a i) rfl rfl (by decide) (by decide) (Nat.lt_trans (ftCode_lt t) (by decide)) id rfl
  (fun _ f ho hm => by simp [decLaneImm, ho, hm])
theorem vfcmpImm (c : LaneCtl) (cond : FCond) (kd : BitVec 4) (a : Opnd) (i : W32) :
    Statement (.vfcmpImm c cond kd a i) :=
  fun _ => roundTrips_LIA (g := fun c a i => .vfcmpImm c cond kd a i) rfl rfl (by decide) (by decide) (by have := fcondCode_lt cond; omega) (fun h => andL (h)) rfl
  (fun _ f ho hm => by simp [decLaneImm, ho, hm])
theorem vcvt (c : LaneCtl) (sf : Fmt) (df : Fmt) (rnd : Rnd) (sat : Bool) (esel : BitVec 3) (d : Opnd) (a : Opnd) :
    Statement (.vcvt c sf df rnd sat esel d a) :=
  fun _ => roundTrips_DA (g := fun c d a => .vcvt c sf df rnd sat esel d a) rfl rfl (by decide) (by have := fmtCode_lt sf; have := fmtCode_lt df; have := rndCode_lt rnd; have := b2n_lt sat; omega) (fun h => andL (andL (andL (andL (andL (andL (h))))))) rfl
  (fun _ f ho hm => by
    have := fmtCode_lt sf
    have := fmtCode_lt df
    have := rndCode_lt rnd
    have := b2n_lt sat
    have h1 : (fmtCode sf + 16 * fmtCode df + 256 * rndCode rnd + 2048 * b2n sat + 4096 * esel.toNat) % 16 = fmtCode sf := by omega
    have h2 : (fmtCode sf + 16 * fmtCode df + 256 * rndCode rnd + 2048 * b2n sat + 4096 * esel.toNat) / 16 % 16 = fmtCode df := by omega
    have h3 : (fmtCode sf + 16 * fmtCode df + 256 * rndCode rnd + 2048 * b2n sat + 4096 * esel.toNat) / 256 % 8 = rndCode rnd := by omega
    have h4 : (fmtCode sf + 16 * fmtCode df + 256 * rndCode rnd + 2048 * b2n sat + 4096 * esel.toNat) / 2048 % 2 = b2n sat := by omega
    have h5 : (fmtCode sf + 16 * fmtCode df + 256 * rndCode rnd + 2048 * b2n sat + 4096 * esel.toNat) / 4096 = esel.toNat := by omega
    have h6 : (fmtCode sf + 16 * fmtCode df + 256 * rndCode rnd + 2048 * b2n sat + 4096 * esel.toNat) < 2 ^ 15 := by omega
    simp only [decLA, decLaneConv, ho, hm, h1, h2, h3, h4, h5, h6]
    simp [whenB])
theorem vqnt (c : LaneCtl) (fs : BitVec 3) (dsel : BitVec 3) (d : Opnd) (a : Opnd) (b : Opnd) :
    Statement (.vqnt c fs dsel d a b) :=
  fun _ => roundTrips_LA rfl rfl (by decide) fs.isLt (opndCode_lt d) (opndCode_lt a) (opndCode_lt b) (by decide)
  (Nat.lt_trans dsel.isLt (by decide)) fun h => by
    obtain ⟨hd, ha⟩ := laneOk_parts (show laneOk c ⟨true, true, false⟩ [d] [a, b] = true from h)
    have hl : dsel.toNat < 8 := dsel.isLt
    show whenB (decide (dsel.toNat < 8)) (laDAB _ _) = _
    rw [decide_eq_true hl]
    simp only [whenB, laDAB, LaF.ctl, laEnc, ctlOf_codes, opndOf_opndCode d (hd d (by simp)), opndOf_opndCode a (ha a (by simp)),
      opndOf_opndCode b (ha b (by simp))]
    simp
theorem vdqnt (c : LaneCtl) (fs : BitVec 3) (esel : BitVec 3) (d : Opnd) (a : Opnd) (b : Opnd) :
    Statement (.vdqnt c fs esel d a b) :=
  fun _ => roundTrips_LA rfl rfl (by decide) fs.isLt (opndCode_lt d) (opndCode_lt a) (opndCode_lt b) (by decide)
  (Nat.lt_trans esel.isLt (by decide)) fun h => by
    obtain ⟨hd, ha⟩ := laneOk_parts (show laneOk c ⟨true, true, false⟩ [d] [a, b] = true from h)
    have hl : esel.toNat < 8 := esel.isLt
    show whenB (decide (esel.toNat < 8)) (laDAB _ _) = _
    rw [decide_eq_true hl]
    simp only [whenB, laDAB, LaF.ctl, laEnc, ctlOf_codes, opndOf_opndCode d (hd d (by simp)), opndOf_opndCode a (ha a (by simp)),
      opndOf_opndCode b (ha b (by simp))]
    simp
theorem vpack (c : LaneCtl) (df : Fmt) (rnd : Rnd) (sat : Bool) (pos : BitVec 2) (d : Opnd) (a : Opnd) (b : Opnd) :
    Statement (.vpack c df rnd sat pos d a b) :=
  fun _ => roundTrips_DAB (g := fun c d a b => .vpack c df rnd sat pos d a b) rfl rfl (by decide) (by have := fmtCode_lt df; have := rndCode_lt rnd; have := b2n_lt sat; omega) (fun h => andL (andL (andL (andL (h))))) rfl
  (fun _ f ho hm => by
    have := fmtCode_lt df
    have := rndCode_lt rnd
    have := b2n_lt sat
    have h1 : (fmtCode df + 16 * rndCode rnd + 128 * b2n sat + 256 * pos.toNat) % 16 = fmtCode df := by omega
    have h3 : (fmtCode df + 16 * rndCode rnd + 128 * b2n sat + 256 * pos.toNat) / 16 % 8 = rndCode rnd := by omega
    have h4 : (fmtCode df + 16 * rndCode rnd + 128 * b2n sat + 256 * pos.toNat) / 128 % 2 = b2n sat := by omega
    have h5 : (fmtCode df + 16 * rndCode rnd + 128 * b2n sat + 256 * pos.toNat) / 256 = pos.toNat := by omega
    have h6 : (fmtCode df + 16 * rndCode rnd + 128 * b2n sat + 256 * pos.toNat) < 2 ^ 10 := by omega
    simp only [decLA, decLaneConv, ho, hm, h1, h3, h4, h5, h6]
    simp [whenB])
theorem vunpk (c : LaneCtl) (sf : Fmt) (pos : BitVec 2) (d : Opnd) (a : Opnd) :
    Statement (.vunpk c sf pos d a) :=
  fun _ => roundTrips_DA (g := fun c d a => .vunpk c sf pos d a) rfl rfl (by decide) (by have := fmtCode_lt sf; omega) (fun h => andL (andL (h))) rfl
  (fun _ f ho hm => by
    have := fmtCode_lt sf
    have h1 : (fmtCode sf + 16 * pos.toNat) % 16 = fmtCode sf := by omega
    have h5 : (fmtCode sf + 16 * pos.toNat) / 16 = pos.toNat := by omega
    have h6 : (fmtCode sf + 16 * pos.toNat) < 64 := by omega
    simp only [decLA, decLaneConv, ho, hm, h1, h5, h6]
    simp [whenB])
theorem vwbupd (c : LaneCtl) (t : FTy) (a : Opnd) (b : Opnd) :
    Statement (.vwbupd c t a b) :=
  fun _ => roundTrips_AB (g := fun c a b => .vwbupd c t a b) rfl rfl (by decide) (Nat.lt_trans (ftCode_lt t) (by decide)) id rfl
  (fun _ f ho hm => by simp [decLA, decLaneConv, ho, hm])
theorem vif (sw : Bool) (kc : BitVec 4) (kcn : Bool) :
    Statement (.vif sw kc kcn) :=
  fun _ => roundTrips_bare (g := fun sw => .vif sw kc kcn) rfl rfl (by decide) (by have := b2n_lt kcn; omega) rfl
  (fun _ f ho hm => by
    have := b2n_lt kcn
    have h1 : kc.toNat + 16 * b2n kcn < 32 := by omega
    have h2 : (kc.toNat + 16 * b2n kcn) % 16 = kc.toNat := by omega
    have h3 : (kc.toNat + 16 * b2n kcn) / 16 = b2n kcn := by omega
    simp only [decLA, decLaneMask, ho, hm, h1, h2, h3]
    simp [whenB])
theorem velse (sw : Bool) :
    Statement (.velse sw) :=
  fun _ => roundTrips_bare (g := .velse) rfl rfl (by decide) (by decide) rfl
  (fun _ f ho hm => by simp [decLA, decLaneMask, ho, hm, whenB])
theorem vendif (sw : Bool) :
    Statement (.vendif sw) :=
  fun _ => roundTrips_bare (g := .vendif) rfl rfl (by decide) (by decide) rfl
  (fun _ f ho hm => by simp [decLA, decLaneMask, ho, hm, whenB])
theorem vkand (c : LaneCtl) (kd : BitVec 4) (ka : BitVec 4) (kb : BitVec 4) :
    Statement (.vkand c kd ka kb) :=
  fun _ => roundTrips_none (g := fun c => .vkand c kd ka kb) rfl rfl (by decide) (by omega) rfl
  (fun _ f ho hm => by
    have h1 : (kd.toNat + 16 * ka.toNat + 256 * kb.toNat) < 2 ^ 12 := by omega
    have h2 : (kd.toNat + 16 * ka.toNat + 256 * kb.toNat) % 16 = kd.toNat := by omega
    have h3 : (kd.toNat + 16 * ka.toNat + 256 * kb.toNat) / 16 % 16 = ka.toNat := by omega
    have h4 : (kd.toNat + 16 * ka.toNat + 256 * kb.toNat) / 256 % 16 = kb.toNat := by omega
    simp only [decLA, decLaneMask, ho, hm, h1, h2, h3, h4]
    simp [whenB])
theorem vkor (c : LaneCtl) (kd : BitVec 4) (ka : BitVec 4) (kb : BitVec 4) :
    Statement (.vkor c kd ka kb) :=
  fun _ => roundTrips_none (g := fun c => .vkor c kd ka kb) rfl rfl (by decide) (by omega) rfl
  (fun _ f ho hm => by
    have h1 : (kd.toNat + 16 * ka.toNat + 256 * kb.toNat) < 2 ^ 12 := by omega
    have h2 : (kd.toNat + 16 * ka.toNat + 256 * kb.toNat) % 16 = kd.toNat := by omega
    have h3 : (kd.toNat + 16 * ka.toNat + 256 * kb.toNat) / 16 % 16 = ka.toNat := by omega
    have h4 : (kd.toNat + 16 * ka.toNat + 256 * kb.toNat) / 256 % 16 = kb.toNat := by omega
    simp only [decLA, decLaneMask, ho, hm, h1, h2, h3, h4]
    simp [whenB])
theorem vkxor (c : LaneCtl) (kd : BitVec 4) (ka : BitVec 4) (kb : BitVec 4) :
    Statement (.vkxor c kd ka kb) :=
  fun _ => roundTrips_none (g := fun c => .vkxor c kd ka kb) rfl rfl (by decide) (by omega) rfl
  (fun _ f ho hm => by
    have h1 : (kd.toNat + 16 * ka.toNat + 256 * kb.toNat) < 2 ^ 12 := by omega
    have h2 : (kd.toNat + 16 * ka.toNat + 256 * kb.toNat) % 16 = kd.toNat := by omega
    have h3 : (kd.toNat + 16 * ka.toNat + 256 * kb.toNat) / 16 % 16 = ka.toNat := by omega
    have h4 : (kd.toNat + 16 * ka.toNat + 256 * kb.toNat) / 256 % 16 = kb.toNat := by omega
    simp only [decLA, decLaneMask, ho, hm, h1, h2, h3, h4]
    simp [whenB])
theorem vknot (c : LaneCtl) (kd : BitVec 4) (ka : BitVec 4) :
    Statement (.vknot c kd ka) :=
  fun _ => roundTrips_none (g := fun c => .vknot c kd ka) rfl rfl (by decide) (by omega) rfl
  (fun _ f ho hm => by
    have h1 : (kd.toNat + 16 * ka.toNat) < 2 ^ 8 := by omega
    have h2 : (kd.toNat + 16 * ka.toNat) % 16 = kd.toNat := by omega
    have h3 : (kd.toNat + 16 * ka.toNat) / 16 % 16 = ka.toNat := by omega
    simp only [decLA, decLaneMask, ho, hm, h1, h2, h3]
    simp [whenB])
theorem vkmov (c : LaneCtl) (toReg : Bool) (k : BitVec 4) (x : Opnd) :
    Statement (.vkmov c toReg k x) :=
  by
  cases toReg with
  | false =>
    exact fun _ => roundTrips_A (g := fun c a => .vkmov c false k a) rfl rfl (by decide) (Nat.lt_trans k.isLt (by decide))
      (fun h => andL (b := decide (k ≠ 0)) h) rfl fun _ f ho hm => by
        have h1 : k.toNat < 16 := k.isLt
        have h2 : k.toNat % 16 = k.toNat := Nat.mod_eq_of_lt h1
        simp only [decLA, decLaneMask, ho, hm, h1, h2]
        simp
  | true =>
    exact fun _ => roundTrips_D (g := fun c d => .vkmov c true k d) rfl rfl (by decide) (by omega)
      (fun h => h) rfl fun _ f ho hm => by
        have h1 : ¬ 16 * k.toNat + 4096 < 16 := by omega
        have h2 : (16 * k.toNat + 4096) % 16 = 0 := by omega
        have h3 : (16 * k.toNat + 4096) / 256 = 16 := by omega
        have h4 : (16 * k.toNat + 4096) / 16 % 16 = k.toNat := by omega
        simp only [decLA, decLaneMask, ho, hm, h1, h2, h3, h4]
        simp [whenB]
theorem vvote (c : LaneCtl) (m : VoteMode) (role : Bool) (ka : BitVec 4) (d : Opnd) :
    Statement (.vvote c m role ka d) :=
  fun _ => roundTrips_D (g := fun c d => .vvote c m role ka d) rfl rfl (by decide) (by have hv : voteCode m < 8 := (by cases m <;> decide); have := b2n_lt role; omega) (fun h => andL (h)) rfl
  (fun _ f ho hm => by
    have hv : voteCode m < 8 := by cases m <;> decide
    have := b2n_lt role
    have h0 : voteOf (voteCode m) = some m := by cases m <;> rfl
    have h1 : (voteCode m + 8 * b2n role + 16 * ka.toNat) < 2 ^ 8 := by omega
    have h2 : (voteCode m + 8 * b2n role + 16 * ka.toNat) % 8 = voteCode m := by omega
    have h3 : (voteCode m + 8 * b2n role + 16 * ka.toNat) / 8 % 2 = b2n role := by omega
    have h4 : (voteCode m + 8 * b2n role + 16 * ka.toNat) / 16 % 16 = ka.toNat := by omega
    simp only [decLA, decLaneMask, ho, hm, h1, h2, h3, h4]
    simp [whenB, h0])
theorem vshfl (c : LaneCtl) (m : ShflMode) (w64 : Bool) (d : Opnd) (a : Opnd) (b : Opnd) (x : Opnd) :
    Statement (.vshfl c m w64 d a b x) :=
  fun _ => roundTrips_DABC (g := fun c d a b x => .vshfl c m w64 d a b x) rfl rfl (by decide) (by cases m <;> cases w64 <;> decide) id rfl
  (fun _ f ho hm => by cases m <;> cases w64 <;> simp [decLA, decLaneMask, ho, hm, whenB, shflCode, shflOf, b2n])
theorem vregroup (c : LaneCtl) (wid : Bool) (pushn : Bool) (d : Opnd) :
    Statement (.vregroup c wid pushn d) :=
  fun _ => roundTrips_D (g := fun c d => .vregroup c wid pushn d) rfl rfl (by decide) (by cases wid <;> cases pushn <;> decide) (fun h => andL (h)) rfl
  (fun _ f ho hm => by cases wid <;> cases pushn <;> simp [decLA, decLaneMask, ho, hm, whenB, b2n])
theorem vtos (c : LaneCtl) (m : TosMode) (a : Opnd) :
    Statement (.vtos c m a) :=
  fun _ => roundTrips_A (g := fun c a => .vtos c m a) rfl rfl (by decide) (by cases m <;> decide) id rfl
  (fun _ f ho hm => by cases m <;> simp [decLA, decLaneMask, ho, hm, whenB, tosCode, tosOf])
theorem vld (c : LaneCtl) (m : LMem) (sx : Bool) (data : Opnd) :
    Statement (.vld c m sx data) :=
  fun _ => roundTrips_load (g := .vld) rfl rfl (by decide) (fun h => ⟨andL (andL (andL (h))), andR (andL (andL (h)))⟩) rfl (fun f ho => by simp only [decLaneMem, ho])
theorem vst (c : LaneCtl) (m : LMem) (wb : Option (BitVec 3)) (data : Opnd) :
    Statement (.vst c m wb data) :=
  fun _ => roundTrips_store (g := .vst) rfl (by cases wb <;> rfl) (by decide) (fun h => ⟨andL (andL (andL (h))), andR (andL (andL (h)))⟩) rfl (fun f ho => by simp only [decLaneMem, ho])
theorem vlds (c : LaneCtl) (m : LMem) (sx : Bool) (data : Opnd) :
    Statement (.vlds c m sx data) :=
  fun _ => roundTrips_load (g := .vlds) rfl rfl (by decide) (fun h => ⟨andL (andL (andL (andL (h)))), andR (andL (andL (andL (h))))⟩) rfl (fun f ho => by simp only [decLaneMem, ho])
theorem vsts (c : LaneCtl) (m : LMem) (wb : Option (BitVec 3)) (data : Opnd) :
    Statement (.vsts c m wb data) :=
  fun _ => roundTrips_store (g := .vsts) rfl (by cases wb <;> rfl) (by decide) (fun h => ⟨andL (andL (andL (andL (h)))), andR (andL (andL (andL (h))))⟩) rfl (fun f ho => by simp only [decLaneMem, ho])
theorem vatom (c : LaneCtl) (m : LMem) (op : AOp) (red : Bool) (scope : Fin 7) (data : Opnd) :
    Statement (.vatom c m op red scope data) :=
  fun _ => roundTrips_LM rfl rfl (by decide) (by decide) (opndCode_lt data) (by omega) (by decide)
  (by have h1 : aopCode op < 16 := by cases op <;> decide
      have := b2n_lt red; omega) fun h => by
    have hx : m.wf = true := andR (andL (andL (andL (andL (andL (andL (h)))))))
    have hl : laneOk c ⟨true, true, false⟩ (if red then [] else [data]) [data] = true := andL (andL (andL (andL (andL (andL (andL (h)))))))
    obtain ⟨-, hd⟩ := laneOk_parts hl
    have h1 : aopCode op < 16 := by cases op <;> decide
    have h2 := b2n_lt red
    have h3 : (aopCode op + 16 * b2n red) % 16 = aopCode op := by omega
    have h4 : (aopCode op + 16 * b2n red) / 16 = b2n red := by omega
    have h5 : aopCode op + 16 * b2n red < 32 := by omega
    have h6 : aopOf (aopCode op) = some op := by cases op <;> rfl
    have h7 : scope.val < 7 := scope.isLt
    simp only [decLaneMem, lmemOf_lmEnc _ _ _ _ _ _ _ _ hx, lmEnc_ctl]
    simp only [lmEnc, opndOf_opndCode data (hd data (by simp)), h3, h4, h5, h6, h7]
    simp [whenB]
theorem vpref (c : LaneCtl) (m : LMem) (l2 : Bool) :
    Statement (.vpref c m l2) :=
  fun _ => roundTrips_LM rfl rfl (by decide) (by decide) (by decide) (by decide) (by decide)
  (Nat.lt_trans (b2n_lt _) (by decide)) fun h => by
    have hx : m.wf = true := andR (andL (andL h))
    simp only [decLaneMem, lmemOf_lmEnc _ _ _ _ _ _ _ _ hx, lmEnc_ctl]
    simp [lmEnc, whenB, show b2n l2 < 2 from b2n_lt l2]
theorem vmma (x : LxMul) :
    Statement (.vmma x) :=
  fun _ => roundTrips_mul rfl rfl (by decide) fun f h1 h2 h3 h4 h5 h6 => by
  simp only [decLaneMatrix, h1, h2, h3, h4, h5, h6]
  simp [whenB, lxFields]
theorem vmmas (x : LxMul) :
    Statement (.vmmas x) :=
  fun _ => roundTrips_mul rfl rfl (by decide) fun f h1 h2 h3 h4 h5 h6 => by
  simp only [decLaneMatrix, h1, h2, h3, h4, h5, h6]
  simp [whenB, lxFields]
theorem vaccz (sw : Bool) (accview : BitVec 3) :
    Statement (.vaccz sw accview) :=
  fun _ => roundTrips_LX ⟨0x0A2, b2n sw, 0, 0, 0, 0, 0, accview.toNat, 0, 0, 0, 0, 0, 0, 0, 0, 0, 0⟩ rfl rfl (show 0xA0 ≤ 0x0A2 ∧ 0x0A2 < 0xC0 by decide) (b2n_lt _) (show 0 < 4 by decide)
  (show 0 < 16 by decide) (show 0 < 2 by decide) (show 0 < 8 by decide) (show 0 < 8 by decide) accview.isLt (show 0 < 8 by decide)
  (show 0 < 16 by decide) (show 0 < 16 by decide) (show 0 < 2 ^ 8 by decide) (show 0 < 8 by decide) (show 0 < 2 by decide)
  (show 0 < 2 by decide) (show 0 < 4 by decide) (show 0 < 2 ^ 24 by decide) (show 0 < 2 ^ 19 by decide)
  (by simp [decLaneMatrix, whenB])
theorem vaccrd (sw : Bool) (accview : BitVec 3) (aview : BitVec 3) (fsa : BitVec 3) (clr : Bool) (wb : Bool) (coff : Bool) :
    Statement (.vaccrd sw accview aview fsa clr wb coff) :=
  fun _ => roundTrips_LX ⟨0x0A3, b2n sw, 0, 0, 0, fsa.toNat, 0, accview.toNat, aview.toNat, 0, 0, 0, 0, 0, 0, 0, 0,
  4 * b2n clr + 2 * b2n wb + b2n coff⟩ rfl rfl (show 0xA0 ≤ 0x0A3 ∧ 0x0A3 < 0xC0 by decide) (b2n_lt _) (show 0 < 4 by decide)
  (show 0 < 16 by decide) (show 0 < 2 by decide) fsa.isLt (show 0 < 8 by decide) accview.isLt aview.isLt
  (show 0 < 16 by decide) (show 0 < 16 by decide) (show 0 < 2 ^ 8 by decide) (show 0 < 8 by decide) (show 0 < 2 by decide)
  (show 0 < 2 by decide) (show 0 < 4 by decide) (show 0 < 2 ^ 24 by decide) (show 4 * b2n clr + 2 * b2n wb + b2n coff < 2 ^ 19 by cases clr <;> cases wb <;> cases coff <;> decide)
  (by cases clr <;> cases wb <;> cases coff <;> simp [decLaneMatrix, whenB, b2n_beq_one, show b2n true = 1 from rfl, show b2n false = 0 from rfl])
theorem vaccsc (sw : Bool) (accview : BitVec 3) (bsel : BitVec 4) (add : Bool) :
    Statement (.vaccsc sw accview bsel add) :=
  fun _ => roundTrips_LX ⟨0x0A4, b2n sw, 0, 0, 0, 0, 0, accview.toNat, 0, bsel.toNat, 0, 0, 0, 0, 0, 0, 0, b2n add⟩ rfl rfl (show 0xA0 ≤ 0x0A4 ∧ 0x0A4 < 0xC0 by decide) (b2n_lt _) (show 0 < 4 by decide)
  (show 0 < 16 by decide) (show 0 < 2 by decide) (show 0 < 8 by decide) (show 0 < 8 by decide) accview.isLt (show 0 < 8 by decide)
  bsel.isLt (show 0 < 16 by decide) (show 0 < 2 ^ 8 by decide) (show 0 < 8 by decide) (show 0 < 2 by decide)
  (show 0 < 2 by decide) (show 0 < 4 by decide) (show 0 < 2 ^ 24 by decide) (Nat.lt_trans (b2n_lt _) (by decide))
  (by simp [decLaneMatrix, whenB, show b2n add < 2 from b2n_lt add])
theorem vmov (c : LaneCtl) (w64 : Bool) (d : Opnd) (a : Opnd) :
    Statement (.vmov c w64 d a) :=
  fun _ => roundTrips_DA (g := fun c d a => .vmov c w64 d a) rfl rfl (by decide) (Nat.lt_trans (b2n_lt w64) (by decide)) id rfl
  (fun _ f ho hm => by cases w64 <;> simp [decLA, decLaneMove, ho, hm, whenB, b2n])
theorem vmovi (c : LaneCtl) (ext : Fin 3) (d : Opnd) (i : W32) :
    Statement (.vmovi c ext d i) :=
  fun _ => roundTrips_LI rfl rfl (by decide) (by decide) (opndCode_lt d) (by decide) (by omega) fun h => by
    obtain ⟨hd, -⟩ := laneOk_parts (show laneOk c ⟨false, false, false⟩ [d] [] = true from h)
    simp only [decLaneImm, opndOf_opndCode d (hd d (by simp)), ctlOf_codes]
    simp [whenB, ext.isLt]
theorem vnop (sw : Bool) :
    Statement (.vnop sw) :=
  fun _ => roundTrips_bare (g := .vnop) rfl rfl (by decide) (by decide) rfl
  (fun _ f ho hm => by simp [decLA, decLaneMove, ho, hm, whenB])
theorem dldr (c : LaneCtl) (m : LMem) (sx : Bool) (data : Opnd) :
    Statement (.dldr c m sx data) :=
  fun _ => roundTrips_load (g := .dldr) rfl rfl (by decide) (fun h => ⟨andL (andL (andL (andL (h)))), andR (andL (andL (andL (h))))⟩) rfl (fun f ho => by simp only [decLaneMem, ho])
theorem dstr (c : LaneCtl) (m : LMem) (wb : Option (BitVec 3)) (data : Opnd) :
    Statement (.dstr c m wb data) :=
  fun _ => roundTrips_store (g := .dstr) rfl (by cases wb <;> rfl) (by decide) (fun h => ⟨andL (andL (andL (h))), andR (andL (andL (h)))⟩) rfl (fun f ho => by simp only [decLaneMem, ho])
theorem dwat (c : LaneCtl) (a : Opnd) (b : Opnd) :
    Statement (.dwat c a b) :=
  fun _ => roundTrips_AB (g := .dwat) rfl rfl (by decide) (by decide) id rfl
  (fun _ f ho hm => by simp [decLA, decLaneMove, ho, hm, whenB])
theorem dtok (c : LaneCtl) (a : Opnd) (b : Opnd) :
    Statement (.dtok c a b) :=
  fun _ => roundTrips_AB (g := .dtok) rfl rfl (by decide) (by decide) id rfl
  (fun _ f ho hm => by simp [decLA, decLaneMove, ho, hm, whenB])
theorem dred (c : LaneCtl) (op : RedOp) (a : Opnd) (b : Opnd) :
    Statement (.dred c op a b) :=
  fun _ => roundTrips_AB (g := fun c a b => .dred c op a b) rfl rfl (by decide) (by cases op <;> decide) id rfl
  (fun _ f ho hm => by cases op <;> simp [decLA, decLaneMove, ho, hm, whenB, redCode, redOf])
theorem dend (c : LaneCtl) :
    Statement (.dend c) :=
  fun _ => roundTrips_none (g := .dend) rfl rfl (by decide) (by decide) rfl
  (fun _ f ho hm => by simp [decLA, decLaneMove, ho, hm, whenB])
theorem streamWake (rk : Nat) (lane : Bool) :
    Statement (.streamWake rk lane) :=
  fun h => nomatch h
theorem roleFinish (rk : Nat) :
    Statement (.roleFinish rk) :=
  fun h => nomatch h
theorem classLResultReturn (rk : Nat) (idx : Nat) :
    Statement (.classLResultReturn rk idx) :=
  fun h => nomatch h
theorem starvationIssue (core : Nat) (dp : Nat) (lane : Bool) :
    Statement (.starvationIssue core dp lane) :=
  fun h => nomatch h
theorem yieldExpire (rk : Nat) :
    Statement (.yieldExpire rk) :=
  fun h => nomatch h
theorem leaseExpire (tk : Nat) :
    Statement (.leaseExpire tk) :=
  fun h => nomatch h
theorem transitionDone (cluster : Nat) :
    Statement (.transitionDone cluster) :=
  fun h => nomatch h
theorem allowReplenish (cluster : Nat) :
    Statement (.allowReplenish cluster) :=
  fun h => nomatch h
theorem lxAccept (rk : Nat) :
    Statement (.lxAccept rk) :=
  fun h => nomatch h
theorem lxStart (core : Nat) :
    Statement (.lxStart core) :=
  fun h => nomatch h
theorem lxResultWrite (core : Nat) :
    Statement (.lxResultWrite core) :=
  fun h => nomatch h
theorem pagerServiceDone (tk : Nat) (vpn : Nat) :
    Statement (.pagerServiceDone tk vpn) :=
  fun h => nomatch h
theorem swapOut (tk : Nat) :
    Statement (.swapOut tk) :=
  fun h => nomatch h
theorem cyclicwait (tk : Nat) :
    Statement (.cyclicwait tk) :=
  fun h => nomatch h
theorem waitaTimeout (rk : Nat) :
    Statement (.waitaTimeout rk) :=
  fun h => nomatch h
theorem commitProbe (tk : Nat) :
    Statement (.commitProbe tk) :=
  fun h => nomatch h
theorem commitPoint (tk : Nat) :
    Statement (.commitPoint tk) :=
  fun h => nomatch h
theorem graceExpire (tk : Nat) :
    Statement (.graceExpire tk) :=
  fun h => nomatch h
theorem cp (x : CpCmd) :
    Statement (.cp x) :=
  fun h => nomatch h
theorem cpcv (x : CpcvCmd) :
    Statement (.cpcv x) :=
  fun h => nomatch h
theorem rdst (x : RdstCmd) :
    Statement (.rdst x) :=
  fun h => nomatch h
theorem fill (x : FillCmd) :
    Statement (.fill x) :=
  fun h => nomatch h
theorem gath (x : GathCmd) :
    Statement (.gath x) :=
  fun h => nomatch h
theorem sig (x : SigCmd) :
    Statement (.sig x) :=
  fun h => nomatch h
theorem copyWtRelease (rk : Nat) (q : Nat) :
    Statement (.copyWtRelease rk q) :=
  fun h => nomatch h
theorem copyComplete (rk : Nat) (q : Nat) :
    Statement (.copyComplete rk q) :=
  fun h => nomatch h
theorem cpcvRescaleTrap (rk : Nat) :
    Statement (.cpcvRescaleTrap rk) :=
  fun h => nomatch h
theorem task (x : TaskCmd) :
    Statement (.task x) :=
  fun h => nomatch h
theorem taskWtRelease (rk : Nat) :
    Statement (.taskWtRelease rk) :=
  fun h => nomatch h
theorem depotRowStart (rk : Nat) :
    Statement (.depotRowStart rk) :=
  fun h => nomatch h
theorem taskComplete (rk : Nat) :
    Statement (.taskComplete rk) :=
  fun h => nomatch h
theorem rwr (x : RwrCmd) :
    Statement (.rwr x) :=
  fun h => nomatch h
theorem rrd (x : RrdCmd) :
    Statement (.rrd x) :=
  fun h => nomatch h
theorem rsig (x : RsigCmd) :
    Statement (.rsig x) :=
  fun h => nomatch h
theorem post (x : PostCmd) :
    Statement (.post x) :=
  fun h => nomatch h
theorem inboundSegment (dst src : Nat) (ord : Bool) (x : InPart) :
    Statement (.inboundSegment dst src ord x) :=
  fun h => nomatch h
theorem retransmit (rk : Nat) (seg : Nat) :
    Statement (.retransmit rk seg) :=
  fun h => nomatch h
theorem inboundStallTimeout (vf : Nat) (idx : Nat) :
    Statement (.inboundStallTimeout vf idx) :=
  fun h => nomatch h
theorem scaleoutComplete (rk : Nat) (status : Nat) (data : List Byte) :
    Statement (.scaleoutComplete rk status data) :=
  fun h => nomatch h
theorem timeout (rk : Nat) :
    Statement (.timeout rk) :=
  fun h => nomatch h
theorem peerdown (rk : Nat) :
    Statement (.peerdown rk) :=
  fun h => nomatch h
theorem waybillMerge (die : Nat) (vf : Nat) (idx : Nat) :
    Statement (.waybillMerge die vf idx) :=
  fun h => nomatch h
theorem waybillAgeExpiry (die : Nat) (vf : Nat) (idx : Nat) :
    Statement (.waybillAgeExpiry die vf idx) :=
  fun h => nomatch h
theorem launchMessage (vf : Nat) (addr : W64) :
    Statement (.launchMessage vf addr) :=
  fun h => nomatch h
theorem launchReady (lid : Nat) :
    Statement (.launchReady lid) :=
  fun h => nomatch h
theorem depTokenRetry (lid : Nat) :
    Statement (.depTokenRetry lid) :=
  fun h => nomatch h
theorem teamDispatch (tk : Nat) (core : Nat) (dps : List Nat) :
    Statement (.teamDispatch tk core dps) :=
  fun h => nomatch h
theorem teamRetire (tk : Nat) :
    Statement (.teamRetire tk) :=
  fun h => nomatch h
theorem launchComplete (lid : Nat) :
    Statement (.launchComplete lid) :=
  fun h => nomatch h
theorem failed (lid : Nat) :
    Statement (.failed lid) :=
  fun h => nomatch h
theorem stageComplete (lid : Nat) :
    Statement (.stageComplete lid) :=
  fun h => nomatch h
theorem farePost (core : Nat) :
    Statement (.farePost core) :=
  fun h => nomatch h
theorem sharedFarePost :
    Statement (.sharedFarePost) :=
  fun h => nomatch h
theorem fareadd (vf : Nat) (microJ : W64) :
    Statement (.fareadd vf microJ) :=
  fun h => nomatch h
theorem preemptGrace (vf : Nat) :
    Statement (.preemptGrace vf) :=
  fun h => nomatch h
theorem preemptResume (vf : Nat) :
    Statement (.preemptResume vf) :=
  fun h => nomatch h
theorem preemptKillAll (vf : Nat) :
    Statement (.preemptKillAll vf) :=
  fun h => nomatch h
theorem preemptAbort (vf : Nat) :
    Statement (.preemptAbort vf) :=
  fun h => nomatch h
theorem answerRetry (vf : Nat) (recid : Nat) :
    Statement (.answerRetry vf recid) :=
  fun h => nomatch h
theorem answerKill (vf : Nat) (recid : Nat) :
    Statement (.answerKill vf recid) :=
  fun h => nomatch h
theorem postclr (vf : Nat) (handle : W64) :
    Statement (.postclr vf handle) :=
  fun h => nomatch h
theorem lostclr (part : Nat) (pa : W64) :
    Statement (.lostclr part pa) :=
  fun h => nomatch h
theorem migrate (part : Nat) (ia : W64) (dst : W64) :
    Statement (.migrate part ia dst) :=
  fun h => nomatch h
theorem migrateLineStep (die : Nat) (idx : Nat) :
    Statement (.migrateLineStep die idx) :=
  fun h => nomatch h
theorem migrateCancel (die : Nat) (idx : Nat) :
    Statement (.migrateCancel die idx) :=
  fun h => nomatch h
theorem migrateResume (die : Nat) (idx : Nat) :
    Statement (.migrateResume die idx) :=
  fun h => nomatch h
theorem migrateReverse (die : Nat) (idx : Nat) :
    Statement (.migrateReverse die idx) :=
  fun h => nomatch h
theorem translationInvalidate (part : Nat) (ia : W64) :
    Statement (.translationInvalidate part ia) :=
  fun h => nomatch h
theorem pwrcfgWrite (cluster : Nat) (val : W64) :
    Statement (.pwrcfgWrite cluster val) :=
  fun h => nomatch h
theorem accept (val : BitVec 128) :
    Statement (.accept val) :=
  fun h => nomatch h
theorem faultRingRegWrite (vf : Nat) (reg : RingReg) (val : W64) :
    Statement (.faultRingRegWrite vf reg val) :=
  fun h => nomatch h
theorem registerWrite (reg : WinReg) (val : W64) :
    Statement (.registerWrite reg val) :=
  fun h => nomatch h
theorem attestationRequest (vf : Nat) (nonce : BitVec 256) :
    Statement (.attestationRequest vf nonce) :=
  fun h => nomatch h
theorem gangLaunchMessage (vf : Nat) (addr : W64) :
    Statement (.gangLaunchMessage vf addr) :=
  fun h => nomatch h
theorem arm (vf : Nat) (gang : Nat) (rank : Nat) (nchip : Nat) (addr : W64) :
    Statement (.arm vf gang rank nchip addr) :=
  fun h => nomatch h
theorem armok (gang : Nat) (rank : Nat) (code : Nat) (grid : Nat × Nat × Nat) :
    Statement (.armok gang rank code grid) :=
  fun h => nomatch h
theorem go (gang : Nat) :
    Statement (.go gang) :=
  fun h => nomatch h
theorem goack (gang : Nat) (rank : Nat) :
    Statement (.goack gang rank) :=
  fun h => nomatch h
theorem goWindowExpire (gang : Nat) :
    Statement (.goWindowExpire gang) :=
  fun h => nomatch h
theorem fenceKill (gang : Nat) :
    Statement (.fenceKill gang) :=
  fun h => nomatch h
theorem packageReset :
    Statement (.packageReset) :=
  fun h => nomatch h
theorem thermUpdate :
    Statement (.thermUpdate) :=
  fun h => nomatch h
theorem hbmTempSample (die : Nat) (stack : Nat) (temp : Byte) :
    Statement (.hbmTempSample die stack temp) :=
  fun h => nomatch h
theorem refreshPeriodSwitch (die : Nat) (stack : Nat) :
    Statement (.refreshPeriodSwitch die stack) :=
  fun h => nomatch h
theorem refreshStart (die : Nat) (stack : Nat) (pch : Nat) :
    Statement (.refreshStart die stack pch) :=
  fun h => nomatch h
theorem refreshEnd (die : Nat) (stack : Nat) (pch : Nat) :
    Statement (.refreshEnd die stack pch) :=
  fun h => nomatch h
theorem scrub (die : Nat) (pa : W64) (r : ScrubResult) :
    Statement (.scrub die pa r) :=
  fun h => nomatch h
theorem linkFlitError (link : Nat) :
    Statement (.linkFlitError link) :=
  fun h => nomatch h
theorem nearThresholdEnter (core : Nat) (upper : Bool) :
    Statement (.nearThresholdEnter core upper) :=
  fun h => nomatch h
theorem illegal :
    Statement (.illegal) :=
  fun h => nomatch h
theorem portDown (port : Fin 8) (down : Bool) :
    Statement (.portDown port down) :=
  fun h => nomatch h

end Sys2Proof.Laws.RoundTrip
end

