-- ==== Sys2Proof/Laws/Scalar.lean ====
section
/-! SUPPORT. What the frame of a scalar instruction does when its fields are ready, and when it cannot go on. -/

namespace Sys2Proof.Machine
open Sys2Proof

/-- A ready word runs its effect on the values read. -/
theorem scalarOp_ready {s s1 : State} {rk : Nat} {srcs : List SReg} {dst : Option SReg} {vs : List W64}
    (h : ScalarReady s rk srcs dst vs s1) (k : Nat → List W64 → State → Res) :
    scalarOp s srcs dst k = k rk vs s1 := by
  obtain ⟨hc, h1, h2, ps, s2, hr, hb, rfl⟩ := h
  simp [scalarOp, State.opIllegal, hc, h1, h2, hr, hb]

theorem alu2_ready {s s1 : State} {rk : Nat} {d a b : SReg} {x y : W64}
    (h : ScalarReady s rk [a, b] (some d) [x, y] s1) (f : W64 → W64 → W64) :
    alu2 s d a b f = .next (s1.finish rk d (f x y)) := scalarOp_ready h _

theorem alu1_ready {s s1 : State} {rk : Nat} {d a : SReg} {x : W64}
    (h : ScalarReady s rk [a] (some d) [x] s1) (f : W64 → W64) :
    alu1 s d a f = .next (s1.finish rk d (f x)) := scalarOp_ready h _

theorem branchOp_ready {s s1 : State} {rk : Nat} {d a : SReg} {x y : W64}
    (h : ScalarReady s rk [a, d] none [x, y] s1) (i : BitVec 13) (c : W64 → W64 → Bool) :
    branchOp s d a i c = .next (if c x y then s1.jumpTo rk (branchTo (s1.role rk).pc (i.signExtend 64))
      else s1.advance rk 4) := scalarOp_ready h _

/-- An ILLEGAL field stops the word before it pops anything (R183). -/
theorem scalarOp_illegal {s : State} {rk : Nat} {srcs : List SReg} {dst : Option SReg} (hc : s.cur = .scalar rk)
    (h : (srcs.any (s.fieldIllegal rk false) || dst.toList.any (s.fieldIllegal rk true)) = true)
    (k : Nat → List W64 → State → Res) : scalarOp s srcs dst k = .next (s.raiseS rk .illegal 0) := by
  simp [scalarOp, State.opIllegal, hc, h]

/-- Reading registers pops nothing and changes nothing (R63). -/
theorem readFields_regs (s : State) (rk : Nat) (kept : Option (List W64)) (ns : List (Fin 48)) :
    s.readFields rk kept (ns.map SReg.s) = .vals (regVals s rk ns) [] s := by
  induction ns with
  | nil => rfl
  | cons n t ih => simp [State.readFields, ih, regVals]

/-- Fields that name registers are ready in every state. -/
theorem scalarReady_regs (s : State) (rk : Nat) (ns : List (Fin 48)) (d : Option (Fin 48)) (hc : s.cur = .scalar rk) :
    ScalarReady s rk (ns.map SReg.s) (d.map SReg.s) (regVals s rk ns) s := by
  refine ⟨hc, ?_, ?_, [], s, readFields_regs s rk _ ns, ?_, rfl⟩
  · simp [State.fieldIllegal]
  · cases d <;> simp [State.fieldIllegal]
  · cases d <;> rfl

/-- The state but for its roles is what `updRole` leaves. -/
@[simp] theorem State.butRoles_updRole (s : State) (rk : Nat) (f : Role → Role) :
    (s.updRole rk f).butRoles = s.butRoles := rfl

@[simp] theorem State.butRoles_advance (s : State) (rk n : Nat) : (s.advance rk n).butRoles = s.butRoles := rfl

@[simp] theorem State.butRoles_jumpTo (s : State) (rk : Nat) (a : W64) : (s.jumpTo rk a).butRoles = s.butRoles := rfl

theorem Role.sreg_setSreg (r : Role) (n m : Nat) (v : W64) :
    (r.setSreg n v).sreg m = if m = 0 then 0 else if m = n then v else r.sreg m := by
  unfold Role.sreg Role.setSreg
  by_cases h0 : m = 0
  · simp [h0]
  · by_cases hn : n = 0
    · have : m ≠ n := by omega
      simp [h0, hn]
    · by_cases hm : m = n
      · simp [hn, hm]
      · simp [h0, hn, hm, NMap.get_set_ne]

end Sys2Proof.Machine
end

