-- ==== Sys2Proof/Tests/Slice0.lean ====
section
/-! SUPPORT. Tests: words that the well-formedness check refuses, words written out from the encodings of the spec,
single steps with results worked out from the spec, and for each statement with hypotheses a state that meets them. -/

namespace Sys2Proof.Tests
open Sys2Proof Sys2Proof.Machine

set_option maxRecDepth 100000
set_option Elab.async false

/-! ## Words that are not well formed -/

/-- The control fields of a plain lane word. -/
def c0 : LaneCtl := ⟨false, .none, 0, false⟩

/-- A plain scratch word of 32 bits at the address in `v1`. -/
def m0 : LMem := ⟨.b32, true, .ignore, .v 1, 0, 0⟩

/-- A plain multiply. -/
def x0 : LxMul := ⟨false, 0, 1, 0, 1, 2, 0, 1, 0, false, false, 0, false, false⟩

/-- R64, R178, R182: masks of zero, fields beyond the word, atomics that need a destination, LIX to a queue. -/
theorem illFormed_scalar : ([.qfence 0 0, .bfext (.s 1) (.s 2) 63 1, .bfins (.s 1) (.s 2) 0x20 0x20,
    .atomCas (.s 0) (.s 1) (.s 2) 0, .atomBfim (.s 0) (.s 1) (.s 2) 0, .atomPlset (.s 0) (.s 1) (.s 2) 0,
    .lih (.q 8) 1, .lix (.q 8) 1] : List Instr).all (fun i => !i.wf) = true := by decide

/-- R54, R56, R73, R74: a predicate `!k0`, a hold of a source that is not read, a destination or source that is none. -/
theorem illFormed_fields : ([.vadd { c0 with kn := true } .i32 false (.v 1) (.v 2) (.v 3),
    .vadd { c0 with hold := .c } .i32 false (.v 1) (.v 2) (.v 3), .vabs { c0 with hold := .b } false false (.v 1) (.v 2),
    .vadd c0 .i32 false (.imm 1) (.v 2) (.v 3), .vadd c0 .i32 false (.v 1) (.snap 0) (.v 3),
    .vmovi { c0 with hold := .a } 0 (.v 1) 5] : List Instr).all (fun i => !i.wf) = true := by decide

/-- R102, R103, R106, R129: `k0` as a destination, a bit field beyond the word, STOCH on `f32`. -/
theorem illFormed_lane : ([.vcmp c0 .i32 .eq 0 (.v 1) (.v 2), .vcmpImm c0 .i32 .eq 0 (.v 1) 2, .vfcmp c0 .eq 0 (.v 1) (.v 2),
    .vfcmpImm c0 .eq 0 (.v 1) 2, .vkand c0 0 1 2, .vkor c0 0 1 2, .vkxor c0 0 1 2, .vknot c0 0 1, .vkmov c0 false 0 (.v 1),
    .vbfext c0 .i32 (.const 31 1) (.v 1) (.v 2), .vbfins c0 true (.const 63 1) (.v 1) (.v 2) (.v 3),
    .vfadd c0 ⟨.f32, .stoch, false⟩ (.v 1) (.v 2) (.v 3)] : List Instr).all (fun i => !i.wf) = true := by decide

/-- R112, R120, R121, R140, R143: conversions, packs, votes and regroups. -/
theorem illFormed_convert : ([.vcvt c0 .b32 .f32 .rne false 0 (.v 1) (.v 2), .vcvt c0 .f32 .b32 .rne false 0 (.v 1) (.v 2),
    .vcvt c0 .f32 .f16 .stoch false 0 (.v 1) (.v 2), .vcvt c0 .i32 .i64 .rtz false 0 (.v 1) (.v 2),
    .vcvt c0 .f32 .i32 .rne true 0 (.v 1) (.v 2), .vcvt c0 .bf16 .f32 .rne false 2 (.v 1) (.v 2),
    .vpack c0 .f32 .rne false 0 (.v 1) (.v 2) (.v 3), .vpack c0 .f16 .stoch false 0 (.v 1) (.v 2) (.v 3),
    .vpack c0 .i8 .rne true 0 (.v 1) (.v 2) (.v 3), .vpack c0 .bf16 .rne false 1 (.v 1) (.v 2) (.v 3),
    .vunpk c0 .f32 0 (.v 1) (.v 2), .vunpk c0 .e4m3 2 (.v 1) (.v 2), .vvote c0 .ballot true 1 (.v 1),
    .vregroup c0 false false (.v 1)] : List Instr).all (fun i => !i.wf) = true := by decide

/-- R76, R130 to R132, R136, R138, R139: memory words. -/
theorem illFormed_memory : ([.vld c0 { m0 with fe := .setFull } false (.v 2), .vld c0 m0 true (.v 2),
    .vld c0 { m0 with scratch := false, fe := .waitFull } false (.v 2), .vst c0 { m0 with fe := .waitClear } none (.v 2),
    .vlds c0 m0 false (.v 2), .vsts c0 m0 none (.v 2), .vatom c0 { m0 with fe := .setFull } .add false 0 (.v 2),
    .vatom c0 { m0 with width := .b16 } .add false 0 (.v 2), .vatom c0 { m0 with width := .b64 } .fadd false 0 (.v 2),
    .vatom c0 m0 .swap true 0 (.v 2), .vatom c0 m0 .add false 2 (.v 2), .vatom c0 { m0 with width := .b64 } .cas false 0 (.v 2),
    .vatom c0 m0 .cas false 0 (.w 0 0), .vpref c0 m0 true, .vpref c0 { m0 with fe := .setFull } false,
    .dldr c0 m0 false (.v 2), .dstr c0 m0 none (.v 2)] : List Instr).all (fun i => !i.wf) = true := by decide

/-- R230, R239, R242: matrix words. -/
theorem illFormed_matrix : ([.vmma { x0 with bsel := 0 }, .vmma { x0 with ssel := 1 }, .vmma { x0 with sparse := 1 },
    .vmma { x0 with msel := 6 }, .vmmas { x0 with sparse := 1 }, .vmmas { x0 with ssel := 1 },
    .vaccsc false 0 0 false] : List Instr).all (fun i => !i.wf) = true := by decide

/-! ## Words from the encodings (R62 to R78, R357) -/

/-- R65 to R67: the integer and control groups. -/
theorem decode_integer : decodeScalar 0x01C06001 0 = some (.add (.q 8) (.s 3) (.s 0)) ∧
    decodeScalar 0x00270001 0 = some (.add (.s 4) (.q 8) (.s 0)) ∧
    decodeScalar 0x0098A91A 0 = some (.clmul (.s 19) (.s 5) (.s 18)) := by decide

theorem decode_control : decodeScalar 0x02000008 0 = some .exit ∧ decodeScalar 0x0200000E 0 = some .txabort ∧
    decodeScalar 0x0228_6206 0 = some (.waita (.s 5) (.s 3) (.s 4)) ∧
    decodeScalar 0x0200620D 0 = some (.txcommit (.s 3) (.s 4)) ∧ decodeScalar 0x02006210 0 = some (.perf (.s 3) (.s 4)) ∧
    decodeScalar 0x02002511 0 = some (.clnr (.s 1) (.s 10)) ∧ decodeScalar 0x02004512 0 = some (.invr (.s 2) (.s 10)) ∧
    decodeScalar 0x0308A003 0 = some (.qfence 0x21 5) := by decide

/-- R68: atomics. -/
theorem decode_atomic : decodeScalar 0x0428625B 0 = some (.atomFfcs (.s 5) (.s 3) (.s 4) 3) := by decide

/-- R69 to R71: immediates, branches, constants; a prefix takes the word behind it. -/
theorem decode_immediate : decodeScalar 0x3038DFFD 0 = some (.beq (.s 7) (.s 6) 0x1FFD) ∧
    decodeScalar 0x40180007 0 = some (.li (.s 3) 7) ∧
    decodeScalar 0xFE481000 0x12345678 = some (.lix (.s 9) 0x12345678) ∧
    decodeScalar 0xFE480000 0xCAFE = some (.lih (.s 9) 0xCAFE) := by decide

/-- R72 to R78: lane words of each layout. -/
theorem decode_lane : decodeLane 0x104018014001000000000001 = some (.vqnt c0 3 1 (.v 10) (.v 2) (.v 0)) ∧
    decodeLane 0x08C000008000C02000480000 = some (.vfma c0 ⟨.f32, .rne, false⟩ false false (.v 4) (.v 1) (.latch 0) (.v 9)) ∧
    decodeLane 0x080000006000800400000002 = some (.vfadd c0 ⟨.bf16x2, .rne, false⟩ (.v 3) (.v 1) (.v 2)) ∧
    decodeLane 0x20200000A003180002025000 =
      some (.vld ⟨true, .none, 0, false⟩ ⟨.b32, true, .waitFull, .v 6, 3, 64⟩ false (.v 5)) ∧
    decodeLane 0x380000002005080000020000 = some (.dldr c0 ⟨.b32, false, .ignore, .v 10, 1, 0⟩ false (.v 1)) := by decide

/-- Bytes that no row of the opcode table gives. -/
theorem decode_none : decodeScalar 0xFFFFFFFF 0 = none ∧ decodeScalar 0x00000000 0 = none ∧ decodeLane 0 = none := by decide

/-! ## Single steps -/

/-- The role that `withFetchWord` sets up. -/
def rk0 : Nat := roleKey (teamKey 1 0) 0

/-- Its team. -/
def tk0 : Nat := teamKey 1 0

/-- The role's scalar stream is executing a word. -/
def scalar0 : State := { State.reset.withFetchWord 32 0 with cur := .scalar rk0, agenda := [] }

/-- The role's lane stream is executing a word. -/
def lane0 : State := { State.reset.withFetchWord 96 0 with cur := .lane rk0, agenda := [] }

/-- The state with scalar registers set. -/
def withS (s : State) (vs : List (Nat × W64)) : State := s.updRole rk0 fun r => vs.foldl (fun r e => r.setSreg e.1 e.2) r

/-- The state with words of lane 0 set. -/
def withV (s : State) (vs : List (Nat × W32)) : State :=
  s.updRole rk0 fun r => { r with lanes := vs.foldl (fun l e => l.put 0 (4 * e.1) 4 e.2.toNat) r.lanes }

/-- A scalar register after an instruction. -/
def sAfter (i : Instr) (vs : List (Nat × W64)) (n : Nat) : Option W64 :=
  match exec i (withS scalar0 vs) with
  | .next t => some ((t.role rk0).sreg n)
  | _ => none

/-- Word `n` of lane 0 after an instruction. -/
def vAfter (i : Instr) (vs : List (Nat × W32)) (n : Nat) : Option Nat :=
  match exec i (withV lane0 vs) with
  | .next t => some ((t.role rk0).lanes.bytes 0 0 (4 * n) 4)
  | _ => none

/-- The PC after an instruction. -/
def pcAfter (i : Instr) (vs : List (Nat × W64)) : Option W64 :=
  match exec i (withS scalar0 vs) with
  | .next t => some (t.role rk0).pc
  | _ => none

theorem test_add_wraps : sAfter (.add (.s 3) (.s 1) (.s 2)) [(1, 0xFFFFFFFFFFFFFFFF), (2, 7)] 3 = some 6 := by decide
theorem test_mulh_signed : sAfter (.mulh (.s 1) (.s 1) (.s 2)) [(1, 0xFFFFFFFFFFFFFFFF), (2, 2)] 1 = some 0xFFFFFFFFFFFFFFFF := by
  decide
/-- R176: the corners of division. -/
theorem test_div_overflow :
    sAfter (.div (.s 3) (.s 1) (.s 2)) [(1, 0x8000000000000000), (2, 0xFFFFFFFFFFFFFFFF)] 3 = some 0x8000000000000000 := by
  decide
theorem test_rem_zero : sAfter (.rem (.s 3) (.s 1) (.s 2)) [(1, 0xFFFFFFFFFFFFFFF9)] 3 = some 0xFFFFFFFFFFFFFFF9 := by decide
theorem test_rem_sign : sAfter (.rem (.s 3) (.s 1) (.s 2)) [(1, 0xFFFFFFFFFFFFFFF9), (2, 2)] 3 = some 0xFFFFFFFFFFFFFFFF := by
  decide
theorem test_sra : sAfter (.sra (.s 3) (.s 1) (.s 2)) [(1, 0x8000000000000000), (2, 0x7F)] 3 = some 0xFFFFFFFFFFFFFFFF := by
  decide
theorem test_s0_discards : sAfter (.addi (.s 0) (.s 1) 5) [(1, 1)] 0 = some 0 := by decide
theorem test_bfins : sAfter (.bfins (.s 3) (.s 1) 15 40) [(1, 0x12345)] 3 = some 0x0023450000000000 := by decide
theorem test_lih_keeps_low : sAfter (.lih (.s 3) 0xCAFE) [(3, 0x12345678)] 3 = some 0x0000CAFE12345678 := by decide
/-- R180: a branch back by three words, and JR to an odd multiple of 2. -/
theorem test_beq_back : pcAfter (.beq (.s 2) (.s 1) 0x1FFD) [(1, 5), (2, 5)] = some 0x1034 := by decide
theorem test_bge_falls : pcAfter (.bge (.s 2) (.s 1) 0x1FFD) [(1, 0xFFFFFFFFFFFFFFFF), (2, 5)] = some 0x1044 := by decide
theorem test_jr_misaligned : pcAfter (.jr (.s 1)) [(1, 0x1042)] = some 0x1040 := by decide
theorem test_call_links : sAfter (.call 4) [] 47 = some 0x1044 := by decide
/-- R181: a store and a load of its bytes. -/
theorem test_store_load : (match exec (.st (.s 1) (.s 2) .n16 0) (withS scalar0 [(1, 0x1234ABCD), (2, 0x3000)]) with
    | .next t => (match exec (.ld (.s 3) (.s 2) .i16 0) t with
      | .next u => some ((u.role rk0).sreg 3)
      | _ => none)
    | _ => none) = some 0xFFFFFFFFFFFFABCD := by decide
/-- R182: FFCS sets the lowest candidate bit and returns its place. -/
theorem test_ffcs : sAfter (.atomFfcs (.s 5) (.s 1) (.s 2) 0) [(1, 0x3000), (2, 0x30)] 5 = some 4 := by decide
theorem test_sysrd_pc : sAfter (.sysrd (.s 3) 0x018) [] 3 = some 1 := by decide
/-- R101: VABS of −2^31, VSUB at `n32 sat` of 3 − 5. -/
theorem test_vabs_wraps : vAfter (.vabs c0 false false (.v 2) (.v 1)) [(1, 0x80000000)] 2 = some 0x80000000 := by decide
theorem test_vabs_sat : vAfter (.vabs c0 false true (.v 2) (.v 1)) [(1, 0x80000000)] 2 = some 0x7FFFFFFF := by decide
theorem test_vsub_sat : vAfter (.vsub c0 .n32 true (.v 3) (.v 1) (.v 2)) [(1, 3), (2, 5)] 3 = some 0 := by decide
/-- R104: the carry-less multiply of the spec's example. -/
theorem test_vclmul : vAfter (.vclmul c0 false false (.v 9) (.v 2) (.v 3)) [(2, 0x22), (3, 0xFFFFFFFF)] 9 = some 0x1E := by
  decide
/-- R107, R108: 1 + 1 in `f32`, and 1 / −0. -/
theorem test_vfadd : vAfter (.vfadd c0 ⟨.f32, .rne, false⟩ (.v 3) (.v 1) (.v 1)) [(1, 0x3F800000)] 3 = some 0x40000000 := by
  decide
/-- R110: −0 is class 3. -/
theorem test_vfclass : vAfter (.vfclass c0 .f32 (.v 3) (.v 1)) [(1, 0x80000000)] 3 = some 8 := by decide
/-- R61, R65: a step runs the decoded word: `li s3, 7`. -/
theorem test_step_li : (match step (State.reset.withFetchWord 32 0x40180007) with
    | .next t => some ((t.role rk0).sreg 3, (t.role rk0).pc)
    | _ => none) = some (7, 0x1044) := by decide
/-- R61: a step over a word that is no instruction stops the role. -/
theorem test_step_illegal : (match step (State.reset.withFetchWord 32 0) with
    | .next t => (t.role rk0).stopped
    | _ => none) = some 0 := by decide

/-! ## States that meet the hypotheses of the statements -/

/-- Register operands are ready. -/
theorem ready (s : State) (ns : List (Fin 48)) (d : Option (Fin 48)) (vs : List W64) (hc : s.cur = .scalar rk0)
    (hv : regVals s rk0 ns = vs) : ScalarReady s rk0 (ns.map SReg.s) (d.map SReg.s) vs s :=
  hv ▸ scalarReady_regs s rk0 ns d hc

/-- Two sources set. -/
def two0 (x y : W64) : State := withS scalar0 [(1, x), (2, y)]

/-- The same in an open transaction, with a write set of one page. -/
def tx0 (x y : W64) : State :=
  ((two0 x y).updTeam tk0 fun t => { t with txOpen := true }).updLaunch 1 fun l => { l with record := putField l.record 236 2 1 }

/-- Channel `q8` from role 0 to itself, with entries. -/
def chan0 (vs : List W64) : State :=
  (scalar0.updLaunch 1 fun l => { l with header := putField l.header 48 1 0x80 }).updTeam tk0 fun t =>
    { t with chans := t.chans.put 8 vs }

/-- The team's scratch page is present. -/
def page0 (s : State) : State :=
  s.updTeam tk0 fun t => { t with pages := t.pages.put 0 ⟨true, true, 0, false, false, false, false, 0, 0, 0, false, 0⟩ }

/-- The first page of the team's write set is present. -/
def wsReady (s : State) : State :=
  s.updTeam tk0 fun t => { t with pages := t.pages.put 8192 ⟨true, true, 0, false, false, false, false, 0, 0, 1, false, 1⟩ }

/-- A translated access is at hand. -/
def okX : AccRes → Bool
  | .ok _ => true
  | _ => false

/-- The access of 8 bytes at 0x3000. -/
def x8 : Xlat := ⟨0, 0x3000, rangeFrom (codePage + 0x3000) 8, false, false⟩

theorem ready_two (x y : W64) (hx : regVals (two0 x y) rk0 [1, 2] = [x, y]) (d : Option (Fin 48)) :
    ScalarReady (two0 x y) rk0 [.s 1, .s 2] (d.map SReg.s) [x, y] (two0 x y) :=
  ready _ [1, 2] d _ rfl hx

theorem witness_ScalarTwoSourceResults : ScalarReady (two0 7 0) rk0 [.s 1, .s 2] (some (.s 3)) [7, 0] (two0 7 0) :=
  ready_two 7 0 (by decide +kernel) (some 3)

/-- A source that is a queue register, and a destination that is one. -/
theorem witness_ScalarTwoSourceResults_queue :
    ∃ t, ScalarReady (chan0 [5]) rk0 [.q 8, .s 0] (some (.q 14)) [5, 0] t :=
  ⟨_, ⟨by decide +kernel, by decide +kernel, by decide +kernel, _, _, rfl, by decide +kernel, rfl⟩⟩

theorem witness_ScalarOneSourceResults : ScalarReady (two0 7 0) rk0 [.s 1] (some (.s 3)) [7] (two0 7 0) ∧
    (63 : BitVec 6).toNat + (0 : BitVec 6).toNat + 1 ≤ 64 ∧
    ScalarReady (two0 7 0) rk0 [.s 1, .s 2, .s 3] (some (.s 3)) [7, 0, 0] (two0 7 0) ∧
    ScalarReady (two0 7 0) rk0 [] (some (.s 3)) [] (two0 7 0) ∧ (two0 7 0).cur = .scalar rk0 :=
  ⟨ready _ [1] (some 3) _ rfl (by decide +kernel), by decide +kernel, ready _ [1, 2, 3] (some 3) _ rfl (by decide +kernel),
    ready _ [] (some 3) _ rfl (by decide +kernel), rfl⟩

theorem witness_ControlTransfers : ScalarReady (two0 7 7) rk0 [.s 1, .s 2] none [7, 7] (two0 7 7) ∧
    ScalarReady (two0 0x1044 0) rk0 [.s 1] none [0x1044] (two0 0x1044 0) ∧ (two0 7 7).cur = .scalar rk0 :=
  ⟨ready_two 7 7 (by decide +kernel) none, ready _ [1] none _ rfl (by decide +kernel), rfl⟩

theorem witness_RegisterFrames : scalar0.cur = .scalar rk0 ∧
    ScalarReady (two0 7 7) rk0 [.s 1, .s 2] (some (.s 0)) [7, 7] (two0 7 7) ∧ (rk0 + 1 ≠ rk0 ∧ tk0 + 1 ≠ teamOf rk0) :=
  ⟨rfl, ready_two 7 7 (by decide +kernel) (some 0), by decide +kernel⟩

/-- Two pops of one queue, and a replay that has its popped value; illegal uses; a pop of an empty queue, of a queue whose
source has ended, and of one whose command is in the write log; pushes that go in, wait, or have no room in the log. -/
theorem witness_QueueRegisters :
    ((chan0 [5, 6]).cur = .scalar rk0 ∧ (chan0 [5, 6]).opIllegal rk0 [.q 8, .q 8] (some (.s 3)) = false ∧
      ((chan0 [5, 6]).role rk0).popped = none ∧
      (((chan0 [5, 6]).popHead rk0 8).popHead rk0 8).dstBlock rk0 (some (.s 3)) = .room ∧
      (((chan0 [5]).updRole rk0 fun r => { r with popped := some [5] }).role rk0).popped = some [5]) ∧
    Pops rk0 (chan0 [5, 6]) [.q 8, .q 8] [5, 6] [5, 6] (((chan0 [5, 6]).popHead rk0 8).popHead rk0 8) ∧
    Pops rk0 (chan0 []) [] [] [] (chan0 []) ∧
    ((chan0 []).opIllegal rk0 [.q 6, .s 0] (some (.s 3)) = true ∧ (chan0 []).opIllegal rk0 [.q 8, .s 0] (some (.s 3)) = false ∧
     (chan0 []).queueOf rk0 8 = [] ∧ (chan0 []).popBlock rk0 8 = .wait) ∧
    (let e := (chan0 []).updRole rk0 fun r => { r with finished := true }
     e.queueOf rk0 8 = [] ∧ e.popBlock rk0 8 = .chanEnd) ∧
    (let s := (tx0 1 2).updTeam tk0 fun t => { t with log := [⟨0, .command 0 0, 8, 0, 0, 5⟩] }
     s.opIllegal rk0 [.q 0, .s 0] (some (.s 3)) = false ∧ s.queueOf rk0 0 = [] ∧ s.inTx (teamOf rk0) = true ∧
     ((s.role rk0).eng 0).todo = [] ∧ ((s.role rk0).eng 0).run = none ∧
     loggedWords (s.team (teamOf rk0)).log (roleIdx rk0) 0 ≠ []) ∧
    ((8 : Fin 16).val ≠ 6 ∧ (chan0 []).takes rk0 (.q 8) 1 = true ∧ (chan0 []).queueLoad rk0 8 < 16 ∧
      (chan0 []).inTx (teamOf rk0) = false ∧ (((chan0 []).role rk0).eng 5).stopped = false ∧
      (chan0 []).takes rk0 (.q 5) 0x8000000000000000 = true) ∧
    ((wsReady (tx0 1 2)).logsPush rk0 0 0x3000000000000000 = true ∧ (wsReady (tx0 1 2)).takes rk0 (.q 0) 0x3000000000000000 = true ∧
      (let s := (tx0 1 2).updLaunch 1 fun l => { l with record := putField l.record 236 2 0 }
       s.pushWaits rk0 (.q 0) 0x3000000000000000 = false ∧ s.logLacks rk0 (.q 0) 0x3000000000000000 = true) ∧
      (((tx0 1 2).updRole rk0 fun r => { r with flight := [⟨.vst c0 { m0 with scratch := false } none (.v 2), [], 0, 0, 0, false, none,
        false, 0, false⟩] }).pushWaits rk0 (.q 0) 0x3000000000000000 = true)) :=
  ⟨by decide +kernel, .pop _ _ 8 _ 5 _ _ (by decide +kernel) (.pop _ _ 8 _ 6 _ _ (by decide +kernel) (.none _)), .none _,
    by decide +kernel, by decide +kernel, by decide +kernel, by decide +kernel, by decide +kernel⟩

theorem witness_FaultRecords : Code.illegal ≠ .page ∧ Code.txcap ≠ .page := by decide +kernel

theorem witness_ScalarLoadsAndStores :
    (let s := page0 (two0 0x3000 0)
     ScalarReady s rk0 [.s 1] (some (.s 3)) [0x3000] s ∧ ScalarReady s rk0 [.s 1, .s 3] none [0x3000, 0] s ∧
     s.orderWait rk0 = false ∧ s.xlat (s.vfOf rk0) 0x3000 8 false = .ok x8 ∧
     s.logSpoilt tk0 0x3000 8 = false ∧ s.inTx tk0 = false ∧ s.xlat (s.vfOf rk0) 0x3000 8 true = .ok x8) ∧
    (let s := tx0 0x3000 0
     s.inTx tk0 = true ∧ s.toIa (s.vfOf rk0) 0x3000 8 = .ia 0x3000) ∧
    (let s := wsReady (tx0 0x3000 0)
     s.inTx tk0 = true ∧ s.toIa (s.vfOf rk0) 0x3000 8 = .ia 0x3000 ∧ s.orderWait rk0 = false ∧ s.wsLack tk0 1 = none) ∧
    (let s := page0 (two0 4088 0)
     s.orderWait rk0 = false ∧ s.legalScratch tk0 4088 8 = true ∧ s.scratchFault tk0 4088 8 false = none ∧
     s.vaultBad tk0 4088 8 false = false ∧ s.vaultBad tk0 4088 8 true = false) :=
  ⟨⟨ready _ [1] (some 3) _ rfl (by decide +kernel), ready _ [1, 3] none _ rfl (by decide +kernel), by decide +kernel⟩, by decide +kernel, by decide +kernel, by decide +kernel⟩

/-- Where they fault: beyond every segment, in a remote segment, in a page that the table lacks, in scratch space. -/
theorem witness_ScalarLoadsAndStores_faults :
    let s := two0 0x3000 0
    s.orderWait rk0 = false ∧ s.orderWait rk0 = false ∧
    s.xlat (s.vfOf rk0) (2 ^ 56 - 7) 8 false = .address ∧
    (let r := s.updVf 0 fun v => { v with segV := v.segV.set 0 0 0x7005 }
     r.xlat (r.vfOf rk0) 0x3000 8 false = .remote) ∧
    (s.setEntry 0 0).xlat (s.vfOf rk0) 0x3000 8 false = .page 2 0x3000 ∧
    4096 * (s.launchOf rk0).scrPages < 4089 + 8 ∧ s.scratchFault (teamOf rk0) 4088 8 false = some 0 := by decide +kernel

theorem witness_ScalarAtomics :
    (let s := two0 0x3000 5
     ScalarReady s rk0 [.s 1, .s 2] (some (.s 5)) [0x3000, 5] s ∧
     ScalarReady s rk0 [.s 1, .s 2, .s 5] (some (.s 5)) [0x3000, 5, 0] s ∧ SReg.s 5 ≠ .s 0 ∧
     s.inTx (teamOf rk0) = false ∧ s.orderWait rk0 = false ∧ (0x3000 : W64).toNat % 8 = 0 ∧
     s.xlat (s.vfOf rk0) (0x3000 : W64).toNat 8 true = .ok x8 ∧ s.bulkHeld x8 = false) ∧
    (let s := page0 (two0 4088 5)
     s.orderWait rk0 = false ∧ s.legalScratch (teamOf rk0) 4088 8 = true ∧
     s.scratchFault (teamOf rk0) 4088 8 false = none ∧ s.vaultBad (teamOf rk0) 4088 8 false = false) ∧
    (let s := tx0 0x3000 5
     s.cur = .scalar rk0 ∧ s.inTx (teamOf rk0) = true ∧ s.orderWait rk0 = false ∧
     s.toIa (s.vfOf rk0) 0x3000 8 = .ia 0x3000) ∧
    (let s := wsReady (tx0 0x3000 5)
     s.cur = .scalar rk0 ∧ s.inTx (teamOf rk0) = true ∧ s.orderWait rk0 = false ∧
     s.toIa (s.vfOf rk0) 0x3000 8 = .ia 0x3000 ∧ s.wsLack tk0 1 = none) ∧
    (let s := two0 0x3001 5
     s.toIa (s.vfOf rk0) 0x3001 8 = .ia 0x3001 ∧ s.toIa (s.vfOf rk0) (2 ^ 56 - 8) 8 = .address) :=
  ⟨⟨ready_two _ _ (by decide +kernel) (some 5), ready _ [1, 2, 5] (some 5) _ rfl (by decide +kernel), by decide +kernel⟩, by decide +kernel, by decide +kernel,
    by decide +kernel, by decide +kernel⟩

theorem witness_StoreEffect : (List.replicate 8 (0 : Byte)).length = x8.pas.length ∧ x8.ia + x8.pas.length ≤ 2 ^ 52 ∧
    (∀ e ∈ scalar0.dirty, grainKey e.1 ∈ (linesOf x8.part x8.ia x8.pas.length).map grainKey → e.2.holder.cluster = 0) ∧
    lineKey 0 0x4000 ∉ linesOf x8.part x8.ia x8.pas.length ∧ cell x8.part 0x3008 ∉ cells x8 ∧
    scalar0.translateIa 0 (0x3008 / 64 * 64) 64 false =
      .ok ⟨0, 0x3000, rangeFrom (codePage + 0x3000) 64, false, false⟩ := by decide +kernel

theorem witness_HomeAndScratchWrites : (List.replicate 8 (0 : Byte)).length = x8.pas.length ∧ x8.pas.Nodup ∧
    (∀ l ∈ linesOf x8.part x8.ia x8.pas.length, scalar0.dirtyOf (grainKey l) = []) ∧ codePage ∉ x8.pas ∧
    (List.replicate 8 (0 : Byte)).length + 4088 ≤ 4096 ∧ Memory.wf scalar0.hbm = true := by decide +kernel

/-- A test of the state after an instruction. -/
def after (i : Instr) (s : State) (f : State → Bool) : Bool :=
  match exec i s with
  | .next t => f t
  | _ => false

theorem witness_PlainControlWords : scalar0.cur = .scalar rk0 ∧ (scalar0.role rk0).flight = [] ∧
    (scalar0.role rk0).lxOut = 0 ∧ (scalar0.role rk0).updatesPending = false ∧
    scalar0.laneAhead rk0 (fun i => touchesMem i || updatesWaybill i) = false ∧
    ((scalar0.updRole rk0 fun r => { r with flight := [⟨.nop, [], 0, 0, 0, false, none, false, 0, false⟩] }).role rk0).flight ≠ [] ∧
    (0x21 : BitVec 6) ≠ 0 ∧ scalar0.orderWait rk0 = false ∧
    (∀ q ∈ maskQueues 0x21, scalar0.queueIllegal rk0 q true = false ∧ scalar0.pushBlock rk0 q = .room) ∧
    (∃ q ∈ maskQueues 0x21, ({ scalar0 with accept := 1 } : State).queueIllegal rk0 q true = true) ∧
    ((State.reset.withFetchWord 96 (encode (.vst c0 m0 none (.v 2)))).updRole rk0 fun r =>
      { r with pc := 0x1040 }).orderWait rk0 = true := by decide +kernel

/-- An object at 4088 that expects two arrivals, one that expects none, and the records; a monitored wait. -/
theorem witness_BarriersAndWaits :
    ScalarReady (two0 4088 0) rk0 [.s 1] none [4088] (two0 4088 0) ∧
    ScalarReady (two0 0x3000 0) rk0 [.s 1, .s 2] (some (.s 3)) [0x3000, 0] (two0 0x3000 0) ∧
    (let s := (page0 (two0 4088 0)).scratchStore tk0 4088 (leBytes 8 0x20001)
     let w : W64 := BitVec.ofNat 64 (leNat (s.scratchLoad (teamOf rk0) 4088 8))
     s.orderWait rk0 = false ∧ s.legalScratch (teamOf rk0) 4088 8 = true ∧
     s.scratchFault (teamOf rk0) 4088 8 false = none ∧ s.vaultBad (teamOf rk0) 4088 8 false = false ∧
     w.extractLsb' 16 16 ≠ 0 ∧
     w.extractLsb' 0 16 < w.extractLsb' 16 16 ∧ w.extractLsb' 33 31 = 0 ∧ (s.role rk0).arrival 4088 = none) ∧
    (let s := page0 (two0 4088 0)
     let w : W64 := BitVec.ofNat 64 (leNat (s.scratchLoad (teamOf rk0) 4088 8))
     w.extractLsb' 16 16 = 0 ∧ (((s.role rk0).recordArrival 4088 false).arrival 4088 = some false)) ∧
    (let s := two0 0x3000 0
     let line := lineKey (s.vf (s.vfOf rk0)).part 0x3000
     (s.role rk0).waita = none ∧ s.orderWait rk0 = false ∧ s.toIa (s.vfOf rk0) 0x3000 1 = .ia 0x3000 ∧
     (s.role rk0).armed.get? line ≠ some true ∧
     ((s.updRole rk0 fun r => { r with armed := r.armed.put line true }).role rk0).armed.get? line = some true) :=
  ⟨ready _ [1] none _ rfl (by decide +kernel), ready_two _ _ (by decide +kernel) (some 3), by decide +kernel⟩

theorem witness_LaneControlWords : ScalarReady (two0 0 0) rk0 [.s 1] none [0] (two0 0 0) ∧
    (let r := (two0 0 0).role rk0
     r.lanes.groups ≤ 1 ∧ 0 < r.lanes.groups ∧ r.blocks = [] ∧ r.blocks.length < 8) ∧
    (ScalarReady { lane0 with cur := .scalar rk0 } rk0 [.s 1] none [0] { lane0 with cur := .scalar rk0 } ∧
     (lane0.role rk0).blocks ≠ []) ∧
    8 ≤ (List.replicate 8 (lane0.role rk0).block).length :=
  ⟨ready _ [1] none _ rfl (by decide +kernel), by decide +kernel,
    ⟨ready _ [1] none _ rfl (by decide +kernel), by decide +kernel⟩, by decide +kernel⟩

/-- Outside a transaction, in one, and the kinds of token address; the abort of a team. -/
theorem witness_TransactionWords : (scalar0.cur = .scalar rk0 ∧ scalar0.inTx (teamOf rk0) = false) ∧
    ((tx0 0x3000 5).cur = .scalar rk0 ∧ (tx0 0x3000 5).inTx (teamOf rk0) = true) ∧
    ScalarReady (tx0 0x3000 5) rk0 [.s 1, .s 2] none [0x3000, 5] (tx0 0x3000 5) ∧
    (let s := tx0 0x3000 5
     s.toIa (s.vfOf rk0) 0x3000 8 = .ia 0x3000 ∧ (s.role rk0).drained = true ∧
     s.toIa (s.vfOf rk0) 0x3001 8 = .ia 0x3001 ∧ s.toIa (s.vfOf rk0) (2 ^ 56 - 8) 8 = .address ∧
     (let r := s.updVf 0 fun v => { v with segV := v.segV.set 0 0 0x7005 }
      r.toIa (r.vfOf rk0) 0x3000 8 = .remote)) :=
  ⟨by decide +kernel, by decide +kernel, ready (tx0 0x3000 5) [1, 2] none _ rfl (by decide +kernel), by decide +kernel⟩

/-- A role that has not drained. -/
theorem witness_TransactionWords_waits :
    (((tx0 0x3000 5).updRole rk0 fun r => { r with blocks := [⟨0, 1, [], [], 0, [], 0⟩] }).role rk0).drained = false := by
  decide +kernel

theorem witness_CacheMaintenance : ScalarReady (two0 0x3000 512) rk0 [.s 1, .s 2] none [0x3000, 512] (two0 0x3000 512) ∧
    (let s := two0 0x3000 512
     s.inTx (teamOf rk0) = false ∧ s.orderWait rk0 = false ∧ 0x3000 % 512 = 0 ∧ 0x3000 + 512 ≤ 2 ^ 56) ∧
    ((tx0 0 0).cur = .scalar rk0 ∧ (tx0 0 0).inTx (teamOf rk0) = true) ∧
    (2 ^ 56 < (2 ^ 56 - 511 : W64).toNat + (512 : W64).toNat) ∧ (0x3001 : W64).toNat % 512 ≠ 0 :=
  ⟨ready_two _ _ (by decide +kernel) none, by decide +kernel⟩

/-- A launch with and without a handler; a role inside its handler; debugging on and off; a launch with stages. -/
theorem witness_TrapsAndBreaks : (scalar0.cur = .scalar rk0 ∧ (scalar0.role rk0).lxOut = 0 ∧
      (scalar0.role rk0).hold = none ∧ (scalar0.launchOf rk0).trapEntry = 0xFFFFFFFF ∧
      (scalar0.role rk0).trapActive = false) ∧
    (let s := scalar0.updLaunch 1 fun l => { l with header := putField l.header 8 4 3 }
     (s.launchOf rk0).trapEntry ≠ 0xFFFFFFFF ∧
     after (.trap 5) s fun t => (t.role rk0).trapActive && (t.role rk0).drained && (t.role rk0).aside.isSome) ∧
    (scalar0.accept.getLsbD 10 = true ∧ ({ scalar0 with accept := 1 } : State).accept.getLsbD 10 = false) ∧
    (let s := scalar0.updLaunch 1 fun l => { l with record := putField l.record 28 2 8 }
     s.inTx (teamOf rk0) = false ∧ (s.launchOf rk0).flag 3 = true ∧ (s.role rk0).drained = true ∧
     (s.launchOf rk0).stage ≤ (s.role rk0).stage ∧ (scalar0.launchOf rk0).flag 3 = false) := by decide +kernel

/-- A handler whose instruction had popped a value, at a marker. -/
theorem witness_TrapsAndBreaks_return :
    let a : Aside := ⟨[], 0, [], true, 0, 0x1040, some [5], none⟩
    let r := (scalar0.updRole rk0 fun r => { r with trapCause := 2 ^ 31, aside := some a, trapPc := 0x1040 }).role rk0
    r.trapActive = true ∧ r.drained = true ∧ r.aside = some a ∧ a.pc = r.trapPc ∧ a.marker = true := by decide +kernel

/-- A context with a registered waybill 0 at 0x5000. -/
def wb0 (s : State) : State :=
  (s.setHome (codePage + 0x5014) 1).updVf 0 fun v => { v with wbtBase := 0x5000, wbtCnt := 1 }

/-- Put a byte map into home memory. -/
def storeMap (s : State) (at_ : Nat) (m : NMap Byte) : State := m.foldl (fun t e => t.setHome (at_ + e.1) e.2) s

/-- The header at 0x1000 and a launch record at 0x4000. -/
def launch0 : State := storeMap (storeMap scalar0 (codePage + 0x1000) fetchHeader) (codePage + 0x4000) fetchRecord

/-- The code that answers the record at 0x4000. -/
def codeOf (s : State) : Nat :=
  let l0 : Launch := { Launch.empty with record := byteMap ((s.distRead 0 0x4000 256).getD []), vf := 0, share := none }
  let h := s.distRead 0 l0.khdr 64
  s.refusal 0 { l0 with header := byteMap (h.getD []) } h.isSome

/-- LAUNCH of a record that is accepted, one that is refused, and one that cannot be read; PERF; WBSYNC of a registered and
of an unregistered index, and of one whose merge is held by a read-only table. -/
theorem witness_LaunchPerfAndSync : ScalarReady (two0 0x3000 5) rk0 [.s 1] (some (.s 3)) [0x3000] (two0 0x3000 5) ∧
    ScalarReady (two0 0x3000 5) rk0 [.s 1, .s 2] none [0x3000, 5] (two0 0x3000 5) ∧
    (let s := two0 0x3000 5
     s.inTx (teamOf rk0) = false ∧ s.orderWait rk0 = false ∧ (0x3000 : W64).toNat % 256 = 0 ∧
     (0x3001 : W64).toNat % 256 ≠ 0) ∧
    (ScalarReady (withS launch0 [(1, 0x4000)]) rk0 [.s 1] (some (.s 3)) [0x4000] (withS launch0 [(1, 0x4000)]) ∧
     (let s := withS launch0 [(1, 0x4000)]
      (0x4000 : W64).toNat % 256 = 0 ∧ s.orderWait rk0 = false ∧ (s.distRead (s.vfOf rk0) 0x4000 256).isSome = true ∧
      codeOf s = 0 ∧ codeOf { s with accept := 2 } = 2 ∧
      (s.setEntry 0 0).distRead (s.vfOf rk0) 0x4000 256 = none)) ∧
    (let s := wb0 (two0 0 0)
     s.updatesAhead rk0 = false ∧ (s.die 0).deltas = [] ∧ (s.die 0).held = [] ∧ s.wbRecord (s.vfOf rk0) 1 = .unregistered ∧
     (match s.wbRecord (s.vfOf rk0) 0 with | .record _ _ => true | _ => false) = true ∧
     (((s.mergeAs (some (teamOf rk0)) 0 fun d => d.isFor 0 0).die 0).held.any fun e => e.2.isFor (s.vfOf rk0) 0) = false) ∧
    (let d : Delta := (Delta.fresh 0 0 0).add tk0 0x3F800000
     let s := ((wb0 (two0 0 0)).updDie 0 fun k => { k with deltas := [d] }).setEntry 0 (codePage + 3)
     (match s.wbRecord (s.vfOf rk0) 0 with | .record _ _ => true | _ => false) = true ∧
     (((s.mergeAs (some (teamOf rk0)) 0 fun d => d.isFor 0 0).die 0).held.any fun e => e.2.isFor (s.vfOf rk0) 0) = true) :=
  ⟨ready _ [1] (some 3) _ rfl (by decide +kernel), ready_two _ _ (by decide +kernel) none, by decide +kernel,
    ⟨ready _ [1] (some 3) _ rfl (by decide +kernel), by decide +kernel⟩, by decide +kernel, by decide +kernel⟩

theorem witness_SystemRegisters : ScalarReady scalar0 rk0 [] (some (.s 3)) [] scalar0 ∧
    ScalarReady (two0 0 0) rk0 [.s 1] none [0] (two0 0 0) ∧ scalar0.drawWait rk0 = false ∧
    (scalar0.launchOf rk0).nroles < 16 ∧ scalar0.sysreg rk0 0x002 = none ∧ scalar0.sysreg rk0 0x050 ≠ none ∧
    ({ State.reset.withFetchWord 96 (encode (.vfadd c0 ⟨.bf16x2, .stoch, false⟩ (.v 3) (.v 1) (.v 2))) with
      cur := .scalar rk0 } : State).drawWait rk0 = true :=
  ⟨ready _ [] (some 3) _ rfl (by decide +kernel), ready _ [1] none _ rfl (by decide +kernel), by decide +kernel⟩

/-- A lane word whose operands are present is ready. -/
theorem readyL (s : State) (c : LaneCtl) (srcs : Sources) (dsts : List (Opnd × Nat)) (hc : s.cur = .lane rk0)
    (h : wordPresent (s.roleCx rk0) (s.role rk0).lanes c.hold srcs dsts = true ∧ (s.role rk0).lanes.clean = true) :
    LaneReady s c srcs dsts (s.roleCx rk0) (s.role rk0).lanes :=
  ⟨by simp [State.laneNow, hc], h.1, h.2⟩

/-- 32-bit and 64-bit operands of one to three sources, and none. -/
theorem ready_words : LaneReady lane0 c0 ⟨.op (.v 1) .w32, .op (.v 2) .w32, .op (.v 3) .w32⟩ [(.v 4, 4)]
      (lane0.roleCx rk0) (lane0.role rk0).lanes ∧
    LaneReady lane0 { c0 with hold := .b } ⟨.op (.v 2) .s64, .op (.v 4) .s64, .none⟩ [(.v 14, 8)]
      (lane0.roleCx rk0) (lane0.role rk0).lanes ∧
    LaneReady lane0 c0 ⟨.op (.v 15) .w32, .imm 5 .w32, .none⟩ [(.v 15, 4)] (lane0.roleCx rk0) (lane0.role rk0).lanes ∧
    LaneReady lane0 c0 ⟨.none, .none, .none⟩ [] (lane0.roleCx rk0) (lane0.role rk0).lanes :=
  ⟨readyL _ _ _ _ rfl (by decide +kernel), readyL _ _ _ _ rfl (by decide +kernel), readyL _ _ _ _ rfl (by decide +kernel),
    readyL _ _ _ _ rfl (by decide +kernel)⟩

theorem witness_LaneArithmetic : LaneReady lane0 c0 ⟨.op (.v 1) .w32, .op (.v 2) .w32, .none⟩ [(.v 4, 4)]
    (lane0.roleCx rk0) (lane0.role rk0).lanes ∧
    LaneReady lane0 c0 ⟨.op (.v 2) .s64, .op (.imm 5) .s64, .op (.snap 3) .s64⟩ [(.v 4, 8)]
      (lane0.roleCx rk0) (lane0.role rk0).lanes :=
  ⟨readyL _ _ _ _ rfl (by decide +kernel), readyL _ _ _ _ rfl (by decide +kernel)⟩

theorem witness_LaneBitwise : LaneReady lane0 c0 ⟨.op (.v 1) .w32, .op (.v 2) .w32, .none⟩ [(.v 4, 4)]
    (lane0.roleCx rk0) (lane0.role rk0).lanes ∧ lane0.laneNow = some (lane0.roleCx rk0, (lane0.role rk0).lanes) :=
  ⟨readyL _ _ _ _ rfl (by decide +kernel), rfl⟩

theorem witness_LanePredicates : LaneReady lane0 c0 ⟨.op (.v 1) .w32, .op (.v 2) .w32, .none⟩ []
    (lane0.roleCx rk0) (lane0.role rk0).lanes ∧
    LaneReady lane0 c0 ⟨.none, .none, .none⟩ [(.v 3, 4)] (lane0.roleCx rk0) (lane0.role rk0).lanes :=
  ⟨readyL _ _ _ _ rfl (by decide +kernel), readyL _ _ _ _ rfl (by decide +kernel)⟩

theorem witness_LaneFloatingPoint : lane0.cur = .lane rk0 ∧ Rnd.rne ≠ .stoch ∧
    LaneReady lane0 c0 ⟨.op (.v 1) .w32, .none, .none⟩ [(.v 4, 4)] (lane0.roleCx rk0) (lane0.role rk0).lanes :=
  ⟨rfl, by decide, readyL _ _ _ _ rfl (by decide +kernel)⟩

theorem witness_StochasticRounding : (⟨.bf16x2, .stoch, true⟩ : FMode).rnd = .stoch ∧
    (⟨.bf16x2, .stoch, true⟩ : FMode).ft = .bf16x2 ∧
    LaneReady lane0 c0 ⟨.op (.v 1) .w32, .op (.v 2) .w32, .none⟩ [(.v 4, 4)] (lane0.roleCx rk0) (lane0.role rk0).lanes :=
  ⟨rfl, rfl, readyL _ _ _ _ rfl (by decide +kernel)⟩

theorem witness_LaneConversions : Rnd.rne ≠ .stoch ∧ Fmt.e4m3.stochOk = true ∧
    LaneReady lane0 c0 ⟨.op (.v 2) (bitsW true), .none, .none⟩ [(.v 4, 8)] (lane0.roleCx rk0) (lane0.role rk0).lanes ∧
    LaneReady lane0 c0 ⟨.op (.v 1) .w32, .op (.v 2) .w32, .none⟩ [(.v 4, 4)] (lane0.roleCx rk0) (lane0.role rk0).lanes :=
  ⟨by decide, by decide, readyL _ _ _ _ rfl (by decide +kernel), readyL _ _ _ _ rfl (by decide +kernel)⟩

/-- The lane stream of a launch whose format slot 0 holds a word. -/
def slot0 (w : Nat) : State := lane0.updLaunch 1 fun l => { l with record := putField l.record 48 8 w }

/-- A slot of `e4m3` values with GEOM 0, with GEOM 1 (of which lane 0 holds 2^100, so that a sum overflows nothing), and
under STOCH; a value that overflows, 2^100 in every lane, without SAT; a registered waybill and one that is not. -/
theorem witness_LaneQuantisation :
    (let s := slot0 2
     let sl := slotOf ((s.launchOf rk0).fslot 0)
     let srcs : Sources := ⟨.op (.v 1) .w32, .none, .none⟩
     s.cur = .lane rk0 ∧ quantFF sl.efmt = some .e4m3 ∧ (0 : BitVec 3).toNat < sl.efmt.perWord ∧ sl.geom = 0 ∧
     s.slotScale rk0 sl .e4m3 = .scale .one ∧ sl.rnd ≠ .stoch ∧ (s.role rk0).updatesPending = false ∧
     LaneReady s c0 srcs [(.v 2, 4)] (s.roleCx rk0) (s.role rk0).lanes) ∧
    (let s := slot0 (2 + 64)
     let sl := slotOf ((s.launchOf rk0).fslot 0)
     sl.geom = 1 ∧ quantFF sl.efmt = some .e4m3 ∧ sl.sat = false ∧ (Opnd.v 3).isDst = true ∧
     LaneReady s c0 ⟨.op (.v 1) .w32, .none, .none⟩ [(.v 2, 4), (.v 3, 4)] (s.roleCx rk0) (s.role rk0).lanes) ∧
    (let s := slot0 (2 + 4 * 2 ^ 9 + 2 ^ 12)
     let sl := slotOf ((s.launchOf rk0).fslot 0)
     sl.rnd = .stoch ∧ sl.geom ≠ 1 ∧ sl.sat = true ∧
     LaneReady s c0 ⟨.op (.v 1) .w32, .none, .none⟩ [(.v 2, 4)] (s.roleCx rk0) (s.role rk0).lanes) ∧
    (quantOne .e4m3 .rne false (decodeF .f32 0x7F000000) .one 0).1.over_ = true ∧
    (quantOne .e4m3 .rne false (decodeF .f32 0x3F800000) .one 0).1.over_ = false ∧
    (let s := wb0 lane0
     LaneReady s c0 ⟨.op (.v 1) .w32, .op (.v 2) .w32, .none⟩ [] (s.roleCx rk0) (s.role rk0).lanes ∧
     s.wbCheckAll (s.vfOf rk0) [0, 0] = .ok ∧ s.inTx (teamOf rk0) = false ∧ (s.role rk0).updatesPending = false ∧
     s.wbCheckAll (s.vfOf rk0) [1] = .opformat) :=
  ⟨⟨rfl, by decide +kernel, by decide +kernel, by decide +kernel, by decide +kernel, by decide +kernel,
      by decide +kernel, readyL _ _ _ _ rfl (by decide +kernel)⟩,
    ⟨by decide +kernel, by decide +kernel, by decide +kernel, by decide +kernel, readyL _ _ _ _ rfl (by decide +kernel)⟩,
    ⟨by decide +kernel, by decide +kernel, by decide +kernel, readyL _ _ _ _ rfl (by decide +kernel)⟩, by decide +kernel,
    by decide +kernel, ⟨readyL _ _ _ _ rfl (by decide +kernel), by decide +kernel⟩⟩

/-- An empty mask stack, one of one level, one of 16; room in `q15`. -/
theorem witness_CrossLaneWords : lane0.cur = .lane rk0 ∧ (lane0.role rk0).lanes.stack = [] ∧
    (List.replicate 16 ((0 : Mask), (0 : Mask))).length = 16 ∧ lane0.pushBlock rk0 15 = .room ∧
    (lane0.role rk0).outstanding = false ∧ (lane0.repair (lane0.coreOf rk0) rk0 []).pushBlock rk0 15 = .room ∧
    LaneReady lane0 c0 ⟨.op (.v 1) .w32, .op (.v 2) .w32, .op (.v 3) .w32⟩ [(.v 4, 4)] (lane0.roleCx rk0)
      (lane0.role rk0).lanes ∧
    LaneReady lane0 c0 ⟨.none, .none, .none⟩ [(.v 4, 4)] (lane0.roleCx rk0) (lane0.role rk0).lanes :=
  ⟨rfl, by decide +kernel, by decide +kernel, by decide +kernel, by decide +kernel, by decide +kernel,
    readyL _ _ _ _ rfl (by decide +kernel), readyL _ _ _ _ rfl (by decide +kernel)⟩

/-- Slot 31 of one group, its last byte; live and not. -/
theorem witness_RegroupMoves : (lane0.role rk0).lanes.groups ≤ 32 ∧ 31 < 32 * (lane0.role rk0).lanes.groups ∧
    1023 < 1024 ∧ NMap.wf (0 : Byte) (lane0.role rk0).lanes.regs = true ∧ (0x80000000 : Mask).getLsbD 31 = true ∧
    (0x80000000 : Mask).getLsbD 30 = false := by decide +kernel

theorem witness_LaneWordFrame : ([0, 31] : List Nat).Nodup ∧ opStart (.v 15) (lane0.roleCx rk0) = some 60 ∧ 60 + 4 ≤ 1024 ∧
    (lane0.role rk0).blocks = [⟨0, 1, [], [], 0, [], 0⟩] ∧ 1 ≤ (lane0.role rk0).lanePc + 1 ∧ lane0.cur = .lane rk0 ∧
    wordPresent (lane0.roleCx rk0) (lane0.role rk0).lanes .none ⟨.op (.v 16) .w32, .op (.v 2) .w32, .none⟩ [(.v 3, 4)] = false ∧
    wordPresent (lane0.roleCx rk0) (lane0.role rk0).lanes .none ⟨.op (.v 1) .w32, .op (.v 2) .w32, .none⟩ [(.v 3, 4)] = true ∧
    (let l : Lanes := { (lane0.role rk0).lanes with bad := [(257, false)] }
     l.clean = false ∧ (Source.op (.v 1) .w32).spoilt l = false ∧ (Source.op (.v 2) .w32).spoilt l = false ∧ parityFails (lane0.roleCx rk0) l c0 ⟨.op (.v 1) .w32, .op (.v 2) .w32, .none⟩ [] = true) ∧
    (let b : Block := ⟨0, 2, [], [], 0, [], 0⟩
     (lane0.role rk0).lanePc + 1 < b.len ∧ ((lane0.updRole rk0 fun r => { r with blocks := [b] }).role rk0).blocks = b :: []) := by
  decide +kernel

/-- No machine check. -/
def notLost : Trans → Bool
  | .mcheck _ _ _ _ => false
  | _ => true

theorem ne_mcheck (t : Trans) (h : notLost t = true) : ∀ sub va pa ls, t ≠ .mcheck sub va pa ls := by
  intro sub va pa ls e
  simp [e, notLost] at h

/-- A scratch load whose last lane reads the last word of the page. -/
theorem witness_LaneMemoryWords :
    (let w : MemWord := ⟨{ m0 with off := 4092 }, .load false, false⟩
     MemReady lane0 rk0 w c0 (.v 2) (lane0.roleCx rk0) (lane0.role rk0).lanes) ∧
    (let w : MemWord := ⟨{ m0 with scratch := false, addr := .v 2, off := 0x3000 }, .store none, false⟩
     MemReady lane0 rk0 w c0 (.v 2) (lane0.roleCx rk0) (lane0.role rk0).lanes) ∧
    (let w : MemWord := ⟨{ m0 with off := 4093 }, .load false, false⟩
     ((laneAccs w (.v 2) c0 (lane0.roleCx rk0) (lane0.role rk0).lanes).filter
       fun a => lane0.laneClass rk0 w a.ea == 1) ≠ []) ∧
    LaneReady lane0 c0 ⟨.op (.v 1) .w32, .none, .none⟩ [] (lane0.roleCx rk0) (lane0.role rk0).lanes ∧
    lane0.logFull rk0 = false :=
  ⟨⟨rfl, by decide +kernel, readyL _ _ _ _ rfl (by decide +kernel), by decide +kernel, by decide +kernel,
      by decide +kernel, by decide +kernel, by decide +kernel, fun _ => ne_mcheck _ (by decide +kernel)⟩,
    ⟨rfl, by decide +kernel, readyL _ _ _ _ rfl (by decide +kernel), by decide +kernel, by decide +kernel,
      by decide +kernel, by decide +kernel, by decide +kernel, fun _ => ne_mcheck _ (by decide +kernel)⟩,
    by decide +kernel, readyL _ _ _ _ rfl (by decide +kernel), by decide +kernel⟩

/-- A full operand log; a data operand that a word cannot have; a tag of a slot without SRC; a returning atomic in a
transaction; lanes in a remote segment and lanes that are misaligned; a write log without room. -/
theorem witness_LaneMemoryWords_faults :
    let cx := lane0.roleCx rk0
    let l := (lane0.role rk0).lanes
    let t := (lane0.updTeam tk0 fun t => { t with txOpen := true }).updLaunch 1 fun l => { l with record := putField l.record 236 2 0 }
    let e : LogEntry := ⟨.nop, [], 0, 0, 0, true, none, false, 0, false⟩
    let g : LMem := { m0 with scratch := false, addr := .v 2, off := 0x3000 }
    let classes (s : State) (w : MemWord) (k : Nat) : Bool :=
      !((laneAccs w (.v 2) c0 cx l).filter fun a => s.laneClass rk0 w a.ea == k).isEmpty
    (lane0.updRole rk0 fun r => { r with flight := List.replicate 8 e }).logFull rk0 = true ∧
    dataOk ⟨m0, .load false, false⟩ (.snap 0) cx l = false ∧
    lane0.wbStoreCheck rk0 ⟨m0, .store (some 0), false⟩ = .opformat ∧
    t.txForbids rk0 ⟨g, .atomic .add false 0, false⟩ = true ∧
    (let r := lane0.updVf 0 fun v => { v with segV := v.segV.set 0 0 0x7005 }
     classes r ⟨g, .load false, false⟩ 2 = true ∧ classes r ⟨g, .load false, false⟩ 1 = false) ∧
    (let w : MemWord := ⟨{ g with off := 0x3001 }, .atomic .add true 0, false⟩
     classes lane0 w 3 = true ∧ classes lane0 w 2 = false ∧ classes lane0 w 1 = false) ∧
    (let w : MemWord := ⟨g, .store none, false⟩
     t.inTx tk0 = true ∧ (laneAccs w (.v 2) c0 cx l).length * t.laneEntries rk0 w ≠ 0 ∧
     t.logRoom tk0 ((laneAccs w (.v 2) c0 cx l).length * t.laneEntries rk0 w) = false) := by decide +kernel

/-- A step that waits for full granules, and one whose granules are full; a translation taken before. -/
theorem witness_LaneAccesses_steps :
    let w : MemWord := ⟨{ m0 with fe := .waitFull }, .load false, false⟩
    let s := page0 lane0
    (granulesOf (0 - 0) (mwBytes w.m.width)).all (s.fullAt tk0) = false ∧
    (granulesOf (0 - 0) (mwBytes w.m.width)).all ((s.updTeam tk0 fun t => t.setFull 0 4 true).fullAt tk0) = true ∧
    LaneAt lane0 rk0 ⟨{ m0 with scratch := false }, .load false, false⟩ ⟨0, 0x3000, 5, 0, 8, some x8⟩ x8 := by
  refine ⟨by decide +kernel, by decide +kernel, .inr ⟨rfl, by decide +kernel⟩⟩

/-- Scratch and global words in and outside a transaction. -/
theorem witness_LaneAccesses : (let a : LaneAcc := ⟨0, 0x3000, 5, 0, 4, none⟩
      a.off = 0 ∧ a.len = mwBytes m0.width ∧ (⟨0, 0x3001, 5, 0, 4, none⟩ : LaneAcc).ea % mwBytes m0.width ≠ 0) ∧
    (AccKind.load false).writes = false ∧ lane0.logsAccess rk0 ⟨m0, .store none, false⟩ = false ∧
    lane0.xlat (lane0.vfOf rk0) 0x3000 4 false = .ok ⟨0, 0x3000, rangeFrom (codePage + 0x3000) 4, false, false⟩ ∧
    m0.scratch = true ∧ m0.fe = .ignore ∧ AOp.add ≠ .cas ∧ lane0.inTx tk0 = false ∧
    lane0.xlat (lane0.vfOf rk0) 0x3000 8 true = .ok x8 ∧ (tx0 0 0).inTx tk0 = true ∧ (255 : Nat) < 2 ^ (8 * 1) := by
  decide +kernel

/-- An accumulator view at byte 256, and a tile view of 32 columns of `e4m3`. -/
def accView : W64 := BitVec.ofNat 64 (3 * 2 ^ 62 + 2 * 2 ^ 60 + 6 * 2 ^ 56 + 256 * 2 ^ 41 + 15 * 2 ^ 36 + 127 * 2 ^ 26 + 16 * 2 ^ 16)

/-- See `accView`. -/
def tileView : W64 := BitVec.ofNat 64 (2 * 2 ^ 62 + 1 * 2 ^ 60 + 2 * 2 ^ 56 + 15 * 2 ^ 36 + 31 * 2 ^ 26)

/-- A role of 1,024 bytes a lane whose views 0 and 1 are the accumulator and the tile, with 16 pages of scratch. -/
def lx0 : State :=
  ((slot0 2).updLaunch 1 fun l => { l with header := putField l.header 4 2 16 }).updRole rk0 fun r =>
    { r with lanes := { r.lanes with budget := 1024 }, blocks := [⟨0, 1, [], [accView, tileView], 0, [], 0⟩] }

/-- A role with its word in the hold and its page present, a core with a queued job, and one with a finished job. -/
def lxHeld (i : Instr) : State := (page0 lx0).held rk0 (lx0.lxWordOf rk0 i)

/-- VMMA's `x0` reads view 2 for A; here view 1. -/
def x1 : LxMul := { x0 with accview := 0, aview := 1, fsa := 0, fsb := 0 }

theorem witness_MatrixWordsHeld : viewValid accView 1 1024 = true ∧ viewValid tileView 1 1024 = true ∧
    lx0.cur = .lane rk0 ∧ (lx0.role rk0).hold = none ∧ lx0.lxCheck (lx0.lxWordOf rk0 (.vmma x1)) = none ∧
    lx0.lxCheck (lx0.lxWordOf rk0 (.vaccz false 0)) = none ∧ lx0.lxCheck (lx0.lxWordOf rk0 (.vaccsc false 0 1 true)) = none ∧
    lx0.lxCheck (lx0.lxWordOf rk0 (.vaccz false 1)) = some (.code .illegal) ∧
    ((lxHeld (.vmma x1)).role rk0).hold ≠ none ∧
    (let b (s : State) : State := s.updRole rk0 fun r => { r with blocks := r.blocks.map fun b => { b with gang := 3 } }
     let w := (b lx0).lxWordOf rk0 (.vmma { x1 with gang := true, msel := 1 })
     let s := (b lx0).held rk0 w
     let t := s.updRole (rk0 + 1) fun r => { r with hold := some { w with rk := rk0 + 1 }, lpark := .rendezvous }
     let ws := w.team.filterMap fun k => t.heldWord k w.members
     w.members.length = 2 ∧ (b lx0).lxCheck w = none ∧
     (w.team.filterMap fun k => s.heldWord k w.members).length ≠ w.members.length ∧
     ws.length = w.members.length ∧ ws.all (lxAgree w) = true) := by decide +kernel

/-- The sparse form and the read-out with slots that suit them. -/
theorem witness_MatrixWordsHeld_forms :
    (let x : LxMul := { x1 with sparse := 1, ssel := 2 }
     lx0.lxCheck (lx0.lxWordOf rk0 (.vmmas x)) = none) ∧
    (let s := (slot0 6).updRole rk0 fun r => { r with
       lanes := { r.lanes with budget := 1024 }, blocks := [⟨0, 1, [], [accView, accView], 0, [], 0⟩] }
     s.lxCheck (s.lxWordOf rk0 (.vaccrd false 0 1 0 false false false)) = none) := by decide +kernel

/-- A word in the hold whose page is absent, one whose page is present and local; a queued job and a finished one. -/
theorem witness_MatrixEngineEvents : (lane0.role rk0).hold = none ∧
    (let s := lx0.held rk0 (lx0.lxWordOf rk0 (.vmma x1))
     let w := lx0.lxWordOf rk0 (.vmma x1)
     (s.role rk0).hold = some w ∧ s.lxReady w = true ∧ s.relocking (s.coreOf rk0) = false ∧ s.lxMissing w ≠ [] ∧
     (s.updRole rk0 fun r => { r with lpark := .none }).lxReady w = false) ∧
    (let s := (lxHeld (.vaccz false 0))
     let w := lx0.lxWordOf rk0 (.vaccz false 0)
     s.lxReady w = true ∧ s.relocking (s.coreOf rk0) = false ∧ s.jointWords w = [w] ∧ s.lxMissing w = [] ∧ s.lxFull w = true ∧
     (s.core (s.coreOf rk0)).engQ.length < 4 ∧ s.lxUnread [w] = none ∧
     after (.lxAccept rk0) s fun t => t.engineMay (clusterOf 0) && (t.core 0).engQ.length == 1 && (t.core 0).lxDone.isEmpty &&
       after (.lxStart 0) t fun u => (u.core 0).lxDone.length == 1 && !u.relocking 0 &&
         (u.core 0).lxDone.all fun j => u.lxWsLack j == none && j.lxs.all fun w => u.hasRole w.rk) ∧
    ([(rkey 31 60, (7 : Byte))].map Prod.fst).Nodup ∧ (lane0.role rk0).lanes.watch = [] ∧
    (let s := lane0.updCluster 0 fun c => { c with allow := -1 }
     s.engineMay (clusterOf 0) = false) ∧ (lane0.core 0).lxDone = [] := by decide +kernel

/-- The word that the engine of core 0 takes first, its reads good, or with bad parity; a word without an engine step. -/
theorem witness_MatrixEngineEvents_start :
    (let w := lx0.lxWordOf rk0 (.vaccz false 0)
     let s := lxHeld (.vaccz false 0)
     after (.lxAccept rk0) s fun t => (t.lxNext 0).any fun e =>
       !t.lxBadB e.1 && (t.lxFails e.1).isNone && e.1.lxs.map LxWord.word == [w.word]) ∧
    lane0.lxNext 0 = none ∧ lxMulOf (.vmma x1) = some x1 ∧
    ([0, 1, 2, 3] : List Nat).length = 2 ^ 2 ∧ (lane0.role rk0).lanes.pend = [] ∧ (lane0.role rk0).lanes.back = [] := by
  decide +kernel

/-- A command in progress. -/
def cmdOf (i : Instr) : Cmd := ⟨some i, 7, false, 1, false, none, none, none, [], none, 0, [], .fresh, 0, 0⟩

/-- The engine of a queue performs a command. -/
def engine0 (q : Nat) (i : Instr) : State :=
  { (page0 scalar0).updRole rk0 fun r => r.updEng q fun e => { e with run := some (cmdOf i) } with cur := .engine rk0 q }

/-- Plain tails. -/
def tail0 : CmdTail := ⟨7, false, none⟩

/-- See `tail0`. -/
def rtail0 : RemTail := ⟨false, 0, 0, none, none, false, 7⟩

theorem readyE (q : Nat) (i : Instr) (h : ((engine0 q i).engQ rk0 q).run = some (cmdOf i)) :
    EngineReady (engine0 q i) rk0 q (cmdOf i) := ⟨by decide +kernel, rfl, h, rfl, rfl, rfl⟩

/-- A depot row of 16 lanes whose task has no code of its own. -/
def task0 : TaskCmd := ⟨1, 16, 0x3000, 0x3000, 64, 2, 5, [], none, none, false, 7⟩

/-- Depot code of one word at 0x3000. -/
def code0 (s : State) : State :=
  ((rangeFrom (codePage + 0x3000) 12).zip (leBytes 12 (encode (.dend c0)))).foldl (fun t e => t.setHome e.1 e.2) s

/-- The task in progress, with its first row. -/
def row0 : State :=
  let t : DTask := ⟨rk0, task0, 1, [], 0, 0, []⟩
  let s := engine0 5 (.task task0)
  let s := { s with tasks := s.tasks.put rk0 t, rows := s.rows.put (rowKey rk0 0) (newRow t 0 (some 0) none) }
  { s with cur := .row (rowKey rk0 0) }

theorem witness_Depots :
    RowReady row0 (rowKey rk0 0) (row0.task rk0) (row0.rowCx (rowKey rk0 0)) (row0.row (rowKey rk0 0)).lanes ∧
    (let k := rowKey rk0 0
     let cx := row0.rowCx k
     let l := (row0.row k).lanes
     let m : LMem := { m0 with scratch := false, addr := .v 2, off := 0x3000 }
     (l.actives c0).length = 16 ∧ (∀ i ∈ l.actives c0, memEa m false cx l i % 4 = 0) ∧
     (∀ i ∈ l.actives c0, row0.depotAcc (row0.task rk0) (memEa m false cx l i) 4 true =
       .ok ⟨0, 0x3000, rangeFrom (codePage + 0x3000) 4, false, false⟩) ∧
     l.actives { c0 with k := 1 } = [] ∧
     row0.depotAcc (row0.task rk0) 0x3000 8 true = .ok x8 ∧ row0.depotAcc (row0.task rk0) 0x3000 8 false = .ok x8 ∧
     (∀ i ∈ l.actives c0, row0.depotAcc (row0.task rk0) (memEa m false cx l i) 4 false =
       .ok ⟨0, 0x3000, rangeFrom (codePage + 0x3000) 4, false, false⟩) ∧ row0.pace = none ∧ (row0.row k).part = []) ∧
    lane0.cur = .lane rk0 ∧ EngineReady (engine0 5 (.task task0)) rk0 5 (cmdOf (.task task0)) ∧
    (engine0 5 (.task task0)).tasks.has rk0 = false ∧
    scalar0.taskCheck rk0 task0 = .status 10 ∧ (code0 scalar0).taskCheck rk0 task0 = .ok ∧
    lane0.taskRuns rk0 = false ∧
    (row0.taskRuns rk0 = true ∧ (row0.task rk0).skipped = [] ∧ (row0.task rk0).next < (row0.task rk0).cmd.nrows ∧
      row0.placeOf (row0.task rk0) (row0.task rk0).next =
        .depot 0 ⟨0, 0x3040, rangeFrom (codePage + 0x3040) 1, false, false⟩ ∧ row0.depotRoom 0 = true) ∧
    (let s := { row0 with rows := [], tasks := [(rk0, ⟨rk0, task0, 2, [], 2, 0, []⟩)] }
     s.taskOver rk0 = true ∧ (s.task rk0).status = 0 ∧ (s.task rk0).cmd.ct = none) ∧
    (lane0.engQ rk0 5).run = none :=
  ⟨⟨rfl, by decide +kernel, by decide +kernel, rfl, rfl⟩, by decide +kernel, rfl, readyE _ _ (by decide +kernel),
    by decide +kernel, by decide +kernel, by decide +kernel, by decide +kernel, by decide +kernel, by decide +kernel⟩

/-- Rows whose accesses are illegal, misaligned, lost or not mapped; a depot that is full; anchors that fail, and that no
depot serves; a task that has failed; mask stacks at their limits. -/
theorem witness_Depots_faults :
    let k := rowKey rk0 0
    let t := row0.task rk0
    let full : State := { row0 with rows := (List.range 8).map fun i => (rowKey rk0 (i + 100), newRow t i (some 0) none) }
    row0.depotAcc t (2 ^ 56 - 8) 4 false = .status 3 ∧ row0.depotAcc t 0x3000 4 false ≠ .status 3 ∧
    (0x3002 : Nat) % 4 ≠ 0 ∧ (∀ ia, row0.toIa (row0.vfOf t.rk) (2 ^ 56 - 8) 4 ≠ .ia ia) ∧
    (row0.updDie 0 fun d => { d with lost := [(codePage + 0x3000) / 64] }).depotAcc t 0x3000 4 false = .status 7 ∧
    (row0.setEntry 0 0).depotAcc t 0x3000 4 false = .page 2 0x3000 0x3000 ∧
    full.depotRoom 0 = false ∧
    row0.placeOf { t with cmd := { t.cmd with row0 := BitVec.ofNat 64 (2 ^ 56) } } 0 = .status 3 ∧
    (row0.updStk 0 fun k => { k with depCap := 0 }).depotOf codePage = none ∧
    (let s := { row0 with rows := [], tasks := [(rk0, ⟨rk0, task0, 2, [], 2, 3, []⟩)] }
     s.taskOver rk0 = true ∧ (s.task rk0).status = 3 ∧ (s.engQ rk0 5).todo = []) ∧
    (row0.row k).lanes.stack = [] ∧ (List.replicate 16 ((0 : Mask), (0 : Mask))).length = 16 := by
  refine ⟨by decide +kernel, by decide +kernel, by decide, ?_, by decide +kernel, by decide +kernel, by decide +kernel,
    by decide +kernel, by decide +kernel, by decide +kernel, by decide +kernel, by decide⟩
  intro ia
  rw [show row0.toIa (row0.vfOf (row0.task rk0).rk) (2 ^ 56 - 8) 4 = .address from by decide +kernel]
  exact SegRes.noConfusion

/-- A copy of two elements of 16 bytes from 0x3000 to scratch. -/
def cp0 : CpCmd := ⟨.scr, .glob, 16, false, ⟨0x3000, 0, 2, 1, 1, 0, 0, 0, 0⟩, tail0⟩

/-- A fill of it. -/
def fill0 : FillCmd := ⟨.scr, 16, false, ⟨0, 0, 2, 1, 1, 0, 0, 0, 0⟩, 5, tail0⟩

/-- A gather of one row of 16 bytes by the index at 0x3000. -/
def gath0 : GathCmd := ⟨.scr, .glob, .glob, 16, 0x4000, 0, 0x3000, 1, 16, 0, 0, tail0⟩

/-- Two `f32` elements converted to `e4m3`. -/
def cpcv0 : CpcvCmd := ⟨.scr, .glob, .f32, 0, false, false, ⟨0x3000, 0, 2, 1, 1, 0, 0, 0, 0⟩, 0, tail0⟩

/-- Two `f32` elements reduced into 0x4000, with no signal. -/
def rdst0 : RdstCmd := ⟨.scr, .f32, 0, false, ⟨0, 0x4000, 2, 1, 1, 0, 0, 0, 0⟩, .none, tail0⟩

/-- Signals. -/
def sigT : SigCmd := ⟨.token 0x3000 5, tail0⟩

/-- See `sigT`. -/
def sigB : SigCmd := ⟨.barrier 4088, tail0⟩

/-- The engine of queue 0, in a launch whose slot 0 is `w`. -/
def copy0 (w : Nat) (i : Instr) : State :=
  (engine0 0 i).updLaunch 1 fun l => { l with record := putField l.record 48 8 w }

theorem readyC (w : Nat) (i : Instr) (h : ((copy0 w i).engQ rk0 0).run = some (cmdOf i)) :
    EngineReady (copy0 w i) rk0 0 (cmdOf i) := ⟨by decide +kernel, rfl, h, rfl, rfl, rfl⟩

/-- Where a command's course ends, if it runs from `s` in one step. -/
def runTo (q : Nat) (s : State) (x : Course) (put : Put) : Option State :=
  (readAll rk0 q x.numbered s).bind fun t =>
    if x.fails (t.prog rk0 q).got = none ∧ (x.writes (t.prog rk0 q).got true).length ≤ x.most then
      writeAll rk0 q x.home put none (x.writes (t.prog rk0 q).got true) t
    else none

theorem runs_to {q : Nat} {s : State} {x : Course} {put : Put}
    (h : (runTo q s x put).isSome = true) : CourseRuns s rk0 q x put ((runTo q s x put).getD s) := by
  obtain ⟨u, hu⟩ := Option.isSome_iff_exists.1 h
  rw [hu, Option.getD_some]
  simp only [runTo, Option.bind_eq_some_iff] at hu
  obtain ⟨t, ht, hw⟩ := hu
  split at hw
  · exact ⟨t, ht, (‹_ ∧ _›).1, (‹_ ∧ _›).2, hw⟩
  · cases hw

/-- Two elements that are beyond the largest `e4m3`: 512.0. -/
def over0 : State := (copy0 2 (.cpcv cpcv0)).setHome (codePage + 0x3003) 0x44

/-- CP, FILL and GATH with accesses that can be made. -/
theorem witness_CopyCommands :
    (let s := copy0 2 (.cp cp0)
     let p := cpPlan cp0
     let t := s.beginCmd rk0 0 p true 1
     EngineReady s rk0 0 (cmdOf (.cp cp0)) ∧ (cmdOf (.cp cp0)).prog = .fresh ∧ s.pace = none ∧ PlanReady s rk0 p true ∧
     ∃ u, CourseRuns t rk0 0 (copyCourse p) (copyPut rk0 0 p (t.accLocs rk0 p.reads)) u) ∧
    (let s := copy0 2 (.fill fill0)
     let p := fillPlan fill0
     EngineReady s rk0 0 (cmdOf (.fill fill0)) ∧ PlanReady s rk0 p true ∧
     ∃ u, CourseRuns (s.beginCmd rk0 0 p true 1) rk0 0 (fillCourse fill0 s.free) (copyPut rk0 0 p []) u) ∧
    (let s := copy0 2 (.gath gath0)
     let p0 : Plan := ⟨gathIdx gath0, [], [], false⟩
     let b := s.beginCmd rk0 0 p0 false 1
     let t := (runTo 0 b (copyCourse p0) fun _ _ _ => none).getD b
     let ix := (t.prog rk0 0).got.map leNat
     let p := gathPlan gath0 ix
     let t1 := t.updProg rk0 0 fun _ => { Prog.fresh with idx := some ix }
     PlanReady s rk0 p0 false ∧ CourseRuns b rk0 0 (copyCourse p0) (fun _ _ _ => none) t ∧
     ix.length = 1 ∧ PlanReady t1 rk0 p true ∧
     let t2 := t1.beginCmd rk0 0 p true 1
     ∃ u, CourseRuns t2 rk0 0 (copyCourse p) (copyPut rk0 0 p (t2.accLocs rk0 p.reads)) u) ∧
    (0 < cp0.shape.e0 ∧ 0 < cp0.shape.e1 ∧ 0 < cp0.shape.e2) :=
  ⟨⟨readyC _ _ (by decide +kernel), rfl, rfl, ⟨by decide +kernel, by decide +kernel, by decide +kernel, fun _ => by decide +kernel⟩,
      _, runs_to (by decide +kernel)⟩,
    ⟨readyC _ _ (by decide +kernel), ⟨by decide +kernel, by decide +kernel, by decide +kernel, fun _ => by decide +kernel⟩,
      _, runs_to (by decide +kernel)⟩,
    ⟨⟨by decide +kernel, by decide +kernel, by decide +kernel, fun h => by simp at h⟩, runs_to (by decide +kernel), by decide +kernel,
      ⟨by decide +kernel, by decide +kernel, by decide +kernel, fun _ => by decide +kernel⟩, _, runs_to (by decide +kernel)⟩,
    by decide +kernel⟩

theorem test_readOrder (s : State) (e : Read) (todo : List Read) : s.readOrder (e :: todo) ≠ [] := by
  unfold State.readOrder
  by_cases h : Config.freeBit s.free (2 * e.1 + 1) = true <;> split <;> simp [h]

/-- CPCV within its format and beyond it, RDST and SIG with accesses that can be made, and one access of a CP under a
pace. -/
theorem witness_CopyCommands_rest :
    (let s := copy0 2 (.cpcv cpcv0)
     let sl := slotOf ((s.launchOf rk0).fslot cpcv0.fs.toNat)
     let p := cpcvPlan cpcv0 sl
     let bits := (roundTo .one .f32 .rne false 0).bits
     let course (t : State) : Course := t.cpcvCourse rk0 cpcv0 sl .e4m3 (decodeF .f32 bits) 1
     let begun (s : State) : State := (s.beginCmd rk0 0 p true 1).cpcvBegin rk0 0 cpcv0 sl bits
     sl.geom = 0 ∧ quantFF sl.efmt = some .e4m3 ∧ cvShapeOk sl cpcv0.shape = true ∧ s.slotScale rk0 sl .e4m3 = .scale .one ∧
     PlanReady s rk0 p true ∧ s.cpcvEntries rk0 cpcv0 sl = 0 ∧
     (∃ u, CourseRuns (begun s) rk0 0 (course (begun s)) (copyPut rk0 0 p ((begun s).accLocs rk0 p.reads)) u) ∧
     ((readAll rk0 0 (course (begun over0)).numbered (begun over0)).bind fun u =>
       (course (begun over0)).fails (u.prog rk0 0).got) = some 6) ∧
    (let s := copy0 6 (.rdst rdst0)
     let sl := slotOf ((s.launchOf rk0).fslot rdst0.fs.toNat)
     let p := rdstPlan rdst0 (fmtWidth sl.efmt)
     let t := s.beginCmd rk0 0 p false 1
     let put := rdstPut rk0 0 rdst0 .f32 sl (t.accLocs rk0 p.reads)
     let u := (runTo 0 t (rdstCourse p) put).getD t
     sl.geom = 0 ∧ rdstFF sl.efmt = some .f32 ∧ s.wbNamed rk0 rdst0.wb sl = .ok ∧ PlanReady s rk0 p false ∧
     s.sigBad rk0 rdst0.sig = false ∧ CourseRuns t rk0 0 (rdstCourse p) put u ∧
     (sigAcc rdst0.sig).any (u.accWaits rk0 0) = false ∧ u.firstLack rk0 (sigAcc rdst0.sig) = .none ∧ (u.signal rk0 rdst0.sig).isSome = true) ∧
    (let s := copy0 2 (.sig sigT)
     let p : Plan := ⟨[], [], sigAcc sigT.sig, sigMis sigT.sig⟩
     let t := s.beginCmd rk0 0 p false 1
     PlanReady s rk0 p false ∧ (sigAcc sigT.sig).any (t.accWaits rk0 0) = false ∧ t.firstLack rk0 (sigAcc sigT.sig) = .none ∧
     t.xlat (t.vfOf rk0) 0x3000 8 true = .ok x8) ∧
    (let s := copy0 2 (.sig sigB)
     let p : Plan := ⟨[], [], sigAcc sigB.sig, sigMis sigB.sig⟩
     let t := s.beginCmd rk0 0 p false 1
     PlanReady s rk0 p false ∧ (sigAcc sigB.sig).any (t.accWaits rk0 0) = false ∧ t.firstLack rk0 (sigAcc sigB.sig) = .none ∧
     s.vaultBad (teamOf rk0) 4088 8 false = false ∧ t.vaultBad (teamOf rk0) 4088 8 false = false ∧
     barOk (leNat (s.scratchLoad (teamOf rk0) 4088 8)) = false ∧
     barOk (leNat ((s.scratchStore tk0 4088 (leBytes 8 0x20001)).scratchLoad (teamOf rk0) 4088 8)) = true) ∧
    (let c : Cmd := { cmdOf (.cp cp0) with prog := { Prog.fresh with begun := true } }
     let s : State := { (copy0 2 (.cp cp0)).updCmd rk0 0 fun _ => c with pace := some 1 }
     let k := copyCourse (cpPlan cp0)
     EngineReady s rk0 0 c ∧ c.prog.begun = true ∧ c.prog.bad = false ∧
     s.readOrder (k.todo c.prog) ≠ [] ∧ (k.writes c.prog.got false)[c.prog.wrote]? = none ∧
     ∀ e ∈ k.numbered, s.accWaits rk0 0 e.2.2 = false ∧ s.accLack rk0 e.2.2 = .none ∧ (s.accRead rk0 e.2.2).isSome = true) :=
  ⟨⟨by decide +kernel, by decide +kernel, by decide +kernel, by decide +kernel,
      ⟨by decide +kernel, by decide +kernel, by decide +kernel, fun _ => by decide +kernel⟩, by decide +kernel,
      ⟨_, runs_to (by decide +kernel)⟩, by decide +kernel⟩,
    ⟨by decide +kernel, by decide +kernel, by decide +kernel,
      ⟨by decide +kernel, by decide +kernel, by decide +kernel, fun h => by simp at h⟩,
      by decide +kernel, runs_to (by decide +kernel), by decide +kernel, by decide +kernel⟩,
    ⟨⟨by decide +kernel, by decide +kernel, by decide +kernel, fun h => by simp at h⟩, by decide +kernel⟩,
    ⟨⟨by decide +kernel, by decide +kernel, by decide +kernel, fun h => by simp at h⟩, by decide +kernel⟩,
    ⟨⟨by decide +kernel, rfl, by decide +kernel, rfl, rfl, rfl⟩, rfl, rfl, test_readOrder _ _ _, by decide +kernel, by decide +kernel⟩⟩

/-- The same copy beyond the scratch, with a swizzled target off its alignment, from an unmapped page, to an absent scratch
page and on to a grain another core holds; a command that waits; completions. -/
theorem witness_CopyFaultsAndEvents :
    EngineReady (copy0 2 (.cp cp0)) rk0 0 (cmdOf (.cp cp0)) ∧
    (let s := copy0 2 (.cp cp0)
     let p := cpPlan cp0
     (cpPlan { cp0 with shape := { cp0.shape with dst := 4080 } }).order.all (s.accLegal rk0) = false ∧
     (cpPlan { cp0 with swz := true, shape := { cp0.shape with dst := 16 } }).mis = true ∧
     p.order.all (s.accLegal rk0) = true ∧ p.mis = false ∧
     s.grainBad (s.vf (s.vfOf rk0)).part (s.accIas rk0 (p.writes ++ p.extra)) = false ∧ s.pace = none ∧
     (((s.setEntry 0 0).beginCmd rk0 0 p true 1).accLack rk0 ⟨.glob, 0x3000, 16, false⟩) = .page 2 0x3000 0x3000 ∧
     (let x : CpCmd := { cp0 with ssp := .scr, dsp := .glob, shape := { cp0.shape with src := 0, dst := 0x4000 } }
      let t := s.updTeam tk0 fun t => { t with pages := [] }
      (cpPlan x).order.all (t.accLegal rk0) = true ∧ (cpPlan x).reads.head? = some ⟨.scr, 0, 16, false⟩ ∧
      (t.beginCmd rk0 0 (cpPlan x) true 1).accLack rk0 ⟨.scr, 0, 16, false⟩ = .scratch 0) ∧
     (let x : CpCmd := { cp0 with dsp := .glob, shape := { cp0.shape with dst := 0x4000 } }
      let d : State := { s with dirty := s.dirty.put (lineKey 0 0x4040) ⟨0, ⟨45, 0⟩⟩ }
      (cpPlan x).order.all (d.accLegal rk0) = true ∧ (cpPlan x).mis = false ∧
      d.grainBad (d.vf (d.vfOf rk0)).part (d.accIas rk0 ((cpPlan x).writes ++ (cpPlan x).extra)) = true)) ∧
    ((copy0 2 (.cp cp0)).tokenAt 0 0x3000 1 = .wait ∧ (copy0 2 (.cp cp0)).tokenAt 0 0x3000 0 = .ready ∧
      (copy0 2 (.cp cp0)).tokenAt 0 0x3001 0 = .status 4) ∧
    (let x : CpCmd := { cp0 with tail := { tail0 with wt := some (0x3000, 0) } }
     (Option.bind (cmdOf (.cp x)).instr waitOf) = some (0x3000, 0)) ∧
    (row0.tasks.has rk0 = true ∧ row0.depotAcc (row0.task rk0) 0x3000 8 false = .ok x8) ∧
    (let c : Cmd := { cmdOf (.cp cp0) with result := some (7, 0) }
     c.result = some (7, 0) ∧ c.ev = false ∧ c.acks = 0 ∧ { c with acks := 1 }.acks ≠ 0 ∧
     ((copy0 2 (.cp cp0)).team (teamOf rk0)).abortable = false ∧ ((tx0 0 0).team (teamOf rk0)).abortable = true) ∧
    (7 < 2 ^ 16 ∧ 255 < 2 ^ 8 ∧ 2 ^ 40 - 1 < 2 ^ 40) :=
  ⟨readyC _ _ (by decide +kernel), by decide +kernel⟩

/-- The scale-out engine with a valid peer 0, performing a command. -/
def so0 (i : Instr) : State :=
  (engine0 4 i).updVf 0 fun v => { v with peers := v.peers.set 0 0 (BitVec.ofNat 64 (2 ^ 63 + 2 ^ 54)) }

/-- A remote write of 64 local bytes, a remote read, a signal, and a post. -/
def rwr0 : RwrCmd := ⟨false, 0x3000, 0x8000, 64, 0, rtail0⟩

/-- See `rwr0`. -/
def rrd0 : RrdCmd := ⟨false, 0x3000, 0x8000, 64, rtail0⟩

/-- See `rwr0`. -/
def rsig0 : RsigCmd := ⟨0x8000, 1, 0, rtail0⟩

/-- See `rwr0`. -/
def post0 : PostCmd := ⟨9, 1, 0x3000, rtail0⟩

theorem readyS (i : Instr) (h : (so0 i).cmdOf rk0 4 = some (cmdOf i)) (hf : ((so0 i).prog rk0 4).begun = false)
    (hp : peerOk (((so0 i).vf ((so0 i).cmdVf rk0)).peers.get 0 rtail0.peer) = true) :
    SoReady (so0 i) rk0 (cmdOf i) rtail0 := ⟨rfl, h, rfl, rfl, rfl, rfl, rfl, hf, hp⟩

/-- A remote write with its local reads made, and a full list of posts. -/
theorem witness_ScaleOutCommands : SoReady (so0 (.rwr rwr0)) rk0 (cmdOf (.rwr rwr0)) rwr0.tail ∧
    SoReady (so0 (.rrd rrd0)) rk0 (cmdOf (.rrd rrd0)) rrd0.tail ∧
    SoReady (so0 (.rsig rsig0)) rk0 (cmdOf (.rsig rsig0)) rsig0.tail ∧
    (let s := so0 (.rwr rwr0)
     ∃ u, CourseRuns (s.updProg rk0 4 fun g => { g with begun := true }) rk0 4 (rwrCourse rwr0) (fun _ _ _ => none) u) ∧
    (let s := so0 (.rwr rwr0)
     (localAccs false false 0x3000 64).all (s.accLegal (s.actor rk0)) = true ∧ s.pace = none ∧
     (cmdOf (.rwr rwr0)).prog = .fresh ∧ (localAccs false false (2 ^ 56 - 8) 64).all (s.accLegal (s.actor rk0)) = false) ∧
    EngineReady (so0 (.post post0)) rk0 4 (cmdOf (.post post0)) ∧
    (let s := so0 (.post post0)
     (cmdOf (.post post0)).prog.begun = false ∧ (s.vf (s.vfOf rk0)).posts.length < 4096 ∧
     post0.tail.ct = none ∧ post0.mtag ∉ (s.vf (s.vfOf rk0)).unexpected ∧
     4096 ≤ ((s.updVf 0 fun v => { v with posts := List.replicate 4096 ⟨0, rk0, 9, 1, 0, 0x3000, false⟩ }).vf
       (s.vfOf rk0)).posts.length) ∧
    (let s := engine0 4 (.rrd rrd0)
     s.cmdOf rk0 4 = some (cmdOf (.rrd rrd0)) ∧ peerOk ((s.vf (s.cmdVf rk0)).peers.get 0 0) = false ∧
     rsig0.raddr.toNat % 8 = 0) ∧
    ((so0 (.rwr rwr0)).peerFenced ((so0 (.rwr rwr0)).cmdVf rk0) 0 = false ∧
     ((so0 (.rwr rwr0)).updVf 0 fun v => { v with fenced := [0] }).peerFenced 0 0 = true) :=
  ⟨readyS _ (by decide +kernel) (by decide +kernel) (by decide +kernel),
    readyS _ (by decide +kernel) (by decide +kernel) (by decide +kernel),
    readyS _ (by decide +kernel) (by decide +kernel) (by decide +kernel), ⟨_, runs_to (by decide +kernel)⟩, by decide +kernel,
    ⟨by decide +kernel, rfl, by decide +kernel, rfl, rfl, rfl⟩, by decide +kernel, by decide +kernel, by decide +kernel⟩

/-- A command that has been sent at tick 0, seen at a later one. -/
def sent0 (now : Nat) (i : Instr) : State :=
  { (so0 i).updCmd rk0 4 fun c => { c with sent := some 0, resend := [(0, 7)] } with refTick := BitVec.ofNat 64 now }

/-- Commands that have been sent: their replies, their time limits, their local writes, their tokens, a post's block. -/
theorem witness_ScaleOutReplies :
    (let c : Cmd := { cmdOf (.rwr rwr0) with sent := some 0, resend := [(0, 7)] }
     let s := sent0 0 (.rwr rwr0)
     s.cmdOf rk0 4 = some c ∧ (remTail (.rwr rwr0)).isSome = true ∧ c.result = none ∧ c.reply = none ∧
     s.peerFenced (s.cmdVf rk0) c.peer = false ∧ c.resend.find? (fun e => e.1 == 0) = some (0, 7) ∧
     (s.peerLost (s.cmdVf rk0) c.peer = false) ∧
     ({ s with ports := [(0, some 0)], refTick := 1000000 } : State).peerLost (s.cmdVf rk0) c.peer = true ∧
     (cmdOf (.rwr rwr0)).sent = none ∧ { cmdOf (.rwr rwr0) with result := some (0, 0) }.result ≠ none ∧
     (s.updVf 0 fun v => { v with fenced := [0] }).peerFenced (s.cmdVf rk0) c.peer = true) ∧
    (let u := ((sent0 0 (.rrd rrd0)).soCharge rk0 64).updCmd rk0 4 fun c =>
       { c with reply := some (0, List.replicate 64 7), prog := .fresh }
     u.planFails (u.actor rk0) (rrdPlan rrd0) true = none ∧
     u.planFails (u.actor rk0) (rrdPlan { rrd0 with lscr := true, laddr := 0 }) true = none ∧
     (u.updVf 0 fun v => v).pace = none ∧
     ({ u with dirty := u.dirty.put (lineKey 0 0x3040) ⟨0, ⟨45, 0⟩⟩ } : State).planFails (u.actor rk0)
       (rrdPlan { rrd0 with laddr := 0x3008, len := 8 }) true = some 8) ∧
    (let u := ((sent0 0 (.rrd rrd0)).soCharge rk0 64).updCmd rk0 4 fun c =>
       { c with reply := some (0, List.replicate 64 7), prog := .fresh }
     ∃ y, CourseRuns (u.beginCmd rk0 4 (rrdPlan rrd0) true 0) rk0 4 (rrdCourse rrd0 (List.replicate 64 7)) (rrdPut rk0 rrd0) y) ∧
    (let s := sent0 0 (.rwr rwr0)
     s.toIa (s.cmdVf rk0) 0x3000 8 = .ia 0x3000 ∧ s.accWaits rk0 4 ⟨.glob, 0x3000, 8, true⟩ = false ∧
     s.xlat (s.cmdVf rk0) 0x3000 8 true = .ok x8 ∧ (s.setEntry 0 0).xlat (s.cmdVf rk0) 0x3000 8 true = .page 2 0x3000 ∧
     s.toIa (s.cmdVf rk0) 0x3004 8 = .ia 0x3004 ∧ s.toIa (s.cmdVf rk0) (2 ^ 56 - 8) 8 = .address) ∧
    (decodeCmd 4 [] = none ∧ decodeCmd 4 [0x1000000000000007, 0x3000, 0x8000, 64] = some (.rwr rwr0) ∧
     (so0 (.rwr rwr0)).mayFire 0 rk0 (.rwr rwr0) = true ∧
     (so0 (.rwr rwr0)).mayFire 0 rk0 (.rwr { rwr0 with tail := { rtail0 with ct := some (0x3001, 0) } }) = false) :=
  ⟨by decide +kernel, by decide +kernel, ⟨_, runs_to (by decide +kernel)⟩, by decide +kernel, by decide +kernel⟩

/-- Segment `seg` of message 3 from the peer of end point 0. -/
def seg0 (seg : Nat) (b : Inbound) : InSeg := ⟨0, 3, seg, 2, true, b⟩

/-- An end point with the segments `es`. -/
def in0 (es : List InStall) : State := scalar0.updVf 0 fun v => { v with fep := some 5, stalls := es }

/-- Segments of a context's end point: new, asked for again, behind a stalled one, performed before, refused, with accesses
that can be made; arrivals; a stall whose time is over. -/
theorem witness_ScaleOutReplies_inbound :
    (let x := seg0 0 (.read 0x3000 8)
     let e : InStall := freshSeg x
     let s := in0 []
     s.fepVf 6 = none ∧ s.fepVf 5 = some 0 ∧ s.srcFenced 0 0 = false ∧ ((s.vf 0).inMsg 0 3).closed = false ∧
     (s.updVf 0 fun v => { v with fenced := [1] }).srcFenced 0 0 = true ∧
     ((s.updVf 0 fun v => v.updMsg 0 3 fun m => { m with closed := true }).vf 0).inMsg 0 3 = ⟨0, 3, [], false, true⟩ ∧
     s.inEntry 0 x = none ∧ (in0 [{ e with gone := true }]).inEntry 0 x = some { e with gone := true } ∧
     (in0 [{ e with recid := some 4 }]).inEntry 0 x = some { e with recid := some 4 } ∧ (in0 [e]).inEntry 0 x = some e ∧
     ((in0 [freshSeg (seg0 1 (.read 0 8)), e]).vf 0).inBlocked x = true ∧ ((in0 [e]).vf 0).inBlocked x = false) ∧
    (let x := seg0 0 (.write 0x3000 (List.replicate 64 7) 1)
     let s := in0 [freshSeg x]
     s.inDone 0 x = false ∧ (s.updVf 0 fun v => v.updMsg 0 3 fun m => { m with done := [0] }).inDone 0 x = true ∧
     (freshSeg x).made = 0 ∧ (s.inRefused 0 x).isSome = false ∧
     (s.inRefused 0 (seg0 0 (.write (2 ^ 56 - 8) (List.replicate 64 7) 1))).isSome = true ∧ s.pace = none ∧
     (match inSteps 0 x (inAccs x.body) (inAccs x.body).length (s.holdGrains 0 x) with | .done _ => true | _ => false) = true ∧
     inRange x.body = some (0x3000, 64) ∧ s.toIa 0 (2 ^ 56 - 8) 8 = .address) ∧
    (let s := in0 []
     s.toIa 0 0x3000 8 = .ia 0x3000 ∧ s.translateIa (s.vf 0).part 0x3000 8 true = .ok x8 ∧
     (s.setEntry 0 0).translateIa (s.vf 0).part 0x3000 8 true = .page 2 0x3000 ∧
     x8.pas.all (fun p => !s.inRefresh (64 * (p / 64)) && !s.lineHeld (p / 64) && !s.lostPa p) = true) ∧
    (let x := seg0 1 (.signal 0 0 9)
     let s := in0 [freshSeg x]
     let first := s.updVf 0 fun v => v.updMsg 0 3 fun m => { m with done := [0] }
     ((s.updVf 0 fun v => v.updMsg 0 3 fun m => { m with done := [1] }).vf 0).inMsg 0 3 = ⟨0, 3, [1], false, false⟩ ∧
     ((first.updVf 0 fun v => v.updMsg 0 3 fun m => { m with done := m.done ++ [1] }).vf 0).inMsg 0 3 =
       ⟨0, 3, [0, 1], false, false⟩ ∧
     (first.arrive 0 9).isSome = true ∧
     ((first.updVf 0 fun v => { v with unexpected := List.replicate 1024 1 }).arrive 0 9).isSome = false ∧
     (s.vf 0).posts = []) ∧
    (let e : InStall := { freshSeg (seg0 0 (.read 0x3000 8)) with recid := some 4 }
     ((in0 [e]).vf 0).stalls[0]? = some e ∧ e.left = 0 ∧ { e with left := 3 }.left ≠ 0) := by decide +kernel

/-- A role parked at each of the places that events end, a ready result, an exhausted WAITA, a starved role. -/
theorem witness_StreamEvents :
    (scalar0.updTeam tk0 fun t => { t with phase := .preempted }).awake rk0 = false ∧ scalar0.awake rk0 = true ∧
    (let s := scalar0.updRole rk0 fun r => { r with lpark := .marker, spark := .vrunFull }
     (s.role rk0).flight = [] ∧ (s.role rk0).lpark = .marker ∧ (s.role rk0).spark = .vrunFull) ∧
    (let p : Pend := ⟨0, true, false, [(rkey 31 60, 7)], []⟩
     let s := lane0.updRole rk0 fun r => { r with lanes := { r.lanes with pend := [p] } }
     s.hasRole rk0 = true ∧ (s.role rk0).lanes.pend[0]? = some p ∧ p.ready = true ∧ p.mixed = [] ∧
     (p.dest.map Prod.fst).Nodup) ∧
    (let w : Waita := ⟨0, false, false, some 0, false⟩
     ((scalar0.updRole rk0 fun r => { r with waita := some w }).role rk0).waita = some w ∧ w.left = some 0) ∧
    (scalar0.offered 0 0 false = [rk0] ∧ (scalar0.role rk0).waited false < 64) ∧
    64 ≤ ((scalar0.updRole rk0 fun r => { r with readyS := 64 }).role rk0).waited false := by decide +kernel

/-- A team in a phase of its commit, with one store in its write log. -/
def logged0 (ph : TeamPhase) : State :=
  wsReady ((tx0 0 0).updTeam tk0 fun t => { t with phase := ph, log := [⟨0x3000, .store, 8, 0, 0, 5⟩] })

/-- A probe that finds its pages, lacks one, meets a read-only one, a lost line, or an absent page of the write set. -/
theorem witness_CommitEvents_probe :
    (let s := logged0 .probing
     let probe (s : State) := s.probeFault (s.vfOf (roleKey tk0 0)) (s.probeRanges tk0)
     (s.team tk0).phase = .probing ∧ (s.team tk0).halted = none ∧ s.logLack tk0 = none ∧ probe s = none ∧
     s.probeCheck tk0 = none ∧ s.relocking (s.team tk0).core = false ∧
     (let a := s.setEntry 0 0
      a.logLack tk0 = none ∧ a.probeCheck tk0 = none ∧ probe a = some (0x3000, 0x3000, 2)) ∧
     (let w := s.setEntry 0 (codePage + 3)
      w.probeCheck tk0 = none ∧ probe w = some (0x3000, 0x3000, 3)) ∧
     (let l := s.updDie 0 fun d => { d with lost := [(codePage + 0x3000) / 64] }
      l.logLack tk0 = none ∧ l.probeCheck tk0 = some (0x3000, 4, codePage + 0x3000)) ∧
     (let v := s.updTeam tk0 fun t => { t with pages := [] }
      (v.team tk0).phase = .probing ∧ v.logLack tk0 = some 8192)) ∧
    ((tx0 0 0).team tk0).phase ≠ .probing := by decide +kernel

/-- Commit points, with and without a pace or a trap of the top rung; grace windows; entries of the log. -/
theorem witness_CommitEvents :
    (let s := logged0 .pinned
     (s.team tk0).phase = .pinned ∧ (s.team tk0).topTrip = false ∧ s.pace = none ∧ (s.team tk0).grace = none ∧
     (s.team tk0).doomed = false ∧ (s.team tk0).log.length ≤ 1 ∧ ({ s with pace := some 1 } : State).pace = some 1 ∧
     0 < (s.team tk0).log.length ∧ ({ s with pace := some 0 } : State).pace = some 0 ∧
     (let r := (s.updTeam tk0 fun t => { t with topTrip := true }).updCluster 0 fun c => { c with target := some 3 }
      (r.team tk0).topTrip = true ∧ r.relocking (r.team tk0).core = true)) ∧
    ((tx0 0 0).team tk0).phase ≠ .pinned ∧
    (let g : Grace := ⟨0, 5, false⟩
     (((tx0 0 0).updTeam tk0 fun t => { t with grace := some g }).team tk0).grace = some g ∧ g.left = 0 ∧
     ((tx0 0 0).team tk0).txOpen = true) ∧
    (tx0 0 0).xlat 0 0x3000 8 true = .ok x8 ∧ (((tx0 0 0).role (roleKey tk0 0)).eng 0).stopped = false := by decide +kernel

/-- The service of the team's first scratch page, which a scalar access asked for. -/
def service0 : Service := ⟨0, none, some (.scalar rk0)⟩

/-- A fault in service of a page that nothing has touched, before and after 2,000 ref ticks. -/
def served0 (s : State) : State := s.updTeam tk0 fun t => { t with service := t.service.put 0 service0 }

theorem witness_PagerEvents : ((scalar0.team tk0).service.get? 0 = none ∧ scalar0.promotes tk0 0 = false) ∧
    (let s := scalar0.updTeam tk0 fun t => { t with service := t.service.put 0 { service0 with wait := some 5 } }
     (s.team tk0).service.get? 0 = some { service0 with wait := some 5 }) ∧
    (let s := served0 scalar0
     let t := s.team tk0
     t.service.get? 0 = some service0 ∧ service0.wait = none ∧ s.backNeed tk0 0 = .ok [] ∧ t.resident = true ∧
     (t.page 0).present = false ∧ (t.page 0).touched = false ∧ (s.entriesOn t.core).length < 4096 ∧
     s.freeFrame t.core = some 0 ∧ s.oldestFault tk0 = some 0 ∧ s.refTick.toNat < 0 + 2000 ∧
     ({ s with refTick := 2000 } : State).oldestFault tk0 = some 0 ∧ 0 + 2000 ≤ ({ s with refTick := 2000 } : State).refTick.toNat ∧
     t.txOpen = false ∧ t.phase ≠ .pinned ∧ t.suspend = none ∧ s.lxQuiet tk0 = true ∧
     (∀ rk ∈ s.rolesOf tk0, (s.role rk).flight = []) ∧ s.relocking t.core = false) ∧
    (let s := (served0 scalar0).updTeam tk0 fun t => { t with phase := .swappedOut }
     (s.team tk0).resident = false ∧ ∀ q : Nat × Nat, service0.who ≠ some (.queue q.1 q.2)) ∧
    (let s := (served0 scalar0).updVf 0 fun v => { v with segV := v.segV.set 0 0 0 }
     s.backNeed tk0 0 = .noArea 0x911000) ∧
    (let s := ((served0 scalar0).updTeam tk0 fun t => { t with pages := t.pages.put 0 { t.page 0 with touched := true } })
     (s.setEntry 0 0).backNeed tk0 0 = .page 0x911000 0x911000) ∧
    scalar0.oldestFault tk0 = none ∧ scalar0.cyclicNow tk0 = false ∧
    (let s := ((chan0 []).updRole rk0 fun r => { r with spark := .popQ 8 }).updTeam tk0 fun t => { t with cyclic := 2 ^ 20 }
     s.cyclicNow tk0 = true ∧ 2 ^ 20 ≤ (s.team tk0).cyclic ∧ (s.team tk0).cyclicRec = false) :=
  ⟨by decide +kernel, by decide +kernel, by decide +kernel, ⟨by decide +kernel, fun _ h => by cases h⟩, by decide +kernel,
    by decide +kernel, by decide +kernel⟩

/-- R251: the 32 bytes of the entry of a store of 8 bytes, 0x1122, by role 0 to 0x3000. -/
theorem test_log_entry_bytes : (⟨0x3000, .store, 8, 0, 0, 0x1122⟩ : WEntry).bytes =
    [0, 0x30, 0, 0, 0, 0, 0, 0, 0, 8, 0, 0, 0, 0, 0, 0, 0x22, 0x11] ++ List.replicate 14 0 := by decide +kernel

/-- R204, R215: the first page of the write set in frame 0 of the core: V, ACC, DIRTY, WS; slot, page and frame 0. -/
theorem test_write_set_entry :
    (match exec (.pagerServiceDone tk0 8192) ((tx0 0 0).startService tk0 8192 none) with
     | .next t => (t.logAdd tk0 [⟨0x3000, .store, 8, 0, 0, 5⟩]).readWindow (.scratchEntry 0 0)
     | _ => 0) = 0x8610000000000000 := by decide +kernel

/-- R302: a ref tick counts for a role whose streams are parked and one of them on memory, and for no other. -/
theorem test_park_ticks : (({ Role.empty with parkTicks := 41 }).tick true).parkTicks = 42 ∧
    (({ Role.empty with parkTicks := 41 }).tick false).parkTicks = 0 ∧
    ({ Role.empty with lpark := .marker, spark := .vrunFull }).parkedOnMemory = true ∧
    ({ Role.empty with spark := .popQ 8 }).parkedOnMemory = false ∧
    ({ Role.empty with lpark := .marker }).parkedOnMemory = false := by decide +kernel

theorem witness_PowerEvents :
    (let s := scalar0.updTeam tk0 fun t => { t with lease := some (1, 0) }
     (s.team tk0).lease = some (1, 0)) ∧ (scalar0.team tk0).lease = none ∧
    (let s := scalar0.updCluster 0 fun c => { c with target := some 3 }
     (s.cluster 0).target = some 3) ∧ (scalar0.cluster 0).target = none ∧
    (let s := scalar0.updStk 0 fun k => { k with temp := 95 }
     95 ≤ (s.stk (3 * dieOfCluster 7 + 0)).temp) ∧
    ((scalar0.cluster 0).sensor ≤ 7 ∧ 4 ≤ ((scalar0.updCluster 0 fun c => { c with sensor := 7 }).cluster 0).sensor ∧
     ∀ j, j < 3 → (scalar0.stk j).temp ≤ 75 ∧ (scalar0.stk j).hot = false) ∧
    ((scalar0.updStk 1 fun k => { k with temp := 76 }).stk 1).temp = 76 ∧
    ((scalar0.updStk 1 fun k => { k with hot := true }).stk 1).hot = true ∧
    scalar0.thermDue = false ∧ ({ scalar0 with refTick := 10001 } : State).thermDue = false ∧
    ({ scalar0 with refTick := 10000 } : State).thermDue = true ∧
    (let j : LxJob := ⟨0, [], 0, 0, [], 0, [], 0, none, [], 0, [], 7⟩
     ((scalar0.updCore 0 fun k => { k with lxDone := [j] }).core 0).lxDone = [j]) ∧
    (let rs := scalar0.islandRoles 0 false
     rs.length = 1 ∧ (rs.filter fun e => scalar0.onMemory e.1 e.2 && decide (1000 ≤ e.2.parkTicks)).length = 0) ∧
    scalar0.islandRoles 0 true = [] := by
  decide +kernel

/-- A die with one delta of the registered waybill 0. -/
theorem witness_WaybillMerges :
    (let d : Delta := (Delta.fresh 0 0 0).add tk0 0x3F800000
     let s := (wb0 lane0).updDie 0 fun k => { k with deltas := [d] }
     let u := s.updDie 0 fun k => { k with deltas := k.deltas.filter fun e => !e.isFor 0 0 }
     (s.die 0).deltas.filter (fun e => e.isFor 0 0) = [d] ∧
     u.xlat 0 ((u.vf 0).wbVa 0) 128 true = .ok ⟨0, 0x5000, rangeFrom (codePage + 0x5000) 128, false, false⟩ ∧
     recValid (u.loadX ⟨0, 0x5000, rangeFrom (codePage + 0x5000) 128, false, false⟩) = true) ∧
    (List.replicate 128 (0 : Byte)).length = 128 ∧ 31 < 32 := by decide +kernel

/-- A record that is accepted, one that is refused, and none; a waiting launch without dependences. -/
theorem witness_LaunchAdmission : (0x4000 : W64).toNat % 256 = 0 ∧ (0x4001 : W64).toNat % 256 ≠ 0 ∧
    launch0.distRead 0 (2 ^ 56 - 1) 256 = none ∧ (launch0.distRead 0 0x4000 256).isSome = true ∧
    codeOf launch0 = 0 ∧ codeOf scalar0 ≠ 0 ∧
    (let s := scalar0.updLaunch 1 fun l => { l with phase := .waiting }
     (s.launch 1).phase = .waiting ∧ s.depsHold (s.launch 1) = true ∧ s.lowerTeams 1 = []) := by decide +kernel

/-- The launch with no team dispatched yet, and a place that fits; a place that does not; a pre-empted team. -/
theorem witness_TeamDispatch :
    (let s := { (scalar0.updLaunch 1 fun l => { l with phase := .ready, next := 0 }) with
      teams := [], roles := [], cores := [] }
     s.mayDispatch tk0 = true ∧ s.placeFits (lidOf tk0) 0 [0] = true ∧ (s.launch (lidOf tk0)).coPending = false ∧
     s.teams.has tk0 = false ∧ [0].length ≤ 8 ∧ (∀ j, j < 8 → s.hasRole (roleKey tk0 j) = false) ∧
     s.placeFits (lidOf tk0) 480 [0] = false ∧ s.diesOk 1 [0] = true ∧ s.launches.has 1 = true ∧ (s.launch 1).dies = []) ∧
    scalar0.mayDispatch tk0 = false ∧
    (let s := scalar0.updTeam tk0 fun t => { t with phase := .preempted }
     let u := s.settleVf 0
     let m := u.mergeWhere 0 fun d => d.vf == 0
     (s.team tk0).phase = .preempted ∧ dieOf (s.team tk0).core = dieOf 7 ∧ dieOf (s.team tk0).core ≠ dieOf 120 ∧
     m.noneHeldOn 0 0 = true) ∧
    (let s := scalar0.updLaunch 1 fun l => { l with dies := [0] }
     (s.launch 1).dies ≠ [] ∧ s.diesOk 1 [0] = true ∧ s.stageDone 1 = false) := by decide +kernel

/-- The launch with its team on a die whose link is down. -/
def affected0 : State := { scalar0 with linkDown := [(0, true)] }

/-- A team that has finished and one that has not; a launch whose teams have retired; a completion token that can be added
to, or not; stages, alone and in a gang; a launch with an affected team, and one that has lost its team. -/
theorem witness_LaunchEnds : scalar0.canRetire tk0 = false ∧
    (scalar0.updRole rk0 fun r => { r with finished := true }).canRetire tk0 = true ∧
    (let s := (scalar0.updLaunch 1 fun l => { l with retired := 1 }).spreadShare 1
     let l := s.launch 1
     let s1 := ((s.tellStage 1 stagesAll).mergeAll l.vf).updLaunch 1 fun l => { l with phase := .merged }
     l.phase = .running ∧ l.underWay = true ∧ l.allRetired = true ∧ l.waitRec = none ∧ s1.noneHeld l.vf = true ∧
     (s1.launch 1).fld 208 8 = 0) ∧
    (lane0.launch 2).underWay = false ∧ (lane0.launch 2).phase ≠ .merged ∧ scalar0.stageDone 1 = false ∧
    (let s := scalar0.updLaunch 1 fun l => { l with record := putField l.record 208 8 0x3000 }
     (s.launch 1).fld 208 8 ≠ 0 ∧ (s.launch 1).dropped = false ∧ s.xlat 0 0x3000 8 true = .ok x8 ∧
     (s.setEntry 0 0).xlat 0 0x3000 8 true = .page 2 0x3000 ∧
     (s.updDie 0 fun d => { d with lost := [(codePage + 0x3000) / 64] }).xlat 0 0x3000 8 true = .mcheck (codePage + 0x3000)) ∧
    (let s := (scalar0.updLaunch 1 fun l => { l with record := putField l.record 28 2 8 }).updRole rk0 fun r =>
       { r with relayed := true, spark := .relay }
     s.stageHere 1 = true ∧ s.stageDone 1 = true ∧ (s.mergeAll (s.launch 1).vf).noneHeld (s.launch 1).vf = true ∧
     (let g : GangShare := { newShare 0 0 2 with started := true, decided := true, stages := [(1, 1)] }
      (s.updLaunch 1 fun l => { l with share := some g }).stageDone 1 = true)) ∧
    (let s := scalar0.updTeam tk0 fun t => { t with phase := .retired }
     (s.launch 1).open_ = true ∧ ((s.launch 1).spent = false)) ∧
    (affected0.affected 1 ≠ [] ∧ (affected0.launch 1).open_ = true) ∧
    (let s := { (scalar0.updLaunch 1 fun l => { l with killed := 1 }) with teams := [], roles := [] }
     (s.launch 1).spent = true ∧ s.affected 1 = []) ∧ (scalar0.team tk0).phase ≠ .pinned ∧
    (scalar0.launch 1).spent = false ∧ scalar0.affected 1 = [] := by decide +kernel

theorem witness_Fares : scalar0.refTick.toNat % 256 = 0 ∧ ({ scalar0 with refTick := 1 } : State).refTick.toNat % 256 ≠ 0 ∧
    ({ scalar0 with refTick := 1 } : State).refTick.toNat % 1000000 ≠ 0 ∧
    ({ scalar0 with refTick := 1000000 } : State).refTick.toNat % 1000000 = 0 ∧ scalar0.refTick.toNat = 0 ∧
    ((scalar0.updCore 0 fun c => { c with meter := c.meter.put 0 17 }).core 0).meter.has 0 = true ∧ 1 ≠ 0 := by decide +kernel

theorem witness_PreemptionRequests : scalar0.teams.has tk0 = true ∧ (scalar0.team tk0).live = true ∧
    (scalar0.launch (lidOf tk0)).vf = 0 ∧ (scalar0.team tk0).resident = true ∧ (scalar0.team tk0).txOpen = false ∧
    (scalar0.team tk0).suspend = none ∧ ((tx0 0 0).team tk0).txOpen = true ∧ ((tx0 0 0).team tk0).grace = none ∧
    Team.empty.resident = false ∧
    (let s := scalar0.updTeam tk0 fun t => { t with suspend := some .preempted }
     (s.team tk0).suspend = some .preempted ∧ (s.team tk0).resident = true ∧ s.lxQuiet tk0 = true ∧
     (s.updRole rk0 fun r => { r with lxOut := 1 }).lxQuiet tk0 = false ∧ (s.team tk0).phase ≠ .pinned ∧
     ∀ rk ∈ s.rolesOf tk0, (s.role rk).flight = []) ∧
    (let s := logged0 .pinned
     s.teams.has tk0 = true ∧ (s.team tk0).live = true ∧ (s.launch (lidOf tk0)).vf = 0 ∧ (s.team tk0).phase = .pinned ∧
     (s.team tk0).resident = true ∧ (s.team tk0).grace = none) := by decide +kernel

/-- No record, a record of the team, one of no team, one of a waybill access, and one that a task waits on. -/
theorem witness_Answers : scalar0.recOf 0 0 = none ∧
    (let r : FaultRec := ⟨5, [], true, some tk0, some rk0, 1, false, none⟩
     let s := scalar0.updVf 0 fun v => { v with recs := [r] }
     s.recOf 0 5 = some r ∧ r.team = some tk0 ∧ s.taskWaits 5 = none ∧ r.byWaybill = false ∧
     (let w : FaultRec := { r with bytes := putField [] 16 2 0xFFFF, code := codeNum .page }
      w.byWaybill = true)) ∧
    (let r : FaultRec := ⟨5, [], true, none, none, 1, false, none⟩
     (scalar0.updVf 0 fun v => { v with recs := [r] }).recOf 0 5 = some r ∧ r.team = none) ∧
    (scalar0.team tk0).phase ≠ .pinned ∧ ((logged0 .pinned).team tk0).phase = .pinned := by decide +kernel

theorem witness_WindowWrites : State.reset.firmware = false ∧
    ({ State.reset with firmware := true } : State).firmware = true ∧ scalar0.vfBusy 0 = true ∧ State.reset.vfBusy 0 = false ∧
    (let q : Vf := { State.reset.vf 0 with segAlt := some ⟨[(2, 5)], [(2, 5)], [((false, 2), 7), ((true, 2), 7)]⟩ }
     q.segAlt = some ⟨[(2, 5)], [(2, 5)], [((false, 2), 7), ((true, 2), 7)]⟩ ∧ (State.reset.vf 0).segAlt = none) ∧
    (let s := scalar0.updRole rk0 fun r => { r with partAt := some x8 }
     s.begunXlats = [x8] ∧ scalar0.begunXlats = []) ∧
    State.reset.acceptLocked = false ∧ (0x7FF : BitVec 128) &&& ~~~State.reset.offer = 0 ∧
    (0x7FF : BitVec 128).getLsbD 0 = true ∧ scalar0.acceptLocked = true ∧ (0x7FE : BitVec 128).getLsbD 0 = false ∧
    State.reset.xmssIndex < 2 ^ 20 ∧ 2 ^ 20 ≤ ({ State.reset with xmssIndex := 2 ^ 20 } : State).xmssIndex ∧
    (let s := scalar0.updDie 0 fun d => { d with lost := [64] }
     s.paOwned 0 4096 = true ∧ 4096 / 64 ∈ (s.die (dieOfPa 4096)).lost ∧ s.paOwned 1 4096 = false ∧
     8192 / 64 ∉ (s.die (dieOfPa 8192)).lost) := by decide +kernel

/-- A page of 64 KiB at intermediate address 0x10000000, mapped through three levels. -/
def small0 : State :=
  ((scalar0.setEntry 8 (0x20000000 + 1)).setEntry 0x20000000 (0x21000000 + 1)).setEntry 0x21000000 (0x22000000 + 7)

/-- An address that is not mapped; a page that may move, and one that is too large; a migration under way, one that has
stopped, and none. -/
theorem witness_PageMigration :
    small0.tableWalk 0 (2 ^ 40) false = .fault 1 ∧
    small0.tableWalk 0 0x10000000 false = .page ⟨0x10000000, 0x22000000, 2 ^ 16, 0x21000000, none⟩ ∧
    small0.tableWalk 0 0x3000 false = .page ⟨0, codePage, 2 ^ 28, 0, none⟩ ∧
    (List.range 16).find? (fun n => !(small0.die (small0.regionDie 0 0x10000000)).migs.has n) = some 0 ∧
    bitOf (small0.homeWord 0x21000000) 3 = false ∧ 0x23000000 % 2 ^ 16 = 0 ∧ small0.paOwned 0 0x23000000 = true ∧
    small0.migAt 0 0 = none ∧
    (let m : Migration := ⟨0, 0x10000000, 0x22000000, 0x23000000, 0, false, false⟩
     let s := (small0.setEntry 0x21000000 (0x22000000 + 15)).setMig 0 0 m
     s.migAt 0 0 = some m ∧ m.stopped = false ∧ (s.migLeaf m).isSome = true ∧ m.reversing = false ∧
     s.migBlocked 0 (m.dst.toNat + 64 * m.cursor) = false ∧ s.lineBusy (m.src.toNat + 64 * m.cursor) = false ∧
     (s.updRole rk0 fun r => { r with partAt := some ⟨0, 0x10000000, [0x22000000], false, true⟩ }).lineBusy 0x22000000 = true ∧ s.depotHolds m = false ∧
     (s.setMig 0 0 { m with stopped := true }).migAt 0 0 = some { m with stopped := true }) ∧
    small0.lostPa 0x22000000 = false ∧ (small0.die (dieOfPa 0x22000000)).lost.contains (0x22000000 / 64) = false ∧
    63 < 64 := by decide +kernel

/-- A gang descriptor of two chips at 0x6000. -/
def desc0 : State :=
  storeMap scalar0 (codePage + 0x6000) (fieldMap [(0, 2, 2), (2, 2, 1), (64, 8, 0x4000), (80, 8, 0x4000), (88, 1, 1)])

theorem witness_GangEvents : desc0.gangDesc 0 0x6000 = some ⟨2, 1, 100000, [(0x4000, 0), (0x4000, 1)]⟩ ∧
    scalar0.gangDesc 0 0x6000 = none ∧ (scalar0.gang 0).phase ≠ .going ∧
    (let g : Gang := ⟨0, 2, 1, 10, [0, 1], [(0, (0, 1, 1, 1))], [], none, .arming⟩
     let s : State := { scalar0 with gangs := [(0, g)] }
     (s.gang 0).phase = .arming ∧ 1 < (s.gang 0).nchip ∧ (s.gang 0).answers.has 1 = false ∧
     (let s1 := s.updGang 0 fun g => { g with answers := g.answers.put 1 (0, 1, 1, 1) }
      (s1.gang 0).nchip ≤ (s1.gang 0).answers.length ∧ (s1.gang 0).refusal = 0)) ∧
    scalar0.shareOf 0 false = none ∧
    (let s := scalar0.updLaunch 1 fun l => { l with share := some (newShare 0 1 2) }
     s.shareOf 0 false = some 1 ∧ (s.launch 1).share = some (newShare 0 1 2) ∧ (newShare 0 1 2).started = false) ∧
    (let g : Gang := ⟨0, 2, 1, 10, [0, 1], [], [0], some 0, .going⟩
     let s : State := { scalar0 with gangs := [(0, g)] }
     (s.gang 0).phase = .going ∧ 1 < (s.gang 0).nchip ∧ 1 ∉ (s.gang 0).acks ∧ (s.gang 0).window = some 0 ∧
     { g with window := some 9 }.window ≠ some 0) ∧
    (let h : GangShare := { newShare 0 1 2 with started := true, decided := true, spread := [0] }
     let s := scalar0.updLaunch 1 fun l => { l with share := some h, next := 5 }
     let l := s.launch 1
     s.shareOf 0 false = some 1 ∧ l.share = some h ∧ l.flag 3 = false ∧ l.ownTeams ≤ l.next ∧ h.toldSpread = false) := by
  decide +kernel

/-- A pseudo-channel in a refresh, within its 350 ref ticks and after them, or in none; a tick at which one begins and at
which the period may switch; lines that can be lost; links. -/
theorem witness_PackageEvents :
    (let s := scalar0.updStk 0 fun k => { k with refreshing := k.refreshing.set none 0 (some 0) }
     (s.stk 0).refreshing.get none 0 = some 0 ∧ s.refTick.toNat < 0 + 350 ∧ 0 + 350 ≤ 350 ∧ s.refTick.toNat % 3900 = 0 ∧
     refreshTick s.refTick.toNat 0 (s.stk 0).period = true ∧ refreshTick 1 0 (s.stk 0).period = false ∧
     (scalar0.stk 0).refreshing.get none 0 = none ∧ (s.stk 0).switchPeriod 0 = s.stk 0) ∧
    (dieOfPa 0x1000 = 0 ∧ 0x1000 < 2 ^ 40 ∧ fieldOf 0x1000 36 2 ≠ 3 ∧ scalar0.lostPa (64 * (0x1000 / 64)) = false ∧
      (scalar0.die 0).lost.length < 512) ∧
    (let k := scalar0.stk 0
      let m : Stack := { k with sampled := some 5 }
      k.sampleDue scalar0.refTick.toNat = true ∧ m.sampleDue 6 = false ∧ m.sampleDue 1005 = true ∧ m.sampled = some 5) ∧
    (let j := pchOf 0x1000 % 64
     let n := pchOf 0x1000 / 64
     let s := scalar0.updStk n fun k => { k with refreshing := k.refreshing.set none j (some 0) }
     s.inRefresh 0x1000 = true ∧ scalar0.inRefresh 0x1000 = false ∧ (s.stk n).delayed = [] ∧
     (s.stallLine (.scalar rk0) 64).delays (.scalar rk0) = true) ∧
    (scalar0.linkDown.get false 3 = false ∧ scalar0.links.get 0 3 + 1 < 17 ∧
      17 ≤ ({ scalar0 with links := [(3, 16)] } : State).links.get 0 3 + 1 ∧
      ({ scalar0 with linkDown := [(3, true)] } : State).linkDown.get false 3 = true) ∧
    scalar0.cur = .scalar rk0 ∧ lane0.cur = .lane rk0 ∧ row0.cur = .row (rowKey rk0 0) := by decide +kernel

/-- A page in a vault frame with a spoilt word, its last; a clean HBM line; a spoilt latch entry, a spoilt instruction in the
operand log, and a spoilt entry of a write log. -/
theorem witness_SoftErrors :
    (let t := (page0 (two0 4088 0)).softErr (.vault tk0 511 false)
     ScalarReady t rk0 [.s 1] (some (.s 3)) [4088] t) ∧
    (let s := page0 (two0 4088 0)
     let p := (s.team tk0).page (511 / 512)
     s.teams.has tk0 = true ∧ p.inVault = true ∧ p.busy = false ∧ s.pinned (s.team tk0).core tk0 (511 / 512) = false ∧
     (let t := s.softErr (.vault tk0 511 false)
      t.orderWait rk0 = false ∧ t.legalScratch (teamOf rk0) 4088 8 = true ∧
      t.scratchFault (teamOf rk0) 4088 8 false = none ∧ t.vaultBad (teamOf rk0) 4088 8 false = true)) ∧
    (0x1000 < 2 ^ 40 ∧ fieldOf 0x1000 36 2 ≠ 3 ∧ scalar0.lostPa (64 * (0x1000 / 64)) = false ∧ scalar0.dirty = [] ∧
      (scalar0.die (dieOfPa 0x1000)).lost.length < 512) ∧
    (let l : Lanes := { (lane0.role rk0).lanes with latches := [some ⟨[], 1, [], true⟩, none, none] }
     l.clean = false ∧ (Source.op (.latch 0) .w32).spoilt l = true ∧
     wordPresent (lane0.roleCx rk0) l .none ⟨.op (.latch 0) .w32, .op (.v 2) .w32, .none⟩ [(.v 3, 4)] = true) ∧
    (let e : LogEntry := ⟨.nop, [], 0, 0, 0, true, none, true, 0, false⟩
     e.logged = true ∧ e.spoilt = true) ∧
    (let s := (tx0 0 0).updTeam tk0 fun t => { t with phase := .probing, logBad := [0] }
     (s.team tk0).phase = .probing ∧ (s.team tk0).halted = none ∧ s.logLack tk0 = none ∧ (s.team tk0).logBad ≠ [] ∧
     s.relocking (s.team tk0).core = false) :=
  ⟨ready _ [1] (some 3) _ (by decide +kernel) (by decide +kernel), by decide +kernel⟩

/-- R336, R340: a line that a cache loses is a lost line whose machine check has sub-cause 3. -/
theorem test_lostL2 :
    let s : State := { scalar0 with dirty := scalar0.dirty.put (lineKey 0 0x3000) ⟨5, ⟨0, 0⟩⟩ }
    let t := s.softErr (.cache 0 (lineKey 0 0x3000) false)
    t.lostPa (codePage + 0x3000) = true ∧ t.lostSub (codePage + 0x3000) = 3 ∧ t.dirty = [] ∧
      (t.die 0).errCnt = 2 ^ 5 := by decide +kernel

/-- R337: a RETRY of a record of sub-cause LOG finds the entry as bad as before. -/
theorem test_spoiltLog :
    let e : LogEntry := ⟨.vld c0 m0 false (.v 2), [], 0, 0, 0, true, none, true, 0, false⟩
    let s := (lane0.updRole rk0 fun r => { r with flight := [e] }).kick rk0
    (s.role rk0).flight = [{ e with recid := some 0 }] ∧ (s.role rk0).stopped = some 0 := by decide +kernel

/-- A plain word, a word with a prefix, a word that is none, and a lane word, each at the PC; a boundary that issues a
word, an engine with a command, and a row with a word. -/
theorem witness_StepRunsWord :
    (let s := State.reset.withFetchWord 32 0x40180007
     s.fetchScalar rk0 (s.role rk0).pc.toNat = .word 0x40180007 ∧ ¬0x40180007 / 2 ^ 25 % 2 ^ 7 = 0x7F ∧
     decodeScalar 0x40180007 0 = some (.li (.s 3) 7) ∧ s.featureOk (.li (.s 3) 7) = true ∧
     (s.launchOf rk0).inCode (s.role rk0).pc.toNat = true ∧
     s.xlat (s.vfOf rk0) (s.role rk0).pc.toNat 4 false =
       .ok ⟨0, 0x1040, rangeFrom (codePage + 0x1040) 4, false, false⟩ ∧
     (s.cluster (clusterOf 0)).target = none ∧ s.islandNear 0 0 = false ∧ s.offered 0 0 false = [rk0] ∧
     s.powerOk rk0 false = true ∧ s.peek rk0 false = .instr (.li (.s 3) 7) ∧
     s.linesWait (s.issueLines rk0 false (.li (.s 3) 7)) = false ∧
     (let l := (codePage + 0x1040) / 64
      let h := s.updRole rk0 fun r => r.updEng 0 fun e => { e with run := some { cmdOf (.cp cp0) with prog := { Prog.fresh with lines := [l] } } }
      h.linesWait (h.issueLines rk0 false (.li (.s 3) 7)) = true)) ∧
    (let s := State.reset.withFetchWord 64 0x12345678FE481000
     s.fetchScalar rk0 (s.role rk0).pc.toNat = .word 0xFE481000 ∧ 0xFE481000 / 2 ^ 25 % 2 ^ 7 = 0x7F ∧
     decodeScalar 0xFE481000 0 ≠ none ∧ s.fetchScalar rk0 ((s.role rk0).pc.toNat + 4) = .word 0x12345678 ∧
     decodeScalar 0xFE481000 0x12345678 = some (.lix (.s 9) 0x12345678)) ∧
    decodeScalar 0 0 = none ∧
    (let w := 0x080000006000800400000002
     let s := State.reset.withFetchWord 96 w
     s.fetchLane rk0 (s.role rk0).laneIndex = .word w ∧ (decodeLane w).isSome = true ∧
     (s.role rk0).laneIndex < (s.launchOf rk0).lcode ∧
     s.xlat (s.vfOf rk0) ((s.launchOf rk0).laneAt (s.role rk0).laneIndex) 12 false =
       .ok ⟨0, 0x2000, rangeFrom (codePage + 0x2000) 12, false, false⟩ ∧
     s.offered 0 0 true = [rk0] ∧ s.powerOk rk0 true = true) ∧
    (let s := copy0 2 (.cp cp0)
     firstRole ≤ rk0 ∧ s.hasRole rk0 = true ∧ (s.engQ rk0 0).run = some (cmdOf (.cp cp0)) ∧
     (cmdOf (.cp cp0)).result = none ∧ (cmdOf (.cp cp0)).instr = some (.cp cp0) ∧ s.relocking (s.coreOf rk0) = false ∧
     s.delays (.queue rk0 0) = false) ∧
    eventInRange (.farePost 479) = true ∧ eventInRange (.farePost 480) = false ∧
    (let s := code0 row0
     let key := rowKey rk0 0
     s.rows.has key = true ∧ (s.row key).stall = none ∧ (s.row key).depot ≠ none ∧
     (s.row key).pc < (s.task (s.row key).task).cmd.ilen ∧
     s.delays (.row key) = false ∧ s.linesWait ((rangeFrom (codePage + 0x3000) 12).map (· / 64)) = false ∧ s.depotAcc (s.task (s.row key).task) 0x3000 12 false =
       .ok ⟨0, 0x3000, rangeFrom (codePage + 0x3000) 12, false, false⟩ ∧ codeAt (s.task (s.row key).task).cmd 0 = 0x3000 ∧
     leNat (s.homeX ⟨0, 0x3000, rangeFrom (codePage + 0x3000) 12, false, false⟩) = encode (.dend c0) ∧
     s.linesWait (([codePage + 0x3000].map fun p => p / 64).dedup ++ s.rowTransfers key (.dend c0)) = false ∧
     decodeLane (encode (.dend c0)) = some (.dend c0) ∧ depotLegal (.dend c0) = true ∧ s.featureOk (.dend c0) = true) := by
  decide +kernel

/-- R62 to R78: words of the longest forms are well formed. -/
theorem witness_ScalarRoundTrip : (Instr.lix (.s 47) 0xFFFFFFFF).wf = true ∧ (Instr.lix (.s 47) 0xFFFFFFFF).isScalarWord = true ∧
    (Instr.atomCas (.q 15) (.s 47) (.q 0) 7).wf = true := by decide +kernel

theorem witness_LaneRoundTrip : (Instr.vmma { x0 with kcnt := 255, gang := true, msel := 5 }).wf = true ∧
    (Instr.vmma x0).isLaneWord = true ∧ (Instr.vshfl c0 .xor true (.v 254) (.w 7 511) (.snap 15) (.latch 2)).wf = true := by
  decide +kernel

/-- A step from the reset state, and one that runs a word. -/
theorem witness_MemoryFormKept : State.reset.MemOk ∧ (State.reset.withFetchWord 32 0x40180007).MemOk ∧
    (match step (State.reset.withFetchWord 32 0x40180007) with | .next _ => true | _ => false) = true := by
  refine ⟨?_, ?_, by decide +kernel⟩ <;> unfold State.MemOk <;> decide +kernel

theorem witness_FeaturesKept : State.reset.FeaturesOk ∧ (State.reset.withFetchWord 32 0x40180007).FeaturesOk ∧
    State.reset.Idle ∧ (State.reset.withFetchWord 32 0x40180007).Idle ∧
    (match step (State.reset.withFetchWord 32 0x40180007) with | .next _ => true | _ => false) = true := by
  refine ⟨?_, ?_, rfl, rfl, by decide +kernel⟩ <;> unfold State.FeaturesOk <;> decide +kernel

/-! ## Single steps on those states -/

/-- R23, R112, R113: 448 is the largest `e4m3`, and a little more rounds to it. -/
theorem test_vcvt : vAfter (.vcvt c0 .f32 .e4m3 .rne true 0 (.v 2) (.v 1)) [(1, 0x43E00001)] 2 = some 0x7E := by
  decide +kernel
/-- R120: 1 and 2 packed as `bf16`. -/
theorem test_vpack : vAfter (.vpack c0 .bf16 .rne false 0 (.v 3) (.v 1) (.v 2)) [(1, 0x3F800000), (2, 0x40000000)] 3 =
    some 0x40003F80 := by decide +kernel
/-- R121: the upper of two `e4m3` elements goes to the second register. -/
theorem test_vunpk : vAfter (.vunpk c0 .e4m3 0 (.v 2) (.v 1)) [(1, 0x7E38)] 3 = some 0x43E00000 := by decide +kernel
/-- R114 to R116: 1.0 quantised with the scale 1. -/
theorem test_vqnt : after (.vqnt c0 0 1 (.v 2) (.v 1) (.v 0)) (withV (slot0 2) [(1, 0x3F800000)])
    (fun t => (t.role rk0).lanes.bytes 0 0 8 4 == 0x3800) = true := by decide +kernel
/-- R141: nothing below lane 0. -/
theorem test_vshfl_up : vAfter (.vshfl c0 .up false (.v 4) (.v 1) (.v 2) (.v 3)) [(1, 5), (2, 1), (3, 9)] 4 = some 9 := by
  decide +kernel
/-- R140: two of the lanes have `k1` set. -/
theorem test_vvote : after (.vvote c0 .count false 1 (.v 2)) (lane0.updRole rk0 fun r =>
    { r with lanes := { r.lanes with preds := r.lanes.preds.set 0 0xA } })
    (fun t => (t.role rk0).lanes.bytes 0 0 8 4 == 2) = true := by decide +kernel
/-- R127: the lanes whose condition is clear leave E. -/
theorem test_vif : after (.vif false 1 false) (lane0.updRole rk0 fun r =>
    { r with lanes := { r.lanes with preds := r.lanes.preds.set 0 0xA } })
    (fun t => (t.role rk0).lanes.e == 0xA && (t.role rk0).lanes.stack.length == 1) = true := by decide +kernel
/-- R144, R145: the one live lane, 31, moves to slot 0. -/
theorem test_vregroup : after (.vregroup c0 false false (.v 0)) (lane0.updRole rk0 fun r => { r with lanes :=
    { (r.lanes.put 31 4 4 7) with base := 0x80000000 } })
    (fun t => (t.role rk0).lanes.bytes 0 0 4 4 == 7 && (t.role rk0).lanes.base == 1) = true := by decide +kernel
/-- R182: a compare that fails writes nothing. -/
theorem test_cas_fails : after (.atomCas (.s 5) (.s 1) (.s 2) 0) (withS (two0 0x3000 7) [(5, 1)])
    (fun t => t.homeByte (codePage + 0x3000) == 0 && (t.role rk0).sreg 5 == 0) = true := by decide +kernel
/-- R189: the last arrival flips PHASE and clears COUNT. -/
theorem test_barav : after (.barav (.s 1)) ((page0 (two0 4088 0)).scratchStore tk0 4088 (leBytes 8 0x20001))
    (fun t => leNat (t.scratchLoad tk0 4088 8) == 0x100020000) = true := by decide +kernel
/-- R199: TRAPPC is the address of the next instruction. -/
theorem test_trap : after (.trap 5) (scalar0.updLaunch 1 fun l => { l with header := putField l.header 8 4 3 })
    (fun t => (t.role rk0).trapPc == 0x1044 && (t.role rk0).pc == 0x104C && (t.role rk0).trapCause == 0x80050000) = true := by
  decide +kernel
/-- R268: a CP of two elements. -/
theorem test_cp : after (.cp cp0) ((copy0 2 (.cp cp0)).setHome (codePage + 0x301F) 0xAB)
    (fun t => (t.team tk0).scratch.get 0 31 == 0xAB) = true := by decide +kernel
/-- R271: a token signal. -/
theorem test_sig : after (.sig sigT) (copy0 2 (.sig sigT)) (fun t => t.homeWord (codePage + 0x3000) == 5) = true := by
  decide +kernel
/-- R357: DLDR reads a home value. -/
theorem test_dldr : after (.dldr c0 { m0 with scratch := false, addr := .v 2, off := 0x3000 } false (.v 4))
    (row0.setHome (codePage + 0x3001) 1) (fun t => (t.row (rowKey rk0 0)).lanes.bytes 0 15 16 4 == 0x100) = true := by
  decide +kernel
/-- R294: at DEFCLS 2, REPL × 30 / 22 = 436 units. -/
theorem test_replenish : after (.allowReplenish 0) (lane0.updCluster 0 fun c => { c with allow := -1 })
    (fun t => (t.cluster 0).allow == 435) = true := by decide +kernel
/-- R381, R383: 3 µJ are 3,000,000 pJ. -/
theorem test_fareadd : after (.fareadd 0 14000) lane0 (fun t => (t.vf 0).fareBal == 14000) = true := by decide +kernel
/-- R335: the seventeenth failure of a flit, which has had its 16 retries, takes the link down. -/
theorem test_link : after (.linkFlitError 2) { lane0 with links := [(2, 16)] } (fun t => t.linkDown.get false 2) = true := by
  decide +kernel
/-- R389: an accepted launch is answered with its LID and the code 0. -/
theorem test_launch : after (.launchMessage 0 0x4000) launch0
    (fun t => t.outbox == [.launchAnswer 0 2 0] && (t.launch 2).phase == .waiting) = true := by decide +kernel
/-- R165, R381: GRACE takes a team without a transaction off its core. -/
theorem test_grace : after (.preemptGrace 0) (scalar0.setEntry 0 0) (fun t => (t.team tk0).phase == .preempted && (t.vf 0).withheld) = true := by
  decide +kernel
/-- R254, R260: TXABORT records cause 3 and queues the team again. -/
theorem test_txabort : after .txabort (tx0 0 0)
    (fun t => (t.team tk0).phase == .queued && (t.team tk0).lastCause == 3 && (t.team tk0).replays == 1) = true := by
  decide +kernel

end Sys2Proof.Tests
end

section
/-! PROOFS. The bitwise words, shifts, counts, bit fields, carry-less products and moves of the lane stream (R99, R100, R103,
R104, R146). The model computes on numbers and the statement on bit vectors, so there are two parts: a source of an active
lane gives a number that fits its operand width (R98), and on such numbers each form of the model is the operation on bit
vectors that the rules name. -/

namespace Sys2Proof.Machine
open Sys2Proof

/-! ## Source values fit the operand width (R98) -/

theorem leNat_lt (bs : List Byte) : leNat bs < 2 ^ (8 * bs.length) := by
  induction bs with
  | nil => decide
  | cons b t ih =>
    have hb := b.isLt
    have hp : 2 ^ (8 * (b :: t).length) = 256 * 2 ^ (8 * t.length) := by
      rw [List.length_cons, Nat.mul_succ, Nat.pow_add, Nat.mul_comm]
    simp only [leNat]
    omega

theorem length_rangeFrom (lo n : Nat) : (rangeFrom lo n).length = n := by
  induction n generalizing lo with
  | zero => rfl
  | succ n ih => simp [rangeFrom, ih]

theorem Lanes.bytes_lt (l : Lanes) (free lane b n : Nat) : l.bytes free lane b n < 2 ^ (8 * n) := by
  simpa only [Lanes.bytes, List.length_map, length_rangeFrom] using leNat_lt ((rangeFrom b n).map (l.byte free lane))

/-- The special values of a context fit the narrowest operand (R46). -/
structure LaneCx.Narrow (cx : LaneCx) : Prop where
  role : cx.role < 2 ^ 32
  team : cx.team < 2 ^ 32
  core : cx.core < 2 ^ 32
  clus : cx.clus < 2 ^ 32
  die : cx.die < 2 ^ 32

theorem State.roleCx_narrow (s : State) (rk : Nat) : (s.roleCx rk).Narrow := by
  constructor <;> simp only [State.roleCx, roleIdx] <;> omega

theorem State.rowCx_narrow (s : State) (key : Nat) : (s.rowCx key).Narrow := by
  constructor <;> simp only [State.rowCx] <;> omega

theorem State.laneNow_narrow {s : State} {cx : LaneCx} {l : Lanes} (h : s.laneNow = some (cx, l)) : cx.Narrow := by
  unfold State.laneNow at h
  split at h <;> cases h
  · exact s.roleCx_narrow _
  · exact s.rowCx_narrow _

theorem two_pow_32_le_opW (w : OpW) : 2 ^ 32 ≤ 2 ^ (8 * w.bytes) := by
  cases w <;> decide

theorem extImm_lt (w : OpW) (i : W32) : extImm w i < 2 ^ (8 * w.bytes) := by
  cases w with
  | w32 => exact i.isLt
  | s64 => exact (i.signExtend 64).isLt
  | n64 => exact i.isLt.trans (by decide)

theorem opVal_lt {cx : LaneCx} (hcx : cx.Narrow) {lane : Nat} (hlane : lane < 2 ^ 32) (o : Opnd) (l : Lanes) (w : OpW) :
    opVal o cx l w lane < 2 ^ (8 * w.bytes) := by
  obtain ⟨hrole, hteam, hcore, hclus, hdie⟩ := hcx
  have h32 := two_pow_32_le_opW w
  have hcut (n : Nat) : n % 2 ^ (8 * w.bytes) < 2 ^ (8 * w.bytes) := Nat.mod_lt n (Nat.two_pow_pos _)
  cases o with
  | v r => exact l.bytes_lt ..
  | w v b => exact l.bytes_lt ..
  | snap n => exact hcut _
  | imm i => exact extImm_lt w _
  | latch i =>
    simp only [opVal]
    split
    · exact hcut _
    · exact Nat.two_pow_pos _
  | spec k =>
    cases k <;> simp only [opVal]
    case grp => split <;> omega
    all_goals omega

/-- A source that is not read, or is read at a width of `n` bytes. -/
def Source.Fits (n : Nat) : Source → Prop
  | .none => True
  | .op _ w => w.bytes = n
  | .imm _ w => w.bytes = n

/-- Every source of the word that is read is read at a width of `n` bytes. -/
def Sources.Fits (n : Nat) (srcs : Sources) : Prop := srcs.a.Fits n ∧ srcs.b.Fits n ∧ srcs.x.Fits n

theorem Source.val_lt {cx : LaneCx} (hcx : cx.Narrow) {lane : Nat} (hlane : lane < 2 ^ 32) {n : Nat} {x : Source}
    (hx : x.Fits n) (l : Lanes) : x.val cx l lane < 2 ^ (8 * n) := by
  cases x with
  | none => exact Nat.two_pow_pos _
  | op o w => exact hx ▸ opVal_lt hcx hlane o l w
  | imm i w => exact hx ▸ extImm_lt w i

theorem Lanes.lt_of_mem_actives {l : Lanes} {c : LaneCtl} {i : Nat} (h : i ∈ l.actives c) : i < 1024 :=
  BitVec.lt_of_getLsbD (List.mem_filter.mp h).2

/-! ## From numbers to bit vectors -/

theorem Lanes.mapTo_congr {ls : List Nat} {f g : Nat → Nat} (h : ∀ i ∈ ls, f i = g i) (l : Lanes) (cx : LaneCx) (d : Opnd)
    (n : Nat) : l.mapTo cx ls d n f = l.mapTo cx ls d n g :=
  List.foldl_ext _ _ l fun m i hi => by rw [h i hi]

/-- A class S word writes what a function on bit vectors of the operand width gives, when its function on numbers agrees
with it there. -/
theorem laneWrites_of_laneMap {s : State} {c : LaneCtl} {i : Instr} {srcs : Sources} {d : Opnd} {n N : Nat}
    {f g : Nat → Nat → Nat → Nat} (hexec : exec i s = laneMap s c srcs d n f) (hfit : srcs.Fits n) (hN : 8 * n = N)
    (hfg : ∀ x y z : BitVec N, f x.toNat y.toNat z.toNat = g x.toNat y.toNat z.toNat) : LaneWrites s c i srcs d n g := by
  intro cx l hready
  obtain ⟨hfa, hfb, hfx⟩ := hfit
  have hcx := State.laneNow_narrow hready.now
  have hval {x : Source} (hfits : x.Fits n) {j : Nat} (hj : j ∈ l.actives c) :
      ∃ v : BitVec N, v.toNat = x.val cx l j := by
    have hlt := Source.val_lt hcx ((Lanes.lt_of_mem_actives hj).trans (by decide)) hfits l
    exact ⟨BitVec.ofNat N (x.val cx l j), Nat.mod_eq_of_lt (hN ▸ hlt)⟩
  rw [hexec, laneMap_ready hready]
  congr 3
  refine Lanes.mapTo_congr (fun j hj => ?_) l cx d n
  obtain ⟨x, hx⟩ := hval hfa hj
  obtain ⟨y, hy⟩ := hval hfb hj
  obtain ⟨z, hz⟩ := hval hfx hj
  rw [← hx, ← hy, ← hz, hfg]

/-! ## The forms of the model as operations on bit vectors -/

theorem bitOf_toNat {n : Nat} (x : BitVec n) (i : Nat) : bitOf x.toNat i = x.getLsbD i := by
  rw [bitOf, BitVec.getLsbD, Nat.testBit_eq_decide_div_mod_eq]
  rfl

theorem b2n_eq_toNat (b : Bool) : b2n b = b.toNat := by
  cases b <;> rfl

theorem andNot_toNat {n : Nat} (x y : BitVec n) : andNot n x.toNat y.toNat = (x &&& ~~~y).toNat := by
  rw [andNot, Nat.mod_eq_of_lt y.isLt, BitVec.toNat_and, BitVec.toNat_not]

theorem mul_two_pow_toNat {n : Nat} (x : BitVec n) (k : Nat) : x.toNat * 2 ^ k % 2 ^ n = (x <<< k).toNat := by
  rw [BitVec.toNat_shiftLeft, Nat.shiftLeft_eq]

theorem div_two_pow_toNat {n : Nat} (x : BitVec n) (k : Nat) : x.toNat / 2 ^ k = (x >>> k).toNat := by
  rw [BitVec.toNat_ushiftRight, Nat.shiftRight_eq_div_pow]

theorem toSigned_toNat {n : Nat} (x : BitVec n) : toSigned n x.toNat = x.toInt := by
  rw [toSigned, bitOf_toNat, ← BitVec.msb_eq_getLsbD_last, BitVec.toInt_eq_msb_cond]
  norm_cast

theorem wrapInt_eq_ofInt (n : Nat) (v : Int) : wrapInt n v = (BitVec.ofInt n v).toNat := by
  rw [wrapInt, BitVec.toNat_ofInt]
  norm_cast

theorem sraNat_toNat {n : Nat} (x : BitVec n) (k : Nat) : sraNat n x.toNat k = (x.sshiftRight k).toNat := by
  rw [sraNat, toSigned_toNat, wrapInt_eq_ofInt, BitVec.sshiftRight, Int.shiftRight_eq_div_pow]
  norm_cast

/-- The two parts of a rotated word share no bit, so their sum is their union. -/
theorem rotNat_toNat {n : Nat} (x : BitVec n) {k : Nat} (hk : k < n) :
    rotNat n x.toNat k = (x.rotateLeft k).toNat := by
  have hn : 2 ^ n = 2 ^ (n - k) * 2 ^ k := by rw [← Nat.pow_add, Nat.sub_add_cancel hk.le]
  have hlow : x.toNat / 2 ^ (n - k) < 2 ^ k := Nat.div_lt_of_lt_mul (hn ▸ x.isLt)
  have hhigh : x.toNat * 2 ^ k % 2 ^ n = 2 ^ k * (x.toNat % 2 ^ (n - k)) := by
    rw [hn, Nat.mul_mod_mul_right, Nat.mul_comm]
  rw [rotNat, BitVec.toNat_rotateLeft, Nat.mod_eq_of_lt hk, Nat.shiftLeft_eq, Nat.shiftRight_eq_div_pow, hhigh,
    Nat.two_pow_add_eq_or_of_lt hlow]

theorem popcNat_eq_cpopNatRec {n : Nat} (x : BitVec n) (i : Nat) : popcNat x.toNat i = x.cpopNatRec i 0 := by
  induction i with
  | zero => rfl
  | succ i ih =>
    rw [popcNat, ih, bitOf_toNat, b2n_eq_toNat, BitVec.cpopNatRec_succ, Nat.zero_add,
      BitVec.cpopNatRec_eq (x.getLsbD i).toNat, Nat.add_comm]

theorem popcNat_toNat {n : Nat} (x : BitVec n) : popcNat x.toNat n = x.cpop.toNat := by
  rw [popcNat_eq_cpopNatRec, BitVec.toNat_cpop]

/-- The search from bit `i` down has already passed `n - 1 - i` zero bits. -/
theorem clzNat_add_eq_clzAuxRec {n : Nat} (x : BitVec n) {i : Nat} (hi : i < n) :
    n - 1 - i + clzNat x.toNat (i + 1) = (x.clzAuxRec i).toNat := by
  have hlt {m : Nat} (hm : m ≤ n) : (BitVec.ofNat n m).toNat = m :=
    Nat.mod_eq_of_lt (hm.trans_lt Nat.lt_two_pow_self)
  induction i with
  | zero =>
    rw [clzNat, bitOf_toNat, BitVec.clzAuxRec_zero]
    split
    · rw [hlt (Nat.sub_le n 1)]; rfl
    · rw [hlt le_rfl]; simp only [clzNat]; omega
  | succ i ih =>
    rw [clzNat, bitOf_toNat, BitVec.clzAuxRec_succ]
    split
    · rw [hlt (by omega)]; rfl
    · rw [← ih (by omega)]; omega

theorem clzNat_toNat {n : Nat} (x : BitVec n) : clzNat x.toNat n = x.clz.toNat := by
  cases n with
  | zero => rw [BitVec.of_length_zero (x := x.clz)]; rfl
  | succ n => simpa [BitVec.clz] using clzNat_add_eq_clzAuxRec x (Nat.lt_succ_self n)

/-- After the low `i` bits of `x` the upper `i` bits of the reversed word stand. -/
theorem brevNat_eq_upper_reverse {n : Nat} (x : BitVec n) {i : Nat} (hi : i ≤ n) :
    brevNat x.toNat n i = x.reverse.toNat / 2 ^ (n - i) * 2 ^ (n - i) := by
  induction i with
  | zero => simp [brevNat, Nat.div_eq_of_lt x.reverse.isLt]
  | succ i ih =>
    obtain ⟨k, hk⟩ : ∃ k, n = i + 1 + k := Nat.exists_eq_add_of_le hi
    have hsub : n - i = k + 1 := by omega
    have hsub1 : n - 1 - i = k := by omega
    have hsub1' : n - 1 - k = i := by omega
    have hsub2 : n - (i + 1) = k := by omega
    have hbit : x.reverse.toNat / 2 ^ k % 2 = (x.getLsbD i).toNat := by
      have hlt : k < n := by omega
      rw [← Nat.toNat_testBit, BitVec.testBit_toNat, BitVec.getLsbD_reverse, BitVec.getMsbD_eq_getLsbD, hsub1']
      simp [hlt]
    rw [brevNat, ih (by omega), bitOf_toNat, b2n_eq_toNat, hsub, hsub1, hsub2, ← hbit, Nat.pow_succ, ← Nat.div_div_eq_div_mul]
    generalize x.reverse.toNat / 2 ^ k = q
    calc q % 2 * 2 ^ k + q / 2 * (2 ^ k * 2) = (2 * (q / 2) + q % 2) * 2 ^ k := by ring
      _ = q * 2 ^ k := by rw [Nat.div_add_mod]

theorem brevNat_toNat {n : Nat} (x : BitVec n) : brevNat x.toNat n n = x.reverse.toNat := by
  simpa using brevNat_eq_upper_reverse x le_rfl

/-- One shifted copy for each set bit among the low `k` bits of `y` (R104). -/
theorem clmulNat_toNat {n : Nat} (x y : BitVec n) {k : Nat} (hk : k ≤ n) :
    clmulNat x.toNat y.toNat k = ((List.range k).foldl (fun p i =>
      if y.getLsbD i then p ^^^ (x.zeroExtend (n + n) <<< i) else p) 0).toNat := by
  induction k with
  | zero => rfl
  | succ k ih =>
    have hcopy : (x.zeroExtend (n + n) <<< k).toNat = x.toNat * 2 ^ k := by
      rw [BitVec.toNat_shiftLeft, BitVec.toNat_setWidth_of_le (Nat.le_add_left n n), Nat.shiftLeft_eq, Nat.mod_eq_of_lt]
      rw [Nat.pow_add]
      exact Nat.mul_lt_mul_of_lt_of_le x.isLt (Nat.pow_le_pow_right (by decide) (by omega)) (Nat.two_pow_pos n)
    rw [clmulNat, ih (by omega), bitOf_toNat, List.range_succ, List.foldl_append, List.foldl_cons, List.foldl_nil]
    split
    · rw [BitVec.toNat_xor, hcopy, Nat.xor_comm]
    · rw [Nat.zero_xor]

theorem clmulNat_eq_clWide {n : Nat} (x y : BitVec n) : clmulNat x.toNat y.toNat n = (clWide n x.toNat y.toNat).toNat := by
  simp only [clWide, BitVec.ofNat_toNat, BitVec.setWidth_eq]
  exact clmulNat_toNat x y le_rfl

/-- The half of a double word that VCLMUL returns (R104). -/
theorem half_toNat {n : Nat} (p : BitVec (n + n)) (hi : Bool) :
    (if hi then p.toNat / 2 ^ n else p.toNat % 2 ^ n) = (p.extractLsb' (if hi then n else 0) n).toNat := by
  cases hi with
  | false => simp
  | true =>
    have hlt : p.toNat / 2 ^ n < 2 ^ n := Nat.div_lt_of_lt_mul (Nat.pow_add 2 n n ▸ p.isLt)
    simp [Nat.shiftRight_eq_div_pow, Nat.mod_eq_of_lt hlt]

/-! ## Bit fields (R103) -/

theorem fieldBits_eq_min (w p len : Nat) : fieldBits w p len = Nat.min len (w - p) := by
  rw [fieldBits]
  split
  · next h => simp [Nat.sub_eq_zero_of_le h]
  · rfl

theorem cutField_eq (w : Nat) (f : BfSel) (y : Nat) :
    cutField w f y = ((fieldPos f y).1, fieldBits w (fieldPos f y).1 (fieldPos f y).2) := by
  rw [fieldBits_eq_min]
  cases f with
  | const p len => rfl
  | var b => simp [cutField, fieldPos, fieldOf]

theorem fieldBits_le (w p len : Nat) : fieldBits w p len ≤ w - p :=
  fieldBits_eq_min w p len ▸ Nat.min_le_right len (w - p)

theorem bfextNat_toNat {w : Nat} (x : BitVec w) (signed : Bool) (p len : Nat) :
    bfextNat w signed p len x.toNat = (if signed then (x.extractLsb' p (fieldBits w p len)).signExtend w
      else (x.extractLsb' p (fieldBits w p len)).zeroExtend w).toNat := by
  have hle : fieldBits w p len ≤ w := (fieldBits_le w p len).trans (Nat.sub_le w p)
  have hfield : x.toNat / 2 ^ p % 2 ^ fieldBits w p len = (x.extractLsb' p (fieldBits w p len)).toNat := by
    rw [BitVec.extractLsb'_toNat, Nat.shiftRight_eq_div_pow]
  simp only [bfextNat, hfield, bitOf_toNat, ← BitVec.msb_eq_getLsbD_last]
  generalize x.extractLsb' p (fieldBits w p len) = v
  generalize fieldBits w p len = m at v hle
  have hwide : (v.zeroExtend w).toNat = v.toNat := BitVec.toNat_setWidth_of_le hle
  cases signed with
  | false => simpa using hwide.symm
  | true =>
    cases hmsb : v.msb with
    | false => simp [BitVec.toNat_signExtend, hmsb, hwide]
    | true =>
      have hm : 0 < m := Nat.pos_of_ne_zero fun h0 => by
        subst h0
        simp [BitVec.of_length_zero] at hmsb
      simp [BitVec.toNat_signExtend, hmsb, hwide, hm]

/-- The mask of a field of `m` bits at place `p` that ends inside the word. -/
theorem mask_toNat {w p m : Nat} (hm : m ≤ w - p) :
    (2 ^ m - 1) * 2 ^ p = ((BitVec.allOnes m).zeroExtend w <<< p).toNat := by
  have hones : ((BitVec.allOnes m).zeroExtend w).toNat = 2 ^ m - 1 := by
    rw [BitVec.toNat_setWidth_of_le (hm.trans (Nat.sub_le w p)), BitVec.toNat_allOnes]
  rw [← mul_two_pow_toNat, hones]
  rcases Nat.eq_zero_or_pos m with rfl | hpos
  · simp
  · have hlt : (2 ^ m - 1) * 2 ^ p < 2 ^ (m + p) := by
      rw [Nat.pow_add]
      exact Nat.mul_lt_mul_of_pos_right (Nat.sub_lt (Nat.two_pow_pos m) Nat.one_pos) (Nat.two_pow_pos p)
    exact (Nat.mod_eq_of_lt (hlt.trans_le (Nat.pow_le_pow_right (by decide) (by omega)))).symm

theorem bfinsNat_toNat {w : Nat} (x z : BitVec w) (p len : Nat) :
    bfinsNat w p len x.toNat z.toNat =
      (z &&& ~~~((BitVec.allOnes (fieldBits w p len)).zeroExtend w <<< p) |||
        (x <<< p &&& (BitVec.allOnes (fieldBits w p len)).zeroExtend w <<< p)).toNat := by
  have hle := fieldBits_le w p len
  have hmask := mask_toNat hle
  rw [BitVec.toNat_or, BitVec.toNat_and (x <<< p), ← mul_two_pow_toNat x, ← andNot_toNat, ← hmask]
  rfl

/-! ## The words -/

theorem bitsN_eq (w64 : Bool) : bitsN w64 = 8 * (bitsW w64).bytes := by
  cases w64 <;> rfl

theorem ityWidth_eq (t : ITy) : 8 * (ityW t).bytes = t.width := by
  cases t <;> rfl

theorem bfSource_fits (f : BfSel) (w : OpW) : (bfSource f w).Fits w.bytes := by
  cases f <;> trivial

/-- A bitwise form (R100) writes what an operation on bit vectors gives, when its function on numbers is that operation. -/
theorem laneWrites_of_bitwise {s : State} {c : LaneCtl} {i : Instr} {w64 : Bool} {srcs : Sources} {d : Opnd}
    {f : Nat → Nat → Nat} {g : Nat → Nat → BitVec (8 * (bitsW w64).bytes)} (hexec : exec i s = bitwise s c w64 d srcs f)
    (hfit : srcs.Fits (bitsW w64).bytes)
    (hfg : ∀ x y : BitVec (8 * (bitsW w64).bytes), f x.toNat y.toNat = (g x.toNat y.toNat).toNat) :
    LaneWrites s c i srcs d (bitsW w64).bytes fun p q _ => (g p q).toNat :=
  laneWrites_of_laneMap hexec hfit rfl fun x y _ => hfg x y

theorem srcAB_fits (w : OpW) (a b : Opnd) : (srcAB w a b).Fits w.bytes := ⟨rfl, rfl, trivial⟩

theorem srcAI_fits (w : OpW) (a : Opnd) (i : W32) : (srcAI w a i).Fits w.bytes := ⟨rfl, rfl, trivial⟩

theorem srcA_fits (w : OpW) (a : Opnd) : (srcA w a).Fits w.bytes := ⟨rfl, trivial, trivial⟩

theorem bitsW_pos (w64 : Bool) : 0 < 8 * (bitsW w64).bytes := by
  cases w64 <;> decide

/-- Settles O20: each word is one class S word of the model, and its function on numbers is the operation on bit vectors that
the statement names; `harm` says which function of the model gives the word its meaning. -/
theorem laneBitwise : Obligations.LaneBitwise := by
  intro s c t w64 hi d a b x i f e w n ab ai a0 v gives fb ext
  have fab : ab.Fits w.bytes := srcAB_fits w a b
  have fai : ai.Fits w.bytes := srcAI_fits w a i
  have fa0 : a0.Fits w.bytes := srcA_fits w a
  have hv (y : BitVec n) : v y.toNat = y := bitVec_ofNat_toNat y
  have hn (y : BitVec n) : y.toNat % n < n := Nat.mod_lt _ (bitsW_pos w64)
  have hw : bitsN w64 = n := bitsN_eq w64
  refine ⟨?vand, ?vor, ?vxor, ?vandn, ?vandImm, ?vorImm, ?vxorImm, ?vandnImm, ?vshl, ?vshr, ?vsra, ?vrot, ?vpopc, ?vclz,
    ?vbrev, ?vclmul, ?vbfext, ?vbfins, ?vmov, ?vmovi, ?vnop⟩
  case vand =>
    have harm : exec (.vand c w64 d a b) s = execVand c w64 d a b s := rfl
    exact laneWrites_of_bitwise harm fab fun p q => by rw [hv, hv, BitVec.toNat_and]
  case vor =>
    have harm : exec (.vor c w64 d a b) s = execVor c w64 d a b s := rfl
    exact laneWrites_of_bitwise harm fab fun p q => by rw [hv, hv, BitVec.toNat_or]
  case vxor =>
    have harm : exec (.vxor c w64 d a b) s = execVxor c w64 d a b s := rfl
    exact laneWrites_of_bitwise harm fab fun p q => by rw [hv, hv, BitVec.toNat_xor]
  case vandn =>
    have harm : exec (.vandn c w64 d a b) s = execVandn c w64 d a b s := rfl
    exact laneWrites_of_bitwise harm fab fun p q => by rw [hv, hv, hw, andNot_toNat]
  case vandImm =>
    have harm : exec (.vandImm c w64 d a i) s = execVandImm c w64 d a i s := rfl
    exact laneWrites_of_bitwise harm fai fun p q => by rw [hv, hv, BitVec.toNat_and]
  case vorImm =>
    have harm : exec (.vorImm c w64 d a i) s = execVorImm c w64 d a i s := rfl
    exact laneWrites_of_bitwise harm fai fun p q => by rw [hv, hv, BitVec.toNat_or]
  case vxorImm =>
    have harm : exec (.vxorImm c w64 d a i) s = execVxorImm c w64 d a i s := rfl
    exact laneWrites_of_bitwise harm fai fun p q => by rw [hv, hv, BitVec.toNat_xor]
  case vandnImm =>
    have harm : exec (.vandnImm c w64 d a i) s = execVandnImm c w64 d a i s := rfl
    exact laneWrites_of_bitwise harm fai fun p q => by rw [hv, hv, hw, andNot_toNat]
  case vshl =>
    have harm : exec (.vshl c w64 d a b) s = execVshl c w64 d a b s := rfl
    exact laneWrites_of_bitwise harm fab fun p q => by rw [hv, hw, mul_two_pow_toNat]
  case vshr =>
    have harm : exec (.vshr c w64 d a b) s = execVshr c w64 d a b s := rfl
    exact laneWrites_of_bitwise harm fab fun p q => by rw [hv, hw, div_two_pow_toNat]
  case vsra =>
    have harm : exec (.vsra c w64 d a b) s = execVsra c w64 d a b s := rfl
    exact laneWrites_of_bitwise harm fab fun p q => by rw [hv, hw, sraNat_toNat]
  case vrot =>
    have harm : exec (.vrot c w64 d a b) s = execVrot c w64 d a b s := rfl
    exact laneWrites_of_bitwise harm fab fun p q => by rw [hv, hw, rotNat_toNat p (hn q)]
  case vpopc =>
    have harm : exec (.vpopc c w64 d a) s = execVpopc c w64 d a s := rfl
    exact laneWrites_of_bitwise harm fa0 fun p q => by rw [hv, hw, popcNat_toNat]
  case vclz =>
    have harm : exec (.vclz c w64 d a) s = execVclz c w64 d a s := rfl
    exact laneWrites_of_bitwise harm fa0 fun p q => by rw [hv, hw, clzNat_toNat]
  case vbrev =>
    have harm : exec (.vbrev c w64 d a) s = execVbrev c w64 d a s := rfl
    exact laneWrites_of_bitwise harm fa0 fun p q => by rw [hv, hw, brevNat_toNat]
  case vclmul =>
    have harm : exec (.vclmul c w64 hi d a b) s = execVclmul c w64 hi d a b s := rfl
    exact laneWrites_of_bitwise harm fab fun p q => by
      simp only [hw]
      rw [clmulNat_eq_clWide, half_toNat]
  case vbfext =>
    have harm : exec (.vbfext c t f d a) s = execVbfext c t f d a s := rfl
    refine laneWrites_of_laneMap harm ⟨rfl, bfSource_fits f (ityW t), trivial⟩ (ityWidth_eq t) fun p q r => ?_
    simp only [bfextNat_toNat, bitVec_ofNat_toNat]
    rw [cutField_eq]
  case vbfins =>
    have harm : exec (.vbfins c w64 f d a x) s = execVbfins c w64 f d a x s := rfl
    refine laneWrites_of_laneMap harm ⟨rfl, bfSource_fits f w, rfl⟩ rfl fun p q r => ?_
    simp only [hv, hw, bfinsNat_toNat]
    rw [cutField_eq]
  case vmov =>
    have harm : exec (.vmov c w64 d a) s = execVmov c w64 d a s := rfl
    exact laneWrites_of_laneMap harm fa0 rfl fun p q r => congrArg BitVec.toNat (hv p).symm
  case vmovi =>
    have harm : exec (.vmovi c e d i) s =
        laneMap s c ⟨.none, .none, .none⟩ d ext.bytes (fun _ _ _ => extImm ext i) := rfl
    exact laneWrites_of_laneMap harm ⟨trivial, trivial, trivial⟩ rfl fun _ _ _ => rfl
  case vnop =>
    intro cx l hnow
    show execVnop c.sw s = _
    rw [execVnop, hnow]

end Sys2Proof.Machine
end

section
/-! PROOFS. The results of the scalar instructions with one source, with two and with an immediate, of SEL and of the
constants (R175 to R179). Each register word is one arithmetic word of the model, so there are two parts: on the values read,
the model's function is the operation on bit vectors that the rules name, and a ready word finishes with what its function
gives. -/

namespace Sys2Proof.Machine
open Sys2Proof

/-! ## Products and quotients (R175, R176) -/

/-- The upper half of a wrapped double word is the quotient, wrapped in its turn. -/
theorem extractLsb'_ofInt_high (p : Int) : (BitVec.ofInt 128 p).extractLsb' 64 64 = BitVec.ofInt 64 (p / 2 ^ 64) := by
  apply BitVec.eq_of_toNat_eq
  rw [BitVec.extractLsb'_toNat, BitVec.toNat_ofInt, BitVec.toNat_ofInt, Nat.shiftRight_eq_div_pow]
  omega

theorem mulHigh_eq_extractLsb' (x y : W64) :
    mulHigh x y = (x.signExtend 128 * y.signExtend 128).extractLsb' 64 64 := by
  have hprod : x.signExtend 128 * y.signExtend 128 = BitVec.ofInt 128 (x.toInt * y.toInt) := (BitVec.ofInt_mul _ _).symm
  rw [hprod, extractLsb'_ofInt_high, mulHigh]

theorem mulHighN_eq_extractLsb' (x y : W64) :
    mulHighN x y = (x.zeroExtend 128 * y.zeroExtend 128).extractLsb' 64 64 := by
  have hlt : x.toNat * y.toNat < 2 ^ 64 * 2 ^ 64 := Nat.mul_lt_mul'' x.isLt y.isLt
  have hprod : (x.zeroExtend 128 * y.zeroExtend 128).toNat = x.toNat * y.toNat := by
    rw [BitVec.toNat_mul, BitVec.toNat_setWidth_of_le (by decide), BitVec.toNat_setWidth_of_le (by decide)]
    exact Nat.mod_eq_of_lt hlt
  rw [mulHighN, BitVec.extractLsb', hprod, Nat.shiftRight_eq_div_pow]

theorem divS_eq_sdiv (x y : W64) : divS x y = if y = 0 then BitVec.allOnes 64 else x.sdiv y := by
  have hquot : BitVec.ofInt 64 (x.toInt.tdiv y.toInt) = x.sdiv y :=
    BitVec.eq_of_toInt_eq ((BitVec.toInt_ofInt _).trans (BitVec.toInt_sdiv x y).symm)
  rw [divS, hquot]
  rfl

theorem divN_eq_udiv (x y : W64) : divN x y = if y = 0 then BitVec.allOnes 64 else x / y := by
  rw [divN, ← BitVec.udiv_def]
  rfl

theorem remS_eq_srem (x y : W64) : remS x y = x.srem y := by
  have hrem : BitVec.ofInt 64 (x.toInt.tmod y.toInt) = x.srem y := by
    rw [← BitVec.toInt_srem, BitVec.ofInt_toInt]
  rw [remS, hrem]
  split
  · next hy => rw [hy]; exact BitVec.srem_zero.symm
  · rfl

theorem remN_eq_umod (x y : W64) : remN x y = x % y := by
  rw [remN, ← BitVec.umod_def]
  split
  · next hy => rw [hy]; exact BitVec.umod_zero.symm
  · rfl

/-! ## Orders and conditions (R175) -/

theorem minS_eq_slt (x y : W64) : minS x y = if y.slt x then y else x := by
  simp only [minS, BitVec.slt_iff_toInt_lt, ← not_le, ite_not]

theorem minN_eq_ult (x y : W64) : minN x y = if y.ult x then y else x := by
  simp only [minN, BitVec.ult_iff_lt, BitVec.lt_def, ← not_le, ite_not]

/-- Of equal values MAX takes either. -/
theorem maxS_eq_slt (x y : W64) : maxS x y = if x.slt y then y else x := by
  rw [maxS, BitVec.slt_eq_decide]
  by_cases heq : x = y
  · simp [heq]
  · have hne : x.toInt ≠ y.toInt := fun h => heq (BitVec.eq_of_toInt_eq h)
    simp only [decide_eq_true_eq, hne.le_iff_lt]

theorem maxN_eq_ult (x y : W64) : maxN x y = if x.ult y then y else x := by
  rw [maxN, BitVec.ult_eq_decide]
  by_cases heq : x = y
  · simp [heq]
  · have hne : x.toNat ≠ y.toNat := fun h => heq (BitVec.eq_of_toNat_eq h)
    simp only [decide_eq_true_eq, hne.le_iff_lt]

theorem boolW_beq (x y : W64) : boolW (x == y) = if x = y then 1 else 0 := by
  simp only [boolW, beq_iff_eq]

theorem boolW_bne (x y : W64) : boolW (x != y) = if x = y then 0 else 1 := by
  simp only [boolW, bne_iff_ne, ite_not]

theorem boolW_toInt_lt (x y : W64) : boolW (decide (x.toInt < y.toInt)) = if x.slt y then 1 else 0 := by
  rw [boolW, BitVec.slt_eq_decide]

theorem boolW_toNat_lt (x y : W64) : boolW (decide (x.toNat < y.toNat)) = if x.ult y then 1 else 0 := by
  rw [boolW, BitVec.ult_eq_decide]

/-! ## Shifts, carry-less products, counts and bit fields (R104, R175, R178) -/

theorem toNat_mod_64 (y : W64) : (y % 64).toNat = count6 y := rfl

/-- A rotation by 0 shifts right by 0 in the rule and by 64 in the library, and both leave the word. -/
theorem rotateLeft_count6 (x y : W64) :
    x.rotateLeft (count6 y) = (x <<< (y % 64)) ||| (x >>> ((64 - y % 64) % 64)) := by
  have hlt : count6 y < 64 := Nat.mod_lt _ (by decide)
  have hback : ((64 - y % 64) % 64).toNat = (64 - count6 y) % 64 := by
    rw [BitVec.toNat_umod, BitVec.toNat_sub, toNat_mod_64]
    change (2 ^ 64 - count6 y + 64) % 2 ^ 64 % 64 = (64 - count6 y) % 64
    omega
  rw [BitVec.rotateLeft_def, Nat.mod_eq_of_lt hlt, BitVec.shiftLeft_eq', BitVec.ushiftRight_eq', toNat_mod_64, hback]
  rcases Nat.eq_zero_or_pos (count6 y) with h0 | hpos
  · rw [h0, BitVec.shiftLeft_zero, Nat.sub_zero, Nat.mod_self, BitVec.ushiftRight_eq_zero le_rfl, BitVec.ushiftRight_zero,
      BitVec.or_zero, BitVec.or_self]
  · rw [Nat.mod_eq_of_lt (Nat.sub_lt (by decide) hpos)]

theorem clmulNat_eq_clProduct (x y : W64) : clmulNat x.toNat y.toNat 64 = (clProduct x y).toNat :=
  clmulNat_toNat x y le_rfl

theorem ofNat_eq_of_toNat {w n : Nat} {v : BitVec w} (h : n = v.toNat) : BitVec.ofNat w n = v :=
  h ▸ bitVec_ofNat_toNat v

/-- Counting up from bit `i` counts the leading zeros of the reversed word from bit `m - 1` down. -/
theorem ctzFrom_eq_clzNat_reverse {n : Nat} (x : BitVec n) {i m : Nat} (h : i + m = n) :
    ctzFrom x.toNat i m = clzNat x.reverse.toNat m := by
  induction m generalizing i with
  | zero => rfl
  | succ m ih =>
    have hbit : bitOf x.reverse.toNat m = bitOf x.toNat i := by
      have hm : m < n := by omega
      have hi : n - 1 - m = i := by omega
      rw [bitOf_toNat, bitOf_toNat, BitVec.getLsbD_reverse, BitVec.getMsbD_eq_getLsbD, hi, decide_eq_true hm, Bool.true_and]
    rw [ctzFrom, clzNat, hbit, ih (by omega)]

theorem ctzNat_toNat {n : Nat} (x : BitVec n) : ctzNat x.toNat n = x.ctz.toNat := by
  rw [ctzNat, ctzFrom_eq_clzNat_reverse x (Nat.zero_add n), clzNat_toNat, BitVec.ctz_eq_reverse_clz]

theorem ofNat_fieldOf (x : W64) (p len : Nat) :
    BitVec.ofNat 64 (fieldOf x.toNat p len) = (x.extractLsb' p len).zeroExtend 64 := by
  apply BitVec.eq_of_toNat_eq
  rw [BitVec.toNat_ofNat, BitVec.toNat_setWidth, BitVec.extractLsb'_toNat, Nat.shiftRight_eq_div_pow, fieldOf]

/-- The low `len` bits of a word moved to place `p` (R178). -/
theorem ofNat_low_mul_two_pow (x : W64) (p : Nat) {len : Nat} (hlen : len ≤ 64) :
    BitVec.ofNat 64 (x.toNat % 2 ^ len * 2 ^ p) = (x.extractLsb' 0 len).zeroExtend 64 <<< p := by
  have hlow : ((x.extractLsb' 0 len).zeroExtend 64).toNat = x.toNat % 2 ^ len := by
    rw [BitVec.toNat_setWidth_of_le hlen, BitVec.extractLsb'_toNat, Nat.shiftRight_zero]
  apply BitVec.eq_of_toNat_eq
  rw [BitVec.toNat_ofNat, BitVec.toNat_shiftLeft, hlow, Nat.shiftLeft_eq]

/-! ## Ready words -/

section
variable {s s1 : State} {rk : Nat} {d a b : SReg} {x y v : W64} {i : Instr}

/-- A ready word with two sources finishes with what its function gives on the values read. -/
theorem exec_of_alu2 (h : ScalarReady s rk [a, b] (some d) [x, y] s1) (f : W64 → W64 → W64)
    (harm : exec i s = alu2 s d a b f) (hv : f x y = v) : exec i s = .next (s1.finish rk d v) := by
  rw [harm, alu2_ready h, hv]

/-- A ready word with one source finishes with what its function gives on the value read. -/
theorem exec_of_alu1 (h : ScalarReady s rk [a] (some d) [x] s1) (f : W64 → W64)
    (harm : exec i s = alu1 s d a f) (hv : f x = v) : exec i s = .next (s1.finish rk d v) := by
  rw [harm, alu1_ready h, hv]

theorem execBfext_of_fits {l p : BitVec 6} (hc : s.cur = .scalar rk) (hfit : p.toNat + l.toNat + 1 ≤ 64) :
    execBfext d a l p s = alu1 s d a fun x => BitVec.ofNat 64 (fieldOf x.toNat p.toNat (l.toNat + 1)) := by
  simp only [execBfext, hc, if_neg hfit.not_gt]

theorem execBfins_of_fits {l p : BitVec 6} (hc : s.cur = .scalar rk) (hfit : p.toNat + l.toNat + 1 ≤ 64) :
    execBfins d a l p s = alu1 s d a fun x => BitVec.ofNat 64 (x.toNat % 2 ^ (l.toNat + 1) * 2 ^ p.toNat) := by
  simp only [execBfins, hc, if_neg hfit.not_gt]

theorem execSel_ready {c : W64} (h : ScalarReady s rk [a, b, d] (some d) [x, y, c] s1) :
    execSel d a b s = .next (s1.finish rk d (if c = 0 then y else x)) := by
  rw [execSel, scalarOp_ready h]
  simp only [src, List.getD_cons_succ, List.getD_cons_zero, ne_eq, ite_not]

theorem execLi_ready (h : ScalarReady s rk [] (some d) [] s1) (n : BitVec 19) :
    execLi d n s = .next (s1.finish rk d (n.signExtend 64)) := scalarOp_ready h _

end

/-! ## LIX and LIH (R179) -/

section
variable {s : State} {rk : Nat} (hc : s.cur = .scalar rk) (w : W32)
include hc

theorem execLix_reg (n : Fin 48) : execLix (.s n) w s =
    .next ((s.updRole rk fun r => r.setSreg n.val (w.signExtend 64)).advance rk 8) := by
  simp only [execLix, hc, State.writeField]

theorem execLih_reg (n : Fin 48) : execLih (.s n) w s =
    .next ((s.updRole rk fun r => r.setSreg n.val (w ++ (r.sreg n.val).extractLsb' 0 32)).advance rk 8) := by
  simp only [execLih, hc, State.writeField, State.updRole]

theorem execLix_queue (q : Fin 16) : execLix (.q q) w s = .next (s.raiseS rk .illegal 0) := by
  simp only [execLix, hc, illegalS]

theorem execLih_queue (q : Fin 16) : execLih (.q q) w s = .next (s.raiseS rk .illegal 0) := by
  simp only [execLih, hc, illegalS]

end

/-! ## The statements -/

/-- Settles O1: each word is one two-source word of the model (`rfl`), and the lemma cited says that its function is the
operation that the statement names. -/
theorem scalarTwoSourceResults : Obligations.ScalarTwoSourceResults := by
  intro s s1 rk d a b x y h gives
  refine ⟨?add, ?sub, ?mul, ?mulh, ?mulhn, ?div, ?divn, ?rem, ?remn, ?and, ?or, ?xor, ?andn, ?shl, ?shr, ?sra, ?rot, ?min,
    ?max, ?minn, ?maxn, ?clmul, ?clmulh, ?seq, ?sne, ?slt, ?sltn⟩
  case add => exact exec_of_alu2 h (fun x y => x + y) rfl rfl
  case sub => exact exec_of_alu2 h (fun x y => x - y) rfl rfl
  case mul => exact exec_of_alu2 h (fun x y => x * y) rfl rfl
  case mulh => exact exec_of_alu2 h mulHigh rfl (mulHigh_eq_extractLsb' x y)
  case mulhn => exact exec_of_alu2 h mulHighN rfl (mulHighN_eq_extractLsb' x y)
  case div => exact exec_of_alu2 h divS rfl (divS_eq_sdiv x y)
  case divn => exact exec_of_alu2 h divN rfl (divN_eq_udiv x y)
  case rem => exact exec_of_alu2 h remS rfl (remS_eq_srem x y)
  case remn => exact exec_of_alu2 h remN rfl (remN_eq_umod x y)
  case and => exact exec_of_alu2 h (fun x y => x &&& y) rfl rfl
  case or => exact exec_of_alu2 h (fun x y => x ||| y) rfl rfl
  case xor => exact exec_of_alu2 h (fun x y => x ^^^ y) rfl rfl
  case andn => exact exec_of_alu2 h (fun x y => x &&& ~~~y) rfl rfl
  case shl => exact exec_of_alu2 h (fun x y => x <<< count6 y) rfl rfl
  case shr => exact exec_of_alu2 h (fun x y => x >>> count6 y) rfl rfl
  case sra => exact exec_of_alu2 h (fun x y => x.sshiftRight (count6 y)) rfl rfl
  case rot => exact exec_of_alu2 h (fun x y => x.rotateLeft (count6 y)) rfl (rotateLeft_count6 x y)
  case min => exact exec_of_alu2 h minS rfl (minS_eq_slt x y)
  case max => exact exec_of_alu2 h maxS rfl (maxS_eq_slt x y)
  case minn => exact exec_of_alu2 h minN rfl (minN_eq_ult x y)
  case maxn => exact exec_of_alu2 h maxN rfl (maxN_eq_ult x y)
  case clmul =>
    have hlow : BitVec.ofNat 64 (clmulNat x.toNat y.toNat 64) = (clProduct x y).extractLsb' 0 64 := by
      rw [clmulNat_eq_clProduct, BitVec.extractLsb', Nat.shiftRight_zero]
    exact exec_of_alu2 h (fun x y => BitVec.ofNat 64 (clmulNat x.toNat y.toNat 64)) rfl hlow
  case clmulh =>
    have hhigh : BitVec.ofNat 64 (clmulNat x.toNat y.toNat 64 / 2 ^ 64) = (clProduct x y).extractLsb' 64 64 := by
      rw [clmulNat_eq_clProduct, BitVec.extractLsb', Nat.shiftRight_eq_div_pow]
    exact exec_of_alu2 h (fun x y => BitVec.ofNat 64 (clmulNat x.toNat y.toNat 64 / 2 ^ 64)) rfl hhigh
  case seq => exact exec_of_alu2 h (fun x y => boolW (x == y)) rfl (boolW_beq x y)
  case sne => exact exec_of_alu2 h (fun x y => boolW (x != y)) rfl (boolW_bne x y)
  case slt => exact exec_of_alu2 h (fun x y => boolW (decide (x.toInt < y.toInt))) rfl (boolW_toInt_lt x y)
  case sltn => exact exec_of_alu2 h (fun x y => boolW (decide (x.toNat < y.toNat))) rfl (boolW_toNat_lt x y)

/-- Settles O2: the words with one source as in `scalarTwoSourceResults`, where a bit field lies inside the word; SEL by its
three sources; the constants by the rules of `execLi`, `execLix` and `execLih`. -/
theorem scalarOneSourceResults : Obligations.ScalarOneSourceResults := by
  refine ⟨?oneSource, ?sel, ?constants⟩
  case oneSource =>
    intro s s1 rk d a x i n l p h gives
    refine ⟨?clz, ?ctz, ?popc, ?brev, ?addi, ?andi, ?ori, ?xori, ?shli, ?shri, ?srai, fun hfit => ⟨?bfext, ?bfins⟩⟩
    case clz => exact exec_of_alu1 h (fun x => BitVec.ofNat 64 (clzNat x.toNat 64)) rfl (ofNat_eq_of_toNat (clzNat_toNat x))
    case ctz => exact exec_of_alu1 h (fun x => BitVec.ofNat 64 (ctzNat x.toNat 64)) rfl (ofNat_eq_of_toNat (ctzNat_toNat x))
    case popc =>
      exact exec_of_alu1 h (fun x => BitVec.ofNat 64 (popcNat x.toNat 64)) rfl (ofNat_eq_of_toNat (popcNat_toNat x))
    case brev =>
      exact exec_of_alu1 h (fun x => BitVec.ofNat 64 (brevNat x.toNat 64 64)) rfl (ofNat_eq_of_toNat (brevNat_toNat x))
    case addi => exact exec_of_alu1 h (fun x => x + i.signExtend 64) rfl rfl
    case andi => exact exec_of_alu1 h (fun x => x &&& i.zeroExtend 64) rfl rfl
    case ori => exact exec_of_alu1 h (fun x => x ||| i.zeroExtend 64) rfl rfl
    case xori => exact exec_of_alu1 h (fun x => x ^^^ i.zeroExtend 64) rfl rfl
    case shli => exact exec_of_alu1 h (fun x => x <<< n.toNat) rfl rfl
    case shri => exact exec_of_alu1 h (fun x => x >>> n.toNat) rfl rfl
    case srai => exact exec_of_alu1 h (fun x => x.sshiftRight n.toNat) rfl rfl
    case bfext => exact exec_of_alu1 h _ (execBfext_of_fits h.cur hfit) (ofNat_fieldOf x p.toNat (l.toNat + 1))
    case bfins => exact exec_of_alu1 h _ (execBfins_of_fits h.cur hfit) (ofNat_low_mul_two_pow x p.toNat l.isLt)
  case sel =>
    intro s s1 rk d a b x y c h
    exact execSel_ready h
  case constants =>
    intro s s1 rk d n i w
    exact ⟨fun h => execLi_ready h i, fun hc => ⟨execLix_reg hc w n, execLih_reg hc w n, fun q =>
      ⟨execLix_queue hc w q, execLih_queue hc w q⟩⟩⟩

end Sys2Proof.Machine
end

section
/-! PROOFS. The round trip of encoding and decoding: the law of each instruction (Laws.RoundTrip), put together for the
words of the scalar stream (R62 to R71) and for those of the lane stream and of depot code (R72 to R78, R357, R358). -/

namespace Sys2Proof.Laws
open Sys2Proof Sys2Proof.Machine

/-- Every scalar word survives encoding and decoding (R62 to R71). -/
theorem roundTrips_of_isScalarWord {i : Instr} (h : i.isScalarWord = true) : RoundTrips i := by
  cases i with
  | add d a b => exact RoundTrip.add d a b rfl
  | sub d a b => exact RoundTrip.sub d a b rfl
  | mul d a b => exact RoundTrip.mul d a b rfl
  | mulh d a b => exact RoundTrip.mulh d a b rfl
  | mulhn d a b => exact RoundTrip.mulhn d a b rfl
  | div d a b => exact RoundTrip.div d a b rfl
  | divn d a b => exact RoundTrip.divn d a b rfl
  | rem d a b => exact RoundTrip.rem d a b rfl
  | remn d a b => exact RoundTrip.remn d a b rfl
  | and d a b => exact RoundTrip.and d a b rfl
  | or d a b => exact RoundTrip.or d a b rfl
  | xor d a b => exact RoundTrip.xor d a b rfl
  | andn d a b => exact RoundTrip.andn d a b rfl
  | shl d a b => exact RoundTrip.shl d a b rfl
  | shr d a b => exact RoundTrip.shr d a b rfl
  | sra d a b => exact RoundTrip.sra d a b rfl
  | rot d a b => exact RoundTrip.rot d a b rfl
  | min d a b => exact RoundTrip.min d a b rfl
  | max d a b => exact RoundTrip.max d a b rfl
  | minn d a b => exact RoundTrip.minn d a b rfl
  | maxn d a b => exact RoundTrip.maxn d a b rfl
  | clz d a => exact RoundTrip.clz d a rfl
  | ctz d a => exact RoundTrip.ctz d a rfl
  | popc d a => exact RoundTrip.popc d a rfl
  | brev d a => exact RoundTrip.brev d a rfl
  | clmul d a b => exact RoundTrip.clmul d a b rfl
  | clmulh d a b => exact RoundTrip.clmulh d a b rfl
  | sel d a b => exact RoundTrip.sel d a b rfl
  | seq d a b => exact RoundTrip.seq d a b rfl
  | sne d a b => exact RoundTrip.sne d a b rfl
  | slt d a b => exact RoundTrip.slt d a b rfl
  | sltn d a b => exact RoundTrip.sltn d a b rfl
  | jr a => exact RoundTrip.jr a rfl
  | ret => exact RoundTrip.ret rfl
  | fence scope => exact RoundTrip.fence scope rfl
  | qfence mask scope => exact RoundTrip.qfence mask scope rfl
  | barav a => exact RoundTrip.barav a rfl
  | barwt a => exact RoundTrip.barwt a rfl
  | waita d a b => exact RoundTrip.waita d a b rfl
  | yield => exact RoundTrip.yield rfl
  | exit => exact RoundTrip.exit rfl
  | vdrain => exact RoundTrip.vdrain rfl
  | view i a => exact RoundTrip.view i a rfl
  | gang a => exact RoundTrip.gang a rfl
  | mset g a => exact RoundTrip.mset g a rfl
  | txcommit a b => exact RoundTrip.txcommit a b rfl
  | txabort => exact RoundTrip.txabort rfl
  | launch d a => exact RoundTrip.launch d a rfl
  | perf a b => exact RoundTrip.perf a b rfl
  | clnr a b => exact RoundTrip.clnr a b rfl
  | invr a b => exact RoundTrip.invr a b rfl
  | cliv a b => exact RoundTrip.cliv a b rfl
  | tret => exact RoundTrip.tret rfl
  | nop => exact RoundTrip.nop rfl
  | brk => exact RoundTrip.brk rfl
  | relay => exact RoundTrip.relay rfl
  | wbsync a => exact RoundTrip.wbsync a rfl
  | atomAdd d a b sc => exact RoundTrip.atomAdd d a b sc rfl
  | atomAnd d a b sc => exact RoundTrip.atomAnd d a b sc rfl
  | atomOr d a b sc => exact RoundTrip.atomOr d a b sc rfl
  | atomXor d a b sc => exact RoundTrip.atomXor d a b sc rfl
  | atomMin d a b sc => exact RoundTrip.atomMin d a b sc rfl
  | atomMax d a b sc => exact RoundTrip.atomMax d a b sc rfl
  | atomMinn d a b sc => exact RoundTrip.atomMinn d a b sc rfl
  | atomMaxn d a b sc => exact RoundTrip.atomMaxn d a b sc rfl
  | atomSwap d a b sc => exact RoundTrip.atomSwap d a b sc rfl
  | atomCas d a b sc => exact RoundTrip.atomCas d a b sc rfl
  | atomBfim d a b sc => exact RoundTrip.atomBfim d a b sc rfl
  | atomFfcs d a b sc => exact RoundTrip.atomFfcs d a b sc rfl
  | atomPlset d a b sc => exact RoundTrip.atomPlset d a b sc rfl
  | addi d a i => exact RoundTrip.addi d a i rfl
  | andi d a i => exact RoundTrip.andi d a i rfl
  | ori d a i => exact RoundTrip.ori d a i rfl
  | xori d a i => exact RoundTrip.xori d a i rfl
  | shli d a i => exact RoundTrip.shli d a i rfl
  | shri d a i => exact RoundTrip.shri d a i rfl
  | srai d a i => exact RoundTrip.srai d a i rfl
  | bfext d a lenM1 pos => exact RoundTrip.bfext d a lenM1 pos rfl
  | bfins d a lenM1 pos => exact RoundTrip.bfins d a lenM1 pos rfl
  | ld d a w off => exact RoundTrip.ld d a w off rfl
  | st d a w off => exact RoundTrip.st d a w off rfl
  | sld d a w off => exact RoundTrip.sld d a w off rfl
  | sst d a w off => exact RoundTrip.sst d a w off rfl
  | trap code => exact RoundTrip.trap code rfl
  | sysrd d num => exact RoundTrip.sysrd d num rfl
  | syswr a num => exact RoundTrip.syswr a num rfl
  | beq d a i => exact RoundTrip.beq d a i rfl
  | bne d a i => exact RoundTrip.bne d a i rfl
  | blt d a i => exact RoundTrip.blt d a i rfl
  | bge d a i => exact RoundTrip.bge d a i rfl
  | bltn d a i => exact RoundTrip.bltn d a i rfl
  | bgen d a i => exact RoundTrip.bgen d a i rfl
  | li d i => exact RoundTrip.li d i rfl
  | jmp i => exact RoundTrip.jmp i rfl
  | call i => exact RoundTrip.call i rfl
  | vrun lenM1 idx => exact RoundTrip.vrun lenM1 idx rfl
  | lih d i => exact RoundTrip.lih d i rfl
  | lix d i => exact RoundTrip.lix d i rfl
  | _ => cases h

/-- Every lane or depot word survives encoding and decoding (R72 to R78, R357, R358). -/
theorem roundTrips_of_isLaneWord {i : Instr} (h : i.isLaneWord = true) : RoundTrips i := by
  cases i with
  | vadd c t sat d a b => exact RoundTrip.vadd c t sat d a b rfl
  | vsub c t sat d a b => exact RoundTrip.vsub c t sat d a b rfl
  | vmul c t d a b => exact RoundTrip.vmul c t d a b rfl
  | vmulh c t d a b => exact RoundTrip.vmulh c t d a b rfl
  | vmad c t d a b x => exact RoundTrip.vmad c t d a b x rfl
  | vmin c t d a b => exact RoundTrip.vmin c t d a b rfl
  | vmax c t d a b => exact RoundTrip.vmax c t d a b rfl
  | vabs c w64 sat d a => exact RoundTrip.vabs c w64 sat d a rfl
  | vand c w64 d a b => exact RoundTrip.vand c w64 d a b rfl
  | vor c w64 d a b => exact RoundTrip.vor c w64 d a b rfl
  | vxor c w64 d a b => exact RoundTrip.vxor c w64 d a b rfl
  | vandn c w64 d a b => exact RoundTrip.vandn c w64 d a b rfl
  | vshl c w64 d a b => exact RoundTrip.vshl c w64 d a b rfl
  | vshr c w64 d a b => exact RoundTrip.vshr c w64 d a b rfl
  | vsra c w64 d a b => exact RoundTrip.vsra c w64 d a b rfl
  | vrot c w64 d a b => exact RoundTrip.vrot c w64 d a b rfl
  | vpopc c w64 d a => exact RoundTrip.vpopc c w64 d a rfl
  | vclz c w64 d a => exact RoundTrip.vclz c w64 d a rfl
  | vbrev c w64 d a => exact RoundTrip.vbrev c w64 d a rfl
  | vbfext c t f d a => exact RoundTrip.vbfext c t f d a rfl
  | vbfins c w64 f d a x => exact RoundTrip.vbfins c w64 f d a x rfl
  | vclmul c w64 high d a b => exact RoundTrip.vclmul c w64 high d a b rfl
  | vsel c w64 ks d a b => exact RoundTrip.vsel c w64 ks d a b rfl
  | vcmp c t cond kd a b => exact RoundTrip.vcmp c t cond kd a b rfl
  | vaddImm c t sat d a i => exact RoundTrip.vaddImm c t sat d a i rfl
  | vsubImm c t sat d a i => exact RoundTrip.vsubImm c t sat d a i rfl
  | vmulImm c t d a i => exact RoundTrip.vmulImm c t d a i rfl
  | vminImm c t d a i => exact RoundTrip.vminImm c t d a i rfl
  | vmaxImm c t d a i => exact RoundTrip.vmaxImm c t d a i rfl
  | vandImm c w64 d a i => exact RoundTrip.vandImm c w64 d a i rfl
  | vorImm c w64 d a i => exact RoundTrip.vorImm c w64 d a i rfl
  | vxorImm c w64 d a i => exact RoundTrip.vxorImm c w64 d a i rfl
  | vandnImm c w64 d a i => exact RoundTrip.vandnImm c w64 d a i rfl
  | vcmpImm c t cond kd a i => exact RoundTrip.vcmpImm c t cond kd a i rfl
  | vfadd c m d a b => exact RoundTrip.vfadd c m d a b rfl
  | vfsub c m d a b => exact RoundTrip.vfsub c m d a b rfl
  | vfmul c m d a b => exact RoundTrip.vfmul c m d a b rfl
  | vfma c m na nc d a b x => exact RoundTrip.vfma c m na nc d a b x rfl
  | vfmin c t d a b => exact RoundTrip.vfmin c t d a b rfl
  | vfmax c t d a b => exact RoundTrip.vfmax c t d a b rfl
  | vfcmp c cond kd a b => exact RoundTrip.vfcmp c cond kd a b rfl
  | vfrcp c m d a => exact RoundTrip.vfrcp c m d a rfl
  | vfrsq c m d a => exact RoundTrip.vfrsq c m d a rfl
  | vfsqrt c m d a => exact RoundTrip.vfsqrt c m d a rfl
  | vfexp2 c m d a => exact RoundTrip.vfexp2 c m d a rfl
  | vflog2 c m d a => exact RoundTrip.vflog2 c m d a rfl
  | vftanh c m d a => exact RoundTrip.vftanh c m d a rfl
  | vfclass c t d a => exact RoundTrip.vfclass c t d a rfl
  | vfaddImm c m d a i => exact RoundTrip.vfaddImm c m d a i rfl
  | vfsubImm c m d a i => exact RoundTrip.vfsubImm c m d a i rfl
  | vfmulImm c m d a i => exact RoundTrip.vfmulImm c m d a i rfl
  | vfminImm c t d a i => exact RoundTrip.vfminImm c t d a i rfl
  | vfmaxImm c t d a i => exact RoundTrip.vfmaxImm c t d a i rfl
  | vfcmpImm c cond kd a i => exact RoundTrip.vfcmpImm c cond kd a i rfl
  | vcvt c sf df rnd sat esel d a => exact RoundTrip.vcvt c sf df rnd sat esel d a rfl
  | vqnt c fs dsel d a b => exact RoundTrip.vqnt c fs dsel d a b rfl
  | vdqnt c fs esel d a b => exact RoundTrip.vdqnt c fs esel d a b rfl
  | vpack c df rnd sat pos d a b => exact RoundTrip.vpack c df rnd sat pos d a b rfl
  | vunpk c sf pos d a => exact RoundTrip.vunpk c sf pos d a rfl
  | vwbupd c t a b => exact RoundTrip.vwbupd c t a b rfl
  | vif sw kc kcn => exact RoundTrip.vif sw kc kcn rfl
  | velse sw => exact RoundTrip.velse sw rfl
  | vendif sw => exact RoundTrip.vendif sw rfl
  | vkand c kd ka kb => exact RoundTrip.vkand c kd ka kb rfl
  | vkor c kd ka kb => exact RoundTrip.vkor c kd ka kb rfl
  | vkxor c kd ka kb => exact RoundTrip.vkxor c kd ka kb rfl
  | vknot c kd ka => exact RoundTrip.vknot c kd ka rfl
  | vkmov c toReg k x => exact RoundTrip.vkmov c toReg k x rfl
  | vvote c m role ka d => exact RoundTrip.vvote c m role ka d rfl
  | vshfl c m w64 d a b x => exact RoundTrip.vshfl c m w64 d a b x rfl
  | vregroup c wid pushn d => exact RoundTrip.vregroup c wid pushn d rfl
  | vtos c m a => exact RoundTrip.vtos c m a rfl
  | vld c m sx data => exact RoundTrip.vld c m sx data rfl
  | vst c m wb data => exact RoundTrip.vst c m wb data rfl
  | vlds c m sx data => exact RoundTrip.vlds c m sx data rfl
  | vsts c m wb data => exact RoundTrip.vsts c m wb data rfl
  | vatom c m op red scope data => exact RoundTrip.vatom c m op red scope data rfl
  | vpref c m l2 => exact RoundTrip.vpref c m l2 rfl
  | vmma x => exact RoundTrip.vmma x rfl
  | vmmas x => exact RoundTrip.vmmas x rfl
  | vaccz sw accview => exact RoundTrip.vaccz sw accview rfl
  | vaccrd sw accview aview fsa clr wb coff => exact RoundTrip.vaccrd sw accview aview fsa clr wb coff rfl
  | vaccsc sw accview bsel add => exact RoundTrip.vaccsc sw accview bsel add rfl
  | vmov c w64 d a => exact RoundTrip.vmov c w64 d a rfl
  | vmovi c ext d i => exact RoundTrip.vmovi c ext d i rfl
  | vnop sw => exact RoundTrip.vnop sw rfl
  | dldr c m sx data => exact RoundTrip.dldr c m sx data rfl
  | dstr c m wb data => exact RoundTrip.dstr c m wb data rfl
  | dwat c a b => exact RoundTrip.dwat c a b rfl
  | dtok c a b => exact RoundTrip.dtok c a b rfl
  | dred c op a b => exact RoundTrip.dred c op a b rfl
  | dend c => exact RoundTrip.dend c rfl
  | _ => cases h

/-- Lane and depot words take 12 bytes (R72, R357). -/
theorem wordBytes_of_isLaneWord {i : Instr} (h : i.isLaneWord = true) : wordBytes i = 12 := by
  cases i <;> cases h <;> rfl

/-- Settles O57: the round trip of each scalar word. -/
theorem scalarRoundTrip : Obligations.ScalarRoundTrip :=
  fun _ hwf h => roundTrips_of_isScalarWord h hwf

/-- Settles O58: the round trip of each lane or depot word, which takes 12 bytes. -/
theorem laneRoundTrip : Obligations.LaneRoundTrip := by
  intro i hwf h
  have hrt := roundTrips_of_isLaneWord h hwf
  rwa [wordBytes_of_isLaneWord h] at hrt

end Sys2Proof.Laws
end

section
/-! PROOFS. The words written out from the encodings (R62 to R78, R357), and the state after reset. -/

namespace Sys2Proof.Machine
open Sys2Proof

/-- Settles O55: the decoder is run on each word. -/
theorem decodedWords : Obligations.DecodedWords := by
  unfold Obligations.DecodedWords
  decide

/-- Settles O56: the reset state holds no record, so each one reads as its default, and those hold the reset values. -/
theorem resetState : Obligations.ResetState := by
  refine ⟨rfl, rfl, rfl, rfl, rfl, rfl, ?clusters, ?vfs, ?hbmStacks, ?dies, rfl, rfl, ?features⟩
  case clusters => exact fun _ => ⟨rfl, rfl, rfl, rfl⟩
  case vfs => exact fun _ => rfl
  case hbmStacks => exact fun _ => rfl
  case dies => exact fun _ => ⟨rfl, rfl⟩
  case features => exact BitVec.zero_and

end Sys2Proof.Machine
end

section
/-! PROOFS. What every operation of the model keeps: the agent, the accepted and the offered features, and the canonical form
of home memory. -/

namespace Sys2Proof.Machine
open Sys2Proof

/-- `t` comes after `s` with the same agent and the same features, and with home memory in canonical form if it was. -/
structure Keeps (s t : State) : Prop where
  cur : t.cur = s.cur
  accept : t.accept = s.accept
  offer : t.offer = s.offer
  mem : s.MemOk → t.MemOk

/-- The part of the state that `Keeps` is about. -/
def State.kept (s : State) : Agent × BitVec 128 × BitVec 128 × NMap Byte := (s.cur, s.accept, s.offer, s.hbm)

/-- What `Keeps` asks of an outcome. -/
def KeepsRes (s : State) : Res → Prop
  | .next t => Keeps s t
  | _ => True

variable {s₀ s t : State}

@[simp] theorem Keeps.refl (s : State) : Keeps s s := ⟨rfl, rfl, rfl, id⟩

theorem Keeps.trans {u : State} (h : Keeps s t) (g : Keeps t u) : Keeps s u :=
  ⟨g.cur.trans h.cur, g.accept.trans h.accept, g.offer.trans h.offer, fun m => g.mem (h.mem m)⟩

/-- An update of other fields. -/
theorem Keeps.same (h : Keeps s₀ s) (e : t.kept = s.kept := by rfl) : Keeps s₀ t := by
  simp only [State.kept, Prod.mk.injEq] at e
  obtain ⟨hc, ha, ho, hm⟩ := e
  exact ⟨hc.trans h.cur, ha.trans h.accept, ho.trans h.offer, fun m => by
    rw [State.MemOk, hm]; exact h.mem m⟩

/-- An update of other fields, with the state before it left to be found. -/
theorem Keeps.update {a1 a2 a3 a4 a5 a6 a7 a8 a9 a10 a11 a12 a13 a14 a15 a16 a17 a18 a19 a20 a21 a22 a23 a24 a25 a26 a27 a28 a29
    a30 a31 a32 a33 a34 a35 a36} (h : Keeps s₀ s) :
    Keeps s₀ ⟨s.cur, a1, a2, a3, a4, a5, s.offer, s.accept, a6, a7, a8, a9, a10, a11, a12, a13, a14, a15, a16, a17, a18, a19, a20,
      a21, a22, s.hbm, a23, a24, a25, a26, a27, a28, a29, a30, a31, a32, a33, a34, a35, a36⟩ := h.same

/-- The state in a pair. -/
theorem Keeps.ofFst {α : Type} {p : State × α} {a : α} (h : Keeps s₀ p.1) (e : p = (t, a)) : Keeps s₀ t := by
  rwa [e] at h

/-- See `ofFst`. -/
theorem Keeps.ofSnd {α : Type} {p : α × State} {a : α} (h : Keeps s₀ p.2) (e : p = (a, t)) : Keeps s₀ t := by
  rwa [e] at h

theorem Keeps.memStep (h : Keeps s₀ s) (m : MemStep s t) : Keeps s₀ t := by
  refine h.trans ?_
  have hrest := m.rest
  exact ⟨(congrArg State.cur hrest :), (congrArg State.accept hrest :), (congrArg State.offer hrest :), m.wf⟩

theorem Keeps.foldl {β : Type} {f : State → β → State} {l : List β} (h : Keeps s₀ s)
    (hf : ∀ t x, Keeps s₀ t → Keeps s₀ (f t x)) : Keeps s₀ (l.foldl f s) := by
  induction l generalizing s with
  | nil => exact h
  | cons x xs ih => exact ih (hf s x h)

theorem Keeps.setHome {pa : Nat} {b : Byte} (h : Keeps s₀ s) : Keeps s₀ (s.setHome pa b) := h.memStep (memStep_setHome s pa b)

theorem Keeps.writeBack {line : Nat} (h : Keeps s₀ s) : Keeps s₀ (s.writeBack line) := h.memStep (memStep_writeBack s line)

theorem Keeps.recallGrain {g : Nat} (h : Keeps s₀ s) : Keeps s₀ (s.recallGrain g) := h.memStep (memStep_recallGrain s g)

theorem Keeps.storeX {c : Holder} {x : Xlat} {bs : List Byte} (h : Keeps s₀ s) : Keeps s₀ (s.storeX c x bs) :=
  h.memStep (memStep_storeX s c x bs)

theorem Keeps.homeWriteX {x : Xlat} {bs : List Byte} (h : Keeps s₀ s) : Keeps s₀ (s.homeWriteX x bs) :=
  h.memStep (memStep_homeWriteX s x bs)

theorem Keeps.depotWriteX {x : Xlat} {bs : List Byte} (h : Keeps s₀ s) : Keeps s₀ (s.depotWriteX x bs) :=
  h.memStep (memStep_depotWriteX s x bs)

theorem Keeps.invLine {line : Nat} (h : Keeps s₀ s) : Keeps s₀ (s.invLine line) := h.memStep (memStep_invLine s line)

end Sys2Proof.Machine
end

section
/-! PROOFS. Every operation of the model, in the order of its files: the agent, the features and the form of home memory are
kept. -/

namespace Sys2Proof.Machine
open Sys2Proof

-- The lemmas are elaborated one by one: hundreds of short proofs at once would each wait for those that they cite.
set_option Elab.async false

variable {s₀ s t : State}

/-! ## The operations of `Machine/Access` -/

theorem Keeps.setRole {rk : Nat} {r : Role} (h : Keeps s₀ s) : Keeps s₀ (s.setRole rk r) := h.same

theorem Keeps.updRole {rk : Nat} {f : Role → Role} (h : Keeps s₀ s) : Keeps s₀ (s.updRole rk f) := by
  unfold State.updRole
  exact h.setRole

theorem Keeps.setTeam {tk : Nat} {dt : Team} (h : Keeps s₀ s) : Keeps s₀ (s.setTeam tk dt) := h.same

theorem Keeps.updTeam {tk : Nat} {f : Team → Team} (h : Keeps s₀ s) : Keeps s₀ (s.updTeam tk f) := by
  unfold State.updTeam
  exact h.setTeam

theorem Keeps.updLaunch {lid : Nat} {f : Launch → Launch} (h : Keeps s₀ s) : Keeps s₀ (s.updLaunch lid f) := h.same

theorem Keeps.updVf {vf : Nat} {f : Vf → Vf} (h : Keeps s₀ s) : Keeps s₀ (s.updVf vf f) := h.same

theorem Keeps.updPart {p : Nat} {f : Part → Part} (h : Keeps s₀ s) : Keeps s₀ (s.updPart p f) := h.same

theorem Keeps.updCluster {c : Nat} {f : Cluster → Cluster} (h : Keeps s₀ s) : Keeps s₀ (s.updCluster c f) := h.same

theorem Keeps.updCore {c : Nat} {f : Core → Core} (h : Keeps s₀ s) : Keeps s₀ (s.updCore c f) := h.same

theorem Keeps.updDie {d : Nat} {f : Die → Die} (h : Keeps s₀ s) : Keeps s₀ (s.updDie d f) := h.same

theorem Keeps.updStk {k : Nat} {f : Stack → Stack} (h : Keeps s₀ s) : Keeps s₀ (s.updStk k f) := h.same

/-! ## The operations of `Machine/Class` -/

theorem Keeps.adopt {c : Nat} (h : Keeps s₀ s) : Keeps s₀ (s.adopt c) := by
  unfold State.adopt
  dsimp only
  split
  · exact h
  · exact h.updCluster

/-! ## The operations of `Machine/Memory` -/

theorem Keeps.fillTlb {part ia : Nat} (h : Keeps s₀ s) : Keeps s₀ (s.fillTlb part ia) := by
  unfold State.fillTlb
  dsimp only
  split
  · exact h.updDie
  · exact h

theorem Keeps.dropTlb {part ia : Nat} (h : Keeps s₀ s) : Keeps s₀ (s.dropTlb part ia) := h.same

theorem Keeps.dropDirty {line : Nat} (h : Keeps s₀ s) : Keeps s₀ (s.dropDirty line) := h.same

theorem Keeps.noteWrite {line : Nat} (h : Keeps s₀ s) : Keeps s₀ (s.noteWrite line) := h.same

theorem Keeps.startService {tk vpn : Nat} {who : Option Asker} (h : Keeps s₀ s) :
    Keeps s₀ (s.startService tk vpn who) := by
  unfold State.startService
  exact h.updTeam

theorem Keeps.startServices {tk : Nat} {vs : List Nat} {who : Option Asker} (h : Keeps s₀ s) :
    Keeps s₀ (s.startServices tk vs who) := by
  unfold State.startServices
  exact h.foldl fun t x ht => ht.startService

theorem Keeps.noteScratch {tk ea n : Nat} (h : Keeps s₀ s) : Keeps s₀ (s.noteScratch tk ea n) := by
  unfold State.noteScratch
  exact h.updTeam

theorem Keeps.storeBack {tk ea : Nat} {bs : List Byte} (h : Keeps s₀ s) : Keeps s₀ (s.storeBack tk ea bs) := by
  unfold State.storeBack
  dsimp only
  refine h.foldl fun t x ht => ?_
  split
  · split
    · exact ht.storeX
    · exact ht
  · exact ht

theorem Keeps.scratchStore {tk ea : Nat} {bs : List Byte} (h : Keeps s₀ s) : Keeps s₀ (s.scratchStore tk ea bs) := by
  unfold State.scratchStore
  exact h.updTeam.storeBack

theorem Keeps.backFull {tk g : Nat} {v : Bool} (h : Keeps s₀ s) : Keeps s₀ (s.backFull tk g v) := by
  unfold State.backFull
  dsimp only
  split
  · split
    · exact h.homeWriteX
    · exact h
  · exact h

theorem Keeps.setFull {tk ea n : Nat} {v : Bool} (h : Keeps s₀ s) : Keeps s₀ (s.setFull tk ea n v) := by
  unfold State.setFull
  exact h.updTeam.foldl fun t x ht => ht.backFull

theorem Keeps.logAdd {tk : Nat} {es : List WEntry} (h : Keeps s₀ s) : Keeps s₀ (s.logAdd tk es) := by
  unfold State.logAdd
  exact h.updTeam

/-! ## The operations of `Machine/Ops` -/

theorem Keeps.ringWrite {vf : Nat} {r : FaultRec} (h : Keeps s₀ s) (e : s.ringWrite vf r = some t) : Keeps s₀ t := by
  unfold State.ringWrite at e
  dsimp only at e
  split at e
  · cases e
  · split at e
    · cases e
      exact h.homeWriteX.updVf.update
    · cases e

theorem Keeps.flushFrom {vf : Nat} {rs : List FaultRec} (h : Keeps s₀ s) : Keeps s₀ (s.flushFrom vf rs) := by
  induction rs generalizing s with
  | nil => exact h
  | cons r rs ih =>
    unfold State.flushFrom
    split
    · exact ih h
    · split
      · exact h
      · exact ih (h.ringWrite ‹_›).updVf

theorem Keeps.flushRecs {vf : Nat} (h : Keeps s₀ s) : Keeps s₀ (s.flushRecs vf) := by
  unfold State.flushRecs
  exact h.flushFrom

theorem Keeps.pushRec {vf : Nat} {r : FaultRec} (h : Keeps s₀ s) : Keeps s₀ (s.pushRec vf r) := by
  unfold State.pushRec
  exact h.updVf

theorem Keeps.putRec {vf : Nat} {r : FaultRec} (h : Keeps s₀ s) : Keeps s₀ (s.putRec vf r) := by
  unfold State.putRec
  split
  · exact h.pushRec
  · split
    · exact (h.ringWrite ‹_›).pushRec
    · exact h.pushRec

theorem Keeps.addRec {vf : Nat} {i : RecInfo} {stops : Option Nat} (h : Keeps s₀ s) :
    Keeps s₀ (s.addRec vf i stops) := by
  unfold State.addRec
  dsimp only
  exact Keeps.putRec (h.update)

theorem Keeps.raise {rk : Nat} {lane : Bool} {c : Code} {sub va pa lanes : Nat} (h : Keeps s₀ s) :
    Keeps s₀ (s.raise rk lane c sub va pa lanes) := by
  unfold State.raise
  dsimp only
  split
  · exact h.addRec
  · split
    · exact h.addRec.updRole.updTeam
    · exact h.addRec.updRole

theorem Keeps.raiseS {rk : Nat} {c : Code} {va : Nat} (h : Keeps s₀ s) : Keeps s₀ (s.raiseS rk c va) := by
  unfold State.raiseS
  exact h.raise

theorem Keeps.raiseL {rk : Nat} {c : Code} (h : Keeps s₀ s) : Keeps s₀ (s.raiseL rk c) := by
  unfold State.raiseL
  exact h.raise

theorem Keeps.evictTeam {tk : Nat} (h : Keeps s₀ s) : Keeps s₀ (s.evictTeam tk) := by
  unfold State.evictTeam
  dsimp only
  exact Keeps.updCore (h.update)

theorem Keeps.requestVf {vf cause : Nat} (h : Keeps s₀ s) : Keeps s₀ (s.requestVf vf cause) := h.same

theorem Keeps.charge {core vf nominal : Nat} (h : Keeps s₀ s) : Keeps s₀ (s.charge core vf nominal) := by
  unfold State.charge
  exact h.updCore

theorem Keeps.chargeTeam {tk nominal : Nat} (h : Keeps s₀ s) : Keeps s₀ (s.chargeTeam tk nominal) := by
  unfold State.chargeTeam
  dsimp only
  exact h.charge.updTeam

theorem Keeps.stallLine {w : Waiter} {line : Nat} (h : Keeps s₀ s) : Keeps s₀ (s.stallLine w line) := by
  unfold State.stallLine
  dsimp only
  split
  · exact h
  · exact h.updStk

theorem Keeps.stallAll {w : Waiter} {lines : List Nat} (h : Keeps s₀ s) : Keeps s₀ (s.stallAll w lines) := by
  unfold State.stallAll
  exact h.foldl fun t x ht => ht.stallLine

theorem Keeps.settleCmds {tk : Nat} (h : Keeps s₀ s) : Keeps s₀ (s.settleCmds tk) := by
  unfold State.settleCmds
  dsimp only
  split
  · exact h
  · exact h.chargeTeam

theorem Keeps.postMeter {core vf : Nat} (h : Keeps s₀ s) : Keeps s₀ (s.postMeter core vf) := by
  unfold State.postMeter
  dsimp only
  split
  · exact h
  · split
    · exact h.updCore.updVf.updVf.requestVf
    · exact h.updCore.updVf

theorem Keeps.abortTeam {tk cause : Nat} (h : Keeps s₀ s) : Keeps s₀ (s.abortTeam tk cause) := by
  unfold State.abortTeam
  have hs : Keeps s₀ (s.settleCmds tk) := h.settleCmds
  generalize s.settleCmds tk = u at hs
  exact hs.evictTeam.updTeam.updCore.updLaunch.postMeter.adopt

theorem Keeps.machineCheck {rk : Nat} {lane : Bool} {sub va pa lanes : Nat} (h : Keeps s₀ s) :
    Keeps s₀ (s.machineCheck rk lane sub va pa lanes) := by
  unfold State.machineCheck
  split
  · exact h.addRec.abortTeam
  · exact h.raise

theorem Keeps.machineChecks {rks : List Nat} {sub va pa lanes : Nat} (h : Keeps s₀ s) :
    Keeps s₀ (s.machineChecks rks sub va pa lanes) := by
  unfold State.machineChecks
  split
  · exact h
  · split
    · refine Keeps.abortTeam ?_
      exact h.foldl fun t x ht => ht.addRec
    · exact h.foldl fun t x ht => ht.raise

theorem Keeps.headFault {rk : Nat} {en : LogEntry} {c : Code} {sub va pa lanes : Nat} (h : Keeps s₀ s) :
    Keeps s₀ (s.headFault rk en c sub va pa lanes) := by
  unfold State.headFault
  dsimp only
  exact h.addRec.updRole

theorem Keeps.headCheck {rk : Nat} {en : LogEntry} {sub va pa lanes : Nat} (h : Keeps s₀ s) :
    Keeps s₀ (s.headCheck rk en sub va pa lanes) := by
  unfold State.headCheck
  split
  · exact h.addRec.abortTeam
  · exact h.headFault

theorem Keeps.unjoin {w : LxWord} (h : Keeps s₀ s) : Keeps s₀ (s.unjoin w) := by
  unfold State.unjoin
  split
  · exact h.foldl fun t x ht => ht.updRole
  · exact h

theorem Keeps.unhold {rk : Nat} (h : Keeps s₀ s) : Keeps s₀ (s.unhold rk) := by
  unfold State.unhold
  split
  · exact h
  · exact h.unjoin.updTeam.updRole

theorem Keeps.userTrap {rk cause code : Nat} {lane : Bool} {resume : W64} (h : Keeps s₀ s) :
    Keeps s₀ (s.userTrap rk cause code lane resume) := by
  unfold State.userTrap
  dsimp only
  split
  · exact h.unhold.updRole.update
  · exact h.raise.updRole

theorem Keeps.popHead {rk q : Nat} (h : Keeps s₀ s) : Keeps s₀ (s.popHead rk q) := by
  unfold State.popHead
  split
  · exact h.updRole
  · split
    · exact h.updRole
    · exact h.updTeam

theorem Keeps.scribble {vf va n : Nat} (h : Keeps s₀ s) : Keeps s₀ (s.scribble vf va n) := by
  unfold State.scribble
  dsimp only
  refine Keeps.update ?_
  refine h.foldl fun t x ht => ?_
  split
  · exact ht.homeWriteX
  · exact ht

theorem Keeps.noteOverflow {rk q : Nat} (h : Keeps s₀ s) : Keeps s₀ (s.noteOverflow rk q) := by
  unfold State.noteOverflow
  split
  · exact h
  · exact Keeps.update h.scribble

theorem Keeps.addEvents {rk : Nat} {ws : List W64} (h : Keeps s₀ s) : Keeps s₀ (s.addEvents rk ws) := by
  unfold State.addEvents
  exact h.foldl fun t x ht => ht.noteOverflow.updTeam

theorem Keeps.discardQ {rk q : Nat} (h : Keeps s₀ s) : Keeps s₀ (s.discardQ rk q) := by
  unfold State.discardQ
  dsimp only
  exact h.updRole.addEvents

theorem Keeps.failQ {rk q : Nat} {w : W64} (h : Keeps s₀ s) : Keeps s₀ (s.failQ rk q w) := by
  unfold State.failQ
  exact h.updRole.discardQ

theorem Keeps.pushEng {rk q : Nat} {w : W64} {seed : W32} {sp : Nat × Nat} (h : Keeps s₀ s) :
    Keeps s₀ (s.pushEng rk q w seed sp) := by
  unfold State.pushEng
  dsimp only
  split
  · exact h.updRole.discardQ
  · exact h.updRole

theorem Keeps.seedDraw {rk q : Nat} {header : Bool} {w : W64} (h : Keeps s₀ s) :
    Keeps s₀ (s.seedDraw rk q header w).2 := by
  unfold State.seedDraw
  split
  · dsimp only
    exact h.updRole
  · exact h

theorem Keeps.pushQ {rk q : Nat} {w : W64} (h : Keeps s₀ s) : Keeps s₀ (s.pushQ rk q w) := by
  unfold State.pushQ
  dsimp only
  split
  · split
    · exact h.seedDraw.logAdd
    · exact h.noteOverflow.seedDraw.pushEng
  · split
    · refine Keeps.updRole ?_
      split
      · exact h
      · exact h.noteOverflow
    · refine Keeps.updTeam ?_
      split
      · exact h
      · exact h.noteOverflow

theorem Keeps.readFields {rk : Nat} {kept : Option (List W64)} {srcs : List SReg} {vs ps : List W64} (h : Keeps s₀ s)
    (e : s.readFields rk kept srcs = .vals vs ps t) : Keeps s₀ t := by
  induction srcs generalizing s kept vs ps with
  | nil => cases e; exact h
  | cons r srcs ih =>
    cases r with
    | s n =>
      unfold State.readFields at e
      split at e
      · cases e; exact ih h ‹_›
      · simp_all
    | q q =>
      unfold State.readFields at e
      split at e
      · split at e
        · cases e; exact ih h ‹_›
        · simp_all
      · split at e
        · cases e
        · split at e
          · cases e; exact ih h.popHead ‹_›
          · simp_all

theorem Keeps.parkS {rk : Nat} {p : Park} (h : Keeps s₀ s) : Keeps s₀ (s.parkS rk p) := by
  unfold State.parkS
  exact h.updRole

theorem Keeps.writeField {rk : Nat} {d : SReg} {v : W64} (h : Keeps s₀ s) : Keeps s₀ (s.writeField rk d v) := by
  unfold State.writeField
  split
  · exact h.updRole
  · exact h.pushQ

theorem Keeps.advance {rk n : Nat} (h : Keeps s₀ s) : Keeps s₀ (s.advance rk n) := by
  unfold State.advance
  exact h.updRole

theorem Keeps.jumpTo {rk : Nat} {pc : W64} (h : Keeps s₀ s) : Keeps s₀ (s.jumpTo rk pc) := by
  unfold State.jumpTo
  exact h.updRole

theorem Keeps.keepPopped {rk : Nat} {ps : List W64} (h : Keeps s₀ s) : Keeps s₀ (s.keepPopped rk ps) := by
  unfold State.keepPopped
  split
  · exact h
  · exact h.updRole

theorem Keeps.scalarOp {srcs : List SReg} {dst : Option SReg} {k : Nat → List W64 → State → Res} (h : Keeps s₀ s)
    (hk : ∀ x0 x1 t, Keeps s₀ t → KeepsRes s₀ (k x0 x1 t)) :
    KeepsRes s₀ (scalarOp s srcs dst k) := by
  unfold Machine.scalarOp
  split
  · split
    · exact h.raiseS
    · split
      · exact h.raiseS
      · exact h.raiseS
      · exact h.parkS
      · split
        · exact h.parkS
        · exact (h.readFields ‹_›).keepPopped.raise.parkS
        · exact hk _ _ _ ((h.readFields ‹_›).keepPopped)
  · trivial

theorem Keeps.parkPage {rk vpn : Nat} (h : Keeps s₀ s) : Keeps s₀ (s.parkPage rk vpn) := by
  unfold State.parkPage
  exact h.startService.parkS

theorem Keeps.finish {rk : Nat} {d : SReg} {v : W64} (h : Keeps s₀ s) : Keeps s₀ (s.finish rk d v) := by
  unfold State.finish
  split
  · exact h.parkS
  · split
    · exact h.raiseS
    · split
      · exact h.parkPage
      · exact h.writeField.advance

theorem Keeps.alu2 {d a b : SReg} {f : W64 → W64 → W64} (h : Keeps s₀ s) : KeepsRes s₀ (alu2 s d a b f) := by
  unfold Machine.alu2
  refine h.scalarOp (fun x0 x1 t h3 => ?_)
  exact h3.finish

theorem Keeps.alu1 {d a : SReg} {f : W64 → W64} (h : Keeps s₀ s) : KeepsRes s₀ (alu1 s d a f) := by
  unfold Machine.alu1
  refine h.scalarOp (fun x0 x1 t h3 => ?_)
  exact h3.finish

theorem Keeps.illegalS {rk : Nat} (h : Keeps s₀ s) : KeepsRes s₀ (illegalS s rk) := by
  unfold Machine.illegalS
  exact h.raiseS

theorem Keeps.txIllegalS {rk : Nat} (h : Keeps s₀ s) : KeepsRes s₀ (txIllegalS s rk) := by
  unfold Machine.txIllegalS
  exact h.raiseS

/-! ## The operations of `Machine/ScalarMem` -/

theorem Keeps.accFaultS {rk va : Nat} {a3 : AccRes} (h : Keeps s₀ s) : Keeps s₀ (s.accFaultS rk va a3) := by
  unfold State.accFaultS
  split
  · exact h.raiseS
  · exact h.raiseS
  · exact h.raise.parkS
  · exact h.machineCheck
  · exact h

theorem Keeps.scratchCheckS {rk ea n align : Nat} {write : Bool} (h : Keeps s₀ s)
    (e : s.scratchCheckS rk ea n align write = some t) :
    Keeps s₀ t := by
  unfold State.scratchCheckS at e
  dsimp only at e
  split at e
  · cases e
  · split at e
    · cases e
      exact h.raiseS
    · split at e
      · cases e
        exact h.raiseS
      · split at e
        · cases e
          exact h.parkPage
        · split at e
          · cases e
            exact h.machineCheck
          · cases e

theorem Keeps.partDone {rk : Nat} {x : Option Xlat} {bs : List Byte} (h : Keeps s₀ s) :
    Keeps s₀ (s.partDone rk x bs) := by
  unfold State.partDone
  exact h.updRole

theorem Keeps.loadPart {rk ea n : Nat} {x : Option Xlat} {d : SReg} {bs : List Byte} {f : Nat → W64}
    (h : Keeps s₀ s) :
    Keeps s₀ (s.loadPart rk ea n x d bs f) := by
  unfold State.loadPart
  dsimp only
  split
  · exact h.partDone
  · exact h.finish

theorem Keeps.storePart {rk ea : Nat} {x : Option Xlat} {bs : List Byte} {put : State → Nat → List Byte → State}
    (h : Keeps s₀ s)
    (hput : ∀ t n bs, Keeps s₀ t → Keeps s₀ (put t n bs)) : Keeps s₀ (s.storePart rk ea x bs put) := by
  unfold State.storePart
  dsimp only
  split
  · exact Keeps.update (hput _ _ _ h)
  · exact Keeps.update (hput _ _ _ h)

@[simp] theorem Keeps.execLd {d a : SReg} {w : LdWidth} {off : BitVec 10} (h : Keeps s₀ s) :
    KeepsRes s₀ (execLd d a w off s) := by
  unfold Machine.execLd
  dsimp only
  refine h.scalarOp (fun x0 x1 t h3 => ?_)
  split
  · exact h3.parkS
  · split
    · split
      · exact h3.machineCheck
      · split
        · exact h3.updRole.loadPart
        · exact h3.updRole.finish
    · exact h3.accFaultS

theorem Keeps.globalStore {rk va : Nat} {bs : List Byte} (h : Keeps s₀ s) :
    Keeps s₀ ((s.globalStore rk va bs).2) := by
  unfold State.globalStore
  dsimp only
  split
  · split
    · exact h
    · exact h
    · exact h.logAdd
  · split
    · exact h.storeX
    · exact h

@[simp] theorem Keeps.execSt {d a : SReg} {w : StWidth} {off : BitVec 10} (h : Keeps s₀ s) :
    KeepsRes s₀ (execSt d a w off s) := by
  unfold Machine.execSt
  dsimp only
  refine h.scalarOp (fun x0 x1 t h3 => ?_)
  split
  · exact h3.parkS
  · split
    · split
      · split
        · exact h3.parkS
        · show Keeps _ _
          refine h3.storePart (fun t n bs h3 => ?_)
          exact h3.storeX
      · exact h3.accFaultS
    · split
      · split
        · exact h3.parkS
        · split
          · exact h3.raiseS
          · split
            · exact h3.parkPage
            · exact (h3.globalStore.ofSnd ‹_›).advance
      · exact h3.accFaultS

@[simp] theorem Keeps.execSld {d a : SReg} {w : LdWidth} {off : BitVec 10} (h : Keeps s₀ s) :
    KeepsRes s₀ (execSld d a w off s) := by
  unfold Machine.execSld
  dsimp only
  refine h.scalarOp (fun x0 x1 t h3 => ?_)
  split
  · exact h3.parkS
  · split
    · exact (h3.scratchCheckS ‹_›)
    · split
      · exact h3.noteScratch.loadPart
      · exact h3.noteScratch.finish

@[simp] theorem Keeps.execSst {d a : SReg} {w : StWidth} {off : BitVec 10} (h : Keeps s₀ s) :
    KeepsRes s₀ (execSst d a w off s) := by
  unfold Machine.execSst
  dsimp only
  refine h.scalarOp (fun x0 x1 t h3 => ?_)
  split
  · exact h3.parkS
  · split
    · exact (h3.scratchCheckS ‹_›)
    · split
      · show Keeps _ _
        refine h3.storePart (fun t n bs h3 => ?_)
        exact h3.scratchStore
      · exact h3.scratchStore.advance

theorem Keeps.noteHome {cluster part ia : Nat} (h : Keeps s₀ s) : Keeps s₀ (s.noteHome cluster part ia) := h.same

theorem Keeps.predict {cluster part ia : Nat} {home : Bool} (h : Keeps s₀ s) :
    Keeps s₀ (s.predict cluster part ia home) := by
  unfold State.predict
  dsimp only
  split
  · exact h.updCluster.noteHome
  · exact h.updCluster

theorem Keeps.atomWrite {y : Holder} {scope : Nat} {x : Xlat} {bs : List Byte} (h : Keeps s₀ s) :
    Keeps s₀ (s.atomWrite y scope x bs) := by
  unfold State.atomWrite
  dsimp only
  split
  · refine Keeps.homeWriteX ?_
    split
    · exact h.predict
    · exact h
  · refine Keeps.storeX ?_
    split
    · exact h.predict
    · exact h

theorem Keeps.noteAtom {rk : Nat} {x : Xlat} (h : Keeps s₀ s) : Keeps s₀ (s.noteAtom rk x) := by
  unfold State.noteAtom
  exact h.updRole

theorem Keeps.atomOp {op : Nat} {d a b : SReg} {sc : Fin 8} (h : Keeps s₀ s) :
    KeepsRes s₀ (atomOp s op d a b sc) := by
  unfold Machine.atomOp
  dsimp only
  split
  · split
    · exact h.illegalS
    · split
      · split
        · exact h.txIllegalS
        · refine h.scalarOp (fun x0 x1 t h3 => ?_)
          split
          · exact h3.parkS
          · split
            · split
              · exact (h3.scratchCheckS ‹_›)
              · show Keeps _ _
                refine Keeps.finish ?_
                split
                · exact h3.scratchStore
                · exact h3
            · split
              · exact h3.raiseS
              · exact h3.raiseS
              · split
                · exact h3.raiseS
                · split
                  · split
                    · exact h3.raiseS
                    · split
                      · exact h3.parkPage
                      · exact h3.logAdd.advance
                  · split
                    · split
                      · exact h3.parkS
                      · show Keeps _ _
                        refine Keeps.finish ?_
                        split
                        · exact h3.atomWrite.noteAtom
                        · exact h3
                    · exact h3.accFaultS
      · split
        · exact h.txIllegalS
        · refine h.scalarOp (fun x0 x1 t h3 => ?_)
          split
          · exact h3.parkS
          · split
            · split
              · exact (h3.scratchCheckS ‹_›)
              · show Keeps _ _
                refine Keeps.finish ?_
                split
                · exact h3.scratchStore
                · exact h3
            · split
              · exact h3.raiseS
              · exact h3.raiseS
              · split
                · exact h3.raiseS
                · split
                  · split
                    · exact h3.raiseS
                    · split
                      · exact h3.parkPage
                      · exact h3.logAdd.advance
                  · split
                    · split
                      · exact h3.parkS
                      · show Keeps _ _
                        refine Keeps.finish ?_
                        split
                        · exact h3.atomWrite.noteAtom
                        · exact h3
                    · exact h3.accFaultS
  · trivial

@[simp] theorem Keeps.execAtomAdd {d a b : SReg} {sc : Fin 8} (h : Keeps s₀ s) : KeepsRes s₀ (execAtomAdd d a b sc s) := by
  unfold Machine.execAtomAdd
  exact h.atomOp

@[simp] theorem Keeps.execAtomAnd {d a b : SReg} {sc : Fin 8} (h : Keeps s₀ s) : KeepsRes s₀ (execAtomAnd d a b sc s) := by
  unfold Machine.execAtomAnd
  exact h.atomOp

@[simp] theorem Keeps.execAtomOr {d a b : SReg} {sc : Fin 8} (h : Keeps s₀ s) : KeepsRes s₀ (execAtomOr d a b sc s) := by
  unfold Machine.execAtomOr
  exact h.atomOp

@[simp] theorem Keeps.execAtomXor {d a b : SReg} {sc : Fin 8} (h : Keeps s₀ s) : KeepsRes s₀ (execAtomXor d a b sc s) := by
  unfold Machine.execAtomXor
  exact h.atomOp

@[simp] theorem Keeps.execAtomMin {d a b : SReg} {sc : Fin 8} (h : Keeps s₀ s) : KeepsRes s₀ (execAtomMin d a b sc s) := by
  unfold Machine.execAtomMin
  exact h.atomOp

@[simp] theorem Keeps.execAtomMax {d a b : SReg} {sc : Fin 8} (h : Keeps s₀ s) : KeepsRes s₀ (execAtomMax d a b sc s) := by
  unfold Machine.execAtomMax
  exact h.atomOp

@[simp] theorem Keeps.execAtomMinn {d a b : SReg} {sc : Fin 8} (h : Keeps s₀ s) : KeepsRes s₀ (execAtomMinn d a b sc s) := by
  unfold Machine.execAtomMinn
  exact h.atomOp

@[simp] theorem Keeps.execAtomMaxn {d a b : SReg} {sc : Fin 8} (h : Keeps s₀ s) : KeepsRes s₀ (execAtomMaxn d a b sc s) := by
  unfold Machine.execAtomMaxn
  exact h.atomOp

@[simp] theorem Keeps.execAtomSwap {d a b : SReg} {sc : Fin 8} (h : Keeps s₀ s) : KeepsRes s₀ (execAtomSwap d a b sc s) := by
  unfold Machine.execAtomSwap
  exact h.atomOp

@[simp] theorem Keeps.execAtomCas {d a b : SReg} {sc : Fin 8} (h : Keeps s₀ s) : KeepsRes s₀ (execAtomCas d a b sc s) := by
  unfold Machine.execAtomCas
  exact h.atomOp

@[simp] theorem Keeps.execAtomBfim {d a b : SReg} {sc : Fin 8} (h : Keeps s₀ s) : KeepsRes s₀ (execAtomBfim d a b sc s) := by
  unfold Machine.execAtomBfim
  exact h.atomOp

@[simp] theorem Keeps.execAtomFfcs {d a b : SReg} {sc : Fin 8} (h : Keeps s₀ s) : KeepsRes s₀ (execAtomFfcs d a b sc s) := by
  unfold Machine.execAtomFfcs
  exact h.atomOp

@[simp] theorem Keeps.execAtomPlset {d a b : SReg} {sc : Fin 8} (h : Keeps s₀ s) :
    KeepsRes s₀ (execAtomPlset d a b sc s) := by
  unfold Machine.execAtomPlset
  exact h.atomOp

/-! ## The operations of `Machine/ScalarCtl` -/

theorem Keeps.scalar0 {k : Nat → Res} (h : Keeps s₀ s) (hk : ∀ x0, KeepsRes s₀ (k x0)) :
    KeepsRes s₀ (scalar0 s k) := by
  unfold Machine.scalar0
  split
  · exact hk _
  · trivial

theorem Keeps.reach {rk scope : Nat} (h : Keeps s₀ s) : Keeps s₀ (s.reach rk scope) := by
  unfold State.reach
  split
  · exact h
  · refine Keeps.updRole ?_
    exact h.foldl fun t x ht => ht.writeBack

@[simp] theorem Keeps.execFence {scope : Fin 7} (h : Keeps s₀ s) : KeepsRes s₀ (execFence scope s) := by
  unfold Machine.execFence
  refine h.scalar0 (fun x0 => ?_)
  split
  · exact h.reach.advance
  · exact h.parkS

@[simp] theorem Keeps.execQfence {mask : BitVec 6} {scope : Fin 7} (h : Keeps s₀ s) :
    KeepsRes s₀ (execQfence mask scope s) := by
  unfold Machine.execQfence
  dsimp only
  refine h.scalar0 (fun x0 => ?_)
  split
  · exact h.illegalS
  · split
    · split
      · exact h.raise.parkS
      · exact h.parkS
    · show Keeps _ _
      refine Keeps.advance ?_
      exact Keeps.foldl (h.update) fun t x ht => ht.noteOverflow.updRole

@[simp] theorem Keeps.execBarav {a : SReg} (h : Keeps s₀ s) : KeepsRes s₀ (execBarav a s) := by
  unfold Machine.execBarav
  dsimp only
  refine h.scalarOp (fun x0 x1 t h3 => ?_)
  split
  · exact h3.parkS
  · split
    · exact (h3.scratchCheckS ‹_›)
    · split
      · exact h3.scratchStore.updRole.advance
      · exact h3.raiseS

@[simp] theorem Keeps.execBarwt {a : SReg} (h : Keeps s₀ s) : KeepsRes s₀ (execBarwt a s) := by
  unfold Machine.execBarwt
  dsimp only
  refine h.scalarOp (fun x0 x1 t h3 => ?_)
  split
  · exact h3.parkS
  · split
    · exact (h3.scratchCheckS ‹_›)
    · split
      · exact h3.raiseS
      · split
        · exact h3.noteScratch.advance
        · exact h3.parkS

theorem Keeps.waitStep {rk : Nat} {d : SReg} {w : Waita} (h : Keeps s₀ s) : Keeps s₀ (s.waitStep rk d w) := by
  unfold State.waitStep
  split
  · split
    · exact h.updRole.finish
    · exact h.finish
  · exact h.updRole

@[simp] theorem Keeps.execWaita {d a b : SReg} (h : Keeps s₀ s) : KeepsRes s₀ (execWaita d a b s) := by
  unfold Machine.execWaita
  dsimp only
  refine h.scalarOp (fun x0 x1 t h3 => ?_)
  split
  · exact h3.waitStep
  · split
    · exact h3.parkS
    · split
      · exact h3.raiseS
      · exact h3.raiseS
      · exact h3.waitStep

@[simp] theorem Keeps.execYield (h : Keeps s₀ s) : KeepsRes s₀ (execYield s) := by
  unfold Machine.execYield
  refine h.scalar0 (fun x0 => ?_)
  exact h.updRole.advance

@[simp] theorem Keeps.execExit (h : Keeps s₀ s) : KeepsRes s₀ (execExit s) := by
  unfold Machine.execExit
  refine h.scalar0 (fun x0 => ?_)
  split
  · exact h.txIllegalS
  · exact h.parkS

@[simp] theorem Keeps.execVdrain (h : Keeps s₀ s) : KeepsRes s₀ (execVdrain s) := by
  unfold Machine.execVdrain
  refine h.scalar0 (fun x0 => ?_)
  split
  · exact h.advance
  · exact h.parkS

@[simp] theorem Keeps.execView {i : Fin 8} {a : SReg} (h : Keeps s₀ s) : KeepsRes s₀ (execView i a s) := by
  unfold Machine.execView
  dsimp only
  refine h.scalarOp (fun x0 x1 t h3 => ?_)
  split
  · exact h3.updRole.advance
  · exact h3.illegalS

@[simp] theorem Keeps.execGang {a : SReg} (h : Keeps s₀ s) : KeepsRes s₀ (execGang a s) := by
  unfold Machine.execGang
  dsimp only
  refine h.scalarOp (fun x0 x1 t h3 => ?_)
  split
  · exact h3.updTeam.advance
  · exact h3.illegalS

@[simp] theorem Keeps.execMset {g : Fin 32} {a : SReg} (h : Keeps s₀ s) : KeepsRes s₀ (execMset g a s) := by
  unfold Machine.execMset
  dsimp only
  refine h.scalar0 (fun x0 => ?_)
  split
  · exact h.illegalS
  · refine h.scalarOp (fun x0 x1 t h3 => ?_)
    exact h3.updRole.advance

@[simp] theorem Keeps.execVrun {lenM1 : BitVec 6} {idx : BitVec 19} (h : Keeps s₀ s) :
    KeepsRes s₀ (execVrun lenM1 idx s) := by
  unfold Machine.execVrun
  dsimp only
  refine h.scalar0 (fun x0 => ?_)
  split
  · exact h.parkS
  · exact h.updRole.advance

theorem Keeps.commitArrive {rk : Nat} {tok : Option (W64 × W64)} (h : Keeps s₀ s) :
    Keeps s₀ (s.commitArrive rk tok) := by
  unfold State.commitArrive
  dsimp only
  split
  · exact h.updRole.updTeam
  · exact h.updRole

@[simp] theorem Keeps.execTxcommit {a b : SReg} (h : Keeps s₀ s) : KeepsRes s₀ (execTxcommit a b s) := by
  unfold Machine.execTxcommit
  dsimp only
  refine h.scalar0 (fun x0 => ?_)
  split
  · exact h.txIllegalS
  · refine h.scalarOp (fun x0 x1 t h3 => ?_)
    split
    · exact h3.raiseS
    · split
      · exact h3.parkS
      · exact h3.commitArrive

@[simp] theorem Keeps.execTxabort (h : Keeps s₀ s) : KeepsRes s₀ (execTxabort s) := by
  unfold Machine.execTxabort
  refine h.scalar0 (fun x0 => ?_)
  split
  · exact h.abortTeam
  · exact h.txIllegalS

theorem Keeps.maintOp {a b : SReg} {align : Nat} {f : State → Nat → State} (h : Keeps s₀ s)
    (hf : ∀ t x1, Keeps s₀ t → Keeps s₀ (f t x1)) :
    KeepsRes s₀ (maintOp s a b align f) := by
  unfold Machine.maintOp
  dsimp only
  refine h.scalarOp (fun x0 x1 t h3 => ?_)
  split
  · exact h3.raiseS
  · split
    · exact h3.raiseS
    · split
      · exact h3.parkS
      · show Keeps _ _
        refine Keeps.advance ?_
        refine h3.foldl fun t x ht => ?_
        exact hf _ _ ht

@[simp] theorem Keeps.execClnr {a b : SReg} (h : Keeps s₀ s) : KeepsRes s₀ (execClnr a b s) := by
  unfold Machine.execClnr
  refine h.maintOp (fun t x1 h2 => ?_)
  exact h2.writeBack

@[simp] theorem Keeps.execInvr {a b : SReg} (h : Keeps s₀ s) : KeepsRes s₀ (execInvr a b s) := by
  unfold Machine.execInvr
  refine h.scalar0 (fun x0 => ?_)
  split
  · exact h.txIllegalS
  · refine h.maintOp (fun t x1 h2 => ?_)
    exact h2.invLine

@[simp] theorem Keeps.execCliv {a b : SReg} (h : Keeps s₀ s) : KeepsRes s₀ (execCliv a b s) := by
  unfold Machine.execCliv
  refine h.maintOp (fun t x1 h2 => ?_)
  exact h2.writeBack

@[simp] theorem Keeps.execTrap {code : BitVec 13} (h : Keeps s₀ s) : KeepsRes s₀ (execTrap code s) := by
  unfold Machine.execTrap
  refine h.scalar0 (fun x0 => ?_)
  split
  · exact h.parkS
  · exact h.userTrap

@[simp] theorem Keeps.execTret (h : Keeps s₀ s) : KeepsRes s₀ (execTret s) := by
  unfold Machine.execTret
  dsimp only
  refine h.scalar0 (fun x0 => ?_)
  split
  · exact h.illegalS
  · split
    · exact h.parkS
    · exact h.updRole.update

@[simp] theorem Keeps.execNop (h : Keeps s₀ s) : KeepsRes s₀ (execNop s) := by
  unfold Machine.execNop
  refine h.scalar0 (fun x0 => ?_)
  exact h.advance

@[simp] theorem Keeps.execBrk (h : Keeps s₀ s) : KeepsRes s₀ (execBrk s) := by
  unfold Machine.execBrk
  refine h.scalar0 (fun x0 => ?_)
  split
  · exact h.raiseS.updRole
  · exact h.raiseS

@[simp] theorem Keeps.execRelay (h : Keeps s₀ s) : KeepsRes s₀ (execRelay s) := by
  unfold Machine.execRelay
  dsimp only
  refine h.scalar0 (fun x0 => ?_)
  split
  · exact h.txIllegalS
  · split
    · exact h.updRole.advance
    · split
      · exact h.parkS
      · split
        · exact h.updRole.advance
        · exact h.updRole

/-! ## The operations of `Machine/Power` -/

@[simp] theorem Keeps.execPerf {a b : SReg} (h : Keeps s₀ s) : KeepsRes s₀ (execPerf a b s) := by
  unfold Machine.execPerf
  dsimp only
  refine h.scalarOp (fun x0 x1 t h3 => ?_)
  show Keeps _ _
  refine Keeps.advance ?_
  refine Keeps.adopt ?_
  refine Keeps.updTeam ?_
  split
  · exact h3.updVf
  · exact h3

theorem Keeps.newLevels (h : Keeps s₀ s) : Keeps s₀ s.newLevels := by
  unfold State.newLevels
  exact h.foldl fun t x ht => ht.updCluster.adopt

@[simp] theorem Keeps.execThermUpdate (h : Keeps s₀ s) : KeepsRes s₀ (execThermUpdate s) := by
  unfold Machine.execThermUpdate
  dsimp only
  show Keeps _ _
  split
  · exact h.newLevels.update
  · exact h

@[simp] theorem Keeps.execTransitionDone {cluster : Nat} (h : Keeps s₀ s) : KeepsRes s₀ (execTransitionDone cluster s) := by
  unfold Machine.execTransitionDone
  split
  · exact h
  · exact h.updCluster.adopt

@[simp] theorem Keeps.execAllowReplenish {cluster : Nat} (h : Keeps s₀ s) : KeepsRes s₀ (execAllowReplenish cluster s) := by
  unfold Machine.execAllowReplenish
  exact h.updCluster

@[simp] theorem Keeps.execPwrcfgWrite {cluster : Nat} {val : W64} (h : Keeps s₀ s) :
    KeepsRes s₀ (execPwrcfgWrite cluster val s) := by
  unfold Machine.execPwrcfgWrite
  dsimp only
  exact h.updCluster.adopt

@[simp] theorem Keeps.execNearThresholdEnter {core : Nat} {upper : Bool} (h : Keeps s₀ s) :
    KeepsRes s₀ (execNearThresholdEnter core upper s) := by
  unfold Machine.execNearThresholdEnter
  split
  · exact h.updCore
  · exact h

theorem Keeps.leaveNear {rk : Nat} (h : Keeps s₀ s) : Keeps s₀ (s.leaveNear rk) := by
  unfold State.leaveNear
  dsimp only
  split
  · exact h.updRole.updCore
  · exact h

/-! ## The operations of `Machine/System` -/

@[simp] theorem Keeps.execSysrd {d : SReg} {num : BitVec 13} (h : Keeps s₀ s) : KeepsRes s₀ (execSysrd d num s) := by
  unfold Machine.execSysrd
  split
  · split
    · exact h.illegalS
    · refine h.scalarOp (fun x0 x1 t h3 => ?_)
      split
      · exact h3.parkS
      · exact h3.finish
  · trivial

@[simp] theorem Keeps.execSyswr {a : SReg} {num : BitVec 13} (h : Keeps s₀ s) : KeepsRes s₀ (execSyswr a num s) := by
  unfold Machine.execSyswr
  split
  · split
    · exact h.illegalS
    · refine h.scalarOp (fun x0 x1 t h3 => ?_)
      split
      · exact h3.parkS
      · exact h3.updRole.advance
  · trivial

/-! ## The operations of `Machine/Flags` -/

theorem Keeps.trip {tk cause : Nat} (h : Keeps s₀ s) : Keeps s₀ (s.trip tk cause) := by
  unfold State.trip
  dsimp only
  split
  · exact h
  · split
    · exact h.abortTeam
    · exact h.updTeam

theorem Keeps.satEvents {tk n : Nat} (h : Keeps s₀ s) : Keeps s₀ (s.satEvents tk n) := by
  unfold State.satEvents
  dsimp only
  split
  · exact h
  · split
    · exact h.updTeam.trip
    · exact h.updTeam

theorem Keeps.matrixEvents {tk sat : Nat} {range : Option Nat} {cans : List Nat} (h : Keeps s₀ s) :
    Keeps s₀ (s.matrixEvents tk sat range cans) := by
  unfold State.matrixEvents
  dsimp only
  split
  · split
    · exact h.updTeam.trip
    · exact h.updTeam
  · exact h.updTeam

/-! ## The operations of `Machine/LaneOps` -/

theorem Keeps.setRow {key : Nat} {w : DRow} (h : Keeps s₀ s) : Keeps s₀ (s.setRow key w) := h.same

theorem Keeps.updTask {key : Nat} {f : DTask → DTask} (h : Keeps s₀ s) : Keeps s₀ (s.updTask key f) := h.same

theorem Keeps.rowEnd {key status : Nat} (h : Keeps s₀ s) : Keeps s₀ (s.rowEnd key status) := by
  unfold State.rowEnd
  dsimp only
  exact h.updTask.update

theorem Keeps.laneDone {sw : Bool} {l : Lanes} (h : Keeps s₀ s) : Keeps s₀ (s.laneDone sw l) := by
  unfold State.laneDone
  dsimp only
  split
  · exact Keeps.updRole (h.update)
  · exact Keeps.setRow (h.update)
  · exact h

theorem Keeps.precise {rk : Nat} {f : State} (h : Keeps s₀ s) (hf : Keeps s₀ f) : Keeps s₀ (s.precise rk f) := by
  unfold State.precise
  split
  · exact h.same
  · exact hf

theorem Keeps.laneFault {c : Code} (h : Keeps s₀ s) : Keeps s₀ (s.laneFault c) := by
  unfold State.laneFault
  split
  · refine h.precise ?_
    exact h.raiseL
  · exact h.rowEnd
  · exact h

theorem Keeps.laneSat {n : Nat} (h : Keeps s₀ s) : Keeps s₀ (s.laneSat n) := by
  unfold State.laneSat
  split
  · exact h.satEvents
  · exact h

theorem Keeps.repair {core rk : Nat} {ws : List Nat} (h : Keeps s₀ s) : Keeps s₀ (s.repair core rk ws) := by
  unfold State.repair
  dsimp only
  split
  · exact h.updCore.updRole
  · exact h.updCore

theorem Keeps.parityCheck {rk : Nat} {lanes : List Nat} (h : Keeps s₀ s) : Keeps s₀ (s.parityCheck rk lanes) := by
  unfold State.parityCheck
  exact h.updCore.machineCheck

theorem KeepsRes.next {r : Res} (h : KeepsRes s₀ r) (e : r = .next t) : Keeps s₀ t := by
  rwa [e] at h

theorem Keeps.withParity {cx : LaneCx} {l : Lanes} {c : LaneCtl} {srcs : Sources} {extra : List (Opnd × Nat)}
    {r : Res}
    (h : Keeps s₀ s) (hr : KeepsRes s₀ r) : KeepsRes s₀ (withParity s cx l c srcs extra r) := by
  unfold Machine.withParity
  split
  · split
    · exact hr
    · split
      · exact h.precise h.machineCheck
      · split
        · exact h.precise h.parityCheck
        · dsimp only
          split
          · have ht := hr.next rfl
            split
            · exact ht
            · exact ht.repair
          · exact hr
  · exact hr

theorem Keeps.laneFrameR {c : LaneCtl} {srcs : Sources} {dsts extra : List (Opnd × Nat)} {k : LaneCx → Lanes → Res}
    (h : Keeps s₀ s) (hk : ∀ x0 x1, KeepsRes s₀ (k x0 x1)) :
    KeepsRes s₀ (laneFrameR s c srcs dsts extra k) := by
  unfold Machine.laneFrameR
  split
  · trivial
  · split
    · refine h.withParity ?_
      exact hk _ _
    · exact h.laneFault

theorem Keeps.laneFrame {c : LaneCtl} {srcs : Sources} {dsts : List (Opnd × Nat)} {k : LaneCx → Lanes → Res}
    (h : Keeps s₀ s) (hk : ∀ x0 x1, KeepsRes s₀ (k x0 x1)) :
    KeepsRes s₀ (laneFrame s c srcs dsts k) := by
  unfold Machine.laneFrame
  refine h.laneFrameR (fun x0 x1 => ?_)
  exact hk _ _

theorem Keeps.chargeStall {l : Lanes} {ws : List Nat} (h : Keeps s₀ s) : Keeps s₀ (s.chargeStall l ws) := by
  unfold State.chargeStall
  dsimp only
  split
  · split
    · exact h
    · exact h.chargeTeam
  · exact h

theorem Keeps.laneEnd {c : LaneCtl} {cx : LaneCx} {l : Lanes} {srcs : Sources} {ws : List Nat} {o : LaneOut}
    (h : Keeps s₀ s) :
    Keeps s₀ (s.laneEnd c cx l srcs ws o) := by
  unfold State.laneEnd
  exact h.chargeStall.laneDone.laneSat

theorem Keeps.laneFinish {c : LaneCtl} {cx : LaneCx} {l : Lanes} {srcs : Sources} {o : LaneOut} (h : Keeps s₀ s) :
    Keeps s₀ (s.laneFinish c cx l srcs o) := by
  unfold State.laneFinish
  exact h.laneEnd

theorem Keeps.laneWordOp {c : LaneCtl} {srcs : Sources} {dsts : List (Opnd × Nat)} {f : LaneCx → Lanes → LaneOut}
    (h : Keeps s₀ s) :
    KeepsRes s₀ (laneWordOp s c srcs dsts f) := by
  unfold Machine.laneWordOp
  refine h.laneFrame (fun x0 x1 => ?_)
  exact h.laneFinish

theorem Keeps.laneMap {c : LaneCtl} {srcs : Sources} {d : Opnd} {n : Nat} {f : Nat → Nat → Nat → Nat}
    (h : Keeps s₀ s) :
    KeepsRes s₀ (laneMap s c srcs d n f) := by
  unfold Machine.laneMap
  exact h.laneWordOp

theorem Keeps.laneTest {c : LaneCtl} {srcs : Sources} {kd : BitVec 4} {f : Nat → Nat → Bool} (h : Keeps s₀ s) :
    KeepsRes s₀ (laneTest s c srcs kd f) := by
  unfold Machine.laneTest
  exact h.laneWordOp

/-! ## The operations of `Machine/LaneInt` -/

theorem Keeps.arith {c : LaneCtl} {dt : ITy} {sat : Bool} {d : Opnd} {srcs : Sources} {f : Int → Int → Int → Int}
    (h : Keeps s₀ s) :
    KeepsRes s₀ (arith s c dt sat d srcs f) := by
  unfold Machine.arith
  exact h.laneMap

theorem Keeps.bitwise {c : LaneCtl} {w64 : Bool} {d : Opnd} {srcs : Sources} {f : Nat → Nat → Nat} (h : Keeps s₀ s) :
    KeepsRes s₀ (bitwise s c w64 d srcs f) := by
  unfold Machine.bitwise
  exact h.laneMap

@[simp] theorem Keeps.execVadd {c : LaneCtl} {dt : ITy} {sat : Bool} {d a b : Opnd} (h : Keeps s₀ s) :
    KeepsRes s₀ (execVadd c dt sat d a b s) := by
  unfold Machine.execVadd
  exact h.arith

@[simp] theorem Keeps.execVsub {c : LaneCtl} {dt : ITy} {sat : Bool} {d a b : Opnd} (h : Keeps s₀ s) :
    KeepsRes s₀ (execVsub c dt sat d a b s) := by
  unfold Machine.execVsub
  exact h.arith

@[simp] theorem Keeps.execVmul {c : LaneCtl} {dt : ITy} {d a b : Opnd} (h : Keeps s₀ s) :
    KeepsRes s₀ (execVmul c dt d a b s) := by
  unfold Machine.execVmul
  exact h.arith

@[simp] theorem Keeps.execVmulh {c : LaneCtl} {dt : ITy} {d a b : Opnd} (h : Keeps s₀ s) :
    KeepsRes s₀ (execVmulh c dt d a b s) := by
  unfold Machine.execVmulh
  exact h.arith

@[simp] theorem Keeps.execVmad {c : LaneCtl} {dt : ITy} {d a b x : Opnd} (h : Keeps s₀ s) :
    KeepsRes s₀ (execVmad c dt d a b x s) := by
  unfold Machine.execVmad
  exact h.arith

@[simp] theorem Keeps.execVmin {c : LaneCtl} {dt : ITy} {d a b : Opnd} (h : Keeps s₀ s) :
    KeepsRes s₀ (execVmin c dt d a b s) := by
  unfold Machine.execVmin
  exact h.arith

@[simp] theorem Keeps.execVmax {c : LaneCtl} {dt : ITy} {d a b : Opnd} (h : Keeps s₀ s) :
    KeepsRes s₀ (execVmax c dt d a b s) := by
  unfold Machine.execVmax
  exact h.arith

@[simp] theorem Keeps.execVabs {c : LaneCtl} {w64 sat : Bool} {d a : Opnd} (h : Keeps s₀ s) :
    KeepsRes s₀ (execVabs c w64 sat d a s) := by
  unfold Machine.execVabs
  dsimp only
  exact h.arith

@[simp] theorem Keeps.execVand {c : LaneCtl} {w64 : Bool} {d a b : Opnd} (h : Keeps s₀ s) :
    KeepsRes s₀ (execVand c w64 d a b s) := by
  unfold Machine.execVand
  exact h.bitwise

@[simp] theorem Keeps.execVor {c : LaneCtl} {w64 : Bool} {d a b : Opnd} (h : Keeps s₀ s) :
    KeepsRes s₀ (execVor c w64 d a b s) := by
  unfold Machine.execVor
  exact h.bitwise

@[simp] theorem Keeps.execVxor {c : LaneCtl} {w64 : Bool} {d a b : Opnd} (h : Keeps s₀ s) :
    KeepsRes s₀ (execVxor c w64 d a b s) := by
  unfold Machine.execVxor
  exact h.bitwise

@[simp] theorem Keeps.execVandn {c : LaneCtl} {w64 : Bool} {d a b : Opnd} (h : Keeps s₀ s) :
    KeepsRes s₀ (execVandn c w64 d a b s) := by
  unfold Machine.execVandn
  exact h.bitwise

@[simp] theorem Keeps.execVshl {c : LaneCtl} {w64 : Bool} {d a b : Opnd} (h : Keeps s₀ s) :
    KeepsRes s₀ (execVshl c w64 d a b s) := by
  unfold Machine.execVshl
  exact h.bitwise

@[simp] theorem Keeps.execVshr {c : LaneCtl} {w64 : Bool} {d a b : Opnd} (h : Keeps s₀ s) :
    KeepsRes s₀ (execVshr c w64 d a b s) := by
  unfold Machine.execVshr
  exact h.bitwise

@[simp] theorem Keeps.execVsra {c : LaneCtl} {w64 : Bool} {d a b : Opnd} (h : Keeps s₀ s) :
    KeepsRes s₀ (execVsra c w64 d a b s) := by
  unfold Machine.execVsra
  exact h.bitwise

@[simp] theorem Keeps.execVrot {c : LaneCtl} {w64 : Bool} {d a b : Opnd} (h : Keeps s₀ s) :
    KeepsRes s₀ (execVrot c w64 d a b s) := by
  unfold Machine.execVrot
  exact h.bitwise

@[simp] theorem Keeps.execVpopc {c : LaneCtl} {w64 : Bool} {d a : Opnd} (h : Keeps s₀ s) :
    KeepsRes s₀ (execVpopc c w64 d a s) := by
  unfold Machine.execVpopc
  exact h.bitwise

@[simp] theorem Keeps.execVclz {c : LaneCtl} {w64 : Bool} {d a : Opnd} (h : Keeps s₀ s) :
    KeepsRes s₀ (execVclz c w64 d a s) := by
  unfold Machine.execVclz
  exact h.bitwise

@[simp] theorem Keeps.execVbrev {c : LaneCtl} {w64 : Bool} {d a : Opnd} (h : Keeps s₀ s) :
    KeepsRes s₀ (execVbrev c w64 d a s) := by
  unfold Machine.execVbrev
  exact h.bitwise

@[simp] theorem Keeps.execVbfext {c : LaneCtl} {dt : ITy} {f : BfSel} {d a : Opnd} (h : Keeps s₀ s) :
    KeepsRes s₀ (execVbfext c dt f d a s) := by
  unfold Machine.execVbfext
  exact h.laneMap

@[simp] theorem Keeps.execVbfins {c : LaneCtl} {w64 : Bool} {f : BfSel} {d a x : Opnd} (h : Keeps s₀ s) :
    KeepsRes s₀ (execVbfins c w64 f d a x s) := by
  unfold Machine.execVbfins
  exact h.laneMap

@[simp] theorem Keeps.execVclmul {c : LaneCtl} {w64 high : Bool} {d a b : Opnd} (h : Keeps s₀ s) :
    KeepsRes s₀ (execVclmul c w64 high d a b s) := by
  unfold Machine.execVclmul
  dsimp only
  exact h.bitwise

@[simp] theorem Keeps.execVsel {c : LaneCtl} {w64 : Bool} {ks : BitVec 4} {d a b : Opnd} (h : Keeps s₀ s) :
    KeepsRes s₀ (execVsel c w64 ks d a b s) := by
  unfold Machine.execVsel
  dsimp only
  exact h.laneWordOp

@[simp] theorem Keeps.execVcmp {c : LaneCtl} {dt : ITy} {cond : ICond} {kd : BitVec 4} {a b : Opnd} (h : Keeps s₀ s) :
    KeepsRes s₀ (execVcmp c dt cond kd a b s) := by
  unfold Machine.execVcmp
  exact h.laneTest

@[simp] theorem Keeps.execVaddImm {c : LaneCtl} {dt : ITy} {sat : Bool} {d a : Opnd} {i : W32} (h : Keeps s₀ s) :
    KeepsRes s₀ (execVaddImm c dt sat d a i s) := by
  unfold Machine.execVaddImm
  exact h.arith

@[simp] theorem Keeps.execVsubImm {c : LaneCtl} {dt : ITy} {sat : Bool} {d a : Opnd} {i : W32} (h : Keeps s₀ s) :
    KeepsRes s₀ (execVsubImm c dt sat d a i s) := by
  unfold Machine.execVsubImm
  exact h.arith

@[simp] theorem Keeps.execVmulImm {c : LaneCtl} {dt : ITy} {d a : Opnd} {i : W32} (h : Keeps s₀ s) :
    KeepsRes s₀ (execVmulImm c dt d a i s) := by
  unfold Machine.execVmulImm
  exact h.arith

@[simp] theorem Keeps.execVminImm {c : LaneCtl} {dt : ITy} {d a : Opnd} {i : W32} (h : Keeps s₀ s) :
    KeepsRes s₀ (execVminImm c dt d a i s) := by
  unfold Machine.execVminImm
  exact h.arith

@[simp] theorem Keeps.execVmaxImm {c : LaneCtl} {dt : ITy} {d a : Opnd} {i : W32} (h : Keeps s₀ s) :
    KeepsRes s₀ (execVmaxImm c dt d a i s) := by
  unfold Machine.execVmaxImm
  exact h.arith

@[simp] theorem Keeps.execVandImm {c : LaneCtl} {w64 : Bool} {d a : Opnd} {i : W32} (h : Keeps s₀ s) :
    KeepsRes s₀ (execVandImm c w64 d a i s) := by
  unfold Machine.execVandImm
  exact h.bitwise

@[simp] theorem Keeps.execVorImm {c : LaneCtl} {w64 : Bool} {d a : Opnd} {i : W32} (h : Keeps s₀ s) :
    KeepsRes s₀ (execVorImm c w64 d a i s) := by
  unfold Machine.execVorImm
  exact h.bitwise

@[simp] theorem Keeps.execVxorImm {c : LaneCtl} {w64 : Bool} {d a : Opnd} {i : W32} (h : Keeps s₀ s) :
    KeepsRes s₀ (execVxorImm c w64 d a i s) := by
  unfold Machine.execVxorImm
  exact h.bitwise

@[simp] theorem Keeps.execVandnImm {c : LaneCtl} {w64 : Bool} {d a : Opnd} {i : W32} (h : Keeps s₀ s) :
    KeepsRes s₀ (execVandnImm c w64 d a i s) := by
  unfold Machine.execVandnImm
  exact h.bitwise

@[simp] theorem Keeps.execVcmpImm {c : LaneCtl} {dt : ITy} {cond : ICond} {kd : BitVec 4} {a : Opnd} {i : W32}
    (h : Keeps s₀ s) :
    KeepsRes s₀ (execVcmpImm c dt cond kd a i s) := by
  unfold Machine.execVcmpImm
  exact h.laneTest

@[simp] theorem Keeps.execVmov {c : LaneCtl} {w64 : Bool} {d a : Opnd} (h : Keeps s₀ s) :
    KeepsRes s₀ (execVmov c w64 d a s) := by
  unfold Machine.execVmov
  exact h.laneMap

@[simp] theorem Keeps.execVmovi {c : LaneCtl} {ext : Fin 3} {d : Opnd} {i : W32} (h : Keeps s₀ s) :
    KeepsRes s₀ (execVmovi c ext d i s) := by
  unfold Machine.execVmovi
  dsimp only
  exact h.laneMap

@[simp] theorem Keeps.execVnop {sw : Bool} (h : Keeps s₀ s) : KeepsRes s₀ (execVnop sw s) := by
  unfold Machine.execVnop
  split
  · trivial
  · exact h.laneDone

/-! ## The operations of `Machine/LaneFloat` -/

theorem Keeps.floatOp {c : LaneCtl} {m : FMode} {late : Bool} {d : Opnd} {srcs : Sources}
    {f : XVal → XVal → XVal → XVal} (h : Keeps s₀ s) :
    KeepsRes s₀ (floatOp s c m late d srcs f) := by
  unfold Machine.floatOp
  dsimp only
  exact h.laneWordOp

theorem Keeps.elemOp {c : LaneCtl} {dt : FTy} {d : Opnd} {srcs : Sources} {f : FF → Nat → Nat → Nat}
    (h : Keeps s₀ s) :
    KeepsRes s₀ (elemOp s c dt d srcs f) := by
  unfold Machine.elemOp
  exact h.laneMap

@[simp] theorem Keeps.execVfadd {c : LaneCtl} {m : FMode} {d a b : Opnd} (h : Keeps s₀ s) :
    KeepsRes s₀ (execVfadd c m d a b s) := by
  unfold Machine.execVfadd
  exact h.floatOp

@[simp] theorem Keeps.execVfsub {c : LaneCtl} {m : FMode} {d a b : Opnd} (h : Keeps s₀ s) :
    KeepsRes s₀ (execVfsub c m d a b s) := by
  unfold Machine.execVfsub
  exact h.floatOp

@[simp] theorem Keeps.execVfmul {c : LaneCtl} {m : FMode} {d a b : Opnd} (h : Keeps s₀ s) :
    KeepsRes s₀ (execVfmul c m d a b s) := by
  unfold Machine.execVfmul
  exact h.floatOp

@[simp] theorem Keeps.execVfma {c : LaneCtl} {m : FMode} {na nc : Bool} {d a b x : Opnd} (h : Keeps s₀ s) :
    KeepsRes s₀ (execVfma c m na nc d a b x s) := by
  unfold Machine.execVfma
  exact h.floatOp

@[simp] theorem Keeps.execVfmin {c : LaneCtl} {dt : FTy} {d a b : Opnd} (h : Keeps s₀ s) :
    KeepsRes s₀ (execVfmin c dt d a b s) := by
  unfold Machine.execVfmin
  exact h.elemOp

@[simp] theorem Keeps.execVfmax {c : LaneCtl} {dt : FTy} {d a b : Opnd} (h : Keeps s₀ s) :
    KeepsRes s₀ (execVfmax c dt d a b s) := by
  unfold Machine.execVfmax
  exact h.elemOp

@[simp] theorem Keeps.execVfcmp {c : LaneCtl} {cond : FCond} {kd : BitVec 4} {a b : Opnd} (h : Keeps s₀ s) :
    KeepsRes s₀ (execVfcmp c cond kd a b s) := by
  unfold Machine.execVfcmp
  exact h.laneTest

@[simp] theorem Keeps.execVfrcp {c : LaneCtl} {m : FMode} {d a : Opnd} (h : Keeps s₀ s) :
    KeepsRes s₀ (execVfrcp c m d a s) := by
  unfold Machine.execVfrcp
  exact h.floatOp

@[simp] theorem Keeps.execVfrsq {c : LaneCtl} {m : FMode} {d a : Opnd} (h : Keeps s₀ s) :
    KeepsRes s₀ (execVfrsq c m d a s) := by
  unfold Machine.execVfrsq
  exact h.floatOp

@[simp] theorem Keeps.execVfsqrt {c : LaneCtl} {m : FMode} {d a : Opnd} (h : Keeps s₀ s) :
    KeepsRes s₀ (execVfsqrt c m d a s) := by
  unfold Machine.execVfsqrt
  exact h.floatOp

@[simp] theorem Keeps.execVfexp2 {c : LaneCtl} {m : FMode} {d a : Opnd} (h : Keeps s₀ s) :
    KeepsRes s₀ (execVfexp2 c m d a s) := by
  unfold Machine.execVfexp2
  exact h.floatOp

@[simp] theorem Keeps.execVflog2 {c : LaneCtl} {m : FMode} {d a : Opnd} (h : Keeps s₀ s) :
    KeepsRes s₀ (execVflog2 c m d a s) := by
  unfold Machine.execVflog2
  exact h.floatOp

@[simp] theorem Keeps.execVftanh {c : LaneCtl} {m : FMode} {d a : Opnd} (h : Keeps s₀ s) :
    KeepsRes s₀ (execVftanh c m d a s) := by
  unfold Machine.execVftanh
  exact h.floatOp

@[simp] theorem Keeps.execVfclass {c : LaneCtl} {dt : FTy} {d a : Opnd} (h : Keeps s₀ s) :
    KeepsRes s₀ (execVfclass c dt d a s) := by
  unfold Machine.execVfclass
  exact h.elemOp

@[simp] theorem Keeps.execVfaddImm {c : LaneCtl} {m : FMode} {d a : Opnd} {i : W32} (h : Keeps s₀ s) :
    KeepsRes s₀ (execVfaddImm c m d a i s) := by
  unfold Machine.execVfaddImm
  exact h.floatOp

@[simp] theorem Keeps.execVfsubImm {c : LaneCtl} {m : FMode} {d a : Opnd} {i : W32} (h : Keeps s₀ s) :
    KeepsRes s₀ (execVfsubImm c m d a i s) := by
  unfold Machine.execVfsubImm
  exact h.floatOp

@[simp] theorem Keeps.execVfmulImm {c : LaneCtl} {m : FMode} {d a : Opnd} {i : W32} (h : Keeps s₀ s) :
    KeepsRes s₀ (execVfmulImm c m d a i s) := by
  unfold Machine.execVfmulImm
  exact h.floatOp

@[simp] theorem Keeps.execVfminImm {c : LaneCtl} {dt : FTy} {d a : Opnd} {i : W32} (h : Keeps s₀ s) :
    KeepsRes s₀ (execVfminImm c dt d a i s) := by
  unfold Machine.execVfminImm
  exact h.elemOp

@[simp] theorem Keeps.execVfmaxImm {c : LaneCtl} {dt : FTy} {d a : Opnd} {i : W32} (h : Keeps s₀ s) :
    KeepsRes s₀ (execVfmaxImm c dt d a i s) := by
  unfold Machine.execVfmaxImm
  exact h.elemOp

@[simp] theorem Keeps.execVfcmpImm {c : LaneCtl} {cond : FCond} {kd : BitVec 4} {a : Opnd} {i : W32} (h : Keeps s₀ s) :
    KeepsRes s₀ (execVfcmpImm c cond kd a i s) := by
  unfold Machine.execVfcmpImm
  exact h.laneTest

/-! ## The operations of `Machine/Waybill` -/

theorem Keeps.holdMerge {die : Nat} {by_ : Option Nat} {d : Delta} {i : RecInfo} (h : Keeps s₀ s) :
    Keeps s₀ (s.holdMerge die by_ d i) := by
  unfold State.holdMerge
  dsimp only
  exact h.addRec.updDie

theorem Keeps.mergeDelta {die : Nat} {by_ : Option Nat} {d : Delta} (h : Keeps s₀ s) :
    Keeps s₀ (s.mergeDelta die by_ d) := by
  unfold State.mergeDelta
  dsimp only
  split
  · split
    · exact h.homeWriteX
    · exact h
  · exact h.holdMerge
  · exact h.holdMerge
  · exact h

theorem Keeps.mergeAs {by_ : Option Nat} {die : Nat} {p : Delta → Bool} (h : Keeps s₀ s) :
    Keeps s₀ (s.mergeAs by_ die p) := by
  unfold State.mergeAs
  dsimp only
  exact h.updDie.foldl fun t x ht => ht.mergeDelta

theorem Keeps.mergeWhere {die : Nat} {p : Delta → Bool} (h : Keeps s₀ s) : Keeps s₀ (s.mergeWhere die p) := by
  unfold State.mergeWhere
  exact h.mergeAs

theorem Keeps.mergeAll {vf : Nat} (h : Keeps s₀ s) : Keeps s₀ (s.mergeAll vf) := by
  unfold State.mergeAll
  exact h.foldl fun t x ht => ht.mergeWhere

theorem Keeps.retryMerges {recid : Nat} {by_ : Option Nat} (h : Keeps s₀ s) : Keeps s₀ (s.retryMerges recid by_) := by
  unfold State.retryMerges
  dsimp only
  refine h.foldl fun t x ht => ?_
  exact ht.updDie.foldl fun t x ht => ht.mergeDelta

theorem Keeps.dropMerges {recid : Nat} (h : Keeps s₀ s) : Keeps s₀ (s.dropMerges recid) := by
  unfold State.dropMerges
  exact h.foldl fun t x ht => ht.updDie

theorem Keeps.dropUpdates {tk : Nat} (h : Keeps s₀ s) : Keeps s₀ (s.dropUpdates tk) := by
  unfold State.dropUpdates
  exact h.foldl fun t x ht => ht.updDie

theorem Keeps.deltaRoom {die : Nat} (h : Keeps s₀ s) : Keeps s₀ (s.deltaRoom die) := by
  unfold State.deltaRoom
  split
  · split
    · exact h.mergeWhere
    · exact h
  · exact h

theorem Keeps.deltaPut {die : Nat} {d : Delta} (h : Keeps s₀ s) : Keeps s₀ (s.deltaPut die d) := by
  unfold State.deltaPut
  exact h.updDie

theorem Keeps.wbUpdate {tk die vf idx bits : Nat} (h : Keeps s₀ s) : Keeps s₀ (s.wbUpdate tk die vf idx bits) := by
  unfold State.wbUpdate
  dsimp only
  split
  · split
    · split
      · split
        · exact h.mergeWhere.deltaPut.mergeWhere
        · exact h.mergeWhere.deltaPut
      · split
        · exact h.deltaPut.mergeWhere
        · exact h.deltaPut
    · split
      · split
        · exact h.mergeWhere.deltaPut.mergeWhere
        · exact h.mergeWhere.deltaPut
      · split
        · exact h.deltaPut.mergeWhere
        · exact h.deltaPut
  · split
    · split
      · split
        · exact h.mergeWhere.deltaRoom.deltaPut.mergeWhere
        · exact h.mergeWhere.deltaRoom.deltaPut
      · split
        · exact h.deltaRoom.deltaPut.mergeWhere
        · exact h.deltaRoom.deltaPut
    · split
      · split
        · exact h.mergeWhere.deltaRoom.deltaPut.mergeWhere
        · exact h.mergeWhere.deltaRoom.deltaPut
      · split
        · exact h.deltaRoom.deltaPut.mergeWhere
        · exact h.deltaRoom.deltaPut

theorem Keeps.wbFeed {rk idx : Nat} {f : Fmt} {bits : Nat} (h : Keeps s₀ s) : Keeps s₀ (s.wbFeed rk idx f bits) := by
  unfold State.wbFeed
  split
  · exact h.logAdd
  · exact h.wbUpdate

theorem Keeps.wbPage {rk : Nat} {lane : Bool} {sub va ia : Nat} (h : Keeps s₀ s) :
    Keeps s₀ (s.wbPage rk lane sub va ia) := by
  unfold State.wbPage
  dsimp only
  exact h.addRec.updRole

@[simp] theorem Keeps.execWbsync {a : SReg} (h : Keeps s₀ s) : KeepsRes s₀ (execWbsync a s) := by
  unfold Machine.execWbsync
  dsimp only
  refine h.scalarOp (fun x0 x1 t h3 => ?_)
  split
  · exact h3.parkS
  · split
    · exact h3.raiseS
    · exact h3.wbPage
    · exact h3.machineCheck
    · split
      · exact h3.parkS
      · split
        · exact h3.mergeAs.parkS
        · exact h3.mergeAs.advance

@[simp] theorem Keeps.execWaybillMerge {die vf idx : Nat} (h : Keeps s₀ s) : KeepsRes s₀ (execWaybillMerge die vf idx s) := by
  unfold Machine.execWaybillMerge
  exact h.mergeWhere

@[simp] theorem Keeps.execWaybillAgeExpiry {die vf idx : Nat} (h : Keeps s₀ s) :
    KeepsRes s₀ (execWaybillAgeExpiry die vf idx s) := by
  unfold Machine.execWaybillAgeExpiry
  exact h.mergeWhere

/-! ## The operations of `Machine/LaneConv` -/

@[simp] theorem Keeps.execVcvt {c : LaneCtl} {sf df : Fmt} {rnd : Rnd} {sat : Bool} {esel : BitVec 3} {d a : Opnd}
    (h : Keeps s₀ s) :
    KeepsRes s₀ (execVcvt c sf df rnd sat esel d a s) := by
  unfold Machine.execVcvt
  dsimp only
  exact h.laneWordOp

theorem Keeps.waitUpdates {rk : Nat} (h : Keeps s₀ s) : Keeps s₀ (s.waitUpdates rk) := by
  unfold State.waitUpdates
  exact h.updRole

theorem Keeps.quantFrame {c : LaneCtl} {fs sel : BitVec 3} {dequant : Bool} {d a b : Opnd}
    {k : Nat → Slot → FF → XVal → Sources → LaneCx → Lanes → Res} (h : Keeps s₀ s)
        (hk : ∀ x0 x1 x2 x3 x4 x5 x6, KeepsRes s₀ (k x0 x1 x2 x3 x4 x5 x6)) :
    KeepsRes s₀ (quantFrame s c fs sel dequant d a b k) := by
  unfold Machine.quantFrame
  dsimp only
  split
  · refine h.laneFrameR (fun x0 x1 => ?_)
    split
    · exact h.laneFault
    · split
      · exact h.laneFault
      · split
        · exact h.waitUpdates
        · split
          · exact h.laneFault
          · exact h.wbPage
          · show Keeps _ _
            refine h.precise ?_
            exact h.machineCheck
          · exact hk _ _ _ _ _ _ _
  · exact h.laneFault
  · trivial

@[simp] theorem Keeps.execVqnt {c : LaneCtl} {fs dsel : BitVec 3} {d a b : Opnd} (h : Keeps s₀ s) :
    KeepsRes s₀ (execVqnt c fs dsel d a b s) := by
  unfold Machine.execVqnt
  dsimp only
  refine h.quantFrame (fun x0 x1 x2 x3 x4 x5 x6 => ?_)
  split
  · split
    · split
      · exact h.updRole
      · exact h.userTrap
    · exact h.laneFinish
  · split
    · split
      · split
        · exact h.updRole
        · exact h.userTrap
      · exact h.laneFinish
    · split
      · split
        · exact h.updRole
        · exact h.userTrap
      · exact h.laneFinish

@[simp] theorem Keeps.execVdqnt {c : LaneCtl} {fs esel : BitVec 3} {d a b : Opnd} (h : Keeps s₀ s) :
    KeepsRes s₀ (execVdqnt c fs esel d a b s) := by
  unfold Machine.execVdqnt
  dsimp only
  refine h.quantFrame (fun x0 x1 x2 x3 x4 x5 x6 => ?_)
  exact h.laneFinish

@[simp] theorem Keeps.execVpack {c : LaneCtl} {df : Fmt} {rnd : Rnd} {sat : Bool} {pos : BitVec 2} {d a b : Opnd}
    (h : Keeps s₀ s) :
    KeepsRes s₀ (execVpack c df rnd sat pos d a b s) := by
  unfold Machine.execVpack
  dsimp only
  refine h.laneFrameR (fun x0 x1 => ?_)
  exact h.laneFinish

@[simp] theorem Keeps.execVunpk {c : LaneCtl} {sf : Fmt} {pos : BitVec 2} {d a : Opnd} (h : Keeps s₀ s) :
    KeepsRes s₀ (execVunpk c sf pos d a s) := by
  unfold Machine.execVunpk
  dsimp only
  exact h.laneMap

theorem Keeps.wbFeedAll {rk : Nat} {f : Fmt} {us : List (Nat × Nat)} (h : Keeps s₀ s) :
    Keeps s₀ (s.wbFeedAll rk f us) := by
  unfold State.wbFeedAll
  exact h.foldl fun t x ht => ht.wbFeed

@[simp] theorem Keeps.execVwbupd {c : LaneCtl} {dt : FTy} {a b : Opnd} (h : Keeps s₀ s) :
    KeepsRes s₀ (execVwbupd c dt a b s) := by
  unfold Machine.execVwbupd
  dsimp only
  split
  · refine h.laneFrame (fun x0 x1 => ?_)
    split
    · exact h.waitUpdates
    · split
      · exact h.laneFault
      · exact h.wbPage
      · show Keeps _ _
        refine h.precise ?_
        exact h.machineCheck
      · split
        · exact h.laneFault
        · split
          · exact h.startService.waitUpdates
          · exact h.wbFeedAll.laneFinish
  · exact h.laneFault
  · trivial

/-! ## The operations of `Machine/LaneMem` -/

theorem Keeps.fillPend {rk pid lane dst n v : Nat} (h : Keeps s₀ s) : Keeps s₀ (s.fillPend rk pid lane dst n v) := by
  unfold State.fillPend
  exact h.updRole

theorem Keeps.storeUpdates {rk : Nat} {wb : Option (BitVec 3)} {n data : Nat} (h : Keeps s₀ s) :
    Keeps s₀ (s.storeUpdates rk wb n data) := by
  unfold State.storeUpdates
  dsimp only
  split
  · exact h
  · exact h.wbFeedAll

theorem Keeps.fillLoad {rk : Nat} {w : MemWord} {en : LogEntry} {a : LaneAcc} {sx : Bool} {v : Nat} (h : Keeps s₀ s) :
    Keeps s₀ (s.fillLoad rk w en a sx v) := by
  unfold State.fillLoad
  split
  · exact h.fillPend
  · exact h.fillPend

theorem Keeps.accUpdates {rk : Nat} {w : MemWord} {wb : Option (BitVec 3)} {a : LaneAcc} (h : Keeps s₀ s) :
    Keeps s₀ (s.accUpdates rk w wb a) := by
  unfold State.accUpdates
  split
  · exact h.storeUpdates
  · exact h

theorem Keeps.laneScratch {rk : Nat} {w : MemWord} {en : LogEntry} {a : LaneAcc} (h : Keeps s₀ s) :
    Keeps s₀ (s.laneScratch rk w en a) := by
  unfold State.laneScratch
  dsimp only
  split
  · refine Keeps.fillLoad ?_
    split
    · exact h.noteScratch.setFull
    · exact h.noteScratch
  · refine Keeps.accUpdates ?_
    split
    · exact h.scratchStore.setFull
    · exact h.scratchStore
  · split
    · exact h.scratchStore
    · exact h.scratchStore.fillPend

theorem Keeps.laneGlobal {rk : Nat} {w : MemWord} {en : LogEntry} {a : LaneAcc} {x : Xlat} (h : Keeps s₀ s) :
    Keeps s₀ (s.laneGlobal rk w en a x) := by
  unfold State.laneGlobal
  dsimp only
  split
  · exact h.updRole.fillLoad
  · exact h.storeX.accUpdates
  · split
    · exact h.atomWrite.noteAtom
    · exact h.atomWrite.noteAtom.fillPend

theorem Keeps.laneLogged {rk : Nat} {w : MemWord} {a : LaneAcc} (h : Keeps s₀ s) :
    Keeps s₀ (s.laneLogged rk w a) := by
  unfold State.laneLogged
  dsimp only
  split
  · exact h.logAdd.storeUpdates
  · exact h.logAdd
  · exact h

theorem Keeps.unreserve {rk : Nat} {w : MemWord} {a : LaneAcc} (h : Keeps s₀ s) : Keeps s₀ (s.unreserve rk w a) := by
  unfold State.unreserve
  dsimp only
  split
  · split
    · exact h
    · exact h.updTeam
  · split
    · exact h
    · exact h.updTeam

theorem Keeps.laneAccess {rk : Nat} {w : MemWord} {en : LogEntry} {a : LaneAcc} (h : Keeps s₀ s) :
    Keeps s₀ (s.laneAccess rk w en a) := by
  unfold State.laneAccess
  split
  · exact h.laneScratch
  · split
    · exact h.laneLogged
    · split
      · exact h.laneGlobal
      · exact h

theorem Keeps.performLanes {rk : Nat} {w : MemWord} {e : LogEntry} {as : List LaneAcc} (h : Keeps s₀ s) :
    Keeps s₀ (performLanes rk w e as s).1 := by
  induction as generalizing s with
  | nil => exact h
  | cons a as ih =>
    unfold Machine.performLanes
    split
    · exact h
    · exact ih h.laneAccess.unreserve

theorem Keeps.pageRecord {rk : Nat} {en : LogEntry} {sub va ia : Nat} {lanes : List Nat} (h : Keeps s₀ s) :
    Keeps s₀ (s.pageRecord rk en sub va ia lanes) := by
  unfold State.pageRecord
  dsimp only
  exact h.addRec

theorem Keeps.setHead {rk : Nat} {en : Option LogEntry} (h : Keeps s₀ s) : Keeps s₀ (s.setHead rk en) := by
  unfold State.setHead
  exact h.updRole

theorem Keeps.chargeLanes {rk : Nat} {w : MemWord} {as : List LaneAcc} (h : Keeps s₀ s) :
    Keeps s₀ (s.chargeLanes rk w as) := by
  unfold State.chargeLanes
  dsimp only
  split
  · split
    · exact h
    · exact h.chargeTeam
  · split
    · split
      · exact h
      · exact h.chargeTeam
    · split
      · exact h
      · exact h.chargeTeam

theorem Keeps.joinLog {rk n : Nat} (h : Keeps s₀ s) : Keeps s₀ (joinLog rk n s) := by
  induction n generalizing s with
  | zero => exact h
  | succ n ih =>
    unfold Machine.joinLog
    split
    · split
      · exact h
      · exact ih h.same
    · exact h

theorem Keeps.logHead {rk : Nat} {en : LogEntry} (h : Keeps s₀ s) : Keeps s₀ (s.logHead rk en) := by
  unfold State.logHead
  exact h.setHead.joinLog

theorem Keeps.performHead {rk : Nat} {w : MemWord} {en : LogEntry} (h : Keeps s₀ s) :
    Keeps s₀ ((s.performHead rk w en).1) := by
  unfold State.performHead
  dsimp only
  split
  · exact h
  · split
    · exact h.headCheck
    · split
      · split
        · exact h
        · exact h.startServices.logHead
      · split
        · exact h
        · exact h.pageRecord.logHead
      · exact h.headFault
      · exact h.headCheck
      · split
        · exact h.performLanes.chargeLanes.setHead.updRole.joinLog
        · exact h.performLanes.chargeLanes.setHead

theorem Keeps.kickFrom {rk n : Nat} (h : Keeps s₀ s) : Keeps s₀ (kickFrom rk n s) := by
  induction n generalizing s with
  | zero => exact h
  | succ n ih =>
    unfold Machine.kickFrom
    dsimp only
    split
    · exact h
    · split
      · exact h
      · split
        · exact ih h.same
        · split
          · exact h.stallAll
          · split
            · exact ih h.stallAll.performHead
            · exact h.stallAll.performHead

theorem Keeps.kick {rk : Nat} (h : Keeps s₀ s) : Keeps s₀ (s.kick rk) := by
  unfold State.kick
  split
  · exact h.kickFrom
  · exact h

theorem Keeps.issueMem {rk : Nat} {i : Instr} {w : MemWord} {data : Opnd} {c : LaneCtl} {cx : LaneCx} {l : Lanes}
    {srcs : Sources} {as : List LaneAcc} (h : Keeps s₀ s) :
    Keeps s₀ (s.issueMem rk i w data c cx l srcs as) := by
  unfold State.issueMem
  dsimp only
  split
  · split
    · split
      · exact h.updRole.updTeam.laneEnd.kick.updRole
      · exact h.updRole.updTeam.laneEnd.kick
    · split
      · exact h.updRole.updTeam.laneEnd.kick.updRole
      · exact h.updRole.updTeam.laneEnd.kick
  · split
    · exact h.updRole.updTeam.laneEnd.kick.updRole
    · exact h.updRole.updTeam.laneEnd.kick

theorem Keeps.laneAddrFault {rk : Nat} {w : MemWord} {as : List LaneAcc} {k : Nat} (h : Keeps s₀ s) :
    Keeps s₀ (s.laneAddrFault rk w as k) := by
  unfold State.laneAddrFault
  dsimp only
  refine h.precise ?_
  exact h.raise

theorem Keeps.memIssue {rk : Nat} {i : Instr} {w : MemWord} {data : Opnd} {c : LaneCtl} {cx : LaneCx} {l : Lanes}
    (h : Keeps s₀ s) :
    KeepsRes s₀ (s.memIssue rk i w data c cx l) := by
  unfold State.memIssue
  dsimp only
  split
  · exact h.laneFault
  · exact h.wbPage
  · show Keeps _ _
    refine h.precise ?_
    exact h.machineCheck
  · split
    · exact h.laneFault
    · split
      · exact h.laneAddrFault
      · split
        · exact h.laneFault
        · split
          · show Keeps _ _
            refine h.precise ?_
            exact h.machineCheck
          · exact h.issueMem

theorem Keeps.memOp {i : Instr} {w : MemWord} {c : LaneCtl} {data : Opnd} (h : Keeps s₀ s) :
    KeepsRes s₀ (memOp s i w c data) := by
  unfold Machine.memOp
  split
  · split
    · exact h.updRole
    · split
      · refine h.laneFrameR (fun x0 x1 => ?_)
        exact h.memIssue
      · exact h.laneFault
  · exact h.laneFault
  · trivial

@[simp] theorem Keeps.execVld {c : LaneCtl} {m : LMem} {sx : Bool} {data : Opnd} (h : Keeps s₀ s) :
    KeepsRes s₀ (execVld c m sx data s) := by
  unfold Machine.execVld
  exact h.memOp

@[simp] theorem Keeps.execVst {c : LaneCtl} {m : LMem} {wb : Option (BitVec 3)} {data : Opnd} (h : Keeps s₀ s) :
    KeepsRes s₀ (execVst c m wb data s) := by
  unfold Machine.execVst
  exact h.memOp

@[simp] theorem Keeps.execVlds {c : LaneCtl} {m : LMem} {sx : Bool} {data : Opnd} (h : Keeps s₀ s) :
    KeepsRes s₀ (execVlds c m sx data s) := by
  unfold Machine.execVlds
  exact h.memOp

@[simp] theorem Keeps.execVsts {c : LaneCtl} {m : LMem} {wb : Option (BitVec 3)} {data : Opnd} (h : Keeps s₀ s) :
    KeepsRes s₀ (execVsts c m wb data s) := by
  unfold Machine.execVsts
  exact h.memOp

@[simp] theorem Keeps.execVatom {c : LaneCtl} {m : LMem} {op : AOp} {red : Bool} {scope : Fin 7} {data : Opnd}
    (h : Keeps s₀ s) :
    KeepsRes s₀ (execVatom c m op red scope data s) := by
  unfold Machine.execVatom
  exact h.memOp

theorem Keeps.prefLine {rk : Nat} {l2 : Bool} {line : Nat} (h : Keeps s₀ s) : Keeps s₀ (s.prefLine rk l2 line) := by
  unfold State.prefLine
  dsimp only
  split
  · split
    · exact h
    · exact h.chargeTeam.update
  · split
    · exact h
    · exact h.chargeTeam.update

@[simp] theorem Keeps.execVpref {c : LaneCtl} {m : LMem} {l2 : Bool} (h : Keeps s₀ s) : KeepsRes s₀ (execVpref c m l2 s) := by
  unfold Machine.execVpref
  dsimp only
  split
  · refine h.laneFrame (fun x0 x1 => ?_)
    show Keeps _ _
    refine Keeps.laneFinish ?_
    split
    · exact h.startServices
    · exact h.foldl fun t x ht => ht.prefLine
  · exact h.laneFault
  · trivial

/-! ## The operations of `Machine/Matrix` -/

theorem Keeps.parkL {rk : Nat} {p : Park} (h : Keeps s₀ s) : Keeps s₀ (s.parkL rk p) := by
  unfold State.parkL
  exact h.updRole

theorem Keeps.join {w : LxWord} (h : Keeps s₀ s) : Keeps s₀ (s.join w) := by
  unfold State.join
  dsimp only
  split
  · exact h.parkL
  · split
    · exact h.foldl fun t x ht => ht.updRole
    · exact h.foldl fun t x ht => ht.updRole.raiseL

theorem Keeps.lxIssue {i : Instr} (h : Keeps s₀ s) : KeepsRes s₀ (lxIssue s i) := by
  unfold Machine.lxIssue
  dsimp only
  split
  · split
    · exact h.parkL
    · split
      · exact h.laneFault
      · exact h.wbPage
      · show Keeps _ _
        refine h.precise ?_
        exact h.machineCheck
      · show Keeps _ _
        split
        · exact h.updRole.updTeam.join
        · exact h.updRole.updTeam
  · exact h.laneFault
  · trivial

@[simp] theorem Keeps.execVmma {x : LxMul} (h : Keeps s₀ s) : KeepsRes s₀ (execVmma x s) := by
  unfold Machine.execVmma
  exact h.lxIssue

@[simp] theorem Keeps.execVmmas {x : LxMul} (h : Keeps s₀ s) : KeepsRes s₀ (execVmmas x s) := by
  unfold Machine.execVmmas
  exact h.lxIssue

@[simp] theorem Keeps.execVaccz {sw : Bool} {accview : BitVec 3} (h : Keeps s₀ s) : KeepsRes s₀ (execVaccz sw accview s) := by
  unfold Machine.execVaccz
  exact h.lxIssue

@[simp] theorem Keeps.execVaccrd {sw : Bool} {accview aview fsa : BitVec 3} {clr wb coff : Bool} (h : Keeps s₀ s) :
    KeepsRes s₀ (execVaccrd sw accview aview fsa clr wb coff s) := by
  unfold Machine.execVaccrd
  exact h.lxIssue

@[simp] theorem Keeps.execVaccsc {sw : Bool} {accview : BitVec 3} {bsel : BitVec 4} {add : Bool} (h : Keeps s₀ s) :
    KeepsRes s₀ (execVaccsc sw accview bsel add s) := by
  unfold Machine.execVaccsc
  exact h.lxIssue

theorem Keeps.leaveHold {id : Nat} {w : LxWord} (h : Keeps s₀ s) : Keeps s₀ (s.leaveHold id w) := by
  unfold State.leaveHold
  dsimp only
  exact h.leaveNear.updRole

theorem Keeps.acceptLx {ws : List LxWord} (h : Keeps s₀ s) : Keeps s₀ (s.acceptLx ws) := by
  unfold State.acceptLx
  dsimp only
  split
  · exact h
  · refine Keeps.updCore ?_
    exact Keeps.foldl (h.update) fun t x ht => ht.leaveHold

theorem Keeps.acceptRead {ws : List LxWord} (h : Keeps s₀ s) : Keeps s₀ (s.acceptRead ws) := by
  unfold State.acceptRead
  split
  · exact h.wbPage
  · refine Keeps.machineChecks ?_
    exact h.foldl fun t x ht => ht.unhold
  · exact h.acceptLx

@[simp] theorem Keeps.execLxAccept {rk : Nat} (h : Keeps s₀ s) : KeepsRes s₀ (execLxAccept rk s) := by
  unfold Machine.execLxAccept
  dsimp only
  split
  · exact h
  · split
    · exact h
    · split
      · exact h.startServices
      · split
        · exact h
        · exact h.acceptRead

theorem Keeps.lxRead {core idx granule : Nat} (h : Keeps s₀ s) : Keeps s₀ (s.lxRead core idx granule) := by
  unfold State.lxRead
  dsimp only
  split
  · exact h
  · split
    · exact h.updCore
    · exact h

theorem Keeps.lxCharge {j : LxJob} (h : Keeps s₀ s) : Keeps s₀ (s.lxCharge j) := by
  unfold State.lxCharge
  split
  · exact h
  · exact h.chargeTeam

theorem Keeps.lxNotes {j : LxJob} (h : Keeps s₀ s) : Keeps s₀ (s.lxNotes j) := by
  unfold State.lxNotes
  dsimp only
  split
  · exact h
  · exact h.foldl fun t x ht => ht.noteScratch

theorem Keeps.lxChecks {ws : List LxWord} {sub : Nat} (h : Keeps s₀ s) : Keeps s₀ (s.lxChecks ws sub) := by
  unfold State.lxChecks
  dsimp only
  split
  · exact h
  · split
    · refine Keeps.abortTeam ?_
      exact h.foldl fun t x ht => ht.addRec
    · exact h.foldl fun t x ht => ht.addRec.updRole

theorem Keeps.lxFails {j : LxJob} (h : Keeps s₀ s) (e : s.lxFails j = some t) : Keeps s₀ t := by
  unfold State.lxFails at e
  dsimp only at e
  split at e
  · cases e
    exact h.lxChecks
  · split at e
    · cases e
      refine Keeps.lxChecks ?_
      exact h.foldl fun t x ht => ht.updCore
    · cases e

theorem Keeps.lxRepair {j : LxJob} (h : Keeps s₀ s) : Keeps s₀ (s.lxRepair j) := by
  unfold State.lxRepair
  dsimp only
  refine h.foldl fun t x ht => ?_
  split
  · exact ht
  · exact ht.repair

@[simp] theorem Keeps.execLxStart {core : Nat} (h : Keeps s₀ s) : KeepsRes s₀ (execLxStart core s) := by
  unfold Machine.execLxStart
  dsimp only
  split
  · exact h
  · split
    · exact h
    · split
      · exact (h.lxFails ‹_›).update
      · exact h.lxRepair.lxCharge.lxNotes.updCore.update

theorem Keeps.lxTake {core : Nat} {n : LxJob → Nat} (h : Keeps s₀ s) : Keeps s₀ (s.lxTake core n) := by
  unfold State.lxTake
  dsimp only
  split
  · exact h.updCore.updCluster
  · exact h

theorem Keeps.lxStep {core : Nat} (h : Keeps s₀ s) : Keeps s₀ (s.lxStep core) := by
  unfold State.lxStep
  exact h.lxTake

theorem Keeps.lxEvents {j : LxJob} (h : Keeps s₀ s) : Keeps s₀ (s.lxEvents j) := by
  unfold State.lxEvents
  split
  · exact h
  · split
    · exact h.matrixEvents
    · exact h.satEvents

theorem Keeps.lxUpdates {j : LxJob} (h : Keeps s₀ s) : Keeps s₀ (s.lxUpdates j) := by
  unfold State.lxUpdates
  dsimp only
  split
  · split
    · exact h.updTeam.wbFeedAll
    · exact h
  · exact h

@[simp] theorem Keeps.execLxResultWrite {core : Nat} (h : Keeps s₀ s) : KeepsRes s₀ (execLxResultWrite core s) := by
  unfold Machine.execLxResultWrite
  dsimp only
  split
  · exact h
  · split
    · exact h
    · split
      · exact h.startService
      · split
        · show Keeps _ _
          refine Keeps.update ?_
          exact h.lxTake.updCore.lxEvents.lxUpdates.foldl fun t x ht => ht.updRole
        · exact h.lxTake.updCore.lxEvents

/-! ## The operations of `Machine/Engine` -/

theorem Keeps.updCmd {id q : Nat} {f : Cmd → Cmd} (h : Keeps s₀ s) : Keeps s₀ (s.updCmd id q f) := by
  unfold State.updCmd
  dsimp only
  split
  · exact h.update
  · exact h.updRole

theorem Keeps.updProg {id q : Nat} {f : Prog → Prog} (h : Keeps s₀ s) : Keeps s₀ (s.updProg id q f) := by
  unfold State.updProg
  exact h.updCmd

theorem Keeps.freeEntries {rk q : Nat} (h : Keeps s₀ s) : Keeps s₀ (s.freeEntries rk q) := by
  unfold State.freeEntries
  dsimp only
  split
  · exact h
  · exact h.updTeam

theorem Keeps.chargeCmd {id : Nat} {c : Cmd} (h : Keeps s₀ s) : Keeps s₀ (s.chargeCmd id c) := by
  unfold State.chargeCmd
  dsimp only
  split
  · exact h
  · split
    · exact h.chargeTeam
    · exact h.charge

theorem Keeps.cmdEnd {id q status done : Nat} (h : Keeps s₀ s) : Keeps s₀ (s.cmdEnd id q status done) := by
  unfold State.cmdEnd
  dsimp only
  split
  · exact h.chargeCmd.update
  · exact h.freeEntries.updCmd.update

theorem Keeps.engineOp {k : Nat → Nat → Cmd → Res} (h : Keeps s₀ s) (hk : ∀ x0 x1 x2, KeepsRes s₀ (k x0 x1 x2)) :
    KeepsRes s₀ (engineOp s k) := by
  unfold Machine.engineOp
  split
  · split
    · trivial
    · split
      · exact h
      · exact hk _ _ _
  · trivial

theorem Keeps.cmdPage {id q sub va ia : Nat} (h : Keeps s₀ s) : Keeps s₀ (s.cmdPage id q sub va ia) := by
  unfold State.cmdPage
  dsimp only
  exact h.addRec.updCmd

theorem Keeps.cmdLack {id q : Nat} {a3 : Lack} (h : Keeps s₀ s) : Keeps s₀ (s.cmdLack id q a3) := by
  unfold State.cmdLack
  split
  · exact h
  · exact h.cmdPage
  · exact h.startService

theorem Keeps.clearLost {ls : List Nat} (h : Keeps s₀ s) : Keeps s₀ (s.clearLost ls) := by
  unfold State.clearLost
  exact h.foldl fun t x ht => ht.updDie

theorem Keeps.copyWrite {rk : Nat} {cover : List Acc} {srcs : List (Nat × Nat × Nat)} {w : CopyW} (h : Keeps s₀ s)
    (e : s.copyWrite rk cover srcs w = some t) :
    Keeps s₀ t := by
  unfold State.copyWrite at e
  dsimp only at e
  split at e
  · split at e
    · cases e
    · cases e
      exact h.scratchStore.setFull
  · cases e
    exact h.update
  · split at e
    · cases e
    · split at e
      · cases e
        exact h.clearLost.homeWriteX
      · cases e

theorem Keeps.chargeMove {id q : Nat} {home : Bool} {prev : Option Acc} {a : Acc} (h : Keeps s₀ s) :
    Keeps s₀ (s.chargeMove id q home prev a) := by
  unfold State.chargeMove
  dsimp only
  split
  · exact h.updCmd.updCluster
  · exact h.updCmd

theorem Keeps.noteReads {rk : Nat} {as : List Acc} (h : Keeps s₀ s) : Keeps s₀ (s.noteReads rk as) := by
  unfold State.noteReads
  refine h.foldl fun t x ht => ?_
  split
  · exact ht.noteScratch
  · exact ht

theorem Keeps.tokenAdd {src : Nat} {x : Xlat} {v : Nat} (h : Keeps s₀ s) : Keeps s₀ (s.tokenAdd src x v) := by
  unfold State.tokenAdd
  exact h.homeWriteX.noteHome

theorem Keeps.cmdWait {rk q : Nat} {c : Cmd} {wt : Option (W64 × W64)} {k : State → Res} (h : Keeps s₀ s)
    (hk : ∀ t, Keeps s₀ t → KeepsRes s₀ (k t)) :
    KeepsRes s₀ (s.cmdWait rk q c wt k) := by
  unfold State.cmdWait
  split
  · exact hk _ h
  · split
    · exact hk _ h
    · split
      · exact hk _ h.updCmd
      · exact h
      · exact h.cmdEnd
      · exact h.cmdPage

theorem Keeps.releaseWait {rk q : Nat} (h : Keeps s₀ s) : Keeps s₀ (s.releaseWait rk q) := by
  unfold State.releaseWait
  split
  · split
    · split
      · exact h.updCmd
      · exact h
    · exact h
  · exact h

theorem Keeps.startCmd {rk q : Nat} (h : Keeps s₀ s) : Keeps s₀ (s.startCmd rk q) := by
  unfold State.startCmd
  dsimp only
  split
  · split
    · exact h.updRole
    · exact h
  · split
    · exact h
    · exact h.updRole
  · exact h

theorem Keeps.postResult {s0 : State} {rk q : Nat} {c : Cmd} {status done : Nat} (h : Keeps s₀ s0) :
    Keeps s₀ (s0.postResult rk q c status done) := by
  unfold State.postResult
  dsimp only
  split
  · refine Keeps.addEvents ?_
    split
    · exact h.chargeCmd.updRole
    · exact h.chargeCmd.failQ
  · split
    · exact h.chargeCmd.updRole
    · exact h.chargeCmd.failQ

theorem Keeps.completeCmd {rk q : Nat} (h : Keeps s₀ s) : Keeps s₀ (s.completeCmd rk q) := by
  unfold State.completeCmd
  split
  · split
    · split
      · exact h.postResult
      · exact h
    · exact h
  · exact h

/-! ## The operations of `Machine/Copy` -/

theorem Keeps.beginCmd {id q : Nat} {p : Plan} {bulk : Bool} {seed : W32} (h : Keeps s₀ s) :
    Keeps s₀ (s.beginCmd id q p bulk seed) := by
  unfold State.beginCmd
  dsimp only
  exact h.updProg

/-- The state that a turn comes to. -/
@[reducible] def Turn.state : Turn → State
  | .go s => s
  | .stay s => s
  | .wait s => s
  | .done s => s

theorem Keeps.ofGo {r : Turn} (h : Keeps s₀ r.state) (e : r = .go t) : Keeps s₀ t := by
  rwa [e] at h

theorem Keeps.ofStay {r : Turn} (h : Keeps s₀ r.state) (e : r = .stay t) : Keeps s₀ t := by
  rwa [e] at h

theorem Keeps.ofWait {r : Turn} (h : Keeps s₀ r.state) (e : r = .wait t) : Keeps s₀ t := by
  rwa [e] at h

theorem Keeps.ofDone {r : Turn} (h : Keeps s₀ r.state) (e : r = .done t) : Keeps s₀ t := by
  rwa [e] at h

theorem Keeps.courseRead {id q : Nat} {e : Read} (h : Keeps s₀ s) : Keeps s₀ (s.courseRead id q e).state := by
  unfold State.courseRead
  dsimp only
  split
  · exact h
  · split
    · split
      · exact h.noteReads.chargeMove.updProg
      · exact h.updProg
    · exact h.cmdLack

theorem Keeps.courseWrite {id q : Nat} {home : Bool} {put : Put} {prev : Option CopyW} {w : CopyW} (h : Keeps s₀ s)
    (hput : ∀ t n w u, Keeps s₀ t → put t n w = some u → Keeps s₀ u) :
    Keeps s₀ (s.courseWrite id q home put prev w).state := by
  unfold State.courseWrite
  dsimp only
  split
  · exact h
  · split
    · split
      · exact (hput _ _ _ _ h ‹_›).chargeMove.updProg
      · exact h.updProg
    · exact h.cmdLack

theorem Keeps.courseReads {id q n : Nat} {es : List Read} (h : Keeps s₀ s) : Keeps s₀
    (courseReads id q es n s).1.state := by
  induction es generalizing n s with
  | nil => exact h
  | cons e es ih =>
    cases n with
    | zero => exact h
    | succ n =>
      unfold Machine.courseReads
      split
      · exact ih h
      · split
        · exact ih (h.courseRead.ofGo ‹_›)
        · exact h.courseRead

theorem Keeps.courseWrites {id q n : Nat} {home : Bool} {put : Put} {ws : List CopyW} {prev : Option CopyW}
    (h : Keeps s₀ s)
    (hput : ∀ t n w u, Keeps s₀ t → put t n w = some u → Keeps s₀ u) :
    Keeps s₀ (courseWrites id q home put ws prev n s).state := by
  induction ws generalizing prev n s with
  | nil => exact h
  | cons w ws ih =>
    cases n with
    | zero => exact h
    | succ n =>
      unfold Machine.courseWrites
      split
      · exact ih ((h.courseWrite hput).ofGo ‹_›)
      · exact h.courseWrite hput

theorem Keeps.courseStep {id q : Nat} {x : Course} {put : Put} {todo : List Read} {e : Read} (h : Keeps s₀ s)
    (hput : ∀ t n w u, Keeps s₀ t → put t n w = some u → Keeps s₀ u) :
    Keeps s₀ (s.courseStep id q x put todo e).state := by
  unfold State.courseStep
  dsimp only
  split
  · split
    · exact h.courseWrite hput
    · exact h.courseRead
  · exact h.courseRead

theorem Keeps.courseMix {id q n : Nat} {x : Course} {put : Put} (h : Keeps s₀ s)
    (hput : ∀ t n w u, Keeps s₀ t → put t n w = some u → Keeps s₀ u) : Keeps s₀
        (courseMix id q x put n s).1.state := by
  induction n generalizing s with
  | zero => exact h
  | succ n ih =>
    unfold Machine.courseMix
    dsimp only
    split
    · exact h
    · split
      · exact ih ((h.courseStep hput).ofGo ‹_›)
      · exact h.courseStep hput

theorem Keeps.courseGo {id q n : Nat} {x : Course} {put : Put} (h : Keeps s₀ s)
    (hput : ∀ t n w u, Keeps s₀ t → put t n w = some u → Keeps s₀ u) : Keeps s₀ (courseGo id q x put n s).state := by
  have hr : Keeps s₀ (if x.eager && s.pace.isSome then Machine.courseMix id q x put n s
      else Machine.courseReads id q (s.readOrder (x.todo (s.prog id q))) n s).1.state := by
    split
    · exact h.courseMix hput
    · exact h.courseReads
  unfold Machine.courseGo
  dsimp only
  generalize (if x.eager && s.pace.isSome then Machine.courseMix id q x put n s
    else Machine.courseReads id q (s.readOrder (x.todo (s.prog id q))) n s) = r at hr ⊢
  split
  · exact Keeps.courseWrites hr hput
  · exact hr

theorem Keeps.coursePause {id q : Nat} {x : Course} (h : Keeps s₀ s) : Keeps s₀ (s.coursePause id q x) := by
  unfold State.coursePause
  dsimp only
  exact h.updProg.update

theorem Keeps.courseStall {id q : Nat} {x : Course} (h : Keeps s₀ s) : Keeps s₀ (s.courseStall id q x) := by
  unfold State.courseStall
  exact h.stallAll

theorem Keeps.runCourse {id q : Nat} {x : Course} {put : Put} {fin : State → Res} (h : Keeps s₀ s)
    (hput : ∀ t n w u, Keeps s₀ t → put t n w = some u → Keeps s₀ u) (hfin : ∀ t, Keeps s₀ t → KeepsRes s₀ (fin t)) :
    KeepsRes s₀ (s.runCourse id q x put fin) := by
  unfold State.runCourse
  split
  · exact ((h.courseGo hput).ofGo ‹_›).coursePause
  · exact ((h.courseGo hput).ofStay ‹_›).coursePause
  · exact ((h.courseGo hput).ofWait ‹_›).courseStall.coursePause
  · have hd := (h.courseGo hput).ofDone ‹_›
    split
    · exact hd.cmdEnd
    · exact hfin _ hd

theorem Keeps.runPlan {rk q : Nat} {c : Cmd} {p : Plan} {bulk : Bool} {k : State → Res} (h : Keeps s₀ s)
    (hk : ∀ t, Keeps s₀ t → KeepsRes s₀ (k t)) :
    KeepsRes s₀ (s.runPlan rk q c p bulk k) := by
  unfold State.runPlan
  split
  · exact hk _ h
  · split
    · exact h.cmdEnd
    · exact hk _ h.beginCmd

theorem Keeps.copyEnd {rk q : Nat} (h : Keeps s₀ s) : Keeps s₀ (s.copyEnd rk q) := by
  unfold State.copyEnd
  dsimp only
  exact h.cmdEnd

theorem Keeps.copyPut {rk q i : Nat} {p : Plan} {srcs : List (Nat × Nat × Nat)} {w : CopyW} (h : Keeps s₀ s)
    (e : copyPut rk q p srcs s i w = some t) : Keeps s₀ t := by
  unfold Machine.copyPut at e
  obtain ⟨u, hu, rfl⟩ := Option.map_eq_some_iff.mp e
  exact (h.copyWrite hu).updCmd

theorem Keeps.copyElems {rk q : Nat} {c : Cmd} {p : Plan} (h : Keeps s₀ s) : KeepsRes s₀ (s.copyElems rk q c p) := by
  unfold State.copyElems
  refine h.runPlan (fun t h1 => ?_)
  refine h1.runCourse (fun t n w u h4 e => ?_) (fun t h1 => ?_)
  · exact h4.copyPut e
  · exact h1.copyEnd

@[simp] theorem Keeps.execCp {x : CpCmd} (h : Keeps s₀ s) : KeepsRes s₀ (execCp x s) := by
  unfold Machine.execCp
  refine h.engineOp (fun x0 x1 x2 => ?_)
  refine h.cmdWait (fun t h1 => ?_)
  exact h1.copyElems

@[simp] theorem Keeps.execFill {x : FillCmd} (h : Keeps s₀ s) : KeepsRes s₀ (execFill x s) := by
  unfold Machine.execFill
  refine h.engineOp (fun x0 x1 x2 => ?_)
  refine h.cmdWait (fun t h1 => ?_)
  refine h1.runPlan (fun t h1 => ?_)
  refine h1.runCourse (fun t n w u h4 e => ?_) (fun t h1 => ?_)
  · exact h4.copyPut e
  · exact h1.copyEnd

@[simp] theorem Keeps.execGath {x : GathCmd} (h : Keeps s₀ s) : KeepsRes s₀ (execGath x s) := by
  unfold Machine.execGath
  dsimp only
  refine h.engineOp (fun x0 x1 x2 => ?_)
  refine h.cmdWait (fun t h1 => ?_)
  split
  · exact h1.copyElems
  · refine h1.runPlan (fun t h1 => ?_)
    refine h1.runCourse (fun t n w u h4 e => ?_) (fun t h1 => ?_)
    · cases e
    · split
      · exact h1.cmdEnd
      · exact h1.updProg.copyElems

theorem Keeps.cpcvEnd {rk q : Nat} {c : Cmd} {x : CpcvCmd} {sl : Slot} {ff : FF} {scale : XVal} (h : Keeps s₀ s) :
    Keeps s₀ (s.cpcvEnd rk q c x sl ff scale) := by
  unfold State.cpcvEnd
  dsimp only
  split
  · exact h.startService
  · refine Keeps.satEvents ?_
    refine Keeps.copyEnd ?_
    split
    · exact h.foldl fun t x ht => ht.wbFeed
    · exact h

theorem Keeps.cpcvRun {rk q : Nat} {c : Cmd} {x : CpcvCmd} {sl : Slot} {ff : FF} {scale : XVal} (h : Keeps s₀ s) :
    KeepsRes s₀ (s.cpcvRun rk q c x sl ff scale) := by
  unfold State.cpcvRun
  refine h.runCourse (fun t n w u h4 e => ?_) (fun t h1 => ?_)
  · exact h4.copyPut e
  · exact h1.cpcvEnd

theorem Keeps.cmdWbPage {rk q sub va ia : Nat} (h : Keeps s₀ s) : Keeps s₀ (s.cmdWbPage rk q sub va ia) := by
  unfold State.cmdWbPage
  dsimp only
  exact h.addRec.updCmd

theorem Keeps.chargeSlot {rk q : Nat} {sl : Slot} (h : Keeps s₀ s) : Keeps s₀ (s.chargeSlot rk q sl) := by
  unfold State.chargeSlot
  split
  · exact h.chargeMove
  · exact h

theorem Keeps.cpcvBegin {rk q : Nat} {x : CpcvCmd} {sl : Slot} {scale : Nat} (h : Keeps s₀ s) :
    Keeps s₀ (s.cpcvBegin rk q x sl scale) := by
  unfold State.cpcvBegin
  dsimp only
  refine Keeps.updProg ?_
  refine Keeps.chargeSlot ?_
  split
  · exact h
  · exact h.updTeam

theorem Keeps.cpcvStart {rk q : Nat} {c : Cmd} {x : CpcvCmd} {sl : Slot} {k : FF → XVal → State → Res}
    (h : Keeps s₀ s) (hk : ∀ x0 x1 t, Keeps s₀ t → KeepsRes s₀ (k x0 x1 t)) :
    KeepsRes s₀ (s.cpcvStart rk q c x sl k) := by
  unfold State.cpcvStart
  dsimp only
  split
  · exact h.cmdEnd
  · split
    · exact h.cmdEnd
    · split
      · exact hk _ _ _ h
      · split
        · exact h.cmdEnd
        · split
          · exact h
          · split
            · exact h.cmdEnd
            · exact h.cmdWbPage
            · exact h.cmdEnd
            · split
              · show Keeps _ _
                split
                · exact h.raiseS
                · exact h
              · refine h.runPlan (fun t h1 => ?_)
                exact hk _ _ _ h1.cpcvBegin

@[simp] theorem Keeps.execCpcv {x : CpcvCmd} (h : Keeps s₀ s) : KeepsRes s₀ (execCpcv x s) := by
  unfold Machine.execCpcv
  dsimp only
  refine h.engineOp (fun x0 x1 x2 => ?_)
  refine h.cmdWait (fun t h1 => ?_)
  refine h1.cpcvStart (fun x0 x1 t h3 => ?_)
  exact h3.cpcvRun

theorem Keeps.signal {rk : Nat} {a2 : Signal} (h : Keeps s₀ s) (e : s.signal rk a2 = some t) : Keeps s₀ t := by
  unfold State.signal at e
  split at e
  · cases e
    exact h
  · split at e
    · cases e
      exact h.tokenAdd
    · cases e
  · split at e
    · cases e
    · cases e
      exact h.scratchStore

theorem Keeps.rdstFeed {rk : Nat} {x : RdstCmd} {sl : Slot} {raw bits : Nat} (h : Keeps s₀ s) :
    Keeps s₀ (s.rdstFeed rk x sl raw bits) := by
  unfold State.rdstFeed
  split
  · exact h
  · split
    · exact h.wbFeed
    · exact h.wbFeed

theorem Keeps.rdstPut {rk q : Nat} {x : RdstCmd} {ff : FF} {sl : Slot} {srcs : List (Nat × Nat × Nat)} {i : Nat}
    {w : CopyW} (h : Keeps s₀ s) (e : rdstPut rk q x ff sl srcs s i w = some t) :
    Keeps s₀ t := by
  unfold Machine.rdstPut at e
  dsimp only at e
  split at e
  · cases e
    exact h.homeWriteX.noteHome.updProg.rdstFeed.satEvents
  · cases e

theorem Keeps.signalEnd {rk q : Nat} {sig : Signal} (h : Keeps s₀ s) : KeepsRes s₀ (s.signalEnd rk q sig) := by
  unfold State.signalEnd
  dsimp only
  split
  · exact h.cmdEnd
  · split
    · exact h.stallAll
    · split
      · split
        · show Keeps _ _
          refine Keeps.cmdEnd ?_
          exact (h.signal ‹_›).foldl fun t x ht => ht.chargeMove
        · exact h.cmdEnd
      · exact h.cmdLack

theorem Keeps.rdstStart {rk q : Nat} {x : RdstCmd} {sl : Slot} {k : State → Res} (h : Keeps s₀ s)
    (hk : ∀ t, Keeps s₀ t → KeepsRes s₀ (k t)) :
    KeepsRes s₀ (s.rdstStart rk q x sl k) := by
  unfold State.rdstStart
  split
  · exact hk _ h
  · split
    · exact h.cmdEnd
    · exact h.cmdWbPage
    · exact h.cmdEnd
    · exact hk _ h

@[simp] theorem Keeps.execRdst {x : RdstCmd} (h : Keeps s₀ s) : KeepsRes s₀ (execRdst x s) := by
  unfold Machine.execRdst
  dsimp only
  refine h.engineOp (fun x0 x1 x2 => ?_)
  refine h.cmdWait (fun t h1 => ?_)
  split
  · exact h1.cmdEnd
  · refine h1.rdstStart (fun t h1 => ?_)
    split
    · exact h1.cmdEnd
    · refine h1.runPlan (fun t h1 => ?_)
      refine h1.runCourse (fun t n w u h4 e => ?_) (fun t h1 => ?_)
      · exact h4.rdstPut e
      · split
        · exact h1
        · exact h1.signalEnd

@[simp] theorem Keeps.execSig {x : SigCmd} (h : Keeps s₀ s) : KeepsRes s₀ (execSig x s) := by
  unfold Machine.execSig
  dsimp only
  refine h.engineOp (fun x0 x1 x2 => ?_)
  refine h.cmdWait (fun t h1 => ?_)
  split
  · exact h1.cmdEnd
  · refine h1.runPlan (fun t h1 => ?_)
    exact h1.signalEnd

@[simp] theorem Keeps.execCopyWtRelease {rk q : Nat} (h : Keeps s₀ s) : KeepsRes s₀ (execCopyWtRelease rk q s) := by
  unfold Machine.execCopyWtRelease
  exact h.releaseWait

@[simp] theorem Keeps.execCopyComplete {rk q : Nat} (h : Keeps s₀ s) : KeepsRes s₀ (execCopyComplete rk q s) := by
  unfold Machine.execCopyComplete
  dsimp only
  split
  · exact h
  · split
    · exact h
    · split
      · exact h.abortTeam
      · split
        · exact h.completeCmd.updRole
        · exact h.completeCmd

@[simp] theorem Keeps.execCpcvRescaleTrap {rk : Nat} (h : Keeps s₀ s) : KeepsRes s₀ (execCpcvRescaleTrap rk s) := by
  unfold Machine.execCpcvRescaleTrap
  dsimp only
  split
  · exact h.updRole.userTrap
  · exact h

/-! ## The operations of `Machine/Depot` -/

theorem Keeps.notePages {tk : Nat} {x : Xlat} (h : Keeps s₀ s) : Keeps s₀ (s.notePages tk x) := by
  unfold State.notePages
  exact h.updTask

theorem Keeps.rowPage {key sub va ia : Nat} (h : Keeps s₀ s) : Keeps s₀ (s.rowPage key sub va ia) := by
  unfold State.rowPage
  dsimp only
  exact h.addRec.setRow

theorem Keeps.depotOp {k : Nat → DTask → LaneCx → Lanes → Res} (h : Keeps s₀ s)
    (hk : ∀ x0 x1 x2 x3, KeepsRes s₀ (k x0 x1 x2 x3)) :
    KeepsRes s₀ (depotOp s k) := by
  unfold Machine.depotOp
  split
  · split
    · exact h
    · exact hk _ _ _ _
  · exact h.laneFault
  · trivial

theorem Keeps.rowOutcome {key : Nat} {o : DAcc} {k : Unit → State} (h : Keeps s₀ s) (hk : ∀ x0, Keeps s₀ (k x0)) :
    Keeps s₀ (rowOutcome s key o k) := by
  unfold Machine.rowOutcome
  split
  · exact hk _
  · exact h.rowEnd
  · exact h.rowPage
  · exact h
  · exact hk _

theorem Keeps.noteAll {tk : Nat} {as : List (Nat × DAcc)} (h : Keeps s₀ s) : Keeps s₀ (s.noteAll tk as) := by
  unfold State.noteAll
  refine h.foldl fun t x ht => ?_
  split
  · exact ht.notePages
  · exact ht

@[simp] theorem Keeps.execDldr {c : LaneCtl} {m : LMem} {sx : Bool} {data : Opnd} (h : Keeps s₀ s) :
    KeepsRes s₀ (execDldr c m sx data s) := by
  unfold Machine.execDldr
  dsimp only
  refine h.depotOp (fun x0 x1 x2 x3 => ?_)
  show Keeps _ _
  refine h.rowOutcome (fun x0 => ?_)
  split
  · exact h.noteAll.setRow
  · exact h.noteAll.laneDone

theorem Keeps.rowUpdates {key : Nat} {dt : DTask} {wb : Option (BitVec 3)} {n data : Nat} (h : Keeps s₀ s) :
    Keeps s₀ (s.rowUpdates key dt wb n data) := by
  unfold State.rowUpdates
  dsimp only
  split
  · exact h
  · exact h.foldl fun t x ht => ht.wbUpdate

theorem Keeps.rowFeeds {key : Nat} {dt : DTask} {wb : Option (BitVec 3)} {n : Nat} {vs : List Nat} (h : Keeps s₀ s) :
    Keeps s₀ (s.rowFeeds key dt wb n vs) := by
  unfold State.rowFeeds
  exact h.foldl fun t x ht => ht.rowUpdates

@[simp] theorem Keeps.execDstr {c : LaneCtl} {m : LMem} {wb : Option (BitVec 3)} {data : Opnd} (h : Keeps s₀ s) :
    KeepsRes s₀ (execDstr c m wb data s) := by
  unfold Machine.execDstr
  dsimp only
  refine h.depotOp (fun x0 x1 x2 x3 => ?_)
  show Keeps _ _
  refine h.rowOutcome (fun x0 => ?_)
  split
  · refine Keeps.update ?_
    refine Keeps.setRow ?_
    refine h.noteAll.foldl fun t x ht => ?_
    split
    · split
      · exact ht.depotWriteX
      · exact ht
    · exact ht
  · refine Keeps.laneDone ?_
    refine Keeps.rowFeeds ?_
    refine h.noteAll.foldl fun t x ht => ?_
    split
    · split
      · exact ht.depotWriteX
      · exact ht
    · exact ht

@[simp] theorem Keeps.execDwat {c : LaneCtl} {a b : Opnd} (h : Keeps s₀ s) : KeepsRes s₀ (execDwat c a b s) := by
  unfold Machine.execDwat
  dsimp only
  refine h.depotOp (fun x0 x1 x2 x3 => ?_)
  split
  · exact h.laneDone
  · show Keeps _ _
    refine h.rowOutcome (fun x0 => ?_)
    split
    · split
      · exact h.notePages.laneDone
      · exact h
    · exact h

@[simp] theorem Keeps.execDtok {c : LaneCtl} {a b : Opnd} (h : Keeps s₀ s) : KeepsRes s₀ (execDtok c a b s) := by
  unfold Machine.execDtok
  dsimp only
  refine h.depotOp (fun x0 x1 x2 x3 => ?_)
  split
  · exact h.laneDone
  · show Keeps _ _
    refine h.rowOutcome (fun x0 => ?_)
    split
    · exact h.notePages.tokenAdd.laneDone
    · exact h

@[simp] theorem Keeps.execDred {c : LaneCtl} {op : RedOp} {a b : Opnd} (h : Keeps s₀ s) :
    KeepsRes s₀ (execDred c op a b s) := by
  unfold Machine.execDred
  dsimp only
  refine h.depotOp (fun x0 x1 x2 x3 => ?_)
  split
  · exact h.laneDone
  · show Keeps _ _
    refine h.rowOutcome (fun x0 => ?_)
    split
    · exact h.notePages.homeWriteX.noteHome.laneDone
    · exact h

@[simp] theorem Keeps.execDend {_c : LaneCtl} (h : Keeps s₀ s) : KeepsRes s₀ (execDend _c s) := by
  unfold Machine.execDend
  refine h.depotOp (fun x0 x1 x2 x3 => ?_)
  exact h.rowEnd

@[simp] theorem Keeps.execTask {x : TaskCmd} (h : Keeps s₀ s) : KeepsRes s₀ (execTask x s) := by
  unfold Machine.execTask
  dsimp only
  refine h.engineOp (fun x0 x1 x2 => ?_)
  split
  · exact h
  · split
    · exact h.cmdEnd
    · exact h.cmdPage
    · exact h
    · exact h.update

theorem Keeps.taskDrop {rk status : Nat} (h : Keeps s₀ s) : Keeps s₀ (s.taskDrop rk status) := by
  unfold State.taskDrop
  dsimp only
  exact h.cmdEnd.update

theorem Keeps.taskWait {rk : Nat} {a v : W64} (h : Keeps s₀ s) : Keeps s₀ (s.taskWait rk a v) := by
  unfold State.taskWait
  split
  · split
    · exact h.updCmd
    · exact h
  · exact h
  · exact h.cmdPage
  · exact h.taskDrop

@[simp] theorem Keeps.execTaskWtRelease {rk : Nat} (h : Keeps s₀ s) : KeepsRes s₀ (execTaskWtRelease rk s) := by
  unfold Machine.execTaskWtRelease
  split
  · split
    · exact h.taskWait
    · exact h
  · exact h

theorem Keeps.startRow {rk r : Nat} {dt : DTask} (h : Keeps s₀ s) : Keeps s₀ (s.startRow rk r dt) := by
  unfold State.startRow
  dsimp only
  split
  · exact h
  · exact h.updTask
  · exact h.addRec.updTask.setRow
  · split
    · exact h.updTask.notePages.setRow
    · exact h.updTask

@[simp] theorem Keeps.execDepotRowStart {rk : Nat} (h : Keeps s₀ s) : KeepsRes s₀ (execDepotRowStart rk s) := by
  unfold Machine.execDepotRowStart
  dsimp only
  split
  · exact h
  · split
    · exact h.startRow
    · split
      · split
        · exact h
        · exact h.startRow
      · exact h

theorem Keeps.taskResult {rk status : Nat} (h : Keeps s₀ s) : Keeps s₀ (s.taskResult rk status) := by
  unfold State.taskResult
  dsimp only
  exact h.cmdEnd.update

theorem Keeps.taskFinish {rk : Nat} (h : Keeps s₀ s) : Keeps s₀ (s.taskFinish rk) := by
  unfold State.taskFinish
  dsimp only
  split
  · exact h.taskResult
  · split
    · exact h.taskResult
    · split
      · exact h.tokenAdd.taskResult
      · exact h.cmdPage
      · exact h
      · exact h.taskResult

@[simp] theorem Keeps.execTaskComplete {rk : Nat} (h : Keeps s₀ s) : KeepsRes s₀ (execTaskComplete rk s) := by
  unfold Machine.execTaskComplete
  split
  · exact h
  · split
    · exact h.completeCmd
    · split
      · exact h.taskFinish.completeCmd
      · exact h

/-! ## The operations of `Machine/Frames` -/

theorem Keeps.setPage {tk vpn : Nat} {p : SPage} (h : Keeps s₀ s) : Keeps s₀ (s.setPage tk vpn p) := by
  unfold State.setPage
  exact h.updTeam

theorem Keeps.backWrite {x : Xlat} {va : Nat} {bs : List Byte} (h : Keeps s₀ s) : Keeps s₀ (s.backWrite x va bs) := by
  unfold State.backWrite
  dsimp only
  split
  · split
    · exact h.homeWriteX
    · refine Keeps.addRec ?_
      refine Keeps.homeWriteX ?_
      exact h.foldl fun t x ht => ht.dropDirty
  · refine Keeps.homeWriteX ?_
    split
    · exact h
    · exact h.foldl fun t x ht => ht.dropDirty

theorem Keeps.writeBacking {tk vpn : Nat} (h : Keeps s₀ s) : Keeps s₀ ((s.writeBacking tk vpn).2) := by
  unfold State.writeBacking
  dsimp only
  split
  · exact h.backWrite.backWrite
  · exact h.backWrite
  · exact h

theorem Keeps.pushOut {tk vpn : Nat} (h : Keeps s₀ s) : Keeps s₀ ((s.pushOut tk vpn).2) := by
  unfold State.pushOut
  dsimp only
  split
  · exact (h.writeBacking.ofSnd ‹_›).setPage.chargeTeam
  · exact h.writeBacking

theorem Keeps.dropPage {tk vpn : Nat} (h : Keeps s₀ s) : Keeps s₀ ((s.dropPage tk vpn).2) := by
  unfold State.dropPage
  dsimp only
  split
  · split
    · exact (h.pushOut.ofSnd ‹_›).setPage
    · exact h.setPage
  · exact h.setPage

theorem Keeps.fromBacking {tk vpn : Nat} (h : Keeps s₀ s) : Keeps s₀ (s.fromBacking tk vpn) := by
  unfold State.fromBacking
  dsimp only
  split
  · exact h
  · split
    · exact h.updTeam
    · exact h

/-! ## The operations of `Machine/Preempt` -/

theorem Keeps.reuseSwid {core : Nat} (h : Keeps s₀ s) : Keeps s₀ (s.reuseSwid core) := by
  unfold State.reuseSwid
  dsimp only
  split
  · split
    · exact h
    · split
      · exact h.updCore
      · refine Keeps.updTeam ?_
        exact h.updCore.foldl fun t x ht => ht.dropPage
  · exact h

theorem Keeps.giveSwid {tk : Nat} (h : Keeps s₀ s) : Keeps s₀ (s.giveSwid tk) := by
  unfold State.giveSwid
  dsimp only
  exact h.reuseSwid.updCore.updTeam

theorem Keeps.dropSwid {tk : Nat} (h : Keeps s₀ s) : Keeps s₀ (s.dropSwid tk) := by
  unfold State.dropSwid
  split
  · exact h
  · exact h.updCore.updTeam

theorem Keeps.atBoundary {rk : Nat} (h : Keeps s₀ s) : Keeps s₀ (s.atBoundary rk) := by
  unfold State.atBoundary
  dsimp only
  exact Keeps.updRole (Keeps.unhold (Keeps.update (Keeps.kick (h.update))))

theorem Keeps.saveTeam {tk : Nat} (h : Keeps s₀ s) : Keeps s₀ (s.saveTeam tk) := by
  unfold State.saveTeam
  dsimp only
  exact h.scribble

theorem Keeps.reenter {tk : Nat} (h : Keeps s₀ s) : Keeps s₀ (s.reenter tk) := by
  unfold State.reenter
  dsimp only
  split
  · exact h.updTeam.update
  · exact h

theorem Keeps.suspendTeam {tk : Nat} {ph : TeamPhase} (h : Keeps s₀ s) : Keeps s₀ (s.suspendTeam tk ph) := by
  unfold State.suspendTeam
  dsimp only
  refine Keeps.reenter ?_
  refine Keeps.adopt ?_
  refine Keeps.postMeter ?_
  refine Keeps.update ?_
  refine Keeps.updCore ?_
  refine Keeps.saveTeam ?_
  refine Keeps.updTeam ?_
  refine Keeps.giveSwid ?_
  exact h.foldl fun t x ht => ht.atBoundary

theorem Keeps.settleTeam {tk : Nat} (h : Keeps s₀ s) : Keeps s₀ (s.settleTeam tk) := by
  unfold State.settleTeam
  split
  · split
    · exact h.suspendTeam
    · exact h
  · exact h

theorem Keeps.settle (h : Keeps s₀ s) : Keeps s₀ s.settle := by
  unfold State.settle
  exact h.foldl fun t x ht => ht.settleTeam

theorem Keeps.killTeam {s0 : State} {tk : Nat} (h : Keeps s₀ s0) : Keeps s₀ (s0.killTeam tk) := by
  unfold State.killTeam
  dsimp only
  split
  · exact h.updTeam
  · refine Keeps.adopt ?_
    refine Keeps.postMeter ?_
    refine Keeps.updLaunch ?_
    split
    · exact h.settleCmds.evictTeam.dropSwid.updTeam.updCore
    · exact h.settleCmds.evictTeam.dropSwid.updTeam

theorem Keeps.killUndispatched {vf : Nat} (h : Keeps s₀ s) : Keeps s₀ (s.killUndispatched vf) := h.same

@[simp] theorem Keeps.execPreemptGrace {vf : Nat} (h : Keeps s₀ s) : KeepsRes s₀ (execPreemptGrace vf s) := by
  unfold Machine.execPreemptGrace
  exact h.updVf.requestVf.settle

@[simp] theorem Keeps.execPreemptResume {vf : Nat} (h : Keeps s₀ s) : KeepsRes s₀ (execPreemptResume vf s) := by
  unfold Machine.execPreemptResume
  exact h.updVf

@[simp] theorem Keeps.execPreemptKillAll {vf : Nat} (h : Keeps s₀ s) : KeepsRes s₀ (execPreemptKillAll vf s) := by
  unfold Machine.execPreemptKillAll
  show Keeps _ _
  refine Keeps.killUndispatched ?_
  exact h.foldl fun t x ht => ht.killTeam

@[simp] theorem Keeps.execPreemptAbort {vf : Nat} (h : Keeps s₀ s) : KeepsRes s₀ (execPreemptAbort vf s) := by
  unfold Machine.execPreemptAbort
  dsimp only
  show Keeps _ _
  refine Keeps.settle ?_
  refine Keeps.requestVf ?_
  exact h.updVf.foldl fun t x ht => ht.abortTeam

@[simp] theorem Keeps.execGraceExpire {tk : Nat} (h : Keeps s₀ s) : KeepsRes s₀ (execGraceExpire tk s) := by
  unfold Machine.execGraceExpire
  dsimp only
  split
  · split
    · exact h.abortTeam
    · exact h
  · exact h

/-! ## The operations of `Machine/Wake` -/

theorem Keeps.leaveIfReady {rk : Nat} (h : Keeps s₀ s) : Keeps s₀ (s.leaveIfReady rk) := by
  unfold State.leaveIfReady
  dsimp only
  split
  · exact h.leaveNear
  · exact h

theorem Keeps.wakeScalar {rk : Nat} (h : Keeps s₀ s) : Keeps s₀ (s.wakeScalar rk) := by
  unfold State.wakeScalar
  split
  · exact h.updRole.leaveNear
  · exact h

theorem Keeps.wakeLane {rk : Nat} (h : Keeps s₀ s) : Keeps s₀ (s.wakeLane rk) := by
  unfold State.wakeLane
  dsimp only
  split
  · exact h.kick.updRole.leaveNear
  · exact h.kick

@[simp] theorem Keeps.execStreamWake {rk : Nat} {lane : Bool} (h : Keeps s₀ s) : KeepsRes s₀ (execStreamWake rk lane s) := by
  unfold Machine.execStreamWake
  split
  · show Keeps _ _
    split
    · exact h.wakeLane
    · exact h.wakeScalar
  · exact h

@[simp] theorem Keeps.execRoleFinish {rk : Nat} (h : Keeps s₀ s) : KeepsRes s₀ (execRoleFinish rk s) := by
  unfold Machine.execRoleFinish
  dsimp only
  split
  · exact h.updRole
  · exact h

@[simp] theorem Keeps.execClassLResultReturn {rk idx : Nat} (h : Keeps s₀ s) :
    KeepsRes s₀ (execClassLResultReturn rk idx s) := by
  unfold Machine.execClassLResultReturn
  split
  · exact h.updRole
  · exact h

@[simp] theorem Keeps.execYieldExpire {rk : Nat} (h : Keeps s₀ s) : KeepsRes s₀ (execYieldExpire rk s) := by
  unfold Machine.execYieldExpire
  exact h.updRole

@[simp] theorem Keeps.execWaitaTimeout {rk : Nat} (h : Keeps s₀ s) : KeepsRes s₀ (execWaitaTimeout rk s) := by
  unfold Machine.execWaitaTimeout
  exact h.updRole

/-! ## The operations of `Machine/Pager` -/

theorem Keeps.clearAcc {es : List Entry} (h : Keeps s₀ s) : Keeps s₀ (s.clearAcc es) := by
  unfold State.clearAcc
  dsimp only
  exact h.foldl fun t x ht => ht.setPage

theorem Keeps.sweepVictim {core : Nat} {orphan serves : Entry → Bool} {v : Entry} (h : Keeps s₀ s)
    (e : s.sweepVictim core orphan serves = some (v, t)) : Keeps s₀ t := by
  unfold State.sweepVictim at e
  dsimp only at e
  split at e
  · cases e; exact h
  · split at e
    · cases e; exact h.clearAcc.updCore
    · cases e

theorem Keeps.takeFrame {core : Nat} {needLocal : Bool} {f : Frame} (h : Keeps s₀ s)
    (e : s.takeFrame core needLocal = .frame f t) : Keeps s₀ t := by
  unfold State.takeFrame at e
  split at e
  · cases e; exact h
  · split at e
    · cases e; exact h
    · split at e
      · cases e
      · split at e
        · cases e
          exact (h.sweepVictim ‹_›).pushOut.ofSnd ‹_›
        · cases e

theorem Keeps.tableRoom {core : Nat} {f : Frame} (h : Keeps s₀ s)
    (e : s.tableRoom core = .frame f t) : Keeps s₀ t := by
  unfold State.tableRoom at e
  split at e
  · cases e; exact h
  · split at e
    · cases e
    · split at e
      · cases e
        exact (h.sweepVictim ‹_›).dropPage.ofSnd ‹_›
      · cases e

theorem Keeps.scratchFail {tk vpn sub va ia : Nat} (h : Keeps s₀ s) : Keeps s₀ (s.scratchFail tk vpn sub va ia) := by
  unfold State.scratchFail
  dsimp only
  split
  · exact h.updTeam
  · refine Keeps.updTeam ?_
    split
    · exact h.addRec.updRole
    · exact h.addRec

theorem Keeps.unparkPage {tk : Nat} (h : Keeps s₀ s) : Keeps s₀ (s.unparkPage tk) := by
  unfold State.unparkPage
  dsimp only
  refine h.foldl fun t x ht => ?_
  split
  · exact ht.updRole.leaveIfReady
  · exact ht

theorem Keeps.askerCheck {vpn sub va pa : Nat} {a5 : Asker} (h : Keeps s₀ s) :
    Keeps s₀ (s.askerCheck vpn sub va pa a5) := by
  unfold State.askerCheck
  dsimp only
  split
  · exact h.machineCheck
  · split
    · exact h.headCheck
    · refine Keeps.machineChecks ?_
      exact h.foldl fun t x ht => ht.unhold
    · exact h.machineCheck
  · exact h.cmdEnd

theorem Keeps.pageCheck {tk vpn sub va pa : Nat} (h : Keeps s₀ s) : Keeps s₀ (s.pageCheck tk vpn sub va pa) := by
  unfold State.pageCheck
  dsimp only
  refine Keeps.unparkPage ?_
  refine Keeps.updTeam ?_
  split
  · exact h.askerCheck
  · exact h

theorem Keeps.backFail {tk vpn : Nat} {b : BackRes} (h : Keeps s₀ s) : Keeps s₀ (s.backFail tk vpn b) := by
  unfold State.backFail
  split
  · exact h
  · split
    · exact h.scratchFail
    · exact h.scratchFail
    · exact h.pageCheck
    · exact h

theorem Keeps.pageReady {tk : Nat} (h : Keeps s₀ s) : Keeps s₀ (s.pageReady tk) := by
  unfold State.pageReady
  exact h.unparkPage.foldl fun t x ht => ht.kick

theorem Keeps.pageIn {s0 : State} {tk vpn : Nat} {f : Frame} (h : Keeps s₀ s0) : Keeps s₀ (s0.pageIn tk vpn f) := by
  unfold State.pageIn
  dsimp only
  refine Keeps.setPage ?_
  split
  · exact h.fromBacking
  · exact h

theorem Keeps.frameFor {tk vpn : Nat} {needLocal : Bool} {f : Frame} (h : Keeps s₀ s)
    (e : s.frameFor tk vpn needLocal = .frame f t) : Keeps s₀ t := by
  unfold State.frameFor at e
  dsimp only at e
  split at e
  · rename_i f1 s1 heq
    refine Keeps.takeFrame ?_ e
    split at heq
    · cases heq; exact h
    · exact h.tableRoom heq
  · rename_i hne
    exact absurd e (hne f t)

theorem Keeps.servePage {tk vpn : Nat} {needLocal : Bool} (h : Keeps s₀ s) :
    Keeps s₀ (s.servePage tk vpn needLocal) := by
  unfold State.servePage
  split
  · exact h
  · exact h.backFail
  · exact (h.frameFor ‹_›).pageIn.updTeam.chargeTeam.pageReady

theorem Keeps.pageThere {tk vpn : Nat} (h : Keeps s₀ s) : Keeps s₀ (s.pageThere tk vpn) := by
  unfold State.pageThere
  dsimp only
  exact h.updTeam.pageReady

@[simp] theorem Keeps.execPagerServiceDone {tk vpn : Nat} (h : Keeps s₀ s) : KeepsRes s₀ (execPagerServiceDone tk vpn s) := by
  unfold Machine.execPagerServiceDone
  dsimp only
  split
  · show Keeps _ _
    split
    · exact h.servePage
    · exact h
  · split
    · exact h
    · split
      · split
        · exact h.updTeam.reenter
        · split
          · exact h.pageThere
          · split
            · show Keeps _ _
              split
              · exact h
              · exact h.pageCheck
            · split
              · show Keeps _ _
                exact h.foldl fun t x ht => ht.stallLine
              · exact h.servePage
      · exact h.backFail

@[simp] theorem Keeps.execSwapOut {tk : Nat} (h : Keeps s₀ s) : KeepsRes s₀ (execSwapOut tk s) := by
  unfold Machine.execSwapOut
  split
  · exact h
  · split
    · exact h.updTeam.settleTeam
    · exact h

/-! ## The operations of `Machine/Commit` -/

theorem Keeps.ladderUpdate {tk : Nat} (h : Keeps s₀ s) : Keeps s₀ (s.ladderUpdate tk) := by
  unfold State.ladderUpdate
  dsimp only
  split
  · exact h
  · exact h.updDie

theorem Keeps.probeStop {tk va ia sub : Nat} (h : Keeps s₀ s) : Keeps s₀ (s.probeStop tk va ia sub) := by
  unfold State.probeStop
  dsimp only
  split
  · exact h.addRec.updTeam
  · exact h.raise

theorem Keeps.probe {tk : Nat} (h : Keeps s₀ s) : Keeps s₀ (s.probe tk) := by
  unfold State.probe
  dsimp only
  split
  · exact h.updTeam
  · split
    · exact h
    · split
      · exact h.machineCheck
      · exact h.probeStop
      · exact h

@[simp] theorem Keeps.execCommitProbe {tk : Nat} (h : Keeps s₀ s) : KeepsRes s₀ (execCommitProbe tk s) := by
  unfold Machine.execCommitProbe
  dsimp only
  split
  · exact h
  · split
    · exact h.startService
    · exact h.probe

theorem Keeps.drainLost {tk j va pa : Nat} (h : Keeps s₀ s) : Keeps s₀ (s.drainLost tk j va pa) := by
  unfold State.drainLost
  dsimp only
  exact h.addRec

theorem Keeps.chargeDrain {tk : Nat} {home : Bool} {x : Xlat} {prev : List Nat} (h : Keeps s₀ s) :
    Keeps s₀ (s.chargeDrain tk home x prev) := by
  unfold State.chargeDrain
  exact h.chargeTeam

theorem Keeps.drainEntry {tk : Nat} {en : WEntry} {prev : List Nat} (h : Keeps s₀ s) :
    Keeps s₀ (s.drainEntry tk en prev) := by
  unfold State.drainEntry
  dsimp only
  split
  · split
    · exact h.storeX.chargeDrain
    · exact h.drainLost
    · exact h
  · split
    · exact h.atomWrite.noteAtom.chargeDrain
    · exact h.drainLost
    · exact h
  · exact h.noteOverflow.pushEng
  · exact h.wbUpdate

theorem Keeps.drainSome {tk n : Nat} {prev : List Nat} (h : Keeps s₀ s) : Keeps s₀ (drainSome tk n prev s) := by
  induction n generalizing prev s with
  | zero => exact h
  | succ n ih =>
    unfold Machine.drainSome
    split
    · exact h
    · split
      · exact ih h.drainEntry.updTeam
      · split
        · exact h.stallAll
        · exact ih h.drainEntry.updTeam

theorem Keeps.addToken {rk : Nat} {a v : W64} (h : Keeps s₀ s) : Keeps s₀ (s.addToken rk a v) := by
  unfold State.addToken
  dsimp only
  refine Keeps.updRole ?_
  split
  · exact h.tokenAdd.chargeDrain
  · exact h.drainLost
  · exact h

theorem Keeps.addTokens {n : Nat} {rks : List Nat} (h : Keeps s₀ s) : Keeps s₀ (addTokens n rks s) := by
  induction rks generalizing n s with
  | nil => unfold Machine.addTokens; exact h
  | cons rk rks ih =>
    unfold Machine.addTokens
    split
    · exact ih h
    · split
      · exact h
      · split
        · exact h.stallAll
        · exact ih h.addToken

theorem Keeps.graceActs {tk : Nat} (h : Keeps s₀ s) : Keeps s₀ (s.graceActs tk) := by
  unfold State.graceActs
  dsimp only
  split
  · exact h
  · split
    · exact h.updTeam.updTeam.settleTeam
    · split
      · exact h.updTeam.updTeam.settleTeam
      · exact h.updTeam

theorem Keeps.rolesContinue {tk : Nat} (h : Keeps s₀ s) : Keeps s₀ (s.rolesContinue tk) := by
  unfold State.rolesContinue
  exact h.foldl fun t x ht => ht.advance.updRole

theorem Keeps.topTrap {tk : Nat} (h : Keeps s₀ s) : Keeps s₀ (s.topTrap tk) := by
  unfold State.topTrap
  dsimp only
  split
  · exact h.userTrap
  · exact h

theorem Keeps.doom {tk : Nat} (h : Keeps s₀ s) : Keeps s₀ (s.doom tk) := by
  unfold State.doom
  split
  · exact h.killTeam
  · exact h

theorem Keeps.drainDone {tk : Nat} (h : Keeps s₀ s) : Keeps s₀ (s.drainDone tk) := by
  unfold State.drainDone
  dsimp only
  exact h.updTeam.ladderUpdate.foldl fun t x ht => ht.updRole

theorem Keeps.commitEnd {tk : Nat} (h : Keeps s₀ s) : Keeps s₀ (s.commitEnd tk) := by
  unfold State.commitEnd
  exact h.updTeam.rolesContinue.topTrap.graceActs.doom

theorem Keeps.drainStep {tk : Nat} (h : Keeps s₀ s) : Keeps s₀ (s.drainStep tk) := by
  unfold State.drainStep
  dsimp only
  split
  · exact h.updTeam.drainSome.drainDone
  · exact h.updTeam.drainSome

theorem Keeps.tokenStep {tk : Nat} (h : Keeps s₀ s) : Keeps s₀ (s.tokenStep tk) := by
  unfold State.tokenStep
  dsimp only
  split
  · exact h.addTokens.commitEnd
  · exact h.addTokens

@[simp] theorem Keeps.execCommitPoint {tk : Nat} (h : Keeps s₀ s) : KeepsRes s₀ (execCommitPoint tk s) := by
  unfold Machine.execCommitPoint
  dsimp only
  split
  · exact h
  · split
    · exact h.tokenStep
    · show Keeps _ _
      split
      · exact h.drainStep.tokenStep
      · exact h.drainStep

/-! ## The operations of `Machine/Accept` -/

theorem Keeps.enqueue {vf addr : Nat} {share : Option GangShare} (h : Keeps s₀ s) :
    Keeps s₀ ((s.enqueue vf addr share).2) := by
  unfold State.enqueue
  dsimp only
  split
  · exact h
  · split
    · exact h
    · exact h.update

@[simp] theorem Keeps.execLaunch {d a : SReg} (h : Keeps s₀ s) : KeepsRes s₀ (execLaunch d a s) := by
  unfold Machine.execLaunch
  dsimp only
  refine h.scalar0 (fun x0 => ?_)
  split
  · exact h.raiseS
  · refine h.scalarOp (fun x0 x1 t h3 => ?_)
    split
    · exact h3.raiseS
    · split
      · exact h3.parkS
      · show Keeps _ _
        refine Keeps.finish ?_
        split
        · exact h3.enqueue
        · exact h3

@[simp] theorem Keeps.execLaunchMessage {vf : Nat} {addr : W64} (h : Keeps s₀ s) :
    KeepsRes s₀ (execLaunchMessage vf addr s) := by
  unfold Machine.execLaunchMessage
  dsimp only
  exact h.enqueue.update

/-! ## The operations of `Machine/Distributor` -/

theorem Keeps.tryReady {lid : Nat} (h : Keeps s₀ s) : Keeps s₀ (s.tryReady lid) := by
  unfold State.tryReady
  split
  · exact h.updLaunch
  · exact h

theorem Keeps.rolesReady {tk : Nat} (h : Keeps s₀ s) : Keeps s₀ (s.rolesReady tk) := by
  unfold State.rolesReady
  exact h.foldl fun t x ht => ht.leaveIfReady.kick

theorem Keeps.foldlPair {α β : Type} {f : State × α → β → State × α} {l : List β} {p : State × α} (h : Keeps s₀ p.1)
    (hf : ∀ p x, Keeps s₀ p.1 → Keeps s₀ (f p x).1) : Keeps s₀ (l.foldl f p).1 := by
  induction l generalizing p with
  | nil => exact h
  | cons x xs ih => exact ih (hf p x h)

theorem Keeps.dropDups {core dp : Nat} (h : Keeps s₀ s) : Keeps s₀ (s.dropDups core dp) := by
  unfold State.dropDups
  exact Keeps.foldlPair (p := (s, s.dpRoom core dp)) h fun p x hp => hp.same

theorem Keeps.rebound {core : Nat} {dps : List Nat} (h : Keeps s₀ s) : Keeps s₀ (s.rebound core dps) := by
  unfold State.rebound
  dsimp only
  refine Keeps.update ?_
  exact h.foldl fun t x ht => ht.dropDups

theorem Keeps.settleVf {vf : Nat} (h : Keeps s₀ s) : Keeps s₀ (s.settleVf vf) := by
  unfold State.settleVf
  split
  · exact h
  · exact h.updVf

theorem Keeps.startTeam {tk core : Nat} {dps : List Nat} (h : Keeps s₀ s) : Keeps s₀ (s.startTeam tk core dps) := by
  unfold State.startTeam
  dsimp only
  refine Keeps.rolesReady ?_
  refine Keeps.adopt ?_
  refine Keeps.rebound ?_
  refine Keeps.updLaunch ?_
  refine Keeps.updCore ?_
  exact Keeps.foldl (h.setTeam.update) fun t x ht => ht.setRole

theorem Keeps.pushAll {tk : Nat} (h : Keeps s₀ s) : Keeps s₀ (s.pushAll tk) := by
  unfold State.pushAll
  refine h.foldl fun t x ht => ?_
  split
  · exact (ht.pushOut.ofSnd ‹_›)
  · exact ht.dropPage

theorem Keeps.newEntries {tk core : Nat} (h : Keeps s₀ s) : Keeps s₀ (s.newEntries tk core) := by
  unfold State.newEntries
  dsimp only
  refine Keeps.foldl ?_ fun t x ht => ?_
  · exact h.foldl fun t x ht => ht.dropPage
  · exact ht.setPage

theorem Keeps.movePages {tk core : Nat} (h : Keeps s₀ s) : Keeps s₀ (s.movePages tk core) := by
  unfold State.movePages
  dsimp only
  refine Keeps.updTeam ?_
  split
  · exact h.updTeam
  · split
    · exact h.updTeam.newEntries
    · exact h.updTeam.pushAll.newEntries

theorem Keeps.resumeTeam {tk core : Nat} {dps : List Nat} (h : Keeps s₀ s) : Keeps s₀ (s.resumeTeam tk core dps) := by
  unfold State.resumeTeam
  dsimp only
  refine Keeps.rolesReady ?_
  refine Keeps.adopt ?_
  refine Keeps.rebound ?_
  refine Keeps.updCore ?_
  exact Keeps.foldl (h.dropSwid.movePages.updTeam.update) fun t x ht => ht.updRole

theorem Keeps.resumeFrom {tk core : Nat} {dps : List Nat} (h : Keeps s₀ s) : Keeps s₀ (s.resumeFrom tk core dps) := by
  unfold State.resumeFrom
  dsimp only
  split
  · exact h.resumeTeam
  · split
    · exact h.mergeWhere.resumeTeam
    · exact h.mergeWhere

theorem Keeps.dispatchTeam {tk core : Nat} {dps : List Nat} (h : Keeps s₀ s) :
    Keeps s₀ (s.dispatchTeam tk core dps) := by
  unfold State.dispatchTeam
  dsimp only
  split
  · exact h.settleVf.resumeFrom
  · exact h.settleVf.resumeFrom
  · exact h.settleVf.startTeam

theorem Keeps.chooseDies {lid die : Nat} (h : Keeps s₀ s) : Keeps s₀ (s.chooseDies lid die) := by
  unfold State.chooseDies
  dsimp only
  split
  · exact h.updLaunch
  · exact h

theorem Keeps.dispatchRest {lid : Nat} (h : Keeps s₀ s) (e : s.dispatchRest lid = some t) : Keeps s₀ t := by
  unfold State.dispatchRest at e
  dsimp only at e
  split at e
  · cases e
  · cases e
    refine h.foldl fun t x ht => ?_
    split
    · exact ht.startTeam
    · exact ht

@[simp] theorem Keeps.execTeamDispatch {tk core : Nat} {dps : List Nat} (h : Keeps s₀ s) :
    KeepsRes s₀ (execTeamDispatch tk core dps s) := by
  unfold Machine.execTeamDispatch
  dsimp only
  have hd : Keeps s₀ ((s.chooseDies (lidOf tk) (dieOf core)).dispatchTeam tk core dps) := h.chooseDies.dispatchTeam
  split
  · exact h
  · split
    · show Keeps s₀ (Option.getD _ s)
      cases hr : ((s.chooseDies (lidOf tk) (dieOf core)).dispatchTeam tk core dps).dispatchRest (lidOf tk) with
      | none => exact h
      | some u => exact hd.dispatchRest hr
    · exact hd

theorem Keeps.makeRoom {lid : Nat} (h : Keeps s₀ s) : Keeps s₀ (s.makeRoom lid) := by
  unfold State.makeRoom
  dsimp only
  split
  · exact h
  · split
    · exact h
    · exact h.updTeam.settleTeam

@[simp] theorem Keeps.execLaunchReady {lid : Nat} (h : Keeps s₀ s) : KeepsRes s₀ (execLaunchReady lid s) := by
  unfold Machine.execLaunchReady
  exact h.tryReady.makeRoom

@[simp] theorem Keeps.execDepTokenRetry {lid : Nat} (h : Keeps s₀ s) : KeepsRes s₀ (execDepTokenRetry lid s) := by
  unfold Machine.execDepTokenRetry
  exact h.tryReady

@[simp] theorem Keeps.execTeamRetire {tk : Nat} (h : Keeps s₀ s) : KeepsRes s₀ (execTeamRetire tk s) := by
  unfold Machine.execTeamRetire
  dsimp only
  split
  · exact h
  · refine Keeps.adopt (Keeps.postMeter (Keeps.update (Keeps.update ?_)))
    exact Keeps.dropSwid h.same

theorem Keeps.finishLaunch {lid : Nat} {bad : Bool} (h : Keeps s₀ s) : Keeps s₀ (s.finishLaunch lid bad) := by
  unfold State.finishLaunch
  dsimp only
  exact h.updLaunch.update

theorem Keeps.doneFault {lid : Nat} {i : RecInfo} (h : Keeps s₀ s) : Keeps s₀ (s.doneFault lid i) := by
  unfold State.doneFault
  dsimp only
  exact h.addRec.updLaunch

theorem Keeps.chargeAdd {vf : Nat} (h : Keeps s₀ s) : Keeps s₀ (s.chargeAdd vf) := by
  unfold State.chargeAdd
  exact h.charge

theorem Keeps.doneAdd {lid : Nat} (h : Keeps s₀ s) : Keeps s₀ (s.doneAdd lid) := by
  unfold State.doneAdd
  dsimp only
  split
  · exact h.finishLaunch
  · split
    · exact h.tokenAdd.chargeAdd.finishLaunch
    · exact h.doneFault
    · exact h.doneFault
    · exact h.finishLaunch

theorem Keeps.updShare {lid : Nat} {f : GangShare → GangShare} (h : Keeps s₀ s) : Keeps s₀ (s.updShare lid f) := by
  unfold State.updShare
  exact h.updLaunch

theorem Keeps.sendGang {gang rank : Nat} {m : GangMsg} (h : Keeps s₀ s) : Keeps s₀ (s.sendGang gang rank m) := h.same

theorem Keeps.sendRanks {gang : Nat} {ranks : List Nat} {m : GangMsg} (h : Keeps s₀ s) :
    Keeps s₀ (s.sendRanks gang ranks m) := by
  unfold State.sendRanks
  exact h.foldl fun t x ht => ht.sendGang

theorem Keeps.tellSpread {lid : Nat} {g : GangShare} (h : Keeps s₀ s) : Keeps s₀ (s.tellSpread lid g) := by
  unfold State.tellSpread
  split
  · exact h
  · exact h.sendRanks.updShare

theorem Keeps.spreadShare {lid : Nat} (h : Keeps s₀ s) : Keeps s₀ (s.spreadShare lid) := by
  unfold State.spreadShare
  dsimp only
  split
  · exact h
  · split
    · exact h
    · split
      · exact h.tellSpread.updShare
      · exact h.tellSpread

theorem Keeps.tellStage {lid n : Nat} (h : Keeps s₀ s) : Keeps s₀ (s.tellStage lid n) := by
  unfold State.tellStage
  dsimp only
  split
  · exact h
  · split
    · exact h
    · exact h.sendRanks.charge.updShare

@[simp] theorem Keeps.execLaunchComplete {lid : Nat} (h : Keeps s₀ s) : KeepsRes s₀ (Machine.execLaunchComplete lid s) := by
  have hv : Keeps s₀ (s.spreadShare lid) := h.spreadShare
  unfold Machine.execLaunchComplete
  dsimp only
  generalize s.spreadShare lid = v at hv
  have hu : Keeps s₀ (if (v.launch lid).underWay && (v.launch lid).allRetired then
      ((v.tellStage lid stagesAll).mergeAll (v.launch lid).vf).updLaunch lid fun l => { l with phase := .merged }
    else v) := by
    split
    · exact hv.tellStage.mergeAll.updLaunch
    · exact hv
  generalize (if (v.launch lid).underWay && (v.launch lid).allRetired then
      ((v.tellStage lid stagesAll).mergeAll (v.launch lid).vf).updLaunch lid fun l => { l with phase := .merged }
    else v) = u at hu
  split
  · exact hu.doneAdd
  · exact hu

theorem Keeps.passRelay {rk : Nat} (h : Keeps s₀ s) : Keeps s₀ (s.passRelay rk) := by
  unfold State.passRelay
  split
  · exact h.advance.updRole
  · exact h

theorem Keeps.setDies {lid : Nat} {dies teams : List Nat} (h : Keeps s₀ s) : Keeps s₀ (s.setDies lid dies teams) := by
  unfold State.setDies
  dsimp only
  split
  · exact h
  · split
    · exact h.updLaunch
    · split
      · exact h.updLaunch.foldl fun t x ht => ht.updTeam.settleTeam
      · exact h

@[simp] theorem Keeps.execStageComplete {lid : Nat} (h : Keeps s₀ s) : KeepsRes s₀ (Machine.execStageComplete lid s) := by
  have hs : Keeps s₀ (if s.stageHere lid then s.tellStage lid ((s.launch lid).stage + 1) else s) := by
    split
    · exact h.tellStage
    · exact h
  have hrelay (rks : List Nat) (u : State) (hu : Keeps s₀ u) : Keeps s₀ (rks.foldl State.passRelay u) :=
    hu.foldl fun t x ht => ht.passRelay
  unfold Machine.execStageComplete
  dsimp only
  generalize (if s.stageHere lid then s.tellStage lid ((s.launch lid).stage + 1) else s) = u at hs
  have hm := hs.mergeAll (vf := (u.launch lid).vf)
  generalize u.mergeAll (u.launch lid).vf = w at hm
  split
  · exact hs
  · split
    · exact hm
    · exact (hrelay _ _ hm).updLaunch

theorem Keeps.restartTeam {tk : Nat} (h : Keeps s₀ s) : Keeps s₀ (s.restartTeam tk) := by
  unfold State.restartTeam
  dsimp only
  exact h.settleCmds.evictTeam.dropSwid.updTeam.updLaunch.postMeter.adopt

theorem Keeps.failTeam {tk : Nat} (h : Keeps s₀ s) : Keeps s₀ (s.failTeam tk) := by
  unfold State.failTeam
  dsimp only
  exact h.addRec.killTeam

theorem Keeps.recover {lid : Nat} (h : Keeps s₀ s) : Keeps s₀ (s.recover lid) := by
  unfold State.recover
  dsimp only
  split
  · exact h
  · split
    · exact h.foldl fun t x ht => ht.abortTeam
    · split
      · exact h.foldl fun t x ht => ht.restartTeam
      · exact h.foldl fun t x ht => ht.failTeam

theorem Keeps.writeResmap {lid : Nat} (h : Keeps s₀ s) : Keeps s₀ (s.writeResmap lid) := by
  unfold State.writeResmap
  dsimp only
  split
  · exact h
  · refine h.foldl fun t x ht => ?_
    split
    · exact ht.homeWriteX
    · exact ht

@[simp] theorem Keeps.execFailed {lid : Nat} (h : Keeps s₀ s) : KeepsRes s₀ (execFailed lid s) := by
  unfold Machine.execFailed
  dsimp only
  split
  · split
    · exact h.recover.writeResmap.finishLaunch
    · exact h.recover
  · split
    · exact h.writeResmap.finishLaunch
    · exact h

/-! ## The operations of `Machine/Fares` -/

@[simp] theorem Keeps.execFarePost {core : Nat} (h : Keeps s₀ s) : KeepsRes s₀ (execFarePost core s) := by
  unfold Machine.execFarePost
  split
  · exact h
  · show Keeps _ _
    refine Keeps.settle ?_
    exact h.foldl fun t x ht => ht.postMeter

theorem Keeps.postShared {vf : Nat} (h : Keeps s₀ s) : Keeps s₀ (s.postShared vf) := by
  unfold State.postShared
  dsimp only
  split
  · exact h.updVf.updVf.requestVf
  · exact h.updVf

@[simp] theorem Keeps.execSharedFarePost (h : Keeps s₀ s) : KeepsRes s₀ (execSharedFarePost s) := by
  unfold Machine.execSharedFarePost
  dsimp only
  split
  · exact h
  · show Keeps _ _
    refine Keeps.settle ?_
    refine Keeps.update ?_
    refine Keeps.foldl ?_ fun t x ht => ?_
    · refine Keeps.foldl ?_ fun t x ht => ?_
      · exact h.foldl fun t x ht => ht.postShared
      · exact ht.updPart
    · exact ht.updCore

@[simp] theorem Keeps.execFareadd {vf : Nat} {amount : W64} (h : Keeps s₀ s) : KeepsRes s₀ (execFareadd vf amount s) := by
  unfold Machine.execFareadd
  dsimp only
  show Keeps _ _
  split
  · exact h.updVf.updVf
  · exact h.updVf

/-! ## The operations of `Machine/ScaleOut` -/

theorem Keeps.soEnd {id status done : Nat} (h : Keeps s₀ s) : Keeps s₀ (s.soEnd id status done) := by
  unfold State.soEnd
  dsimp only
  refine Keeps.cmdEnd ?_
  split
  · exact h
  · exact h.update

theorem Keeps.soOp {k : Nat → Cmd → Res} (h : Keeps s₀ s) (hk : ∀ x0 x1, KeepsRes s₀ (k x0 x1)) :
    KeepsRes s₀ (soOp s k) := by
  unfold Machine.soOp
  refine h.engineOp (fun x0 x1 x2 => ?_)
  split
  · trivial
  · exact hk _ _

theorem Keeps.soCharge {id n : Nat} (h : Keeps s₀ s) : Keeps s₀ (s.soCharge id n) := by
  unfold State.soCharge
  split
  · exact h
  · split
    · exact h.chargeTeam
    · exact h.charge

theorem Keeps.sendAll {id n : Nat} {i : Instr} {raddr : Nat} {bs : List Byte} (h : Keeps s₀ s) :
    Keeps s₀ (s.sendAll id n i raddr bs) := by
  unfold State.sendAll
  dsimp only
  split
  · exact h.updCmd.update
  · exact Keeps.update (Keeps.soCharge (h.updCmd.update))

theorem Keeps.soStart {id : Nat} {c : Cmd} {dt : RemTail} {k : State → Res} (h : Keeps s₀ s)
    (hk : ∀ t, Keeps s₀ t → KeepsRes s₀ (k t)) :
    KeepsRes s₀ (s.soStart id c dt k) := by
  unfold State.soStart
  dsimp only
  split
  · exact hk _ h
  · split
    · split
      · exact hk _ h
      · exact h.soEnd
    · split
      · split
        · exact hk _ h
        · exact h.soEnd
      · split
        · split
          · exact hk _ h.updCmd
          · exact h.updCmd.soEnd
        · exact h
        · exact h.soEnd
        · exact h.cmdPage

theorem Keeps.soFinish {id : Nat} {ct : Option (W64 × W64)} {done : Nat} (h : Keeps s₀ s) :
    Keeps s₀ (s.soFinish id ct done) := by
  unfold State.soFinish
  dsimp only
  split
  · exact h.soEnd
  · split
    · split
      · exact h.soEnd
      · split
        · exact h.stallAll
        · split
          · exact h.tokenAdd.chargeMove.soEnd
          · exact h.cmdPage
          · exact h.soEnd
          · exact h.soEnd
    · exact h.soEnd

theorem Keeps.rrdPut {id : Nat} {x : RrdCmd} {_i : Nat} {w : CopyW} (h : Keeps s₀ s)
    (e : rrdPut id x s _i w = some t) :
    Keeps s₀ t := by
  unfold Machine.rrdPut at e
  exact h.copyWrite e

theorem Keeps.rrdWrite {id : Nat} {x : RrdCmd} {bs : List Byte} (h : Keeps s₀ s) :
    KeepsRes s₀ (s.rrdWrite id x bs) := by
  unfold State.rrdWrite
  dsimp only
  split
  · refine h.runCourse (fun t n w u h4 e => ?_) (fun t h1 => ?_)
    · exact h4.rrdPut e
    · show Keeps _ _
      split
      · exact h1.soEnd
      · exact h1.soFinish
  · split
    · exact h.soEnd
    · refine h.beginCmd.runCourse (fun t n w u h4 e => ?_) (fun t h1 => ?_)
      · exact h4.rrdPut e
      · show Keeps _ _
        split
        · exact h1.soEnd
        · exact h1.soFinish

theorem Keeps.soReply {id : Nat} {i : Instr} {status : Nat} {data : List Byte} (h : Keeps s₀ s) :
    KeepsRes s₀ (s.soReply id i status data) := by
  unfold State.soReply
  split
  · exact h.soEnd
  · split
    · exact h.soFinish
    · exact h.rrdWrite
    · exact h.soFinish
    · exact h

theorem Keeps.soRun {id : Nat} {c : Cmd} {i : Instr} {start : State → Res} (h : Keeps s₀ s)
    (hstart : ∀ t, Keeps s₀ t → KeepsRes s₀ (start t)) :
    KeepsRes s₀ (s.soRun id c i start) := by
  unfold State.soRun
  split
  · exact h.soReply
  · split
    · exact h
    · exact hstart _ h

theorem Keeps.soBegin {id : Nat} {as : List Acc} {k : State → Res} (h : Keeps s₀ s)
    (hk : ∀ t, Keeps s₀ t → KeepsRes s₀ (k t)) :
    KeepsRes s₀ (s.soBegin id as k) := by
  unfold State.soBegin
  split
  · exact hk _ h
  · split
    · exact hk _ h.updProg
    · exact h.soEnd

@[simp] theorem Keeps.execRwr {x : RwrCmd} (h : Keeps s₀ s) : KeepsRes s₀ (execRwr x s) := by
  unfold Machine.execRwr
  dsimp only
  refine h.soOp (fun x0 x1 => ?_)
  refine h.soRun (fun t h1 => ?_)
  refine h1.soStart (fun t h1 => ?_)
  refine h1.soBegin (fun t h1 => ?_)
  refine h1.runCourse (fun t n w u h4 e => ?_) (fun t h1 => ?_)
  · cases e
  · split
    · exact h1.soEnd
    · exact h1.sendAll

@[simp] theorem Keeps.execRrd {x : RrdCmd} (h : Keeps s₀ s) : KeepsRes s₀ (execRrd x s) := by
  unfold Machine.execRrd
  refine h.soOp (fun x0 x1 => ?_)
  refine h.soRun (fun t h1 => ?_)
  refine h1.soStart (fun t h1 => ?_)
  refine h1.soBegin (fun t h1 => ?_)
  exact h1.sendAll

@[simp] theorem Keeps.execRsig {x : RsigCmd} (h : Keeps s₀ s) : KeepsRes s₀ (execRsig x s) := by
  unfold Machine.execRsig
  refine h.soOp (fun x0 x1 => ?_)
  refine h.soRun (fun t h1 => ?_)
  split
  · exact h1.soEnd
  · refine h1.soStart (fun t h1 => ?_)
    exact h1.sendAll

theorem Keeps.postFault {id : Nat} (h : Keeps s₀ s) : Keeps s₀ (s.postFault id) := by
  unfold State.postFault
  dsimp only
  exact h.addRec.updVf.update

theorem Keeps.fireBlock {id : Nat} {ws : List W64} (h : Keeps s₀ s) : Keeps s₀ (s.fireBlock id ws) := by
  unfold State.fireBlock
  dsimp only
  split
  · split
    · exact h.updCmd
    · exact h.postFault
  · exact h.postFault

theorem Keeps.readBlock {id : Nat} (h : Keeps s₀ s) : Keeps s₀ (s.readBlock id) := by
  unfold State.readBlock
  dsimp only
  split
  · exact h.stallAll
  · split
    · exact h.cmdPage
    · exact h.cmdEnd
    · split
      · exact h.chargeMove.fireBlock
      · exact h.postFault
    · exact h.postFault

theorem Keeps.fire {vf : Nat} {p : PostRec} (h : Keeps s₀ s) : Keeps s₀ (s.fire vf p) := by
  unfold State.fire
  dsimp only
  exact Keeps.readBlock (Keeps.updVf (h.settleVf.update))

theorem Keeps.arrive {vf : Nat} {mtag : W32} (h : Keeps s₀ s) (e : s.arrive vf mtag = some t) : Keeps s₀ t := by
  unfold State.arrive at e
  split at e
  · cases e
    exact h.fire
  · split at e
    · cases e
    · cases e
      exact h.updVf

theorem Keeps.consume {vf : Nat} {p : PostRec} (h : Keeps s₀ s) : Keeps s₀ (s.consume vf p) := by
  unfold State.consume
  split
  · exact h.updVf.fire
  · exact h

theorem Keeps.armPost {rk : Nat} {x : PostCmd} (h : Keeps s₀ s) : Keeps s₀ (s.armPost rk x) := by
  unfold State.armPost
  dsimp only
  exact Keeps.consume (Keeps.updCmd (h.updVf.update))

@[simp] theorem Keeps.execPost {x : PostCmd} (h : Keeps s₀ s) : KeepsRes s₀ (execPost x s) := by
  unfold Machine.execPost
  refine h.soOp (fun x0 x1 => ?_)
  split
  · trivial
  · refine h.cmdWait (fun t h1 => ?_)
    split
    · exact h1.soFinish
    · split
      · exact h1.cmdEnd
      · exact h1.armPost.soFinish

theorem Keeps.soComplete {id : Nat} (h : Keeps s₀ s) : Keeps s₀ (s.soComplete id) := by
  unfold State.soComplete
  split
  · exact h
  · exact h.completeCmd

@[simp] theorem Keeps.execScaleoutComplete {id status : Nat} {data : List Byte} (h : Keeps s₀ s) :
    KeepsRes s₀ (execScaleoutComplete id status data s) := by
  unfold Machine.execScaleoutComplete
  split
  · exact h
  · split
    · exact h.soComplete
    · split
      · exact h
      · split
        · exact h
        · split
          · exact (h.soCharge.updCmd.soReply.next ‹_›).soComplete
          · exact h.soCharge.updCmd.soReply

@[simp] theorem Keeps.execTimeout {id : Nat} (h : Keeps s₀ s) : KeepsRes s₀ (execTimeout id s) := by
  unfold Machine.execTimeout
  split
  · exact h
  · split
    · split
      · exact h.soEnd.soComplete
      · exact h
    · exact h

@[simp] theorem Keeps.execPeerdown {id : Nat} (h : Keeps s₀ s) : KeepsRes s₀ (execPeerdown id s) := by
  unfold Machine.execPeerdown
  dsimp only
  split
  · exact h
  · split
    · exact h.soEnd.soComplete
    · exact h

theorem Keeps.resendAsked {id seg : Nat} (h : Keeps s₀ s) : Keeps s₀ (s.resendAsked id seg) := by
  unfold State.resendAsked
  exact h.updCmd

@[simp] theorem Keeps.execRetransmit {id seg : Nat} (h : Keeps s₀ s) : KeepsRes s₀ (execRetransmit id seg s) := by
  unfold Machine.execRetransmit
  dsimp only
  split
  · exact h
  · split
    · split
      · exact h
      · exact h.updCmd.soCharge.update
    · exact h

theorem Keeps.updIn {vf : Nat} {x : InSeg} {f : InStall → InStall} (h : Keeps s₀ s) : Keeps s₀ (s.updIn vf x f) := by
  unfold State.updIn
  exact h.updVf

theorem Keeps.dropIn {vf : Nat} {x : InSeg} (h : Keeps s₀ s) : Keeps s₀ (s.dropIn vf x) := by
  unfold State.dropIn
  exact h.updVf

theorem Keeps.inOver {vf : Nat} {x : InSeg} {status : Nat} {data : List Byte} (h : Keeps s₀ s) :
    Keeps s₀ (s.inOver vf x status data) := by
  unfold State.inOver
  dsimp only
  exact h.dropIn.update

theorem Keeps.askAgain {vf : Nat} {x : InSeg} (h : Keeps s₀ s) : Keeps s₀ (s.askAgain vf x) := h.same

theorem Keeps.inPage {vf : Nat} {x : InSeg} {sub va ia : Nat} (h : Keeps s₀ s) :
    Keeps s₀ (s.inPage vf x sub va ia) := by
  unfold State.inPage
  dsimp only
  split
  · exact h.updIn
  · exact h.addRec.updVf.updIn

theorem Keeps.madeIn {vf : Nat} {x : InSeg} {bs : List Byte} {lost : List Nat} (h : Keeps s₀ s) :
    Keeps s₀ (s.madeIn vf x bs lost) := by
  unfold State.madeIn
  dsimp only
  exact h.updIn

theorem Keeps.inMake {vf : Nat} {x : InSeg} {a : Acc} {dt : Xlat} (h : Keeps s₀ s) : Keeps s₀
    (s.inMake vf x a dt).state := by
  unfold State.inMake
  dsimp only
  split
  · split
    · exact h.inOver
    · exact h.clearLost.homeWriteX.madeIn
  · split
    · exact h.madeIn
    · exact h.inOver
  · split
    · exact h.tokenAdd.madeIn
    · exact h.inOver

theorem Keeps.inStep {vf : Nat} {x : InSeg} {a : Acc} (h : Keeps s₀ s) : Keeps s₀ (s.inStep vf x a).state := by
  unfold State.inStep
  dsimp only
  split
  · split
    · exact h.inPage
    · exact h.inOver
    · split
      · exact h.foldl fun t l ht => ht.stallLine
      · exact Keeps.inMake h.charge
    · exact h.inOver
  · exact h.inOver

theorem Keeps.inSteps {vf n : Nat} {x : InSeg} {as : List Acc} (h : Keeps s₀ s) : Keeps s₀
    (inSteps vf x as n s).state := by
  induction as generalizing n s with
  | nil => exact h
  | cons a as ih =>
    cases n with
    | zero => exact h
    | succ n =>
      unfold Machine.inSteps
      split
      · exact ih (h.inStep.ofGo ‹_›)
      · exact h.inStep

theorem Keeps.inArrive {vf : Nat} {x : InSeg} {mtag : W32} (h : Keeps s₀ s) : Keeps s₀ (s.inArrive vf x mtag) := by
  unfold State.inArrive
  dsimp only
  split
  · exact h.updVf.inOver
  · split
    · exact (h.updVf.arrive ‹_›).updVf.inOver
    · exact h.updVf.dropIn.askAgain

theorem Keeps.inFinish {vf : Nat} {x : InSeg} (h : Keeps s₀ s) : Keeps s₀ (s.inFinish vf x) := by
  unfold State.inFinish
  split
  · exact h.inArrive
  · exact h.inArrive
  · exact h.charge.inOver

theorem Keeps.inRefused {vf : Nat} {x : InSeg} (h : Keeps s₀ s) (e : s.inRefused vf x = some t) : Keeps s₀ t := by
  unfold State.inRefused at e
  split at e
  · cases e
  · split at e
    · split at e
      · cases e
        exact h.addRec.inOver
      · cases e
    · cases e
    · cases e
      exact h.inOver

theorem Keeps.holdGrains {vf : Nat} {x : InSeg} (h : Keeps s₀ s) : Keeps s₀ (s.holdGrains vf x) := by
  unfold State.holdGrains
  split
  · split
    · exact h.updIn
    · exact h
  · exact h

theorem Keeps.inTry {vf : Nat} {en : InStall} (h : Keeps s₀ s) : Keeps s₀ (s.inTry vf en) := by
  have hg : Keeps s₀ (if en.made = 0 then s.holdGrains vf en.seg else s) := by
    split
    · exact h.holdGrains
    · exact h
  unfold State.inTry
  dsimp only
  split
  · exact h
  · split
    · exact h.inFinish
    · split
      · rename_i u heq
        split at heq
        · exact h.inRefused heq
        · cases heq
      · split
        · exact (hg.inSteps.ofDone ‹_›).inFinish
        · exact hg.inSteps.ofGo ‹_›
        · exact hg.inSteps.ofStay ‹_›
        · exact hg.inSteps.ofWait ‹_›

theorem Keeps.inFollow {vf src n : Nat} (h : Keeps s₀ s) : Keeps s₀ (s.inFollow vf src n) := by
  induction n generalizing s with
  | zero => exact h
  | succ n ih =>
    unfold State.inFollow
    split
    · exact h
    · dsimp only
      split
      · exact h.inTry
      · exact ih h.inTry

theorem Keeps.inNext {vf src : Nat} (h : Keeps s₀ s) : Keeps s₀ (s.inNext vf src) := by
  unfold State.inNext
  exact h.inFollow

theorem Keeps.inRun {vf : Nat} {x : InSeg} (h : Keeps s₀ s) : Keeps s₀ (s.inRun vf x) := by
  unfold State.inRun
  dsimp only
  split
  · exact h
  · split
    · exact h.inTry
    · exact h.inTry.inNext

theorem Keeps.chargeIn {vf : Nat} {b : Inbound} (h : Keeps s₀ s) : Keeps s₀ (s.chargeIn vf b) := by
  unfold State.chargeIn
  split
  · exact h.charge
  · exact h

@[simp] theorem Keeps.execInboundSegment {dst src : Nat} {ord : Bool} {p : InPart} (h : Keeps s₀ s) :
    KeepsRes s₀ (execInboundSegment dst src ord p s) := by
  unfold Machine.execInboundSegment
  dsimp only
  split
  · exact h
  · split
    · exact h
    · split
      · exact h.chargeIn.updVf.inRun
      · split
        · exact h.chargeIn.updIn.inRun
        · split
          · exact h
          · exact h.inRun

theorem Keeps.inAnswered {vf recid : Nat} {retry : Bool} (h : Keeps s₀ s) :
    Keeps s₀ (s.inAnswered vf recid retry) := by
  unfold State.inAnswered
  dsimp only
  refine h.foldl fun t x ht => ?_
  split
  · split
    · exact ht.updIn
    · exact ht.updIn.inRun
  · exact ht.inOver.inNext

@[simp] theorem Keeps.execInboundStallTimeout {vf idx : Nat} (h : Keeps s₀ s) :
    KeepsRes s₀ (execInboundStallTimeout vf idx s) := by
  unfold Machine.execInboundStallTimeout
  split
  · split
    · exact h.updIn.askAgain.inNext
    · exact h
  · exact h

theorem Keeps.closeContext {vf src msg : Nat} (h : Keeps s₀ s) : Keeps s₀ (s.closeContext vf src msg) := by
  unfold State.closeContext
  dsimp only
  exact h.updVf.inNext

theorem Keeps.fencePeers {vf : Nat} {peers : List Nat} (h : Keeps s₀ s) : Keeps s₀ (s.fencePeers vf peers) := by
  unfold State.fencePeers
  dsimp only
  exact h.updVf.updVf

/-! ## The operations of `Machine/Answer` -/

theorem Keeps.answer {vf : Nat} {p : FaultRec → Bool} (h : Keeps s₀ s) : Keeps s₀ (s.answer vf p) := by
  unfold State.answer
  exact h.updVf

theorem Keeps.retryRow {id : Nat} {en : Nat × DRow} (h : Keeps s₀ s) : Keeps s₀ (s.retryRow id en) := by
  unfold State.retryRow
  dsimp only
  split
  · exact h
  · split
    · exact h.update
    · exact h.update

theorem Keeps.retryRows {id : Nat} (h : Keeps s₀ s) : Keeps s₀ (s.retryRows id) := by
  unfold State.retryRows
  exact h.foldl fun t x ht => ht.retryRow

theorem Keeps.kickTeam {tk : Nat} (h : Keeps s₀ s) : Keeps s₀ (s.kickTeam tk) := by
  unfold State.kickTeam
  exact h.foldl fun t x ht => ht.leaveIfReady.kick

theorem Keeps.retryAll {vf : Nat} {r : FaultRec} (h : Keeps s₀ s) : Keeps s₀ (s.retryAll vf r) := by
  unfold State.retryAll
  dsimp only
  split
  · refine Keeps.reenter ?_
    refine Keeps.kickTeam ?_
    split
    · exact Keeps.updTeam (Keeps.inAnswered (Keeps.retryMerges (Keeps.retryRows (h.update))))
    · exact Keeps.inAnswered (Keeps.retryMerges (Keeps.retryRows (h.update)))
  · exact Keeps.inAnswered (Keeps.retryMerges (Keeps.retryRows (h.update)))

@[simp] theorem Keeps.execAnswerRetry {vf recid : Nat} (h : Keeps s₀ s) : KeepsRes s₀ (execAnswerRetry vf recid s) := by
  unfold Machine.execAnswerRetry
  split
  · exact h
  · exact h.answer.retryAll

theorem Keeps.giveUp {vf id : Nat} (h : Keeps s₀ s) : Keeps s₀ (s.giveUp vf id) := by
  unfold State.giveUp
  dsimp only
  refine Keeps.inAnswered ?_
  exact Keeps.foldl (h.update) fun t x ht => ht.cmdEnd

theorem Keeps.giveUpMerge {id : Nat} {team : Option Nat} (h : Keeps s₀ s) : Keeps s₀ (s.giveUpMerge id team) := by
  unfold State.giveUpMerge
  split
  · exact h.dropUpdates.retryMerges
  · exact h.dropMerges

theorem Keeps.killNamed {vf tk : Nat} (h : Keeps s₀ s) : Keeps s₀ (s.killNamed vf tk) := by
  unfold State.killNamed
  split
  · exact h.killTeam.answer
  · exact h

theorem Keeps.taskKill {rk : Nat} (h : Keeps s₀ s) : Keeps s₀ (s.taskKill rk) := by
  unfold State.taskKill
  dsimp only
  exact h.cmdEnd.updCmd.update

@[simp] theorem Keeps.execAnswerKill {vf recid : Nat} (h : Keeps s₀ s) : KeepsRes s₀ (execAnswerKill vf recid s) := by
  unfold Machine.execAnswerKill
  dsimp only
  split
  · exact h
  · split
    · exact h.answer.giveUp.taskKill
    · show Keeps _ _
      split
      · refine Keeps.giveUpMerge ?_
        split
        · exact h.answer.giveUp.killNamed
        · exact h.answer.giveUp
      · split
        · exact h.answer.giveUp.killNamed
        · exact h.answer.giveUp

/-! ## The operations of `Machine/Gang` -/

theorem Keeps.updGang {g : Nat} {f : Gang → Gang} (h : Keeps s₀ s) : Keeps s₀ (s.updGang g f) := h.same

theorem Keeps.armShare {vf addr gang rank nchip : Nat} (h : Keeps s₀ s) :
    Keeps s₀ ((s.armShare vf addr gang rank nchip).2) := by
  unfold State.armShare
  dsimp only
  exact h.enqueue

theorem Keeps.gangAnswer {vf lid status : Nat} (h : Keeps s₀ s) : Keeps s₀ (s.gangAnswer vf lid status) := h.same

@[simp] theorem Keeps.execGangLaunchMessage {vf : Nat} {addr : W64} (h : Keeps s₀ s) :
    KeepsRes s₀ (execGangLaunchMessage vf addr s) := by
  unfold Machine.execGangLaunchMessage
  dsimp only
  split
  · exact h.gangAnswer
  · show Keeps _ _
    exact h.armShare.updGang.foldl fun t x ht => ht.sendGang

@[simp] theorem Keeps.execArm {vf gang rank nchip : Nat} {addr : W64} (h : Keeps s₀ s) :
    KeepsRes s₀ (execArm vf gang rank nchip addr s) := by
  unfold Machine.execArm
  dsimp only
  exact h.armShare.sendGang

theorem Keeps.refuseGang {gang code : Nat} (h : Keeps s₀ s) : Keeps s₀ (s.refuseGang gang code) := by
  unfold State.refuseGang
  dsimp only
  refine Keeps.gangAnswer ?_
  refine Keeps.sendRanks ?_
  refine Keeps.updGang ?_
  split
  · exact h.update
  · exact h

theorem Keeps.startShare {gang : Nat} {own : Bool} (h : Keeps s₀ s) : Keeps s₀ (s.startShare gang own) := by
  unfold State.startShare
  split
  · exact h.updShare
  · exact h

theorem Keeps.goGang {gang : Nat} (h : Keeps s₀ s) : Keeps s₀ (s.goGang gang) := by
  unfold State.goGang
  dsimp only
  exact h.updGang.sendRanks.startShare

theorem Keeps.decideGang {gang : Nat} (h : Keeps s₀ s) : Keeps s₀ (s.decideGang gang) := by
  unfold State.decideGang
  split
  · exact h
  · split
    · exact h.refuseGang
    · exact h.goGang

@[simp] theorem Keeps.execArmok {gang rank code : Nat} {grid : Nat × Nat × Nat} (h : Keeps s₀ s) :
    KeepsRes s₀ (execArmok gang rank code grid s) := by
  unfold Machine.execArmok
  dsimp only
  split
  · exact h
  · exact h.updGang.decideGang

@[simp] theorem Keeps.execGo {gang : Nat} (h : Keeps s₀ s) : KeepsRes s₀ (execGo gang s) := by
  unfold Machine.execGo
  split
  · exact h
  · split
    · split
      · exact h
      · exact h.startShare.sendGang
    · exact h

theorem Keeps.gangRuns {gang : Nat} (h : Keeps s₀ s) : Keeps s₀ (s.gangRuns gang) := by
  unfold State.gangRuns
  exact h.updGang.gangAnswer

theorem Keeps.shareDecided {lid : Nat} {fenced parts : List Nat} (h : Keeps s₀ s) :
    Keeps s₀ (s.shareDecided lid fenced parts) := by
  unfold State.shareDecided
  exact h.updShare.spreadShare

theorem Keeps.gangComplete {gang : Nat} (h : Keeps s₀ s) : Keeps s₀ (s.gangComplete gang) := by
  unfold State.gangComplete
  dsimp only
  split
  · exact h.gangRuns.sendRanks.shareDecided
  · exact h.gangRuns.sendRanks

@[simp] theorem Keeps.execGoack {gang rank : Nat} (h : Keeps s₀ s) : KeepsRes s₀ (execGoack gang rank s) := by
  unfold Machine.execGoack
  dsimp only
  split
  · exact h
  · show Keeps _ _
    split
    · exact h.updGang.gangComplete
    · exact h.updGang

theorem Keeps.fenceGang {gang : Nat} (h : Keeps s₀ s) : Keeps s₀ (s.fenceGang gang) := by
  unfold State.fenceGang
  dsimp only
  exact h.fencePeers.sendRanks.sendRanks

theorem Keeps.haltTeam {tk : Nat} (h : Keeps s₀ s) : Keeps s₀ (s.haltTeam tk) := by
  unfold State.haltTeam
  dsimp only
  split
  · exact h
  · split
    · exact h.killTeam
    · split
      · exact h.updTeam.settleTeam
      · exact h

theorem Keeps.shareFails {lid : Nat} (h : Keeps s₀ s) : Keeps s₀ (s.shareFails lid) := by
  unfold State.shareFails
  dsimp only
  refine Keeps.finishLaunch ?_
  refine Keeps.writeResmap ?_
  refine Keeps.updLaunch ?_
  exact h.foldl fun t x ht => ht.haltTeam

theorem Keeps.fenceShare {gang : Nat} {ranks peers : List Nat} {goes : Bool} (h : Keeps s₀ s) :
    Keeps s₀ (s.fenceShare gang ranks peers goes) := by
  unfold State.fenceShare
  dsimp only
  split
  · exact h
  · split
    · exact h
    · split
      · exact h.fencePeers.shareDecided
      · exact h.fencePeers.shareFails

theorem Keeps.failGang {gang : Nat} (h : Keeps s₀ s) : Keeps s₀ (s.failGang gang) := by
  unfold State.failGang
  dsimp only
  refine Keeps.update ?_
  split
  · exact h.updGang
  · exact h.updGang.shareFails

theorem Keeps.carryOn {gang : Nat} (h : Keeps s₀ s) : Keeps s₀ (s.carryOn gang) := by
  unfold State.carryOn
  dsimp only
  refine Keeps.gangRuns ?_
  split
  · exact h
  · exact h.shareDecided

@[simp] theorem Keeps.execGoWindowExpire {gang : Nat} (h : Keeps s₀ s) : KeepsRes s₀ (execGoWindowExpire gang s) := by
  unfold Machine.execGoWindowExpire
  dsimp only
  split
  · exact h
  · show Keeps _ _
    split
    · exact h.fenceGang.carryOn
    · exact h.fenceGang.failGang

theorem Keeps.peerShare {gang : Nat} {own : Bool} {rank : Nat} {stage : Option Nat} (h : Keeps s₀ s) :
    Keeps s₀ (s.peerShare gang own rank stage) := by
  unfold State.peerShare
  split
  · exact h
  · split
    · exact h.updShare
    · exact h.updShare.spreadShare

@[simp] theorem Keeps.execFenceKill {gang : Nat} (h : Keeps s₀ s) : KeepsRes s₀ (execFenceKill gang s) := by
  unfold Machine.execFenceKill
  dsimp only
  split
  · exact h
  · show Keeps _ _
    refine Keeps.updLaunch ?_
    exact h.foldl fun t x ht => ht.killTeam

/-! ## The operations of `Machine/Migrate` -/

theorem Keeps.reportPart {part : Nat} {c : Code} {pa : Nat} (h : Keeps s₀ s) : Keeps s₀ (s.reportPart part c pa) := by
  unfold State.reportPart
  exact h.addRec

theorem Keeps.markL2 {line : Nat} (h : Keeps s₀ s) : Keeps s₀ (s.markL2 line) := by
  unfold State.markL2
  exact h.updDie

theorem Keeps.loseLine {line : Nat} (h : Keeps s₀ s) : Keeps s₀ (s.loseLine line) := by
  unfold State.loseLine
  dsimp only
  split
  · exact h
  · split
    · exact h.updDie
    · exact h.updDie.reportPart

theorem Keeps.setMig {die idx : Nat} {m : Migration} (h : Keeps s₀ s) : Keeps s₀ (s.setMig die idx m) := by
  unfold State.setMig
  exact h.updDie

theorem Keeps.migAnswer {part : Nat} {a : MigAnswer} (h : Keeps s₀ s) : Keeps s₀ (s.migAnswer part a) := by
  unfold State.migAnswer
  exact h.updPart

theorem Keeps.setEntry {pa en : Nat} (h : Keeps s₀ s) : Keeps s₀ (s.setEntry pa en) := by
  unfold State.setEntry
  exact h.foldl fun t x ht => ht.setHome

@[simp] theorem Keeps.execMigrate {part : Nat} {ia dst : W64} (h : Keeps s₀ s) : KeepsRes s₀ (execMigrate part ia dst s) := by
  unfold Machine.execMigrate
  dsimp only
  split
  · exact h.migAnswer
  · exact h.migAnswer
  · split
    · exact h.migAnswer
    · split
      · exact h.migAnswer
      · exact h.setEntry.setMig.migAnswer

theorem Keeps.fallBack {die idx : Nat} {m : Migration} (h : Keeps s₀ s) : Keeps s₀ (s.fallBack die idx m) := by
  unfold State.fallBack
  exact h.setMig.reportPart

theorem Keeps.moveLine {m : Migration} {i src dst : Nat} (h : Keeps s₀ s) : Keeps s₀ (s.moveLine m i src dst) := by
  unfold State.moveLine
  dsimp only
  split
  · split
    · refine Keeps.reportPart ?_
      refine Keeps.update ?_
      exact h.recallGrain.updDie.foldl fun t x ht => ht.setHome
    · split
      · refine Keeps.markL2 ?_
        refine Keeps.loseLine ?_
        exact h.recallGrain.updDie.foldl fun t x ht => ht.setHome
      · refine Keeps.loseLine ?_
        exact h.recallGrain.updDie.foldl fun t x ht => ht.setHome
  · split
    · refine Keeps.update ?_
      exact h.recallGrain.foldl fun t x ht => ht.setHome
    · exact h.recallGrain.foldl fun t x ht => ht.setHome

theorem Keeps.migDone {die idx : Nat} {m : Migration} {home : Nat} (h : Keeps s₀ s) :
    Keeps s₀ (s.migDone die idx m home) := by
  unfold State.migDone
  dsimp only
  refine Keeps.updDie ?_
  refine Keeps.dropTlb ?_
  split
  · exact h.setEntry
  · exact h

@[simp] theorem Keeps.execMigrateLineStep {die idx : Nat} (h : Keeps s₀ s) : KeepsRes s₀ (execMigrateLineStep die idx s) := by
  unfold Machine.execMigrateLineStep
  dsimp only
  split
  · exact h
  · split
    · show Keeps _ _
      split
      · exact h
      · exact h.fallBack
    · split
      · exact h
      · split
        · split
          · exact h.migDone
          · split
            · exact h
            · split
              · exact h.fallBack
              · exact h.moveLine.setMig
        · split
          · exact h
          · split
            · exact h.fallBack
            · split
              · exact h.moveLine.setMig
              · exact h.moveLine.migDone

@[simp] theorem Keeps.execMigrateCancel {die idx : Nat} (h : Keeps s₀ s) : KeepsRes s₀ (execMigrateCancel die idx s) := by
  unfold Machine.execMigrateCancel
  split
  · split
    · exact h
    · exact h.fallBack
  · exact h

@[simp] theorem Keeps.execMigrateResume {die idx : Nat} (h : Keeps s₀ s) : KeepsRes s₀ (execMigrateResume die idx s) := by
  unfold Machine.execMigrateResume
  split
  · split
    · exact h.setMig
    · exact h
  · exact h

@[simp] theorem Keeps.execMigrateReverse {die idx : Nat} (h : Keeps s₀ s) : KeepsRes s₀ (execMigrateReverse die idx s) := by
  unfold Machine.execMigrateReverse
  split
  · split
    · exact h.setMig
    · exact h
  · exact h

@[simp] theorem Keeps.execTranslationInvalidate {part : Nat} {ia : W64} (h : Keeps s₀ s) :
    KeepsRes s₀ (execTranslationInvalidate part ia s) := by
  unfold Machine.execTranslationInvalidate
  split
  · exact h
  · exact h.dropTlb

@[simp] theorem Keeps.execLostclr {part : Nat} {pa : W64} (h : Keeps s₀ s) : KeepsRes s₀ (execLostclr part pa s) := by
  unfold Machine.execLostclr
  dsimp only
  split
  · exact h
  · show Keeps _ _
    refine Keeps.foldl ?_ fun t x ht => ?_
    · exact h.updDie.foldl fun t x ht => ht.setHome
    · exact ht.noteWrite

@[simp] theorem Keeps.execScrub {die : Nat} {pa : W64} {r : ScrubResult} (h : Keeps s₀ s) :
    KeepsRes s₀ (execScrub die pa r s) := by
  unfold Machine.execScrub
  dsimp only
  split
  · exact h
  · split
    · exact h
    · exact h.updDie
    · split
      · exact h
      · show Keeps _ _
        refine Keeps.update ?_
        refine Keeps.updDie ?_
        refine Keeps.loseLine ?_
        exact h.foldl fun t x ht => ht.dropDirty

theorem Keeps.linkFalls {link : Nat} (h : Keeps s₀ s) : Keeps s₀ (s.linkFalls link) := by
  unfold State.linkFalls
  refine h.foldl fun t x ht => ?_
  exact ht.foldl fun t x ht => ht.fallBack

@[simp] theorem Keeps.execLinkFlitError {link : Nat} (h : Keeps s₀ s) : KeepsRes s₀ (execLinkFlitError link s) := by
  unfold Machine.execLinkFlitError
  dsimp only
  split
  · exact h
  · split
    · exact h.update
    · exact Keeps.linkFalls (h.update)

/-! ## The operations of `Machine/Errors` -/

theorem Keeps.countErr {die lo n : Nat} (h : Keeps s₀ s) : Keeps s₀ (s.countErr die lo n) := by
  unfold State.countErr
  exact h.updDie

theorem Keeps.vaultErr {tk vpn : Nat} {fixed : Bool} {spoil : Team → Team} (h : Keeps s₀ s) :
    Keeps s₀ (s.vaultErr tk vpn fixed spoil) := by
  unfold State.vaultErr
  dsimp only
  split
  · exact h
  · split
    · exact h.countErr
    · exact h.countErr.updTeam

theorem Keeps.loseDirty {line : Nat} (h : Keeps s₀ s) : Keeps s₀ (s.loseDirty line) := by
  unfold State.loseDirty
  dsimp only
  split
  · split
    · exact h.dropDirty
    · exact h.dropDirty.loseLine.markL2
  · exact h.dropDirty

theorem Keeps.loseHbm {line : Nat} (h : Keeps s₀ s) : Keeps s₀ (s.loseHbm line) := by
  unfold State.loseHbm
  refine Keeps.loseLine ?_
  exact h.foldl fun t x ht => ht.dropDirty

theorem Keeps.softErr {a1 : SoftErr} (h : Keeps s₀ s) : Keeps s₀ (s.softErr a1) := by
  unfold State.softErr
  dsimp only
  split
  · split
    · exact h.updRole.countErr
    · exact h
  · split
    · exact h.updRole.countErr
    · exact h
  · exact h.vaultErr
  · split
    · exact h
    · exact h.vaultErr
  · split
    · exact h
    · split
      · split
        · exact h.countErr
        · exact h.loseDirty.countErr
      · split
        · exact h.countErr
        · exact h.loseDirty.countErr
  · split
    · exact h
    · split
      · exact h.countErr
      · split
        · exact h
        · exact h.loseHbm.countErr

/-! ## The operations of `Machine/Window` -/

@[simp] theorem Keeps.execRegisterWrite {reg : WinReg} {val : W64} (h : Keeps s₀ s) :
    KeepsRes s₀ (execRegisterWrite reg val s) := by
  unfold Machine.execRegisterWrite
  split
  · exact h.updVf
  · exact h.updVf
  · exact h.updVf
  · exact h.updVf
  · exact h.updVf
  · exact h.updVf
  · exact h.updVf
  · exact h.updVf
  · exact h.updPart
  · exact h.updDie
  · exact h.updCore

@[simp] theorem Keeps.execFaultRingRegWrite {vf : Nat} {reg : RingReg} {val : W64} (h : Keeps s₀ s) :
    KeepsRes s₀ (execFaultRingRegWrite vf reg val s) := by
  unfold Machine.execFaultRingRegWrite
  dsimp only
  show Keeps _ _
  split
  · exact h.updVf
  · exact h.updVf.flushRecs

@[simp] theorem Keeps.execPostclr {vf : Nat} {handle : W64} (h : Keeps s₀ s) : KeepsRes s₀ (execPostclr vf handle s) := by
  unfold Machine.execPostclr
  exact h.updVf

theorem Keeps.loadFirmware {image signature : List Byte} (h : Keeps s₀ s) :
    Keeps s₀ (s.loadFirmware image signature) := by
  unfold State.loadFirmware
  split
  · exact h
  · exact h.update

@[simp] theorem Keeps.execAttestationRequest {vf : Nat} {nonce : BitVec 256} (h : Keeps s₀ s) :
    KeepsRes s₀ (execAttestationRequest vf nonce s) := by
  unfold Machine.execAttestationRequest
  dsimp only
  split
  · exact h.update
  · exact h.updVf.update

/-! ## The operations of `Machine/Package` -/

@[simp] theorem Keeps.execHbmTempSample {die stack : Nat} {temp : Byte} (h : Keeps s₀ s) :
    KeepsRes s₀ (execHbmTempSample die stack temp s) := by
  unfold Machine.execHbmTempSample
  dsimp only
  split
  · exact h.updStk
  · exact h

@[simp] theorem Keeps.execRefreshPeriodSwitch {die stack : Nat} (h : Keeps s₀ s) :
    KeepsRes s₀ (execRefreshPeriodSwitch die stack s) := by
  unfold Machine.execRefreshPeriodSwitch
  split
  · exact h.updStk
  · exact h

@[simp] theorem Keeps.execRefreshStart {die stack pch : Nat} (h : Keeps s₀ s) :
    KeepsRes s₀ (execRefreshStart die stack pch s) := by
  unfold Machine.execRefreshStart
  split
  · exact h.updStk
  · exact h

@[simp] theorem Keeps.execRefreshEnd {die stack pch : Nat} (h : Keeps s₀ s) :
    KeepsRes s₀ (execRefreshEnd die stack pch s) := by
  unfold Machine.execRefreshEnd
  split
  · exact h.updStk
  · exact h

theorem Keeps.refreshAll (h : Keeps s₀ s) : Keeps s₀ s.refreshAll := by
  unfold State.refreshAll
  dsimp only
  refine h.foldl fun t x ht => ?_
  split
  · exact ht
  · exact ht.updStk

@[simp] theorem Keeps.execLeaseExpire {tk : Nat} (h : Keeps s₀ s) : KeepsRes s₀ (execLeaseExpire tk s) := by
  unfold Machine.execLeaseExpire
  split
  · exact h.updTeam.adopt
  · exact h

@[simp] theorem Keeps.execPortDown {port : Fin 8} {down : Bool} (h : Keeps s₀ s) :
    KeepsRes s₀ (execPortDown port down s) := by
  unfold Machine.execPortDown
  exact h.update

@[simp] theorem Keeps.execIllegal (h : Keeps s₀ s) : KeepsRes s₀ (execIllegal s) := by
  unfold Machine.execIllegal
  split
  · exact h.raiseS
  · exact h.laneFault
  · exact h.laneFault
  · trivial

/-! ## The operations of `Machine/Issue` -/

@[simp] theorem Keeps.execStarvationIssue {core dp : Nat} {lane : Bool} (h : Keeps s₀ s) :
    KeepsRes s₀ (execStarvationIssue core dp lane s) := by
  unfold Machine.execStarvationIssue
  split
  · exact h.updCore
  · exact h

theorem Keeps.countBoundary {core dp : Nat} {lane : Bool} {held offered : List Nat} {chosen : Option Nat}
    (h : Keeps s₀ s) :
    Keeps s₀ (s.countBoundary core dp lane held offered chosen) := by
  unfold State.countBoundary
  exact h.foldl fun t x ht => ht.updRole

theorem Keeps.fetchFault {rk : Nat} {lane : Bool} {va : Nat} {f : Fetched} (h : Keeps s₀ s) :
    Keeps s₀ (s.fetchFault rk lane va f) := by
  unfold State.fetchFault
  dsimp only
  split
  · exact h
  · exact h.raise
  · exact h.raise
  · exact h.machineCheck
  · exact h.raise.updRole

theorem Keeps.chargeWord {after before : State} {rk n b : Nat} (h : Keeps s₀ after) :
    Keeps s₀ (after.chargeWord before rk n b) := by
  unfold State.chargeWord
  dsimp only
  split
  · exact h
  · refine Keeps.updCluster ?_
    split
    · exact h.chargeTeam
    · exact h.charge

theorem Keeps.charged {after before : State} {a : Agent} {i : Instr} (h : Keeps s₀ after) :
    Keeps s₀ (after.charged before a i) := by
  unfold State.charged
  dsimp only
  split
  · split
    · exact h.chargeWord
    · exact h
  · split
    · split
      · exact h.chargeWord.updRole
      · exact h.chargeWord
    · exact h
  · split
    · exact h
    · split
      · exact h.chargeTeam
      · exact h.charge
  · exact h

theorem Keeps.counted {core dp : Nat} {lane : Bool} {chosen : Option Nat} (h : Keeps s₀ s) :
    Keeps s₀ (s.counted core dp lane chosen) := by
  unfold State.counted
  dsimp only
  split
  · refine Keeps.countBoundary ?_
    split
    · exact h
    · exact h.updCluster
  · split
    · refine Keeps.updCore ?_
      split
      · exact h
      · exact h.updCluster
    · refine Keeps.countBoundary ?_
      refine Keeps.updCore ?_
      split
      · exact h
      · exact h.updCluster

theorem Keeps.cyclicRecords {tk : Nat} (h : Keeps s₀ s) : Keeps s₀ (s.cyclicRecords tk) := by
  unfold State.cyclicRecords
  dsimp only
  exact h.addRec.foldl fun t x ht => ht.addRec

@[simp] theorem Keeps.execCyclicwait {tk : Nat} (h : Keeps s₀ s) : KeepsRes s₀ (execCyclicwait tk s) := by
  unfold Machine.execCyclicwait
  dsimp only
  split
  · exact h.cyclicRecords.updTeam
  · exact h

theorem Keeps.count (h : Keeps s₀ s) : Keeps s₀ s.count := h.same

theorem Keeps.tick (h : Keeps s₀ s) : Keeps s₀ s.tick := by
  unfold State.tick
  exact h.refreshAll.count.refreshAll

theorem Keeps.evict {line : Nat} (h : Keeps s₀ s) : Keeps s₀ (s.evict line) := by
  unfold State.evict
  dsimp only
  split
  · split
    · split
      · exact h.stallAll
      · exact h.writeBack
    · split
      · exact h.stallAll
      · exact h.writeBack
  · exact h.writeBack

theorem Keeps.cacheLine {c : CacheAt} {line : Nat} {held : Bool} (h : Keeps s₀ s) :
    Keeps s₀ (s.cacheLine c line held) := by
  unfold State.cacheLine
  split
  · exact h.update
  · exact h.update

theorem Keeps.reachPeer {vf peer port : Nat} {ok : Bool} (h : Keeps s₀ s) :
    Keeps s₀ (s.reachPeer vf peer port ok) := by
  unfold State.reachPeer
  dsimp only
  exact h.updVf

theorem Keeps.clkTick {core : Nat} (h : Keeps s₀ s) : Keeps s₀ (s.clkTick core) := by
  unfold State.clkTick
  exact h.updCore

theorem Keeps.flip {rk word : Nat} {dup : Bool} (h : Keeps s₀ s) : Keeps s₀ (s.flip rk word dup) := by
  unfold State.flip
  dsimp only
  split
  · exact h.updRole
  · exact h

theorem Keeps.hostAck {rk q : Nat} (h : Keeps s₀ s) : Keeps s₀ (s.hostAck rk q) := by
  unfold State.hostAck
  split
  · exact h.updCmd
  · exact h

/-! ## The operations of `Machine/LaneMask` -/

theorem Keeps.maskOp {sw : Bool} {ok : Nat → Bool} {f : Lanes → Lanes} (h : Keeps s₀ s) :
    KeepsRes s₀ (maskOp s sw ok f) := by
  unfold Machine.maskOp
  split
  · trivial
  · split
    · exact h.laneDone
    · exact h.laneFault

@[simp] theorem Keeps.execVif {sw : Bool} {kc : BitVec 4} {kcn : Bool} (h : Keeps s₀ s) :
    KeepsRes s₀ (execVif sw kc kcn s) := by
  unfold Machine.execVif
  exact h.maskOp

@[simp] theorem Keeps.execVelse {sw : Bool} (h : Keeps s₀ s) : KeepsRes s₀ (execVelse sw s) := by
  unfold Machine.execVelse
  exact h.maskOp

@[simp] theorem Keeps.execVendif {sw : Bool} (h : Keeps s₀ s) : KeepsRes s₀ (execVendif sw s) := by
  unfold Machine.execVendif
  exact h.maskOp

theorem Keeps.predOp {c : LaneCtl} {kd : BitVec 4} {f : Lanes → Nat → Bool} (h : Keeps s₀ s) :
    KeepsRes s₀ (predOp s c kd f) := by
  unfold Machine.predOp
  exact h.laneWordOp

@[simp] theorem Keeps.execVkand {c : LaneCtl} {kd ka kb : BitVec 4} (h : Keeps s₀ s) :
    KeepsRes s₀ (execVkand c kd ka kb s) := by
  unfold Machine.execVkand
  exact h.predOp

@[simp] theorem Keeps.execVkor {c : LaneCtl} {kd ka kb : BitVec 4} (h : Keeps s₀ s) :
    KeepsRes s₀ (execVkor c kd ka kb s) := by
  unfold Machine.execVkor
  exact h.predOp

@[simp] theorem Keeps.execVkxor {c : LaneCtl} {kd ka kb : BitVec 4} (h : Keeps s₀ s) :
    KeepsRes s₀ (execVkxor c kd ka kb s) := by
  unfold Machine.execVkxor
  exact h.predOp

@[simp] theorem Keeps.execVknot {c : LaneCtl} {kd ka : BitVec 4} (h : Keeps s₀ s) : KeepsRes s₀ (execVknot c kd ka s) := by
  unfold Machine.execVknot
  exact h.predOp

@[simp] theorem Keeps.execVkmov {c : LaneCtl} {toReg : Bool} {k : BitVec 4} {x : Opnd} (h : Keeps s₀ s) :
    KeepsRes s₀ (execVkmov c toReg k x s) := by
  unfold Machine.execVkmov
  split
  · exact h.laneWordOp
  · exact h.laneTest

@[simp] theorem Keeps.execVvote {c : LaneCtl} {m : VoteMode} {role : Bool} {ka : BitVec 4} {d : Opnd} (h : Keeps s₀ s) :
    KeepsRes s₀ (execVvote c m role ka d s) := by
  unfold Machine.execVvote
  dsimp only
  exact h.laneWordOp

@[simp] theorem Keeps.execVshfl {c : LaneCtl} {m : ShflMode} {w64 : Bool} {d a b x : Opnd} (h : Keeps s₀ s) :
    KeepsRes s₀ (execVshfl c m w64 d a b x s) := by
  unfold Machine.execVshfl
  dsimp only
  exact h.laneWordOp

theorem Keeps.lanePush {rk : Nat} {v : W64} {k : State → Res} (h : Keeps s₀ s)
    (hk : ∀ t, Keeps s₀ t → KeepsRes s₀ (k t)) :
    KeepsRes s₀ (s.lanePush rk v k) := by
  unfold State.lanePush
  split
  · exact h.updRole
  · exact h.raise.updRole
  · exact hk _ h.pushQ

@[simp] theorem Keeps.execVtos {c : LaneCtl} {m : TosMode} {a : Opnd} (h : Keeps s₀ s) : KeepsRes s₀ (execVtos c m a s) := by
  unfold Machine.execVtos
  dsimp only
  split
  · refine h.laneFrame (fun x0 x1 => ?_)
    refine h.lanePush (fun t h1 => ?_)
    exact h1.laneFinish
  · exact h.laneFault
  · trivial

@[simp] theorem Keeps.execVregroup {c : LaneCtl} {wid pushn : Bool} {d : Opnd} (h : Keeps s₀ s) :
    KeepsRes s₀ (execVregroup c wid pushn d s) := by
  unfold Machine.execVregroup
  dsimp only
  split
  · refine h.laneFrame (fun x0 x1 => ?_)
    split
    · exact h.laneFault
    · split
      · exact h.updRole
      · split
        · exact h.parityCheck
        · split
          · refine h.repair.lanePush (fun t h1 => ?_)
            exact h1.laneDone
          · exact h.repair.laneDone
  · exact h.laneFault
  · trivial

/-! ## The operations of `Machine/ScalarInt` -/

@[simp] theorem Keeps.execAdd {d a b : SReg} (h : Keeps s₀ s) : KeepsRes s₀ (execAdd d a b s) := by
  unfold Machine.execAdd
  exact h.alu2

@[simp] theorem Keeps.execSub {d a b : SReg} (h : Keeps s₀ s) : KeepsRes s₀ (execSub d a b s) := by
  unfold Machine.execSub
  exact h.alu2

@[simp] theorem Keeps.execMul {d a b : SReg} (h : Keeps s₀ s) : KeepsRes s₀ (execMul d a b s) := by
  unfold Machine.execMul
  exact h.alu2

@[simp] theorem Keeps.execMulh {d a b : SReg} (h : Keeps s₀ s) : KeepsRes s₀ (execMulh d a b s) := by
  unfold Machine.execMulh
  exact h.alu2

@[simp] theorem Keeps.execMulhn {d a b : SReg} (h : Keeps s₀ s) : KeepsRes s₀ (execMulhn d a b s) := by
  unfold Machine.execMulhn
  exact h.alu2

@[simp] theorem Keeps.execDiv {d a b : SReg} (h : Keeps s₀ s) : KeepsRes s₀ (execDiv d a b s) := by
  unfold Machine.execDiv
  exact h.alu2

@[simp] theorem Keeps.execDivn {d a b : SReg} (h : Keeps s₀ s) : KeepsRes s₀ (execDivn d a b s) := by
  unfold Machine.execDivn
  exact h.alu2

@[simp] theorem Keeps.execRem {d a b : SReg} (h : Keeps s₀ s) : KeepsRes s₀ (execRem d a b s) := by
  unfold Machine.execRem
  exact h.alu2

@[simp] theorem Keeps.execRemn {d a b : SReg} (h : Keeps s₀ s) : KeepsRes s₀ (execRemn d a b s) := by
  unfold Machine.execRemn
  exact h.alu2

@[simp] theorem Keeps.execAnd {d a b : SReg} (h : Keeps s₀ s) : KeepsRes s₀ (execAnd d a b s) := by
  unfold Machine.execAnd
  exact h.alu2

@[simp] theorem Keeps.execOr {d a b : SReg} (h : Keeps s₀ s) : KeepsRes s₀ (execOr d a b s) := by
  unfold Machine.execOr
  exact h.alu2

@[simp] theorem Keeps.execXor {d a b : SReg} (h : Keeps s₀ s) : KeepsRes s₀ (execXor d a b s) := by
  unfold Machine.execXor
  exact h.alu2

@[simp] theorem Keeps.execAndn {d a b : SReg} (h : Keeps s₀ s) : KeepsRes s₀ (execAndn d a b s) := by
  unfold Machine.execAndn
  exact h.alu2

@[simp] theorem Keeps.execShl {d a b : SReg} (h : Keeps s₀ s) : KeepsRes s₀ (execShl d a b s) := by
  unfold Machine.execShl
  exact h.alu2

@[simp] theorem Keeps.execShr {d a b : SReg} (h : Keeps s₀ s) : KeepsRes s₀ (execShr d a b s) := by
  unfold Machine.execShr
  exact h.alu2

@[simp] theorem Keeps.execSra {d a b : SReg} (h : Keeps s₀ s) : KeepsRes s₀ (execSra d a b s) := by
  unfold Machine.execSra
  exact h.alu2

@[simp] theorem Keeps.execRot {d a b : SReg} (h : Keeps s₀ s) : KeepsRes s₀ (execRot d a b s) := by
  unfold Machine.execRot
  exact h.alu2

@[simp] theorem Keeps.execMin {d a b : SReg} (h : Keeps s₀ s) : KeepsRes s₀ (execMin d a b s) := by
  unfold Machine.execMin
  exact h.alu2

@[simp] theorem Keeps.execMax {d a b : SReg} (h : Keeps s₀ s) : KeepsRes s₀ (execMax d a b s) := by
  unfold Machine.execMax
  exact h.alu2

@[simp] theorem Keeps.execMinn {d a b : SReg} (h : Keeps s₀ s) : KeepsRes s₀ (execMinn d a b s) := by
  unfold Machine.execMinn
  exact h.alu2

@[simp] theorem Keeps.execMaxn {d a b : SReg} (h : Keeps s₀ s) : KeepsRes s₀ (execMaxn d a b s) := by
  unfold Machine.execMaxn
  exact h.alu2

@[simp] theorem Keeps.execClz {d a : SReg} (h : Keeps s₀ s) : KeepsRes s₀ (execClz d a s) := by
  unfold Machine.execClz
  exact h.alu1

@[simp] theorem Keeps.execCtz {d a : SReg} (h : Keeps s₀ s) : KeepsRes s₀ (execCtz d a s) := by
  unfold Machine.execCtz
  exact h.alu1

@[simp] theorem Keeps.execPopc {d a : SReg} (h : Keeps s₀ s) : KeepsRes s₀ (execPopc d a s) := by
  unfold Machine.execPopc
  exact h.alu1

@[simp] theorem Keeps.execBrev {d a : SReg} (h : Keeps s₀ s) : KeepsRes s₀ (execBrev d a s) := by
  unfold Machine.execBrev
  exact h.alu1

@[simp] theorem Keeps.execClmul {d a b : SReg} (h : Keeps s₀ s) : KeepsRes s₀ (execClmul d a b s) := by
  unfold Machine.execClmul
  exact h.alu2

@[simp] theorem Keeps.execClmulh {d a b : SReg} (h : Keeps s₀ s) : KeepsRes s₀ (execClmulh d a b s) := by
  unfold Machine.execClmulh
  exact h.alu2

@[simp] theorem Keeps.execSel {d a b : SReg} (h : Keeps s₀ s) : KeepsRes s₀ (execSel d a b s) := by
  unfold Machine.execSel
  refine h.scalarOp (fun x0 x1 t h3 => ?_)
  exact h3.finish

@[simp] theorem Keeps.execSeq {d a b : SReg} (h : Keeps s₀ s) : KeepsRes s₀ (execSeq d a b s) := by
  unfold Machine.execSeq
  exact h.alu2

@[simp] theorem Keeps.execSne {d a b : SReg} (h : Keeps s₀ s) : KeepsRes s₀ (execSne d a b s) := by
  unfold Machine.execSne
  exact h.alu2

@[simp] theorem Keeps.execSlt {d a b : SReg} (h : Keeps s₀ s) : KeepsRes s₀ (execSlt d a b s) := by
  unfold Machine.execSlt
  exact h.alu2

@[simp] theorem Keeps.execSltn {d a b : SReg} (h : Keeps s₀ s) : KeepsRes s₀ (execSltn d a b s) := by
  unfold Machine.execSltn
  exact h.alu2

@[simp] theorem Keeps.execAddi {d a : SReg} {i : BitVec 13} (h : Keeps s₀ s) : KeepsRes s₀ (execAddi d a i s) := by
  unfold Machine.execAddi
  exact h.alu1

@[simp] theorem Keeps.execAndi {d a : SReg} {i : BitVec 13} (h : Keeps s₀ s) : KeepsRes s₀ (execAndi d a i s) := by
  unfold Machine.execAndi
  exact h.alu1

@[simp] theorem Keeps.execOri {d a : SReg} {i : BitVec 13} (h : Keeps s₀ s) : KeepsRes s₀ (execOri d a i s) := by
  unfold Machine.execOri
  exact h.alu1

@[simp] theorem Keeps.execXori {d a : SReg} {i : BitVec 13} (h : Keeps s₀ s) : KeepsRes s₀ (execXori d a i s) := by
  unfold Machine.execXori
  exact h.alu1

@[simp] theorem Keeps.execShli {d a : SReg} {i : BitVec 6} (h : Keeps s₀ s) : KeepsRes s₀ (execShli d a i s) := by
  unfold Machine.execShli
  exact h.alu1

@[simp] theorem Keeps.execShri {d a : SReg} {i : BitVec 6} (h : Keeps s₀ s) : KeepsRes s₀ (execShri d a i s) := by
  unfold Machine.execShri
  exact h.alu1

@[simp] theorem Keeps.execSrai {d a : SReg} {i : BitVec 6} (h : Keeps s₀ s) : KeepsRes s₀ (execSrai d a i s) := by
  unfold Machine.execSrai
  exact h.alu1

@[simp] theorem Keeps.execBfext {d a : SReg} {l p : BitVec 6} (h : Keeps s₀ s) : KeepsRes s₀ (execBfext d a l p s) := by
  unfold Machine.execBfext
  split
  · split
    · exact h.illegalS
    · exact h.alu1
  · trivial

@[simp] theorem Keeps.execBfins {d a : SReg} {l p : BitVec 6} (h : Keeps s₀ s) : KeepsRes s₀ (execBfins d a l p s) := by
  unfold Machine.execBfins
  split
  · split
    · exact h.illegalS
    · exact h.alu1
  · trivial

@[simp] theorem Keeps.execLi {d : SReg} {i : BitVec 19} (h : Keeps s₀ s) : KeepsRes s₀ (execLi d i s) := by
  unfold Machine.execLi
  refine h.scalarOp (fun x0 x1 t h3 => ?_)
  exact h3.finish

@[simp] theorem Keeps.execLix {d : SReg} {i : W32} (h : Keeps s₀ s) : KeepsRes s₀ (execLix d i s) := by
  unfold Machine.execLix
  split
  · exact h.illegalS
  · exact h.writeField.advance
  · trivial

@[simp] theorem Keeps.execLih {d : SReg} {i : W32} (h : Keeps s₀ s) : KeepsRes s₀ (execLih d i s) := by
  unfold Machine.execLih
  split
  · exact h.illegalS
  · exact h.writeField.advance
  · trivial

theorem Keeps.branchOp {d a : SReg} {i : BitVec 13} {c : W64 → W64 → Bool} (h : Keeps s₀ s) :
    KeepsRes s₀ (branchOp s d a i c) := by
  unfold Machine.branchOp
  dsimp only
  refine h.scalarOp (fun x0 x1 t h3 => ?_)
  show Keeps _ _
  split
  · exact h3.jumpTo
  · exact h3.advance

@[simp] theorem Keeps.execBeq {d a : SReg} {i : BitVec 13} (h : Keeps s₀ s) : KeepsRes s₀ (execBeq d a i s) := by
  unfold Machine.execBeq
  exact h.branchOp

@[simp] theorem Keeps.execBne {d a : SReg} {i : BitVec 13} (h : Keeps s₀ s) : KeepsRes s₀ (execBne d a i s) := by
  unfold Machine.execBne
  exact h.branchOp

@[simp] theorem Keeps.execBlt {d a : SReg} {i : BitVec 13} (h : Keeps s₀ s) : KeepsRes s₀ (execBlt d a i s) := by
  unfold Machine.execBlt
  exact h.branchOp

@[simp] theorem Keeps.execBge {d a : SReg} {i : BitVec 13} (h : Keeps s₀ s) : KeepsRes s₀ (execBge d a i s) := by
  unfold Machine.execBge
  exact h.branchOp

@[simp] theorem Keeps.execBltn {d a : SReg} {i : BitVec 13} (h : Keeps s₀ s) : KeepsRes s₀ (execBltn d a i s) := by
  unfold Machine.execBltn
  exact h.branchOp

@[simp] theorem Keeps.execBgen {d a : SReg} {i : BitVec 13} (h : Keeps s₀ s) : KeepsRes s₀ (execBgen d a i s) := by
  unfold Machine.execBgen
  exact h.branchOp

@[simp] theorem Keeps.execJmp {i : BitVec 19} (h : Keeps s₀ s) : KeepsRes s₀ (execJmp i s) := by
  unfold Machine.execJmp
  split
  · exact h.jumpTo
  · trivial

@[simp] theorem Keeps.execCall {i : BitVec 19} (h : Keeps s₀ s) : KeepsRes s₀ (execCall i s) := by
  unfold Machine.execCall
  dsimp only
  split
  · exact h.updRole.jumpTo
  · trivial

theorem Keeps.jumpReg {rk : Nat} {dt : W64} (h : Keeps s₀ s) : Keeps s₀ (jumpReg s rk dt) := by
  unfold Machine.jumpReg
  split
  · exact h.jumpTo
  · exact h.raiseS

@[simp] theorem Keeps.execJr {a : SReg} (h : Keeps s₀ s) : KeepsRes s₀ (execJr a s) := by
  unfold Machine.execJr
  refine h.scalarOp (fun x0 x1 t h3 => ?_)
  exact h3.jumpReg

@[simp] theorem Keeps.execRet (h : Keeps s₀ s) : KeepsRes s₀ (execRet s) := by
  unfold Machine.execRet
  split
  · exact h.jumpReg
  · trivial

end Sys2Proof.Machine
end

section
/-! PROOFS. Every step keeps home memory in canonical form and the accepted features among the offered ones. -/

namespace Sys2Proof.Machine
open Sys2Proof

variable {s₀ s t : State}

/-! ## What a move comes to before it runs anything -/

theorem Keeps.issueRole {rk : Nat} {lane : Bool} (h : Keeps s₀ s) : Keeps s₀ (s.issueRole rk lane).state := by
  unfold State.issueRole
  split
  · dsimp only
    split
    · exact h.stallAll
    · exact h
  · exact h.fetchFault

theorem Keeps.boundary {core dp : Nat} {lane : Bool} (h : Keeps s₀ s) : Keeps s₀ (s.boundary core dp lane).state := by
  unfold State.boundary
  split
  · exact h
  · split
    · dsimp only
      exact h.counted
    · exact h.counted.issueRole

theorem Keeps.engineTurn {rk q : Nat} (h : Keeps s₀ s) : Keeps s₀ (s.engineTurn rk q).state := by
  unfold State.engineTurn
  split
  · split
    · exact h
    · split
      · exact h
      · split
        · exact h
        · exact h.readBlock
  · split
    · exact h
    · dsimp only
      split
      · exact h
      · exact h.startCmd

theorem Keeps.rowTurn {key : Nat} (h : Keeps s₀ s) : Keeps s₀ (s.rowTurn key).state := by
  unfold State.rowTurn
  dsimp only
  split
  · exact h
  · split
    · exact h.rowEnd
    · split
      · split
        · split
          · split
            · exact h.stallAll
            · exact h.notePages
          · exact h.rowEnd
        · exact h.rowEnd
      · exact h.rowEnd
      · exact h.rowPage
      · exact h

/-- What a move comes to before it runs anything. -/
theorem Keeps.pick {m : Move} (h : Keeps s₀ s) : Keeps s₀ (s.pick m).state := by
  cases m <;> dsimp only [State.pick]
  case boundary => exact h.boundary
  case event => exact h
  case engine => exact h.engineTurn
  case row => exact h.rowTurn
  case tick => exact h.tick
  case clk => exact h.clkTick
  case evict => exact h.evict
  case fill => exact h.fillTlb
  case drop => exact h.dropTlb
  case sensor => exact h.updCluster
  case flip => exact h.flip
  case soft => exact h.softErr
  case fence => exact h.fenceShare
  case pace => exact h.update
  case perform => exact h.kick
  case lxRead => exact h.lxRead
  case lxStep => exact h.lxStep
  case hostAck => exact h.hostAck
  case cacheLine => exact h.cacheLine
  case segFlip => exact h.updVf
  case fepEntry => exact h.update
  case fepOwner => exact h.updVf
  case reach => exact h.reachPeer
  case resendAsked => exact h.resendAsked
  case closeContext => exact h.closeContext
  case peerShare => exact h.peerShare
  case fareFactor => exact h.updCore
  case dieSet => exact h.setDies
  case firmware => exact h.loadFirmware

/-- What a step keeps when it may also accept features or reset the package. -/
structure Sound (s t : State) : Prop where
  mem : s.MemOk → t.MemOk
  features : s.FeaturesOk → t.FeaturesOk

def SoundRes (s : State) : Res → Prop
  | .next t => Sound s t
  | _ => True

theorem Keeps.sound (h : Keeps s t) : Sound s t :=
  ⟨h.mem, fun hf => by rw [State.FeaturesOk, h.accept, h.offer]; exact hf⟩

theorem KeepsRes.sound {r : Res} (h : KeepsRes s r) : SoundRes s r := by
  cases r with
  | next t => exact Keeps.sound h
  | fault f => trivial
  | refused f => trivial

theorem sound_execAccept (val : BitVec 128) (s : State) : SoundRes s (execAccept val s) := by
  unfold execAccept
  split
  · exact (Keeps.refl s).sound
  · next h =>
    simp only [Bool.or_eq_true, not_or, bne_iff_ne, ne_eq, not_not] at h
    exact ⟨id, fun _ => h.1.2⟩

theorem sound_execPackageReset (s : State) : SoundRes s (execPackageReset s) := by
  have hreset : Sound s s.packageReset := ⟨fun _ => rfl, fun _ => BitVec.zero_and⟩
  have hlevels : Sound s.packageReset s.packageReset.newLevels := (Keeps.refl _).newLevels.sound
  exact ⟨hlevels.mem ∘ hreset.mem, hlevels.features ∘ hreset.features⟩

theorem sound_exec (i : Instr) (s : State) : SoundRes s (exec i s) := by
  cases i
  case accept val => exact sound_execAccept val s
  case packageReset => exact sound_execPackageReset s
  all_goals exact KeepsRes.sound (by simp [exec])


/-! ## The step -/

theorem Sound.trans {u : State} (h : Sound s t) (g : Sound t u) : Sound s u :=
  ⟨g.mem ∘ h.mem, g.features ∘ h.features⟩

/-- Who acts says nothing of memory or features. -/
theorem sound_cur (s : State) (a : Agent) : Sound s { s with cur := a } := ⟨id, id⟩

theorem keeps_endStep (s : State) : Keeps { s with cur := .none } s.endStep := (Keeps.refl _).settle

theorem sound_endStep (s : State) : Sound s s.endStep := (sound_cur s .none).trans (keeps_endStep s).sound

theorem endRes_next {r : Res} (h : endRes r = .next t) : ∃ u, r = .next u ∧ t = u.endStep := by
  cases r with
  | next u => exact ⟨u, rfl, (Host.Outcome.next.inj h).symm⟩
  | fault f => cases h
  | refused f => cases h

theorem chargeRes_next {b : State} {a : Agent} {i : Instr} {r : Res} (h : chargeRes b a i r = .next t) :
    ∃ u, r = .next u ∧ t = u.charged b a i := by
  cases r with
  | next u => exact ⟨u, rfl, (Host.Outcome.next.inj h).symm⟩
  | fault f => cases h
  | refused f => cases h

/-- What a move runs ends with `endStep`, from a state that keeps memory and features. -/
theorem pickExec_next {p : Pick} (h : p.exec = .next t) : ∃ u, Sound p.state u ∧ t = u.endStep := by
  unfold Pick.exec at h
  split at h
  · obtain ⟨u, hu, ht⟩ := endRes_next h
    cases hu
    exact ⟨_, (Keeps.refl _).sound, ht⟩
  · next a i _ =>
    obtain ⟨u, hu, ht⟩ := endRes_next h
    obtain ⟨v, hv, rfl⟩ := chargeRes_next hu
    have hexec : Sound { p.state with cur := a } v := by
      have := sound_exec i { p.state with cur := a }
      rwa [hv] at this
    exact ⟨_, (sound_cur _ a).trans (hexec.trans (Keeps.refl v).charged.sound), ht⟩

/-- A step with a move to make ends with `endStep`. -/
theorem step_next (h : step s = .next t) : t = s ∨ ∃ u, Sound s u ∧ t = u.endStep := by
  unfold step at h
  split at h
  · exact .inl (Host.Outcome.next.inj h).symm
  · next m ms _ =>
    obtain ⟨u, hu, ht⟩ := pickExec_next h
    have hpick : Keeps s (({ s with agenda := ms }).pick m).state := (Keeps.refl s).update.pick
    exact .inr ⟨u, hpick.sound.trans hu, ht⟩

theorem sound_step (h : step s = .next t) : Sound s t := by
  rcases step_next h with rfl | ⟨u, hu, rfl⟩
  · exact (Keeps.refl _).sound
  · exact hu.trans (sound_endStep u)

/-- Settles O59: every operation of a step writes home memory through `setHome`, or clears it. -/
theorem memoryFormKept : Obligations.MemoryFormKept := fun _ _ hs h => (sound_step h).mem hs

/-- Settles O60: the accepted features change at ACCEPT alone, and a step ends with `endStep`. -/
theorem featuresKept : Obligations.FeaturesKept := by
  refine ⟨fun s t hs h => (sound_step h).features hs, fun s t hs h => ?_⟩
  rcases step_next h with rfl | ⟨u, -, rfl⟩
  · exact hs
  · exact (keeps_endStep u).cur

end Sys2Proof.Machine
end

section
/-! PROOFS. Ranges of addresses, and maps after a list of writes. -/

namespace Sys2Proof.Machine
open Sys2Proof

/-! ## Ranges -/

theorem rangeFrom_eq_range' (lo n : Nat) : rangeFrom lo n = List.range' lo n := by
  induction n generalizing lo with
  | zero => rfl
  | succ n ih => rw [rangeFrom, ih, List.range'_succ]

theorem mem_rangeFrom {a lo n : Nat} : a ∈ rangeFrom lo n ↔ lo ≤ a ∧ a < lo + n := by
  rw [rangeFrom_eq_range', List.mem_range'_1]

theorem nodup_rangeFrom (lo n : Nat) : (rangeFrom lo n).Nodup := by
  rw [rangeFrom_eq_range']
  exact List.nodup_range'

/-! ## Writes of a list of keys -/

section
variable {α β : Type} [DecidableEq α] (d : α)

theorem get_foldl_set_ne (l : List (Nat × α)) (m : NMap α) {k : Nat} (h : ∀ e ∈ l, e.1 ≠ k) :
    (l.foldl (fun m e => m.set d e.1 e.2) m).get d k = m.get d k := by
  induction l generalizing m with
  | nil => rfl
  | cons e es ih =>
    rw [List.foldl_cons, ih _ fun x hx => h x (List.mem_cons_of_mem _ hx)]
    exact NMap.get_set_ne _ _ _ (h e (List.mem_cons_self ..)).symm

/-- Different keys, written in any order, read as what was written. -/
theorem map_get_foldl_set (ks : List Nat) (vs : List α) (m : NMap α) (hlen : vs.length = ks.length) (hnd : ks.Nodup) :
    ks.map (((ks.zip vs).foldl (fun m e => m.set d e.1 e.2) m).get d) = vs := by
  induction ks generalizing vs m with
  | nil => exact (List.eq_nil_of_length_eq_zero hlen).symm
  | cons k ks ih =>
    cases vs with
    | nil => cases hlen
    | cons v vs =>
      obtain ⟨hk, hks⟩ := List.nodup_cons.1 hnd
      have hne : ∀ e ∈ ks.zip vs, e.1 ≠ k := fun e he heq => hk (heq ▸ (List.of_mem_zip he).1)
      rw [List.zip_cons_cons, List.foldl_cons, List.map_cons, ih vs _ (Nat.succ.inj hlen) hks, get_foldl_set_ne d _ _ hne,
        NMap.get_set_self]

end

/-! ## Writes of home memory -/

theorem hbm_foldl_setHome (l : List (Nat × Byte)) (s : State) :
    (l.foldl (fun t e => t.setHome e.1 e.2) s).hbm = l.foldl (fun m e => m.set hbmDefault e.1 e.2) s.hbm := by
  induction l generalizing s with
  | nil => rfl
  | cons e es ih => rw [List.foldl_cons, ih]; rfl

theorem homeByte_foldl_setHome_ne {β : Type} (l : List β) (f : β → Nat) (g : β → Byte) (s : State) {k : Nat}
    (h : ∀ e ∈ l, f e ≠ k) : (l.foldl (fun t e => t.setHome (f e) (g e)) s).homeByte k = s.homeByte k := by
  induction l generalizing s with
  | nil => rfl
  | cons e es ih =>
    rw [List.foldl_cons, ih _ fun x hx => h x (List.mem_cons_of_mem _ hx)]
    exact State.homeByte_setHome_ne _ _ (h e (List.mem_cons_self ..)).symm

theorem homeByte_eq {s t : State} (h : s.hbm = t.hbm) : s.homeByte = t.homeByte := by
  funext pa
  rw [State.homeByte, State.homeByte, h]

theorem homeByte_foldl_setHome (ks : List Nat) (bs : List Byte) (s : State) (hlen : bs.length = ks.length)
    (hnd : ks.Nodup) : ks.map ((ks.zip bs).foldl (fun t e => t.setHome e.1 e.2) s).homeByte = bs := by
  have hbyte : ((ks.zip bs).foldl (fun t e => t.setHome e.1 e.2) s).homeByte
      = ((ks.zip bs).foldl (fun m e => m.set hbmDefault e.1 e.2) s.hbm).get hbmDefault := by
    funext k
    rw [State.homeByte, hbm_foldl_setHome]
  rw [hbyte]
  exact map_get_foldl_set _ _ _ _ hlen hnd

end Sys2Proof.Machine
end

section
/-! PROOFS. Where branches, jumps, calls and returns go (R180). -/

namespace Sys2Proof.Machine
open Sys2Proof

/-- The rule multiplies the offset by 4 from the left. -/
theorem branchTo_eq (pc off : W64) : branchTo pc off = pc + 4 * off := by
  rw [branchTo, BitVec.mul_comm]

/-- A target is a multiple of 4 as a number if it is one as a word. -/
theorem jumpReg_eq (s : State) (rk : Nat) (t : W64) :
    jumpReg s rk t = if t % 4 = 0 then s.jumpTo rk t else s.raiseS rk .misalign t.toNat := by
  have hmod : t % 4 = 0 ↔ t.toNat % 4 = 0 := BitVec.toNat_inj.symm
  simp only [jumpReg, hmod]

/-- A ready branch goes where R180 says, as its condition on the values read decides. -/
theorem exec_of_branchOp {w : Instr} {s s1 : State} {rk : Nat} {d a : SReg} {x y : W64} {i : BitVec 13} {c : W64 → W64 → Bool}
    (h : ScalarReady s rk [a, d] none [x, y] s1) (hw : exec w s = branchOp s d a i c) :
    exec w s = .next (if c x y then s1.jumpTo rk ((s1.role rk).pc + 4 * i.signExtend 64) else s1.advance rk 4) := by
  rw [hw, branchOp_ready h, branchTo_eq]

theorem exec_jmp {s : State} {rk : Nat} (hc : s.cur = .scalar rk) (j : BitVec 19) :
    exec (.jmp j) s = .next (s.jumpTo rk ((s.role rk).pc + 4 * j.signExtend 64)) := by
  rw [← branchTo_eq]
  simp only [exec, execJmp, hc]

theorem exec_call {s : State} {rk : Nat} (hc : s.cur = .scalar rk) (j : BitVec 19) :
    exec (.call j) s = .next ((s.updRole rk fun r => r.setSreg 47 (r.pc + 4)).jumpTo rk
      ((s.role rk).pc + 4 * j.signExtend 64)) := by
  rw [← branchTo_eq]
  simp only [exec, execCall, hc, State.updRole]

theorem exec_jr {s s1 : State} {rk : Nat} {a : SReg} {x : W64} (h : ScalarReady s rk [a] none [x] s1) :
    exec (.jr a) s = .next (if x % 4 = 0 then s1.jumpTo rk x else s1.raiseS rk .misalign x.toNat) := by
  rw [← jumpReg_eq]
  exact scalarOp_ready h fun rk vs s => .next (jumpReg s rk (src vs 0))

theorem exec_ret {s : State} {rk : Nat} (hc : s.cur = .scalar rk) :
    exec .ret s = .next (if (s.role rk).sreg 47 % 4 = 0 then s.jumpTo rk ((s.role rk).sreg 47)
      else s.raiseS rk .misalign ((s.role rk).sreg 47).toNat) := by
  rw [← jumpReg_eq]
  simp only [exec, execRet, hc]

/-- Settles O3: each branch is `branchOp` with its comparison, the jumps read the PC alone. -/
theorem controlTransfers : Obligations.ControlTransfers := by
  unfold Obligations.ControlTransfers
  refine ⟨fun s s1 rk d a x y i j => ⟨fun h => ?_, fun hc => ⟨exec_jmp hc j, exec_call hc j⟩⟩,
    fun s s1 rk a x => ⟨exec_jr, exec_ret⟩⟩
  exact ⟨exec_of_branchOp (c := fun x y => x == y) h rfl, exec_of_branchOp (c := fun x y => x != y) h rfl,
    exec_of_branchOp (c := BitVec.slt) h rfl, exec_of_branchOp (c := fun x y => y.sle x) h rfl,
    exec_of_branchOp (c := BitVec.ult) h rfl, exec_of_branchOp (c := fun x y => y.ule x) h rfl⟩

end Sys2Proof.Machine
end

section
/-! PROOFS. The frame of a result in a register (R63, R174). -/

namespace Sys2Proof.Machine
open Sys2Proof

/-- A role whose scalar stream has performed a part of an unaligned access, and keeps its translation (R135). -/
def partlyDone : State := State.reset.updRole 0 fun r => { r with partAt := some ⟨0, 0, [0], false, false⟩ }

theorem partAt_partlyDone : (partlyDone.role 0).partAt = some ⟨0, 0, [0], false, false⟩ := rfl

/-- The completed word forgets the translation with the bytes performed under it. -/
theorem partAt_finish_partlyDone : ((partlyDone.finish 0 (.s 1) 0).role 0).partAt = none := by decide

/-- Refutes O4: its last clause lists the fields of the role that a result may change and leaves out `partAt`, the
translation of a partly performed access (R135), which the end of every scalar word clears. -/
theorem not_registerFrames : ¬ Obligations.RegisterFrames := by
  unfold Obligations.RegisterFrames
  rintro ⟨-, -, hframe⟩
  obtain ⟨-, -, hrole, -, -⟩ := hframe partlyDone 0 1 0
  have hpart := congrArg Role.partAt hrole
  exact nomatch partAt_finish_partlyDone.symm.trans (hpart.trans partAt_partlyDone)

end Sys2Proof.Machine
end

section
/-! PROOFS. What a fault of a stream writes into its record and what it stops (R339 to R341). -/

namespace Sys2Proof.Machine
open Sys2Proof

theorem codeNum_lt (c : Code) : codeNum c < 2 ^ 16 := by
  cases c with
  | failed => exact Config.failedCode.isLt
  | _ => decide

theorem recFlags_stream (lane tx : Bool) : recFlags lane false tx false % 2 ^ 8 = b2n lane + 4 * b2n tx := by
  cases lane <;> cases tx <;> rfl

theorem roleIdx_lt (rk : Nat) : roleIdx rk < 8 := Nat.mod_lt _ (by decide)

section
variable (s : State) (vf : Nat) (i : RecInfo) (stops : Option Nat) (rk : Nat)

/-- A record stops nothing by itself: PC, registers and lanes of every role stay. -/
theorem addRec_role_stream : ((s.addRec vf i stops).role rk).pc = (s.role rk).pc ∧
    ((s.addRec vf i stops).role rk).sregs = (s.role rk).sregs ∧ ((s.addRec vf i stops).role rk).lanes = (s.role rk).lanes := by
  have h := addRec_role s vf i stops rk
  exact ⟨(congrArg Role.pc h :), (congrArg Role.sregs h :), (congrArg Role.lanes h :)⟩

theorem addRec_nextRec : (s.addRec vf i stops).nextRec = s.nextRec + 1 :=
  (congrArg State.nextRec (addRec_rest s vf i stops) :)

end

section
variable (s : State) (rk : Nat) (lane : Bool) {c : Code} (sub va pa lanes : Nat) (hc : c ≠ .page)
include hc

/-- A fault other than PAGE adds its record, stops its role and, for the codes of R251 and R258, its team. -/
theorem raise_eq : s.raise rk lane c sub va pa lanes =
    let s2 := (s.addRec (s.vfOf rk) (s.roleInfo rk lane c sub va pa lanes false) (some rk)).updRole rk fun r =>
      { r with stopped := some (s.nextRec % 2 ^ 32) }
    if c.stopsTeam then s2.updTeam (teamOf rk) fun t => { t with halted := some (s.nextRec % 2 ^ 32) } else s2 := by
  rw [State.raise, if_neg hc]

theorem raise_role : (s.raise rk lane c sub va pa lanes).role rk =
    { (s.addRec (s.vfOf rk) (s.roleInfo rk lane c sub va pa lanes false) (some rk)).role rk with
      stopped := some (s.nextRec % 2 ^ 32) } := by
  rw [raise_eq s rk lane sub va pa lanes hc]
  dsimp only
  split <;> simp only [State.role_updTeam, State.role_updRole_self]

theorem raise_vf (v : Nat) : (s.raise rk lane c sub va pa lanes).vf v =
    (s.addRec (s.vfOf rk) (s.roleInfo rk lane c sub va pa lanes false) (some rk)).vf v := by
  rw [raise_eq s rk lane sub va pa lanes hc]
  dsimp only
  split <;> simp only [State.vf_updTeam, State.vf_updRole]

theorem raise_nextRec : (s.raise rk lane c sub va pa lanes).nextRec = s.nextRec + 1 := by
  rw [raise_eq s rk lane sub va pa lanes hc]
  dsimp only
  split <;> exact addRec_nextRec ..

theorem raise_halted (h : c = .txcap ∨ c = .txprobe) :
    ((s.raise rk lane c sub va pa lanes).team (teamOf rk)).halted = some (s.nextRec % 2 ^ 32) := by
  have hstops : c.stopsTeam = true := by rcases h with rfl | rfl <;> rfl
  rw [raise_eq s rk lane sub va pa lanes hc]
  simp only [hstops, if_true, State.team_updTeam_self]

end

theorem newRec_bytes (s : State) (vf : Nat) (i : RecInfo) (stops : Option Nat) : (s.newRec vf i stops).bytes =
    byteMap (recBytes i (s.nextRec % 2 ^ 32) vf s.refTick.toNat s.free) := by
  dsimp only [State.newRec]

/-- The fields of R339 in the bytes of a stream's fault record. -/
theorem roleInfo_fields (s : State) (rk : Nat) (lane : Bool) (c : Code) (sub va pa lanes : Nat) {b : NMap Byte}
    (hb : b = (s.newRec (s.vfOf rk) (s.roleInfo rk lane c sub va pa lanes false) (some rk)).bytes) :
    fieldAt b 0 2 = codeNum c ∧ fieldAt b 2 1 = sub % 2 ^ 8 ∧
    fieldAt b 3 1 = b2n lane + 4 * b2n (s.inTx (teamOf rk)) ∧ fieldAt b 4 4 = s.nextRec % 2 ^ 32 ∧
    fieldAt b 8 8 = teamOf rk % 2 ^ 60 ∧ fieldAt b 16 1 = roleIdx rk ∧ fieldAt b 17 1 = 0xFF ∧
    fieldAt b 18 2 = s.vfOf rk % 2 ^ 16 ∧
    fieldAt b 20 4 = (if lane then (s.role rk).laneIndex
      else (s.role rk).pc.toNat + 2 ^ 64 - (s.launchOf rk).khdr) % 2 ^ 32 ∧
    fieldAt b 24 8 = va % 2 ^ 64 ∧ fieldAt b 32 8 = pa % 2 ^ 64 ∧
    fieldAt b 40 8 = s.refTick.toNat ∧ fieldAt b 48 16 = 0 ∧ fieldAt b 64 128 = lanes % 2 ^ 1024 := by
  rw [hb, newRec_bytes]
  obtain ⟨hcode, hsub, hflags, hid, hteam, hidx, hqueue, hvf, hpc, hva, hpa, htime, hzero, hlanes⟩ :=
    recBytes_read (s.roleInfo rk lane c sub va pa lanes false) (s.nextRec % 2 ^ 32) (s.vfOf rk) s.refTick.toNat s.free
  refine ⟨?_, hsub, ?_, ?_, ?_, ?_, hqueue, hvf, hpc, hva, hpa, ?_, hzero, hlanes⟩
  · exact hcode.trans (Nat.mod_eq_of_lt (codeNum_lt c))
  · exact hflags.trans (recFlags_stream lane _)
  · exact hid.trans (Nat.mod_mod _ _)
  · exact hteam.trans (Nat.mod_eq_of_lt (lt_trans (Nat.mod_lt _ (by decide)) (by decide)))
  · exact hidx.trans (Nat.mod_eq_of_lt (lt_trans (roleIdx_lt rk) (by decide)))
  · exact htime.trans (Nat.mod_eq_of_lt s.refTick.isLt)

/-- Settles O6: the role keeps all but its stop mark, and the fields of the record are those of `roleInfo` read back. -/
theorem faultRecords : Obligations.FaultRecords := by
  unfold Obligations.FaultRecords
  intro s rk lane c sub va pa lanes hc
  obtain ⟨hpc, hsregs, hlanes⟩ :=
    addRec_role_stream s (s.vfOf rk) (s.roleInfo rk lane c sub va pa lanes false) (some rk) rk
  obtain ⟨w, hmem⟩ := addRec_mem s (s.vfOf rk) (s.roleInfo rk lane c sub va pa lanes false) (some rk)
  have hrole := raise_role s rk lane sub va pa lanes hc
  rw [← raise_vf s rk lane sub va pa lanes hc] at hmem
  refine ⟨congrArg Role.stopped hrole, (congrArg Role.pc hrole).trans hpc, (congrArg Role.sregs hrole).trans hsregs,
    (congrArg Role.lanes hrole).trans hlanes, raise_nextRec s rk lane sub va pa lanes hc,
    raise_halted s rk lane sub va pa lanes hc, _, hmem, rfl, rfl, rfl, ?_⟩
  dsimp only
  exact roleInfo_fields s rk lane c sub va pa lanes rfl

end Sys2Proof.Machine
end

section
/-! PROOFS. A store by a cluster whose L2 is full of dirty lines (R286, R322, R326). -/

namespace Sys2Proof.Machine
open Sys2Proof

/-- A dirty line of core 0 whose byte 0 is 1. -/
def lineOne : DirtyLine := ⟨1, ⟨0, 0⟩⟩

/-- As many dirty lines of cluster 0 as its L2 holds: those with the keys from 0 on. -/
def fullL2 : NMap DirtyLine := (0, lineOne) :: (List.range 393215).map fun i => (i + 1, lineOne)

/-- A package that has the dirty lines `d`, and in the translation cache of die 0 a page for them at physical address 0. -/
def withDirty (d : NMap DirtyLine) : State :=
  { State.reset with dies := [(0, { Die.reset with tlb := [⟨0, 0, 2 ^ 28, 0, true⟩] })], dirty := d }

/-- A byte of a line behind all of these. -/
def farByte : Xlat := ⟨0, 2 ^ 30, [0], false, false⟩

theorem fullL2_length : fullL2.length = l2Lines := by
  rw [fullL2, List.length_cons, List.length_map, List.length_range, l2Lines]

theorem mem_fullL2 {e : Nat × DirtyLine} (h : e ∈ fullL2) : e.1 < 393216 ∧ e.2 = lineOne := by
  rcases List.mem_cons.1 h with rfl | h
  · exact ⟨by decide, rfl⟩
  · obtain ⟨i, hi, rfl⟩ := List.mem_map.1 h
    exact ⟨Nat.succ_lt_succ (List.mem_range.1 hi), rfl⟩

theorem uncontended_fullL2 : (withDirty fullL2).Uncontended 0 farByte := fun e he _ => by
  rw [(mem_fullL2 he).2]
  decide

/-- No line of the grain of `farByte` is dirty. -/
theorem grainOwner_fullL2 : (withDirty fullL2).grainOwner (grainKey (lineKey 0 (2 ^ 30))) = none := by
  have hfind : fullL2.find? (fun e => grainKey e.1 == grainKey (lineKey 0 (2 ^ 30))) = none := by
    refine List.find?_eq_none.2 fun e he => ?_
    have hkey := (mem_fullL2 he).1
    simp only [grainKey, lineKey, beq_iff_eq]
    omega
  simp only [State.grainOwner, State.grainHolder, withDirty, hfind, Option.map_none]

theorem get?_of_lt {α : Type} (m : NMap α) (k : Nat) (h : ∀ e ∈ m, e.1 < k) : m.get? k = none := by
  induction m with
  | nil => rfl
  | cons e t ih =>
    have hne : k ≠ e.1 := (h e (List.mem_cons_self ..)).ne'
    rw [NMap.get?, if_neg hne]
    exact ih fun e he => h e (List.mem_cons_of_mem _ he)

theorem has_fullL2 : fullL2.has (lineKey 0 (2 ^ 30)) = false := by
  rw [NMap.has, get?_of_lt _ _ fun e he => lt_trans (mem_fullL2 he).1 (by decide)]
  rfl

theorem filter_fullL2 : fullL2.filter (fun e => e.2.holder.cluster == 0) = fullL2 :=
  List.filter_eq_self.2 fun e he => by rw [(mem_fullL2 he).2]; decide

/-- The full cache writes its first line back. -/
theorem l2Room_fullL2 : (withDirty fullL2).l2Room 0 = (withDirty fullL2).writeBack 0 := by
  have hlen : (withDirty fullL2).dirty.length = l2Lines := fullL2_length
  have hfilter : (withDirty fullL2).dirty.filter (fun e => e.2.holder.cluster == 0) = fullL2 := filter_fullL2
  rw [State.l2Room, if_neg (by rw [hlen]; exact lt_irrefl _), hfilter]
  show (if l2Lines ≤ fullL2.length then _ else _) = _
  rw [if_pos fullL2_length.ge]

theorem regionDie_withDirty (d : NMap DirtyLine) : (withDirty d).regionDie 0 0 = 0 := by
  have hmap : ((withDirty d).part 0).dieMap = [] := rfl
  rw [State.regionDie, hmap]
  rfl

theorem walk_line0 (d : NMap DirtyLine) : (withDirty d).walk 0 0 false = .page ⟨0, 0, 2 ^ 28, 0, none⟩ := by
  have hpage : (withDirty d).cachedPage 0 0 = some ⟨0, 0, 2 ^ 28, 0, true⟩ := by
    rw [State.cachedPage, regionDie_withDirty]
    rfl
  rw [State.walk, hpage]
  rfl

theorem translateIa_line0 (d : NMap DirtyLine) : (withDirty d).translateIa 0 0 64 false =
    .ok ⟨0, 0, rangeFrom 0 64, false, false⟩ := by
  have hpas : (rangeFrom 0 64).map (fun a => if a / 2 ^ 16 = 0 / 2 ^ 16 then PageT.paOf ⟨0, 0, 2 ^ 28, 0, none⟩ a
      else PageT.paOf ⟨0, 0, 2 ^ 28, 0, none⟩ a) = rangeFrom 0 64 := by decide
  rw [State.translateIa, State.walkRange, walk_line0]
  simp only [Nat.zero_add, Nat.reduceSub, Nat.reducePow, Nat.reduceDiv, if_true] at hpas ⊢
  rw [hpas]
  rfl

theorem lineByte_lineOne : lineByte lineOne.data 0 = 1 :=
  BitVec.eq_of_toNat_eq (by simp [lineByte, lineOne])

/-- The line written back gives home byte 0 the value 1. -/
theorem homeByte_writeBack (t : NMap DirtyLine) : ((withDirty ((0, lineOne) :: t)).writeBack 0).homeByte 0 = 1 := by
  have hget : (withDirty ((0, lineOne) :: t)).dirty.get? 0 = some lineOne := rfl
  have hzip : (rangeFrom 0 64).zipIdx = (0, 0) :: (rangeFrom 1 63).zipIdx 1 := rfl
  have hxlat : (withDirty ((0, lineOne) :: t)).translateIa (0 / 2 ^ 46) (0 % 2 ^ 46 * 64) 64 false = _ :=
    translateIa_line0 _
  rw [State.writeBack, hget]
  simp only [hxlat, hzip, List.foldl_cons]
  rw [homeByte_foldl_setHome_ne _ _ _ _ (by decide)]
  exact (State.homeByte_setHome_self _ _ _).trans lineByte_lineOne

/-- Writing a byte of a line that is not dirty, in a grain without dirty lines, changes home memory only to make room. -/
theorem dirtyByte_hbm {s : State} {h : Holder} {part ia : Nat} {b : Byte}
    (hown : s.grainOwner (grainKey (lineKey part ia)) = none)
    (hhas : s.dirty.has (lineKey part ia) = false) : (s.dirtyByte h part ia b).hbm = (s.l2Room h.cluster).hbm := by
  simp only [State.dirtyByte, hown, hhas, Bool.false_eq_true, if_false]

theorem storeX_farByte_hbm (s : State) (h : Holder) (b : Byte) :
    (s.storeX h farByte [b]).hbm = (s.dirtyByte h 0 (2 ^ 30) b).hbm := rfl

theorem storeX_fullL2_hbm :
    ((withDirty fullL2).storeX ⟨0, 0⟩ farByte [0]).hbm = ((withDirty fullL2).writeBack 0).hbm := by
  rw [storeX_farByte_hbm, dirtyByte_hbm grainOwner_fullL2 has_fullL2]
  exact congrArg State.hbm l2Room_fullL2

/-- Refutes O9: the cluster's L2 is full, so that the store makes room by writing a dirty line back (R286), which changes
home memory. -/
theorem not_storeEffect : ¬ Obligations.StoreEffect := by
  unfold Obligations.StoreEffect
  rintro ⟨-, hstore⟩
  obtain ⟨hhbm, -, -⟩ := hstore (withDirty fullL2) ⟨0, 0⟩ farByte [0] rfl (by decide) uncontended_fullL2
  have hbyte : ((withDirty fullL2).writeBack 0).homeByte 0 = 1 := homeByte_writeBack _
  rw [State.homeByte, ← storeX_fullL2_hbm, hhbm] at hbyte
  exact absurd hbyte (by decide)

end Sys2Proof.Machine
end

section
/-! PROOFS. Home and scratch writes (R133, R135, R205, R213, R322, R326). -/

namespace Sys2Proof.Machine
open Sys2Proof

/-- What each step of a list keeps, the list keeps. -/
theorem foldl_keeps {σ β γ : Type} (p : σ → γ) {f : σ → β → σ} {l : List β} (h : ∀ t, ∀ x ∈ l, p (f t x) = p t) (s : σ) :
    p (l.foldl f s) = p s := by
  induction l generalizing s with
  | nil => rfl
  | cons x xs ih =>
    rw [List.foldl_cons, ih fun t y hy => h t y (List.mem_cons_of_mem _ hy)]
    exact h s x (List.mem_cons_self ..)

/-! ## Recalls -/

theorem get?_erase_self {α : Type} (m : NMap α) (k : Nat) : NMap.get? (NMap.erase m k) k = none := by
  induction m with
  | nil => rfl
  | cons e t ih =>
    by_cases h : k = e.1
    · simpa only [NMap.erase, if_pos h] using ih
    · simpa only [NMap.erase, if_neg h, NMap.get?] using ih

theorem get?_eq_none {α : Type} {m : NMap α} {k : Nat} (h : k ∉ m.keys) : m.get? k = none := by
  induction m with
  | nil => rfl
  | cons e t ih =>
    obtain ⟨hne, ht⟩ := not_or.1 (mt List.mem_cons.2 (show k ∉ e.1 :: NMap.keys t from h))
    rw [NMap.get?, if_neg hne]
    exact ih ht

theorem get?_erase_none {α : Type} {m : NMap α} {k j : Nat} (h : m.get? k = none) : NMap.get? (NMap.erase m j) k = none := by
  by_cases hk : k = j
  · rw [hk]; exact get?_erase_self m j
  · rw [NMap.get?_erase_ne m hk]; exact h

theorem dirty_writeBack (s : State) (line : Nat) : (s.writeBack line).dirty = s.dirty ∨
    (s.writeBack line).dirty = s.dirty.erase line := by
  unfold State.writeBack
  split
  · exact .inl rfl
  · dsimp only
    split
    · exact .inr (foldl_keeps State.dirty (by intros; rfl) _)
    · exact .inr rfl

theorem dirty_writeBack_self (s : State) (line : Nat) : (s.writeBack line).dirty.get? line = none := by
  unfold State.writeBack
  split
  · next h => exact h
  · dsimp only
    split
    · exact (congrArg (NMap.get? · line) (foldl_keeps State.dirty (by intros; rfl) _)).trans (get?_erase_self _ _)
    · exact get?_erase_self _ _

theorem dirty_writeBack_none {s : State} {l : Nat} (line : Nat) (h : s.dirty.get? l = none) :
    (s.writeBack line).dirty.get? l = none := by
  rcases dirty_writeBack s line with e | e <;> rw [e]
  · exact h
  · exact get?_erase_none h

theorem dirty_writeBacks {s : State} {l : Nat} {ls : List Nat} (h : l ∈ ls ∨ s.dirty.get? l = none) :
    (ls.foldl State.writeBack s).dirty.get? l = none := by
  induction ls generalizing s with
  | nil => exact h.resolve_left (List.not_mem_nil)
  | cons x xs ih =>
    refine ih ?_
    rcases h with h | h
    · rcases List.mem_cons.1 h with rfl | h
      · exact .inr (dirty_writeBack_self s l)
      · exact .inl h
    · exact .inr (dirty_writeBack_none x h)

/-- After a recall no line of the grain is dirty, and no line has become dirty. -/
theorem dirty_recallGrain {s : State} {l g : Nat} (h : grainKey l = g ∨ s.dirty.get? l = none) :
    (s.recallGrain g).dirty.get? l = none := by
  refine dirty_writeBacks ?_
  by_cases hkey : l ∈ s.dirty.keys
  · rcases h with h | h
    · exact .inl (List.mem_filter.2 ⟨hkey, beq_iff_eq.2 h⟩)
    · exact .inr h
  · exact .inr (get?_eq_none hkey)

theorem dirty_recallGrains {s : State} {l : Nat} {gs : List Nat} (h : grainKey l ∈ gs ∨ s.dirty.get? l = none) :
    (gs.foldl State.recallGrain s).dirty.get? l = none := by
  induction gs generalizing s with
  | nil => exact h.resolve_left (List.not_mem_nil)
  | cons g gs ih =>
    refine ih ?_
    rcases h with h | h
    · rcases List.mem_cons.1 h with h | h
      · exact .inr (dirty_recallGrain (.inl h))
      · exact .inl h
    · exact .inr (dirty_recallGrain (.inr h))

theorem recallGrains_clean {s : State} {gs : List Nat} (h : ∀ g ∈ gs, s.dirtyOf g = []) :
    gs.foldl State.recallGrain s = s := by
  induction gs with
  | nil => rfl
  | cons g gs ih =>
    have hg : s.recallGrain g = s := by rw [State.recallGrain, h g (List.mem_cons_self ..)]; rfl
    rw [List.foldl_cons, hg]
    exact ih fun k hk => h k (List.mem_cons_of_mem _ hk)

/-! ## Writes at the home -/

section
variable (s : State) (x : Xlat) (bs : List Byte)

theorem hbm_homeWriteX : (s.homeWriteX x bs).hbm = ((x.pas.zip bs).foldl (fun t e => t.setHome e.1 e.2)
    (((linesOf x.part x.ia x.pas.length).map grainKey).dedup.foldl State.recallGrain s)).hbm :=
  foldl_keeps State.hbm (by intros; rfl) _

theorem dirty_homeWriteX : (s.homeWriteX x bs).dirty =
    (((linesOf x.part x.ia x.pas.length).map grainKey).dedup.foldl State.recallGrain s).dirty :=
  (foldl_keeps State.dirty (by intros; rfl) _).trans (foldl_keeps State.dirty (by intros; rfl) _)

theorem homeX_homeWriteX (hlen : bs.length = x.pas.length) (hnd : x.pas.Nodup) : (s.homeWriteX x bs).homeX x = bs := by
  rw [State.homeX, homeByte_eq (hbm_homeWriteX s x bs)]
  exact homeByte_foldl_setHome _ _ _ hlen hnd

theorem homeByte_homeWriteX_ne (hclean : ∀ l ∈ linesOf x.part x.ia x.pas.length, s.dirtyOf (grainKey l) = []) {pa : Nat}
    (hpa : pa ∉ x.pas) : (s.homeWriteX x bs).homeByte pa = s.homeByte pa := by
  have hrecall : ((linesOf x.part x.ia x.pas.length).map grainKey).dedup.foldl State.recallGrain s = s :=
    recallGrains_clean fun g hg => by
      obtain ⟨l, hl, rfl⟩ := List.mem_map.1 (List.mem_dedup.1 hg)
      exact hclean l hl
  rw [homeByte_eq (hbm_homeWriteX s x bs), hrecall]
  exact homeByte_foldl_setHome_ne _ _ _ _ fun e he heq => hpa (heq ▸ (List.of_mem_zip he).1)

end

/-! ## Scratch stores -/

theorem mem_pagesOf {v ea n : Nat} : v ∈ pagesOf ea n ↔ ∃ a ∈ rangeFrom ea n, a / 4096 = v := by
  simp only [pagesOf, mem_rangeFrom]
  constructor
  · intro h
    refine ⟨max ea (4096 * v), ?_, ?_⟩ <;> split at h <;> omega
  · rintro ⟨a, ha, rfl⟩
    split <;> omega

/-- The page records after a store: those of the pages it touches are written, and where a page lies stays. -/
def wrotePages (tx room : Bool) (ls : List (Nat × Byte)) (m : NMap SPage) : NMap SPage :=
  ls.foldl (fun m e => m.put (e.1 / 4096) ((m.get SPage.fresh (e.1 / 4096)).write tx room e.1)) m

theorem storeScratch_pages (t : Team) (ea : Nat) (bs : List Byte) (room : Bool) :
    (t.storeScratch ea bs room).pages = wrotePages t.txOpen room ((rangeFrom ea bs.length).zip bs) t.pages := rfl

section
variable (tx room : Bool)

/-- What a write of a page keeps or sets, writing several keeps or sets. -/
theorem wrotePages_induct {p : SPage → Prop} (h : ∀ (q : SPage) (a : Nat), p q → p (q.write tx room a)) {v : Nat}
    {ls : List (Nat × Byte)} {m : NMap SPage}
    (hv : p (m.get SPage.fresh v) ∨ (∀ (q : SPage) (a : Nat), p (q.write tx room a)) ∧ v ∈ ls.map fun e => e.1 / 4096) :
    p ((wrotePages tx room ls m).get SPage.fresh v) := by
  induction ls generalizing m with
  | nil => exact hv.resolve_right fun h => List.not_mem_nil h.2
  | cons e es ih =>
    refine ih ?_
    by_cases hk : v = e.1 / 4096
    · subst hk
      rw [NMap.get_put_self]
      exact .inl (hv.elim (h _ _) fun hall => hall.1 _ _)
    · rw [NMap.get_put_ne _ _ _ hk]
      exact hv.imp_right fun hall => ⟨hall.1, (List.mem_cons.1 hall.2).resolve_left hk⟩

theorem wrotePages_place {v : Nat} (ls : List (Nat × Byte)) (m : NMap SPage) :
    ((wrotePages tx room ls m).get SPage.fresh v).present = (m.get SPage.fresh v).present ∧
    ((wrotePages tx room ls m).get SPage.fresh v).kind = (m.get SPage.fresh v).kind :=
  wrotePages_induct tx room (p := fun q => q.present = (m.get SPage.fresh v).present ∧ q.kind = (m.get SPage.fresh v).kind)
    (fun _ _ hq => hq) (.inl ⟨rfl, rfl⟩)

end

theorem storeScratch_viaL2 (t : Team) (ea : Nat) (bs : List Byte) (room : Bool) (v : Nat) :
    (t.storeScratch ea bs room).viaL2 v = t.viaL2 v := by
  obtain ⟨hpresent, hkind⟩ := wrotePages_place t.txOpen room (v := v) ((rangeFrom ea bs.length).zip bs) t.pages
  rw [Team.viaL2, Team.viaL2, Team.page, Team.page, storeScratch_pages, hpresent, hkind]

theorem map_fst_zip_range (ea : Nat) (bs : List Byte) : ((rangeFrom ea bs.length).zip bs).map Prod.fst = rangeFrom ea bs.length :=
  List.map_fst_zip (length_rangeFrom _ _).le

theorem storeScratch_written (t : Team) (ea : Nat) (bs : List Byte) (room : Bool) {v : Nat} (hv : v ∈ pagesOf ea bs.length) :
    ((t.storeScratch ea bs room).page v).dirty = true ∧ ((t.storeScratch ea bs room).page v).acc = true := by
  obtain ⟨a, ha, rfl⟩ := mem_pagesOf.1 hv
  refine wrotePages_induct t.txOpen room (p := fun q => q.dirty = true ∧ q.acc = true) (fun _ _ _ => ⟨rfl, rfl⟩)
    (.inr ⟨fun _ _ => ⟨rfl, rfl⟩, ?_⟩)
  rw [← map_fst_zip_range ea bs] at ha
  obtain ⟨e, he, rfl⟩ := List.mem_map.1 ha
  exact List.mem_map.2 ⟨e, he, rfl⟩

theorem storeScratch_outside (t : Team) (ea : Nat) (bs : List Byte) (room : Bool) {a : Nat} (ha : a < ea ∨ ea + bs.length ≤ a) :
    (t.storeScratch ea bs room).scratch.get 0 a = t.scratch.get 0 a :=
  get_foldl_set_ne 0 _ _ fun e he heq => by
    have := mem_rangeFrom.1 (List.of_mem_zip he).1
    omega

theorem storeScratch_inside (t : Team) (ea : Nat) (bs : List Byte) (room : Bool) :
    (rangeFrom ea bs.length).map ((t.storeScratch ea bs room).scratch.get 0) = bs :=
  map_get_foldl_set 0 _ _ _ (length_rangeFrom _ _).symm (nodup_rangeFrom _ _)

theorem memStep_storeBack (s : State) (tk ea : Nat) (bs : List Byte) : MemStep s (s.storeBack tk ea bs) :=
  MemStep.foldl (fun t v => by
    dsimp only
    split
    · split
      · exact memStep_storeX t _ _ _
      · exact .refl t
    · exact .refl t) _ _

/-- No page of the store is held in L2, so no backing line is written. -/
theorem storeBack_vault {s : State} {tk ea : Nat} {bs : List Byte} (h : ∀ v ∈ pagesOf ea bs.length, (s.team tk).viaL2 v = false) :
    s.storeBack tk ea bs = s :=
  foldl_keeps id (fun u v hv => by simp only [h v hv, Bool.false_eq_true, if_false, id]) s

theorem partOn_one {ea n v : Nat} (h : pagesOf ea n = [v]) : partOn ea n v = (ea, n) := by
  have hfirst : ea / 4096 = v ∧ (ea + n - 1) / 4096 = v := by
    have hv : v ∈ pagesOf ea n := h ▸ List.mem_cons_self ..
    have hlen : (pagesOf ea n).length = 1 := by rw [h]; rfl
    simp only [pagesOf, length_rangeFrom, mem_rangeFrom] at hv hlen
    by_cases hn : n = 0
    · rw [if_pos hn] at hlen; omega
    · rw [if_neg hn] at hlen hv; omega
  have hlo : Nat.max ea (4096 * v) = ea := Nat.max_eq_left (by omega)
  have hhi : Nat.min (ea + n) (4096 * v + 4096) = ea + n := Nat.min_eq_left (by omega)
  rw [partOn, hlo, hhi, Nat.add_sub_cancel_left]

theorem MemStep.team {s t : State} (h : MemStep s t) (k : Nat) : t.team k = s.team k := by
  have hteams : t.teams = s.teams := (congrArg State.teams h.rest :)
  rw [State.team, State.team, hteams]

/-- The state in which the team's own scratch and page records have taken the store. -/
def State.storeVault (s : State) (tk ea : Nat) (bs : List Byte) : State :=
  s.updTeam tk fun t => t.storeScratch ea bs (s.localRoom tk)

section
variable (s : State) (tk ea : Nat) (bs : List Byte)

theorem scratchStore_eq : s.scratchStore tk ea bs = (s.storeVault tk ea bs).storeBack tk ea bs := rfl

theorem team_scratchStore (k : Nat) : (s.scratchStore tk ea bs).team k = (s.storeVault tk ea bs).team k :=
  (memStep_storeBack (s.storeVault tk ea bs) tk ea bs).team k

theorem team_scratchStore_self :
    (s.scratchStore tk ea bs).team tk = (s.team tk).storeScratch ea bs (s.localRoom tk) := by
  rw [team_scratchStore, State.storeVault, State.team_updTeam_self]

theorem storeVault_viaL2 (v : Nat) : ((s.storeVault tk ea bs).team tk).viaL2 v = (s.team tk).viaL2 v := by
  rw [State.storeVault, State.team_updTeam_self, storeScratch_viaL2]

variable {s tk ea bs}

/-- A store to pages of the vault alone. -/
theorem scratchStore_vault (h : ∀ v ∈ pagesOf ea bs.length, (s.team tk).viaL2 v = false) :
    s.scratchStore tk ea bs = s.storeVault tk ea bs := by
  rw [scratchStore_eq]
  exact storeBack_vault fun v hv => (storeVault_viaL2 s tk ea bs v).trans (h v hv)

theorem scratchLoad_scratchStore (h : ∀ v ∈ pagesOf ea bs.length, (s.team tk).viaL2 v = false) :
    (s.scratchStore tk ea bs).scratchLoad tk ea bs.length = bs := by
  rw [scratchStore_vault h, State.scratchLoad]
  refine Eq.trans (List.map_congr_left fun a ha => ?_) (storeScratch_inside (s.team tk) ea bs (s.localRoom tk))
  have hpage : (s.team tk).viaL2 (a / 4096) = false := h _ (mem_pagesOf.2 ⟨a, ha, rfl⟩)
  rw [storeVault_viaL2, hpage, if_neg Bool.false_ne_true, State.storeVault, State.team_updTeam_self]

/-- A store to one page held in L2 is a store to its backing lines (R205). -/
theorem scratchStore_L2 {v : Nat} {x : Xlat} (hpages : pagesOf ea bs.length = [v]) (hvia : (s.team tk).viaL2 v = true)
    (hx : s.xlat (s.launch (lidOf tk)).vf (s.backByteAt tk ea) bs.length true = .ok x) :
    s.scratchStore tk ea bs = (s.storeVault tk ea bs).storeX (s.teamHolder tk) x bs := by
  have hself : (s.storeVault tk ea bs).team tk = (s.team tk).storeScratch ea bs (s.localRoom tk) :=
    s.team_updTeam_self _ _
  have hback : (s.storeVault tk ea bs).backByteAt tk ea = s.backByteAt tk ea := by
    rw [State.backByteAt, hself]; rfl
  have hholder : (s.storeVault tk ea bs).teamHolder tk = s.teamHolder tk := by
    rw [State.teamHolder, hself]; rfl
  have hxlat : (s.storeVault tk ea bs).xlat (s.launch (lidOf tk)).vf (s.backByteAt tk ea) bs.length true = .ok x := hx
  have hlaunch : (s.storeVault tk ea bs).launch (lidOf tk) = s.launch (lidOf tk) := rfl
  simp only [scratchStore_eq, State.storeBack, hpages, List.foldl_cons, List.foldl_nil, partOn_one hpages, storeVault_viaL2,
    hvia, if_true, hback, hlaunch, hxlat, hholder, Nat.sub_self, List.drop_zero, List.take_length]

end

/-- Settles O10: a home write recalls, sets its bytes and notes its lines; a scratch store writes the vault and then the
backing lines; and every operation on memory is a `MemStep`. -/
theorem homeAndScratchWrites : Obligations.HomeAndScratchWrites := by
  unfold Obligations.HomeAndScratchWrites
  refine ⟨fun s x bs hlen hnd => ⟨homeX_homeWriteX s x bs hlen hnd, fun l hl => ?_, fun hclean pa hpa =>
      homeByte_homeWriteX_ne s x bs hclean hpa⟩, fun s tk ea bs => ⟨fun a ha => ?_, fun k hk => ?_, fun v hv => ?_, fun h =>
      ⟨scratchLoad_scratchStore h, ?_⟩, fun v x hpages hvia hx => ⟨_, scratchStore_L2 hpages hvia hx, rfl, rfl⟩⟩,
    fun s h line x bs hok => ⟨(memStep_storeX s h x bs).wf hok, (memStep_homeWriteX s x bs).wf hok,
      (memStep_depotWriteX s x bs).wf hok, (memStep_writeBack s line).wf hok, (memStep_invLine s line).wf hok,
      (memStep_recallGrain s line).wf hok⟩⟩
  · rw [dirty_homeWriteX]
    exact dirty_recallGrains (.inl (List.mem_dedup.2 (List.mem_map_of_mem hl)))
  · rw [team_scratchStore_self]
    exact storeScratch_outside _ _ _ _ ha
  · rw [team_scratchStore]
    exact s.team_updTeam_ne _ hk
  · rw [team_scratchStore_self]
    exact storeScratch_written _ _ _ _ hv
  · rw [scratchStore_vault h]
    exact ⟨rfl, rfl⟩

end Sys2Proof.Machine
end

section
/-! PROOFS. TXCOMMIT, TXABORT and what an abort leaves (R254 to R260). -/

namespace Sys2Proof.Machine
open Sys2Proof

/- Elaborated side by side, these proofs wait for one another's equation lemmas, each with a stack of its own. -/
set_option Elab.async false

/-! ## The words -/

theorem exec_txcommit_outside {s : State} {rk : Nat} (a b : SReg) (hc : s.cur = .scalar rk) (htx : s.inTx (teamOf rk) = false) :
    exec (.txcommit a b) s = .next (s.raiseS rk (if s.opIllegal rk [a, b] none = true then .illegal else .txillegal) 0) := by
  by_cases hill : s.opIllegal rk [a, b] none = true
  · simp only [exec, execTxcommit, scalar0, scalarOp, hc, htx, hill, if_true, Bool.not_true, Bool.and_false,
      Bool.false_eq_true, if_false]
  · simp only [exec, execTxcommit, scalar0, txIllegalS, hc, htx, hill, if_true, Bool.not_false, Bool.and_true,
      Bool.false_eq_true, if_false]

theorem exec_txabort {s : State} {rk : Nat} (hc : s.cur = .scalar rk) : exec .txabort s =
    .next (if s.inTx (teamOf rk) then s.abortTeam (teamOf rk) 3 else s.raiseS rk .txillegal 0) := by
  simp only [exec, execTxabort, scalar0, hc, txIllegalS]
  split <;> rfl

section
variable {s s1 : State} {rk : Nat} {a b : SReg} {va y : W64} (htx : s.inTx (teamOf rk) = true)
  (h : ScalarReady s rk [a, b] none [va, y] s1)
include htx h

/-- A ready TXCOMMIT in an open transaction whose token cannot be named. -/
theorem exec_txcommit_fault {c : Code} (ha : a ≠ .s 0) (htok : s1.tokenFault (s1.vfOf rk) va.toNat = some c) :
    exec (.txcommit a b) s = .next (s1.raiseS rk c va.toNat) := by
  simp only [exec, execTxcommit, scalar0, h.cur, htx, Bool.not_true, Bool.false_and, Bool.false_eq_true, if_false]
  rw [scalarOp_ready h]
  simp only [src, List.getD_cons_zero, if_neg ha, htok]

/-- A ready TXCOMMIT in an open transaction whose token can be named, or that has none. -/
theorem exec_txcommit_arrive (htok : (if a = .s 0 then none else s1.tokenFault (s1.vfOf rk) va.toNat) = none) :
    exec (.txcommit a b) s = .next (if (s1.role rk).drained = true
      then s1.commitArrive rk (if a = .s 0 then none else some (va, y)) else s1.parkS rk .drain) := by
  simp only [exec, execTxcommit, scalar0, h.cur, htx, Bool.not_true, Bool.false_and, Bool.false_eq_true, if_false]
  rw [scalarOp_ready h]
  simp only [src, List.getD_cons_zero, List.getD_cons_succ, htok]
  cases (s1.role rk).drained <;> rfl

end

/-- What a token's address comes to, in the order of R257. -/
theorem tokenFault_none {s : State} {vf va ia : Nat} (h : s.toIa vf va 8 = .ia ia) :
    s.tokenFault vf va = if va % 8 ≠ 0 then some .misalign else none := by
  simp only [State.tokenFault, h]

/-- A token that can be named, or none. -/
theorem tokenFault_named {s : State} {a : SReg} {vf va ia : Nat} (h : a = .s 0 ∨ (s.toIa vf va 8 = .ia ia ∧ va % 8 = 0)) :
    (if a = .s 0 then none else s.tokenFault vf va) = none := by
  rcases h with ha | ⟨hia, hal⟩
  · exact if_pos ha
  · rw [tokenFault_none hia, if_neg (not_not.2 hal), ite_self]

/-! ## The arrival -/

section
variable (s : State) (rk : Nat) (tok : Option (W64 × W64))

/-- The role stands at its TXCOMMIT. -/
def State.arrivedAt : State := s.updRole rk fun r => { r with txArr := some tok, spark := .commit }

theorem commitArrive_eq : s.commitArrive rk tok = if (s.arrivedAt rk tok).allArrived (teamOf rk)
    then (s.arrivedAt rk tok).updTeam (teamOf rk) fun t => { t with phase := .probing } else s.arrivedAt rk tok := rfl

theorem commitArrive_role (k : Nat) : (s.commitArrive rk tok).role k = (s.arrivedAt rk tok).role k := by
  rw [commitArrive_eq]
  split <;> rfl

/-- The phase says nothing about arrivals. -/
theorem commitArrive_allArrived : (s.commitArrive rk tok).allArrived (teamOf rk) =
    (s.arrivedAt rk tok).allArrived (teamOf rk) := by
  rw [commitArrive_eq]
  split
  · simp only [State.allArrived, State.rolesOf, State.team_updTeam_self, State.role_updTeam]
  · rfl

theorem commitArrive_phase : ((s.commitArrive rk tok).team (teamOf rk)).phase =
    if (s.commitArrive rk tok).allArrived (teamOf rk) = true then .probing else (s.team (teamOf rk)).phase := by
  rw [commitArrive_allArrived, commitArrive_eq]
  split
  · rw [State.team_updTeam_self]
  · rfl

theorem commitArrive_self : ((s.commitArrive rk tok).role rk).txArr = some tok ∧
    ((s.commitArrive rk tok).role rk).spark = .commit ∧ ((s.commitArrive rk tok).role rk).pc = (s.role rk).pc := by
  rw [commitArrive_role, State.arrivedAt, State.role_updRole_self]
  exact ⟨rfl, rfl, rfl⟩

theorem commitArrive_other {k : Nat} (hk : k ≠ rk) : (s.commitArrive rk tok).role k = s.role k := by
  rw [commitArrive_role]
  exact s.role_updRole_ne _ hk

end

/-! ## The abort -/

theorem get_map_fixed {α : Type} {d : α} {g : Nat × α → Nat × α} {k : Nat} {m : NMap α} (hkey : ∀ e, (g e).1 = e.1)
    (hval : ∀ v, NMap.get d m k = v → g (k, v) = (k, v)) : NMap.get d (m.map g) k = NMap.get d m k := by
  induction m with
  | nil => rfl
  | cons e t ih =>
    have hk := hkey e
    by_cases he : k = e.1
    · have hfix : g e = e := by
        have hget : NMap.get d (e :: t) k = e.2 := by rw [NMap.get, if_pos he]
        have := hval e.2 hget
        rwa [he] at this
      rw [List.map_cons, hfix, NMap.get, NMap.get, if_pos he, if_pos he]
    · rw [List.map_cons, NMap.get, NMap.get, hk, if_neg he, if_neg he]
      exact ih fun v hv => hval v (by rw [NMap.get, if_neg he]; exact hv)

theorem get_keep {α : Type} {d : α} {p : Nat → α → Bool} {k : Nat} {m : NMap α} (h : ∀ v, p k v = true) :
    NMap.get d (m.keep p) k = NMap.get d m k := by
  induction m with
  | nil => rfl
  | cons e t ih =>
    rw [NMap.keep, List.filter_cons]
    by_cases he : k = e.1
    · rw [if_pos (he ▸ h e.2), NMap.get, NMap.get, if_pos he, if_pos he]
    · split
      · rw [NMap.get, NMap.get, if_neg he, if_neg he]; exact ih
      · rw [NMap.get, if_neg he]; exact ih

theorem has_keep {α : Type} {p : Nat → α → Bool} {k : Nat} {m : NMap α} (h : ∀ v, p k v = false) : (m.keep p).has k = false := by
  induction m with
  | nil => rfl
  | cons e t ih =>
    rw [NMap.keep, List.filter_cons]
    split
    · next hp =>
      have he : k ≠ e.1 := fun he => by rw [← he, h] at hp; cases hp
      rw [NMap.has, NMap.get?, if_neg he]
      exact ih
    · exact ih

/-- What postings and transitions leave: the roles, the launches and memory. -/
def State.unposted (s : State) : NMap Role × NMap Launch × NMap Byte × NMap DirtyLine := (s.roles, s.launches, s.hbm, s.dirty)

theorem unposted_inj {s t : State} :
    t.unposted = s.unposted ↔ t.roles = s.roles ∧ t.launches = s.launches ∧ t.hbm = s.hbm ∧ t.dirty = s.dirty := by
  simp only [State.unposted, Prod.mk.injEq]

theorem settleCmds_unposted (s : State) (tk : Nat) : (s.settleCmds tk).unposted = s.unposted := by
  unfold State.settleCmds
  dsimp only
  split <;> rfl

theorem settleCmds_team (s : State) (tk : Nat) : { (s.settleCmds tk).team tk with fare := (s.team tk).fare } = s.team tk := by
  unfold State.settleCmds
  dsimp only
  split
  · rfl
  · rw [State.chargeTeam, State.team_updTeam_self]
    rfl

theorem updCore_unposted (s : State) (c : Nat) (f : Core → Core) : (s.updCore c f).unposted = s.unposted := rfl

theorem updVf_unposted (s : State) (vf : Nat) (f : Vf → Vf) : (s.updVf vf f).unposted = s.unposted := rfl

theorem requestVf_unposted (s : State) (vf cause : Nat) : (s.requestVf vf cause).unposted = s.unposted := rfl

theorem postMeter_unposted (s : State) (core vf : Nat) : (s.postMeter core vf).unposted = s.unposted := by
  unfold State.postMeter
  dsimp only
  split
  · rfl
  · split
    · rw [requestVf_unposted, updVf_unposted, updVf_unposted, updCore_unposted]
    · rw [updVf_unposted, updCore_unposted]

/-- The request of an exhausted quota passes over a team that is not resident. -/
theorem requestVf_team {s : State} {vf cause tk : Nat} (h : (s.team tk).resident = false) :
    (s.requestVf vf cause).team tk = s.team tk := by
  refine get_map_fixed (fun e => ?_) fun v hv => ?_
  · dsimp only
    split <;> rfl
  · subst hv
    dsimp only
    split
    · have hreq : (s.team tk).request cause (s.launch (lidOf tk)).graceTicks .preempted false = s.team tk := by
        rw [Team.request, h]; rfl
      exact congrArg _ hreq
    · rfl

theorem postMeter_team {s : State} {core vf tk : Nat} (h : (s.team tk).resident = false) :
    (s.postMeter core vf).team tk = s.team tk := by
  unfold State.postMeter
  dsimp only
  split
  · rfl
  · split
    · exact requestVf_team h
    · rfl

theorem adopt_eq (s : State) (c : Nat) : (s.adopt c).unposted = s.unposted ∧ ∀ k, (s.adopt c).team k = s.team k := by
  unfold State.adopt
  dsimp only
  split <;> exact ⟨rfl, fun _ => rfl⟩

section
variable (s : State) (tk cause : Nat)

/-- The state of an abort before the postings: the roles are gone, and the team waits to be dispatched again. -/
def State.abortQueued : State :=
  let u := s.settleCmds tk
  let t := u.team tk
  (((u.evictTeam tk).updTeam tk fun t => t.aborted cause).updCore t.core fun c =>
    { c with meterRep := c.meterRep.put (u.launch (lidOf tk)).vf (c.meterRep.get 0 (u.launch (lidOf tk)).vf + t.fare) }).updLaunch
      (lidOf tk) fun l => { l with requeue := l.requeue ++ [t.t] }

theorem abortQueued_team : (s.abortQueued tk cause).team tk = ((s.settleCmds tk).team tk).aborted cause := by
  simp only [State.abortQueued, State.team_updLaunch, State.team_updCore, State.team_updTeam_self]
  rfl

theorem abortTeam_team : (s.abortTeam tk cause).team tk = ((s.settleCmds tk).team tk).aborted cause := by
  have hres : ((s.abortQueued tk cause).team tk).resident = false := by rw [abortQueued_team]; rfl
  rw [← abortQueued_team s tk cause, ← postMeter_team hres]
  exact (adopt_eq _ _).2 tk

theorem abortQueued_fields : (s.abortQueued tk cause).roles = (s.settleCmds tk).roles.keep (fun k _ => teamOf k != tk) ∧
    (s.abortQueued tk cause).hbm = (s.settleCmds tk).hbm ∧ (s.abortQueued tk cause).dirty = (s.settleCmds tk).dirty ∧
    (s.abortQueued tk cause).launch (lidOf tk) = { (s.settleCmds tk).launch (lidOf tk) with
      requeue := ((s.settleCmds tk).launch (lidOf tk)).requeue ++ [((s.settleCmds tk).team tk).t] } := by
  unfold State.abortQueued
  generalize s.settleCmds tk = u
  have hevict : (u.evictTeam tk).launch (lidOf tk) = u.launch (lidOf tk) := rfl
  refine ⟨?_, ?_, ?_, ?_⟩
  · simp only [State.updLaunch_roles, State.updCore_roles, State.updTeam_roles]
    rfl
  · simp only [State.updLaunch_hbm, State.updCore_hbm, State.updTeam_hbm]
    rfl
  · simp only [State.updLaunch_dirty, State.updCore_dirty, State.updTeam_dirty]
    rfl
  · simp only [State.launch_updLaunch_self, State.launch_updCore, State.launch_updTeam, hevict]

theorem abortTeam_unposted : (s.abortTeam tk cause).unposted = (s.abortQueued tk cause).unposted :=
  (adopt_eq _ _).1.trans (postMeter_unposted _ _ _)

theorem abortTeam_roles : (s.abortTeam tk cause).roles = s.roles.keep fun k _ => teamOf k != tk := by
  obtain ⟨hroles, -⟩ := unposted_inj.1 (settleCmds_unposted s tk)
  obtain ⟨habort, -⟩ := unposted_inj.1 (abortTeam_unposted s tk cause)
  rw [habort, (abortQueued_fields s tk cause).1, hroles]

theorem abortTeam_memory : (s.abortTeam tk cause).hbm = s.hbm ∧ (s.abortTeam tk cause).dirty = s.dirty := by
  obtain ⟨-, -, hhbm, hdirty⟩ := unposted_inj.1 (settleCmds_unposted s tk)
  obtain ⟨-, -, hhbm', hdirty'⟩ := unposted_inj.1 (abortTeam_unposted s tk cause)
  obtain ⟨-, hh, hd, -⟩ := abortQueued_fields s tk cause
  exact ⟨hhbm'.trans (hh.trans hhbm), hdirty'.trans (hd.trans hdirty)⟩

theorem abortTeam_requeue : ((s.abortTeam tk cause).launch (lidOf tk)).requeue =
    (s.launch (lidOf tk)).requeue ++ [(s.team tk).t] := by
  have ht : ((s.settleCmds tk).team tk).t = (s.team tk).t := (congrArg Team.t (settleCmds_team s tk) :)
  obtain ⟨-, hlaunch, -⟩ := unposted_inj.1 (settleCmds_unposted s tk)
  obtain ⟨-, habort, -⟩ := unposted_inj.1 (abortTeam_unposted s tk cause)
  obtain ⟨-, -, -, hq⟩ := abortQueued_fields s tk cause
  rw [State.launch, habort, ← State.launch, hq, ht, State.launch, hlaunch]
  rfl

end

theorem teamOf_roleKey {tk j : Nat} (h : j < 8) : teamOf (roleKey tk j) = tk := by
  simp only [teamOf, roleKey]
  omega

theorem abortTeam_hasRole (s : State) (tk cause : Nat) {j : Nat} (h : j < 8) :
    (s.abortTeam tk cause).hasRole (roleKey tk j) = false := by
  rw [State.hasRole, abortTeam_roles]
  exact has_keep fun v => by rw [teamOf_roleKey h]; exact bne_self_eq_false _

theorem abortTeam_role (s : State) (tk cause : Nat) {k : Nat} (h : teamOf k ≠ tk) :
    (s.abortTeam tk cause).role k = s.role k := by
  rw [State.role, abortTeam_roles]
  exact get_keep fun v => bne_iff_ne.2 h

/-- Settles O14: TXCOMMIT checks its token, then the drain, then records the arrival; an abort is `Team.aborted` on a team
whose roles are gone, and what is posted afterwards touches neither. -/
theorem transactionWords : Obligations.TransactionWords := by
  unfold Obligations.TransactionWords
  refine ⟨fun s s1 rk a b va y => ⟨fun hc htx => ⟨exec_txcommit_outside a b hc htx, ?_⟩, fun hc htx => ?_, fun htx h =>
    ⟨fun ha hia => ?_, fun ha hia => ?_, fun ia ha hia hal => ?_, fun ia htok hdr => ?_, fun ia htok hdr => ?_⟩⟩,
    fun s tk cause => ?_⟩
  · rw [exec_txabort hc, htx]; rfl
  · rw [exec_txabort hc, htx]; rfl
  · exact exec_txcommit_fault htx h ha (by simp only [State.tokenFault, hia])
  · exact exec_txcommit_fault htx h ha (by simp only [State.tokenFault, hia])
  · exact exec_txcommit_fault htx h ha (by rw [tokenFault_none hia, if_pos hal])
  · obtain ⟨harr, hpark, hpc⟩ := commitArrive_self s1 rk (if a = .s 0 then none else some (va, y))
    refine ⟨_, (exec_txcommit_arrive htx h (tokenFault_named htok)).trans (by rw [if_pos hdr]), harr, hpark, hpc,
      fun k hk => commitArrive_other _ _ _ hk,
      commitArrive_phase _ _ _⟩
  · rw [exec_txcommit_arrive htx h (tokenFault_named htok), if_neg (by rw [hdr]; exact Bool.false_ne_true)]
  · obtain ⟨hhbm, hdirty⟩ := abortTeam_memory s tk cause
    have hreplays : ((s.settleCmds tk).team tk).replays = (s.team tk).replays := (congrArg Team.replays (settleCmds_team s tk) :)
    have hrung : ((s.settleCmds tk).team tk).rung = (s.team tk).rung := (congrArg Team.rung (settleCmds_team s tk) :)
    refine ⟨fun j hj => abortTeam_hasRole s tk cause hj, fun k hk => abortTeam_role s tk cause hk, ?_⟩
    rw [abortTeam_team, ← hreplays, ← hrung]
    exact ⟨rfl, rfl, rfl, rfl, rfl, rfl, rfl, rfl, abortTeam_requeue s tk cause, hhbm, hdirty⟩

end Sys2Proof.Machine
end

section
/-! PROOFS. Words that draw from the generator: stochastic rounding in lane and element order (R16, R19, R20, R106). -/

namespace Sys2Proof.Machine
open Sys2Proof

/-! ## Draws in lane order -/

/-- Lanes that pass a generator on, as the model computes them and as the rules say it. -/
theorem drawAll_eq_stochLanes {f : Nat → W32 → Nat × W32 × Nat} {h k : Nat → W32 → Nat × W32}
    (hh : ∀ i g, h i g = ((f i g).1, (f i g).2.1)) (hk : ∀ i g, k i g = ((f i g).2.2, (f i g).2.1)) (ls : List Nat) (g : W32) :
    drawAll f ls g = ⟨(stochLanes h ls g).1, (stochLanes h ls g).2, ((stochLanes k ls g).1.map Prod.snd).sum⟩ := by
  induction ls generalizing g with
  | nil => rfl
  | cons i ls ih => simp only [drawAll, stochLanes, hh, hk, ih, List.map_cons, List.sum_cons]

theorem stochLanes_zero (h : Nat → W32 → W32) (ls : List Nat) (g : W32) :
    ((stochLanes (fun i g => (0, h i g)) ls g).1.map Prod.snd).sum = 0 := by
  induction ls generalizing g with
  | nil => rfl
  | cons i ls ih => simp only [stochLanes, List.map_cons, List.sum_cons, ih]

/-- Lanes without saturation events. -/
theorem drawAll_quiet {f : Nat → W32 → Nat × W32 × Nat} {h : Nat → W32 → Nat × W32}
    (hf : ∀ i g, f i g = ((h i g).1, (h i g).2, 0)) (ls : List Nat) (g : W32) :
    drawAll f ls g = ⟨(stochLanes h ls g).1, (stochLanes h ls g).2, 0⟩ := by
  rw [drawAll_eq_stochLanes (h := h) (k := fun i g => (0, (h i g).2)) (fun i g => by rw [hf]) (fun i g => by rw [hf]),
    stochLanes_zero fun i g => (h i g).2]

/-! ## Two elements of a lane -/

/-- A rounding word under STOCH on two `bf16` elements. -/
theorem stochWord_eq (f : XVal → XVal → XVal → XVal) (sat : Bool) (x y z : Nat) (g : W32) :
    stochWord f sat x y z g =
      let val (v : Nat) : List XVal := (ftElems .bf16x2 v).map (decodeF (ftFF .bf16x2))
      let q := roundElems (ftFF .bf16x2) .stoch sat
        (List.zipWith (fun xy z => f xy.1 xy.2 z) ((val x).zip (val y)) (val z)) g
      (ftPack .bf16x2 q.1, q.2) := by
  simp only [stochWord, Nat.mul_zero, Nat.mul_one, Nat.pow_zero, Nat.div_one]
  rfl

theorem floatOp_stoch {s : State} {c : LaneCtl} {m : FMode} {late : Bool} {d : Opnd} {srcs : Sources}
    {f : XVal → XVal → XVal → XVal} {i : Instr} (hrnd : m.rnd = .stoch) (hft : m.ft = .bf16x2)
    (hi : exec i s = floatOp s c m late d srcs f) : LaneDraws s c i srcs late d m.sat f := by
  intro cx l h
  rw [hi, floatOp, laneWordOp_ready h]
  simp only [hrnd, hft]
  rw [drawAll_quiet (h := fun j => stochWord f m.sat (srcs.a.val cx l j) (srcs.b.val cx l j) (srcs.x.val cx l j))
    fun j g => by simp only [stochWord_eq]]

theorem repeat_nextRandom (n : Nat) (g : W32) : Nat.repeat nextRandom n (nextRandom g) = Nat.repeat nextRandom (n + 1) g := by
  induction n with
  | zero => rfl
  | succ n ih => exact congrArg nextRandom ih

/-- Two draws for each lane. -/
theorem stochLanes_rng (f : Nat → XVal → XVal → XVal → XVal) (sat : Bool) (ls : List Nat) (g : W32) :
    (stochLanes (fun j => stochWord (f j) sat 0 0 0) ls g).2 = Nat.repeat nextRandom (2 * ls.length) g := by
  induction ls generalizing g with
  | nil => rfl
  | cons j ls ih =>
    have hstep : (stochWord (f j) sat 0 0 0 g).2 = nextRandom (nextRandom g) := rfl
    rw [stochLanes, hstep, ih, repeat_nextRandom, repeat_nextRandom]
    rfl

/-- Settles O23: each form is `floatOp` with its exact value, and with STOCH the sign of a zero sum is that of RNE. -/
theorem stochasticRounding : Obligations.StochasticRounding := by
  unfold Obligations.StochasticRounding
  intro s c m na nc d a b x i hrnd hft
  have hrdn : (m.rnd == .rdn) = false := by rw [hrnd]; rfl
  exact ⟨floatOp_stoch hrnd hft (by simp only [exec, execVfadd, srcAB, hrdn]),
    floatOp_stoch hrnd hft (by simp only [exec, execVfsub, srcAB, hrdn]), floatOp_stoch hrnd hft rfl,
    floatOp_stoch hrnd hft (by simp only [exec, execVfma, hrdn]),
    floatOp_stoch hrnd hft (by simp only [exec, execVfaddImm, srcAI, hrdn]),
    floatOp_stoch hrnd hft (by simp only [exec, execVfsubImm, srcAI, hrdn]), floatOp_stoch hrnd hft rfl,
    floatOp_stoch hrnd hft rfl, floatOp_stoch hrnd hft rfl, floatOp_stoch hrnd hft rfl, floatOp_stoch hrnd hft rfl,
    floatOp_stoch hrnd hft rfl, floatOp_stoch hrnd hft rfl, fun f ls g => stochLanes_rng f m.sat ls g⟩

end Sys2Proof.Machine
end

section
/-! PROOFS. The integer and floating-point words and the conversions of the lane stream (R99 to R113, R120, R121). -/

namespace Sys2Proof.Machine
open Sys2Proof

/-! ## The generator stays where a word only writes registers -/

theorem foldl_proj_eq {α β γ : Type} (p : α → γ) {f : α → β → α} (hf : ∀ a b, p (f a b) = p a) (bs : List β) (a : α) :
    p (bs.foldl f a) = p a := by
  induction bs generalizing a with
  | nil => rfl
  | cons b bs ih => rw [List.foldl_cons, ih, hf]

@[simp] theorem Lanes.goodWords_rng (l : Lanes) (ws : List Nat) : (l.goodWords ws).rng = l.rng := rfl

@[simp] theorem Lanes.putBytes_rng (l : Lanes) (lane : Nat) (es : List (Nat × Byte)) : (l.putBytes lane es).rng = l.rng :=
  foldl_proj_eq Lanes.rng (by intros; rfl) es l

@[simp] theorem Lanes.put_rng (l : Lanes) (lane b n v : Nat) : (l.put lane b n v).rng = l.rng := by
  have hb : (((rangeFrom b n).zip (leBytes n v)).foldl (fun l e => l.putByte lane e.1 e.2) l).rng = l.rng :=
    Lanes.putBytes_rng l lane _
  unfold Lanes.put
  split
  · rw [Lanes.goodWords_rng, hb]
  · exact hb

@[simp] theorem opWrite_rng (o : Opnd) (cx : LaneCx) (l : Lanes) (lane n v : Nat) : (opWrite o cx l lane n v).rng = l.rng := by
  unfold opWrite
  split
  · exact Lanes.put_rng ..
  · rfl

@[simp] theorem Lanes.pendTo_rng (l : Lanes) (d : NMap Byte) : (l.pendTo d).rng = l.rng := rfl

@[simp] theorem State.writeVals_rng (s : State) (l : Lanes) (cx : LaneCx) (late : Bool) (d : Opnd) (n : Nat)
    (vals : List (Nat × Nat)) : (s.writeVals l cx late d n vals).rng = l.rng := by
  have hnow : (vals.foldl (fun m e => opWrite d cx m e.1 n e.2) l).rng = l.rng :=
    foldl_proj_eq Lanes.rng (fun m e => opWrite_rng d cx m e.1 n e.2) vals l
  unfold State.writeVals State.classL
  cases late with
  | false => exact hnow
  | true =>
    simp only [if_true]
    split
    · split <;> rfl
    · exact hnow

@[simp] theorem writeElems_rng (l : Lanes) (cx : LaneCx) (late : Bool) (d : Opnd) (w i : Nat) (vals : List (Nat × Nat)) :
    (writeElems l cx late d w i vals).rng = l.rng := by
  unfold writeElems
  split
  · rfl
  · split
    · rfl
    · exact foldl_proj_eq Lanes.rng (fun m e => Lanes.putBytes_rng m e.1 _) vals l

theorem Lanes.with_rng_self {m : Lanes} {g : W32} (h : m.rng = g) : { m with rng := g } = m := by
  cases m
  cases h
  rfl

/-- Lanes that draw nothing. -/
theorem drawAll_still {f : Nat → W32 → Nat × W32 × Nat} (hf : ∀ i g, (f i g).2.1 = g) (ls : List Nat) (g : W32) :
    drawAll f ls g = ⟨ls.map fun i => (i, (f i g).1), g, (ls.map fun i => (f i g).2.2).sum⟩ := by
  induction ls with
  | nil => rfl
  | cons i ls ih => simp only [drawAll, hf, ih, List.map_cons, List.sum_cons]

/-- Values written lane by lane are one pass over the lanes. -/
theorem State.writeVals_map (s : State) (l : Lanes) (cx : LaneCx) (d : Opnd) (n : Nat) (ls : List Nat) (f : Nat → Nat) :
    s.writeVals l cx false d n (ls.map fun i => (i, f i)) = l.mapTo cx ls d n f := by
  simp only [State.writeVals, Lanes.mapTo, List.foldl_map, Bool.false_eq_true, if_false]

/-! ## Integers (R99 to R102) -/

theorem ival_toNat (t : ITy) (x : BitVec t.width) : ival t x.toNat = intOf t x.toNat := by
  cases t <;> simp only [ival, intOf, itySigned, if_true, Bool.false_eq_true, if_false, BitVec.ofNat_toNat, BitVec.setWidth_eq]
  · exact toSigned_toNat x
  · exact toSigned_toNat x

theorem ityRange_eq (t : ITy) : ityRange t = (intLo t, intHi t) := by
  cases t <;> rfl

/-- Clamped to an interval, as the model and as the rule say it. -/
theorem clamp_eq {lo hi : Int} (h : lo ≤ hi) (v : Int) :
    Min.min (Max.max v lo) hi = if v < lo then lo else if hi < v then hi else v := by
  split
  · omega
  · split <;> omega

theorem intLo_le_intHi (t : ITy) : intLo t ≤ intHi t := by
  cases t <;> decide

theorem fitInt_eq_intWord (t : ITy) (sat : Bool) (v : Int) : fitInt t sat v = intWord t sat v := by
  cases sat with
  | false => exact wrapInt_eq_ofInt t.width v
  | true =>
    simp only [fitInt, intWord, if_true, ityRange_eq, clamp_eq (intLo_le_intHi t), wrapInt_eq_ofInt]

/-- An integer that a word stands for gives that word. -/
theorem intWord_intOf (t : ITy) (x : BitVec t.width) : intWord t false (intOf t x.toNat) = x.toNat := by
  simp only [intWord, intOf, Bool.false_eq_true, if_false]
  split
  · simp only [BitVec.ofNat_toNat, BitVec.setWidth_eq, BitVec.ofInt_toInt]
  · rw [BitVec.ofInt_natCast, BitVec.ofNat_toNat, BitVec.setWidth_eq]

/-- An arithmetic form writes the fitted value of its function on the integers that its sources stand for. -/
theorem laneWrites_of_arith {s : State} {c : LaneCtl} {i : Instr} {t : ITy} {sat : Bool} {srcs : Sources} {d : Opnd}
    {f : Int → Int → Int → Int} {g : Nat → Nat → Nat → Nat} (hexec : exec i s = arith s c t sat d srcs f)
    (hfit : srcs.Fits (ityW t).bytes)
    (hg : ∀ x y z : BitVec t.width, intWord t sat (f (intOf t x.toNat) (intOf t y.toNat) (intOf t z.toNat))
      = g x.toNat y.toNat z.toNat) :
    LaneWrites s c i srcs d (ityW t).bytes g :=
  laneWrites_of_laneMap hexec hfit (ityWidth_eq t) fun x y z => by
    rw [fitInt_eq_intWord, ival_toNat, ival_toNat, ival_toNat, hg]

theorem intWord_min (t : ITy) (x y : BitVec t.width) : intWord t false (Min.min (intOf t x.toNat) (intOf t y.toNat)) =
    if intOf t x.toNat < intOf t y.toNat then x.toNat else y.toNat := by
  split
  · next h => rw [min_eq_left h.le, intWord_intOf]
  · next h => rw [min_eq_right (not_lt.mp h), intWord_intOf]

theorem intWord_max (t : ITy) (x y : BitVec t.width) : intWord t false (Max.max (intOf t x.toNat) (intOf t y.toNat)) =
    if intOf t x.toNat < intOf t y.toNat then y.toNat else x.toNat := by
  split
  · next h => rw [max_eq_right h.le, intWord_intOf]
  · next h => rw [max_eq_left (not_lt.mp h), intWord_intOf]

theorem natAbs_eq_ite (v : Int) : (v.natAbs : Int) = if v < 0 then -v else v := by
  split <;> omega

/-- Settles O19: each form is `arith` with its function on integers. -/
theorem laneArithmetic : Obligations.LaneArithmetic := by
  intro s c t sat w64 d a b x i w ab ai z st gives
  have fab : ab.Fits w.bytes := srcAB_fits w a b
  have fai : ai.Fits w.bytes := srcAI_fits w a i
  refine ⟨?vadd, ?vsub, ?vmul, ?vmulh, ?vmad, ?vmin, ?vmax, ?vaddImm, ?vsubImm, ?vmulImm, ?vminImm, ?vmaxImm, ?vabs⟩
  case vadd =>
    have harm : exec (.vadd c t sat d a b) s = execVadd c t sat d a b s := rfl
    exact laneWrites_of_arith harm fab fun _ _ _ => rfl
  case vsub =>
    have harm : exec (.vsub c t sat d a b) s = execVsub c t sat d a b s := rfl
    exact laneWrites_of_arith harm fab fun _ _ _ => rfl
  case vmul =>
    have harm : exec (.vmul c t d a b) s = execVmul c t d a b s := rfl
    exact laneWrites_of_arith harm fab fun _ _ _ => rfl
  case vmulh =>
    have harm : exec (.vmulh c t d a b) s = execVmulh c t d a b s := rfl
    exact laneWrites_of_arith harm fab fun _ _ _ => rfl
  case vmad =>
    have harm : exec (.vmad c t d a b x) s = execVmad c t d a b x s := rfl
    exact laneWrites_of_arith harm ⟨rfl, rfl, rfl⟩ fun _ _ _ => rfl
  case vmin =>
    have harm : exec (.vmin c t d a b) s = execVmin c t d a b s := rfl
    exact laneWrites_of_arith harm fab fun p q _ => intWord_min t p q
  case vmax =>
    have harm : exec (.vmax c t d a b) s = execVmax c t d a b s := rfl
    exact laneWrites_of_arith harm fab fun p q _ => intWord_max t p q
  case vaddImm =>
    have harm : exec (.vaddImm c t sat d a i) s = execVaddImm c t sat d a i s := rfl
    exact laneWrites_of_arith harm fai fun _ _ _ => rfl
  case vsubImm =>
    have harm : exec (.vsubImm c t sat d a i) s = execVsubImm c t sat d a i s := rfl
    exact laneWrites_of_arith harm fai fun _ _ _ => rfl
  case vmulImm =>
    have harm : exec (.vmulImm c t d a i) s = execVmulImm c t d a i s := rfl
    exact laneWrites_of_arith harm fai fun _ _ _ => rfl
  case vminImm =>
    have harm : exec (.vminImm c t d a i) s = execVminImm c t d a i s := rfl
    exact laneWrites_of_arith harm fai fun p q _ => intWord_min t p q
  case vmaxImm =>
    have harm : exec (.vmaxImm c t d a i) s = execVmaxImm c t d a i s := rfl
    exact laneWrites_of_arith harm fai fun p q _ => intWord_max t p q
  case vabs =>
    have harm : exec (.vabs c w64 sat d a) s =
      arith s c st sat d (srcA (ityW st) a) (fun x _ _ => (x.natAbs : Int)) := rfl
    clear_value st
    exact laneWrites_of_arith harm (srcA_fits (ityW st) a) fun p _ _ => by rw [natAbs_eq_ite]

/-! ## Predicates (R102, R109, R129) -/

theorem Lanes.mapPred_congr {ls : List Nat} {f g : Nat → Bool} (h : ∀ i ∈ ls, f i = g i) (l : Lanes) (kd : Nat) :
    l.mapPred ls kd f = l.mapPred ls kd g := by
  rw [Lanes.mapPred, Lanes.mapPred, List.filter_congr h]

/-- A word that tests two sources of `n` bytes, when its test agrees with the given one on words of that width. -/
theorem laneTests_of_laneTest {s : State} {c : LaneCtl} {i : Instr} {srcs : Sources} {kd : BitVec 4} {n N : Nat}
    {f : Nat → Nat → Bool} {g : Nat → Nat → Bool} (hexec : exec i s = laneTest s c srcs kd f) (hfit : srcs.Fits n)
    (hN : 8 * n = N) (hfg : ∀ x y : BitVec N, f x.toNat y.toNat = g x.toNat y.toNat) :
    LaneTests s c i srcs kd fun _ _ x y => g x y := by
  intro cx l hready
  obtain ⟨hfa, hfb, -⟩ := hfit
  have hcx := State.laneNow_narrow hready.now
  have hval {x : Source} (hfits : x.Fits n) {j : Nat} (hj : j ∈ l.actives c) :
      ∃ v : BitVec N, v.toNat = x.val cx l j := by
    have hlt := Source.val_lt hcx ((Lanes.lt_of_mem_actives hj).trans (by decide)) hfits l
    exact ⟨BitVec.ofNat N (x.val cx l j), Nat.mod_eq_of_lt (hN ▸ hlt)⟩
  rw [hexec, laneTest_ready hready]
  congr 3
  refine Lanes.mapPred_congr (fun j hj => ?_) l kd.toNat
  obtain ⟨x, hx⟩ := hval hfa hj
  obtain ⟨y, hy⟩ := hval hfb hj
  rw [← hx, ← hy, hfg]

/-- A word that combines predicates. -/
theorem laneTests_of_predOp {s : State} {c : LaneCtl} {i : Instr} {kd : BitVec 4} {f : Lanes → Nat → Bool}
    {g : Lanes → Nat → Nat → Nat → Bool} (hexec : exec i s = predOp s c kd f) (hfg : ∀ l j x y, f l j = g l j x y) :
    LaneTests s c i ⟨.none, .none, .none⟩ kd g := by
  intro cx l hready
  rw [hexec, predOp, noSources, laneWordOp_ready hready]
  congr 3
  exact Lanes.mapPred_congr (fun j _ => hfg l j _ _) l kd.toNat

theorem bne_decide {α : Type} [DecidableEq α] (x y : α) : (x != y) = decide (x ≠ y) := by
  by_cases h : x = y <;> simp [h]

theorem icondHolds_eq (q : ICond) (x y : Int) : icondHolds q x y = match q with
    | .eq => decide (x = y) | .ne => decide (x ≠ y) | .lt => decide (x < y) | .le => decide (x ≤ y)
    | .gt => decide (y < x) | .ge => decide (y ≤ x) := by
  cases q with
  | ne => exact bne_decide x y
  | _ => rfl

theorem icondHolds_ival (t : ITy) (q : ICond) (x y : BitVec t.width) : icondHolds q (ival t x.toNat) (ival t y.toNat) =
    icondHolds q (intOf t x.toNat) (intOf t y.toNat) := by
  rw [ival_toNat, ival_toNat]

/-- Settles O21: comparisons test their sources, the predicate words the bits of their predicates. -/
theorem lanePredicates : Obligations.LanePredicates := by
  intro s c t q p kd ka kb a b i none3 w tests holds fholds
  have hholds : holds = icondHolds q := by
    funext x y
    exact (icondHolds_eq q x y).symm
  refine ⟨?vcmp, ?vcmpImm, ?vfcmp, ?vfcmpImm, ?vkand, ?vkor, ?vkxor, ?vknot, ?vkmov, ?vkmovReg, ?vsel⟩
  case vcmp =>
    have harm : exec (.vcmp c t q kd a b) s = execVcmp c t q kd a b s := rfl
    rw [hholds]
    exact laneTests_of_laneTest harm (srcAB_fits w a b) (ityWidth_eq t) fun x y => icondHolds_ival t q x y
  case vcmpImm =>
    have harm : exec (.vcmpImm c t q kd a i) s = execVcmpImm c t q kd a i s := rfl
    rw [hholds]
    exact laneTests_of_laneTest harm (srcAI_fits w a i) (ityWidth_eq t) fun x y => icondHolds_ival t q x y
  case vfcmp =>
    have harm : exec (.vfcmp c p kd a b) s = execVfcmp c p kd a b s := rfl
    exact laneTests_of_laneTest harm (srcAB_fits .w32 a b) rfl fun x y => rfl
  case vfcmpImm =>
    have harm : exec (.vfcmpImm c p kd a i) s = execVfcmpImm c p kd a i s := rfl
    exact laneTests_of_laneTest harm (srcAI_fits .w32 a i) rfl fun x y => rfl
  case vkand =>
    have harm : exec (.vkand c kd ka kb) s = execVkand c kd ka kb s := rfl
    exact laneTests_of_predOp harm fun l j x y => (BitVec.getLsbD_and ..).symm
  case vkor =>
    have harm : exec (.vkor c kd ka kb) s = execVkor c kd ka kb s := rfl
    exact laneTests_of_predOp harm fun l j x y => (BitVec.getLsbD_or ..).symm
  case vkxor =>
    have harm : exec (.vkxor c kd ka kb) s = execVkxor c kd ka kb s := rfl
    exact laneTests_of_predOp harm fun l j x y => (BitVec.getLsbD_xor ..).symm
  case vknot =>
    have harm : exec (.vknot c kd ka) s = execVknot c kd ka s := rfl
    exact laneTests_of_predOp harm fun l j x y => rfl
  case vkmov =>
    have harm : exec (.vkmov c false kd a) s = execVkmov c false kd a s := rfl
    have hf : exec (.vkmov c false kd a) s = laneTest s c (srcA .w32 a) kd (fun v _ => v != 0) := harm
    exact laneTests_of_laneTest (g := fun x _ => decide (x ≠ 0)) hf (srcA_fits .w32 a) rfl fun x _ =>
      bne_decide x.toNat 0
  case vkmovReg =>
    intro cx l h
    have harm : exec (.vkmov c true ka a) s = execVkmov c true ka a s := rfl
    rw [harm, execVkmov, if_pos rfl]
    exact laneWordOp_ready h _
  case vsel =>
    intro w64 d cx l v srcs h
    have harm : exec (.vsel c w64 ka d a b) s = execVsel c w64 ka d a b s := rfl
    rw [harm]
    exact laneWordOp_ready h _

/-! ## Floating point (R105 to R110) -/

/-- One lane of a rounding word that draws nothing. -/
theorem roundElems_still {m : Rnd} (hm : m ≠ .stoch) (f : FF) (sat : Bool) (xs : List XVal) (g : W32) :
    roundElems f m sat xs g = (xs.map fun x => (roundTo x f m sat 0).bits, g) := by
  have hdraw (x : XVal) : roundDraw g x f m sat = (roundTo x f m sat 0, g) := by
    cases m with
    | stoch => exact absurd rfl hm
    | _ => rfl
  induction xs with
  | nil => rfl
  | cons x xs ih => rw [roundElems, hdraw, ih, List.map_cons]

/-- The exact values of the elements of three words, rounded and packed. -/
theorem elementwise_eq (t : FTy) (f : XVal → XVal → XVal → XVal) (m : Rnd) (sat : Bool) (x y z : Nat) :
    ftPack t ((List.zipWith (fun xy z => f xy.1 xy.2 z) (((ftElems t x).map (decodeF (ftFF t))).zip
      ((ftElems t y).map (decodeF (ftFF t)))) ((ftElems t z).map (decodeF (ftFF t)))).map
        fun v => (roundTo v (ftFF t) m sat 0).bits) = elementwise t f m sat x y z := by
  cases t <;> simp only [elementwise, Nat.mul_zero, Nat.mul_one, Nat.pow_zero, Nat.div_one] <;> rfl

/-- A rounding form without STOCH. -/
theorem floatOp_still {s : State} {c : LaneCtl} {m : FMode} {late : Bool} {d : Opnd} {srcs : Sources}
    {f : XVal → XVal → XVal → XVal} {i : Instr} (hm : m.rnd ≠ .stoch) (hi : exec i s = floatOp s c m late d srcs f)
    {cx : LaneCx} {l : Lanes} (h : LaneReady s c srcs [(d, 4)] cx l) :
    exec i s = .next (s.laneFinish c cx l srcs ⟨s.writeVals l cx late d 4 ((l.actives c).map fun k =>
      (k, elementwise m.ft f m.rnd m.sat (srcs.a.val cx l k) (srcs.b.val cx l k) (srcs.x.val cx l k))), 0⟩) := by
  rw [hi, floatOp, laneWordOp_ready h]
  simp only [roundElems_still hm, elementwise_eq]
  rw [drawAll_still (by intros; rfl)]
  simp only
  rw [Lanes.with_rng_self (State.writeVals_rng ..)]

theorem laneWrites_of_floatOp {s : State} {c : LaneCtl} {m : FMode} {d : Opnd} {srcs : Sources}
    {f : XVal → XVal → XVal → XVal} {i : Instr} (hm : m.rnd ≠ .stoch) (hi : exec i s = floatOp s c m false d srcs f) :
    LaneWrites s c i srcs d 4 (elementwise m.ft f m.rnd m.sat) := by
  intro cx l h
  rw [floatOp_still hm hi h, State.writeVals_map]

/-- A form without rounding. -/
theorem laneWrites_of_elemOp {s : State} {c : LaneCtl} {t : FTy} {d : Opnd} {srcs : Sources} {f : FF → Nat → Nat → Nat}
    {g : Nat → Nat → Nat → Nat} {i : Instr} (hi : exec i s = elemOp s c t d srcs f)
    (hg : ∀ x y z, ftPack t (List.zipWith (f (ftFF t)) (ftElems t x) (ftElems t y)) = g x y z) :
    LaneWrites s c i srcs d 4 g := by
  intro cx l h
  rw [hi, elemOp, laneMap_ready h]
  congr 3
  exact Lanes.mapTo_congr (fun j _ => hg _ _ _) l cx d 4

theorem zipWith_left_ftElems (t : FTy) (f : Nat → Nat) (x y : Nat) :
    List.zipWith (fun a _ => f a) (ftElems t x) (ftElems t y) = (ftElems t x).map f := by
  cases t <;> rfl

/-- Settles O22: rounding forms are `floatOp` with their exact value, the others `elemOp`. -/
theorem laneFloatingPoint : Obligations.LaneFloatingPoint := by
  intro s rk c m t na nc d a b x i cx l hcur hm a0 ab ai down writes late
  have hnow {j : Instr} {srcs : Sources} {f : XVal → XVal → XVal → XVal} (hj : exec j s = floatOp s c m false d srcs f) :
      writes j srcs f := laneWrites_of_floatOp hm hj
  have hlate {j : Instr} {f : XVal → XVal} (hj : exec j s = floatOp s c m true d a0 fun u _ _ => f u) : late j f :=
    fun h => floatOp_still hm hj h
  have helem {j : Instr} {srcs : Sources} {mx : Bool}
      (hj : exec j s = elemOp s c t d srcs fun f u v => fminmax f mx u v) :=
    laneWrites_of_elemOp (g := fun p q _ => ftPack t (List.zipWith (fminmax (ftFF t) mx) (ftElems t p) (ftElems t q))) hj
      fun _ _ _ => rfl
  exact ⟨hnow rfl, hnow rfl, hnow rfl, hnow rfl, hnow rfl, hnow rfl, hnow rfl, hlate rfl, hlate rfl, hlate rfl, hlate rfl,
    hlate rfl, hlate rfl, helem rfl, helem rfl, helem rfl, helem rfl,
    laneWrites_of_elemOp (f := fun f u _ => fclassOf f u) rfl fun p q _ => by rw [zipWith_left_ftElems]⟩

/-! ## Conversions (R111 to R113, R120, R121) -/

theorem roundDraw_still {m : Rnd} (hm : m ≠ .stoch) (g : W32) (x : XVal) (f : FF) (sat : Bool) :
    (roundDraw g x f m sat).2 = g := by
  cases m with
  | stoch => exact absurd rfl hm
  | _ => rfl

theorem convFloat_rng (sf df : Fmt) (ff : FF) (m : Rnd) (sat : Bool) (x : XVal) (g : W32) :
    (convFloat sf df ff m sat x g).2 = (roundDraw g x ff m sat).2 := by
  unfold convFloat
  dsimp only
  split <;> rfl

theorem vcvtElem_still {m : Rnd} (hm : m ≠ .stoch) (sf df : Fmt) (sat : Bool) (bits : Nat) (g : W32) :
    (vcvtElem sf df m sat bits g).2.1 = g := by
  unfold vcvtElem
  split
  · exact (convFloat_rng ..).trans (roundDraw_still hm ..)
  · rfl

theorem packOne_still {m : Rnd} (hm : m ≠ .stoch) (df : Fmt) (sat : Bool) (x : XVal) (g : W32) :
    (packOne df m sat x g).2.1 = g := by
  unfold packOne
  split
  · exact roundDraw_still hm ..
  · rfl

theorem fmtFF_of_stochOk {df : Fmt} (h : df.stochOk = true) : ∃ ff, fmtFF df = some ff := by
  cases hf : fmtFF df with
  | some ff => exact ⟨ff, rfl⟩
  | none => cases df <;> simp_all [Fmt.stochOk, fmtFF]

theorem vcvtElem_draws {df : Fmt} (h : df.stochOk = true) (sf : Fmt) (sat : Bool) (bits : Nat) (g : W32) :
    (vcvtElem sf df .stoch sat bits g).2.1 = nextRandom g := by
  obtain ⟨ff, hff⟩ := fmtFF_of_stochOk h
  simp only [vcvtElem, hff, convFloat_rng]
  rfl

theorem packOne_draws {df : Fmt} (h : df.stochOk = true) (sat : Bool) (x : XVal) (g : W32) :
    (packOne df .stoch sat x g).2.1 = nextRandom g := by
  obtain ⟨ff, hff⟩ := fmtFF_of_stochOk h
  simp only [packOne, hff]
  rfl

/-- Settles O24: the values and the events of the lanes, each lane's draws taken from what the lane before it left. -/
theorem laneConversions : Obligations.LaneConversions := by
  intro s c sf df rnd sat e pos d a b cx l w a32 ab as_ n q p
  refine ⟨fun h => ⟨fun hr => ?_, fun hr hok => ?_⟩, fun h => ⟨fun hr => ?_, fun hr hok => ?_⟩, fun cx l h => ?_⟩
  · have harm : exec (.vcvt c sf df rnd sat e d a) s = execVcvt c sf df rnd sat e d a s := rfl
    rw [harm, execVcvt]
    refine (laneWordOp_ready h _).trans ?_
    rw [drawAll_still fun i g => vcvtElem_still hr sf df sat _ g]
    simp only [State.writeVals_map]
    rw [Lanes.with_rng_self (by rw [← State.writeVals_map s, State.writeVals_rng])]
    rfl
  · subst hr
    have harm : exec (.vcvt c sf df .stoch sat e d a) s = execVcvt c sf df .stoch sat e d a s := rfl
    rw [harm, execVcvt]
    refine (laneWordOp_ready h _).trans ?_
    rw [drawAll_eq_stochLanes (h := fun i g => ((q i g).1, nextRandom g)) (k := fun i g => ((q i g).2.2, nextRandom g))
      (fun i g => by rw [vcvtElem_draws hok]; rfl) (fun i g => by rw [vcvtElem_draws hok]; rfl)]
    rfl
  · have harm : exec (.vpack c df rnd sat pos d a b) s = execVpack c df rnd sat pos d a b s := rfl
    rw [harm, execVpack]
    refine (laneFrameR_ready h _ _).trans ?_
    dsimp only
    rw [drawAll_still fun i g => by rw [packOne_still hr, packOne_still hr]]
    simp only [packOne_still hr]
    rw [Lanes.with_rng_self (writeElems_rng ..)]
    rfl
  · subst hr
    have harm : exec (.vpack c df .stoch sat pos d a b) s = execVpack c df .stoch sat pos d a b s := rfl
    rw [harm, execVpack]
    refine (laneFrameR_ready h _ _).trans ?_
    dsimp only
    simp only [packOne_draws hok]
    rw [drawAll_eq_stochLanes (h := fun i g => ((p ab.a i g).1 + 2 ^ fmtWidth df * (p ab.b i (nextRandom g)).1,
        nextRandom (nextRandom g))) (k := fun i g => ((p ab.a i g).2.2 + (p ab.b i (nextRandom g)).2.2,
        nextRandom (nextRandom g))) (by intros; rfl) (by intros; rfl)]
    rfl
  · have harm : exec (.vunpk c sf pos d a) s = execVunpk c sf pos d a s := rfl
    rw [harm]
    exact laneMap_ready h _

end Sys2Proof.Machine
end

section
/-! PROOFS. Quantisation in the lane stream: VQNT, VDQNT and VWBUPD (R114 to R119, R122). -/

namespace Sys2Proof.Machine
open Sys2Proof

/- Elaborated side by side, these proofs wait for one another's equation lemmas, each with a stack of its own. -/
set_option Elab.async false

/-! ## The elements of a word in lane order (R117) -/

/-- The elements of lanes that draw nothing. -/
theorem quantAll_still {sl : Slot} (hr : sl.rnd ≠ .stoch) (ff : FF) (f : Nat → XVal × XVal) (ls : List Nat) (g : W32) :
    quantAll sl ff f ls g =
      (ls.map fun i => (i, (quantOne ff sl.rnd (sl.sat || sl.geom == 1) (f i).1 (f i).2 g).1), g) := by
  induction ls with
  | nil => rfl
  | cons i ls ih =>
    have hg : (quantOne ff sl.rnd (sl.sat || sl.geom == 1) (f i).1 (f i).2 g).2 = g := roundDraw_still hr ..
    rw [quantAll, hg, ih, List.map_cons]

/-- The elements of lanes that draw once each. -/
theorem stochLanes_quant {sl : Slot} (hr : sl.rnd = .stoch) {ff : FF} {f : Nat → XVal × XVal} {o : Nat → W32 → Quant}
    (ho : ∀ i g, o i g = (quantOne ff .stoch (sl.sat || sl.geom == 1) (f i).1 (f i).2 g).1) (p : Quant → Nat) (ls : List Nat)
    (g : W32) : (stochLanes (fun i g => (p (o i g), nextRandom g)) ls g).1 =
      (quantAll sl ff f ls g).1.map fun e => (e.1, p e.2) := by
  induction ls generalizing g with
  | nil => rfl
  | cons i ls ih =>
    have hg : (quantOne ff sl.rnd (sl.sat || sl.geom == 1) (f i).1 (f i).2 g).2 = nextRandom g := by rw [hr]; rfl
    have hv : (quantOne ff sl.rnd (sl.sat || sl.geom == 1) (f i).1 (f i).2 g).1 = o i g := by rw [hr, ho]
    simp only [stochLanes, quantAll, hg, hv, ih, List.map_cons]

theorem quantAll_rng {sl : Slot} (hr : sl.rnd = .stoch) (ff : FF) (f : Nat → XVal × XVal) (ls : List Nat) (g : W32) :
    (quantAll sl ff f ls g).2 = Nat.repeat nextRandom ls.length g := by
  induction ls generalizing g with
  | nil => rfl
  | cons i ls ih =>
    have hg : (quantOne ff sl.rnd (sl.sat || sl.geom == 1) (f i).1 (f i).2 g).2 = nextRandom g := by rw [hr]; rfl
    rw [quantAll, hg, ih, repeat_nextRandom, List.length_cons]

theorem quantAll_lanes (sl : Slot) (ff : FF) (f : Nat → XVal × XVal) (ls : List Nat) (g : W32) :
    (quantAll sl ff f ls g).1.map Prod.fst = ls := by
  induction ls generalizing g with
  | nil => rfl
  | cons i ls ih => rw [quantAll, List.map_cons, ih]

theorem sum_b2n_eq_length_filter {α : Type} (p : α → Bool) (es : List α) :
    (es.map fun e => b2n (p e)).sum = (es.filter p).length := by
  induction es with
  | nil => rfl
  | cons e es ih =>
    rw [List.map_cons, List.sum_cons, ih]
    cases h : p e <;> simp [h, b2n, Nat.add_comm]

/-! ## The checks of VQNT and VDQNT -/

theorem ScaleRes.forPasses_scale (v : XVal) (l : Lanes) : (ScaleRes.scale v).forPasses l = .scale v := rfl

/-- A quantising word that can run and whose checks pass runs its effect. -/
theorem quantFrame_ready {s : State} {rk : Nat} {c : LaneCtl} {fs sel : BitVec 3} {dequant : Bool} {d a b : Opnd} {cx : LaneCx}
    {l : Lanes} {ff : FF} {sc : XVal} {k : Nat → Slot → FF → XVal → Sources → LaneCx → Lanes → Res} {sl : Slot}
    (hsl : slotOf ((s.launchOf rk).fslot fs.toNat) = sl) (hcur : s.cur = .lane rk)
    (h : LaneReady s c ⟨.op a .w32, quantB sl.geom dequant b, .none⟩
      ((d, 4) :: if sl.geom = 1 ∧ !dequant ∧ b.isDst then [(b, 4)] else []) cx l)
    (hff : quantFF sl.efmt = some ff) (hsel : sel.toNat < sl.efmt.perWord) (h0 : sl.geom = 0 → b = .v 0)
    (h1 : dequant = false → sl.geom = 1 → b.isDst = true) (hup : sl.src = true → (s.role rk).updatesPending = false)
    (hsc : s.slotScale rk sl ff = .scale sc) :
    quantFrame s c fs sel dequant d a b k =
      k rk sl ff sc ⟨.op a .w32, quantB sl.geom dequant b, .none⟩ cx l := by
  have hfmt : (decide (sl.efmt.perWord ≤ sel.toNat) || (sl.geom == 0 && b != .v 0)
      || (sl.geom == 1 && !dequant && !b.isDst)) = false := by
    have h0' : (sl.geom == 0 && b != .v 0) = false := by
      by_cases hg : sl.geom = 0
      · rw [h0 hg, bne_self_eq_false, Bool.and_false]
      · rw [beq_eq_false_iff_ne.2 hg, Bool.false_and]
    have h1' : (sl.geom == 1 && !dequant && !b.isDst) = false := by
      by_cases hg : sl.geom = 1
      · cases hd : dequant with
        | false => rw [h1 hd hg]; simp
        | true => simp
      · rw [beq_eq_false_iff_ne.2 hg, Bool.false_and, Bool.false_and]
    rw [h0', h1', decide_eq_false (not_le.2 hsel)]
    rfl
  have hsrc : (sl.src && (s.role rk).updatesPending) = false := by
    cases hs : sl.src with
    | false => rfl
    | true => rw [hup hs]; rfl
  unfold quantFrame
  simp only [hcur, hsl]
  refine (laneFrameR_ready h _ _).trans ?_
  simp only [hff, hfmt, hsrc, hsc, ScaleRes.forPasses_scale, Bool.false_eq_true, if_false]

theorem quantB_quant (geom : Nat) (b : Opnd) : quantB geom false b = if 2 ≤ geom then .op b .w32 else .none := by
  simp [quantB]

theorem quantB_dequant (geom : Nat) (b : Opnd) : quantB geom true b = if 1 ≤ geom then .op b .w32 else .none := by
  have h : (2 ≤ geom ∨ geom = 1) ↔ 1 ≤ geom := by omega
  simp only [quantB, and_true, h]

/-! ## VQNT -/

/-- The value and the scale of each lane of a VQNT. -/
def quantIn (sl : Slot) (ff : FF) (sc : XVal) (srcs : Sources) (cx : LaneCx) (l : Lanes) (c : LaneCtl) (i : Nat) :
    XVal × XVal :=
  (decodeF .f32 (srcs.a.val cx l i), quantScale sl ff sc srcs cx l c i)

/-- The elements that a VQNT computes. -/
def quantOut (sl : Slot) (ff : FF) (sc : XVal) (srcs : Sources) (cx : LaneCx) (l : Lanes) (c : LaneCtl) :
    List (Nat × Quant) × W32 :=
  quantAll sl ff (quantIn sl ff sc srcs cx l c) (l.actives c) l.rng

theorem quantScale_eq (sl : Slot) (ff : FF) (sc : XVal) (srcs : Sources) (cx : LaneCx) (l : Lanes) (c : LaneCtl) (i : Nat) :
    quantScale sl ff sc srcs cx l c i =
      if sl.geom = 0 then sc else if sl.geom = 1 then .ofScaled false 1 (groupBlock srcs cx l c ff (i / 32)).1
      else decodeF .f32 (srcs.b.val cx l i) := by
  unfold quantScale
  split
  · next h => rw [if_pos h]
  · next h => simp [h]
  · next h0 h1 => rw [if_neg h0, if_neg h1]

/-- The lanes that a VQNT leaves when no element takes the trap. -/
def quantLanes (sl : Slot) (cx : LaneCx) (l : Lanes) (d b : Opnd) (sel : Nat) (srcs : Sources) (c : LaneCtl) (ff : FF)
    (es : List (Nat × Nat)) : Lanes :=
  let w := fmtWidth sl.efmt
  let m := writeElems l cx sl.src d w sel es
  if sl.geom = 1 then writeElems m cx false b 8 (w * sel / 8) (es.map fun e => (e.1, (groupBlock srcs cx l c ff (e.1 / 32)).2))
  else m

theorem quantLanes_rng (sl : Slot) (cx : LaneCx) (l : Lanes) (d b : Opnd) (sel : Nat) (srcs : Sources) (c : LaneCtl) (ff : FF)
    (es : List (Nat × Nat)) : (quantLanes sl cx l d b sel srcs c ff es).rng = l.rng := by
  unfold quantLanes
  dsimp only
  split
  · rw [writeElems_rng, writeElems_rng]
  · rw [writeElems_rng]

/-- What a VQNT whose checks have passed does with its elements. -/
def vqntRes (s : State) (rk : Nat) (sl : Slot) (cx : LaneCx) (l : Lanes) (d b : Opnd) (sel : Nat) (srcs : Sources)
    (c : LaneCtl) (ff : FF) (sc : XVal) : Res :=
  let q := quantOut sl ff sc srcs cx l c
  if q.1.any fun e => e.2.over_ then
    (if (s.role rk).lxOut ≠ 0 || !(s.role rk).part.isEmpty then .next (s.updRole rk fun r => { r with lpark := .order })
     else .next (s.userTrap rk 1 0 true (s.role rk).pc))
  else .next (s.laneFinish c cx l srcs
    ⟨{ quantLanes sl cx l d b sel srcs c ff (q.1.map fun e => (e.1, e.2.bits)) with rng := q.2 },
      if fmtFeeds sl.efmt then (q.1.filter fun e => e.2.event).length else 0⟩)

section
variable {s : State} {rk : Nat} {c : LaneCtl} {fs sel : BitVec 3} {d a b : Opnd} {cx : LaneCx} {l : Lanes} {ff : FF}
  {sc : XVal} {sl : Slot} {srcs : Sources}

/-- What a VQNT whose checks pass comes to. -/
theorem execVqnt_ready (hsl : slotOf ((s.launchOf rk).fslot fs.toNat) = sl) (hcur : s.cur = .lane rk)
    (hsrcs : srcs = ⟨.op a .w32, if 2 ≤ sl.geom then .op b .w32 else .none, .none⟩)
    (h : LaneReady s c srcs ((d, 4) :: if sl.geom = 1 ∧ b.isDst = true then [(b, 4)] else []) cx l)
    (hff : quantFF sl.efmt = some ff) (hsel : sel.toNat < sl.efmt.perWord) (h0 : sl.geom = 0 → b = .v 0)
    (h1 : sl.geom = 1 → b.isDst = true) (hup : sl.src = true → (s.role rk).updatesPending = false)
    (hsc : s.slotScale rk sl ff = .scale sc) :
    exec (.vqnt c fs sel d a b) s = vqntRes s rk sl cx l d b sel.toNat srcs c ff sc := by
  have harm : exec (.vqnt c fs sel d a b) s = execVqnt c fs sel d a b s := rfl
  have hin : quantIn sl ff sc srcs cx l c = fun i => (decodeF .f32 (srcs.a.val cx l i),
      if sl.geom = 0 then sc else if sl.geom = 1 then .ofScaled false 1 (groupBlock srcs cx l c ff (i / 32)).1
      else decodeF .f32 (srcs.b.val cx l i)) := by
    funext i
    rw [quantIn, quantScale_eq]
  rw [← quantB_quant] at hsrcs
  subst hsrcs
  have h' : LaneReady s c ⟨.op a .w32, quantB sl.geom false b, .none⟩
      ((d, 4) :: if sl.geom = 1 ∧ !false ∧ b.isDst then [(b, 4)] else []) cx l := by
    simpa using h
  rw [harm, execVqnt, quantFrame_ready hsl hcur h' hff hsel h0 (fun _ => h1) hup hsc, vqntRes, quantOut, hin]
  simp only [quantLanes, List.map_map, Function.comp_def]

/-- What a VDQNT whose checks pass comes to. -/
theorem execVdqnt_ready (hsl : slotOf ((s.launchOf rk).fslot fs.toNat) = sl) (hcur : s.cur = .lane rk)
    (hsrcs : srcs = ⟨.op a .w32, if 1 ≤ sl.geom then .op b .w32 else .none, .none⟩) (h : LaneReady s c srcs [(d, 4)] cx l)
    (hff : quantFF sl.efmt = some ff) (hsel : sel.toNat < sl.efmt.perWord) (h0 : sl.geom = 0 → b = .v 0)
    (hup : sl.src = true → (s.role rk).updatesPending = false) (hsc : s.slotScale rk sl ff = .scale sc) :
    exec (.vdqnt c fs sel d a b) s =
      let w := fmtWidth sl.efmt
      let z (i : Nat) : XVal :=
        if sl.geom = 0 then sc else if sl.geom = 1 then e8m0Val (srcs.b.val cx l i / 2 ^ (8 * (w * sel.toNat / 8)) % 2 ^ 8)
        else decodeF .f32 (srcs.b.val cx l i)
      .next (s.laneFinish c cx l srcs ⟨s.writeVals l cx sl.src d 4 ((l.actives c).map fun i =>
        (i, (roundTo (xmul (decodeF ff (srcs.a.val cx l i / 2 ^ (w * sel.toNat) % 2 ^ w)) (z i)) .f32 .rne false
          0).bits)), 0⟩) := by
  have harm : exec (.vdqnt c fs sel d a b) s = execVdqnt c fs sel d a b s := rfl
  rw [← quantB_dequant] at hsrcs
  subst hsrcs
  have h' : LaneReady s c ⟨.op a .w32, quantB sl.geom true b, .none⟩
      ((d, 4) :: if sl.geom = 1 ∧ !true ∧ b.isDst then [(b, 4)] else []) cx l := by
    simpa using h
  rw [harm, execVdqnt, quantFrame_ready hsl hcur h' hff hsel h0 (fun hd => nomatch hd) hup hsc]
  rfl

/-- A VQNT that draws nothing and whose elements all fit. -/
theorem execVqnt_still (hexec : exec (.vqnt c fs sel d a b) s = vqntRes s rk sl cx l d b sel.toNat srcs c ff sc)
    (hr : sl.rnd ≠ .stoch) {r : Nat → Quant × W32}
    (hrd : ∀ i, r i = quantOne ff sl.rnd (sl.sat || sl.geom == 1) (decodeF .f32 (srcs.a.val cx l i))
      (quantScale sl ff sc srcs cx l c i) l.rng) :
    ((∀ i ∈ l.actives c, (r i).1.over_ = false) → exec (.vqnt c fs sel d a b) s = .next (s.laneFinish c cx l srcs
      ⟨quantLanes sl cx l d b sel.toNat srcs c ff ((l.actives c).map fun i => (i, (r i).1.bits)),
        if fmtFeeds sl.efmt then ((l.actives c).filter fun i => (r i).1.event).length else 0⟩)) ∧
    (∀ i ∈ l.actives c, (r i).1.over_ = true → (s.role rk).lxOut = 0 → (s.role rk).part = [] →
      exec (.vqnt c fs sel d a b) s = .next (s.userTrap rk 1 0 true (s.role rk).pc)) := by
  have hout : quantOut sl ff sc srcs cx l c = ((l.actives c).map fun i => (i, (r i).1), l.rng) := by
    rw [quantOut, quantAll_still hr]
    simp only [hrd, quantIn]
  rw [hexec, vqntRes, hout]
  refine ⟨fun hover => ?_, fun i hi hover hlx hpart => ?_⟩
  · have hany : (((l.actives c).map fun i => (i, (r i).1)).any fun e => e.2.over_) = false := by
      simpa [List.any_eq_false] using hover
    simp only [hany, Bool.false_eq_true, if_false, List.map_map, Function.comp_def, List.filter_map, List.length_map]
    rw [Lanes.with_rng_self (quantLanes_rng ..)]
  · have hany : (((l.actives c).map fun i => (i, (r i).1)).any fun e => e.2.over_) = true := by
      simpa [List.any_eq_true] using ⟨i, hi, hover⟩
    simp [hany, hlx, hpart]

/-- A VQNT under STOCH whose elements all fit. -/
theorem execVqnt_stoch (hexec : exec (.vqnt c fs sel d a b) s = vqntRes s rk sl cx l d b sel.toNat srcs c ff sc)
    (hr : sl.rnd = .stoch) {each : (Quant → Nat) → List (Nat × Nat)}
    (heach : ∀ p, each p = (quantOut sl ff sc srcs cx l c).1.map fun e => (e.1, p e.2))
    (hover : ∀ e ∈ each fun z => b2n z.over_, e.2 = 0) :
    exec (.vqnt c fs sel d a b) s = .next (s.laneFinish c cx l srcs
      ⟨{ quantLanes sl cx l d b sel.toNat srcs c ff (each Quant.bits) with
          rng := Nat.repeat nextRandom (l.actives c).length l.rng },
        if fmtFeeds sl.efmt then ((each fun z => b2n z.event).map Prod.snd).sum else 0⟩) := by
  have hany : ((quantOut sl ff sc srcs cx l c).1.any fun e => e.2.over_) = false := by
    rw [List.any_eq_false]
    intro e he hov
    have h0 := hover (e.1, b2n e.2.over_) (by rw [heach]; exact List.mem_map.2 ⟨e, he, rfl⟩)
    rw [hov] at h0
    cases h0
  have hsum : ((each fun z => b2n z.event).map Prod.snd).sum =
      ((quantOut sl ff sc srcs cx l c).1.filter fun e => e.2.event).length := by
    rw [heach, List.map_map, ← sum_b2n_eq_length_filter]
    rfl
  have hrng : (quantOut sl ff sc srcs cx l c).2 = Nat.repeat nextRandom (l.actives c).length l.rng := quantAll_rng hr ..
  simp only [hexec, vqntRes, hany, Bool.false_eq_true, if_false, ← hsum, hrng]
  rw [heach Quant.bits]

end

/-! ## VWBUPD -/

theorem State.wsLack_outside {s : State} {tk : Nat} (h : s.inTx tk = false) (n : Nat) : s.wsLack tk n = none := by
  rw [State.wsLack, h]
  rfl

theorem ftFmt_eq (t : FTy) : ftFmt t = match t with | .f32 => .f32 | .f16x2 => .f16 | .bf16x2 => .bf16 := by
  cases t <;> rfl

/-- What a VWBUPD that can run comes to, once no earlier update is left. -/
theorem execVwbupd_ready {s : State} {rk : Nat} {c : LaneCtl} {t : FTy} {a b : Opnd} {cx : LaneCx} {l : Lanes}
    {srcs : Sources} (hsrcs : srcs = ⟨.op a .w32, .op b .w32, .none⟩) {us : List (Nat × Nat)}
    (hus : us = (l.actives c).flatMap fun i => (ftElems t (srcs.a.val cx l i)).map fun e => (srcs.b.val cx l i, e))
    (hcur : s.cur = .lane rk) (h : LaneReady s c srcs [] cx l) (hup : (s.role rk).updatesPending = false) :
    (s.wbCheckAll (s.vfOf rk) (us.map Prod.fst) = .ok →
      (s.inTx (teamOf rk) = false ∨ (s.logRoom (teamOf rk) us.length = true ∧ s.wsLack (teamOf rk) us.length = none)) →
      exec (.vwbupd c t a b) s = .next ((us.foldl (fun u e => u.wbFeed rk e.1 (ftFmt t) e.2) s).laneFinish c cx l srcs ⟨l, 0⟩)) ∧
    (s.wbCheckAll (s.vfOf rk) (us.map Prod.fst) = .opformat →
      exec (.vwbupd c t a b) s = .next (s.precise rk (s.raiseL rk .opformat))) := by
  have harm : exec (.vwbupd c t a b) s = execVwbupd c t a b s := rfl
  subst hsrcs hus
  rw [harm]
  unfold execVwbupd
  simp only [hcur, srcAB]
  rw [laneFrame_ready h]
  simp only [hup, Bool.false_eq_true, if_false]
  refine ⟨fun hok htx => ?_, fun hbad => ?_⟩
  · simp only [hok]
    rcases htx with htx | ⟨hroom, hlack⟩
    · simp only [htx, Bool.false_and, Bool.false_eq_true, if_false, State.wsLack_outside htx, State.wbFeedAll]
    · simp only [hroom, hlack, Bool.not_true, Bool.and_false, Bool.false_eq_true, if_false, State.wbFeedAll]
  · simp only [hbad, State.laneFault, hcur]

/-- Settles O25: the elements of a VQNT are those of `quantAll`, computed in lane order; VDQNT and VWBUPD run their effect once
the checks of the slot and of the records have passed. -/
theorem laneQuantisation : Obligations.LaneQuantisation := by
  refine ⟨fun s rk c fs sel d a b cx l ff sc => ?_, fun s rk c t a b cx l => ?_⟩
  · intro sl w b2 hcur hff hsel h0 hsc hup
    refine ⟨?vqnt, ?stoch, ?vdqnt⟩
    case vqnt =>
      intro srcs r h h1 hr
      have hexec := execVqnt_ready (sl := sl) rfl hcur rfl h hff hsel h0 h1 hup hsc
      obtain ⟨hfit, htrap⟩ := execVqnt_still hexec hr (r := r) fun _ => rfl
      refine ⟨fun hover hg => ?_, fun hover hg => ?_, htrap⟩
      · rw [hfit hover, quantLanes, if_neg hg]
      · rw [hfit hover, quantLanes, if_pos hg, List.map_map]
        rfl
    case stoch =>
      intro srcs o each h hr h1 hover m m2
      have hexec := execVqnt_ready (sl := sl) rfl hcur rfl h hff hsel h0 h1 hup hsc
      have heach (p : Quant → Nat) : each p = (quantOut sl ff sc srcs cx l c).1.map fun e => (e.1, p e.2) :=
        stochLanes_quant hr (by intros; rfl) p _ _
      have hlanes : (l.actives c).map (fun i => (i, (groupBlock srcs cx l c ff (i / 32)).2)) =
          (each Quant.bits).map fun e => (e.1, (groupBlock srcs cx l c ff (e.1 / 32)).2) := by
        rw [heach, List.map_map, ← quantAll_lanes sl ff (quantIn sl ff sc srcs cx l c) (l.actives c) l.rng, List.map_map]
        rfl
      have hm2 : m2 = quantLanes sl cx l d b sel.toNat srcs c ff (each Quant.bits) := by
        simp only [m2, m, quantLanes, hlanes, w]
      rw [hm2]
      exact execVqnt_stoch hexec hr heach hover
    case vdqnt =>
      intro srcs z h
      have hz : z = fun i => if sl.geom = 0 then sc
          else if sl.geom = 1 then e8m0Val (srcs.b.val cx l i / 2 ^ (8 * (w * sel.toNat / 8)) % 2 ^ 8)
          else decodeF .f32 (srcs.b.val cx l i) := by
        funext i
        simp only [z]
        split
        · next hg => rw [if_pos hg]
        · next hg => simp [hg]
        · next hg0 hg1 => rw [if_neg hg0, if_neg hg1]
      rw [hz]
      exact execVdqnt_ready (sl := sl) rfl hcur rfl h hff hsel h0 hup hsc
  · intro srcs us f hcur h hup
    have hf : f = ftFmt t := (ftFmt_eq t).symm
    rw [hf]
    exact execVwbupd_ready rfl rfl hcur h hup

end Sys2Proof.Machine
end

section
/-! PROOFS. Masks as lists of lanes, and the moves of VREGROUP (R143 to R145). -/

namespace Sys2Proof.Machine
open Sys2Proof

/-! ## Masks -/

theorem ofNat_foldl_add_two_pow (w : Nat) (ls : List Nat) (n : Nat) :
    BitVec.ofNat w (ls.foldl (fun n i => n + 2 ^ i) n) =
      ls.foldl (fun m i => m + BitVec.twoPow w i) (BitVec.ofNat w n) := by
  induction ls generalizing n with
  | nil => rfl
  | cons i ls ih =>
    have hi : BitVec.ofNat w (2 ^ i) = BitVec.twoPow w i :=
      BitVec.eq_of_toNat_eq (by rw [BitVec.toNat_ofNat, BitVec.toNat_twoPow])
    rw [List.foldl_cons, ih, BitVec.ofNat_add, hi, List.foldl_cons]

theorem maskOf_eq_foldl (ls : List Nat) : maskOf ls = ls.foldl (fun m i => m + BitVec.twoPow 1024 i) 0 :=
  ofNat_foldl_add_two_pow 1024 ls 0

/-- Distinct lanes make a mask without carries. -/
theorem getLsbD_foldl_twoPow {ls : List Nat} (hls : ls.Nodup) {m : Mask} (hm : ∀ i ∈ ls, m.getLsbD i = false) {j : Nat}
    (hj : j < 1024) :
    (ls.foldl (fun m i => m + BitVec.twoPow 1024 i) m).getLsbD j = (m.getLsbD j || decide (j ∈ ls)) := by
  induction ls generalizing m with
  | nil => simp
  | cons i ls ih =>
    obtain ⟨hi, hls⟩ := List.nodup_cons.1 hls
    have hand : m &&& BitVec.twoPow 1024 i = 0 := by
      ext k hk
      have := hm i (List.mem_cons_self ..)
      by_cases hki : k = i
      · subst hki; simp_all
      · simp [BitVec.getElem_twoPow, hki]
    have hadd : m + BitVec.twoPow 1024 i = m ||| BitVec.twoPow 1024 i := BitVec.add_eq_or_of_and_eq_zero _ _ hand
    rw [List.foldl_cons, ih hls]
    · rw [hadd, BitVec.getLsbD_or, BitVec.getLsbD_twoPow, Bool.or_assoc]
      by_cases hji : j = i
      · subst hji; simp [hj]
      · simp [hji, Ne.symm hji]
    · intro k hk
      rw [hadd, BitVec.getLsbD_or, BitVec.getLsbD_twoPow, hm k (List.mem_cons_of_mem _ hk)]
      have hne : i ≠ k := fun h => hi (h ▸ hk)
      simp [hne]

theorem getLsbD_maskOf {ls : List Nat} (hls : ls.Nodup) {j : Nat} (hj : j < 1024) :
    (maskOf ls).getLsbD j = decide (j ∈ ls) := by
  rw [maskOf_eq_foldl, getLsbD_foldl_twoPow hls (by simp) hj]
  simp

/-! ## The new slots (R144) -/

theorem count_add_count_not (p : Nat → Bool) (n : Nat) :
    Nat.count (fun i => p i = true) n + Nat.count (fun i => p i = false) n = n := by
  induction n with
  | zero => rfl
  | succ n ih =>
    rw [Nat.count_succ, Nat.count_succ]
    cases h : p n <;> simp <;> omega

theorem length_filter_range (p : Nat → Bool) (n : Nat) :
    ((List.range n).filter p).length = Nat.count (fun i => p i = true) n := by
  rw [Nat.count, List.countP_eq_length_filter]
  simp

theorem filter_lt_filter_range (p : Nat → Bool) {i n : Nat} (h : i ≤ n) :
    (((List.range n).filter p).filter fun j => decide (j < i)) = (List.range i).filter p := by
  obtain ⟨k, rfl⟩ := Nat.exists_eq_add_of_le h
  rw [List.filter_filter, List.range_add, List.filter_append]
  have hlow : (List.range i).filter (fun j => decide (j < i) && p j) = (List.range i).filter p :=
    List.filter_congr fun j hj => by simp [List.mem_range.1 hj]
  have hhigh : ((List.range k).map (i + ·)).filter (fun j => decide (j < i) && p j) = [] := by
    simp
  rw [hlow, hhigh, List.append_nil]

/-- The new slot of a slot: the live slots before it, and for one that is not live all live slots and those before it
that are not. -/
theorem newSlots_getD (live : Mask) {i n : Nat} (h : i < n) : (newSlots live n).getD i 0 =
    if live.getLsbD i then Nat.count (fun k => live.getLsbD k = true) i
    else Nat.count (fun k => live.getLsbD k = true) n + Nat.count (fun k => live.getLsbD k = false) i := by
  have hcount := count_add_count_not (fun k => live.getLsbD k) i
  have hlen : i < (newSlots live n).length := by simpa [newSlots] using h
  rw [List.getD_eq_getElem _ _ hlen]
  simp only [newSlots, List.getElem_map, List.getElem_range]
  rw [filter_lt_filter_range (fun k => live.getLsbD k) h.le, length_filter_range, length_filter_range]
  split
  · rfl
  · omega

section
variable (live : Mask) {i k n : Nat}

theorem newSlots_of_live (h : i < n) (hl : live.getLsbD i = true) :
    (newSlots live n).getD i 0 = Nat.count (fun k => live.getLsbD k = true) i := by
  rw [newSlots_getD live h, if_pos hl]

theorem newSlots_of_not_live (h : i < n) (hl : live.getLsbD i = false) : (newSlots live n).getD i 0 =
    Nat.count (fun k => live.getLsbD k = true) n + Nat.count (fun k => live.getLsbD k = false) i := by
  rw [newSlots_getD live h, hl, if_neg Bool.false_ne_true]

theorem newSlots_of_live_lt (h : i < n) (hl : live.getLsbD i = true) :
    (newSlots live n).getD i 0 < Nat.count (fun k => live.getLsbD k = true) n :=
  newSlots_of_live live h hl ▸ Nat.count_strict_mono hl h

theorem newSlots_lt (h : i < n) : (newSlots live n).getD i 0 < n := by
  have hn := count_add_count_not (fun k => live.getLsbD k) n
  cases hl : live.getLsbD i with
  | true =>
    have := newSlots_of_live_lt live h hl
    omega
  | false =>
    have hlt : Nat.count (fun k => live.getLsbD k = false) i < Nat.count (fun k => live.getLsbD k = false) n :=
      Nat.count_strict_mono hl h
    rw [newSlots_of_not_live live h hl]
    omega

/-- No two slots have one new slot. -/
theorem newSlots_inj (hi : i < n) (hk : k < n) (h : (newSlots live n).getD k 0 = (newSlots live n).getD i 0) : k = i := by
  cases hlk : live.getLsbD k <;> cases hli : live.getLsbD i
  · rw [newSlots_of_not_live live hk hlk, newSlots_of_not_live live hi hli] at h
    exact Nat.count_injective hlk hli (Nat.add_left_cancel h)
  · have := newSlots_of_live_lt live hi hli
    rw [newSlots_of_not_live live hk hlk] at h
    omega
  · have := newSlots_of_live_lt live hk hlk
    rw [newSlots_of_not_live live hi hli] at h
    omega
  · rw [newSlots_of_live live hk hlk, newSlots_of_live live hi hli] at h
    exact Nat.count_injective hlk hli h

end

theorem length_newSlots (live : Mask) (n : Nat) : (newSlots live n).length = n := by
  simp [newSlots]

/-! ## What moves with the lanes (R144, R145) -/

/-- Where the lane of a register byte moves: a lane that the role has not stays. -/
def movedLane (live : Mask) (n i : Nat) : Nat := (newSlots live n).getD i i

theorem movedLane_eq (live : Mask) {i n : Nat} (h : i < n) : movedLane live n i = (newSlots live n).getD i 0 := by
  rw [movedLane, List.getD_eq_getElem _ _ (by rwa [length_newSlots]), List.getD_eq_getElem _ _ (by rwa [length_newSlots])]

theorem movedLane_of_le (live : Mask) {i n : Nat} (h : n ≤ i) : movedLane live n i = i := by
  rw [movedLane, List.getD_eq_default _ _ (by rwa [length_newSlots])]

theorem movedLane_inj (live : Mask) (n : Nat) {i k : Nat} (h : movedLane live n k = movedLane live n i) : k = i := by
  rcases lt_or_ge i n with hi | hi <;> rcases lt_or_ge k n with hk | hk
  · rw [movedLane_eq live hi, movedLane_eq live hk] at h
    exact newSlots_inj live hi hk h
  · rw [movedLane_eq live hi, movedLane_of_le live hk] at h
    have := newSlots_lt live hi
    omega
  · rw [movedLane_eq live hk, movedLane_of_le live hi] at h
    have := newSlots_lt live hk
    omega
  · rwa [movedLane_of_le live hi, movedLane_of_le live hk] at h

theorem movedKey_eq (live : Mask) (n k : Nat) :
    movedKey (newSlots live n) k = 1024 * movedLane live n (k / 1024) + k % 1024 := rfl

theorem movedKey_inj (live : Mask) (n : Nat) {i k : Nat}
    (h : movedKey (newSlots live n) k = movedKey (newSlots live n) i) : k = i := by
  rw [movedKey_eq, movedKey_eq] at h
  have hlane : movedLane live n (k / 1024) = movedLane live n (i / 1024) := by omega
  have := movedLane_inj live n hlane
  omega

theorem lt_of_mem_wfFrom {α : Type} [DecidableEq α] {d : α} {m : NMap α} {lo : Nat}
    (h : NMap.wfFrom d (some lo) m = true) {e : Nat × α} (he : e ∈ m) : lo < e.1 := by
  induction m generalizing lo with
  | nil => cases he
  | cons x m ih =>
    obtain ⟨hlo, -, hm⟩ := NMap.wfFrom_cons.1 h
    rcases List.mem_cons.1 he with rfl | he
    · exact hlo
    · exact Nat.lt_trans hlo (ih hm he)

/-- A map rebuilt under other keys reads there as it did. -/
theorem get_foldl_moved {α : Type} [DecidableEq α] {d : α} {κ : Nat → Nat} (hκ : ∀ i k, κ k = κ i → k = i) {m : NMap α}
    {b : Option Nat} (hm : NMap.wfFrom d b m = true) (r : NMap α) (i : Nat) (hr : r.get d (κ i) = d) :
    (m.foldl (fun r e => r.set d (κ e.1) e.2) r).get d (κ i) = m.get d i := by
  induction m generalizing b r with
  | nil => exact hr
  | cons e m ih =>
    obtain ⟨k, v⟩ := e
    obtain ⟨-, -, hm⟩ := NMap.wfFrom_cons.1 hm
    rw [List.foldl_cons, NMap.get]
    by_cases hik : i = k
    · subst hik
      have hrest : ∀ e ∈ m.map fun e => (κ e.1, e.2), e.1 ≠ κ i := by
        intro e he heq
        obtain ⟨x, hx, rfl⟩ := List.mem_map.1 he
        exact absurd (hκ _ _ heq) (lt_of_mem_wfFrom hm hx).ne'
      have hget := get_foldl_set_ne d (m.map fun e => (κ e.1, e.2)) (r.set d (κ i) v) hrest
      rw [List.foldl_map] at hget
      rw [if_pos rfl, hget, NMap.get_set_self]
    · rw [if_neg hik]
      refine ih hm _ ?_
      rwa [NMap.get_set_ne _ _ _ fun h => hik (hκ _ _ h)]

theorem nodup_newSlots (live : Mask) (n : Nat) : (newSlots live n).Nodup := by
  have hmap : newSlots live n = (List.range n).map fun i => (newSlots live n).getD i 0 := by
    refine List.ext_getElem (by simp [length_newSlots]) fun i h1 h2 => ?_
    rw [List.getElem_map, List.getElem_range, List.getD_eq_getElem _ _ h1]
  rw [hmap]
  exact List.Nodup.map_on (fun x hx y hy h => newSlots_inj live (List.mem_range.1 hy) (List.mem_range.1 hx) h) List.nodup_range

theorem filterMap_ite {α β : Type} (p : α → Bool) (f : α → β) (l : List α) :
    (l.filterMap fun e => if p e then some (f e) else none) = (l.filter p).map f := by
  induction l with
  | nil => rfl
  | cons e l ih =>
    rw [List.filterMap_cons, List.filter_cons]
    cases p e <;> simp [ih]

/-- A mask whose bits have moved with their lanes. -/
theorem getLsbD_permMask (live m : Mask) {i n : Nat} (hn : n ≤ 1024) (h : i < n) :
    (permMask (newSlots live n) m).getLsbD ((newSlots live n).getD i 0) = m.getLsbD i := by
  have hlen := length_newSlots live n
  have hj := newSlots_lt live h
  have hmem {e : Nat × Nat} : e ∈ (newSlots live n).zipIdx ↔ e.2 < n ∧ (newSlots live n).getD e.2 0 = e.1 := by
    obtain ⟨a, k⟩ := e
    rw [List.mem_zipIdx_iff_getElem?, List.getElem?_eq_some_iff]
    constructor
    · rintro ⟨hk, he⟩
      exact ⟨hlen ▸ hk, by rw [List.getD_eq_getElem _ _ hk]; exact he⟩
    · rintro ⟨hk, he⟩
      have hk' : k < (newSlots live n).length := hlen.symm ▸ hk
      exact ⟨hk', by rwa [List.getD_eq_getElem _ _ hk'] at he⟩
  have hnd : ((newSlots live n).zipIdx.filterMap fun e => if m.getLsbD e.2 then some e.1 else none).Nodup := by
    rw [filterMap_ite (fun e : Nat × Nat => m.getLsbD e.2) Prod.fst]
    have hsub := (List.filter_sublist (p := fun e : Nat × Nat => m.getLsbD e.2) (l := (newSlots live n).zipIdx)).map Prod.fst
    rw [List.zipIdx_map_fst] at hsub
    exact hsub.nodup (nodup_newSlots live n)
  rw [permMask, getLsbD_maskOf hnd (by omega)]
  cases hm : m.getLsbD i with
  | true =>
    rw [decide_eq_true_iff, List.mem_filterMap]
    exact ⟨((newSlots live n).getD i 0, i), hmem.2 ⟨h, rfl⟩, by simp [hm]⟩
  | false =>
    rw [decide_eq_false_iff_not, List.mem_filterMap]
    rintro ⟨e, he, hsome⟩
    obtain ⟨hk, hek⟩ := hmem.1 he
    cases hb : m.getLsbD e.2 with
    | false => simp [hb] at hsome
    | true =>
      simp only [hb, if_true, Option.some.injEq] at hsome
      have := newSlots_inj live h hk (hek.trans hsome)
      rw [this, hm] at hb
      cases hb

theorem permMask_zero (ns : List Nat) : permMask ns 0 = 0 := by
  have hnone : (ns.zipIdx.filterMap fun e => if (0 : Mask).getLsbD e.2 then some e.1 else none) = [] := by simp
  rw [permMask, hnone]
  rfl

theorem regroup_pred (l : Lanes) (live : Mask) (k : Nat) {i : Nat} (hg : l.groups ≤ 32) (hi : i < 32 * l.groups) :
    ((l.regroup live).pred k).getLsbD ((newSlots live (32 * l.groups)).getD i 0) = (l.pred k).getLsbD i := by
  have hj := newSlots_lt live hi
  unfold Lanes.pred
  split
  · rw [BitVec.getLsbD_allOnes, BitVec.getLsbD_allOnes, decide_eq_true (by omega), decide_eq_true (by omega)]
  · have hget : (l.regroup live).preds.getD (k - 1) 0 = permMask (newSlots live (32 * l.groups)) (l.preds.getD (k - 1) 0) := by
      have hmap := List.getD_map (l := l.preds) (d := (0 : Mask)) (n := k - 1) (permMask (newSlots live (32 * l.groups)))
      rwa [permMask_zero] at hmap
    rw [hget, getLsbD_permMask live _ (by omega) hi]

theorem regroup_regs (l : Lanes) (live : Mask) {i b : Nat} (hi : i < 32 * l.groups) (hb : b < 1024)
    (hw : NMap.wf (0 : Byte) l.regs = true) :
    (l.regroup live).regs.get 0 (rkey ((newSlots live (32 * l.groups)).getD i 0) b) = l.regs.get 0 (rkey i b) := by
  have hkey : rkey ((newSlots live (32 * l.groups)).getD i 0) b = movedKey (newSlots live (32 * l.groups)) (rkey i b) := by
    have hdiv : rkey i b / 1024 = i := by rw [rkey]; omega
    have hmod : rkey i b % 1024 = b := by rw [rkey]; omega
    rw [movedKey_eq, hdiv, hmod, movedLane_eq live hi, rkey]
  rw [hkey]
  exact get_foldl_moved (fun i k => movedKey_inj live _) hw [] (rkey i b) rfl

/-- Settles O27: new slots are counts of live and of other slots, so no two agree, and registers and predicates move along. -/
theorem regroupMoves : Obligations.RegroupMoves := by
  intro l live i b hg hi hb hw ns j lv
  have hj : j < 32 * l.groups := newSlots_lt live hi
  have hlv : lv.length = Nat.count (fun k => live.getLsbD k = true) (32 * l.groups) := length_filter_range _ _
  refine ⟨hj, fun k hk h => newSlots_inj live hi hk h, fun hl => ?_, fun hl => ?_, regroup_regs l live hi hb hw,
    fun k => regroup_pred l live k hg hi, rfl, ?_⟩
  · rw [filter_lt_filter_range _ hi.le, length_filter_range]
    exact newSlots_of_live live hi hl
  · rw [hlv]
    exact (Nat.le_add_right _ _).trans (newSlots_of_not_live live hi hl).ge
  · have he : (l.regroup live).e = maskOf (List.range (32 * l.groups)) := rfl
    rw [he, getLsbD_maskOf List.nodup_range (by omega)]
    exact decide_eq_true (List.mem_range.2 hj)

end Sys2Proof.Machine
end

section
/-! PROOFS. The mask stack, votes, shuffles, values for the scalar stream and regrouping (R127, R128, R140 to R145). -/

namespace Sys2Proof.Machine
open Sys2Proof

theorem State.laneNow_lane {s : State} {rk : Nat} (h : s.cur = .lane rk) :
    s.laneNow = some (s.roleCx rk, (s.role rk).lanes) := by
  rw [State.laneNow, h]

theorem State.laneFault_lane {s : State} {rk : Nat} (h : s.cur = .lane rk) (c : Code) :
    s.laneFault c = s.precise rk (s.raiseL rk c) := by
  simp only [State.laneFault, h]

/-! ## The mask stack (R127, R128) -/

theorem maskOp_lane {s : State} {rk : Nat} (h : s.cur = .lane rk) (sw : Bool) (ok : Nat → Bool) (f : Lanes → Lanes) :
    maskOp s sw ok f = if ok (s.role rk).lanes.stack.length then .next (s.laneDone sw (f (s.role rk).lanes))
      else .next (s.precise rk (s.raiseL rk .illegal)) := by
  rw [maskOp, State.laneNow_lane h]
  simp only [State.laneFault_lane h]

theorem crossLane_mask {s : State} {rk : Nat} (hcur : s.cur = .lane rk) (sw kcn : Bool) (kc : BitVec 4) :
    let l := (s.role rk).lanes
    let cond : Mask := if kcn then ~~~l.pred kc.toNat else l.pred kc.toNat
    (l.stack.length < 16 → exec (.vif sw kc kcn) s =
      .next (s.laneDone sw { l with stack := (l.e, cond) :: l.stack, e := l.e &&& cond })) ∧
    (16 ≤ l.stack.length → exec (.vif sw kc kcn) s = .next (s.precise rk (s.raiseL rk .illegal))) ∧
    (l.stack = [] → exec (.velse sw) s = .next (s.precise rk (s.raiseL rk .illegal)) ∧
      exec (.vendif sw) s = .next (s.precise rk (s.raiseL rk .illegal))) ∧
    (∀ out q t, l.stack = (out, q) :: t →
      exec (.velse sw) s = .next (s.laneDone sw { l with e := out &&& ~~~q }) ∧
      exec (.vendif sw) s = .next (s.laneDone sw { l with e := out, stack := t })) := by
  intro l cond
  have hvif : exec (.vif sw kc kcn) s = if decide (l.stack.length < 16) then .next (s.laneDone sw (l.vif cond))
      else .next (s.precise rk (s.raiseL rk .illegal)) := by
    have harm : exec (.vif sw kc kcn) s = maskOp s sw (fun d => decide (d < 16)) (fun l => l.vif (l.cond kc kcn)) := rfl
    rw [harm, maskOp_lane hcur]
    rfl
  have hvelse : exec (.velse sw) s = if decide (0 < l.stack.length) then .next (s.laneDone sw l.velse)
      else .next (s.precise rk (s.raiseL rk .illegal)) := by
    have harm : exec (.velse sw) s = maskOp s sw (fun d => decide (0 < d)) Lanes.velse := rfl
    rw [harm, maskOp_lane hcur]
  have hvendif : exec (.vendif sw) s = if decide (0 < l.stack.length) then .next (s.laneDone sw l.vendif)
      else .next (s.precise rk (s.raiseL rk .illegal)) := by
    have harm : exec (.vendif sw) s = maskOp s sw (fun d => decide (0 < d)) Lanes.vendif := rfl
    rw [harm, maskOp_lane hcur]
  refine ⟨fun h => ?_, fun h => ?_, fun h => ?_, fun out q t h => ?_⟩
  · rw [hvif, if_pos (decide_eq_true h)]
    rfl
  · rw [hvif, if_neg (by simp [h])]
  · rw [hvelse, hvendif, h]
    exact ⟨rfl, rfl⟩
  · rw [hvelse, hvendif, if_pos (by simp [h]), if_pos (by simp [h]), Lanes.velse, Lanes.vendif, h]
    exact ⟨rfl, rfl⟩

/-! ## Votes and shuffles (R140, R141) -/

theorem voteVal_eq (v : VoteMode) (i : Nat) (vs : List Nat) (p : Nat → Bool) : voteVal v i vs (vs.filter p) = match v with
    | .ballot => ((vs.filter p).map fun j => 2 ^ (j % 32)).sum
    | .any => if vs.filter p = [] then 0 else 1
    | .all => if vs.all p then 1 else 0
    | .count => (vs.filter p).length
    | .pre => ((vs.filter p).filter fun j => decide (j < i)).length
    | .first => (vs.filter p).headD 0xFFFFFFFF := by
  cases v with
  | any =>
    simp only [voteVal]
    cases vs.filter p <;> rfl
  | all =>
    have hall : (vs.length == (vs.filter p).length) = vs.all p := by
      rw [Bool.eq_iff_iff, beq_iff_eq, eq_comm, List.length_filter_eq_length_iff, List.all_eq_true]
    simp only [voteVal, hall]
    cases vs.all p <;> rfl
  | _ => rfl

/-! ## Values for the scalar stream (R142) -/

theorem lanePush_room {s : State} {rk : Nat} (h : s.pushBlock rk 15 = .room) (v : W64) (k : State → Res) :
    s.lanePush rk v k = k (s.pushQ rk 15 v) := by
  rw [State.lanePush, h]

theorem foldl_add_sext64 (vs : List Nat) (a : W64) :
    vs.foldl (fun n v => n + sext64 32 v) a = a + BitVec.ofInt 64 (vs.map fun y => (BitVec.ofNat 32 y).toInt).sum := by
  induction vs generalizing a with
  | nil => simp
  | cons v vs ih =>
    rw [List.foldl_cons, ih, List.map_cons, List.sum_cons, BitVec.ofInt_add, BitVec.add_assoc]
    rfl

theorem tosVal_eq (m : TosMode) (vs : List Nat) : tosVal m vs = match m with
    | .first => BitVec.ofNat 64 (vs.headD 0)
    | .or => BitVec.ofNat 64 (vs.foldl (fun n y => n ||| y) 0)
    | .add => BitVec.ofInt 64 (vs.map fun y => (BitVec.ofNat 32 y).toInt).sum
    | .count => BitVec.ofNat 64 vs.length := by
  cases m with
  | add => exact (foldl_add_sext64 vs 0).trans (BitVec.zero_add _)
  | _ => rfl

/-! ## Regrouping (R143 to R145) -/

theorem Lanes.bad_of_clean {l : Lanes} (h : l.clean = true) : l.bad = [] := by
  rw [Lanes.clean, Bool.and_eq_true] at h
  exact List.isEmpty_iff.1 h.1

@[simp] theorem State.repair_free (s : State) (core rk : Nat) (ws : List Nat) : (s.repair core rk ws).free = s.free := by
  unfold State.repair
  dsimp only
  split <;> rfl

/-- The lanes that a VREGROUP leaves. -/
def regrouped (s : State) (c : LaneCtl) (wid : Bool) (d : Opnd) (cx : LaneCx) (l : Lanes) : Lanes :=
  let r := (l.unwatch s.free).regroup (l.active c)
  if wid then (r.own cx d).writeOld cx d (newSlots (l.active c) (32 * l.groups)) else r

section
variable {s : State} {rk : Nat} {c : LaneCtl} {wid : Bool} {d : Opnd} {cx : LaneCx} {l : Lanes}

theorem execVregroup_stack (hcur : s.cur = .lane rk) (h : LaneReady s c noSources (if wid then [(d, 4)] else []) cx l)
    (hst : l.stack ≠ []) (pushn : Bool) :
    exec (.vregroup c wid pushn d) s = .next (s.precise rk (s.raiseL rk .illegal)) := by
  have harm : exec (.vregroup c wid pushn d) s = execVregroup c wid pushn d s := rfl
  have hlen : l.stack.length ≠ 0 := fun h0 => hst (List.eq_nil_of_length_eq_zero h0)
  rw [harm]
  unfold execVregroup
  simp only [hcur]
  rw [laneFrame_ready h, if_pos hlen, State.laneFault_lane hcur]

theorem execVregroup_ready (hcur : s.cur = .lane rk) (h : LaneReady s c noSources (if wid then [(d, 4)] else []) cx l)
    (hst : l.stack = []) (hout : (s.role rk).outstanding = false) (pushn : Bool) :
    exec (.vregroup c wid pushn d) s =
      let t := s.repair (s.coreOf rk) rk []
      if pushn then t.lanePush rk (BitVec.ofNat 64 (l.actives c).length) fun s1 =>
          .next (s1.laneDone c.sw (regrouped s c wid d cx l))
      else .next (t.laneDone c.sw (regrouped s c wid d cx l)) := by
  have harm : exec (.vregroup c wid pushn d) s = execVregroup c wid pushn d s := rfl
  have hbad := Lanes.bad_of_clean h.clean
  have hl : { l with bad := [] } = l := by
    cases l
    cases hbad
    rfl
  rw [harm]
  unfold execVregroup
  simp only [hcur]
  rw [laneFrame_ready h]
  simp only [hl]
  simp only [hst, hout, hbad, List.length_nil, ne_eq, not_true_eq_false, List.any_nil, Bool.false_eq_true, if_false,
    List.map_nil, State.repair_free, regrouped]

end

/-- Settles O26: the mask stack through `maskOp`, the others as lane words that can run. -/
theorem crossLaneWords : Obligations.CrossLaneWords := by
  refine ⟨fun s rk sw kcn kc hcur => crossLane_mask hcur sw kcn kc,
    fun s rk c v role w64 wid ka h m d a b x cx l hcur => ?_⟩
  intro none3 w act voters ones
  refine ⟨fun hr => ?vvote, ?vshfl, ?vtos, fun hr hst hout => ?vregroup, fun hr hst pushn => ?stack⟩
  case vvote =>
    have harm : exec (.vvote c v role ka d) s = execVvote c v role ka d s := rfl
    rw [harm, execVvote]
    refine (laneWordOp_ready hr _).trans ?_
    simp only [voteVal_eq]
    rfl
  case vshfl =>
    intro srcs pos hr
    have harm : exec (.vshfl c h w64 d a b x) s = execVshfl c h w64 d a b x s := rfl
    have hpos (i y : Nat) : shflPos h (i % 32) y = pos i y := by cases h <;> rfl
    rw [harm, execVshfl]
    refine (laneWordOp_ready hr _).trans ?_
    simp only [hpos, Nat.mul_comm _ 32]
    rfl
  case vtos =>
    intro srcs vs hr hroom
    have harm : exec (.vtos c m a) s = execVtos c m a s := rfl
    rw [harm]
    unfold execVtos
    simp only [hcur]
    refine (laneFrame_ready hr _).trans ?_
    rw [lanePush_room hroom, tosVal_eq]
    rfl
  case vregroup =>
    refine ⟨?_, fun hroom => ?_⟩
    · rw [execVregroup_ready hcur hr hst hout]
      rfl
    · rw [execVregroup_ready hcur hr hst hout]
      dsimp only
      rw [if_pos rfl, lanePush_room hroom]
      rfl
  case stack => exact execVregroup_stack hcur hr hst pushn

end Sys2Proof.Machine
end

section
/-! PROOFS. The frame of a lane word: its destination, its end and its faults (R45, R54 to R58, R95, R97, R153, R156). -/

namespace Sys2Proof.Machine
open Sys2Proof

/-! ## Writing a destination (R45, R95) -/

/-- What a write of register bytes leaves of the lanes. -/
def Lanes.still (l : Lanes) : List Mask × Mask × Mask × List (Mask × Mask) × W32 × List (Option Latch) × Nat × Nat × Nat :=
  (l.preds, l.base, l.e, l.stack, l.rng, l.latches, l.groups, l.budget, l.pend.length)

theorem Lanes.putByte_still (l : Lanes) (lane b : Nat) (v : Byte) : (l.putByte lane b v).still = l.still := by
  simp only [Lanes.still, Lanes.putByte, List.length_map]

theorem Lanes.put_still (l : Lanes) (lane b n v : Nat) : (l.put lane b n v).still = l.still := by
  have hbytes : (((rangeFrom b n).zip (leBytes n v)).foldl (fun l e => l.putByte lane e.1 e.2) l).still = l.still :=
    foldl_proj_eq Lanes.still (fun m (e : Nat × Byte) => m.putByte_still lane e.1 e.2) _ l
  unfold Lanes.put
  split
  · exact hbytes
  · exact hbytes

theorem opWrite_still (o : Opnd) (cx : LaneCx) (l : Lanes) (lane n v : Nat) : (opWrite o cx l lane n v).still = l.still := by
  unfold opWrite
  split
  · exact Lanes.put_still ..
  · rfl

theorem Lanes.mapTo_still (l : Lanes) (cx : LaneCx) (ls : List Nat) (d : Opnd) (n : Nat) (f : Nat → Nat) :
    (l.mapTo cx ls d n f).still = l.still :=
  foldl_proj_eq Lanes.still (fun m i => opWrite_still d cx m i n (f i)) ls l

/-- The keys and the values of the register bytes that a write of a lane changes. -/
def putEntries (lane b n v : Nat) : List (Nat × Byte) := ((rangeFrom b n).map (rkey lane)).zip (leBytes n v)

theorem Lanes.put_regs (l : Lanes) (lane b n v : Nat) :
    (l.put lane b n v).regs = (putEntries lane b n v).foldl (fun m e => m.set 0 e.1 e.2) l.regs := by
  have hbytes (es : List (Nat × Byte)) (m : Lanes) : (es.foldl (fun l e => l.putByte lane e.1 e.2) m).regs =
      (es.map fun e => (rkey lane e.1, e.2)).foldl (fun m e => m.set 0 e.1 e.2) m.regs := by
    induction es generalizing m with
    | nil => rfl
    | cons e es ih => rw [List.foldl_cons, ih, List.map_cons, List.foldl_cons, Lanes.putByte]
  have hmap : ((rangeFrom b n).zip (leBytes n v)).map (fun e => (rkey lane e.1, e.2)) = putEntries lane b n v := by
    rw [putEntries, List.zip_map_left]
    rfl
  rw [← hmap, ← hbytes]
  unfold Lanes.put
  dsimp only
  split <;> rfl

theorem leBytes_map_byteOf (n v : Nat) : leBytes n v = (List.range n).map (byteOf v) := by
  induction n generalizing v with
  | zero => rfl
  | succ n ih =>
    have hstep (i : Nat) : byteOf (v / 256) i = byteOf v (i + 1) := by
      rw [byteOf, byteOf, Nat.div_div_eq_div_mul]
      congr 2
      rw [show 8 * (i + 1) = 8 + 8 * i by omega, Nat.pow_add]
    rw [leBytes, ih, List.range_succ_eq_map, List.map_cons, List.map_map]
    congr 1
    · simp [byteOf]
    · exact List.map_congr_left fun i _ => hstep i

theorem rkey_inj {lane lane' b b' : Nat} (hb : b < 1024) (hb' : b' < 1024) (h : rkey lane b = rkey lane' b') :
    lane = lane' ∧ b = b' := by
  simp only [rkey] at h
  omega

theorem get_put_regs (l : Lanes) (lane b n v : Nat) {j : Nat} (hj : j < n) :
    (l.put lane b n v).regs.get 0 (rkey lane (b + j)) = byteOf v j := by
  have hlen : (leBytes n v).length = ((rangeFrom b n).map (rkey lane)).length := by
    rw [leBytes_length, List.length_map, length_rangeFrom]
  have hnd : ((rangeFrom b n).map (rkey lane)).Nodup :=
    (nodup_rangeFrom b n).map fun x y h => by simp only [rkey] at h; omega
  have hread := map_get_foldl_set (0 : Byte) ((rangeFrom b n).map (rkey lane)) (leBytes n v) l.regs hlen hnd
  rw [← putEntries, ← Lanes.put_regs, leBytes_map_byteOf, rangeFrom_eq_range', List.map_map, List.range'_eq_map_range,
    List.map_map, List.map_inj_left] at hread
  exact hread j (List.mem_range.2 hj)

theorem get_put_regs_ne (l : Lanes) (lane b n v : Nat) {k : Nat} (hk : ∀ j, j < n → k ≠ rkey lane (b + j)) :
    (l.put lane b n v).regs.get 0 k = l.regs.get 0 k := by
  rw [Lanes.put_regs]
  refine get_foldl_set_ne _ _ _ fun e he h => ?_
  have hmem := (List.of_mem_zip he).1
  obtain ⟨x, hx, hxe⟩ := List.mem_map.1 hmem
  rw [mem_rangeFrom] at hx
  refine hk (x - b) (by omega) ?_
  rw [← h, ← hxe]
  congr 1
  omega

section
variable {cx : LaneCx} {d : Opnd} {n b : Nat} (hd : opStart d cx = some b) (f : Nat → Nat)
include hd

theorem mapTo_cons (l : Lanes) (i : Nat) (ls : List Nat) :
    l.mapTo cx (i :: ls) d n f = (l.put i b n (f i)).mapTo cx ls d n f := by
  have hw : opWrite d cx l i n (f i) = l.put i b n (f i) := by simp only [opWrite, hd]
  rw [Lanes.mapTo, List.foldl_cons, hw, Lanes.mapTo]

theorem get_mapTo_ne (ls : List Nat) (l : Lanes) {k : Nat} (hk : ∀ i ∈ ls, ∀ j, j < n → k ≠ rkey i (b + j)) :
    (l.mapTo cx ls d n f).regs.get 0 k = l.regs.get 0 k := by
  induction ls generalizing l with
  | nil => rfl
  | cons i ls ih =>
    rw [mapTo_cons hd, ih _ fun x hx => hk x (List.mem_cons_of_mem _ hx),
      get_put_regs_ne _ _ _ _ _ (hk i (List.mem_cons_self ..))]

theorem get_mapTo {ls : List Nat} (hls : ls.Nodup) (hb : b + n ≤ 1024) (l : Lanes) {i j : Nat} (hi : i ∈ ls) (hj : j < n) :
    (l.mapTo cx ls d n f).regs.get 0 (rkey i (b + j)) = byteOf (f i) j := by
  induction ls generalizing l with
  | nil => cases hi
  | cons x ls ih =>
    obtain ⟨hx, hls⟩ := List.nodup_cons.1 hls
    rw [mapTo_cons hd]
    rcases List.mem_cons.1 hi with rfl | hi
    · rw [get_mapTo_ne hd f ls _ fun y hy k hk h => ?_, get_put_regs _ _ _ _ _ hj]
      exact hx ((rkey_inj (by omega) (by omega) h).1 ▸ hy)
    · exact ih hls _ hi

end

/-! ## The end of a word (R54, R55, R153, R156) -/

theorem chargeStall_frame (s : State) (l : Lanes) (ws : List Nat) :
    (s.chargeStall l ws).cur = s.cur ∧ (s.chargeStall l ws).roles = s.roles ∧
    (s.chargeStall l ws).butTeams =
      { s.butTeams with free := (s.chargeStall l ws).free, cores := (s.chargeStall l ws).cores } := by
  unfold State.chargeStall
  split
  · dsimp only
    split
    · exact ⟨rfl, rfl, rfl⟩
    · exact ⟨rfl, rfl, rfl⟩
  · exact ⟨rfl, rfl, rfl⟩

theorem laneFinish_lane {s : State} {rk : Nat} (h : s.cur = .lane rk) (c : LaneCtl) (cx : LaneCx) (l : Lanes)
    (srcs : Sources) (out : Lanes) :
    let paid := s.chargeStall l (srcs.reads cx)
    s.laneFinish c cx l srcs ⟨out, 0⟩ = { paid with free := paid.free + 1 }.updRole rk
      fun r => r.laneDone c.sw (out.hold l cx c.hold srcs) paid.free := by
  intro paid
  have hcur : paid.cur = .lane rk := (chargeStall_frame s l _).1.trans h
  have hsat (t : State) : t.laneSat 0 = t := by
    unfold State.laneSat
    split
    · exact if_pos rfl
    · rfl
  rw [State.laneFinish, State.laneEnd, hsat]
  exact (show State.laneDone paid c.sw _ = _ by simp only [State.laneDone, hcur])

theorem Role.nextWord_fixed (r : Role) : r.nextWord.pc = r.pc ∧ r.nextWord.sregs = r.sregs ∧ r.nextWord.views = r.views ∧
    r.nextWord.engs = r.engs ∧ r.nextWord.flight = r.flight ∧ r.nextWord.lxOut = r.lxOut ∧
    r.nextWord.lanes.pend = r.lanes.pend ∧ r.nextWord.lpark = r.lpark := by
  unfold Role.nextWord
  split
  · exact ⟨rfl, rfl, rfl, rfl, rfl, rfl, rfl, rfl⟩
  · split
    · exact ⟨rfl, rfl, rfl, rfl, rfl, rfl, rfl, rfl⟩
    · split <;> exact ⟨rfl, rfl, rfl, rfl, rfl, rfl, rfl, rfl⟩

theorem Role.nextWord_inside {r : Role} {b : Block} {rest : List Block} (hb : r.blocks = b :: rest)
    (h : r.lanePc + 1 < b.len) : r.nextWord.lanePc = r.lanePc + 1 ∧ r.nextWord.blocks = b :: rest ∧
      r.nextWord.lanes = r.lanes := by
  unfold Role.nextWord
  simp only [hb, h, if_true]
  exact ⟨trivial, trivial, trivial⟩

theorem Role.nextWord_last {r : Role} {b : Block} {rest : List Block} (hb : r.blocks = b :: rest)
    (h : b.len ≤ r.lanePc + 1) : r.nextWord.lanePc = 0 ∧ r.nextWord.blocks = rest ∧
      r.nextWord.lanes.latches = [none, none, none] := by
  unfold Role.nextWord
  rw [hb]
  dsimp only
  rw [if_neg (not_lt.2 h)]
  cases rest <;> exact ⟨rfl, rfl, rfl⟩

theorem Role.nextWord_latches {r : Role} (h : r.lanes.latches = [none, none, none]) :
    r.nextWord.lanes.latches = [none, none, none] := by
  unfold Role.nextWord
  split
  · exact h
  · split
    · exact h
    · split <;> rfl

theorem Role.atMarker_fixed (r : Role) (free : Nat) : (r.atMarker free).pc = r.pc ∧ (r.atMarker free).sregs = r.sregs ∧
    (r.atMarker free).views = r.views ∧ (r.atMarker free).engs = r.engs ∧ (r.atMarker free).flight = r.flight ∧
    (r.atMarker free).lanePc = r.lanePc ∧ (r.atMarker free).blocks = r.blocks ∧
    (r.atMarker free).lanes.latches = r.lanes.latches := by
  unfold Role.atMarker
  split <;> exact ⟨rfl, rfl, rfl, rfl, rfl, rfl, rfl, rfl⟩

theorem Role.atMarker_lpark (r : Role) (free : Nat) :
    (r.atMarker free).lpark = if r.outstanding then .marker else .none := by
  unfold Role.atMarker
  split <;> rfl

theorem Role.outstanding_iff (r : Role) :
    r.outstanding = true ↔ r.lanes.pend ≠ [] ∨ r.flight ≠ [] ∨ r.lxOut ≠ 0 := by
  simp [Role.outstanding, or_assoc]

/-- The role after a lane word: its next word, at a switch marker as the marker leaves it. -/
theorem Role.laneDone_fixed (r : Role) (sw : Bool) (l : Lanes) (free : Nat) :
    let q := r.laneDone sw l free
    q.pc = r.pc ∧ q.sregs = r.sregs ∧ q.views = r.views ∧ q.engs = r.engs ∧ q.flight = r.flight := by
  obtain ⟨hpc, hregs, hviews, hengs, hflight, -⟩ := Role.nextWord_fixed { r with lanes := l.endWord sw, lpark := .none }
  cases sw with
  | false => exact ⟨hpc, hregs, hviews, hengs, hflight⟩
  | true =>
    obtain ⟨hpc', hregs', hviews', hengs', hflight', -⟩ :=
      Role.atMarker_fixed { r with lanes := l.endWord true, lpark := .none }.nextWord free
    exact ⟨hpc'.trans hpc, hregs'.trans hregs, hviews'.trans hviews, hengs'.trans hengs, hflight'.trans hflight⟩

section
variable {r : Role} {b : Block} {rest : List Block} (hb : r.blocks = b :: rest) (sw : Bool) (l : Lanes) (free : Nat)
include hb

theorem Role.laneDone_inside (h : r.lanePc + 1 < b.len) :
    let q := r.laneDone sw l free
    q.lanePc = r.lanePc + 1 ∧ q.blocks = b :: rest ∧
      (sw = false → q.lanes = { l with latches := l.latches.map ageLatch } ∧ q.lpark = .none) := by
  obtain ⟨hpc, hblocks, hlanes⟩ := Role.nextWord_inside (r := { r with lanes := l.endWord sw, lpark := .none }) hb h
  obtain ⟨-, -, -, -, -, -, -, hpark⟩ := Role.nextWord_fixed { r with lanes := l.endWord sw, lpark := .none }
  cases sw with
  | false => exact ⟨hpc, hblocks, fun _ => ⟨hlanes, hpark⟩⟩
  | true =>
    obtain ⟨-, -, -, -, -, hpc', hblocks', -⟩ :=
      Role.atMarker_fixed { r with lanes := l.endWord true, lpark := .none }.nextWord free
    exact ⟨hpc'.trans hpc, hblocks'.trans hblocks, fun h => nomatch h⟩

theorem Role.laneDone_last (h : b.len ≤ r.lanePc + 1) :
    let q := r.laneDone sw l free
    q.lanePc = 0 ∧ q.blocks = rest ∧ q.lanes.latches = [none, none, none] := by
  obtain ⟨hpc, hblocks, hlatch⟩ := Role.nextWord_last (r := { r with lanes := l.endWord sw, lpark := .none }) hb h
  cases sw with
  | false => exact ⟨hpc, hblocks, hlatch⟩
  | true =>
    obtain ⟨-, -, -, -, -, hpc', hblocks', hlatch'⟩ :=
      Role.atMarker_fixed { r with lanes := l.endWord true, lpark := .none }.nextWord free
    exact ⟨hpc'.trans hpc, hblocks'.trans hblocks, hlatch'.trans hlatch⟩

end

theorem Role.laneDone_marker (r : Role) (l : Lanes) (free : Nat) :
    let q := r.laneDone true l free
    q.lanes.latches = [none, none, none] ∧ q.lpark = if l.pend ≠ [] ∨ r.flight ≠ [] ∨ r.lxOut ≠ 0 then .marker else .none := by
  have hlatch := Role.nextWord_latches (r := { r with lanes := l.endWord true, lpark := .none }) rfl
  obtain ⟨-, -, -, -, hflight, hlx, hpend, -⟩ := Role.nextWord_fixed { r with lanes := l.endWord true, lpark := .none }
  obtain ⟨-, -, -, -, -, -, -, hlatch'⟩ :=
    Role.atMarker_fixed { r with lanes := l.endWord true, lpark := .none }.nextWord free
  refine ⟨hlatch'.trans hlatch, ?_⟩
  refine (Role.atMarker_lpark _ free).trans ?_
  simp only [Role.outstanding_iff, hflight, hlx, hpend]
  rfl

/-- What the end of a lane word of a role leaves of the state. -/
theorem laneFinish_frame {s : State} {rk : Nat} (hcur : s.cur = .lane rk) (c : LaneCtl) (cx : LaneCx) (l : Lanes)
    (srcs : Sources) (out : Lanes) :
    let t := s.laneFinish c cx l srcs ⟨out, 0⟩
    let paid := s.chargeStall l (srcs.reads cx)
    t.butRoles = { paid.butRoles with free := paid.free + 1 } ∧
    t.role rk = (s.role rk).laneDone c.sw (out.hold l cx c.hold srcs) paid.free ∧ ∀ k, k ≠ rk → t.role k = s.role k := by
  intro t paid
  have hroles : paid.roles = s.roles := (chargeStall_frame s l (srcs.reads cx)).2.1
  have ht : t = { paid with free := paid.free + 1 }.updRole rk
    fun r => r.laneDone c.sw (out.hold l cx c.hold srcs) paid.free := laneFinish_lane hcur c cx l srcs out
  have hrole (k : Nat) : { paid with free := paid.free + 1 }.role k = s.role k := by
    rw [State.role, State.role, ← hroles]
  refine ⟨?_, ?_, fun k hk => ?_⟩
  · rw [ht]
    rfl
  · rw [ht, State.role_updRole_self, hrole]
  · rw [ht, State.role_updRole_ne _ _ hk, hrole]

/-! ## Faults (R50, R56, R58, R61, R97, R335, R337) -/

/-- A word that runs in the frame of a word that reads its sources only, with its destinations of whole words. -/
def IsLaneWord (s : State) (c : LaneCtl) (f : Instr × Sources × List (Opnd × Nat)) : Prop :=
  (∃ k, exec f.1 s = laneFrame s c f.2.1 f.2.2 k) ∧ ∀ e ∈ f.2.2, 4 ≤ e.2

section
variable {s : State} {rk : Nat} {c : LaneCtl} {f : Instr × Sources × List (Opnd × Nat)} {cx : LaneCx} {l : Lanes}

theorem exec_absent (hf : IsLaneWord s c f) (hnow : s.laneNow = some (cx, l))
    (h : wordPresent cx l c.hold f.2.1 f.2.2 = false) : exec f.1 s = .next (s.laneFault .illegal) := by
  obtain ⟨⟨k, hk⟩, -⟩ := hf
  simp only [hk, laneFrame, laneFrameR, hnow, h, Bool.false_eq_true, if_false]

theorem exec_present (hf : IsLaneWord s c f) (hnow : s.laneNow = some (cx, l))
    (h : wordPresent cx l c.hold f.2.1 f.2.2 = true) : ∃ r, exec f.1 s = withParity s cx l c f.2.1 [] r := by
  obtain ⟨⟨k, hk⟩, hw⟩ := hf
  have hsub : (f.2.2.filter fun e => decide (e.2 < 4)) = [] :=
    List.filter_eq_nil_iff.2 fun e he => by simpa using hw e he
  exact ⟨k cx l, by simp only [hk, laneFrame, laneFrameR, hnow, h, if_true, hsub, List.append_nil]⟩

theorem withParity_spoilt {srcs : Sources} (hcur : s.cur = .lane rk) (hl : l.clean = false)
    (h : (srcs.a.spoilt l || srcs.b.spoilt l || srcs.x.spoilt l) = true) (r : Res) :
    withParity s cx l c srcs [] r = .next (s.precise rk (s.machineCheck rk true 5 0 0 (laneBits (l.actives c)))) := by
  have hany : ([srcs.a, srcs.b, srcs.x].any fun x => x.spoilt l) = true := by
    simpa [Bool.or_assoc] using h
  simp only [withParity, hcur, hl, hany, Bool.false_eq_true, if_false, if_true, Lanes.actives]

theorem withParity_fails {srcs : Sources} (hcur : s.cur = .lane rk) (hl : l.clean = false)
    (h : (srcs.a.spoilt l || srcs.b.spoilt l || srcs.x.spoilt l) = false) (hp : parityFails cx l c srcs [] = true) (r : Res) :
    withParity s cx l c srcs [] r = .next (s.precise rk (s.parityCheck rk (badLanes cx l c srcs []))) := by
  have hany : ([srcs.a, srcs.b, srcs.x].any fun x => x.spoilt l) = false := by
    simpa [Bool.or_assoc] using h
  simp only [withParity, hcur, hl, hany, hp, Bool.false_eq_true, if_false, if_true]

end

theorem isLaneWord_into {s : State} {c : LaneCtl} {srcs : Sources} {dsts : List (Opnd × Nat)} {js : List Instr}
    (hd : ∀ e ∈ dsts, 4 ≤ e.2) (h : ∀ j ∈ js, ∃ k, exec j s = laneFrame s c srcs dsts k) :
    ∀ f ∈ js.map fun j => (j, srcs, dsts), IsLaneWord s c f := by
  intro f hf
  obtain ⟨j, hj, rfl⟩ := List.mem_map.1 hf
  exact ⟨h j hj, hd⟩

/-- The lane words of one result run in that frame. -/
theorem laneForms_laneWord (s : State) (c : LaneCtl) (t : ITy) (sat w64 hi role : Bool) (m : FMode) (ft : FTy) (q : ICond)
    (fc : FCond) (kd ka kb : BitVec 4) (e : Fin 3) (sf df : Fmt) (rnd : Rnd) (es : BitVec 3) (ps : BitVec 2) (vm : VoteMode)
    (sm : ShflMode) (d a b x : Opnd) (i : W32) :
    ∀ f ∈ laneForms c t sat w64 hi role m ft q fc kd ka kb e sf df rnd es ps vm sm d a b x i, IsLaneWord s c f := by
  have hw (w : OpW) : ∀ y ∈ [(d, w.bytes)], 4 ≤ y.2 := by cases w <;> simp [OpW.bytes]
  have h4 : ∀ y ∈ [(d, 4)], 4 ≤ y.2 := by simp
  have h8 : ∀ y ∈ [(d, 8)], 4 ≤ y.2 := by simp
  have hnone : ∀ y ∈ ([] : List (Opnd × Nat)), 4 ≤ y.2 := by simp
  have hconv : ∀ y ∈ [(d, if df.is64 then 8 else 4)], 4 ≤ y.2 := by cases df.is64 <;> simp
  have hext : ∀ y ∈ [(d, match e.val with | 0 => 4 | _ => 8)], 4 ≤ y.2 := by
    simp only [List.mem_singleton, forall_eq]
    split <;> decide
  have hvabs : ∃ k, exec (.vabs c w64 sat d a) s =
      laneFrame s c ⟨.op a (bitsW w64), .none, .none⟩ [(d, (bitsW w64).bytes)] k := by
    cases w64 <;> exact ⟨_, rfl⟩
  have hvmovi : ∃ k, exec (.vmovi c e d i) s =
      laneFrame s c ⟨.none, .none, .none⟩ [(d, match e.val with | 0 => 4 | _ => 8)] k := by
    obtain ⟨_ | _ | _ | n, he⟩ := e
    · exact ⟨_, rfl⟩
    · exact ⟨_, rfl⟩
    · exact ⟨_, rfl⟩
    · omega
  unfold laneForms
  simp only [List.forall_mem_append, and_assoc]
  refine ⟨?_, ?_, ?_, ?_, ?_, ?_, ?_, ?_, ?_, ?_, ?_, ?_, ?_, ?_, ?_, ?_, ?_, ?_, ?_, ?_, ?_⟩
  · refine isLaneWord_into (hw _) ?_
    simp only [List.forall_mem_cons, List.not_mem_nil, false_implies, implies_true, and_true]
    exact ⟨⟨_, rfl⟩, ⟨_, rfl⟩, ⟨_, rfl⟩, ⟨_, rfl⟩, ⟨_, rfl⟩, ⟨_, rfl⟩⟩
  · refine isLaneWord_into (hw _) ?_
    simp only [List.forall_mem_cons, List.not_mem_nil, false_implies, implies_true, and_true]
    exact ⟨⟨_, rfl⟩, ⟨_, rfl⟩, ⟨_, rfl⟩, ⟨_, rfl⟩, ⟨_, rfl⟩⟩
  · refine isLaneWord_into (hw _) ?_
    simp only [List.forall_mem_cons, List.not_mem_nil, false_implies, implies_true, and_true]
    exact ⟨_, rfl⟩
  · refine isLaneWord_into (hw _) ?_
    simp only [List.forall_mem_cons, List.not_mem_nil, false_implies, implies_true, and_true]
    exact ⟨⟨_, rfl⟩, ⟨_, rfl⟩, ⟨_, rfl⟩, ⟨_, rfl⟩, ⟨_, rfl⟩, ⟨_, rfl⟩, ⟨_, rfl⟩, ⟨_, rfl⟩, ⟨_, rfl⟩, ⟨_, rfl⟩⟩
  · refine isLaneWord_into (hw _) ?_
    simp only [List.forall_mem_cons, List.not_mem_nil, false_implies, implies_true, and_true]
    exact ⟨⟨_, rfl⟩, ⟨_, rfl⟩, ⟨_, rfl⟩, ⟨_, rfl⟩⟩
  · refine isLaneWord_into (hw _) ?_
    simp only [List.forall_mem_cons, List.not_mem_nil, false_implies, implies_true, and_true]
    exact ⟨hvabs, ⟨_, rfl⟩, ⟨_, rfl⟩, ⟨_, rfl⟩, ⟨_, rfl⟩⟩
  · refine isLaneWord_into hext ?_
    simp only [List.forall_mem_cons, List.not_mem_nil, false_implies, implies_true, and_true]
    exact hvmovi
  · refine isLaneWord_into hnone ?_
    simp only [List.forall_mem_cons, List.not_mem_nil, false_implies, implies_true, and_true]
    exact ⟨_, rfl⟩
  · refine isLaneWord_into hnone ?_
    simp only [List.forall_mem_cons, List.not_mem_nil, false_implies, implies_true, and_true]
    exact ⟨_, rfl⟩
  · refine isLaneWord_into hnone ?_
    simp only [List.forall_mem_cons, List.not_mem_nil, false_implies, implies_true, and_true]
    exact ⟨_, rfl⟩
  · refine isLaneWord_into hnone ?_
    simp only [List.forall_mem_cons, List.not_mem_nil, false_implies, implies_true, and_true]
    exact ⟨_, rfl⟩
  · refine isLaneWord_into hnone ?_
    simp only [List.forall_mem_cons, List.not_mem_nil, false_implies, implies_true, and_true]
    exact ⟨_, rfl⟩
  · refine isLaneWord_into hnone ?_
    simp only [List.forall_mem_cons, List.not_mem_nil, false_implies, implies_true, and_true]
    exact ⟨⟨_, rfl⟩, ⟨_, rfl⟩, ⟨_, rfl⟩, ⟨_, rfl⟩⟩
  · refine isLaneWord_into h4 ?_
    simp only [List.forall_mem_cons, List.not_mem_nil, false_implies, implies_true, and_true]
    exact ⟨⟨_, rfl⟩, ⟨_, rfl⟩, ⟨_, rfl⟩, ⟨_, rfl⟩, ⟨_, rfl⟩⟩
  · refine isLaneWord_into h4 ?_
    simp only [List.forall_mem_cons, List.not_mem_nil, false_implies, implies_true, and_true]
    exact ⟨⟨_, rfl⟩, ⟨_, rfl⟩, ⟨_, rfl⟩, ⟨_, rfl⟩, ⟨_, rfl⟩⟩
  · refine isLaneWord_into h4 ?_
    simp only [List.forall_mem_cons, List.not_mem_nil, false_implies, implies_true, and_true]
    exact ⟨_, rfl⟩
  · refine isLaneWord_into h4 ?_
    simp only [List.forall_mem_cons, List.not_mem_nil, false_implies, implies_true, and_true]
    exact ⟨⟨_, rfl⟩, ⟨_, rfl⟩, ⟨_, rfl⟩, ⟨_, rfl⟩, ⟨_, rfl⟩, ⟨_, rfl⟩, ⟨_, rfl⟩⟩
  · refine isLaneWord_into hconv ?_
    simp only [List.forall_mem_cons, List.not_mem_nil, false_implies, implies_true, and_true]
    exact ⟨_, rfl⟩
  · refine isLaneWord_into h8 ?_
    simp only [List.forall_mem_cons, List.not_mem_nil, false_implies, implies_true, and_true]
    exact ⟨_, rfl⟩
  · refine isLaneWord_into h4 ?_
    simp only [List.forall_mem_cons, List.not_mem_nil, false_implies, implies_true, and_true]
    exact ⟨_, rfl⟩
  · refine isLaneWord_into (hw _) ?_
    simp only [List.forall_mem_cons, List.not_mem_nil, false_implies, implies_true, and_true]
    exact ⟨_, rfl⟩

/-- Settles O28: destinations lane by lane, the end of a word through `Role.laneDone`, and the faults of the frame that all
these words share. -/
theorem laneWordFrame : Obligations.LaneWordFrame := by
  refine ⟨fun l cx ls d n b f hls hd hb => ?dest, fun s rk c cx l srcs out b rest hcur hblocks => ?done,
    fun s rk c t sat w64 hi role m ft q fc kd ka kb e sf df rnd es ps vm sm d a b x n cx l hnow f hf => ?fault⟩
  case dest =>
    have hstill := Lanes.mapTo_still l cx ls d n f
    simp only [Lanes.still, Prod.mk.injEq] at hstill
    obtain ⟨hpreds, hbase, he, hstack, hrng, hlatches, hgroups, hbudget, hpend⟩ := hstill
    exact ⟨fun i hi j hj => get_mapTo hd f hls hb l hi hj, fun k hk => get_mapTo_ne hd f ls l hk, hpreds, hbase, he, hstack,
      hrng, hlatches, hgroups, hbudget, hpend⟩
  case done =>
    intro t r o paid
    obtain ⟨hbut, hrole, hother⟩ := laneFinish_frame hcur c cx l srcs out
    have hr : r = (s.role rk).laneDone c.sw o paid.free := hrole
    obtain ⟨hpc, hregs, hviews, hengs, hflight⟩ := Role.laneDone_fixed (s.role rk) c.sw o paid.free
    refine ⟨hbut, (chargeStall_frame s l (srcs.reads cx)).2.2, hother, ?_⟩
    rw [hr]
    refine ⟨hpc, hregs, hviews, hengs, hflight, Role.laneDone_inside hblocks c.sw o paid.free,
      Role.laneDone_last hblocks c.sw o paid.free, fun hsw => ?_⟩
    obtain ⟨hlatch, hpark⟩ := Role.laneDone_marker (s.role rk) o paid.free
    rw [hsw, hpark]
    exact ⟨hlatch, fun h => if_pos h, fun h1 h2 h3 => if_neg (by simp [h1, h2, h3])⟩
  case fault =>
    intro srcs spoilt
    have hword := laneForms_laneWord s c t sat w64 hi role m ft q fc kd ka kb e sf df rnd es ps vm sm d a b x n f hf
    refine ⟨fun habs => ⟨fun hcur => ?_, fun key hcur => ?_⟩, fun hcur hpres hl => ?_⟩
    · rw [exec_absent hword hnow habs, State.laneFault_lane hcur]
    · simp only [exec_absent hword hnow habs, State.laneFault, hcur]
    · obtain ⟨r, hr⟩ := exec_present hword hnow hpres
      rw [hr]
      exact ⟨fun h => withParity_spoilt hcur hl h r, fun h hp => withParity_fails hcur hl h hp r⟩

end Sys2Proof.Machine
end

section
/-! PROOFS. Lane memory words: their issue and the faults found at issue (R96, R130 to R139, R220, R251). -/

namespace Sys2Proof.Machine
open Sys2Proof

/-! ## Address classes (R133, R138, R306) -/

/-- The accesses of a class. -/
def State.ofClass (s : State) (rk : Nat) (w : MemWord) (as : List LaneAcc) (k : Nat) : List LaneAcc :=
  as.filter fun a => s.laneClass rk w a.ea == k

theorem contains_class_iff (s : State) (rk : Nat) (w : MemWord) (as : List LaneAcc) (k : Nat) :
    (as.map fun a => s.laneClass rk w a.ea).contains k = true ↔ s.ofClass rk w as k ≠ [] := by
  rw [List.contains_iff_mem, List.mem_map, State.ofClass, Ne, List.filter_eq_nil_iff]
  simp

section
variable {s : State} {rk : Nat} {w : MemWord} {as : List LaneAcc}

theorem worstClass_one (h : s.ofClass rk w as 1 ≠ []) : worstClass (as.map fun a => s.laneClass rk w a.ea) = 1 :=
  if_pos ((contains_class_iff ..).2 h)

theorem worstClass_two (h1 : s.ofClass rk w as 1 = []) (h : s.ofClass rk w as 2 ≠ []) :
    worstClass (as.map fun a => s.laneClass rk w a.ea) = 2 := by
  rw [worstClass, if_neg fun hc => (contains_class_iff ..).1 hc h1, if_pos ((contains_class_iff ..).2 h)]

theorem worstClass_three (h1 : s.ofClass rk w as 1 = []) (h2 : s.ofClass rk w as 2 = []) (h : s.ofClass rk w as 3 ≠ []) :
    worstClass (as.map fun a => s.laneClass rk w a.ea) = 3 := by
  rw [worstClass, if_neg fun hc => (contains_class_iff ..).1 hc h1, if_neg fun hc => (contains_class_iff ..).1 hc h2,
    if_pos ((contains_class_iff ..).2 h)]

theorem worstClass_zero (h1 : s.ofClass rk w as 1 = []) (h2 : s.ofClass rk w as 2 = []) (h3 : s.ofClass rk w as 3 = []) :
    worstClass (as.map fun a => s.laneClass rk w a.ea) = 0 := by
  rw [worstClass, if_neg fun hc => (contains_class_iff ..).1 hc h1, if_neg fun hc => (contains_class_iff ..).1 hc h2,
    if_neg fun hc => (contains_class_iff ..).1 hc h3]

theorem ofClass_of_legal (h : ∀ a ∈ as, s.laneClass rk w a.ea = 0) {k : Nat} (hk : k ≠ 0) : s.ofClass rk w as k = [] :=
  List.filter_eq_nil_iff.2 fun a ha => by simp [h a ha, hk.symm]

end

/-! ## The frame of a lane memory word -/

section
variable {s : State} {rk : Nat} {c : LaneCtl} {i : Instr} {w : MemWord} {data : Opnd} {cx : LaneCx} {l : Lanes}

theorem memOp_logFull (hcur : s.cur = .lane rk) (h : s.logFull rk = true) :
    memOp s i w c data = .next (s.updRole rk fun r => { r with lpark := .oplog }) := by
  simp only [memOp, hcur, h, if_true]

theorem memOp_operand (hcur : s.cur = .lane rk) (hroom : s.logFull rk = false) (hnow : s.laneNow = some (cx, l))
    (h : dataOk w data cx l = false) : memOp s i w c data = .next (s.precise rk (s.raiseL rk .illegal)) := by
  simp only [memOp, hcur, hroom, hnow, Option.any_some, h, Bool.false_eq_true, if_false, State.laneFault_lane hcur]

theorem memOp_ready (hcur : s.cur = .lane rk) (hroom : s.logFull rk = false) (hr : LaneReady s c (memSources w data) [] cx l)
    (h : dataOk w data cx l = true) : memOp s i w c data = s.memIssue rk i w data c cx l := by
  simp only [memOp, hcur, hroom, hr.now, Option.any_some, h, Bool.false_eq_true, if_false, if_true]
  exact laneFrameR_ready hr _ _

/-! ## The checks at issue (R133, R137, R138, R251) -/

theorem memIssue_opformat (hcur : s.cur = .lane rk) (h : s.wbStoreCheck rk w = .opformat) :
    s.memIssue rk i w data c cx l = .next (s.precise rk (s.raiseL rk .opformat)) := by
  simp only [State.memIssue, h, State.laneFault_lane hcur]

theorem memIssue_txillegal (hcur : s.cur = .lane rk) (h : s.wbStoreCheck rk w = .ok) (htx : s.txForbids rk w = true) :
    s.memIssue rk i w data c cx l = .next (s.precise rk (s.raiseL rk .txillegal)) := by
  simp only [State.memIssue, h, htx, if_true, State.laneFault_lane hcur]

theorem memIssue_class (h : s.wbStoreCheck rk w = .ok) (htx : s.txForbids rk w = false) {k : Nat}
    (hk : worstClass ((laneAccs w data c cx l).map fun a => s.laneClass rk w a.ea) = k) (h0 : k ≠ 0) :
    s.memIssue rk i w data c cx l = .next (s.laneAddrFault rk w (laneAccs w data c cx l) k) := by
  simp only [State.memIssue, h, htx, hk, h0, Bool.false_eq_true, if_false, ne_eq, not_false_eq_true, if_true]

theorem memIssue_txcap (hcur : s.cur = .lane rk) (h : s.wbStoreCheck rk w = .ok) (htx : s.txForbids rk w = false)
    (hk : worstClass ((laneAccs w data c cx l).map fun a => s.laneClass rk w a.ea) = 0) (hin : s.inTx (teamOf rk) = true)
    (hn : (laneAccs w data c cx l).length * s.laneEntries rk w ≠ 0)
    (hroom : s.logRoom (teamOf rk) ((laneAccs w data c cx l).length * s.laneEntries rk w) = false) :
    s.memIssue rk i w data c cx l = .next (s.precise rk (s.raiseL rk .txcap)) := by
  have hn' : ((laneAccs w data c cx l).length * s.laneEntries rk w != 0) = true := bne_iff_ne.2 hn
  simp only [State.memIssue, h, htx, hk, hin, hroom, hn', Bool.false_eq_true, if_false, ne_eq, not_true_eq_false, Bool.not_false,
    Bool.and_self, if_true, State.laneFault_lane hcur]

theorem memIssue_ready (hr : MemReady s rk w c data cx l) :
    s.memIssue rk i w data c cx l = .next (s.issueMem rk i w data c cx l (memSources w data) (laneAccs w data c cx l)) := by
  obtain ⟨-, -, -, -, htag, htx, hlegal, hlog, hlost⟩ := hr
  have hk : worstClass ((laneAccs w data c cx l).map fun a => s.laneClass rk w a.ea) = 0 :=
    worstClass_zero (ofClass_of_legal hlegal (by decide)) (ofClass_of_legal hlegal (by decide))
      (ofClass_of_legal hlegal (by decide))
  have hcap : (!s.logRoom (teamOf rk) ((laneAccs w data c cx l).length * s.laneEntries rk w) && s.inTx (teamOf rk)) = false := by
    rcases hlog with h | h
    · rw [h, Bool.and_false]
    · rw [h, Bool.not_true, Bool.false_and]
  simp only [State.memIssue, htag, htx, hk, hcap, Bool.false_and, Bool.false_eq_true, if_false, ne_eq, not_true_eq_false]
  split
  · next sub va pa ls hf ht => exact absurd ht (hlost hf sub va pa ls)
  · rfl

end

/-- The lane memory words run in that frame. -/
theorem exec_memForms (s : State) (c : LaneCtl) (m : LMem) (sx red : Bool) (wb : Option (BitVec 3)) (op : AOp) (sc : Fin 7)
    (data : Opnd) : ∀ f ∈ memForms c m sx red wb op sc data, exec f.1 s = memOp s f.1 f.2 c data := by
  simp only [memForms, List.forall_mem_cons, List.not_mem_nil, false_implies, implies_true, and_true]
  exact ⟨rfl, rfl, rfl, rfl, rfl⟩

/-- Settles O29: the checks of `memIssue` in their order, and the issue once they have passed. -/
theorem laneMemoryWords : Obligations.LaneMemoryWords := by
  intro s rk c m data sx red l2 wb op sc cx l hcur tk pref eas n
  refine ⟨fun hr => ?_, fun f hf => ?_⟩
  · have harm : exec (.vpref c m l2) s = execVpref c m l2 s := rfl
    rw [harm]
    unfold execVpref
    simp only [hcur]
    exact laneFrame_ready hr _
  · intro w as count bad stops faults
    have hexec : exec f.1 s = memOp s f.1 w c data := exec_memForms s c m sx red wb op sc data f hf
    refine ⟨fun hr => ?_, fun hfull => ?_, fun hroom hnow hdata => ?_, fun hroom hr hdata => ⟨fun hwb => ?_, fun hwb htx => ?_,
      fun hwb htx => ⟨fun h1 => ?_, fun h1 h2 => ?_, fun h1 h2 h3 => ?_, fun h1 h2 h3 hin hn hcap => ?_⟩⟩⟩
    · rw [hexec, memOp_ready hr.cur hr.room hr.ready hr.operand, memIssue_ready hr]
    · exact hexec.trans (memOp_logFull hcur hfull)
    · exact hexec.trans (memOp_operand hcur hroom hnow hdata)
    all_goals refine (hexec.trans (memOp_ready hcur hroom hr hdata)).trans ?_
    · exact memIssue_opformat hcur hwb
    · exact memIssue_txillegal hcur hwb htx
    · exact memIssue_class hwb htx (worstClass_one h1) (by decide)
    · exact memIssue_class hwb htx (worstClass_two h1 h2) (by decide)
    · exact memIssue_class hwb htx (worstClass_three h1 h2 h3) (by decide)
    · exact memIssue_txcap hcur hwb htx (worstClass_zero h1 h2 h3) hin hn hcap

end Sys2Proof.Machine
end

section
/-! PROOFS. The accesses of lane memory words, one by one (R131, R135 to R138, R249, R250). -/

namespace Sys2Proof.Machine
open Sys2Proof

/- Elaborated side by side, these proofs wait for one another's equation lemmas, each with a stack of its own. -/
set_option Elab.async false

/-! ## Waiting (R135, R136, R328) -/

section
variable {s : State} {rk : Nat} {w : MemWord} {a : LaneAcc}

theorem laneWaits_global (h : w.m.scratch = false) : s.laneWaits rk w a = false := by
  rw [State.laneWaits, h, Bool.false_and, Bool.false_and]

theorem laneWaits_of_not_waits (h : ¬(w.m.scratch = true ∧ (w.m.fe = .waitFull ∨ w.m.fe = .waitClear))) :
    s.laneWaits rk w a = false := by
  have hfe : (w.m.scratch && (w.m.fe == .waitFull || w.m.fe == .waitClear)) = false := by
    rw [Bool.eq_false_iff]
    simpa using h
  rw [State.laneWaits, hfe, Bool.false_and]

theorem laneWaits_of_waits (h : w.m.scratch = true ∧ (w.m.fe = .waitFull ∨ w.m.fe = .waitClear)) :
    s.laneWaits rk w a = !(granulesOf (a.ea - a.off) (mwBytes w.m.width)).all (s.fullAt (teamOf rk)) := by
  have hfe : (w.m.scratch && (w.m.fe == .waitFull || w.m.fe == .waitClear)) = true := by simpa using h
  rw [State.laneWaits, hfe, Bool.true_and]
  rfl

theorem laneHeld_of_no_write (h : w.kind.writes = false ∨ w.m.scratch = true) : s.laneHeld rk w a = false := by
  have hoff : (w.kind.writes && !w.m.scratch) = false := by
    rcases h with h | h <;> simp [h]
  rw [State.laneHeld, hoff, Bool.false_and, Bool.false_and]

theorem performLanes_free (hw : ∀ t b, State.laneWaits t rk w b = false) (hh : ∀ t b, State.laneHeld t rk w b = false)
    (e : LogEntry) (as : List LaneAcc) (s : State) :
    performLanes rk w e as s = (as.foldl (fun t b => (t.laneAccess rk w e b).unreserve rk w b) s, []) := by
  induction as generalizing s with
  | nil => rfl
  | cons a as ih =>
    rw [performLanes, hw, hh, Bool.or_self, if_neg Bool.false_ne_true, ih, List.foldl_cons]

theorem unreserve_same (h : a.off ≠ 0 ∨ s.inTx (teamOf rk) = false) : s.unreserve rk w a = s := by
  have hn : (if a.off = 0 then s.laneEntries rk w else 0) = 0 := by
    rcases h with h | h
    · exact if_neg h
    · simp only [State.laneEntries, h, Bool.false_eq_true, if_false, ite_self]
  simp only [State.unreserve, hn, if_true]

/-! ## The accesses that an access is made of (R135, R136, R251) -/

theorem pieces_one (h : (w.m.fe = .setFull ∨ w.m.fe = .waitClear) ∨ s.logsAccess rk w = true) : s.pieces rk w a = [a] := by
  refine if_pos ?_
  rcases h with (h | h) | h
  · exact .inl (by simp [h])
  · exact .inl (by simp [h])
  · exact .inr h

theorem pieces_split (hfe : w.m.fe = .ignore ∨ w.m.fe = .waitFull) (hlog : s.logsAccess rk w = false) :
    s.pieces rk w a = if a.ea % mwBytes w.m.width ≠ 0 then
        (List.range (mwBytes w.m.width)).map fun j => ⟨a.lane, a.ea + j, a.data / 2 ^ (8 * j), j, 1, none⟩
      else if mwBytes w.m.width = 16 then
        [⟨a.lane, a.ea, a.data, 0, 8, none⟩, ⟨a.lane, a.ea + 8, a.data / 2 ^ 64, 8, 8, none⟩]
      else [a] := by
  have hone : ¬((w.m.fe ≠ .ignore ∧ w.m.fe ≠ .waitFull) ∨ s.logsAccess rk w = true) := by
    rw [hlog]
    rcases hfe with h | h <;> simp [h]
  simp only [State.pieces]
  rw [if_neg hone]
  simp only [Nat.mul_zero, Nat.pow_zero, Nat.div_one, Nat.add_zero]

/-! ## What one access does (R131, R137, R138, R249, R250) -/

theorem laneXlat_of_laneAt {x : Xlat} (h : LaneAt s rk w a x) : s.laneXlat rk w a = .ok x := by
  rcases h with ⟨hat, hx⟩ | ⟨hat, hx⟩
  · rw [State.laneXlat, hat, hx]
  · have hnone : x.pas.find? s.lostPa = none := List.find?_eq_none.2 fun pa hpa => by simp [hx pa hpa]
    simp only [State.laneXlat, hat, hnone]

theorem laneAccess_scratch (e : LogEntry) (h : w.m.scratch = true) : s.laneAccess rk w e a = s.laneScratch rk w e a :=
  if_pos h

theorem logsAccess_eq_false (h : s.inTx (teamOf rk) = false ∨ w.kind.writes = false) : s.logsAccess rk w = false := by
  rcases h with h | h <;> simp [State.logsAccess, h]

theorem laneAccess_global {x : Xlat} (e : LogEntry) (hs : w.m.scratch = false)
    (hlog : s.inTx (teamOf rk) = false ∨ w.kind.writes = false) (hx : LaneAt s rk w a x) :
    s.laneAccess rk w e a = s.laneGlobal rk w e a x := by
  simp only [State.laneAccess, hs, logsAccess_eq_false hlog, laneXlat_of_laneAt hx, Bool.false_eq_true, if_false]

theorem laneAccess_logged (e : LogEntry) (hs : w.m.scratch = false) (hin : s.inTx (teamOf rk) = true)
    (hw : w.kind.writes = true) : s.laneAccess rk w e a = s.laneLogged rk w a := by
  have hlog : s.logsAccess rk w = true := by simp [State.logsAccess, hs, hin, hw]
  simp only [State.laneAccess, hs, hlog, Bool.false_eq_true, if_false, if_true]

end

/-- The updates of a tagged store, element by element (R137). -/
theorem storeUpdates_some (s : State) (rk : Nat) (fs : BitVec 3) (n data : Nat) :
    s.storeUpdates rk (some fs) n data =
      let sl := slotOf ((s.launchOf rk).fslot fs.toNat)
      let u := fmtWidth sl.efmt
      (List.range (8 * n / u)).foldl (fun y i => y.wbFeed rk sl.wbidx sl.efmt (data / 2 ^ (u * i) % 2 ^ u)) s := by
  simp only [State.storeUpdates, State.wbFeedAll, storedElems, List.foldl_map, wordElem]

/-! ## The operations of VATOM (R138, R182) -/

theorem aopNew_eq {n : Nat} (op : AOp) (h : op ≠ .fadd) (old d cmp : Nat) :
    aopNew op n old d cmp = (atomFn (aopCode op) n old d cmp).1 := by
  cases op with
  | fadd => exact absurd rfl h
  | _ => rfl

theorem toInt_le_iff_not_slt {n : Nat} (x y : BitVec n) : x.toInt ≤ y.toInt ↔ ¬y.slt x = true := by
  rw [BitVec.slt_iff_toInt_lt]
  omega

theorem aopNew_min {n : Nat} (x y : BitVec n) (p : Nat) :
    aopNew .min n x.toNat y.toNat p = (if y.slt x then y else x).toNat := by
  simp only [aopNew_eq .min (by decide), aopCode, atomFn, toSigned_toNat, toInt_le_iff_not_slt]
  split <;> simp_all

theorem aopNew_max {n : Nat} (x y : BitVec n) (p : Nat) :
    aopNew .max n x.toNat y.toNat p = (if x.slt y then y else x).toNat := by
  simp only [aopNew_eq .max (by decide), aopCode, atomFn, toSigned_toNat]
  rcases lt_trichotomy x.toInt y.toInt with h | h | h
  · rw [if_pos h.le, if_pos (BitVec.slt_iff_toInt_lt.2 h)]
  · rw [if_pos h.le, BitVec.toInt_inj.1 h, ite_self]
  · rw [if_neg (by omega), if_neg fun hs => by rw [BitVec.slt_iff_toInt_lt] at hs; omega]

theorem aopNew_minn {n : Nat} (x y : BitVec n) (p : Nat) :
    aopNew .minn n x.toNat y.toNat p = (if y.ult x then y else x).toNat := by
  simp only [aopNew_eq .minn (by decide), aopCode, atomFn, BitVec.ult_iff_lt, BitVec.lt_def]
  rw [apply_ite BitVec.toNat]
  exact (Nat.min_comm ..).trans (by rw [Nat.min_def]; split <;> split <;> omega)

theorem aopNew_maxn {n : Nat} (x y : BitVec n) (p : Nat) :
    aopNew .maxn n x.toNat y.toNat p = (if x.ult y then y else x).toNat := by
  simp only [aopNew_eq .maxn (by decide), aopCode, atomFn, BitVec.ult_iff_lt, BitVec.lt_def]
  rw [apply_ite BitVec.toNat]
  exact (Nat.max_def ..).trans (by split <;> split <;> omega)

theorem aopNew_cas {n : Nat} (x y p : BitVec n) :
    aopNew .cas n x.toNat y.toNat p.toNat = (if x = p then y else x).toNat := by
  simp only [aopNew_eq .cas (by decide), aopCode, atomFn, BitVec.toNat_inj]
  rw [apply_ite BitVec.toNat]

/-- A value of one or two bytes extended to 32 bits (R131). -/
theorem extendLoad_signed {n v : Nat} (hn : n = 1 ∨ n = 2) (hv : v < 2 ^ (8 * n)) :
    extendLoad true n v = if v < 2 ^ (8 * n - 1) then v else v + 2 ^ 32 - 2 ^ (8 * n) := by
  have hm : 8 * n < 64 := by omega
  have hn4 : n < 4 := by omega
  have hpos : 0 < 8 * n := by omega
  have hmod : (BitVec.ofNat (8 * n) v).toNat = v := Nat.mod_eq_of_lt hv
  have hmsb : (BitVec.ofNat (8 * n) v).msb = decide (2 ^ (8 * n - 1) ≤ v) := by
    rw [BitVec.msb_eq_decide, hmod]
  have hval : (sext64 (8 * n) v).toNat = v + if 2 ^ (8 * n - 1) ≤ v then 2 ^ 64 - 2 ^ (8 * n) else 0 := by
    rw [sext64, BitVec.toNat_signExtend, hmsb, BitVec.toNat_setWidth_of_le hm.le, hmod]
    simp only [decide_eq_true_eq]
  rw [extendLoad, hval]
  rcases hn with rfl | rfl
  · simp only [Nat.reduceMul, Nat.reducePow, Nat.reduceSub, Nat.reduceLT, decide_true, Bool.and_self, if_true] at hv ⊢
    split <;> split <;> omega
  · simp only [Nat.reduceMul, Nat.reducePow, Nat.reduceSub, Nat.reduceLT, decide_true, Bool.and_self, if_true] at hv ⊢
    split <;> split <;> omega

/-- Settles O30: the clauses on waiting and on the pieces of an access, then one access of each kind by its space. -/
theorem laneAccesses : Obligations.LaneAccesses := by
  refine ⟨fun s rk m st e a => ?access, fun n x y p hn => ?ops, fun x y p => rfl, fun n v hn hv =>
    ⟨extendLoad_signed hn hv, rfl⟩⟩
  case ops =>
    intro gives
    have hadd : gives .add (x + y) := (BitVec.toNat_add x y).symm
    exact ⟨hadd, (BitVec.toNat_and ..).symm, (BitVec.toNat_or ..).symm, (BitVec.toNat_xor ..).symm, aopNew_min x y _,
      aopNew_max x y _, aopNew_minn x y _, aopNew_maxn x y _, rfl, aopNew_cas x y p⟩
  case access =>
    intro n tk word fill tags tagged new back waits
    have htags (wb : Option (BitVec 3)) (t : State) : t.storeUpdates rk wb n a.data = tags wb t := by
      cases wb with
      | none => rfl
      | some fs => exact storeUpdates_some t rk fs n a.data
    have htagged (wb : Option (BitVec 3)) (t : State) (k : AccKind) : t.accUpdates rk (word k) wb a = tagged wb t := by
      simp only [State.accUpdates, tagged]
      rw [← htags]
    refine ⟨fun k as hw hk => ?_, fun k as hw => ?_, fun k as hs => ?_, fun k h => unreserve_same h,
      fun k h => pieces_one (or_assoc.2 h), fun k hfe hlog => ?_, fun hs => ?_, fun hs => ?_⟩
    · exact performLanes_free (fun t b => laneWaits_of_not_waits hw) (fun t b => laneHeld_of_no_write hk) e as s
    · rw [performLanes, laneWaits_of_waits hw, laneHeld_of_no_write (.inr hw.1), Bool.or_false]
      cases (granulesOf (a.ea - a.off) n).all (s.fullAt tk) <;> rfl
    · rw [performLanes, laneWaits_global hs, Bool.false_or]
    · rw [pieces_split hfe hlog]
      exact ⟨fun h => if_pos h, fun h h16 => by rw [if_neg (not_not.2 h), if_pos h16],
        fun h h16 => by rw [if_neg (not_not.2 h), if_neg h16]⟩
    · intro old
      refine ⟨fun sx => ?_, fun wb => ?_, fun op red sc => ?_⟩
      · exact (laneAccess_scratch e hs).trans rfl
      · exact (laneAccess_scratch e hs).trans (htagged wb _ (.store wb))
      · exact (laneAccess_scratch e hs).trans rfl
    · refine ⟨fun sx x hx => ?_, fun hout => ⟨fun wb x hx => ?_, fun op red sc x hx => ?_⟩, fun hin =>
        ⟨fun wb => ?_, fun op red sc => ?_⟩⟩
      · exact (laneAccess_global e hs (.inr rfl) hx).trans rfl
      · exact (laneAccess_global e hs (.inl hout) hx).trans (htagged wb _ (.store wb))
      · exact (laneAccess_global e hs (.inl hout) hx).trans rfl
      · exact (laneAccess_logged e hs hin rfl).trans (htags wb _)
      · exact (laneAccess_logged e hs hin rfl).trans rfl

end Sys2Proof.Machine
end

section
/-! PROOFS. LX words at issue: the hold, the rendezvous and the faults (R163, R164, R230, R231, R233, R237). -/

namespace Sys2Proof.Machine
open Sys2Proof

/-! ## Issue -/

section
variable {s : State} {rk : Nat} {i : Instr}

theorem lxIssue_held {w : LxWord} (hcur : s.cur = .lane rk) (h : (s.role rk).hold = some w) :
    lxIssue s i = .next (s.parkL rk (if lxGang w.word = true ∧ w.joined = false then .rendezvous else .lxHold)) := by
  have hcond : (lxGang w.word && !w.joined) = true ↔ lxGang w.word = true ∧ w.joined = false := by simp
  simp only [lxIssue, hcur, h, hcond]

theorem lxIssue_check (hcur : s.cur = .lane rk) (h : (s.role rk).hold = none) :
    lxIssue s i = match s.lxCheck (s.lxWordOf rk i) with
      | some (.code f) => .next (s.precise rk (s.raiseL rk f))
      | some (.page sub va ia) => .next (s.wbPage rk true sub va ia)
      | some (.mcheck sub va pa) => .next (s.precise rk (s.machineCheck rk true sub va pa 0))
      | none => .next (if lxGang i then (s.held rk (s.lxWordOf rk i)).join (s.lxWordOf rk i)
          else s.held rk (s.lxWordOf rk i)) := by
  simp only [lxIssue, hcur, h, State.laneFault_lane hcur]
  rfl

end

theorem firstFault_single (ok : Bool) (c : Code) : firstFault [(ok, c)] = none ↔ ok = true := by
  cases ok <;> simp [firstFault]

/-! ## The hold -/

theorem held_role (s : State) (rk : Nat) (w : LxWord) : (s.held rk w).role rk = { s.role rk with
    hold := some w, lpark := .lxHold
    lanes := { (s.role rk).lanes with watch := (s.role rk).lanes.watch ++ [s.lxWatch 0 w] } } := by
  rw [State.held, State.role_updTeam, State.role_updRole_self]

theorem held_role_ne (s : State) {rk k : Nat} (w : LxWord) (h : k ≠ rk) : (s.held rk w).role k = s.role k := by
  rw [State.held, State.role_updTeam, State.role_updRole_ne _ _ h]

/-! ## The rendezvous (R164, R233) -/

theorem role_foldl_updRole (f : Role → Role) (ws : List LxWord) (s : State) (k : Nat) :
    (ws.foldl (fun t v => t.updRole v.rk f) s).role k = f^[(ws.filter fun v => v.rk == k).length] (s.role k) := by
  induction ws generalizing s with
  | nil => rfl
  | cons v ws ih =>
    rw [List.foldl_cons, ih, List.filter_cons]
    by_cases h : v.rk = k
    · rw [if_pos (beq_iff_eq.2 h), List.length_cons, Function.iterate_succ_apply, ← h, State.role_updRole_self]
    · rw [if_neg (by simpa using h), State.role_updRole_ne _ _ (Ne.symm h)]

theorem join_hold {r : Role} {u : LxWord} {b : Bool} (h : r.hold = some { u with joined := b }) :
    (r.join true).hold = some { u with joined := true } := by
  simp only [Role.join, h]

theorem join_lpark {r : Role} {u : LxWord} (h : r.hold = some u) (hp : r.lpark = .rendezvous ∨ r.lpark = .lxHold) :
    (r.join true).lpark = .lxHold := by
  rcases hp with hp | hp <;> simp only [Role.join, h, hp, if_true]

/-- However often a role joins, its word has joined and its lane stream waits in the hold. -/
theorem iterate_join {r : Role} {u : LxWord} (h : r.hold = some u) (n : Nat) :
    ((fun r => r.join true)^[n + 1] r).hold = some { u with joined := true } ∧
    (r.lpark = .rendezvous ∨ r.lpark = .lxHold → ((fun r => r.join true)^[n + 1] r).lpark = .lxHold) := by
  induction n with
  | zero => exact ⟨join_hold (b := u.joined) h, join_lpark h⟩
  | succ n ih =>
    rw [Function.iterate_succ_apply']
    exact ⟨join_hold ih.1, fun hp => join_lpark ih.1 (.inr (ih.2 hp))⟩

theorem hold_of_heldWord {s : State} {k : Nat} {ms : List Nat} {u : LxWord} (h : s.heldWord k ms = some u) :
    (s.role k).hold = some u := by
  unfold State.heldWord at h
  split at h
  · next w hw =>
    split at h
    · rw [hw, h]
    · cases h
  · cases h

/-- The last arrival joins the words of its set. -/
theorem join_agree {s : State} {w : LxWord} (hlen : (w.team.filterMap fun k => s.heldWord k w.members).length = w.members.length)
    (hall : (w.team.filterMap fun k => s.heldWord k w.members).all (lxAgree w) = true) :
    (s.join w).butRoles = s.butRoles ∧ ∀ k ∈ w.team, ∀ u, s.heldWord k w.members = some u → u.rk = k →
      ((s.join w).role k).hold = some { u with joined := true } ∧
      ((s.role k).lpark = .rendezvous ∨ (s.role k).lpark = .lxHold → ((s.join w).role k).lpark = .lxHold) := by
  have hjoin : s.join w = (w.team.filterMap fun k => s.heldWord k w.members).foldl
      (fun t v => t.updRole v.rk fun r => r.join true) s := by
    simp only [State.join, hlen, ne_eq, not_true_eq_false, if_false, hall, if_true]
  refine ⟨?_, fun k hk u hu huk => ?_⟩
  · rw [hjoin]
    exact foldl_proj_eq State.butRoles (by intros; rfl) _ s
  · have hmem : u ∈ (w.team.filterMap fun k => s.heldWord k w.members).filter fun v => v.rk == k :=
      List.mem_filter.2 ⟨List.mem_filterMap.2 ⟨k, hk, hu⟩, beq_iff_eq.2 huk⟩
    obtain ⟨n, hn⟩ := Nat.exists_eq_succ_of_ne_zero (List.length_pos_of_mem hmem).ne'
    rw [hjoin, role_foldl_updRole, hn]
    exact iterate_join (hold_of_heldWord hu) n

/-- Settles O31: every LX word issues through `lxIssue`, whose cases are the fields of the statement. -/
theorem matrixWordsHeld : Obligations.MatrixWordsHeld := by
  intro s rk x sw clr wb coff ad v d fs b hcur enters
  have hissue {i : Instr} {gang : Bool} (hexec : exec i s = lxIssue s i) (hgang : lxGang i = gang) : enters i gang := by
    refine ⟨fun h hc => ?_, fun f h hc => ?_, fun sub va ia h hc => ?_, fun sub va pa h hc => ?_, fun w h => ?_⟩
    · rw [hexec, lxIssue_check hcur h, hc, hgang]
    · rw [hexec, lxIssue_check hcur h, hc]
    · rw [hexec, lxIssue_check hcur h, hc]
    · rw [hexec, lxIssue_check hcur h, hc]
    · rw [hexec, lxIssue_held hcur h]
  refine ⟨hissue rfl rfl, hissue rfl rfl, hissue rfl rfl, hissue rfl rfl, hissue rfl rfl, firstFault_single _ _, fun i => ?_,
    fun w => ?_⟩
  · rw [held_role]
    exact ⟨rfl, rfl, rfl, fun k hk => held_role_ne s _ hk, rfl⟩
  · intro ws
    exact ⟨fun h => if_pos h, fun hlen hall => join_agree hlen hall⟩

end Sys2Proof.Machine
end

section
/-! PROOFS. The values of the matrix engine (R28, R33 to R42, R225 to R229, R233 to R235, R239 to R242). -/

namespace Sys2Proof.Machine
open Sys2Proof

/-! ## The tree of a step (R36, R37) -/

theorem innerAdd_fst (f : FF) (x y : Nat) (o : Observed) : (innerAdd f x y o).1 = innerSum f x y := rfl

theorem treeLevel_fst (f : FF) (l : List Nat) (o : Observed) : (treeLevel f l o).1 = pairLevel f l := by
  induction l using pairLevel.induct generalizing o with
  | case1 a b t ih => rw [treeLevel, pairLevel, ih, innerAdd_fst]
  | case2 l h =>
    rcases l with _ | ⟨a, _ | ⟨b, t⟩⟩
    · rfl
    · rfl
    · exact absurd rfl (h a b t)

theorem treeSum_fst (f : FF) (n : Nat) (l : List Nat) (o : Observed) : (treeSum f n l o).1 = pairSum f n l := by
  induction n generalizing l o with
  | zero => rfl
  | succ n ih => rw [treeSum, pairSum, ih, treeLevel_fst]

theorem pairLevel_length (f : FF) (n : Nat) (xs : List Nat) (h : xs.length = 2 * n) : (pairLevel f xs).length = n := by
  induction n generalizing xs with
  | zero => rw [List.eq_nil_of_length_eq_zero h]; rfl
  | succ n ih =>
    match xs, h with
    | a :: b :: t, h =>
      rw [pairLevel, List.length_cons, ih t (by simp only [List.length_cons] at h; omega)]

theorem pairLevel_append (f : FF) (n : Nat) (xs ys : List Nat) (h : xs.length = 2 * n) :
    pairLevel f (xs ++ ys) = pairLevel f xs ++ pairLevel f ys := by
  induction n generalizing xs with
  | zero => rw [List.eq_nil_of_length_eq_zero h]; rfl
  | succ n ih =>
    match xs, h with
    | a :: b :: t, h =>
      rw [List.cons_append, List.cons_append, pairLevel, pairLevel, ih t (by simp only [List.length_cons] at h; omega),
        List.cons_append]

/-- The tree of two halves is the sum of their trees. -/
theorem pairSum_append (f : FF) (n : Nat) (xs ys : List Nat) (hx : xs.length = 2 ^ n) (hy : ys.length = 2 ^ n) :
    pairSum f (n + 1) (xs ++ ys) = innerSum f (pairSum f n xs) (pairSum f n ys) := by
  induction n generalizing xs ys with
  | zero =>
    obtain ⟨a, rfl⟩ := List.length_eq_one_iff.1 hx
    obtain ⟨b, rfl⟩ := List.length_eq_one_iff.1 hy
    rfl
  | succ n ih =>
    rw [Nat.pow_succ, Nat.mul_comm] at hx hy
    rw [pairSum, pairLevel_append f _ xs ys hx, ih _ _ (pairLevel_length f _ xs hx) (pairLevel_length f _ ys hy)]
    rfl

theorem product_fst (f : FF) (a : XVal) (b : Option XVal) (o : Observed) : (product f a b o).1 = innerProduct f a b := by
  cases b with
  | none => rfl
  | some v =>
    unfold product innerProduct
    cases h : xmul a v <;> simp only [h]

theorem products_fst (f : FF) (ps : List (XVal × Option XVal)) (o : Observed) :
    (products f ps o).1 = ps.map fun e => innerProduct f e.1 e.2 := by
  induction ps generalizing o with
  | nil => rfl
  | cons p ps ih =>
    obtain ⟨a, b⟩ := p
    rw [products, List.map_cons, ih, product_fst]

theorem kStep_fst (form p : Nat) (ps : List (XVal × Option XVal)) (o : Observed) :
    (kStep form p ps o).1 = innerStep form p ps := by
  simp only [kStep, innerStep, innerAdd_fst, treeSum_fst, products_fst]

theorem stepAll_fst (form rows : Nat) (p : Partials) (ps : List (XVal × Option XVal)) (o : Observed) :
    (stepAll form rows p ps o).1 = partialStep form p ps := by
  unfold stepAll partialStep
  split <;> simp only [kStep_fst]

/-! ## An element of a multiplication (R28, R35, R38, R235) -/

theorem elemSteps_fst (g : LxGeo) (cb rows row : Nat) (pair : Nat → XVal × Option XVal) (sa sb : Nat → XVal) (n i acc : Nat)
    (p : Partials) (o : Observed) :
    (elemSteps g cb rows row pair sa sb n i acc p o).1 = dotProduct g pair sa sb n i acc p := by
  induction n generalizing i acc p o with
  | zero => rfl
  | succ n ih =>
    simp only [elemSteps, dotProduct, stepAll_fst]
    split
    · exact ih ..
    · exact ih ..

/-- Only products below K count. -/
theorem dotProduct_congr (g : LxGeo) {pair pair' : Nat → XVal × Option XVal} (h : ∀ k, k < g.k → pair k = pair' k)
    (sa sb : Nat → XVal) (n i acc : Nat) (p : Partials) :
    dotProduct g pair sa sb n i acc p = dotProduct g pair' sa sb n i acc p := by
  have hcut : (fun k => if k < g.k then pair k else ((.fin false 0 1 : XVal), none)) =
      fun k => if k < g.k then pair' k else (.fin false 0 1, none) := by
    funext k
    split
    · next hk => rw [h k hk]
    · rfl
  induction n generalizing i acc p with
  | zero => rfl
  | succ n ih => simp only [dotProduct, hcut, ih]

/-! ## Every member and every element (R233, R235) -/

/-- A fold that appends what each item gives. -/
theorem foldl_append_fst {α β γ : Type} {g : List β × γ → α → List β × γ} {a : α → List β}
    (h : ∀ st e, (g st e).1 = st.1 ++ a e) (l : List α) (st : List β × γ) : (l.foldl g st).1 = st.1 ++ l.flatMap a := by
  induction l generalizing st with
  | nil => simp
  | cons e l ih => rw [List.foldl_cons, ih, h, List.flatMap_cons, List.append_assoc]

theorem zipIdx_map_range {α : Type} (f : Nat → α) (n : Nat) :
    ((List.range n).map f).zipIdx = (List.range n).map fun r => (f r, r) := by
  refine List.ext_getElem (by simp) fun i h1 h2 => ?_
  simp

theorem flatMap_zipIdx_fst {α β : Type} (f : α → List β) (l : List α) : l.zipIdx.flatMap (fun e => f e.1) = l.flatMap f := by
  have h := List.flatMap_map (f := Prod.fst) (l := l.zipIdx) (g := f)
  rw [List.zipIdx_map_fst] at h
  exact h.symm

theorem getD_map_range {α : Type} (f : Nat → α) (d : α) {k n : Nat} (h : k < n) : ((List.range n).map f).getD k d = f k := by
  rw [List.getD_eq_getElem _ _ (by simpa using h), List.getElem_map, List.getElem_range]

theorem mulMember_fst (s : State) (j : LxJob) (m : LxMul) (w : LxWord) (idx : Nat) (o : Observed) :
    (s.mulMember j m w idx o).1 = (List.range 128).flatMap fun n => (List.range 16).flatMap fun r =>
      accBytes (w.view m.accview) r n (s.lxElement j m w r n) := by
  unfold State.mulMember
  dsimp only
  rw [zipIdx_map_range]
  refine (foldl_append_fst (fun st n => ?_) _ _).trans (List.nil_append _)
  rw [List.foldl_map]
  refine foldl_append_fst (fun st r => ?_) _ _
  dsimp only
  rw [elemSteps_fst, dotProduct_congr (pair' := fun k => (elemA (s.role w.rk).lanes s.free (s.slot w.rk m.fsa)
    (w.view m.aview) (s.geoOf w m) r k, elemB (j.sb (s.team (teamOf w.rk))) m (s.slot w.rk m.fsb) (s.geoOf w m) k n))]
  · rfl
  · intro k hk
    rw [getD_map_range _ _ hk, getD_map_range _ _ hk]

theorem lxCompute_mul {s : State} {j : LxJob} {w : LxWord} {ws : List LxWord} {m : LxMul} (hj : j.lxs = w :: ws)
    (hm : lxMulOf w.word = some m) : s.lxCompute j = s.mulJob j := by
  unfold State.lxCompute
  rw [hj]
  cases h : w.word <;> simp_all [lxMulOf]

theorem mulJob_results (s : State) (j : LxJob) : (s.mulJob j).results = j.lxs.filterMap fun v =>
    (lxMulOf v.word).map fun x => (v.rk, (List.range 128).flatMap fun n => (List.range 16).flatMap fun r =>
      accBytes (v.view x.accview) r n (s.lxElement j x v r n)) := by
  have hstep (st : List (Nat × List (Nat × Byte)) × Observed) (e : LxWord × Nat) :
      (match lxMulOf e.1.word with
        | some m => (st.1 ++ [(e.1.rk, (s.mulMember j m e.1 e.2 st.2).1)], (s.mulMember j m e.1 e.2 st.2).2)
        | none => st).1 = st.1 ++ ((lxMulOf e.1.word).map fun x => (e.1.rk, (List.range 128).flatMap fun n =>
          (List.range 16).flatMap fun r => accBytes (e.1.view x.accview) r n (s.lxElement j x e.1 r n))).toList := by
    cases lxMulOf e.1.word with
    | none => exact (List.append_nil _).symm
    | some m => exact congrArg (fun y => st.1 ++ [(e.1.rk, y)]) (mulMember_fst s j m e.1 e.2 st.2)
  have hfold := foldl_append_fst hstep j.lxs.zipIdx ([], .start (monT (s.moncfg (teamOf
    (j.lxs.headD ⟨0, .vaccz false 0, [], [], [], false, 0⟩).rk))))
  rw [flatMap_zipIdx_fst fun v : LxWord => ((lxMulOf v.word).map fun x => (v.rk, (List.range 128).flatMap fun n =>
    (List.range 16).flatMap fun r => accBytes (v.view x.accview) r n (s.lxElement j x v r n))).toList, List.nil_append] at hfold
  rw [List.filterMap_eq_flatMap_toList]
  exact hfold

/-! ## Elements of B (R227, R234) -/

theorem elemB_dense (rd : Nat → Byte) {m : LxMul} {sb : Slot} {g : LxGeo} (k n : Nat) (hs : m.sparse = 0) (hg : sb.geom ≠ 1)
    (hb : g.bitsB ≠ 4) :
    let row := if m.order then n else k
    let col := if m.order then k else n
    elemB rd m sb g k n = some (decodeF ((fmtFF sb.efmt).getD .f32)
      (leNat ((rangeFrom (g.x + row * g.pitch + ((col * g.bitsB / 8) ^^^ (row % 4 * 16))) (g.bitsB / 8)).map rd))) := by
  have hlive : liveColumn rd m g (k / formN g.form) n = true := by
    rw [liveColumn, hs]
    rfl
  have hrow : storedRow rd m g k n = some k := by
    rw [storedRow, hs]
    rfl
  simp only [elemB, hlive, hrow, hg, hb, Bool.not_true, Bool.false_eq_true, if_false, swz]

theorem elemB_dead (rd : Nat → Byte) {m : LxMul} (sb : Slot) {g : LxGeo} {k n : Nat} (hs : m.sparse.toNat / 2 % 2 = 1)
    (h : (rd (g.y + 16 * (k / formN g.form) + n / 8)).toNat / 2 ^ (n % 8) % 2 = 0) : elemB rd m sb g k n = none := by
  have hlive : liveColumn rd m g (k / formN g.form) n = false := by
    rw [liveColumn]
    have h1 : bitOf m.sparse.toNat 1 = true := by simpa [bitOf] using hs
    have h2 : bitOf (rd (g.y + 16 * (k / formN g.form) + n / 8)).toNat (n % 8) = false := by simpa [bitOf] using h
    rw [h1, h2]
    rfl
  simp only [elemB, hlive, Bool.not_false, if_true]

/-! ## Bytes of registers and of the accumulator (R48, R237) -/

theorem engByte_settled {l : Lanes} (hp : l.pend = []) (hb : l.back = []) (hw : ∀ w ∈ l.watch, w.hit = false)
    (free lane b : Nat) : l.engByte free lane b = l.regs.get 0 (rkey lane b) := by
  have hwatch : (l.watch.any fun w => w.hit && !w.pending && w.dst.any fun x => x.has lane b) = false :=
    List.any_eq_false.2 fun w hm => by simp [hw w hm]
  simp only [Lanes.engByte, hp, hb, hwatch, List.any_nil, Bool.or_false, Bool.false_eq_true, if_false]

theorem accBytes_eq (v : W64) (r n bits : Nat) : accBytes v r n bits = [0, 1, 2, 3].map fun k =>
    (rkey (32 * viewGrp v + n / 4) (viewBase v + r * viewStride v + 4 * (n % 4) + k), byteOf bits k) := by
  simp only [accBytes, accAt, leBytes_map_byteOf, Nat.mul_comm (n % 4) 4]
  rfl

/-! ## VACCRD (R20, R27, R33, R241) -/

/-- The generator after `n` elements of a word. -/
def genAfter (sl : Slot) (n : Nat) (g : W32) : W32 := if sl.rnd = .stoch then Nat.repeat nextRandom n g else g

/-- What element `n` of a word draws. -/
def drawAt (sl : Slot) (n : Nat) (g : W32) : Nat :=
  if sl.rnd = .stoch then (Nat.repeat nextRandom (n + 1) g).toNat / 256 else 0

theorem repeat_add (n m : Nat) (g : W32) :
    Nat.repeat nextRandom n (Nat.repeat nextRandom m g) = Nat.repeat nextRandom (m + n) g := by
  induction n with
  | zero => rfl
  | succ n ih => exact congrArg nextRandom ih

theorem genAfter_add (sl : Slot) (n m : Nat) (g : W32) : genAfter sl n (genAfter sl m g) = genAfter sl (m + n) g := by
  unfold genAfter
  split
  · exact repeat_add n m g
  · rfl

theorem drawAt_genAfter (sl : Slot) (n m : Nat) (g : W32) : drawAt sl n (genAfter sl m g) = drawAt sl (m + n) g := by
  unfold drawAt genAfter
  split
  · rw [repeat_add, Nat.add_assoc]
  · rfl

theorem roundDraw_eq (sl : Slot) (ff : FF) (sat : Bool) (x : XVal) (g : W32) :
    roundDraw g x ff sl.rnd sat = (roundTo x ff sl.rnd sat (drawAt sl 0 g), genAfter sl 1 g) := by
  unfold drawAt genAfter roundDraw
  cases sl.rnd <;> rfl

/-- A row of values converted in order: each element with its own draw. -/
theorem convRow_eq (sl : Slot) (ff : FF) (sc : Nat → XVal) (f : Nat → XVal) (len a : Nat) (g : W32) :
    let new (n : Nat) : Rounded := roundTo (xdiv (f n) (sc n)) ff sl.rnd (sl.sat || sl.geom == 1) (drawAt sl (n - a) g)
    convRow sl ff sc ((rangeFrom a len).map fun n => (f n, n)) g =
      ((rangeFrom a len).map fun n => (new n).bits, genAfter sl len g,
        ((rangeFrom a len).map fun n => b2n (new n).event).sum) := by
  induction len generalizing a g with
  | zero =>
    simp only [rangeFrom, List.map_nil, convRow, List.sum_nil, genAfter]
    split <;> rfl
  | succ len ih =>
    have hdraw {n : Nat} (hn : n ∈ rangeFrom (a + 1) len) : drawAt sl (n - (a + 1)) (genAfter sl 1 g) = drawAt sl (n - a) g := by
      rw [drawAt_genAfter]
      congr 1
      have := (mem_rangeFrom.1 hn).1
      omega
    intro new
    have hbits : (rangeFrom (a + 1) len).map (fun n => (roundTo (xdiv (f n) (sc n)) ff sl.rnd (sl.sat || sl.geom == 1)
        (drawAt sl (n - (a + 1)) (genAfter sl 1 g))).bits) = (rangeFrom (a + 1) len).map fun n => (new n).bits :=
      List.map_congr_left fun n hn => by rw [hdraw hn]
    have hevents : (rangeFrom (a + 1) len).map (fun n => b2n (roundTo (xdiv (f n) (sc n)) ff sl.rnd (sl.sat || sl.geom == 1)
        (drawAt sl (n - (a + 1)) (genAfter sl 1 g))).event) = (rangeFrom (a + 1) len).map fun n => b2n (new n).event :=
      List.map_congr_left fun n hn => by rw [hdraw hn]
    have hhead : roundTo (xdiv (f a) (sc a)) ff sl.rnd (sl.sat || sl.geom == 1) (drawAt sl 0 g) = new a := by
      simp only [new, Nat.sub_self]
    simp only [rangeFrom, List.map_cons, convRow, roundDraw_eq, ih, genAfter_add, hhead, hbits, hevents, List.sum_cons]
    rw [Nat.add_comm 1 len]

section
variable (sl : Slot) (ff : FF) (ws : XVal) (old : Nat → Nat → Nat) (g : W32)

/-- The values of a run of columns. -/
def accRun (r i : Nat) : List XVal :=
  (((List.range 128).map fun n => decodeF .f32 (old r n)).drop (i * runLen sl)).take (runLen sl)

/-- An element that a VACCRD writes. -/
def accrdNew (r n : Nat) : Rounded :=
  roundTo (xdiv (decodeF .f32 (old r n)) (rdScale sl ff ws (accRun sl old r (n / runLen sl)))) ff sl.rnd
    (sl.sat || sl.geom == 1) (drawAt sl (128 * r + n) g)

theorem runScale_fst (run : List XVal) : (runScale sl ff ws run).1 = rdScale sl ff ws run := by
  unfold runScale rdScale
  split
  · next h => simp only [h]
  · split
    · next h => simp only [h]
    · split
      · contradiction
      · contradiction
      · rfl

theorem runLen_cases : runLen sl = 32 ∨ runLen sl = 128 := by
  unfold runLen
  split
  · exact .inl rfl
  · exact .inr rfl

/-- The runs of a row, with the scale and the scale bytes of each. -/
def accRuns (r : Nat) : List (XVal × List Byte) :=
  (List.range (128 / runLen sl)).map fun i => runScale sl ff ws (accRun sl old r i)

theorem accRuns_scale (r : Nat) {n : Nat} (h : n < 128) : ((accRuns sl ff ws old r).map Prod.fst).getD (n / runLen sl) .one =
    rdScale sl ff ws (accRun sl old r (n / runLen sl)) := by
  have hlt : n / runLen sl < 128 / runLen sl := by
    rcases runLen_cases sl with h' | h' <;> rw [h'] <;> omega
  rw [accRuns, List.map_map, getD_map_range _ _ hlt]
  exact runScale_fst sl ff ws _

/-- One row of a VACCRD. -/
theorem accrd_row (r : Nat) :
    convRow sl ff (fun n => ((accRuns sl ff ws old r).map Prod.fst).getD (n / runLen sl) .one)
      (((List.range 128).map fun n => decodeF .f32 (old r n)).zipIdx) (genAfter sl (128 * r) g) =
    ((List.range 128).map fun n => (accrdNew sl ff ws old g r n).bits, genAfter sl (128 * (r + 1)) g,
      ((List.range 128).map fun n => b2n (accrdNew sl ff ws old g r n).event).sum) := by
  have hrange : rangeFrom 0 128 = List.range 128 := by rw [rangeFrom_eq_range', List.range_eq_range']
  have hrow := convRow_eq sl ff (fun n => ((accRuns sl ff ws old r).map Prod.fst).getD (n / runLen sl) .one)
    (fun n => decodeF .f32 (old r n)) 128 0 (genAfter sl (128 * r) g)
  simp only [hrange, Nat.sub_zero, drawAt_genAfter, genAfter_add] at hrow
  have hnew {n : Nat} (hn : n ∈ List.range 128) : roundTo (xdiv (decodeF .f32 (old r n))
      (((accRuns sl ff ws old r).map Prod.fst).getD (n / runLen sl) .one)) ff sl.rnd (sl.sat || sl.geom == 1)
      (drawAt sl (128 * r + n) g) = accrdNew sl ff ws old g r n := by
    rw [accRuns_scale sl ff ws old r (List.mem_range.1 hn), accrdNew]
  rw [zipIdx_map_range, hrow, List.map_congr_left fun n hn => congrArg Rounded.bits (hnew hn),
    List.map_congr_left fun n hn => congrArg (fun q => b2n (Rounded.event q)) (hnew hn)]
  rfl

/-- The rows of a VACCRD, one after another. -/
theorem accrd_rows (dv : W64) (coff : Bool) (m : Nat) :
    (List.range m).foldl (fun (st : List (Nat × Byte) × W32 × Nat) r =>
      let q := convRow sl ff (fun n => ((accRuns sl ff ws old r).map Prod.fst).getD (n / runLen sl) .one)
        (((List.range 128).map fun n => decodeF .f32 (old r n)).zipIdx) st.2.1
      (st.1 ++ rowBytes dv coff r q.1 ++ rowScaleBytes sl dv coff r ((accRuns sl ff ws old r).map Prod.snd), q.2.1,
        st.2.2 + q.2.2)) ([], g, 0) =
    ((List.range m).flatMap fun r => rowBytes dv coff r ((List.range 128).map fun n => (accrdNew sl ff ws old g r n).bits) ++
        rowScaleBytes sl dv coff r ((accRuns sl ff ws old r).map Prod.snd),
      genAfter sl (128 * m) g,
      ((List.range m).flatMap fun r => (List.range 128).map fun n => b2n (accrdNew sl ff ws old g r n).event).sum) := by
  induction m with
  | zero =>
    simp only [List.range_zero, List.foldl_nil, List.flatMap_nil, List.sum_nil, genAfter]
    split <;> rfl
  | succ m ih =>
    rw [List.range_succ (n := m), List.foldl_append, ih, List.foldl_cons, List.foldl_nil]
    simp only [accrd_row, List.flatMap_append, List.flatMap_cons, List.flatMap_nil, List.append_nil, List.sum_append,
      List.append_assoc]

end

theorem accrdJob_eq (s : State) (j : LxJob) (w : LxWord) (v d fs : BitVec 3) (clr wb coff : Bool) :
    let sl := s.slot w.rk fs
    let ff := (fmtFF sl.efmt).getD .f32
    let ws := decodeF .f32 j.scaleA
    let old (r n : Nat) : Nat := accVal (s.role w.rk).lanes s.free (w.view v) r n
    let o := s.accrdJob j w v d fs clr wb coff
    o.results = [(w.rk, ((List.range 16).flatMap fun r =>
        rowBytes (w.view d) coff r ((List.range 128).map fun n => (accrdNew sl ff ws old j.rng r n).bits) ++
          rowScaleBytes sl (w.view d) coff r ((accRuns sl ff ws old r).map Prod.snd))
        ++ if clr then tileElems.flatMap (fun e => accBytes (w.view v) e.1 e.2 0) else [])] ∧
    o.updates = (if wb then tileElems.map fun e => old e.1 e.2 else []) ∧
    o.sat = if fmtFeeds sl.efmt then (tileElems.filter fun e => (accrdNew sl ff ws old j.rng e.1 e.2).event).length else 0 := by
  intro sl ff ws old o
  have hrows := accrd_rows sl ff ws old j.rng (w.view d) coff 16
  have hvals (r : Nat) : ((List.range 128).map fun n => accVal (s.role w.rk).lanes s.free (w.view v) r n).map (decodeF .f32) =
      (List.range 128).map fun n => decodeF .f32 (old r n) := List.map_map
  have hsat : (tileElems.filter fun e => (accrdNew sl ff ws old j.rng e.1 e.2).event).length =
      ((List.range 16).flatMap fun r => (List.range 128).map fun n => b2n (accrdNew sl ff ws old j.rng r n).event).sum := by
    rw [← sum_b2n_eq_length_filter, tileElems, List.map_flatMap]
    simp only [List.map_map, Function.comp_def]
  simp only [accRuns, accRun] at hrows
  simp only [o, State.accrdJob, hvals, accRuns, accRun]
  rw [hrows, hsat]
  refine ⟨rfl, ?_, rfl⟩
  rw [tileElems, List.map_flatMap]
  simp only [List.map_map, Function.comp_def]
  rfl

end Sys2Proof.Machine
end

section
/-! PROOFS. The events of the matrix engine (R206, R231, R232, R237, R238, R294, R301), and its values assembled. -/

namespace Sys2Proof.Machine
open Sys2Proof

/-! ## LX_ACCEPT (R231) -/

section
variable {s : State} {rk : Nat} {w : LxWord}

theorem lxAccept_empty (h : (s.role rk).hold = none) : exec (.lxAccept rk) s = .next s := by
  have harm : exec (.lxAccept rk) s = execLxAccept rk s := rfl
  simp only [harm, execLxAccept, h]

theorem lxAccept_waits (h : (s.role rk).hold = some w) (hw : s.lxReady w = false ∨ s.relocking (s.coreOf rk) = true) :
    exec (.lxAccept rk) s = .next s := by
  have harm : exec (.lxAccept rk) s = execLxAccept rk s := rfl
  have hc : (!s.lxReady w || s.relocking (s.coreOf rk)) = true := by rcases hw with hw | hw <;> simp [hw]
  simp only [harm, execLxAccept, h, hc, if_true]

theorem lxAccept_ready (h : (s.role rk).hold = some w) (hr : s.lxReady w = true) (hl : s.relocking (s.coreOf rk) = false) :
    exec (.lxAccept rk) s =
      if !(s.lxMissing w).isEmpty then .next (s.startServices (teamOf rk) (s.lxMissing w) (some (.lane rk)))
      else if !s.lxFull w || decide (4 ≤ (s.core (s.coreOf rk)).engQ.length) then .next s
      else .next (s.acceptRead (s.jointWords w)) := by
  have harm : exec (.lxAccept rk) s = execLxAccept rk s := rfl
  simp only [harm, execLxAccept, h, hr, hl, Bool.not_true, Bool.or_self, Bool.false_eq_true, if_false]

end

theorem acceptRead_cases {s : State} (ws : List LxWord) :
    (s.lxUnread ws = none → s.acceptRead ws = s.acceptLx ws) ∧
    (∀ k sub va ia, s.lxUnread ws = some (k, .page sub va ia) → s.acceptRead ws = s.wbPage k true sub va ia) ∧
    (∀ k sub va pa, s.lxUnread ws = some (k, .mcheck sub va pa) → s.acceptRead ws =
      (ws.foldl (fun t w => t.unhold w.rk) s).machineChecks (ws.map LxWord.rk) sub va pa 0) := by
  refine ⟨fun h => ?_, fun k sub va ia h => ?_, fun k sub va pa h => ?_⟩ <;> simp only [State.acceptRead, h]

/-! ## LX_START (R232, R294) -/

theorem lxStart_idle {s : State} {core : Nat}
    (h : s.engineMay (clusterOf core) = false ∨ (s.core core).lxDone ≠ [] ∨ s.lxNext core = none) :
    exec (.lxStart core) s = .next s := by
  have harm : exec (.lxStart core) s = execLxStart core s := rfl
  rw [harm, execLxStart]
  by_cases hc : (!s.engineMay (clusterOf core) || !(s.core core).lxDone.isEmpty) = true
  · rw [if_pos hc]
  · rw [if_neg hc]
    rcases h with h | h | h
    · simp [h] at hc
    · simp [h] at hc
    · simp only [h]

theorem lxStart_next {s : State} {core i : Nat} {j : LxJob} (hm : s.engineMay (clusterOf core) = true)
    (hd : (s.core core).lxDone = []) (hn : s.lxNext core = some (j, i)) : exec (.lxStart core) s =
      match s.lxFails j with
      | some s1 => .next { s1 with free := s1.free + 1 }
      | none =>
        let u := (s.lxRepair j).lxCharge j
        let o := u.lxCompute j
        let j1 := { j with results := o.results, inner := o.obs.sat, range := o.obs.range, cans := o.obs.cans,
                           sat := o.sat, updates := o.updates, left := (j.lxs.head?.map (u.lxNominal j)).getD 0 }
        .next { (u.lxNotes j).updCore core (fun c => { c with engQ := c.engQ.eraseIdx i, lxDone := [j1] }) with
          free := u.free + 1 } := by
  have harm : exec (.lxStart core) s = execLxStart core s := rfl
  simp only [harm, execLxStart, hm, hd, hn, List.isEmpty_nil, Bool.not_true, Bool.or_self, Bool.false_eq_true, if_false]
    <;> cases s.lxFails j <;> rfl

theorem lxFails_of_badB {s : State} {j : LxJob} (h : s.lxBadB j = true) : s.lxFails j = some (s.lxChecks j.lxs 2) := by
  rw [State.lxFails, if_pos h]

/-- What the reads of the matrix engine keep: the queue of the engine and memory. -/
def State.engKept (s : State) (core : Nat) : List LxJob × NMap Byte × NMap DirtyLine :=
  ((s.core core).engQ, s.hbm, s.dirty)

theorem core_updCore_engQ (s : State) (core c : Nat) (f : Core → Core) (hf : ∀ x, (f x).engQ = x.engQ) :
    ((s.updCore c f).core core).engQ = (s.core core).engQ := by
  by_cases hc : core = c
  · subst hc; rw [State.core_updCore_self, hf]
  · rw [State.core_updCore_ne _ _ hc]

theorem core_updCore_free (s : State) (c n : Nat) (f : Core → Core) :
    ({ s.updCore c f with free := n } : State).core c = f (s.core c) :=
  State.core_updCore_self s c f

theorem repair_engKept (s : State) (core c rk : Nat) (ws : List Nat) :
    (s.repair c rk ws).engKept core = s.engKept core := by
  unfold State.repair
  dsimp only
  split <;> simp [State.engKept, core_updCore_engQ]

theorem lxRepair_engKept (s : State) (j : LxJob) (core : Nat) : (s.lxRepair j).engKept core = s.engKept core := by
  refine foldl_proj_eq (fun t : State => t.engKept core) (fun t w => ?_) _ _
  dsimp only
  split
  · rfl
  · exact repair_engKept ..

theorem lxCharge_engKept (s : State) (j : LxJob) (core : Nat) : (s.lxCharge j).engKept core = s.engKept core := by
  unfold State.lxCharge
  cases j.lxs with
  | nil => rfl
  | cons w ws => simp [State.engKept, State.chargeTeam, State.charge, core_updCore_engQ]

theorem lxNotes_kept (s : State) (j : LxJob) (core : Nat) :
    (s.lxNotes j).engKept core = s.engKept core ∧ (s.lxNotes j).roles = s.roles := by
  unfold State.lxNotes
  cases j.lxs with
  | nil => exact ⟨rfl, rfl⟩
  | cons w ws =>
    exact ⟨foldl_proj_eq (fun t : State => t.engKept core) (fun t r => by simp [State.engKept, State.noteScratch]) _ _,
      foldl_proj_eq State.roles (fun t r => by simp [State.noteScratch]) _ _⟩

theorem lxStart_run {s : State} {core i : Nat} {j : LxJob} (hm : s.engineMay (clusterOf core) = true)
    (hd : (s.core core).lxDone = []) (hn : s.lxNext core = some (j, i)) (hf : s.lxFails j = none) :
    let u := (s.lxRepair j).lxCharge j
    ∃ t, exec (.lxStart core) s = .next t ∧ (t.core core).engQ = (s.core core).engQ.eraseIdx i ∧
      t.roles = u.roles ∧ t.hbm = s.hbm ∧ t.dirty = s.dirty ∧
      ∃ k, (t.core core).lxDone = [k] ∧ k.id = j.id ∧ k.lxs = j.lxs ∧ k.results = (u.lxCompute j).results ∧
        k.updates = (u.lxCompute j).updates ∧ k.sat = (u.lxCompute j).sat := by
  intro u
  have hu : u.engKept core = s.engKept core := (lxCharge_engKept _ j core).trans (lxRepair_engKept s j core)
  obtain ⟨hk, hr⟩ := lxNotes_kept u j core
  simp only [State.engKept, Prod.mk.injEq] at hu hk
  obtain ⟨hq, hb, hdy⟩ := hu
  obtain ⟨hq1, hb1, hdy1⟩ := hk
  have he := lxStart_next hm hd hn
  rw [hf] at he
  refine ⟨_, he, ?_, hr, hb1.trans hb, hdy1.trans hdy, _, congrArg Core.lxDone (core_updCore_free ..),
    rfl, rfl, rfl, rfl, rfl⟩
  rw [core_updCore_free, hq1, hq]

/-! ## LX_RESULT_WRITE (R206, R231, R237) -/

section
variable {s : State} {core : Nat} {j : LxJob} {t : List LxJob}

theorem lxResultWrite_waits (h : (s.core core).lxDone = [] ∨ s.relocking core = true) :
    exec (.lxResultWrite core) s = .next s := by
  have harm : exec (.lxResultWrite core) s = execLxResultWrite core s := rfl
  rw [harm, execLxResultWrite]
  by_cases hr : s.relocking core = true
  · rw [if_pos hr]
  · rw [if_neg hr, h.resolve_right hr]

theorem lxResultWrite_done (h : (s.core core).lxDone = j :: t) (hr : s.relocking core = false) :
    exec (.lxResultWrite core) s =
      match s.lxWsLack j with
      | some p => .next (s.startService (teamOf p.1) p.2 (some (.lane p.1)))
      | none =>
        let s1 := ((s.lxTake core LxJob.left).updCore core fun c => { c with lxDone := t }).lxEvents j
        if j.lxs.all fun w => s1.hasRole w.rk then
          .next { (j.results.foldl (fun u e => u.updRole e.1 fun r => r.lxReturn j.id s.free e.2) (s1.lxUpdates j)) with
            free := s.free + 1 }
        else .next s1 := by
  have harm : exec (.lxResultWrite core) s = execLxResultWrite core s := rfl
  simp only [harm, execLxResultWrite, hr, h, Bool.false_eq_true, if_false]
    <;> cases s.lxWsLack j <;> rfl

end

/-- The bytes of a result reach the registers where no other word has written them since. -/
theorem lxReturn_regs {r : Role} {id : Nat} (free : Nat) {bs : List (Nat × Byte)}
    (h : (r.lanes.watch.filter fun w => w.id == id).flatMap Watch.mixed = []) :
    (r.lxReturn id free bs).lanes.regs = bs.foldl (fun m e => m.set 0 e.1 e.2) r.lanes.regs := by
  simp [Role.lxReturn, h]

theorem get_foldl_set_mem {α : Type} [DecidableEq α] (d : α) {bs : List (Nat × α)} (hnd : (bs.map Prod.fst).Nodup)
    (m : NMap α) {e : Nat × α} (he : e ∈ bs) : (bs.foldl (fun m e => m.set d e.1 e.2) m).get d e.1 = e.2 := by
  induction bs generalizing m with
  | nil => cases he
  | cons b bs ih =>
    obtain ⟨hb, hbs⟩ := List.nodup_cons.1 hnd
    rcases List.mem_cons.1 he with rfl | he
    · rw [List.foldl_cons, get_foldl_set_ne d bs _ fun x hx hk => hb (List.mem_map.2 ⟨x, hx, hk⟩), NMap.get_set_self]
    · exact ih hbs _ he

theorem lxReturn_kept (r : Role) (id free : Nat) (bs : List (Nat × Byte)) :
    let t := r.lxReturn id free bs
    t.lxOut = r.lxOut - 1 ∧ t.pc = r.pc ∧ t.sregs = r.sregs ∧ t.blocks = r.blocks ∧
    ((r.lanes.watch.filter fun w => w.id == id).flatMap Watch.mixed = [] → (bs.map Prod.fst).Nodup →
      (∀ e ∈ bs, t.lanes.regs.get 0 e.1 = e.2) ∧
      ∀ k, k ∉ bs.map Prod.fst → t.lanes.regs.get 0 k = r.lanes.regs.get 0 k) := by
  refine ⟨rfl, rfl, rfl, rfl, fun hm hnd => ?_⟩
  rw [lxReturn_regs free hm]
  exact ⟨fun e he => get_foldl_set_mem 0 hnd _ he,
    fun k hk => get_foldl_set_ne 0 bs _ fun e he hek => hk (List.mem_map.2 ⟨e, he, hek⟩)⟩

/-! ## VACCRD, VACCZ and VACCSC (R20, R33, R240 to R242), in the terms of the rules -/

/-- The scale bytes of a run. -/
def runBytes (sl : Slot) (ff : FF) (ws : XVal) (run : List XVal) : List Byte :=
  match sl.geom with
  | 1 => [BitVec.ofNat 8 (mxScale run ff).2]
  | 2 => leBytes 4 (roundTo (rdScale sl ff ws run) .f32 .rne false 0).bits
  | _ => []

theorem runScale_snd (sl : Slot) (ff : FF) (ws : XVal) (run : List XVal) :
    (runScale sl ff ws run).2 = runBytes sl ff ws run := by
  unfold runScale runBytes rdScale
  split
  · next h => simp only [h]
  · split
    · next h => simp only [h]
    · split
      · contradiction
      · contradiction
      · rfl

theorem accRuns_bytes (sl : Slot) (ff : FF) (ws : XVal) (old : Nat → Nat → Nat) (r : Nat) :
    (accRuns sl ff ws old r).map Prod.snd =
      (List.range (128 / runLen sl)).map fun i => runBytes sl ff ws (accRun sl old r i) := by
  simp only [accRuns, List.map_map, Function.comp_def, runScale_snd]

theorem lxCompute_accrd {s : State} {j : LxJob} {w : LxWord} {sw clr wb coff : Bool} {v d fs : BitVec 3} (hj : j.lxs = [w])
    (hw : w.word = .vaccrd sw v d fs clr wb coff) : s.lxCompute j = s.accrdJob j w v d fs clr wb coff := by
  simp only [State.lxCompute, hj, hw]

theorem lxCompute_accz {s : State} {j : LxJob} {w : LxWord} {sw : Bool} {v : BitVec 3} (hj : j.lxs = [w])
    (hw : w.word = .vaccz sw v) :
    (s.lxCompute j).results = [(w.rk, tileElems.flatMap fun e => accBytes (w.view v) e.1 e.2 0)] := by
  have hzero : (roundTo (.fin false 0 1) .f32 .rne false 0).bits = 0 := by decide
  simp only [State.lxCompute, hj, hw, State.accMap, hzero]

section
variable (s : State) (j : LxJob) (cores : NMap Core) (clusters : NMap Cluster) (dies : NMap Die) (tick : W64)

theorem mulJob_tables :
    ({ s with cores := cores, clusters := clusters, dies := dies, refTick := tick } : State).mulJob j = s.mulJob j := rfl

theorem accMap_tables (w : LxWord) (v : BitVec 3) (f : XVal → XVal) :
    ({ s with cores := cores, clusters := clusters, dies := dies, refTick := tick } : State).accMap w v f =
      s.accMap w v f := rfl

theorem accrdJob_tables (w : LxWord) (v d fs : BitVec 3) (clr wb coff : Bool) :
    ({ s with cores := cores, clusters := clusters, dies := dies, refTick := tick } : State).accrdJob j w v d fs clr wb coff =
      s.accrdJob j w v d fs clr wb coff := by
  have hrole (rk : Nat) :
      ({ s with cores := cores, clusters := clusters, dies := dies, refTick := tick } : State).role rk = s.role rk := rfl
  have hslot (rk : Nat) (n : BitVec 3) :
      ({ s with cores := cores, clusters := clusters, dies := dies, refTick := tick } : State).slot rk n = s.slot rk n := rfl
  simp only [State.accrdJob, hrole, hslot]

theorem lxCompute_tables :
    ({ s with cores := cores, clusters := clusters, dies := dies, refTick := tick } : State).lxCompute j =
      s.lxCompute j := by
  simp only [State.lxCompute, mulJob_tables, accMap_tables, accrdJob_tables]

end

/-- Settles O32: the events of the matrix engine case by case, and its values element by element. -/
theorem matrixEngineEvents : Obligations.MatrixEngineEvents := by
  unfold Obligations.MatrixEngineEvents
  refine ⟨fun s rk core i w j => ⟨lxAccept_empty, lxAccept_waits, fun h hr hl => ?_, lxStart_idle, fun hm hd hn => ?_,
    lxResultWrite_waits, fun t h hr => ?_, lxReturn_kept⟩, fun s j w ws m hj hm => ?_, fun rd m sb g k n => ?_,
    fun s j w sw clr wb coff v d fs hj hw => ?_, fun s j w sw v => lxCompute_accz, fun s j w sw ad v b hj hw => ?_,
    lxCompute_tables, fun l free lane b hp hb hw => engByte_settled hp hb hw free lane b, fun v r n bits _ _ =>
    accBytes_eq v r n bits, pairSum_append, fun f n xs ys o hx hy => ?_⟩
  · have he := lxAccept_ready h hr hl
    refine ⟨fun hm => ?_, fun hm hf => ?_, fun hm hf hq => ?_⟩
    · simpa [hm] using he
    · rcases hf with hf | hf <;> simpa [hm, hf] using he
    · have he : exec (.lxAccept rk) s = .next (s.acceptRead (s.jointWords w)) := by
        simpa [hm, hf, Nat.not_le.2 hq] using he
      rw [he]
      obtain ⟨hnone, hpage, hmc⟩ := acceptRead_cases (s := s) (s.jointWords w)
      exact ⟨fun h => congrArg _ (hnone h), fun k sub va ia h => congrArg _ (hpage k sub va ia h),
        fun k sub va pa h => congrArg _ (hmc k sub va pa h)⟩
  · refine ⟨fun hb => ?_, lxStart_run hm hd hn⟩
    rw [lxStart_next hm hd hn, lxFails_of_badB hb]
  · have he := lxResultWrite_done h hr
    refine ⟨fun p hp => ?_, fun hp => ⟨fun ha => ?_, fun ha => ?_⟩⟩
    · rw [he, hp]
    · rw [he, hp]
      exact if_pos ha
    · rw [he, hp]
      exact if_neg (by simp only [ha, Bool.false_eq_true, not_false_eq_true])
  · rw [lxCompute_mul hj hm, mulJob_results]
  · exact ⟨fun hs hg hb => elemB_dense rd k n hs hg hb, fun hs h => elemB_dead rd sb hs h⟩
  · rw [lxCompute_accrd hj hw]
    have h := accrdJob_eq s j w v d fs clr wb coff
    simp only [accRuns_bytes] at h
    exact h
  · simp only [State.lxCompute, hj, hw, State.accMap]
  · rw [treeSum_fst, treeSum_fst, treeSum_fst, innerAdd_fst, pairSum_append f n xs ys hx hy]

end Sys2Proof.Machine
end

section
/-! PROOFS. The commands of the copy engine (R264 to R271): how a course runs in one step, and what each command does. -/

namespace Sys2Proof.Machine
open Sys2Proof

/- Elaborated side by side, these proofs wait for one another's equation lemmas, each with a stack of its own. -/
set_option Elab.async false

/-! ## The command in progress -/

/-- The command in progress of queue `q` of role `rk`, or of a firing `rk`, has got as far as `g`, and no pace is set. -/
structure EngAt (s : State) (rk q : Nat) (g : Prog) : Prop where
  prog : (s.cmdOf rk q).map Cmd.prog = some g
  pace : s.pace = none

section
variable {s t : State} {rk q : Nat} {g : Prog}

theorem cmdOf_role (hr : firstRole ≤ rk) : s.cmdOf rk q = (s.engQ rk q).run := if_neg (Nat.not_lt.2 hr)

theorem actor_role (hr : firstRole ≤ rk) : s.actor rk = rk := if_neg (Nat.not_lt.2 hr)

theorem EngAt.prog_eq (h : EngAt s rk q g) : s.prog rk q = g := by
  rw [State.prog, h.prog]
  rfl

/-- Nothing but the roles' engines, the firings and the pace counts. -/
theorem EngAt.of_engs (h : EngAt s rk q g) (he : (t.role rk).engs = (s.role rk).engs) (hp : t.pace = s.pace)
    (hf : t.fired = s.fired := by rfl) : EngAt t rk q g := by
  refine ⟨?_, hp.trans h.pace⟩
  have hcmd : t.cmdOf rk q = s.cmdOf rk q := by
    have heng : t.engQ rk q = s.engQ rk q := congrArg (fun m => NMap.get EngQ.empty m q) he
    rw [State.cmdOf, State.cmdOf, heng, hf]
  rw [hcmd]
  exact h.prog

theorem engQ_updCmd (hr : firstRole ≤ rk) (f : Cmd → Cmd) :
    (s.updCmd rk q f).engQ rk q = { s.engQ rk q with run := (s.engQ rk q).run.map f } := by
  rw [State.updCmd, if_neg (Nat.not_lt.2 hr), State.engQ, State.role_updRole_self]
  exact NMap.get_put_self _ _ _ _

/-- A firing's record after a change of those that bear a name. -/
theorem get?_map_fired (m : NMap Fired) (id : Nat) (f : Cmd → Cmd) :
    NMap.get? (m.map fun e => if e.1 = id then (e.1, { e.2 with cmd := f e.2.cmd }) else e) id =
      (NMap.get? m id).map fun e => { e with cmd := f e.cmd } := by
  induction m with
  | nil => rfl
  | cons e m ih =>
    obtain ⟨k, v⟩ := e
    by_cases hk : k = id
    · simp [NMap.get?, hk]
    · simp [NMap.get?, hk, Ne.symm hk, ih]

theorem cmdOf_updCmd (f : Cmd → Cmd) : (s.updCmd rk q f).cmdOf rk q = (s.cmdOf rk q).map f := by
  by_cases hr : rk < firstRole
  · rw [State.updCmd, if_pos hr, State.cmdOf, if_pos hr, State.cmdOf, if_pos hr, get?_map_fired, Option.map_map,
      Option.map_map]
    rfl
  · rw [cmdOf_role (Nat.not_lt.1 hr), engQ_updCmd (Nat.not_lt.1 hr), cmdOf_role (Nat.not_lt.1 hr)]

theorem updCmd_pace (f : Cmd → Cmd) : (s.updCmd rk q f).pace = s.pace := by
  unfold State.updCmd
  split
  · rfl
  · exact State.updRole_pace ..

theorem EngAt.updCmd (h : EngAt s rk q g) {f : Cmd → Cmd} {f' : Prog → Prog} (hf : ∀ c, (f c).prog = f' c.prog) :
    EngAt (s.updCmd rk q f) rk q (f' g) := by
  refine ⟨?_, (updCmd_pace f).trans h.pace⟩
  have hg := h.prog
  rw [cmdOf_updCmd]
  cases hr : s.cmdOf rk q with
  | none => simp [hr] at hg
  | some c =>
    simp only [hr, Option.map_some, Option.some.injEq] at hg ⊢
    rw [hf, hg]

theorem EngAt.updProg (h : EngAt s rk q g) (f : Prog → Prog) : EngAt (s.updProg rk q f) rk q (f g) :=
  h.updCmd fun _ => rfl

theorem EngAt.chargeMove (h : EngAt s rk q g) (home : Bool) (prev : Option Acc) (a : Acc) :
    EngAt (s.chargeMove rk q home prev a) rk q g := by
  have h1 := h.updCmd (f := fun c => { c with fare := c.fare + s.moveCost (s.actor rk) home prev a }) (f' := id) fun _ => rfl
  unfold State.chargeMove
  dsimp only
  split
  · exact h1.of_engs rfl (State.updCluster_pace ..)
  · exact h1

theorem noteReads_kept (s : State) (rk : Nat) (as : List Acc) :
    (s.noteReads rk as).roles = s.roles ∧ (s.noteReads rk as).pace = s.pace ∧ (s.noteReads rk as).fired = s.fired := by
  refine ⟨foldl_proj_eq State.roles (fun t a => ?_) as s, foldl_proj_eq State.pace (fun t a => ?_) as s,
    foldl_proj_eq State.fired (fun t a => ?_) as s⟩ <;>
    (cases a.sp <;> rfl)

theorem EngAt.noteReads (h : EngAt s rk q g) (k : Nat) (as : List Acc) : EngAt (s.noteReads k as) rk q g :=
  have hk := noteReads_kept s k as
  h.of_engs (congrArg (fun m => (NMap.get Role.empty m rk).engs) hk.1) hk.2.1 hk.2.2

/-! ## Reads and writes in order (R317) -/

theorem has_put {α : Type} (m : NMap α) (k : Nat) (v : α) {j : Nat} (h : m.has j = true ∨ j = k) :
    (m.put k v).has j = true := by
  by_cases hk : j = k
  · subst hk; exact NMap.has_put_self m j v
  · rw [NMap.has, NMap.get?_put_ne m v hk]
    exact h.resolve_right hk

theorem courseReads_of_readAll {l : List Read} {n : Nat} (h : EngAt s rk q g) (hup : g.upTo = none)
    (hr : readAll rk q l s = some t) (hn : l.length ≤ n) :
    courseReads rk q l n s = (.done t, n - l.length) ∧
    ∃ vs, EngAt t rk q { g with vals := vs } ∧ ∀ k, g.vals.has k = true ∨ k ∈ l.map Prod.fst → vs.has k = true := by
  induction l generalizing s n g with
  | nil =>
    cases hr
    exact ⟨rfl, g.vals, h, fun k => by simp⟩
  | cons e l ih =>
    cases n with
    | zero => cases hn
    | succ n =>
      rw [readAll] at hr
      split at hr
      · cases hr
      · next hw =>
        split at hr
        · next bs hl hb =>
          have h1 := ((h.noteReads (s.actor rk) [e.2.2]).chargeMove false e.2.1 e.2.2).updProg
            (fun g => { g with vals := g.vals.put e.1 bs })
          obtain ⟨hc, vs, hv, hk⟩ := ih h1 hup hr (Nat.le_of_succ_le_succ hn)
          refine ⟨?_, vs, hv, fun k => ?_⟩
          · have hread : s.courseRead rk q e = .go (((s.noteReads (s.actor rk) [e.2.2]).chargeMove rk q false e.2.1
                e.2.2).updProg rk q fun g => { g with vals := g.vals.put e.1 bs }) := by
              simp only [State.courseRead, hw, hl, hb, if_false, Bool.false_eq_true]
            simp only [courseReads, h.prog_eq, hup, Option.any_none, Bool.false_eq_true, if_false, hread, hc,
              List.length_cons, Nat.add_sub_add_right]
          · exact fun h => hk k (by
              rcases h with h | h
              · exact .inl (has_put _ _ _ (.inl h))
              · rcases List.mem_cons.1 h with h | h
                · exact .inl (has_put _ _ _ (.inr h))
                · exact .inr h)
        · cases hr

theorem courseWrites_of_writeAll {home : Bool} {put : Put} {ws : List CopyW} {prev : Option CopyW} {n : Nat}
    (hw : writeAll rk q home put prev ws s = some t) (hn : ws.length ≤ n) :
    courseWrites rk q home put ws prev n s = .done t := by
  induction ws generalizing s n prev with
  | nil =>
    cases hw
    cases n <;> rfl
  | cons w ws ih =>
    cases n with
    | zero => cases hn
    | succ n =>
      rw [writeAll] at hw
      split at hw
      · cases hw
      · next hwait =>
        split at hw
        · next s1 hl hp =>
          have hone : s.courseWrite rk q home put prev w = .go ((s1.chargeMove rk q home (prev.map CopyW.acc) w.acc).updProg
              rk q fun g => { g with wrote := g.wrote + 1, count := g.count + w.count,
                                     lines := g.lines ++ if home then [] else s.lostUnder (s.actor rk) w }) := by
            simp only [State.courseWrite, hwait, hl, hp, if_false, Bool.false_eq_true]
          simp only [courseWrites, hone, ih hw (Nat.le_of_succ_le_succ hn)]
        · cases hw

/-- What every write of a command keeps, all of them keep. -/
theorem writeAll_keeps {P : State → Prop} {home : Bool} {put : Put}
    (hput : ∀ {s t : State} {i : Nat} {w : CopyW}, P s → put s i w = some t → P t)
    (hmove : ∀ {s : State} (prev : Option Acc) (w : CopyW) (ls : List Nat), P s →
      P ((s.chargeMove rk q home prev w.acc).updProg rk q fun g =>
        { g with wrote := g.wrote + 1, count := g.count + w.count, lines := g.lines ++ ls }))
    {ws : List CopyW} {prev : Option CopyW} (h : P s) (hw : writeAll rk q home put prev ws s = some t) : P t := by
  induction ws generalizing s prev with
  | nil =>
    cases hw
    exact h
  | cons w ws ih =>
    rw [writeAll] at hw
    split at hw
    · cases hw
    · split at hw
      · next s1 hl hp => exact ih (hmove _ w _ (hput h hp)) hw
      · cases hw

/-- The command has made the reads of `g`. -/
def ReadsAt (rk q : Nat) (g : Prog) (s : State) : Prop :=
  ∃ h, EngAt s rk q h ∧ h.vals = g.vals ∧ h.upTo = g.upTo ∧ h.lost = g.lost

theorem ReadsAt.of_move {home : Bool} (prev : Option Acc) (w : CopyW) (ls : List Nat) (h : ReadsAt rk q g s) :
    ReadsAt rk q g ((s.chargeMove rk q home prev w.acc).updProg rk q fun g =>
      { g with wrote := g.wrote + 1, count := g.count + w.count, lines := g.lines ++ ls }) := by
  obtain ⟨g1, h1, hv, hu, hl⟩ := h
  exact ⟨_, (h1.chargeMove home prev w.acc).updProg _, hv, hu, hl⟩

/-- No pace is set, and the command, if it is still there, has met no lost line. -/
structure GoesOn (rk q : Nat) (s : State) : Prop where
  pace : s.pace = none
  bad : (s.prog rk q).bad = false

theorem EngAt.goesOn (h : EngAt s rk q g) (hb : g.bad = false) : GoesOn rk q s := ⟨h.pace, by rw [h.prog_eq, hb]⟩

theorem GoesOn.updCmd (h : GoesOn rk q s) (hr : firstRole ≤ rk) {f : Cmd → Cmd} (hf : ∀ c, (f c).prog.bad = c.prog.bad) :
    GoesOn rk q (s.updCmd rk q f) := by
  refine ⟨(updCmd_pace f).trans h.pace, ?_⟩
  have hb := h.bad
  rw [State.prog, cmdOf_role hr] at hb ⊢
  rw [engQ_updCmd hr]
  cases hc : (s.engQ rk q).run with
  | none => rfl
  | some c => exact (hf c).trans (by simpa [hc] using hb)

/-- The engines of a role, the firings and the pace stay. -/
structure SameEngs (rk : Nat) (s t : State) : Prop where
  pace : t.pace = s.pace
  fired : t.fired = s.fired
  engs : (t.role rk).engs = (s.role rk).engs

/-- The engines of a role stay, or go with the role; the pace stays. -/
structure EngsKept (rk : Nat) (s t : State) : Prop where
  pace : t.pace = s.pace
  engs : (t.role rk).engs = (s.role rk).engs ∨ (t.role rk).engs = []

theorem SameEngs.kept (h : SameEngs rk s t) : EngsKept rk s t := ⟨h.pace, .inl h.engs⟩

theorem GoesOn.of_engs (h : GoesOn rk q s) (hr : firstRole ≤ rk) (hk : EngsKept rk s t) : GoesOn rk q t := by
  refine ⟨hk.pace.trans h.pace, ?_⟩
  have hb := h.bad
  rw [State.prog, cmdOf_role hr, State.engQ, Role.eng] at hb ⊢
  rcases hk.engs with he | he
  · rw [he, hb]
  · rw [he]
    rfl

theorem GoesOn.chargeMove (h : GoesOn rk q s) (hr : firstRole ≤ rk) (home : Bool) (prev : Option Acc) (a : Acc) :
    GoesOn rk q (s.chargeMove rk q home prev a) := by
  have h1 := h.updCmd hr (f := fun c => { c with fare := c.fare + s.moveCost (s.actor rk) home prev a }) fun _ => rfl
  unfold State.chargeMove
  dsimp only
  split
  · exact h1.of_engs hr ⟨State.updCluster_pace .., .inl rfl⟩
  · exact h1

theorem GoesOn.of_move (hr : firstRole ≤ rk) {home : Bool} (prev : Option Acc) (w : CopyW) (ls : List Nat)
    (h : GoesOn rk q s) : GoesOn rk q ((s.chargeMove rk q home prev w.acc).updProg rk q fun g =>
      { g with wrote := g.wrote + 1, count := g.count + w.count, lines := g.lines ++ ls }) :=
  (h.chargeMove hr home prev w.acc).updCmd hr fun _ => rfl

/-! ## A course in one step -/

section
variable {x : Course} {put : Put} {fin : State → Res}

/-- A command that has not made an access. -/
structure Prog.Unmoved (g : Prog) : Prop where
  vals : g.vals = []
  upTo : g.upTo = none
  lost : g.lost = false
  wrote : g.wrote = 0
  count : g.count = 0

theorem todo_unmoved (hg : g.Unmoved) : x.todo g = x.numbered := by
  unfold Course.todo Course.numbered
  refine List.filter_eq_self.2 fun e he => ?_
  obtain ⟨a, ha, rfl⟩ := List.mem_map.1 he
  have hlt := List.snd_lt_of_mem_zipIdx ha
  simp only [hg.upTo, hg.vals, Option.getD_none, NMap.has, NMap.get?]
  simp at hlt ⊢
  omega

theorem numbered_length : x.numbered.length = x.reads.length := by
  simp [Course.numbered]

theorem todo_read {vs : NMap (List Byte)} (h : ∀ k, k ∈ x.numbered.map Prod.fst → vs.has k = true) :
    x.todo { g with vals := vs } = [] := by
  unfold Course.todo
  refine List.filter_eq_nil_iff.2 fun e he => ?_
  simp [h e.1 (List.mem_map_of_mem he)]

/-- A course whose writes are dropped where its values show a failing status. -/
def Course.checked (x : Course) : Course :=
  { x with writes := fun vs e => if e && (x.fails vs).isSome then [] else x.writes vs e }

theorem courseGo_of_readAll (h : EngAt s rk q g) (hg : g.Unmoved) (hr : readAll rk q x.numbered s = some t) :
    (∃ vs, EngAt t rk q { g with vals := vs } ∧ x.todo { g with vals := vs } = []) ∧
    courseGo rk q x.checked put (s.pace.getD (x.reads.length + x.most + 1)) s =
      courseWrites rk q x.home put (x.checked.writes (t.prog rk q).got true) none (x.most + 1) t := by
  have hlen : x.numbered.length ≤ x.reads.length + x.most + 1 := by rw [numbered_length]; omega
  obtain ⟨hc, vs, hv, hk⟩ := courseReads_of_readAll h hg.upTo hr hlen
  have htodo : x.checked.todo (s.prog rk q) = x.numbered := by
    rw [h.prog_eq]
    exact todo_unmoved hg
  have hleft : x.reads.length + x.most + 1 - x.numbered.length = x.most + 1 := by rw [numbered_length]; omega
  have hwrote : (t.prog rk q).wrote = 0 := by rw [hv.prog_eq]; exact hg.wrote
  refine ⟨⟨vs, hv, todo_read fun k hk' => hk k (.inr hk')⟩, ?_⟩
  have horder : s.readOrder x.numbered = x.numbered := by simp [State.readOrder, h.pace]
  simp only [courseGo, h.pace, Option.isSome_none, Bool.and_false, Bool.false_eq_true, if_false, htodo, horder,
    Option.getD_none, hc, hleft, hwrote, writeBefore, if_true, List.drop_zero]
  rfl

theorem runCourse_done {u : State}
    (h : courseGo rk q x.checked put (s.pace.getD (x.reads.length + x.most + 1)) s = .done u) :
    s.runCourse rk q x put fin =
      match u.courseFails rk q x with
      | some n => .next (u.cmdEnd rk q n 0)
      | none => fin u := by
  unfold State.runCourse
  rw [← Course.checked]
  simp only [h] <;> rfl

/-- A course that runs in one step comes to its end, where its values show no status then either. -/
theorem runCourse_runs (h : EngAt s rk q g) (hg : g.Unmoved) {u : State} (hrun : CourseRuns s rk q x put u)
    (hok : u.courseFails rk q x = none) : s.runCourse rk q x put fin = fin u := by
  obtain ⟨t, hr, hf, hmost, hw⟩ := hrun
  obtain ⟨-, hgo⟩ := courseGo_of_readAll (put := put) h hg hr
  have hchk : x.checked.writes (t.prog rk q).got true = x.writes (t.prog rk q).got true := by
    simp [Course.checked, hf]
  rw [hchk, courseWrites_of_writeAll hw (by omega)] at hgo
  rw [runCourse_done hgo, hok]

theorem courseRuns_reads (h : EngAt s rk q g) (hg : g.Unmoved) (hput : ∀ {s t : State} {g : Prog} {i : Nat} {w : CopyW},
      ReadsAt rk q g s → put s i w = some t → ReadsAt rk q g t)
    {u : State} (hrun : CourseRuns s rk q x put u) : u.courseFails rk q x = none ∧ GoesOn rk q u ∧ ∃ g', EngAt u rk q g' := by
  obtain ⟨t, hr, hf, hmost, hw⟩ := hrun
  obtain ⟨⟨vs, hv, -⟩, -⟩ := courseGo_of_readAll (put := put) h hg hr
  obtain ⟨g2, hu, hvals, hup, hlost⟩ := writeAll_keeps hput ReadsAt.of_move ⟨_, hv, rfl, rfl, rfl⟩ hw
  have hgot : g2.got = (t.prog rk q).got := by
    rw [hv.prog_eq, Prog.got, hvals]
    rfl
  constructor
  · unfold State.courseFails
    dsimp only
    split
    · rw [hu.prog_eq, hgot, hf]
    · rfl
  · refine ⟨hu.goesOn ?_, g2, hu⟩
    rw [Prog.bad, hup, hlost]
    simp [hg.upTo, hg.lost]

theorem courseRuns_goesOn (hr : firstRole ≤ rk) (h : EngAt s rk q g) (hg : g.Unmoved)
    (hput : ∀ {s t : State} {i : Nat} {w : CopyW}, GoesOn rk q s → put s i w = some t → GoesOn rk q t)
    {u : State} (hrun : CourseRuns s rk q x put u) : GoesOn rk q u := by
  obtain ⟨t, hread, hf, hmost, hw⟩ := hrun
  obtain ⟨⟨vs, hv, -⟩, -⟩ := courseGo_of_readAll (put := put) h hg hread
  refine writeAll_keeps hput (GoesOn.of_move hr) (hv.goesOn ?_) hw
  simp [Prog.bad, hg.upTo, hg.lost]

/-- A course whose values show a failing status makes no write (R266, R269). -/
theorem runCourse_fails (h : EngAt s rk q g) (hg : g.Unmoved) (hr : readAll rk q x.numbered s = some t) {n : Nat}
    (hf : x.fails (t.prog rk q).got = some n) : s.runCourse rk q x put fin = .next (t.cmdEnd rk q n 0) := by
  obtain ⟨⟨vs, hv, htodo⟩, hgo⟩ := courseGo_of_readAll (put := put) h hg hr
  have hchk : x.checked.writes (t.prog rk q).got true = [] := by simp [Course.checked, hf]
  rw [hchk] at hgo
  have hok : t.courseFails rk q x = some n := by
    have hwrote : (t.prog rk q).wrote = 0 := by rw [hv.prog_eq]; exact hg.wrote
    have hall : x.todo (t.prog rk q) = [] := by rw [hv.prog_eq]; exact htodo
    simp [State.courseFails, hwrote, hall, hf]
  rw [runCourse_done hgo, hok]

end

end

/-! ## What a write of a command leaves of its engine -/

section
variable {s t u : State} {rk : Nat}

theorem SameEngs.refl (s : State) : SameEngs rk s s := ⟨rfl, rfl, rfl⟩

theorem SameEngs.trans (h : SameEngs rk s t) (g : SameEngs rk t u) : SameEngs rk s u :=
  ⟨g.pace.trans h.pace, g.fired.trans h.fired, g.engs.trans h.engs⟩

theorem SameEngs.of_roles (hr : t.roles = s.roles) (hp : t.pace = s.pace) (hf : t.fired = s.fired := by rfl) :
    SameEngs rk s t :=
  ⟨hp, hf, congrArg (fun m => (NMap.get Role.empty m rk).engs) hr⟩

theorem SameEngs.foldl {β : Type} {f : State → β → State} (hf : ∀ t x, SameEngs rk t (f t x)) (l : List β) (s : State) :
    SameEngs rk s (l.foldl f s) := by
  induction l generalizing s with
  | nil => exact .refl s
  | cons x l ih => exact (hf s x).trans (ih (f s x))

/-- A memory step leaves the engines of every role. -/
theorem MemStep.sameEngs (h : MemStep s t) (rk : Nat) : SameEngs rk s t :=
  ⟨(show State.pace { t with roles := s.roles, hbm := s.hbm, dirty := s.dirty } = _ from congrArg State.pace h.rest),
    (show State.fired { t with roles := s.roles, hbm := s.hbm, dirty := s.dirty } = _ from congrArg State.fired h.rest),
    (show ((t.role rk).sameWaits (s.role rk)).engs = _ from congrArg Role.engs (h.role rk))⟩

theorem EngsKept.trans (h : EngsKept rk s t) (g : EngsKept rk t u) : EngsKept rk s u :=
  ⟨g.pace.trans h.pace, g.engs.elim (fun e => h.engs.imp e.trans e.trans) .inr⟩

theorem scratchStore_engs (s : State) (rk tk ea : Nat) (bs : List Byte) : SameEngs rk s (s.scratchStore tk ea bs) := by
  unfold State.scratchStore State.storeBack
  refine SameEngs.trans (t := s.updTeam tk _) (.of_roles rfl rfl) (.foldl (fun t v => ?_) _ _)
  dsimp only
  split
  · split
    · exact (memStep_storeX ..).sameEngs rk
    · exact .refl _
  · exact .refl _

theorem setFull_engs (s : State) (rk tk ea n : Nat) (v : Bool) : SameEngs rk s (s.setFull tk ea n v) := by
  unfold State.setFull
  refine SameEngs.trans (t := s.updTeam tk _) (.of_roles rfl rfl) (.foldl (fun t g => ?_) _ _)
  unfold State.backFull
  split
  · split
    · exact (memStep_homeWriteX ..).sameEngs rk
    · exact .refl _
  · exact .refl _

theorem clearLost_engs (s : State) (rk : Nat) (ls : List Nat) : SameEngs rk s (s.clearLost ls) :=
  SameEngs.foldl (fun _ _ => .of_roles (State.updDie_roles ..) (State.updDie_pace ..)) ls s

theorem copyWrite_engs {cover : List Acc} {srcs : List (Nat × Nat × Nat)} {w : CopyW}
    (h : s.copyWrite rk cover srcs w = some t) (k : Nat) : SameEngs k s t := by
  unfold State.copyWrite at h
  dsimp only at h
  split at h
  · split at h
    · cases h
    · cases h
      exact (scratchStore_engs ..).trans (setFull_engs ..)
  · cases h
    exact .of_roles rfl rfl
  · split at h
    · cases h
    · split at h
      · cases h
        exact (clearLost_engs ..).trans ((memStep_homeWriteX ..).sameEngs k)
      · cases h

theorem copyPut_reads {q : Nat} {p : Plan} {srcs : List (Nat × Nat × Nat)} {g : Prog} {i : Nat} {w : CopyW}
    (h : ReadsAt rk q g s) (hp : copyPut rk q p srcs s i w = some t) : ReadsAt rk q g t := by
  obtain ⟨g1, h1, hg⟩ := h
  obtain ⟨s1, hs1, rfl⟩ := Option.map_eq_some_iff.1 hp
  have hk := copyWrite_engs hs1 rk
  exact ⟨g1, (h1.of_engs hk.engs hk.pace hk.fired).updCmd (f' := id) fun _ => rfl, hg⟩

theorem ringWrite_engs {vf : Nat} {r : FaultRec} (h : s.ringWrite vf r = some t) (k : Nat) : SameEngs k s t := by
  unfold State.ringWrite at h
  dsimp only at h
  split at h
  · cases h
  · split at h
    · cases h
      exact ((memStep_homeWriteX ..).sameEngs k).trans (.of_roles rfl rfl)
    · cases h

theorem addRec_engs (s : State) (rk vf : Nat) (i : RecInfo) (stops : Option Nat) : SameEngs rk s (s.addRec vf i stops) := by
  unfold State.addRec State.putRec
  dsimp only
  refine SameEngs.trans (t := { s with nextRec := s.nextRec + 1, free := s.free + 1 }) (.of_roles rfl rfl) ?_
  generalize ({ s with nextRec := s.nextRec + 1, free := s.free + 1 } : State) = u
  split
  · exact .of_roles rfl rfl
  · split
    · next s1 hs1 =>
      exact (ringWrite_engs hs1 rk).trans (.of_roles (State.updVf_roles ..) (State.updVf_pace ..))
    · exact .of_roles rfl rfl

theorem mergeWhere_engs (s : State) (rk die : Nat) (p : Delta → Bool) : SameEngs rk s (s.mergeWhere die p) := by
  unfold State.mergeWhere State.mergeAs
  dsimp only
  refine SameEngs.trans (t := s.updDie die _) (.of_roles rfl rfl) (.foldl (fun t d => ?_) _ _)
  have hhold (i : RecInfo) : SameEngs rk t (t.holdMerge die none d i) :=
    (addRec_engs ..).trans (.of_roles (State.updDie_roles ..) (State.updDie_pace ..))
  unfold State.mergeDelta
  dsimp only
  split
  · split
    · exact (memStep_homeWriteX ..).sameEngs rk
    · exact .refl _
  · exact hhold _
  · exact hhold _
  · exact .refl _

/-- The state in which an update finds its delta: a full bin is merged first (R122). -/
def State.wbSpare (s : State) (die vf idx bits : Nat) : State :=
  if (match s.deltaOf die vf idx with
      | some d => decide (0xFFFF ≤ d.bins.get 0 (wbBin bits))
      | none => false) = true then s.mergeWhere die fun d => d.isFor vf idx else s

/-- An update of a delta, which is merged once it has 4096 (R122). -/
def State.wbCount (s : State) (die vf idx : Nat) (d : Delta) : State :=
  if 4096 ≤ d.updates then (s.deltaPut die d).mergeWhere die fun e => e.isFor vf idx else s.deltaPut die d

/-- The delta of an update, and the state that has room for it. -/
def State.wbDelta (s : State) (die vf idx : Nat) : Delta × State :=
  match s.deltaOf die vf idx with
  | some d => (d, s)
  | none => (Delta.fresh vf idx s.refTick.toNat, s.deltaRoom die)

theorem wbUpdate_eq (s : State) (tk die vf idx bits : Nat) : s.wbUpdate tk die vf idx bits =
    ((s.wbSpare die vf idx bits).wbDelta die vf idx).2.wbCount die vf idx
      (((s.wbSpare die vf idx bits).wbDelta die vf idx).1.add tk bits) := rfl

theorem wbUpdate_engs (s : State) (rk tk die vf idx bits : Nat) : SameEngs rk s (s.wbUpdate tk die vf idx bits) := by
  have hroom (u : State) : SameEngs rk u (u.deltaRoom die) := by
    unfold State.deltaRoom
    split
    · split
      · exact mergeWhere_engs ..
      · exact .refl u
    · exact .refl u
  have hcount (u : State) (d : Delta) : SameEngs rk u (u.wbCount die vf idx d) := by
    have h1 : SameEngs rk u (u.deltaPut die d) := .of_roles (State.updDie_roles ..) (State.updDie_pace ..)
    unfold State.wbCount
    split
    · exact h1.trans (mergeWhere_engs ..)
    · exact h1
  have hspare : SameEngs rk s (s.wbSpare die vf idx bits) := by
    unfold State.wbSpare
    split <;> split
    · exact mergeWhere_engs ..
    · exact .refl s
    · exact mergeWhere_engs ..
    · exact .refl s
  have hdelta (u : State) : SameEngs rk u (u.wbDelta die vf idx).2 := by
    unfold State.wbDelta
    split
    · exact .refl u
    · exact hroom u
  rw [wbUpdate_eq]
  exact hspare.trans ((hdelta _).trans (hcount ..))

theorem wbFeed_engs (s : State) (k rk idx : Nat) (f : Fmt) (bits : Nat) : SameEngs k s (s.wbFeed rk idx f bits) := by
  unfold State.wbFeed
  split
  · exact .of_roles rfl rfl
  · exact wbUpdate_engs ..

theorem abortTeam_pace (s : State) (tk cause : Nat) : (s.abortTeam tk cause).pace = s.pace := by
  have hadopt (u : State) (c : Nat) : (u.adopt c).pace = u.pace := by
    unfold State.adopt
    dsimp only
    split <;> rfl
  have hpost (u : State) (c vf : Nat) : (u.postMeter c vf).pace = u.pace := by
    unfold State.postMeter
    dsimp only
    split
    · rfl
    · split <;> rfl
  have hsettle : (s.settleCmds tk).pace = s.pace := by
    unfold State.settleCmds
    dsimp only
    split <;> rfl
  unfold State.abortTeam
  dsimp only
  rw [hadopt, hpost, State.updLaunch_pace, State.updCore_pace, State.updTeam_pace, ← hsettle]
  rfl

theorem abortTeam_engs (s : State) (rk tk cause : Nat) : EngsKept rk s (s.abortTeam tk cause) := by
  refine ⟨abortTeam_pace s tk cause, ?_⟩
  by_cases h : teamOf rk = tk
  · right
    have hno : (s.abortTeam tk cause).hasRole rk = false := by
      rw [State.hasRole, abortTeam_roles]
      exact has_keep fun v => by rw [h]; exact bne_self_eq_false _
    have hnone : (s.abortTeam tk cause).roles.get? rk = none := by simpa [State.hasRole, NMap.has] using hno
    rw [State.role, NMap.get_eq_getD, hnone]
    rfl
  · exact .inl (congrArg Role.engs (abortTeam_role s tk cause h))

theorem satEvents_engs (s : State) (rk tk n : Nat) : EngsKept rk s (s.satEvents tk n) := by
  unfold State.satEvents
  split
  · exact (SameEngs.refl s).kept
  · have h1 : EngsKept rk s (s.updTeam tk fun t => { t with satCnt := Nat.min 0xFFFF (t.satCnt + n) }) :=
      SameEngs.kept (.of_roles (State.updTeam_roles ..) (State.updTeam_pace ..))
    dsimp only
    split
    · unfold State.trip
      dsimp only
      split
      · exact h1
      · split
        · exact h1.trans (abortTeam_engs ..)
        · exact h1.trans (SameEngs.kept (.of_roles (State.updTeam_roles ..) (State.updTeam_pace ..)))
    · exact h1

theorem rdstFeed_engs (s : State) (k rk : Nat) (x : RdstCmd) (sl : Slot) (raw bits : Nat) :
    SameEngs k s (s.rdstFeed rk x sl raw bits) := by
  unfold State.rdstFeed
  split
  · exact .refl _
  · split <;> exact wbFeed_engs ..

theorem rdstPut_goesOn {q : Nat} {x : RdstCmd} {ff : FF} {sl : Slot} {srcs : List (Nat × Nat × Nat)} {i : Nat} {w : CopyW}
    (hr : firstRole ≤ rk) (h : GoesOn rk q s) (hp : rdstPut rk q x ff sl srcs s i w = some t) : GoesOn rk q t := by
  unfold rdstPut at hp
  split at hp
  · next y hy =>
    cases hp
    refine GoesOn.of_engs ?_ hr (satEvents_engs ..)
    refine GoesOn.of_engs ?_ hr (rdstFeed_engs ..).kept
    refine GoesOn.updCmd (GoesOn.of_engs h hr (SameEngs.kept ?_)) hr fun _ => rfl
    exact ((memStep_homeWriteX ..).sameEngs rk).trans (.of_roles rfl rfl)
  · cases hp

end

/-! ## The commands -/

section
variable {s t u : State} {rk q : Nat} {c : Cmd} {g : Prog}

theorem engineOp_ready (h : EngineReady s rk q c) (k : Nat → Nat → Cmd → Res) : engineOp s k = k rk q c := by
  simp only [engineOp, h.cur, cmdOf_role h.role, h.run, h.result, h.stall, Option.isSome_none, Bool.or_self,
    Bool.false_eq_true, if_false]

theorem cmdWait_ready (h : EngineReady s rk q c) (wt : Option (W64 × W64)) (k : State → Res) : s.cmdWait rk q c wt k = k s := by
  cases wt with
  | none => rfl
  | some p => simp only [State.cmdWait, h.token, Bool.not_false, if_true]

theorem EngineReady.engAt (h : EngineReady s rk q c) (hp : s.pace = none) : EngAt s rk q c.prog :=
  ⟨by rw [cmdOf_role h.role, h.run]; rfl, hp⟩

theorem unmoved_fresh : Prog.fresh.Unmoved := ⟨rfl, rfl, rfl, rfl, rfl⟩

theorem planFails_ready {p : Plan} {b : Bool} (h : PlanReady s rk p b) : s.planFails rk p b = none := by
  have hgrain : (b && s.grainBad (s.vf (s.vfOf rk)).part (s.accIas rk (p.writes ++ p.extra))) = false := by
    cases b with
    | false => rfl
    | true => exact h.grain rfl
  simp [State.planFails, h.legal, h.aligned, hgrain]

theorem runPlan_begins {p : Plan} {b : Bool} (h : PlanReady s rk p b) (hb : (s.prog rk q).begun = false) (k : State → Res) :
    s.runPlan rk q c p b k = k (s.beginCmd rk q p b c.seed) := by
  simp only [State.runPlan, hb, planFails_ready h, Bool.false_eq_true, if_false]

theorem runPlan_begun {p : Plan} {b : Bool} (hb : (s.prog rk q).begun = true) (k : State → Res) :
    s.runPlan rk q c p b k = k s := if_pos hb

theorem EngAt.beginCmd (h : EngAt s rk q g) (hg : g.Unmoved) (p : Plan) (b : Bool) (seed : W32) :
    ∃ g', EngAt (s.beginCmd rk q p b seed) rk q g' ∧ g'.Unmoved := by
  unfold State.beginCmd
  exact ⟨_, h.updProg _, hg.vals, hg.upTo, hg.lost, hg.wrote, hg.count⟩

theorem copyElems_runs {p : Plan} (h : EngAt s rk q g) (hg : g.Unmoved) (hb : g.begun = false) (hplan : PlanReady s rk p true)
    (hrun : CourseRuns (s.beginCmd rk q p true c.seed) rk q (copyCourse p)
      (copyPut rk q p ((s.beginCmd rk q p true c.seed).accLocs rk p.reads)) u) :
    s.copyElems rk q c p = .next (u.copyEnd rk q) := by
  obtain ⟨g1, h1, hg1⟩ := h.beginCmd hg p true c.seed
  rw [State.copyElems, runPlan_begins hplan (by rw [h.prog_eq, hb])]
  exact runCourse_runs h1 hg1 hrun (courseRuns_reads h1 hg1 copyPut_reads hrun).1

theorem cp_runs {x : CpCmd} (h : EngineReady s rk q c) (hf : c.prog = .fresh) (hp : s.pace = none)
    (hplan : PlanReady s rk (cpPlan x) true)
    (hrun : CourseRuns (s.beginCmd rk q (cpPlan x) true c.seed) rk q (copyCourse (cpPlan x))
      (copyPut rk q (cpPlan x) ((s.beginCmd rk q (cpPlan x) true c.seed).accLocs rk (cpPlan x).reads)) u) :
    exec (.cp x) s = .next (u.copyEnd rk q) := by
  have harm : exec (.cp x) s = execCp x s := rfl
  rw [harm, execCp, engineOp_ready h, cmdWait_ready h]
  exact copyElems_runs (h.engAt hp) (hf ▸ unmoved_fresh) (by rw [hf]; rfl) hplan hrun

theorem fill_runs {x : FillCmd} (h : EngineReady s rk q c) (hf : c.prog = .fresh) (hp : s.pace = none)
    (hplan : PlanReady s rk (fillPlan x) true)
    (hrun : CourseRuns (s.beginCmd rk q (fillPlan x) true c.seed) rk q (fillCourse x s.free)
      (copyPut rk q (fillPlan x) []) u) :
    exec (.fill x) s = .next (u.copyEnd rk q) := by
  have hat := h.engAt hp
  have hg : c.prog.Unmoved := hf ▸ unmoved_fresh
  obtain ⟨g1, h1, hg1⟩ := hat.beginCmd hg (fillPlan x) true c.seed
  have hfree : (s.beginCmd rk q (fillPlan x) true c.seed).free = s.free := by
    unfold State.beginCmd State.updProg State.updCmd
    dsimp only
    split <;> rfl
  have harm : exec (.fill x) s = execFill x s := rfl
  rw [harm, execFill, engineOp_ready h, cmdWait_ready h, runPlan_begins hplan (by rw [hat.prog_eq, hf]; rfl), hfree]
  exact runCourse_runs h1 hg1 hrun (courseRuns_reads h1 hg1 copyPut_reads hrun).1

theorem gath_runs {x : GathCmd} (h : EngineReady s rk q c) (hf : c.prog = .fresh) (hp : s.pace = none) :
    let p0 : Plan := ⟨gathIdx x, [], [], false⟩
    PlanReady s rk p0 false →
    CourseRuns (s.beginCmd rk q p0 false c.seed) rk q (copyCourse p0) (fun _ _ _ => none) t →
    let ix := (t.prog rk q).got.map leNat
    let p := gathPlan x ix
    let t1 := t.updProg rk q fun _ => { Prog.fresh with idx := some ix }
    PlanReady t1 rk p true →
    let t2 := t1.beginCmd rk q p true c.seed
    CourseRuns t2 rk q (copyCourse p) (copyPut rk q p (t2.accLocs rk p.reads)) u →
    exec (.gath x) s = .next (u.copyEnd rk q) := by
  intro p0 hplan hidx ix p t1 hplan1 t2 hrun
  have hat := h.engAt hp
  have hg : c.prog.Unmoved := hf ▸ unmoved_fresh
  obtain ⟨g1, h1, hg1⟩ := hat.beginCmd hg p0 false c.seed
  obtain ⟨hok, hgo, g2, h2⟩ := courseRuns_reads h1 hg1 (fun _ hn => by cases hn) hidx
  have hno : (s.prog rk q).idx = none := by rw [hat.prog_eq, hf]; rfl
  have hfirst : (s.prog rk q).begun = false := by rw [hat.prog_eq, hf]; rfl
  have harm : exec (.gath x) s = execGath x s := rfl
  rw [harm, execGath, engineOp_ready h, cmdWait_ready h]
  simp only [hno]
  rw [runPlan_begins hplan hfirst, runCourse_runs h1 hg1 hidx hok]
  simp only [hgo.bad, Bool.false_eq_true, if_false]
  exact copyElems_runs (h2.updProg _) ⟨rfl, rfl, rfl, rfl, rfl⟩ rfl hplan1 hrun

theorem EngAt.cpcvBegin (h : EngAt s rk q g) (hg : g.Unmoved) (x : CpcvCmd) (sl : Slot) (b : Nat) :
    ∃ g', EngAt (s.cpcvBegin rk q x sl b) rk q g' ∧ g'.Unmoved := by
  have hteam (n : Nat) : EngAt (if n = 0 then s else s.updTeam (teamOf rk) fun t => { t with reserved := t.reserved + n })
      rk q g := by
    split
    · exact h
    · exact h.of_engs rfl (State.updTeam_pace ..)
  have hslot {u : State} (hu : EngAt u rk q g) : EngAt (u.chargeSlot rk q sl) rk q g := by
    unfold State.chargeSlot
    split
    · exact hu.chargeMove ..
    · exact hu
  unfold State.cpcvBegin
  exact ⟨_, (hslot (hteam _)).updProg _, hg.vals, hg.upTo, hg.lost, hg.wrote, hg.count⟩

section
variable {x : CpcvCmd} {ff : FF} {v : XVal}

/-- A CPCV whose checks pass comes to its conversion. -/
theorem cpcv_starts (h : EngineReady s rk q c) (hf : c.prog = .fresh) (hp : s.pace = none) :
    let sl := slotOf ((s.launchOf rk).fslot x.fs.toNat)
    let p := cpcvPlan x sl
    let bits := (roundTo v .f32 .rne false 0).bits
    let t := (s.beginCmd rk q p true c.seed).cpcvBegin rk q x sl bits
    (sl.geom = 0 → x.sca = 0) → quantFF sl.efmt = some ff → (x.wb = true → sl.src = true) →
    cvShapeOk sl x.shape = true → (sl.src = true → s.lxOwes rk = false) → s.slotScale rk sl ff = .scale v →
    PlanReady s rk p true →
    (s.cpcvEntries rk x sl = 0 ∨ s.logRoom (teamOf rk) (s.cpcvEntries rk x sl) = true) →
    exec (.cpcv x) s = t.cpcvRun rk q c x sl ff (decodeF .f32 bits) := by
  intro sl p bits t hsca hff hwb hshape howes hscale hplan hroom
  have hfirst : (s.prog rk q).begun = false := by rw [(h.engAt hp).prog_eq, hf]; rfl
  have h1 : (sl.geom == 0 && x.sca != 0) = false := by
    cases hgeom : sl.geom == 0 with
    | false => rfl
    | true => simp [hsca (eq_of_beq hgeom)]
  have h2 : ((x.wb && !sl.src) || !cvShapeOk sl x.shape) = false := by
    cases hx : x.wb with
    | false => simp [hshape]
    | true => simp [hshape, hwb hx]
  have h3 : (sl.src && s.lxOwes rk) = false := by
    cases hx : sl.src with
    | false => rfl
    | true => simp [howes hx]
  have h4 : (!s.logRoom (teamOf rk) (s.cpcvEntries rk x sl) && s.cpcvEntries rk x sl != 0) = false := by
    rcases hroom with hroom | hroom <;> simp [hroom]
  have harm : exec (.cpcv x) s = execCpcv x s := rfl
  rw [harm, execCpcv, engineOp_ready h, cmdWait_ready h]
  simp only [State.cpcvStart]
  rw [show slotOf ((s.launchOf rk).fslot x.fs.toNat) = sl from rfl]
  simp only [h1, hff, hfirst, h2, h3, hscale, h4, Bool.false_eq_true, if_false]
  exact runPlan_begins hplan hfirst _

end

/-! ### RDST and SIG -/

theorem rdst_runs {x : RdstCmd} {ff : FF} {w : State} (h : EngineReady s rk q c) (hf : c.prog = .fresh) (hp : s.pace = none) :
    let sl := slotOf ((s.launchOf rk).fslot x.fs.toNat)
    let p := rdstPlan x (fmtWidth sl.efmt)
    let t := s.beginCmd rk q p false c.seed
    sl.geom = 0 → rdstFF sl.efmt = some ff → s.wbNamed rk x.wb sl = .ok → PlanReady s rk p false →
    s.sigBad rk x.sig = false →
    CourseRuns t rk q (rdstCourse p) (rdstPut rk q x ff sl (t.accLocs rk p.reads)) u →
    (sigAcc x.sig).any (u.accWaits rk q) = false → u.firstLack rk (sigAcc x.sig) = .none →
    u.signal rk x.sig = some w →
    exec (.rdst x) s = .next (((sigAcc x.sig).foldl (fun y a => y.chargeMove rk q true none a) w).cmdEnd rk q 0
      (u.prog rk q).count) := by
  intro sl p t hgeom hff hwb hplan hbad hrun hwait hlack hsig
  have hat := h.engAt hp
  have hg : c.prog.Unmoved := hf ▸ unmoved_fresh
  have hfirst : (s.prog rk q).begun = false := by rw [hat.prog_eq, hf]; rfl
  obtain ⟨g1, h1, hg1⟩ := hat.beginCmd hg p false c.seed
  have hgo : GoesOn rk q u := courseRuns_goesOn h.role h1 hg1 (rdstPut_goesOn h.role) hrun
  have hok : u.courseFails rk q (rdstCourse p) = none := by
    unfold State.courseFails
    dsimp only
    split <;> rfl
  have harm : exec (.rdst x) s = execRdst x s := rfl
  rw [harm, execRdst, engineOp_ready h, cmdWait_ready h]
  simp only [State.rdstStart]
  rw [show slotOf ((s.launchOf rk).fslot x.fs.toNat) = sl from rfl]
  simp only [hgeom, if_true, hff, hfirst, hwb, hbad, Bool.and_false, Bool.false_eq_true, if_false]
  rw [runPlan_begins hplan hfirst, runCourse_runs h1 hg1 hrun hok]
  simp only [hgo.pace, Option.isSome_none, Bool.false_and, Bool.false_eq_true, if_false, State.signalEnd, hgo.bad, hwait,
    hlack, hsig]

/-- A SIG whose checks pass signals. -/
theorem sig_starts {x : SigCmd} (h : EngineReady s rk q c) (hf : c.prog = .fresh) (hp : s.pace = none)
    (hplan : PlanReady s rk ⟨[], [], sigAcc x.sig, sigMis x.sig⟩ false) : exec (.sig x) s =
      if s.sigBad rk x.sig then .next (s.cmdEnd rk q 9 0)
      else (s.beginCmd rk q ⟨[], [], sigAcc x.sig, sigMis x.sig⟩ false c.seed).signalEnd rk q x.sig := by
  have hfirst : (s.prog rk q).begun = false := by rw [(h.engAt hp).prog_eq, hf]; rfl
  have harm : exec (.sig x) s = execSig x s := rfl
  rw [harm, execSig, engineOp_ready h, cmdWait_ready h]
  simp only [hfirst, planFails_ready hplan, Bool.not_false, Option.isNone_none, Bool.true_and]
  split
  · rfl
  · exact runPlan_begins hplan hfirst _

/-- A signal step that can be made is made, charged, and ends its command. -/
theorem signalEnd_of_signal {sig : Signal} {w : State} (h : EngAt s rk q g) (hb : g.bad = false)
    (hwait : (sigAcc sig).any (s.accWaits rk q) = false) (hlack : s.firstLack rk (sigAcc sig) = .none)
    (hsig : s.signal rk sig = some w) : s.signalEnd rk q sig =
      .next (((sigAcc sig).foldl (fun u a => u.chargeMove rk q true none a) w).cmdEnd rk q 0 g.count) := by
  simp only [State.signalEnd, h.prog_eq, hb, Bool.false_eq_true, if_false, hwait, hlack, hsig]

theorem scratchLoad_beginCmd (hr : firstRole ≤ rk) (p : Plan) (b : Bool) (seed : W32) (tk a n : Nat) :
    (s.beginCmd rk q p b seed).scratchLoad tk a n = s.scratchLoad tk a n := by
  unfold State.beginCmd State.updProg State.updCmd
  dsimp only
  rw [if_neg (Nat.not_lt.2 hr)]
  rfl

theorem sig_runs {x : SigCmd} (h : EngineReady s rk q c) (hf : c.prog = .fresh) (hp : s.pace = none) :
    let p : Plan := ⟨[], [], sigAcc x.sig, sigMis x.sig⟩
    let t := s.beginCmd rk q p false c.seed
    let paid (y : State) : State := (sigAcc x.sig).foldl (fun y a => y.chargeMove rk q true none a) y
    PlanReady s rk p false → (sigAcc x.sig).any (t.accWaits rk q) = false → t.firstLack rk (sigAcc x.sig) = .none →
    (x.sig = .none → exec (.sig x) s = .next (t.cmdEnd rk q 0 0)) ∧
    (∀ a v y, x.sig = .token a v → t.xlat (t.vfOf rk) a.toNat 8 true = .ok y →
      exec (.sig x) s = .next ((paid (t.tokenAdd (clusterOf (t.coreOf rk)) y v.toNat)).cmdEnd rk q 0 0)) ∧
    (∀ a, x.sig = .barrier a →
      let w := leNat (s.scratchLoad (teamOf rk) a.toNat 8)
      s.vaultBad (teamOf rk) a.toNat 8 false = false → t.vaultBad (teamOf rk) a.toNat 8 false = false →
      (barOk w = true → exec (.sig x) s =
        .next ((paid (t.scratchStore (teamOf rk) a.toNat (leBytes 8 (barStep w)))).cmdEnd rk q 0 0)) ∧
      (barOk w = false → exec (.sig x) s = .next (s.cmdEnd rk q 9 0))) := by
  intro p t paid hplan hwait hlack
  have hg : c.prog.Unmoved := hf ▸ unmoved_fresh
  obtain ⟨g1, h1, hg1⟩ := (h.engAt hp).beginCmd hg p false c.seed
  have hb : g1.bad = false := by simp [Prog.bad, hg1.lost, hg1.upTo]
  have hexec := sig_starts h hf hp hplan
  have hend {w : State} (hsig : t.signal rk x.sig = some w) : t.signalEnd rk q x.sig = .next ((paid w).cmdEnd rk q 0 0) := by
    rw [signalEnd_of_signal h1 hb hwait hlack hsig, hg1.count]
  refine ⟨fun hx => ?_, fun a v y hx hy => ?_, fun a hx => ?_⟩
  · rw [hexec, if_neg (by rw [hx]; exact Bool.false_ne_true), hend (w := t) (by rw [hx]; rfl)]
    simp only [paid, hx, sigAcc, List.foldl_nil]
  · rw [hexec, if_neg (by rw [hx]; exact Bool.false_ne_true)]
    exact hend (by simp only [hx, State.signal, hy])
  · intro w hs ht
    have hbad : s.sigBad rk x.sig = !barOk w := by simp only [hx, State.sigBad, hs, Bool.not_false, Bool.true_and, w]
    constructor
    · intro hok
      rw [hexec, hbad, hok, if_neg (by decide)]
      refine hend ?_
      simp only [hx, State.signal, ht, Bool.false_eq_true, if_false, t, scratchLoad_beginCmd h.role, w]
    · intro hok
      rw [hexec, hbad, hok, if_pos (by decide)]

/-! ### One access under a pace -/

theorem cp_paced {x : CpCmd} {e : Read} {es : List Read} (h : EngineReady s rk q c) (hb : c.prog.begun = true)
    (hp : s.pace = some 1) :
    let k := copyCourse (cpPlan x)
    let a := e.2.2
    s.readOrder (k.todo c.prog) = e :: es → (k.writes c.prog.got false)[c.prog.wrote]? = none →
    s.accWaits rk q a = false → s.accLack rk a = .none →
    (∀ bs, s.accRead rk a = some bs →
      let t := ((s.noteReads rk [a]).chargeMove rk q false e.2.1 a).updProg rk q fun g =>
        { g with vals := g.vals.put e.1 bs }
      exec (.cp x) s = .next (t.coursePause rk q k)) ∧
    (s.accRead rk a = none →
      let t := s.updProg rk q fun g => { g with upTo := some (Nat.min e.1 (g.upTo.getD e.1)) }
      exec (.cp x) s = .next (t.coursePause rk q k)) := by
  intro k a htodo hnone hwait hlack
  have hprog : s.prog rk q = c.prog := by rw [State.prog, cmdOf_role h.role, h.run]; rfl
  have harm : exec (.cp x) s = s.runCourse rk q k (copyPut rk q (cpPlan x) (s.accLocs rk (cpPlan x).reads))
      fun s => .next (s.copyEnd rk q) := by
    have harm : exec (.cp x) s = execCp x s := rfl
    rw [harm, execCp, engineOp_ready h, cmdWait_ready h, State.copyElems, runPlan_begun (by rw [hprog, hb])]
  have hgo (put : Put) {u : State} (hr : s.courseRead rk q e = .go u) :
      courseGo rk q k.checked put (s.pace.getD (k.reads.length + k.most + 1)) s = .go u := by
    have hstep : s.courseStep rk q k.checked put (k.checked.todo (s.prog rk q)) e = .go u := by
      have hw : (k.checked.writes (s.prog rk q).got false)[(s.prog rk q).wrote]? = none := by rw [hprog]; exact hnone
      simp only [State.courseStep, hw, hr]
    have horder : s.readOrder (k.checked.todo (s.prog rk q)) = e :: es := by rw [hprog]; exact htodo
    have heager : k.checked.eager = true := rfl
    simp only [courseGo, hp, heager, Option.isSome_some, Bool.and_self, if_true, Option.getD_some, courseMix, horder, hstep]
  have hpause {u : State} (hr : s.courseRead rk q e = .go u) : exec (.cp x) s = .next (u.coursePause rk q k) := by
    rw [harm]
    unfold State.runCourse
    rw [← Course.checked, hgo _ hr]
  refine ⟨fun bs hbs => hpause ?_, fun hno => hpause ?_⟩
  · simp only [State.courseRead, actor_role h.role, a, hwait, hlack, hbs, Bool.false_eq_true, if_false]
  · simp only [State.courseRead, actor_role h.role, a, hwait, hlack, hno, Bool.false_eq_true, if_false]

end

/-! ## The elements of a CP (R264, R267, R268) -/

/-- The element at a place of the iteration order: dimension 0 goes fastest. -/
theorem shapeIxs_get {h : Shape} {i0 i1 i2 : Nat} (h0 : i0 < h.e0) (h1 : i1 < h.e1) (h2 : i2 < h.e2) :
    (shapeIxs h)[i0 + h.e0 * (i1 + h.e1 * i2)]? = some ⟨i2, i1, i0⟩ := by
  have hrow : i1 + h.e1 * i2 < h.e1 * h.e2 := by
    calc i1 + h.e1 * i2 < h.e1 * (i2 + 1) := by rw [Nat.mul_add, Nat.mul_one]; omega
      _ ≤ h.e1 * h.e2 := Nat.mul_le_mul_left _ h2
  have hlt : i0 + h.e0 * (i1 + h.e1 * i2) < h.e2 * h.e1 * h.e0 := by
    calc i0 + h.e0 * (i1 + h.e1 * i2) < h.e0 * (i1 + h.e1 * i2 + 1) := by rw [Nat.mul_add h.e0 _ 1, Nat.mul_one]; omega
      _ ≤ h.e0 * (h.e1 * h.e2) := Nat.mul_le_mul_left _ hrow
      _ = h.e2 * h.e1 * h.e0 := by rw [Nat.mul_comm h.e2, Nat.mul_comm]
  have hdiv : (i0 + h.e0 * (i1 + h.e1 * i2)) / h.e0 = i1 + h.e1 * i2 := by
    rw [Nat.add_mul_div_left _ _ (Nat.zero_lt_of_lt h0), Nat.div_eq_of_lt h0, Nat.zero_add]
  have hix2 : (i0 + h.e0 * (i1 + h.e1 * i2)) / (h.e0 * h.e1) = i2 := by
    rw [← Nat.div_div_eq_div_mul, hdiv, Nat.add_mul_div_left _ _ (Nat.zero_lt_of_lt h1), Nat.div_eq_of_lt h1, Nat.zero_add]
  have hix1 : (i0 + h.e0 * (i1 + h.e1 * i2)) / h.e0 % h.e1 = i1 := by
    rw [hdiv, Nat.add_mul_mod_self_left, Nat.mod_eq_of_lt h1]
  have hix0 : (i0 + h.e0 * (i1 + h.e1 * i2)) % h.e0 = i0 := by rw [Nat.add_mul_mod_self_left, Nat.mod_eq_of_lt h0]
  rw [shapeIxs, List.getElem?_map, List.getElem?_range hlt, Option.map_some, hix2, hix1, hix0]

theorem cpPlan_get (x : CpCmd) {i0 i1 i2 : Nat} (h0 : i0 < x.shape.e0) (h1 : i1 < x.shape.e1) (h2 : i2 < x.shape.e2) :
    let k := i0 + x.shape.e0 * (i1 + x.shape.e1 * i2)
    (cpPlan x).reads[k]? = some ⟨x.ssp, srcAt x.shape x.esz ⟨i2, i1, i0⟩, x.esz, false⟩ ∧
    (cpPlan x).writes[k]? = some ⟨x.dsp, dstAt x.shape x.swz (8 * x.esz) ⟨i2, i1, i0⟩, x.esz, true⟩ := by
  constructor
  · rw [cpPlan, List.getElem?_map, shapeIxs_get h0 h1 h2, Option.map_some]
  · rw [cpPlan, List.getElem?_map, shapeIxs_get h0 h1 h2, Option.map_some]

theorem dstAt_bytes (h : Shape) (sw : Bool) (esz i0 i1 i2 : Nat) :
    let off := if sw then (i0 * esz) ^^^ (i1 % 4 * 16) else i0 * esz
    dstAt h sw (8 * esz) ⟨i2, i1, i0⟩ = (h.dst + BitVec.ofNat 64 i2 * h.d2.signExtend 64 +
      BitVec.ofNat 64 i1 * h.d1.signExtend 64 + BitVec.ofNat 64 off).toNat := by
  have hoff : i0 * (8 * esz) / 8 = i0 * esz := by
    rw [Nat.mul_left_comm, Nat.mul_div_cancel_left _ (by decide)]
  simp only [dstAt, elemAddr, hoff, swz]

/-- Settles O38: each command starts its course once its checks pass; a course whose accesses can be made comes to its end. -/
theorem copyCommands : Obligations.CopyCommands := by
  unfold Obligations.CopyCommands
  refine ⟨fun s rk q c h hf hp => ⟨fun x u hplan hrun => cp_runs h hf hp hplan hrun,
    fun x u hplan hrun => fill_runs h hf hp hplan hrun, fun x t u => gath_runs h hf hp, fun x ff v u => ?_,
    fun x ff u w => rdst_runs h hf hp, fun x => sig_runs h hf hp⟩,
    fun s rk q c x e es h hb _ hp => cp_paced h hb hp, fun x i0 i1 i2 h0 h1 h2 => ?_⟩
  · intro sl p bits t k hsca hff hwb hshape howes hscale hplan hroom
    have hexec := cpcv_starts h hf hp hsca hff hwb hshape howes hscale hplan hroom
    obtain ⟨g1, h1, hg1⟩ := (h.engAt hp).beginCmd (hf ▸ unmoved_fresh) p true c.seed
    obtain ⟨g2, h2, hg2⟩ := h1.cpcvBegin hg1 x sl bits
    refine ⟨fun hrun => ?_, fun hr hfails => ?_⟩
    · rw [hexec]
      exact runCourse_runs h2 hg2 hrun (courseRuns_reads h2 hg2 copyPut_reads hrun).1
    · rw [hexec]
      exact runCourse_fails h2 hg2 hr hfails
  · obtain ⟨hread, hwrite⟩ := cpPlan_get x h0 h1 h2
    exact ⟨hread, hwrite.trans (by rw [dstAt_bytes])⟩

end Sys2Proof.Machine
end

section
/-! PROOFS. A failing copy command whose queue holds a command with EV (R81, R185, R271). -/

namespace Sys2Proof.Machine
open Sys2Proof

/-! ## What the device writes in an overflow area (R185, R372) -/

theorem dirty_homeWriteX_none {s : State} {l : Nat} (x : Xlat) (bs : List Byte)
    (h : grainKey l ∈ (linesOf x.part x.ia x.pas.length).map grainKey ∨ s.dirty.get? l = none) :
    (s.homeWriteX x bs).dirty.get? l = none := by
  rw [dirty_homeWriteX]
  exact dirty_recallGrains (h.imp_left List.mem_dedup.2)

/-- A line of the first bytes that the device writes is dirty no more. -/
theorem dirty_scribble {s : State} {vf va n l : Nat} {x : Xlat} (hx : s.xlat vf va 64 true = .ok x)
    (hl : grainKey l ∈ (linesOf x.part x.ia x.pas.length).map grainKey) (hn : 0 < ceilDiv n 64) :
    (s.scribble vf va n).dirty.get? l = none := by
  obtain ⟨k, hk⟩ := Nat.exists_eq_succ_of_ne_zero hn.ne'
  have hrest (is : List Nat) (t : State) (ht : t.dirty.get? l = none) :
      (is.foldl (fun t i =>
        match t.xlat vf (va + 64 * i) 64 true with
        | .ok x => t.homeWriteX x ((rangeFrom (64 * i) 64).map (Config.freeByte s.free))
        | _ => t) t).dirty.get? l = none := by
    induction is generalizing t with
    | nil => exact ht
    | cons i is ih =>
      refine ih _ ?_
      dsimp only
      split
      · exact dirty_homeWriteX_none _ _ (.inr ht)
      · exact ht
  unfold State.scribble
  rw [hk, List.range_succ_eq_map, List.foldl_cons]
  refine hrest _ _ ?_
  simp only [Nat.mul_zero, Nat.add_zero, hx]
  exact dirty_homeWriteX_none _ _ (.inl hl)

/-! ## The counterexample -/

/-- The role. -/
def evRole : Nat := roleKey (teamKey 1 0) 0

/-- Its command in progress has failed with MISALIGN. -/
def failedCmd : Cmd := { Cmd.empty with result := some (4, 0) }

/-- The header of a command with EV, which waits behind it. -/
def evHeader : W64 := BitVec.ofNat 64 (2 ^ 42)

/-- A role whose queue 0 has a failed command in progress and another with EV behind it; `q14` of its team has 16 entries, and
the first line of its overflow area is dirty. -/
def evState : State :=
  { withDirty [(lineKey 0 458752, lineOne)] with
    vfs := [(0, fetchVf Vf.reset)]
    teams := [(teamKey 1 0, { Team.empty with chans := [(14, List.replicate 16 0)] })]
    roles := [(evRole, { Role.empty with
      engs := [(0, { EngQ.empty with run := some failedCmd, todo := [.word evHeader 0 0 0] })] })] }

/-- The queue has stopped, and its command is discarded. -/
def evStopped : State :=
  (evState.updRole evRole fun x => x.updEng 0 fun e =>
    { e with run := none, done := e.done ++ [complWord 0 4 0], stopped := true }).updRole evRole fun x => x.updEng 0 fun e =>
      { e with todo := [], done := e.done ++ [discardWord [evHeader]] }

theorem copyComplete_evState :
    exec (.copyComplete evRole 0) evState = .next (evStopped.addEvents evRole [discardWord [evHeader]]) := by
  rfl

theorem xlat_evStopped : ∃ x, evStopped.xlat (evStopped.vfOf evRole) (evStopped.overflowAt evRole 14) 64 true = .ok x ∧
    grainKey (lineKey 0 458752) ∈ (linesOf x.part x.ia x.pas.length).map grainKey := by
  refine ⟨⟨0, 458752, rangeFrom 458752 64, false, false⟩, ?_, ?_⟩ <;> decide +kernel

/-- The copy for `q14` of the discarded command enters the overflow area. -/
theorem dirty_copyComplete : (evStopped.addEvents evRole [discardWord [evHeader]]).dirty.get? (lineKey 0 458752) = none := by
  obtain ⟨x, hx, hl⟩ := xlat_evStopped
  have hload : ¬ evStopped.queueLoad evRole 14 < 16 := by decide +kernel
  have hover : (evStopped.addEvents evRole [discardWord [evHeader]]).dirty =
      (evStopped.scribble (evStopped.vfOf evRole) (evStopped.overflowAt evRole 14) 65536).dirty := by
    rw [State.addEvents, List.foldl_cons, List.foldl_nil, State.updTeam_dirty, State.noteOverflow, if_neg hload,
      State.updVf_dirty]
  rw [hover]
  exact dirty_scribble hx hl (by decide)

/-- Refutes O39: a failing status discards the commands behind it, and the copy for `q14` of one with EV, behind 16 entries,
has the device write the overflow area: memory does not stay. -/
theorem not_copyFaultsAndEvents : ¬ Obligations.CopyFaultsAndEvents := by
  unfold Obligations.CopyFaultsAndEvents
  rintro ⟨-, h⟩
  obtain ⟨-, -, -, -, hdone, -⟩ := h evState evRole 0 failedCmd rfl
  obtain ⟨t, ht, -, -, hdirty, -⟩ := hdone 4 0 (by decide) rfl (by decide) rfl rfl
  rw [copyComplete_evState, Host.Outcome.next.injEq] at ht
  have hgone := dirty_copyComplete
  rw [ht] at hgone
  rw [hdirty] at hgone
  exact absurd hgone (by decide +kernel)

end Sys2Proof.Machine
end

section
/-! PROOFS. Cache maintenance (R197), the plain control words and QFENCE (R187 to R192), VIEW, GANG, MSET and VRUN (R193). -/

namespace Sys2Proof.Machine
open Sys2Proof

/-! ## Cache maintenance (R197) -/

section
variable {s s1 : State} {rk : Nat} {a b : SReg} {va n : W64}

theorem ScalarReady.opIllegal {srcs : List SReg} {dst : Option SReg} {vs : List W64} (h : ScalarReady s rk srcs dst vs s1) :
    s.opIllegal rk srcs dst = false := by
  rw [State.opIllegal, h.srcsLegal, h.dstLegal, Bool.or_false]

theorem exec_invr_tx (hc : s.cur = .scalar rk) (ht : s.inTx (teamOf rk) = true) : exec (.invr a b) s =
    .next (s.raiseS rk (if s.opIllegal rk [a, b] none = true then .illegal else .txillegal) 0) := by
  have harm : exec (.invr a b) s = execInvr a b s := rfl
  rw [harm, execInvr]
  simp only [scalar0, hc, ht, Bool.true_and]
  cases hi : s.opIllegal rk [a, b] none with
  | false => rfl
  | true =>
    simp only [Bool.not_true, Bool.false_eq_true, if_false, if_true, maintOp]
    exact scalarOp_illegal hc hi _

theorem exec_invr_maint (hc : s.cur = .scalar rk) (ht : s.inTx (teamOf rk) = false) :
    exec (.invr a b) s = maintOp s a b 512 State.invLine := by
  have harm : exec (.invr a b) s = execInvr a b s := rfl
  simp only [harm, execInvr, scalar0, hc, ht, Bool.false_and, Bool.false_eq_true, if_false]

theorem maintOp_ready (h : ScalarReady s rk [a, b] none [va, n] s1) (align : Nat) (f : State → Nat → State) :
    maintOp s a b align f =
      if n.toNat ≠ 0 && !legalGlobal va.toNat n.toNat then .next (s1.raiseS rk .address va.toNat)
      else if va.toNat % align ≠ 0 || n.toNat % align ≠ 0 then .next (s1.raiseS rk .misalign va.toNat)
      else if s1.orderWait rk then .next (s1.parkS rk .order)
      else .next (((s1.dirtyIn (s1.vfOf rk) va.toNat n.toNat).foldl f s1).advance rk 4) := scalarOp_ready h _

theorem maintOp_address (h : ScalarReady s rk [a, b] none [va, n] s1) {align : Nat} {f : State → Nat → State} (hn : n ≠ 0)
    (hva : 2 ^ 56 < va.toNat + n.toNat) : maintOp s a b align f = .next (s1.raiseS rk .address va.toNat) := by
  have hn' : n.toNat ≠ 0 := fun h0 => hn (BitVec.eq_of_toNat_eq h0)
  rw [maintOp_ready h, if_pos (by simp only [legalGlobal]; simp; omega)]

theorem maintOp_misalign (h : ScalarReady s rk [a, b] none [va, n] s1) {f : State → Nat → State}
    (hva : va.toNat + n.toNat ≤ 2 ^ 56) (hm : va.toNat % 512 ≠ 0 ∨ n.toNat % 512 ≠ 0) :
    maintOp s a b 512 f = .next (s1.raiseS rk .misalign va.toNat) := by
  rw [maintOp_ready h, if_neg (by simp [legalGlobal]; omega), if_pos (by simpa using hm)]

theorem maintOp_range (h : ScalarReady s rk [a, b] none [va, n] s1) {align : Nat} {f : State → Nat → State}
    (hva : n = 0 ∨ va.toNat + n.toNat ≤ 2 ^ 56) (hal : va.toNat % align = 0) (hnal : n.toNat % align = 0)
    (hw : s1.orderWait rk = false) :
    maintOp s a b align f = .next (((s1.dirtyIn (s1.vfOf rk) va.toNat n.toNat).foldl f s1).advance rk 4) := by
  have hlegal : (n.toNat ≠ 0 && !legalGlobal va.toNat n.toNat) = false := by
    rcases hva with rfl | hva
    · rfl
    · simp [legalGlobal]; omega
  rw [maintOp_ready h]
  simp only [hlegal, hal, hnal, hw, ne_eq, not_true, decide_false, Bool.or_self, Bool.false_eq_true, if_false]

end

/-- Settles O15: CLNR and CLIV are the shared frame with `State.writeBack`, INVR, outside a transaction, with
`State.invLine`. -/
theorem cacheMaintenance : Obligations.CacheMaintenance := by
  unfold Obligations.CacheMaintenance
  refine fun s s1 rk a b va n => ⟨exec_invr_tx, fun h => ?_⟩
  have hclnr : exec (.clnr a b) s = maintOp s a b 1 State.writeBack := rfl
  have hcliv : exec (.cliv a b) s = maintOp s a b 1 State.writeBack := rfl
  have hone (x : W64) : x.toNat % 1 = 0 := Nat.mod_one _
  refine ⟨fun hn hva => ⟨maintOp_address h hn hva, maintOp_address h hn hva, fun ht => ?_⟩, fun hn hva ht hm => ?_,
    fun hva hw => ⟨maintOp_range h hva (hone _) (hone _) hw, maintOp_range h hva (hone _) (hone _) hw,
      fun ht hal hnal => ?_⟩⟩
  · rw [exec_invr_maint h.cur ht, maintOp_address h hn hva]
  · rw [exec_invr_maint h.cur ht, maintOp_misalign h hva hm]
  · rw [exec_invr_maint h.cur ht, maintOp_range h hva hal hnal hw]

/-! ## NOP, YIELD, FENCE, VDRAIN and EXIT (R169, R187, R191, R192, R200) -/

section
variable {s : State} {rk : Nat} (hc : s.cur = .scalar rk)
include hc

theorem exec_nop : exec .nop s = .next (s.advance rk 4) := by
  have harm : exec .nop s = execNop s := rfl
  simp only [harm, execNop, scalar0, hc]

theorem exec_yield : ∃ t, exec .yield s = .next t ∧ (t.role rk).pc = (s.role rk).pc + 4 ∧ t.butRoles = s.butRoles ∧
    (t.role rk).yields false = true ∧ (t.role rk).yields true = true ∧ (t.role rk).sregs = (s.role rk).sregs := by
  have harm : exec .yield s = .next ((s.updRole rk fun r => { r with yieldS := 17, yieldL := 17 }).advance rk 4) := by
    have harm : exec .yield s = execYield s := rfl
    simp only [harm, execYield, scalar0, hc]
  refine ⟨_, harm, ?_⟩
  simp [State.advance, Role.yields]

theorem exec_fence (sc : Fin 7) : exec (.fence sc) s =
    if (s.role rk).flight.isEmpty && !(s.role rk).updatesPending
        && !s.laneAhead rk (fun i => touchesMem i || updatesWaybill i) then
      .next ((s.reach rk sc.val).advance rk 4)
    else .next (s.parkS rk .fence) := by
  have harm : exec (.fence sc) s = execFence sc s := rfl
  simp only [harm, execFence, scalar0, hc]

theorem exec_vdrain : exec .vdrain s = .next (if (s.role rk).drained = true then s.advance rk 4 else s.parkS rk .drain) := by
  have harm : exec .vdrain s = execVdrain s := rfl
  simp only [harm, execVdrain, scalar0, hc]
  split <;> rfl

theorem exec_exit : exec .exit s =
    .next (if s.inTx (teamOf rk) = true then s.raiseS rk .txillegal 0 else s.parkS rk .exit) := by
  have harm : exec .exit s = execExit s := rfl
  simp only [harm, execExit, scalar0, hc]
  split <;> rfl

end

/-! ## QFENCE (R188) -/

/-- One fence entry behind the entries of a queue. -/
def State.addFence (rk mask scope id : Nat) (t : State) (q : Nat) : State :=
  (t.noteOverflow rk q).updRole rk fun r => r.updEng q fun e => { e with todo := e.todo ++ [.fence id mask scope] }

theorem exec_qfence {s : State} {rk : Nat} (hc : s.cur = .scalar rk) (m : BitVec 6) (sc : Fin 7) : exec (.qfence m sc) s =
    if m = 0 ∨ ((maskQueues m).any fun q => s.queueIllegal rk q true) = true then .next (s.raiseS rk .illegal 0)
    else match (maskQueues m).find? fun q => s.pushBlock rk q != .room with
      | some q =>
        match s.pushBlock rk q with
        | .page sub va ia => .next ((s.raise rk false .page sub va ia 0).parkS rk (.page (some (s.nextRec % 2 ^ 32))))
        | _ => .next (s.parkS rk (.pushQ q))
      | none => .next (((maskQueues m).foldl (State.addFence rk m.toNat sc.val s.nextFence)
          { s with nextFence := s.nextFence + 1 }).advance rk 4) := by
  have harm : exec (.qfence m sc) s = execQfence m sc s := rfl
  simp only [harm, execQfence, scalar0, hc] <;> rfl

/-- What the writes of an overflow area leave: the roles but for their monitored waits, and the teams. -/
structure WaitsOnly (s t : State) : Prop where
  role : ∀ k, (t.role k).sameWaits (s.role k) = s.role k
  teams : t.teams = s.teams

theorem MemStep.waitsOnly {s t : State} (h : MemStep s t) : WaitsOnly s t :=
  ⟨h.role, (show State.teams { t with roles := s.roles, hbm := s.hbm, dirty := s.dirty } = _ from congrArg State.teams h.rest)⟩

theorem WaitsOnly.free {s t : State} (h : WaitsOnly s t) (n : Nat) : WaitsOnly s { t with free := n } := ⟨h.role, h.teams⟩

theorem WaitsOnly.updVf {s t : State} (h : WaitsOnly s t) (v : Nat) (f : Vf → Vf) : WaitsOnly s (t.updVf v f) :=
  ⟨h.role, h.teams⟩

theorem scribble_waitsOnly (s : State) (vf va n : Nat) : WaitsOnly s (s.scribble vf va n) := by
  unfold State.scribble
  refine WaitsOnly.free (MemStep.waitsOnly (MemStep.foldl (fun t i => ?_) _ _)) _
  split
  · exact memStep_homeWriteX ..
  · exact MemStep.refl t

theorem noteOverflow_waitsOnly (s : State) (rk q : Nat) : WaitsOnly s (s.noteOverflow rk q) := by
  unfold State.noteOverflow
  split
  · exact (MemStep.refl s).waitsOnly
  · exact (scribble_waitsOnly ..).updVf _ _

section
variable {s : State} {rk mask scope id : Nat}

/-- What the fence entries of the queues `qs` leave, and where they stand. -/
structure Fenced (rk mask scope id : Nat) (qs : List Nat) (s t : State) : Prop where
  pc : (t.role rk).pc = (s.role rk).pc
  sregs : (t.role rk).sregs = (s.role rk).sregs
  log : (t.team (teamOf rk)).log = (s.team (teamOf rk)).log
  todo : ∀ q, ((t.role rk).eng q).todo = ((s.role rk).eng q).todo ++ if q ∈ qs then [.fence id mask scope] else []
  memory : (∀ q ∈ qs, s.queueLoad rk q < 16) → t.hbm = s.hbm ∧ t.dirty = s.dirty

theorem addFence_fenced (s : State) (q : Nat) : Fenced rk mask scope id [q] s (State.addFence rk mask scope id s q) := by
  obtain ⟨hrole, hteams⟩ := noteOverflow_waitsOnly s rk q
  have hengs : ((s.noteOverflow rk q).role rk).engs = (s.role rk).engs := (congrArg Role.engs (hrole rk) :)
  have heng (j : Nat) : ((s.noteOverflow rk q).role rk).eng j = (s.role rk).eng j := by rw [Role.eng, hengs]; rfl
  constructor
  · rw [State.addFence, State.role_updRole_self]
    exact (congrArg Role.pc (hrole rk) :)
  · rw [State.addFence, State.role_updRole_self]
    exact (congrArg Role.sregs (hrole rk) :)
  · rw [State.addFence, State.team_updRole, State.team, hteams]
    rfl
  · intro j
    rw [State.addFence, State.role_updRole_self]
    by_cases hj : j = q
    · subst hj
      rw [Role.updEng, Role.eng, NMap.get_put_self, heng, if_pos (List.mem_singleton.2 rfl)]
    · rw [Role.updEng, Role.eng, NMap.get_put_ne _ _ _ hj, if_neg (mt List.mem_singleton.1 hj), List.append_nil]
      exact congrArg EngQ.todo (heng j)
  · intro hload
    rw [State.addFence, State.updRole_hbm, State.updRole_dirty, State.noteOverflow, if_pos (hload q (List.mem_singleton.2 rfl))]
    exact ⟨rfl, rfl⟩

theorem addFences_fenced {qs : List Nat} (hnd : qs.Nodup) (h6 : ∀ q ∈ qs, q < 6) (s : State) :
    Fenced rk mask scope id qs s (qs.foldl (State.addFence rk mask scope id) s) := by
  induction qs generalizing s with
  | nil => exact ⟨rfl, rfl, rfl, fun q => by simp, fun _ => ⟨rfl, rfl⟩⟩
  | cons q qs ih =>
    obtain ⟨hq, hqs⟩ := List.nodup_cons.1 hnd
    have h1 : Fenced rk mask scope id [q] s _ := addFence_fenced s q
    have h2 := ih hqs (fun j hj => h6 j (List.mem_cons_of_mem _ hj)) (State.addFence rk mask scope id s q)
    refine ⟨h2.pc.trans h1.pc, h2.sregs.trans h1.sregs, h2.log.trans h1.log, fun j => ?_, fun hload => ?_⟩
    · rw [List.foldl_cons, h2.todo, h1.todo, List.append_assoc]
      by_cases hj : j = q
      · subst hj
        simp [hq]
      · simp [hj]
    · have hloads (j : Nat) (hj : j ∈ qs) : (State.addFence rk mask scope id s q).queueLoad rk j < 16 := by
        have hle : j ≤ 5 := Nat.le_of_lt_succ (h6 j (List.mem_cons_of_mem _ hj))
        have hjq : j ≠ q := fun h => hq (h ▸ hj)
        have hold := hload j (List.mem_cons_of_mem _ hj)
        simp only [State.queueLoad, hle, if_true] at hold ⊢
        rw [h1.todo, if_neg (mt List.mem_singleton.1 hjq), List.append_nil]
        exact hold
      obtain ⟨hb, hd⟩ := h1.memory fun j hj => hload j (by rw [List.mem_singleton.1 hj]; exact List.mem_cons_self ..)
      obtain ⟨hb2, hd2⟩ := h2.memory hloads
      exact ⟨hb2.trans hb, hd2.trans hd⟩

end

/-- Settles O11: each word is its equation; the fence entries go into different queues, each behind what stands there. -/
theorem plainControlWords : Obligations.PlainControlWords := by
  unfold Obligations.PlainControlWords
  refine ⟨fun s rk sc hc => ⟨exec_nop hc, exec_yield hc, fun hf hu hl => ⟨?_, fun h4 => if_pos h4⟩, fun h => ?_, exec_vdrain hc,
    exec_exit hc⟩, fun s rk m sc hc => ⟨fun h => ?_, fun hm hq => ?_⟩⟩
  · rw [exec_fence hc, hf, hu, hl]
    rfl
  · rw [exec_fence hc, if_neg]
    rcases h with h | h | h <;> simp [h]
  · rw [exec_qfence hc, if_pos]
    refine h.imp_right fun ⟨q, hmem, hill⟩ => ?_
    exact List.any_eq_true.2 ⟨q, hmem, hill⟩
  · have hlegal : ¬ (m = 0 ∨ ((maskQueues m).any fun q => s.queueIllegal rk q true) = true) := by
      rintro (h | h)
      · exact hm h
      · obtain ⟨q, hmem, hill⟩ := List.any_eq_true.1 h
        rw [hq q hmem] at hill
        cases hill
    have hexec := exec_qfence hc m sc
    rw [if_neg hlegal] at hexec
    have hputs (hroom : ∀ q ∈ maskQueues m, s.pushBlock rk q = .room) : ∃ t, exec (.qfence m sc) s = .next t ∧
        (t.role rk).pc = (s.role rk).pc + 4 ∧ (t.role rk).sregs = (s.role rk).sregs ∧
        (t.team (teamOf rk)).log = (s.team (teamOf rk)).log ∧
        ((∀ q ∈ maskQueues m, s.queueLoad rk q < 16) → t.hbm = s.hbm ∧ t.dirty = s.dirty) ∧
        ∀ q, q < 6 → ((t.role rk).eng q).todo =
          ((s.role rk).eng q).todo ++ (if m.getLsbD q = true then [.fence s.nextFence m.toNat sc.val] else []) := by
      have hnone : (maskQueues m).find? (fun q => s.pushBlock rk q != .room) = none :=
        List.find?_eq_none.2 fun q hmem => by simp [hroom q hmem]
      rw [hnone] at hexec
      have hf : Fenced rk m.toNat sc.val s.nextFence (maskQueues m) { s with nextFence := s.nextFence + 1 } _ :=
        addFences_fenced (List.nodup_range.filter _) (fun q hmem => List.mem_range.1 (List.mem_filter.1 hmem).1) _
      refine ⟨_, hexec, ?_, ?_, ?_, fun hload => ?_, fun q h6 => ?_⟩
      · rw [State.advance, State.role_updRole_self]
        exact congrArg (· + _) hf.pc
      · rw [State.advance, State.role_updRole_self]
        exact hf.sregs
      · exact hf.log
      · exact hf.memory hload
      · have hmem : q ∈ maskQueues m ↔ m.getLsbD q = true := by simp [maskQueues, h6]
        rw [State.advance, State.role_updRole_self]
        refine (hf.todo q).trans ?_
        simp only [hmem]
        rfl
    refine ⟨fun _ => hputs, fun _ => hputs, fun q hfind => ⟨fun hb => ?_, fun sub va ia hb => ?_⟩⟩
    · rw [hexec, hfind]
      simp only [hb]
    · rw [hexec, hfind]
      simp only [hb]

end Sys2Proof.Machine
end

section
/-! PROOFS. VIEW, GANG, MSET and VRUN (R126, R153, R162, R193). -/

namespace Sys2Proof.Machine
open Sys2Proof

/-! ## A word of a mask (R124, R193) -/

theorem getLsbD_setMaskWord (m : Mask) (g : Nat) (w : W32) {j : Nat} (hj : j < 1024) : (setMaskWord m g w).getLsbD j =
    if 32 * g ≤ j ∧ j < 32 * g + 32 then w.getLsbD (j - 32 * g) else m.getLsbD j := by
  simp only [setMaskWord, BitVec.getLsbD_or, BitVec.getLsbD_and, BitVec.getLsbD_not, BitVec.getLsbD_shiftLeft,
    BitVec.getLsbD_setWidth, BitVec.zeroExtend, BitVec.getLsbD_allOnes, hj, decide_true, Bool.true_and]
  by_cases hlo : 32 * g ≤ j
  · by_cases hhi : j < 32 * g + 32
    · have h1 : ¬ j < 32 * g := by omega
      have h2 : j - 32 * g < 32 := by omega
      have h3 : j - 32 * g < 1024 := by omega
      simp [hlo, hhi, h1, h2, h3]
    · have h1 : ¬ j < 32 * g := by omega
      have h2 : ¬ j - 32 * g < 32 := by omega
      have h3 : w.getLsbD (j - 32 * g) = false := BitVec.getLsbD_of_ge _ _ (by omega)
      simp [hhi, h1, h2, h3]
  · simp [hlo, Nat.not_le.1 hlo]

theorem extractLsb'_setMaskWord_self (m : Mask) {g : Nat} (hg : g < 32) (w : W32) :
    (setMaskWord m g w).extractLsb' (32 * g) 32 = w := by
  refine BitVec.eq_of_getLsbD_eq fun i hi => ?_
  have hin : 32 * g ≤ 32 * g + i ∧ 32 * g + i < 32 * g + 32 := by omega
  rw [BitVec.getLsbD_extractLsb', getLsbD_setMaskWord m g w (by omega), if_pos hin, Nat.add_sub_cancel_left]
  simp [hi]

theorem extractLsb'_setMaskWord_ne (m : Mask) {g h : Nat} (hh : h < 32) (hne : h ≠ g) (w : W32) :
    (setMaskWord m g w).extractLsb' (32 * h) 32 = m.extractLsb' (32 * h) 32 := by
  refine BitVec.eq_of_getLsbD_eq fun i hi => ?_
  have hout : ¬ (32 * g ≤ 32 * h + i ∧ 32 * h + i < 32 * g + 32) := by omega
  rw [BitVec.getLsbD_extractLsb', BitVec.getLsbD_extractLsb', getLsbD_setMaskWord m g w (by omega), if_neg hout]

/-! ## The words -/

section
variable {s s1 : State} {rk : Nat} {a : SReg} {v : W64}

theorem exec_view (h : ScalarReady s rk [a] none [v] s1) (i : Fin 8) : exec (.view i a) s =
    .next (if viewValid v (s1.role rk).lanes.groups (s1.role rk).lanes.budget = true
      then (s1.updRole rk fun r => { r with views := r.views.set i.val v }).advance rk 4 else s1.raiseS rk .illegal 0) := by
  have harm : exec (.view i a) s = execView i a s := rfl
  rw [harm, execView, scalarOp_ready h]
  simp only [src, List.getD_cons_zero]
  split <;> rfl

theorem exec_gang (h : ScalarReady s rk [a] none [v] s1) : exec (.gang a) s =
    .next (if gangValid v (s1.team (teamOf rk)).nroles = true
      then (s1.updTeam (teamOf rk) fun t => { t with gang := v.toNat }).advance rk 4 else s1.raiseS rk .illegal 0) := by
  have harm : exec (.gang a) s = execGang a s := rfl
  rw [harm, execGang, scalarOp_ready h]
  simp only [src, List.getD_cons_zero]
  split <;> rfl

theorem exec_mset_absent {g : Fin 32} (hc : s.cur = .scalar rk) (hg : (s.role rk).lanes.groups ≤ g.val) :
    exec (.mset g a) s = .next (s.raiseS rk .illegal 0) := by
  have harm : exec (.mset g a) s = execMset g a s := rfl
  simp only [harm, execMset, scalar0, hc, hg, if_true, illegalS]

theorem exec_mset {g : Fin 32} (h : ScalarReady s rk [a] none [v] s1) (hg : g.val < (s.role rk).lanes.groups) :
    exec (.mset g a) s = .next ((s1.updRole rk fun r =>
      if r.blocks.isEmpty then { r with lanes := { r.lanes with base := setMaskWord r.lanes.base g.val (v.setWidth 32) } }
      else { r with msets := r.msets ++ [(g.val, v.setWidth 32)] }).advance rk 4) := by
  have hw : BitVec.ofNat 32 v.toNat = v.setWidth 32 := BitVec.ofNat_toNat 32 v
  have harm : exec (.mset g a) s = execMset g a s := rfl
  simp only [harm, execMset, scalar0, h.cur, Nat.not_le.2 hg, if_false]
  rw [scalarOp_ready h]
  simp only [src, List.getD_cons_zero, hw]

theorem exec_vrun (hc : s.cur = .scalar rk) (n : BitVec 6) (x : BitVec 19) : exec (.vrun n x) s =
    if 8 ≤ (s.role rk).entries then .next (s.parkS rk .vrunFull)
    else .next ((s.updRole rk fun r =>
      { r with blocks := r.blocks ++ [r.newBlock (s.team (teamOf rk)).gang x.toNat (n.toNat + 1)], msets := []
               laneSeq := r.laneSeq + n.toNat + 1
               lanes := if r.blocks.isEmpty then r.lanes.freeLatches else r.lanes }).advance rk 4) := by
  have harm : exec (.vrun n x) s = execVrun n x s := rfl
  simp only [harm, execVrun, scalar0, hc]

end

theorem updRole_congr {s : State} {rk : Nat} {f g : Role → Role} (h : f (s.role rk) = g (s.role rk)) :
    s.updRole rk f = s.updRole rk g := by
  rw [State.updRole, h, ← State.updRole]

/-- Settles O13: a mask word takes its place at once where no block is queued, and a VRUN block finds an entry free where
`Role.entries` is below 8. -/
theorem laneControlWords : Obligations.LaneControlWords := by
  unfold Obligations.LaneControlWords
  refine fun s s1 rk a i g v n x => ⟨fun h => ⟨exec_view h i, exec_gang h, exec_mset_absent h.cur, fun hg hb => ?_,
    fun hg hb => ?_⟩, fun hc => ⟨fun hh h8 => ?_, fun h8 => ?_, fun h8 => ?_⟩⟩
  · rw [exec_mset h hg, updRole_congr (g := fun r => { r with msets := r.msets ++ [(g.val, v.setWidth 32)] })]
    simp only [List.isEmpty_eq_false_iff.2 hb, Bool.false_eq_true, if_false]
  · refine ⟨_, exec_mset h hg, ?_⟩
    simp only [State.advance, State.role_updRole_self, hb, List.isEmpty_nil, if_true]
    exact ⟨rfl, extractLsb'_setMaskWord_self _ g.isLt _, fun h hh hne => extractLsb'_setMaskWord_ne _ hh hne _, trivial⟩
  · rw [exec_vrun hc, if_pos]
    simpa [Role.entries, hh, b2n] using h8
  · rw [exec_vrun hc, if_pos]
    have hle : ∀ b : Bool, b2n b ≤ 1 := by decide
    exact Nat.le_sub_of_add_le (Nat.le_trans (Nat.add_le_add_left (hle _) 8) h8)
  · have hent : ¬ 8 ≤ (s.role rk).entries := by
      rcases h8 with h8 | ⟨h8, hh, hb⟩
      · exact fun h => absurd (Nat.le_trans h (Nat.sub_le ..)) (Nat.not_le.2 h8)
      · cases hbl : (s.role rk).blocks with
        | nil => simp [hbl] at h8
        | cons b bs =>
          have hlast : b.len ≤ (s.role rk).lanePc + 1 := hb b (by rw [hbl]; rfl)
          rw [hbl] at h8
          simp [Role.entries, hbl, h8, hh, hlast, b2n]
    rw [exec_vrun hc, if_neg hent]
    simp only [List.isEmpty_iff]
    rfl

end Sys2Proof.Machine
end

section
/-! PROOFS. TRAP, TRET, BRK and RELAY (R199, R200, R379), LAUNCH, PERF and WBSYNC (R195, R196, R346), and the system registers
(R198). -/

namespace Sys2Proof.Machine
open Sys2Proof

/-! ## Traps (R199) -/

theorem toNat_append_eq_add {m n : Nat} (x : BitVec m) (y : BitVec n) : (x ++ y).toNat = x.toNat * 2 ^ n + y.toNat := by
  rw [BitVec.toNat_append, ← Nat.shiftLeft_add_eq_or_of_lt y.isLt, Nat.shiftLeft_eq]

theorem trapCauseWord_scalar (code : BitVec 13) :
    trapCauseWord 0 code.toNat false = (1 : BitVec 33) ++ (0 : BitVec 2) ++ code ++ (0 : BitVec 16) := by
  refine BitVec.eq_of_toNat_eq ?_
  have hlt := code.isLt
  have hone : (1 : BitVec 33).toNat = 1 := rfl
  have hzero (n : Nat) : (0 : BitVec n).toNat = 0 := BitVec.toNat_zero
  simp only [toNat_append_eq_add, trapCauseWord, BitVec.toNat_ofNat, b2n, hone, hzero, Bool.false_eq_true, if_false]
  omega

theorem role_updRole_free (s : State) (rk n : Nat) (f : Role → Role) :
    State.role { s.updRole rk f with free := n } rk = f (s.role rk) := State.role_updRole_self s rk f

theorem trapActive_cleared (w : W64) : bitOf (w &&& ~~~(BitVec.ofNat 64 (2 ^ 31))).toNat 31 = false := by
  rw [bitOf_toNat, BitVec.getLsbD_and, BitVec.getLsbD_not]
  simp

section
variable {s : State} {rk : Nat}

theorem userTrap_open {cause code : Nat} {lane : Bool} {resume : W64} (hh : (s.role rk).hold = none)
    (ho : (s.launchOf rk).trapOpen cause = true) (ha : (s.role rk).trapActive = false) :
    s.userTrap rk cause code lane resume = { s.updRole rk (fun r => r.trapped (s.launchOf rk).trapAddr resume cause code lane
      s.free) with free := s.free + 1 } := by
  have hu : s.unhold rk = s := by simp only [State.unhold, hh]
  simp only [State.userTrap, ho, ha, hu, Bool.not_false, Bool.and_self, if_true]

variable (hc : s.cur = .scalar rk)
include hc

theorem exec_trap (code : BitVec 13) (hl : (s.role rk).lxOut = 0) :
    exec (.trap code) s = .next (s.userTrap rk 0 code.toNat false ((s.role rk).pc + 4)) := by
  have harm : exec (.trap code) s = execTrap code s := rfl
  simp only [harm, execTrap, scalar0, hc, hl, ne_eq, not_true, if_false]

theorem exec_tret : exec .tret s =
    if !(s.role rk).trapActive then .next (s.raiseS rk .illegal 0)
    else if !(s.role rk).drained then .next (s.parkS rk .drain)
    else .next { s.updRole rk (fun r => r.trapReturn s.free) with free := s.free + 1 } := by
  have harm : exec .tret s = execTret s := rfl
  simp only [harm, execTret, scalar0, hc, illegalS]

theorem exec_brk : exec .brk s =
    if s.accept.getLsbD 10 then .next ((s.raiseS rk .brkpt 0).updRole rk fun r => { r with pc := r.pc + 4 })
    else .next (s.raiseS rk .brk 0) := by
  have harm : exec .brk s = execBrk s := rfl
  simp only [harm, execBrk, scalar0, hc]

theorem exec_relay : exec .relay s =
    if s.inTx (teamOf rk) then .next (s.raiseS rk .txillegal 0)
    else if !(s.launchOf rk).flag 3 then .next ((s.updRole rk fun r => { r with stage := r.stage + 1 }).advance rk 4)
    else if !(s.role rk).drained then .next (s.parkS rk .relay)
    else if (s.role rk).stage < (s.launchOf rk).stage then
      .next ((s.updRole rk fun r => { r with stage := r.stage + 1 }).advance rk 4)
    else .next (s.updRole rk fun r => { r with relayed := true, spark := .relay }) := by
  have harm : exec .relay s = execRelay s := rfl
  simp only [harm, execRelay, scalar0, hc, txIllegalS]

end

/-- Settles O16: a trap with a handler is `Role.trapped`, TRET is `Role.trapReturn`. -/
theorem trapsAndBreaks : Obligations.TrapsAndBreaks := by
  unfold Obligations.TrapsAndBreaks
  refine ⟨fun s rk code hc hl hh => ⟨fun he ha => ?_, fun h => ?_, fun ha => ?_, fun a ha hd has => ?_⟩,
    fun s rk hc => ⟨fun h => ?_, fun h => ?_, fun h => ?_, fun h => ⟨fun hs => ?_, fun hs hd => ?_, fun hs hd hst => ?_⟩⟩⟩
  · have ho : (s.launchOf rk).trapOpen 0 = true := by simp [Launch.trapOpen, he]
    rw [exec_trap hc code hl, userTrap_open hh ho ha]
    refine ⟨_, rfl, ?_⟩
    rw [role_updRole_free]
    refine ⟨rfl, trapCauseWord_scalar code, rfl, rfl, rfl, rfl, fun hb => ?_, rfl, rfl⟩
    cases hbl : (s.role rk).blocks with
    | nil => exact absurd hbl hb
    | cons b bs => simp only [Role.trapped, Role.resumeWord, hbl]
  · have hshut : ((s.launchOf rk).trapOpen 0 && !(s.role rk).trapActive) = false := by
      rcases h with h | h <;> simp [Launch.trapOpen, h]
    rw [exec_trap hc code hl, State.userTrap]
    simp only [hshut, Bool.false_eq_true, if_false]
  · rw [exec_tret hc, ha]
    rfl
  · rw [exec_tret hc, ha, hd]
    refine ⟨_, rfl, ?_⟩
    rw [role_updRole_free]
    simp only [Role.trapReturn, has, Option.getD_some, beq_iff_eq, true_and]
    exact ⟨trapActive_cleared _, trivial⟩
  · rw [exec_brk hc, h]
    rfl
  · rw [exec_brk hc, h]
    rfl
  · rw [exec_relay hc, h]
    rfl
  · rw [exec_relay hc, h, hs]
    rfl
  · rw [exec_relay hc, h, hs, hd]
    rfl
  · rw [exec_relay hc, h, hs, hd, if_neg Bool.false_ne_true, if_neg (by decide), if_neg (by decide),
      if_neg (Nat.not_lt.2 hst)]

end Sys2Proof.Machine
end

section
/-! PROOFS. The system registers (R198), and LAUNCH, PERF and WBSYNC (R195, R196, R346). -/

namespace Sys2Proof.Machine
open Sys2Proof

/-! ## The numbers (R198, R361, R379) -/

theorem sysreg_fslot (s : State) (rk : Nat) (n : Fin 8) :
    s.sysreg rk (0x020 + BitVec.ofNat 13 n.val).toNat = some ((s.launchOf rk).fslot n.val) := by
  have hn := n.isLt
  have hnum : (0x020 + BitVec.ofNat 13 n.val).toNat = 0x020 + n.val := by
    have h32 : (0x020 : BitVec 13).toNat = 32 := rfl
    simp only [BitVec.toNat_add, BitVec.toNat_ofNat, h32]
    omega
  have hin : 0x020 ≤ 0x020 + n.val ∧ 0x020 + n.val ≤ 0x027 := by omega
  rw [hnum]
  unfold State.sysreg
  rw [if_pos hin, Nat.add_sub_cancel_left]

theorem sysreg_unassigned (s : State) (rk : Nat) {num : Nat} (h : num ∉ [0x000, 0x001, 0x010, 0x011, 0x012, 0x013, 0x014,
    0x015, 0x016, 0x018, 0x019, 0x020, 0x021, 0x022, 0x023, 0x024, 0x025, 0x026, 0x027, 0x030, 0x040, 0x041, 0x042, 0x050,
    0x051, 0x060, 0x061, 0x062, 0x063, 0x070]) : s.sysreg rk num = none := by
  simp only [List.mem_cons, List.not_mem_nil, or_false, not_or] at h
  have hout : ¬ (0x020 ≤ num ∧ num ≤ 0x027) := by omega
  unfold State.sysreg
  rw [if_neg hout]
  split <;> simp_all

/-! ## SYSRD and SYSWR (R198) -/

section
variable {s s1 : State} {rk : Nat} {d a : SReg} {num : BitVec 13} {v w : W64}

theorem exec_sysrd (h : ScalarReady s rk [] (some d) [] s) (hv : s.sysreg rk num.toNat = some v)
    (hw : num = 0x030 → s.drawWait rk = false) : exec (.sysrd d num) s = .next (s.finish rk d v) := by
  have harm : exec (.sysrd d num) s = execSysrd d num s := rfl
  have hno : (num = 0x030 && s.drawWait rk) = false := by simpa using hw
  rw [harm, execSysrd, h.cur]
  simp only [hv]
  rw [scalarOp_ready h]
  simp only [hno, hv, Bool.false_eq_true, if_false, Option.getD_some]

theorem exec_sysrd_unassigned (hc : s.cur = .scalar rk) (hv : s.sysreg rk num.toNat = none) :
    exec (.sysrd d num) s = .next (s.raiseS rk .illegal 0) := by
  have harm : exec (.sysrd d num) s = execSysrd d num s := rfl
  rw [harm, execSysrd, hc]
  simp only [hv, illegalS]

theorem exec_syswr (h : ScalarReady s rk [a] none [v] s1) (hv : s.sysreg rk num.toNat = some w)
    (hw : num = 0x030 → s1.drawWait rk = false) :
    exec (.syswr a num) s = .next ((s1.updRole rk fun r => r.setSysreg num.toNat v).advance rk 4) := by
  have harm : exec (.syswr a num) s = execSyswr a num s := rfl
  have hno : (num = 0x030 && s1.drawWait rk) = false := by simpa using hw
  rw [harm, execSyswr, h.cur]
  simp only [hv]
  rw [scalarOp_ready h]
  simp only [hno, Bool.false_eq_true, if_false, src, List.getD_cons_zero]

theorem exec_syswr_unassigned (hc : s.cur = .scalar rk) (hv : s.sysreg rk num.toNat = none) :
    exec (.syswr a num) s = .next (s.raiseS rk .illegal 0) := by
  have harm : exec (.syswr a num) s = execSyswr a num s := rfl
  rw [harm, execSyswr, hc]
  simp only [hv, illegalS]

end

theorem roleinfo_eq (s : State) (rk : Nat) (h : (s.launchOf rk).nroles < 16) :
    s.roleinfo rk = (0 : BitVec 52) ++ BitVec.ofNat 4 (s.launchOf rk).nroles ++
      BitVec.ofNat 5 ((s.launchOf rk).groups (roleIdx rk) - 1) ++ BitVec.ofNat 3 (roleIdx rk) := by
  have hgroups : (s.launchOf rk).groups (roleIdx rk) - 1 < 32 := by
    rw [Launch.groups, Nat.add_sub_cancel]
    exact Nat.mod_lt _ (by decide)
  have hidx : roleIdx rk < 8 := Nat.mod_lt _ (by decide)
  have hzero : (0 : BitVec 52).toNat = 0 := BitVec.toNat_zero
  refine BitVec.eq_of_toNat_eq ?_
  simp only [State.roleinfo, toNat_append_eq_add, BitVec.toNat_ofNat, hzero]
  omega

theorem setSysreg_of_ne (r : Role) {num : Nat} (v : W64) (h30 : num ≠ 0x030) (h40 : num ≠ 0x040) : r.setSysreg num v = r := by
  unfold Role.setSysreg
  split
  · exact absurd rfl h30
  · exact absurd rfl h40
  · rfl

theorem ofNat_toNat_cast (x : W32) : BitVec.ofNat 64 x.toNat = (0 : W32) ++ x := by
  have hzero : (0 : W32).toNat = 0 := BitVec.toNat_zero
  refine BitVec.eq_of_toNat_eq ?_
  rw [toNat_append_eq_add, BitVec.toNat_ofNat, hzero]
  have := x.isLt
  omega

theorem ofNat_mod_cast (n : Nat) : BitVec.ofNat 64 (n % 2 ^ 32) = (0 : W32) ++ BitVec.ofNat 32 n := by
  rw [← ofNat_toNat_cast, BitVec.toNat_ofNat]

/-- Settles O18: an assigned number reads `State.sysreg`, and only the generator and TRAPPC are written. -/
theorem systemRegisters : Obligations.SystemRegisters := by
  unfold Obligations.SystemRegisters
  refine ⟨fun s rk d h => ?_, fun s s1 rk a v num h => ?_⟩
  · intro tk l r reads
    have plain (num : BitVec 13) (v : W64) (hn : num ≠ 0x030) (hv : s.sysreg rk num.toNat = some v) : reads num v :=
      exec_sysrd h hv fun hn' => absurd hn' hn
    refine ⟨plain _ _ (by decide) rfl, plain _ _ (by decide) rfl, plain _ _ (by decide) rfl, plain _ _ (by decide) rfl,
      plain _ _ (by decide) rfl, plain _ _ (by decide) rfl, plain _ _ (by decide) rfl, plain _ _ (by decide) rfl,
      fun hr => plain _ _ (by decide) (congrArg some (roleinfo_eq s rk hr)), plain _ _ (by decide) rfl,
      plain _ _ (by decide) (congrArg some (ofNat_mod_cast _)), fun n => plain _ _ ?_ (sysreg_fslot s rk n),
      fun hw => exec_sysrd h (congrArg some (ofNat_toNat_cast _)) fun _ => hw, fun hw => ?_, plain _ _ (by decide) rfl,
      plain _ _ (by decide) rfl, plain _ _ (by decide) rfl, plain _ _ (by decide) rfl, plain _ _ (by decide) rfl,
      plain _ _ (by decide) rfl, plain _ _ (by decide) rfl, plain _ _ (by decide) rfl, plain _ _ (by decide) rfl,
      plain _ _ (by decide) rfl, fun num hnum => exec_sysrd_unassigned h.cur (sysreg_unassigned s rk hnum)⟩
    · revert n
      decide
    · have harm : exec (.sysrd d 0x030) s = execSysrd d 0x030 s := rfl
      have hv : s.sysreg rk (0x030 : BitVec 13).toNat = some (BitVec.ofNat 64 (s.role rk).lanes.rng.toNat) := rfl
      rw [harm, execSysrd, h.cur]
      simp only [hv]
      rw [scalarOp_ready h]
      simp only [hw, decide_true, Bool.and_self, if_true]
  · intro writes
    refine ⟨fun hw => ?_, ?_, exec_syswr_unassigned h.cur, fun hv h30 h40 => ?_⟩
    · exact exec_syswr h (num := 0x030) (w := BitVec.ofNat 64 (s.role rk).lanes.rng.toNat) rfl fun _ => hw
    · exact exec_syswr h (num := 0x040) (w := (s.role rk).trapPc) rfl fun hn => absurd hn (by decide)
    · obtain ⟨w, hv⟩ := Option.ne_none_iff_exists'.1 hv
      have hset : (fun r : Role => r.setSysreg num.toNat v) = fun r => r := funext fun r =>
        setSysreg_of_ne r v (fun hn => h30 (BitVec.eq_of_toNat_eq hn)) fun hn => h40 (BitVec.eq_of_toNat_eq hn)
      have hexec := exec_syswr h hv fun hn => absurd hn h30
      rw [hset] at hexec
      exact hexec

end Sys2Proof.Machine
end

section
/-! PROOFS. LAUNCH, PERF and WBSYNC (R195, R196, R200, R298, R300, R346). -/

namespace Sys2Proof.Machine
open Sys2Proof

/-! ## LAUNCH (R195, R373, R374) -/

section
variable {s s1 : State} {rk : Nat} {d a : SReg} {x : W64}

theorem exec_launch_tx (hc : s.cur = .scalar rk) (ht : s.inTx (teamOf rk) = true) : exec (.launch d a) s =
    .next (s.raiseS rk (if s.opIllegal rk [a] (some d) = true then .illegal else .txillegal) 0) := by
  have harm : exec (.launch d a) s = execLaunch d a s := rfl
  rw [harm, execLaunch]
  simp only [scalar0, hc, ht, Bool.true_and]
  cases hi : s.opIllegal rk [a] (some d) with
  | false => rfl
  | true =>
    simp only [Bool.not_true, Bool.false_eq_true, if_false, if_true]
    exact scalarOp_illegal hc hi _

theorem exec_launch (ht : s.inTx (teamOf rk) = false) (h : ScalarReady s rk [a] (some d) [x] s1) : exec (.launch d a) s =
    if x.toNat % 256 ≠ 0 || !legalGlobal x.toNat 256 then .next (s1.raiseS rk .address x.toNat)
    else if s1.orderWait rk then .next (s1.parkS rk .order)
    else
      let r := s1.enqueue (s1.vfOf rk) x.toNat none
      .next ((if s1.takes rk d r.1 then r.2 else s1).finish rk d r.1) := by
  have harm : exec (.launch d a) s = execLaunch d a s := rfl
  rw [harm, execLaunch]
  simp only [scalar0, h.cur, ht, Bool.false_and, Bool.false_eq_true, if_false]
  exact scalarOp_ready h _

theorem exec_launch_address (ht : s.inTx (teamOf rk) = false) (h : ScalarReady s rk [a] (some d) [x] s1)
    (hx : x.toNat % 256 ≠ 0 ∨ 2 ^ 56 < x.toNat + 256) : exec (.launch d a) s = .next (s1.raiseS rk .address x.toNat) := by
  rw [exec_launch ht h, if_pos]
  simp only [legalGlobal, Bool.or_eq_true, decide_eq_true_eq, Bool.not_eq_true', decide_eq_false_iff_not]
  omega

theorem exec_launch_asks (ht : s.inTx (teamOf rk) = false) (h : ScalarReady s rk [a] (some d) [x] s1)
    (hal : x.toNat % 256 = 0) (hx : x.toNat + 256 ≤ 2 ^ 56) (hw : s1.orderWait rk = false) : exec (.launch d a) s =
    .next ((if s1.takes rk d (s1.enqueue (s1.vfOf rk) x.toNat none).1 then (s1.enqueue (s1.vfOf rk) x.toNat none).2
      else s1).finish rk d (s1.enqueue (s1.vfOf rk) x.toNat none).1) := by
  have hok : (decide (x.toNat % 256 ≠ 0) || !legalGlobal x.toNat 256) = false := by simp [legalGlobal, hal]; omega
  rw [exec_launch ht h]
  simp only [hok, hw, Bool.false_eq_true, if_false]

end

section
variable {s : State} {vf va : Nat} {bs : List Byte}

theorem enqueue_unread (h : s.distRead vf va 256 = none) : s.enqueue vf va none = (handle 0 1, s) := by
  have hno : (if va % 256 = 0 then s.distRead vf va 256 else none) = none := by
    rw [h]
    split <;> rfl
  simp only [State.enqueue, hno]

theorem enqueue_read (hal : va % 256 = 0) (h : s.distRead vf va 256 = some bs) : s.enqueue vf va none =
    let l0 : Launch := { Launch.empty with record := byteMap bs, vf := vf, share := none }
    let l : Launch := { l0 with header := byteMap ((s.distRead vf l0.khdr 64).getD []) }
    let code := s.refusal vf l (s.distRead vf l0.khdr 64).isSome
    if code ≠ 0 then (handle 0 code, s)
    else (handle s.nextLid 0, { s with launches := s.launches.put s.nextLid l, nextLid := s.nextLid + 1 }) := by
  simp only [State.enqueue, hal, if_true, h]

end

/-! ## PERF (R196, R298, R300) -/

/-- The classes of VFPERF in the words of R300. -/
theorem vfRange_eq (w : W64) : vfRange w =
    ((if w.extractLsb' 2 2 < w.extractLsb' 0 2 then w.extractLsb' 2 2 else w.extractLsb' 0 2).toNat,
      (w.extractLsb' 2 2).toNat) := by
  have hmax : fieldOf w.toNat 2 2 = (w.extractLsb' 2 2).toNat := by
    simp [fieldOf, BitVec.extractLsb'_toNat, Nat.shiftRight_eq_div_pow]
  have hmin : fieldOf w.toNat 0 2 = (w.extractLsb' 0 2).toNat := by
    simp [fieldOf, BitVec.extractLsb'_toNat]
  rw [vfRange, hmax, hmin]
  split
  · next h => exact congrArg (·, _) (Nat.min_eq_right (Nat.le_of_lt h))
  · next h => exact congrArg (·, _) (Nat.min_eq_left (Nat.le_of_not_lt h))

theorem adopt_kept (s : State) (c : Nat) : (s.adopt c).roles = s.roles ∧ (s.adopt c).teams = s.teams ∧
    (s.adopt c).vfs = s.vfs ∧ (s.adopt c).hbm = s.hbm ∧ (s.adopt c).dirty = s.dirty := by
  unfold State.adopt
  dsimp only
  split <;> exact ⟨rfl, rfl, rfl, rfl, rfl⟩

section
variable {s s1 : State} {rk : Nat} {a b : SReg} {x y : W64}

/-- The range of the VF counts a class that lies outside it. -/
def State.countOutrng (s : State) (vf got cls : Nat) : State :=
  if got != cls then s.updVf vf fun v => { v with vfPerf := bumpOutrng v.vfPerf } else s

theorem countOutrng_kept (s : State) (vf got cls : Nat) :
    (s.countOutrng vf got cls).roles = s.roles ∧ (s.countOutrng vf got cls).hbm = s.hbm ∧
    (s.countOutrng vf got cls).dirty = s.dirty ∧
    ((s.countOutrng vf got cls).vf vf).vfPerf = if got ≠ cls then bumpOutrng (s.vf vf).vfPerf else (s.vf vf).vfPerf := by
  unfold State.countOutrng
  by_cases h : got = cls
  · simp [h]
  · have hne : (got != cls) = true := bne_iff_ne.2 h
    rw [if_pos hne, if_pos h, State.vf_updVf_self]
    exact ⟨rfl, rfl, rfl, rfl⟩

theorem exec_perf (h : ScalarReady s rk [a, b] none [x, y] s1) : exec (.perf a b) s =
    let vf := s1.vfOf rk
    let r := vfRange (s1.vf vf).vfPerf
    let got := Nat.max r.1 (Nat.min r.2 (Nat.min x.toNat 3))
    let lease := if y.toNat = 0 then none else some (got, Nat.min y.toNat 1000000 * 1000)
    .next ((((s1.countOutrng vf got x.toNat).updTeam (teamOf rk) fun t => { t with lease := lease }).adopt
      (clusterOf (s1.coreOf rk))).advance rk 4) := by
  have harm : exec (.perf a b) s = execPerf a b s := rfl
  rw [harm, execPerf]
  exact scalarOp_ready h _

theorem perf_lease (h : ScalarReady s rk [a, b] none [x, y] s1) :
    let w := (s1.vf (s1.vfOf rk)).vfPerf
    let cmax := w.extractLsb' 2 2
    let cmin := if cmax < w.extractLsb' 0 2 then cmax else w.extractLsb' 0 2
    let cls := Nat.max cmin.toNat (Nat.min cmax.toNat x.toNat)
    ∃ t, exec (.perf a b) s = .next t ∧ (t.role rk).pc = (s1.role rk).pc + 4 ∧ (t.role rk).sregs = (s1.role rk).sregs ∧
      t.hbm = s1.hbm ∧ t.dirty = s1.dirty ∧
      (t.team (teamOf rk)).lease = (if y = 0 then none else some (cls, Nat.min y.toNat 1000000 * 1000)) ∧
      (t.vf (s1.vfOf rk)).vfPerf = (if cls ≠ x.toNat then bumpOutrng w else w) := by
  intro w cmax cmin cls
  have hrange : vfRange w = (cmin.toNat, cmax.toNat) := vfRange_eq w
  have hgot : Nat.max (vfRange w).1 (Nat.min (vfRange w).2 (Nat.min x.toNat 3)) = cls := by
    have h3 : cmax.toNat ≤ 3 := Nat.le_of_lt_succ cmax.isLt
    have hmin : Nat.min cmax.toNat (Nat.min x.toNat 3) = Nat.min cmax.toNat x.toNat := by
      change min cmax.toNat (min x.toNat 3) = min cmax.toNat x.toNat
      omega
    rw [hrange, hmin]
  have hy : y.toNat = 0 ↔ y = 0 := ⟨fun h => BitVec.eq_of_toNat_eq h, fun h => by rw [h]; rfl⟩
  have hexec := exec_perf h
  simp only [show (s1.vf (s1.vfOf rk)).vfPerf = w from rfl, hgot, hy] at hexec
  obtain ⟨hr, hb, hd, hp⟩ := countOutrng_kept s1 (s1.vfOf rk) cls x.toNat
  generalize s1.countOutrng (s1.vfOf rk) cls x.toNat = u at hexec hr hb hd hp
  generalize hl : (if y = 0 then none else some (cls, Nat.min y.toNat 1000000 * 1000) : Option (Nat × Nat)) = lease at hexec ⊢
  generalize hv : (u.updTeam (teamOf rk) fun t => { t with lease := lease }) = v at hexec
  obtain ⟨har, hat, hav, hab, had⟩ := adopt_kept v (clusterOf (s1.coreOf rk))
  have hrole : (v.adopt (clusterOf (s1.coreOf rk))).role rk = s1.role rk := by
    rw [State.role, har, ← hv, State.updTeam_roles, hr]
    rfl
  refine ⟨_, hexec, ?_, ?_, ?_, ?_, ?_, ?_⟩
  · rw [State.advance, State.role_updRole_self, hrole]
    rfl
  · rw [State.advance, State.role_updRole_self, hrole]
  · rw [State.advance, State.updRole_hbm, hab, ← hv, State.updTeam_hbm, hb]
  · rw [State.advance, State.updRole_dirty, had, ← hv, State.updTeam_dirty, hd]
  · rw [State.advance, State.team_updRole, State.team, hat, ← hv, ← State.team, State.team_updTeam_self]
  · rw [State.advance, State.vf_updRole, State.vf, hav, ← hv, State.updTeam_vfs, ← State.vf, hp]

end

/-! ## WBSYNC (R200, R346, R349) -/

section
variable {s s1 : State} {rk : Nat} {a : SReg} {v : W64}

theorem exec_wbsync (h : ScalarReady s rk [a] none [v] s1) (hu : s1.updatesAhead rk = false) : exec (.wbsync a) s =
    match s1.wbRecord (s1.vfOf rk) v.toNat with
    | .unregistered => .next (s1.raiseS rk .opformat 0)
    | .page sub va ia => .next (s1.wbPage rk false sub va ia)
    | .mcheck sub va pa => .next (s1.machineCheck rk false sub va pa 0)
    | .record _ _ =>
      let die := dieOf (s1.coreOf rk)
      let held (t : State) : Bool := (t.die die).held.any fun e => e.2.isFor (s1.vfOf rk) v.toNat
      let t := if held s1 then s1 else s1.mergeAs (some (teamOf rk)) die fun d => d.isFor (s1.vfOf rk) v.toNat
      if held t then .next (t.parkS rk .wbsync) else .next (t.advance rk 4) := by
  have harm : exec (.wbsync a) s = execWbsync a s := rfl
  rw [harm, execWbsync, scalarOp_ready h]
  simp only [hu, Bool.false_eq_true, if_false, src, List.getD_cons_zero] <;> rfl

/-- With no delta of the pair a merge does nothing but drop what is not there. -/
theorem mergeAs_none {p : Delta → Bool} {die : Nat} (h : ∀ d ∈ (s.die die).deltas, p d = false) (k : Option Nat) :
    s.mergeAs k die p = s.updDie die fun k => { k with deltas := k.deltas.filter fun d => !p d } := by
  have hnone : (s.die die).deltas.filter p = [] := List.filter_eq_nil_iff.2 fun d hd => by simp [h d hd]
  rw [State.mergeAs, hnone]
  rfl

end

/-- Settles O17: LAUNCH finishes with what the distributor answers, PERF sets the lease of a class in the range, WBSYNC merges
and goes on where no merge is held. -/
theorem launchPerfAndSync : Obligations.LaunchPerfAndSync := by
  unfold Obligations.LaunchPerfAndSync
  refine ⟨fun s s1 rk d a b x y => ⟨exec_launch_tx, fun ht h => ⟨exec_launch_address ht h, fun hal hx hw => ?_⟩, perf_lease⟩,
    fun s s1 rk a v h hu => ?_⟩
  · have hexec := exec_launch_asks ht h hal hx hw
    refine ⟨fun htake => ?_, fun hn => ?_, fun bs hbs => ⟨fun hc => ?_, fun hc htake => ?_⟩⟩
    · rw [hexec, if_pos htake]
    · rw [hexec, enqueue_unread hn]
      simp only [ite_self]
      rfl
    · rw [hexec, enqueue_read hal hbs]
      simp only [if_pos hc, ite_self]
    · rw [hexec, enqueue_read hal hbs]
      simp only [hc, ne_eq, not_true, if_false, htake, if_true]
  · intro vf die t
    have hexec := exec_wbsync h hu
    have hfree {x : Xlat} {bs : List Byte} (hr : s1.wbRecord vf v.toNat = .record x bs)
        (hh : ((s1.die die).held.any fun e => e.2.isFor vf v.toNat) = false) : exec (.wbsync a) s =
        .next (if ((t.die die).held.any fun e => e.2.isFor vf v.toNat) = true then t.parkS rk .wbsync else t.advance rk 4) := by
      have hh : ((s1.die (dieOf (s1.coreOf rk))).held.any fun e => e.2.isFor (s1.vfOf rk) v.toNat) = false := hh
      rw [hexec, hr]
      simp only [hh, Bool.false_eq_true, if_false]
      split <;> rfl
    refine ⟨fun hr => ?_, fun sub va ia hr => ?_, fun x bs hr => ⟨fun hh => ?_, hfree hr, fun hd hh => ?_⟩⟩
    · rw [hexec, hr]
    · rw [hexec, hr]
    · rw [hexec, hr]
      simp only [vf, die] at hh
      simp only [hh, if_true]
    · have hheld : ((s1.die die).held.any fun e => e.2.isFor vf v.toNat) = false :=
        List.any_eq_false.2 fun e he => by simp [hh e he]
      have hm : t = s1.updDie die fun k => { k with deltas := k.deltas.filter fun d => !d.isFor vf v.toNat } :=
        mergeAs_none (fun d hmem => hd d hmem) _
      have hafter : ((t.die die).held.any fun e => e.2.isFor vf v.toNat) = false := by
        rw [hm, State.die_updDie_self]
        exact hheld
      refine ⟨_, (hfree hr hheld).trans (by rw [hafter, if_neg Bool.false_ne_true]), ?_, ?_, ?_⟩
      · rw [State.advance, State.role_updRole_self, hm, State.role_updDie]
        rfl
      · rw [State.advance, State.updRole_hbm, hm, State.updDie_hbm]
      · rw [State.advance, State.updRole_dirty, hm, State.updDie_dirty]

end Sys2Proof.Machine
end

section
/-! PROOFS. Scalar loads and stores (R70, R181) and the atomics of the scalar stream (R182, R288, R291). -/

namespace Sys2Proof.Machine
open Sys2Proof

/-! ## Loads: the length of what a partly performed load has (R135) -/

/-- A role whose scalar stream has two bytes of an access under way: more than a load of one byte reads. -/
def overPart : Role := { Role.empty with part := [0x80, 1], partAt := some ⟨0, 0, [], false, false⟩ }

/-- Its scalar stream is executing. -/
def overState : State := { State.reset with roles := [(0, overPart)], cur := .scalar 0 }

theorem sreg_ldi8_overState : ∃ t, exec (.ld (.s 1) (.s 0) .i8 0) overState = .next t ∧
    (t.role 0).sreg 1 = 0xFFFFFFFFFFFFFF80 := by
  refine ⟨_, rfl, ?_⟩
  decide +kernel

/-- Refutes O7: where a load has performed more bytes than its width has, the model extends the low bytes alone, and
`extended` takes the whole number less `2 ^ 8`. No run reaches such a state, and the statement does not exclude it. -/
theorem not_scalarLoadsAndStores : ¬ Obligations.ScalarLoadsAndStores := by
  unfold Obligations.ScalarLoadsAndStores
  rintro ⟨hload, -⟩
  have hready : ScalarReady overState 0 [.s 0] (some (.s 1)) [0] overState :=
    scalarReady_regs overState 0 [0] (some 1) rfl
  obtain ⟨hld, -⟩ := hload overState overState 0 (.s 1) (.s 0) .i8 0 0 hready
  have h := hld ⟨0, 0, [], false, false⟩ rfl (.inr ⟨rfl, by simp⟩) rfl
  obtain ⟨t, ht, hreg⟩ := sreg_ldi8_overState
  rw [ht, Host.Outcome.next.injEq] at h
  rw [h] at hreg
  exact absurd hreg (by decide +kernel)

end Sys2Proof.Machine
end

section
/-! PROOFS. The atomics of the scalar stream (R182, R288, R291). -/

namespace Sys2Proof.Machine
open Sys2Proof

/-! ## The words and results (R182) -/

theorem atomFn_add {n : Nat} (x y : BitVec n) (p : Nat) : atomFn 0 n x.toNat y.toNat p = ((x + y).toNat, x.toNat) := by
  rw [atomFn, BitVec.toNat_add]

theorem atomFn_and {n : Nat} (x y : BitVec n) (p : Nat) : atomFn 1 n x.toNat y.toNat p = ((x &&& y).toNat, x.toNat) := by
  rw [atomFn, BitVec.toNat_and]

theorem atomFn_or {n : Nat} (x y : BitVec n) (p : Nat) : atomFn 2 n x.toNat y.toNat p = ((x ||| y).toNat, x.toNat) := by
  rw [atomFn, BitVec.toNat_or]

theorem atomFn_xor {n : Nat} (x y : BitVec n) (p : Nat) : atomFn 3 n x.toNat y.toNat p = ((x ^^^ y).toNat, x.toNat) := by
  rw [atomFn, BitVec.toNat_xor]

theorem atomFn_min {n : Nat} (x y : BitVec n) (p : Nat) :
    atomFn 4 n x.toNat y.toNat p = ((if y.slt x then y else x).toNat, x.toNat) := Prod.ext (aopNew_min x y p) rfl

theorem atomFn_max {n : Nat} (x y : BitVec n) (p : Nat) :
    atomFn 5 n x.toNat y.toNat p = ((if x.slt y then y else x).toNat, x.toNat) := Prod.ext (aopNew_max x y p) rfl

theorem atomFn_minn {n : Nat} (x y : BitVec n) (p : Nat) :
    atomFn 6 n x.toNat y.toNat p = ((if y.ult x then y else x).toNat, x.toNat) := Prod.ext (aopNew_minn x y p) rfl

theorem atomFn_maxn {n : Nat} (x y : BitVec n) (p : Nat) :
    atomFn 7 n x.toNat y.toNat p = ((if x.ult y then y else x).toNat, x.toNat) := Prod.ext (aopNew_maxn x y p) rfl

theorem atomFn_cas {n : Nat} (x y p : BitVec n) :
    atomFn 9 n x.toNat y.toNat p.toNat = ((if x = p then y else x).toNat, x.toNat) := Prod.ext (aopNew_cas x y p) rfl

theorem atomFn_bfim {n : Nat} (x y p : BitVec n) :
    atomFn 10 n x.toNat y.toNat p.toNat = (((x &&& ~~~p) ||| (y &&& p)).toNat, x.toNat) := by
  rw [atomFn, BitVec.toNat_or, BitVec.toNat_and, BitVec.toNat_and, BitVec.toNat_not]

theorem toNat_one_shiftLeft {y : W64} (h : y.toNat < 64) : ((1 : W64) <<< y).toNat = 2 ^ y.toNat := by
  rw [BitVec.shiftLeft_eq', ← BitVec.toNat_twoPow_of_lt h, BitVec.twoPow_eq]
  rfl

theorem atomFn_ffcs (x y : W64) (p : Nat) :
    atomFn 11 64 x.toNat y.toNat p = ((ffcsOf x y).1.toNat, (ffcsOf x y).2.toNat) := by
  have hc : y.toNat &&& (2 ^ 64 - 1 - x.toNat) = (y &&& ~~~x).toNat := by rw [BitVec.toNat_and, BitVec.toNat_not]
  have hz : (y &&& ~~~x).toNat = 0 ↔ y &&& ~~~x = 0 := BitVec.toNat_inj (x := y &&& ~~~x) (y := 0)
  simp only [atomFn, hc, ffcsOf, hz, ctzNat_toNat]
  split
  · rfl
  · next hne =>
    have hlt : (y &&& ~~~x).ctz.toNat < 64 := BitVec.lt_def.1 (BitVec.ctz_lt_iff_ne_zero.2 hne)
    rw [BitVec.toNat_or, toNat_one_shiftLeft hlt]

theorem and_one_shiftLeft_eq_zero (x : W64) {y : W64} (h : y.toNat < 64) :
    x &&& ((1 : W64) <<< y) = 0 ↔ x.getLsbD y.toNat = false := by
  have hne : BitVec.twoPow 64 y.toNat ≠ 0 := fun h0 => by
    have h2 := congrArg BitVec.toNat h0
    rw [BitVec.toNat_twoPow_of_lt h] at h2
    exact absurd h2 (Nat.two_pow_pos _).ne'
  rw [BitVec.shiftLeft_eq', show (1 : W64) <<< y.toNat = BitVec.twoPow 64 y.toNat from (BitVec.twoPow_eq ..).symm,
    BitVec.and_twoPow]
  cases x.getLsbD y.toNat with
  | true => simpa using hne
  | false => simp

theorem atomFn_plset (x y p : W64) :
    atomFn 12 64 x.toNat y.toNat p.toNat = ((plsetOf x y p).toNat, x.toNat) := by
  have hj : (y % 64).toNat = y.toNat % 64 := BitVec.toNat_umod
  have hlt : (y % 64).toNat < 64 := by omega
  simp only [atomFn, plsetOf, popcNat_toNat, and_one_shiftLeft_eq_zero x hlt, bitOf_toNat, BitVec.ult_iff_lt, BitVec.lt_def,
    hj, Bool.and_eq_true, Bool.not_eq_true', decide_eq_true_eq, apply_ite BitVec.toNat, BitVec.toNat_or,
    toNat_one_shiftLeft hlt]

/-! ## The course of an atomic -/

/-- The operations that read sd. -/
def opReadsSd (op : Nat) : Bool := op == 9 || op == 10 || op == 12

/-- The source fields of an operation. -/
def atomSrcs (op : Nat) (d a b : SReg) : List SReg := if opReadsSd op then [a, b, d] else [a, b]

/-- What an atomic of an open transaction does (R251). -/
def State.atomLog (s : State) (rk op ea data : Nat) : State :=
  if !s.logRoom (teamOf rk) 1 then s.raiseS rk .txcap ea
  else match s.wsLack (teamOf rk) 1 with
    | some p => s.parkPage rk p
    | none => (s.logAdd (teamOf rk) [⟨ea, .atomic op, 8, roleIdx rk, 0, data⟩]).advance rk 4

/-- What an atomic does once the word at its address has been read and `write` would store the new one (R182). -/
def State.atomGives (s : State) (rk op : Nat) (d : SReg) (old data prior : Nat) (write : List Byte → State) : State :=
  let r := atomFn op 64 old data prior
  (if s.takes rk d (BitVec.ofNat 64 r.2) then write (leBytes 8 r.1) else s).finish rk d (BitVec.ofNat 64 r.2)

/-- What an atomic does with its sources (R182). -/
def State.atomRun (s : State) (rk op : Nat) (d : SReg) (sc : Fin 8) (ea data prior : Nat) : State :=
  if s.orderWait rk then s.parkS rk .order
  else if sc.val = 7 then
    match s.scratchCheckS rk ea 8 8 false with
    | some t => t
    | none => s.atomGives rk op d (leNat (s.scratchLoad (teamOf rk) ea 8)) data prior (s.scratchStore (teamOf rk) ea)
  else match s.toIa (s.vfOf rk) ea 8 with
    | .address => s.raiseS rk .address ea
    | .remote => s.raiseS rk .remote ea
    | .ia _ =>
      if ea % 8 ≠ 0 then s.raiseS rk .misalign ea
      else if s.inTx (teamOf rk) then s.atomLog rk op ea data
      else match s.xlat (s.vfOf rk) ea 8 true with
        | .ok x =>
          if s.bulkHeld x then s.parkS rk .order
          else s.atomGives rk op d (leNat (s.loadX x)) data prior fun bs =>
            (s.atomWrite (s.holder rk) sc.val x bs).noteAtom rk x
        | e => s.accFaultS rk ea e

theorem atomOp_eq {s s1 : State} {rk op : Nat} {d a b : SReg} {sc : Fin 8} {vs : List W64}
    (h : ScalarReady s rk (atomSrcs op d a b) (some d) vs s1) (hd : opReadsSd op = true → d ≠ .s 0)
    (htx : sc.val ≠ 7 → d ≠ .s 0 → s.inTx (teamOf rk) = false) :
    atomOp s op d a b sc =
      .next (s1.atomRun rk op d sc (src vs 0).toNat (src vs 1).toNat (src vs 2).toNat) := by
  have hprior : (opReadsSd op && d == .s 0) = false := by
    simpa using hd
  have htxill : (decide (sc.val ≠ 7) && s.inTx (teamOf rk) && !(d == .s 0) && !s.opIllegal rk (atomSrcs op d a b) (some d)) =
      false := by
    rw [h.opIllegal]
    simp only [Bool.not_false, Bool.and_true, Bool.and_eq_false_iff, decide_eq_false_iff_not, Bool.not_eq_false', beq_iff_eq]
    by_cases h7 : sc.val = 7
    · exact .inl (.inl (not_not.2 h7))
    · by_cases h0 : d = .s 0
      · exact .inr h0
      · exact .inl (.inr (htx h7 h0))
  simp only [atomOp, h.cur]
  refine (if_neg (Bool.eq_false_iff.1 hprior)).trans ((if_neg (Bool.eq_false_iff.1 htxill)).trans
    ((scalarOp_ready h _).trans ?_))
  unfold State.atomRun State.atomLog
  split
  · rfl
  split
  · cases s1.scratchCheckS rk (src vs 0).toNat 8 8 false <;> rfl
  cases s1.toIa (s1.vfOf rk) (src vs 0).toNat 8 with
  | address => rfl
  | remote => rfl
  | ia ia =>
    dsimp only
    split
    · rfl
    split
    · split
      · rfl
      · cases s1.wsLack (teamOf rk) 1 <;> rfl
    · cases s1.xlat (s1.vfOf rk) (src vs 0).toNat 8 true with
      | ok x =>
        dsimp only
        split <;> rfl
      | _ => rfl
/-! ## The outcomes -/

section
variable {s : State} {rk op ea data prior : Nat} {d : SReg} {sc : Fin 8}

theorem atomRun_wait (hw : s.orderWait rk = true) : s.atomRun rk op d sc ea data prior = s.parkS rk .order := by
  rw [State.atomRun, if_pos hw]

theorem atomGives_eq {old y new res : W64} (h : atomFn op 64 old.toNat y.toNat prior = (new.toNat, res.toNat))
    (ht : s.takes rk d res = true) (write : List Byte → State) :
    s.atomGives rk op d old.toNat y.toNat prior write = (write (leBytes 8 new.toNat)).finish rk d res := by
  simp only [State.atomGives, h, BitVec.ofNat_toNat, BitVec.setWidth_eq, ht, if_true]

section
variable (hw : s.orderWait rk = false)
include hw

theorem atomRun_scratch_fail {t : State} (h7 : sc.val = 7) (hc : s.scratchCheckS rk ea 8 8 false = some t) :
    s.atomRun rk op d sc ea data prior = t := by
  rw [State.atomRun, if_neg (Bool.eq_false_iff.1 hw), if_pos h7, hc]

theorem atomRun_scratch (h7 : sc.val = 7) (hc : s.scratchCheckS rk ea 8 8 false = none) :
    s.atomRun rk op d sc ea data prior =
      s.atomGives rk op d (leNat (s.scratchLoad (teamOf rk) ea 8)) data prior (s.scratchStore (teamOf rk) ea) := by
  rw [State.atomRun, if_neg (Bool.eq_false_iff.1 hw), if_pos h7, hc]

variable (h7 : sc.val ≠ 7)
include h7

theorem atomRun_address (hx : s.toIa (s.vfOf rk) ea 8 = .address) :
    s.atomRun rk op d sc ea data prior = s.raiseS rk .address ea := by
  rw [State.atomRun, if_neg (Bool.eq_false_iff.1 hw), if_neg h7, hx]

theorem atomRun_remote (hx : s.toIa (s.vfOf rk) ea 8 = .remote) :
    s.atomRun rk op d sc ea data prior = s.raiseS rk .remote ea := by
  rw [State.atomRun, if_neg (Bool.eq_false_iff.1 hw), if_neg h7, hx]

variable {ia : Nat} (hia : s.toIa (s.vfOf rk) ea 8 = .ia ia)
include hia

theorem atomRun_misalign (ha : ea % 8 ≠ 0) : s.atomRun rk op d sc ea data prior = s.raiseS rk .misalign ea := by
  simp only [State.atomRun, if_neg (Bool.eq_false_iff.1 hw), if_neg h7, hia, if_pos ha]

variable (ha : ea % 8 = 0)
include ha

theorem atomRun_logged (ht : s.inTx (teamOf rk) = true) : s.atomRun rk op d sc ea data prior = s.atomLog rk op ea data := by
  simp only [State.atomRun, if_neg (Bool.eq_false_iff.1 hw), if_neg h7, hia, if_neg (not_not.2 ha), if_pos ht]

variable (ht : s.inTx (teamOf rk) = false)
include ht

theorem atomRun_fails {e : AccRes} (hx : s.xlat (s.vfOf rk) ea 8 true = e) (he : ∀ x, e ≠ .ok x) :
    s.atomRun rk op d sc ea data prior = s.accFaultS rk ea e := by
  cases e with
  | ok x => exact absurd rfl (he x)
  | _ => simp only [State.atomRun, if_neg (Bool.eq_false_iff.1 hw), if_neg h7, hia, if_neg (not_not.2 ha),
      if_neg (Bool.eq_false_iff.1 ht), hx]

theorem atomRun_ok {x : Xlat} (hx : s.xlat (s.vfOf rk) ea 8 true = .ok x) : s.atomRun rk op d sc ea data prior =
    if s.bulkHeld x then s.parkS rk .order
    else s.atomGives rk op d (leNat (s.loadX x)) data prior fun bs =>
      (s.atomWrite (s.holder rk) sc.val x bs).noteAtom rk x := by
  simp only [State.atomRun, if_neg (Bool.eq_false_iff.1 hw), if_neg h7, hia, if_neg (not_not.2 ha),
    if_neg (Bool.eq_false_iff.1 ht), hx]

end

end

/-- A translated access has a physical byte for each byte. -/
theorem length_pas_of_xlat {s : State} {vf va n : Nat} {write : Bool} {x : Xlat} (h : s.xlat vf va n write = .ok x) :
    x.pas.length = n := by
  unfold State.xlat at h
  split at h
  · cases h
  · cases h
  · next ia hia =>
    have hok : s.translateIa (s.vf vf).part ia n write = .ok x := by
      split at h
      · next y hy =>
        split at h
        · cases h
        · cases h
          exact hy
      · exact h
    unfold State.translateIa at hok
    split at hok
    · cases hok
    · cases hok
    · cases hok
    · cases hok
    · cases hok
      simp [length_rangeFrom]

/-- A translated access has an IA. -/
theorem toIa_of_xlat {s : State} {vf va n : Nat} {write : Bool} {x : Xlat} (h : s.xlat vf va n write = .ok x) :
    ∃ ia, s.toIa vf va n = .ia ia := by
  unfold State.xlat at h
  split at h
  · cases h
  · cases h
  · next ia hia => exact ⟨ia, hia⟩

theorem length_loadX (s : State) (x : Xlat) : (s.loadX x).length = x.pas.length := by
  simp [State.loadX, length_rangeFrom]

theorem length_scratchLoad (s : State) (tk ea n : Nat) : (s.scratchLoad tk ea n).length = n := by
  simp [State.scratchLoad, length_rangeFrom]

theorem toNat_ofNat_leNat {bs : List Byte} (h : bs.length = 8) : (BitVec.ofNat 64 (leNat bs)).toNat = leNat bs := by
  rw [BitVec.toNat_ofNat]
  exact Nat.mod_eq_of_lt (by simpa [h] using leNat_lt bs)

/-! ## The words with their operations -/

/-- Each form of ATOM is an operation. -/
theorem exec_of_mem_atomForms {d a b : SReg} {sc : Fin 8} {f : Instr × List SReg × Bool} (h : f ∈ atomForms d a b sc) :
    ∃ op, (∀ s, exec f.1 s = atomOp s op d a b sc) ∧ f.2.1 = atomSrcs op d a b ∧ f.2.2 = opReadsSd op := by
  simp only [atomForms, List.map_cons, List.map_nil, List.cons_append, List.nil_append, List.mem_cons, List.not_mem_nil,
    or_false] at h
  rcases h with rfl | rfl | rfl | rfl | rfl | rfl | rfl | rfl | rfl | rfl | rfl | rfl | rfl
  · exact ⟨0, fun _ => rfl, rfl, rfl⟩
  · exact ⟨1, fun _ => rfl, rfl, rfl⟩
  · exact ⟨2, fun _ => rfl, rfl, rfl⟩
  · exact ⟨3, fun _ => rfl, rfl, rfl⟩
  · exact ⟨4, fun _ => rfl, rfl, rfl⟩
  · exact ⟨5, fun _ => rfl, rfl, rfl⟩
  · exact ⟨6, fun _ => rfl, rfl, rfl⟩
  · exact ⟨7, fun _ => rfl, rfl, rfl⟩
  · exact ⟨8, fun _ => rfl, rfl, rfl⟩
  · exact ⟨11, fun _ => rfl, rfl, rfl⟩
  · exact ⟨9, fun _ => rfl, rfl, rfl⟩
  · exact ⟨10, fun _ => rfl, rfl, rfl⟩
  · exact ⟨12, fun _ => rfl, rfl, rfl⟩

/-- Each reduction is its operation, which reads no sd. -/
theorem exec_of_mem_reductionForms {a b : SReg} {sc : Fin 8} {f : Instr × Nat} (h : f ∈ reductionForms a b sc) :
    (∀ s, exec f.1 s = atomOp s f.2 (.s 0) a b sc) ∧ opReadsSd f.2 = false := by
  simp only [reductionForms, List.mem_cons, List.not_mem_nil, or_false] at h
  rcases h with rfl | rfl | rfl | rfl | rfl | rfl | rfl | rfl | rfl | rfl <;> exact ⟨fun _ => rfl, rfl⟩

/-- The three operations that read sd trap without one (R182). -/
theorem atomOp_illegal {s : State} {rk op : Nat} (hc : s.cur = .scalar rk) (hop : opReadsSd op = true) (a b : SReg)
    (sc : Fin 8) : atomOp s op (.s 0) a b sc = .next (s.raiseS rk .illegal 0) := by
  simp only [atomOp, hc]
  exact if_pos (Bool.and_eq_true_iff.2 ⟨hop, rfl⟩)

/-- A value-returning global atomic in an open transaction (R249). -/
theorem atomOp_inTx {s : State} {rk op : Nat} {d : SReg} {sc : Fin 8} (hc : s.cur = .scalar rk) (h7 : sc.val ≠ 7)
    (ht : s.inTx (teamOf rk) = true) (hd : d ≠ .s 0) (a b : SReg) : atomOp s op d a b sc =
      .next (s.raiseS rk (if s.opIllegal rk (atomSrcs op d a b) (some d) = true then .illegal else .txillegal) 0) := by
  have hd0 : (d == .s 0) = false := beq_eq_false_iff_ne.2 hd
  simp only [atomOp, hc, hd0, Bool.and_false, Bool.false_eq_true, if_false, Bool.not_false, Bool.and_true, h7, ht, ne_eq,
    not_false_eq_true, decide_true, Bool.true_and]
  cases hi : s.opIllegal rk (atomSrcs op d a b) (some d) with
  | false => exact if_pos (congrArg not hi)
  | true => exact (if_neg (ne_true_of_eq_false (congrArg not hi))).trans (scalarOp_illegal hc hi _)

section
variable {s s1 : State} {rk op : Nat} {d a b : SReg} {sc : Fin 8} {va y p new res : W64} {vs : List W64} {i : Instr}

theorem exec_atom_global {x : Xlat} (h7 : sc.val ≠ 7) (ht : s.inTx (teamOf rk) = false) (ht1 : s1.inTx (teamOf rk) = false)
    (hw : s1.orderWait rk = false) (ha : va.toNat % 8 = 0) (hx : s1.xlat (s1.vfOf rk) va.toNat 8 true = .ok x)
    (hb : s1.bulkHeld x = false) (hi : ∀ s, exec i s = atomOp s op d a b sc)
    (h : ScalarReady s rk (atomSrcs op d a b) (some d) vs s1) (hd : opReadsSd op = true → d ≠ .s 0)
    (hva : src vs 0 = va) (hy : src vs 1 = y)
    (hf : atomFn op 64 (BitVec.ofNat 64 (leNat (s1.loadX x))).toNat y.toNat (src vs 2).toNat = (new.toNat, res.toNat))
    (htk : s1.takes rk d res = true) : exec i s =
      .next (((s1.atomWrite (s1.holder rk) sc.val x (leBytes 8 new.toNat)).noteAtom rk x).finish rk d res) := by
  obtain ⟨ia, hia⟩ := toIa_of_xlat hx
  have hlen : (s1.loadX x).length = 8 := (length_loadX s1 x).trans (length_pas_of_xlat hx)
  rw [hi, atomOp_eq h hd fun _ _ => ht, hva, hy, atomRun_ok hw h7 hia ha ht1 hx, if_neg (Bool.eq_false_iff.1 hb),
    ← toNat_ofNat_leNat hlen, atomGives_eq hf htk]

theorem exec_atom_scratch (hw : s1.orderWait rk = false) (hp : (s1.role rk).part = [])
    (hl : s1.legalScratch (teamOf rk) va.toNat 8 = true) (ha : va.toNat % 8 = 0)
    (hs : s1.scratchFault (teamOf rk) va.toNat 8 false = none) (hv : s1.vaultBad (teamOf rk) va.toNat 8 false = false)
    (hi : ∀ s, exec i s = atomOp s op d a b 7)
    (h : ScalarReady s rk (atomSrcs op d a b) (some d) vs s1) (hd : opReadsSd op = true → d ≠ .s 0)
    (hva : src vs 0 = va) (hy : src vs 1 = y)
    (hf : atomFn op 64 (BitVec.ofNat 64 (leNat (s1.scratchLoad (teamOf rk) va.toNat 8))).toNat y.toNat (src vs 2).toNat =
      (new.toNat, res.toNat))
    (htk : s1.takes rk d res = true) :
    exec i s = .next ((s1.scratchStore (teamOf rk) va.toNat (leBytes 8 new.toNat)).finish rk d res) := by
  have hcheck : s1.scratchCheckS rk va.toNat 8 8 false = none := by
    simp [State.scratchCheckS, hp, hl, ha, hs, hv]
  rw [hi, atomOp_eq h hd fun h7 => absurd rfl h7, hva, hy, atomRun_scratch hw rfl hcheck,
    ← toNat_ofNat_leNat (length_scratchLoad s1 (teamOf rk) va.toNat 8), atomGives_eq hf htk]

end

/-- A word whose result can be taken writes the new word and the result. -/
def GivesWord (s s1 : State) (rk : Nat) (d : SReg) (write : List Byte → State) (i : Instr) (new res : W64) : Prop :=
  s1.takes rk d res = true → exec i s = .next ((write (leBytes 8 new.toNat)).finish rk d res)

/-- What holds of every operation that reads no sd, with its word and result, holds of the ten forms. -/
theorem plainAtoms {P : Instr → W64 → W64 → Prop} {d a b : SReg} {sc : Fin 8} {old y : W64} (p : Nat)
    (h : ∀ (op : Nat) (i : Instr) (new res : W64), (∀ s, exec i s = atomOp s op d a b sc) → opReadsSd op = false →
      atomFn op 64 old.toNat y.toNat p = (new.toNat, res.toNat) → P i new res) :
    P (.atomAdd d a b sc) (old + y) old ∧ P (.atomAnd d a b sc) (old &&& y) old ∧
    P (.atomOr d a b sc) (old ||| y) old ∧ P (.atomXor d a b sc) (old ^^^ y) old ∧
    P (.atomMin d a b sc) (if y.slt old then y else old) old ∧ P (.atomMax d a b sc) (if old.slt y then y else old) old ∧
    P (.atomMinn d a b sc) (if y.ult old then y else old) old ∧ P (.atomMaxn d a b sc) (if old.ult y then y else old) old ∧
    P (.atomSwap d a b sc) y old ∧ P (.atomFfcs d a b sc) (ffcsOf old y).1 (ffcsOf old y).2 :=
  ⟨h 0 _ _ _ (fun _ => rfl) rfl (atomFn_add ..), h 1 _ _ _ (fun _ => rfl) rfl (atomFn_and ..),
    h 2 _ _ _ (fun _ => rfl) rfl (atomFn_or ..), h 3 _ _ _ (fun _ => rfl) rfl (atomFn_xor ..),
    h 4 _ _ _ (fun _ => rfl) rfl (atomFn_min ..), h 5 _ _ _ (fun _ => rfl) rfl (atomFn_max ..),
    h 6 _ _ _ (fun _ => rfl) rfl (atomFn_minn ..), h 7 _ _ _ (fun _ => rfl) rfl (atomFn_maxn ..),
    h 8 _ _ _ (fun _ => rfl) rfl rfl, h 11 _ _ _ (fun _ => rfl) rfl (atomFn_ffcs ..)⟩

/-- The same of the three forms that read sd. -/
theorem sdAtoms {P : Instr → W64 → W64 → Prop} {d a b : SReg} {sc : Fin 8} {old y p : W64}
    (h : ∀ (op : Nat) (i : Instr) (new res : W64), (∀ s, exec i s = atomOp s op d a b sc) → opReadsSd op = true →
      atomFn op 64 old.toNat y.toNat p.toNat = (new.toNat, res.toNat) → P i new res) :
    P (.atomCas d a b sc) (if old = p then y else old) old ∧ P (.atomBfim d a b sc) ((old &&& ~~~p) ||| (y &&& p)) old ∧
    P (.atomPlset d a b sc) (plsetOf old y p) old :=
  ⟨h 9 _ _ _ (fun _ => rfl) rfl (atomFn_cas ..), h 10 _ _ _ (fun _ => rfl) rfl (atomFn_bfim ..),
    h 12 _ _ _ (fun _ => rfl) rfl (atomFn_plset ..)⟩

theorem atomSrcs_plain {op : Nat} (h : opReadsSd op = false) (d a b : SReg) : atomSrcs op d a b = [a, b] := by
  rw [atomSrcs, h]
  rfl

theorem atomSrcs_sd {op : Nat} (h : opReadsSd op = true) (d a b : SReg) : atomSrcs op d a b = [a, b, d] := by
  rw [atomSrcs, h]
  rfl

/-- Settles O8: each word is `atomOp` of its operation, whose numbers are the statement's words. -/
theorem scalarAtomics : Obligations.ScalarAtomics := by
  unfold Obligations.ScalarAtomics
  refine ⟨fun s s1 rk d a b sc va y x h7 ht ht1 hw ha hx hb => ⟨fun h => plainAtoms
      (P := GivesWord s s1 rk d fun bs => (s1.atomWrite (s1.holder rk) sc.val x bs).noteAtom rk x) 0
      fun op i new res hi hop hf => ?_, fun p hd h => sdAtoms
      (P := GivesWord s s1 rk d fun bs => (s1.atomWrite (s1.holder rk) sc.val x bs).noteAtom rk x)
      fun op i new res hi hop hf => ?_⟩,
    fun s s1 rk d a b va y hw hp hl ha hs hv => ⟨fun h => plainAtoms 
      (P := GivesWord s s1 rk d (s1.scratchStore (teamOf rk) va.toNat)) 0 fun op i new res hi hop hf => ?_,
      fun p hd h => sdAtoms (P := GivesWord s s1 rk d (s1.scratchStore (teamOf rk) va.toNat))
      fun op i new res hi hop hf => ?_⟩,
    fun s s1 rk d a b sc va y p => ⟨fun hc => ⟨atomOp_illegal hc rfl a b sc, atomOp_illegal hc rfl a b sc,
      atomOp_illegal hc rfl a b sc⟩, fun f hf hc h7 ht hd => ?_, fun f hf ia h7 h ht ht1 hw hia ha hws => ?_,
      fun f hf hd h => ⟨fun h7 ht ht1 => ?_, fun h7 hw hp => ?_⟩⟩⟩
  · exact exec_atom_global (vs := [va, y]) h7 ht ht1 hw ha hx hb hi (atomSrcs_plain hop d a b ▸ h) 
      (fun h => nomatch hop.symm.trans h) rfl rfl hf
  · exact exec_atom_global (vs := [va, y, p]) h7 ht ht1 hw ha hx hb hi (atomSrcs_sd hop d a b ▸ h) (fun _ => hd) rfl rfl hf
  · exact exec_atom_scratch (vs := [va, y]) hw hp hl ha hs hv hi (atomSrcs_plain hop d a b ▸ h) 
      (fun h => nomatch hop.symm.trans h) rfl rfl hf
  · exact exec_atom_scratch (vs := [va, y, p]) hw hp hl ha hs hv hi (atomSrcs_sd hop d a b ▸ h) (fun _ => hd) rfl rfl hf
  · obtain ⟨op, hi, hsrc, -⟩ := exec_of_mem_atomForms hf
    rw [hi, hsrc]
    exact atomOp_inTx hc h7 ht hd a b
  · obtain ⟨hi, hop⟩ := exec_of_mem_reductionForms hf
    have hsrc := atomSrcs_plain hop (.s 0) a b
    rw [hi, atomOp_eq (hsrc ▸ h) (by simp [hop]) fun _ h0 => absurd rfl h0]
    refine congrArg _ ((atomRun_logged hw h7 hia ha ht1).trans ?_)
    simp only [State.atomLog, hws]
    cases s1.logRoom (teamOf rk) 1 <;> rfl
  · obtain ⟨op, hi, hsrc, hreads⟩ := exec_of_mem_atomForms hf
    have hva : src (if f.2.2 = true then [va, y, p] else [va, y]) 0 = va := by split <;> rfl
    have hrun := atomOp_eq (sc := sc) (hsrc ▸ h) (hreads ▸ hd) fun _ _ => ht
    rw [hva] at hrun
    rw [hi, hrun]
    refine ⟨fun hw => congrArg _ (atomRun_wait hw), fun hw => ⟨fun hx => congrArg _ (atomRun_address hw h7 hx),
      fun hx => congrArg _ (atomRun_remote hw h7 hx), fun ia hia ha => congrArg _ (atomRun_misalign hw h7 hia ha),
      fun ia hia ha => ⟨fun sub pa hx => congrArg _ (atomRun_fails hw h7 hia ha ht1 hx nofun),
        fun pa hx => congrArg _ (atomRun_fails hw h7 hia ha ht1 hx nofun), fun x hx hb => ?_⟩⟩⟩
    rw [atomRun_ok hw h7 hia ha ht1 hx, if_pos hb]
  · obtain ⟨op, hi, hsrc, hreads⟩ := exec_of_mem_atomForms hf
    have hva : src (if f.2.2 = true then [va, y, p] else [va, y]) 0 = va := by split <;> rfl
    have hrun := atomOp_eq (sc := sc) (hsrc ▸ h) (hreads ▸ hd) fun h7' => absurd h7 h7'
    rw [hva] at hrun
    rw [hi, hrun]
    refine ⟨fun hl => congrArg _ (atomRun_scratch_fail hw h7 ?_), fun hl => ⟨fun ha =>
      congrArg _ (atomRun_scratch_fail hw h7 ?_), fun v ha hv => congrArg _ (atomRun_scratch_fail hw h7 ?_)⟩⟩
    · simp [State.scratchCheckS, hp, hl]
    · simp [State.scratchCheckS, hp, hl, ha]
    · simp [State.scratchCheckS, hp, hl, ha, hv]

end Sys2Proof.Machine
end

section
/-! PROOFS. Charges, postings and FAREADD (R382 to R384, R395). -/

namespace Sys2Proof.Machine
open Sys2Proof

/-! ## Charges -/

theorem charge_core_self (s : State) (core vf nominal : Nat) : ((s.charge core vf nominal).core core).meter =
    (s.core core).meter.put vf ((s.core core).meter.get 0 vf + nominal * (s.core core).fareFactor / 1000) := by
  rw [State.charge, State.core_updCore_self]

theorem charge_core_ne (s : State) {core k : Nat} (vf nominal : Nat) (h : k ≠ core) :
    (s.charge core vf nominal).core k = s.core k := State.core_updCore_ne _ _ h

/-! ## Postings -/

/-- A VF with a debit that leaves its balance at or below zero exhausts the quota (R384). -/
def State.exhaust (s : State) (vf : Nat) : State :=
  if (s.vf vf).fareBal.toInt ≤ 0 && !(s.vf vf).exhausted then
    (s.updVf vf fun v => { v with exhausted := true }).requestVf vf 6
  else s

theorem exhaust_vf (s : State) (vf : Nat) : (s.exhaust vf).vf vf =
    { s.vf vf with exhausted := (s.vf vf).exhausted || decide ((s.vf vf).fareBal.toInt ≤ 0) } := by
  unfold State.exhaust
  have hreq (u : State) : (u.requestVf vf 6).vf vf = u.vf vf := rfl
  cases he : (s.vf vf).exhausted with
  | true =>
    rw [Bool.not_true, Bool.and_false, if_neg Bool.false_ne_true, Bool.true_or, ← he]
  | false =>
    by_cases hb : (s.vf vf).fareBal.toInt ≤ 0
    · simp [hb, hreq]
    · rw [decide_eq_false hb, Bool.false_and, if_neg Bool.false_ne_true, Bool.or_false, ← he]

theorem exhaust_core (s : State) (vf k : Nat) : (s.exhaust vf).core k = s.core k := by
  unfold State.exhaust
  split <;> rfl

theorem exhaust_roles (s : State) (vf : Nat) : (s.exhaust vf).roles = s.roles := by
  unfold State.exhaust
  split <;> rfl

theorem exhaust_hbm (s : State) (vf : Nat) : (s.exhaust vf).hbm = s.hbm := by
  unfold State.exhaust
  split <;> rfl

theorem postShared_eq (s : State) (vf : Nat) : s.postShared vf = (s.updVf vf fun v =>
    { v with fareBal := v.fareBal - BitVec.ofNat 64 (s.sharedCost vf), fareTot := v.fareTot + BitVec.ofNat 64 (s.sharedCost vf)
             fareSh := v.fareSh + BitVec.ofNat 64 (s.sharedCost vf) }).exhaust vf := rfl

theorem postMeter_eq {s : State} {core vf : Nat} (h : (s.core core).meter.has vf = true) : s.postMeter core vf =
    ((s.updCore core fun c => { c with
        meter := c.meter.put vf ((s.core core).meter.get 0 vf % 16)
        meterRep := c.meterRep.put vf ((s.core core).meterRep.get 0 vf % 16) }).updVf vf fun v => { v with
      fareBal := v.fareBal - BitVec.ofNat 64 ((s.core core).meter.get 0 vf / 16)
      fareTot := v.fareTot + BitVec.ofNat 64 ((s.core core).meter.get 0 vf / 16)
      fareRep := v.fareRep + BitVec.ofNat 64 ((s.core core).meterRep.get 0 vf / 16) }).exhaust vf := by
  rw [State.postMeter]
  exact if_neg (by simp [h])

theorem fareadd_eq (vf : Nat) (u : W64) (s : State) : exec (.fareadd vf u) s =
    .next (if 0 < ((s.vf vf).fareBal + u).toInt then
      (s.updVf vf fun v => { v with fareBal := v.fareBal + u }).updVf vf fun v => { v with exhausted := false }
      else s.updVf vf fun v => { v with fareBal := v.fareBal + u }) := by
  have harm : exec (.fareadd vf u) s = execFareadd vf u s := rfl
  rw [harm, execFareadd, State.vf_updVf_self]

/-- Settles O46: a meter keeps what its posting leaves, and both postings end in the same test of the balance. -/
theorem fares : Obligations.Fares := by
  unfold Obligations.Fares
  refine fun s core vf tk nominal u => ⟨⟨?_, fun k hk => ?_, fun k hk => charge_core_ne s vf nominal hk, rfl, rfl, rfl⟩,
    ⟨?_, ?_⟩, fun h => if_pos h, fun h => if_neg (not_not.2 h), fun h => ?_, fun h => if_pos h, fun h0 h => ?_, rfl, ?_, ?_⟩
  · rw [charge_core_self, NMap.get_put_self]
  · rw [charge_core_self, NMap.get_put_ne _ _ _ hk]
  · rw [State.chargeTeam, State.core_updTeam, charge_core_self, NMap.get_put_self]
  · rw [State.chargeTeam, State.team_updTeam_self]
    rfl
  · rw [postMeter_eq h]
    simp [exhaust_vf, exhaust_core]
  · exact if_neg (by simp [h0, h])
  · rw [postShared_eq]
    simp [exhaust_vf, exhaust_roles, exhaust_hbm]
  · refine ⟨_, fareadd_eq vf u s, ?_⟩
    split
    · next hb =>
      simp only [State.vf_updVf_self]
      refine ⟨trivial, ?_, fun k hk => ?_, rfl, rfl⟩
      · rw [decide_eq_false (not_le.2 hb), Bool.and_false]
      · rw [State.vf_updVf_ne _ _ hk, State.vf_updVf_ne _ _ hk]
    · next hb =>
      simp only [State.vf_updVf_self]
      refine ⟨trivial, ?_, fun k hk => State.vf_updVf_ne _ _ hk, rfl, rfl⟩
      rw [decide_eq_true (not_lt.1 hb), Bool.and_true]

end Sys2Proof.Machine
end

section
/-! PROOFS. The kill of a team, the answers (R254, R258, R341, R344) and the requests of PREEMPT (R165, R216, R253, R381). -/

namespace Sys2Proof.Machine
open Sys2Proof

/-! ## The kill of a team (R254, R258) -/

theorem killTeam_pinned {s : State} {tk : Nat} (h : (s.team tk).phase = .pinned) :
    s.killTeam tk = s.updTeam tk fun t => { t with doomed := true } := by
  rw [State.killTeam]
  exact if_pos h

theorem dropSwid_kept (s : State) (tk : Nat) : (s.dropSwid tk).unposted = s.unposted ∧
    ∀ k, k ≠ tk → (s.dropSwid tk).team k = s.team k := by
  unfold State.dropSwid
  cases (s.team tk).swid with
  | none => exact ⟨rfl, fun _ _ => rfl⟩
  | some id => exact ⟨rfl, fun k hk => State.team_updTeam_ne _ _ hk⟩

/-- What is left of a team that is discarded says nothing of its swap identifier. -/
theorem discarded_dropSwid (s : State) (tk : Nat) : ((s.dropSwid tk).team tk).discarded = (s.team tk).discarded := by
  unfold State.dropSwid
  cases (s.team tk).swid with
  | none => rfl
  | some id => simp only [State.team_updTeam_self, State.team_updCore, Team.discarded]

theorem settleCmds_team_ne (s : State) {tk k : Nat} (h : k ≠ tk) : (s.settleCmds tk).team k = s.team k := by
  unfold State.settleCmds
  dsimp only
  split
  · rfl
  · rw [State.chargeTeam, State.team_updTeam_ne _ _ h]
    rfl

section
variable (s : State) (tk : Nat)

/-- The team's roles are gone and it is discarded. -/
def State.killEvicted : State := (((s.settleCmds tk).evictTeam tk).dropSwid tk).updTeam tk Team.discarded

/-- An open transaction's cost is counted as replay fares. -/
def State.killRepaid : State :=
  let vf := ((s.settleCmds tk).launch (lidOf tk)).vf
  if (s.team tk).txOpen then (s.killEvicted tk).updCore (s.team tk).core fun c =>
    { c with meterRep := c.meterRep.put vf (c.meterRep.get 0 vf + ((s.settleCmds tk).team tk).fare) }
  else s.killEvicted tk

/-- The state of a kill before what the team has cost is posted. -/
def State.killCounted : State :=
  (s.killRepaid tk).updLaunch (lidOf tk) fun l =>
    { l with killed := l.killed + 1, requeue := l.requeue.filter fun n => n != (s.team tk).t }

theorem killTeam_eq (h : (s.team tk).phase ≠ .pinned) : s.killTeam tk = ((s.killCounted tk).postMeter (s.team tk).core
    ((s.settleCmds tk).launch (lidOf tk)).vf).adopt (clusterOf (s.team tk).core) := by
  rw [State.killTeam]
  exact if_neg h

theorem killEvicted_team : (s.killEvicted tk).team tk = ((s.settleCmds tk).team tk).discarded := by
  rw [State.killEvicted, State.team_updTeam_self, discarded_dropSwid]
  rfl

theorem killEvicted_team_ne {k : Nat} (h : k ≠ tk) : (s.killEvicted tk).team k = s.team k := by
  rw [State.killEvicted, State.team_updTeam_ne _ _ h, (dropSwid_kept _ _).2 k h]
  exact settleCmds_team_ne s h

theorem killEvicted_unposted : (s.killEvicted tk).unposted =
    (s.roles.keep (fun k _ => teamOf k != tk), s.launches, s.hbm, s.dirty) := by
  obtain ⟨hroles, hlaunches, hhbm, hdirty⟩ := unposted_inj.1 (settleCmds_unposted s tk)
  have hdrop := (dropSwid_kept ((s.settleCmds tk).evictTeam tk) tk).1
  have hevict : ((s.settleCmds tk).evictTeam tk).unposted =
      ((s.settleCmds tk).roles.keep (fun k _ => teamOf k != tk), (s.settleCmds tk).launches, (s.settleCmds tk).hbm,
        (s.settleCmds tk).dirty) := rfl
  rw [hroles, hlaunches, hhbm, hdirty] at hevict
  exact hdrop.trans hevict

theorem killRepaid_kept : (s.killRepaid tk).unposted = (s.killEvicted tk).unposted ∧
    (s.killRepaid tk).teams = (s.killEvicted tk).teams := by
  unfold State.killRepaid
  split
  · exact ⟨updCore_unposted _ _ _, State.updCore_teams _ _ _⟩
  · exact ⟨rfl, rfl⟩

theorem killCounted_teams : (s.killCounted tk).teams = (s.killEvicted tk).teams :=
  (State.updLaunch_teams _ _ _).trans (killRepaid_kept s tk).2

theorem killCounted_kept : (s.killCounted tk).roles = (s.killEvicted tk).roles ∧
    (s.killCounted tk).hbm = (s.killEvicted tk).hbm ∧ (s.killCounted tk).dirty = (s.killEvicted tk).dirty ∧
    ((s.killCounted tk).launch (lidOf tk)).killed = ((s.killEvicted tk).launch (lidOf tk)).killed + 1 := by
  obtain ⟨hroles, hlaunches, hhbm, hdirty⟩ := unposted_inj.1 (killRepaid_kept s tk).1
  unfold State.killCounted
  refine ⟨hroles, hhbm, hdirty, ?_⟩
  rw [State.launch_updLaunch_self, State.launch, hlaunches]
  rfl

theorem killCounted_team : (s.killCounted tk).team tk = ((s.settleCmds tk).team tk).discarded := by
  rw [State.team, killCounted_teams]
  exact killEvicted_team s tk

section
variable {s tk} (h : (s.team tk).phase ≠ .pinned)
include h

theorem killTeam_team : (s.killTeam tk).team tk = ((s.settleCmds tk).team tk).discarded := by
  have hres : ((s.killCounted tk).team tk).resident = false := by rw [killCounted_team]; rfl
  rw [killTeam_eq s tk h, (adopt_eq _ _).2, postMeter_team hres, killCounted_team]

theorem killTeam_kept : (s.killTeam tk).roles = s.roles.keep (fun k _ => teamOf k != tk) ∧
    (s.killTeam tk).hbm = s.hbm ∧ (s.killTeam tk).dirty = s.dirty ∧
    ((s.killTeam tk).launch (lidOf tk)).killed = (s.launch (lidOf tk)).killed + 1 := by
  obtain ⟨hroles, hlaunches, hhbm, hdirty⟩ := unposted_inj.1
    ((adopt_eq ((s.killCounted tk).postMeter (s.team tk).core _) (clusterOf (s.team tk).core)).1.trans
      (postMeter_unposted (s.killCounted tk) (s.team tk).core ((s.settleCmds tk).launch (lidOf tk)).vf))
  obtain ⟨hcr, hch, hcd, hcl⟩ := killCounted_kept s tk
  have he := killEvicted_unposted s tk
  simp only [State.unposted, Prod.mk.injEq] at he
  obtain ⟨her, hel, heh, hed⟩ := he
  rw [killTeam_eq s tk h]
  refine ⟨hroles.trans (hcr.trans her), hhbm.trans (hch.trans heh), hdirty.trans (hcd.trans hed), ?_⟩
  rw [State.launch, hlaunches, ← State.launch, hcl, State.launch, hel]
  rfl

theorem killTeam_hasRole {j : Nat} (hj : j < 8) : (s.killTeam tk).hasRole (roleKey tk j) = false := by
  rw [State.hasRole, (killTeam_kept h).1]
  exact has_keep fun v => by rw [teamOf_roleKey hj]; exact bne_self_eq_false _

theorem killTeam_role {k : Nat} (hk : teamOf k ≠ tk) : (s.killTeam tk).role k = s.role k := by
  rw [State.role, (killTeam_kept h).1]
  exact get_keep fun v => bne_iff_ne.2 hk

end

end

/-! ## The answers (R341, R344, R353, R416) -/

section
variable {s : State} {vf id tk : Nat} {r : FaultRec}

theorem exec_answer_none (h : s.recOf vf id = none) :
    exec (.answerRetry vf id) s = .next s ∧ exec (.answerKill vf id) s = .next s := by
  have hretry : exec (.answerRetry vf id) s = execAnswerRetry vf id s := rfl
  have hkill : exec (.answerKill vf id) s = execAnswerKill vf id s := rfl
  simp only [hretry, execAnswerRetry, hkill, execAnswerKill, h, and_self]

theorem exec_answerRetry (h : s.recOf vf id = some r) :
    exec (.answerRetry vf id) s = .next ((s.answer vf fun q => q.recid == id).retryAll vf r) := by
  have harm : exec (.answerRetry vf id) s = execAnswerRetry vf id s := rfl
  simp only [harm, execAnswerRetry, h]

/-- KILL of a record that no task waits on: its team dies, and a held merge goes on without it. -/
theorem exec_answerKill (h : s.recOf vf id = some r) (ht : s.taskWaits id = none) {u v : State}
    (hu : (s.answer vf fun q => q.recid == id).giveUp vf id = u)
    (hv : (match r.team with | some tk => u.killNamed vf tk | none => u) = v) :
    exec (.answerKill vf id) s = .next (if r.byWaybill then v.giveUpMerge id r.team else v) := by
  have harm : exec (.answerKill vf id) s = execAnswerKill vf id s := rfl
  subst hv hu
  simp only [harm, execAnswerKill, h, ht] <;> rfl

theorem exec_answerKill_task {rk : Nat} (h : s.recOf vf id = some r) (ht : s.taskWaits id = some rk) :
    exec (.answerKill vf id) s = .next (((s.answer vf fun q => q.recid == id).giveUp vf id).taskKill rk) := by
  have harm : exec (.answerKill vf id) s = execAnswerKill vf id s := rfl
  simp only [harm, execAnswerKill, h, ht]

end

/-- Settles O48: an answer looks the record up once, and a kill is `Team.discarded` on a team whose roles are gone. -/
theorem answers : Obligations.Answers := by
  unfold Obligations.Answers
  refine fun s vf id tk r => ⟨exec_answer_none, fun h => ⟨exec_answerRetry h, fun rk ht => exec_answerKill_task h ht,
    fun ht hb => ⟨fun hn => ?_, fun hs => ?_⟩, fun ht hb hs => ?_, fun ht hb hn => ?_⟩, killTeam_pinned, fun h => ?_,
    fun q => ⟨rfl, rfl, rfl⟩⟩
  · rw [exec_answerKill h ht rfl rfl, hb, hn]
    rfl
  · rw [exec_answerKill h ht rfl rfl, hb, hs]
    rfl
  · rw [exec_answerKill h ht rfl rfl, hb, hs]
    rfl
  · rw [exec_answerKill h ht rfl rfl, hb, hn]
    rfl
  · obtain ⟨-, hhbm, hdirty, hkilled⟩ := killTeam_kept h
    rw [killTeam_team h]
    exact ⟨rfl, rfl, rfl, rfl, fun j hj => killTeam_hasRole h hj, fun k hk => killTeam_role h hk, hkilled, hhbm, hdirty⟩

end Sys2Proof.Machine
end

section
/-! PROOFS. The requests of PREEMPT (R165, R216, R253, R381). -/

namespace Sys2Proof.Machine
open Sys2Proof

/-! ## Folds and tables -/

theorem get_map_proj {α β : Type} {d : α} (p : α → β) {g : Nat × α → Nat × α} (hkey : ∀ e, (g e).1 = e.1)
    (hval : ∀ e, p (g e).2 = p e.2) (m : NMap α) (k : Nat) : p (NMap.get d (m.map g) k) = p (NMap.get d m k) := by
  induction m with
  | nil => rfl
  | cons e t ih =>
    rw [List.map_cons, NMap.get, NMap.get, hkey e]
    split
    · exact hval e
    · exact ih

theorem mem_of_has {α : Type} {d : α} {m : NMap α} {k : Nat} (h : m.has k = true) : (k, m.get d k) ∈ m := by
  induction m with
  | nil => cases h
  | cons e t ih =>
    rw [NMap.get]
    split
    · next he =>
      rw [he]
      exact List.mem_cons_self ..
    · next he =>
      refine List.mem_cons_of_mem _ (ih ?_)
      rwa [NMap.has, NMap.get?, if_neg he] at h

theorem has_keep_of_not {α : Type} {p : Nat → α → Bool} {k : Nat} {m : NMap α} (h : m.has k = false) :
    (m.keep p).has k = false := by
  induction m with
  | nil => rfl
  | cons e t ih =>
    by_cases he : k = e.1
    · rw [NMap.has, NMap.get?, if_pos he] at h
      cases h
    · rw [NMap.has, NMap.get?, if_neg he] at h
      rw [NMap.keep, List.filter_cons]
      split
      · rw [NMap.has, NMap.get?, if_neg he]
        exact ih h
      · exact ih h

/-- A fold that passes over `k`: before it `P` holds, from it on `Q`. -/
theorem foldl_reaches {σ β : Type} {P Q : σ → Prop} {f : σ → β → σ} {k : β} (hP : ∀ t x, x ≠ k → P t → P (f t x))
    (hPQ : ∀ t, P t → Q (f t k)) (hQ : ∀ t x, Q t → Q (f t x)) {l : List β} (hk : k ∈ l) {s : σ} (hs : P s) :
    Q (l.foldl f s) := by
  have hkeep (l : List β) (t : σ) (ht : Q t) : Q (l.foldl f t) := by
    induction l generalizing t with
    | nil => exact ht
    | cons x xs ih => exact ih _ (hQ t x ht)
  induction l generalizing s with
  | nil => exact absurd hk List.not_mem_nil
  | cons x xs ih =>
    by_cases hx : x = k
    · subst hx
      exact hkeep xs _ (hPQ s hs)
    · exact ih ((List.mem_cons.1 hk).resolve_left (Ne.symm hx)) (hP s x hx hs)

/-! ## KILL of every team (R258, R381) -/

/-- What a request of pre-emption does not change of a team. -/
theorem request_fixed (t : Team) (cause n : Nat) (ph : TeamPhase) (sw : Bool) :
    ((t.request cause n ph sw).phase, (t.request cause n ph sw).doomed, (t.request cause n ph sw).scratch) =
      (t.phase, t.doomed, t.scratch) := by
  unfold Team.request
  split
  · rfl
  · split
    · rfl
    · split <;> rfl

/-- A posting requests pre-emptions alone of the teams. -/
theorem postMeter_fixed (s : State) (core vf tk : Nat) :
    (((s.postMeter core vf).team tk).phase, ((s.postMeter core vf).team tk).doomed, ((s.postMeter core vf).team tk).scratch) =
      ((s.team tk).phase, (s.team tk).doomed, (s.team tk).scratch) := by
  have hreq (u : State) : (fun t : Team => (t.phase, t.doomed, t.scratch)) ((u.requestVf vf 6).team tk) =
      (fun t : Team => (t.phase, t.doomed, t.scratch)) (u.team tk) :=
    get_map_proj (fun t : Team => (t.phase, t.doomed, t.scratch)) (fun e => by dsimp only; split <;> rfl)
      (fun e => by dsimp only; split; exacts [request_fixed .., rfl]) u.teams tk
  unfold State.postMeter
  dsimp only
  split
  · rfl
  · split
    · exact hreq _
    · rfl

theorem killCounted_team_ne (s : State) {tk k : Nat} (h : k ≠ tk) : (s.killCounted tk).team k = s.team k := by
  rw [State.team, killCounted_teams]
  exact killEvicted_team_ne s tk h

theorem killTeam_other (s : State) {tk k : Nat} (h : k ≠ tk) : ((s.killTeam tk).team k).phase = (s.team k).phase ∧
    ((s.killTeam tk).team k).doomed = (s.team k).doomed := by
  by_cases hp : (s.team tk).phase = .pinned
  · rw [killTeam_pinned hp, State.team_updTeam_ne _ _ h]
    exact ⟨rfl, rfl⟩
  · have hpost := postMeter_fixed (s.killCounted tk) (s.team tk).core ((s.settleCmds tk).launch (lidOf tk)).vf k
    rw [killCounted_team_ne s h] at hpost
    simp only [Prod.mk.injEq] at hpost
    rw [killTeam_eq s tk hp, (adopt_eq _ _).2]
    exact ⟨hpost.1, hpost.2.1⟩

/-- A kill brings no role back. -/
theorem killTeam_noRole {s : State} {rk : Nat} (tk : Nat) (h : s.hasRole rk = false) : (s.killTeam tk).hasRole rk = false := by
  by_cases hp : (s.team tk).phase = .pinned
  · rw [killTeam_pinned hp]
    exact h
  · rw [State.hasRole, (killTeam_kept hp).1]
    exact has_keep_of_not h

/-- A team is killed, and its roles are gone. -/
def State.isKilled (s : State) (tk : Nat) : Prop := (s.team tk).phase = .killed ∧ ∀ j, j < 8 → s.hasRole (roleKey tk j) = false

/-- A team is doomed behind its commit point. -/
def State.isDoomed (s : State) (tk : Nat) : Prop := (s.team tk).phase = .pinned ∧ (s.team tk).doomed = true

theorem killTeam_isKilled {s : State} {tk : Nat} (h : (s.team tk).phase ≠ .pinned) : (s.killTeam tk).isKilled tk :=
  ⟨by rw [killTeam_team h]; rfl, fun _ hj => killTeam_hasRole h hj⟩

theorem killTeam_isDoomed {s : State} {tk : Nat} (h : (s.team tk).phase = .pinned) : (s.killTeam tk).isDoomed tk := by
  rw [killTeam_pinned h, State.isDoomed, State.team_updTeam_self]
  exact ⟨h, rfl⟩

theorem killTeams_isKilled {s : State} {tk : Nat} {ks : List Nat} (hk : tk ∈ ks) (h : (s.team tk).phase ≠ .pinned) :
    (ks.foldl State.killTeam s).isKilled tk := by
  refine foldl_reaches (Q := (State.isKilled · tk)) (P := fun u : State => (u.team tk).phase ≠ .pinned)
    (fun t k hne hp => ?_) (fun t => killTeam_isKilled)
    (fun t k hq => ?_) hk h
  · rwa [(killTeam_other t (Ne.symm hne)).1]
  · obtain ⟨hphase, hrole⟩ := hq
    by_cases hne : k = tk
    · subst hne
      exact killTeam_isKilled (by rw [hphase]; decide)
    · exact ⟨(killTeam_other t (Ne.symm hne)).1.trans hphase, fun j hj => killTeam_noRole k (hrole j hj)⟩

theorem killTeams_isDoomed {s : State} {tk : Nat} {ks : List Nat} (hk : tk ∈ ks) (h : (s.team tk).phase = .pinned) :
    (ks.foldl State.killTeam s).isDoomed tk := by
  refine foldl_reaches (Q := (State.isDoomed · tk)) (P := fun u : State => (u.team tk).phase = .pinned)
    (fun t k hne hp => ?_) (fun t => killTeam_isDoomed)
    (fun t k hq => ?_) hk h
  · rwa [(killTeam_other t (Ne.symm hne)).1]
  · obtain ⟨hphase, hdoomed⟩ := hq
    by_cases hne : k = tk
    · subst hne
      exact killTeam_isDoomed hphase
    · obtain ⟨hp, hd⟩ := killTeam_other t (Ne.symm hne)
      exact ⟨hp.trans hphase, hd.trans hdoomed⟩

theorem mem_vfTeams {s : State} {vf tk : Nat} {p : Team → Bool} (h : s.teams.has tk = true) (hp : p (s.team tk) = true)
    (hvf : (s.launch (lidOf tk)).vf = vf) : tk ∈ s.vfTeams vf p :=
  List.mem_map.2 ⟨(tk, s.team tk), List.mem_filter.2 ⟨mem_of_has h, by simp [hp, hvf]⟩, rfl⟩

/-! ## A team leaves its core with its state (R165, R216) -/

/-- The scalar state of each role, and the scratch of each team, stay; a role without words in flight gets none. -/
structure Resting (s t : State) : Prop where
  pc : ∀ k, (t.role k).pc = (s.role k).pc
  sregs : ∀ k, (t.role k).sregs = (s.role k).sregs
  flight : ∀ k, (s.role k).flight = [] → (t.role k).flight = []
  scratch : ∀ k, (t.team k).scratch = (s.team k).scratch

section
variable {s t u : State}

theorem Resting.refl (s : State) : Resting s s := ⟨fun _ => rfl, fun _ => rfl, fun _ h => h, fun _ => rfl⟩

theorem Resting.trans (h : Resting s t) (g : Resting t u) : Resting s u :=
  ⟨fun k => (g.pc k).trans (h.pc k), fun k => (g.sregs k).trans (h.sregs k), fun k hk => g.flight k (h.flight k hk),
    fun k => (g.scratch k).trans (h.scratch k)⟩

theorem Resting.foldl {β : Type} {f : State → β → State} (hf : ∀ t x, Resting t (f t x)) (l : List β) (s : State) :
    Resting s (l.foldl f s) := by
  induction l generalizing s with
  | nil => exact Resting.refl s
  | cons x xs ih => exact (hf s x).trans (ih _)

/-- What depends on the roles and on the teams alone. -/
theorem Resting.of_eq (hr : t.roles = s.roles) (ht : t.teams = s.teams) : Resting s t := by
  have hrole (k : Nat) : t.role k = s.role k := by rw [State.role, hr]; rfl
  have hteam (k : Nat) : t.team k = s.team k := by rw [State.team, ht]; rfl
  exact ⟨fun k => by rw [hrole], fun k => by rw [hrole], fun k h => by rwa [hrole], fun k => by rw [hteam]⟩

theorem resting_of_waits (hr : ∀ k, (t.role k).sameWaits (s.role k) = s.role k) (ht : ∀ k, t.team k = s.team k) :
    Resting s t :=
  ⟨fun k => (congrArg Role.pc (hr k) :), fun k => (congrArg Role.sregs (hr k) :),
    fun k h => ((congrArg Role.flight (hr k) :) : (t.role k).flight = (s.role k).flight).trans h,
    fun k => congrArg Team.scratch (ht k)⟩

theorem MemStep.resting (h : MemStep s t) : Resting s t := resting_of_waits h.role h.team

theorem resting_scribble (s : State) (vf va n : Nat) : Resting s (s.scribble vf va n) :=
  resting_of_waits (scribble_waitsOnly s vf va n).role fun k => by
    rw [State.team, (scribble_waitsOnly s vf va n).teams]
    rfl

theorem resting_updTeam (s : State) (tk : Nat) {f : Team → Team} (h : (f (s.team tk)).scratch = (s.team tk).scratch) :
    Resting s (s.updTeam tk f) := by
  refine ⟨fun _ => rfl, fun _ => rfl, fun _ h => h, fun k => ?_⟩
  by_cases hk : k = tk
  · rw [hk, State.team_updTeam_self, h]
  · rw [State.team_updTeam_ne _ _ hk]

theorem resting_updRole (s : State) (rk : Nat) {f : Role → Role} (hpc : (f (s.role rk)).pc = (s.role rk).pc)
    (hsregs : (f (s.role rk)).sregs = (s.role rk).sregs) (hflight : (s.role rk).flight = [] → (f (s.role rk)).flight = []) :
    Resting s (s.updRole rk f) := by
  have hrole (k : Nat) : ((s.updRole rk f).role k).pc = (s.role k).pc ∧ ((s.updRole rk f).role k).sregs = (s.role k).sregs ∧
      ((s.role k).flight = [] → ((s.updRole rk f).role k).flight = []) := by
    by_cases hk : k = rk
    · rw [hk, State.role_updRole_self]
      exact ⟨hpc, hsregs, hflight⟩
    · rw [State.role_updRole_ne _ _ hk]
      exact ⟨rfl, rfl, id⟩
  exact ⟨fun k => (hrole k).1, fun k => (hrole k).2.1, fun k => (hrole k).2.2, fun k => rfl⟩

theorem resting_addRec (s : State) (vf : Nat) (i : RecInfo) (stops : Option Nat) : Resting s (s.addRec vf i stops) :=
  resting_of_waits (addRec_role s vf i stops) (addRec_team s vf i stops)

theorem resting_backWrite (s : State) (x : Xlat) (va : Nat) (bs : List Byte) : Resting s (s.backWrite x va bs) := by
  have hdrop : MemStep s ((s.dirtyOf (grainKey (lineKey x.part x.ia))).foldl State.dropDirty s) :=
    MemStep.foldl (fun t l => memStep_dropDirty t l) _ _
  unfold State.backWrite
  dsimp only
  generalize (x.pas.length % 512 == 0 && x.ia % 512 == 0) = whole
  cases whole with
  | true =>
    cases s.grainHolder (grainKey (lineKey x.part x.ia)) <;> exact (memStep_homeWriteX s x bs).resting
  | false =>
    have hwrite := (hdrop.trans (memStep_homeWriteX _ x bs)).resting
    cases s.grainHolder (grainKey (lineKey x.part x.ia)) with
    | none => exact hwrite
    | some h => exact hwrite.trans (resting_addRec ..)

theorem resting_writeBacking (s : State) (tk vpn : Nat) : Resting s (s.writeBacking tk vpn).2 := by
  unfold State.writeBacking
  split
  · exact (resting_backWrite ..).trans (resting_backWrite ..)
  · exact resting_backWrite ..
  · exact .refl s

theorem resting_chargeTeam (s : State) (tk n : Nat) : Resting s (s.chargeTeam tk n) := by
  unfold State.chargeTeam
  exact Resting.trans (t := s.charge (s.team tk).core (s.launch (lidOf tk)).vf n) (.of_eq rfl rfl) (resting_updTeam _ tk rfl)

theorem resting_pushOut (s : State) (tk vpn : Nat) : Resting s (s.pushOut tk vpn).2 := by
  have hw := resting_writeBacking s tk vpn
  unfold State.pushOut
  split
  · next h =>
    rw [h] at hw
    exact hw.trans ((resting_updTeam _ tk rfl).trans (resting_chargeTeam ..))
  · exact hw

theorem resting_dropPage (s : State) (tk vpn : Nat) : Resting s (s.dropPage tk vpn).2 := by
  have habsent (t : State) (p : SPage) : Resting t (t.setPage tk vpn p) := resting_updTeam t tk rfl
  have hp := resting_pushOut s tk vpn
  unfold State.dropPage
  dsimp only
  split
  · split
    · next h =>
      rw [h] at hp
      exact hp.trans (habsent _ _)
    · exact habsent _ _
  · exact habsent _ _

theorem resting_reuseSwid (s : State) (core : Nat) : Resting s (s.reuseSwid core) := by
  unfold State.reuseSwid
  split
  · split
    · exact .refl s
    · dsimp only
      split
      · exact .of_eq rfl rfl
      · refine Resting.trans (Resting.trans ?_ (Resting.foldl (fun u e => resting_dropPage u _ _) _ _))
          (resting_updTeam _ _ rfl)
        exact .of_eq rfl rfl
  · exact .refl s

theorem resting_giveSwid (s : State) (tk : Nat) : Resting s (s.giveSwid tk) := by
  unfold State.giveSwid
  refine (resting_reuseSwid s (s.team tk).core).trans (Resting.trans ?_ (resting_updTeam _ tk rfl))
  exact .of_eq rfl rfl

/-- With no words in flight there is nothing to perform. -/
theorem kick_idle {s : State} {rk : Nat} (h : (s.role rk).flight = []) : s.kick rk = s := by
  unfold State.kick
  split
  · rw [h]
    rfl
  · rfl

theorem resting_join (s : State) (rk : Nat) (on : Bool) : Resting s (s.updRole rk fun r => r.join on) := by
  have h : (Role.join (s.role rk) on).pc = (s.role rk).pc ∧ (Role.join (s.role rk) on).sregs = (s.role rk).sregs ∧
      (Role.join (s.role rk) on).flight = (s.role rk).flight := by
    unfold Role.join
    cases (s.role rk).hold <;> exact ⟨rfl, rfl, rfl⟩
  obtain ⟨hpc, hsregs, hflight⟩ := h
  exact resting_updRole s rk hpc hsregs hflight.trans

theorem resting_unhold (s : State) (rk : Nat) : Resting s (s.unhold rk) := by
  have hunjoin (w : LxWord) : Resting s (s.unjoin w) := by
    unfold State.unjoin
    split
    · exact Resting.foldl (fun t k => resting_join t k false) _ _
    · exact .refl s
  unfold State.unhold
  cases (s.role rk).hold with
  | none => exact .refl s
  | some w => exact (hunjoin w).trans ((resting_updTeam _ _ rfl).trans (resting_updRole _ rk rfl rfl id))

theorem resting_atBoundary {s : State} {rk : Nat} (h : (s.role rk).flight = []) : Resting s (s.atBoundary rk) := by
  have hkick : ({ ({ s with pace := none } : State).kick rk with pace := s.pace } : State) = s := by
    rw [kick_idle (s := { s with pace := none }) h]
  unfold State.atBoundary
  simp only [hkick]
  exact (resting_unhold s rk).trans (resting_updRole _ rk rfl rfl fun hf => by rw [hf]; rfl)

theorem resting_atBoundaries {ks : List Nat} {s : State} (h : ∀ k ∈ ks, (s.role k).flight = []) :
    Resting s (ks.foldl State.atBoundary s) := by
  induction ks generalizing s with
  | nil => exact .refl s
  | cons k ks ih =>
    have hk := resting_atBoundary (h k (List.mem_cons_self ..))
    exact hk.trans (ih fun j hj => hk.flight j (h j (List.mem_cons_of_mem _ hj)))

theorem resting_postMeter (s : State) (core vf : Nat) : Resting s (s.postMeter core vf) := by
  have hroles := (unposted_inj.1 (postMeter_unposted s core vf)).1
  have hrole (k : Nat) : (s.postMeter core vf).role k = s.role k := by rw [State.role, hroles]; rfl
  refine ⟨fun k => by rw [hrole], fun k => by rw [hrole], fun k h => by rwa [hrole], fun k => ?_⟩
  have hteam := postMeter_fixed s core vf k
  simp only [Prod.mk.injEq] at hteam
  exact hteam.2.2

theorem resting_adopt (s : State) (c : Nat) : Resting s (s.adopt c) := by
  obtain ⟨hr, ht, -⟩ := adopt_kept s c
  exact .of_eq hr ht

section
variable (s : State) (tk : Nat) (ph : TeamPhase)

/-- The team has left its core, and its save area is written. -/
def State.leftCore : State :=
  ((((((s.rolesOf tk).foldl State.atBoundary s).giveSwid tk).updTeam tk fun t =>
    { t with phase := ph, suspend := none, grace := none, entered := none }).saveTeam tk).updCore (s.team tk).core fun c =>
      { c with slots := c.slots.keep fun _ k => k != tk })

theorem leftCore_phase : ((s.leftCore tk ph).team tk).phase = ph := by
  rw [State.leftCore, State.team_updCore, State.saveTeam, State.team, (scribble_waitsOnly ..).teams, ← State.team,
    State.team_updTeam_self]

theorem resting_leftCore (h : ∀ rk ∈ s.rolesOf tk, (s.role rk).flight = []) : Resting s (s.leftCore tk ph) :=
  (resting_atBoundaries h).trans ((resting_giveSwid ..).trans ((resting_updTeam _ tk rfl).trans ((resting_scribble ..).trans
    (.of_eq rfl rfl))))

theorem suspendTeam_eq : s.suspendTeam tk ph =
    (({ s.leftCore tk ph with free := (s.leftCore tk ph).free + 1 }.postMeter (s.team tk).core
      (s.launch (lidOf tk)).vf).adopt (clusterOf (s.team tk).core)).reenter tk := rfl

end

/-- A team that is pre-empted does not re-enter the distributor. -/
theorem reenter_of_phase {s : State} {tk : Nat} (h : (s.team tk).phase ≠ .swappedOut) : s.reenter tk = s := by
  unfold State.reenter
  dsimp only
  rw [decide_eq_false h, Bool.false_and, Bool.false_and, if_neg Bool.false_ne_true]

theorem suspendTeam_preempted {s : State} {tk : Nat} (h : ∀ rk ∈ s.rolesOf tk, (s.role rk).flight = []) :
    ((s.suspendTeam tk .preempted).team tk).phase = .preempted ∧ Resting s (s.suspendTeam tk .preempted) := by
  have hleft := leftCore_phase s tk .preempted
  rw [suspendTeam_eq]
  generalize hv : s.leftCore tk .preempted = v at hleft
  have hpost := postMeter_fixed { v with free := v.free + 1 } (s.team tk).core (s.launch (lidOf tk)).vf tk
  simp only [Prod.mk.injEq] at hpost
  have hphase : ((({ v with free := v.free + 1 }.postMeter (s.team tk).core (s.launch (lidOf tk)).vf).adopt
      (clusterOf (s.team tk).core)).team tk).phase = .preempted := by
    rw [(adopt_eq _ _).2, hpost.1]
    exact hleft
  rw [reenter_of_phase (by rw [hphase]; decide)]
  refine ⟨hphase, (resting_leftCore s tk .preempted h).trans ?_⟩
  rw [hv]
  refine Resting.trans (Resting.trans ?_ (resting_postMeter { v with free := v.free + 1 } _ _)) (resting_adopt _ _)
  exact .of_eq rfl rfl

end

/-! ## The requests -/

/-- A team with an open transaction, or behind its commit point, gets a window. -/
theorem request_window {t : Team} (cause n : Nat) (ph : TeamPhase) (sw : Bool) (hr : t.resident = true)
    (ho : t.txOpen = true ∨ t.phase = .pinned) (hg : t.grace = none) :
    t.request cause n ph sw = { t with grace := some ⟨n, cause, sw⟩ } := by
  unfold Team.request
  rw [hr, if_neg (by decide), if_pos (by simpa using ho), hg]

theorem request_suspend {t : Team} (cause n : Nat) (ph : TeamPhase) (sw : Bool) (hr : t.resident = true)
    (ho : t.txOpen = false) (hp : t.phase ≠ .pinned) (hs : t.suspend = none) :
    t.request cause n ph sw = { t with suspend := some ph } := by
  unfold Team.request
  rw [hr, if_neg (by decide), if_neg (by simp [ho, hp]), hs]
  rfl

/-- Settles O47: a request waits for `lxQuiet`, and then the team leaves with its scratch, its PCs and its registers; KILL
goes over the VF's live teams one by one. -/
theorem preemptionRequests : Obligations.PreemptionRequests := by
  unfold Obligations.PreemptionRequests
  refine fun s vf tk => ⟨rfl, rfl, ⟨_, rfl, fun hh hl hvf => ⟨fun hp => ?_, fun hp => ?_⟩⟩, rfl, fun t cause n ph sw =>
    ⟨fun hr => ?_, request_suspend cause n ph sw, request_window cause n ph sw⟩, fun hs hr => ⟨?_, fun hq => ?_, fun hq hf => ?_⟩⟩
  · exact killTeams_isKilled (mem_vfTeams hh hl hvf) hp
  · exact killTeams_isDoomed (mem_vfTeams hh hl hvf) hp
  · rw [Team.request, hr]
    rfl
  · simp [State.lxQuiet, State.roleQuiet, and_assoc]
  · simp [State.settleTeam, hs, hr, hq]
  · have hsettle : s.settleTeam tk = s.suspendTeam tk .preempted := by simp [State.settleTeam, hs, hr, hq]
    obtain ⟨hphase, hrest⟩ := suspendTeam_preempted hf
    rw [hsettle]
    exact ⟨hphase, hrest.scratch tk, fun rk _ => ⟨hrest.pc rk, hrest.sregs rk⟩⟩

end Sys2Proof.Machine
end

section
/-! PROOFS. Launch messages (R373 to R377), leases, transitions, the power allowance and LEVEL (R294 to R303, R362). -/

namespace Sys2Proof.Machine
open Sys2Proof

/-! ## Admission (R373 to R377) -/

theorem enqueue_unaligned {s : State} {vf va : Nat} (h : va % 256 ≠ 0) : s.enqueue vf va none = (handle 0 1, s) := by
  have hno : (if va % 256 = 0 then s.distRead vf va 256 else none) = none := if_neg h
  simp only [State.enqueue, hno]

/-- With no team of a lower level there is no victim. -/
theorem makeRoom_none {s : State} {lid : Nat} (h : s.lowerTeams lid = []) : s.makeRoom lid = s := by
  have hfirst : s.firstVictim [] = none := rfl
  simp only [State.makeRoom, h, hfirst]
  exact ite_self _

theorem tryReady_eq (s : State) (lid : Nat) : s.tryReady lid =
    if (s.launch lid).phase = .waiting ∧ s.depsHold (s.launch lid) = true
      then s.updLaunch lid fun l => { l with phase := .ready } else s := by
  rw [State.tryReady]
  simp only [Bool.and_eq_true, decide_eq_true_eq]

/-- Settles O43: the message's answer is `State.enqueue`'s, and the two events of the dependences are `State.tryReady`. -/
theorem launchAdmission : Obligations.LaunchAdmission := by
  unfold Obligations.LaunchAdmission
  refine fun s vf lid a => ⟨rfl, fun h => ?_, fun bs hal hbs => ⟨fun hc => ?_, fun hc => ?_⟩, ⟨?_, ?_⟩, makeRoom_none⟩
  · by_cases hal : a.toNat % 256 = 0
    · exact enqueue_unread (h.resolve_left (not_not.2 hal))
    · exact enqueue_unaligned hal
  · rw [enqueue_read hal hbs]
    exact if_neg (not_not.2 hc)
  · rw [enqueue_read hal hbs]
    exact if_pos hc
  · rw [← tryReady_eq]
    rfl
  · rw [← tryReady_eq]
    rfl

/-! ## LEVEL (R303, R362) -/

theorem adopt_level (s : State) (c k : Nat) : ((s.adopt c).cluster k).level = (s.cluster k).level ∧
    ((s.adopt c).cluster k).sensor = (s.cluster k).sensor ∧ (s.adopt c).stk = s.stk := by
  unfold State.adopt
  dsimp only
  split
  · exact ⟨rfl, rfl, rfl⟩
  · by_cases hk : k = c
    · rw [hk, State.cluster_updCluster_self]
      exact ⟨rfl, rfl, rfl⟩
    · rw [State.cluster_updCluster_ne _ _ hk]
      exact ⟨rfl, rfl, rfl⟩

/-- The steward gives one cluster its LEVEL. -/
def State.giveLevel (s : State) (c : Nat) : State := (s.updCluster c fun k => { k with level := s.levelOf c }).adopt c

/-- The sensors and the stacks stay, so does what LEVEL is computed from. -/
theorem giveLevel_levelOf (s : State) (c k : Nat) : (s.giveLevel c).levelOf k = s.levelOf k := by
  obtain ⟨-, hsensor, hstk⟩ := adopt_level (s.updCluster c fun k => { k with level := s.levelOf c }) c k
  have hupd : ((s.updCluster c fun k => { k with level := s.levelOf c }).cluster k).sensor = (s.cluster k).sensor := by
    by_cases hk : k = c
    · rw [hk, State.cluster_updCluster_self]
    · rw [State.cluster_updCluster_ne _ _ hk]
  rw [State.levelOf, State.levelOf, State.giveLevel, hsensor, hupd, hstk]
  rfl

theorem giveLevel_level (s : State) (c k : Nat) : ((s.giveLevel c).cluster k).level =
    if k = c then s.levelOf c else (s.cluster k).level := by
  rw [State.giveLevel, (adopt_level _ c k).1]
  by_cases hk : k = c
  · rw [hk, State.cluster_updCluster_self, if_pos rfl]
  · rw [State.cluster_updCluster_ne _ _ hk, if_neg hk]

theorem giveLevels_level (cs : List Nat) (s : State) {k : Nat} (h : k ∈ cs ∨ (s.cluster k).level = s.levelOf k) :
    ((cs.foldl State.giveLevel s).cluster k).level = s.levelOf k := by
  induction cs generalizing s with
  | nil => exact h.resolve_left List.not_mem_nil
  | cons c cs ih =>
    rw [List.foldl_cons, ih (s.giveLevel c) ?_, giveLevel_levelOf]
    rw [giveLevel_levelOf, giveLevel_level]
    by_cases hk : k = c
    · exact .inr (by rw [if_pos hk, hk])
    · rw [if_neg hk]
      exact h.imp_left fun hm => (List.mem_cons.1 hm).resolve_left hk

theorem giveLevel_kept (s : State) (c : Nat) :
    ((s.giveLevel c).roles, (s.giveLevel c).teams, (s.giveLevel c).hbm) = (s.roles, s.teams, s.hbm) := by
  obtain ⟨hroles, hteams, -, hhbm, -⟩ := adopt_kept (s.updCluster c fun k => { k with level := s.levelOf c }) c
  rw [State.giveLevel, hroles, hteams, hhbm]
  rfl

/-- LEVEL is the least of the sensor's and of the caps of the die's stacks. -/
theorem levelOf_eq (s : State) (c : Nat) : s.levelOf c = Nat.min (Nat.min (Nat.min (s.cluster c).sensor
    (stackCap (s.stk (3 * dieOfCluster c + 0)))) (stackCap (s.stk (3 * dieOfCluster c + 1))))
      (stackCap (s.stk (3 * dieOfCluster c + 2))) := rfl

theorem levelOf_le_sensor (s : State) (c : Nat) : s.levelOf c ≤ (s.cluster c).sensor := by
  rw [levelOf_eq]
  exact (Nat.min_le_left ..).trans ((Nat.min_le_left ..).trans (Nat.min_le_left ..))

theorem levelOf_le_cap (s : State) (c : Nat) {j : Nat} (hj : j < 3) :
    s.levelOf c ≤ stackCap (s.stk (3 * dieOfCluster c + j)) := by
  rw [levelOf_eq]
  obtain rfl | rfl | rfl : j = 0 ∨ j = 1 ∨ j = 2 := by omega
  · exact (Nat.min_le_left ..).trans ((Nat.min_le_left ..).trans (Nat.min_le_right ..))
  · exact (Nat.min_le_left ..).trans (Nat.min_le_right ..)
  · exact Nat.min_le_right ..

theorem le_levelOf {s : State} {c n : Nat} (hs : n ≤ (s.cluster c).sensor)
    (hk : ∀ j, j < 3 → n ≤ stackCap (s.stk (3 * dieOfCluster c + j))) : n ≤ s.levelOf c := by
  rw [levelOf_eq]
  exact Nat.le_min.2 ⟨Nat.le_min.2 ⟨Nat.le_min.2 ⟨hs, hk 0 (by decide)⟩, hk 1 (by decide)⟩, hk 2 (by decide)⟩

section
variable (k : Stack)

theorem stackCap_hottest (h : 95 ≤ k.temp) : stackCap k = 1 := if_pos h

theorem stackCap_hot (h : k.hot = true) : stackCap k ≤ 3 := by
  rw [stackCap, if_pos h]
  split <;> decide

theorem stackCap_warm (h : 76 ≤ k.temp) : stackCap k ≤ 4 := by
  unfold stackCap
  split
  · decide
  · split
    · decide
    · exact (if_pos h).le

theorem stackCap_cool (h : k.temp ≤ 75 ∧ k.hot = false) : stackCap k = 7 := by
  obtain ⟨htemp, hhot⟩ := h
  rw [stackCap, if_neg (by omega), hhot, if_neg Bool.false_ne_true, if_neg (by omega)]

theorem one_le_stackCap : 1 ≤ stackCap k := by
  unfold stackCap
  split
  · decide
  · split
    · decide
    · split <;> decide

theorem three_le_stackCap (h : k.temp < 95) : 3 ≤ stackCap k := by
  rw [stackCap, if_neg (by omega)]
  split
  · decide
  · split <;> decide

theorem four_le_stackCap (h : k.temp < 95 ∧ k.hot = false) : 4 ≤ stackCap k := by
  obtain ⟨htemp, hhot⟩ := h
  rw [stackCap, if_neg (by omega), hhot, if_neg Bool.false_ne_true]
  split <;> decide

end

/-! ## The events -/

section
variable {s : State}

theorem exec_leaseExpire_over {tk k : Nat} (h : (s.team tk).lease = some (k, 0)) : exec (.leaseExpire tk) s =
    .next ((s.updTeam tk fun t => { t with lease := none }).adopt (clusterOf (s.team tk).core)) := by
  have harm : exec (.leaseExpire tk) s = execLeaseExpire tk s := rfl
  simp only [harm, execLeaseExpire, h]

theorem exec_leaseExpire_none {tk : Nat} (h : (s.team tk).lease = none) : exec (.leaseExpire tk) s = .next s := by
  have harm : exec (.leaseExpire tk) s = execLeaseExpire tk s := rfl
  simp only [harm, execLeaseExpire, h]

theorem exec_transitionDone_some {c k : Nat} (h : (s.cluster c).target = some k) : exec (.transitionDone c) s =
    .next ((s.updCluster c fun q => { q with cls := k, target := none, replc := replcOf q.pwrCfg k }).adopt c) := by
  have harm : exec (.transitionDone c) s = execTransitionDone c s := rfl
  simp only [harm, execTransitionDone, h]

theorem exec_transitionDone_none {c : Nat} (h : (s.cluster c).target = none) : exec (.transitionDone c) s = .next s := by
  have harm : exec (.transitionDone c) s = execTransitionDone c s := rfl
  simp only [harm, execTransitionDone, h]

theorem exec_thermUpdate : exec .thermUpdate s =
    .next (if s.thermDue then { s.newLevels with thermAt := s.refTick.toNat } else s) := rfl

theorem newLevels_kept : (∀ j, j < 32 → (s.newLevels.cluster j).level = s.levelOf j) ∧ s.newLevels.roles = s.roles ∧
    s.newLevels.teams = s.teams ∧ s.newLevels.hbm = s.hbm := by
  have hfold : s.newLevels = (List.range 32).foldl State.giveLevel s := rfl
  have hkept := foldl_proj_eq (fun u : State => (u.roles, u.teams, u.hbm)) giveLevel_kept (List.range 32) s
  rw [hfold]
  simp only [Prod.mk.injEq] at hkept
  exact ⟨fun j hj => giveLevels_level _ s (.inl (List.mem_range.2 hj)), hkept⟩

/-- Noting the time of the update changes nothing else. -/
theorem thermUpdate_due {u : State} {n : Nat} : ({ u with thermAt := n } : State).cluster = u.cluster ∧
    ({ u with thermAt := n } : State).roles = u.roles ∧ ({ u with thermAt := n } : State).teams = u.teams ∧
    ({ u with thermAt := n } : State).hbm = u.hbm := ⟨rfl, rfl, rfl, rfl⟩

theorem thermDue_iff : s.thermDue = true ↔ s.thermAt < s.refTick.toNat ∧ (s.refTick.toNat - s.thermAt) % 10000 = 0 := by
  simp [State.thermDue]

end

/-- Settles O37: each event is its one update, and LEVEL is the least of the sensor's and the three caps. -/
theorem powerEvents : Obligations.PowerEvents := by
  unfold Obligations.PowerEvents
  refine fun s tk c core v upper => ⟨fun k => exec_leaseExpire_over, exec_leaseExpire_none, fun k => exec_transitionDone_some,
    exec_transitionDone_none, rfl, rfl, fun h => ?_, fun h => ?_, thermDue_iff, ⟨levelOf_le_sensor s c,
    fun j hj => ⟨fun ht => ?_, fun hh => ?_, fun ht => ?_⟩, fun hs hk => ?_, fun hs => ?_, fun hs hk => ?_, fun hs hk => ?_⟩,
    fun j js hj => ?_, ⟨fun hr => ?_, ?_⟩⟩
  · obtain ⟨hlevel, hroles, hteams, hhbm⟩ := newLevels_kept (s := s)
    obtain ⟨hc, hr, ht, hb⟩ := thermUpdate_due (u := s.newLevels) (n := s.refTick.toNat)
    refine ⟨_, exec_thermUpdate.trans (congrArg _ (if_pos h)), ?_, hr.trans hroles, ht.trans hteams, hb.trans hhbm, rfl⟩
    rw [hc]
    exact hlevel
  · rw [exec_thermUpdate, h]
    rfl
  · exact (levelOf_le_cap s c hj).trans (stackCap_hottest _ ht).le
  · exact (levelOf_le_cap s c hj).trans (stackCap_hot _ hh)
  · exact (levelOf_le_cap s c hj).trans (stackCap_warm _ ht)
  · exact le_antisymm (levelOf_le_sensor s c) (le_levelOf le_rfl fun j hj => by rw [stackCap_cool _ (hk j hj)]; exact hs)
  · exact le_levelOf hs fun j _ => one_le_stackCap _
  · exact le_levelOf hs fun j hj => three_le_stackCap _ (hk j hj)
  · exact le_levelOf hs fun j hj => four_le_stackCap _ (hk j hj)
  · simp only [State.lxStep, State.lxTake, hj]
  · simp [State.islandNear, hr]
  · have harm : exec (.nearThresholdEnter core upper) s = execNearThresholdEnter core upper s := rfl
    rw [harm, execNearThresholdEnter]
    simp only [State.nearDue, decide_eq_true_eq]
    split <;> rfl

end Sys2Proof.Machine
end

section
/-! PROOFS. What stands at a stream's PC, and what a step runs (R60, R61, R160, R180, R352, R382). -/

namespace Sys2Proof.Machine
open Sys2Proof

/-! ## What stands at a PC -/

section
variable {s : State} {rk w n : Nat} {i : Instr}

theorem legalOr_some (h : s.featureOk i = true) : s.legalOr (some i) = i := if_pos h

theorem legalOr_refused (h : s.featureOk i = false) : s.legalOr (some i) = .illegal := if_neg (Bool.eq_false_iff.1 h)

theorem peek_plain (hw : s.fetchScalar rk (s.role rk).pc.toNat = .word w)
    (hp : ¬(w / 2 ^ 25 % 2 ^ 7 = 0x7F ∧ decodeScalar w 0 ≠ none)) :
    s.peek rk false = .instr (s.legalOr (decodeScalar w 0)) := by
  have hno : (decide (w / 2 ^ 25 % 2 ^ 7 = 0x7F) && (decodeScalar w 0).isSome) = false := by
    rw [Bool.eq_false_iff]
    simpa [Option.isSome_iff_ne_none] using hp
  have harm : s.peek rk false = s.peekScalar rk := rfl
  simp only [harm, State.peekScalar, hw, hno, Bool.false_eq_true, if_false]

theorem peek_prefix (hw : s.fetchScalar rk (s.role rk).pc.toNat = .word w)
    (hp : w / 2 ^ 25 % 2 ^ 7 = 0x7F ∧ decodeScalar w 0 ≠ none)
    (hn : s.fetchScalar rk ((s.role rk).pc.toNat + 4) = .word n) :
    s.peek rk false = .instr (s.legalOr (decodeScalar w n)) := by
  have hyes : (decide (w / 2 ^ 25 % 2 ^ 7 = 0x7F) && (decodeScalar w 0).isSome) = true := by
    simpa [Option.isSome_iff_ne_none] using hp
  have harm : s.peek rk false = s.peekScalar rk := rfl
  simp only [harm, State.peekScalar, hw, hyes, if_true, hn]

theorem peek_lane (hw : s.fetchLane rk (s.role rk).laneIndex = .word w) :
    s.peek rk true = .instr (s.legalOr (decodeLane w)) := by
  have harm : s.peek rk true = s.peekLane rk := rfl
  simp only [harm, State.peekLane, hw]

theorem fetchScalar_word {a : Nat} {x : Xlat} (hc : (s.launchOf rk).inCode a = true)
    (hx : s.xlat (s.vfOf rk) a 4 false = .ok x) : s.fetchScalar rk a = .word (leNat (s.loadX x)) := by
  rw [State.fetchScalar, if_pos hc]
  simp only [State.fetchAt, hx]

theorem fetchLane_word {a : Nat} {x : Xlat} (hc : a < (s.launchOf rk).lcode)
    (hx : s.xlat (s.vfOf rk) ((s.launchOf rk).laneAt a) 12 false = .ok x) : s.fetchLane rk a = .word (leNat (s.loadX x)) := by
  rw [State.fetchLane]
  simp only [if_pos hc, State.fetchAt, hx]

end

/-! ## Steps -/

theorem step_cons (s : State) (m : Move) (rest : List Move) :
    step { s with agenda := m :: rest } = (State.pick { s with agenda := rest } m).exec := rfl

theorem step_tick (s : State) (rest : List Move) : step { s with agenda := .tick :: rest } =
    .next (State.tick { s with agenda := rest }).endStep := by
  rw [step_cons, State.pick, Pick.exec, endRes]

theorem chargeRes_free {before : State} {a : Agent} {i : Instr} (h : ∀ t : State, t.charged before a i = t) (r : Res) :
    chargeRes before a i r = r := by
  cases r with
  | next t => exact congrArg _ (h t)
  | _ => rfl

/-- A role's state that issuing does not count: its PC, its registers, its lanes and its blocks. -/
structure SameStand (s t : State) : Prop where
  pc : ∀ k, (t.role k).pc = (s.role k).pc
  sregs : ∀ k, (t.role k).sregs = (s.role k).sregs
  lanes : ∀ k, (t.role k).lanes = (s.role k).lanes
  blocks : ∀ k, (t.role k).blocks = (s.role k).blocks
  lanePc : ∀ k, (t.role k).lanePc = (s.role k).lanePc

theorem SameStand.refl (s : State) : SameStand s s := ⟨fun _ => rfl, fun _ => rfl, fun _ => rfl, fun _ => rfl, fun _ => rfl⟩

theorem SameStand.of_roles {s t : State} (h : t.roles = s.roles) : SameStand s t := by
  have hrole (k : Nat) : t.role k = s.role k := by rw [State.role, h]; rfl
  exact ⟨fun k => by rw [hrole], fun k => by rw [hrole], fun k => by rw [hrole], fun k => by rw [hrole], fun k => by rw [hrole]⟩

theorem SameStand.trans {s t u : State} (h : SameStand s t) (g : SameStand t u) : SameStand s u :=
  ⟨fun k => (g.pc k).trans (h.pc k), fun k => (g.sregs k).trans (h.sregs k), fun k => (g.lanes k).trans (h.lanes k),
    fun k => (g.blocks k).trans (h.blocks k), fun k => (g.lanePc k).trans (h.lanePc k)⟩

/-- What a boundary counts stands in the roles, the cores and the clusters. -/
structure CountsOnly (s t : State) : Prop where
  rest : { t with roles := s.roles, cores := s.cores, clusters := s.clusters } = s
  stand : SameStand s t

theorem CountsOnly.refl (s : State) : CountsOnly s s := ⟨rfl, .refl s⟩

theorem CountsOnly.trans {s t u : State} (h : CountsOnly s t) (g : CountsOnly t u) : CountsOnly s u := by
  refine ⟨?_, h.stand.trans g.stand⟩
  have hg := congrArg (fun v : State => { v with roles := s.roles, cores := s.cores, clusters := s.clusters }) g.rest
  exact (show _ = ({ t with roles := s.roles, cores := s.cores, clusters := s.clusters } : State) from hg).trans h.rest

theorem CountsOnly.foldl {β : Type} {f : State → β → State} (hf : ∀ t x, CountsOnly t (f t x)) (l : List β) (s : State) :
    CountsOnly s (l.foldl f s) := by
  induction l generalizing s with
  | nil => exact CountsOnly.refl s
  | cons x xs ih => exact (hf s x).trans (ih _)

theorem sameStand_updRole (s : State) (rk : Nat) {f : Role → Role} (hpc : ∀ r, (f r).pc = r.pc)
    (hsregs : ∀ r, (f r).sregs = r.sregs) (hlanes : ∀ r, (f r).lanes = r.lanes) (hblocks : ∀ r, (f r).blocks = r.blocks)
    (hlanePc : ∀ r, (f r).lanePc = r.lanePc) : SameStand s (s.updRole rk f) := by
  have hrole (k : Nat) : (s.updRole rk f).role k = f (s.role k) ∨ (s.updRole rk f).role k = s.role k := by
    by_cases hk : k = rk
    · rw [hk]
      exact .inl (State.role_updRole_self ..)
    · exact .inr (State.role_updRole_ne _ _ hk)
  refine ⟨fun k => ?_, fun k => ?_, fun k => ?_, fun k => ?_, fun k => ?_⟩
  · rcases hrole k with h | h <;> simp only [h, hpc]
  · rcases hrole k with h | h <;> simp only [h, hsregs]
  · rcases hrole k with h | h <;> simp only [h, hlanes]
  · rcases hrole k with h | h <;> simp only [h, hblocks]
  · rcases hrole k with h | h <;> simp only [h, hlanePc]

theorem countsOnly_passBoundary (s : State) (rk : Nat) (lane chosen ready held : Bool) :
    CountsOnly s (s.updRole rk fun r => r.passBoundary lane chosen ready held) := by
  refine ⟨rfl, sameStand_updRole s rk ?_ ?_ ?_ ?_ ?_⟩
  all_goals
    intro r
    unfold Role.passBoundary
    cases lane <;> rfl

theorem countsOnly_counted (s : State) (core dp : Nat) (lane : Bool) (rk : Nat) :
    CountsOnly s (s.counted core dp lane (some rk)) := by
  have hheld (t : State) (b : Bool) (f : Cluster → Cluster) :
      CountsOnly t (if b = true then t else t.updCluster (clusterOf core) f) := by
    split
    · exact .refl t
    · exact ⟨rfl, .of_roles rfl⟩
  have hgrant (t : State) (f : Core → Core) : CountsOnly t (t.updCore core f) := ⟨rfl, .of_roles rfl⟩
  have hcount (t : State) (held os : List Nat) : CountsOnly t (t.countBoundary core dp lane held os (some rk)) :=
    CountsOnly.foldl (fun u k => countsOnly_passBoundary u k ..) _ _
  unfold State.counted
  dsimp only
  split
  · exact (hheld s _ _).trans (hgrant _ _)
  · exact (hheld s _ _).trans ((hgrant _ _).trans (hcount _ _ _))

section
variable {s t : State}

/-- The word at a PC depends on what a boundary counts in none of its parts. -/
theorem CountsOnly.peek (h : CountsOnly s t) (rk : Nat) (lane : Bool) : t.peek rk lane = s.peek rk lane := by
  have hscalar (a : Nat) : t.fetchScalar rk a = s.fetchScalar rk a := (congrArg (State.fetchScalar · rk a) h.rest :)
  have hlane (a : Nat) : t.fetchLane rk a = s.fetchLane rk a := (congrArg (State.fetchLane · rk a) h.rest :)
  have hlegal (i : Option Instr) : t.legalOr i = s.legalOr i := (congrArg (State.legalOr · i) h.rest :)
  have hlaunch : t.launchOf rk = s.launchOf rk := (congrArg (State.launchOf · rk) h.rest :)
  have hidx : (t.role rk).laneIndex = (s.role rk).laneIndex := by
    rw [Role.laneIndex, Role.laneIndex, h.stand.blocks, h.stand.lanePc]
  cases lane with
  | true =>
    show t.peekLane rk = s.peekLane rk
    simp only [State.peekLane, hlane, hlegal, hlaunch, hidx]
  | false =>
    show t.peekScalar rk = s.peekScalar rk
    simp only [State.peekScalar, hscalar, hlegal, h.stand.pc]

theorem CountsOnly.kept (h : CountsOnly s t) : t.agenda = s.agenda ∧ t.hbm = s.hbm ∧ t.dirty = s.dirty ∧ t.vfs = s.vfs ∧
    t.launches = s.launches :=
  ⟨(congrArg State.agenda h.rest :), (congrArg State.hbm h.rest :), (congrArg State.dirty h.rest :),
    (congrArg State.vfs h.rest :), (congrArg State.launches h.rest :)⟩

theorem boundary_issue {core dp rk : Nat} {lane : Bool} {ks : List Nat} (ht : (s.cluster (clusterOf core)).target = none)
    (hn : s.islandNear core (decide (2 ≤ dp)) = false) (ho : s.offered core dp lane = rk :: ks)
    (hp : s.powerOk rk lane = true) : s.boundary core dp lane = (s.counted core dp lane (some rk)).issueRole rk lane := by
  have hfind : (s.offered core dp lane).find? (fun rk => s.powerOk rk lane) = some rk := by rw [ho, List.find?_cons, hp]
  simp only [State.boundary, ht, hn, Option.isSome_none, Bool.or_self, Bool.false_eq_true, if_false, hfind]

theorem issueRole_instr {rk : Nat} {lane : Bool} {i : Instr} (h : s.peek rk lane = .instr i) : s.issueRole rk lane =
    if s.linesWait (s.issueLines rk lane i) then
      ⟨s.stallAll (if lane then .lane rk else .scalar rk) (s.issueLines rk lane i), none⟩
    else ⟨s, some (if lane then .lane rk else .scalar rk, i)⟩ := by
  simp only [State.issueRole, h]

theorem engineTurn_run {rk q : Nat} {c : Cmd} {i : Instr} (hf : firstRole ≤ rk) (hr : s.hasRole rk = true)
    (hrun : (s.engQ rk q).run = some c) (hres : c.result = none) (hi : c.instr = some i)
    (hq : q < 4 → s.relocking (s.coreOf rk) = false) (hd : s.delays (.queue rk q) = false) :
    s.engineTurn rk q = ⟨s, some (.engine rk q, i)⟩ := by
  have hstart : s.startCmd rk q = s := by simp only [State.startCmd, hrun]
  have hcmd : s.engineCmd rk q = some i := by simp [State.engineCmd, hrun, hres, hi]
  have hre : (decide (q < 4) && s.relocking (s.coreOf rk)) = false := by
    by_cases h4 : q < 4
    · rw [hq h4, Bool.and_false]
    · rw [decide_eq_false h4, Bool.false_and]
  rw [State.engineTurn, if_neg (Nat.not_lt.2 hf)]
  simp [hr, hre, hd, hrun, hstart, hcmd]

theorem rowTurn_run {key : Nat} {x : Xlat} {i : Instr} (hr : s.rows.has key = true) (hs : (s.row key).stall = none)
    (hdep : (s.row key).depot ≠ none) (hd : s.delays (.row key) = false)
    (hpc : (s.row key).pc < (s.task (s.row key).task).cmd.ilen)
    (hx : s.depotAcc (s.task (s.row key).task) (codeAt (s.task (s.row key).task).cmd (s.row key).pc) 12 false = .ok x)
    (hi : decodeLane (leNat (s.homeX x)) = some i) (hl : depotLegal i = true) (hf : s.featureOk i = true)
    (hw : s.linesWait ((x.pas.map fun p => p / 64).dedup ++ s.rowTransfers key i) = false) :
    s.rowTurn key = ⟨s.notePages (s.row key).task x, some (.row key, i)⟩ := by
  have hrun : (!s.rows.has key || (s.row key).stall.isSome || (s.row key).depot.isNone || s.delays (.row key)) = false := by
    rw [hr, hs, hd, Option.isNone_eq_false_iff.2 (Option.isSome_iff_ne_none.2 hdep)]
    rfl
  rw [State.rowTurn]
  simp only [hrun, Bool.false_eq_true, if_false, if_neg (Nat.not_le.2 hpc), hx, hi, hl, hf, Bool.and_self, if_true, hw]

end

/-! ## What a word costs -/

/-- A charge leaves memory, the contexts, the launches, the agenda and the roles. -/
structure ChargeOnly (s t : State) : Prop where
  kept : t.hbm = s.hbm ∧ t.dirty = s.dirty ∧ t.vfs = s.vfs ∧ t.launches = s.launches ∧ t.agenda = s.agenda
  stand : SameStand s t

theorem ChargeOnly.refl (s : State) : ChargeOnly s s := ⟨⟨rfl, rfl, rfl, rfl, rfl⟩, .refl s⟩

theorem chargeOnly_chargeTeam (s : State) (tk n : Nat) : ChargeOnly s (s.chargeTeam tk n) :=
  ⟨⟨rfl, rfl, rfl, rfl, rfl⟩, .of_roles rfl⟩

theorem chargeOnly_charge (s : State) (core vf n : Nat) : ChargeOnly s (s.charge core vf n) :=
  ⟨⟨rfl, rfl, rfl, rfl, rfl⟩, .of_roles rfl⟩

theorem ChargeOnly.updCluster {s t : State} (h : ChargeOnly s t) (c : Nat) (f : Cluster → Cluster) :
    ChargeOnly s (t.updCluster c f) := ⟨h.kept, h.stand.trans (.of_roles rfl)⟩

theorem ChargeOnly.issued {s t : State} (h : ChargeOnly s t) (rk n : Nat) :
    ChargeOnly s (t.updRole rk fun r => { r with issuedNo := n }) :=
  ⟨h.kept, h.stand.trans (sameStand_updRole t rk (fun _ => rfl) (fun _ => rfl) (fun _ => rfl) (fun _ => rfl) fun _ => rfl)⟩

theorem chargeOnly_chargeWord (s before : State) (rk n b : Nat) : ChargeOnly s (s.chargeWord before rk n b) := by
  unfold State.chargeWord
  dsimp only
  split
  · exact .refl s
  · split
    · exact (chargeOnly_chargeTeam ..).updCluster ..
    · exact (chargeOnly_charge ..).updCluster ..

theorem chargeOnly_charged (s before : State) (a : Agent) (i : Instr) : ChargeOnly s (s.charged before a i) := by
  unfold State.charged
  cases a with
  | scalar rk =>
    dsimp only
    split
    · exact chargeOnly_chargeWord ..
    · exact .refl s
  | lane rk =>
    dsimp only
    split
    · split
      · exact (chargeOnly_chargeWord ..).issued ..
      · exact chargeOnly_chargeWord ..
    · exact .refl s
  | row key =>
    dsimp only
    split
    · exact .refl s
    · split
      · exact chargeOnly_chargeTeam ..
      · exact chargeOnly_charge ..
  | _ => exact .refl s

theorem notePages_kept (s : State) (n : Nat) (x : Xlat) : (s.notePages n x).agenda = s.agenda ∧
    (s.notePages n x).hbm = s.hbm ∧ (s.notePages n x).dirty = s.dirty ∧ (s.notePages n x).vfs = s.vfs ∧
    (s.notePages n x).launches = s.launches ∧ SameStand s (s.notePages n x) :=
  ⟨rfl, rfl, rfl, rfl, rfl, .of_roles rfl⟩

/-- Settles O54: a boundary counts in the roles' counters, the cores and the clusters alone, and each move runs what stands
there. -/
theorem stepRunsWord : Obligations.StepRunsWord := by
  unfold Obligations.StepRunsWord
  refine ⟨fun s rk w n i => ⟨fun hw hp => ⟨fun hd hf => ?_, fun hd hf => ?_, fun hd => ?_⟩, fun hw hp hn hd hf => ?_,
    fun hw => ⟨fun hd hf => ?_, fun hd => ?_⟩, fun x => fetchScalar_word, fun x => fetchLane_word⟩,
    fun s rest core dp rk q key lane ks i => ⟨fun he => ?_, fun he => ?_, fun ht hn ho hp hi => ?_,
      fun c hf hr hrun hres hi hq hd => ?_, fun x hr hs hdep hd hpc hx hi hl hf hw => ?_,
      fun v w a => ?_, step_tick s rest, fun v => rfl⟩⟩
  · rw [peek_plain hw hp, hd, legalOr_some hf]
  · rw [peek_plain hw hp, hd, legalOr_refused hf]
  · rw [peek_plain hw hp, hd]
    rfl
  · rw [peek_prefix hw hp hn, hd, legalOr_some hf]
  · rw [peek_lane hw, hd, legalOr_some hf]
  · rw [peek_lane hw, hd]
    rfl
  · rw [step_cons, State.pick, he]
    exact congrArg endRes (chargeRes_free (fun _ => rfl) _)
  · rw [step_cons, State.pick, he]
    rfl
  · have hcount := countsOnly_counted { s with agenda := rest } core dp lane rk
    generalize hv : State.counted { s with agenda := rest } core dp lane (some rk) = v at hcount
    have hpick : State.pick { s with agenda := rest } (.boundary core dp lane) = v.issueRole rk lane := by
      rw [← hv]
      exact boundary_issue ht hn ho hp
    have hpeek : v.peek rk lane = .instr i := (hcount.peek rk lane).trans hi
    obtain ⟨hagenda, hhbm, hdirty, hvfs, hlaunches⟩ := hcount.kept
    refine ⟨⟨hagenda, hhbm, hdirty, hvfs, hlaunches, fun k => ⟨hcount.stand.pc k, hcount.stand.sregs k, hcount.stand.lanes k,
      hcount.stand.blocks k, hcount.stand.lanePc k⟩⟩, hpeek, fun hw => ?_, fun hw => ?_⟩
    · rw [step_cons, hpick, issueRole_instr hpeek, hw]
      rfl
    · rw [step_cons, hpick, issueRole_instr hpeek, hw]
      rfl
  · have hturn := engineTurn_run (s := { s with agenda := rest }) hf hr hrun hres hi hq hd
    rw [step_cons, State.pick, hturn]
    exact congrArg endRes (chargeRes_free (fun _ => rfl) _)
  · have hturn := rowTurn_run (s := { s with agenda := rest }) hr hs hdep hd hpc hx hi hl hf hw
    obtain ⟨hagenda, hhbm, hdirty, hvfs, hlaunches, hstand⟩ := notePages_kept { s with agenda := rest } (s.row key).task x
    refine ⟨_, ⟨hagenda, hhbm, hdirty, hvfs, hlaunches, fun k =>
      ⟨hstand.pc k, hstand.sregs k, hstand.lanes k, hstand.blocks k, hstand.lanePc k⟩⟩, ?_⟩
    rw [step_cons, State.pick, hturn]
    rfl
  · obtain ⟨⟨hhbm, hdirty, hvfs, hlaunches, hagenda⟩, hstand⟩ := chargeOnly_charged w v a i
    exact ⟨hhbm, hdirty, hvfs, hlaunches, hagenda, fun k => ⟨hstand.pc k, hstand.sregs k, hstand.lanes k, hstand.blocks k,
      hstand.lanePc k⟩⟩

end Sys2Proof.Machine
end

section
/-! PROOFS. The machine checks of the matrix engine (R58, R238). -/

namespace Sys2Proof.Machine
open Sys2Proof

/-! ## A record in the ring is home memory written (R381) -/

/-- A dirty line of a grain that the record is written into is dirty no more. -/
theorem dirty_addRec {s : State} {vf l : Nat} {x : Xlat} (i : RecInfo) (stops : Option Nat)
    (hrecs : (s.vf vf).recs = []) (hfull : (s.vf vf).ringFull = false)
    (hx : s.xlat vf (((s.vf vf).frBase.toNat + 192 * (s.vf vf).frHead.toNat) % 2 ^ 64) 192 true = .ok x)
    (hl : grainKey l ∈ (linesOf x.part x.ia x.pas.length).map grainKey) : (s.addRec vf i stops).dirty.get? l = none := by
  have hrec (u : State) (w : FaultRec) : (u.pushRec vf w).dirty = u.dirty := rfl
  have hnone : (s.beforeRec.vf vf).recs.any (fun q => !q.written) = false := by
    show (s.vf vf).recs.any _ = false
    rw [hrecs]
    rfl
  have hx' : s.beforeRec.xlat vf (((s.beforeRec.vf vf).frBase.toNat + 192 * (s.beforeRec.vf vf).frHead.toNat) % 2 ^ 64) 192
      true = .ok x := hx
  have hfull' : (s.beforeRec.vf vf).ringFull = false := hfull
  cases hu : s.beforeRec.ringWrite vf (s.newRec vf i stops) with
  | none =>
    rw [State.ringWrite, hfull', if_neg Bool.false_ne_true] at hu
    simp only [hx'] at hu
    cases hu
  | some u =>
    have hadd : s.addRec vf i stops = u.pushRec vf { s.newRec vf i stops with written := true } := by
      show s.beforeRec.putRec vf (s.newRec vf i stops) = _
      rw [State.putRec, hnone, if_neg Bool.false_ne_true, hu]
    rw [State.ringWrite, hfull', if_neg Bool.false_ne_true] at hu
    simp only [hx', Option.some.injEq] at hu
    rw [hadd, hrec, ← hu]
    exact dirty_homeWriteX_none (s := s.beforeRec) x _ (.inl hl)

/-! ## The machine check as the engine starts a word -/

/-- A bad register word without a duplicate makes a machine check. -/
theorem lxFails_badWords {s : State} {j : LxJob} {w : LxWord} (hj : j.lxs = [w]) (hb : s.lxBadB j = false)
    (hw : s.lxBadWords w false ≠ []) : s.lxFails j =
      some ((s.updCore (s.coreOf w.rk) fun c => { c with mchk := Nat.min (c.mchk + 1) 0xFFFF }).lxChecks [w] 1) := by
  have hany : (j.lxs.any fun w => !(s.lxBadWords w false).isEmpty) = true := by
    simp [hj, hw]
  rw [State.lxFails, hb, if_neg Bool.false_ne_true, if_pos hany]
  simp only [hj, List.foldl_cons, List.foldl_nil]

/-- The member's record, and its stop. -/
theorem lxChecks_one {s : State} {w : LxWord} (sub : Nat) (ha : (s.team (teamOf w.rk)).abortable = false) :
    s.lxChecks [w] sub = (s.addRec (s.vfOf w.rk) (s.lxInfo w sub) (some w.rk)).updRole w.rk fun r =>
      { r with stopped := some (s.nextRec % 2 ^ 32) } := by
  simp only [State.lxChecks, ha, Bool.false_eq_true, if_false, List.foldl_cons, List.foldl_nil]

theorem exec_lxStart_bad {s : State} {core i : Nat} {j : LxJob} (hm : s.engineMay (clusterOf core) = true)
    (hd : (s.core core).lxDone = []) (hn : s.lxNext core = some (j, i)) {t : State} (hf : s.lxFails j = some t) :
    exec (.lxStart core) s = .next { t with free := t.free + 1 } := by
  have harm : exec (.lxStart core) s = execLxStart core s := rfl
  simp only [harm, execLxStart, hm, hd, hn, hf, Bool.not_true, List.isEmpty_nil, Bool.or_self, Bool.false_eq_true, if_false]

/-- A bad word of a role outside a transaction: its record is written into the ring. -/
theorem dirty_lxStart_bad {s : State} {core i l : Nat} {j : LxJob} {w : LxWord} {x : Xlat}
    (hm : s.engineMay (clusterOf core) = true) (hd : (s.core core).lxDone = []) (hn : s.lxNext core = some (j, i))
    (hj : j.lxs = [w]) (hb : s.lxBadB j = false) (hw : s.lxBadWords w false ≠ [])
    (ha : (s.team (teamOf w.rk)).abortable = false)
    (hrecs : (s.vf (s.vfOf w.rk)).recs = []) (hfull : (s.vf (s.vfOf w.rk)).ringFull = false)
    (hx : s.xlat (s.vfOf w.rk)
      (((s.vf (s.vfOf w.rk)).frBase.toNat + 192 * (s.vf (s.vfOf w.rk)).frHead.toNat) % 2 ^ 64) 192 true = .ok x)
    (hl : grainKey l ∈ (linesOf x.part x.ia x.pas.length).map grainKey) :
    ∃ t, exec (.lxStart core) s = .next t ∧ t.dirty.get? l = none := by
  have hfails := lxFails_badWords hj hb hw
  generalize hu : s.updCore (s.coreOf w.rk) (fun c => { c with mchk := Nat.min (c.mchk + 1) 0xFFFF }) = u at hfails
  have hteam : (u.team (teamOf w.rk)).abortable = false := by rw [← hu]; exact ha
  have hdirty : (u.addRec (u.vfOf w.rk) (u.lxInfo w 1) (some w.rk)).dirty.get? l = none := by
    subst hu
    exact dirty_addRec _ _ hrecs hfull hx hl
  rw [lxChecks_one 1 hteam] at hfails
  exact ⟨_, exec_lxStart_bad hm hd hn hfails, hdirty⟩

theorem mem_lxWords_vaccsc {s : State} {w : LxWord} {sw add : Bool} {v : BitVec 3} {b : BitVec 4} {k : Nat}
    (h : w.word = .vaccsc sw v b add) (hk : k ∈ (accRect (w.view v)).keys) : k / 4 ∈ s.lxWords w := by
  have hmul : lxMulOf (.vaccsc sw v b add) = none := rfl
  simp only [State.lxWords, State.lxWatch, h, hmul, List.nil_append, List.flatMap_cons, List.flatMap_nil, List.append_nil,
    List.mem_dedup]
  exact List.mem_map.2 ⟨k, hk, rfl⟩

/-- A VACCSC of the role, whose accumulator has a bad word. -/
def badWord : LxWord := ⟨evRole, .vaccsc false 0 0 false, [], [], [evRole], true, 0⟩

/-- It waits in the engine queue. -/
def badJob : LxJob := ⟨0, [badWord], 0, 0, [], 0, [], 0, none, [], 0, [], 0⟩

/-- The engine of core 0 may start the word. The VF has a fault ring of 16 records, whose first line is dirty. -/
def badState : State :=
  { withDirty [(lineKey 0 458752, lineOne)] with
    vfs := [(0, { fetchVf Vf.reset with frBase := 458752, frSize := 16 })]
    roles := [(evRole, { Role.empty with lanes := { Lanes.empty with bad := [(0, false)] } })]
    cores := [(0, { Core.reset with engQ := [badJob] })] }

/-- The first word of its accumulator is one that the engine reads. -/
theorem mem_lxWords_badWord : 0 ∈ badState.lxWords badWord := by
  have hkey : 0 ∈ (accRect 0).keys := by
    have hpar : (accRect 0).parity = 0 := rfl
    simp only [Rect.keys, List.mem_flatMap, hpar, true_or, if_true, List.mem_map, List.mem_range]
    exact ⟨0, by decide, 0, by decide, 0, by decide, rfl⟩
  exact mem_lxWords_vaccsc (k := 0) rfl hkey

theorem lxBadWords_badWord : badState.lxBadWords badWord false ≠ [] := by
  refine List.ne_nil_of_mem (a := 0) ?_
  have hbad : (badState.role badWord.rk).lanes.bad = [(0, false)] := rfl
  simp only [State.lxBadWords, hbad]
  exact List.mem_filter.2 ⟨mem_lxWords_badWord, rfl⟩

theorem xlat_badState : ∃ x, badState.xlat 0 (((badState.vf 0).frBase.toNat + 192 * (badState.vf 0).frHead.toNat) % 2 ^ 64) 192
      true = .ok x ∧ grainKey (lineKey 0 458752) ∈ (linesOf x.part x.ia x.pas.length).map grainKey := by
  refine ⟨⟨0, 458752, rangeFrom 458752 192, false, false⟩, ?_, ?_⟩ <;> decide +kernel

/-- The record is written into the ring. -/
theorem dirty_lxStart_badState : ∃ t, exec (.lxStart 0) badState = .next t ∧ t.dirty.get? (lineKey 0 458752) = none := by
  have hm : badState.engineMay (clusterOf 0) = true := by decide +kernel
  have hn : badState.lxNext 0 = some (badJob, 0) := by decide +kernel
  have hb : badState.lxBadB badJob = false := by decide +kernel
  have hfull : (badState.vf 0).ringFull = false := by decide +kernel
  obtain ⟨x, hx, hl⟩ := xlat_badState
  exact dirty_lxStart_bad hm rfl hn rfl hb lxBadWords_badWord rfl rfl hfull hx hl

/-- Refutes O53: the machine check that the matrix engine finds is a record, and the ring that takes it is home memory: the
line of the ring that was dirty is dirty no more. -/
theorem not_softErrors : ¬ Obligations.SoftErrors := by
  unfold Obligations.SoftErrors
  rintro ⟨-, -, -, -, hengine, -⟩
  have hm : badState.engineMay (clusterOf 0) = true := by decide +kernel
  have hn : badState.lxNext 0 = some (badJob, 0) := by decide +kernel
  have hb : badState.lxBadB badJob = false := by decide +kernel
  obtain ⟨t, ht, -, -, hdirty, -⟩ := hengine badState 0 0 badJob hm rfl hn hb
    ⟨badWord, List.mem_singleton.2 rfl, lxBadWords_badWord⟩
  obtain ⟨u, hu, hgone⟩ := dirty_lxStart_badState
  rw [ht, Host.Outcome.next.injEq] at hu
  rw [← hu, hdirty] at hgone
  exact absurd hgone (by decide +kernel)

end Sys2Proof.Machine
end

section
/-! PROOFS. A word that names no instruction, in the lane stream (R61, R65). -/

namespace Sys2Proof.Machine
open Sys2Proof

/-- A lane stream that executes a word while the result of an LX word is outstanding. -/
def waitingLane : State :=
  { State.reset with roles := [(0, { Role.empty with lxOut := 1 })], cur := .lane 0 }

/-- It waits: no record is written. -/
theorem illegal_waitingLane : ∃ t, exec .illegal waitingLane = .next t ∧ t.nextRec = waitingLane.nextRec := by
  refine ⟨_, rfl, ?_⟩
  decide +kernel

theorem nextRec_raise (s : State) (rk : Nat) (lane : Bool) (sub va pa lanes : Nat) :
    (s.raise rk lane .illegal sub va pa lanes).nextRec = s.nextRec + 1 := by
  have h := congrArg State.nextRec (addRec_rest s (s.vfOf rk) (s.roleInfo rk lane .illegal sub va pa lanes false) (some rk))
  exact h

/-- Refutes O52: its last part has every word that names no instruction write its record at once, also in the lane stream
while results are outstanding. The record is then written once they have returned (R61). -/
theorem not_packageEvents : ¬ Obligations.PackageEvents := by
  unfold Obligations.PackageEvents
  rintro ⟨-, hillegal⟩
  obtain ⟨-, hlane, -⟩ := hillegal waitingLane 0 0
  obtain ⟨t, ht, hrec⟩ := illegal_waitingLane
  rw [hlane rfl, Host.Outcome.next.injEq] at ht
  rw [← ht, nextRec_raise] at hrec
  omega

end Sys2Proof.Machine
end

section
/-! PROOFS. Team dispatch (R124, R152, R168, R203, R346, R376, R380). -/

namespace Sys2Proof.Machine
open Sys2Proof

/-! ## What the binding of roles leaves (R57, R302) -/

/-- A role but for the duplicates of its register words and the count of near-threshold mode. -/
def Role.unbound (r : Role) : Role := { r with parkTicks := 0, lanes := { r.lanes with bad := [] } }

/-- Binding changes of the roles those two things alone; it leaves the teams and memory. -/
structure BindOnly (s t : State) : Prop where
  role : ∀ k, (t.role k).unbound = (s.role k).unbound
  teams : t.teams = s.teams
  hbm : t.hbm = s.hbm
  dirty : t.dirty = s.dirty

section
variable {s t u : State}

theorem BindOnly.refl (s : State) : BindOnly s s := ⟨fun _ => rfl, rfl, rfl, rfl⟩

theorem BindOnly.trans (h : BindOnly s t) (g : BindOnly t u) : BindOnly s u :=
  ⟨fun k => (g.role k).trans (h.role k), g.teams.trans h.teams, g.hbm.trans h.hbm, g.dirty.trans h.dirty⟩

theorem BindOnly.foldl {β : Type} {f : State → β → State} (hf : ∀ t x, BindOnly t (f t x)) (l : List β) (s : State) :
    BindOnly s (l.foldl f s) := by
  induction l generalizing s with
  | nil => exact BindOnly.refl s
  | cons x xs ih => exact (hf s x).trans (ih _)

theorem BindOnly.of_eq (hr : t.roles = s.roles) (ht : t.teams = s.teams) (hh : t.hbm = s.hbm) (hd : t.dirty = s.dirty) :
    BindOnly s t := ⟨fun k => by rw [State.role, hr]; rfl, ht, hh, hd⟩

theorem bindOnly_updRole (s : State) (rk : Nat) {f : Role → Role} (h : (f (s.role rk)).unbound = (s.role rk).unbound) :
    BindOnly s (s.updRole rk f) := by
  refine ⟨fun k => ?_, rfl, rfl, rfl⟩
  by_cases hk : k = rk
  · rw [hk, State.role_updRole_self, h]
  · rw [State.role_updRole_ne _ _ hk]

theorem bindOnly_dropDups (s : State) (core dp : Nat) : BindOnly s (s.dropDups core dp) := by
  have hfold (ks : List Nat) (p : State × Nat) : BindOnly p.1 (ks.foldl (fun p rk =>
      let k := (p.1.role rk).lanes.keepDups (s.free + rk) p.2
      (p.1.updRole rk fun r => { r with lanes := k.1 }, k.2)) p).1 := by
    induction ks generalizing p with
    | nil => exact BindOnly.refl _
    | cons k ks ih =>
      rw [List.foldl_cons]
      refine BindOnly.trans ?_ (ih _)
      exact bindOnly_updRole p.1 k
        (f := fun r => { r with lanes := ((p.1.role k).lanes.keepDups (s.free + k) p.2).1 }) rfl
  exact hfold _ (s, s.dpRoom core dp)

theorem bindOnly_rebound (s : State) (core : Nat) (dps : List Nat) : BindOnly s (s.rebound core dps) := by
  have hdrop : BindOnly s (dps.dedup.foldl (fun t dp => t.dropDups core dp) s) :=
    BindOnly.foldl (fun t dp => bindOnly_dropDups t core dp) _ _
  exact hdrop.trans (.of_eq rfl rfl rfl rfl)

theorem bindOnly_adopt (s : State) (c : Nat) : BindOnly s (s.adopt c) := by
  obtain ⟨hr, ht, -, hh, hd⟩ := adopt_kept s c
  exact .of_eq hr ht hh hd

theorem bindOnly_leaveNear (s : State) (rk : Nat) : BindOnly s (s.leaveNear rk) := by
  unfold State.leaveNear
  dsimp only
  split
  · refine (bindOnly_updRole s rk (f := fun r => { r with parkTicks := 0 }) rfl).trans ?_
    exact .of_eq rfl rfl rfl rfl
  · exact .refl s

theorem bindOnly_leaveIfReady (s : State) (rk : Nat) : BindOnly s (s.leaveIfReady rk) := by
  unfold State.leaveIfReady
  dsimp only
  split
  · exact bindOnly_leaveNear ..
  · exact .refl s

theorem BindOnly.flight (h : BindOnly s t) (k : Nat) : (t.role k).flight = (s.role k).flight :=
  (congrArg Role.flight (h.role k) :)

/-- A role without words in flight that becomes ready performs nothing. -/
theorem bindOnly_ready {s : State} {ks : List Nat} (h : ∀ k ∈ ks, (s.role k).flight = []) :
    BindOnly s (ks.foldl (fun t rk => (t.leaveIfReady rk).kick rk) s) := by
  induction ks generalizing s with
  | nil => exact .refl s
  | cons k ks ih =>
    have hleave := bindOnly_leaveIfReady s k
    have hkick : (s.leaveIfReady k).kick k = s.leaveIfReady k :=
      kick_idle ((hleave.flight k).trans (h k (List.mem_cons_self ..)))
    rw [List.foldl_cons, hkick]
    exact hleave.trans (ih fun j hj => (hleave.flight j).trans (h j (List.mem_cons_of_mem _ hj)))

end

/-! ## A fresh dispatch -/

section
variable (s : State) (tk core : Nat) (dps : List Nat)

/-- The roles are in place. -/
def State.seatRoles (l : Launch) : State :=
  dps.zipIdx.foldl (fun u e => u.setRole (roleKey tk e.2) (l.newRole (tk % 2 ^ 60) e.2 e.1)) s

theorem role_setRole_self (rk : Nat) (r : Role) : (s.setRole rk r).role rk = r := NMap.get_put_self ..

theorem role_setRole_ne {rk k : Nat} (r : Role) (h : k ≠ rk) : (s.setRole rk r).role k = s.role k := NMap.get_put_ne _ _ _ h

theorem roleKey_inj {i j : Nat} (h : roleKey tk i = roleKey tk j) : i = j := by
  simp only [roleKey] at h
  omega

theorem seatRoles_kept (l : Launch) : (s.seatRoles tk dps l).teams = s.teams ∧ (s.seatRoles tk dps l).hbm = s.hbm ∧
    (s.seatRoles tk dps l).dirty = s.dirty := by
  have h := foldl_proj_eq (fun u : State => (u.teams, u.hbm, u.dirty))
    (f := fun (u : State) (e : Nat × Nat) => u.setRole (roleKey tk e.2) (l.newRole (tk % 2 ^ 60) e.2 e.1)) (fun _ _ => rfl)
    dps.zipIdx s
  simp only [Prod.mk.injEq] at h
  exact h

theorem seatRoles_role (l : Launch) {j : Nat} (hj : j < dps.length) :
    (s.seatRoles tk dps l).role (roleKey tk j) = l.newRole (tk % 2 ^ 60) j (dps.getD j 0) := by
  have hfold (n : Nat) (ds : List Nat) (u : State) : ((ds.zipIdx n).foldl (fun u e =>
      u.setRole (roleKey tk e.2) (l.newRole (tk % 2 ^ 60) e.2 e.1)) u).role (roleKey tk j) =
        if n ≤ j ∧ j < n + ds.length then l.newRole (tk % 2 ^ 60) j (ds.getD (j - n) 0) else u.role (roleKey tk j) := by
    induction ds generalizing n u with
    | nil =>
      rw [if_neg (by simp only [List.length_nil]; omega)]
      rfl
    | cons d ds ih =>
      rw [List.zipIdx_cons, List.foldl_cons, ih]
      rcases lt_trichotomy j n with h | h | h
      · rw [if_neg (by omega), if_neg (by omega), role_setRole_ne _ _ fun he => by
          have := roleKey_inj tk he
          omega]
      · subst h
        rw [if_neg (by omega), if_pos ⟨le_rfl, by simp⟩, role_setRole_self, Nat.sub_self, List.getD_cons_zero]
      · have hsub : j - n = j - (n + 1) + 1 := by omega
        rw [role_setRole_ne _ _ fun he => by
          have := roleKey_inj tk he
          omega, hsub, List.getD_cons_succ]
        rw [List.length_cons]
        by_cases hin : j < n + 1 + ds.length
        · rw [if_pos ⟨by omega, hin⟩, if_pos ⟨by omega, by omega⟩]
        · rw [if_neg (by omega), if_neg (by omega)]
  have h := hfold 0 dps s
  rw [if_pos ⟨Nat.zero_le _, by omega⟩] at h
  exact h

/-- The roles are in place, and the launch and the core know of them. -/
def State.seated : State :=
  let l := s.launch (lidOf tk)
  let m := (if s.teams.has tk then s.team tk else s.firstTeam (lidOf tk) (tk % 2 ^ 60) core).begin (l.flag 0) core
    (s.freeSlot core) s.nextAge
  (({ s.setTeam tk m with nextAge := s.nextAge + 1 }.seatRoles tk dps l).updCore core fun c =>
    { c with slots := c.slots.put (s.freeSlot core) tk }).updLaunch (lidOf tk) fun l => l.dispatched (tk % 2 ^ 60)

theorem startTeam_eq : s.startTeam tk core dps =
    (((s.seated tk core dps).rebound core dps).adopt (clusterOf core)).rolesReady tk := rfl

end


/-! ## The dispatch -/

theorem bindingFits_length {ns is : List Nat} {ds : List DpLoad} (h : bindingFits ns is ds = true) : is.length = ns.length := by
  induction ns generalizing is ds with
  | nil =>
    cases is with
    | nil => rfl
    | cons i is => simp [bindingFits] at h
  | cons n ns ih =>
    cases is with
    | nil => simp [bindingFits] at h
    | cons i is =>
      simp only [bindingFits, Bool.and_eq_true] at h
      rw [List.length_cons, List.length_cons, ih h.2]

theorem placeFits_length {s : State} {lid core : Nat} {dps : List Nat} (h : s.placeFits lid core dps = true) :
    dps.length = (s.launch lid).nroles := by
  rw [State.placeFits, Bool.and_eq_true] at h
  rw [bindingFits_length h.2, Launch.roleSizes, List.length_map, List.length_range]

section
variable {s : State} {tk core : Nat} {dps : List Nat}

theorem team_of_not_has (h : s.teams.has tk = false) : s.team tk = Team.empty := by
  have hnone : s.teams.get? tk = none := by
    rw [NMap.has] at h
    exact Option.not_isSome_iff_eq_none.1 (Bool.eq_false_iff.1 h)
  rw [State.team, NMap.get_eq_getD, hnone]
  rfl

theorem seated_kept (s : State) (tk core : Nat) (dps : List Nat) :
    (s.seated tk core dps).teams = (s.setTeam tk ((if s.teams.has tk then s.team tk
      else s.firstTeam (lidOf tk) (tk % 2 ^ 60) core).begin ((s.launch (lidOf tk)).flag 0) core (s.freeSlot core)
        s.nextAge)).teams ∧
    (s.seated tk core dps).hbm = s.hbm ∧ (s.seated tk core dps).dirty = s.dirty := by
  unfold State.seated
  dsimp only
  rw [State.updLaunch_teams, State.updLaunch_hbm, State.updLaunch_dirty, State.updCore_teams, State.updCore_hbm,
    State.updCore_dirty]
  obtain ⟨ht, hh, hd⟩ := seatRoles_kept { s.setTeam tk ((if s.teams.has tk then s.team tk
    else s.firstTeam (lidOf tk) (tk % 2 ^ 60) core).begin ((s.launch (lidOf tk)).flag 0) core (s.freeSlot core) s.nextAge)
      with nextAge := s.nextAge + 1 } tk dps (s.launch (lidOf tk))
  exact ⟨ht, hh, hd⟩

theorem seated_role {j : Nat} (hj : j < dps.length) : (s.seated tk core dps).role (roleKey tk j) =
    (s.launch (lidOf tk)).newRole (tk % 2 ^ 60) j (dps.getD j 0) := by
  unfold State.seated
  dsimp only
  rw [State.role_updLaunch, State.role_updCore, seatRoles_role _ _ _ _ hj]

theorem seated_team : (s.seated tk core dps).team tk = (if s.teams.has tk then s.team tk
      else s.firstTeam (lidOf tk) (tk % 2 ^ 60) core).begin ((s.launch (lidOf tk)).flag 0) core (s.freeSlot core)
        s.nextAge := by
  rw [State.team, (seated_kept s tk core dps).1]
  exact NMap.get_put_self ..

theorem firstTeam_nroles (lid t : Nat) : (s.firstTeam lid t core).nroles = (s.launch lid).nroles := by
  unfold State.firstTeam
  dsimp only
  split <;> rfl

/-- A fresh start binds the roles that it has put in place. -/
theorem bindOnly_startTeam (hnew : s.teams.has tk = false) (hlen : dps.length = (s.launch (lidOf tk)).nroles) :
    BindOnly (s.seated tk core dps) (s.startTeam tk core dps) := by
  have hbound := (bindOnly_rebound (s.seated tk core dps) core dps).trans (bindOnly_adopt _ (clusterOf core))
  rw [startTeam_eq]
  refine hbound.trans (bindOnly_ready fun rk hrk => ?_)
  have hteam : (((s.seated tk core dps).rebound core dps).adopt (clusterOf core)).team tk =
      (s.seated tk core dps).team tk := by rw [State.team, hbound.teams]; rfl
  rw [State.rolesOf, hteam, seated_team, hnew, if_neg Bool.false_ne_true] at hrk
  obtain ⟨j, hj, rfl⟩ := List.mem_map.1 hrk
  have hj' : j < dps.length := by
    rw [hlen, ← firstTeam_nroles (core := core) (lidOf tk) (tk % 2 ^ 60)]
    exact List.mem_range.1 hj
  rw [hbound.flight, seated_role hj']
  rfl

end

theorem settleVf_kept (s : State) (vf : Nat) : (s.settleVf vf).teams = s.teams ∧ (s.settleVf vf).hbm = s.hbm ∧
    (s.settleVf vf).dirty = s.dirty ∧ (s.settleVf vf).launches = s.launches := by
  unfold State.settleVf
  split <;> exact ⟨rfl, rfl, rfl, rfl⟩

/-- Choosing the dies changes of the launch the list of its dies alone. -/
theorem chooseDies_kept (s : State) (lid die : Nat) : (s.chooseDies lid die).teams = s.teams ∧
    (s.chooseDies lid die).hbm = s.hbm ∧ (s.chooseDies lid die).dirty = s.dirty ∧
    ∃ ds, (s.chooseDies lid die).launch lid = { s.launch lid with dies := ds } := by
  unfold State.chooseDies
  split
  · exact ⟨rfl, rfl, rfl, _, State.launch_updLaunch_self ..⟩
  · exact ⟨rfl, rfl, rfl, _, rfl⟩

theorem dispatchTeam_fresh {s : State} {tk core : Nat} {dps : List Nat} (h : s.teams.has tk = false) :
    s.dispatchTeam tk core dps = (s.settleVf (s.launch (lidOf tk)).vf).startTeam tk core dps := by
  have hphase : (s.team tk).phase = .queued := by rw [team_of_not_has h]; rfl
  simp only [State.dispatchTeam, hphase]

/-- A launch but for its dies starts its roles the same. -/
theorem newRole_dies (l : Launch) (ds : List Nat) (t j dp : Nat) : ({ l with dies := ds } : Launch).newRole t j dp =
    l.newRole t j dp := rfl

/-- What a role starts with. -/
theorem newRole_start {r : Role} {l : Launch} {t j dp : Nat} (h : r.unbound = (l.newRole t j dp).unbound) :
    r.pc = BitVec.ofNat 64 (l.khdr + 64 + 4 * fieldOf (l.roleEntry j) 0 16) ∧ r.sregs = [] ∧ r.dp = dp ∧
    r.lanes.regs = [] ∧ r.lanes.base = r.lanes.slots ∧ r.blocks = [] ∧ r.lanes.groups = l.groups j ∧
    r.lanes.budget = l.budget j ∧ r.stopped = none ∧
    r.lanes.rng = seedOf (BitVec.ofNat 32 (l.fld 40 4) ^^^ BitVec.ofNat 32 (t * 16 + j)) := by
  have hlanes : { r.lanes with bad := [] } = (l.newRole t j dp).unbound.lanes := (congrArg Role.lanes h :)
  have hgroups : r.lanes.groups = l.groups j := (congrArg Lanes.groups hlanes :)
  have hbase : r.lanes.base = BitVec.allOnes 1024 >>> (1024 - 32 * l.groups j) := (congrArg Lanes.base hlanes :)
  refine ⟨(congrArg Role.pc h :), (congrArg Role.sregs h :), (congrArg Role.dp h :), (congrArg Lanes.regs hlanes :), ?_,
    (congrArg Role.blocks h :), hgroups, (congrArg Lanes.budget hlanes :), (congrArg Role.stopped h :),
    (congrArg Lanes.rng hlanes :)⟩
  rw [hbase, Lanes.slots, hgroups]

section
variable {s : State} {tk core : Nat} {dps : List Nat}

theorem exec_teamDispatch_no (h : s.mayDispatch tk = false ∨ s.placeFits (lidOf tk) core dps = false) :
    exec (.teamDispatch tk core dps) s = .next s := by
  have harm : exec (.teamDispatch tk core dps) s = execTeamDispatch tk core dps s := rfl
  have hno : (!s.mayDispatch tk || !s.placeFits (lidOf tk) core dps) = true := by
    rcases h with h | h <;> simp [h]
  rw [harm, execTeamDispatch]
  exact if_pos hno

theorem exec_teamDispatch (hm : s.mayDispatch tk = true) (hp : s.placeFits (lidOf tk) core dps = true)
    (hc : (s.launch (lidOf tk)).coPending = false) : exec (.teamDispatch tk core dps) s =
      .next ((s.chooseDies (lidOf tk) (dieOf core)).dispatchTeam tk core dps) := by
  have harm : exec (.teamDispatch tk core dps) s = execTeamDispatch tk core dps s := rfl
  simp only [harm, execTeamDispatch, hm, hp, hc, Bool.not_true, Bool.or_self, Bool.false_eq_true, if_false]

end

/-- Settles O44: a first dispatch puts `Launch.newRole` in each place, and what binds the roles afterwards leaves them. -/
theorem teamDispatch : Obligations.TeamDispatch := by
  unfold Obligations.TeamDispatch
  refine fun s tk core dps => ⟨exec_teamDispatch_no, fun hm hp hc => ⟨exec_teamDispatch hm hp hc, fun hnew hlen hno => ?_⟩,
    fun hphase => ?_, fun dies teams hok hhas => ⟨fun hd => ?_, fun hd hs => ?_⟩⟩
  · obtain ⟨ht, hh, hd, ds, hl⟩ := chooseDies_kept s (lidOf tk) (dieOf core)
    generalize hu : s.chooseDies (lidOf tk) (dieOf core) = u at ht hh hd hl
    obtain ⟨ht', hh', hd', hl'⟩ := settleVf_kept u (u.launch (lidOf tk)).vf
    generalize hv : u.settleVf (u.launch (lidOf tk)).vf = v at ht' hh' hd' hl'
    have hlaunch : v.launch (lidOf tk) = { s.launch (lidOf tk) with dies := ds } := by
      rw [State.launch, hl', ← State.launch, hl]
    have hvnew : v.teams.has tk = false := by rw [ht', ht, hnew]
    have hbind := bindOnly_startTeam (s := v) (core := core) (dps := dps) hvnew (by rw [hlaunch]; exact placeFits_length hp)
    obtain ⟨hst, hsh, hsd⟩ := seated_kept v tk core dps
    have hteam : (v.startTeam tk core dps).team tk = _ := (by rw [State.team, hbind.teams]; rfl :
      (v.startTeam tk core dps).team tk = (v.seated tk core dps).team tk).trans seated_team
    refine ⟨v.startTeam tk core dps, ?_, ?_⟩
    · rw [exec_teamDispatch hm hp hc, hu, dispatchTeam_fresh (by rw [ht]; exact hnew), hv]
    · rw [hteam, hvnew, if_neg Bool.false_ne_true]
      refine ⟨rfl, rfl, ?_, rfl, ?_, hbind.hbm.trans (hsh.trans (hh'.trans hh)),
        hbind.dirty.trans (hsd.trans (hd'.trans hd)), fun j hj => ?_⟩
      · show (v.launch (lidOf tk)).flag 0 = _
        rw [hlaunch]
        rfl
      · show (v.firstTeam (lidOf tk) (tk % 2 ^ 60) core).nroles = _
        rw [firstTeam_nroles, hlaunch]
        rfl
      · have hrole := hbind.role (roleKey tk j)
        rw [seated_role hj, hlaunch, newRole_dies] at hrole
        exact newRole_start hrole
  · obtain ⟨ht, -, -, hl⟩ := settleVf_kept s (s.launch (lidOf tk)).vf
    have hteam : (s.settleVf (s.launch (lidOf tk)).vf).team tk = s.team tk := by rw [State.team, ht]; rfl
    have hlaunch : (s.settleVf (s.launch (lidOf tk)).vf).launch (lidOf tk) = s.launch (lidOf tk) := by
      rw [State.launch, hl]
      rfl
    have hres : s.dispatchTeam tk core dps = (s.settleVf (s.launch (lidOf tk)).vf).resumeFrom tk core dps := by
      rcases hphase with h | h <;> simp only [State.dispatchTeam, h]
    rw [hres, State.resumeFrom, hteam, hlaunch]
  · have hno : (!s.launches.has (lidOf tk) || !s.diesOk (lidOf tk) dies) = false := by rw [hhas, hok]; rfl
    simp only [State.setDies, hno, hd, Bool.false_eq_true, if_false, List.isEmpty_nil, if_true]
  · have hno : (!s.launches.has (lidOf tk) || !s.diesOk (lidOf tk) dies) = false := by rw [hhas, hok]; rfl
    have hne : (s.launch (lidOf tk)).dies.isEmpty = false := by simpa using hd
    simp only [State.setDies, hno, hne, hs, Bool.false_eq_true, if_false]

end Sys2Proof.Machine
end

section
/-! PROOFS. Retirement, completion of launches and stages, and lost launches (R170, R336, R378 to R386, R415). -/

namespace Sys2Proof.Machine
open Sys2Proof

/-! ## Retirement (R170, R218) -/

section
variable (s : State) (tk : Nat)

/-- The state of a retirement before what the team has cost is posted. -/
def State.retireCounted : State :=
  (((s.evictTeam tk).dropSwid tk).updTeam tk Team.retire).updLaunch (lidOf tk) fun l => { l with retired := l.retired + 1 }

theorem exec_teamRetire (h : s.canRetire tk = true) : exec (.teamRetire tk) s =
    .next (((s.retireCounted tk).postMeter (s.team tk).core (s.launch (lidOf tk)).vf).adopt (clusterOf (s.team tk).core)) := by
  have harm : exec (.teamRetire tk) s = execTeamRetire tk s := rfl
  rw [harm, execTeamRetire, h]
  rfl

theorem retireCounted_phase : ((s.retireCounted tk).team tk).phase = .retired := by
  rw [State.retireCounted, State.team_updLaunch, State.team_updTeam_self]
  rfl

theorem retireCounted_kept : (s.retireCounted tk).roles = s.roles.keep (fun k _ => teamOf k != tk) ∧
    (s.retireCounted tk).hbm = s.hbm ∧ (s.retireCounted tk).dirty = s.dirty ∧
    ((s.retireCounted tk).launch (lidOf tk)).retired = (s.launch (lidOf tk)).retired + 1 := by
  obtain ⟨hroles, hlaunches, hhbm, hdirty⟩ := unposted_inj.1 (dropSwid_kept (s.evictTeam tk) tk).1
  refine ⟨hroles, hhbm, hdirty, ?_⟩
  rw [State.retireCounted, State.launch_updLaunch_self, State.launch_updTeam, State.launch, hlaunches]
  rfl

/-- What a team has cost is posted: the roles, the launches and memory stay, and so does the phase of every team. -/
theorem posted_kept (core vf c k : Nat) : ((s.postMeter core vf).adopt c).unposted = s.unposted ∧
    (((s.postMeter core vf).adopt c).team k).phase = (s.team k).phase := by
  have hfixed := postMeter_fixed s core vf k
  simp only [Prod.mk.injEq] at hfixed
  exact ⟨(adopt_eq _ _).1.trans (postMeter_unposted ..), by rw [(adopt_eq _ _).2, hfixed.1]⟩

theorem teamRetire_done (h : s.canRetire tk = true) : ∃ t, exec (.teamRetire tk) s = .next t ∧
    (t.team tk).phase = .retired ∧ (t.launch (lidOf tk)).retired = (s.launch (lidOf tk)).retired + 1 ∧
    (∀ j, j < 8 → t.hasRole (roleKey tk j) = false) ∧ t.hbm = s.hbm ∧ t.dirty = s.dirty := by
  obtain ⟨hposted, hphase⟩ := posted_kept (s.retireCounted tk) (s.team tk).core (s.launch (lidOf tk)).vf
    (clusterOf (s.team tk).core) tk
  obtain ⟨hroles, hlaunches, hhbm, hdirty⟩ := unposted_inj.1 hposted
  obtain ⟨hr, hh, hd, hl⟩ := retireCounted_kept s tk
  refine ⟨_, exec_teamRetire s tk h, hphase.trans (retireCounted_phase s tk), ?_, fun j hj => ?_, hhbm.trans hh,
    hdirty.trans hd⟩
  · rw [State.launch, hlaunches, ← State.launch, hl]
  · rw [State.hasRole, hroles, hr]
    exact has_keep fun v => by rw [teamOf_roleKey hj]; exact bne_self_eq_false _

end

/-! ## Completion (R336, R378) -/

section
variable {s : State} {lid : Nat}

theorem finishLaunch_done (s : State) (lid : Nat) : ((s.finishLaunch lid false).launch lid).phase = .complete ∧
    (s.finishLaunch lid false).outbox = s.outbox ++ [.launchDone (s.launch lid).vf lid false] := by
  refine ⟨?_, rfl⟩
  show ((s.updLaunch lid fun l => { l with phase := .complete }).launch lid).phase = _
  rw [State.launch_updLaunch_self]

theorem doneAdd_none (h : (s.launch lid).fld 208 8 = 0) : s.doneAdd lid = s.finishLaunch lid false := by
  simp only [State.doneAdd, h, decide_true, Bool.true_or, if_true]

section
variable (ha : (s.launch lid).fld 208 8 ≠ 0) (hd : (s.launch lid).dropped = false)
include ha hd

theorem doneAdd_ok {x : Xlat} (hx : s.xlat (s.launch lid).vf ((s.launch lid).fld 208 8) 8 true = .ok x) : s.doneAdd lid =
    ((s.tokenAdd noCluster x ((s.launch lid).fld 216 8)).chargeAdd (s.launch lid).vf).finishLaunch lid false := by
  simp only [State.doneAdd, ha, hd, hx, decide_false, Bool.or_self, Bool.false_eq_true, if_false]

theorem doneAdd_page {sub ia : Nat} (hx : s.xlat (s.launch lid).vf ((s.launch lid).fld 208 8) 8 true = .page sub ia) :
    s.doneAdd lid = s.doneFault lid (doneInfo .page sub ((s.launch lid).fld 208 8) ia) := by
  simp only [State.doneAdd, ha, hd, hx, decide_false, Bool.or_self, Bool.false_eq_true, if_false]

theorem doneAdd_mcheck {pa : Nat} (hx : s.xlat (s.launch lid).vf ((s.launch lid).fld 208 8) 8 true = .mcheck pa) :
    s.doneAdd lid = s.doneFault lid (doneInfo .mcheck (s.lostSub pa) ((s.launch lid).fld 208 8) pa) := by
  simp only [State.doneAdd, ha, hd, hx, decide_false, Bool.or_self, Bool.false_eq_true, if_false]

end

theorem newRec_recid (s : State) (vf : Nat) (i : RecInfo) (stops : Option Nat) :
    (s.newRec vf i stops).recid = s.nextRec % 2 ^ 32 := by
  dsimp only [State.newRec]

/-- The record that is added, with its bytes and its number. -/
theorem addRec_listed (s : State) (vf : Nat) (i : RecInfo) (stops : Option Nat) :
    ∃ f ∈ ((s.addRec vf i stops).vf vf).recs,
      f.bytes = byteMap (recBytes i (s.nextRec % 2 ^ 32) vf s.refTick.toNat s.free) ∧ f.recid = s.nextRec % 2 ^ 32 := by
  obtain ⟨w, hmem⟩ := addRec_mem s vf i stops
  have hbytes := newRec_bytes s vf i stops
  have hid := newRec_recid s vf i stops
  generalize s.newRec vf i stops = r at hmem hbytes hid
  exact ⟨_, hmem, hbytes, hid⟩

/-- A new record has its code at byte 0, and its number. -/
theorem addRec_coded (s : State) (vf : Nat) (i : RecInfo) (stops : Option Nat) :
    ∃ f ∈ ((s.addRec vf i stops).vf vf).recs, fieldAt f.bytes 0 2 = codeNum i.code ∧ f.recid = s.nextRec % 2 ^ 32 := by
  obtain ⟨f, hmem, hbytes, hid⟩ := addRec_listed s vf i stops
  obtain ⟨hcode, -⟩ := recBytes_read i (s.nextRec % 2 ^ 32) vf s.refTick.toNat s.free
  rw [← hbytes] at hcode
  exact ⟨f, hmem, hcode.trans (Nat.mod_eq_of_lt (codeNum_lt i.code)), hid⟩

theorem doneFault_waits (s : State) (lid : Nat) (i : RecInfo) :
    ((s.doneFault lid i).launch lid).waitRec = some (s.nextRec % 2 ^ 32) ∧
    ((s.doneFault lid i).launch lid).phase = (s.launch lid).phase ∧
    ∃ f ∈ ((s.doneFault lid i).vf (s.launch lid).vf).recs, fieldAt f.bytes 0 2 = codeNum i.code ∧
      f.recid = s.nextRec % 2 ^ 32 := by
  have hlaunches : (s.addRec (s.launch lid).vf i none).launches = s.launches :=
    (congrArg State.launches (addRec_rest s (s.launch lid).vf i none) :)
  rw [State.doneFault, State.launch_updLaunch_self, State.vf_updLaunch, State.launch, hlaunches]
  exact ⟨rfl, rfl, addRec_coded ..⟩

end

section
variable {s : State} {lid : Nat}

/-- The merges of a launch that completes have begun. -/
def State.merging (s : State) (lid : Nat) : State :=
  ((s.tellStage lid stagesAll).mergeAll (s.launch lid).vf).updLaunch lid fun l => { l with phase := .merged }

theorem exec_launchComplete (s : State) (lid : Nat) : exec (.launchComplete lid) s =
    let s0 := s.spreadShare lid
    let l := s0.launch lid
    let s1 := if l.underWay && l.allRetired then s0.merging lid else s0
    .next (if (s1.launch lid).phase = .merged && l.waitRec.isNone && s1.noneHeld l.vf then s1.doneAdd lid else s1) := by
  have harm : exec (.launchComplete lid) s = execLaunchComplete lid s := rfl
  rw [harm, execLaunchComplete]
  exact (apply_ite Host.Outcome.next ..).symm

theorem exec_launchComplete_merged (hu : ((s.spreadShare lid).launch lid).underWay = true)
    (hr : ((s.spreadShare lid).launch lid).allRetired = true) (hw : ((s.spreadShare lid).launch lid).waitRec = none)
    (hn : ((s.spreadShare lid).merging lid).noneHeld ((s.spreadShare lid).launch lid).vf = true) :
    exec (.launchComplete lid) s = .next (((s.spreadShare lid).merging lid).doneAdd lid) := by
  have hphase : (((s.spreadShare lid).merging lid).launch lid).phase = .merged := by
    rw [State.merging, State.launch_updLaunch_self]
  rw [exec_launchComplete]
  simp only [hu, hr, hw, hn, hphase, Bool.and_self, if_true, decide_true, Option.isNone_none]

theorem exec_launchComplete_waits
    (h : ((s.spreadShare lid).launch lid).underWay = false ∨ ((s.spreadShare lid).launch lid).allRetired = false)
    (hp : ((s.spreadShare lid).launch lid).phase ≠ .merged) : exec (.launchComplete lid) s = .next (s.spreadShare lid) := by
  have hno : (((s.spreadShare lid).launch lid).underWay && ((s.spreadShare lid).launch lid).allRetired) = false := by
    rcases h with h | h <;> simp [h]
  rw [exec_launchComplete]
  simp only [hno, hp, Bool.false_eq_true, if_false, decide_false, Bool.false_and]

/-! ## Stages (R379, R415) -/

theorem passRelay_launches (s : State) (rk : Nat) : (s.passRelay rk).launches = s.launches := by
  unfold State.passRelay
  split <;> rfl

/-- The chips of the gang are told when this package's teams have arrived. -/
def State.stageTold (s : State) (lid : Nat) : State :=
  if s.stageHere lid then s.tellStage lid ((s.launch lid).stage + 1) else s

/-- Every RELAY of the launch completes. -/
def State.passStage (s : State) (lid : Nat) : State :=
  (((s.launchTeams lid).flatMap fun e => if e.2.live then s.rolesOf e.1 else []).foldl State.passRelay s).updLaunch lid
    Launch.relayPoint

theorem passStage_stage (s : State) (lid : Nat) : ((s.passStage lid).launch lid).stage = (s.launch lid).stage + 1 := by
  rw [State.passStage, State.launch_updLaunch_self, State.launch, foldl_proj_eq State.launches passRelay_launches]
  rfl

theorem exec_stageComplete (s : State) (lid : Nat) : exec (.stageComplete lid) s =
    let s0 := s.stageTold lid
    let s1 := s0.mergeAll (s0.launch lid).vf
    if !s0.stageDone lid then .next s0 else if !s1.noneHeld (s0.launch lid).vf then .next s1
      else .next (s1.passStage lid) := rfl

theorem exec_stageComplete_waits (h : (s.stageTold lid).stageDone lid = false) :
    exec (.stageComplete lid) s = .next (s.stageTold lid) := by
  rw [exec_stageComplete]
  simp only [h, Bool.not_false, if_true]

theorem exec_stageComplete_done (h : (s.stageTold lid).stageDone lid = true)
    (hn : ((s.stageTold lid).mergeAll ((s.stageTold lid).launch lid).vf).noneHeld ((s.stageTold lid).launch lid).vf = true) :
    ∃ t, exec (.stageComplete lid) s = .next t ∧ (t.launch lid).stage =
      (((s.stageTold lid).mergeAll ((s.stageTold lid).launch lid).vf).launch lid).stage + 1 := by
  refine ⟨_, ?_, passStage_stage _ lid⟩
  rw [exec_stageComplete]
  simp only [h, hn, Bool.not_true, Bool.false_eq_true, if_false]

theorem spreadShare_none (h : (s.launch lid).share = none) : s.spreadShare lid = s := by
  simp only [State.spreadShare, h]

theorem tellStage_none (h : (s.launch lid).share = none) (n : Nat) : s.tellStage lid n = s := by
  simp only [State.tellStage, h]

/-- In a gang launch every other participant has told that its teams have arrived. -/
theorem stageDone_share {g : GangShare} (hg : (s.launch lid).share = some g) (h : s.stageDone lid = true) :
    s.stageHere lid = true ∧ g.decided = true ∧ ∀ c ∈ g.parts, c ≠ g.rank → (s.launch lid).stage < g.stages.get 0 c := by
  simp only [State.stageDone, hg, Bool.and_eq_true, List.all_eq_true, decide_eq_true_eq] at h
  obtain ⟨hhere, hdec, hall⟩ := h
  exact ⟨hhere, hdec, fun c hc hne => hall c (List.mem_filter.2 ⟨hc, bne_iff_ne.2 hne⟩)⟩

/-! ## Lost launches (R385, R386) -/

theorem exec_failed (s : State) (lid : Nat) : exec (.failed lid) s =
    let s1 := if (s.launch lid).open_ then s.recover lid else s
    .next (if (s1.launch lid).spent then (s1.writeResmap lid).finishLaunch lid true else s1) := by
  have harm : exec (.failed lid) s = execFailed lid s := rfl
  rw [harm, execFailed]
  exact (apply_ite Host.Outcome.next ..).symm

theorem recover_none (h : s.affected lid = []) : s.recover lid = s := by
  simp only [State.recover, h, List.isEmpty_nil, if_true]

theorem recover_some (h : s.affected lid ≠ []) : s.recover lid =
    if (s.launch lid).flag 0 = true then
      ((s.launchTeams lid).filter fun e => e.2.resident && e.2.abortable).foldl (fun u e => u.abortTeam e.1 4) s
    else if (s.launch lid).flag 2 = true then
      ((s.launchTeams lid).filter fun e => e.2.live && e.2.phase != .queued).foldl (fun u e => u.restartTeam e.1) s
    else (s.affected lid).foldl State.failTeam s := by
  have hne : (s.affected lid).isEmpty = false := by simpa using h
  simp only [State.recover, hne, Bool.false_eq_true, if_false]

theorem exec_failed_unaffected (h : s.affected lid = []) : exec (.failed lid) s =
    .next (if (s.launch lid).spent then (s.writeResmap lid).finishLaunch lid true else s) := by
  rw [exec_failed, recover_none h]
  simp only [ite_self]

/-- What a posting leaves of a VF: its records. -/
theorem postMeter_recs (s : State) (core vf v : Nat) : ((s.postMeter core vf).vf v).recs = (s.vf v).recs := by
  have hupd (t : State) {f : Vf → Vf} (hf : ∀ x, (f x).recs = x.recs) : ((t.updVf vf f).vf v).recs = (t.vf v).recs := by
    by_cases hv : v = vf
    · rw [hv, State.vf_updVf_self, hf]
    · rw [State.vf_updVf_ne _ _ hv]
  have hreq (t : State) : (t.requestVf vf 6).vf v = t.vf v := rfl
  unfold State.postMeter
  dsimp only
  split
  · rfl
  · split
    · rw [hreq, hupd, hupd]
      · rfl
      · exact fun _ => rfl
      · exact fun _ => rfl
    · rw [hupd]
      · rfl
      · exact fun _ => rfl

theorem dropSwid_vfs (s : State) (tk : Nat) : (s.dropSwid tk).vfs = s.vfs := by
  unfold State.dropSwid
  split <;> rfl

theorem settleCmds_vfs (s : State) (tk : Nat) : (s.settleCmds tk).vfs = s.vfs := by
  unfold State.settleCmds
  dsimp only
  split <;> rfl

theorem killCounted_vfs (s : State) (tk : Nat) : (s.killCounted tk).vfs = s.vfs := by
  have hevicted : (s.killEvicted tk).vfs = s.vfs := (dropSwid_vfs ..).trans (settleCmds_vfs s tk)
  have hrepaid : (s.killRepaid tk).vfs = (s.killEvicted tk).vfs := by
    unfold State.killRepaid
    dsimp only
    split <;> rfl
  exact (State.updLaunch_vfs ..).trans (hrepaid.trans hevicted)

/-- A kill leaves the records of every VF. -/
theorem killTeam_recs (s : State) (tk v : Nat) : ((s.killTeam tk).vf v).recs = (s.vf v).recs := by
  by_cases hp : (s.team tk).phase = .pinned
  · rw [killTeam_pinned hp]
    rfl
  · obtain ⟨-, -, hvfs, -⟩ := adopt_kept ((s.killCounted tk).postMeter (s.team tk).core
      ((s.settleCmds tk).launch (lidOf tk)).vf) (clusterOf (s.team tk).core)
    rw [killTeam_eq s tk hp, State.vf, hvfs, ← State.vf, postMeter_recs, State.vf, killCounted_vfs]
    rfl

/-- The record of a team that is killed with its launch names the team. -/
theorem failTeam_rec (s : State) (tk : Nat) : ∃ f ∈ ((s.failTeam tk).vf (s.launch (lidOf tk)).vf).recs,
    fieldAt f.bytes 0 2 = codeNum .failed ∧ fieldAt f.bytes 8 8 = tk % 2 ^ 60 ∧ f.recid = s.nextRec % 2 ^ 32 := by
  obtain ⟨f, hmem, hbytes, hid⟩ := addRec_listed s (s.launch (lidOf tk)).vf
    { s.roleInfo (roleKey tk 0) false .failed 0 0 0 0 false with role := 0xFF, pc := 0 } none
  obtain ⟨hcode, -, -, -, hteam, -⟩ := recBytes_read { s.roleInfo (roleKey tk 0) false .failed 0 0 0 0 false with
    role := 0xFF, pc := 0 } (s.nextRec % 2 ^ 32) (s.launch (lidOf tk)).vf s.refTick.toNat s.free
  have hval : (RecTeam.of (teamOf (roleKey tk 0))).val s.free = tk % 2 ^ 60 := by
    rw [teamOf_roleKey (by decide)]
    rfl
  rw [← hbytes] at hcode hteam
  rw [State.failTeam, killTeam_recs]
  refine ⟨f, hmem, hcode.trans (Nat.mod_eq_of_lt (codeNum_lt _)), hteam.trans ?_, hid⟩
  exact (congrArg (· % 2 ^ 64) hval).trans (Nat.mod_eq_of_lt (lt_trans (Nat.mod_lt _ (by decide)) (by decide)))

theorem failTeam_phase {s : State} {tk : Nat} (h : (s.team tk).phase ≠ .pinned) :
    ((s.failTeam tk).team tk).phase = .killed := by
  rw [State.failTeam, killTeam_team (by rw [addRec_team]; exact h)]
  rfl

end

/-- Settles O45: a team retires as it would be killed; a launch completes with its token's add, which a fault delays. -/
theorem launchEnds : Obligations.LaunchEnds := by
  unfold Obligations.LaunchEnds
  refine fun s tk lid => ⟨fun h => ?_, teamRetire_done s tk, ⟨fun hu hr hw hn => ⟨exec_launchComplete_merged hu hr hw hn,
    fun ha => ?_⟩, exec_launchComplete_waits⟩, fun h => ?_, fun ha hd => ⟨fun x => doneAdd_ok ha hd, fun sub ia hx => ?_,
    fun pa hx => ?_⟩, ⟨exec_stageComplete_waits, exec_stageComplete_done⟩, fun h => ⟨spreadShare_none h, tellStage_none h⟩,
    fun g => stageDone_share, fun ha ho => ?_, fun hs ha => ?_, fun hs ha => ?_, failTeam_rec s tk, failTeam_phase⟩
  · have harm : exec (.teamRetire tk) s = execTeamRetire tk s := rfl
    rw [harm, execTeamRetire, h]
    rfl
  · refine ⟨_, exec_launchComplete_merged hu hr hw hn, ?_⟩
    have hdone := doneAdd_none (s := (s.spreadShare lid).merging lid) ha
    rw [hdone]
    exact finishLaunch_done _ lid
  · rw [Launch.underWay, h]
    rfl
  · rw [doneAdd_page ha hd hx]
    obtain ⟨hwait, hphase, hrec⟩ := doneFault_waits s lid (doneInfo .page sub ((s.launch lid).fld 208 8) ia)
    exact ⟨hwait, hphase, hrec⟩
  · rw [doneAdd_mcheck ha hd hx]
    obtain ⟨hwait, -, hrec⟩ := doneFault_waits s lid (doneInfo .mcheck (s.lostSub pa) ((s.launch lid).fld 208 8) pa)
    exact ⟨hwait, hrec⟩
  · rw [exec_failed, if_pos ho, recover_some ha]
  · rw [exec_failed_unaffected ha, if_pos hs]
  · rw [exec_failed_unaffected ha, hs]
    rfl

end Sys2Proof.Machine
end

section
/-! PROOFS. The scratch pager, swap-out and cyclic waits (R167, R186, R206 to R210, R216). -/

namespace Sys2Proof.Machine
open Sys2Proof

/-! ## Service of a page (R207, R210) -/

section
variable {s : State} {tk vpn : Nat} {sv : Service}

theorem execPagerServiceDone_idle (h : (s.team tk).service.get? vpn = none) (hp : s.promotes tk vpn = false) :
    execPagerServiceDone tk vpn s = .next s := by
  simp [execPagerServiceDone, h, hp]

theorem execPagerServiceDone_waits {n : Nat} (h : (s.team tk).service.get? vpn = some sv) (hw : sv.wait = some n) :
    execPagerServiceDone tk vpn s = .next s := by
  simp [execPagerServiceDone, h, hw]

/-- What the pager's access to the backing cannot pass. -/
theorem execPagerServiceDone_fails {b : BackRes} (h : (s.team tk).service.get? vpn = some sv) (hw : sv.wait = none)
    (hb : s.backNeed tk vpn = b) (hok : ∀ xs, b ≠ .ok xs) : execPagerServiceDone tk vpn s = .next (s.backFail tk vpn b) := by
  cases b <;> simp_all [execPagerServiceDone]

/-- A service that a role asked for, or a hint, of a team that is away (R167). -/
theorem execPagerServiceDone_away {xs : List Xlat} (h : (s.team tk).service.get? vpn = some sv) (hw : sv.wait = none)
    (hb : s.backNeed tk vpn = .ok xs) (hr : (s.team tk).resident = false) (hq : (sv.who.map Asker.stops).getD true = true) :
    execPagerServiceDone tk vpn s = .next ((s.updTeam tk fun t => t.endService vpn).reenter tk) := by
  simp [execPagerServiceDone, h, hw, hb, hr, hq]

theorem stops_of_not_queue {who : Option Asker} (h : ∀ rk q, who ≠ some (.queue rk q)) :
    (who.map Asker.stops).getD true = true := by
  cases who with
  | none => rfl
  | some a =>
    cases a with
    | scalar rk => rfl
    | lane rk => rfl
    | queue rk q => exact absurd rfl (h rk q)

theorem frameFor_free {f : Nat} (needLocal : Bool) (hp : ((s.team tk).page vpn).present = false)
    (hn : (s.entriesOn (s.team tk).core).length < 4096) (hf : s.freeFrame (s.team tk).core = some f) :
    s.frameFor tk vpn needLocal = .frame ⟨0, (s.team tk).core, f⟩ s := by
  simp [State.frameFor, hp, State.tableRoom, hn, State.takeFrame, hf]

/-- A page that nothing has touched makes no transfer at a stack, and its zero fill is the vault's alone. -/
theorem execPagerServiceDone_fresh {xs : List Xlat} {f : Nat} (h : (s.team tk).service.get? vpn = some sv)
    (hw : sv.wait = none) (hb : s.backNeed tk vpn = .ok xs) (hr : (s.team tk).resident = true)
    (hp : ((s.team tk).page vpn).present = false) (ht : ((s.team tk).page vpn).touched = false)
    (hn : (s.entriesOn (s.team tk).core).length < 4096) (hf : s.freeFrame (s.team tk).core = some f) :
    execPagerServiceDone tk vpn s = .next ((((s.pageIn tk vpn ⟨0, (s.team tk).core, f⟩).updTeam tk fun t =>
      t.endService vpn).chargeTeam tk (4096 * frameRate 0)).pageReady tk) := by
  have htr : s.pageTransfers tk vpn = [] := by simp [State.pageTransfers, ht]
  have hc : s.pageCost tk vpn 0 = 4096 * frameRate 0 := by simp [State.pageCost, ht]
  simp [execPagerServiceDone, h, hw, hb, hr, hp, ht, htr, State.servePage, frameFor_free _ hp hn hf, hc]

theorem pageIn_page (f : Frame) : ((s.pageIn tk vpn f).team tk).page vpn =
    { (s.team tk).page vpn with
      touched := true, present := true, kind := f.kind, busy := false, acc := true, used := false, frameCore := f.core,
      frame := f.num, orph := false,
      idx := ((((s.pageIn tk vpn f).team tk).page vpn).idx) } := by
  unfold State.pageIn
  simp [State.setPage, State.team_updTeam_self, Team.page]

end

/-! ## Swap-out (R167, R216) -/

theorem team_nextAge (s : State) (n tk : Nat) : { s with nextAge := n }.team tk = s.team tk := rfl

theorem reenter_team (s : State) (tk : Nat) : ((s.reenter tk).team tk).phase = (s.team tk).phase ∧
    ((s.reenter tk).team tk).scratch = (s.team tk).scratch := by
  unfold State.reenter
  dsimp only
  split
  · rw [team_nextAge, State.team_updTeam_self]
    exact ⟨rfl, rfl⟩
  · exact ⟨rfl, rfl⟩

theorem suspendTeam_leaves {s : State} {tk : Nat} (ph : TeamPhase) (h : ∀ rk ∈ s.rolesOf tk, (s.role rk).flight = []) :
    ((s.suspendTeam tk ph).team tk).phase = ph ∧ ((s.suspendTeam tk ph).team tk).scratch = (s.team tk).scratch := by
  have hleft := leftCore_phase s tk ph
  have hrest := resting_leftCore s tk ph h
  rw [suspendTeam_eq, (reenter_team ..).1, (reenter_team ..).2]
  generalize s.leftCore tk ph = v at hleft hrest
  obtain ⟨hphase, hscratch⟩ : _ ∧ _ := by
    have hpost := postMeter_fixed { v with free := v.free + 1 } (s.team tk).core (s.launch (lidOf tk)).vf tk
    simp only [Prod.mk.injEq] at hpost
    exact ⟨hpost.1, hpost.2.2⟩
  rw [(adopt_eq _ _).2, hphase, hscratch]
  exact ⟨hleft, hrest.scratch tk⟩

/-- Roles without words in flight are quiet by what they hold themselves. -/
theorem lxQuiet_updTeam {s : State} {tk : Nat} {f : Team → Team} (hf : ∀ rk ∈ s.rolesOf tk, (s.role rk).flight = [])
    (hr : (s.updTeam tk f).rolesOf tk = s.rolesOf tk) (hq : s.lxQuiet tk = true) : (s.updTeam tk f).lxQuiet tk = true := by
  rw [State.lxQuiet, List.all_eq_true] at hq ⊢
  intro rk hk
  rw [hr] at hk
  have hbusy : s.laneBusy rk = (s.updTeam tk f).laneBusy rk := by
    rw [State.laneBusy, State.laneBusy, State.role_updTeam, hf rk hk]
  rw [State.roleQuiet, State.role_updTeam, ← hbusy]
  exact hq rk hk

/-- The team of an old fault gets its request, and leaves at once when its roles are quiet. -/
theorem execSwapOut_leaves {s : State} {tk n : Nat} (ho : s.oldestFault tk = some n) (hn : n + 2000 ≤ s.refTick.toNat)
    (hr : (s.team tk).resident = true) (hx : (s.team tk).txOpen = false) (hp : (s.team tk).phase ≠ .pinned)
    (hs : (s.team tk).suspend = none) (hq : s.lxQuiet tk = true) (hf : ∀ rk ∈ s.rolesOf tk, (s.role rk).flight = []) :
    ∃ u, execSwapOut tk s = .next u ∧ (u.team tk).phase = .swappedOut ∧ (u.team tk).scratch = (s.team tk).scratch := by
  have hreq : s.updTeam tk (fun t => t.request 5 (s.launch (lidOf tk)).graceTicks .swappedOut true) =
      s.updTeam tk fun t => { t with suspend := some .swappedOut } := by
    rw [State.updTeam, request_suspend 5 _ .swappedOut true hr hx hp hs]
    rfl
  have hteam : ((s.updTeam tk fun t => { t with suspend := some .swappedOut }).team tk) =
      { s.team tk with suspend := some .swappedOut } := State.team_updTeam_self ..
  have hroles : (s.updTeam tk fun t => { t with suspend := some .swappedOut }).rolesOf tk = s.rolesOf tk := by
    rw [State.rolesOf, hteam]
    rfl
  have hquiet : (s.updTeam tk fun t => { t with suspend := some .swappedOut }).lxQuiet tk = true :=
    lxQuiet_updTeam hf hroles hq
  have hres : ({ s.team tk with suspend := some TeamPhase.swappedOut } : Team).resident = true := hr
  have hsettle : (s.updTeam tk fun t => { t with suspend := some .swappedOut }).settleTeam tk =
      (s.updTeam tk fun t => { t with suspend := some .swappedOut }).suspendTeam tk .swappedOut := by
    rw [State.settleTeam, hteam, hquiet]
    simp only [hres, Bool.and_self, if_true]
  obtain ⟨hph, hsc⟩ := suspendTeam_leaves (s := s.updTeam tk fun t => { t with suspend := some .swappedOut })
    (tk := tk) .swappedOut (by rw [hroles]; exact hf)
  refine ⟨_, by rw [execSwapOut, ho]; exact if_pos hn, ?_⟩
  rw [hreq, hsettle]
  exact ⟨hph, by rw [hsc, hteam]⟩

/-! ## The obligation -/

/-- Settles O36: case by case of what a service meets; SWAP_OUT is a request that a quiet team follows at once. -/
theorem pagerEvents : Obligations.PagerEvents := by
  unfold Obligations.PagerEvents
  refine fun s tk vpn sv => ⟨execPagerServiceDone_idle, fun _ => execPagerServiceDone_waits, fun h hw =>
    ⟨fun xs hb => ⟨fun hr hq => execPagerServiceDone_away h hw hb hr (stops_of_not_queue hq), fun f hr hp ht hn hf =>
      ⟨execPagerServiceDone_fresh h hw hb hr hp ht hn hf, ?_⟩⟩, fun va hb hl => ?_, fun va ia hb hl => ?_,
      fun va pa hb hl => ?_⟩, fun ho => ?_, fun n ho => ⟨fun hn => ?_, fun hn hr hx hp hs hq hf _ =>
      execSwapOut_leaves ho hn hr hx hp hs hq hf⟩, fun hc hn hr => ?_, fun hc => ?_⟩
  · rw [pageIn_page]
    exact ⟨rfl, rfl, rfl, rfl, rfl, rfl, rfl⟩
  · exact (execPagerServiceDone_fails h hw hb nofun).trans (by rw [State.backFail, hl]; rfl)
  · exact (execPagerServiceDone_fails h hw hb nofun).trans (by rw [State.backFail, hl]; rfl)
  · exact (execPagerServiceDone_fails h hw hb nofun).trans (by rw [State.backFail, hl]; rfl)
  · exact (by rw [execSwapOut, ho] : execSwapOut tk s = .next s)
  · exact (by rw [execSwapOut, ho]; exact if_neg (by omega) : execSwapOut tk s = .next s)
  · exact if_pos (by simp only [hc, hr, decide_eq_true hn, Bool.true_and, Bool.not_false])
  · exact if_neg (by simp only [hc, Bool.false_and]; decide)

end Sys2Proof.Machine
end

section
/-! PROOFS. What ends a park, and the promise of the issue slots (R153 to R161, R169, R190, R191). -/

namespace Sys2Proof.Machine
open Sys2Proof

/-! ## Wakes (R153, R156, R159, R169) -/

section
variable {s : State} {rk : Nat}

theorem execStreamWake_asleep (lane : Bool) (h : s.awake rk = false) : execStreamWake rk lane s = .next s := by
  simp [execStreamWake, h]

theorem wakeLane_marker (h : s.awake rk = true) (hf : (s.role rk).flight = []) (hm : (s.role rk).lpark = .marker) :
    s.wakeLane rk = if (s.role rk).outstanding = true then s
      else (s.updRole rk fun r => { r.atMarker s.free with lpark := .none }).leaveNear rk := by
  have hwakes : s.laneWakes rk = !(s.role rk).outstanding := by rw [State.laneWakes, hm]
  have hupd : (s.updRole rk fun r => if r.lpark = .marker then { r.atMarker s.free with lpark := .none }
      else { r with lpark := .none }) = s.updRole rk fun r => { r.atMarker s.free with lpark := .none } := by
    rw [State.updRole, if_pos hm]
    rfl
  rw [State.wakeLane, kick_idle hf]
  dsimp only
  rw [h, hwakes, hupd, Bool.true_and]
  cases (s.role rk).outstanding <;> rfl

theorem execRoleFinish_awake (h : s.awake rk = true) : execRoleFinish rk s =
    .next (if (s.role rk).spark = .exit ∧ (s.role rk).drained = true ∧ (s.role rk).finished = false
      then s.updRole rk fun r => { r with finished := true } else s) := by
  simp only [execRoleFinish, h, Bool.true_and, Bool.and_eq_true, beq_iff_eq, Bool.not_eq_true', and_assoc]
  split <;> rfl

theorem entries_held {r : Role} {w : LxWord} {b : Block} {bs : List Block} (hw : r.hold = some w) (hb : r.blocks = b :: bs)
    (hl : b.len ≤ r.lanePc + 1) : r.entries = bs.length := by
  simp [Role.entries, hw, hb, hl, b2n]

end

/-! ## Results (R96, R157) -/

theorem foldl_note_id (es : NMap Byte) (q : Pend) : (es.foldl (fun q e => q.note e.1) q).id = q.id := by
  induction es generalizing q with
  | nil => rfl
  | cons e es ih =>
    rw [List.foldl_cons, ih, Pend.note]
    split <;> rfl

section
variable {l : Lanes} {i : Nat} {p : Pend}

theorem deliverAt_ready (hp : l.pend[i]? = some p) (hr : p.ready = true) :
    l.deliverAt i = { l with pend := l.pend.eraseIdx i }.deliver p := by
  rw [Lanes.deliverAt, hp]
  exact if_pos hr

theorem deliver_pend_ids (l : Lanes) (p : Pend) : (l.deliver p).pend.map Pend.id = l.pend.map Pend.id := by
  rw [Lanes.deliver, List.map_map]
  exact List.map_congr_left fun q _ => foldl_note_id p.dest q

theorem deliver_back_last (l : Lanes) (p : Pend) : (l.deliver p).back.getLast? = some p := List.getLast?_concat

/-- A result whose bytes no other word has written gives them all their values, and no other byte. -/
theorem deliver_regs (l : Lanes) (hm : p.mixed = []) (hn : (p.dest.map Prod.fst).Nodup) :
    (∀ e ∈ p.dest, (l.deliver p).regs.get 0 e.1 = e.2) ∧
    ∀ k, k ∉ p.dest.map Prod.fst → (l.deliver p).regs.get 0 k = l.regs.get 0 k := by
  have hregs : (l.deliver p).regs = p.dest.foldl (fun m e => m.set 0 e.1 e.2) l.regs := by
    rw [Lanes.deliver, Pend.fresh, hm]
    simp
  rw [hregs]
  exact ⟨fun e he => get_foldl_set_mem 0 hn _ he, fun k hk =>
    get_foldl_set_ne 0 _ _ fun e he h => hk (List.mem_map.2 ⟨e, he, h⟩)⟩

end

/-! ## Issue slots (R161) -/

section
variable {s : State} {core dp : Nat} {lane : Bool}

theorem execStarvationIssue_none (h : ∀ rk ∈ s.offered core dp lane, (s.role rk).waited lane < 64) :
    execStarvationIssue core dp lane s = .next s := by
  have hfind : (s.offered core dp lane).find? (fun rk => decide (64 ≤ (s.role rk).waited lane)) = none :=
    List.find?_eq_none.2 fun rk hk => by simpa using h rk hk
  rw [execStarvationIssue, hfind]

theorem execStarvationIssue_first {rk : Nat} {us vs : List Nat} (ho : s.offered core dp lane = us ++ rk :: vs)
    (hus : ∀ k ∈ us, (s.role k).waited lane < 64) (hrk : 64 ≤ (s.role rk).waited lane) :
    execStarvationIssue core dp lane s =
      .next (s.updCore core fun c => { c with grant := c.grant.put (slotKey dp lane) rk }) := by
  have hfind : (s.offered core dp lane).find? (fun rk => decide (64 ≤ (s.role rk).waited lane)) = some rk := by
    have hnone : us.find? (fun k => decide (64 ≤ (s.role k).waited lane)) = none :=
      List.find?_eq_none.2 fun k hk => by simpa using hus k hk
    rw [ho, List.find?_append, hnone, Option.none_or]
    exact List.find?_cons_of_pos (by simpa using hrk)
  rw [execStarvationIssue, hfind]

end

/-! ## The obligation -/

/-- Settles O34: each event by what it waits for; a result's bytes are the fold of its writes. -/
theorem streamEvents : Obligations.StreamEvents := by
  unfold Obligations.StreamEvents
  refine ⟨fun s rk => ⟨execStreamWake_asleep, fun ha => ⟨?_, fun hf hm => ?_, execRoleFinish_awake ha⟩, fun q hq => ?_,
    fun hq => ?_, fun hh => ?_, fun w b bs => entries_held, fun hd => ?_, fun he => ?_, fun hr => ?_,
    fun i p hh hp hr => ?_, rfl, fun w hw hl => ?_, fun a w ha hw hl => ?_⟩, fun s core dp lane =>
    ⟨execStarvationIssue_none, fun rk us vs ho hus hrk => ⟨_, execStarvationIssue_first ho hus hrk, ?_, rfl, rfl⟩⟩⟩
  · exact (if_pos ha : execStreamWake rk false s = _)
  · exact (if_pos ha : execStreamWake rk true s = _).trans (congrArg _ (wakeLane_marker ha hf hm))
  · simp [State.scalarWakes, hq]
  · simp [State.scalarWakes, hq]
  · simp [Role.entries, hh, b2n]
  · simp [State.scalarWakes, hd]
  · obtain he | he := he <;> simp [State.scalarWakes, he]
  · simp [State.scalarWakes, hr]
  · refine ⟨_, if_pos hh, ?_⟩
    rw [State.role_updRole_self, deliverAt_ready hp hr]
    exact ⟨deliver_pend_ids .., deliver_back_last .., rfl, rfl, fun k hk => State.role_updRole_ne s _ hk, rfl, deliver_regs _⟩
  · refine ⟨_, rfl, ?_, rfl⟩
    rw [State.role_updRole_self]
    simp [Role.onWaits, hw, Waita.expire, hl]
  · refine ⟨_, rfl, ?_, rfl⟩
    rw [State.role_updRole_self]
    simp [Role.onWaits, ha, hw, Waita.expire, hl]
  · rw [State.core_updCore_self]
    exact NMap.get?_put_self ..

end Sys2Proof.Machine
end

section
/-! PROOFS. Migration of a page (R331 to R334). -/

namespace Sys2Proof.Machine
open Sys2Proof

section
variable {s : State} {part die idx : Nat} {ia dst : W64} {p : PageT} {m : Migration}

/-! ## The request (R331) -/

theorem execMigrate_unread {e : _} {pa : Nat}
    (h : s.tableWalk part ia.toNat false = .fault e ∨ s.tableWalk part ia.toNat false = .lost pa) :
    execMigrate part ia dst s = .next (s.migAnswer part .refused) := by
  obtain h | h := h <;> rw [execMigrate, h]

theorem execMigrate_leaf (hp : s.tableWalk part ia.toNat false = .page p)
    (hf : (List.range 16).find? (fun n => !(s.die (s.regionDie part ia.toNat)).migs.has n) = some idx) :
    execMigrate part ia dst s = .next (
      if p.size ≠ 2 ^ 28 ∧ bitOf (s.homeWord p.leafAt) 3 = false ∧ dst.toNat % p.size = 0 ∧ s.paOwned part dst.toNat = true
      then ((s.setEntry p.leafAt (s.homeWord p.leafAt + 8)).setMig (s.regionDie part ia.toNat) idx
        ⟨part, BitVec.ofNat 64 p.iaBase, BitVec.ofNat 64 p.pa, dst, 0, false, false⟩).migAnswer part .accepted
      else s.migAnswer part .refused) := by
  rw [execMigrate, hp]
  dsimp only
  rw [hf]
  dsimp only
  by_cases hok : p.size ≠ 2 ^ 28 ∧ bitOf (s.homeWord p.leafAt) 3 = false ∧ dst.toNat % p.size = 0 ∧
      s.paOwned part dst.toNat = true
  · rw [if_pos hok, if_neg]
    obtain ⟨hz, hb, hd, ho⟩ := hok
    simp only [hz, hb, hd, ho, decide_false, bne_self_eq_false, Bool.or_self, Bool.not_true, Bool.false_eq_true,
      not_false_eq_true]
  · rw [if_neg hok, if_pos]
    simp only [not_and_or, not_not, Bool.not_eq_true, Bool.not_eq_false] at hok
    simp only [Bool.or_eq_true, decide_eq_true_eq, Bool.not_eq_true', bne_iff_ne, or_assoc]
    exact hok

/-! ## Steps of a migration (R332 to R334) -/

theorem migration_absent (h : s.migAt die idx = none) : execMigrateLineStep die idx s = .next s ∧
    execMigrateCancel die idx s = .next s ∧ execMigrateResume die idx s = .next s ∧
    execMigrateReverse die idx s = .next s := by
  simp [execMigrateLineStep, execMigrateCancel, execMigrateResume, execMigrateReverse, h]

theorem migration_running (h : s.migAt die idx = some m) (hs : m.stopped = false) :
    execMigrateCancel die idx s = .next (s.fallBack die idx m) ∧ execMigrateResume die idx s = .next s ∧
    execMigrateReverse die idx s = .next s := by
  simp [execMigrateCancel, execMigrateResume, execMigrateReverse, h, hs]

theorem migration_stopped (h : s.migAt die idx = some m) (hs : m.stopped = true) :
    execMigrateCancel die idx s = .next s ∧ execMigrateLineStep die idx s = .next s ∧
    execMigrateResume die idx s = .next (s.setMig die idx { m with stopped := false, reversing := false }) ∧
    execMigrateReverse die idx s = .next (s.setMig die idx { m with stopped := false, reversing := true }) := by
  refine ⟨?_, ?_, ?_, ?_⟩
  · simp [execMigrateCancel, h, hs]
  · cases hl : s.migLeaf m <;> simp [execMigrateLineStep, h, hl, hs]
  · simp [execMigrateResume, h, hs]
  · simp [execMigrateReverse, h, hs]

theorem lineStep_busy (h : s.migAt die idx = some m) (hs : m.stopped = false) (hl : s.migLeaf m = some p)
    (hr : m.reversing = false) (hb : s.lineBusy (m.src.toNat + 64 * m.cursor) = true) :
    execMigrateLineStep die idx s = .next s := by
  simp [execMigrateLineStep, h, hl, hs, hr, hb]

theorem lineStep_moves (h : s.migAt die idx = some m) (hs : m.stopped = false) (hl : s.migLeaf m = some p)
    (hr : m.reversing = false) (hb : s.lineBusy (m.src.toNat + 64 * m.cursor) = false)
    (hblk : s.migBlocked die (m.dst.toNat + 64 * m.cursor) = false) (hd : m.cursor = 0 → s.depotHolds m = false) :
    execMigrateLineStep die idx s =
      let s1 := s.moveLine m m.cursor (m.src.toNat + 64 * m.cursor) (m.dst.toNat + 64 * m.cursor)
      let m1 : Migration := { m with cursor := m.cursor + 1 }
      .next (if m.cursor + 1 < p.size / 64 then s1.setMig die idx m1 else s1.migDone die idx m1 m.dst.toNat) := by
  have hfree : (m.cursor == 0 && s.depotHolds m) = false := by
    by_cases hc : m.cursor = 0
    · rw [hd hc, Bool.and_false]
    · rw [beq_eq_false_iff_ne.2 hc, Bool.false_and]
  simp only [execMigrateLineStep, h, hl, hs, hr, hb, hblk, hfree, Bool.or_false, Bool.false_eq_true, if_false]
  split <;> rfl

theorem getElem?_rangeFrom {lo n k : Nat} (h : k < n) : (rangeFrom lo n)[k]? = some (lo + k) := by
  rw [rangeFrom_eq_range', List.getElem?_range' h, Nat.one_mul]

/-- A line that is not lost arrives with its bytes, once its grain has been recalled. -/
theorem moveLine_bytes (i : Nat) {src at_ : Nat} (hlost : s.lostPa src = false)
    (hl : (s.die (dieOfPa src)).lost.contains (src / 64) = false) {k : Nat} (hk : k < 64) :
    (s.moveLine m i src at_).homeByte (at_ + k) =
      (s.recallGrain (grainKey (lineKey m.part (m.ia.toNat + 64 * i)))).homeByte (src + k) := by
  simp only [State.moveLine, hl, hlost, Bool.false_eq_true, if_false]
  generalize s.recallGrain (grainKey (lineKey m.part (m.ia.toNat + 64 * i))) = u
  generalize hks : rangeFrom at_ 64 = ks
  have hlen : ks.length = 64 := hks ▸ length_rangeFrom at_ 64
  have hmap := homeByte_foldl_setHome ks ((rangeFrom src 64).map u.homeByte) u
    ((List.length_map _).trans ((length_rangeFrom ..).trans hlen.symm)) (hks ▸ nodup_rangeFrom at_ 64)
  have hbyte := congrArg (fun bs : List Byte => bs[k]?) hmap
  have hat : ks[k]? = some (at_ + k) := hks ▸ getElem?_rangeFrom hk
  have hsrc : (rangeFrom src 64)[k]? = some (src + k) := getElem?_rangeFrom hk
  simp only [List.getElem?_map, hat, hsrc, Option.map_some, Option.some.injEq] at hbyte
  exact hbyte

end

/-- Settles O50: a step of a record by what the record and the line's two places allow. -/
theorem pageMigration : Obligations.PageMigration := by
  unfold Obligations.PageMigration
  exact fun s part die idx ia dst p m => ⟨fun e pa => execMigrate_unread, fun hp _ hf => execMigrate_leaf hp hf,
    migration_absent, fun h hs => ⟨(migration_running h hs).1, (migration_running h hs).2.1, (migration_running h hs).2.2,
      lineStep_busy h hs, lineStep_moves h hs⟩, migration_stopped, fun i src at_ hlost hl k => moveLine_bytes i hlost hl⟩

end Sys2Proof.Machine
end

section
/-! PROOFS. Writes of the privileged windows (R304 to R312, R336, R381, R392 to R406). -/

namespace Sys2Proof.Machine
open Sys2Proof

/-! ## The range registers (R304, R307) -/

theorem newSeg_quiet {q : Vf} (h : q.segAlt = none) : q.newSeg = (q.segV, q.segI) := by rw [Vf.newSeg, h]

theorem newSeg_busy {q : Vf} {a : SegAlt} (h : q.segAlt = some a) : q.newSeg = (a.segV, a.segI) := by rw [Vf.newSeg, h]

theorem flipSeg_quiet {q : Vf} (h : q.segAlt = none) (isI : Bool) (n : Nat) (v : W64) : q.flipSeg isI n v = q := by
  rw [Vf.flipSeg, h]

section
variable {q : Vf} {a : SegAlt} {isI : Bool} {n : Nat} {v : W64}

theorem flipSeg_to (h : q.segAlt = some a) (hv : rangeOf (a.segV, a.segI) isI n = v ∨ ((isI, n), v) ∈ a.olds) :
    q.flipSeg isI n v = { q with
      segV := (setRange (q.segV, q.segI) isI n v).1, segI := (setRange (q.segV, q.segI) isI n v).2 } := by
  rw [Vf.flipSeg, h]
  exact if_pos (hv.imp_right List.contains_iff_mem.2)

theorem flipSeg_other (h : q.segAlt = some a) (hv : rangeOf (a.segV, a.segI) isI n ≠ v) (ho : ((isI, n), v) ∉ a.olds) :
    q.flipSeg isI n v = q := by
  rw [Vf.flipSeg, h]
  exact if_neg (not_or.2 ⟨hv, fun hc => ho (List.contains_iff_mem.1 hc)⟩)

end

/-! ## Fields that a write clears (R59, R300) -/

theorem fieldOf_toNat (v : W64) (lo len : Nat) : fieldOf v.toNat lo len = (v.extractLsb' lo len).toNat := by
  rw [fieldOf, BitVec.extractLsb'_toNat, Nat.shiftRight_eq_div_pow]

theorem fieldOf_eq_zero (v : W64) (lo len : Nat) : fieldOf v.toNat lo len = 0 ↔ v.extractLsb' lo len = 0 := by
  rw [fieldOf_toNat]
  exact ⟨fun h => BitVec.eq_of_toNat_eq h, fun h => h ▸ rfl⟩

theorem vfPerfWrite_fields (old v : W64) : vfPerfWrite old v =
    (if v.extractLsb' 48 16 = 0 then old.extractLsb' 48 16 else 0) ++ (0 : BitVec 44) ++ v.extractLsb' 0 4 := by
  have hhigh : (clearFields old v [(48, 16)]).toNat / 2 ^ 48 =
      (if v.extractLsb' 48 16 = 0 then old.extractLsb' 48 16 else 0).toNat := by
    have hold := old.isLt
    simp only [clearFields, List.foldl_cons, List.foldl_nil, fieldOf_eq_zero]
    split
    · rw [BitVec.ofNat_toNat, BitVec.setWidth_eq, ← fieldOf_toNat, fieldOf]
      omega
    · rw [fieldOf, BitVec.toNat_ofNat]
      show _ = 0
      omega
  refine BitVec.eq_of_toNat_eq ?_
  rw [vfPerfWrite, hhigh, fieldOf_toNat, BitVec.toNat_append, BitVec.toNat_append, BitVec.toNat_ofNat]
  generalize (if v.extractLsb' 48 16 = 0 then old.extractLsb' 48 16 else 0) = hi
  generalize v.extractLsb' 0 4 = lo
  have hhi := hi.isLt
  have hlo := lo.isLt
  rw [← Nat.shiftLeft_add_eq_or_of_lt (by omega), ← Nat.shiftLeft_add_eq_or_of_lt (by decide), Nat.shiftLeft_eq,
    Nat.shiftLeft_eq]
  show _ = (hi.toNat * 2 ^ 44 + 0) * 2 ^ 4 + lo.toNat
  omega

theorem clearRegErr_fields (c : Core) (v : W64) : c.clearRegErr v = { c with
    mchk := if v.extractLsb' 32 16 = 0 then c.mchk else 0
    repaired := if v.extractLsb' 0 32 = 0 then c.repaired else 0 } := by
  simp only [Core.clearRegErr, fieldOf_eq_zero]

/-! ## The windows that act (R312, R336, R392, R394) -/

section
variable {s : State} {fs : BitVec 128}

theorem execAccept_refused (h : s.firmware = false ∨ s.acceptLocked = true ∨ fs &&& ~~~s.offer ≠ 0 ∨ fs.getLsbD 0 = false) :
    execAccept fs s = .next s := by
  refine if_pos ?_
  simp only [Bool.or_eq_true, Bool.not_eq_true', bne_iff_ne, or_assoc]
  exact h

theorem execAccept_taken (hf : s.firmware = true) (hl : s.acceptLocked = false) (ho : fs &&& ~~~s.offer = 0)
    (hb : fs.getLsbD 0 = true) : execAccept fs s = .next { s with accept := fs, acceptLocked := true } := by
  refine if_neg ?_
  simp [hf, hl, ho, hb]

theorem vf_xmssIndex (s : State) (n vf : Nat) : { s with xmssIndex := n }.vf vf = s.vf vf := rfl

theorem reportBody_length (s : State) (part : Nat) (nonce : BitVec 256) : (s.reportBody part nonce).length = 184 := by
  simp [State.reportBody, leBytes_length]

theorem execAttestationRequest_signs {vf : Nat} {nonce : BitVec 256} (h : s.xmssIndex < 2 ^ 20) :
    ∃ t, execAttestationRequest vf nonce s = .next t ∧ t.xmssIndex = s.xmssIndex + 1 ∧
      (t.vf vf).report = s.reportBody (s.vf vf).part nonce ++ deviceIdentity ++
        xmssSign xmssHeight deviceKey s.xmssIndex (s.reportBody (s.vf vf).part nonce) ∧
      (s.reportBody (s.vf vf).part nonce).length = 184 ∧ t.hbm = s.hbm ∧ t.roles = s.roles := by
  refine ⟨_, if_neg (Nat.not_le.2 h), rfl, ?_, reportBody_length .., rfl, rfl⟩
  rw [vf_xmssIndex, State.vf_updVf_self]

section
variable {part : Nat} {v : W64}

theorem execTranslationInvalidate_waits (h : ∃ x ∈ s.begunXlats, x.part = part ∧ x.ia / 2 ^ 28 = v.toNat / 2 ^ 28) :
    execTranslationInvalidate part v s = .next s := by
  refine if_pos (List.any_eq_true.2 ?_)
  obtain ⟨x, hx, hp, hi⟩ := h
  exact ⟨x, hx, by rw [hp, hi, beq_self_eq_true, beq_self_eq_true, Bool.and_self]⟩

theorem execTranslationInvalidate_drops (h : ∀ x ∈ s.begunXlats, x.part = part → x.ia / 2 ^ 28 ≠ v.toNat / 2 ^ 28) :
    execTranslationInvalidate part v s = .next (s.dropTlb part v.toNat) := by
  refine if_neg fun hc => ?_
  obtain ⟨x, hx, hxv⟩ := List.any_eq_true.1 hc
  rw [Bool.and_eq_true, beq_iff_eq, beq_iff_eq] at hxv
  exact h x hx hxv.1 hxv.2

theorem execLostclr_idle (h : s.paOwned part v.toNat = false ∨ v.toNat / 64 ∉ (s.die (dieOfPa v.toNat)).lost) :
    execLostclr part v s = .next s := by
  refine if_pos ?_
  rw [Bool.or_eq_true, Bool.not_eq_true', Bool.not_eq_true', List.contains_eq_mem, decide_eq_false_iff_not]
  exact h

/-- Zeroes written to a list of bytes. -/
theorem homeByte_foldl_zero (ks : List Nat) (u : State) {k : Nat} (h : k ∈ ks) :
    (ks.foldl (fun t a => t.setHome a 0) u).homeByte k = 0 := by
  induction ks generalizing u with
  | nil => cases h
  | cons a ks ih =>
    by_cases hk : k ∈ ks
    · exact ih _ hk
    · obtain rfl : k = a := (List.mem_cons.1 h).resolve_right hk
      exact (homeByte_foldl_setHome_ne ks id (fun _ => 0) _ fun e he hek => hk ((hek : e = k) ▸ he)).trans
        (State.homeByte_setHome_self ..)

/-- The line is zeroed and its entry goes; what watches it is told. -/
theorem execLostclr_zeroes (ho : s.paOwned part v.toNat = true) (hl : v.toNat / 64 ∈ (s.die (dieOfPa v.toNat)).lost) :
    ∃ t, execLostclr part v s = .next t ∧ v.toNat / 64 ∉ (t.die (dieOfPa v.toNat)).lost ∧
      (∀ i, i < 64 → t.homeByte (v.toNat / 64 * 64 + i) = 0) ∧
      (∀ a, a / 64 ≠ v.toNat / 64 → t.homeByte a = s.homeByte a) ∧ t.dirty = s.dirty := by
  have hnote (ls : List Nat) (u : State) : (ls.foldl State.noteWrite u).hbm = u.hbm ∧
      (ls.foldl State.noteWrite u).dirty = u.dirty ∧ (ls.foldl State.noteWrite u).dies = u.dies :=
    ⟨foldl_proj_eq State.hbm (by intros; rfl) _ _, foldl_proj_eq State.dirty (by intros; rfl) _ _,
      foldl_proj_eq State.dies (by intros; rfl) _ _⟩
  have hzero (ls : List Nat) (u : State) : (ls.foldl (fun t a => t.setHome a 0) u).dirty = u.dirty ∧
      (ls.foldl (fun t a => t.setHome a 0) u).dies = u.dies :=
    ⟨foldl_proj_eq State.dirty (by intros; rfl) _ _, foldl_proj_eq State.dies (by intros; rfl) _ _⟩
  refine ⟨_, if_neg ?_, ?_, fun i hi => ?_, fun a ha => ?_, ?_⟩
  · rw [ho, List.contains_eq_mem, decide_eq_true hl]
    decide
  · rw [State.die, (hnote _ _).2.2, (hzero _ _).2, ← State.die, State.die_updDie_self]
    simp
  · rw [homeByte_eq (hnote _ _).1]
    exact homeByte_foldl_zero _ _ (mem_rangeFrom.2 (by omega))
  · rw [homeByte_eq (hnote _ _).1]
    exact homeByte_foldl_setHome_ne _ id (fun _ => 0) _ fun e he hea => ha (by
      have := mem_rangeFrom.1 he
      simp only [id] at hea
      omega)
  · rw [(hnote _ _).2.1, (hzero _ _).1]
    rfl

end
end

/-! ## The obligation -/

/-- Settles O49: each register by its mask or by the fields that a write clears, each acting window by its condition. -/
theorem windowWrites : Obligations.WindowWrites := by
  unfold Obligations.WindowWrites
  refine ⟨fun s vf part core n k p g v => ⟨?_, ?_, rfl, rfl, fun q => ⟨fun h => ⟨newSeg_quiet h, fun i => flipSeg_quiet h ..⟩,
    fun a h => ⟨newSeg_busy h,
      flipSeg_to (isI := false) h, flipSeg_to (isI := true) h, flipSeg_other (isI := false) h,
      flipSeg_other (isI := true) h⟩⟩, rfl, rfl, ?_, rfl, rfl, rfl, rfl,
    rfl, ?_⟩, fun s vf part v fs nonce => ⟨execAccept_refused, execAccept_taken, rfl, rfl, rfl, rfl, rfl, rfl, rfl, rfl, rfl,
    rfl, fun h => ?_, fun h => ?_, fun image sign => ⟨fun h => ?_, fun h => ?_⟩, execTranslationInvalidate_waits,
    execTranslationInvalidate_drops, execLostclr_idle, execLostclr_zeroes⟩⟩
  · rfl
  · rfl
  · exact congrArg (fun f => Host.Outcome.next (s.updVf vf f)) (funext fun q => by rw [vfPerfWrite_fields])
  · exact congrArg (fun f => Host.Outcome.next (s.updCore core f)) (funext fun c => clearRegErr_fields c v)
  · exact if_pos h
  · exact execAttestationRequest_signs h
  · exact if_pos h
  · exact if_neg (by rw [h]; exact Bool.false_ne_true)

end Sys2Proof.Machine
end

section
/-! PROOFS. Gang launches (R387, R411 to R415). -/

namespace Sys2Proof.Machine
open Sys2Proof

/-! ## Messages and shares -/

@[simp] theorem State.gang_updGang_self (s : State) (g : Nat) (f : Gang → Gang) : (s.updGang g f).gang g = f (s.gang g) :=
  NMap.get_put_self ..

theorem gang_outbox (s : State) (o : List OutMsg) (g : Nat) : { s with outbox := o }.gang g = s.gang g := rfl

theorem sendRanks_eq (s : State) (gang : Nat) (ranks : List Nat) (m : GangMsg) :
    s.sendRanks gang ranks m = { s with outbox := s.outbox ++ ranks.map fun c => .gang gang c m } := by
  induction ranks generalizing s with
  | nil => rw [List.map_nil, List.append_nil]; rfl
  | cons c cs ih =>
    have hc : s.sendRanks gang (c :: cs) m = (s.sendGang gang c m).sendRanks gang cs m := rfl
    rw [hc, ih]
    simp [State.sendGang]

theorem share_updShare {s : State} {lid : Nat} {h : GangShare} (f : GangShare → GangShare)
    (hs : (s.launch lid).share = some h) : ((s.updShare lid f).launch lid).share = some (f h) := by
  rw [State.updShare, State.launch_updLaunch_self]
  show Option.map f (s.launch lid).share = _
  rw [hs]
  rfl

/-- What a chip tells the others of itself changes its share and the messages alone. -/
theorem tellSpread_eq {s : State} {lid : Nat} {h : GangShare} (hs : (s.launch lid).share = some h) :
    ((s.tellSpread lid h).launch lid).share = some { h with toldSpread := true } ∧
    (h.toldSpread = false → (s.tellSpread lid h).outbox =
      s.outbox ++ h.others.map fun c => .gang h.gang c .spread) := by
  unfold State.tellSpread
  by_cases ht : h.toldSpread = true
  · rw [if_pos ht, hs]
    refine ⟨?_, fun hf => absurd (ht.symm.trans hf) (by decide)⟩
    rw [← ht]
  · rw [if_neg ht, sendRanks_eq]
    exact ⟨share_updShare _ hs, fun _ => rfl⟩

theorem spreadShare_eq {s : State} {lid : Nat} {h : GangShare} (hs : (s.launch lid).share = some h) :
    s.spreadShare lid = if !h.decided || !h.started || h.fenced.isEmpty || (s.launch lid).flag 3 ||
        decide ((s.launch lid).next < (s.launch lid).ownTeams) then s
      else if h.others.all h.spread.contains then (s.tellSpread lid h).updShare lid fun g => { g with takeover := true }
      else s.tellSpread lid h := by
  rw [State.spreadShare]
  dsimp only
  rw [hs]

/-- Neither the gangs' records, nor a team, nor a context. -/
structure SharesOnly (s t : State) : Prop where
  gangs : t.gangs = s.gangs
  teams : t.teams = s.teams
  vfs : t.vfs = s.vfs

theorem spreadShare_sharesOnly (s : State) (lid : Nat) : SharesOnly s (s.spreadShare lid) := by
  have htell (h : GangShare) : SharesOnly s (s.tellSpread lid h) := by
    unfold State.tellSpread
    split
    · exact ⟨rfl, rfl, rfl⟩
    · rw [sendRanks_eq]
      exact ⟨rfl, rfl, rfl⟩
  unfold State.spreadShare
  dsimp only
  split
  · exact ⟨rfl, rfl, rfl⟩
  · next h _ =>
    split
    · exact ⟨rfl, rfl, rfl⟩
    · split
      · exact ⟨(htell h).gangs, (htell h).teams, (htell h).vfs⟩
      · exact htell h

theorem shareDecided_sharesOnly (s : State) (lid : Nat) (fenced parts : List Nat) :
    SharesOnly s (s.shareDecided lid fenced parts) :=
  have h := spreadShare_sharesOnly (s.updShare lid fun h => { h with fenced := fenced, parts := parts, decided := true }) lid
  ⟨h.gangs, h.teams, h.vfs⟩

/-! ## ARM and its answers (R411, R413) -/

section
variable {s : State} {vf gang rank code : Nat} {grid : Nat × Nat × Nat} {a : W64}

theorem execGangLaunchMessage_unread (h : s.gangDesc vf a.toNat = none) :
    execGangLaunchMessage vf a s = .next (s.gangAnswer vf 0 1) := by
  rw [execGangLaunchMessage, h]

/-- The coordinator's share is armed, and every other chip is sent ARM for its own record. -/
theorem execGangLaunchMessage_arms {d : GangDesc} (h : s.gangDesc vf a.toNat = some d) :
    let r := s.armShare vf (d.chips.headD (0, 0)).1 s.gangs.length 0 d.nchip
    ∃ t, execGangLaunchMessage vf a s = .next t ∧ t.launches = r.2.launches ∧
      (t.gang s.gangs.length).phase = .arming ∧ (t.gang s.gangs.length).answers = [(0, r.1)] ∧
      (t.gang s.gangs.length).nchip = d.nchip ∧ t.outbox = r.2.outbox ++ (List.range d.nchip).tail.map fun c =>
        .gang s.gangs.length c (.arm (BitVec.ofNat 64 (d.chips.getD c (0, 0)).1)) := by
  have hsend (m : Nat → GangMsg) (cs : List Nat) (u : State) : cs.foldl (fun t c => t.sendGang s.gangs.length c (m c)) u =
      { u with outbox := u.outbox ++ cs.map fun c => .gang s.gangs.length c (m c) } := by
    induction cs generalizing u with
    | nil => rw [List.map_nil, List.append_nil]; rfl
    | cons c cs ih =>
      rw [List.foldl_cons, ih]
      simp [State.sendGang]
  rw [execGangLaunchMessage, h]
  dsimp only
  rw [hsend fun c => .arm (BitVec.ofNat 64 (d.chips.getD c (0, 0)).1)]
  exact ⟨_, rfl, rfl, by rw [gang_outbox, State.gang_updGang_self]; rfl, by rw [gang_outbox, State.gang_updGang_self],
    by rw [gang_outbox, State.gang_updGang_self], rfl⟩

theorem execArmok_late (h : (s.gang gang).phase ≠ .arming) : execArmok gang rank code grid s = .next s :=
  if_pos (.inl h)

theorem execArmok_answers (hp : (s.gang gang).phase = .arming) (hr : rank < (s.gang gang).nchip)
    (ha : (s.gang gang).answers.has rank = false) : execArmok gang rank code grid s =
      .next ((s.updGang gang fun g => { g with answers := g.answers.put rank (code, grid) }).decideGang gang) := by
  refine if_neg ?_
  rw [hp, ha]
  simp [hr]

theorem nchip_answered (s : State) (gang rank code : Nat) (grid : Nat × Nat × Nat) :
    ((s.updGang gang fun g => { g with answers := g.answers.put rank (code, grid) }).gang gang).nchip =
      (s.gang gang).nchip := by
  rw [State.gang_updGang_self]

theorem decideGang_waits (h : (s.gang gang).answers.length < (s.gang gang).nchip) : s.decideGang gang = s := if_pos h

theorem decideGang_decides (h : (s.gang gang).nchip ≤ (s.gang gang).answers.length) : s.decideGang gang =
    if (s.gang gang).refusal = 0 then s.goGang gang else s.refuseGang gang (s.gang gang).refusal := by
  rw [State.decideGang, if_neg (Nat.not_lt.2 h), ite_not]

end

/-! ## GO, GOACK and the window (R413, R414) -/

section
variable {s : State} {gang rank lid : Nat} {h : GangShare}

theorem execGo_none (hs : s.shareOf gang false = none) : execGo gang s = .next s := by rw [execGo, hs]

theorem execFenceKill_none (hs : s.shareOf gang false = none) : execFenceKill gang s = .next s := by
  rw [execFenceKill, hs]

theorem execGo_again (hs : s.shareOf gang false = some lid) (hl : (s.launch lid).share = some h) (hst : h.started = true) :
    execGo gang s = .next s := by
  rw [execGo, hs]
  dsimp only
  rw [hl]
  exact if_pos hst

theorem execGo_starts (hs : s.shareOf gang false = some lid) (hl : (s.launch lid).share = some h)
    (hst : h.started = false) : ∃ t, execGo gang s = .next t ∧
      (t.launch lid).share = some { h with started := true } ∧ t.outbox = s.outbox ++ [.gang gang h.rank .goack] ∧
      t.teams = s.teams ∧ t.hbm = s.hbm := by
  have hstart : s.startShare gang false = s.updShare lid fun g => { g with started := true } := by
    rw [State.startShare, hs]
  rw [execGo, hs]
  dsimp only
  rw [hl, hstart]
  dsimp only
  rw [if_neg (by rw [hst]; decide)]
  exact ⟨_, rfl, share_updShare _ hl, rfl, rfl, rfl⟩

theorem execFenceKill_fails (hs : s.shareOf gang false = some lid) :
    ∃ t, execFenceKill gang s = .next t ∧ (t.launch lid).phase = .failed := by
  rw [execFenceKill, hs]
  exact ⟨_, rfl, by rw [State.launch_updLaunch_self]⟩

/-- The last GOACK makes the gang run; what its share then does is not the gang's record. -/
theorem gangComplete_gang (s : State) (gang : Nat) :
    (s.gangComplete gang).gang gang = { s.gang gang with phase := .running, window := none } := by
  have hruns : ((s.gangRuns gang).sendRanks gang (List.range (s.gang gang).nchip).tail (.fence [] true)).gang gang =
      { s.gang gang with phase := .running, window := none } := by
    rw [sendRanks_eq, gang_outbox, State.gangRuns, State.gangAnswer, gang_outbox, State.gang_updGang_self]
  unfold State.gangComplete
  dsimp only
  split
  · rw [State.gang, (shareDecided_sharesOnly ..).gangs]
    exact hruns
  · exact hruns

theorem execGoack_counts (hp : (s.gang gang).phase = .going) (hw : (s.gang gang).window ≠ some 0)
    (hr : rank < (s.gang gang).nchip) (ha : rank ∉ (s.gang gang).acks) : ∃ t, execGoack gang rank s = .next t ∧
      (t.gang gang).acks = (s.gang gang).acks ++ [rank] ∧
      (t.gang gang).phase = if (s.gang gang).acks.length + 1 = (s.gang gang).nchip then .running else .going := by
  have hgang : (s.updGang gang fun g => { g with acks := g.acks ++ [rank] }).gang gang =
      { s.gang gang with acks := (s.gang gang).acks ++ [rank] } := State.gang_updGang_self ..
  refine ⟨_, if_neg ?_, ?_⟩
  · rw [List.contains_eq_mem, decide_eq_true_eq]
    simp only [hp, not_or, ne_eq, not_true_eq_false, not_false_eq_true, Nat.not_le, true_and]
    exact ⟨hw, hr, ha⟩
  · rw [hgang, List.length_append, List.length_singleton]
    split
    · rw [gangComplete_gang, hgang]
      exact ⟨rfl, rfl⟩
    · rw [hgang]
      exact ⟨rfl, hp⟩

theorem execGoack_late (h : (s.gang gang).phase ≠ .going ∨ (s.gang gang).window = some 0) :
    execGoack gang rank s = .next s := if_pos (h.imp_right .inl)

theorem execGoWindowExpire_fences (hp : (s.gang gang).phase = .going) (hw : (s.gang gang).window = some 0) :
    execGoWindowExpire gang s = .next (if (s.gang gang).minchip ≤ (s.gang gang).present.length
      then (s.fenceGang gang).carryOn gang else (s.fenceGang gang).failGang gang) :=
  if_neg (by simp only [hp, hw, ne_eq, not_true_eq_false, or_self, not_false_eq_true])

end

/-! ## A chip that hears of a fence (R414, R415) -/

/-- A share once some participants are fenced. -/
def GangShare.without (h : GangShare) (ranks : List Nat) : GangShare :=
  { h with fenced := ranks, parts := (List.range h.nchip).filter fun c => !ranks.contains c, decided := true }

section
variable {s : State} {gang lid : Nat} {h : GangShare} (hs : s.shareOf gang false = some lid)
  (hl : (s.launch lid).share = some h) (ranks peers : List Nat)
include hs hl

theorem fenceShare_eq : s.fenceShare gang ranks peers true = (s.fencePeers (s.launch lid).vf peers).shareDecided lid ranks
    ((List.range h.nchip).filter fun c => !ranks.contains c) := by
  rw [State.fenceShare, hs]
  dsimp only
  rw [hl]
  rfl

theorem fenceShare_fenced : ((s.fenceShare gang ranks peers true).vf (s.launch lid).vf).fenced =
    (s.vf (s.launch lid).vf).fenced ++ peers ∧ (s.fenceShare gang ranks peers true).teams = s.teams := by
  rw [fenceShare_eq hs hl]
  have hkeep := shareDecided_sharesOnly (s.fencePeers (s.launch lid).vf peers) lid ranks
    ((List.range h.nchip).filter fun c => !ranks.contains c)
  refine ⟨?_, hkeep.teams⟩
  rw [State.vf, hkeep.vfs, ← State.vf, State.fencePeers]
  rw [State.vf_updVf_self, State.vf_updVf_self]

/-- The share as the fence leaves it, before the chip has told what it has dispatched. -/
theorem fenceShare_spread : ∃ u : State, s.fenceShare gang ranks peers true = u.spreadShare lid ∧
    (u.launch lid) = { s.launch lid with share := some (h.without ranks) } ∧ u.outbox = s.outbox := by
  refine ⟨_, fenceShare_eq hs hl ranks peers, ?_, rfl⟩
  rw [State.updShare, State.launch_updLaunch_self]
  have hlaunch : (s.fencePeers (s.launch lid).vf peers).launch lid = s.launch lid := rfl
  rw [hlaunch, hl]
  rfl

theorem fenceShare_waits (hw : h.started = false ∨ ranks = [] ∨ (s.launch lid).flag 3 = true ∨
    (s.launch lid).next < (s.launch lid).ownTeams) :
    ((s.fenceShare gang ranks peers true).launch lid).share = some (h.without ranks) := by
  obtain ⟨u, hu, hul, -⟩ := fenceShare_spread hs hl ranks peers
  have hown : (u.launch lid).ownTeams = (s.launch lid).ownTeams := by
    rw [hul]
    simp only [Launch.ownTeams, Launch.chips, hl]
    rfl
  have hflag : (u.launch lid).flag 3 = (s.launch lid).flag 3 := by rw [hul]; rfl
  have hnext : (u.launch lid).next = (s.launch lid).next := by rw [hul]
  have hsh : (u.launch lid).share = some (h.without ranks) := by rw [hul]
  rw [hu, spreadShare_eq hsh, if_pos, hsh]
  rw [hown, hflag, hnext]
  simp only [GangShare.without, Bool.or_eq_true, Bool.not_eq_true', decide_eq_true_eq, List.isEmpty_iff, or_assoc]
  exact .inr hw

theorem fenceShare_tells (hst : h.started = true) (hr : ranks ≠ []) (hf : (s.launch lid).flag 3 = false)
    (hn : (s.launch lid).ownTeams ≤ (s.launch lid).next) :
    ((s.fenceShare gang ranks peers true).launch lid).share = some { h.without ranks with
      toldSpread := true
      takeover := (h.without ranks).takeover || (h.without ranks).others.all (h.without ranks).spread.contains } ∧
    ((h.without ranks).toldSpread = false → (s.fenceShare gang ranks peers true).outbox =
      s.outbox ++ (h.without ranks).others.map fun c => .gang h.gang c .spread) := by
  obtain ⟨u, hu, hul, huo⟩ := fenceShare_spread hs hl ranks peers
  have hown : (u.launch lid).ownTeams = (s.launch lid).ownTeams := by
    rw [hul]
    simp only [Launch.ownTeams, Launch.chips, hl]
    rfl
  have hflag : (u.launch lid).flag 3 = (s.launch lid).flag 3 := by rw [hul]; rfl
  have hnext : (u.launch lid).next = (s.launch lid).next := by rw [hul]
  have hsh : (u.launch lid).share = some (h.without ranks) := by rw [hul]
  rw [hu, spreadShare_eq hsh, if_neg, ← huo]
  · obtain ⟨htold, hout⟩ := tellSpread_eq hsh
    split
    · next hall =>
      rw [hall, Bool.or_true]
      exact ⟨share_updShare _ htold, hout⟩
    · next hall =>
      rw [Bool.eq_false_of_not_eq_true hall, Bool.or_false]
      exact ⟨htold, hout⟩
  · rw [hown, hflag, hnext]
    simp only [GangShare.without, hst, hf, Bool.not_true, Bool.or_self, Bool.false_or, Bool.or_false, Bool.or_eq_true,
      decide_eq_true_eq, List.isEmpty_iff, not_or, Nat.not_lt]
    exact ⟨hr, hn⟩

/-- A stage that another chip has reached. -/
theorem peerShare_stage (rank n : Nat) : ∃ k, ((s.peerShare gang false rank (some n)).launch lid).share = some k ∧
    k.stages.get 0 rank = Nat.max (h.stages.get 0 rank) (n + 1) ∧ ∀ c, c ≠ rank → k.stages.get 0 c = h.stages.get 0 c := by
  have hpeer : s.peerShare gang false rank (some n) = s.updShare lid fun g =>
      { g with stages := g.stages.put rank (Nat.max (g.stages.get 0 rank) (n + 1)) } := by
    rw [State.peerShare, hs]
  rw [hpeer]
  exact ⟨_, share_updShare _ hl, NMap.get_put_self .., fun c hc => NMap.get_put_ne _ _ _ hc⟩

end

/-! ## The obligation -/

/-- Settles O51: each message by the gang's phase or the share that it names; a share's own teams do not depend on who is
left, so the fence and what it tells can be taken one after the other. -/
theorem gangEvents : Obligations.GangEvents := by
  unfold Obligations.GangEvents
  refine fun s vf gang rank nchip code grid a => ⟨execGangLaunchMessage_unread, fun d => execGangLaunchMessage_arms, rfl,
    execArmok_late, fun hp hr ha => ⟨fun hn => ?_, fun hn => ?_⟩, fun hs => ⟨execGo_none hs, execFenceKill_none hs⟩,
    fun lid h hs hl => ⟨execGo_again hs hl, execGo_starts hs hl⟩, fun lid => execFenceKill_fails, execGoack_counts,
    execGoack_late, fun h => if_pos h, execGoWindowExpire_fences, fun lid h ranks peers hs hl =>
      ⟨(fenceShare_fenced hs hl ranks peers).1, (fenceShare_fenced hs hl ranks peers).2, fenceShare_waits hs hl ranks peers,
        fenceShare_tells hs hl ranks peers⟩, fun lid h n hs hl => peerShare_stage hs hl rank n⟩
  · exact (execArmok_answers hp hr ha).trans (congrArg _ (decideGang_waits (by rw [nchip_answered]; exact hn)))
  · exact (execArmok_answers hp hr ha).trans (congrArg _ (decideGang_decides (by rw [nchip_answered]; exact hn)))

end Sys2Proof.Machine
end

section
/-! PROOFS. What the scale-out engine sends and arms (R399 to R406, R410). -/

namespace Sys2Proof.Machine
open Sys2Proof

/-! ## What a change of a command leaves -/

section
variable (s : State) (id q : Nat) (f : Cmd → Cmd)

theorem updCmd_kept : (s.updCmd id q f).vfs = s.vfs ∧ (s.updCmd id q f).feps = s.feps ∧ (s.updCmd id q f).outbox = s.outbox ∧
    (s.updCmd id q f).hbm = s.hbm ∧ (s.updCmd id q f).teams = s.teams ∧ (s.updCmd id q f).launches = s.launches ∧
    (s.updCmd id q f).nextPost = s.nextPost := by
  unfold State.updCmd
  split <;> exact ⟨rfl, rfl, rfl, rfl, rfl, rfl, rfl⟩

theorem updCmd_firing : ((s.updCmd id q f).fired.get Fired.empty id).vf = (s.fired.get Fired.empty id).vf ∧
    ((s.updCmd id q f).fired.get Fired.empty id).rk = (s.fired.get Fired.empty id).rk := by
  unfold State.updCmd
  split
  · rw [NMap.get_eq_getD, NMap.get_eq_getD, get?_map_fired]
    cases s.fired.get? id <;> exact ⟨rfl, rfl⟩
  · exact ⟨rfl, rfl⟩

theorem updCmd_vf (v : Nat) : (s.updCmd id q f).vf v = s.vf v := by
  rw [State.vf, (updCmd_kept s id q f).1]
  rfl

theorem updCmd_cmdVf : (s.updCmd id q f).cmdVf id = s.cmdVf id := by
  by_cases h : id < firstRole
  · rw [State.cmdVf, if_pos h, State.cmdVf, if_pos h, (updCmd_firing s id q f).1]
  · rw [State.updCmd, if_neg h]
    rfl

end

/-! ## The frame of a command (R272, R402, R403) -/

section
variable {s : State} {id : Nat} {c : Cmd} {r : RemTail}

theorem soOp_ready (hcur : s.cur = .engine id 4) (hc : s.cmdOf id 4 = some c) (hr : c.result = none) (hs : c.stall = none)
    (k : Nat → Cmd → Res) : soOp s k = k id c := by
  simp only [soOp, engineOp, hcur, hc, hr, hs, Option.isSome_none, Bool.or_self, Bool.false_eq_true, if_false, ne_eq,
    not_true_eq_false]

theorem soRun_starts (hr : c.reply = none) (hs : c.sent = none) (i : Instr) (start : State → Res) :
    s.soRun id c i start = start s := by
  simp only [State.soRun, hr, hs, Option.isSome_none, Bool.false_eq_true, if_false]

theorem soStart_goes (hb : c.prog.begun = false) (hw : c.waiting = false)
    (hp : peerOk ((s.vf (s.cmdVf id)).peers.get 0 r.peer) = true) (k : State → Res) : s.soStart id c r k = k s := by
  simp only [State.soStart, hb, hp, Bool.false_eq_true, if_false, if_true, hw, Bool.not_false]
  cases r.wt <;> rfl

theorem soStart_lost (hb : c.prog.begun = false) (hw : c.waiting = false)
    (hp : peerOk ((s.vf (s.cmdVf id)).peers.get 0 r.peer) = false) (k : State → Res) :
    s.soStart id c r k = .next (s.soEnd id 16 0) := by
  simp only [State.soStart, hb, hp, Bool.false_eq_true, if_false, if_true, hw, Bool.not_false]
  cases r.wt <;> rfl

theorem prog_of_cmd (hc : s.cmdOf id 4 = some c) : s.prog id 4 = c.prog := by
  rw [State.prog, hc]
  rfl

theorem soBegin_illegal {as : List Acc} (hb : (s.prog id 4).begun = false) (h : as.all (s.accLegal (s.actor id)) = false)
    (k : State → Res) : s.soBegin id as k = .next (s.soEnd id 3 0) := by
  simp only [State.soBegin, hb, h, Bool.false_eq_true, if_false]

theorem soBegin_legal {as : List Acc} (hb : (s.prog id 4).begun = false) (h : as.all (s.accLegal (s.actor id)) = true)
    (k : State → Res) : s.soBegin id as k = k (s.updProg id 4 fun g => { g with begun := true }) := by
  simp only [State.soBegin, hb, h, Bool.false_eq_true, if_false, if_true]

/-- A command that is ready comes to its own part. -/
theorem SoReady.starts (h : SoReady s id c r) (i : Instr) (k : Nat → State → Res) :
    (soOp s fun id c => s.soRun id c i fun s => s.soStart id c r (k id)) = k id s := by
  rw [soOp_ready h.cur h.cmd h.result h.stall, soRun_starts h.reply h.sent,
    soStart_goes ((prog_of_cmd h.cmd) ▸ h.fresh) h.token h.peer]

/-- A command whose peer is not valid ends with PEERDOWN before anything is read. -/
theorem soOp_lost (hcur : s.cur = .engine id 4) (hc : s.cmdOf id 4 = some c) (hr : c.result = none) (hs : c.stall = none)
    (hre : c.reply = none) (hse : c.sent = none) (hb : c.prog.begun = false) (hw : c.waiting = false)
    (hp : peerOk ((s.vf (s.cmdVf id)).peers.get 0 r.peer) = false) {i : Instr} {k : Nat → State → Res} :
    (soOp s fun id c => s.soRun id c i fun s => s.soStart id c r (k id)) = .next (s.soEnd id 16 0) := by
  rw [soOp_ready hcur hc hr hs, soRun_starts hre hse, soStart_lost hb hw hp]

/-! ## The commands -/

theorem rsig_aligned {x : RsigCmd} (ha : x.raddr.toNat % 8 = 0) : execRsig x s =
    soOp s fun id c => s.soRun id c (.rsig x) fun s => s.soStart id c x.tail fun s =>
      .next (s.sendAll id 1 (.rsig x) 0 []) := by
  simp only [execRsig, ha, ne_eq, not_true_eq_false, if_false]

theorem rwr_illegal {x : RwrCmd} (h : SoReady s id c x.tail)
    (hl : (localAccs x.lscr false x.laddr.toNat x.len).all (s.accLegal (s.actor id)) = false) :
    execRwr x s = .next (s.soEnd id 3 0) := by
  rw [execRwr, h.starts, soBegin_illegal h.fresh hl]

theorem rrd_illegal {x : RrdCmd} (h : SoReady s id c x.tail)
    (hl : (localAccs x.lscr true x.laddr.toNat x.len).all (s.accLegal (s.actor id)) = false) :
    execRrd x s = .next (s.soEnd id 3 0) := by
  rw [execRrd, h.starts, soBegin_illegal h.fresh hl]

theorem rrd_requests {x : RrdCmd} (h : SoReady s id c x.tail)
    (hl : (localAccs x.lscr true x.laddr.toNat x.len).all (s.accLegal (s.actor id)) = true) :
    execRrd x s = .next ((s.updProg id 4 fun g => { g with begun := true }).sendAll id
      (blocksOf x.raddr.toNat x.len).length (.rrd x) x.raddr.toNat []) := by
  rw [execRrd, h.starts, soBegin_legal h.fresh hl]

theorem rwr_reads {x : RwrCmd} {u : State} (h : SoReady s id c x.tail)
    (hl : (localAccs x.lscr false x.laddr.toNat x.len).all (s.accLegal (s.actor id)) = true) (hp : s.pace = none)
    (hf : c.prog = .fresh)
    (hrun : CourseRuns (s.updProg id 4 fun g => { g with begun := true }) id 4 (rwrCourse x) (fun _ _ _ => none) u) :
    execRwr x s = .next (u.sendAll id (blocksOf x.raddr.toNat x.len).length (.rwr x) x.raddr.toNat
      (u.prog id 4).got.flatten) := by
  have hat : EngAt s id 4 .fresh := ⟨by rw [h.cmd, Option.map_some, hf], hp⟩
  obtain ⟨hok, hgo, -⟩ := courseRuns_reads (hat.updProg fun g => { g with begun := true }) ⟨rfl, rfl, rfl, rfl, rfl⟩
    (fun _ h => by cases h) hrun
  rw [execRwr, h.starts (.rwr x), soBegin_legal h.fresh hl,
    runCourse_runs (hat.updProg fun g => { g with begun := true }) ⟨rfl, rfl, rfl, rfl, rfl⟩ hrun hok]
  simp only [hgo.bad, Bool.false_eq_true, if_false]

theorem rsig_sends {x : RsigCmd} (h : SoReady s id c x.tail) : execRsig x s =
    .next (if x.raddr.toNat % 8 = 0 then s.sendAll id 1 (.rsig x) 0 [] else s.soEnd id 4 0) := by
  by_cases ha : x.raddr.toNat % 8 = 0
  · rw [rsig_aligned ha, h.starts (.rsig x) fun id s => .next (s.sendAll id 1 (.rsig x) 0 []), if_pos ha]
  · rw [execRsig, soOp_ready h.cur h.cmd h.result h.stall, soRun_starts h.reply h.sent, if_pos ha, if_neg ha]

/-- A role's command that ends keeps its result; its context, the posts' numbers and memory stay. -/
theorem cmdEnd_role {rk q : Nat} (hr : firstRole ≤ rk) (hc : (s.engQ rk q).run = some c) (st n : Nat) :
    (s.cmdEnd rk q st n).engQ rk q =
      { s.engQ rk q with run := some { c with result := some (st, n), prog := c.prog.released } } ∧
    (s.cmdEnd rk q st n).vfs = s.vfs ∧ (s.cmdEnd rk q st n).nextPost = s.nextPost ∧ (s.cmdEnd rk q st n).hbm = s.hbm := by
  obtain ⟨hroles, hvfs, hnext, hhbm⟩ : (s.freeEntries rk q).roles = s.roles ∧ (s.freeEntries rk q).vfs = s.vfs ∧
      (s.freeEntries rk q).nextPost = s.nextPost ∧ (s.freeEntries rk q).hbm = s.hbm := by
    unfold State.freeEntries
    dsimp only
    split <;> exact ⟨rfl, rfl, rfl, rfl⟩
  have hend : s.cmdEnd rk q st n = { (s.freeEntries rk q).updCmd rk q (fun c =>
      { c with result := some (st, n), prog := c.prog.released }) with free := s.free + 1 } := if_neg (Nat.not_lt.2 hr)
  generalize s.freeEntries rk q = u at hroles hvfs hnext hhbm hend
  have heng : u.engQ rk q = s.engQ rk q := by rw [State.engQ, State.role, hroles]; rfl
  have hrun := engQ_updCmd (s := u) (q := q) hr fun c => { c with result := some (st, n), prog := c.prog.released }
  obtain ⟨hv, -, -, hb, -, -, hn⟩ := updCmd_kept u rk q fun c => { c with result := some (st, n), prog := c.prog.released }
  rw [heng, hc] at hrun
  rw [hend]
  exact ⟨hrun, hv.trans hvfs, hn.trans hnext, hb.trans hhbm⟩

theorem execPost_ready {x : PostCmd} (h : EngineReady s id 4 c) (hb : c.prog.begun = false) : execPost x s =
    if 4096 ≤ (s.vf (s.vfOf id)).posts.length then .next (s.cmdEnd id 4 17 0)
    else .next ((s.armPost id x).soFinish id x.tail.ct (s.nextPost % 2 ^ 40)) := by
  rw [execPost, soOp_ready h.cur ((cmdOf_role h.role).trans h.run) h.result h.stall, if_neg (Nat.not_lt.2 h.role),
    cmdWait_ready h]
  simp only [hb, Bool.false_eq_true, if_false]

theorem vf_nextPost (s : State) (n v : Nat) : { s with nextPost := n }.vf v = s.vf v := rfl

/-- The post joins those of its context, and takes its number. -/
def State.listPost (s : State) (id : Nat) (x : PostCmd) : State :=
  { s.updVf (s.vfOf id) fun v => { v with posts := v.posts ++
      [⟨BitVec.ofNat 64 (s.nextPost % 2 ^ 40), id, x.mtag, x.count, 0, x.caddr, x.tail.ev⟩] } with
    nextPost := s.nextPost + 1 }

theorem listPost_posts (s : State) (id : Nat) (x : PostCmd) : ((s.listPost id x).vf (s.vfOf id)).posts =
    (s.vf (s.vfOf id)).posts ++ [⟨BitVec.ofNat 64 (s.nextPost % 2 ^ 40), id, x.mtag, x.count, 0, x.caddr, x.tail.ev⟩] := by
  rw [State.listPost, vf_nextPost, State.vf_updVf_self]

/-- A post whose tag has not arrived is armed, and its command keeps the handle. -/
theorem armPost_waits {x : PostCmd} (hm : x.mtag ∉ (s.vf (s.vfOf id)).unexpected) : s.armPost id x =
    (s.listPost id x).updCmd id 4 fun c =>
        { c with msg := s.nextPost % 2 ^ 40, prog := { c.prog with begun := true } } := by
  refine if_neg ?_
  rw [updCmd_vf, vf_nextPost, State.vf_updVf_self, List.contains_eq_mem, decide_eq_true_eq]
  exact hm

theorem post_armed {x : PostCmd} (h : EngineReady s id 4 c) (hb : c.prog.begun = false)
    (hn : (s.vf (s.vfOf id)).posts.length < 4096) (hct : x.tail.ct = none) (hm : x.mtag ∉ (s.vf (s.vfOf id)).unexpected) :
    ∃ t k, execPost x s = .next t ∧ (t.vf (s.vfOf id)).posts = (s.vf (s.vfOf id)).posts ++
        [⟨BitVec.ofNat 64 (s.nextPost % 2 ^ 40), id, x.mtag, x.count, 0, x.caddr, x.tail.ev⟩] ∧
      (t.engQ id 4).run = some k ∧ k.result = some (0, (BitVec.ofNat 64 (s.nextPost % 2 ^ 40)).toNat) ∧ k.instr = c.instr ∧
      k.tag = c.tag ∧ k.ev = c.ev ∧ t.nextPost = s.nextPost + 1 ∧ t.hbm = s.hbm := by
  have hexec : execPost x s = .next ((s.armPost id x).cmdEnd id 4 0 (s.nextPost % 2 ^ 40)) := by
    rw [execPost_ready h hb, if_neg (Nat.not_le.2 hn), hct]
    rfl
  have harm := armPost_waits (x := x) hm
  have hposts := listPost_posts s id x
  generalize hw : s.listPost id x = w at harm hposts
  have heng := congrArg EngQ.run (engQ_updCmd (s := w) (q := 4) h.role fun c =>
    { c with msg := s.nextPost % 2 ^ 40, prog := { c.prog with begun := true } })
  have hwe : (w.engQ id 4).run = some c := by rw [← hw]; exact h.run
  obtain ⟨hv, -, -, hb, -, -, hn⟩ := updCmd_kept w id 4 fun c =>
    { c with msg := s.nextPost % 2 ^ 40, prog := { c.prog with begun := true } }
  rw [hwe, Option.map_some, ← harm] at heng
  rw [← harm] at hv hb hn
  obtain ⟨hrun, hvfs, hnext, hhbm⟩ := cmdEnd_role h.role heng 0 (s.nextPost % 2 ^ 40)
  refine ⟨_, _, hexec, ?_, congrArg EngQ.run hrun, ?_, rfl, rfl, rfl, ?_, ?_⟩
  · rw [State.vf, hvfs, hv, ← State.vf, hposts]
  · have hlt : s.nextPost % 2 ^ 40 < 2 ^ 64 := lt_of_lt_of_le (Nat.mod_lt _ (by decide)) (by decide)
    rw [BitVec.toNat_ofNat, Nat.mod_eq_of_lt hlt]
  · rw [hnext, hn, ← hw, State.listPost]
  · rw [hhbm, hb, ← hw]
    rfl

/-- The command is sent: it keeps its payload, and takes a message number. -/
def State.markSent (s : State) (id : Nat) (bs : List Byte) : State :=
  { s.updCmd id 4 (fun c => { c with sent := some s.refTick.toNat, payload := bs, msg := s.nextPost }) with
    nextPost := s.nextPost + 1 }

theorem sendAll_eq (s : State) (id n : Nat) (i : Instr) (raddr : Nat) (bs : List Byte) : s.sendAll id n i raddr bs =
    if s.peerFenced (s.cmdVf id) (((s.markSent id bs).cmdOf id 4).getD Cmd.empty).peer then s.markSent id bs
    else { (s.markSent id bs).soCharge id bs.length with
      outbox := (s.markSent id bs).outbox ++ (List.range n).map fun k =>
        (s.markSent id bs).segOut id k (((s.markSent id bs).cmdOf id 4).getD Cmd.empty) i (segBytes raddr bs k) } := rfl

theorem markSent_cmd (hc : s.cmdOf id 4 = some c) (bs : List Byte) : (s.markSent id bs).cmdOf id 4 =
    some { c with sent := some s.refTick.toNat, payload := bs, msg := s.nextPost } :=
  (cmdOf_updCmd (s := s) (rk := id) (q := 4) _).trans (by rw [hc]; rfl)

theorem markSent_kept (s : State) (id : Nat) (bs : List Byte) : (s.markSent id bs).outbox = s.outbox ∧
    (s.markSent id bs).feps = s.feps ∧ (s.markSent id bs).cmdVf id = s.cmdVf id ∧ ∀ v, (s.markSent id bs).vf v = s.vf v := by
  obtain ⟨-, hfeps, hout, -⟩ := updCmd_kept s id 4 fun c =>
    { c with sent := some s.refTick.toNat, payload := bs, msg := s.nextPost }
  exact ⟨hout, hfeps, updCmd_cmdVf s id 4 _, updCmd_vf s id 4 _⟩

/-- The segments of a command go to a peer that is not fenced. -/
theorem sendAll_outbox (hc : s.cmdOf id 4 = some c) (n : Nat) (i : Instr) (raddr : Nat) (bs : List Byte) :
    (s.sendAll id n i raddr bs).outbox = if s.peerFenced (s.cmdVf id) c.peer = true then s.outbox
      else s.outbox ++ (List.range n).map fun k =>
        .segment (s.peerFep (s.cmdVf id) c.peer) (fieldOf ((s.vf (s.cmdVf id)).peers.get 0 c.peer).toNat 24 24) s.nextPost k i
          (segBytes raddr bs k) := by
  have hcmd := markSent_cmd hc bs
  obtain ⟨hout, hfeps, hvf, hv⟩ := markSent_kept s id bs
  have hfep (vf peer : Nat) : (s.markSent id bs).peerFep vf peer = s.peerFep vf peer := by
    rw [State.peerFep, State.peerFep, hfeps, hv]
  rw [sendAll_eq, hcmd, Option.getD_some]
  generalize hd : ({ c with sent := some s.refTick.toNat, payload := bs, msg := s.nextPost } : Cmd) = d
  have hpeer : d.peer = c.peer := hd ▸ rfl
  have hmsg : d.msg = s.nextPost := hd ▸ rfl
  rw [hpeer]
  split
  · exact hout
  · simp only [State.segOut, hvf, hfep, hv, hpeer, hmsg, hout]

end

/-! ## The obligation -/

/-- Settles O40: a command that is ready comes to its own part; a course that only reads meets no lost line on its way. -/
theorem scaleOutCommands : Obligations.ScaleOutCommands := by
  unfold Obligations.ScaleOutCommands
  refine fun s id c => ⟨fun x h => ⟨fun hl => ?_, fun u hl hp hf hrun => rwr_reads h hl hp hf hrun⟩,
    fun x h => ⟨fun hl => ?_, fun hl => ?_⟩,
    fun x => rsig_sends, fun x h hb => ⟨fun hn => (execPost_ready h hb).trans (if_pos hn), post_armed h hb⟩,
    fun w hw r hcur hc hr hs hre hse hwt hb ha hp => ?_,
    fun n i raddr bs hc hf => ?_, fun n i raddr bs hc hf => ?_⟩
  · exact rwr_illegal h hl
  · exact rrd_illegal h hl
  · exact rrd_requests h hl
  · simp only [List.mem_cons, List.not_mem_nil, or_false] at hw
    obtain rfl | rfl | rfl := hw
    · exact soOp_lost hcur hc hr hs hre hse hb hwt hp
    · exact soOp_lost hcur hc hr hs hre hse hb hwt hp
    · exact (rsig_aligned ha).trans (soOp_lost hcur hc hr hs hre hse hb hwt hp)
  · rw [sendAll_outbox hc, if_neg (by rw [hf]; decide)]
  · rw [sendAll_outbox hc, if_pos hf]

end Sys2Proof.Machine
end

section
/-! PROOFS. Replies, time limits and inbound segments of the scale-out engine (R317, R320, R336, R400 to R414). -/

namespace Sys2Proof.Machine
open Sys2Proof

/-! ## The command that a reply finds (R403) -/

section
variable {s : State} {id t0 : Nat} {c : Cmd} {i : Instr} {r : RemTail}

/-- The charge of payload bytes leaves commands, messages and the pace. -/
theorem soCharge_kept (s : State) (id n : Nat) : (s.soCharge id n).outbox = s.outbox ∧ (s.soCharge id n).roles = s.roles ∧
    (s.soCharge id n).fired = s.fired ∧ (s.soCharge id n).pace = s.pace := by
  unfold State.soCharge
  split
  · exact ⟨rfl, rfl, rfl, rfl⟩
  · split <;> exact ⟨rfl, rfl, rfl, rfl⟩

theorem soCharge_cmdOf (s : State) (id n q : Nat) : (s.soCharge id n).cmdOf id q = s.cmdOf id q := by
  obtain ⟨-, hroles, hfired, -⟩ := soCharge_kept s id n
  rw [State.cmdOf, State.cmdOf, State.engQ, State.engQ, State.role, State.role, hroles, hfired]

/-- The state in which a reply is acted on. -/
def State.replied (s : State) (id st : Nat) (bs : List Byte) : State :=
  (s.soCharge id bs.length).updCmd id 4 fun c => { c with reply := some (st, bs), prog := .fresh }

theorem replied_cmd (hc : s.cmdOf id 4 = some c) (st : Nat) (bs : List Byte) : (s.replied id st bs).cmdOf id 4 =
    some { c with reply := some (st, bs), prog := .fresh } := by
  rw [State.replied, cmdOf_updCmd, soCharge_cmdOf, hc]
  rfl

theorem replied_engAt (hc : s.cmdOf id 4 = some c) (hp : s.pace = none) (st : Nat) (bs : List Byte) :
    EngAt (s.replied id st bs) id 4 .fresh :=
  ⟨by rw [replied_cmd hc]; rfl, (updCmd_pace _).trans ((soCharge_kept s id bs.length).2.2.2.trans hp)⟩

theorem execScaleoutComplete_ended (hc : s.cmdOf id 4 = some c) (hr : c.result ≠ none) (st : Nat) (bs : List Byte) :
    execScaleoutComplete id st bs s = .next (s.soComplete id) := by
  rw [execScaleoutComplete, hc]
  exact if_pos (Option.isSome_iff_ne_none.2 hr)

theorem execScaleoutComplete_idle (hc : s.cmdOf id 4 = some c) (hi : c.instr = some i) (hr : c.result = none)
    (h : c.sent = none ∨ c.reply ≠ none ∨ s.peerFenced (s.cmdVf id) c.peer = true) (st : Nat) (bs : List Byte) :
    execScaleoutComplete id st bs s = .next s := by
  simp only [execScaleoutComplete, hc, hr, hi, Option.isSome_none, Bool.false_eq_true, if_false]
  refine if_pos ?_
  rw [Bool.or_eq_true, Bool.or_eq_true, Option.isNone_iff_eq_none, Option.isSome_iff_ne_none, or_assoc]
  exact h

theorem execScaleoutComplete_acts (hc : s.cmdOf id 4 = some c) (hi : c.instr = some i) (hr : c.result = none)
    (hs : c.sent = some t0) (hre : c.reply = none) (hf : s.peerFenced (s.cmdVf id) c.peer = false) {st : Nat}
    {bs : List Byte} {t : State} (hact : (s.replied id st bs).soReply id i st bs = .next t) :
    execScaleoutComplete id st bs s = .next (t.soComplete id) := by
  simp only [execScaleoutComplete, hc, hr, hi, hs, hre, hf, Option.isSome_none, Option.isNone_some, Bool.or_self,
    Bool.false_eq_true, if_false]
  rw [State.replied] at hact
  rw [hact]

theorem soReply_refused {st : Nat} (h : st ≠ 0) (i : Instr) (bs : List Byte) :
    s.soReply id i st bs = .next (s.soEnd id st 0) := if_pos h

theorem soReply_read (x : RrdCmd) (bs : List Byte) : s.soReply id (.rrd x) 0 bs = s.rrdWrite id x bs :=
  if_neg (not_not.2 rfl)

/-- The local writes of an RRD, made in one step. -/
theorem rrdWrite_runs {x : RrdCmd} {bs : List Byte} {y : State} (hat : EngAt s id 4 .fresh)
    (hp : s.planFails (s.actor id) (rrdPlan x) true = none)
    (hrun : CourseRuns (s.beginCmd id 4 (rrdPlan x) true 0) id 4 (rrdCourse x bs) (rrdPut id x) y) :
    s.rrdWrite id x bs = .next (y.soFinish id x.tail.ct x.len) := by
  obtain ⟨g, hg, hun⟩ := hat.beginCmd unmoved_fresh (rrdPlan x) true 0
  obtain ⟨hok, hgo, -⟩ := courseRuns_reads hg hun (fun h hw => by
    obtain ⟨g1, h1, hk⟩ := h
    have he := copyWrite_engs hw id
    exact ⟨g1, h1.of_engs he.engs he.pace he.fired, hk⟩) hrun
  have hb : (s.prog id 4).begun = false := by rw [hat.prog_eq]; rfl
  rw [State.rrdWrite]
  simp only [hb, hp, Bool.false_eq_true, if_false]
  rw [runCourse_runs hg hun hrun hok]
  simp only [hgo.bad, Bool.false_eq_true, if_false]

theorem rrdWrite_fails {x : RrdCmd} {bs : List Byte} {n : Nat} (hb : (s.prog id 4).begun = false)
    (hp : s.planFails (s.actor id) (rrdPlan x) true = some n) : s.rrdWrite id x bs = .next (s.soEnd id n 0) := by
  simp only [State.rrdWrite, hb, hp, Bool.false_eq_true, if_false]

/-! ## Time limits (R401, R403, R406, R414) -/

theorem execTimeout_sent (hc : s.cmdOf id 4 = some c) (hi : c.instr = some i) (hr : remTail i = some r)
    (hres : c.result = none) (hs : c.sent = some t0) (hre : c.reply = none) : execTimeout id s =
      .next (if r.tmo ≠ 0 ∧ t0 + 65536 * r.tmo ≤ s.refTick.toNat then (s.soEnd id 15 0).soComplete id else s) := by
  simp only [execTimeout, hc, hs, hi, hr, hres, hre, Option.bind_some, Option.map_some, Option.isNone_none, Bool.true_and,
    Bool.and_eq_true, decide_eq_true_eq]
  split <;> rfl

theorem execPeerdown_sent (hc : s.cmdOf id 4 = some c) (hres : c.result = none) (hs : c.sent = some t0)
    (hre : c.reply = none) : execPeerdown id s = .next (if s.peerLost (s.cmdVf id) c.peer = true ∨
      (s.peerFenced (s.cmdVf id) c.peer = true ∧ t0 + 1000000 ≤ s.refTick.toNat)
      then (s.soEnd id 16 0).soComplete id else s) := by
  simp only [execPeerdown, hc, hs, hres, hre, State.longSince, Option.isNone_none, Option.isSome_some, Bool.true_and,
    Bool.and_eq_true, Bool.or_eq_true, decide_eq_true_eq]
  split <;> rfl

/-- The instructions that have the fields of a scale-out command. -/
theorem remTail_instr (h : remTail i = some r) :
    (∃ x, i = .rwr x) ∨ (∃ x, i = .rrd x) ∨ (∃ x, i = .rsig x) ∨ ∃ x, i = .post x := by
  unfold remTail at h
  split at h
  · exact .inl ⟨_, rfl⟩
  · exact .inr (.inl ⟨_, rfl⟩)
  · exact .inr (.inr (.inl ⟨_, rfl⟩))
  · exact .inr (.inr (.inr ⟨_, rfl⟩))
  · cases h

/-- The remote address by which a command's payload is cut into segments. -/
structure SegBase (i : Instr) (raddr : Nat) : Prop where
  write : ∀ x, i = .rwr x → raddr = x.raddr.toNat
  other : (∀ x, i ≠ .rwr x) → raddr = 0

theorem execRetransmit_sent {seg k t raddr : Nat} (hc : s.cmdOf id 4 = some c) (hi : c.instr = some i)
    (hr : remTail i = some r) (hb : SegBase i raddr) (hres : c.result = none) (hre : c.reply = none)
    (hf : s.peerFenced (s.cmdVf id) c.peer = false) (hk : c.resend.find? (fun e => e.1 == seg) = some (k, t)) :
    execRetransmit id seg s = .next (if s.refTick.toNat < t + 10000 then s else
      { (s.updCmd id 4 fun c => { c with resend := c.resend.erase (k, t) }).soCharge id (segPayload c seg) with
        outbox := s.outbox ++ [s.segOut id seg c i (segBytes raddr c.payload seg)] }) := by
  have hout : ((s.updCmd id 4 fun c => { c with resend := c.resend.erase (k, t) }).soCharge id (segPayload c seg)).outbox =
      s.outbox := (soCharge_kept ..).1.trans (updCmd_kept s id 4 _).2.2.1
  simp only [execRetransmit, hc, hi, hk, hres, hre, hf, Option.isSome_none, Bool.or_self, Bool.false_or,
    decide_eq_true_eq, hout]
  obtain ⟨x, rfl⟩ | ⟨x, rfl⟩ | ⟨x, rfl⟩ | ⟨x, rfl⟩ := remTail_instr hr
  · obtain rfl := hb.write x rfl
    split <;> rfl
  all_goals
    obtain rfl := hb.other nofun
    split <;> rfl

theorem soEnd_closes (hc : s.cmdOf id 4 = some c) {st : Nat} (hst : st ≠ 0) (hs : c.sent = some t0)
    (hf : s.peerFenced (s.cmdVf id) c.peer = false) (n : Nat) : s.soEnd id st n =
      ({ s with outbox := s.outbox ++ [.close (s.peerFep (s.cmdVf id) c.peer) c.msg] } : State).cmdEnd id 4 st n := by
  simp only [State.soEnd, hc, Option.getD_some, hs, hf, hst, Option.isNone_some, Bool.or_self, Bool.false_eq_true,
    if_false, decide_false]

end

/-! ## The CT add, and what a firing may perform (R320, R403, R407) -/

section
variable {s : State} {id n : Nat} {a v : W64}

theorem soFinish_address (h : ∀ ia, s.toIa (s.cmdVf id) a.toNat 8 ≠ .ia ia) :
    s.soFinish id (some (a, v)) n = s.soEnd id 3 0 := by
  cases hx : s.toIa (s.cmdVf id) a.toNat 8 with
  | ia ia => exact absurd hx (h ia)
  | _ => simp only [State.soFinish, hx]

theorem soFinish_misaligned {ia : Nat} (h : s.toIa (s.cmdVf id) a.toNat 8 = .ia ia) (ha : a.toNat % 8 ≠ 0) :
    s.soFinish id (some (a, v)) n = s.soEnd id 4 0 := by
  simp only [State.soFinish, h, ha, ne_eq, not_false_eq_true, if_true]

theorem soFinish_adds {ia : Nat} (h : s.toIa (s.cmdVf id) a.toNat 8 = .ia ia) (ha : a.toNat % 8 = 0)
    (hw : s.accWaits id 4 ⟨.glob, a.toNat, 8, true⟩ = false) :
    (∀ y, s.xlat (s.cmdVf id) a.toNat 8 true = .ok y → s.soFinish id (some (a, v)) n =
      ((s.tokenAdd noCluster y v.toNat).chargeMove id 4 true none ⟨.glob, a.toNat, 8, true⟩).soEnd id 0 n) ∧
    (∀ sub ja, s.xlat (s.cmdVf id) a.toNat 8 true = .page sub ja →
      s.soFinish id (some (a, v)) n = s.cmdPage id 4 sub a.toNat ja) ∧
    (∀ pa, s.xlat (s.cmdVf id) a.toNat 8 true = .mcheck pa → s.soFinish id (some (a, v)) n = s.soEnd id 7 0) := by
  refine ⟨fun y hy => ?_, fun sub ja hy => ?_, fun pa hy => ?_⟩ <;>
    simp only [State.soFinish, h, ha, hw, hy, ne_eq, not_true_eq_false, Bool.false_eq_true, if_false]

theorem peerLost_iff (s : State) (vf peer : Nat) : s.peerLost vf peer = true ↔
    ∀ k, k < 8 → fieldOf ((s.vf vf).peers.get 0 peer).toNat 54 8 / 2 ^ k % 2 = 1 →
      (∃ t, s.ports.get none k = some t ∧ t + 1000000 ≤ s.refTick.toNat) ∨
      ∃ t, (s.vf vf).unreached.get none (8 * peer + k) = some t ∧ t + 1000000 ≤ s.refTick.toNat := by
  have hlong (t : Option Nat) : s.longSince t = true ↔ ∃ n, t = some n ∧ n + 1000000 ≤ s.refTick.toNat := by
    cases t <;> simp [State.longSince]
  simp only [State.peerLost, List.all_eq_true, List.mem_filter, List.mem_range, Bool.or_eq_true, hlong, bitOf, beq_iff_eq,
    and_imp]

theorem tokenLegal_bad {vf : Nat} {e : W64 × W64} (h : e.1.toNat % 8 ≠ 0 ∨ ∀ ia, s.toIa vf e.1.toNat 8 ≠ .ia ia) :
    s.tokenLegal vf (some e) = false := by
  obtain ⟨a, v⟩ := e
  rw [State.tokenLegal]
  obtain h | h := h
  · rw [beq_eq_false_iff_ne.2 h, Bool.false_and]
  · cases hx : s.toIa vf a.toNat 8 with
    | ia ia => exact absurd hx (h ia)
    | _ => simp only [Bool.and_false]

theorem mayFire_bad {vf rk : Nat} {i : Instr} {r : RemTail} {e : W64 × W64} (hr : remTail i = some r)
    (he : r.wt = some e ∨ r.ct = some e) (h : e.1.toNat % 8 ≠ 0 ∨ ∀ ia, s.toIa vf e.1.toNat 8 ≠ .ia ia) :
    s.mayFire vf rk i = false := by
  have hbad : (s.tokenLegal vf r.wt && s.tokenLegal vf r.ct) = false := by
    obtain he | he := he
    · rw [he, tokenLegal_bad h, Bool.false_and]
    · rw [he, tokenLegal_bad h, Bool.and_false]
  simp only [State.mayFire, hr, hbad, Bool.and_false]

end

/-! ## Segments that come in (R317, R336, R400, R404 to R409, R414) -/

section
variable {s : State} {dst vf : Nat} {x : InSeg} {e : InStall}

theorem execInboundSegment_eq (hd : s.fepVf dst = some vf) : execInboundSegment dst x.src x.ord x.part s =
    if s.srcFenced vf x.src || ((s.vf vf).inMsg x.src x.msg).closed then .next s
    else match s.inEntry vf x with
      | none => .next (((s.chargeIn vf x.body).updVf vf fun v => { v with stalls := v.stalls ++ [freshSeg x] }).inRun vf x)
      | some e =>
        if e.gone then .next (((s.chargeIn vf x.body).updIn vf x fun e => { e with gone := false, recid := none }).inRun vf x)
        else if e.recid.isSome then .next s
        else .next (s.inRun vf x) := by
  rw [execInboundSegment]
  simp only [hd]
  rfl

theorem inTry_held (h : s.srcFenced vf e.seg.src = true ∨ (s.vf vf).inBlocked e.seg = true) : s.inTry vf e = s :=
  if_pos (by rw [Bool.or_eq_true]; exact h)

theorem inTry_goes (hf : s.srcFenced vf e.seg.src = false) (hb : (s.vf vf).inBlocked e.seg = false) :
    (s.inDone vf e.seg = true → s.inTry vf e = s.inFinish vf e.seg) ∧
    (s.inDone vf e.seg = false → e.made = 0 → ∀ u, s.inRefused vf e.seg = some u → s.inTry vf e = u) ∧
    (s.inDone vf e.seg = false → e.made = 0 → s.inRefused vf e.seg = none → s.pace = none →
      ∀ u, inSteps vf e.seg (inAccs e.seg.body) (inAccs e.seg.body).length (s.holdGrains vf e.seg) = .done u →
      s.inTry vf e = u.inFinish vf e.seg) := by
  refine ⟨fun hd => ?_, fun hd hm u hu => ?_, fun hd hm hr hp u hu => ?_⟩
  · simp only [State.inTry, hf, hb, hd, Bool.or_self, Bool.false_eq_true, if_false, if_true]
  · simp only [State.inTry, hf, hb, hd, hm, hu, Bool.or_self, Bool.false_eq_true, if_false, if_true]
  · simp only [State.inTry, hf, hb, hd, hm, hr, hp, hu, Bool.or_self, Bool.false_eq_true, if_false, if_true,
      List.drop_zero, Option.getD_none]

theorem inRefused_unmapped {va n : Nat} (hr : inRange x.body = some (va, n)) (h : ∀ ia, s.toIa vf va n ≠ .ia ia) :
    s.inRefused vf x = some (s.inOver vf x 13 []) := by
  simp only [State.inRefused, hr]
  cases hx : s.toIa vf va n with
  | ia ia => exact absurd hx (h ia)
  | _ => rfl

theorem inStep_page {a : Acc} {ia sub ja : Nat} (h : s.toIa vf a.addr a.n = .ia ia)
    (hp : s.translateIa (s.vf vf).part ia a.n a.write = .page sub ja) :
    s.inStep vf x a = .stay (s.inPage vf x sub a.addr ja) := by
  simp only [State.inStep, h, hp]

/-- An access whose lines are at hand is made at its charge. -/
theorem inStep_ok {a : Acc} {ia : Nat} {y : Xlat} (h : s.toIa vf a.addr a.n = .ia ia)
    (hp : s.translateIa (s.vf vf).part ia a.n a.write = .ok y)
    (hl : ∀ p ∈ y.pas, s.inRefresh (64 * (p / 64)) = false ∧ s.lineHeld (p / 64) = false ∧ s.lostPa p = false) :
    s.inStep vf x a =
      (s.charge 480 vf (inCost x.body (((s.inEntry vf x).getD (freshSeg x)).made == 0) a)).inMake vf x a y := by
  simp only [State.inStep, h, hp]
  refine if_neg ?_
  simp only [Bool.not_eq_true, List.any_eq_false, List.mem_dedup, List.mem_map]
  rintro l ⟨p, hm, rfl⟩
  obtain ⟨hr, hh, -⟩ := hl p hm
  simp only [hr, hh, Bool.false_and, Bool.or_self]

/-- Without a lost line, an access is its home write, load or add. -/
theorem inMake_ok {a : Acc} {y : Xlat} (hl : ∀ p ∈ y.pas, s.lostPa p = false) :
    (∀ va bs tag, x.body = .write va bs tag → s.inMake vf x a y =
      .go ((s.homeWriteX y ((bs.drop (a.addr - va.toNat)).take a.n)).madeIn vf x [] [])) ∧
    (∀ va n, x.body = .read va n → s.inMake vf x a y = .go (s.madeIn vf x (s.loadX y) [])) ∧
    (∀ va w tag, x.body = .signal va w tag →
      s.inMake vf x a y = .go ((s.tokenAdd noCluster y w.toNat).madeIn vf x [] [])) := by
  have hlost : ((y.pas.filter s.lostPa).map fun p => p / 64).dedup = [] := by
    rw [List.filter_eq_nil_iff.2 fun p hp => by rw [hl p hp]; decide]
    rfl
  refine ⟨fun va bs tag hb => ?_, fun va n hb => ?_, fun va w tag hb => ?_⟩ <;>
    simp only [State.inMake, hlost, hb] <;> rfl

/-- The segment is one of its message that has been performed. -/
def State.markIn (s : State) (vf : Nat) (x : InSeg) : State :=
  s.updVf vf fun v => v.updMsg x.src x.msg fun m =>
    { m with done := if m.done.contains x.seg then m.done else m.done ++ [x.seg] }

theorem inArrive_eq (s : State) (vf : Nat) (x : InSeg) (mtag : W32) : s.inArrive vf x mtag =
    if mtag = 0 || (((s.markIn vf x).vf vf).inMsg x.src x.msg).done.length < x.count ||
      (((s.markIn vf x).vf vf).inMsg x.src x.msg).arrived then (s.markIn vf x).inOver vf x 0 []
    else match (s.markIn vf x).arrive vf mtag with
      | some y => (y.updVf vf fun v => v.updMsg x.src x.msg fun m => { m with arrived := true }).inOver vf x 0 []
      | none => ((s.markIn vf x).dropIn vf x).askAgain vf x := rfl

theorem inArrive_done {mtag : W32} (h : mtag = 0 ∨ (((s.markIn vf x).vf vf).inMsg x.src x.msg).done.length < x.count ∨
      (((s.markIn vf x).vf vf).inMsg x.src x.msg).arrived = true) :
    s.inArrive vf x mtag = (s.markIn vf x).inOver vf x 0 [] := by
  rw [inArrive_eq, if_pos]
  rw [Bool.or_eq_true, Bool.or_eq_true, decide_eq_true_eq, decide_eq_true_eq, or_assoc]
  exact h

theorem inArrive_arrives {mtag : W32} (hm : mtag ≠ 0)
    (hd : x.count ≤ (((s.markIn vf x).vf vf).inMsg x.src x.msg).done.length)
    (ha : (((s.markIn vf x).vf vf).inMsg x.src x.msg).arrived = false) :
    ((s.markIn vf x).arrive vf mtag = none → s.inArrive vf x mtag = ((s.markIn vf x).dropIn vf x).askAgain vf x) ∧
    (∀ y, (s.markIn vf x).arrive vf mtag = some y → s.inArrive vf x mtag = (y.updVf vf fun v =>
      v.updMsg x.src x.msg fun m => { m with arrived := true }).inOver vf x 0 []) := by
  rw [inArrive_eq, ha, decide_eq_false hm, decide_eq_false (Nat.not_lt.2 hd)]
  exact ⟨fun h => by simp only [h, Bool.or_self, Bool.false_eq_true, if_false],
    fun y h => by simp only [h, Bool.or_self, Bool.false_eq_true, if_false]⟩

theorem arrive_unexpected {mtag : W32} (h : ∀ p ∈ (s.vf vf).posts, p.mtag ≠ mtag) :
    (1024 ≤ (s.vf vf).unexpected.length → s.arrive vf mtag = none) ∧
    ((s.vf vf).unexpected.length < 1024 → s.arrive vf mtag =
      some (s.updVf vf fun v => { v with unexpected := v.unexpected ++ [mtag] })) := by
  have hnone : (s.vf vf).posts.find? (fun p => p.mtag == mtag) = none :=
    List.find?_eq_none.2 fun p hp => by simpa using h p hp
  refine ⟨fun hn => ?_, fun hn => ?_⟩ <;> rw [State.arrive, hnone]
  · exact if_pos hn
  · exact if_neg (Nat.not_le.2 hn)

theorem execInboundStallTimeout_eq {idx : Nat} (h : (s.vf vf).stalls[idx]? = some e) :
    (e.left ≠ 0 ∨ e.recid = none ∨ e.gone = true → execInboundStallTimeout vf idx s = .next s) ∧
    (e.left = 0 → e.recid ≠ none → e.gone = false → execInboundStallTimeout vf idx s =
      .next (((s.updIn vf e.seg fun e =>
        { e with gone := true, made := 0, got := [], holds := [], lines := [] }).askAgain vf e.seg).inNext vf e.seg.src)) := by
  refine ⟨fun ho => ?_, fun hl hr hg => ?_⟩ <;> rw [execInboundStallTimeout, h]
  · refine if_neg ?_
    obtain ho | ho | ho := ho <;> simp [ho]
  · refine if_pos ?_
    simp [hl, hg, Option.isSome_iff_ne_none.2 hr]

end

/-! ## The obligation -/

/-- Settles O41: a command that has been sent is acted on by its reply, its limits and its peer; a segment by what its
context, its entry and its first access allow. -/
theorem scaleOutReplies : Obligations.ScaleOutReplies := by
  unfold Obligations.ScaleOutReplies
  refine ⟨fun s id seg t0 c i r hc hi hr => ⟨fun hres => execScaleoutComplete_ended hc hres,
    fun hres => execScaleoutComplete_idle hc hi hres, fun hsent hf st bs => ?_, fun ⟨hres, hs, hre⟩ =>
    execTimeout_sent hc hi hr hres hs hre, fun ⟨hres, hs, hre⟩ => execPeerdown_sent hc hres hs hre,
    fun k t ⟨hres, _, hre⟩ hf hk => ?_, fun st n hst hs hf => soEnd_closes hc hst hs hf n, fun n => rfl⟩,
    fun s id vf peer n a v ws => ⟨rfl, fun ia h => ⟨fun ha => soFinish_misaligned h ha, fun ha hw => soFinish_adds h ha hw⟩,
      soFinish_address, peerLost_iff s vf peer, fun h => ?_, fun i h => ⟨fun hm => ?_, fun hm => ?_⟩,
      fun i r e hr he h => mayFire_bad hr he h⟩,
    fun s dst vf idx x => ⟨fun h => ?_, fun hd => ⟨fun h => ?_, fun hf hcl => ⟨fun h => ?_, fun e h => ⟨fun hg => ?_,
      fun hg hrec => ?_, fun hg hrec => ?_⟩⟩⟩, fun e => inTry_held, fun e => inTry_goes, fun va n => inRefused_unmapped,
      fun a ia h => ⟨fun sub ja => inStep_page h, fun y hp hl => ?_⟩, fun mtag => ⟨inArrive_done, inArrive_arrives,
      arrive_unexpected⟩, fun e => execInboundStallTimeout_eq⟩⟩
  · obtain ⟨hres, hs, hre⟩ := hsent
    have hact {t : State} : (s.replied id st bs).soReply id i st bs = .next t → exec (.scaleoutComplete id st bs) s =
      .next (t.soComplete id) := execScaleoutComplete_acts hc hi hres hs hre hf
    refine ⟨fun hst => hact (soReply_refused hst i bs), fun x hst hx => ?_, fun x hst hx => ?_, fun x hst hx => ⟨fun n hn => ?_,
      fun y hn hp hrun => ?_⟩⟩ <;> subst hst hx
    · exact hact rfl
    · exact hact rfl
    · exact hact ((soReply_read x bs).trans (rrdWrite_fails (by rw [State.prog, replied_cmd hc]; rfl) hn))
    · exact hact ((soReply_read x bs).trans (rrdWrite_runs (replied_engAt hc hp 0 bs) hn hrun))
  · refine execRetransmit_sent hc hi hr ⟨fun x hx => ?_, fun hx => ?_⟩ hres hre hf hk
    · subst hx
      rfl
    · obtain ⟨x, rfl⟩ | ⟨x, rfl⟩ | ⟨x, rfl⟩ | ⟨x, rfl⟩ := remTail_instr hr
      · exact absurd rfl (hx x)
      all_goals rfl
  · rw [State.fireBlock, h]
  · rw [State.fireBlock, h]
    exact if_neg (by rw [hm]; decide)
  · rw [State.fireBlock, h]
    exact if_pos hm
  · exact (by rw [execInboundSegment]; simp only [h] : execInboundSegment dst x.src x.ord x.part s = .next s)
  · exact (execInboundSegment_eq hd).trans (if_pos (by rw [Bool.or_eq_true]; exact h))
  · exact (execInboundSegment_eq hd).trans (by simp only [hf, hcl, h, Bool.or_self, Bool.false_eq_true, if_false])
  · exact (execInboundSegment_eq hd).trans (by simp only [hf, hcl, h, hg, Bool.or_self, Bool.false_eq_true, if_false, if_true])
  · exact (execInboundSegment_eq hd).trans (by simp only [hf, hcl, h, hg, Bool.or_self, Bool.false_eq_true, if_false,
      Option.isSome_iff_ne_none.2 hrec, if_true])
  · exact (execInboundSegment_eq hd).trans (by simp only [hf, hcl, h, hg, hrec, Bool.or_self, Bool.false_eq_true, if_false,
      Option.isSome_none])
  · have hlost : ∀ p ∈ y.pas, s.lostPa p = false := fun p hm => (hl p hm).2.2
    obtain ⟨hw, hread, hsig⟩ := inMake_ok (vf := vf) (x := x) (a := a) (y := y)
      (s := s.charge 480 vf (inCost x.body (((s.inEntry vf x).getD (freshSeg x)).made == 0) a)) hlost
    exact ⟨fun va bs tag hb => (inStep_ok h hp hl).trans (hw va bs tag hb),
      fun va n hb => (inStep_ok h hp hl).trans (hread va n hb),
      fun va w tag hb => (inStep_ok h hp hl).trans (hsig va w tag hb)⟩

end Sys2Proof.Machine
end

section
/-! PROOFS. Depot words, rows and tasks (R79, R109, R351 to R358, R365). -/

namespace Sys2Proof.Machine
open Sys2Proof

/-! ## The outcome of a row word's accesses (R354) -/

/-- A word of row `key` whose accesses come to `os`, of which one is unaligned if `mis`, has outcome `res`. -/
def RowOutcome (s : State) (key : Nat) (os : List DAcc) (mis : Bool) (res : Res) : Prop :=
  ∃ k, res = .next (rowOutcome s key (accOutcome os mis) k)

section
variable {s : State} {key : Nat} {os : List DAcc} {mis : Bool} {res : Res}

theorem RowOutcome.address (h : RowOutcome s key os mis res) (h3 : .status 3 ∈ os) : res = .next (s.rowEnd key 3) := by
  obtain ⟨k, rfl⟩ := h
  rw [accOutcome, if_pos (List.contains_iff_mem.2 h3)]
  rfl

theorem not_contains {o : DAcc} (h : o ∉ os) : ¬ os.contains o = true := fun hc => h (List.contains_iff_mem.1 hc)

theorem RowOutcome.misaligned (h : RowOutcome s key os true res) (h3 : .status 3 ∉ os) : res = .next (s.rowEnd key 4) := by
  obtain ⟨k, rfl⟩ := h
  rw [accOutcome, if_neg (not_contains h3), if_pos rfl]
  rfl

theorem RowOutcome.page {sub v ia : Nat} {us : List DAcc} (h : RowOutcome s key os false res) (h3 : .status 3 ∉ os)
    (hp : os = .page sub v ia :: us) : res = .next (s.rowPage key sub v ia) := by
  obtain ⟨k, rfl⟩ := h
  rw [accOutcome, if_neg (not_contains h3), if_neg Bool.false_ne_true, hp]
  rfl

theorem accOutcome_noPage (h3 : .status 3 ∉ os) (hp : ∀ o ∈ os, ∀ sub v ia, o ≠ .page sub v ia) : accOutcome os false =
    if os.contains .wait then .wait else if os.contains (.status 7) then .status 7 else os.headD (.status 0) := by
  rw [accOutcome, if_neg (not_contains h3), if_neg Bool.false_ne_true]
  split
  · next o ho =>
    have hpage := List.find?_some ho
    cases o with
    | page sub v ia => exact absurd rfl (hp _ (List.mem_of_find?_eq_some ho) sub v ia)
    | _ => cases hpage
  · rfl

theorem RowOutcome.lost (h : RowOutcome s key os false res) (h3 : .status 3 ∉ os)
    (ho : ∀ o ∈ os, (∀ sub v ia, o ≠ .page sub v ia) ∧ o ≠ .wait) (h7 : .status 7 ∈ os) :
    res = .next (s.rowEnd key 7) := by
  obtain ⟨k, rfl⟩ := h
  rw [accOutcome_noPage h3 fun o hm => (ho o hm).1, if_neg (not_contains fun hm => (ho _ hm).2 rfl),
    if_pos (List.contains_iff_mem.2 h7)]
  rfl

/-- A word all of whose accesses can be made performs. -/
theorem rowOutcome_performs (ho : ∀ o ∈ os, ∃ x, o = .ok x) (k : Unit → State) :
    rowOutcome s key (accOutcome os false) k = k () := by
  have hno {o : DAcc} (hx : ∀ x, o ≠ .ok x) : o ∉ os := fun hm => by
    obtain ⟨x, hx'⟩ := ho o hm
    exact hx x hx'
  rw [accOutcome_noPage (hno fun x h => by cases h)
    fun o hm sub v ia hp => hno (o := o) (fun x h => by rw [hp] at h; cases h) hm,
    if_neg (not_contains (hno fun x h => by cases h)), if_neg (not_contains (hno fun x h => by cases h))]
  cases os with
  | nil => rfl
  | cons o us =>
    obtain ⟨x, rfl⟩ := ho o (List.mem_cons_self ..)
    rfl

end

/-! ## Words of a row (R352, R355) -/

section
variable {s : State} {key : Nat} {t : DTask} {cx : LaneCx} {l : Lanes}

theorem depotOp_ready (h : RowReady s key t cx l) (k : Nat → DTask → LaneCx → Lanes → Res) :
    depotOp s k = k key t cx l := by
  rw [depotOp, h.cur]
  simp only [h.stall, Option.isSome_none, Bool.false_eq_true, if_false, ← h.task, ← h.cx, ← h.lanes]

theorem RowReady.laneNow (h : RowReady s key t cx l) : s.laneNow = some (cx, l) := by
  simp only [State.laneNow, h.cur, ← h.cx, ← h.lanes]

theorem RowReady.laneFault (h : RowReady s key t cx l) : s.laneFault .illegal = s.rowEnd key 10 := by
  simp only [State.laneFault, h.cur]

/-- A word of the mask stack at a depth that forbids it. -/
theorem RowReady.maskOp (h : RowReady s key t cx l) {ok : Nat → Bool} (hok : ok l.stack.length = false) (sw : Bool)
    (f : Lanes → Lanes) : Machine.maskOp s sw ok f = .next (s.rowEnd key 10) := by
  simp only [Machine.maskOp, h.laneNow, hok, Bool.false_eq_true, if_false, h.laneFault]

theorem vif_deep (h : RowReady s key t cx l) (hd : 16 ≤ l.stack.length) (sw : Bool) (kc : BitVec 4) (kcn : Bool) :
    execVif sw kc kcn s = .next (s.rowEnd key 10) :=
  h.maskOp (ok := fun d => decide (d < 16)) (decide_eq_false (Nat.not_lt.2 hd)) sw _

theorem bare_stack (h : RowReady s key t cx l) (hd : l.stack = []) (sw : Bool) :
    execVelse sw s = .next (s.rowEnd key 10) ∧ execVendif sw s = .next (s.rowEnd key 10) :=
  ⟨h.maskOp (ok := fun d => decide (0 < d)) (by rw [hd]; rfl) sw _,
    h.maskOp (ok := fun d => decide (0 < d)) (by rw [hd]; rfl) sw _⟩

theorem dend_ends (h : RowReady s key t cx l) (c : LaneCtl) : execDend c s = .next (s.rowEnd key 0) := depotOp_ready h _

theorem dldr_outcome (h : RowReady s key t cx l) (c : LaneCtl) (m : LMem) (sx : Bool) (d : Opnd) :
    RowOutcome s key ((s.rowAccs t m c cx l false).map Prod.snd) (rowMis m c cx l) (execDldr c m sx d s) := by
  rw [execDldr, depotOp_ready h]
  exact ⟨_, rfl⟩

theorem dstr_outcome (h : RowReady s key t cx l) (c : LaneCtl) (m : LMem) (wb : Option (BitVec 3)) (d : Opnd) :
    RowOutcome s key ((s.rowAccs t m c cx l true).map Prod.snd) (rowMis m c cx l) (execDstr c m wb d s) := by
  rw [execDstr, depotOp_ready h]
  exact ⟨_, rfl⟩

/-- The outcome of a word's one access, that to a token or to the word of a reduction. -/
theorem dwat_outcome (h : RowReady s key t cx l) {c : LaneCtl} (hact : l.actives c ≠ []) (a b : Opnd) :
    RowOutcome s key [s.depotAcc t (opVal a cx l .n64 0) 8 false] (opVal a cx l .n64 0 % 8 != 0) (execDwat c a b s) := by
  rw [execDwat, depotOp_ready h]
  exact ⟨_, if_neg (by rwa [List.isEmpty_iff])⟩

theorem dtok_outcome (h : RowReady s key t cx l) {c : LaneCtl} (hact : l.actives c ≠ []) (a b : Opnd) :
    RowOutcome s key [s.depotAcc t (opVal a cx l .n64 0) 8 true] (opVal a cx l .n64 0 % 8 != 0) (execDtok c a b s) := by
  rw [execDtok, depotOp_ready h]
  exact ⟨_, if_neg (by rwa [List.isEmpty_iff])⟩

theorem dred_outcome (h : RowReady s key t cx l) {c : LaneCtl} (hact : l.actives c ≠ []) (op : RedOp) (a b : Opnd) :
    RowOutcome s key [s.depotAcc t (opVal a cx l .n64 0) 4 true] (opVal a cx l .n64 0 % 4 != 0) (execDred c op a b s) := by
  rw [execDred, depotOp_ready h]
  exact ⟨_, if_neg (by rwa [List.isEmpty_iff])⟩

theorem rowMis_iff (m : LMem) (c : LaneCtl) (cx : LaneCx) (l : Lanes) : rowMis m c cx l = true ↔
    ∃ i ∈ l.actives c, memEa m false cx l i % mwBytes m.width ≠ 0 := by
  simp only [rowMis, List.any_eq_true, bne_iff_ne]

theorem rowMis_aligned {m : LMem} {c : LaneCtl} (h : ∀ i ∈ l.actives c, memEa m false cx l i % mwBytes m.width = 0) :
    rowMis m c cx l = false := by
  simpa only [rowMis, List.any_eq_false, bne_iff_ne, not_not] using h

theorem rowAccs_snd (s : State) (t : DTask) (m : LMem) (c : LaneCtl) (cx : LaneCx) (l : Lanes) (w : Bool) :
    (s.rowAccs t m c cx l w).map Prod.snd =
      (l.actives c).map fun i => s.depotAcc t (memEa m false cx l i) (mwBytes m.width) w := by
  rw [State.rowAccs, List.map_map]
  rfl

/-- A word of accesses in its active lanes: DLDR, which reads, or DSTR, which writes. -/
theorem laneWord_outcome (h : RowReady s key t cx l) {c : LaneCtl} {m : LMem} {sx : Bool} {wb : Option (BitVec 3)} {d : Opnd}
    {w : Instr × Bool} (hw : w ∈ [(Instr.dldr c m sx d, false), (Instr.dstr c m wb d, true)]) :
    RowOutcome s key ((l.actives c).map fun i => s.depotAcc t (memEa m false cx l i) (mwBytes m.width) w.2)
      (rowMis m c cx l) (exec w.1 s) := by
  rw [← rowAccs_snd]
  simp only [List.mem_cons, List.not_mem_nil, or_false] at hw
  obtain rfl | rfl := hw
  · exact dldr_outcome h c m sx d
  · exact dstr_outcome h c m wb d

/-- A word of one access: DWAT, DTOK or DRED. -/
theorem tokenWord_outcome (h : RowReady s key t cx l) {c : LaneCtl} (hact : l.actives c ≠ []) {op : RedOp} {a b : Opnd}
    {w : Instr × Nat × Bool}
    (hw : w ∈ [(Instr.dwat c a b, 8, false), (Instr.dtok c a b, 8, true), (Instr.dred c op a b, 4, true)]) :
    RowOutcome s key [s.depotAcc t (opVal a cx l .n64 0) w.2.1 w.2.2] (opVal a cx l .n64 0 % w.2.1 != 0) (exec w.1 s) := by
  simp only [List.mem_cons, List.not_mem_nil, or_false] at hw
  obtain rfl | rfl | rfl := hw
  · exact dwat_outcome h hact a b
  · exact dtok_outcome h hact a b
  · exact dred_outcome h hact op a b

theorem rowAccs_ok {m : LMem} {c : LaneCtl} {w : Bool} {xs : Nat → Xlat}
    (h : ∀ i ∈ l.actives c, s.depotAcc t (memEa m false cx l i) (mwBytes m.width) w = .ok (xs i)) :
    s.rowAccs t m c cx l w = (l.actives c).map fun i => (i, .ok (xs i)) :=
  List.map_congr_left fun i hi => by rw [h i hi]

/-- DLDR's lines in the order of its lanes, as many as the pace lets it. -/
theorem dldr_reads (h : RowReady s key t cx l) (c : LaneCtl) (m : LMem) (sx : Bool) (d : Opnd) {xs : Nat → Xlat}
    (hal : ∀ i ∈ l.actives c, memEa m false cx l i % mwBytes m.width = 0)
    (hok : ∀ i ∈ l.actives c, s.depotAcc t (memEa m false cx l i) (mwBytes m.width) false = .ok (xs i)) :
    let got := (s.row key).part
    let left := (l.actives c).filter fun i => !(got.map Prod.fst).contains i
    let lineOf (i : Nat) : Nat := lineKey (xs i).part (xs i).ia
    let lines := (left.map lineOf).dedup
    let now := left.filter fun i => (lines.take (s.pace.getD lines.length)).contains (lineOf i)
    let vals := got ++ now.map fun i => (i, extendLoad sx (mwBytes m.width) (leNat (s.homeX (xs i))))
    let s1 := s.noteAll (s.row key).task (now.map fun i => (i, .ok (xs i)))
    execDldr c m sx d s = .next (if vals.length < (l.actives c).length then s1.setRow key { s1.row key with part := vals }
      else s1.laneDone false (vals.foldl (fun u e => opWrite d cx u e.1 (dataBytes m.width) e.2) l)) := by
  intro got left lineOf lines now vals s1
  have haccs := rowAccs_ok hok
  have hall : ∀ o ∈ ((l.actives c).map fun i => (i, DAcc.ok (xs i))).map Prod.snd, ∃ x, o = .ok x := by
    rw [List.map_map]
    intro o ho
    obtain ⟨i, -, rfl⟩ := List.mem_map.1 ho
    exact ⟨xs i, rfl⟩
  rw [execDldr, depotOp_ready h]
  simp only [haccs, rowMis_aligned hal, rowOutcome_performs hall]
  have hleft : ((l.actives c).map fun i => (i, DAcc.ok (xs i))).filter
      (fun a => !(((s.row key).part).map Prod.fst).contains a.1) = left.map fun i => (i, .ok (xs i)) := List.filter_map
  have hlines : ((left.map fun i => (i, DAcc.ok (xs i))).map fun a => a.2.line).dedup = lines := by
    rw [List.map_map]
    rfl
  have hnow : (left.map fun i => (i, DAcc.ok (xs i))).filter
      (fun a => (lines.take (s.pace.getD lines.length)).contains a.2.line) = now.map fun i => (i, .ok (xs i)) :=
    List.filter_map
  have hvals : (now.map fun i => (i, DAcc.ok (xs i))).map (fun a => (a.1, s.rowRead m sx a.2)) =
      now.map fun i => (i, extendLoad sx (mwBytes m.width) (leNat (s.homeX (xs i)))) := List.map_map
  rw [hleft, hlines, hnow, hvals, List.length_map]

/-- The waybill updates of one lane of a DSTR. -/
theorem rowUpdates_some (s : State) (key : Nat) (t : DTask) (fs : BitVec 3) (n v : Nat) : s.rowUpdates key t (some fs) n v =
    let sl := slotOf ((s.launchOf t.rk).fslot fs.toNat)
    let w := fmtWidth sl.efmt
    (List.range (8 * n / w)).foldl (fun y i => y.wbUpdate (teamOf t.rk) ((s.row key).depot.getD 0 / 24)
      (s.vfOf t.rk) sl.wbidx (widenBits ((fmtFF sl.efmt).getD .f32) (v / 2 ^ (w * i) % 2 ^ w))) s :=
  List.foldl_map ..

/-- DSTR's writes and updates, with no pace set. -/
theorem dstr_writes (h : RowReady s key t cx l) (c : LaneCtl) (m : LMem) (wb : Option (BitVec 3)) (d : Opnd)
    {xs : Nat → Xlat} (hal : ∀ i ∈ l.actives c, memEa m false cx l i % mwBytes m.width = 0)
    (hok : ∀ i ∈ l.actives c, s.depotAcc t (memEa m false cx l i) (mwBytes m.width) true = .ok (xs i))
    (hp : s.pace = none) (hpart : (s.row key).part = []) :
    let val (i : Nat) : Nat := l.bytes cx.free i ((opStart d cx).getD 0) (mwBytes m.width)
    execDstr c m wb d s = .next (((((l.actives c).foldl (fun u i =>
      u.depotWriteX (xs i) (leBytes (mwBytes m.width) (val i)))
      (s.noteAll (s.row key).task ((l.actives c).map fun i => (i, .ok (xs i))))).rowFeeds key t wb (mwBytes m.width)
        ((l.actives c).map val)).laneDone false l)) := by
  intro val
  have haccs := rowAccs_ok hok
  have hall : ∀ o ∈ ((l.actives c).map fun i => (i, DAcc.ok (xs i))).map Prod.snd, ∃ x, o = .ok x := by
    rw [List.map_map]
    intro o ho
    obtain ⟨i, -, rfl⟩ := List.mem_map.1 ho
    exact ⟨xs i, rfl⟩
  rw [execDstr, depotOp_ready h]
  simp only [haccs, rowMis_aligned hal, rowOutcome_performs hall]
  generalize hD : ((((l.actives c).map fun i => (i, DAcc.ok (xs i))).map fun a => a.2.line).dedup) = lines
  have hmem : ∀ i ∈ l.actives c, lines.contains (DAcc.line (.ok (xs i))) = true := fun i hi => by
    rw [List.contains_iff_mem, ← hD, List.mem_dedup, List.map_map]
    exact List.mem_map.2 ⟨i, hi, rfl⟩
  have hleft : lines.filter (fun k => !(((s.row key).part).map Prod.fst).contains k) = lines := by
    rw [hpart]
    exact List.filter_eq_self.2 fun k _ => rfl
  have hnow : s.linesNow lines = lines := by rw [State.linesNow, hp]
  rw [hleft, hnow, if_neg (Nat.lt_irrefl _), List.foldl_map, List.map_map]
  refine congrArg (fun u : State => Host.Outcome.next ((u.rowFeeds key t wb (mwBytes m.width) _).laneDone false l)) ?_
  exact List.foldl_ext _ _ _ fun u i hi => if_pos (hmem i hi)

/-! ### The words of one access (R322, R358) -/

theorem row_inactive (h : RowReady s key t cx l) {c : LaneCtl} (hact : l.actives c = []) (op : RedOp) (a b : Opnd) :
    execDwat c a b s = .next (s.laneDone false l) ∧ execDtok c a b s = .next (s.laneDone false l) ∧
    execDred c op a b s = .next (s.laneDone false l) := by
  have hemp : (l.actives c).isEmpty = true := List.isEmpty_iff.2 hact
  rw [execDwat, execDtok, execDred, depotOp_ready h, depotOp_ready h, depotOp_ready h]
  exact ⟨if_pos hemp, if_pos hemp, if_pos hemp⟩

theorem dwat_reads (h : RowReady s key t cx l) {c : LaneCtl} (hact : l.actives c ≠ []) {a b : Opnd} {x : Xlat}
    (hal : opVal a cx l .n64 0 % 8 = 0) (hx : s.depotAcc t (opVal a cx l .n64 0) 8 false = .ok x) :
    execDwat c a b s = .next (if opVal b cx l .n64 0 ≤ leNat (s.homeX x)
      then (s.notePages (s.row key).task x).laneDone false l else s) := by
  have hperf := rowOutcome_performs (s := s) (key := key) (os := [.ok x]) fun o ho => ⟨x, List.mem_singleton.1 ho⟩
  rw [execDwat, depotOp_ready h]
  simp only [List.isEmpty_iff, hact, if_false, hal, bne_self_eq_false, hx, hperf]

theorem dtok_adds (h : RowReady s key t cx l) {c : LaneCtl} (hact : l.actives c ≠ []) {a b : Opnd} {x : Xlat}
    (hal : opVal a cx l .n64 0 % 8 = 0) (hx : s.depotAcc t (opVal a cx l .n64 0) 8 true = .ok x) :
    execDtok c a b s = .next (((s.notePages (s.row key).task x).tokenAdd noCluster x (opVal b cx l .n64 0)).laneDone
      false l) := by
  have hperf := rowOutcome_performs (s := s) (key := key) (os := [.ok x]) fun o ho => ⟨x, List.mem_singleton.1 ho⟩
  rw [execDtok, depotOp_ready h]
  simp only [List.isEmpty_iff, hact, if_false, hal, bne_self_eq_false, hx, hperf]

theorem dred_reduces (h : RowReady s key t cx l) {c : LaneCtl} (hact : l.actives c ≠ []) {op : RedOp} {a b : Opnd}
    {x : Xlat} (hal : opVal a cx l .n64 0 % 4 = 0) (hx : s.depotAcc t (opVal a cx l .n64 0) 4 true = .ok x) :
    execDred c op a b s = .next ((((s.notePages (s.row key).task x).homeWriteX x (leBytes 4 (redStep op (leNat (s.loadX x))
      (redLanes op ((l.actives c).map fun i => opVal b cx l .w32 i))))).noteHome noCluster x.part x.ia).laneDone
        false l) := by
  have hperf := rowOutcome_performs (s := s) (key := key) (os := [.ok x]) fun o ho => ⟨x, List.mem_singleton.1 ho⟩
  rw [execDred, depotOp_ready h]
  simp only [List.isEmpty_iff, hact, if_false, hal, bne_self_eq_false, hx, hperf]

/-! ### Addresses (R306, R334, R336, R357) -/

theorem depotAcc_unmapped {va n : Nat} (h : ∀ ia, s.toIa (s.vfOf t.rk) va n ≠ .ia ia) (w : Bool) :
    s.depotAcc t va n w = .status 3 := by
  unfold State.depotAcc
  split
  · next ia hia => exact absurd hia (h ia)
  · rfl

theorem depotAcc_mapped {va n ia : Nat} {w : Bool} {x : Xlat} (h : s.toIa (s.vfOf t.rk) va n = .ia ia)
    (hx : s.translateIa (s.vf (s.vfOf t.rk)).part ia n w = .ok x) (hd : x.dual = false) (hm : x.migrating = false) :
    s.depotAcc t va n w = if x.pas.any s.lostPa = true then .status 7 else .ok x := by
  simp only [State.depotAcc, h, hx, hd, hm, Bool.false_and, Bool.false_eq_true, if_false]

end

/-- The depot words in a core's lane stream (R79). -/
theorem depotWords_lane {s : State} {rk : Nat} (h : s.cur = .lane rk) (c : LaneCtl) (m : LMem) (sx : Bool)
    (wb : Option (BitVec 3)) (op : RedOp) (d a b : Opnd) :
    execDldr c m sx d s = .next (s.precise rk (s.raiseL rk .illegal)) ∧
    execDstr c m wb d s = .next (s.precise rk (s.raiseL rk .illegal)) ∧
    execDwat c a b s = .next (s.precise rk (s.raiseL rk .illegal)) ∧
    execDtok c a b s = .next (s.precise rk (s.raiseL rk .illegal)) ∧
    execDred c op a b s = .next (s.precise rk (s.raiseL rk .illegal)) ∧
    execDend c s = .next (s.precise rk (s.raiseL rk .illegal)) := by
  have hop (k : Nat → DTask → LaneCx → Lanes → Res) : depotOp s k = .next (s.precise rk (s.raiseL rk .illegal)) := by
    simp only [depotOp, State.laneFault, h]
  exact ⟨hop _, hop _, hop _, hop _, hop _, hop _⟩

/-! ## The steps of DRED (R109, R358) -/

theorem redStep_add (x y : BitVec 32) : redStep .add x.toNat y.toNat = (x + y).toNat := (BitVec.toNat_add ..).symm

theorem redStep_maxn (x y : BitVec 32) : redStep .maxn x.toNat y.toNat = (if x.ult y then y else x).toNat := by
  show Nat.max x.toNat y.toNat = _
  rw [BitVec.ult]
  split
  · next h => exact Nat.max_eq_right (Nat.le_of_lt (of_decide_eq_true h))
  · next h => exact Nat.max_eq_left (Nat.le_of_not_lt fun hlt => h (decide_eq_true hlt))

/-! ## Tasks and their rows (R351 to R354) -/

section
variable {s : State} {rk q : Nat} {c : Cmd}

theorem task_checked {x : TaskCmd} (h : EngineReady s rk q c) (ht : s.tasks.has rk = false) :
    (s.taskCheck rk x = .ok → execTask x s =
      .next { s with tasks := s.tasks.put rk ⟨rk, x, 0, [], 0, 0, s.taskPages rk x⟩ }) ∧
    (∀ n, s.taskCheck rk x = .status n → execTask x s = .next (s.cmdEnd rk q n 0)) := by
  rw [execTask, engineOp_ready h, if_neg (by rw [ht]; decide)]
  exact ⟨fun hc => by rw [hc]; rfl, fun n hc => by rw [hc]⟩

theorem rowStart_idle (h : s.taskRuns rk = false) : execDepotRowStart rk s = .next s := if_pos (by rw [h]; rfl)

@[simp] theorem State.task_updTask_self (s : State) (k : Nat) (f : DTask → DTask) : (s.updTask k f).task k = f (s.task k) :=
  NMap.get_put_self ..

/-- The next row of a task that has passed none over. -/
theorem rowStart_next (h : s.taskRuns rk = true) (hs : (s.task rk).skipped = [])
    (hn : (s.task rk).next < (s.task rk).cmd.nrows) (hw : s.placeOf (s.task rk) (s.task rk).next ≠ .wait) :
    execDepotRowStart rk s =
      .next (s.startRow rk (s.task rk).next { s.task rk with next := (s.task rk).next + 1 }) := by
  unfold execDepotRowStart
  dsimp only
  rw [if_neg (by rw [h]; decide), hs]
  simp only [List.find?_nil, if_pos hn, if_neg hw]

/-- Where a row runs does not depend on how far its task has got. -/
theorem placeOf_next (s : State) (t : DTask) (n r : Nat) : s.placeOf { t with next := n } r = s.placeOf t r := rfl

theorem rowStart_room {u : Nat} {y : Xlat} (h : s.taskRuns rk = true) (hs : (s.task rk).skipped = [])
    (hn : (s.task rk).next < (s.task rk).cmd.nrows) (hp : s.placeOf (s.task rk) (s.task rk).next = .depot u y)
    (hr : s.depotRoom u = true) : ∃ t, execDepotRowStart rk s = .next t ∧ (t.task rk).next = (s.task rk).next + 1 ∧
      (t.task rk).skipped = [] ∧
      t.rows.get? (rowKey rk (s.task rk).next) = some (newRow (s.task rk) (s.task rk).next (some u) none) ∧
      t.hbm = s.hbm ∧ t.roles = s.roles := by
  have hstart : s.startRow rk (s.task rk).next { s.task rk with next := (s.task rk).next + 1 } =
      ((s.updTask rk fun _ => { s.task rk with next := (s.task rk).next + 1 }).notePages rk y).setRow
        (rowKey rk (s.task rk).next) (newRow (s.task rk) (s.task rk).next (some u) none) := by
    rw [State.startRow, placeOf_next, hp]
    exact if_pos hr
  have htask : (((s.updTask rk fun _ => { s.task rk with next := (s.task rk).next + 1 }).notePages rk y).setRow
      (rowKey rk (s.task rk).next) (newRow (s.task rk) (s.task rk).next (some u) none)).task rk =
      ((s.updTask rk fun _ => { s.task rk with next := (s.task rk).next + 1 }).notePages rk y).task rk := rfl
  refine ⟨_, rowStart_next h hs hn (by rw [hp]; nofun), ?_⟩
  rw [hstart, htask, State.notePages, State.task_updTask_self, State.task_updTask_self]
  exact ⟨rfl, hs, NMap.get?_put_self .., rfl, rfl⟩

theorem rowStart_full {u : Nat} {y : Xlat} (h : s.taskRuns rk = true) (hs : (s.task rk).skipped = [])
    (hn : (s.task rk).next < (s.task rk).cmd.nrows) (hp : s.placeOf (s.task rk) (s.task rk).next = .depot u y)
    (hr : s.depotRoom u = false) : ∃ t, execDepotRowStart rk s = .next t ∧ t.rows = s.rows ∧
      (t.task rk).skipped = [(s.task rk).next] := by
  refine ⟨_, rowStart_next h hs hn (by rw [hp]; nofun), ?_⟩
  rw [State.startRow, placeOf_next, hp]
  dsimp only
  rw [hr, if_neg Bool.false_ne_true, State.task_updTask_self, hs]
  exact ⟨rfl, rfl⟩

theorem rowStart_status {n : Nat} (h : s.taskRuns rk = true) (hs : (s.task rk).skipped = [])
    (hn : (s.task rk).next < (s.task rk).cmd.nrows) (hp : s.placeOf (s.task rk) (s.task rk).next = .status n) :
    ∃ t, execDepotRowStart rk s = .next t ∧ (t.task rk).status = n ∧ t.rows = s.rows ∧ t.hbm = s.hbm ∧
      t.roles = s.roles := by
  refine ⟨_, rowStart_next h hs hn (by rw [hp]; nofun), ?_⟩
  rw [State.startRow, placeOf_next, hp]
  dsimp only
  rw [State.task_updTask_self]
  exact ⟨rfl, rfl, rfl, rfl⟩

/-- An anchor that no depot serves. -/
theorem placeOf_unserved {t : DTask} {r ia : Nat} {y : Xlat} (hi : s.toIa (s.vfOf t.rk) (t.anchor r).toNat 1 = .ia ia)
    (hy : s.translateIa (s.vf (s.vfOf t.rk)).part ia 1 false = .ok y) (hd : y.dual = false) (hm : y.migrating = false)
    (hu : s.depotOf (y.pas.headD 0) = none) : s.placeOf t r = .status 11 := by
  simp only [State.placeOf, hi, hy, hd, hm, hu, Bool.false_and, Bool.false_eq_true, if_false]

/-! ### The end of a task (R353, R354) -/

theorem has_erase {α : Type} (m : NMap α) (k : Nat) : (m.erase k).has k = false := by
  induction m with
  | nil => rfl
  | cons e m ih =>
    obtain ⟨j, v⟩ := e
    by_cases hj : k = j
    · rw [NMap.erase, if_pos hj, ih]
    · rw [NMap.erase, if_neg hj, NMap.has, NMap.get?, if_neg hj]
      exact ih

theorem chargeCmd_kept (s : State) (id : Nat) (c : Cmd) : (s.chargeCmd id c).roles = s.roles ∧
    (s.chargeCmd id c).tasks = s.tasks ∧ (s.chargeCmd id c).hbm = s.hbm := by
  unfold State.chargeCmd
  dsimp only
  split
  · exact ⟨rfl, rfl, rfl⟩
  · split <;> exact ⟨rfl, rfl, rfl⟩

theorem engQ_of_roles {u v : State} (h : u.roles = v.roles) (k q : Nat) : u.engQ k q = v.engQ k q := by
  rw [State.engQ, State.engQ, State.role, State.role, h]

theorem engQ_updEng (s : State) (rk q : Nat) (f : EngQ → EngQ) :
    (s.updRole rk fun r => r.updEng q f).engQ rk q = f (s.engQ rk q) := by
  rw [State.engQ, State.role_updRole_self]
  exact NMap.get_put_self ..

/-- The command of a task that is over has its result, and the task's record is gone. -/
theorem taskResult_kept (hr : firstRole ≤ rk) (hc : (s.engQ rk 5).run = some c) (st : Nat) :
    (s.taskResult rk st).engQ rk 5 =
      { s.engQ rk 5 with run := some { c with result := some (st, (s.task rk).ended), prog := c.prog.released } } ∧
    (s.taskResult rk st).tasks.has rk = false ∧ (s.taskResult rk st).hbm = s.hbm := by
  obtain ⟨heng, -, -, hhbm⟩ := cmdEnd_role (q := 5) hr hc st (s.task rk).ended
  exact ⟨heng, has_erase .., hhbm⟩

theorem completeCmd_result {st n : Nat} {d : Cmd} (hd : (s.engQ rk q).run = some d) (hres : d.result = some (st, n))
    (hev : d.ev = false) (hacks : d.acks = 0) : s.completeCmd rk q = s.postResult rk q d st n := by
  simp only [State.completeCmd, hd, hres, hacks, State.eventRoom, hev, Bool.not_false, Bool.true_or, decide_true,
    Bool.and_self, if_true]

theorem postResult_ok (s : State) (rk q n : Nat) {d : Cmd} (hev : d.ev = false) :
    (s.postResult rk q d 0 n).engQ rk q =
      { s.engQ rk q with run := none, done := (s.engQ rk q).done ++ [complWord d.tag 0 n] } ∧
    (s.postResult rk q d 0 n).tasks = s.tasks ∧ (s.postResult rk q d 0 n).hbm = s.hbm := by
  obtain ⟨hroles, htasks, hhbm⟩ := chargeCmd_kept s rk d
  have hpost : s.postResult rk q d 0 n = (s.chargeCmd rk d).updRole rk fun r => r.updEng q fun e =>
      { e with run := none, done := e.done ++ [complWord d.tag 0 n] } := by
    simp only [State.postResult, hev, true_or, Bool.false_eq_true, if_false, if_true]
  rw [hpost, engQ_updEng, engQ_of_roles hroles]
  exact ⟨rfl, htasks, hhbm⟩

/-- A queue with nothing behind the failing command is stopped, and discards nothing. -/
theorem failQ_alone (s : State) (rk q : Nat) (w : W64) (h : (s.engQ rk q).todo = []) :
    (s.failQ rk q w).engQ rk q =
      { s.engQ rk q with run := none, done := (s.engQ rk q).done ++ [w], stopped := true } ∧
    (s.failQ rk q w).tasks = s.tasks ∧ (s.failQ rk q w).hbm = s.hbm := by
  have heng := engQ_updEng s rk q fun e => { e with run := none, done := e.done ++ [w], stopped := true }
  have hdisc {u : State} (hu : (u.engQ rk q).todo = []) : u.discardQ rk q =
      u.updRole rk fun x => x.updEng q fun e => { e with todo := [], done := e.done ++ [] } := by
    have htodo : ((u.role rk).eng q).todo = [] := hu
    rw [State.discardQ, htodo]
    rfl
  rw [State.failQ, hdisc (by rw [heng]; exact h), engQ_updEng, heng]
  exact ⟨by simp only [List.append_nil, h], rfl, rfl⟩

theorem postResult_failed (s : State) (rk q n : Nat) {st : Nat} {d : Cmd} (hev : d.ev = false) (h0 : st ≠ 0) (h2 : st ≠ 2)
    (ht : (s.engQ rk q).todo = []) : (s.postResult rk q d st n).engQ rk q =
      { s.engQ rk q with run := none, done := (s.engQ rk q).done ++ [complWord d.tag st n], stopped := true } ∧
    (s.postResult rk q d st n).tasks = s.tasks ∧ (s.postResult rk q d st n).hbm = s.hbm := by
  obtain ⟨hroles, htasks, hhbm⟩ := chargeCmd_kept s rk d
  have hpost : s.postResult rk q d st n = (s.chargeCmd rk d).failQ rk q (complWord d.tag st n) := by
    simp only [State.postResult, hev, h0, h2, or_self, Bool.false_eq_true, if_false]
  have heng := engQ_of_roles hroles rk q
  obtain ⟨hfail, hft, hfh⟩ := failQ_alone (s.chargeCmd rk d) rk q (complWord d.tag st n) (by rw [heng]; exact ht)
  rw [hpost, hfail, heng, hft, hfh]
  exact ⟨rfl, htasks, hhbm⟩

theorem execTaskComplete_over (hc : (s.engQ rk 5).run = some c) (hres : c.result = none) (hst : c.stall = none)
    (ho : s.taskOver rk = true) : execTaskComplete rk s = .next ((s.taskFinish rk).completeCmd rk 5) := by
  simp only [execTaskComplete, hc, hres, hst, ho, Option.isSome_none, Option.isNone_none, Bool.true_and,
    Bool.false_eq_true, if_false, if_true]

/-- The step that completes a task whose result can be had at once. -/
theorem taskComplete_result (hr : firstRole ≤ rk) (hc : (s.engQ rk 5).run = some c) (hres : c.result = none)
    (hst : c.stall = none) (hev : c.ev = false) (hacks : c.acks = 0) (ho : s.taskOver rk = true) {st : Nat}
    (hf : s.taskFinish rk = s.taskResult rk st) : execTaskComplete rk s = .next ((s.taskResult rk st).postResult rk 5
      { c with result := some (st, (s.task rk).ended), prog := c.prog.released } st (s.task rk).ended) := by
  rw [execTaskComplete_over hc hres hst ho, hf]
  exact congrArg _ (completeCmd_result (congrArg EngQ.run (taskResult_kept hr hc st).1) rfl hev hacks)

theorem taskComplete_ok (hr : firstRole ≤ rk) (hc : (s.engQ rk 5).run = some c) (hres : c.result = none)
    (hst : c.stall = none) (hev : c.ev = false) (hacks : c.acks = 0) (ho : s.taskOver rk = true)
    (h0 : (s.task rk).status = 0) (hct : (s.task rk).cmd.ct = none) :
    ∃ t, execTaskComplete rk s = .next t ∧ t.tasks.has rk = false ∧ (t.engQ rk 5).run = none ∧
      (t.engQ rk 5).done = (s.engQ rk 5).done ++ [complWord c.tag 0 (s.task rk).ended] ∧ t.hbm = s.hbm := by
  have hf : s.taskFinish rk = s.taskResult rk 0 := by
    simp only [State.taskFinish, h0, hct, ne_eq, not_true_eq_false, if_false]
  obtain ⟨heng, hgone, hhbm⟩ := taskResult_kept hr hc 0
  obtain ⟨hpe, hpt, hph⟩ := postResult_ok (s.taskResult rk 0) rk 5 (s.task rk).ended
    (d := { c with result := some (0, (s.task rk).ended), prog := c.prog.released }) hev
  refine ⟨_, taskComplete_result hr hc hres hst hev hacks ho hf, ?_⟩
  rw [hpe, hpt, hph, heng]
  exact ⟨hgone, rfl, rfl, hhbm⟩

theorem taskComplete_failed (hr : firstRole ≤ rk) (hc : (s.engQ rk 5).run = some c) (hres : c.result = none)
    (hst : c.stall = none) (hev : c.ev = false) (hacks : c.acks = 0) (ho : s.taskOver rk = true) {n : Nat}
    (hn : (s.task rk).status = n) (h0 : n ≠ 0) (h2 : n ≠ 2) (ht : (s.engQ rk 5).todo = []) :
    ∃ t, execTaskComplete rk s = .next t ∧ t.tasks.has rk = false ∧ (t.engQ rk 5).run = none ∧
      (t.engQ rk 5).stopped = true ∧
      (t.engQ rk 5).done = (s.engQ rk 5).done ++ [complWord c.tag n (s.task rk).ended] ∧ t.hbm = s.hbm := by
  have hf : s.taskFinish rk = s.taskResult rk n := by
    simp only [State.taskFinish, hn, h0, ne_eq, not_false_eq_true, if_true]
  obtain ⟨heng, hgone, hhbm⟩ := taskResult_kept hr hc n
  obtain ⟨hpe, hpt, hph⟩ := postResult_failed (s.taskResult rk n) rk 5 (s.task rk).ended
    (d := { c with result := some (n, (s.task rk).ended), prog := c.prog.released }) hev h0 h2 (by rw [heng]; exact ht)
  refine ⟨_, taskComplete_result hr hc hres hst hev hacks ho hf, ?_⟩
  rw [hpe, hpt, hph, heng]
  exact ⟨hgone, rfl, rfl, rfl, hhbm⟩

theorem taskComplete_none (h : (s.engQ rk 5).run = none) : execTaskComplete rk s = .next s := by
  rw [execTaskComplete, h]

end

/-! ## The obligation -/

/-- Settles O33: a row's word by the outcome of its accesses, a task by its next row and its result. -/
theorem depots : Obligations.Depots := by
  unfold Obligations.Depots
  refine ⟨fun s key t cx l c m sx wb op d a b h => ⟨fun xs hal => ⟨dldr_reads h c m sx d hal, fun hok hp hpart => ?_⟩,
      fun w hw => ?_, fun w hw hact => ?_, fun v k wr =>
      ⟨fun hi => depotAcc_unmapped hi wr, fun ia x => depotAcc_mapped⟩, fun sw kcn kc => ⟨fun hd => ?_, fun hd => ⟨?_, ?_⟩⟩,
      fun hact => row_inactive h hact op a b, fun x hact hal => ⟨dwat_reads h hact hal, dtok_adds h hact hal⟩,
      fun x hact => dred_reduces h hact, dend_ends h c⟩,
    ⟨fun s rk c m sx wb op d a b h => ?_, fun x y => ⟨redStep_add x y, redStep_maxn x y, rfl, rfl⟩, fun op v vs => rfl⟩,
    fun s rk q c x => ⟨task_checked, rowStart_idle, fun h hs hn => ⟨fun u y hp => ⟨rowStart_room h hs hn hp,
      rowStart_full h hs hn hp⟩, fun n => rowStart_status h hs hn, fun ia y => placeOf_unserved⟩,
      fun hr hc hres hst hev hacks ho => ⟨taskComplete_ok hr hc hres hst hev hacks ho,
        fun n hn => taskComplete_failed hr hc hres hst hev hacks ho hn⟩, taskComplete_none⟩⟩
  · refine (dstr_writes h c m wb d hal hok hp hpart).trans (congrArg (fun u : State => Host.Outcome.next (u.laneDone false l)) ?_)
    refine List.foldl_ext _ _ _ fun u v _ => ?_
    cases wb with
    | none => rfl
    | some fs => exact rowUpdates_some u key t fs (mwBytes m.width) v
  · have hout := laneWord_outcome h hw
    refine ⟨hout.address, fun h3 hmis => ?_, fun h3 hal => ?_⟩
    · rw [(rowMis_iff m c cx l).2 hmis] at hout
      exact hout.misaligned h3
    · rw [rowMis_aligned hal] at hout
      exact ⟨fun sub v ia us => hout.page h3, hout.lost h3⟩
  · have hout := tokenWord_outcome h hact hw
    refine ⟨fun ho => hout.address (by rw [ho]; exact List.mem_singleton_self _), fun ho hmis => ?_, fun hal ho => ?_,
      fun sub v ia hal ho => ?_⟩
    · rw [bne_iff_ne.2 hmis] at hout
      exact hout.misaligned fun hm => ho (List.mem_singleton.1 hm).symm
    · rw [hal, bne_self_eq_false, ho] at hout
      refine hout.lost (by simp) (fun o hm => ?_) (List.mem_singleton_self _)
      obtain rfl := List.mem_singleton.1 hm
      exact ⟨nofun, nofun⟩
    · rw [hal, bne_self_eq_false, ho] at hout
      exact hout.page (by simp) rfl
  · exact vif_deep h hd sw kc kcn
  · exact (bare_stack h hd sw).1
  · exact (bare_stack h hd sw).2
  · exact depotWords_lane h c m sx wb op d a b

end Sys2Proof.Machine
end
